-- ==== Sys2Proof/Word.lean ====
section
/-! DEFINITION. The plain number types of the manual (R11: a word is 32 bits, a doubleword 64, bit 0 is the
least significant) and the one container the state uses for tables: a list of keyed entries. -/

namespace Sys2Proof

/-- A byte of memory or of a message. -/
abbrev Byte := BitVec 8
/-- A 32-bit word (R11). -/
abbrev Word := BitVec 32
/-- A 64-bit doubleword (R11). -/
abbrev Dword := BitVec 64

/-- A table: entries by ascending key, no key twice; a key that is not listed has the table's default. -/
abbrev SMap (α : Type) := List (Nat × α)

end Sys2Proof
end

