-- ==== Sys2Proof/Syntax.lean ====
section
/-! DEFINITION. The commands of the module: one constructor for each row of the operation table, and the operand
records they carry. -/

namespace Sys2Proof

/-- Who makes a CSR or memory access (R12, R34, R35, R39): a hart, a service processor of a CTD, the I3C
controller, or an engine (number j of R377) on behalf of a context. -/
inductive Initiator where
  | hart (n : Fin 32)
  | sp (ctd : Fin 2)
  | i3c
  | engine (j : Fin 112) (ctx : Fin 256)
deriving DecidableEq, Repr

/-- What a memory access does (R35, R36, R109): a load of `len` bytes, a store of bytes, or an atomic with the
ATOMIC_OP code of R109. -/
inductive AccessOp where
  | load (len : Nat)
  | store (bytes : List Byte)
  | amo (op : Fin 8) (w64 : Bool) (operand compare : BitVec 64)
deriving DecidableEq, Repr

/-- Damage to one 64-byte line as the devices return it (R185, R188-R190): the data bits and the bits of its 32-bit check
word that differ from what was stored, and the number of consecutive reads with an uncorrectable link-ECC error. `cache`
names the sectors (bit h: half h) in which the copy of the line in a host core's cache has an uncorrectable error (R197).
The physical fault comes from outside (log 7). -/
structure LineFlip where
  line : Nat
  data : BitVec 512
  check : BitVec 32
  linkErrs : Nat
  linkCorr : Nat
  cache : BitVec 2
deriving DecidableEq, Repr

/-- A physical error of a matrix engine: accumulation result word (`row`, `col`) of the tile differs by `mask`
(R369; log 8). -/
structure WordFlip where
  row : Nat
  col : Nat
  mask : Word
deriving DecidableEq, Repr

/-- What the time receiver looks at in the header of a PTP message (R10, R61): domain, transport, sourcePortIdentity, sequenceId,
logMessageInterval and correctionField in ns. -/
structure PtpHead where
  domain : BitVec 8
  udp : Bool
  src : BitVec 80
  seq : BitVec 16
  interval : Int
  corr : Int
deriving DecidableEq, Repr

/-- A PTP message the module's time-receiver clock uses (R10, R61): an Announce with what the best master clock algorithm
compares (grandmaster, priority1, clockQuality, priority2, stepsRemoved), a Sync of one step or two, its Follow_Up, or the
Delay_Resp to a Delay_Req of the port `req`. Times are nanoseconds of the reference. -/
inductive PtpMsg where
  | announce (head : PtpHead) (gm : BitVec 64) (prio1 : BitVec 8) (quality : BitVec 32) (prio2 : BitVec 8) (steps : BitVec 16)
  | sync (head : PtpHead) (twoStep : Bool) (origin : Int)
  | followUp (head : PtpHead) (origin : Int)
  | delayResp (head : PtpHead) (req : BitVec 80) (received : Int)
deriving DecidableEq, Repr

/-- The header of a PTP message. -/
def PtpMsg.head : PtpMsg → PtpHead
  | .announce h _ _ _ _ _ | .sync h _ _ | .followUp h _ | .delayResp h _ _ => h

/-- The payload of a TIMESTAMP response (R244): two LINK stamp words, the grandmaster, POD_LOCK and hop count. -/
structure TsResp where
  t2 : BitVec 64
  t3 : BitVec 64
  gm : BitVec 64
  lock : BitVec 8
  hop : BitVec 8
deriving DecidableEq, Repr

/-- An IDENT message (R238). -/
structure Ident where
  acked : Bool
  serial : BitVec 64
  coord : BitVec 15
  port : BitVec 8
  revMin : BitVec 8
  revMax : BitVec 8
  variant : BitVec 8
  fwRelease : BitVec 16
  flags : BitVec 8
deriving DecidableEq, Repr

/-- A Weagan packet: the fields of the header of R220, the husk mask of R222 (one bit per 32-byte sector) and the
payload. Segments carry their own reading of dwords 2 and 3 (R267). `rsvd` holds the reserved bits, all zero in a
well-formed packet. -/
structure Packet where
  ptype : BitVec 4
  cls : BitVec 2
  start : Bool
  hm : Bool
  esc : Bool
  dl : BitVec 3
  tsr : Bool
  dst : BitVec 15
  src : BitVec 15
  slice : BitVec 12
  epoch : BitVec 16
  seq : BitVec 16
  len : BitVec 13
  tsId : BitVec 16
  dw2 : BitVec 64
  dw3 : BitVec 64
  rsvd : BitVec 12
  mask : BitVec 128
  payload : List Byte
deriving DecidableEq, Repr

/-- The key of a convoy table entry (R270). -/
structure ConvoyKey where
  slice : BitVec 12
  epoch : BitVec 16
  convoy : BitVec 16
deriving DecidableEq, Repr

/-- An ABORT packet's payload (R272). -/
structure AbortMsg where
  key : ConvoyKey
  cause : BitVec 4
  origin : BitVec 15
  originPod : BitVec 64
deriving DecidableEq, Repr

/-- An ABORT and the module that sent it, the SRC of its packet's header (R220, R273). -/
structure AbortFrom where
  src : BitVec 15
  msg : AbortMsg
deriving DecidableEq, Repr

/-- The convoy of an ABORT_ACK and the module that sent it (R220, R272). -/
structure AckFrom where
  src : BitVec 15
  key : ConvoyKey
deriving DecidableEq, Repr

/-- The value of a register write, and the W1C bits that hardware sets in the same cycle (R12). -/
structure CsrValue where
  value : BitVec 64
  hwSet : BitVec 64
deriving DecidableEq, Repr

/-- Stacks by number that have lost their contents at a module recovery, and those of them that lost power (R206). -/
structure LostStacks where
  content : BitVec 24
  power : BitVec 24
deriving DecidableEq, Repr

/-- A frame on the management port (R486), by what the port looks at. -/
inductive MgmtFrame where
  /-- An ARP request for an IPv4 address, from a station. -/
  | arpRequest (target senderIp : BitVec 32) (senderMac : BitVec 48)
  /-- An ARP reply. -/
  | arpReply (senderIp : BitVec 32) (senderMac : BitVec 48)
  /-- A Layer-2 PTP frame (EtherType 0x88F7). -/
  | ptp (msg : PtpMsg)
  /-- An IPv4 datagram: destination station address, IP destination, whether it has options or is a fragment, the
  UDP destination port (none: not UDP), source address and port, payload. -/
  | ipv4 (dstMac : BitVec 48) (dst : BitVec 32) (plain : Bool) (udpPort : Option (BitVec 16))
      (src : BitVec 32) (srcPort : BitVec 16) (payload : List Byte)
  /-- Anything else. -/
  | other
deriving DecidableEq, Repr

/-- A Darid command as its final fragment completes it (R320, R321): the CTD and channel it arrived on, its SEQ and
its argument words. -/
structure DReq where
  ctd : Fin 2
  ch : Fin 512
  seq : BitVec 8
  args : List Word
deriving DecidableEq, Repr

/-- The result of one sieve pattern on an engine (R379): whether it failed, and whether each rerun failed. -/
structure PatternResult where
  pattern : Nat
  sigId : Nat
  fail : Bool
  rerun1 : Bool
  rerun2 : Bool
deriving DecidableEq, Repr

/-- What an NVMe controller returns for one 4 KiB logical block (R444): its data and husk mask, or none for an
unrecovered read error. -/
structure NvmeBlock where
  data : Option (List Byte)
  husks : BitVec 128
deriving DecidableEq, Repr

/-- What the rail sensors and the dies' attribution counters report for one 10 µs interval (R452, R455): rail readings
in millivolts and milliamperes, and per account the reference cycles, bytes and flits it used. -/
structure RailSample where
  inputMv : Nat
  inputMa : Nat
  /-- Core rails of CD0-CD3, I/O rails of CD0-CD3, LPDDR, optical, CTD with always-on (11 rails): millivolts and milliamperes. -/
  rails : List (Nat × Nat)
  /-- Cycles of unit `unit` (0-15 ME, 16-19 VE, 20-27 DE, 28-35 hart) of a die held by a tag account. -/
  tagCycles : List (Nat × Nat × Nat × Nat)
  /-- Cycles of a unit held by a context's continuity work. -/
  ctxCycles : List (Nat × Nat × Nat × Nat)
  /-- Cycles of a unit held by module work (sieve runs). -/
  modCycles : List (Nat × Nat × Nat)
  /-- Memory bytes moved, by rate code, for a tag. -/
  tagBytes : List (Nat × Nat × Nat)
  /-- Flits sent, by level, for a tag. -/
  tagFlits : List (Nat × Nat × Nat)
  /-- The same of a context's continuity work. -/
  ctxBytes : List (Nat × Nat × Nat)
  ctxFlits : List (Nat × Nat × Nat)
  /-- Memory bytes and flits of module work, by rate code and by level. -/
  modBytes : List (Nat × Nat)
  modFlits : List (Nat × Nat)
  /-- Dies whose report for the interval is missing. -/
  missing : BitVec 4
  /-- The junction temperatures (m°C) of the dies and the temperature of the CTD, for the live counters. -/
  temps : List Int
deriving DecidableEq, Repr

/-- The reset levels of R416. -/
inductive ResetLevel where
  | context
  | engine
  | die
  | module
deriving DecidableEq, Repr


/-- The commands: one constructor for each row of `spec/opcode_table.json`. The table gives no operands; those
here are what the rule named needs (log 5). A Darid row is one accepted command with its channel, SEQ and argument words. -/
inductive Instr where
  /-- R12. A write to a CSR register that has no row of its own, applied per its access type, with the width and alignment checks of R14. -/
  | csrRegisterWrite (init : Initiator) (addr : BitVec 52) (width : Nat) (value : CsrValue)
  /-- R35. A host core, ME, VE or DE access to a module physical address is decoded into a local, board-remote or error outcome. -/
  | hostMemoryAccess (init : Initiator) (op : AccessOp) (addr : BitVec 52) (flips : List LineFlip)
  /-- R42. A 32-bit write with LOCK = 1 sets and locks the module ID, or is rejected against the variant. -/
  | modIdWrite (init : Initiator) (value : BitVec 32)
  /-- R45. A write that changes SUBST takes down the affected rack-leaving port, switches the engine and retrains it. -/
  | modOptSpareWrite (init : Initiator) (value : BitVec 32)
  /-- R21. A ring edge going down or an intermediate die entering reset starts a diagonal path change. -/
  | ringEdgeDown (edge : Fin 4)
  /-- R21. When both conditions clear, the diagonal pair starts moving back to its default path. -/
  | ringEdgeUp (edge : Fin 4)
  /-- R21. Once in-flight transactions on the old path have completed or failed, the waiting requests are released onto the new path. -/
  | diagPathSwitch (pair : Fin 2)
  /-- R54. A compute die receives a time-bus frame carrying POD, TOLL, MONO, STEP, rate and state. -/
  | timeBusFrame (die : Fin 4)
  /-- R56. A die that has had no valid frame for 3 µs enters holdover and extrapolates each base. -/
  | holdoverEntry (die : Fin 4)
  /-- R61. A PTP Sync or Delay_Resp message is received on the management port by the time-receiver-only clock. -/
  | ptpMessageReceive (msg : PtpMsg)
  /-- R67. A completed offset measurement is applied by slewing, refused as a jump, or counted toward lock. -/
  | podOffsetMeasured (offset : Int) (gm : BitVec 64)
  /-- R62. After 3 s without a valid measurement the servo enters HOLD and logs the loss of lock. -/
  | podLockLost
  /-- R65. A rising edge on the 1PPS input is stamped and used as the phase reference of the second. -/
  | ppsInEdge
  /-- R65. No 1PPS edge for 2 s clears PPS_IN_SEEN and the servo uses the selected reference alone. -/
  | ppsInFault
  /-- R66. At each POD second boundary the active CTD raises the 1PPS output. -/
  | ppsOutRise
  /-- R66. The 1PPS output is lowered 100 ms after it rose. -/
  | ppsOutFall
  /-- R244. At each interval the module sends a TIMESTAMP request on the disciplining Weagan port. -/
  | timestampRequestSend
  /-- R244. A neighbour stamps a received TIMESTAMP request and answers with t2, t3 and its lock state. -/
  | timestampRequestReceive (port : Fin 13) (src : BitVec 15)
  /-- R244. The requester stamps t4 and forms an offset measurement if the response qualifies. -/
  | timestampResponseReceive (port : Fin 13) (resp : TsResp)
  /-- R74. A 64-bit read of TB_TSQ_POPg removes the head entry and latches its stamp word. -/
  | tbTsqPop (init : Initiator) (ctd : Fin 2) (g : Fin 5) (width : Nat) (upper : Bool)
  /-- R79. The active CTD arms a schedule entry on each die of DIE_MASK at least 50 ms before its next POD key. -/
  | scheduleArm (entry : Fin 1024)
  /-- R79. A die's POD or (STEP, phase) reaches an armed key and the entry's action is dispatched in fixed order. -/
  | scheduleFire (die : Fin 4)
  /-- R362. The copy unit finishes a tensor dump or digest and writes the header last, or the dump fails with a reason. -/
  | tensorDumpDone (die : Fin 4) (flips : List LineFlip)
  /-- R98. A write to Q_TAIL sets the queue's tail if it is in range, or sets DB_ERR. -/
  | qTailDoorbell (ctx : Fin 256) (q : Fin 64) (value : BitVec 32)
  /-- R99. A write of 1 to RESUME returns a STOPPED queue to ACTIVE. -/
  | qCtrlResume (ctx : Fin 256) (q : Fin 64) (value : BitVec 32)
  /-- R102. An engine selects a ready queue, fetches a descriptor, checks it in order and starts it or completes it with a failure. -/
  | descriptorFetch (eng : Fin 112) (flips : List LineFlip)
  /-- R100. A descriptor's writes become visible, its completion record is written at the commit point, then signal and interrupt follow. -/
  | descriptorComplete (ctx : Fin 256) (q : Fin 64) (flips : List LineFlip)
  /-- R121. A write to DE_SEM_VALUE sets a semaphore's value. -/
  | deSemValueWrite (sem : Fin 16384) (value : BitVec 32)
  /-- R121. A write to DE_SEM_ADD adds the amount to a semaphore atomically. -/
  | deSemAddWrite (sem : Fin 16384) (amount : BitVec 32)
  /-- R367. An ME finishes accumulating a grid tile and checks it with ABFT before adding and writing. -/
  | meTileDone (ctx : Fin 256) (q : Fin 64) (index : BitVec 32) (tile : Nat) (tileUe : Bool) (err1 : List WordFlip) (err2 : List WordFlip) (flips : List LineFlip)
  /-- R373. The checker engine's recomputation completes and is compared with the original tile. -/
  | checkerVerdict (ctx : Fin 256) (q : Fin 64) (index : BitVec 32) (tile : Nat) (err : List WordFlip) (flips : List LineFlip)
  /-- R375. The third computation completes and decides which result is used and which engine is suspect. -/
  | arbiterVerdict (ctx : Fin 256) (q : Fin 64) (index : BitVec 32) (tile : Nat) (err : List WordFlip) (flips : List LineFlip)
  /-- R165. A write of 1 to PASS_START requests a new stash pass. -/
  | stashPassStart (ctx : Fin 256) (value : BitVec 32)
  /-- R165. Once no producer of the previous pass is in flight, the pass opens and the stash counters reset. -/
  | stashPassOpen (ctx : Fin 256)
  /-- R167. A write to STASH_ARM.COUNT asks the module to arm further entries. -/
  | stashArmWrite (ctx : Fin 256) (value : BitVec 32)
  /-- R167. The module reads, checks and allocates one stash entry, writes its dwords and signals the arm semaphore. -/
  | stashArmEntry (ctx : Fin 256) (flips : List LineFlip)
  /-- R169. A write to STASH_RETIRE.COUNT retires entries in index order, freeing stashed space. -/
  | stashRetireWrite (ctx : Fin 256) (value : BitVec 32)
  /-- R201. The scrubber reads, decodes and writes back the next raw line of each channel. -/
  | patrolScrubStep (die : Fin 4) (flips : List LineFlip)
  /-- R183. Stack training ends at the highest passing rate or FAILED. -/
  | memTrainingDone (stack : Fin 24) (best : Fin 4)
  /-- R203. A die finishes zeroing its usable region and sets INIT_DONE. -/
  | memInitDone (die : Fin 4)
  /-- R186. A stack temperature report crosses 95 °C or 90 °C and the bandwidth limit is applied or lifted. -/
  | memThermal (stack : Fin 24) (tempC : BitVec 8)
  /-- R215. A port sends a DATA flit when credit and replay-buffer room allow. -/
  | flitTransmit (port : Fin 13)
  /-- R214. A port receives a flit, decodes FEC and CRC, and accepts, discards or NAKs it, replaying on a NAK. -/
  | flitReceive (port : Fin 13) (flit : List (BitVec 8))
  /-- R215. The oldest unacknowledged flit has waited 10 µs or 50 µs and the sender replays. -/
  | replayTimeout (port : Fin 13)
  /-- R217. A lane losing lock starts a retrain of the port. -/
  | laneLockLoss (port : Fin 13)
  /-- R217. A retrain ends, resuming replay, or counts a failure toward DOWN. -/
  | wgRetrain (port : Fin 13) (failedLanes : BitVec 16) (resumeFrom : BitVec 16)
  /-- R238. An IDENT message is received and the exchange outcome of R240 sets the port's state. -/
  | identReceive (port : Fin 13) (ident : Ident)
  /-- R238. No IDENT within 10 ms of lane lock makes the port retrain. -/
  | identTimeout (port : Fin 13)
  /-- R228. A data request enters a module and is checked for boundary, route, peer state, slice, epoch, address and window. -/
  | packetArrive (port : Fin 13) (pkt : Packet) (flips : List LineFlip)
  /-- R226. A request waiting in the reorder store is delivered once the expected SEQ reaches it. -/
  | reorderedRequestDeliver (remote : BitVec 15) (cls : Fin 4) (flips : List LineFlip)
  /-- R224. The issuer receives a RESP and turns its status into the request's outcome. -/
  | respReceive (pkt : Packet)
  /-- R226. A request without final response after TIMEOUT is resent, or fails as PEER_UNREACHABLE. -/
  | requestTimeout (remote : BitVec 15) (cls : Fin 4) (seq : BitVec 16)
  /-- R224. A request answered BUSY is resent after one eighth of TIMEOUT. -/
  | busyResend (remote : BitVec 15) (cls : Fin 4) (seq : BitVec 16)
  /-- R230. A request answered EPOCH_AHEAD is resent every 100 µs. -/
  | epochAheadResend (remote : BitVec 15) (cls : Fin 4) (seq : BitVec 16)
  /-- R230. After EPOCH_WAIT the request fails with EPOCH_MISMATCH and its flow fails. -/
  | epochWaitExpiry (remote : BitVec 15) (cls : Fin 4) (seq : BitVec 16)
  /-- R227. A sender or target part of a peer-state entry is released after its idle time. -/
  | peerEntryRelease (remote : BitVec 15) (target : Bool)
  /-- R261. A collective segment arrives and is combined, forwarded, written or acknowledged. -/
  | collSegReceive (port : Fin 13) (pkt : Packet)
  /-- R268. A segment ACK arrives and the sender acts on its status. -/
  | segAckReceive (port : Fin 13) (pkt : Packet)
  /-- R268. A segment with no ACK after TIMEOUT aborts the convoy with cause TIMEOUT. -/
  | segAckTimeout (key : ConvoyKey) (port : Fin 13) (skind : Fin 16) (seg : Nat) (step : Nat)
  /-- R268. A segment answered NOT_READY is resent after 10 µs. -/
  | notReadyResend (key : ConvoyKey) (port : Fin 13) (skind : Fin 16) (seg : Nat) (step : Nat)
  /-- R268. A segment answered AHEAD is resent every 100 µs until EPOCH_WAIT. -/
  | segAheadResend (key : ConvoyKey) (port : Fin 13) (skind : Fin 16) (seg : Nat) (step : Nat)
  /-- R276. A caravan DATA or DIGEST packet is stored, forwarded to children and checked. -/
  | caravanSegReceive (port : Fin 13) (pkt : Packet)
  /-- R273. An ABORT packet is acted on by the state of the convoy entry and answered ABORT_ACK. -/
  | abortReceive (port : Fin 13) (msg : AbortFrom)
  /-- R272. An ABORT without ABORT_ACK is repeated every 20 µs, at most 10 times. -/
  | abortResend (key : ConvoyKey) (port : Fin 13)
  /-- R272. An ABORT_ACK stops the repetition of the ABORT to that neighbour. -/
  | abortAckReceive (port : Fin 13) (key : AckFrom)
  /-- R270. A COMPLETE or ABORTED convoy entry is freed after 1 s. -/
  | convoyEntryFree (key : ConvoyKey)
  /-- R286. The holder writes GEN to LEASE_RENEW and the expiry moves 20 ms ahead. -/
  | leaseRenew (init : Initiator) (gen : BitVec 32)
  /-- R288. A CTD writes GEN to LEASE_CLAIM and is granted the waybill if the conditions hold. -/
  | leaseClaim (init : Initiator) (gen : BitVec 32)
  /-- R287. The holder releases the waybill and the gates close without guard. -/
  | leaseRelease (init : Initiator) (value : BitVec 32)
  /-- R291. The holder opens the gates after a renewal, ending the switchover gap. -/
  | leaseOpen (init : Initiator) (value : BitVec 32)
  /-- R287. The lease expires without renewal, closing the gates and starting the guard. -/
  | leaseExpiry
  /-- R287. The 5 ms guard after an expiry ends and claims may be granted. -/
  | leaseGuardEnd
  /-- R297. A CTD writes KICK to restart its own watchdog period. -/
  | ctdWdogKick (init : Initiator) (ctd : Fin 2) (value : BitVec 32)
  /-- R297. A watchdog expires; the holder loses the waybill or the standby is reset. -/
  | ctdWdogExpired (ctd : Fin 2)
  /-- R296. A former holder leaves reset after 100 ms, boots and self-tests. -/
  | holderResetRelease (ctd : Fin 2) (selfTestFail : Option (Fin 6))
  /-- R289. A standby reads LEASE_STATUS every 100 µs and claims if claimable and no holder exists. -/
  | standbyLeasePoll (ctd : Fin 2)
  /-- R292. Gates not opened 40 ms after closing make the lease cell start module recovery. -/
  | switchoverGapTimeout
  /-- R299. Every 100 ms the standby compares the mirror sequence and CRC with its copy. -/
  | mirrorCheck (seqSent : BitVec 32) (crcSent : BitVec 32) (crcOwn : BitVec 32)
  /-- R299. The full mirror copy completes and the standby can return to GOOD. -/
  | resyncCopyDone (ctd : Fin 2)
  /-- R299. The standby runs its periodic sieve, SRAM scrub and time checks. -/
  | standbySelfTest (ctd : Fin 2) (test : Fin 3) (pass : Bool) (detail : BitVec 32)
  /-- R300. Once per second the standby publishes its health report. -/
  | standbyHealth (ctd : Fin 2) (timeDiffNs : BitVec 32) (tempC : BitVec 32)
  /-- R306. Averaged input power or current above its clamp lowers the ME clocks. -/
  | powerLimiterSample (avgPowerW : Nat) (avgCurrentDA : Nat)
  /-- R315. A write stores a word of the next down message while FULL = 0. -/
  | mbTxWordWrite (init : Initiator) (ctd : Fin 2) (ch : Fin 512) (n : Fin 8) (value : BitVec 32)
  /-- R315. Writing GO commits the down message and sets FULL. -/
  | mbTxCommit (init : Initiator) (ctd : Fin 2) (ch : Fin 512) (value : BitVec 32)
  /-- R325. The CTD pops a down message and, on a final fragment, checks and executes the command. -/
  | mbPop (ctd : Fin 2) (ch : Fin 512)
  /-- R316. The CTD places a response or event in the up queue once FULL = 0. -/
  | mbUpPlace (ctd : Fin 2) (ch : Fin 512)
  /-- R316. A read of MB_RX_POP returns the header and clears FULL. -/
  | mbRxPop (init : Initiator) (ctd : Fin 2) (ch : Fin 512)
  /-- R318. A Darid UDP datagram arrives on the management port and is bound or placed in its channel. -/
  | mgmtDatagramReceive (srcIp : BitVec 32) (srcPort : BitVec 16) (payload : List (BitVec 8))
  /-- R319. A Weagan MGMT packet carrying Darid binds or uses a fabric-peer channel. -/
  | mgmtPacketReceive (src : BitVec 15) (payload : List (BitVec 8))
  /-- R318. A management or fabric channel binding ends after its idle time. -/
  | channelBindingExpiry (ch : Fin 512)
  /-- R321. An open command without a fragment for 1 s is discarded. -/
  | fragmentTimeout (ctd : Fin 2) (ch : Fin 512)
  /-- R486. A frame on the management port is accepted, answered by ARP or discarded. -/
  | mgmtFrameReceive (frame : MgmtFrame)
  /-- R332. InvCaps returns MOD_CAPS, serial, firmware release and Darid revision. -/
  | invCaps (r : DReq)
  /-- R332. InvDie returns a die's inventory, memory status and ring status. -/
  | invDie (r : DReq)
  /-- R332. InvStack returns a stack's inventory and status. -/
  | invStack (r : DReq)
  /-- R332. InvOptical returns an optical engine's inventory and media settings. -/
  | invOptical (r : DReq)
  /-- R332. InvCtd returns a CTD's status, lease state and clamp source. -/
  | invCtd (r : DReq)
  /-- R42. InvSetId writes MOD_ID with LOCK = 1. -/
  | invSetId (r : DReq)
  /-- R45. InvSetSpare writes MOD_OPT_SPARE.SUBST and completes when the retrains end. -/
  | invSetSpare (r : DReq)
  /-- R318. ChannelRelease ends the binding of a management or fabric channel. -/
  | channelRelease (r : DReq)
  /-- R91. ContextCreate moves a FREE context to ACTIVE. -/
  | contextCreate (r : DReq)
  /-- R502. ContextRelease stops a context, closes its tags, removes its resources and frees it. -/
  | contextRelease (r : DReq)
  /-- R333. ContextGrant allots a kind of resource to a context, all or nothing. -/
  | contextGrant (r : DReq)
  /-- R333. ContextRevoke returns resources of a context unless in use. -/
  | contextRevoke (r : DReq)
  /-- R95. QueueCreate binds a new queue of a context to an engine with its rings. -/
  | queueCreate (r : DReq)
  /-- R332. QueueSetIrq sets a queue's interrupt address and data. -/
  | queueSetIrq (r : DReq)
  /-- R332. QueueDelete unbinds a queue once its started descriptors complete. -/
  | queueDelete (r : DReq)
  /-- R90. ContextBindHart binds or unbinds a hart to a context. -/
  | contextBindHart (r : DReq)
  /-- R117. TwinJoin joins two MEs into a twin pair for one context. -/
  | twinJoin (r : DReq)
  /-- R117. TwinSplit separates a twin pair with no bound queue. -/
  | twinSplit (r : DReq)
  /-- R155. ContextSetDebug sets or clears the debug flag and its dump ring. -/
  | contextSetDebug (r : DReq)
  /-- R164. ContextStashReserve sets a context's stash reservation and leaves it IDLE. -/
  | contextStashReserve (r : DReq)
  /-- R164. ContextStashRelease removes the stash reservation. -/
  | contextStashRelease (r : DReq)
  /-- R332. ContextQuery returns a context's state, stash state, slice binding and epoch. -/
  | contextQuery (r : DReq)
  /-- R249. SliceSet writes a slice entry with derived wrap and boundary sets. -/
  | sliceSet (r : DReq)
  /-- R253. SliceEpoch sets a newer epoch, discards the slice's convoys and aborts its started collectives. -/
  | sliceEpoch (r : DReq)
  /-- R231. SliceWindow writes an inbound window of a slice. -/
  | sliceWindow (r : DReq)
  /-- R254. SliceRelease invalidates a slice entry with no bound context. -/
  | sliceRelease (r : DReq)
  /-- R252. ContextBindSlice binds a context to a slice and gives it the slice's epoch. -/
  | contextBindSlice (r : DReq)
  /-- R273. ConvoyAbort acts as an ABORT with cause COMMAND originating at this module. -/
  | convoyAbort (r : DReq)
  /-- R76. ScheduleWrite validates and writes a schedule entry, mirrored to the standby. -/
  | scheduleWrite (r : DReq)
  /-- R76. ScheduleClear removes a schedule entry. -/
  | scheduleClear (r : DReq)
  /-- R332. ScheduleRead returns a schedule entry. -/
  | scheduleRead (r : DReq)
  /-- R382. SievePackCommit verifies and commits a staged sieve pack. -/
  | sievePackCommit (r : DReq)
  /-- R332. SievePolicy sets slot period, probation period and checker exponent. -/
  | sievePolicy (r : DReq)
  /-- R332. SieveRunNow runs the pack on one engine and reports pass or fail. -/
  | sieveRunNow (r : DReq)
  /-- R332. SieveQuery returns an engine's last clean step and status. -/
  | sieveQuery (r : DReq)
  /-- R391. TaintRead returns words of a context's taint map. -/
  | taintRead (r : DReq)
  /-- R391. TaintClear clears a context's taint map and summary. -/
  | taintClear (r : DReq)
  /-- R392. TallyQuery returns the tally and its state. -/
  | tallyQuery (r : DReq)
  /-- R424. HoardConfig sets a context's hoard partners, holding region and predecessor. -/
  | hoardConfig (r : DReq)
  /-- R427. HoardSnapshot starts a held snapshot of a context to its partners. -/
  | hoardSnapshot (r : DReq)
  /-- R428. Once started descriptors of the context complete, the read point is latched and copying begins. -/
  | hoardReadPoint (ctx : Fin 256)
  /-- R428. The OK answer to the VALID metadata PUT commits a copy, and the next copy starts. -/
  | hoardCopyCommit (ctx : Fin 256)
  /-- R435. HoardRestore reads back a copy of this module's context from one partner. -/
  | hoardRestore (r : DReq)
  /-- R436. SpareFill fills a context with a lost module's state from its hoard sources. -/
  | spareFill (r : DReq)
  /-- R437. A fill or restore writes its last unit, cursors and streams, releases the hold and answers. -/
  | spareFillDone (ctx : Fin 256)
  /-- R443. CellarWrite moves memory to NVMe blocks with husk masks. -/
  | cellarWrite (r : DReq)
  /-- R443. CellarRead moves NVMe blocks to memory, restoring husks. -/
  | cellarRead (r : DReq)
  /-- R445. A cellar command ends with its outcome. -/
  | cellarDone (port : Fin 2) (failed : Option Bool) (blocks : List NvmeBlock)
  /-- R433. SeedStreamSet writes a seed stream's key and counter. -/
  | seedStreamSet (r : DReq)
  /-- R433. SeedStreamGet returns a stream's key and next counter. -/
  | seedStreamGet (r : DReq)
  /-- R434. DataCursorSet writes a data cursor. -/
  | dataCursorSet (r : DReq)
  /-- R434. DataCursorGet reads a data cursor. -/
  | dataCursorGet (r : DReq)
  /-- R406. ContextReset starts a context reset. -/
  | contextReset (r : DReq)
  /-- R406. A context reset ends, rewinding queues and returning the context to ACTIVE. -/
  | contextResetDone (ctx : Fin 256)
  /-- R409. EngineReset starts an engine reset. -/
  | engineReset (r : DReq)
  /-- R409. An engine reset completes its steps and sieve run and the engine takes work again. -/
  | engineResetEnd (eng : Fin 112) (patterns : List PatternResult)
  /-- R411. DieReset starts a compute-die reset. -/
  | dieReset (r : DReq)
  /-- R411. A die reset completes, restoring semaphores, schedule entries and time and releasing the harts. -/
  | dieResetEnd (die : Fin 4) (patterns : List (Nat × List PatternResult)) (cacheLost : List Nat)
  /-- R414. ModuleRecover answers OK and starts module recovery. -/
  | moduleRecover (r : DReq)
  /-- R414. Module recovery completes with host cores released and RECOVERY cleared. -/
  | moduleRecovery (lostStacks : LostStacks) (patterns : List (Nat × List PatternResult))
  /-- R416. A reset that overruns its limit is taken over by the next larger reset. -/
  | resetEscalated (level : ResetLevel) (unit : Nat)
  /-- R287. Switchover makes the holder release the waybill to a claimable standby. -/
  | switchover (r : DReq)
  /-- R404. FaultRecordRead returns a context's fault record. -/
  | faultRecordRead (r : DReq)
  /-- R332. MemClear writes zeros with valid check words over a range of the module's memory. -/
  | memClear (r : DReq)
  /-- R332. OosQuery returns OOS_STATUS and the nonce. -/
  | oosQuery (r : DReq)
  /-- R309. OosLatchClear verifies an operator token, clears the latch and starts recovery. -/
  | oosLatchClear (r : DReq)
  /-- R350. LedgerStatus returns the oldest and newest sequences and dropped count. -/
  | ledgerStatus (r : DReq)
  /-- R350. LedgerRead returns records at or above a sequence from RAM and flash. -/
  | ledgerRead (r : DReq)
  /-- R342. LedgerAppend appends a software record through the append registers. -/
  | ledgerAppend (r : DReq)
  /-- R323. LedgerSubscribe sets or cancels the severity of events a channel receives. -/
  | ledgerSubscribe (r : DReq)
  /-- R351. CounterSelect sets a counter's event selection and clears it. -/
  | counterSelect (r : DReq)
  /-- R357. CounterRead returns a frozen bank or current counter values. -/
  | counterRead (r : DReq)
  /-- R353. LiveCounterRead returns live counters. -/
  | liveCounterRead (r : DReq)
  /-- R360. WatchDefine names a tensor by handle. -/
  | watchDefine (r : DReq)
  /-- R364. WatchDigest computes and returns a tensor's digest. -/
  | watchDigest (r : DReq)
  /-- R360. WatchRemove removes a tensor definition. -/
  | watchRemove (r : DReq)
  /-- R51. TimeStepAdvance increments the step number and zeroes the phase. -/
  | timeStepAdvance (r : DReq)
  /-- R51. TimePhaseAdvance increments the phase, saturating. -/
  | timePhaseAdvance (r : DReq)
  /-- R51. TimeStepSet sets step and phase and logs STEP_SET. -/
  | timeStepSet (r : DReq)
  /-- R69. TimeAcceptCorrection applies a pending correction by STEP or SLEW and resumes discipline. -/
  | timeAcceptCorrection (r : DReq)
  /-- R332. TimeConfigure writes TB_CTRL, threshold, PPS delay and timestamp interval. -/
  | timeConfigure (r : DReq)
  /-- R332. TimeQuery returns time status and stamps. -/
  | timeQuery (r : DReq)
  /-- R332. TollTagQuery returns a tag's state and energy so far. -/
  | tollTagQuery (r : DReq)
  /-- R465. TollManifestRead returns a held signed manifest. -/
  | tollManifestRead (r : DReq)
  /-- R465. TollRecordRead returns a toll record with its recomputed Merkle path. -/
  | tollRecordRead (r : DReq)
  /-- R466. TollKeyRead returns the active toll key and certificate. -/
  | tollKeyRead (r : DReq)
  /-- R467. TollKeyRotate generates a new toll key if the clamp policy permits. -/
  | tollKeyRotate (r : DReq)
  /-- R332. CalRead returns words of the calibration set. -/
  | calRead (r : DReq)
  /-- R470. CalCommit checks, marks CAL_ALTERED and writes the staged calibration set. -/
  | calCommit (r : DReq)
  /-- R332. CalHash returns CAL_ALTERED and the set's SHA-256. -/
  | calHash (r : DReq)
  /-- R334. StageWrite writes bytes of a target into the staging area. -/
  | stageWrite (r : DReq)
  /-- R334. StageReset empties the staging area. -/
  | stageReset (r : DReq)
  /-- R334. FwCommit verifies the staged image and writes it to flash. -/
  | fwCommit (r : DReq)
  /-- R334. ClampCommit verifies and writes a new clamp block for the next power-on. -/
  | clampCommit (r : DReq)
  /-- R332. FwInfo returns release, lowest release, clamp SEQ and image hash. -/
  | fwInfo (r : DReq)
  /-- R332. FwRestartStandby restarts the standby CTD on the committed image. -/
  | fwRestartStandby (r : DReq)
  /-- R490. PowerSetDie sets a die's clocks and voltage within ranges and clamps. -/
  | powerSetDie (r : DReq)
  /-- R332. PowerCap sets a module power target. -/
  | powerCap (r : DReq)
  /-- R332. PowerQuery returns input and per-die power and temperatures. -/
  | powerQuery (r : DReq)
  /-- R503. LinkEnable enables or disables a permitted port, laser or root port. -/
  | linkEnable (r : DReq)
  /-- R217. LinkRetrain requests a retrain of a port. -/
  | linkRetrain (r : DReq)
  /-- R242. LinkRemap verifies a signed token and gives a quarantined port a new role. -/
  | linkRemap (r : DReq)
  /-- R332. LinkQuery returns a port's status and peer. -/
  | linkQuery (r : DReq)
  /-- R332. RouteConfig writes WG_ROUTE_CTRL and WG_TXN_CTRL. -/
  | routeConfig (r : DReq)
  /-- R332. CircuitRouteSet writes a circuit route entry. -/
  | circuitRouteSet (r : DReq)
  /-- R483. SpdmExchange carries one SPDM request and returns the response. -/
  | spdmExchange (r : DReq)
  /-- R482. CertRead returns bytes of a certificate chain. -/
  | certRead (r : DReq)
  /-- R342. A write of GO appends a Ledger record or merges it into the newest one. -/
  | lgAppendGo (init : Initiator) (ctd : Fin 2) (value : BitVec 32)
  /-- R344. A merged record's 1 s window closes and its final REPEAT is sent and mirrored. -/
  | repeatWindowClose (ctd : Fin 2) (seq : BitVec 64)
  /-- R346. A severity-4 or higher record is written to the flash mirror. -/
  | flashMirrorWrite (ctd : Fin 2) (seq : BitVec 64) (ok : Bool) (flashStatus : BitVec 32)
  /-- R348. A write to a read window's cursor starts a latch of the next record. -/
  | lgWinCursorWrite (init : Initiator) (ctd : Fin 2) (w : Fin 4) (width : Nat) (upper : Bool) (value : BitVec 64)
  /-- R348. The latch completes with a record, or with END. -/
  | lgWinLatchDone (ctd : Fin 2) (w : Fin 4)
  /-- R386. A due engine starts a sieve run at its next boundary. -/
  | sieveRunStart (eng : Fin 112)
  /-- R379. A sieve run ends and the engine's state follows from its failures. -/
  | sieveRunEnd (eng : Fin 112) (patterns : List PatternResult)
  /-- R384. Before POD is valid, firmware applies the age conditions once per second of MONO. -/
  | sieveAgeCheck
  /-- R392. Every hour of MONO the tally is reduced by a thirty-second. -/
  | tallyDecay
  /-- R400. Every 1 ms the context manager checks queue heartbeats for run and wait stalls. -/
  | heartbeatCheck (die : Fin 4) (beats : List (Nat × Nat))
  /-- R452. Every 10 µs the toll engine samples the rails and attributes the interval's energy. -/
  | railSample (sample : RailSample)
  /-- R457. At the end of the interval where a closing tag's descriptors have completed, the dies place its parts in the close buffers. -/
  | tagClosePoint (tag : Fin 4096)
  /-- R460. Two seconds of TOLL without a boundary force one. -/
  | manifestForced
  /-- R464. The toll engine signs, mirrors and publishes a manifest after its boundary. -/
  | tollManifestClosed
  /-- R473. A write to a toll window's INDEX latches a record of the selected manifest. -/
  | tlWinIndexWrite (init : Initiator) (ctd : Fin 2) (w : Fin 2) (value : BitVec 32)
  /-- R477. Input power or MOD_RST_N rising starts the module power-on sequence. -/
  | powerOnReset (cause : Fin 8)
  /-- R481. A complete image staged by fabric caravan is checked and, if valid, written and booted. -/
  | romCaravanImageComplete
  /-- R487. An undervoltage, overvoltage or overcurrent trip removes every rail except always-on. -/
  | inputTrip (kind : Fin 3)
  /-- R488. MOD_RST_N low for more than 100 µs holds the rails off and starts a power-on reset. -/
  | modRstNLow
  /-- R492. Every 10 µs each die measures its junction and applies clamps or trips. -/
  | junctionSample (die : Fin 4) (tempMilliC : Int)
  /-- R493. THERM_ALERT_N is released 10 ms after no condition holds. -/
  | thermAlertRelease
  /-- R498. The lease cell takes its I3C dynamic address by ENTDAA. -/
  | i3cEntdaa (addr : BitVec 7)
  /-- R498. An I3C private write sets the offset and writes permitted lease-cell bytes. -/
  | i3cPrivateWrite (bytes : List (BitVec 8))
  /-- R498. An I3C private read returns lease-cell bytes and increments the offset. -/
  | i3cPrivateRead (count : Nat)
  /-- R238. A port's lanes achieve lock, after which the identity exchange begins and its 10 ms IDENT timer starts. -/
  | laneLock (port : Fin 13) (failedLanes : BitVec 16)
  /-- R486. The management port's 25GBASE-R receiver gains or loses block lock, changing LEASE_MGMT_STATUS.LINK_UP. -/
  | mgmtBlockLock (up : Bool)
  /-- R442. An NVMe controller on a root port reports a fatal status or its PCIe link is lost, so the port answers cellar commands NOT_PRESENT. -/
  | cellarDevice (port : Fin 2) (event : Fin 5) (nvmeStatus : BitVec 32) (nsid : BitVec 32) (nss : List (Nat × Nat × Bool))
  /-- R12. A read of a register with RC fields returns and clears them, or keeps a set that lands in the same cycle. -/
  | csrRcRead (init : Initiator) (addr : BitVec 52) (width : Nat) (hwSet : BitVec 64)
  /-- R334. The flash write and read-back of a committed firmware image, clamp block, calibration set or sieve pack ends, and the final response follows the earlier PENDING. -/
  | flashCommitDone (ok : Bool)
  /-- R364. The digest computation that WatchDigest started ends and its final response carries the 16 digest words. -/
  | watchDigestDone (ctx : Fin 256) (handle : BitVec 32) (flips : List LineFlip)
  /-- R467. Key generation that TollKeyRotate requested ends: KEY_GEN increments, the certificate is issued and the final response is sent. -/
  | tollKeyRotated
  /-- R483. A signed SPDM response becomes final, within 25 ms, and is returned after the earlier PENDING. -/
  | spdmResponseDone
  /-- R502. A context release finishes stopping and removing the context's resources, and the context enters FREE with its final OK. -/
  | contextReleaseDone (ctx : Fin 256)
  /-- R332. The zeroing of the range that MemClear named ends, and its final response follows the earlier PENDING. -/
  | memClearDone
deriving DecidableEq, Repr

end Sys2Proof
end

