-- ==== Sys2Proof/Config.lean ====
section
/-! DEFINITION. What the manual leaves open, and what another party computes: constants without a body, so that no proof
can lean on a value of theirs. -/

namespace Sys2Proof.Config

/-- A value that the manual leaves open; the argument is the model's counter of such values (log 4). -/
opaque freeValue : (w : Nat) → Nat → BitVec w

/-- RSASSA-PSS verification (R10): SHA-256 of the public key, message, signature. The keys are not in the manual (log 9). -/
opaque rsaVerify : List Byte → List Byte → List Byte → Bool

/-- A private key's RSASSA-PSS signature: key number, message (log 9). -/
opaque rsaSign : Nat → List Byte → BitVec 3072

/-- The DER public key and certificate of a toll key: CTD and generation (R466; log 9). -/
opaque tollKeyBytes : Nat → Nat → List Byte

/-- The certificate chain of a slot (R482; log 9). -/
opaque certChain : Nat → List Byte

/-- Hashes of the keys fused at manufacture: clamp-signing, firmware, sieve pack (R301, R475, R381; log 9). -/
opaque fusedKey : Fin 3 → List Byte

/-- The response of the SPDM responder where DMTF SPDM 1.3 and not the manual gives its bytes: request, transcript, and what the
manual says the answer reports (R482, R484; log 9). -/
opaque spdmResponse : List Byte → List Byte → List Byte → List Byte

/-- SHA-256 of the ROM of a CTD (R484; log 9). -/
opaque romHash : Nat → List Byte

/-- Whether firmware asks for a transmit stamp of the Delay_Req it sends on the management port (R61, R71; log 63). -/
opaque delayReqStamped : Bool

/-- The default coefficients of attribution, in pJ: 0-2 for a byte by memory rate code, 3-7 for a flit by level (R471; log 4). -/
opaque defaultCoeff : Nat → Nat

/-- A VE function whose result the manual bounds and does not fix (R145, R146): function code, die revision, FP32
operand (log 10). -/
opaque veValue : Nat → Nat → Word → Word

end Sys2Proof.Config
end

