-- ==== Sys2Proof/Machine/Maps.lean ====
section
/-! DEFINITION. Tables, bytes and bit fields: the helpers every family uses. -/

namespace Sys2Proof.Machine

/-- The entry of a table, or the default. -/
def mget (d : α) (m : SMap α) (k : Nat) : α := (m.lookup k).getD d

/-- A table with an entry set, keys ascending. -/
def mput : SMap α → Nat → α → SMap α
  | [], k, v => [(k, v)]
  | (j, w) :: r, k, v => if k < j then (k, v) :: (j, w) :: r else if k = j then (k, v) :: r else (j, w) :: mput r k v

/-- A table without an entry. -/
def mdel (m : SMap α) (k : Nat) : SMap α := m.filter fun e => e.1 != k

/-- A table with one entry changed. -/
def mmod (d : α) (m : SMap α) (k : Nat) (f : α → α) : SMap α := mput m k (f (mget d m k))

/-- A table with every entry changed. -/
def mmapv (m : SMap α) (f : Nat → α → α) : SMap α := m.map fun e => (e.1, f e.1 e.2)

/-- A list with the element at a place changed. -/
def lmod : List α → Nat → (α → α) → List α
  | [], _, _ => []
  | a :: r, 0, f => f a :: r
  | a :: r, n + 1, f => a :: lmod r n f

/-- The list with the first element that meets the test changed. -/
def modFirst (p : α → Bool) (f : α → α) : List α → List α
  | [] => []
  | a :: r => if p a then f a :: r else a :: modFirst p f r

/-- Bits [hi:lo] of a number (R11). -/
def bitsOf (x hi lo : Nat) : Nat := (x >>> lo) % 2 ^ (hi + 1 - lo)

/-- Bit i of a number. -/
def bitOf (x i : Nat) : Bool := x.testBit i

/-- 1 or 0. -/
def b2n (b : Bool) : Nat := if b then 1 else 0

/-- The numbers of the set bits below n. -/
def setBits (n x : Nat) : List Nat := (List.range n).filter fun i => x.testBit i

/-- The number whose set bits are listed. -/
def ofBits (l : List Nat) : Nat := l.foldl (fun a i => a ||| 2 ^ i) 0

/-- Saturating addition. -/
def satAdd (max a b : Nat) : Nat := min max (a + b)

/-- Little-endian bytes (R11). -/
def leBytes : Nat → Nat → List Byte
  | 0, _ => []
  | n + 1, x => BitVec.ofNat 8 x :: leBytes n (x / 256)

/-- The number whose little-endian bytes are given. -/
def ofLe : List Byte → Nat
  | [] => 0
  | b :: r => b.toNat + 256 * ofLe r

/-- Bytes o to o + n - 1 of a list, zeros beyond its end. -/
def bytesAt (l : List Byte) (o n : Nat) : List Byte := (List.range n).map fun i => l.getD (o + i) 0

/-- A little-endian field of n bytes at offset o. -/
def fieldAt (l : List Byte) (o n : Nat) : Nat := ofLe (bytesAt l o n)

/-- A list cut into pieces of n (the fuel is the number of pieces). -/
def chunksGo (n : Nat) : Nat → List α → List (List α)
  | 0, _ => []
  | k + 1, l => match l with
    | [] => []
    | _ => l.take n :: chunksGo n k (l.drop n)

/-- A list cut into pieces of n, the last one shorter. -/
def chunks (n : Nat) (l : List α) : List (List α) := chunksGo n l.length l

/-- A list made n long with a filler, or cut. -/
def padTo (n : Nat) (d : α) (l : List α) : List α := (l ++ List.replicate (n - l.length) d).take n

/-- Low and high word of a 64-bit value (R332: low word first). -/
def lohi (x : Nat) : List Nat := [x % 2 ^ 32, (x >>> 32) % 2 ^ 32]

/-- Two's complement of an integer in w bits. -/
def twos (w : Nat) (x : Int) : Nat := (x % (2 ^ w : Int)).toNat

/-- Ceiling division. -/
def cdiv (a b : Nat) : Nat := (a + b - 1) / b

/-- All elements differ. -/
def noDup [BEq α] : List α → Bool
  | [] => true
  | a :: r => !r.contains a && noDup r

end Sys2Proof.Machine
end

