-- ==== Sys2Proof/Machine/Codes.lean ====
section
/-! DEFINITION. The codes of the manual: CRC-32C (R10), CRC-12 (R190), SHA-256 (R10), SECDED (R189) and the
Reed-Solomon code of the flits (R213). -/

namespace Sys2Proof.Machine

/-- One bit of a reflected CRC-32C (polynomial 0x1EDC_6F41, reversed 0x82F6_3B78). -/
def crc32cBit (c : Word) : Word := if c.getLsbD 0 then (c >>> 1) ^^^ 0x82F63B78#32 else c >>> 1

/-- One byte. -/
def crc32cByte (c : Word) (b : Byte) : Word :=
  let x := c ^^^ b.setWidth 32
  crc32cBit (crc32cBit (crc32cBit (crc32cBit (crc32cBit (crc32cBit (crc32cBit (crc32cBit x)))))))

/-- CRC-32C: initial value and final XOR all ones (R10). -/
def crc32c (l : List Byte) : Word := ~~~(l.foldl crc32cByte 0xFFFFFFFF#32)

/-- One bit, most significant first, of the CRC-12 of R190 (polynomial 0x80F). -/
def crc12Bit (c : BitVec 12) (b : Bool) : BitVec 12 :=
  if c.getLsbD 11 != b then (c <<< 1) ^^^ 0x80F#12 else c <<< 1

/-- CRC-12 of R190: initial value 0, no final XOR. -/
def crc12 (l : List Byte) : BitVec 12 :=
  l.foldl (fun c b => [7, 6, 5, 4, 3, 2, 1, 0].foldl (fun c i => crc12Bit c (b.getLsbD i)) c) 0

/-- The largest r below 2^k above a start with r^e at most n, found bit by bit. -/
def rootOf (e n : Nat) : Nat → Nat → Nat
  | 0, r => r
  | k + 1, r => rootOf e n k (if (r + 2 ^ k) ^ e ≤ n then r + 2 ^ k else r)

/-- The first 64 primes. -/
def shaPrimes : List Nat :=
  (List.range 312).filter fun p => 2 ≤ p && [2, 3, 5, 7, 11, 13, 17].all fun d => p == d || p % d != 0

/-- The first 32 fraction bits of the e-th root of a prime: cube roots give the round constants of SHA-256, square roots its start
(FIPS 180-4). -/
def shaConst (e p : Nat) : Word := BitVec.ofNat 32 (rootOf e (p * 2 ^ (32 * e)) 35 0)
def shaK : List Word := shaPrimes.map (shaConst 3)
def shaStart : List Word := (shaPrimes.take 8).map (shaConst 2)

/-- The XOR of some rotations right of a word. -/
def rotXor (x : Word) (ns : List Nat) : Word := (ns.map x.rotateRight).foldl (· ^^^ ·) 0

/-- The message schedule: each word from the one sixteen places back on follows from those 2, 7, 15 and 16 before it. -/
def shaSchedule (k : Nat) (w : List Word) : List Word :=
  match k with
  | 0 => w
  | k + 1 =>
    let back := fun (i : Nat) => w.getD (i - 1) 0
    let mix := fun (x : Word) (ns : List Nat) (shift : Nat) => rotXor x ns ^^^ (x >>> shift)
    shaSchedule k ((back 16 + mix (back 15) [7, 18] 3 + back 7 + mix (back 2) [17, 19] 10) :: w)

/-- Bit by bit: y where x is set, else z; and what two of three words hold. -/
def pick (x y z : Word) : Word := z ^^^ (x &&& (y ^^^ z))
def most (x y z : Word) : Word := (x &&& y) ||| (z &&& (x ||| y))

/-- One round of SHA-256 on the eight working words: the fourth takes the sum in, and a new one comes in front. -/
def shaRound : List Word → Word × Word → List Word
  | [p0, p1, p2, p3, q0, q1, q2, q3], (k, w) =>
    let sum := q3 + k + w + rotXor q0 [6, 11, 25] + pick q0 q1 q2
    [sum + rotXor p0 [2, 13, 22] + most p0 p1 p2, p0, p1, p2, sum + p3, q0, q1, q2]
  | l, _ => l

/-- A big-endian word of four bytes. -/
def beWord (l : List Byte) : Word := BitVec.ofNat 32 (ofLe l.reverse)

/-- One 64-byte block. -/
def shaBlock (h : List Word) (block : List Byte) : List Word :=
  let w := (shaSchedule 48 ((chunks 4 block).map beWord).reverse).reverse
  (h.zip ((shaK.zip w).foldl shaRound h)).map fun p => p.1 + p.2

/-- Padding of SHA-256. -/
def shaPad (l : List Byte) : List Byte :=
  l ++ [0x80#8] ++ List.replicate ((119 - l.length % 64) % 64) 0 ++ (leBytes 8 (8 * l.length)).reverse

/-- SHA-256 (R10), 32 bytes. -/
def sha256 (l : List Byte) : List Byte :=
  ((chunks 64 (shaPad l)).foldl shaBlock shaStart).flatMap fun w => (leBytes 4 w.toNat).reverse

/-- Code positions 3 to 265 that are not powers of two, in order: position p(i) of data bit i (R189). -/
def secdedPos : List Nat := (List.range 266).filter fun p => 3 ≤ p && !([4, 8, 16, 32, 64, 128, 256].contains p)

/-- The XOR of the positions of the set data bits: c[0] to c[8] as a number. -/
def secdedSyn (data : List Bool) : Nat :=
  (secdedPos.zip data).foldl (fun a p => if p.2 then a ^^^ p.1 else a) 0

/-- The 256 data bits of a 32-byte half. -/
def halfBits (l : List Byte) : List Bool := l.flatMap fun b => (List.range 8).map fun i => b.getLsbD i

/-- The parity of a list of bits. -/
def parity (l : List Bool) : Bool := l.foldl (fun a b => a != b) false

/-- The check field SECDED of a half (R189): c[0..8] in bits 8:0, c[9] in bit 9. -/
def secdedField (l : List Byte) : Nat :=
  let d := halfBits l
  let c := secdedSyn d
  c + 512 * b2n (parity d != parity ((List.range 9).map fun i => c.testBit i))

/-- A stored half as a 266-bit code word, one Bool per place: place 0 is c[9], place p is position p (R189). -/
def codeWord (l : List Byte) (field : Nat) : List Bool :=
  let d := halfBits l
  (List.range 266).map fun p =>
    if p = 0 then field.testBit 9
    else match [1, 2, 4, 8, 16, 32, 64, 128, 256].idxOf? p with
      | some j => field.testBit j
      | none => ((secdedPos.zip d).lookup p).getD false

/-- The data bytes of a code word. -/
def codeData (w : List Bool) : List Byte :=
  (chunks 8 (secdedPos.map fun p => w.getD p false)).map fun b =>
    BitVec.ofNat 8 (ofBits ((List.range 8).filter fun i => b.getD i false))

/-- Syndrome of a code word: the XOR of the places of its set bits (place 0 adds nothing). -/
def codeSyn (w : List Bool) : Nat :=
  (w.zipIdx).foldl (fun a p => if p.1 then a ^^^ p.2 else a) 0

/-- Outcome of the SECDED decode of one half (R189). -/
inductive HalfOut where
  | clean (data : List Byte)
  | corrected (data : List Byte)
  | bad
deriving DecidableEq, Repr

/-- SECDED decode (R189): syndrome and parity decide. -/
def secdedDecode (w : List Bool) : HalfOut :=
  let s := codeSyn w
  if parity w then
    if s > 265 then .bad else .corrected (codeData (lmod w s (!·)))
  else if s = 0 then .clean (codeData w) else .bad

/-- The husk pattern: data 0 and SECDED field 0x3FF (R194). -/
def huskCode : List Bool := codeWord (List.replicate 32 0) 0x3FF

/-- A code word differs from the husk pattern in at most one bit (R195). -/
def nearHusk (w : List Bool) : Bool := ((w.zip huskCode).filter fun p => p.1 != p.2).length ≤ 1

/-- Product in GF(2^8) with the polynomial 0x11D (R213). -/
def gfMul (a b : Byte) : Byte :=
  ((List.range 8).foldl (fun (p : Byte × Byte) i =>
    (if b.getLsbD i then p.1 ^^^ p.2 else p.1,
     if p.2.getLsbD 7 then (p.2 <<< 1) ^^^ 0x1D#8 else p.2 <<< 1)) (0, a)).1

/-- A power in GF(2^8). -/
def gfPow (a : Byte) : Nat → Byte
  | 0 => 1
  | n + 1 => gfMul a (gfPow a n)

/-- The inverse, a^254. -/
def gfInv (a : Byte) : Byte :=
  let a2 := gfMul a a
  let a4 := gfMul a2 a2
  let a8 := gfMul a4 a4
  let a16 := gfMul a8 a8
  let a32 := gfMul a16 a16
  let a64 := gfMul a32 a32
  gfMul (gfMul a64 a64) (gfMul a64 (gfMul a32 (gfMul a16 (gfMul a8 (gfMul a4 a2)))))

/-- The value at x of the polynomial whose coefficients are listed from the highest (Horner). -/
def gfEval (l : List Byte) (x : Byte) : Byte := l.foldl (fun a c => gfMul a x ^^^ c) 0

/-- The generator (x - 1)(x - α)...(x - α^7), highest coefficient first, without its leading 1 (R213). -/
def rsGen : List Byte :=
  ((List.range 8).foldl (fun (g : List Byte) i =>
    List.zipWith (fun x y => x ^^^ gfMul (gfPow 2 i) y) (g ++ [0]) (0 :: g)) [1]).drop 1

/-- Eight parity symbols of a 120-symbol message (division by the generator). -/
def rsParity (m : List Byte) : List Byte :=
  m.foldl (fun (r : List Byte) c =>
    let f := c ^^^ r.headD 0
    List.zipWith (fun x y => x ^^^ gfMul f y) (r.drop 1 ++ [0]) rsGen) (List.replicate 8 0)

/-- Syndromes S0 to S7 of a received word, highest coefficient first. -/
def rsSyn (w : List Byte) : List Byte := (List.range 8).map fun i => gfEval w (gfPow 2 i)

/-- One step of Berlekamp-Massey: current and previous locator (lowest coefficient first), length, gap, last discrepancy. -/
def bmStep (syn : List Byte) (st : List Byte × List Byte × Nat × Nat × Byte) (n : Nat) :
    List Byte × List Byte × Nat × Nat × Byte :=
  let (c, b, l, m, bb) := st
  let d := (List.range (l + 1)).foldl (fun a i => a ^^^ gfMul (c.getD i 0) (syn.getD (n - i) 0)) 0
  if d = 0 then (c, b, l, m + 1, bb)
  else
    let f := gfMul d (gfInv bb)
    let sh := List.replicate m 0 ++ b.map (gfMul f)
    let k := max c.length sh.length
    let c' := (List.range k).map fun i => c.getD i 0 ^^^ sh.getD i 0
    if 2 * l ≤ n then (c', c, n + 1 - l, 1, d) else (c', b, l, m + 1, bb)

/-- The error locator of the syndromes and its degree. -/
def rsLocator (syn : List Byte) : List Byte × Nat :=
  let r := (List.range 8).foldl (bmStep syn) ([1], [1], 0, 1, 1)
  (r.1, r.2.2.1)

/-- Value of a polynomial given lowest coefficient first. -/
def gfEvalLow (l : List Byte) (x : Byte) : Byte := gfEval l.reverse x

/-- Decoded word of RS(128,120), with the number of symbols corrected; none when it is not correctable (R213). -/
def rsDecode (w : List Byte) : Option (List Byte × Nat) :=
  let syn := rsSyn w
  if syn.all (· == 0) then some (w, 0)
  else
    let (loc, l) := rsLocator syn
    -- symbol k of the list is the coefficient of x^(127-k); its locator is α^(127-k)
    let err := (List.range 128).filter fun k => gfEvalLow loc (gfInv (gfPow 2 (127 - k))) == 0
    if l > 4 || err.length != l then none
    else
      -- Ω = S·Λ mod x^8; value of the error at X is X·Ω(X⁻¹)/Λ'(X⁻¹)
      let om := (List.range 8).map fun i =>
        (List.range (i + 1)).foldl (fun a j => a ^^^ gfMul (loc.getD j 0) (syn.getD (i - j) 0)) 0
      let dl := (List.range loc.length).map fun i => if i % 2 = 0 then loc.getD (i + 1) 0 else 0
      let fix := err.foldl (fun v k =>
        let x := gfPow 2 (127 - k)
        let xi := gfInv x
        let e := gfMul (gfMul x (gfEvalLow om xi)) (gfInv (gfEvalLow dl xi))
        lmod v k (· ^^^ e)) w
      if (rsSyn fix).all (· == 0) then some (fix, l) else none

end Sys2Proof.Machine
end

