-- ==== Sys2Proof/Machine/StPackage.lean ====
section
/-! DEFINITION. State of the package (chapter 01): fuses, identity registers, the die-to-die ring, the dies'
residence in reset, the answer of the last bus access, and the requester of a pending Darid command. Each field's
docstring ends with [width; rule and file; where its reset value comes from]. -/

namespace Sys2Proof.Machine

/-- The variants of R1. -/
inductive Variant where
  | ax
  | sx
  | ae
deriving DecidableEq, Repr

/-- MOD_DIE_INVn: what fuses say of one compute die. -/
structure DieInv where
  /-- DIE_UID. [32; MOD_DIE_INVn 01_package.md; HW, DESIGN CHOICE log 1] -/
  uid : Nat := 0
  /-- DIE_REV. [4; MOD_DIE_INVn 01_package.md; HW, DESIGN CHOICE log 1] -/
  rev : Nat := 0
  /-- SPEED_BIN in 10 MHz; the map says 150 or more. [8; MOD_DIE_INVn 01_package.md; HW, DESIGN CHOICE log 1] -/
  speedBin : Nat := 150
  /-- LEAK_BIN. [8; MOD_DIE_INVn 01_package.md; HW, DESIGN CHOICE log 1] -/
  leakBin : Nat := 0
deriving DecidableEq, Repr

/-- What fuses and straps give the module; no command changes any of it (R2, R3). -/
structure Fuses where
  /-- MOD_CAPS.VARIANT, from which the whole of MOD_CAPS follows. [4; R1, R2, MOD_CAPS 01_package.md; HW, DESIGN CHOICE log 1] -/
  variant : Variant := .ax
  /-- MOD_SERIAL. [64; MOD_SERIAL 01_package.md; HW, DESIGN CHOICE log 1] -/
  serial : BitVec 64 := 1
  /-- MOD_DIE_INV0-3. [4 × 64; MOD_DIE_INVn 01_package.md; HW, DESIGN CHOICE log 1] -/
  dieInv : List DieInv := List.replicate 4 {}
  /-- LEASE_MGMT_MAC. [48; R500 16_boot_power_connector.md; HW, DESIGN CHOICE log 1] -/
  mac : BitVec 48 := 2
  /-- The manufacturer field of the I3C Provisioned ID. [15; R498 16_boot_power_connector.md; HW, DESIGN CHOICE log 1] -/
  i3cMfr : BitVec 15 := 0
  /-- Per die, the fused voltage-frequency table: pairs of core voltage in mV and the highest ME and host clock in MHz it
  allows. [list; R490 16_boot_power_connector.md; HW, DESIGN CHOICE log 1] -/
  vfTable : List (List (Nat × Nat × Nat)) := List.replicate 4 [(900, 2550, 3000)]
deriving DecidableEq, Repr

/-- The outcome codes of an access (R40), and what a hart sees of a husk (R198). -/
inductive AccErr where
  | none
  | unmapped
  | peerUnreachable
  | domainOff
  | notPresent
  /-- access fault on a husk (R198) -/
  | husk
  /-- refused by a context window or a local window (R102 check 10, R305) -/
  | access
  /-- no answer yet: the access waits for a path change (R21) or travels the fabric (R36) -/
  | waiting
deriving DecidableEq, Repr

/-- MODEL's own: the answer the last CSR or memory access was given, since a block has no requester to hand it to. -/
structure BusResp where
  /-- Error code. [3 bits; R40 01_package.md; MODEL, DESIGN CHOICE log 6] -/
  err : AccErr := .none
  /-- Value a register read or atomic returned. [64; R12 00_scope.md; MODEL, DESIGN CHOICE log 6] -/
  value : BitVec 64 := 0
  /-- Bytes a memory load returned. [list; R35 01_package.md; MODEL, DESIGN CHOICE log 6] -/
  bytes : List Byte := []
deriving DecidableEq, Repr

/-- Who a Darid command answers (R322, R325): CTD, channel, OPCODE and SEQ; and what its end logs (R336): its first four
argument words, and whether it changes module state. -/
structure Who where
  ctd : Nat
  ch : Nat
  op : Nat
  seq : Nat
  args : List Nat := []
  changes : Bool := true
  mirrored : Bool := changes
deriving DecidableEq, Repr

/-- MOD_ID and MOD_OPT_SPARE. -/
structure ModRegs where
  /-- MOD_ID: Z, Y, X, POD, LOCK. [32; R41, R42, MOD_ID 01_package.md; spec 0] -/
  modId : Word := 0
  /-- MOD_OPT_SPARE.SUBST, last value written. [2; R45, MOD_OPT_SPARE 01_package.md; spec 0b11] -/
  subst : BitVec 2 := 3
  /-- The substitution in effect on the engines. [2; R45 01_package.md; DESIGN CHOICE 0b11, log 3] -/
  inUse : BitVec 2 := 3
  /-- Ports still in a retrain started by R45. [list of port codes; R45 01_package.md; DESIGN CHOICE none, log 3] -/
  retraining : List Nat := []
  /-- InvSetSpare commands that wait for those retrains. [list; R332 10_mailboxes_and_darid.md; DESIGN CHOICE none, log 3] -/
  waiters : List Who := []
deriving DecidableEq, Repr

/-- An access between diagonal dies that waits for a path change (R21 step 1). -/
structure WaitingAccess where
  pair : Nat
  init : Initiator
  op : AccessOp
  addr : BitVec 52
  flips : List LineFlip
deriving DecidableEq, Repr

/-- The die-to-die ring (R19-R22). -/
structure RingSt where
  /-- MOD_D2D_STATUS.EDGE_UP. [4; MOD_D2D_STATUS 01_package.md; spec 0] -/
  edgeUp : List Bool := [false, false, false, false]
  /-- DIAG03_ALT and DIAG12_ALT: path in use of each diagonal pair. [2; MOD_D2D_STATUS 01_package.md; spec 0] -/
  alt : List Bool := [false, false]
  /-- PATH_CHANGE, per pair: the path being changed to. [2; R21, MOD_D2D_STATUS 01_package.md; spec 0] -/
  change : List (Option Bool) := [none, none]
  /-- Requests waiting at the source die during a change. [list; R21 01_package.md; DESIGN CHOICE none, log 3] -/
  waiting : List WaitingAccess := []
deriving DecidableEq, Repr

/-- One compute die as a reset unit, with its hart release and DE_TX_STATUS. -/
structure DieSt where
  /-- The die is in reset (powered off, being reset or before its first release). [1; R22, R411 13_hangs_resets_recovery.md; DESIGN CHOICE in reset until released, log 3] -/
  inReset : Bool := true
  /-- Its harts run (R43, R203). [1; R43 01_package.md; spec held in reset] -/
  hartsRun : Bool := false
  /-- Power tripped by its own junction (R492). [1; R492 16_boot_power_connector.md; DESIGN CHOICE 0, log 3] -/
  tripped : Bool := false
  /-- MONO at the start of the die reset in progress. [64; R411 13_hangs_resets_recovery.md; DESIGN CHOICE none, log 3] -/
  resetStart : Option Nat := none
  /-- Cause parameter of that reset: 1 command, 2 escalation. [2; R421 13_hangs_resets_recovery.md; DESIGN CHOICE 0, log 3] -/
  resetCause : Nat := 0
  /-- Ports taken down by that reset and descriptors stopped by it. [13 + 32; R421 13_hangs_resets_recovery.md; DESIGN CHOICE 0, log 3] -/
  resetPorts : Nat := 0
  resetStopped : Nat := 0
  /-- DieReset commands that wait for its end. [list; R411 13_hangs_resets_recovery.md; DESIGN CHOICE none, log 3] -/
  waiters : List Who := []
  /-- DE_TX_STATUS.HIGH_WATER. [15; DE_TX_STATUS 03_engines_and_contexts.md; spec 0] -/
  txHigh : Nat := 0
  /-- DE_TX_STATUS.STALL_CYCLES. [32; DE_TX_STATUS 03_engines_and_contexts.md; spec 0] -/
  txStall : Nat := 0
  /-- FIFO of events kept for the active CTD during a gap: code, severity, source, parameters. [256 entries; R294 09_continuity_die.md; DESIGN CHOICE empty, log 3] -/
  fifo : List (Nat × Nat × Nat × List Nat) := []
  /-- Events discarded on a full FIFO. [32; R294 09_continuity_die.md; DESIGN CHOICE 0, log 3] -/
  fifoLost : Nat := 0
deriving DecidableEq, Repr

end Sys2Proof.Machine
end

