-- ==== Sys2Proof/Machine/StTime.lean ====
section
/-! DEFINITION. State of the time bases, the POD servo, the transmit timestamp queues, the dies' time receivers and the
schedule table (chapter 02). POD and TOLL are kept in units of 10^-12 ns so that a rate offset in parts per 10^12 is
exact (R54). -/

namespace Sys2Proof.Machine

/-- TB_STATUS.POD_LOCK (R62). -/
inductive PodLock where
  | free
  | acquiring
  | locked
  | hold
deriving DecidableEq, Repr

/-- One entry of a transmit timestamp queue (R71, R72). -/
structure TsqEntry where
  id : BitVec 16
  port : BitVec 4
  dropped : Bool
  stamp : BitVec 64
deriving DecidableEq, Repr

/-- One transmit timestamp queue with its registers (R71-R74). -/
structure Tsq where
  /-- Entries, head first, at most 64. [64 entries; R71 02_time_and_schedule.md; DESIGN CHOICE empty, log 3] -/
  entries : List TsqEntry := []
  /-- TB_TSQ_STAMPg. [64; TB_TSQ_STAMPg 02_time_and_schedule.md; spec 0] -/
  stamp : BitVec 64 := 0
  /-- TB_TSQ_OVFg.LOST. [32; TB_TSQ_OVFg 02_time_and_schedule.md; spec 0] -/
  lost : Nat := 0
  /-- The run of losses in progress: first lost identifier. [16; R73 02_time_and_schedule.md; DESIGN CHOICE none, log 3] -/
  run : Option (BitVec 16 × Nat) := none
deriving DecidableEq, Repr

/-- A clock heard by its Announce messages (R61): what the best master clock algorithm compares, its Announce interval, and MONO of
the last two, the newest first. -/
structure PtpMaster where
  src : BitVec 80
  gm : BitVec 64
  prio1 : BitVec 8
  quality : BitVec 32
  prio2 : BitVec 8
  steps : BitVec 16
  interval : Int
  heard : List Nat
deriving DecidableEq, Repr

/-- A Sync and the Delay_Req that follows it: the sender, the Sync's sequence, the grandmaster, the origin time once it is known
(one step: at once; two steps: by the Follow_Up), the correction, POD at its receipt, the Delay_Req's sequence, POD at its sending,
and what the Delay_Resp said. Times in ns. -/
structure PtpExchange where
  src : BitVec 80
  seq : BitVec 16
  gm : BitVec 64
  t1 : Option Int
  corr : Int
  t2 : Int
  req : BitVec 16
  t3 : Int
  t4 : Option Int := none
deriving DecidableEq, Repr

/-- The bases and the servo of the active CTD (R47-R70) and its 1PPS pair. -/
structure TimeSt where
  /-- MONO in ns. [64; R47 02_time_and_schedule.md; spec 0] -/
  mono : Nat := 0
  /-- POD in 10^-12 ns. [64 and fraction; R47, R49 02_time_and_schedule.md; spec 0] -/
  pod : Int := 0
  /-- TOLL in 10^-12 ns. [64 and fraction; R50 02_time_and_schedule.md; spec 0] -/
  toll : Int := 0
  /-- STEP word: step number and phase. [64; R47, R51 02_time_and_schedule.md; spec 0] -/
  step : BitVec 64 := 0
  /-- TB_STATUS.POD_VALID. [1; R49, TB_STATUS 02_time_and_schedule.md; spec 0] -/
  podValid : Bool := false
  /-- TB_STATUS.TOLL_VALID. [1; R50, TB_STATUS 02_time_and_schedule.md; spec 0] -/
  tollValid : Bool := false
  /-- TB_STATUS.POD_LOCK. [2; R62, TB_STATUS 02_time_and_schedule.md; spec FREE] -/
  lock : PodLock := .free
  /-- The servo's rate offset in parts per 10^12. [signed; R54, R62 02_time_and_schedule.md; DESIGN CHOICE 0, log 3] -/
  rate : Int := 0
  /-- The rate that the last time-bus frame carried; the bases count at it while no CTD drives the bus. [signed; R54, R58 02_time_and_schedule.md; DESIGN CHOICE 0, log 3] -/
  busRate : Int := 0
  /-- Offset still to be slewed, in 10^-12 ns. [signed; R63 02_time_and_schedule.md; DESIGN CHOICE 0, log 3] -/
  slew : Int := 0
  /-- Step counter of the time bus. [counter; R54, R57 02_time_and_schedule.md; DESIGN CHOICE 0, log 3] -/
  stepCtr : Nat := 0
  /-- Consecutive measurements below 100 ns, and below the threshold in an episode. [5; R62, R67 02_time_and_schedule.md; DESIGN CHOICE 0, log 3] -/
  lockCount : Nat := 0
  episodeCount : Nat := 0
  /-- MONO of the last valid measurement. [64; R62 02_time_and_schedule.md; DESIGN CHOICE 0, log 3] -/
  lastMeas : Nat := 0
  /-- TB_STATUS.CORR_PENDING and GM_PENDING. [2; R67, R68, TB_STATUS 02_time_and_schedule.md; spec 0] -/
  corrPending : Bool := false
  gmPending : Bool := false
  /-- TB_PENDING_CORR. [64; TB_PENDING_CORR 02_time_and_schedule.md; spec 0] -/
  pendingCorr : BitVec 64 := 0
  /-- TB_GM_ID and TB_GM_PENDING. [2 × 64; TB_GM_ID 02_time_and_schedule.md; spec 0] -/
  gmId : BitVec 64 := 0
  gmPendId : BitVec 64 := 0
  /-- No grandmaster has been followed since POD_SRC was last written (R68). [1; R68 02_time_and_schedule.md; DESIGN CHOICE 1, log 3] -/
  gmFresh : Bool := true
  /-- TB_CTRL.POD_SRC. [2; R60, TB_CTRL 02_time_and_schedule.md; spec 0b00] -/
  podSrc : BitVec 2 := 0
  /-- TB_CTRL.WG_PORT. [4; TB_CTRL 02_time_and_schedule.md; spec 0] -/
  wgPort : BitVec 4 := 0
  /-- TB_CTRL.PPS_IN_EN and PPS_OUT_EN. [2; TB_CTRL 02_time_and_schedule.md; spec 0] -/
  ppsInEn : Bool := false
  ppsOutEn : Bool := false
  /-- TB_CTRL.PTP_DOMAIN. [8; TB_CTRL 02_time_and_schedule.md; spec 0] -/
  domain : BitVec 8 := 0
  /-- TB_CTRL.PTP_TRANSPORT: true is UDP over IPv4. [1; TB_CTRL 02_time_and_schedule.md; spec 0] -/
  udp : Bool := false
  /-- TB_JUMP_THRESH.THRESH_NS. [20; R70, TB_JUMP_THRESH 02_time_and_schedule.md; spec 0x003E8] -/
  thresh : Nat := 1000
  /-- TB_PPS_DELAY. [24; TB_PPS_DELAY 02_time_and_schedule.md; spec 0] -/
  ppsDelay : Nat := 0
  /-- TB_STATUS.PPS_IN_SEEN and MONO of the last edge. [1 + 64; R65, TB_STATUS 02_time_and_schedule.md; spec 0] -/
  ppsSeen : Bool := false
  ppsLast : Nat := 0
  /-- PPS_IN_FAULT has been logged since the last edge, or the input has never been in use. [1; R65 02_time_and_schedule.md; DESIGN CHOICE 1, log 3] -/
  ppsLost : Bool := true
  /-- Level of the 1PPS output and MONO of its last rise. [1 + 64; R66 02_time_and_schedule.md; spec low (R497)] -/
  ppsOut : Bool := false
  ppsRose : Nat := 0
  /-- The second (of POD) at whose boundary the 1PPS output last rose. [64; R66 02_time_and_schedule.md; DESIGN CHOICE 0, log 3] -/
  ppsSecond : Int := 0
  /-- A PTP exchange in progress. [record; R61 02_time_and_schedule.md; DESIGN CHOICE none, log 3] -/
  ptpSync : Option PtpExchange := none
  /-- Clocks heard by Announce. [list; R61 02_time_and_schedule.md; DESIGN CHOICE none, log 3] -/
  masters : List PtpMaster := []
  /-- Sequence of the next Delay_Req. [16; R61 02_time_and_schedule.md; DESIGN CHOICE 0, log 3] -/
  ptpSeq : BitVec 16 := 0
  /-- Delay_Req messages that left the management port, by sequence, newest last. [list; R61 02_time_and_schedule.md; MODEL, DESIGN CHOICE empty, log 6] -/
  ptpOut : List (BitVec 16) := []
  /-- A TIMESTAMP request on its way: t1 stamp word and MONO. [record; R244 07_fabric.md; DESIGN CHOICE none, log 3] -/
  tsReq : Option (Option (BitVec 64) × Nat) := none
  /-- MONO of the last TIMESTAMP request. [64; R244 07_fabric.md; DESIGN CHOICE 0, log 3] -/
  tsLast : Nat := 0
  /-- Hop count from the PTP root. [8; R244 07_fabric.md; DESIGN CHOICE 0, log 3] -/
  hop : BitVec 8 := 0
  /-- The transmit timestamp queues 0-4. [5 queues; R71 02_time_and_schedule.md; DESIGN CHOICE empty, log 3] -/
  tsq : List Tsq := List.replicate 5 {}
deriving DecidableEq, Repr

/-- The time receiver of one compute die (R54-R59). -/
structure DieTime where
  /-- The die's POD and TOLL in 10^-12 ns, MONO in ns, STEP word. [4 × 64; R54 02_time_and_schedule.md; DESIGN CHOICE 0, log 3] -/
  pod : Int := 0
  toll : Int := 0
  mono : Nat := 0
  step : BitVec 64 := 0
  /-- Rate of the last frame in parts per 10^12. [signed; R54, R56 02_time_and_schedule.md; DESIGN CHOICE 0, log 3] -/
  rate : Int := 0
  /-- Step counter and POD_VALID, LOCKED states of the last frame. [record; R54 02_time_and_schedule.md; DESIGN CHOICE 0, log 3] -/
  stepCtr : Nat := 0
  podValid : Bool := false
  locked : Bool := false
  /-- A frame has been received since the die left reset; without one it takes no stamps (R59). [1; R59 02_time_and_schedule.md; DESIGN CHOICE 0, log 3] -/
  seen : Bool := false
  /-- MONO (package reference) at the last frame. [64; R56 02_time_and_schedule.md; DESIGN CHOICE 0, log 3] -/
  lastFrame : Nat := 0
  /-- HOLDOVER state and when it began. [1 + 64; R56, R58 02_time_and_schedule.md; DESIGN CHOICE 0, log 3] -/
  holdover : Bool := false
  since : Nat := 0
  /-- Bases counting at half rate until the frame value catches up: POD, TOLL. [2; R57 02_time_and_schedule.md; DESIGN CHOICE 0, log 3] -/
  slowPod : Bool := false
  slowToll : Bool := false
  /-- Largest realignment since holdover began, in ns. [64; R84 02_time_and_schedule.md; DESIGN CHOICE 0, log 3] -/
  realign : Nat := 0
  /-- STEP advances latched during holdover. [counter; R56 02_time_and_schedule.md; DESIGN CHOICE 0, log 3] -/
  latched : Nat := 0
deriving DecidableEq, Repr

/-- One schedule entry (R77) with what its firings leave (R78, R82). -/
structure SchedEntry where
  /-- KEY_TYPE: true is a STEP key. [1; R77 02_time_and_schedule.md; written by command] -/
  stepKey : Bool
  /-- ACTION. [3; R77 02_time_and_schedule.md; written by command] -/
  action : Nat
  /-- LATE_POLICY: true is SKIP. [1; R77 02_time_and_schedule.md; written by command] -/
  skip : Bool
  /-- FW_OWNED. [1; R77 02_time_and_schedule.md; written by firmware] -/
  fw : Bool
  /-- CONTEXT. [8; R77 02_time_and_schedule.md; written by command] -/
  ctx : Nat
  /-- DIE_MASK. [4; R77 02_time_and_schedule.md; written by command] -/
  dies : BitVec 4
  /-- REPEAT. [32; R77 02_time_and_schedule.md; written by command] -/
  rep : Nat
  /-- FIRST_KEY, PERIOD and ARG. [3 × 64; R77 02_time_and_schedule.md; written by command] -/
  first : Nat
  period : Nat
  arg : BitVec 64
  /-- Keys counted as firings. [32; R78 02_time_and_schedule.md; 0 when written] -/
  fired : Nat := 0
  /-- The key last counted as a firing. [64; R78 02_time_and_schedule.md; none when written] -/
  counted : Option Nat := none
  /-- Per die, the last key fired or skipped. [4 × 64; R82 02_time_and_schedule.md; none when written] -/
  last : List (Option Nat) := [none, none, none, none]
  /-- Per die, the armed key. [4 × 64; R79, R83 02_time_and_schedule.md; none when written] -/
  armed : List (Option Nat) := [none, none, none, none]
deriving DecidableEq, Repr

end Sys2Proof.Machine
end

