-- ==== Sys2Proof/Machine/StEngine.lean ====
section
/-! DEFINITION. State of the engines, contexts, queues, semaphores and the stash (chapters 03, 04, 05, 13, 14). -/

namespace Sys2Proof.Machine

/-- A tile whose result waits for another engine (R370, R373, R375): the original's result words, the checker's when it
has one, both with whether a rounding saturated, the engines (112: none), and why it was sent (true: ABFT failed twice,
false: sampled). -/
structure CheckWork where
  tile : Nat
  orig : List Int × Bool
  checker : Nat
  chk : Option (List Int × Bool)
  third : Nat
  abft : Bool
deriving DecidableEq, Repr

/-- A started descriptor (R100): its fetched dwords and what it has done so far. -/
structure Started where
  index : Word
  /-- The sixteen dwords as fetched. -/
  d : List Nat
  /-- Module-wide order of starting. -/
  order : Nat
  /-- MONO at the start. -/
  at_ : Nat
  /-- First counter value claimed from the seed stream, with its key (R143). -/
  seed : Option (Nat × List (BitVec 64)) := none
  /-- Grid tiles not finished (MATMUL). -/
  tiles : List Nat := []
  /-- Grid tiles waiting for a verdict. -/
  checks : List CheckWork := []
  /-- Mask bits read at the start (R161): false one row of bits per output row, true rows of blocks; true masks. -/
  mask : Option (Bool × List (List Bool)) := none
  /-- The mask lies on another module of the board and is being fetched (R161). -/
  maskDue : Bool := false
  /-- Tiles shared with an earlier descriptor of another queue, and that queue and index (R151, R152). -/
  overlap : List Nat := []
  overlapOf : Option (Nat × Word) := none
  /-- Completion flags raised so far: OVF, NAN, BOUND_EXCEEDED, UNORDERED_TILE, HUSK_MOVED, CHECKED. -/
  ovf : Bool := false
  nan : Bool := false
  bound : Bool := false
  unord : Bool := false
  husk : Bool := false
  checked : Bool := false
  /-- The failure that ends it: STATUS, DETAIL, FAULT_ADDR. -/
  fail : Option (Nat × Nat × Nat) := none
  /-- Fabric requests not finally answered. -/
  reqs : Nat := 0
  /-- Bytes read from board-remote operands, by address, and husk sectors among them (R36). -/
  remote : SMap Byte := []
  remoteHusks : List Nat := []
  /-- RESULT of the completion record. -/
  result : BitVec 64 := 0
  /-- Stash entries matched as a producer (R171). -/
  stash : List Nat := []
  /-- Stash pass it matched in. -/
  pass : Nat := 0
  /-- It passed check 7 of R102, so it carries its tag (R112). -/
  tagged : Bool := false
  /-- Its own reads and writes have been made; what it sent is still being answered. -/
  work : Bool := false
  /-- The convoy it belongs to. -/
  convoy : Option ConvoyKey := none
  /-- It has started: false for one that ends without starting, and while its mask header is on its way (R143, R160). -/
  begun : Bool := true
  /-- Debug dump ring and size exponent of its context when it started (R155). -/
  dump : Option (Nat × Nat) := none
  /-- Descriptors (context, queue, index) it must wait for on shared tiles (R150, R151). -/
  after : List (Nat × Nat × Word) := []
deriving DecidableEq, Repr

/-- A queue's state of Q_STATUS. -/
inductive QState where
  | idle
  | active
  | waitSem
  | stopped
  | faulted
  | fenced
  | resetting
  | unbound
deriving DecidableEq, Repr

/-- A bound queue (R95, R97) with its registers. -/
structure Queue where
  /-- Bound engine j of R377 (the even engine of a pair). [7; R95 03_engines_and_contexts.md; set by QueueCreate] -/
  eng : Nat
  /-- Ring size exponent s and priority. [5 + 2; R95, R96 03_engines_and_contexts.md; set by QueueCreate] -/
  s : Nat
  prio : Nat
  /-- Descriptor and completion ring addresses. [2 × 52; R95 03_engines_and_contexts.md; set by QueueCreate] -/
  ring : Nat
  comp : Nat
  /-- Interrupt address and data. [64 + 32; R332 10_mailboxes_and_darid.md; DESIGN CHOICE 0 at creation, log 3] -/
  irqAddr : Nat := 0
  irqData : Word := 0
  /-- Q_TAIL. [32; R98, Q_TAIL 03_engines_and_contexts.md; spec 0 at creation] -/
  tail : Word := 0
  /-- Q_HEAD. [32; Q_HEAD 03_engines_and_contexts.md; spec 0 at creation] -/
  head : Word := 0
  /-- Q_DONE. [32; Q_DONE 03_engines_and_contexts.md; spec 0 at creation] -/
  done : Word := 0
  /-- Q_STATUS.STATE. [3; Q_STATUS 03_engines_and_contexts.md; spec IDLE at creation] -/
  st : QState := .idle
  /-- Q_STATUS.DB_ERR and LAST_ERR. [1 + 16; Q_STATUS 03_engines_and_contexts.md; spec 0 at creation] -/
  dbErr : Bool := false
  lastErr : BitVec 16 := 0
  /-- Q_HEARTBEAT. [32; Q_HEARTBEAT 03_engines_and_contexts.md; spec 0 at creation] -/
  beats : Word := 0
  /-- Started descriptors in index order. [list; R100 03_engines_and_contexts.md; DESIGN CHOICE empty, log 3] -/
  started : List Started := []
  /-- MONO of the last beat; MONO since which it waits on a semaphore; the wait was reported. [record; R400, R402 13_hangs_resets_recovery.md; DESIGN CHOICE 0, log 3] -/
  beatAt : Nat := 0
  waitSince : Option Nat := none
  stalled : Bool := false
  /-- State it returns to after an engine or die reset (R409 step 7). [3; R409 13_hangs_resets_recovery.md; DESIGN CHOICE none, log 3] -/
  saved : Option QState := none
  /-- QueueDelete commands that wait for started descriptors. [list; R332 10_mailboxes_and_darid.md; DESIGN CHOICE none, log 3] -/
  deleting : List Who := []
  /-- Completion records that wait for the memory of their ring: slot address and bytes (R102, R412). [list; R102 03_engines_and_contexts.md; DESIGN CHOICE none, log 3] -/
  owedRecs : List (Nat × List Byte) := []
  /-- Index of a descriptor counted in TL_CNT.TAG_WAITS. [32; R457 15_energy_tolls.md; DESIGN CHOICE none, log 3] -/
  tagHeld : Option Word := none
deriving DecidableEq, Repr

/-- Context states of R91. -/
inductive CState where
  | free
  | active
  | faulted
  | fenced
  | resetting
deriving DecidableEq, Repr

/-- STASH_STATUS.STATE. -/
inductive StashState where
  | none
  | idle
  | open_
  | full
deriving DecidableEq, Repr

/-- A stash table entry processed in this pass (R166-R169): dwords 0-3 as read, STATE, size and pad in bytes, offset of
the copy, flags and REASON. -/
structure StashEnt where
  d : List Nat
  st : Nat
  size : Nat
  pad : Nat
  addr : Nat
  ovf : Bool := false
  nan : Bool := false
  husk : Bool := false
  reason : Nat := 0
deriving DecidableEq, Repr

/-- A context's stash (R164-R181). -/
structure Stash where
  /-- STASH_STATUS.STATE. [2; STASH_STATUS 05_backward_pass.md; spec NONE] -/
  st : StashState := .none
  /-- PASS_PENDING, ARM_ERR, OVF, NAN. [4; STASH_STATUS 05_backward_pass.md; spec 0] -/
  pending : Bool := false
  armErr : Bool := false
  ovf : Bool := false
  nan : Bool := false
  /-- STASH_ARM.COUNT and STASH_RETIRE.COUNT. [2 × 13; STASH_ARM 05_backward_pass.md; spec 0] -/
  armCount : Nat := 0
  retireCount : Nat := 0
  /-- ARMED, RETIRED. [2 × 13; STASH_STATUS, STASH_FULL_AT 05_backward_pass.md; spec 0] -/
  armed : Nat := 0
  retired : Nat := 0
  /-- STASH_FULL_AT.INDEX with VALID. [13; STASH_FULL_AT 05_backward_pass.md; spec 0] -/
  fullAt : Option Nat := none
  /-- STASH_PASS. [32; STASH_PASS 05_backward_pass.md; spec 0] -/
  pass : Word := 0
  /-- STASH_FILL and STASH_DEMAND. [2 × 48; STASH_FILL 05_backward_pass.md; spec 0] -/
  fill : Nat := 0
  demand : Nat := 0
  /-- STASH_BASE, STASH_SIZE, STASH_TABLE. [3 × 52; STASH_BASE 05_backward_pass.md; spec 0] -/
  base : Nat := 0
  size : Nat := 0
  table : Nat := 0
  /-- STASH_CFG: TABLE_LEN and ARM_SEM. [13 + 14; STASH_CFG 05_backward_pass.md; spec 0] -/
  tableLen : Nat := 0
  armSem : Nat := 0
  /-- Head offset H of the ring. [48; R168 05_backward_pass.md; spec 0 at reservation] -/
  headOff : Nat := 0
  /-- The pass has been ended by a context fault or reset and waits for the end of the reset. [1; R175 05_backward_pass.md; MODEL, DESIGN CHOICE 0, log 3] -/
  ended : Bool := false
  /-- Entries processed in this pass, by index. [4,096 records; R166-R169 05_backward_pass.md; spec none at PASS_START] -/
  entries : SMap StashEnt := []
deriving DecidableEq, Repr

/-- A hoard configuration (R424, R425). -/
structure HoardCfg where
  copies : Nat
  partners : List Nat
  base : Nat
  size : Nat
  pred : Option Nat
deriving DecidableEq, Repr

/-- A hardware context (R91, R92) with its pages of DE_ registers. -/
structure Ctx where
  /-- State of R91. [3; R91 03_engines_and_contexts.md; spec FREE] -/
  st : CState := .free
  /-- Memory windows by slot: base and size. [16; R92 03_engines_and_contexts.md; DESIGN CHOICE none, log 3] -/
  windows : SMap (Nat × Nat) := []
  /-- Transaction cap. [15; R92, R123 03_engines_and_contexts.md; spec 8,192] -/
  cap : Nat := 8192
  /-- Queue allotment. [7; R92, R333 10_mailboxes_and_darid.md; DESIGN CHOICE 0, log 3] -/
  queueMax : Nat := 0
  /-- Bound slice entry. [5; R252 08_slices_collectives_convoys.md; DESIGN CHOICE none, log 3] -/
  slice : Option Nat := none
  /-- Current slice epoch. [16; R113 03_engines_and_contexts.md; DESIGN CHOICE 0, log 3] -/
  epoch : BitVec 16 := 0
  /-- Debug flag, dump ring address and exponent, record number. [1 + 64 + 5 + 64; R155, R156 04_arithmetic.md; spec 0] -/
  debug : Bool := false
  dumpRing : Nat := 0
  dumpExp : Nat := 0
  dumpSeq : Nat := 0
  /-- Stash registers and reservation. [page; R164, R181 05_backward_pass.md; spec 0] -/
  stash : Stash := {}
  /-- DE_HANG_CTRL: RUN_LIMIT_MS, WAIT_LIMIT_S, WAIT_ACTION. [32; R422 13_hangs_resets_recovery.md; spec 100, 0, 0] -/
  runLimit : Nat := 100
  waitLimit : Nat := 0
  waitAction : Bool := false
  /-- DE_CTX_NOTE. [32; R422 13_hangs_resets_recovery.md; spec 0] -/
  tilesLost : Bool := false
  storeLost : Bool := false
  stalled : Bool := false
  lastEngine : Nat := 0
  storeDies : BitVec 4 := 0
  /-- DE_FAULT_RECn. [16 × 32; R405, R422 13_hangs_resets_recovery.md; spec 0] -/
  faultRec : List Word := List.replicate 16 0
  /-- DE_DATA_CURSORn. [64 × 64; R434, R451 14_job_continuity.md; spec 0] -/
  cursors : SMap (BitVec 64) := []
  /-- Hoard configuration. [record; R424 14_job_continuity.md; spec none] -/
  hoard : Option HoardCfg := none
  /-- DE_HOARD_STATUS: LAST_MASK, LAST_REASON, SNAPSHOTS; DE_HOARD_LAST_STEP; DE_FILL_PROGRESS. [3 × 64; R451 14_job_continuity.md; spec 0] -/
  hoardMask : Nat := 0
  hoardReason : Nat := 0
  snapshots : Word := 0
  hoardStep : BitVec 64 := 0
  fillBytes : Nat := 0
  fillSource : Nat := 0
  /-- The module holds the context's descriptors (R428, R437). [1; R428 14_job_continuity.md; DESIGN CHOICE 0, log 3] -/
  held : Bool := false
  /-- Taint map: the regions whose bit is set, ascending. [23,040 bits; R391 12_silent_errors.md; spec 0 (R396)] -/
  taint : List Nat := []
  /-- SV_TAINT_SUMc. [64; R396 12_silent_errors.md; spec 0] -/
  taintDies : BitVec 4 := 0
  taintRemote : Option Nat := none
  taintWrites : Nat := 0
  /-- The reset or release in progress: cause, MONO of its start, commands waiting, descriptors removed, convoys aborted. [record; R406, R502 13_hangs_resets_recovery.md; DESIGN CHOICE none, log 3] -/
  resetCause : Nat := 0
  resetStart : Nat := 0
  resetWho : List Who := []
  removed : Nat := 0
  aborted : Nat := 0
  releasing : Bool := false
  /-- Engines on which its descriptors were stopped; MONO from which its limit counts. [list + 64; R416, R417 13_hangs_resets_recovery.md; DESIGN CHOICE none, log 3] -/
  resetEngs : List Nat := []
  resetFrom : Nat := 0
deriving DecidableEq, Repr

/-- A seed stream (R142). -/
structure Stream where
  /-- Key k[0]-k[3]. [256; R142 04_arithmetic.md; spec 0 at grant (R433)] -/
  key : List (BitVec 64) := [0, 0, 0, 0]
  /-- Next counter value not claimed. [128; R142 04_arithmetic.md; spec 0 at grant (R433)] -/
  ctr : Nat := 0
deriving DecidableEq, Repr

/-- ENG_STATUS.STATE; RUNNING is read while a descriptor of an idle engine is started. -/
inductive EState where
  | idle
  | sieve
  | resetting
deriving DecidableEq, Repr

/-- One engine j of R377 with its registers (R85, ME_/VE_/DE_ENG_STATUS). -/
structure EngSt where
  /-- ENG_STATUS.STATE (CUR_CONTEXT and CUR_QUEUE follow from the started descriptors). [2; ME_ENG_STATUSe 03_engines_and_contexts.md; spec 0] -/
  st : EState := .idle
  /-- TWIN. [1; R117 03_engines_and_contexts.md; spec 0] -/
  twin : Bool := false
  /-- Weighted round robin: the queue last served and starts it has left. [record; R96 03_engines_and_contexts.md; DESIGN CHOICE none, log 3] -/
  rr : Option (Nat × Nat) := none
  /-- ME_ABFT_CNTe. [4 × 16; R396 12_silent_errors.md; spec 0] -/
  abftTransient : Nat := 0
  abftPersistent : Nat := 0
  unchecked : Nat := 0
  chkRuns : Nat := 0
  /-- ME_UNORDERED_CNTe. [32; ME_UNORDERED_CNTe 04_arithmetic.md; spec 0] -/
  unordCnt : Nat := 0
  /-- Tiles until the next checker sample. [countdown; R371 12_silent_errors.md; free value, log 4] -/
  countdown : Nat := 0
  /-- The engine reset in progress: cause, start, commands waiting, descriptors stopped, contexts with tiles lost. [record; R409 13_hangs_resets_recovery.md; DESIGN CHOICE none, log 3] -/
  resetCause : Nat := 0
  resetStart : Nat := 0
  resetWho : List Who := []
  stopped : Nat := 0
  lostCtxs : Nat := 0
  /-- Queue progress is stopped by the engine (the engine makes no beats) since. [64; R400 13_hangs_resets_recovery.md; DESIGN CHOICE 0, log 3] -/
  beatAt : Nat := 0
deriving DecidableEq, Repr

/-- Engines, contexts, queues, tiles, semaphores, tags, streams. -/
structure EngTables where
  /-- Contexts by number. [256; R91 03_engines_and_contexts.md; spec all FREE] -/
  ctxs : SMap Ctx := []
  /-- Queues by 64 × context + queue. [16,384; R92 03_engines_and_contexts.md; spec none] -/
  queues : SMap Queue := []
  /-- Engines by j. [112; R85, R377 12_silent_errors.md; spec 0] -/
  engs : SMap EngSt := []
  /-- Accumulator words by (32 × ME + tile) × 2,048 + 64 × row + column. [64 × 32 tiles; R133, R149 04_arithmetic.md; spec +0] -/
  tiles : SMap Word := []
  /-- Tile flags OVF, NAN, BOUND, UNORD by 32 × ME + tile. [64 × 32 × 4; R148 04_arithmetic.md; spec 0] -/
  tileFlags : SMap (BitVec 4) := []
  /-- ME_TILE_OWNERe: holder of group g of ME e, by 4 × e + g. [256; ME_TILE_OWNERe 03_engines_and_contexts.md; spec none] -/
  tileOwner : SMap Nat := []
  /-- Semaphore values. [16,384 × 32; R119, DE_SEM_VALUE 03_engines_and_contexts.md; spec 0] -/
  sems : SMap Word := []
  /-- Signals waiting for a die in reset: semaphore and amount, in arrival order. [list; R413 13_hangs_resets_recovery.md; DESIGN CHOICE none, log 3] -/
  semWait : List (Nat × Word) := []
  /-- Holder of each semaphore group, tag block, seed stream, and MiB of tile store (192 × die + MiB). [1,024 + 256 + 1,024 + 768; R92 03_engines_and_contexts.md; spec none] -/
  semOwner : SMap Nat := []
  tagOwner : SMap Nat := []
  streamOwner : SMap Nat := []
  storeOwner : SMap Nat := []
  /-- Seed streams. [1,024; R142 04_arithmetic.md; spec 0 at grant] -/
  streams : SMap Stream := []
  /-- Context bound to each hart. [32; R90 03_engines_and_contexts.md; spec none bound] -/
  hartCtx : SMap Nat := []
  /-- Order number of the next descriptor to start. [counter; R119 03_engines_and_contexts.md; MODEL, DESIGN CHOICE 0, log 3] -/
  order : Nat := 0
  /-- UNORDERED_TILE rate limit: by 64 × context + ME, MONO of the last record and occurrences suppressed. [record; R152 04_arithmetic.md; DESIGN CHOICE none, log 3] -/
  unordLog : SMap (Nat × Nat) := []
  /-- Interrupt messages written: address and data, newest last (they leave the block as writes). [list; R100, R316 10_mailboxes_and_darid.md; MODEL, DESIGN CHOICE empty, log 6] -/
  irqs : List (Nat × Word) := []
deriving DecidableEq, Repr

end Sys2Proof.Machine
end

