-- ==== Sys2Proof/Machine/StMemory.lean ====
section
/-! DEFINITION. State of main memory and the tile stores (chapter 06): bytes, husk sectors, the controllers' registers. -/

namespace Sys2Proof.Machine

/-- A byte store with its husk sectors. Cells are by ascending address and none holds 0, which is what an unlisted
address reads as (R203: memory is initialised to zeros); husks are the numbers of 32-byte sectors marked (R194). -/
structure Mem where
  /-- Bytes. [one byte each; R33, R203 06_memory.md; spec zeros] -/
  cells : List Host.Cell := []
  /-- Husk sectors. [1 bit each; R194 06_memory.md; spec none (R203)] -/
  husks : List Nat := []
deriving DecidableEq, Repr

/-- The memory controller of one die (R208). -/
structure MemDie where
  /-- MEM_CTRL. [32; MEM_CTRL 06_memory.md; spec 24 and 1,000] -/
  scrubH : Nat := 24
  ceStorm : Nat := 1000
  /-- MEM_STATUS.INIT_DONE and CONTENT_KEPT. [2; MEM_STATUS 06_memory.md; spec 0] -/
  initDone : Bool := false
  contentKept : Bool := false
  /-- MEM_HUSK_CNT. [2 × 32; MEM_HUSK_CNT 06_memory.md; spec 0] -/
  created : Nat := 0
  consumed : Nat := 0
  /-- MEM_LAST_UE and MEM_LAST_UE_INFO. [64 + 32; MEM_LAST_UE 06_memory.md; spec 0] -/
  lastUe : Nat := 0
  lastUeCause : Nat := 0
  lastUeValid : Bool := false
  /-- MEM_LAST_CONSUME. [64; MEM_LAST_CONSUME 06_memory.md; spec 0] -/
  lastCons : Nat := 0
  lastConsHart : Nat := 0
  lastConsValid : Bool := false
  /-- MEM_SCRUB_POS. [64; MEM_SCRUB_POS 06_memory.md; spec 0] -/
  scrubLine : Nat := 0
  scrubPasses : Word := 0
  /-- Lines corrected and husks created in the current pass. [2 × 32; R207 06_memory.md; DESIGN CHOICE 0, log 3] -/
  passCorr : Nat := 0
  passHusks : Nat := 0
deriving DecidableEq, Repr

/-- One LPDDR5X stack (R183, MEM_STACKn_STATUS, MEM_STACKn_ERR). -/
structure StackSt where
  /-- RATE. [2; MEM_STACKn_STATUS 06_memory.md; spec 0] -/
  rate : Nat := 0
  /-- Trained and not FAILED (STACK_UP). [1; MEM_STATUS 06_memory.md; spec 0] -/
  up : Bool := false
  /-- SELF_REFRESH, LIMITED, TEMP_C. [1 + 1 + 8; MEM_STACKn_STATUS 06_memory.md; spec 0] -/
  selfRefresh : Bool := false
  limited : Bool := false
  tempC : Nat := 0
  /-- MEM_STACKn_ERR: CE, UE, LINK_CE, LINK_RETRY. [4 × 16; MEM_STACKn_ERR 06_memory.md; spec 0] -/
  ce : Nat := 0
  ue : Nat := 0
  linkCe : Nat := 0
  linkRetry : Nat := 0
  /-- Corrections in the second of MONO numbered `second`, and whether the storm was logged in it. [record; R192 06_memory.md; DESIGN CHOICE 0, log 3] -/
  second : Nat := 0
  inSecond : Nat := 0
  storm : Bool := false
deriving DecidableEq, Repr

/-- Main memory, tile stores and the controllers. -/
structure MemSt where
  /-- Usable memory by module offset. [1,440 GiB; R33 01_package.md; spec zeros] -/
  main : Mem := {}
  /-- Tile stores by die × 0x0C00_0000 + offset. [768 MiB; R104 03_engines_and_contexts.md; spec zeros (R412)] -/
  store : Mem := {}
  /-- Lines of usable memory that a host core has modified in its caches, and the die of that core. `main` is what the coherent
  caches and the memory hold together (R37, R89). [64 bytes each; R88 03_engines_and_contexts.md, R197; DESIGN CHOICE none, log 19] -/
  modified : SMap Nat := []
  /-- Controllers CD0-CD3. [4; R208 06_memory.md; spec] -/
  dies : List MemDie := List.replicate 4 {}
  /-- Stacks S0-S23. [24; R25 01_package.md; spec] -/
  lpddr : List StackSt := List.replicate 24 {}
  /-- MemClear in progress: requester, first byte and length. [record; R332 10_mailboxes_and_darid.md; DESIGN CHOICE none, log 3] -/
  clears : List (Who × Nat × Nat) := []
deriving DecidableEq, Repr

end Sys2Proof.Machine
end

