-- ==== Sys2Proof/Machine/StObserve.lean ====
section
/-! DEFINITION. State of the Ledgers, the die counters with their frozen banks, the live counters and tensor watch
(chapter 11). -/

namespace Sys2Proof.Machine

/-- A Ledger record (R338). CRC is a function of the other fields and is computed when the record is read. -/
structure Rec where
  code : Nat
  sev : Nat
  src : Nat
  rep : Nat := 0
  /-- MONO_TIME, STANDBY, CUSTOMER, REPEAT_SAT, QUEUED in bits 0-4. -/
  flags : Nat := 0
  seq : Nat
  time : BitVec 64
  params : List Nat
  /-- MONO in ns at the record's creation (R344; not part of the 64 bytes). -/
  born : Nat
  /-- Its repeat window has closed (R346). -/
  closed : Bool := false
deriving DecidableEq, Repr

/-- A read window LG_WINw (R348). -/
structure LgWin where
  /-- LG_WINw_CURSOR. [64; LG_WINw_CURSOR 11_ledger_and_observability.md; spec 0] -/
  cursor : BitVec 64 := 0
  /-- LG_WINw_STATUS: SRC, BUSY, VALID, END. [4; LG_WINw_STATUS 11_ledger_and_observability.md; spec 0] -/
  src : Bool := false
  busy : Bool := false
  valid : Bool := false
  fin : Bool := false
  /-- LG_WINw_REC0-15. [512; LG_WINw_RECn 11_ledger_and_observability.md; spec 0] -/
  words : List Word := List.replicate 16 0
deriving DecidableEq, Repr

/-- The Ledger of one CTD (R337-R350). -/
structure Ledger where
  /-- RAM ring, newest first. [32,768 records; R337 11_ledger_and_observability.md; spec empty] -/
  ram : List Rec := []
  /-- Flash mirror, newest first. [16,384 records; R337 11_ledger_and_observability.md; HW, DESIGN CHOICE empty, log 2] -/
  flash : List Rec := []
  /-- The newest record created, stored or not: what R344 compares with. [record; R344 11_ledger_and_observability.md; DESIGN CHOICE none, log 3] -/
  newest : Option Rec := none
  /-- Boot number kept in the flash mirror. [24; R347 11_ledger_and_observability.md; spec 0 in a Ledger never booted] -/
  boot : Nat := 0
  /-- Records created since that boot. [40; R347 11_ledger_and_observability.md; spec 0] -/
  count : Nat := 0
  /-- LG_STATUS.DROPPED. [32; LG_STATUS 11_ledger_and_observability.md; spec 0] -/
  dropped : Nat := 0
  /-- LG_EVICTED.RAM_OVERWRITES. [24; LG_EVICTED 11_ledger_and_observability.md; spec 0] -/
  ramOver : Nat := 0
  /-- LG_EVICTED.FLASH_OVERWRITES and FLASH_DROPPED. [2 × 16; LG_EVICTED 11_ledger_and_observability.md; HW, DESIGN CHOICE 0, log 2] -/
  flashOver : Nat := 0
  flashDropped : Nat := 0
  /-- LG_FLASH_SEQ. [64; LG_FLASH_SEQ 11_ledger_and_observability.md; HW, DESIGN CHOICE 0, log 2] -/
  flashSeq : Nat := 0
  /-- LG_APPEND_WORD0-15. [16 × 32; LG_APPEND_WORDn 11_ledger_and_observability.md; spec 0] -/
  append : List Word := List.replicate 16 0
  /-- LG_WIN0-3. [4 windows; R348 11_ledger_and_observability.md; spec 0] -/
  wins : List LgWin := List.replicate 4 {}
  /-- Records that wait for their flash write: record, attempt 1 or 2, MONO from which it may be made (R346). [list; R346 11_ledger_and_observability.md; DESIGN CHOICE none, log 3] -/
  owed : List (Rec × Nat × Nat) := []
deriving DecidableEq, Repr

/-- One frozen bank of a die (R355, R356). -/
structure Bank where
  /-- MARK_ID, VALID, LATE, ENTRY. [32 + 1 + 1 + 10; LG_FRZb_INFO 11_ledger_and_observability.md; spec 0] -/
  mark : Nat := 0
  valid : Bool := false
  late : Bool := false
  entry : Nat := 0
  /-- POD stamp, STEP word, MONO stamp. [3 × 64; LG_FRZb_INFO 11_ledger_and_observability.md; spec 0] -/
  pod : BitVec 64 := 0
  step : BitVec 64 := 0
  mono : BitVec 64 := 0
  /-- Counts. [4,096 × 48; LG_FRZb_CNTn 11_ledger_and_observability.md; spec 0] -/
  cnt : SMap Nat := []
  /-- Level counters DATA and SLOTS. [5 × 2 × 64; R355 11_ledger_and_observability.md; spec 0] -/
  levels : List (Nat × Nat) := []
  /-- Link captures by port code: dwords 0-3 of R358. [3-4 ports × 256; R358 11_ledger_and_observability.md; spec 0] -/
  links : SMap (List (BitVec 64)) := []
deriving DecidableEq, Repr

/-- The counter block of one die (R351-R358). -/
structure Counters where
  /-- LG_CNTn. [4,096 × 48; LG_CNTn 11_ledger_and_observability.md; spec 0] -/
  cnt : SMap Nat := []
  /-- LG_CNT_SELn. [4,096 × 32; LG_CNT_SELn 11_ledger_and_observability.md; spec 0] -/
  sel : SMap Word := []
  /-- Frozen banks 0 and 1. [2 banks; R355 11_ledger_and_observability.md; spec 0] -/
  banks : List Bank := [{}, {}]
  /-- LG_FRZ_STATUS.LAST. [1; LG_FRZ_STATUS 11_ledger_and_observability.md; spec 0] -/
  last : Nat := 0
  /-- LG_FRZ_STATUS.SKIPPED. [16; LG_FRZ_STATUS 11_ledger_and_observability.md; spec 0] -/
  skipped : Nat := 0
  /-- MONO of the previous freeze. [64; R355 11_ledger_and_observability.md; DESIGN CHOICE none, log 3] -/
  lastFreeze : Option Nat := none
deriving DecidableEq, Repr

/-- A tensor definition (R360). -/
structure Watch where
  addr : Nat
  fmt : Nat
  count : Nat
deriving DecidableEq, Repr

/-- A dump that the copy unit of a die has taken on (R361, R362). -/
structure Dump where
  entry : Nat
  ctx : Nat
  arg : BitVec 64
  late : Bool
  /-- STEP word at the firing; POD stamp and MONO when the copy began. -/
  step : BitVec 64
  start : BitVec 64
  mono : Nat
deriving DecidableEq, Repr

/-- Observation: counters, live counters, watch definitions, dumps and digests. -/
structure ObserveSt where
  /-- Counter blocks of CD0-CD3. [4; R351 11_ledger_and_observability.md; spec 0] -/
  dies : List Counters := List.replicate 4 {}
  /-- Live counters 0-63. [64 × 64; R353 11_ledger_and_observability.md; DESIGN CHOICE 0 until the first sample, log 3] -/
  live : SMap Nat := []
  /-- Tensor definitions by context × 2^32 + handle. [1,024 entries; R360 11_ledger_and_observability.md; spec none] -/
  watches : SMap Watch := []
  /-- Dumps in dispatch order, per die. [list; R362 11_ledger_and_observability.md; DESIGN CHOICE none, log 3] -/
  dumps : List (List Dump) := List.replicate 4 []
  /-- WatchDigest jobs: requester, key of the definition. [list; R364 11_ledger_and_observability.md; DESIGN CHOICE none, log 3] -/
  digests : List (Who × Nat) := []
deriving DecidableEq, Repr

end Sys2Proof.Machine
end

