-- ==== Sys2Proof/Machine/StDarid.lean ====
section
/-! DEFINITION. State of the mailbox channels, their bindings and caches, the mirror of commands and the staging area
(chapter 10). -/

namespace Sys2Proof.Machine

/-- A 32-byte mailbox message: eight words, the header first (R313, R320). -/
abbrev Msg := List Word

/-- One mailbox channel of one CTD (R313-R326). -/
structure Channel where
  /-- MB_TX_WORD0-7. [8 × 32; MB_TX_WORDn 10_mailboxes_and_darid.md; spec 0] -/
  tx : Msg := List.replicate 8 0
  /-- MB_TX_STATUS.FULL and OVERRUN. [2; MB_TX_STATUS 10_mailboxes_and_darid.md; spec 0] -/
  txFull : Bool := false
  overrun : Bool := false
  /-- MB_RX_WORD0-7 and MB_RX_STATUS.FULL. [8 × 32 + 1; MB_RX_WORDn, MB_RX_STATUS 10_mailboxes_and_darid.md; spec 0] -/
  rx : Msg := List.replicate 8 0
  rxFull : Bool := false
  /-- Fragments of responses held by the CTD, in order. [list; R316, R322 10_mailboxes_and_darid.md; DESIGN CHOICE empty, log 3] -/
  up : List Msg := []
  /-- Fragments of an event whose first fragment has been placed. [list; R322 10_mailboxes_and_darid.md; DESIGN CHOICE empty, log 3] -/
  upEvent : List Msg := []
  /-- Events held, oldest first. [64 records; R323 10_mailboxes_and_darid.md; spec 0] -/
  events : List Rec := []
  /-- MB_RX_STATUS.EVENTS_LOST. [16; MB_RX_STATUS 10_mailboxes_and_darid.md; spec 0] -/
  lost : Nat := 0
  /-- Events lost since the last MB_EVENTS_LOST and MONO of that record. [record; R323 10_mailboxes_and_darid.md; DESIGN CHOICE 0, log 3] -/
  lostNow : Nat := 0
  lostLog : Option Nat := none
  /-- MB_IRQ_CTRL.RX_EN and TX_EN. [2; MB_IRQ_CTRL 10_mailboxes_and_darid.md; spec 0] -/
  irqRx : Bool := false
  irqTx : Bool := false
  /-- MB_IRQ_ADDR and MB_IRQ_DATA. [64 + 32; MB_IRQ_ADDR 10_mailboxes_and_darid.md; spec 0] -/
  irqAddr : BitVec 64 := 0
  irqData : Word := 0
  /-- Open command: OPCODE, SEQ, argument words so far, MONO of the last fragment. [record; R321 10_mailboxes_and_darid.md; DESIGN CHOICE none, log 3] -/
  openCmd : Option (Nat × Nat × List Word × Nat) := none
  /-- Cache: OPCODE, SEQ, final response words, or none while PENDING. [record; R326 10_mailboxes_and_darid.md; DESIGN CHOICE none, log 3] -/
  cache : Option (Nat × Nat × Option (List Word)) := none
  /-- Lowest severity delivered as events; 8 is none. [4; R323, R332 10_mailboxes_and_darid.md; DESIGN CHOICE 8, log 3] -/
  sub : Nat := 8
deriving DecidableEq, Repr

/-- A binding of a management or fabric channel (R318, R319). -/
structure Bind where
  /-- Source IPv4 address and UDP port, or module ID with port 0. [48; R318 10_mailboxes_and_darid.md; written by binding] -/
  ip : Nat
  port : Nat
  /-- MONO of the last datagram or packet. [64; R318, R319 10_mailboxes_and_darid.md; written by binding] -/
  last : Nat
  /-- Messages waiting for the down queue. [list; R318 10_mailboxes_and_darid.md; written by binding] -/
  queue : List Msg
deriving DecidableEq, Repr

/-- What leaves the block by the management port or as a MGMT packet, newest last. -/
structure OutMsg where
  /-- true: a MGMT packet to module `ip`; false: a datagram to `ip`, UDP `port`. -/
  fabric : Bool
  ip : Nat
  port : Nat
  ch : Nat
  msg : Msg
deriving DecidableEq, Repr

/-- A staging area (R334). -/
structure Staging where
  /-- Target staged, 1-4. [3; R334 10_mailboxes_and_darid.md; DESIGN CHOICE none, log 3] -/
  target : Option Nat := none
  /-- Bytes written, by offset; others read 0. [12 MiB; R334 10_mailboxes_and_darid.md; spec zero] -/
  bytes : List Host.Cell := []
  /-- One past the highest byte written. [24; R334 10_mailboxes_and_darid.md; DESIGN CHOICE 0, log 3] -/
  top : Nat := 0
  /-- A verified object on its way to flash: requester, target, object; it may also be the caravan image (no requester). [record; R334 10_mailboxes_and_darid.md; DESIGN CHOICE none, log 3] -/
  job : Option (Option Who × Nat × List Byte) := none
  /-- What the event of that job's end says of the object replaced: a release, or four words of a hash. [list; R472, R499 16_boot_power_connector.md; DESIGN CHOICE none, log 3] -/
  old : List Nat := []
  /-- ROM caravan: 4 MiB segments verified, and the module the last came from. [2 + 15; R480 16_boot_power_connector.md; DESIGN CHOICE none, log 3] -/
  verified : List Nat := []
  src : Nat := 0
  /-- ROM recovery: the record FW_RECOVERED whose durability is awaited, and the command to be answered then. [record; R481 16_boot_power_connector.md; DESIGN CHOICE none, log 3] -/
  recovered : Option (Option Who × Nat) := none
deriving DecidableEq, Repr

/-- Mailboxes of both CTDs. -/
structure DaridSt where
  /-- Channels by 512 × CTD + channel. [1,024; R312 10_mailboxes_and_darid.md; spec 0] -/
  chans : SMap Channel := []
  /-- Bindings of channels 256-415. [160; R318, R319 10_mailboxes_and_darid.md; spec none (R329)] -/
  binds : SMap Bind := []
  /-- Messages sent out of the module. [list; R318, R319 10_mailboxes_and_darid.md; MODEL, DESIGN CHOICE empty, log 6] -/
  out : List OutMsg := []
  /-- Management messages refused since the last MB_CHANNEL_TABLE_FULL of class 1, and MONO of that record. [record; R319 10_mailboxes_and_darid.md; DESIGN CHOICE 0, log 65] -/
  refusedMgmt : Nat := 0
  refusedMgmtLog : Option Nat := none
  /-- Fabric messages refused since the last MB_CHANNEL_TABLE_FULL, and MONO of that record. [record; R319 10_mailboxes_and_darid.md; DESIGN CHOICE 0, log 3] -/
  refused : Nat := 0
  refusedLog : Option Nat := none
  /-- Staging area of the active CTD. [12 MiB; R334 10_mailboxes_and_darid.md; spec empty] -/
  stage : Staging := {}
  /-- Mirror of commands that change state, held by the standby, by channel: OPCODE, SEQ, final response or none while it is in progress. [512 entries; R327 10_mailboxes_and_darid.md; DESIGN CHOICE none, log 3] -/
  mirror : SMap (Nat × Nat × Option (List Word)) := []
deriving DecidableEq, Repr

end Sys2Proof.Machine
end

