-- ==== Sys2Proof/Machine/StSilent.lean ====
section
/-! DEFINITION. State of the sieve, the write maps and the tally (chapter 12). Taint maps stand in the contexts, ABFT
counts in the engines. -/

namespace Sys2Proof.Machine

/-- SV_ENGj.STATE. -/
inductive Service where
  | inService
  | probation
  | outOfService
deriving DecidableEq, Repr

/-- SV_ENGj with what R377-R389 keep of an engine. -/
structure SvEng where
  /-- STATE, SUSPECT, SIEVING, STRIKES, CLEAN_RUNS, FAILS. [2 + 1 + 1 + 2 + 5 + 16; SV_ENGj 12_silent_errors.md; spec 0] -/
  st : Service := .inService
  suspect : Bool := false
  sieving : Bool := false
  strikes : Nat := 0
  cleanRuns : Nat := 0
  fails : Nat := 0
  /-- LAST_CLEAN_STEP and LAST_CLEAN_POD. [2 × 64; SV_ENGj 12_silent_errors.md; spec 0] -/
  cleanStep : BitVec 64 := 0
  cleanPod : BitVec 64 := 0
  /-- RUN_VERSION, FAIL_PATTERN, LAST_FAILED, DETERMINISTIC. [32 + 16 + 1 + 1; SV_ENGj 12_silent_errors.md; spec 0] -/
  runVersion : Nat := 0
  failPattern : Nat := 0
  lastFailed : Bool := false
  determ : Bool := false
  /-- STEP number and MONO at the end of the last completed run: L_j and A_j of R385. [48 + 64; R385 12_silent_errors.md; DESIGN CHOICE 0, log 3] -/
  lastStep : Nat := 0
  lastMono : Nat := 0
  /-- EngineReset has run since it went OUT_OF_SERVICE (R377). [1; R377 12_silent_errors.md; DESIGN CHOICE 0, log 3] -/
  resetSince : Bool := false
  /-- SieveRunNow commands that wait for the run. [list; R332 10_mailboxes_and_darid.md; DESIGN CHOICE none, log 3] -/
  waiters : List Who := []
  /-- A run is due; a suspicion has asked for an immediate run; the run in progress is one; the run of the power-on reset is still to be made. [4; R378, R385, R387 12_silent_errors.md; DESIGN CHOICE 0, log 3] -/
  due : Bool := false
  immediate : Bool := false
  runImmediate : Bool := false
  afterReset : Bool := false
  /-- Pack version of the run in progress (R382). [32; R382 12_silent_errors.md; DESIGN CHOICE 0, log 3] -/
  runPack : Nat := 0
  /-- ENG_STATUS.STATE before the run. [2; R386 12_silent_errors.md; DESIGN CHOICE 0, log 3] -/
  before : EState := .idle
  /-- Write map: regions, tile-store dies, remote writes and first target, contexts (R389). [22,5xx bits; R389 12_silent_errors.md; spec clear] -/
  regions : List Nat := []
  storeDies : BitVec 4 := 0
  remoteCnt : Nat := 0
  remoteTo : Option Nat := none
  ctxs : List Nat := []
deriving DecidableEq, Repr

/-- Sieve and tally. -/
structure SilentSt where
  /-- SV_PACK: VERSION, PATTERNS, VALID. [32 + 16 + 1; SV_PACK 12_silent_errors.md; HW, DESIGN CHOICE none, log 2] -/
  version : Nat := 0
  patterns : Nat := 0
  packValid : Bool := false
  /-- SV_POLICY: PERIOD, PROB_PERIOD, CHECK_EXP. [11 + 11 + 5; SV_POLICY 12_silent_errors.md; spec 64, 8, 8] -/
  period : Nat := 64
  probPeriod : Nat := 8
  checkExp : Nat := 8
  /-- SV_TALLY: TALLY, STATE. [32 + 2; SV_TALLY 12_silent_errors.md; spec 0] -/
  tally : Nat := 0
  tallySt : Nat := 0
  /-- Code of the last tally input. [16; R395 12_silent_errors.md; DESIGN CHOICE 0, log 3] -/
  lastInput : Nat := 0
  /-- MONO of the last decay and of the last age check. [2 × 64; R392, R384 12_silent_errors.md; DESIGN CHOICE 0, log 3] -/
  lastDecay : Nat := 0
  lastAge : Nat := 0
  /-- SV_CHK_CNT: SAMPLED, DISAGREE, SKIPPED. [32 + 16 + 16; SV_CHK_CNT 12_silent_errors.md; spec 0] -/
  sampled : Nat := 0
  disagree : Nat := 0
  skipped : Nat := 0
  /-- Engines by j. [112; SV_ENGj 12_silent_errors.md; spec 0] -/
  engs : SMap SvEng := []
  /-- Per die, the engine whose run is in progress. [4; R383 12_silent_errors.md; DESIGN CHOICE none, log 3] -/
  running : List (Option Nat) := [none, none, none, none]
deriving DecidableEq, Repr

end Sys2Proof.Machine
end

