-- ==== Sys2Proof/Machine/StFabric.lean ====
section
/-! DEFINITION. State of Weagan and of slices, convoys and barriers (chapters 07 and 08). -/

namespace Sys2Proof.Machine

/-- WG_PORT_STATUSp.STATE. -/
inductive PState where
  | down
  | training
  | up
  | quarantine
  | maintenance
  | retraining
deriving DecidableEq, Repr

/-- A DATA flit held in a replay buffer (R215). -/
structure Flit where
  fseq : Nat
  vc : Nat
  startOff : Nat
  payload : List Byte
deriving DecidableEq, Repr

/-- A packet queued for a port: its VC, and whether it continues along the axis it came by (R237). -/
structure QPkt where
  vc : Nat
  pkt : Packet
  cont : Bool := false
deriving DecidableEq, Repr

/-- One Weagan port with its link layer (R210-R218, R238-R243). -/
structure PortSt where
  /-- WG_PORT_STATUSp: STATE, LANES, REV, REMAPPED. [3 + 5 + 8 + 1; WG_PORT_STATUSp 07_fabric.md; spec 0] -/
  st : PState := .down
  lanes : Nat := 0
  rev : Nat := 0
  remapped : Bool := false
  /-- ROLE: port code of the direction served. [4; WG_PORT_STATUSp 07_fabric.md; HW, its own code when State.reset builds the list] -/
  role : Nat := 0
  /-- WG_PORT_PEERp: COORD, PORT, REV_MAX, REV_MIN, FW_RELEASE. [64; WG_PORT_PEERp 07_fabric.md; spec 0] -/
  coord : BitVec 15 := 0
  peerPort : BitVec 4 := 0
  revMax : BitVec 8 := 0
  revMin : BitVec 8 := 0
  fw : BitVec 16 := 0
  /-- WG_PORT_PEER_SERIALp. [64; WG_PORT_PEER_SERIALp 07_fabric.md; spec 0] -/
  serial : BitVec 64 := 0
  /-- WG_PORT_ERRp: FEC_CORR, FEC_UNCORR, CRC_ERR, REPLAYS. [4 × 16; WG_PORT_ERRp 07_fabric.md; spec 0] -/
  fecCorr : Nat := 0
  fecUncorr : Nat := 0
  crcErr : Nat := 0
  replays : Nat := 0
  /-- WG_PORT_CNTp: RETRAINS, LINK_DOWNS, IDENT_FAIL. [3 × 16; WG_PORT_CNTp 07_fabric.md; spec 0] -/
  retrains : Nat := 0
  linkDowns : Nat := 0
  identFail : Nat := 0
  /-- Errors and replays since power-on reset, for live counters 28-53. [2 counters; R353 11_ledger_and_observability.md; spec 0] -/
  errTotal : Nat := 0
  replayTotal : Nat := 0
  /-- The identity exchange of the present training has ended. [1; R238 07_fabric.md; DESIGN CHOICE 0, log 3] -/
  exchanged : Bool := false
  /-- MONO of the lane lock whose exchange is in progress, and failed lanes of that training. [64 + 16; R238 07_fabric.md; DESIGN CHOICE none, log 3] -/
  lockAt : Option Nat := none
  failed : BitVec 16 := 0
  /-- Row of R240 of the last exchange. [3; R240, R242 07_fabric.md; DESIGN CHOICE 0, log 3] -/
  row : Nat := 0
  /-- Remap covers the peer with this serial, or none. [64; R242 07_fabric.md; DESIGN CHOICE none, log 3] -/
  remapPeer : Option (BitVec 64) := none
  /-- A remap of another port has taken its role. [1; R242 07_fabric.md; DESIGN CHOICE 0, log 3] -/
  taken : Bool := false
  /-- Retrain in progress: cause, MONO of its start, failures in succession, LinkRetrain commands waiting. [record; R217 07_fabric.md; DESIGN CHOICE 0, log 3] -/
  cause : Nat := 0
  startedAt : Nat := 0
  attempts : Nat := 0
  waiters : List Who := []
  /-- MONO of the replays of the last millisecond. [list; R217 07_fabric.md; DESIGN CHOICE empty, log 3] -/
  winTimes : List Nat := []
  /-- The peer's IDENT has been received in the present exchange. [1; R238 07_fabric.md; DESIGN CHOICE 0, log 3] -/
  gotIdent : Bool := false
  /-- SERIAL of the peer before the retrain in progress, or none. [64; R243 07_fabric.md; DESIGN CHOICE none, log 3] -/
  before : Option (BitVec 64) := none
  /-- A remap of this port has been accepted and not yet logged. [1; R242 07_fabric.md; DESIGN CHOICE 0, log 3] -/
  remapNew : Bool := false
  /-- MEDIA and LEVEL as WG_PORT_STATUSp shows them: set when the port begins to train. [1 + 3; WG_PORT_STATUSp 07_fabric.md; spec 0] -/
  media : Bool := false
  level : Nat := 0
  /-- FSEQ counters: next to send, last acknowledged, last accepted. [3 × 16; R212, R358 11_ledger_and_observability.md; DESIGN CHOICE 0, 0xFFFF, 0xFFFF, log 3] -/
  txNext : BitVec 16 := 0
  txAcked : BitVec 16 := 0xFFFF
  rxLast : BitVec 16 := 0xFFFF
  /-- Replay buffer, oldest first, and the flits of it still to be resent. [1,024-24,576 flits; R215 07_fabric.md; DESIGN CHOICE empty, log 3] -/
  replay : List Flit := []
  resend : List Nat := []
  /-- MONO of the last ACK progress. [64; R215 07_fabric.md; DESIGN CHOICE 0, log 3] -/
  progress : Nat := 0
  /-- Credits held toward the peer, per VC. [8 × 10; R216, R358 07_fabric.md; DESIGN CHOICE 32 each, the reserved flits, log 3] -/
  credits : List Nat := List.replicate 8 32
  /-- Flits of each VC in the shared part of the peer's input buffer. [8 counters; R209, R216 07_fabric.md; DESIGN CHOICE 0, log 3] -/
  borrowed : List Nat := List.replicate 8 0
  /-- Credits to return to the peer, per VC. [8 counters; R216 07_fabric.md; DESIGN CHOICE 0, log 3] -/
  owed : List Nat := List.replicate 8 0
  /-- A NAK waits to be sent; a NAK has been sent and nothing accepted since. [2; R214 07_fabric.md; DESIGN CHOICE 0, log 3] -/
  nakDue : Bool := false
  nakSent : Bool := false
  /-- Accepted flits not yet acknowledged. [7; R215 07_fabric.md; DESIGN CHOICE 0, log 3] -/
  unacked : Nat := 0
  /-- Packets queued for the port with their VC, oldest first. [list; R219 07_fabric.md; DESIGN CHOICE empty, log 3] -/
  outq : List QPkt := []
  /-- Bytes of the packet being sent, per VC. [8 lists; R212 07_fabric.md; DESIGN CHOICE empty, log 3] -/
  txRest : List (List Byte) := List.replicate 8 []
  /-- Bytes received of an unfinished packet, per VC. [8 lists; R212 07_fabric.md; DESIGN CHOICE empty, log 3] -/
  rxRest : List (List Byte) := List.replicate 8 []
  /-- Packets received whole and not yet taken by their step. [list of packets as bytes; R212 07_fabric.md; DESIGN CHOICE empty, log 3] -/
  rxPkts : List (List Byte) := []
  /-- DATA flits first sent since die reset. [48; R358 11_ledger_and_observability.md; spec 0] -/
  dataSent : Nat := 0
  /-- Weighted round robin over VC 0-6: channel and slots it has left. [record; R216 07_fabric.md; DESIGN CHOICE 0, log 3] -/
  rrVc : Nat := 0
  rrLeft : Nat := 0
  /-- The last flit put on the lanes. [256 bytes; R211 07_fabric.md; MODEL, DESIGN CHOICE empty, log 6] -/
  line : List Byte := []
deriving DecidableEq, Repr

/-- A slice entry WG_SLICE_CFGs with its windows and the geometry it was set from (R231, R249). -/
structure SliceEnt where
  /-- SLICE_ID, WRAP, CUR_EPOCH, BOUNDARY. [12 + 3 + 16 + 13; WG_SLICE_CFGs 07_fabric.md; spec 0] -/
  id : BitVec 12
  wrap : BitVec 3
  epoch : BitVec 16
  boundary : BitVec 13
  /-- Origin and extent of X, Y, Z; member circuits. [3 × 9 + 4; R249, R251 08_slices_collectives_convoys.md; written by SliceSet] -/
  geom : List (Nat × Nat)
  circuits : BitVec 4
  /-- WG_SLICE_WINs_w: base and size in 2 MiB, valid ones only. [16 × 64; WG_SLICE_WINs_w 07_fabric.md; spec none] -/
  wins : SMap (Nat × Nat) := []
  /-- Windows whose VALID is 0: BASE_2M and SIZE_2M as last written. [16 × 54; WG_SLICE_WINs_w 07_fabric.md; spec 0] -/
  winsOff : SMap (Nat × Nat) := []
deriving DecidableEq, Repr

/-- Whose request a fabric request is (R100, R36, R428, R436). -/
inductive ReqOwner where
  | desc (ctx q : Nat) (index : Word)
  | host (init : Initiator)
  | hoard (ctx : Nat)
  | fill (ctx : Nat)
  /-- A stopped descriptor's: abandoned, its entry held until the final response (R406). -/
  | gone (ctx die unit : Nat)
deriving DecidableEq, Repr

/-- One request of a flow (R226). -/
structure FReq where
  seq : BitVec 16 := 0
  start : Bool := false
  ptype : BitVec 4
  owner : ReqOwner
  cls : Nat
  dst : BitVec 15
  slice : BitVec 12
  epoch : BitVec 16
  addr : Nat
  len : Nat
  /-- The address as its descriptor names it (R110). -/
  named : Nat := 0
  /-- ATOMIC: A64, ATOMIC_OP, operand, COMPARE. SEM: operand. -/
  a64 : Bool := false
  subop : BitVec 4 := 0
  operand : BitVec 64 := 0
  compare : BitVec 64 := 0
  /-- Local source of a PUT (or bytes given), local destination of a GET. -/
  src : Option Nat := none
  bytes : List Byte := []
  mask : BitVec 128 := 0
  into : Option Nat := none
  /-- Transmit stamp identifier (TSR); a board-remote access, which takes the board port first (R36). -/
  ts : Option (BitVec 16) := none
  board : Bool := false
  /-- The port it was sent by (R21). -/
  via : Option Nat := none
  /-- Resends made, MONO of the last transmission, MONO of the first EPOCH_AHEAD, a BUSY answer waits. -/
  tries : Nat := 0
  sentAt : Nat := 0
  ahead : Option Nat := none
  busy : Bool := false
deriving DecidableEq, Repr

/-- The sending side of one flow (R225, R226). -/
structure SendFlow where
  /-- Next SEQ; the next request restarts the flow. [16 + 1; R226 07_fabric.md; 0 in a new entry (R227)] -/
  next : BitVec 16 := 0
  restart : Bool := true
  /-- Unanswered requests and requests that wait, oldest first. [64 + list; R226 07_fabric.md; DESIGN CHOICE empty, log 3] -/
  una : List FReq := []
  wait : List FReq := []
deriving DecidableEq, Repr

/-- The receiving side of one flow (R226). -/
structure RecvFlow where
  /-- Expected SEQ; none before a START. [16; R226 07_fabric.md; DESIGN CHOICE none, log 3] -/
  e : Option (BitVec 16) := none
  /-- Last 64 delivered: SEQ, status, operand of the RESP. [64 entries; R226 07_fabric.md; DESIGN CHOICE empty, log 3] -/
  cache : List (BitVec 16 × BitVec 4 × BitVec 64) := []
  /-- Requests waiting for E in the reorder store, with the port they entered by. [2 MiB per die; R226 07_fabric.md; DESIGN CHOICE empty, log 3] -/
  waiting : List (Nat × Packet) := []
deriving DecidableEq, Repr

/-- A peer-state entry (R225, R227). -/
structure Peer where
  /-- Sender's and target's parts held. [2; R227 07_fabric.md; DESIGN CHOICE none, log 3] -/
  snd : Bool := false
  tgt : Bool := false
  /-- MONO since which each part is idle. [2 × 64; R227 07_fabric.md; DESIGN CHOICE 0, log 3] -/
  sndIdle : Nat := 0
  tgtIdle : Nat := 0
  /-- Flows by ordering class. [4 + 4; R225 07_fabric.md; DESIGN CHOICE empty, log 3] -/
  tx : List SendFlow := List.replicate 4 {}
  rx : List RecvFlow := List.replicate 4 {}
deriving DecidableEq, Repr

/-- Per-die WG_ registers. -/
structure WgDie where
  /-- WG_PEER_STATUS.HIGH_WATER and BUSY_SENT. [11 + 32; WG_PEER_STATUS 07_fabric.md; spec 0] -/
  highWater : Nat := 0
  busySent : Nat := 0
  /-- WG_DROP_CNT: NO_SLICE, MALFORMED, DUP_DISCARD, RETRY_SENT. [4 × 16; WG_DROP_CNT 07_fabric.md; spec 0] -/
  noSlice : Nat := 0
  malformed : Nat := 0
  dupDiscard : Nat := 0
  retrySent : Nat := 0
  /-- WG_LEVEL_DATAl, and WG_LEVEL_SLOTSl in sixteenths of a slot. [5 × 2 × 64; WG_LEVEL_DATAl, WG_LEVEL_SLOTSl 07_fabric.md; spec 0] -/
  data : List Nat := List.replicate 5 0
  slots : List Nat := List.replicate 5 0
  /-- WG_SLICE_DROPSs: STALE, AHEAD, BOUNDARY by slice entry. [16 × 3 × 16; WG_SLICE_DROPSs 07_fabric.md; spec 0] -/
  drops : SMap (Nat × Nat × Nat) := []
  /-- MONO of the BUSY answers of the last second, and of the last WG_PEER_TABLE_FULL. [record; R227, R247 07_fabric.md; DESIGN CHOICE none, log 3] -/
  busyAt : List Nat := []
  fullLog : Option Nat := none
deriving DecidableEq, Repr

/-- State of a convoy table entry (R270). -/
inductive CvState where
  | active
  | complete
  | aborted
deriving DecidableEq, Repr

/-- A segment received and not yet used, or sent and not yet acknowledged (R267, R268). For a caravan `seg` is the 4 MiB
segment. -/
structure Seg where
  skind : Nat
  port : Nat
  seg : Nat
  step : Nat := 0
  contrib : Nat := 0
  payload : List Byte := []
  mask : BitVec 128 := 0
  /-- 0 sent, 2 answered AHEAD, 3 answered NOT_READY. -/
  ans : Nat := 0
  /-- MONO of the last sending, and of the first AHEAD. -/
  sentAt : Nat := 0
  ahead : Nat := 0
deriving DecidableEq, Repr

/-- A convoy table entry with the work of its COLLECTIVE or CARAVAN at this member (R257-R278). -/
structure Convoy where
  key : ConvoyKey
  st : CvState
  /-- Its descriptor: context, queue, index; none for an entry recorded by an ABORT (R273). -/
  owner : Option (Nat × Nat × Word) := none
  /-- The plan's dwords 0-2, the member table, whether it is a caravan. -/
  plan : List Nat := []
  table : List Nat := []
  car : Bool := false
  /-- Received and not yet used; sent and not acknowledged. -/
  rx : List Seg := []
  tx : List Seg := []
  /-- Own segments formed; caravan segments acknowledged to the parent. -/
  next : Nat := 0
  up : Nat := 0
  /-- CONTRIB of the result. -/
  contrib : Nat := 0
  /-- Segments taken over: SKIND, step, segment (caravan: offset; a digest verified has SKIND 1), port. -/
  taken : List (Nat × Nat × Nat × Nat) := []
  /-- Barrier: ports of children that have arrived, this member has arrived, the barrier is released. -/
  children : BitVec 13 := 0
  arrived : Bool := false
  released : Bool := false
  /-- The commit point may be reached (R266, R277). -/
  done : Bool := false
  /-- CONVOY_ABORT has been logged for it. -/
  logged : Bool := false
  /-- Abort: cause, origin, ORIGIN_POD; ABORTs not acknowledged: port, sent so far, MONO of the last. -/
  cause : Nat := 0
  origin : Nat := 0
  originPod : BitVec 64 := 0
  aborts : List (Nat × Nat × Nat) := []
  /-- MONO when it became COMPLETE or ABORTED. -/
  endAt : Nat := 0
deriving DecidableEq, Repr

/-- A pod barrier DE_BARRIERb (R266, R282). -/
structure Barrier where
  /-- CONTEXT, VALID (an entry is valid), CHILD_ARRIVED, SELF_ARRIVED, GENERATION. [8 + 1 + 13 + 1 + 32; DE_BARRIERb 08_slices_collectives_convoys.md; spec 0] -/
  ctx : Nat
  child : BitVec 13 := 0
  self : Bool := false
  gen : Word := 0
deriving DecidableEq, Repr

/-- The fabric. -/
structure FabricSt where
  /-- WG_ROUTE_CTRL: ADAPTIVE, TRAY_VIA_BOARD. [2; WG_ROUTE_CTRL 07_fabric.md; spec 0, 1] -/
  adaptive : Bool := false
  trayVia : Bool := true
  /-- WG_TXN_CTRL: TIMEOUT, RETRIES, EPOCH_WAIT. [14 + 3 + 10; WG_TXN_CTRL 07_fabric.md; spec 100, 3, 10] -/
  timeout : Nat := 100
  retries : Nat := 3
  epochWait : Nat := 10
  /-- WG_TS_CTRL.INTERVAL. [5; WG_TS_CTRL 07_fabric.md; spec 10] -/
  interval : Nat := 10
  /-- Slice entries 0-15 that are VALID. [16; WG_SLICE_CFGs 07_fabric.md; spec none valid] -/
  slices : SMap SliceEnt := []
  /-- Slice entries whose VALID is 0: the other fields and the windows as last written (R12, R254). [16; WG_SLICE_CFGs 07_fabric.md; spec 0] -/
  slicesOff : SMap SliceEnt := []
  /-- WG_CIRCUIT_ROUTEn [31:0]. [64 × 32; WG_CIRCUIT_ROUTEn 07_fabric.md; spec 0] -/
  circuits : SMap Word := []
  /-- Enable state of LinkEnable by unit 0-23 (subject to LINK_PERMIT). [24; R503 16_boot_power_connector.md; spec all enabled] -/
  unitsOn : BitVec 24 := 0xFFFFFF
  /-- Ports by port code. [13; R27 01_package.md; spec, ROLE its own code] -/
  ports : List PortSt := (List.range 13).map fun p => { role := p }
  /-- Per-die registers. [4; R248 07_fabric.md; spec 0] -/
  dies : List WgDie := List.replicate 4 {}
  /-- Peer-state entries by remote module ID. [4,096; R227 07_fabric.md; spec 0 in use] -/
  peers : SMap Peer := []
  /-- Requests that stall: no peer-state entry, no transaction entry, or a home die in reset (R123, R227, R413). [list; R227 07_fabric.md; DESIGN CHOICE empty, log 3] -/
  stalled : List FReq := []
  /-- WG_SELF_FENCE logged: slice and epoch. [list; R230 07_fabric.md; DESIGN CHOICE none, log 3] -/
  fenced : List (BitVec 12 × BitVec 16) := []
  /-- Convoy table. [512 entries; R270 08_slices_collectives_convoys.md; spec 0 in use] -/
  convoys : List Convoy := []
  /-- Barriers by number. [1,024; DE_BARRIERb 08_slices_collectives_convoys.md; spec none allotted] -/
  barriers : SMap Barrier := []
  /-- Convoys whose ABORT was ignored and logged, with MONO. [list; R273 08_slices_collectives_convoys.md; MODEL, DESIGN CHOICE none, log 61] -/
  ignored : List (ConvoyKey × Nat) := []
  /-- DE_CONVOY_CNT: ORIGINATED, RECEIVED, TABLE_FULL. [3 × 16; DE_CONVOY_CNT 08_slices_collectives_convoys.md; spec 0] -/
  originated : Nat := 0
  received : Nat := 0
  tableFull : Nat := 0
deriving DecidableEq, Repr

end Sys2Proof.Machine
end

