-- ==== Sys2Proof/Machine/StContinuity.lean ====
section
/-! DEFINITION. State of the Continuity Dies, the lease cell, the clamps and the non-volatile stores (chapter 09,
and the boot objects of chapter 16). -/

namespace Sys2Proof.Machine

/-- CTD_STATUS.ROLE. -/
inductive Role where
  | booting
  | active
  | standby
  | failed
deriving DecidableEq, Repr

/-- CTD_STATUS.HEALTH. -/
inductive Health where
  | good
  | resync
  | failed
deriving DecidableEq, Repr

/-- One Continuity Die. -/
structure Ctd where
  /-- CTD_STATUS: ROLE, HEALTH, CLAIMABLE. [2 + 2 + 1; CTD_STATUS 09_continuity_die.md; spec BOOTING, GOOD, 0] -/
  role : Role := .booting
  health : Health := .good
  claimable : Bool := false
  /-- Its service processors are powered and out of reset. [1; R287 09_continuity_die.md; DESIGN CHOICE not yet powered on, log 3] -/
  running : Bool := false
  /-- CTD_BOOT_STATUS: STAGE and the image check. [4 + 4; CTD_BOOT_STATUS 16_boot_power_connector.md; spec 0] -/
  stage : Nat := 0
  imageFail : Nat := 0
  /-- Release and SHA-256 of the image it runs. [16 + 256; R332 10_mailboxes_and_darid.md; DESIGN CHOICE 0, log 3] -/
  release : Nat := 0
  /-- MIN_RELEASE of the image it runs. [16; R476 16_boot_power_connector.md; DESIGN CHOICE 0, log 3] -/
  minRelease : Nat := 0
  imageHash : List Byte := []
  /-- Its 32 MiB SRAM: the image its service processors execute; what lies past it is not given. [32 MiB; R283 09_continuity_die.md; DESIGN CHOICE empty, log 3] -/
  sram : List Byte := []
  /-- The service processor whose turn the next sieve run of the self-test is. [2; R283, R299 09_continuity_die.md; DESIGN CHOICE 0, log 3] -/
  spNext : Nat := 0
  /-- CTD_WDOG_STATUS.EXPIRIES. [16; CTD_WDOG_STATUS 09_continuity_die.md; spec 0] -/
  expiries : Nat := 0
  /-- MONO of the last kick. [64; R297 09_continuity_die.md; DESIGN CHOICE 0, log 3] -/
  kickAt : Nat := 0
  /-- CTD_CLAMP_HIT. [10; CTD_CLAMP_HIT 09_continuity_die.md; spec 0] -/
  hit : BitVec 10 := 0
  /-- MONO at which the reset it is held in ends. [64; R287 09_continuity_die.md; DESIGN CHOICE none, log 3] -/
  heldUntil : Option Nat := none
  /-- MONO of its losses of the waybill in the last hour. [list; R288, R296 09_continuity_die.md; DESIGN CHOICE none, log 3] -/
  losses : List Nat := []
  /-- It has lost the waybill three times within one hour. [1; R296 09_continuity_die.md; DESIGN CHOICE 0, log 3] -/
  lossLimit : Bool := false
  /-- MONO of its boot. [64; R288 09_continuity_die.md; DESIGN CHOICE 0, log 3] -/
  bootAt : Nat := 0
  /-- Standby: mirror sequence last matched, a full copy has been asked for, a full copy has completed. [32 + 2; R299, R300 09_continuity_die.md; DESIGN CHOICE 0, log 3] -/
  mirrorSeq : Word := 0
  /-- Standby: the sequence its next comparison expects. [32; R299 09_continuity_die.md; DESIGN CHOICE 0, log 3] -/
  nextSeq : Word := 0
  resyncAsked : Bool := false
  copied : Bool := false
  /-- Sieve runs passed and failed since boot. [2 × 32; R300 09_continuity_die.md; spec 0] -/
  sievePass : Nat := 0
  sieveFail : Nat := 0
  /-- MONO of the last health report. [64; R300 09_continuity_die.md; DESIGN CHOICE 0, log 3] -/
  reportAt : Nat := 0
  /-- A loss of the watchdog to be logged in its own Ledger after its reboot: role and period. [record; R297 09_continuity_die.md; DESIGN CHOICE none, log 3] -/
  owesWdog : Option (Nat × Nat) := none
  /-- FwRestartStandby waits for its health. [list; R332 10_mailboxes_and_darid.md; DESIGN CHOICE none, log 3] -/
  waiters : List Who := []
deriving DecidableEq, Repr

/-- The clamp values in effect (R301-R303) and where they come from. -/
structure Clamp where
  /-- CTD_CLAMP_SRC: VALID, BOUND. [2; CTD_CLAMP_SRC 09_continuity_die.md; HW, fused defaults, log 2] -/
  valid : Bool := false
  bound : Bool := false
  /-- The ROM check that failed (CLAMP_DEFAULT). [3; R311 09_continuity_die.md; DESIGN CHOICE 1, no block in flash, log 2] -/
  failed : Nat := 1
  /-- CTD_CLAMP_IMAGE. [768 bytes; CTD_CLAMP_IMAGE 09_continuity_die.md; HW, the default block of R302, made by State.reset] -/
  image : List Byte := []
  /-- SEQ. [32; R303 09_continuity_die.md; spec 0] -/
  seq : Nat := 0
  /-- P_MAX_W, I_MAX_DA, RAMP_W_MS, T_J_MAX_C. [16 + 16 + 16 + 8; R302 09_continuity_die.md; spec 1750, 380, 200, 105] -/
  pMax : Nat := 1750
  iMax : Nat := 380
  ramp : Nat := 200
  tj : Nat := 105
  /-- WDOG_MS, RECOVERY_LIMIT, RECOVERY_WINDOW_H. [3 × 8; R302 09_continuity_die.md; spec 10, 3, 24] -/
  wdogMs : Nat := 10
  recLimit : Nat := 3
  recWindow : Nat := 24
  /-- TOLL_KEY_POLICY. [2; R302 09_continuity_die.md; spec 0b01] -/
  tollPolicy : BitVec 2 := 1
  /-- F_ME_MAX_MHZ, F_HOST_MAX_MHZ, V_CORE_MAX_MV. [4 × 16 + 16 + 16; R302 09_continuity_die.md; spec SPEED_BIN × 10, 3,000, 900] -/
  fMe : List Nat := [1500, 1500, 1500, 1500]
  fHost : Nat := 3000
  vCore : Nat := 900
  /-- LINK_PERMIT. [32; R302 09_continuity_die.md; spec 0x2000] -/
  linkPermit : Word := 0x2000
  /-- FABRIC_WIN and LOCAL_WIN, valid entries: match, mask, PTYPE mask, group mask; base, size in 2 MiB, permissions. [16 × 16 bytes; R304, R305 09_continuity_die.md; spec none] -/
  fabWin : List (Nat × Nat × Nat × Nat) := []
  localWin : List (Nat × Nat × Nat) := []
  /-- OPERATOR_KEY_HASH. [32 bytes; R302 09_continuity_die.md; spec 0] -/
  opKey : List Byte := List.replicate 32 0
deriving DecidableEq, Repr

/-- The lease cell (R285-R292). -/
structure Lease where
  /-- HOLDER. [2; LEASE_STATUS 09_continuity_die.md; spec none] -/
  holder : Option Nat := none
  /-- GATES_OPEN, WAIVED, RECOVERY. [3; LEASE_STATUS 09_continuity_die.md; spec 0] -/
  gates : Bool := false
  waived : Bool := false
  recovery : Bool := false
  /-- GEN. [32; LEASE_GEN 09_continuity_die.md; spec 0] -/
  gen : Word := 0
  /-- MONO of the expiry; MONO at which a guard ends (GUARD is set while there is one). [2 × 64; R285, R287 09_continuity_die.md; DESIGN CHOICE 0, log 3] -/
  expiry : Nat := 0
  guardEnd : Option Nat := none
  /-- What the tick in progress has seen, by MONO / 10: a renewal accepted; claims refused, with the CTD and its generation; an opening refused, with its CTD. [list; R290 09_continuity_die.md; DESIGN CHOICE none, log 3] -/
  renewTick : Option Nat := none
  claims : List (Nat × Nat × Word) := []
  opening : Option (Nat × Nat) := none
  /-- A renewal since the grant (R291). [1; R291 09_continuity_die.md; DESIGN CHOICE 0, log 3] -/
  renewed : Bool := false
  /-- MONO at which the gates closed, if a switchover gap runs. [64; R292 09_continuity_die.md; DESIGN CHOICE none, log 3] -/
  closedAt : Option Nat := none
  /-- LEASE_GAP. [32; LEASE_GAP 09_continuity_die.md; spec 0] -/
  gapUs : Nat := 0
  /-- LEASE_CNT: SWITCHOVERS, BAD_RENEW, WDOG_LOSSES. [3 × 16; LEASE_CNT 09_continuity_die.md; spec 0] -/
  switchovers : Nat := 0
  badRenew : Nat := 0
  wdogLosses : Nat := 0
  /-- A grant has been made since power-on reset; cause of the last loss: 0 expiry, 1 release, 2 watchdog; the last loser. [record; R288, R311 09_continuity_die.md; DESIGN CHOICE 0, log 3] -/
  granted : Bool := false
  lossCause : Nat := 0
  loser : Option Nat := none
  /-- The grant followed a loss: the holder's opening is a takeover. [1; R295 09_continuity_die.md; DESIGN CHOICE 0, log 3] -/
  takeover : Bool := false
  /-- The gates have been opened since power-on reset. [1; R477 16_boot_power_connector.md; DESIGN CHOICE 0, log 3] -/
  opened : Bool := false
  /-- Module recovery in progress: MONO of its start, cause. [64 + 3; R414, R421 13_hangs_resets_recovery.md; DESIGN CHOICE 0, log 3] -/
  recStart : Nat := 0
  recCause : Nat := 0
  /-- What follows a response that is being placed: 1 the release of Switchover, 2 the release of the channel, 10 + cause a recovery. [4; R329, R414 13_hangs_resets_recovery.md; DESIGN CHOICE 0, log 3] -/
  next : Nat := 0
deriving DecidableEq, Repr

/-- Non-volatile stores: the lease cell's and the module's NOR flash (R301, R308, R471, R475). Power-on reset keeps it. -/
structure Nv where
  /-- OOS_STATUS.LATCHED and LATCH_COUNT. [1 + 16; OOS_STATUS 09_continuity_die.md; HW, DESIGN CHOICE 0, log 2] -/
  latched : Bool := false
  latchCount : Nat := 0
  /-- Times of the last 8 counted recoveries in ns of the cell's powered time, newest first (RECOVERIES is their number in the window). [8; R308, R420 09_continuity_die.md; HW, DESIGN CHOICE none, log 2] -/
  recoveries : List Nat := []
  /-- The cell's powered time before this power-on reset, in ns. [64; R420 13_hangs_resets_recovery.md; HW, DESIGN CHOICE 0, log 2] -/
  poweredNs : Nat := 0
  /-- The latch has been set and OOS_LATCH_SET is still to be logged. [1; R308 09_continuity_die.md; HW, DESIGN CHOICE 0, log 2] -/
  latchNew : Bool := false
  /-- OOS_NONCE. [64; OOS_NONCE 09_continuity_die.md; HW, DESIGN CHOICE 0, log 2] -/
  nonce : BitVec 64 := 0
  /-- Clamp anti-rollback count; LOWEST_RELEASE; LAST_RELEASE; last sieve pack version. [4 × 32; R301, R334 09_continuity_die.md; HW, DESIGN CHOICE 0, log 2] -/
  clampSeq : Nat := 0
  minRelease : Nat := 0
  lastRelease : Nat := 0
  packVersion : Nat := 0
  /-- CAL_ALTERED. [1; R470 15_energy_tolls.md; HW, DESIGN CHOICE 0, log 2] -/
  calAltered : Bool := false
  /-- Flash objects: firmware image, clamp block, sieve pack, calibration set. [bytes; R334, R469 10_mailboxes_and_darid.md; HW, DESIGN CHOICE empty, log 2] -/
  image : List Byte := []
  clampBlock : List Byte := []
  pack : List Byte := []
  cal : List Byte := []
  /-- Toll key generations of CTD0 and CTD1. [2 × 32; R466, TL_KEY 15_energy_tolls.md; spec 1, the pair of manufacture] -/
  keyGen : List Nat := [1, 1]
  /-- The sealed private toll key of CTD0 and CTD1 matches its certified public key. [2; R466 15_energy_tolls.md; HW, DESIGN CHOICE true, log 39] -/
  keyGood : List Bool := [true, true]
  /-- CTD0's and CTD1's flash read of the image completes at their next boot. [2; R475 16_boot_power_connector.md; HW, DESIGN CHOICE true, log 65] -/
  imageReads : List Bool := [true, true]
  /-- Module power-on resets and recoveries counted for RESET_CAUSE; last cause. [2 × 32 + 3; LEASE_RESET_CAUSE 16_boot_power_connector.md; HW, DESIGN CHOICE 0, log 2] -/
  resetCause : Nat := 0
  resetCount : Nat := 0
deriving DecidableEq, Repr

/-- The standby's copy of the tally and of the counts since power-on or since TOLL became valid (R298, R392, R353). -/
structure Totals where
  tally : Nat := 0
  tallySt : Nat := 0
  lastInput : Nat := 0
  inputAll : Nat := 0
  tagAll : Nat := 0
  /-- Errors and replays, by port. -/
  ports : List (Nat × Nat) := []
deriving DecidableEq, Repr

/-- CTDs, lease cell, clamps, stores. -/
structure ContinuitySt where
  /-- CTD0 and CTD1. [2; R283 09_continuity_die.md; spec] -/
  ctds : List Ctd := [{}, {}]
  /-- Lease cell. [record; R285 09_continuity_die.md; spec] -/
  lease : Lease := {}
  /-- Clamps. [record; R301 09_continuity_die.md; spec fused defaults] -/
  clamp : Clamp := {}
  /-- Non-volatile stores. [record; R301, R308 09_continuity_die.md; HW, log 2] -/
  nv : Nv := {}
  /-- MGMT packets discarded by FABRIC_WIN. [counter; R304 09_continuity_die.md; DESIGN CHOICE 0, log 3] -/
  winDrops : Nat := 0
  /-- Mirror sequence of the active CTD. [32; R299 09_continuity_die.md; DESIGN CHOICE 0, log 3] -/
  mirrorSeq : Word := 0
  /-- The mirrored tally and totals. [record; R298 09_continuity_die.md; DESIGN CHOICE 0, log 3] -/
  totals : Totals := {}
  /-- Clamp hits of the module: what the holder's CTD_CLAMP_HIT shows, mirrored, and set by hardware whoever holds the waybill. [10; R298, R306 09_continuity_die.md; spec 0] -/
  hits : BitVec 10 := 0
  /-- CLAMP_HIT records owed while no CTD holds the waybill: bit, value, limit, unit. [list; R306 09_continuity_die.md; DESIGN CHOICE none, log 3] -/
  hitOwed : List (Nat × Nat × Nat × Nat) := []
deriving DecidableEq, Repr

end Sys2Proof.Machine
end

