-- ==== Sys2Proof/Machine/StJob.lean ====
section
/-! DEFINITION. State of job continuity (chapter 14): hoard snapshots, fills and restores, cellar ports. Hoard
configurations, cursors and status registers stand in the contexts. -/

namespace Sys2Proof.Machine

/-- A hoard snapshot in progress (R427-R431). -/
structure Snapshot where
  ctx : Nat
  who : Option Who
  /-- Semaphore to signal when it ends, if any; schedule entry it came from (0xFFFFFFFF: the command); the hold. -/
  sem : Option Nat
  hold : Bool
  step : BitVec 64 := 0
  startAt : Nat
  /-- The read point has been latched, with the windows, streams' counters and cursors as metadata (R426). -/
  latched : Bool := false
  meta_ : List Byte := []
  wins : List (Nat × Nat) := []
  /-- Copy in progress; masks of copies committed and failed; reason of the first failure. -/
  copy : Nat := 0
  doneMask : Nat := 0
  failMask : Nat := 0
  first : Nat := 0
  /-- Of the copy in progress: requests not answered; 0 header GET, 1 data PUTs, 2 VALID PUT; the header read; status of a
  failed request plus 0x100; bytes written. -/
  puts : Nat := 0
  stage : Nat := 0
  head : List Byte := []
  reason : Nat := 0
  bytes : Nat := 0
  /-- The context left ACTIVE or a die of the source entered reset (reason 5). -/
  stop : Bool := false
deriving DecidableEq, Repr

/-- A fill or restore (R435-R441). -/
structure Fill where
  ctx : Nat
  who : Option Who
  restore : Bool
  prio : Nat
  /-- Module IDs of the sources in order; STEP and whether it is fixed. -/
  sources : List Nat
  step : BitVec 64 := 0
  fixed : Bool := false
  startAt : Nat
  /-- Source in use; 0 queued, 1 metadata, 2 data, 3 ended; GETs not answered. -/
  source : Nat := 0
  stage : Nat := 0
  gets : Nat := 0
  /-- Metadata read, by offset, with its husk sectors. -/
  meta_ : SMap (List Byte) := []
  metaHusks : List Nat := []
  /-- Local addresses of units written; units that came with husks: address, bytes, sectors, position of their source. -/
  written : List Nat := []
  kept : List (Nat × List Byte × List Nat × Nat) := []
  bytes : Nat := 0
  husks : Nat := 0
  /-- RESP status of a failed GET; reason of the last source failure; position that wrote the last unit; complete; NO_SUCH. -/
  status : Nat := 0
  reason : Nat := 0
  last : Nat := 0
  complete : Bool := false
  noSuch : Bool := false
  /-- The context left ACTIVE (reason 6). -/
  stop : Bool := false
deriving DecidableEq, Repr

/-- One cellar command (R443-R445). -/
structure CellarJob where
  who : Who
  write : Bool
  ctx : Nat
  nsid : Nat
  lba : Nat
  addr : Nat
  len : Nat
  startAt : Nat
deriving DecidableEq, Repr

/-- A PCIe root port with its NVMe device (R442). -/
structure CellarPort where
  /-- A device has been found and answers. [1; R442 14_job_continuity.md; DESIGN CHOICE 0, log 3] -/
  present : Bool := false
  /-- A fatal status was reported and no later reset has cleared it. [1; R442 14_job_continuity.md; DESIGN CHOICE 0, log 3] -/
  failed : Bool := false
  /-- Namespaces the controller reports: blocks of 4 KiB, format admitted (R442). [table; R442 14_job_continuity.md; DESIGN CHOICE none, log 3] -/
  nss : SMap (Nat × Bool) := []
  /-- I/O queues created on the controller: 16, the most that are used (R10, R442). [5; R10 00_scope.md; DESIGN CHOICE 0, log 50] -/
  ioQueues : Nat := 0
  /-- Blocks the last CellarWrite put out: block number, husk mask, data. [list; R444 14_job_continuity.md; MODEL, DESIGN CHOICE empty, log 6] -/
  sent : List (Nat × BitVec 128 × List Byte) := []
  /-- Commands accepted, oldest first. [list; R443 14_job_continuity.md; DESIGN CHOICE none, log 3] -/
  jobs : List CellarJob := []
deriving DecidableEq, Repr

/-- Job continuity. -/
structure JobSt where
  /-- Snapshots in progress, by context. [256; R427 14_job_continuity.md; DESIGN CHOICE none, log 3] -/
  snaps : List Snapshot := []
  /-- Fills and restores, in order of acceptance. [list; R436 14_job_continuity.md; DESIGN CHOICE none, log 3] -/
  fills : List Fill := []
  /-- Root ports 0 and 1. [2; R442 14_job_continuity.md; DESIGN CHOICE no device, log 3] -/
  ports : List CellarPort := [{}, {}]
deriving DecidableEq, Repr

end Sys2Proof.Machine
end

