-- ==== Sys2Proof/Machine/StToll.lean ====
section
/-! DEFINITION. State of the energy account: request tags, the accounts, close buffers, closed records and manifests
(chapter 15). Energies are whole nanojoules. -/

namespace Sys2Proof.Machine

/-- What a tag or a context's overhead has been charged: the six parts of R459 (ME, VE, DE, memory, fabric, conversion),
ME reference cycles, memory bytes, flit bytes. -/
structure Acct where
  parts : List Nat := [0, 0, 0, 0, 0, 0]
  meCycles : Nat := 0
  memBytes : Nat := 0
  fabBytes : Nat := 0
deriving DecidableEq, Repr

/-- A request tag (R112, R457). -/
structure Tag where
  /-- Open; closing. [2; R457 15_energy_tolls.md; DESIGN CHOICE closed, log 3] -/
  isOpen : Bool := false
  closing : Bool := false
  /-- Context that opened it. [8; R112 03_engines_and_contexts.md; DESIGN CHOICE 0, log 3] -/
  ctx : Nat := 0
  /-- Account so far. [record; R455 15_energy_tolls.md; DESIGN CHOICE 0, log 3] -/
  acct : Acct := {}
  /-- Descriptors completed; one completed other than OK; a die stamp carried HOLDOVER; PARTIAL. [32 + 3; R459 15_energy_tolls.md; DESIGN CHOICE 0, log 3] -/
  descs : Nat := 0
  failed : Bool := false
  holdover : Bool := false
  partial_ : Bool := false
  /-- TOLL stamp word of its first interval. [64; R459 15_energy_tolls.md; DESIGN CHOICE 0, log 3] -/
  openToll : BitVec 64 := 0
  /-- Dies that hold a part of it. [4; R457 15_energy_tolls.md; DESIGN CHOICE 0, log 3] -/
  dies : BitVec 4 := 0
  /-- Descriptors of the tag started and not complete. [counter; R457 15_energy_tolls.md; DESIGN CHOICE 0, log 3] -/
  running : Nat := 0
  /-- CAUSE of its closing. [3; R458 15_energy_tolls.md; DESIGN CHOICE 0, log 3] -/
  cause : Nat := 0
deriving DecidableEq, Repr

/-- A toll record in the close buffers or in a manifest (R459): RECORD_SEQ, the bytes before and after MANIFEST, E_TOTAL,
TOLL in ns of its close point, whether it is of TYPE 1, and the dies whose close buffers hold its parts. -/
structure TollRec where
  seq : Nat
  head : List Byte
  tail : List Byte
  total : Nat
  closeNs : Nat
  isTag : Bool
  dies : BitVec 4 := 0
deriving DecidableEq, Repr

/-- The accounts of one manifest window (R454, R461): tags apart. -/
structure TollWindow where
  /-- E_INPUT, HOST, IDLE, MODULE, UNATTRIBUTED. [5 × 64; R462 15_energy_tolls.md; DESIGN CHOICE 0, log 3] -/
  input : Nat := 0
  host : Nat := 0
  idle : Nat := 0
  module_ : Nat := 0
  unattr : Int := 0
  /-- Energy charged to tags in the window. [64; R455 15_energy_tolls.md; DESIGN CHOICE 0, log 3] -/
  tags : Nat := 0
  /-- Context overhead. [256 records; R454 15_energy_tolls.md; DESIGN CHOICE none, log 3] -/
  over_ : SMap Acct := []
  /-- TOLL_START, TOLL_END, MONO_START, MONO_END; TOLL in ns of the end. [5 × 64; R462 15_energy_tolls.md; DESIGN CHOICE 0, log 3] -/
  startToll : BitVec 64 := 0
  endToll : BitVec 64 := 0
  startMono : BitVec 64 := 0
  endMono : BitVec 64 := 0
  endNs : Nat := 0
  /-- FLAGS of R462 gathered so far, and the cause and die of a GAP. [16 + 3 + 2; R462, R472 15_energy_tolls.md; DESIGN CHOICE 0, log 3] -/
  flags : Nat := 0
  gapCause : Nat := 0
  gapDie : Nat := 0
  /-- MONO of the boundary. [64; R464 15_energy_tolls.md; DESIGN CHOICE 0, log 3] -/
  endMonoNs : Nat := 0
deriving DecidableEq, Repr

/-- A published manifest with its records (R462, R465). -/
structure Manifest where
  num : Nat
  bytes : List Byte
  recs : List TollRec
deriving DecidableEq, Repr

/-- A toll window TL_WINw (R473). -/
structure TlWin where
  /-- TL_WINw_MANIFEST and INDEX. [64 + 32; TL_WINw_MANIFEST 15_energy_tolls.md; spec 0] -/
  manifest : BitVec 64 := 0
  index : Word := 0
  /-- TL_WINw_STATUS: BUSY, VALID, NONE. [3; TL_WINw_STATUS 15_energy_tolls.md; spec 0] -/
  busy : Bool := false
  valid : Bool := false
  none_ : Bool := false
  /-- TL_WINw_REC0-31. [32 × 32; TL_WINw_RECn 15_energy_tolls.md; spec 0] -/
  words : List Word := List.replicate 32 0
deriving DecidableEq, Repr

/-- Energy tolls. -/
structure TollSt where
  /-- Request tags by number. [4,096; R112 03_engines_and_contexts.md; DESIGN CHOICE none open, log 3] -/
  tags : SMap Tag := []
  /-- Records in the close buffers, oldest first. [16,384 entries per die; R457 15_energy_tolls.md; DESIGN CHOICE empty, log 3] -/
  buffer : List TollRec := []
  /-- Boot number and records created since. [24 + 40; R459, R347 15_energy_tolls.md; HW, DESIGN CHOICE 0, log 2] -/
  boot : Nat := 0
  recCount : Nat := 0
  /-- The window being filled; windows cut and not yet published, oldest first. [records; R461 15_energy_tolls.md; DESIGN CHOICE empty, log 3] -/
  win : TollWindow := {}
  cut : List TollWindow := []
  /-- TOLL in ns of the last boundary; a boundary set and not reached, with FORCED. [64 + 65; R460 15_energy_tolls.md; DESIGN CHOICE none, log 3] -/
  lastBoundary : Nat := 0
  boundary : Option (Nat × Bool) := none
  /-- Count of manifests closed; hash of the last one; none has been published since power-on (FIRST). [40 + 256 + 1; R462 15_energy_tolls.md; DESIGN CHOICE 0, log 3] -/
  manCount : Nat := 0
  prevHash : List Byte := List.replicate 32 0
  first : Bool := true
  /-- Published manifests, oldest first. [4,096; R465 15_energy_tolls.md; DESIGN CHOICE none, log 3] -/
  held : List Manifest := []
  /-- TL_CNT: TAG_WAITS, GAP_MANIFESTS, FORCED, EVICTED. [4 × 16; TL_CNT 15_energy_tolls.md; spec 0] -/
  tagWaits : Nat := 0
  gapManifests : Nat := 0
  forced : Nat := 0
  evicted : Nat := 0
  /-- Descriptors held on CLOSING tags since the last TOLL_BACKLOG, and MONO of it. [record; R457 15_energy_tolls.md; DESIGN CHOICE 0, log 3] -/
  heldNow : Nat := 0
  backlogAt : Option Nat := none
  /-- Windows of CTD0 (0, 1) and CTD1 (2, 3). [4; R473 15_energy_tolls.md; spec 0] -/
  wins : List TlWin := List.replicate 4 {}
  /-- TollKeyRotate in progress; the next manifest of each CTD carries KEY_NEW. [record; R466, R467 15_energy_tolls.md; DESIGN CHOICE none, log 3] -/
  rotate : Option Who := none
  keyNew : List Bool := [false, false]
  /-- A boot of CTD0 and CTD1 found its key bad, and the new pair is being generated. [2; R466 15_energy_tolls.md; DESIGN CHOICE false, log 39] -/
  keyBusy : List Bool := [false, false]
  /-- Calibration set in effect; empty when the stored one is invalid. [256 KiB; R469, R471 15_energy_tolls.md; HW, DESIGN CHOICE empty, log 2] -/
  calUse : List Byte := []
  /-- Running totals of live counters 58 and 59 since TOLL became valid: measured input, tags, nJ. [2 × 64; R353 11_ledger_and_observability.md; spec 0] -/
  inputAll : Nat := 0
  tagAll : Nat := 0
  /-- The last interval's samples: input millivolts and milliamperes. [2 × 32; R452, R332 15_energy_tolls.md; DESIGN CHOICE 0, log 3] -/
  lastMv : Nat := 0
  lastMa : Nat := 0
  /-- The last interval's rails, millivolts and milliamperes. [11; R452 15_energy_tolls.md; DESIGN CHOICE 0, log 3] -/
  lastRails : List (Nat × Nat) := []
  /-- Number of the last interval sampled. [64; R452 15_energy_tolls.md; DESIGN CHOICE none, log 3] -/
  lastIv : Option Nat := none
deriving DecidableEq, Repr

/-- The holder of the waybill is lost: a key generation in progress is dropped, and manifests cut and not published will be formed
again (R468: RESIGNED). -/
def TollSt.lost (t : TollSt) : TollSt :=
  { t with rotate := none, cut := t.cut.map fun w => { w with flags := w.flags ||| 16 } }

/-- TL_MANIFEST_NEXT. -/
def TollSt.nextNum (t : TollSt) : Nat := t.boot % 2 ^ 24 * 2 ^ 40 + t.manCount % 2 ^ 40

/-- Entries of a die's close buffer, and the fullest of them (R457). -/
def TollSt.fill (t : TollSt) (d : Nat) : Nat := (t.buffer.filter fun r => r.dies.getLsbD d).length
def TollSt.backlog (t : TollSt) : Nat := ((List.range 4).map t.fill).foldl max 0

end Sys2Proof.Machine
end

