-- ==== Sys2Proof/Machine/StPower.lean ====
section
/-! DEFINITION. State of power, the management port, I3C and attestation (chapter 16). -/

namespace Sys2Proof.Machine

/-- Power state of one compute die (R490-R492, R306). -/
structure PowDie where
  /-- Setpoints: ME clock and host clock in MHz, core voltage in mV. [3 × 16; R490 16_boot_power_connector.md; DESIGN CHOICE 1500, 3000, 900, log 3] -/
  me : Nat := 1500
  host : Nat := 3000
  mv : Nat := 900
  /-- Sixteenths the module limiter takes off the ME clock, and its halving by the current limiter. [4 + 1; R306 09_continuity_die.md; DESIGN CHOICE 0, log 3] -/
  limit : Nat := 0
  halved : Bool := false
  /-- Sixteenths the die's own thermal clamp takes off. [4; R492 16_boot_power_connector.md; DESIGN CHOICE 0, log 3] -/
  thermal : Nat := 0
  /-- Its self-clamp and its neighbour clamp in effect, and MONO of the last step of either. [2 + 64; R492 16_boot_power_connector.md; DESIGN CHOICE 0, log 3] -/
  hot : Bool := false
  neigh : Bool := false
  stepAt : Nat := 0
  /-- The limit of R491 in force, in MHz. [16; R491 16_boot_power_connector.md; DESIGN CHOICE none, log 3] -/
  pair : Option Nat := none
  /-- Last junction sample in m°C. [signed; R492 16_boot_power_connector.md; DESIGN CHOICE 0, log 3] -/
  junction : Int := 0
deriving DecidableEq, Repr

/-- Power of the module. -/
structure PowerSt where
  /-- Dies. [4; R490 16_boot_power_connector.md; see fields] -/
  dies : List PowDie := List.replicate 4 {}
  /-- PowerCap target in W, 0 for none. [16; R332 10_mailboxes_and_darid.md; DESIGN CHOICE 0, log 3] -/
  cap : Nat := 0
  /-- THERM_ALERT_N asserted, and MONO since which no condition holds. [1 + 64; R493 16_boot_power_connector.md; DESIGN CHOICE 0, log 3] -/
  alert : Bool := false
  clearSince : Option Nat := none
  /-- Input is in range and MOD_RST_N high: rails are on. [1; R477, R487 16_boot_power_connector.md; DESIGN CHOICE 1, log 3] -/
  rails : Bool := true
  /-- MOD_RST_N is held low. [1; R488 16_boot_power_connector.md; DESIGN CHOICE 0, log 3] -/
  rstLow : Bool := false
  /-- Input trip in force: 1 undervoltage, 2 overvoltage, 3 overcurrent. [2; R487 16_boot_power_connector.md; DESIGN CHOICE 0, log 3] -/
  trip : Nat := 0
deriving DecidableEq, Repr

/-- The management port (R486, R500). -/
structure MgmtSt where
  /-- LEASE_MGMT_IPV4: ADDR, PREFIX, VALID; LEASE_MGMT_GW.GATEWAY. [32 + 6 + 1 + 32; LEASE_MGMT_IPV4, LEASE_MGMT_GW 16_boot_power_connector.md; spec 0] -/
  ip : Word := 0
  prefix_ : Nat := 0
  valid : Bool := false
  gw : Word := 0
  /-- LEASE_MGMT_STATUS.FEC_EN. [1; LEASE_MGMT_STATUS 16_boot_power_connector.md; spec 1] -/
  fec : Bool := true
  /-- LEASE_MGMT_STATUS: LINK_UP, DISCARDED. [1 + 16; LEASE_MGMT_STATUS 16_boot_power_connector.md; spec 0] -/
  linkUp : Bool := false
  /-- LEASE_PWR_SUMMARY: INPUT_W, INPUT_V, MAX_DIE_C, and MONO of its last update. [41 + 64; LEASE_PWR_SUMMARY 16_boot_power_connector.md; spec 0] -/
  pwrW : Nat := 0
  pwrV : Nat := 0
  maxC : Nat := 0
  pwrAt : Nat := 0
  discarded : Nat := 0
  /-- ARP cache: IPv4 and station address. [list; R486 16_boot_power_connector.md; DESIGN CHOICE empty, log 3] -/
  arp : List (Nat × Nat) := []
  /-- ARP requests sent: the address asked for. [list; R486 16_boot_power_connector.md; MODEL, DESIGN CHOICE empty, log 6] -/
  arpAsk : List Nat := []
  /-- ARP replies sent: target IPv4 and station. [list; R486 16_boot_power_connector.md; MODEL, DESIGN CHOICE empty, log 6] -/
  arpOut : List (Nat × Nat) := []
deriving DecidableEq, Repr

/-- The I3C target (R498, R500). -/
structure I3cSt where
  /-- Dynamic address. [7; R498 16_boot_power_connector.md; spec none] -/
  addr : Option (BitVec 7) := none
  /-- Offset of the next access. [16; R498 16_boot_power_connector.md; DESIGN CHOICE 0, log 3] -/
  offset : Nat := 0
  /-- Latched bytes of the 64-bit register being read. [record; R498 16_boot_power_connector.md; DESIGN CHOICE none, log 3] -/
  latch : Option (Nat × BitVec 64) := none
  /-- Bytes of the last private read. [list; R498 16_boot_power_connector.md; MODEL, DESIGN CHOICE empty, log 6] -/
  out : List Byte := []
deriving DecidableEq, Repr

/-- The SPDM responder (R483-R485). -/
structure SpdmSt where
  /-- Channel that holds the connection, if one is open. [9; R484 16_boot_power_connector.md; DESIGN CHOICE none, log 3] -/
  chan : Option Nat := none
  /-- Negotiation state: 0 none, 1 version, 2 capabilities, 3 algorithms. [2; R483 16_boot_power_connector.md; DESIGN CHOICE 0, log 3] -/
  stage : Nat := 0
  /-- Transcript so far. [bytes; R483 16_boot_power_connector.md; DESIGN CHOICE empty, log 3] -/
  transcript : List Byte := []
  /-- A signed response in preparation: requester and request bytes. [record; R483 16_boot_power_connector.md; DESIGN CHOICE none, log 3] -/
  pending : Option (Who × List Byte) := none
deriving DecidableEq, Repr

end Sys2Proof.Machine
end

