-- ==== Sys2Proof/Machine/State.lean ====
section
/-! DEFINITION. The state of the module, the reasons a step can stop, and the state after reset. Each chapter's part of
the state is a record of its own in the St*.lean files. -/

namespace Sys2Proof.Machine

/-- No step of this block faults: what the manual calls an error response, a refused command or a failed access is a
next state that holds the answer. -/
inductive Fault where
deriving DecidableEq, Repr

/-- Why a command has no meaning. -/
inductive Refusal where
  /-- An arm of exec that has no meaning yet. Safe: nothing can be proved of it. -/
  | notModelled (mnemonic : String)
  /-- Raised by a CSR access of the active CTD's service processor to a present optical engine's range: R34 says that the
  layout of those registers is not part of the manual. Safe: the run stops. -/
  | opticalRegister
  /-- Raised by MB_POP on channels 416-511: R313 says that the manual does not define their opcodes. Safe: the run stops. -/
  | internalOpcode
deriving DecidableEq, Repr

/-- Everything the manual gives the module, and the queue of the commands that wait. -/
structure State where
  /-- Commands that wait, first in first out. [list; MODEL; DESIGN CHOICE empty, log 6] -/
  pending : List Instr := []
  /-- Fuses and straps. [record; R2 00_scope.md; HW, log 1] -/
  fuse : Fuses := {}
  /-- MOD_ID, MOD_OPT_SPARE. [record; R41, R45 01_package.md; spec] -/
  mod : ModRegs := {}
  /-- Die-to-die ring. [record; R19 01_package.md; spec] -/
  ring : RingSt := {}
  /-- Compute dies. [4; R18 01_package.md; see fields] -/
  dies : List DieSt := List.replicate 4 {}
  /-- Answer of the last access. [record; R40 01_package.md; MODEL, log 6] -/
  bus : BusResp := {}
  /-- Time bases and servo. [record; R47 02_time_and_schedule.md; spec] -/
  time : TimeSt := {}
  /-- Time receivers of the dies. [4; R54 02_time_and_schedule.md; see fields] -/
  dieTime : List DieTime := List.replicate 4 {}
  /-- Schedule table, VALID entries only. [1,024 × 32 bytes; R76 02_time_and_schedule.md; DESIGN CHOICE empty, log 3] -/
  sched : SMap SchedEntry := []
  /-- Engines, contexts, queues, tiles, semaphores. [record; R85 03_engines_and_contexts.md; spec] -/
  eng : EngTables := {}
  /-- Memory and its controllers. [record; R182 06_memory.md; spec] -/
  mem : MemSt := {}
  /-- Ledgers of CTD0 and CTD1. [2; R337 11_ledger_and_observability.md; spec] -/
  ledgers : List Ledger := [{}, {}]
  /-- Counters and tensor watch. [record; R351 11_ledger_and_observability.md; spec] -/
  obs : ObserveSt := {}
  /-- Mailboxes. [record; R312 10_mailboxes_and_darid.md; spec] -/
  mbox : DaridSt := {}
  /-- Sieve and tally. [record; R392 12_silent_errors.md; spec] -/
  silent : SilentSt := {}
  /-- Weagan, slices, convoys. [record; R209 07_fabric.md; spec] -/
  fab : FabricSt := {}
  /-- Continuity Dies, lease, clamps. [record; R283 09_continuity_die.md; spec] -/
  ctd : ContinuitySt := {}
  /-- Hoard, fills, cellar. [record; R424 14_job_continuity.md; see fields] -/
  job : JobSt := {}
  /-- Tolls. [record; R452 15_energy_tolls.md; spec] -/
  toll : TollSt := {}
  /-- Power. [record; R489 16_boot_power_connector.md; see fields] -/
  power : PowerSt := {}
  /-- Management port. [record; R486 16_boot_power_connector.md; see fields] -/
  mgmt : MgmtSt := {}
  /-- I3C target. [record; R498 16_boot_power_connector.md; see fields] -/
  i3c : I3cSt := {}
  /-- SPDM responder. [record; R483 16_boot_power_connector.md; see fields] -/
  spdm : SpdmSt := {}
  /-- Counter of the free values drawn (MODEL's own; the manual has no such counter). [counter; MODEL; DESIGN CHOICE 0, log 4] -/
  free : Nat := 0
deriving DecidableEq, Repr

/-- The module right after reset: before the first POWER_ON_RESET has booted a CTD (log 3). -/
def State.reset : State := {}

end Sys2Proof.Machine
end

