-- ==== Sys2Proof/Machine/Ops.lean ====
section
/-! DEFINITION. The named operations every family shares: time and stamps, the Ledger and its events, mailbox responses,
counters, main memory and the tile stores. -/

namespace Sys2Proof.Machine

/-! ### Time -/

/-- One nanosecond in the units POD and TOLL are kept in. -/
def nsUnit : Int := 1000000000000

/-- POD and TOLL of the active CTD in whole nanoseconds. -/
def State.podNs (s : State) : Nat := (s.time.pod / nsUnit).toNat
def State.tollNs (s : State) : Nat := (s.time.toll / nsUnit).toNat

/-- A stamp word (R53): time in units of 4 ns, HOLDOVER, UNTRACED. -/
def stampWord (ns : Nat) (holdover untraced : Bool) : BitVec 64 :=
  BitVec.ofNat 64 (4 * (ns / 4) + b2n holdover + 2 * b2n untraced)

/-- POD, TOLL and MONO stamp words taken by the active CTD (R53): UNTRACED while POD is not LOCKED. -/
def State.podStamp (s : State) : BitVec 64 := stampWord s.podNs false (s.time.lock != .locked)
def State.tollStamp (s : State) : BitVec 64 := stampWord s.tollNs false (s.time.lock != .locked)
def State.monoStamp (s : State) : BitVec 64 := stampWord s.time.mono false false

/-- The time receiver of a die. -/
def State.dt (s : State) (die : Nat) : DieTime := s.dieTime.getD die {}

/-- POD and MONO stamp words taken by a compute die (R53, R56). Out of reset a die takes no stamps until its first frame (R59): the
word is then 0, as in R72 where no stamp was taken (log 63). -/
def State.diePodStamp (s : State) (die : Nat) : BitVec 64 :=
  let t := s.dt die
  if t.seen then stampWord (t.pod / nsUnit).toNat t.holdover !t.locked else 0
def State.dieMonoStamp (s : State) (die : Nat) : BitVec 64 :=
  let t := s.dt die
  if t.seen then stampWord t.mono t.holdover false else 0

/-- STEP number and phase of a STEP word (R47). -/
def stepNum (w : BitVec 64) : Nat := w.toNat / 65536
def stepPhase (w : BitVec 64) : Nat := w.toNat % 65536
def stepWord (n ph : Nat) : BitVec 64 := BitVec.ofNat 64 (n % 2 ^ 48 * 65536 + ph % 65536)

/-- A free value of w bits and the state with the next draw counted (log 4). -/
def State.draw (s : State) (w : Nat) : BitVec w × State := (Config.freeValue w s.free, { s with free := s.free + 1 })

/-! ### Units of the package -/

/-- What MOD_CAPS says of the variant (R1). -/
def State.hasCtd1 (s : State) : Bool := s.fuse.variant != .sx
def State.hasOptics (s : State) : Bool := s.fuse.variant != .ae
/-- A port exists in this variant: circuit ports only where there are optical engines (R8, R209). -/
def State.portPresent (s : State) (p : Nat) : Bool := p < 9 || s.hasOptics
def State.ctdPresent (s : State) (n : Nat) : Bool := n == 0 || s.hasCtd1

/-- The compute die that owns a port (R27). -/
def portDie (p : Nat) : Nat := [0, 0, 1, 1, 3, 3, 2, 2, 2, 0, 1, 3, 2].getD p 0

/-- A die, a Continuity Die, a port. -/
def State.die (s : State) (d : Nat) : DieSt := s.dies.getD d {}
def State.ctdOf (s : State) (n : Nat) : Ctd := s.ctd.ctds.getD n {}
def State.port (s : State) (p : Nat) : PortSt := s.fab.ports.getD p {}

/-- The same with one changed. -/
def State.setDie (s : State) (d : Nat) (f : DieSt → DieSt) : State := { s with dies := lmod s.dies d f }
def State.setCtd (s : State) (n : Nat) (f : Ctd → Ctd) : State := { s with ctd := { s.ctd with ctds := lmod s.ctd.ctds n f } }
def State.setPort (s : State) (p : Nat) (f : PortSt → PortSt) : State :=
  { s with fab := { s.fab with ports := lmod s.fab.ports p f } }
def State.setLease (s : State) (f : Lease → Lease) : State := { s with ctd := { s.ctd with lease := f s.ctd.lease } }

/-- The CTD that holds the waybill (R285) and has power: without the rails the lease cell alone keeps counting (R24). -/
def State.holder (s : State) : Option Nat := if s.power.rails then s.ctd.lease.holder else none

/-! ### The Ledger -/

/-- Sequence number of a record (R347). -/
def ledgerSeq (l : Ledger) : Nat := l.boot % 2 ^ 24 * 2 ^ 40 + l.count % 2 ^ 40

/-- The least sequence of the records of severity s or lower in a ring given newest first: the oldest such record. -/
def evict (sev : Nat) : List Rec → Option (List Rec)
  | [] => none
  | r :: rest =>
    match evict sev rest with
    | some rest' => some (r :: rest')
    | none => if r.sev ≤ sev then some rest else none

/-- R345 for a ring of a given size: the ring with the record stored, or none when it finds no room; and whether one was
overwritten. -/
def ringPut (size : Nat) (r : Rec) (ring : List Rec) : Option (List Rec) × Bool :=
  if ring.length < size then (some (r :: ring), false)
  else ((evict r.sev ring).map (r :: ·), true)

/-- R344: the event equals the newest record and less than 1 s of MONO has passed since its creation. -/
def mergesWith (mono code sev src : Nat) (ps : List Nat) (n : Option Rec) : Bool :=
  match n with
  | none => false
  | some r => r.code == code && r.sev == sev && r.src == src && r.params == ps && mono < r.born + 1000000000

/-- The record after a merge (R344). -/
def mergeRec (time : BitVec 64) (monoTime : Bool) (r : Rec) : Rec :=
  { r with
    rep := if r.rep < 65535 then r.rep + 1 else r.rep
    flags := (r.flags ||| (if r.rep < 65535 then 0 else 8)) / 2 * 2 + b2n monoTime
    time := time }

/-- Eight parameter words of 32 bits. -/
def params8 (ps : List Nat) : List Nat := padTo 8 0 (ps.map (· % 2 ^ 32))

/-- Append or merge (R342-R347): the Ledger after it, and the record if one was created. -/
def Ledger.add (l : Ledger) (mono : Nat) (time : BitVec 64) (monoTime standby queued : Bool) (code sev src : Nat)
    (ps : List Nat) : Ledger × Option Rec :=
  let ps := params8 ps
  if mergesWith mono code sev src ps l.newest then
    let q := (l.newest.map (·.seq)).getD 0
    let up := fun r => if r.seq = q then mergeRec time monoTime r else r
    ({ l with newest := l.newest.map up, ram := l.ram.map up }, none)
  else
    let r : Rec :=
      { code := code, sev := sev, src := src, seq := ledgerSeq l, time := time, params := ps, born := mono
        flags := b2n monoTime + 2 * b2n standby + 4 * b2n (src / 512 == 0) + 16 * b2n queued }
    let (ring, full) := ringPut 32768 r l.ram
    let stored := ring.isSome
    ({ l with
        ram := ring.getD l.ram
        ramOver := if stored && full then (l.ramOver + 1) % 2 ^ 24 else l.ramOver
        dropped := if stored then l.dropped else satAdd 0xFFFFFFFF l.dropped 1
        newest := some r
        count := l.count + 1
        owed := if sev ≥ 4 then l.owed ++ [(r, 1, mono)] else l.owed }, some r)

/-- What an event adds to the tally (R392): code, parameters. -/
def tallyPoints (code : Nat) (ps : List Nat) : Nat :=
  match code with
  | 0x0501 => 5
  | 0x0502 => 60
  | 0x0503 => if ps.getD 3 9 ≤ 1 then 60 else 0
  | 0x0505 => if ps.getD 4 9 = 0 then 40 else 0
  | 0x0506 => 250
  | 0x0201 => if ps.getD 2 0 = 0x32 then 20 else 0
  | 0x0705 => 150
  | 0x1201 => if ps.getD 5 9 ≤ 4 then 15 else 0
  | 0x1202 => 10
  | 0x1203 => 50
  | 0x1204 => 600
  | 0x1005 => if ps.getD 1 9 = 1 then 2 else 0
  | 0x1009 => 40
  | 0x1002 => if ps.getD 1 9 = 0 then 40 else 0
  | 0x130A => 100
  | 0x1303 => 30
  | _ => 0

/-- Hysteresis of the tally state (R393): 0 GOOD, 1 PROBATION, 2 DEGRADED. -/
def tallyNext (st t : Nat) : Nat :=
  match st with
  | 0 => if t ≥ 200 then 1 else 0
  | 1 => if t < 100 then 0 else if t ≥ 800 then 2 else 1
  | _ => if t < 400 then 1 else 2

/-- The parts of the state that logging touches. -/
structure LogPart where
  ledgers : List Ledger
  mbox : DaridSt
  silent : SilentSt
  dies : List DieSt

/-- One event to the channels of a CTD whose subscription admits its severity (R323): held, or lost and counted. -/
def deliver (ctd : Nat) (r : Rec) (chans : SMap Channel) : SMap Channel :=
  mmapv chans fun k c =>
    if k / 512 = ctd && c.sub ≤ r.sev then
      if c.events.length < 64 then { c with events := c.events ++ [r] }
      else { c with lost := satAdd 0xFFFF c.lost 1, lostNow := c.lostNow + 1 }
    else c

/-- What the appending CTD supplies (R339): MONO, TIME word, MONO_TIME, STANDBY, QUEUED. -/
structure LogEnv where
  ctd : Nat
  mono : Nat
  time : BitVec 64
  monoTime : Bool
  standby : Bool
  queued : Bool

/-- Append one record in a CTD's Ledger and deliver it as an event. -/
def LogPart.add (p : LogPart) (e : LogEnv) (code sev src : Nat) (ps : List Nat) : LogPart :=
  let (l, r) := (p.ledgers.getD e.ctd {}).add e.mono e.time e.monoTime e.standby e.queued code sev src ps
  { p with
    ledgers := p.ledgers.set e.ctd l
    mbox := match r with
      | some r => { p.mbox with chans := deliver e.ctd r p.mbox.chans }
      | none => p.mbox }

/-- MB_EVENTS_LOST, once per second for a channel that has lost events (R323). -/
def LogPart.addLost (p : LogPart) (e : LogEnv) : LogPart :=
  (p.mbox.chans.filter fun c => c.1 / 512 = e.ctd && c.2.lostNow > 0 &&
      (match c.2.lostLog with | none => true | some t => t + 1000000000 ≤ e.mono)).foldl
    (fun p c =>
      let n := c.2.lostNow
      let cs := mmod {} p.mbox.chans c.1 fun c => { c with lostNow := 0, lostLog := some e.mono }
      let p := { p with mbox := { p.mbox with chans := cs } }
      p.add e 0x1405 3 (512 + e.ctd) [c.1 % 512, n]) p

/-- Add points to the tally and log a change of its state (R392, R393). -/
def LogPart.addTally (p : LogPart) (e : LogEnv) (points code : Nat) : LogPart :=
  if points = 0 then p
  else
    let t := satAdd 100000 p.silent.tally points
    let st := tallyNext p.silent.tallySt t
    let old := p.silent.tallySt
    let p := { p with silent := { p.silent with tally := t, tallySt := st, lastInput := code } }
    if st = old then p else p.add e 0x0508 4 (512 + e.ctd) [old, st, t, code]

/-- Append, deliver, count for the tally. -/
def LogPart.event (p : LogPart) (e : LogEnv) (code sev src : Nat) (ps : List Nat) : LogPart :=
  ((p.add e code sev src ps).addTally e (tallyPoints code ps) code).addLost e

/-- Take the logging parts out of a state and put them back. -/
def State.logPart (s : State) : LogPart := ⟨s.ledgers, s.mbox, s.silent, s.dies⟩
def State.withLog (s : State) (p : LogPart) : State :=
  { s with ledgers := p.ledgers, mbox := p.mbox, silent := p.silent, dies := p.dies }

/-- R339 for a CTD now. -/
def State.logEnv (s : State) (ctd : Nat) (queued : Bool) : LogEnv :=
  { ctd := ctd, mono := s.time.mono
    time := if s.time.podValid then s.podStamp else s.monoStamp
    monoTime := !s.time.podValid
    standby := (s.ctdOf ctd).role != .active
    queued := queued }

/-- A record in the Ledger of a given CTD. -/
def State.logTo (s : State) (ctd code sev src : Nat) (ps : List Nat) : State :=
  s.withLog (s.logPart.event (s.logEnv ctd false) code sev src ps)

/-- The die whose continuity logic reports an event of a source of class 2 (compute die) or 3 (port) (R340). -/
def srcDie (src : Nat) : Option Nat :=
  if src / 512 = 2 then some (bitsOf src 8 7) else if src / 512 = 3 then some (portDie (src % 16)) else none

/-- Put an event into a die's FIFO of 256 (R294). -/
def LogPart.toFifo (p : LogPart) (d code sev src : Nat) (ps : List Nat) : LogPart :=
  { p with dies := lmod p.dies d fun x =>
      if x.fifo.length < 256 then { x with fifo := x.fifo ++ [(code, sev, src, ps)] }
      else { x with fifoLost := x.fifoLost + 1 } }

/-- An event of the module (R343): the active CTD appends it; while the gates are closed a die keeps its own in its FIFO
(R294); without an active CTD nobody appends another. -/
def State.log (s : State) (code sev src : Nat) (ps : List Nat) : State :=
  match srcDie src, s.ctd.lease.gates, s.holder with
  | some d, false, _ => s.withLog (s.logPart.toFifo d code sev src ps)
  | _, _, some c => s.withLog (s.logPart.event (s.logEnv c false) code sev src ps)
  | _, _, none => s

/-- SOURCE values (R340). -/
def srcFw (s : State) : Nat := 512 + s.holder.getD 0
def srcDieUnit (die unit : Nat) : Nat := 1024 + 128 * die + unit
def srcPort (p : Nat) : Nat := 1536 + p
def srcLease : Nat := 2048
def srcOptic (e : Nat) : Nat := 2560 + e
def srcCrypto (s : State) : Nat := 3072 + s.holder.getD 0
def srcToll (s : State) : Nat := 3074 + s.holder.getD 0

/-- An event whose source is the active CTD's firmware. -/
def State.logFw (s : State) (code sev : Nat) (ps : List Nat) : State := s.log code sev (srcFw s) ps

/-- The 64 bytes of a record (R338). -/
def Rec.body (r : Rec) : List Byte :=
  leBytes 2 r.code ++ leBytes 2 (r.sev + 16 * r.src) ++ leBytes 2 r.rep ++ leBytes 2 r.flags ++ leBytes 8 r.seq ++
    leBytes 8 r.time.toNat ++ r.params.flatMap (leBytes 4)
def Rec.bytes (r : Rec) : List Byte := r.body ++ leBytes 4 (crc32c r.body).toNat ++ leBytes 4 0

/-- The 16 words of a record. -/
def Rec.words (r : Rec) : List Word := (chunks 4 r.bytes).map fun b => BitVec.ofNat 32 (ofLe b)

/-! ### Counters (R351, R352) -/

/-- A selection counts this event of this instance and context. -/
def selMatches (sel : Word) (ev inst : Nat) (ctx : Option Nat) : Bool :=
  let x := sel.toNat
  bitsOf x 11 0 == ev && ev != 0 && (bitsOf x 19 12 == 0xFF || bitsOf x 19 12 == inst) &&
    (!bitOf x 28 || ctx == some (bitsOf x 27 20))

/-- Count n occurrences on a die: every counter whose selection matches, modulo 2^48. -/
def Counters.count (c : Counters) (ev inst : Nat) (ctx : Option Nat) (n : Nat) : Counters :=
  let hits := c.sel.filter fun e => selMatches e.2 ev inst ctx
  { c with cnt := hits.foldl (fun m e => mmod 0 m e.1 fun v => (v + n) % 2 ^ 48) c.cnt }
def State.countEv (s : State) (die ev inst : Nat) (ctx : Option Nat) (n : Nat) : State :=
  { s with obs := { s.obs with dies := lmod s.obs.dies die fun c => c.count ev inst ctx n } }

/-! ### Mailbox responses (R316, R320, R322) -/

/-- A header word (R320). -/
def header (op len seq : Nat) (resp more event replay : Bool) : Word :=
  BitVec.ofNat 32 (op % 65536 + len % 8 * 2 ^ 16 + seq % 256 * 2 ^ 19 + b2n resp * 2 ^ 27 + b2n more * 2 ^ 28 +
    b2n event * 2 ^ 29 + b2n replay * 2 ^ 30)

/-- The messages that carry a list of words: at most seven each, MORE on all but the last (R321, R322). -/
def fragments (op seq : Nat) (resp event replay : Bool) (ws : List Word) : List Msg :=
  let cs := match chunks 7 ws with
    | [] => [[]]
    | l => l
  cs.zipIdx.map fun p =>
    header op p.1.length seq resp (p.2 + 1 < cs.length) event replay :: padTo 7 0 p.1

/-- A channel of a CTD. -/
def State.chan (s : State) (ctd ch : Nat) : Channel := mget {} s.mbox.chans (512 * ctd + ch)
def State.setChan (s : State) (ctd ch : Nat) (f : Channel → Channel) : State :=
  { s with mbox := { s.mbox with chans := mmod {} s.mbox.chans (512 * ctd + ch) f } }

/-- Hand a response's messages to the channel; what it answers stands in the cache (R326) and, for a command that is mirrored, in
the standby's mirror (R327). -/
def State.respond (s : State) (w : Who) (final : Bool) (ws : List Word) : State :=
  let e := (w.op, w.seq, if final then some (ws.take 1024) else none)
  let s := s.setChan w.ctd w.ch fun c =>
    { c with up := c.up ++ fragments w.op w.seq true false false (ws.take 1024), cache := some e }
  if w.mirrored then { s with mbox := { s.mbox with mirror := mput s.mbox.mirror w.ch e } } else s

/-- Hand over a response that leaves the cache alone: a replay (R326), BUSY (R324), FRAG_ERROR (R321). -/
def State.respondRaw (s : State) (ctd ch op seq : Nat) (replay : Bool) (ws : List Word) : State :=
  s.setChan ctd ch fun c => { c with up := c.up ++ fragments op seq true false replay ws }

/-- A status word (R322). -/
def statusWord (status detail : Nat) : Word := BitVec.ofNat 32 (status + 65536 * detail)

/-- R336: a command that changes state and ends OK, SATURATED or CLAMPED; one that is denied. The active CTD logs. -/
def State.logDarid (s : State) (w : Who) (status detail : Nat) : State :=
  if s.holder != some w.ctd then s
  else if (status = 0 || status = 3 || status = 5) && w.changes then
    s.logFw 0x1401 2 ([w.ch, w.op, w.seq, status] ++ w.args.take 4)
  else if status = 0x20 || status = 0x23 || status = 0x40 || status = 0x41 then
    s.logFw 0x1402 3 [w.ch, w.op, w.seq, status, detail, w.args.getD 0 0]
  else s

/-- The final response after a PENDING (R325): the channel of the present holder still waits for exactly this command
(R326, R327). In a switchover gap the mirror holds the response, and the new holder takes it into the channel's cache. -/
def State.finish (s : State) (w : Who) (status detail : Nat) (ws : List Nat) : State :=
  let w := { w with ctd := s.holder.getD w.ctd }
  let words := statusWord status detail :: ws.map (BitVec.ofNat 32)
  if (s.chan w.ctd w.ch).cache = some (w.op, w.seq, none) then (s.respond w true words).logDarid w status detail
  else if s.mbox.mirror.lookup w.ch = some (w.op, w.seq, none) then
    { s with mbox := { s.mbox with mirror := mput s.mbox.mirror w.ch (w.op, w.seq, some (words.take 1024)) } }
  else s

/-- Answer every waiting command. -/
def State.finishAll (s : State) (l : List Who) (status detail : Nat) (ws : List Nat) : State :=
  l.foldl (fun s w => s.finish w status detail ws) s

/-! ### Main memory and tile stores -/

/-- One die's usable region (R33): 360 GiB. -/
def regionSize : Nat := 0x5A00000000
/-- Top of usable memory (R33). -/
def usableTop : Nat := 0x16800000000
/-- One die's tile store: 192 MiB. -/
def storeSize : Nat := 0xC000000

/-- One byte of a sparse store; what is not listed reads 0. -/
def cellGet (cs : List Host.Cell) (a : Nat) : Byte := (cs.lookup a).getD 0

/-- A byte written, the list kept canonical: ascending addresses, no listed 0. -/
def cellPut : List Host.Cell → Nat → Byte → List Host.Cell
  | [], a, b => if b = 0 then [] else [(a, b)]
  | (j, w) :: r, a, b =>
    if a < j then (if b = 0 then (j, w) :: r else (a, b) :: (j, w) :: r)
    else if a = j then (if b = 0 then r else (a, b) :: r)
    else (j, w) :: cellPut r a b

/-- Bytes written one after the other. -/
def cellsPut (cs : List Host.Cell) : Nat → List Byte → List Host.Cell
  | _, [] => cs
  | a, b :: r => cellsPut (cellPut cs a b) (a + 1) r

/-- A husk mark set or cleared, the list kept ascending. -/
def huskAdd : List Nat → Nat → List Nat
  | [], k => [k]
  | j :: r, k => if k < j then k :: j :: r else if k = j then j :: r else j :: huskAdd r k
def huskDel (l : List Nat) (k : Nat) : List Nat := l.filter (· != k)

/-- Sectors of 32 bytes that a range touches. -/
def sectors (a n : Nat) : List Nat := if n = 0 then [] else (List.range ((a + n - 1) / 32 - a / 32 + 1)).map (· + a / 32)

/-- Addresses strictly ascending from a bound, no listed 0; husk sectors strictly ascending. -/
def cellsWf : Nat → List Host.Cell → Bool
  | _, [] => true
  | lo, (a, b) :: r => lo ≤ a && b != 0 && cellsWf (a + 1) r
def husksWf : Nat → List Nat → Bool
  | _, [] => true
  | lo, a :: r => lo ≤ a && husksWf (a + 1) r
def Mem.wf (m : Mem) : Bool := cellsWf 0 m.cells && husksWf 0 m.husks

/-- Bytes read. -/
def Mem.read (m : Mem) (a n : Nat) : List Byte := (List.range n).map fun i => cellGet m.cells (a + i)
/-- Husk sectors a range touches. -/
def Mem.husksIn (m : Mem) (a n : Nat) : List Nat := (sectors a n).filter m.husks.contains

/-- A sector made a husk: its bytes carried as zero (R194). -/
def Mem.husk (m : Mem) (k : Nat) : Mem :=
  { cells := cellsPut m.cells (32 * k) (List.replicate 32 0), husks := huskAdd m.husks k }

/-- A write into one sector under R196: its bytes from offset a; whether any of them comes from a husk. -/
def Mem.writeSector (m : Mem) (k a : Nat) (bytes : List Byte) (fromHusk : Bool) : Mem :=
  if fromHusk then m.husk k
  else if m.husks.contains k && bytes.length < 32 then m
  else { cells := cellsPut m.cells a bytes, husks := huskDel m.husks k }

/-- The bytes of a write that fall into sector k. -/
def sectorPart (a : Nat) (bytes : List Byte) (k : Nat) : Nat × List Byte :=
  let lo := max a (32 * k)
  (lo, (bytes.drop (lo - a)).take (32 * k + 32 - lo))

/-- A write under R196; `bad` lists the target sectors that receive a byte from a husk. -/
def Mem.write (m : Mem) (a : Nat) (bytes : List Byte) (bad : List Nat) : Mem :=
  (sectors a bytes.length).foldl
    (fun m k => let p := sectorPart a bytes k; m.writeSector k p.1 p.2 (bad.contains k)) m

/-- A write leaves or makes a husk (R196: HUSK_MOVED). -/
def Mem.moves (m : Mem) (a : Nat) (bytes : List Byte) (bad : List Nat) : Bool :=
  (sectors a bytes.length).any fun k =>
    bad.contains k || (m.husks.contains k && (sectorPart a bytes k).2.length < 32)

/-- A write of whole sectors or parts that clears husks (completion records, debug records: R198). -/
def Mem.writeClear (m : Mem) (a : Nat) (bytes : List Byte) : Mem :=
  { cells := cellsPut m.cells a bytes, husks := (sectors a bytes.length).foldl huskDel m.husks }

/-- The die whose region holds an offset (R33). -/
def dieOf (off : Nat) : Nat := off / regionSize

/-- Stack and channel of an offset (R26); its usable line within the channel (R187). -/
def stackOf (off : Nat) : Nat := 6 * dieOf off + (off % regionSize / 1024) % 6
def channelOf (off : Nat) : Nat := (off % regionSize / 1024 / 6) % 32
def usableLine (off : Nat) : Nat :=
  let o := off % regionSize
  (o / 1024 / 192) * 16 + (o / 64) % 16

/-- The raw line that holds the data; the raw line that holds the check word, and its first byte there (R187). -/
def dataLine (off : Nat) : Nat := 16 * (usableLine off / 15) + usableLine off % 15
def checkLine (off : Nat) : Nat := 16 * (usableLine off / 15) + 15
def checkByte (off : Nat) : Nat := 4 * (usableLine off % 15)

/-- The offset of the line in a slot of an offset's check group (R187): the same die and channel. -/
def groupLine (off slot : Nat) : Nat :=
  let u := 15 * (usableLine off / 15) + slot
  dieOf off * regionSize + ((u / 16) * 192 + (off % regionSize / 1024) % 192) * 1024 + (u % 16) * 64

/-- A stack of the memory. -/
def State.stack (s : State) (n : Nat) : StackSt := s.mem.lpddr.getD n {}
def State.memDie (s : State) (d : Nat) : MemDie := s.mem.dies.getD d {}

/-- MEM_STATUS.REGION_FAILED (R184): a stack of the die has trained to FAILED. -/
def State.regionFailed (s : State) (d : Nat) : Bool := (List.range 6).any fun i => (s.stack (6 * d + i)).rate == 3

/-- The region of a die answers: initialised, not FAILED, its die out of reset, the module not in recovery
(R22, R184, R203). -/
def State.regionUp (s : State) (d : Nat) : Bool :=
  (s.memDie d).initDone && !s.regionFailed d && !(s.die d).inReset && !s.ctd.lease.recovery

/-- Memory with a change. -/
def State.setMem (s : State) (f : Mem → Mem) : State := { s with mem := { s.mem with main := f s.mem.main } }
def State.setStore (s : State) (f : Mem → Mem) : State := { s with mem := { s.mem with store := f s.mem.store } }
def State.setMemDie (s : State) (d : Nat) (f : MemDie → MemDie) : State :=
  { s with mem := { s.mem with dies := lmod s.mem.dies d f } }
def State.setStack (s : State) (n : Nat) (f : StackSt → StackSt) : State :=
  { s with mem := { s.mem with lpddr := lmod s.mem.lpddr n f } }

/-- Halves created as husks on a die are counted and the last one latched (R193, R208). The address has the form of
R104. -/
def State.noteHusks (s : State) (die n cause addr : Nat) : State :=
  (s.setMemDie die fun m =>
    { m with
      created := satAdd 0xFFFFFFFF m.created n
      lastUe := addr / 32 * 32, lastUeCause := cause, lastUeValid := true })

/-- The SECDED field stored for a half (R189, R194). -/
def halfField (husk : Bool) (data : List Byte) : Nat := if husk then 0x3FF else secdedField data

/-- CHIP of a line (R190). -/
def chipOf (off : Nat) (line : List Byte) : BitVec 12 :=
  crc12 (leBytes 8 (stackOf off * 2 ^ 32 + channelOf off * 2 ^ 25 + dataLine off) ++ line)

/-- The check word of a line (R188): SECDED0 in [9:0], SECDED1 in [19:10], CHIP in [31:20]. `husk0` and `husk1` say which halves
are husks; a husk's data are zeros. -/
def checkWord (off : Nat) (husk0 husk1 : Bool) (half0 half1 : List Byte) : Word :=
  BitVec.ofNat 32 (halfField husk0 half0 + 2 ^ 10 * halfField husk1 half1 + 2 ^ 20 * (chipOf off (half0 ++ half1)).toNat)

/-- The check word of the line at an offset of usable memory. -/
def Mem.checkWord (m : Mem) (off : Nat) : Word :=
  Sys2Proof.Machine.checkWord off (m.husks.contains (off / 32)) (m.husks.contains (off / 32 + 1)) (m.read off 32) (m.read (off + 32) 32)

/-- A check line as the devices hold it (R187, R188): the check words of the 15 data lines of the group of the line at an offset,
each little-endian at bytes 4s to 4s + 3, and zeros in bytes 60 to 63. -/
def Mem.checkLine (m : Mem) (off : Nat) : List Byte :=
  (List.range 15).flatMap (fun slot => leBytes 4 (m.checkWord (groupLine off slot)).toNat) ++ [0, 0, 0, 0]

/-- A half as it is read: the code word of its data and field with the damaged bits changed. -/
def readHalf (data : List Byte) (field : Nat) (flips : BitVec 256) : List Bool :=
  codeWord (data.zipIdx.map fun b => b.1 ^^^ flips.extractLsb' (8 * b.2) 8) field

/-- The two halves of a line as they are read, with the check word read (R188). -/
def readHalves (half0 half1 : List Byte) (check : Word) (flips : BitVec 512) : List Bool × List Bool :=
  (readHalf half0 (check.extractLsb' 0 10).toNat (flips.extractLsb' 0 256),
    readHalf half1 (check.extractLsb' 10 10).toNat (flips.extractLsb' 256 256))

/-- What a read of a damaged line gives (R191, R195): per half the data, or none for a husk made now; the halves that were
corrected; the halves uncorrectable. -/
structure LineOut where
  data : List (Option (List Byte))
  corrected : Nat
  bad : List Nat

/-- Classification of one half (R195): husk, both husk and code word, or data. -/
inductive HalfClass where
  | husk
  | either (data : List Byte)
  | data (d : List Byte) (corr : Bool)
  | bad

def classify (w : List Bool) : HalfClass :=
  match nearHusk w, secdedDecode w with
  | true, .bad => .husk
  | true, .clean d => .either d
  | true, .corrected d => .either d
  | false, .clean d => .data d false
  | false, .corrected d => .data d true
  | false, .bad => .bad

/-- Data a half would deliver, zeros for a husk. -/
def HalfClass.bytes : HalfClass → List Byte
  | .either d => d
  | .data d _ => d
  | _ => List.replicate 32 0

/-- The decode of a line (R191) from its two stored words and stored CHIP. `chip` is false in a tile store, which has no
CHIP (R197). -/
def decodeLine (useChip : Bool) (off : Nat) (w0 w1 : List Bool) (chip : BitVec 12) : LineOut :=
  let c0 := classify w0
  let c1 := classify w1
  let ok := fun (a b : HalfClass) => !useChip || chipOf off (a.bytes ++ b.bytes) == chip
  let isBad : HalfClass → Bool := fun | .bad => true | _ => false
  if isBad c0 || isBad c1 then
    -- CHIP is not used; a half near both patterns is a husk here
    let out : HalfClass → Option (List Byte) := fun | .data d _ => some d | _ => none
    let corr : HalfClass → Nat := fun | .data _ true => 1 | _ => 0
    { data := [out c0, out c1], corrected := corr c0 + corr c1
      bad := (if isBad c0 then [0] else []) ++ (if isBad c1 then [1] else []) }
  else
    let settle : HalfClass → HalfClass → HalfClass := fun c o =>
      match c with
      | .either d => (match o with
        | .husk => .husk
        | _ => if ok c0 c1 then .data d true else .husk)
      | c => c
    let e0 := settle c0 c1
    let e1 := settle c1 c0
    let isHusk : HalfClass → Bool := fun | .husk => true | _ => false
    let out : HalfClass → Option (List Byte) := fun | .data d _ => some d | _ => none
    let corr : HalfClass → Nat := fun | .data _ true => 1 | _ => 0
    if ok e0 e1 then { data := [out e0, out e1], corrected := corr e0 + corr e1, bad := [] }
    else
      { data := [none, none], corrected := 0
        bad := (if isHusk e0 then [] else [0]) ++ (if isHusk e1 then [] else [1]) }

/-- A storm of corrections on a stack (R192): the count of this second of MONO, and the log once in it. -/
def State.noteCe (s : State) (die stack n : Nat) : State :=
  if n = 0 then s
  else
    let sec := s.time.mono / 1000000000
    let x := s.stack stack
    let cnt := (if x.second = sec then x.inSecond else 0) + n
    let storm := x.second == sec && x.storm
    let hit := cnt > (s.memDie die).ceStorm && !storm
    let s := s.setStack stack fun x =>
      { x with ce := satAdd 0xFFFF x.ce n, second := sec, inSecond := cnt, storm := storm || hit }
    let s := s.countEv die 0x042 (stack % 6) none n
    if hit then s.log 0x1202 3 (srcDieUnit die 65) [die, stack, cnt, (s.memDie die).ceStorm] else s

/-- Lines from this number on belong to the tile stores: 64-byte lines of die × 192 MiB + offset (log 7). -/
def storeLine : Nat := usableTop / 64

/-- Husk halves made in a line of usable memory: counted, latched, logged (R193, R197, R207); `bad` lists the halves. -/
def State.logUe (s : State) (off : Nat) (bad : List Nat) (cause : Nat) : State :=
  let a := off + 32 * bad.headD 0
  let d := dieOf off
  (s.noteHusks d bad.length cause a).log 0x1201 4 (srcDieUnit d 65)
    ([d, stackOf off, channelOf off, dataLine off, ofBits bad, cause] ++ lohi a)

/-- Uncorrectable errors in the copy of a line in a host core's cache (R197): a modified line is written back with its affected
sectors as husks, cause 2; a clean one is fetched again, and nothing is lost. -/
def State.cacheDamage (s : State) (f : LineFlip) : State :=
  if f.cache = 0 || (s.mem.modified.lookup f.line).isNone then s
  else
    let bad := setBits 2 f.cache.toNat
    let s := { s with mem := { s.mem with modified := mdel s.mem.modified f.line } }
    (s.setMem fun m => bad.foldl (fun m h => m.husk (2 * f.line + h)) m).logUe (64 * f.line) bad 2

/-- What the decode leaves of half h at byte address a: a husk, or its bytes (R191, R193). -/
def Mem.putHalf (m : Mem) (k a h : Nat) (o : LineOut) : Mem :=
  match o.data.getD h none with
  | none => m.husk (k + h)
  | some b => { cells := cellsPut m.cells (a + 32 * h) b, husks := huskDel m.husks (k + h) }

/-- A decoded line of usable memory is written back, counted and logged; f says what the memory's links corrected or retried. -/
def State.lineBack (s : State) (cause : Nat) (f : LineFlip) (o : LineOut) : State :=
  let off := 64 * f.line
  let d := dieOf off
  let st := stackOf off
  let s := s.setStack st fun x =>
    { x with linkCe := satAdd 0xFFFF x.linkCe f.linkCorr, linkRetry := satAdd 0xFFFF x.linkRetry (min 2 f.linkErrs) }
  let s := s.setMem fun m => (m.putHalf (2 * f.line) off 0 o).putHalf (2 * f.line) off 1 o
  let s := s.noteCe d st o.corrected
  if o.bad.isEmpty then s
  else
    let n := o.bad.length
    let s := s.setStack st fun x => { x with ue := satAdd 0xFFFF x.ue n }
    (s.countEv d 0x043 (st % 6) none n).logUe off o.bad cause

/-- A decoded line of a tile store, number `line` of all the stores' lines, is written back and logged. -/
def State.storeBack (s : State) (line : Nat) (o : LineOut) : State :=
  let off := 64 * line
  let d := off / storeSize
  let s := s.setStore fun m => (m.putHalf (2 * line) off 0 o).putHalf (2 * line) off 1 o
  if o.bad.isEmpty then s
  else
    let a := 2 ^ 62 + d * 2 ^ 32 + off % storeSize + 32 * o.bad.headD 0
    (s.noteHusks d o.bad.length 3 a).log 0x1201 4 (srcDieUnit d 65)
      ([d, 0xFF, 0, off % storeSize / 64, ofBits o.bad, 3] ++ lohi a)

/-- Read one damaged line (R185, R191-R195): corrections are written back, uncorrectable halves become husks, counted and
logged with a cause of R207; a half read as a husk is refreshed, which changes nothing. -/
def State.damage (s : State) (cause : Nat) (f : LineFlip) : State :=
  if f.line < storeLine then
    let s := s.cacheDamage f
    let off := 64 * f.line
    let m := s.mem.main
    let l0 := m.read off 32
    let l1 := m.read (off + 32) 32
    let check := checkWord off (m.husks.contains (2 * f.line)) (m.husks.contains (2 * f.line + 1)) l0 l1 ^^^ f.check
    let w := readHalves l0 l1 check f.data
    s.lineBack cause f (decodeLine true off w.1 w.2 (check.extractLsb' 20 12))
  else
    let line := f.line - storeLine
    let k := 2 * line
    let m := s.mem.store
    let l0 := m.read (64 * line) 32
    let l1 := m.read (64 * line + 32) 32
    let field0 := halfField (m.husks.contains k) l0
    let field1 := halfField (m.husks.contains (k + 1)) l1
    let w := readHalves l0 l1 (BitVec.ofNat 32 (field0 + 2 ^ 10 * field1) ^^^ f.check) f.data
    s.storeBack line (decodeLine false 0 w.1 w.2 0)

/-- The damage of all lines a command reads. -/
def State.damages (s : State) (cause : Nat) (l : List LineFlip) : State := l.foldl (fun s f => s.damage cause f) s

/-! ### Semaphores (R119, R120) -/

def State.sem (s : State) (k : Nat) : Word := mget 0 s.eng.sems k
def State.setSem (s : State) (k : Nat) (v : Word) : State :=
  { s with eng := { s.eng with sems := (if v = 0 then mdel s.eng.sems k else mput s.eng.sems k v) } }
/-- A signal: added at the owning die, or it waits while that die is in reset (R413). -/
def State.semAdd (s : State) (k : Nat) (v : Word) : State :=
  if (s.die (k / 4096)).inReset then { s with eng := { s.eng with semWait := s.eng.semWait ++ [(k, v)] } }
  else s.setSem k (s.sem k + v)

end Sys2Proof.Machine
end

