-- ==== Sys2Proof/Machine/Flags.lean ====
section
/-! DEFINITION. Status codes, error answers and flag computations. -/

namespace Sys2Proof.Machine

/-! ### Statuses of Darid (R331) -/

def dOk : Nat := 0x0000
def dPending : Nat := 0x0001
def dBusy : Nat := 0x0002
def dSaturated : Nat := 0x0003
def dNothing : Nat := 0x0004
def dClamped : Nat := 0x0005
def dBadOpcode : Nat := 0x0010
def dBadLength : Nat := 0x0011
def dBadArg : Nat := 0x0012
def dBadEntry : Nat := 0x0013
def dFrag : Nat := 0x0014
def dDenied : Nat := 0x0020
def dNotPresent : Nat := 0x0021
def dNotActive : Nat := 0x0022
def dOos : Nat := 0x0023
def dBadState : Nat := 0x0024
def dNoSuch : Nat := 0x0025
def dTableFull : Nat := 0x0030
def dNoResource : Nat := 0x0031
def dBadSig : Nat := 0x0040
def dRollback : Nat := 0x0041

/-! ### Answers of accesses (R40) -/

/-- The access fails with a code: a read returns 0 and nothing else changes. -/
def State.fail (s : State) (e : AccErr) : State := { s with bus := { err := e } }
/-- The access completes, a read with a value. -/
def State.answer (s : State) (v : BitVec 64) : State := { s with bus := { value := v } }

/-- What an access to a CTD's registers meets before its register is looked at (R6, R310, R317): absent, held in reset. -/
def State.ctdGate (s : State) (n : Nat) : AccErr :=
  if !s.ctdPresent n then .notPresent
  else if !(s.ctdOf n).running || (s.ctdOf n).heldUntil.isSome then .domainOff
  else .none

/-- The initiator is a service processor of this CTD. -/
def isSp (i : Initiator) (n : Nat) : Bool :=
  match i with
  | .sp c => c.val == n
  | _ => false
/-- Any service processor; a host core; the active CTD's service processors. -/
def isAnySp (i : Initiator) : Bool :=
  match i with
  | .sp _ => true
  | _ => false
def isHart (i : Initiator) : Bool :=
  match i with
  | .hart _ => true
  | _ => false
def State.isActiveSp (s : State) (i : Initiator) : Bool :=
  match i with
  | .sp c => s.holder == some c.val
  | _ => false

/-- A bit of CTD_CLAMP_HIT set in the active CTD's register, which describes the module, and logged when it changes from 0 to 1
(R306): bit, value refused, limit, unit. While no CTD holds the waybill the hit is kept for the next holder, its record owed. -/
def State.clampHit (s : State) (bit value limit unit : Nat) : State :=
  if s.ctd.hits.getLsbD bit then s
  else
    let s := { s with ctd := { s.ctd with hits := s.ctd.hits ||| BitVec.ofNat 10 (2 ^ bit) } }
    match s.holder with
    | none => { s with ctd := { s.ctd with hitOwed := s.ctd.hitOwed ++ [(bit, value, limit, unit)] } }
    | some h =>
      (s.setCtd h fun c => { c with hit := c.hit ||| BitVec.ofNat 10 (2 ^ bit) }).logFw 0x1306 4 [bit, value, limit, unit]

/-- A hit of what one CTD's own service processors did (R305): in that CTD's register; a standby logs it in its own Ledger. -/
def State.clampHitOn (s : State) (c bit value limit unit : Nat) : State :=
  if s.holder = some c then s.clampHit bit value limit unit
  else if (s.ctdOf c).hit.getLsbD bit then s
  else
    (s.setCtd c fun x => { x with hit := x.hit ||| BitVec.ofNat 10 (2 ^ bit) }).logTo c 0x1306 4 (512 + c) [bit, value, limit, unit]


/-- The active CTD serves: it holds the waybill, the gates are open (R295 step 7) and no module recovery runs (R417). -/
def State.serving (s : State) : Option Nat := if s.ctd.lease.gates && !s.ctd.lease.recovery then s.holder else none

/-- An event of a die that firmware logs while it serves; in a gap the die keeps it in its FIFO (R294), with the die's context
manager as SOURCE (DESIGN CHOICE, log 64). -/
def State.logDie (s : State) (d code sev : Nat) (ps : List Nat) : State :=
  if s.serving.isSome then s.logFw code sev ps else s.log code sev (srcDieUnit d 64) ps

end Sys2Proof.Machine
end

