-- ==== Sys2Proof/Machine/Operands.lean ====
section
/-! DEFINITION. The operand forms of Darid commands: argument words, who may send what, and the acceptance of R330. -/

namespace Sys2Proof.Machine

/-- Argument word i, 64-bit argument of words i and i + 1 (R332: low word first). -/
def arg (a : List Nat) (i : Nat) : Nat := a.getD i 0
def arg64 (a : List Nat) (i : Nat) : Nat := arg a i + 2 ^ 32 * arg a (i + 1)

/-- The argument words i to j - 1 as bytes. -/
def argBytes (a : List Nat) (i j : Nat) : List Byte := ((a.drop i).take (j - i)).flatMap (leBytes 4)

/-- The index of the first bad word: the first listed condition that fails. -/
def badWord (l : List (Nat × Bool)) : Option Nat := (l.find? fun p => !p.2).map (·.1)

/-- The kinds of sender (R312, R332). -/
inductive Sender where
  | c
  | m
  | f
deriving DecidableEq, Repr

/-- The sender of a channel; none for the channels of R313 that carry internal opcodes. -/
def senderOf (ch : Nat) : Option Sender :=
  if ch < 256 then some .c else if ch < 288 then some .m else if ch < 416 then some .f else none

/-- What a command's own part answers: the state, status, DETAIL and result words from a1. -/
structure DRes where
  s : State
  status : Nat := 0
  detail : Nat := 0
  words : List Nat := []

/-- A refusal without effect. -/
def DRes.no (s : State) (status : Nat) : DRes := { s := s, status := status }

/-- BAD_ARG with the index of the first bad word (R330 check 6). -/
def DRes.badArg (s : State) (i : Nat) : DRes := { s := s, status := dBadArg, detail := i }

/-- One row of the tables of R332. -/
structure DaridDef where
  op : Nat
  senders : List Sender
  /-- The standby answers it too (S). -/
  standby : Bool := false
  /-- Served while the out-of-service latch is set (R308). -/
  oos : Bool := false
  /-- It changes module state (R336); TimeStepAdvance, TimePhaseAdvance, StageWrite and LedgerAppend count as not. -/
  changes : Bool := true
  /-- It is mirrored to the standby: it changes state outside the CTD's staging area (R327). -/
  mirrored : Bool := changes
  /-- The number of argument words is one the command takes. -/
  len : Nat → Bool
  /-- Reserved bits and ranges: the first bad word (R330 check 6). -/
  bad : State → List Nat → Option Nat := fun _ _ => none
  /-- The units named are present (R330 check 7). -/
  present : State → List Nat → Bool := fun _ _ => true
  /-- On a context channel: what is named belongs to that context (R330 check 4). -/
  own : State → Nat → List Nat → Bool := fun _ _ _ => true
  /-- The command's own checks and effect. -/
  body : State → Who → List Nat → DRes

/-- The CTD is in ROM recovery (R478). -/
def State.inRom (s : State) (ctd : Nat) : Bool := (s.ctdOf ctd).stage == 4

/-- Commands served in ROM recovery (R479), and those of them accepted from fabric peers as well. -/
def romOps : List Nat :=
  [0x0101, 0x0106, 0x0108, 0x0301, 0x0304, 0x0708, 0x0801, 0x0802, 0x0E01, 0x0E02, 0x0E03, 0x0E05, 0x1101, 0x1102]
def romFabric : List Nat := [0x0E01, 0x0E02, 0x0E03]

/-- Check 4 of R330. -/
def DaridDef.admits (d : DaridDef) (s : State) (rom : Bool) (ch : Nat) (a : List Nat) : Bool :=
  match senderOf ch with
  | none => false
  | some k => (d.senders.contains k || (rom && k == .f && romFabric.contains d.op)) && (k != .c || d.own s ch a)

/-- Checks 2 to 8 of R330 in order, and the command's effect. A CTD in ROM recovery serves only the commands of R479. -/
def DaridDef.run (d : DaridDef) (s : State) (w : Who) (a : List Nat) : DRes :=
  if s.ctd.nv.latched && !(d.oos && senderOf w.ch == some .m) then .no s dOos
  else if s.serving != some w.ctd && !d.standby then
    { s := s, status := dNotActive, detail := (s.holder.getD 0xFFFF) }
  else if s.inRom w.ctd && !(romOps.contains d.op && senderOf w.ch != some .c) then .no s dBadState
  else if !d.admits s (s.inRom w.ctd) w.ch a then .no s dDenied
  else if !d.len a.length then .no s dBadLength
  else match d.bad s a with
    | some i => { s := s, status := dBadArg, detail := i }
    | none => if !d.present s a then .no s dNotPresent else d.body s w a

/-- The answer to a command that has been run: logged, cached, handed to the channel (R322, R326, R336). -/
def answerDarid (w : Who) (r : DRes) : State :=
  let s := if r.status = dPending then r.s else r.s.logDarid w r.status r.detail
  s.respond w (r.status != dPending) (statusWord r.status r.detail :: r.words.map (BitVec.ofNat 32))

/-- A CTD that carries out commands: the serving holder, or a standby whose firmware runs (R284). -/
def State.carriesOut (s : State) (ctd : Nat) : Bool :=
  s.ctdGate ctd == .none && (s.serving == some ctd || (s.ctdOf ctd).role == .standby)

/-- Replay of a cached command, BUSY behind a pending one, else the command itself (R324, R326). -/
def acceptDarid (s : State) (ctd ch op seq : Nat) (run : State → State) : State :=
  match (s.chan ctd ch).cache with
  | some (o, q, fin) =>
    if o = op && q = seq then
      s.respondRaw ctd ch op seq true (match fin with | some ws => ws | none => [statusWord dPending 0])
    else match fin with
      | none => s.respondRaw ctd ch op seq false [statusWord dBusy 0]
      | some _ => run s
  | none => run s

/-- A command whose final fragment has arrived. -/
def runDarid (d : DaridDef) (r : DReq) (s : State) : State :=
  if !s.carriesOut r.ctd.val then s
  else
    let a := r.args.map (·.toNat)
    let w : Who :=
      { ctd := r.ctd.val, ch := r.ch.val, op := d.op, seq := r.seq.toNat, args := a.take 4, changes := d.changes, mirrored := d.mirrored }
    acceptDarid s w.ctd w.ch d.op w.seq fun s =>
      match senderOf w.ch with
      | none => answerDarid w (.no s dBadOpcode)
      | some _ => answerDarid w (d.run s w a)

end Sys2Proof.Machine
end

