-- ==== Sys2Proof/Machine/FabricOps.lean ====
section
/-! DEFINITION. Operations of the fabric that other families use: module IDs, routes, packets handed to ports, requests
issued on flows and their final outcomes (chapter 07). -/

namespace Sys2Proof.Machine

/-! ### Module IDs and routes -/

/-- MOD_ID[14:0] (R41). -/
def State.ownId (s : State) : Nat := s.mod.modId.toNat % 2 ^ 15
/-- MOD_ID.LOCK. -/
def State.idLocked (s : State) : Bool := s.mod.modId.getLsbD 31
/-- Board index (MOD_BOARD): X[0] + 2 × Y[0]. -/
def boardIdx (id : Nat) : Nat := bitsOf id 8 8 + 2 * bitsOf id 4 4
/-- Coordinates Pod, X, Y, Z; coordinate of an axis 0 X, 1 Y, 2 Z. -/
def podOf (id : Nat) : Nat := bitsOf id 14 12
def coord (id ax : Nat) : Nat := match ax with
  | 0 => bitsOf id 11 8
  | 1 => bitsOf id 7 4
  | _ => bitsOf id 3 0
/-- An ID with one coordinate replaced. -/
def withCoord (id ax c : Nat) : Nat :=
  let sh := match ax with | 0 => 8 | 1 => 4 | _ => 0
  id - coord id ax * 2 ^ sh + c % 16 * 2 ^ sh
/-- Length of an axis (R232). -/
def State.axisN (s : State) : Nat := if s.fuse.variant = .ae then 4 else 16
/-- The same tray (R239): equal Pod and Z, equal X div 2 and Y div 2. -/
def sameTray (a b : Nat) : Bool :=
  podOf a == podOf b && coord a 2 == coord b 2 && coord a 0 / 2 == coord b 0 / 2 && coord a 1 / 2 == coord b 1 / 2
/-- Home die of a remote module (R225). -/
def homeDie (id : Nat) : Nat := (podOf id + coord id 0 + coord id 1 + coord id 2) % 4

/-- The port whose role is a direction (R232, R242). -/
def State.rolePort (s : State) (role : Nat) : Option Nat :=
  (List.range 13).find? fun p => (s.port p).role == role && (s.port p).st == .up

/-- A port is UP. -/
def State.isUp (s : State) (p : Nat) : Bool := (s.port p).st == .up

/-! ### Media of the torus directions (R29, R30, R45) -/

/-- A torus direction leaves the rack (R29): port codes 0-5. -/
def leavesRack (id p : Nat) : Bool := coord id (p / 2) % 4 == (if p % 2 = 0 then 3 else 0)

/-- A direction runs on optics; an axis's engine (MOD_PORT_MEDIA). -/
def State.optical (s : State) (p : Nat) : Bool := s.fuse.variant != .ae && s.idLocked && p < 6 && leavesRack s.ownId p
/-- The engine of an axis. DESIGN CHOICE (log 61): while SUBST has been written during a retrain and differs from the engine in use,
MOD_PORT_MEDIA shows the engine in use. -/
def State.axisEngine (s : State) (ax : Nat) : Nat := if s.mod.inUse.toNat = ax then 3 else ax
/-- The direction's engine is OE3, attached to CD2 (R30). -/
def State.substituted (s : State) (p : Nat) : Bool := s.optical p && s.axisEngine (p / 2) == 3
/-- The dies whose reset takes a port down: its owner, and CD2 for a substituted direction (R27, R30). -/
def State.portDies (s : State) (p : Nat) : List Nat := if s.substituted p then [portDie p, 2] else [portDie p]

/-- MEDIA and LEVEL of a port. -/
def State.portOptical (s : State) (p : Nat) : Bool := (9 ≤ p && s.hasOptics) || s.optical p
def State.portLevel (s : State) (p : Nat) : Nat :=
  if 9 ≤ p then (if s.hasOptics then 4 else 0) else if 6 ≤ p then 1 else if s.optical p then 3 else 2
/-- Replay buffer and input buffer, in flits (R209). -/
def State.replaySize (s : State) (p : Nat) : Nat := match s.portLevel p with
  | 4 => 24576
  | 3 => 4096
  | _ => 1024
/-- Room left in the shared part of the peer's input buffer: all of it but 32 flits of each channel (R216). -/
def State.sharedRoom (s : State) (p : Nat) : Nat := s.replaySize p - 256 - (s.port p).borrowed.foldl (· + ·) 0
/-- Flits a channel may still send: its reserved credits and what is free of the shared part. -/
def State.vcRoom (s : State) (p v : Nat) : Nat := (s.port p).credits.getD v 0 + s.sharedRoom p

/-! ### Paths between dies (R19-R22) -/

/-- The ring edge two dies share (R19). -/
def edgeOf (a b : Nat) : Option Nat :=
  [(0, 1), (1, 3), (3, 2), (2, 0)].findIdx? fun e => e == (a, b) || e == (b, a)
/-- The number of a diagonal pair: 0 CD0-CD3, 1 CD1-CD2. -/
def diagPair (a b : Nat) : Option Nat :=
  if (a, b) = (0, 3) || (a, b) = (3, 0) then some 0 else if (a, b) = (1, 2) || (a, b) = (2, 1) then some 1 else none
/-- Intermediate die and edges of a pair's path (R20): default or alternative. -/
def diagVia (pair : Nat) (alt : Bool) : Nat × Nat × Nat :=
  if pair = 0 then (if alt then (2, 3, 2) else (1, 0, 1)) else (if alt then (0, 0, 3) else (3, 1, 2))
/-- A pair's path is available. -/
def State.pathOk (s : State) (pair : Nat) (alt : Bool) : Bool :=
  let v := diagVia pair alt
  s.ring.edgeUp.getD v.2.1 false && s.ring.edgeUp.getD v.2.2 false && !(s.die v.1).inReset
/-- What a transaction from one die to another meets (R21, R22). DESIGN CHOICE (log 61): between neighbours the shared edge is the one
path there is, and DOMAIN_OFF is answered while it is down; R22 names only diagonal pairs. -/
def State.ringPath (s : State) (a b : Nat) : AccErr :=
  if a = b then .none
  else match diagPair a b with
    | some p =>
      if !s.pathOk p false && !s.pathOk p true then .domainOff
      else if (s.ring.change.getD p none).isSome then .waiting
      else if s.pathOk p (s.ring.alt.getD p false) then .none else .domainOff
    | none => match edgeOf a b with
      | some e => if s.ring.edgeUp.getD e false then .none else .domainOff
      | none => .domainOff

/-- What traffic between a die and a port meets: the path to the port's die, and for a substituted direction the path on to
CD2 (R22, R30). -/
def State.portPath (s : State) (die p : Nat) : AccErr :=
  match s.ringPath die (portDie p) with
  | .none => if s.substituted p then s.ringPath (portDie p) 2 else .none
  | e => e
/-- The path between two dies crosses a third one. -/
def State.pathVia (s : State) (a b d : Nat) : Bool :=
  match diagPair a b with
  | some p => (diagVia p (s.ring.alt.getD p false)).1 == d
  | none => false

/-! ### Slices and torus directions -/

/-- The registers of a slice entry at their reset values. -/
def SliceEnt.blank : SliceEnt := { id := 0, wrap := 0, epoch := 0, boundary := 0, geom := [], circuits := 0 }

/-- The registers of a slice entry, VALID or not. -/
def State.sliceRegs (s : State) (e : Nat) : SliceEnt :=
  (s.fab.slices.lookup e).getD ((s.fab.slicesOff.lookup e).getD .blank)

/-- A slice entry by its ID (WG_SLICE_CFGs). -/
def State.sliceOf (s : State) (id : BitVec 12) : Option (Nat × SliceEnt) := s.fab.slices.find? fun e => e.2.id == id

/-- Direction on one axis (R232): none when resolved; true is +; and whether both directions are minimal. -/
def axisDir (n own target : Nat) (wrap : Bool) : Option (Bool × Bool) :=
  if own = target then none
  else if wrap then
    let d := (target + n - own) % n
    some (2 * d ≤ n, 2 * d == n)
  else some (own < target, false)

/-- A hop in a direction crosses the dateline of its axis (R233). -/
def crosses (n own : Nat) (plus : Bool) : Bool := if plus then own + 1 == n else own == 0

/-- Port code of a direction on an axis. -/
def dirPort (ax : Nat) (plus : Bool) : Nat := 2 * ax + (if plus then 0 else 1)

/-- The first unresolved axis with its direction: dimension order X, Y, Z. -/
def firstAxis (n own dst wrap : Nat) : Option (Nat × Bool) :=
  ([0, 1, 2].filterMap fun ax => (axisDir n (coord own ax) (coord dst ax) (bitOf wrap ax)).map fun d => (ax, d.1)).head?

/-- The valid circuit route toward a module of another pod (R236): gateway and circuit port. -/
def State.circuitTo (s : State) (dst : Nat) : Option (Nat × Nat) :=
  (s.fab.circuits.find? fun e => e.2.getLsbD 15 && e.2.toNat % 2 ^ 15 == dst).map fun e =>
    (podOf s.ownId * 2 ^ 12 + bitsOf e.2.toNat 27 16, bitsOf e.2.toNat 31 28)

/-- Where a packet goes next: the port and the virtual channel, with the ESC and DL bits it then carries. -/
structure Hop where
  port : Nat
  vc : Nat
  esc : Bool
  dl : Nat

/-- The adaptive candidates (R234): ports of every unresolved axis, both directions where both are minimal, in the order
X, Y, Z and then +. -/
def State.candidates (s : State) (dst wrap : Nat) : List Nat :=
  [0, 1, 2].flatMap fun ax =>
    match axisDir s.axisN (coord s.ownId ax) (coord dst ax) (bitOf wrap ax) with
    | none => []
    | some (plus, both) =>
      ((if both then [dirPort ax true, dirPort ax false] else [dirPort ax plus]).filterMap s.rolePort)

/-- Flits a packet of this many bytes needs at most. -/
def flitsFor (bytes : Nat) : Nat := cdiv bytes 228 + 1

/-- Of some ports the one with the most credits of a channel; the first of equals. -/
def State.mostRoom (s : State) (v : Nat) (l : List Nat) : Option Nat :=
  l.foldl (fun (b : Option Nat) p =>
    match b with
    | none => some p
    | some q => if s.vcRoom p v > s.vcRoom q v then some p else some q) none

/-- The torus hop toward a module of this pod (R232-R234). `resp` chooses the response channels. DESIGN CHOICE (log 61): where no
candidate has credit and the dimension-order port is down, the packet waits for credit at the candidate with the most. -/
def State.torusHop (s : State) (dst wrap : Nat) (resp esc : Bool) (dl bytes : Nat) : Option Hop :=
  let base := if resp then 3 else 0
  let cands := if s.fab.adaptive && !esc then (s.candidates dst wrap).filter fun p => (s.port p).rev == 2 else []
  let onAdaptive := fun (p : Nat) => ({ port := p, vc := base, esc := false, dl := dl } : Hop)
  match s.mostRoom base (cands.filter fun p => flitsFor bytes ≤ s.vcRoom p base) with
  | some p => some (onAdaptive p)
  | none =>
    let dim := (firstAxis s.axisN s.ownId dst wrap).bind fun d => (s.rolePort (dirPort d.1 d.2)).map fun p => (d.1, d.2, p)
    match dim with
    | some (ax, plus, p) =>
      let x := bitOf wrap ax && crosses s.axisN (coord s.ownId ax) plus
      let up := x || bitOf dl ax
      some { port := p, vc := base + (if up then 2 else 1), esc := true, dl := dl ||| (if x then 2 ^ ax else 0) }
    | none => (s.mostRoom base cands).map onAdaptive

/-- A hop over a board or circuit port, which crosses no dateline: on the adaptive channel where R234 allows it and there is credit,
else on the lower escape channel. -/
def State.oneHop (s : State) (p : Nat) (resp esc : Bool) (dl bytes : Nat) : Hop :=
  let base := if resp then 3 else 0
  if s.fab.adaptive && !esc && (s.port p).rev == 2 && flitsFor bytes ≤ s.vcRoom p base then
    { port := p, vc := base, esc := false, dl := dl }
  else { port := p, vc := base + 1, esc := true, dl := dl }

/-- The next hop of a data packet (R232-R236): a board port for the tray, a circuit for another pod, the torus otherwise.
`board` forces the board port first and, without it, dimension order (R36). -/
def State.nextHop (s : State) (slice : BitVec 12) (dst : Nat) (resp board esc : Bool) (dl bytes : Nat) : Option Hop :=
  let e := s.sliceOf slice
  let wrap := (e.map fun x => x.2.wrap.toNat).getD 0
  let bnd := (e.map fun x => x.2.boundary.toNat).getD 0
  let own := s.ownId
  if podOf dst != podOf own then
    match s.circuitTo dst with
    | none => none
    | some (gw, cp) =>
      if gw = own then (if s.isUp cp then some (s.oneHop cp resp esc dl bytes) else none)
      else s.torusHop gw wrap resp esc dl bytes
  else
    let k := boardIdx own ^^^ boardIdx dst
    let bp := (if k = 0 || !sameTray own dst || !(s.fab.trayVia || board) then none
      else s.rolePort (5 + k)).filter fun p => !bitOf bnd p
    match bp with
    | some p => some (s.oneHop p resp esc dl bytes)
    | none => s.torusHop dst wrap resp (esc || board) dl bytes

/-- A port that may carry a VC 7 packet (R237, R240): UP, or in QUARANTINE or MAINTENANCE_ONLY toward its own peer. -/
def State.vc7Port (s : State) (role dst : Nat) (mgmt : Bool) : Option Nat :=
  (List.range 13).find? fun p =>
    (s.port p).role == role && ((s.port p).st == .up ||
      (mgmt && ((s.port p).st == .quarantine || (s.port p).st == .maintenance) && (s.port p).coord.toNat == dst))

/-- The next hop of a VC 7 packet (R237): dimension order, every axis wrapping, circuits to another pod. -/
def State.hop7 (s : State) (dst : Nat) (mgmt : Bool) : Option Nat :=
  let own := s.ownId
  -- a peer reached by a port of its own, which may be restricted to it
  let direct := if mgmt then (List.range 13).find? fun p =>
      ((s.port p).st == .quarantine || (s.port p).st == .maintenance) && (s.port p).coord.toNat == dst else none
  let toward := fun d => match firstAxis s.axisN own d 7 with
    | none => none
    | some (ax, plus) => s.vc7Port (dirPort ax plus) dst mgmt
  match direct with
  | some p => some p
  | none =>
    if podOf dst != podOf own then
      match s.circuitTo dst with
      | none => none
      | some (gw, cp) => if gw = own then s.vc7Port cp dst mgmt else toward gw
    else toward dst

/-- Queue a packet on a port. -/
def State.queuePkt (s : State) (p vc : Nat) (k : Packet) : State :=
  s.setPort p fun x => { x with outq := x.outq ++ [{ vc := vc, pkt := k }] }

/-- A packet with nothing in it. -/
def blankPkt : Packet :=
  { ptype := 0, cls := 0, start := false, hm := false, esc := false, dl := 0, tsr := false, dst := 0, src := 0, slice := 0
    epoch := 0, seq := 0, len := 0, tsId := 0, dw2 := 0, dw3 := 0, rsvd := 0, mask := 0, payload := [] }

/-! ### Local addresses: usable memory from 0, then the tile stores from `usableTop`, 192 MiB a die (log 7) -/

/-- The store an address falls in and the address there. -/
def State.lMem (s : State) (a : Nat) : Mem × Nat := if a < usableTop then (s.mem.main, a) else (s.mem.store, a - usableTop)
/-- Bytes read; husk sectors touched, as addresses; a write under R196; the sectors it leaves or makes husks. -/
def State.lRead (s : State) (a n : Nat) : List Byte := let m := s.lMem a; m.1.read m.2 n
def State.lHusk (s : State) (a : Nat) : Bool := let m := s.lMem a; m.1.husks.contains (m.2 / 32)
def State.lHusks (s : State) (a n : Nat) : Bool := let m := s.lMem a; !(m.1.husksIn m.2 n).isEmpty
def State.lMoves (s : State) (a : Nat) (b : List Byte) (bad : List Nat) : Bool := let m := s.lMem a; m.1.moves m.2 b bad
def State.lWrite (s : State) (a : Nat) (b : List Byte) (bad : List Nat) : State :=
  if a < usableTop then s.setMem fun m => m.write a b bad else s.setStore fun m => m.write (a - usableTop) b bad
def State.lWriteClear (s : State) (a : Nat) (b : List Byte) : State :=
  if a < usableTop then s.setMem fun m => m.writeClear a b else s.setStore fun m => m.writeClear (a - usableTop) b

/-- The result of an atomic of w bits (R109). -/
def atomicOp (op w old x cmp : Nat) : Nat :=
  let x := x % 2 ^ w
  match op with
  | 0 => (old + x) % 2 ^ w
  | 1 => old &&& x
  | 2 => old ||| x
  | 3 => old ^^^ x
  | 4 => x
  | 5 => if old = cmp % 2 ^ w then x else old
  | 6 => max old x
  | _ => min old x

/-- An atomic on a local word: the state after it and the previous value. -/
def State.atomicAt (s : State) (a : Nat) (a64 : Bool) (op : Nat) (x cmp : Nat) : State × Nat :=
  let n := if a64 then 8 else 4
  let old := ofLe (s.lRead a n)
  (s.lWrite a (leBytes n (atomicOp op (8 * n) old x cmp)) [], old)

/-- Bytes a packet occupies (R220). -/
def pktSize (k : Packet) : Nat :=
  32 + (if k.hm then 16 else 0) + (if k.ptype = 2 then 0 else cdiv k.len.toNat 4 * 4)

/-- Hand a routed data packet to its port; false when no usable port exists. -/
def State.emit (s : State) (k : Packet) (resp board : Bool) : Option State :=
  (s.nextHop k.slice k.dst.toNat resp board k.esc k.dl.toNat (pktSize k)).map fun h =>
    s.queuePkt h.port h.vc { k with esc := h.esc, dl := BitVec.ofNat 3 h.dl }

/-- Hand a VC 7 packet to its port; without a usable port it is lost. -/
def State.emit7 (s : State) (k : Packet) : State :=
  match s.hop7 k.dst.toNat (k.ptype == 0xA) with
  | some p => s.queuePkt p 7 k
  | none => s

/-! ### Contexts, as far as requests need them -/

def State.ctx (s : State) (c : Nat) : Ctx := mget {} s.eng.ctxs c
def State.setCtx (s : State) (c : Nat) (f : Ctx → Ctx) : State :=
  { s with eng := { s.eng with ctxs := mmod {} s.eng.ctxs c f } }
/-- A queue, if it exists, by context and number. -/
def State.queue? (s : State) (c q : Nat) : Option Queue := s.eng.queues.lookup (64 * c + q)
def State.setQueue (s : State) (c q : Nat) (f : Queue → Queue) : State :=
  match s.queue? c q with
  | some x => { s with eng := { s.eng with queues := mput s.eng.queues (64 * c + q) (f x) } }
  | none => s
/-- A started descriptor of a queue. -/
def State.started? (s : State) (c q : Nat) (ix : Word) : Option Started :=
  (s.queue? c q).bind fun x => x.started.find? (·.index == ix)
def State.setStarted (s : State) (c q : Nat) (ix : Word) (f : Started → Started) : State :=
  s.setQueue c q fun x => { x with started := modFirst (·.index == ix) f x.started }

/-- Die of an engine j of R377: 64 MEs, 16 VEs, 32 DEs. -/
def engDie (j : Nat) : Nat := if j < 64 then j / 16 else if j < 80 then (j - 64) / 4 else (j - 80) / 8
/-- Unit of R340 of an engine on its die. -/
def engUnit (j : Nat) : Nat := if j < 64 then j % 16 else if j < 80 then 16 + (j - 64) % 4 else 20 + (j - 80) % 8

/-- A failure of a started descriptor: the first one stands, except that of several the lowest address stands (R110). -/
def noteFail (st det addr : Nat) (x : Started) : Started :=
  match x.fail with
  | some (st', det', addr') => { x with fail := if addr < addr' then some (st, det, addr) else some (st', det', addr') }
  | none => { x with fail := some (st, det, addr) }

/-! ### Requests -/

/-- The requester of a request for R122: die and unit; none for the active CTD's own transfers. -/
def State.requester (s : State) : ReqOwner → Option (Nat × Nat)
  | .desc c q _ => (s.queue? c q).map fun x => (engDie x.eng, engUnit x.eng)
  | .host (.hart n) => some (n.val / 8, 28 + n.val % 8)
  | .host (.engine j _) => some (engDie j.val, engUnit j.val)
  | .gone _ d u => some (d, u)
  | _ => none

/-- Requests unanswered in all flows. -/
def State.inFlight (s : State) : List FReq := s.fab.peers.flatMap fun e => e.2.tx.flatMap fun f => f.una

/-- Requests that hold a transaction entry (R122): issued and not yet acknowledged, whether sent or behind others of their flow.
A local access holds its entry only while its command acts (log 61). -/
def State.tracked (s : State) : List FReq := s.fab.peers.flatMap fun e => e.2.tx.flatMap fun f => f.una ++ f.wait

/-- Entries of the transaction table a die's requesters hold (DE_TX_STATUS.IN_USE). -/
def State.txInUse (s : State) (die : Nat) : Nat :=
  (s.tracked.filter fun r => ((s.requester r.owner).map (·.1)) == some die).length

/-- HIGH_WATER sees n entries beyond those held: those of accesses that end within their command. -/
def State.txTouch (s : State) (die n : Nat) : State :=
  s.setDie die fun x => { x with txHigh := max x.txHigh (s.txInUse die + n) }

/-- The context whose cap a request counts against. -/
def ReqOwner.capCtx : ReqOwner → Option Nat
  | .desc c _ _ => some c
  | .gone c _ _ => some c
  | .host (.engine _ c) => some c.val
  | _ => none

/-- A transaction entry is free for this request (R122, R123): its requester's reserve of 128 or the shared 11,776, and
within its context's cap on the die. -/
def State.txRoom (s : State) (o : ReqOwner) : Bool :=
  match s.requester o with
  | none => true
  | some (d, u) =>
    let held := s.tracked.filterMap fun r => (s.requester r.owner).map fun x => (x, r.owner)
    let of := fun u => (held.filter fun h => h.1 == (d, u)).length
    let shared := ((List.range 36).map fun i => of i - 128).foldl (· + ·) 0
    let capOk := match o.capCtx with
      | some c => (held.filter fun h => h.1.1 == d && h.2.capCtx == some c).length < (s.ctx c).cap
      | none => true
    (of u < 128 || shared < 11776) && capOk

/-- The husk mask of a payload read from local memory: bit i for the 32-byte target sector i (R222). -/
def huskMask (srcHusk : Nat → Bool) (src dst len : Nat) : Nat :=
  ofBits ((List.range len).filterMap fun i =>
    if srcHusk ((src + i) / 32) then some ((dst + i) / 32 - dst / 32) else none)

/-- The packet of a request (R220-R223): a PUT reads its source each time it is sent. -/
def State.reqPacket (s : State) (r : FReq) : Packet :=
  let pay := if r.ptype = 1 then (match r.src with | some a => s.lRead a r.len | none => r.bytes)
    else if r.ptype = 3 && r.subop = 5 then leBytes 8 r.compare.toNat else []
  let mask := if r.ptype = 1 then
      (match r.src with | some a => BitVec.ofNat 128 (huskMask (s.lMem a).1.husks.contains (s.lMem a).2 r.addr r.len) | none => r.mask)
    else 0
  { blankPkt with
    ptype := r.ptype, cls := BitVec.ofNat 2 r.cls, start := r.start, hm := mask != 0, tsr := r.ts.isSome, dst := r.dst
    src := BitVec.ofNat 15 s.ownId, slice := r.slice, epoch := r.epoch, seq := r.seq
    len := BitVec.ofNat 13 (if r.ptype = 2 then r.len else pay.length), tsId := r.ts.getD 0
    dw2 := BitVec.ofNat 64 (r.addr % 2 ^ 48 + r.subop.toNat * 2 ^ 52 + b2n r.a64 * 2 ^ 56)
    dw3 := r.operand, mask := mask, payload := pay }

/-- The status codes of a final outcome (R111, R224) for a RESP status. -/
def respStatus : Nat → Nat
  | 0x0 => 0x0000
  | 0x1 => 0x0014
  | 0x3 => 0x0002
  | 0x4 => 0x0001
  | 0x5 => 0x0003
  | 0x6 => 0x0005
  | 0x7 => 0x0030
  | st => if 16 ≤ st then 0x0003 else 0x0002

/-- DETAIL of such an outcome; from 16 on it is this module's own DOMAIN_OFF, 16 + die (R22). -/
def respDetail (s : State) (r : FReq) (st : Nat) : Nat :=
  match st with
  | 0x0 => 0
  | 0x1 => (match r.owner with | .desc c _ _ => (s.ctx c).epoch.toNat | _ => 0)
  | 0x4 => 0
  | 0x6 => 10
  | 0x7 => 3
  | st => if 16 ≤ st then st - 16 else r.dst.toNat

/-- Husk sectors of a local range named by a mask relative to another address (R222). -/
def maskedSectors (mask : BitVec 128) (far near len : Nat) : List Nat :=
  ((List.range len).filterMap fun i =>
    if mask.getLsbD ((far + i) / 32 - far / 32) then some ((near + i) / 32) else none).eraseDups

/-- Where the data of a GET without a local destination is kept: board index and offset. -/
def remoteKey (r : FReq) : Nat := boardIdx r.dst.toNat * 2 ^ 48 + r.addr

/-- A hart has consumed a husk (R198, R208): counted and latched with the address as the hart addressed it. -/
def State.hartConsume (s : State) (h addr : Nat) : State :=
  s.setMemDie (h / 8) fun m =>
    { m with
      consumed := satAdd 0xFFFFFFFF m.consumed 1, lastCons := addr / 32 * 32, lastConsHart := h % 8, lastConsValid := true }

/-- What a request's final answer does at its owner (R100, R224): a descriptor has one request less, its data or its
failure; a host access gets its answer; a hoard copy or a fill its count or failure. -/
def State.settle (s : State) (r : FReq) (st : Nat) (operand : BitVec 64) (data : List Byte) (mask : BitVec 128) : State :=
  match r.owner with
  | .desc c q ix =>
    let s := if st = 0 && r.ptype = 2 then
        (match r.into with
          | some a =>
            let bad := maskedSectors mask r.addr (s.lMem a).2 r.len
            let moved := s.lMoves a data bad
            (s.lWrite a data bad).setStarted c q ix fun x => { x with husk := x.husk || moved }
          | none => s.setStarted c q ix fun x =>
              { x with
                remote := (data.zipIdx).foldl (fun m b => mput m (remoteKey r + b.2) b.1) x.remote
                remoteHusks := x.remoteHusks ++ maskedSectors mask r.addr (remoteKey r) r.len })
      else s
    let det := respDetail s r st
    let moved := r.mask != 0 || (match r.src with | some a => s.lHusks a r.len | none => false)
    s.setStarted c q ix fun x =>
      let x := { x with reqs := x.reqs - 1 }
      let x := if st = 0 && r.ptype = 3 then { x with result := operand } else x
      let x := if st = 0 && r.ptype = 1 && moved then { x with husk := true } else x
      if st = 0 then x else noteFail (respStatus st) det (if st = 7 then r.named / 32 * 32 else r.named) x
  | .host i =>
    let err : AccErr := match st with
      | 0x0 => if r.ptype = 2 && mask != 0 then .husk else .none
      | 0x4 => .unmapped
      | 0x5 => .domainOff
      | 0x6 => .access
      | 0x7 => .husk
      | st => if 16 ≤ st then .domainOff else .peerUnreachable
    let first := (((List.range 128).find? mask.getLsbD).getD 0 + r.addr / 32) * 32
    let sector := if st = 0 then r.named - r.addr + first else r.named
    let s := match i with
      | .hart h => if err = AccErr.husk then s.hartConsume h sector else s
      | _ => s
    if err = .none then { s with bus := { value := operand, bytes := data } } else s.fail err
  | .hoard c =>
    let up := fun x : Snapshot =>
      { x with
        puts := x.puts - 1, reason := if st = 0 || x.reason != 0 then x.reason else 0x100 + st
        head := if st = 0 && r.ptype = 2 then data else x.head
        bytes := if st = 0 && r.ptype = 1 then x.bytes + r.len else x.bytes }
    { s with job := { s.job with snaps := modFirst (·.ctx == c) up s.job.snaps } }
  | .fill c =>
    let bad := maskedSectors mask r.addr (r.into.getD r.addr) r.len
    let fill := fun (f : Fill → Fill) (s : State) =>
      { s with job := { s.job with fills := modFirst (fun x => x.ctx == c && x.stage != 0) f s.job.fills } }
    let s := fill (fun x => { x with gets := x.gets - 1, status := if st = 0 || x.status != 0 then x.status else st }) s
    match st, r.into with
    | 0, none => fill (fun x => { x with meta_ := mput x.meta_ r.addr data, metaHusks := x.metaHusks ++ bad }) s
    | 0, some a =>
      if !s.regionUp (dieOf a) then fill (fun x => { x with status := if x.status != 0 then x.status else 5 }) s
      else if bad.isEmpty then
        fill (fun x => { x with written := a :: x.written, bytes := x.bytes + r.len, last := x.source + 1 })
          ((s.setMem fun m => m.write a data []))
      else fill (fun x => { x with kept := (a, data, bad, x.source + 1) :: x.kept.filter (·.1 != a) }) s
    | _, _ => s
  | .gone _ _ _ => s

/-- A peer-state entry with one flow changed. -/
def State.setTx (s : State) (remote cls : Nat) (f : SendFlow → SendFlow) : State :=
  let ps := mmod {} s.fab.peers remote fun p => { p with snd := true, tx := lmod p.tx cls f }
  { s with fab := { s.fab with peers := ps } }
def State.txFlow (s : State) (remote cls : Nat) : SendFlow := (mget {} s.fab.peers remote).tx.getD cls {}

/-- A flow with unanswered requests fails (R226 step 5): each of them gets the same final status, and the next request restarts the
flow 128 ahead. -/
def State.failFlow (s : State) (remote cls st : Nat) : State :=
  let f := s.txFlow remote cls
  if f.una.isEmpty then s
  else
    let s := s.setTx remote cls fun f => { f with una := [], next := f.next + 128, restart := true }
    let s := { s with fab := { s.fab with peers := mmod {} s.fab.peers remote fun p => { p with sndIdle := s.time.mono } } }
    f.una.foldl (fun s r => s.settle r st 0 [] 0) s

/-- Peer-state entries homed on a die. -/
def State.peersOn (s : State) (die : Nat) : Nat := (s.fab.peers.filter fun e => homeDie e.1 == die).length

/-- The peer-state entry of a remote module can be had (R227), and its home die is out of reset (R413). -/
def State.peerRoom (s : State) (remote : Nat) : Bool :=
  !(s.die (homeDie remote)).inReset &&
    ((s.fab.peers.lookup remote).isSome || s.peersOn (homeDie remote) < 1024)

/-- A die's WG_ registers. -/
def State.setWg (s : State) (d : Nat) (f : WgDie → WgDie) : State :=
  { s with fab := { s.fab with dies := lmod s.fab.dies d f } }

/-- The port a request would leave by now. -/
def State.portOf (s : State) (r : FReq) : Option Nat :=
  (s.nextHop r.slice r.dst.toNat false r.board false 0 (pktSize (s.reqPacket r))).map (·.port)

/-- What a request meets on its way through the module to its port (R21, R22, R30): nothing for the active CTD's own. -/
def State.reqPath (s : State) (r : FReq) : AccErr :=
  match s.requester r.owner, s.portOf r with
  | some (d, _), some p => s.portPath d p
  | _, _ => .none

/-- Requests in flight through a die that enters reset are failed back to their requesters (R21 step 2); their entries stay until
a final response, which is discarded. -/
def State.failTransit (s : State) (die : Nat) : State :=
  let hit := fun (r : FReq) => match s.requester r.owner, r.via with
    | some (a, _), some p => s.pathVia a (portDie p) die || (s.substituted p && s.pathVia (portDie p) 2 die)
    | _, _ => false
  let rs := s.inFlight.filter hit
  let free := fun (r : FReq) => if hit r then
      (match s.requester r.owner, r.owner with
        | some (d, u), .desc c _ _ => { r with owner := .gone c d u }
        | some (d, u), _ => { r with owner := .gone 256 d u }
        | none, _ => r)
    else r
  let peers := s.fab.peers.map fun e => (e.1, { e.2 with tx := e.2.tx.map fun f => { f with una := f.una.map free } })
  rs.foldl (fun s r => s.settle r (16 + die) 0 [] 0) { s with fab := { s.fab with peers := peers } }

/-- HIGH_WATER after a request has taken its entry. -/
def State.txNote (s : State) (o : ReqOwner) : State :=
  match s.requester o with
  | some (d, _) => s.txTouch d 0
  | none => s

/-- A FABRIC_WIN entry matches a firmware packet (R304): target, PTYPE, and for MGMT the group of every message's opcode. -/
def winMatches (w : Nat × Nat × Nat × Nat) (dst ptype : Nat) (msgs : List Msg) : Bool :=
  dst &&& w.2.1 == w.1 &&& w.2.1 && bitOf w.2.2.1 ptype &&
    (ptype != 0xA || msgs.all fun m =>
      let g := bitsOf (m.getD 0 0).toNat 15 8
      1 ≤ g && g ≤ 17 && bitOf w.2.2.2 g)

/-- Some valid window admits the packet. -/
def State.fabricAdmits (s : State) (dst ptype : Nat) (msgs : List Msg) : Bool :=
  s.ctd.clamp.fabWin.any fun w => winMatches w dst ptype msgs

/-- A firmware packet discarded at the CTD (R304): counted, and the FABRIC_WIN hit. -/
def State.winDrop (s : State) (dst ptype : Nat) : State :=
  ({ s with ctd := { s.ctd with winDrops := s.ctd.winDrops + 1 } }).clampHit 5 dst 0 ptype

/-- A request that firmware originates: hoard and fill transfers (R283, R304). -/
def ReqOwner.isFirmware : ReqOwner → Bool
  | .hoard _ | .fill _ => true
  | _ => false

/-- Send one request now: numbered, remembered, handed to its port, with its transmit stamp asked for this once (R245); without a usable port its flow fails as NO_ROUTE. -/
def State.sendReq (s : State) (r : FReq) : State :=
  let remote := r.dst.toNat
  let f := s.txFlow remote r.cls
  let r := { r with seq := f.next, start := f.restart, sentAt := s.time.mono, via := s.portOf r }
  let s := s.setTx remote r.cls fun f => { f with next := f.next + 1, restart := false, una := f.una ++ [{ r with ts := none }] }
  let s := s.setWg (homeDie remote) fun d => { d with highWater := max d.highWater (s.peersOn (homeDie remote)) }
  let s := s.txNote r.owner
  match s.emit (s.reqPacket r) false r.board with
  | some s => s
  | none => s.failFlow remote r.cls 0xC

/-- Issue a request (R225-R227, R122, R123): sent at once, or it waits behind 64 unanswered ones, or stalls for an entry or, at
its source die, for a path change (R21). A request to another pod without a circuit route ends at once with PEER_UNREACHABLE
(R236), one without a path to its port with DOMAIN_OFF (R22), and one of firmware that no FABRIC_WIN entry matches is discarded
(R304); its owner sees PEER_UNREACHABLE (DESIGN CHOICE, log 64). -/
def State.issue (s : State) (r : FReq) (board : Bool) : State :=
  let remote := r.dst.toNat
  let r := { r with board := board }
  if r.owner.isFirmware && !s.fabricAdmits remote r.ptype.toNat [] then (s.winDrop remote r.ptype.toNat).settle r 0xC 0 [] 0
  else if podOf remote != podOf s.ownId && (s.circuitTo remote).isNone then s.settle r 0xC 0 [] 0
  else if s.reqPath r = .domainOff then s.settle r (16 + ((s.portOf r).map portDie).getD 0) 0 [] 0
  else if s.reqPath r = .waiting || !s.peerRoom remote || !s.txRoom r.owner then
    { s with fab := { s.fab with stalled := s.fab.stalled ++ [r] } }
  else
    let f := s.txFlow remote r.cls
    if f.una.length ≥ 64 || !f.wait.isEmpty then
      (s.setTx remote r.cls fun f => { f with wait := f.wait ++ [r] }).txNote r.owner
    else s.sendReq r

/-- Issue several. -/
def State.issueAll (s : State) (l : List FReq) (board : Bool) : State := l.foldl (fun s r => s.issue r board) s

/-- Requests that waited behind an answered one are sent while there is room: at most n of them. -/
def State.pump (s : State) (remote cls : Nat) : Nat → State
  | 0 => s
  | n + 1 =>
    let f := s.txFlow remote cls
    match f.wait with
    | [] => s
    | r :: rest =>
      if f.una.length ≥ 64 then s
      else ((s.setTx remote cls fun f => { f with wait := rest }).sendReq r).pump remote cls n

/-- Stalled requests are issued again in their order (R123, R227, R413). -/
def State.unstall (s : State) : State :=
  let l := s.fab.stalled
  l.foldl (fun s r => s.issue r r.board) { s with fab := { s.fab with stalled := [] } }

/-! ### Board-remote addresses -/

/-- Where a 52-bit module physical address leads (R35). -/
inductive Place where
  | loc (off : Nat)
  | remote (idx off : Nat)
  | err (e : AccErr)
deriving DecidableEq, Repr

/-- The decode of R35, first matching condition first. -/
def State.place (s : State) (addr : Nat) : Place :=
  let idx := addr / 2 ^ 48 % 16
  let off := addr % 2 ^ 48
  let valid := s.idLocked
  let own := if valid then boardIdx s.ownId else 0
  if !valid && idx != 0 then .err .peerUnreachable
  else if idx ≥ 4 then .err .unmapped
  else if idx = own then .loc off
  else if off < usableTop then .remote idx off
  else .err .unmapped

/-- Module ID of the tray peer with a board index. -/
def State.peerAt (s : State) (idx : Nat) : Nat :=
  let id := s.ownId
  withCoord (withCoord id 0 (coord id 0 / 2 * 2 + idx % 2)) 1 (coord id 1 / 2 * 2 + idx / 2)

/-- A board-remote access may travel (R36): the board port is no boundary port of the context's slice, and some route is
up. -/
def State.boardRoute (s : State) (slice : Option Nat) (idx : Nat) : Bool :=
  let k := boardIdx s.ownId ^^^ idx
  let ent := slice.bind fun e => s.fab.slices.lookup e
  let bnd := (ent.map fun e => e.boundary.toNat).getD 0
  match s.rolePort (5 + k) with
  | some p => !bitOf bnd p
  | none => !bitOf bnd (5 + k) &&
      (s.nextHop ((ent.map (·.id)).getD 0) (s.peerAt idx) false true false 0 64).isSome

/-! ### Geometry of slices (R249-R251) -/

/-- A module lies in a block of this pod given by origin and extent of each axis. -/
def inBlock (n pod : Nat) (g : List (Nat × Nat)) (id : Nat) : Bool :=
  podOf id == pod && g.zipIdx.all fun e => decide ((coord id e.2 + n - e.1.1) % n < e.1.2)

/-- The neighbour in a direction is outside a block, a circuit no member: directions are port codes. -/
def State.outside (s : State) (g : List (Nat × Nat)) (circuits r : Nat) : Bool :=
  let n := s.axisN
  let own := s.ownId
  if r < 6 then
    let c := coord own (r / 2)
    (g.getD (r / 2) (0, 1)).2 == 1 ||
      !inBlock n (podOf own) g (withCoord own (r / 2) ((if r % 2 = 0 then c + 1 else c + n - 1) % n))
  else if r < 9 then !inBlock n (podOf own) g (s.peerAt (boardIdx own ^^^ (r - 5)))
  else !bitOf circuits (r - 9)

/-- BOUNDARY (R251): by the direction each port serves (R232, R242). -/
def State.boundaryOf (s : State) (g : List (Nat × Nat)) (circuits : Nat) : BitVec 13 :=
  BitVec.ofNat 13 (ofBits ((List.range 13).filter fun p => s.outside g circuits (s.port p).role))

/-- BOUNDARY of every slice derived again, after a remap has given a port another direction. DESIGN CHOICE (log 61): R251 does not say
when it is derived again. -/
def State.rebound (s : State) : State :=
  let f := fun (x : SliceEnt) => { x with boundary := s.boundaryOf x.geom x.circuits.toNat }
  { s with fab := { s.fab with slices := mmapv s.fab.slices fun _ x => f x } }

/-- The DE_SEM register of an offset of CSR space (R34, R121): the semaphore, and whether it is its adding register. -/
def semRegAt (off : Nat) : Option (Nat × Bool) :=
  let o := off - 0xF01000000000
  let x := o % 0x100000000
  if off < 0xF01000000000 || 0x400000000 ≤ o || x < 0x2C000000 || 0x2C100000 ≤ x || 0x100 ≤ x % 0x1000 then none
  else
    let k := 4096 * (o / 0x100000000) + 16 * ((x - 0x2C000000) / 0x1000) + x % 0x1000 / 0x10
    if x % 0x10 = 0 then some (k, false) else if x % 0x10 = 4 then some (k, true) else none

/-- An interrupt message (R100, R316): one 32-bit write at a module physical address. It is stored in local usable memory, and it
writes or adds to a local semaphore. A message to another place is only listed as sent (DESIGN CHOICE, log 6). -/
def State.irqWrite (s : State) (addr : Nat) (data : Word) : State :=
  let s := { s with eng := { s.eng with irqs := s.eng.irqs ++ [(addr, data)] } }
  match s.place addr with
  | .loc off =>
    if off + 4 ≤ usableTop then
      if s.regionUp (dieOf off) then s.setMem fun m => m.write off (leBytes 4 data.toNat) [] else s
    else match semRegAt off with
      | some (k, adds) =>
        if (s.die (k / 4096)).inReset then s else s.setSem k (if adds then s.sem k + data else data)
      | none => s
  | _ => s

end Sys2Proof.Machine
end

