-- ==== Sys2Proof/Machine/Channel.lean ====
section
/-! DEFINITION. The channel pages and the ways into the module from outside (chapter 10): everything of a mailbox but the
execution of commands. -/

namespace Sys2Proof.Machine

/-- What an access to a channel page meets first (R314, R317): host cores reach pages 0-255 only; an absent CTD, one held
in reset, and both CTDs during a switchover gap. -/
def State.pageGate (s : State) (init : Initiator) (ctd ch : Nat) : AccErr :=
  if !s.ctdPresent ctd then .notPresent
  else if !isHart init || ch ≥ 256 then .unmapped
  else if s.ctdGate ctd != .none || s.ctd.lease.closedAt.isSome then .domainOff
  else .none

/-- A write ignored because FULL = 1: OVERRUN, and MB_OVERRUN logged (R315). -/
def State.overrun (s : State) (ctd ch : Nat) : State :=
  (s.setChan ctd ch fun c => { c with overrun := true }).logFw 0x1403 2 [ctd, ch]

/-- MB_TX_WORD_WRITE (R315): stores word n while FULL = 0. -/
def execMbTxWordWrite (init : Initiator) (ctd : Fin 2) (ch : Fin 512) (n : Fin 8) (value : BitVec 32) (s : State) :
    Host.Outcome State Fault Refusal :=
  .next <|
    match s.pageGate init ctd ch with
    | .none =>
      let s := s.answer 0
      if (s.chan ctd ch).txFull then s.overrun ctd ch
      else s.setChan ctd ch fun c => { c with tx := c.tx.set n value }
    | e => s.fail e

/-- MB_TX_COMMIT (R315): GO = 1 sets FULL and hands over the eight words. -/
def execMbTxCommit (init : Initiator) (ctd : Fin 2) (ch : Fin 512) (value : BitVec 32) (s : State) :
    Host.Outcome State Fault Refusal :=
  .next <|
    match s.pageGate init ctd ch with
    | .none =>
      let s := s.answer 0
      if (s.chan ctd ch).txFull then s.overrun ctd ch
      else if value.getLsbD 0 then s.setChan ctd ch fun c => { c with txFull := true }
      else s
    | e => s.fail e

/-- MB_RX_POP (R316): word 0 of the up message, and FULL cleared; 0 and nothing else while FULL = 0. -/
def execMbRxPop (init : Initiator) (ctd : Fin 2) (ch : Fin 512) (s : State) : Host.Outcome State Fault Refusal :=
  .next <|
    match s.pageGate init ctd ch with
    | .none =>
      let c := s.chan ctd ch
      if c.rxFull then
        (s.answer ((c.rx.getD 0 0).setWidth 64)).setChan ctd ch fun c => { c with rxFull := false }
      else s.answer 0
    | e => s.fail e

/-- A message to a management agent (R318, R486): its datagram leaves for the agent or, outside the prefix, for the gateway; without
an address or a gateway it is not sent. An address not in the ARP cache is asked for. -/
def State.sendUdp (s : State) (ip port ch : Nat) (m : Msg) : State :=
  let g := s.mgmt
  let near := ip / 2 ^ (32 - g.prefix_) == g.ip.toNat / 2 ^ (32 - g.prefix_)
  let hop := if near then ip else g.gw.toNat
  if !g.valid || (!near && g.gw == 0) then s
  else
    let ask := if (g.arp.lookup hop).isSome then g.arpAsk else g.arpAsk ++ [hop]
    { s with
      mgmt := { g with arpAsk := ask }
      mbox := { s.mbox with out := s.mbox.out ++ [{ fabric := false, ip := ip, port := port, ch := ch, msg := m }] } }

/-- Send a message to a fabric peer as a MGMT packet, if a window admits it (R304, R319). -/
def State.sendMgmt (s : State) (dst ch : Nat) (m : Msg) : State :=
  if s.fabricAdmits dst 0xA [m] then
    let k := { blankPkt with
      ptype := 0xA, dst := BitVec.ofNat 15 dst, src := BitVec.ofNat 15 s.ownId, len := 32, payload := m.flatMap fun w => leBytes 4 w.toNat }
    let s := s.emit7 k
    { s with mbox := { s.mbox with out := s.mbox.out ++ [{ fabric := true, ip := dst, port := 0, ch := ch, msg := m }] } }
  else s.winDrop dst 0xA

/-- The next message for the sender of a channel: a fragment of a response, else of an event begun, else the next event
(R322, R323). The fragments of an event in progress are finished first. -/
def Channel.nextUp (c : Channel) : Option (Msg × Channel) :=
  match c.upEvent, c.up, c.events with
  | m :: r, _, _ => some (m, { c with upEvent := r })
  | [], m :: r, _ => some (m, { c with up := r })
  | [], [], e :: es =>
    match fragments e.code 0 false true false e.words with
    | m :: r => some (m, { c with events := es, upEvent := r })
    | [] => none
  | [], [], [] => none

/-- A response of several fragments is not interleaved with an event: its fragments stand together in `up`. -/
def Channel.hasUp (c : Channel) : Bool := c.nextUp.isSome

/-- MB_UP_PLACE (R316, R318, R319, R322, R323): the CTD that serves the channel places the next message: on a host page
while FULL = 0, with the interrupt of RX_EN; on a management or fabric channel it leaves in a datagram or MGMT packet to the
bound source. Without a message, or with FULL = 1, nothing happens. -/
def execMbUpPlace (ctd : Fin 2) (ch : Fin 512) (s : State) : Host.Outcome State Fault Refusal :=
  .next <|
    if !s.carriesOut ctd then s
    else
      let c := s.chan ctd ch
      match c.nextUp with
      | none => s
      | some (m, c') =>
        if ch.val < 256 then
          if c.rxFull then s
          else
            let s := s.setChan ctd ch fun _ => { c' with rx := m, rxFull := true }
            if c.irqRx then s.irqWrite c.irqAddr.toNat c.irqData else s
        else
          let s := s.setChan ctd ch fun _ => c'
          match s.mbox.binds.lookup ch.val, senderOf ch with
          | some b, some .m => s.sendUdp b.ip b.port ch m
          | some b, some .f => s.sendMgmt b.ip ch m
          | _, _ => s

/-- The next waiting message of a bound channel enters the down queue, if that is empty (R318). -/
def State.feed (s : State) (ctd ch : Nat) : State :=
  match s.mbox.binds.lookup ch with
  | some b =>
    match b.queue with
    | m :: r =>
      if (s.chan ctd ch).txFull then s
      else
        let s := s.setChan ctd ch fun c => { c with tx := m, txFull := true }
        { s with mbox := { s.mbox with binds := mput s.mbox.binds ch { b with queue := r } } }
    | [] => s
  | none => s

/-- Messages from the bound source: the binding is refreshed and the messages wait their turn. -/
def State.enqueue (s : State) (ctd ch ip port : Nat) (ms : List Msg) : State :=
  let old := match s.mbox.binds.lookup ch with | some b => b.queue | none => []
  let b : Bind := { ip := ip, port := port, last := s.time.mono, queue := old ++ ms }
  ({ s with mbox := { s.mbox with binds := mput s.mbox.binds ch b } }).feed ctd ch

/-- A BUSY answer that uses no channel: OPCODE and SEQ of a message (R318, R319). -/
def busyFor (m : Msg) : Msg :=
  let h := (m.getD 0 0).toNat
  header (bitsOf h 15 0) 1 (bitsOf h 26 19) true false false false :: padTo 7 0 [statusWord dBusy 0]

/-- Messages of 32 bytes. -/
def toMsgs (l : List Byte) : List Msg := (chunks 32 l).map fun m => (chunks 4 m).map fun b => BitVec.ofNat 32 (ofLe b)

/-- MB_CHANNEL_TABLE_FULL of class 1, once per second: messages of a datagram that named a channel bound to another source
(DESIGN CHOICE, log 65: the event table names the class and no rule says when a management message is so refused). -/
def State.refuseMgmt (s : State) (src n : Nat) : State :=
  let cnt := s.mbox.refusedMgmt + n
  let due := match s.mbox.refusedMgmtLog with | none => true | some t => t + 1000000000 ≤ s.time.mono
  if due then
    ({ s with mbox := { s.mbox with refusedMgmt := 0, refusedMgmtLog := some s.time.mono } }).logFw 0x1404 3 [1, src, cnt]
  else { s with mbox := { s.mbox with refusedMgmt := cnt } }

/-- A datagram for the Darid port (R318). Only the active CTD receives; during the gap it is discarded and counted (R293);
one of another form is discarded; a free channel is bound; a channel bound to another source is answered BUSY. -/
def State.datagram (s : State) (srcIp srcPort : Nat) (p : List Byte) : State :=
  match s.serving with
  | none => { s with mgmt := { s.mgmt with discarded := satAdd 0xFFFF s.mgmt.discarded 1 } }
  | some h =>
    let ch := fieldAt p 0 2
    let ms := toMsgs (p.drop 4)
    if !(p.length ≥ 36 && p.length ≤ 260 && (p.length - 4) % 32 == 0 && 256 ≤ ch && ch ≤ 287 && fieldAt p 2 2 == 0) then s
    else
      match s.mbox.binds.lookup ch with
      | none => s.enqueue h ch srcIp srcPort ms
      | some b =>
        if b.ip = srcIp && b.port = srcPort then s.enqueue h ch srcIp srcPort ms
        else (s.sendUdp srcIp srcPort ch (busyFor (ms.headD []))).refuseMgmt srcIp ms.length

def execMgmtDatagramReceive (srcIp : BitVec 32) (srcPort : BitVec 16) (payload : List (BitVec 8)) (s : State) :
    Host.Outcome State Fault Refusal := .next (s.datagram srcIp.toNat srcPort.toNat payload)

/-- MB_CHANNEL_TABLE_FULL for fabric peers, once per second (R319). -/
def State.refuseFabric (s : State) (src n : Nat) : State :=
  let cnt := s.mbox.refused + n
  let due := match s.mbox.refusedLog with | none => true | some t => t + 1000000000 ≤ s.time.mono
  if due then
    ({ s with mbox := { s.mbox with refused := 0, refusedLog := some s.time.mono } }).logFw 0x1404 3 [2, src, cnt]
  else { s with mbox := { s.mbox with refused := cnt } }

/-- A MGMT packet that came by flits is taken from its port. -/
def State.takeMgmt (s : State) (pay : List Byte) : State :=
  let has := fun (b : List Byte) => fieldAt b 0 1 % 16 == 0xA && (b.drop 32).take pay.length == pay
  match (List.range 13).find? fun p => (s.port p).rxPkts.any has with
  | some p => s.setPort p fun x => { x with rxPkts := x.rxPkts.eraseP has }
  | none => s

/-- MGMT_PACKET_RECEIVE (R319): from one to eight messages; the first packet of a source binds a free channel of 288-415;
without one each message is answered BUSY and discarded. -/
def execMgmtPacketReceive (src : BitVec 15) (payload : List (BitVec 8)) (s : State) : Host.Outcome State Fault Refusal :=
  .next <|
    let s := s.takeMgmt payload
    match s.serving with
    | none => s
    | some h =>
      if !(payload.length % 32 == 0 && 32 ≤ payload.length && payload.length ≤ 256) then s
      else
        let ms := toMsgs payload
        let id := src.toNat
        match (s.mbox.binds.find? fun e => e.1 ≥ 288 && e.2.ip == id) with
        | some e => s.enqueue h e.1 id 0 ms
        | none =>
          match (List.range 128).find? fun i => (s.mbox.binds.lookup (288 + i)).isNone with
          | some i => s.enqueue h (288 + i) id 0 ms
          | none => (ms.foldl (fun s m => s.sendMgmt id 0xFFFF (busyFor m)) s).refuseFabric id ms.length

/-- A channel of 256-415 is free again: what waited for its sender goes with the binding (log 18), and an SPDM connection that
it held ends (R485). -/
def State.unbind (s : State) (ch : Nat) : State :=
  { s with
    mbox := { s.mbox with binds := mdel s.mbox.binds ch }
    spdm := if s.spdm.chan == some ch then {} else s.spdm }

/-- FRAGMENT_TIMEOUT (R321): an open command without a fragment for 1 s is discarded without a response. -/
def execFragmentTimeout (ctd : Fin 2) (ch : Fin 512) (s : State) : Host.Outcome State Fault Refusal :=
  .next <|
    match (s.chan ctd ch).openCmd with
    | some (_, _, _, t) =>
      if t + 1000000000 ≤ s.time.mono then s.setChan ctd ch fun c => { c with openCmd := none } else s
    | none => s

end Sys2Proof.Machine
end

