-- ==== Sys2Proof/Machine/Ledger.lean ====
section
/-! DEFINITION. The Ledger (chapter 11): append, repeat windows, flash mirror, read windows, and its Darid commands. -/

namespace Sys2Proof.Machine

/-- A Ledger of the module. -/
def State.ledger (s : State) (ctd : Nat) : Ledger := s.ledgers.getD ctd {}
def State.setLedger (s : State) (ctd : Nat) (f : Ledger → Ledger) : State := { s with ledgers := lmod s.ledgers ctd f }

/-- LG_APPEND_GO (R342, R366): only the CTD's own service processors; GO = 1 appends or merges what the LG_APPEND words
hold: CODE, SEVERITY and SOURCE in word 0, P0-P7 in words 6 to 13. -/
def execLgAppendGo (init : Initiator) (ctd : Fin 2) (value : BitVec 32) (s : State) : Host.Outcome State Fault Refusal :=
  .next <|
    if s.ctdGate ctd != .none then s.fail (s.ctdGate ctd)
    else if !isSp init ctd then s.fail .unmapped
    else
      let s := s.answer 0
      if !value.getLsbD 0 then s
      else
        let ws := (s.ledger ctd).append.map (·.toNat)
        let w0 := ws.getD 0 0
        s.logTo ctd (bitsOf w0 15 0) (bitsOf w0 19 16) (bitsOf w0 31 20) ((ws.drop 6).take 8)

/-- The copy of a record with this sequence: in RAM, else the newest, else in flash. -/
def Ledger.find (l : Ledger) (seq : Nat) : Option Rec :=
  match l.ram.find? (·.seq == seq) with
  | some r => some r
  | none => match l.newest with
    | some r => if r.seq = seq then some r else l.flash.find? (·.seq == seq)
    | none => l.flash.find? (·.seq == seq)

/-- The window of a record closes at 1 s of MONO after its creation (R344). -/
def windowClosed (mono : Nat) (r : Rec) : Bool := !r.closed && r.born + 1000000000 ≤ mono

/-- REPEAT_WINDOW_CLOSE (R323, R344, R346): once the second has passed, a record with repeats is sent once more to the
channels that admit it and, from severity 4, written to flash again. Before that, or for no such record, nothing happens. -/
def execRepeatWindowClose (ctd : Fin 2) (seq : BitVec 64) (s : State) : Host.Outcome State Fault Refusal :=
  .next <|
    match (s.ledger ctd).find seq.toNat with
    | none => s
    | some r =>
      if !windowClosed s.time.mono r then s
      else
        let shut := fun x : Rec => if x.seq = seq.toNat then { x with closed := true } else x
        let r' := { r with closed := true }
        let s := s.setLedger ctd fun l =>
          { l with
            ram := l.ram.map shut, newest := l.newest.map shut
            owed := if r.rep > 0 && r.sev ≥ 4 then l.owed ++ [(r', 1, s.time.mono)] else l.owed }
        if r.rep = 0 then s
        else
          let p := s.logPart
          let p := { p with mbox := { p.mbox with chans := deliver ctd r' p.mbox.chans } }
          s.withLog (p.addLost (s.logEnv ctd false))

/-- LG_FLASH_SEQ (R346): the newest sequence in the mirror before which no record still waits for its first write; a record whose
write failed twice holds nothing back (DESIGN CHOICE, log 65). -/
def Ledger.durable (l : Ledger) : Ledger :=
  let waits := (l.owed.map fun e => e.1.seq).filter fun q => !l.flash.any (·.seq == q)
  { l with flashSeq := ((l.flash.map (·.seq)).filter fun q => waits.all (q < ·)).foldl max l.flashSeq }

/-- A record put into the flash mirror (R346): the later copy under one sequence replaces the earlier; a full mirror
overwrites under R345. -/
def Ledger.toFlash (l : Ledger) (r : Rec) : Ledger :=
  if l.flash.any (·.seq == r.seq) then { l with flash := l.flash.map fun x => if x.seq = r.seq then r else x }
  else
    match ringPut 16384 r l.flash with
    | (some f, full) => { l with flash := f, flashOver := if full then (l.flashOver + 1) % 65536 else l.flashOver }
    | (none, _) => { l with flashDropped := satAdd 0xFFFF l.flashDropped 1 }

/-- The flash write of a record that waits for it ends well, or fails, is logged and tried once more after 100 ms (R346). -/
def State.flashMirror (s : State) (ctd : Nat) (seq : BitVec 64) (ok : Bool) (flashStatus : BitVec 32) : State :=
    match (s.ledger ctd).owed.find? fun e => e.1.seq == seq.toNat with
    | none => s
    | some (r, att, due) =>
      if s.time.mono < due then s
      else
        let r := ((s.ledger ctd).ram.find? (·.seq == r.seq)).getD r
        let rest := fun l : Ledger => { l with owed := l.owed.eraseIdx (l.owed.findIdx fun e => e.1.seq == seq.toNat) }
        if ok then s.setLedger ctd fun l => ((rest l).toFlash r).durable
        else
          let s := s.setLedger ctd fun l =>
            let l : Ledger := rest l
            if att = 1 then { l with owed := l.owed ++ [(r, 2, s.time.mono + 100000000)] } else l.durable
          s.logTo ctd 0x0801 5 (512 + ctd) (lohi r.seq ++ [flashStatus.toNat, att])

/-- Change one read window. -/
def State.setWin (s : State) (ctd w : Nat) (f : LgWin → LgWin) : State :=
  s.setLedger ctd fun l => { l with wins := lmod l.wins w f }

/-- LG_WIN_CURSOR_WRITE (R348, R366): host cores and service processors; a 64-bit write, or a 32-bit write to the upper
half, starts a latch and abandons one in progress; a 32-bit write to the lower half only stores it. -/
def execLgWinCursorWrite (init : Initiator) (ctd : Fin 2) (w : Fin 4) (width : Nat) (upper : Bool) (value : BitVec 64)
    (s : State) : Host.Outcome State Fault Refusal :=
  .next <|
    if s.ctdGate ctd != .none then s.fail (s.ctdGate ctd)
    else if !(isHart init || isAnySp init) then s.fail .unmapped
    else if width = 64 then
      (s.answer 0).setWin ctd w fun x => { x with cursor := value, busy := true, valid := false, fin := false }
    else if width = 32 then
      let v := value.toNat % 2 ^ 32
      if upper then
        (s.answer 0).setWin ctd w fun x =>
          { x with
            cursor := BitVec.ofNat 64 (v * 2 ^ 32 + x.cursor.toNat % 2 ^ 32), busy := true, valid := false, fin := false }
      else (s.answer 0).setWin ctd w fun x => { x with cursor := BitVec.ofNat 64 (x.cursor.toNat / 2 ^ 32 * 2 ^ 32 + v) }
    else s.fail .unmapped

/-- The record with the smallest sequence at or above a cursor. -/
def nextRec (l : List Rec) (seq : Nat) : Option Rec :=
  (l.filter fun r => r.seq ≥ seq).foldl
    (fun b r => match b with | none => some r | some x => if r.seq < x.seq then some r else some x) none

/-- LG_WIN_LATCH_DONE (R348): a latch in progress copies, in one step, the next record of RAM or flash, or sets END. -/
def execLgWinLatchDone (ctd : Fin 2) (w : Fin 4) (s : State) : Host.Outcome State Fault Refusal :=
  .next <|
    let x := (s.ledger ctd).wins.getD w {}
    if !x.busy then s
    else
      let l := s.ledger ctd
      match nextRec (if x.src then l.flash else l.ram) x.cursor.toNat with
      | some r => s.setWin ctd w fun x => { x with busy := false, valid := true, fin := false, words := r.words }
      | none => s.setWin ctd w fun x => { x with busy := false, valid := false, fin := true }

/-! ### Darid commands of the Ledger (0x08xx) -/

/-- Sequences held in RAM or flash. -/
def Ledger.seqs (l : Ledger) : List Nat := (l.ram ++ l.flash).map (·.seq)
def Ledger.oldest (l : Ledger) : Nat := (l.seqs.foldl (fun b q => match b with | none => some q | some x => some (min x q)) none).getD 0
def Ledger.newestSeq (l : Ledger) : Nat := l.seqs.foldl max 0

/-- LedgerStatus (R350): oldest and newest sequence of this CTD's own Ledger, records dropped from RAM. -/
def dLedgerStatus : DaridDef where
  op := 0x0801
  senders := [.c, .m, .f]
  standby := true
  oos := true
  changes := false
  len := (· == 0)
  body s w _ :=
    let l := s.ledger w.ctd
    { s := s, words := lohi l.oldest ++ lohi l.newestSeq ++ [l.dropped] }

/-- The n records at or above a sequence, ascending, each sequence once, the RAM copy before the flash copy (R350). -/
def ledgerWalk (l : Ledger) : Nat → Nat → List Rec
  | 0, _ => []
  | n + 1, q =>
    match nextRec l.ram q, nextRec l.flash q with
    | none, none => []
    | some r, none => r :: ledgerWalk l n (r.seq + 1)
    | none, some f => f :: ledgerWalk l n (f.seq + 1)
    | some r, some f => if f.seq < r.seq then f :: ledgerWalk l n (f.seq + 1) else r :: ledgerWalk l n (r.seq + 1)

/-- LedgerRead (R350). -/
def dLedgerRead : DaridDef where
  op := 0x0802
  senders := [.c, .m, .f]
  standby := true
  oos := true
  changes := false
  len := (· == 3)
  bad _ a := badWord [(2, 1 ≤ arg a 2 && arg a 2 ≤ 63)]
  body s w a :=
    let rs := ledgerWalk (s.ledger w.ctd) (arg a 2) (arg64 a 0)
    { s := s, words := rs.length :: rs.flatMap fun r => r.words.map (·.toNat) }

/-- LedgerAppend (R332, R342): through the same registers, the channel as SOURCE; the sequence of the record the event
stands in. -/
def dLedgerAppend : DaridDef where
  op := 0x0803
  senders := [.c, .m, .f]
  oos := true
  changes := false
  mirrored := true
  len := (· == 9)
  bad _ a := badWord [(0, 0xF000 ≤ bitsOf (arg a 0) 15 0 && bitsOf (arg a 0) 18 16 ≤ 3 && arg a 0 < 2 ^ 19)]
  body s w a :=
    let s := s.logTo w.ctd (bitsOf (arg a 0) 15 0) (bitsOf (arg a 0) 18 16) w.ch (a.drop 1)
    { s := s, words := lohi (((s.ledger w.ctd).newest.map (·.seq)).getD 0) }

/-- LedgerSubscribe (R323): the lowest severity delivered; 8 cancels. -/
def dLedgerSubscribe : DaridDef where
  op := 0x0804
  senders := [.c, .m, .f]
  oos := true
  len := (· == 1)
  bad _ a := badWord [(0, arg a 0 ≤ 8)]
  body s w a := { s := s.setChan w.ctd w.ch fun c => { c with sub := arg a 0 } }

def execLedgerStatus (r : DReq) (s : State) : Host.Outcome State Fault Refusal := .next (runDarid dLedgerStatus r s)
def execLedgerRead (r : DReq) (s : State) : Host.Outcome State Fault Refusal := .next (runDarid dLedgerRead r s)
def execLedgerAppend (r : DReq) (s : State) : Host.Outcome State Fault Refusal := .next (runDarid dLedgerAppend r s)
def execLedgerSubscribe (r : DReq) (s : State) : Host.Outcome State Fault Refusal := .next (runDarid dLedgerSubscribe r s)

end Sys2Proof.Machine
end

