-- ==== Sys2Proof/Machine/Arith.lean ====
section
/-! DEFINITION. Number formats, roundings, sums and conversions of the engines (chapter 04). Values are exact: a finite value
is an integer times a power of two. -/

namespace Sys2Proof.Machine

/-- A value: NaN, an infinity, or (−1)^neg × m × 2^e (a zero has m = 0 and keeps its sign). -/
inductive Num where
  | nan
  | inf (neg : Bool)
  | fin (neg : Bool) (m : Nat) (e : Int)
deriving DecidableEq, Repr

/-- A floating-point format (R124): exponent and fraction bits, bias, and whether it has infinities and NaNs of the IEEE
kind, only the NaN of E4M3, or neither. -/
structure Fmt where
  eb : Nat
  mb : Nat
  bias : Nat
  ieee : Bool
  e4m3 : Bool
deriving DecidableEq, Repr

def fp32 : Fmt := ⟨8, 23, 127, true, false⟩
/-- The element formats of codes 0x0 to 0x9 (R105, R124). -/
def fmtOf : Nat → Fmt
  | 0 => fp32
  | 1 => ⟨5, 10, 15, true, false⟩
  | 2 => ⟨8, 7, 127, true, false⟩
  | 3 => ⟨4, 3, 7, false, true⟩
  | 4 => ⟨5, 2, 15, true, false⟩
  | 5 => ⟨4, 3, 7, false, true⟩
  | 6 => ⟨5, 2, 15, true, false⟩
  | 7 => ⟨3, 2, 3, false, false⟩
  | 8 => ⟨2, 3, 1, false, false⟩
  | _ => ⟨2, 1, 1, false, false⟩

/-- Bits of an element of a format code (R105). -/
def fmtBits : Nat → Nat
  | 0 => 32
  | 1 => 16
  | 2 => 16
  | 3 => 8
  | 4 => 8
  | 5 => 8
  | 6 => 8
  | 7 => 6
  | 8 => 6
  | 9 => 4
  | 0xA => 8
  | 0xB => 4
  | 0xC => 32
  | _ => 8
/-- A block-scaled format; an integer format. -/
def fmtMx (c : Nat) : Bool := 5 ≤ c && c ≤ 9
def fmtInt (c : Nat) : Bool := 0xA ≤ c && c ≤ 0xC

/-- Exponent of the smallest subnormal. -/
def Fmt.minUlp (f : Fmt) : Int := 1 - f.bias - f.mb
/-- The largest finite value: mantissa and exponent (R124). -/
def Fmt.maxFin (f : Fmt) : Nat × Int :=
  let top : Int := 2 ^ f.eb - 1 - f.bias - f.mb
  if f.ieee then (2 ^ (f.mb + 1) - 1, top - 1) else if f.e4m3 then (2 ^ (f.mb + 1) - 2, top) else (2 ^ (f.mb + 1) - 1, top)

/-- Whole powers. -/
def pow2 (n : Int) : Nat := 2 ^ n.toNat

/-- a × 2^ea ≤ b × 2^eb. -/
def magLe (a : Nat) (ea : Int) (b : Nat) (eb : Int) : Bool :=
  if ea ≤ eb then decide (a ≤ b * pow2 (eb - ea)) else decide (a * pow2 (ea - eb) ≤ b)

/-- Decode of an element's bits (R124, R125). -/
def Fmt.decode (f : Fmt) (w : Nat) : Num :=
  let neg := bitOf w (f.eb + f.mb)
  let ex := bitsOf w (f.eb + f.mb - 1) f.mb
  let fr := w % 2 ^ f.mb
  if f.ieee && ex = 2 ^ f.eb - 1 then (if fr = 0 then .inf neg else .nan)
  else if f.e4m3 && ex = 2 ^ f.eb - 1 && fr = 2 ^ f.mb - 1 then .nan
  else if ex = 0 then .fin neg fr f.minUlp
  else .fin neg (2 ^ f.mb + fr) (f.minUlp + (ex - 1 : Nat))

/-- How a magnitude between two neighbours is rounded: to nearest even; by a 16-bit draw (R141); toward larger. -/
inductive Rnd where
  | rne
  | draw (r : Nat)
  | up
deriving DecidableEq, Repr

/-- The integer part of m ÷ 2^k, rounded. -/
def roundShift (r : Rnd) (m k : Nat) : Nat :=
  let q := m >>> k
  let rem := m % 2 ^ k
  let upward := match r with
    | .rne => decide (2 * rem > 2 ^ k) || (decide (2 * rem = 2 ^ k) && q % 2 == 1)
    | .draw d => decide (rem * 65536 / 2 ^ k + d ≥ 65536)
    | .up => decide (rem > 0)
  if upward then q + 1 else q

/-- A magnitude m × 2^e rounded once to a format with the exponent range unbounded above (R137): mantissa and exponent. -/
def Fmt.quant (f : Fmt) (r : Rnd) (m : Nat) (e : Int) : Nat × Int :=
  if m = 0 then (0, f.minUlp)
  else
    let u := max (Nat.log2 m + e - f.mb) f.minUlp
    if u ≤ e then (m * pow2 (e - u), u) else (roundShift r m (u - e).toNat, u)

/-- Bits of a finite magnitude that the format holds. -/
def Fmt.encode (f : Fmt) (neg : Bool) (q : Nat) (u : Int) : Nat :=
  let (q, u) := if q ≥ 2 ^ (f.mb + 1) then (q / 2, u + 1) else (q, u)
  let s := b2n neg * 2 ^ (f.eb + f.mb)
  if q < 2 ^ f.mb then s + q else s + ((u - f.minUlp).toNat + 1) * 2 ^ f.mb + (q - 2 ^ f.mb)

/-- Canonical NaN (R125), infinity, largest finite value of a sign. -/
def Fmt.nanBits (f : Fmt) : Nat :=
  if f.ieee then (2 ^ f.eb - 1) * 2 ^ f.mb + 2 ^ (f.mb - 1) else 2 ^ (f.eb + f.mb) - 1
def Fmt.infBits (f : Fmt) (neg : Bool) : Nat := b2n neg * 2 ^ (f.eb + f.mb) + (2 ^ f.eb - 1) * 2 ^ f.mb
def Fmt.maxBits (f : Fmt) (neg : Bool) : Nat := f.encode neg f.maxFin.1 f.maxFin.2

/-- A finite value rounded to a format: bits, and whether it overflowed and was saturated (R137). -/
def Fmt.round (f : Fmt) (r : Rnd) (neg : Bool) (m : Nat) (e : Int) : Nat × Bool :=
  let (q, u) := f.quant r m e
  if magLe q u f.maxFin.1 f.maxFin.2 then (f.encode neg q u, false) else (f.maxBits neg, true)

/-- A ratio n ÷ d as a value with a sticky bit: rounding it to a format of at most 62 fraction bits rounds the ratio. -/
def ratio (n d : Nat) : Nat × Int :=
  let k := 64 + Nat.log2 (d + 1) - min (Nat.log2 (n + 1)) (Nat.log2 (d + 1))
  let q := n * 2 ^ k / d
  (2 * q + (if n * 2 ^ k % d = 0 then 0 else 1), -(k : Int) - 1)

/-! ### FP32 operations (R129) -/

/-- A value as FP32: word and saturation. -/
def toFp32 (r : Rnd) (x : Num) : Word × Bool :=
  match x with
  | .nan => (BitVec.ofNat 32 fp32.nanBits, false)
  | .inf n => (BitVec.ofNat 32 (fp32.infBits n), false)
  | .fin n m e => let (w, o) := fp32.round r n m e; (BitVec.ofNat 32 w, o)
def ofFp32 (w : Word) : Num := fp32.decode w.toNat

def Num.isNan : Num → Bool
  | .nan => true
  | _ => false
def Num.isInf : Num → Bool
  | .inf _ => true
  | _ => false
def Num.isFin : Num → Bool
  | .fin .. => true
  | _ => false
def Num.isZero : Num → Bool
  | .fin _ 0 _ => true
  | _ => false
def Num.neg : Num → Bool
  | .nan => false
  | .inf n => n
  | .fin n _ _ => n
/-- The opposite. -/
def Num.opp : Num → Num
  | .nan => .nan
  | .inf n => .inf (!n)
  | .fin n m e => .fin (!n) m e

/-- The signed mantissa of a finite value. -/
def sgn (neg : Bool) (m : Nat) : Int := if neg then -(m : Int) else m

/-- Exact product (R127). -/
def Num.mul : Num → Num → Num
  | .nan, _ => .nan
  | _, .nan => .nan
  | .inf a, y => if y.isZero then .nan else .inf (a != y.neg)
  | x, .inf b => if x.isZero then .nan else .inf (x.neg != b)
  | .fin a m e, .fin b n f => .fin (a != b) (m * n) (e + f)

/-- Exact sum of two finite values given as integers times powers of two. -/
def dyAdd (a b : Int × Int) : Int × Int :=
  if a.2 ≤ b.2 then (a.1 + b.1 * pow2 (b.2 - a.2), a.2) else (a.1 * pow2 (a.2 - b.2) + b.1, b.2)

/-- A value from an exact sum; `negZero` is the sign of an exact zero. -/
def ofDy (d : Int × Int) (negZero : Bool) : Num :=
  if d.1 = 0 then .fin negZero 0 0 else .fin (decide (d.1 < 0)) d.1.natAbs d.2

/-- Exact sum of a list (R128): NaN, infinity or exact value; an exact zero is −0 only when every term is −0. -/
def sumNum (l : List Num) : Num :=
  if l.any (·.isNan) then .nan
  else match l.any (fun x => x.isInf && x.neg), l.any (fun x => x.isInf && !x.neg) with
    | true, true => .nan
    | true, false => .inf true
    | false, true => .inf false
    | false, false =>
      let d := l.foldl (fun a x => match x with | .fin n m e => dyAdd a (sgn n m, e) | _ => a) ((0 : Int), (0 : Int))
      ofDy d (!l.isEmpty && l.all fun x => x.isZero && x.neg)

/-- FP32 addition, multiplication and fused multiply-add: word and saturation. -/
def fadd (r : Rnd) (a b : Word) : Word × Bool := toFp32 r (sumNum [ofFp32 a, ofFp32 b])
def fmul (a b : Word) : Word × Bool := toFp32 .rne ((ofFp32 a).mul (ofFp32 b))
def ffma (a b c : Word) : Word × Bool := toFp32 .rne (sumNum [(ofFp32 a).mul (ofFp32 b), ofFp32 c])
def fneg (a : Word) : Word := a ^^^ 0x80000000#32
def fsubR (r : Rnd) (a b : Word) : Word × Bool := fadd r a (if (ofFp32 b).isNan then b else fneg b)
def fsub (a b : Word) : Word × Bool := fsubR .rne a b

/-! ### Sums (R128-R130) -/

/-- A word with the saturations met so far. -/
abbrev WSat := Word × Bool

def addSat (r : Rnd) (a b : WSat) : WSat := let (w, o) := fadd r a.1 b.1; (w, a.2 || b.2 || o)

/-- One level of the pairwise tree (R129). -/
def treeLevel (r : Rnd) : List WSat → List WSat
  | a :: b :: rest => addSat r a b :: treeLevel r rest
  | l => l
/-- The tree, in as many levels as the fuel allows. -/
def tree (r : Rnd) : Nat → List WSat → WSat
  | 0, l => l.headD (0, false)
  | _ + 1, [] => (0, false)
  | _ + 1, [a] => a
  | n + 1, l => tree r n (treeLevel r l)

/-- A list cut into pieces of n by structural recursion on the list: the piece in hand has room for k more. -/
def pieces (n : Nat) : Nat → List α → List α → List (List α)
  | _, acc, [] => if acc.isEmpty then [] else [acc.reverse]
  | 0, acc, a :: l => acc.reverse :: pieces n (n - 1) [a] l
  | k + 1, acc, a :: l => pieces n k (a :: acc) l

/-- The block sums of a list of products (R128). -/
def blockSums (r : Rnd) (l : List Num) : List WSat := (pieces 1024 1024 [] l).map fun b => toFp32 r (sumNum b)

/-- What the addition t = s + g has lost, with the saturation of any of its operations (R130). -/
def roundOff (r : Rnd) (s t bp g : Word) : WSat :=
  let (ap, o1) := fsubR r t bp
  let (da, o2) := fsubR r s ap
  let (db, o3) := fsubR r g bp
  let (e, o4) := fadd r da db
  (e, o1 || o2 || o3 || o4)

/-- The compensated combination of segment sums (R130, bounded mode). -/
def bounded (r : Rnd) (g : List WSat) : WSat :=
  match g with
  | [] => (0, false)
  | g0 :: rest =>
    let (s, c, o) := rest.foldl (init := ((g0.1, 0#32, g0.2) : Word × Word × Bool)) fun st gj =>
      let (s, c, o) := st
      let (t, ot) := fadd r s gj.1
      let (bp, ob) := fsubR r t s
      let (e, oe) := if !(ofFp32 t).isFin || ot then (0#32, false) else roundOff r s t bp gj.1
      let (c', oc) := fadd r c e
      (t, c', o || gj.2 || ot || ob || oe || oc)
    let (w, ow) := fadd r s c
    (w, o || ow)

/-- The sequential combination (R130, fast mode). -/
def fast (r : Rnd) (g : List WSat) : WSat :=
  match g with
  | [] => (0, false)
  | g0 :: rest => rest.foldl (addSat r) g0

/-- The sum of a list of products by R128 to R130; `fastMode` is BOUND_MODE. -/
def sumR (r : Rnd) (fastMode : Bool) (l : List Num) : WSat :=
  let segs := (pieces 64 64 [] (blockSums r l)).map (tree r 64)
  match segs with
  | [g] => g
  | g => if fastMode then fast r g else bounded r g

/-! ### Elements -/

/-- Two's complement integer of w bits. -/
def intOf (w x : Nat) : Int := if x % 2 ^ w < 2 ^ (w - 1) then (x % 2 ^ w : Nat) else (x % 2 ^ w : Nat) - (2 ^ w : Int)

/-- An integer as a value. -/
def ofInt (i : Int) : Num := .fin (decide (i < 0)) i.natAbs 0

/-- The element of a format with its block scale byte (R124, R126); the scale is ignored where the format has none. -/
def element (code bits scale : Nat) : Num :=
  if fmtInt code then ofInt (intOf (fmtBits code) bits)
  else
    let v := (fmtOf code).decode bits
    if !fmtMx code then v
    else if scale = 0xFF then .nan
    else match v with
      | .fin n m e => .fin n m (e + scale - 127)
      | v => v

/-- The bits of element i of a packed row (R105): lower-indexed elements in lower bits. -/
def elemBits (code : Nat) (row : List Byte) (i : Nat) : Nat :=
  let w := fmtBits code
  let b := i * w
  bitsOf (ofLe (bytesAt row (b / 8) ((b % 8 + w + 7) / 8))) (b % 8 + w - 1) (b % 8)

/-- Bytes of a packed row of n elements. -/
def rowBytes (code n : Nat) : Nat := cdiv (n * fmtBits code) 8

/-- Pack elements of a format. -/
def packRow (code : Nat) (l : List Nat) : List Byte :=
  let w := fmtBits code
  if w % 8 = 0 then l.flatMap (leBytes (w / 8))
  else (pieces (if w = 6 then 4 else 2) (if w = 6 then 4 else 2) [] l).flatMap fun p =>
    leBytes (cdiv (p.length * w) 8) (p.zipIdx.foldl (fun a x => a + x.1 % 2 ^ w * 2 ^ (w * x.2)) 0)

/-- Nearest integer of a finite magnitude, ties to even (R140). -/
def roundInt (m : Nat) (e : Int) : Nat := if 0 ≤ e then m * pow2 e else roundShift .rne m (-e).toNat

/-- Saturation to w bits of two's complement: value, saturated. -/
def satInt (w : Nat) (i : Int) : Nat × Bool :=
  if i > 2 ^ (w - 1) - 1 then (2 ^ (w - 1) - 1, true)
  else if i < -(2 ^ (w - 1) : Int) then (2 ^ (w - 1), true)
  else (twos w i, false)

/-- An element written in a format without block scales: bits, OVF, NAN (R137, R138, R140). A NaN written as an integer is 0, no
NaN. DESIGN CHOICE (log 61): INT32 is rounded to nearest even and saturated to 32 bits, as INT8 is to 8; R140 names INT8 alone. -/
def convElem (code : Nat) (r : Rnd) (x : Num) : Nat × Bool × Bool :=
  if fmtInt code then
    let w := fmtBits code
    match x with
    | .nan => (0, false, false)
    | .inf n => (if n then 2 ^ (w - 1) else 2 ^ (w - 1) - 1, true, false)
    | .fin n m e => let (v, o) := satInt w (sgn n (roundInt m e)); (v, o, false)
  else
    let f := fmtOf code
    match x with
    | .nan => (f.nanBits, false, true)
    | .inf n => if f.ieee then (f.infBits n, false, false) else (f.maxBits n, true, false)
    | .fin n m e => let (v, o) := f.round r n m e; (v, o, false)

/-- emax of R139. -/
def mxEmax : Nat → Int
  | 5 => 8
  | 6 => 15
  | 7 => 4
  | 8 => 2
  | _ => 2

/-- floor(log2) of the largest finite magnitude, or none when all are zero or none is finite. -/
def maxLog (l : List Num) : Option Int :=
  l.foldl (fun b x => match x with
    | .fin _ m e => if m = 0 then b else
        let k := (Nat.log2 m : Int) + e
        some (match b with | none => k | some y => max k y)
    | _ => b) none

/-- One block of an MX output (R139): scale byte, elements, OVF, NAN; one rounding per element. -/
def convBlock (code : Nat) (l : List (Num × Rnd)) : Nat × List Nat × Bool × Bool :=
  let f := fmtOf code
  let x : Int := match maxLog (l.map (·.1)) with
    | none => 0
    | some k => max (-127) (min 127 (k - mxEmax code))
  let nan := l.any (·.1.isNan)
  if nan && code ≥ 7 then (0xFF, l.map fun _ => 0, false, true)
  else
    let es := l.map fun p => match p.1 with
      | .nan => (f.nanBits, false)
      | .inf n => if f.ieee then (f.infBits n, false) else (f.maxBits n, true)
      | .fin n m e => ((f.round p.2 n m (e - x)).1, false)
    ((x + 127).toNat, es.map (·.1), es.any (·.2), nan)

/-- A row written in a format: packed bytes, block scales, OVF, NAN. DESIGN CHOICE (log 61): an MX row that is no multiple of 32
long ends in a block of the elements left; R139 states blocks of 32. -/
def convRow (code : Nat) (l : List (Num × Rnd)) : List Byte × List Byte × Bool × Bool :=
  if fmtMx code then
    let bs := (pieces 32 32 [] l).map (convBlock code)
    (packRow code (bs.flatMap (·.2.1)), bs.map fun b => BitVec.ofNat 8 b.1, bs.any (·.2.2.1), bs.any (·.2.2.2))
  else
    let es := l.map fun p => convElem code p.2 p.1
    (packRow code (es.map (·.1)), [], es.any (·.2.1), es.any (·.2.2))

/-! ### Seed streams (R141, R142) -/

/-- The eight rotation amounts. -/
def seedRot : List Nat := [14, 16, 52, 57, 23, 40, 5, 37]

/-- One round of the generator. -/
def seedRound (k : List (BitVec 64)) (ab : BitVec 64 × BitVec 64) (i : Nat) : BitVec 64 × BitVec 64 :=
  let a := ab.1 + ab.2
  let b := ab.2.rotateLeft (seedRot.getD (i % 8) 0) ^^^ a
  if i % 4 = 3 then (a + k.getD ((i + 1) % 4) 0, b + (k.getD ((i + 2) % 4) 0 + BitVec.ofNat 64 (i + 1))) else (a, b)

/-- The eight 16-bit draws of one counter value. -/
def seedBlock (k : List (BitVec 64)) (ctr : Nat) : List Nat :=
  let (a, b) := (List.range 16).foldl (seedRound k)
    (BitVec.ofNat 64 ctr ^^^ k.getD 0 0, BitVec.ofNat 64 (ctr >>> 64) ^^^ k.getD 1 0)
  [a, b].flatMap fun x => [0, 1, 2, 3].map fun i => bitsOf x.toNat (16 * i + 15) (16 * i)

/-- Draw number i of a claimed range that begins at a counter value. -/
def drawAt (k : List (BitVec 64)) (ctr i : Nat) : Nat := (seedBlock k ((ctr + i / 8) % 2 ^ 128)).getD (i % 8) 0

/-- The rounding of element position i of a descriptor: by its claim, or to nearest. -/
def rndAt (seed : Option (Nat × List (BitVec 64))) (i : Nat) : Rnd :=
  match seed with
  | some (ctr, k) => .draw (drawAt k ctr i)
  | none => .rne

/-! ### Order (R147) -/

/-- −∞ < negative < −0 < +0 < positive < +∞: whether a comes strictly before b. -/
def numLt (a b : Num) : Bool :=
  match a, b with
  | .inf true, .inf true => false
  | .inf true, _ => true
  | _, .inf true => false
  | .inf false, _ => false
  | _, .inf false => true
  | .fin n m e, .fin n' m' e' =>
    match n, n' with
    | true, false => true
    | false, true => false
    | false, false => !magLe m' e' m e
    | true, true => !magLe m e m' e'
  | _, _ => false

/-- The winner of MAX or MIN over a row: its index; the lowest-indexed NaN if there is one. -/
def winner (isMax : Bool) (l : List Num) : Nat :=
  match l.findIdx? (·.isNan) with
  | some i => i
  | none =>
    (l.zipIdx.foldl (fun (b : Option (Num × Nat)) x => match b with
      | none => some x
      | some y => if (if isMax then numLt y.1 x.1 else numLt x.1 y.1) then some x else some y) none |>.map (·.2)).getD 0

end Sys2Proof.Machine
end

