-- ==== Sys2Proof/Machine/EngineOps.lean ====
section
/-! DEFINITION. Operations every engine family uses: an engine's accesses with their checks, write maps, semaphores, tags
(chapters 01, 03, 12, 15). -/

namespace Sys2Proof.Machine

/-! ### Addresses of a descriptor (R104) and the checks of check 10 -/

/-- An address field: a module physical address, or a place in a die's tile store. -/
inductive EAddr where
  | mpa (a : Nat)
  | store (die off : Nat)
deriving DecidableEq, Repr

/-- R104; none is BAD_DESC. -/
def eaddr (v : Nat) : Option EAddr :=
  match bitsOf v 63 62 with
  | 0 => if bitsOf v 61 52 = 0 then some (.mpa v) else none
  | 1 => if bitsOf v 61 30 = 0 && bitsOf v 27 0 < storeSize then some (.store (bitsOf v 29 28) (bitsOf v 27 0)) else none
  | _ => none

/-- A range lies in one window of a context. -/
def Ctx.inWindow (c : Ctx) (a n : Nat) : Bool := c.windows.any fun w => w.2.1 ≤ a && a + n ≤ w.2.1 + w.2.2

/-- A range of a die's tile store is held by a context, MiB by MiB. -/
def State.storeHeld (s : State) (c d off n : Nat) : Bool :=
  off + n ≤ storeSize && (List.range ((off + (n - 1)) / 2 ^ 20 - off / 2 ^ 20 + 1)).all fun i =>
    s.eng.storeOwner.lookup (192 * d + off / 2 ^ 20 + i) == some c

/-- STATUS and DETAIL of a code of R40 (R111). -/
def accStatus (e : AccErr) (unit : Nat) : Option (Nat × Nat) :=
  match e with
  | .none | .waiting => none
  | .unmapped => some (0x1, 0)
  | .peerUnreachable => some (0x2, unit)
  | .domainOff => some (0x3, unit)
  | .notPresent => some (0x4, 0)
  | .access => some (0x5, 10)
  | .husk => some (0x30, 3)

/-- What an engine of a die meets at the die of a local address in usable memory: the die off (R22, R184, R203), or what the path
to it answers; during a path change the access waits (R21). -/
def State.regionErr (s : State) (die off : Nat) : AccErr :=
  if !s.regionUp (dieOf off) then .domainOff else s.ringPath die (dieOf off)

/-- The mark of an access that waits for a path change, in the place of a STATUS: no record ever carries it. -/
def waitMark : Nat := 0x100

/-- Where an engine's access of a context goes; `wait` is a local place behind a path change, with its die. -/
inductive Target where
  | loc (a : Nat)
  | wait (a die : Nat)
  | remote (idx off : Nat)
  | bad (st det : Nat)
deriving DecidableEq, Repr

/-- What an access to a local place of a die becomes by what it meets there. -/
def Target.by (a d : Nat) : AccErr → Target
  | .none => .loc a
  | .waiting => .wait a d
  | e => match accStatus e d with
    | some (st, det) => .bad st det
    | none => .loc a

/-- Check 10 of R102, then the decode of R35 and the state of the target, for one line at address v in the form of R104. A line
beyond the end of a tile store, or of the address space, lies in no window and no tile store of the context. -/
def State.target (s : State) (c die v n : Nat) : Target :=
  match eaddr v with
  | none => .bad 0x5 10
  | some (.store d off) =>
    if !s.storeHeld c d off n then .bad 0x5 10
    else .by (usableTop + d * storeSize + off) d (if (s.die d).inReset then .domainOff else s.ringPath die d)
  | some (.mpa a) =>
    if !(s.ctx c).inWindow a n then .bad 0x5 10
    else match s.place a with
      | .err e => match accStatus e 0 with
        | some (st, det) => .bad st det
        | none => .bad 0x1 0
      | .remote idx off => .remote idx off
      | .loc off =>
        if off + n ≤ usableTop then .by off (dieOf off) (s.regionErr die off)
        else if off ≥ 0xF00000000000 then .bad 0x5 10 else .bad 0x1 0

/-- The pieces of at most one aligned 64-byte line that a range is accessed in (R110). -/
def linesOf (v n : Nat) : List (Nat × Nat) :=
  if n = 0 then []
  else (List.range ((v + n - 1) / 64 - v / 64 + 1)).map fun i =>
    let b := 64 * (v / 64 + i)
    let lo := max v b
    (lo, min (v + n) (b + 64) - lo)

/-- Pieces of at most 4,096 bytes that cross no 4 KiB boundary of the target address (R223). -/
def packetsOf (v n : Nat) : List (Nat × Nat) :=
  if n = 0 then []
  else (List.range ((v + n - 1) / 4096 - v / 4096 + 1)).map fun i =>
    let b := 4096 * (v / 4096 + i)
    let lo := max v b
    (lo, min (v + n) (b + 4096) - lo)

/-- A failure: STATUS, DETAIL, FAULT_ADDR. -/
abbrev Fail := Nat × Nat × Nat

/-- Data with, for each byte, whether it comes from a husk. -/
abbrev HBytes := List (Byte × Bool)

/-- What an engine reads: the bytes with their husk marks, or the first failing line (R110). A board-remote byte comes from
what its GETs have brought. -/
def State.engRead (s : State) (c die : Nat) (x : Started) (v n : Nat) : Except Fail HBytes :=
  (linesOf v n).foldlM (init := []) fun (acc : HBytes) (p : Nat × Nat) =>
    match s.target c die p.1 p.2 with
    | .bad st det => .error (st, det, p.1 / 64 * 64)
    | .wait _ d => .error (waitMark, d, p.1 / 64 * 64)
    | .loc a => .ok (acc ++ (s.lRead a p.2).zipIdx.map fun b => (b.1, s.lHusk (a + b.2)))
    | .remote idx off =>
      let k := idx * 2 ^ 48 + off
      .ok (acc ++ (List.range p.2).map fun i => (mget 0 x.remote (k + i), x.remoteHusks.contains ((k + i) / 32)))

/-- The same for a consumer (R198): a husk ends it with HUSK_CONSUMED and the lowest husk sector (R199). -/
def State.engUse (s : State) (c die : Nat) (x : Started) (operand v n : Nat) : Except Fail (List Byte) :=
  match s.engRead c die x v n with
  | .error e => .error e
  | .ok l => match l.findIdx? (·.2) with
    | some i => .error (0x30, operand, (v + i) / 32 * 32)
    | none => .ok (l.map (·.1))

/-- Local offset of a module physical address, if it is local usable memory. -/
def State.localOff (s : State) (a : Nat) : Option Nat :=
  match s.place a with
  | .loc off => if off < usableTop then some off else none
  | _ => none

/-! ### Write maps and taint (R389-R391) -/

def State.sv (s : State) (j : Nat) : SvEng := mget {} s.silent.engs j
def State.setSv (s : State) (j : Nat) (f : SvEng → SvEng) : State :=
  { s with silent := { s.silent with engs := mmod {} s.silent.engs j f } }

/-- 64 MiB regions of a range. -/
def regionsOf (off n : Nat) : List Nat :=
  if n = 0 then [] else (List.range ((off + n - 1) / 2 ^ 26 - off / 2 ^ 26 + 1)).map (· + off / 2 ^ 26)

/-- A write of engine j for a context: its write map, and the context's taint map while the engine is SUSPECT. The address
is local: usable memory or a tile store. -/
def State.noteWrite (s : State) (j c a n : Nat) : State :=
  if n = 0 then s
  else if a < usableTop then
    let rs := regionsOf a n
    let s := s.setSv j fun e => { e with regions := rs.foldl huskAdd e.regions, ctxs := huskAdd e.ctxs c }
    if (s.sv j).suspect then s.setCtx c fun x => { x with taint := rs.foldl huskAdd x.taint } else s
  else
    let d := BitVec.ofNat 4 (2 ^ ((a - usableTop) / storeSize))
    let s := s.setSv j fun e => { e with storeDies := e.storeDies ||| d, ctxs := huskAdd e.ctxs c }
    if (s.sv j).suspect then s.setCtx c fun x => { x with taintDies := x.taintDies ||| d } else s

/-- A board-remote or fabric write of engine j for a context. -/
def State.noteRemote (s : State) (j c id : Nat) : State :=
  let s := s.setSv j fun e =>
    { e with
      remoteCnt := satAdd 0xFFFFFFFF e.remoteCnt 1, remoteTo := some (e.remoteTo.getD id), ctxs := huskAdd e.ctxs c }
  if (s.sv j).suspect then
    s.setCtx c fun x =>
      { x with taintRemote := some (x.taintRemote.getD id), taintWrites := satAdd 0xFFFFFFFF x.taintWrites 1 }
  else s

/-! ### Memory left undefined (R175, R273, R398) -/

/-- One line of at most 64 bytes: its bytes are free values, and so is whether each of its sectors is a husk. -/
def State.undefLine (s : State) (j c a n : Nat) : State :=
  let (v, s) := s.draw (8 * n)
  let (h, s) := s.draw 2
  let bad := (sectors (s.lMem a).2 n).filter fun k => h.getLsbD (k % 2)
  (s.lWrite a (leBytes n v.toNat) bad).noteWrite j c a n

/-- What an engine may have written for a context in some ranges is undefined, where it could write at all. -/
def State.undefine (s : State) (j c : Nat) (ranges : List (Nat × Nat)) : State :=
  (ranges.flatMap fun r => linesOf r.1 r.2).foldl (fun s p =>
    match s.target c (engDie j) p.1 p.2 with
    | .loc a | .wait a _ => s.undefLine j c a p.2
    | _ => s) s

/-! ### Requests and writes of a descriptor -/

/-- Fields of a descriptor's header (R101). -/
def Started.dw (x : Started) (i : Nat) : Nat := x.d.getD i 0
def Started.opcode (x : Started) : Nat := bitsOf (x.dw 0) 7 0
def Started.cls (x : Started) : Nat := bitsOf (x.dw 0) 23 22
def Started.tag (x : Started) : Nat := bitsOf (x.dw 0) 35 24
def Started.epoch (x : Started) : Nat := bitsOf (x.dw 0) 51 36
def Started.flag (x : Started) (bit : Nat) : Bool := bitOf (x.dw 0) bit

/-- The slice ID a context's requests carry (R252); 0 for a context bound to none. -/
def State.sliceIdOf (s : State) (c : Nat) : BitVec 12 :=
  (((s.ctx c).slice.bind fun e => s.fab.slices.lookup e).map (·.id)).getD 0

/-- A fabric request of a started descriptor. -/
def State.descReq (s : State) (c q : Nat) (ix : Word) (r : FReq) (board : Bool) : State :=
  (s.setStarted c q ix fun x => { x with reqs := x.reqs + 1 }).issue r board

/-- A request of a descriptor with the fields every one carries. -/
def State.mkReq (s : State) (c q : Nat) (x : Started) (ptype : BitVec 4) (dst addr len : Nat) : FReq :=
  { ptype := ptype, owner := .desc c q x.index, cls := x.cls, dst := BitVec.ofNat 15 dst, slice := s.sliceIdOf c
    epoch := BitVec.ofNat 16 x.epoch, addr := addr, len := len, named := addr }

/-- A failure of a started descriptor. -/
def State.failDesc (s : State) (c q : Nat) (ix : Word) (f : Fail) : State :=
  s.setStarted c q ix (noteFail f.1 f.2.1 f.2.2)

/-- Sectors of a write that receive a husk byte. -/
def badSectors (a : Nat) (b : HBytes) : List Nat :=
  ((b.zipIdx.filter fun p => p.1.2).map fun p => (a + p.2) / 32).eraseDups

/-- The husk mask of bytes bound for an address (R222). -/
def maskOf (a : Nat) (b : HBytes) : BitVec 128 :=
  BitVec.ofNat 128 (ofBits ((b.zipIdx.filter fun p => p.1.2).map fun p => (a + p.2) / 32 - a / 32))

/-- An address on another module of the board. -/
def State.isRemote (s : State) (v : Nat) : Bool :=
  v / 2 ^ 62 == 0 && (match s.place v with | .remote _ _ => true | _ => false)

/-- An engine's write of one line. Local bytes are stored under R196; a board-remote line leaves as a PUT (R36), which reads its payload
from the local source at each sending where it has one (R223). -/
def State.writeLine (s : State) (c q : Nat) (x : Started) (j v : Nat) (b : HBytes) (src : Option Nat) : State × Option Fail :=
  match s.target c (engDie j) v b.length with
  | .bad st det => (s, some (st, det, if s.isRemote v then v else v / 64 * 64))
  | .wait _ d => (s, some (waitMark, d, v / 64 * 64))
  | .loc a =>
    let bad := badSectors (s.lMem a).2 b
    let bytes := b.map (·.1)
    let moved := s.lMoves a bytes bad
    let s := (s.lWrite a bytes bad).noteWrite j c a b.length
    (if moved then s.setStarted c q x.index fun x => { x with husk := true } else s, none)
  | .remote idx off =>
    if !s.boardRoute (s.ctx c).slice idx then (s, some (0x2, s.peerAt idx, v))
    else
      let id := s.peerAt idx
      let r := match src with
        | some a => { s.mkReq c q x 1 id off b.length with src := some a, named := v }
        | none => { s.mkReq c q x 1 id off b.length with bytes := b.map (·.1), mask := maskOf off b, named := v }
      ((s.noteRemote j c id).descReq c q x.index r true, none)

/-- How a range is accessed: board-remote in packets, else line by line (R110, R223). -/
def State.piecesOf (s : State) (v n : Nat) : List (Nat × Nat) := if s.isRemote v then packetsOf v n else linesOf v n

/-- An engine's write: piece by piece until one fails; what was written before it stays (R102). `src` is the local place the bytes
are copied from, if they are. -/
def State.engCopy (s : State) (c q : Nat) (x : Started) (j v : Nat) (b : HBytes) (src : Option Nat) : State × Option Fail :=
  ((s.piecesOf v b.length).foldl (init := ((s, none), b)) fun (st : (State × Option Fail) × HBytes) (p : Nat × Nat) =>
    match st.1.2 with
    | some _ => st
    | none => (st.1.1.writeLine c q x j p.1 (st.2.take p.2) (src.map (· + (p.1 - v))), st.2.drop p.2)).1

/-- The same for bytes the engine has made itself. -/
def State.engWrite (s : State) (c q : Nat) (x : Started) (j v : Nat) (b : HBytes) : State × Option Fail := s.engCopy c q x j v b none

/-- Plain bytes. -/
def plain (b : List Byte) : HBytes := b.map fun x => (x, false)

/-! ### What a context holds (R87) -/

/-- A context holds a semaphore; a request tag; a seed stream. -/
def State.holdsSem (s : State) (c k : Nat) : Bool := s.eng.semOwner.lookup (k / 16) == some c
def State.holdsTag (s : State) (c t : Nat) : Bool := s.eng.tagOwner.lookup (t / 16) == some c
def State.holdsStream (s : State) (c k : Nat) : Bool := s.eng.streamOwner.lookup k == some c

/-! ### Request tags (R112, R457) -/

def State.tag (s : State) (t : Nat) : Tag := mget {} s.toll.tags t
def State.setTag (s : State) (t : Nat) (f : Tag → Tag) : State :=
  { s with toll := { s.toll with tags := mmod {} s.toll.tags t f } }
/-- The TOLL stamp word of the start of the present interval of 10,000 ns (R452, R459). -/
def State.intervalStamp (s : State) : BitVec 64 := stampWord (s.tollNs / 10000 * 10000) false (s.time.lock != .locked)
/-- A descriptor that carries a tag starts on a die: the tag opens at its first one, and the die has a part of it. -/
def State.tagStart (s : State) (c t die : Nat) : State :=
  let now := s.intervalStamp
  let bit := BitVec.ofNat 4 (2 ^ die)
  s.setTag t fun g =>
    if g.isOpen then { g with running := g.running + 1, dies := g.dies ||| bit }
    else { isOpen := true, ctx := c, openToll := now, running := 1, dies := bit }
/-- It completes, with a status; TAG_CLOSE closes the tag. -/
def State.tagDone (s : State) (t die : Nat) (ok close : Bool) : State :=
  let hold := (s.dt die).holdover
  s.setTag t fun g =>
    let g := { g with
      descs := g.descs + 1, running := g.running - 1, failed := g.failed || !ok, holdover := g.holdover || hold }
    if close && !g.closing then { g with closing := true, cause := 1 } else g

/-! ### Transaction entries of local accesses (R122, R123) -/

/-- A started descriptor's next access of up to 64 bytes gets a transaction entry. DESIGN CHOICE (log 61): a command's local accesses
are made one after another, so that one entry serves them all. -/
def State.roomFor (s : State) (c q : Nat) (ix : Word) : Bool := s.txRoom (.desc c q ix)
/-- That entry in HIGH_WATER. -/
def State.engTouch (s : State) (j : Nat) : State := s.txTouch (engDie j) 1

/-! ### Accesses that wait for a path change (R21) -/

/-- Some access of a started descriptor has met a path change. -/
def State.waits (s : State) : Bool := s.eng.queues.any fun e => e.2.started.any fun x => x.fail.any (·.1 == waitMark)

/-- What a command comes to whose accesses would wait for a path change: nothing until the change is over (R21). -/
def State.orWait (s t : State) : Host.Outcome State Fault Refusal :=
  .next (if s.ring.change.any Option.isSome && t.waits then s else t)

end Sys2Proof.Machine
end

