-- ==== Sys2Proof/Machine/Abort.lean ====
section
/-! DEFINITION. Convoys and their aborts (chapter 08): the table, the plan, CONVOY_CTRL packets, the end of an entry. -/

namespace Sys2Proof.Machine

/-! ### The table -/

def State.convoy? (s : State) (k : ConvoyKey) : Option Convoy := s.fab.convoys.find? (·.key == k)
def State.setConvoy (s : State) (k : ConvoyKey) (f : Convoy → Convoy) : State :=
  { s with fab := { s.fab with convoys := modFirst (·.key == k) f s.fab.convoys } }

/-- What a member reads of its descriptor and plan (R257, R259, R275). -/
structure Coll where
  car : Bool
  kind : Nat
  op : Nat
  fmt : Nat
  barrier : Nat
  barEn : Bool
  src : Nat
  dst : Nat
  count : Nat
  noContrib : Bool
  wide : Bool
  aux : Nat
  rank : Nat
  members : Nat
  ring : Bool
  up : Option Nat
  next : Nat
  prev : Nat
  kids : List Nat

/-- The fields of a COLLECTIVE or CARAVAN with its plan. -/
def collOf (x : Started) (plan : List Nat) : Coll :=
  let p0 := plan.getD 0 0
  let car := x.opcode == 0x37
  let d10 := if car then 0 else x.dw 10
  let d14 := x.dw 14
  { car := car, kind := bitsOf d10 3 0, op := bitsOf d10 7 4, fmt := bitsOf d10 11 8, barrier := bitsOf d10 21 12
    barEn := bitOf d10 22, src := if car then x.dw 4 else x.dw 12, dst := if car then x.dw 5 else x.dw 13
    count := if car then bitsOf (x.dw 6) 39 0 else bitsOf d14 39 0, noContrib := !car && bitOf d14 40
    wide := !car && bitOf d14 41, aux := if car then x.dw 12 else x.dw 15, rank := bitsOf p0 15 0
    members := bitsOf p0 31 16, ring := bitOf p0 32, up := if bitsOf p0 36 33 = 15 then none else some (bitsOf p0 36 33)
    next := bitsOf p0 40 37, prev := bitsOf p0 44 41, kids := setBits 13 (bitsOf p0 60 48) }

/-- PLAN_ADDR. -/
def Started.planAddr (x : Started) : Nat := x.dw 11

/-- Ports of the plan: parent, children, ring (R272). -/
def Coll.edges (p : Coll) : List Nat :=
  (p.up.toList ++ p.kids ++ (if p.ring then [p.next, p.prev] else [])).eraseDups

/-- A reduction (KIND 1, 2); it carries ranks (max, min). -/
def Coll.reduces (p : Coll) : Bool := !p.car && (p.kind == 1 || p.kind == 2)
def Coll.ranked (p : Coll) : Bool := p.reduces && p.op != 0
/-- Bytes of an element at rest; of a partial's value on the way (R258, R264). -/
def Coll.ew (p : Coll) : Nat := if p.reduces then fmtBits p.fmt / 8 else 1
def Coll.vw (p : Coll) : Nat := if p.reduces && p.wide then 4 else p.ew
/-- Ranges of DST and AUX a member writes. -/
def Coll.dests (p : Coll) : List (Nat × Nat) :=
  if p.car then [(p.dst, p.count)]
  else
    (p.dst, (if p.kind = 3 || p.kind = 5 then p.members * p.count else p.count) * p.ew) ::
      (if p.aux = 0 then [] else (p.aux, 8) :: (if p.ranked then [(p.aux + 64, 4 * p.count)] else []))

/-- Plan neighbours of an entry, by port; none while no plan is known. -/
def Convoy.edges (c : Convoy) : List Nat :=
  if c.plan.isEmpty then [] else (collOf { index := 0, d := [], order := 0, at_ := 0 } c.plan).edges

/-! ### Packets of a convoy -/

/-- Epoch a is newer than b (R113). -/
def newerEpoch (a b : BitVec 16) : Bool := let d := (a - b).toNat; 1 ≤ d && d ≤ 32767

/-- Neighbours that have given an identity. -/
def State.known (s : State) (ports : List Nat) : List Nat := ports.filter fun p => p < 13 && (s.port p).serial != 0

/-- A CONVOY_CTRL packet to a module that is the neighbour on a port (R272): routed under R237, over a member circuit in one hop
like any plan edge (R280). -/
def State.sendCtrl (s : State) (port : Nat) (dst : BitVec 15) (type outcome : Nat) (m : AbortMsg) : State :=
  let pay := leBytes 1 type ++ leBytes 1 m.cause.toNat ++ leBytes 2 m.key.convoy.toNat ++ leBytes 2 m.key.slice.toNat ++
    leBytes 2 m.key.epoch.toNat ++ leBytes 2 m.origin.toNat ++ leBytes 1 outcome ++ List.replicate 5 0 ++
    leBytes 8 m.originPod.toNat ++ List.replicate 8 0
  let k : Packet := { blankPkt with ptype := 8, dst := dst, src := BitVec.ofNat 15 s.ownId, len := 32, payload := pay }
  if 9 ≤ port && s.isUp port && (s.port port).coord == dst then s.queuePkt port 7 k else s.emit7 k

/-! ### Aborts (R271-R273) -/

/-- The descriptor of an entry. -/
def State.cvDesc (s : State) (c : Convoy) : Option Started := c.owner.bind fun o => s.started? o.1 o.2.1 o.2.2
/-- SOURCE of a convoy's events: the engine of its descriptor. -/
def State.cvSource (s : State) (c : Convoy) : Nat :=
  match c.owner.bind fun o => s.queue? o.1 o.2.1 with
  | some q => srcDieUnit (engDie q.eng) (engUnit q.eng)
  | none => srcDieUnit 0 64

/-- CONVOY_ABORT, once per convoy (R273, R281). -/
def State.logConvoy (s : State) (c : Convoy) (m : AbortMsg) (outcome : Nat) : State :=
  if c.logged then s
  else
    let us := (s.podNs - m.originPod.toNat / 4 * 4) / 1000
    (s.setConvoy m.key fun c => { c with logged := true }).log 0x0303 4 (s.cvSource c)
      [m.key.slice.toNat, m.key.convoy.toNat, m.key.epoch.toNat, m.cause.toNat, m.origin.toNat, outcome,
       (c.owner.map (·.1)).getD 0, us]

/-- The message an aborted entry sends. -/
def Convoy.msg (c : Convoy) : AbortMsg :=
  { key := c.key, cause := BitVec.ofNat 4 c.cause, origin := BitVec.ofNat 15 c.origin, originPod := c.originPod }

/-- Send ABORT to plan neighbours that have given an identity, to be repeated until acknowledged; `except` is the module it came
from. -/
def State.flood (s : State) (k : ConvoyKey) (ports : List Nat) (except : Option (BitVec 15)) : State :=
  match s.convoy? k with
  | none => s
  | some c =>
    let ports := (s.known ports).filter fun p => some (s.port p).coord != except
    let s := s.setConvoy k fun c => { c with aborts := c.aborts ++ ports.map fun p => (p, 1, s.time.mono) }
    ports.foldl (fun s p => s.sendCtrl p (s.port p).coord 1 0 c.msg) s

/-- An ACTIVE entry becomes ABORTED: its work is dropped, what it wrote is undefined, its descriptor ends with a status, its
neighbours are told. -/
def State.endConvoy (s : State) (c : Convoy) (m : AbortMsg) (f : Fail) (outcome : Nat) (except : Option (BitVec 15)) :
    State :=
  let s := s.setConvoy c.key fun c =>
    { c with
      st := .aborted, rx := [], tx := [], cause := m.cause.toNat, origin := m.origin.toNat, originPod := m.originPod
      endAt := s.time.mono }
  let s := match c.owner with
    | some (x, q, ix) =>
      let s := match s.started? x q ix, s.queue? x q with
        | some d, some u => if c.plan.isEmpty then s else s.undefine u.eng x (collOf d c.plan).dests
        | _, _ => s
      s.setStarted x q ix fun d => { d with fail := d.fail <|> some f, work := true }
    | none => s
  (s.flood c.key c.edges except).logConvoy c m outcome

/-- CONVOY_ABORTED with its DETAIL (R271). -/
def abortedFail (m : AbortMsg) : Fail := (0x20, m.cause.toNat + 16 * m.origin.toNat, 0)

/-- The message of an abort that starts here. -/
def State.ownAbort (s : State) (k : ConvoyKey) (cause : Nat) : AbortMsg :=
  { key := k, cause := BitVec.ofNat 4 cause, origin := BitVec.ofNat 15 s.ownId, originPod := s.podStamp }

/-- This member starts an abort (R271); its descriptor ends with its own status, or CONVOY_ABORTED. -/
def State.startAbort (s : State) (k : ConvoyKey) (cause : Nat) (own : Option Fail) : State :=
  match s.convoy? k with
  | none => s
  | some c =>
    if c.st != .active then s
    else
      let m := s.ownAbort k cause
      let s := { s with fab := { s.fab with originated := satAdd 0xFFFF s.fab.originated 1 } }
      s.endConvoy c m (own.getD (abortedFail m)) 4 none

/-- A context fault or a fence ends the context's convoys that have not committed, with cause CONTEXT (R271). DESIGN CHOICE (log 61):
their descriptors complete with CONVOY_ABORTED; R271 leaves the status to the chapter on resets, which names none. -/
def State.abortConvoysOf (s : State) (c : Nat) : State :=
  (s.fab.convoys.filter fun v => v.st == .active && (v.owner.map (·.1)) == some c).foldl (fun s v => s.startAbort v.key 7 none) s

end Sys2Proof.Machine
end

