-- ==== Sys2Proof/Machine/Commit.lean ====
section
/-! DEFINITION. A context fault, a fence and the commit of a descriptor (chapters 03 and 13). -/

namespace Sys2Proof.Machine

/-! ### Context fault (R93, R404, R405) -/

/-- Every queue of a context changed. -/
def State.mapQueues (s : State) (c : Nat) (f : Queue → Queue) : State :=
  { s with eng := { s.eng with queues := mmapv s.eng.queues fun k x => if k / 64 = c then f x else x } }

/-- A stash pass ends (R165, R175) by a context fault or reset: nothing more is armed, retired or matched; the state is set when
the context reset completes. -/
def Stash.endPass (t : Stash) : Stash := { t with pending := false, ended := true }

/-- The words of a fault record (R405). -/
structure FaultEv where
  kind : Nat
  status : Nat
  queue : Nat
  engine : Nat
  index : Word
  detail : Nat
  addr : Nat
  d : List Nat
  responder : Nat := 0
  newer : Nat := 0

/-- Write a context's fault record and log CONTEXT_FAULT (R404). The stamps are those of the engine's die. -/
def State.faultRecord (s : State) (c : Nat) (e : FaultEv) : State :=
  let x := s.ctx c
  let old := (x.faultRec.getD 0 0).toNat
  let further := if bitsOf old 11 8 = 0 then 0 else satAdd 0xFFFF (bitsOf old 31 16) 1
  let dw := fun i => e.d.getD i 0
  let die := engDie e.engine
  let cv := bitOf (dw 0) 58
  let ws : List Nat :=
    [c + e.kind * 2 ^ 8 + further * 2 ^ 16, e.status + e.queue * 2 ^ 16 + e.engine * 2 ^ 24, e.index.toNat, e.detail] ++
    lohi e.addr ++ lohi (s.diePodStamp die).toNat ++ lohi (s.dt die).step.toNat ++
    [bitsOf (dw 0) 35 24 + x.epoch.toNat * 2 ^ 16, bitsOf (dw 1) 15 0 + b2n cv * 2 ^ 16,
     e.responder + e.newer * 2 ^ 16, 0] ++ lohi (dw 3)
  let s := s.setCtx c fun x => { x with faultRec := ws.map (BitVec.ofNat 32) }
  s.log 0x0201 4 (srcDieUnit die 64) [c, e.kind, e.status, e.queue, e.index.toNat, e.engine, e.detail, further]

/-- A descriptor's context fault (R93, R271): the record, then FAULTED for the context and its queues, and the end of its other
convoys. A context that is RESETTING keeps its state (R417). -/
def State.contextFault (s : State) (c : Nat) (e : FaultEv) : State :=
  let s := s.faultRecord c e
  match (s.ctx c).st with
  | .active | .faulted =>
    ((s.setCtx c fun x => { x with st := .faulted, stash := x.stash.endPass }).mapQueues c fun q =>
      if q.st = .unbound || q.st = .resetting then q else { q with st := .faulted }).abortConvoysOf c
  | _ => s

/-- A context fences itself (R230, R271): the record of kind SELF_FENCE, then FENCED for it and its queues, and the end of its
convoys. -/
def State.contextFence (s : State) (c : Nat) (e : FaultEv) : State :=
  let s := s.faultRecord c e
  match (s.ctx c).st with
  | .active | .faulted | .fenced =>
    ((s.setCtx c fun x => { x with st := .fenced }).mapQueues c fun q =>
      if q.st = .unbound || q.st = .resetting then q else { q with st := .fenced }).abortConvoysOf c
  | _ => s

/-- A status that R111 marks as a context fault. -/
def isFaultStatus (st : Nat) : Bool := 0x30 ≤ st && st ≤ 0x33

/-! ### The completion record and the commit (R100, R110) -/

/-- The completion record. -/
def State.recBytes (s : State) (c q : Nat) (x : Started) (die : Nat) : List Byte :=
  let (st, det, addr) := x.fail.getD (0, 0, 0)
  let flags := b2n x.ovf * 2 ^ 16 + b2n x.nan * 2 ^ 17 + b2n x.bound * 2 ^ 18 + b2n x.unord * 2 ^ 19 + b2n x.husk * 2 ^ 20 +
    b2n x.checked * 2 ^ 21
  [x.index.toNat + c * 2 ^ 32 + q * 2 ^ 40 + x.tag * 2 ^ 48, st + flags + det * 2 ^ 32,
   (if st = 0 then x.result.toNat else 0), (if st = 0 then 0 else addr), x.dw 3, (s.diePodStamp die).toNat,
   (s.dt die).step.toNat, 0].flatMap (leBytes 8)

/-- Write a completion record: in local usable memory, husks cleared (R198). While its memory is off in a reset the record
waits (R102, R412); in a FAILED region it is not written. -/
def State.putRecord (s : State) (c q : Nat) (j slot : Nat) (b : List Byte) : State :=
  let d := dieOf slot
  if s.regionFailed d then s
  else if s.regionUp d then (s.setMem fun m => m.writeClear slot b).noteWrite j c slot 64
  else s.setQueue c q fun x => { x with owedRecs := x.owedRecs ++ [(slot, b)] }

/-- Whether a queue has something left to do: IDLE or ACTIVE. -/
def Queue.rest (x : Queue) : QState := if x.started.isEmpty && x.head = x.tail then .idle else .active

/-- A time receiver with a change. -/
def State.setDt (s : State) (d : Nat) (f : DieTime → DieTime) : State := { s with dieTime := lmod s.dieTime d f }

/-- Armed keys of one type that a jump from `old` to `new` passes over are disarmed, and count as missed when the active CTD looks at
the entry again (R81). A key that the old moment had reached, or that the new one reaches, is still fired. -/
def State.disarm (s : State) (steps : Bool) (old new : Nat) : State :=
  let off := fun (k : Option Nat) => k.filter fun k => !(old < k && k < new)
  { s with sched := mmapv s.sched fun _ e => if e.stepKey == steps then { e with armed := e.armed.map off } else e }

/-- STEP advances (R51): step number + 1, phase 0; keys in between are jumped past (R81). -/
def State.stepAdvance (s : State) : State :=
  let old := s.time.step
  let new := stepWord (stepNum old + 1) 0
  ({ s with time := { s.time with step := new } }).disarm true old.toNat new.toNat

/-- A completion marked to advance STEP (R51, R56, R294): in a switchover gap the die queues the advance in its FIFO, as the entry of
code 0; in holdover otherwise it latches it for the first frame; else the active CTD applies it. -/
def State.stepFrom (s : State) (die : Nat) : State :=
  if !s.ctd.lease.gates then s.withLog (s.logPart.toFifo die 0 0 0 [])
  else if (s.dt die).holdover then s.setDt die fun t => { t with latched := t.latched + 1 }
  else s.stepAdvance

/-- A queue that is being deleted goes once nothing of it is started (R332). -/
def State.reapQueue (s : State) (c q : Nat) : State :=
  match s.queue? c q with
  | some u =>
    if u.deleting.isEmpty || !u.started.isEmpty then s
    else ({ s with eng := { s.eng with queues := mdel s.eng.queues (64 * c + q) } }).finishAll u.deleting 0 0 []
  | none => s

/-- The completion record of the oldest started descriptor can be issued (R100): its die takes stamps (R59), and its memory answers
or is FAILED. The record of a descriptor whose fetch failed is owed meanwhile (R102). -/
def State.recordReady (s : State) (u : Queue) (x : Started) : Bool :=
  let d := dieOf (u.comp + 64 * (x.index.toNat % 2 ^ u.s))
  (s.dt (engDie u.eng)).seen && (x.d.isEmpty || s.regionUp d || s.regionFailed d)

/-- The commit of the oldest started descriptor of a queue (R100, R93, R99, R110, R457): record, Q_DONE, then on OK the
signal and STEP_ADV, the interrupt, and the tag. DESIGN CHOICE (log 61): Q_HEARTBEAT advances on a completion while the queue's next
descriptor waits on its semaphore; the register map counts each completion, R120 says it does not advance while the queue waits. -/
def State.commit (s : State) (c q : Nat) : State :=
  match s.queue? c q with
  | none => s
  | some qu =>
    match qu.started with
    | [] => s
    | x :: rest =>
      let j := qu.eng
      let die := engDie j
      let (st, det, addr) := x.fail.getD (0, 0, 0)
      let ok := st == 0
      let s := s.putRecord c q j (qu.comp + 64 * (x.index.toNat % 2 ^ qu.s)) (s.recBytes c q x die)
      let s := s.setQueue c q fun y =>
        let y := { y with
          started := rest, done := x.index + 1, beats := y.beats + 1, beatAt := s.time.mono, stalled := false
          lastErr := if ok then y.lastErr else BitVec.ofNat 16 st }
        match y.st with
        | .idle | .active | .waitSem =>
          if !ok && !isFaultStatus st then { y with st := .stopped } else if y.st = .waitSem then y else { y with st := y.rest }
        | _ => y
      let s := s.countEv die (if j < 64 then 0x014 else 0x032) (if j < 64 then j % 16 else (j - 80) % 8) (some c)
        (if 64 ≤ j && j < 80 then 0 else 1)
      let s := if st = 0x30 then s.setMemDie die fun m => { m with consumed := satAdd 0xFFFFFFFF m.consumed 1 } else s
      let s := if isFaultStatus st then
          s.contextFault c { kind := 1, status := st, queue := q, engine := j, index := x.index, detail := det, addr := addr, d := x.d }
        else s
      let s := if ok && x.flag 57 then
          s.semAdd (bitsOf (x.dw 1) 45 32) (BitVec.ofNat 32 (bitsOf (x.dw 2) 63 32)) else s
      let s := if ok && x.flag 54 then s.stepFrom die else s
      let s := if x.flag 53 then s.irqWrite qu.irqAddr qu.irqData else s
      (if x.tagged then s.tagDone x.tag die ok (x.flag 55) else s).reapQueue c q

end Sys2Proof.Machine
end

