-- ==== Sys2Proof/Machine/Matrix.lean ====
section
/-! DEFINITION. The matrix engine: operands, tiles, ABFT, the checker and the arbiter (chapters 03, 04, 12). -/

namespace Sys2Proof.Machine

/-! ### The body (R106) -/

/-- The fields of a MATMUL or MATMUL_MASKED body. -/
structure MM where
  a : Nat
  b : Nat
  c : Nat
  as_ : Nat
  bs : Nat
  cs : Nat
  astr : Nat
  bstr : Nat
  cstr : Nat
  m : Nat
  n : Nat
  k : Nat
  af : Nat
  bf : Nat
  cf : Nat
  ta : Bool
  tb : Bool
  tile : Nat
  init : Bool
  write : Bool
  fast : Bool
  round : Nat
  stream : Nat
  maskAddr : Nat
  maskKind : Nat

def mmOf (d : List Nat) : MM :=
  let w := fun i => d.getD i 0
  { a := w 4, b := w 5, c := w 6, as_ := w 7, bs := w 8, cs := w 12
    astr := bitsOf (w 9) 31 0, bstr := bitsOf (w 9) 63 32, cstr := bitsOf (w 10) 31 0
    m := bitsOf (w 10) 47 32, n := bitsOf (w 10) 63 48, k := bitsOf (w 11) 23 0
    af := bitsOf (w 11) 27 24, bf := bitsOf (w 11) 31 28, cf := bitsOf (w 11) 35 32
    ta := bitOf (w 11) 36, tb := bitOf (w 11) 37, tile := bitsOf (w 11) 42 38
    init := bitOf (w 11) 43, write := bitOf (w 11) 44, fast := bitOf (w 11) 45
    round := bitsOf (w 11) 47 46, stream := bitsOf (w 11) 57 48, maskAddr := w 13, maskKind := bitsOf (w 14) 1 0 }

/-- Engines: one with its registers. -/
def State.engine (s : State) (j : Nat) : EngSt := mget {} s.eng.engs j
def State.setEng (s : State) (j : Nat) (f : EngSt → EngSt) : State :=
  { s with eng := { s.eng with engs := mmod {} s.eng.engs j f } }

/-- Columns of a tile of an engine (R117). -/
def State.tileW (s : State) (j : Nat) : Nat := if (s.engine j).twin then 64 else 32
/-- Grid columns and grid tiles (R106). -/
def MM.cols (p : MM) (w : Nat) : Nat := cdiv p.n w
def MM.tiles (p : MM) (w : Nat) : Nat := cdiv p.m 32 * p.cols w

/-- Output element (m, n) is masked (R159). -/
def maskedAt (mask : Option (Bool × List (List Bool))) (m n : Nat) : Bool :=
  match mask with
  | none => false
  | some (false, t) => (t.getD 0 []).getD m false
  | some (true, t) => (t.getD (m / 32) []).getD (n / 32) false

/-- Rows and columns, as output coordinates, of a grid tile that are computed (R162, R368): they form a product. -/
def tileRows (p : MM) (w : Nat) (mask : Option (Bool × List (List Bool))) (g : Nat) : List Nat × List Nat :=
  let i := g / p.cols w
  let j := g % p.cols w
  let ms := (List.range 32).map (· + 32 * i) |>.filter (· < p.m)
  let ns := (List.range w).map (· + w * j) |>.filter (· < p.n)
  match mask with
  | some (true, _) =>
    let ns := ns.filter fun n => !maskedAt mask (32 * i) n
    if ns.isEmpty then ([], []) else (ms, ns)
  | _ =>
    let ms := ms.filter fun m => !maskedAt mask m 0
    if ms.isEmpty then ([], []) else (ms, ns)

/-! ### Operands (R107, R116) -/

/-- The elements of one operand vector along K: row m of A or column n of B. `trans` tells that stored rows run along K's
other axis; `idx` is m or n. -/
def State.mmVector (s : State) (c die : Nat) (x : Started) (operand base stride fmt : Nat) (alongK : Bool) (scale idx k : Nat) :
    Except Fail (List Num) := do
  let bits ← if alongK then do
      let row ← s.engUse c die x operand (base + idx * stride) (rowBytes fmt k)
      pure ((List.range k).map fun i => elemBits fmt row i)
    else (List.range k).mapM fun i => do
      let o := idx * fmtBits fmt
      let by_ ← s.engUse c die x operand (base + i * stride + o / 8) ((o % 8 + fmtBits fmt + 7) / 8)
      pure (bitsOf (ofLe by_) (o % 8 + fmtBits fmt - 1) (o % 8))
  let sc ← if fmtMx fmt then s.engUse c die x operand (scale + idx * cdiv k 32) (cdiv k 32) else pure []
  pure (bits.zipIdx.map fun b => element fmt b.1 (sc.getD (b.2 / 32) 127).toNat)

/-- The rows of A and the columns of B that a grid tile needs, first A then B. -/
def State.mmOperands (s : State) (c die : Nat) (x : Started) (p : MM) (rows cols : List Nat) :
    Except Fail (List (List Num) × List (List Num)) := do
  let as_ ← rows.mapM fun m => s.mmVector c die x 1 p.a p.astr p.af (!p.ta) p.as_ m p.k
  let bs ← cols.mapM fun n => s.mmVector c die x 2 p.b p.bstr p.bf p.tb p.bs n p.k
  pure (as_, bs)

/-! ### The accumulation result r (R128-R132) -/

/-- An integer value of an exact sum of integers. -/
def Num.toInt : Num → Int
  | .fin n m e => sgn n (m * pow2 e)
  | _ => 0

/-- r of a tile, row by row: FP32 words as numbers, or the exact integer sums; and whether a rounding saturated. -/
def tileR (p : MM) (as_ bs : List (List Num)) : List Int × Bool :=
  let cells := as_.flatMap fun a => bs.map fun b =>
    let prods := List.zipWith Num.mul a b
    if fmtInt p.af then ((sumNum prods).toInt, false)
    else let (w, o) := sumR .rne p.fast prods; ((w.toNat : Int), o)
  (cells.map (·.1), cells.any (·.2))

/-- Physical errors: the words of r at (row, column) of the tile differ by a mask (log 8). -/
def applyErrs (rows cols : List Nat) (w : Nat) (int : Bool) (errs : List WordFlip) (r : List Int) : List Int :=
  r.zipIdx.map fun v =>
    let m := rows.getD (v.2 / cols.length) 0 % 32
    let n := cols.getD (v.2 % cols.length) 0 % w
    errs.foldl (fun v e =>
      if e.row = m && e.col = n then
        let a := BitVec.ofInt 32 v
        let b := a ^^^ e.mask
        if int then v - (a.toInt) + b.toInt else (b.toNat : Int)
      else v) v.1

/-! ### ABFT (R367-R369) -/

/-- The absolute value. -/
def Num.abs : Num → Num
  | .nan => .nan
  | .inf _ => .inf false
  | .fin _ m e => .fin false m e

/-- ceil(log2 k). -/
def ceilLog2 (k : Nat) : Nat := if 2 ^ Nat.log2 k < k then Nat.log2 k + 1 else Nat.log2 k

/-- f of R369. -/
def abftF (k : Nat) (fastMode : Bool) : Nat :=
  if k ≤ 65536 then 2 * ceilLog2 k + 6
  else if fastMode then 2 * ceilLog2 k + 2 * cdiv k 65536 + 6 else 2 * ceilLog2 k + 8

/-- The dyadic of a finite value. -/
def Num.dy : Num → Int × Int
  | .fin n m e => (sgn n m, e)
  | _ => (0, 0)

/-- Columns of a list of equally long lists. -/
def transpose (n : Nat) (l : List (List Num)) : List (List Num) := (List.range n).map fun i => l.map fun r => r.getD i (.fin false 0 0)

/-- One check line: some true fails, some false passes, none is not checked. `vec` is the sum vector of the other operand, `mag` its
magnitudes, `line` and `r` the operand and the results of the line; `sat` tells that a rounding of r saturated. -/
def abftLine (p : MM) (vec mag line : List Num) (r : List Int) (sat : Bool) : Option Bool :=
  if fmtInt p.af then
    some (decide (r.foldl (· + ·) 0 ≠ (sumNum (List.zipWith Num.mul vec line)).toInt))
  else
    let rho := sumR .rne p.fast (List.zipWith Num.mul vec line)
    let om := sumR .up p.fast (List.zipWith Num.mul mag (line.map Num.abs))
    let rs := r.map fun v => ofFp32 (BitVec.ofInt 32 v)
    if sat || rho.2 || om.2 || rs.any (fun x => !x.isFin) || !(ofFp32 rho.1).isFin || !(ofFp32 om.1).isFin then none
    else
      let sigma := rs.foldl (fun a x => dyAdd a x.dy) ((0 : Int), (0 : Int))
      let dr := (ofFp32 rho.1).dy
      let diff := dyAdd sigma (-dr.1, dr.2)
      let dom := (ofFp32 om.1).dy
      let tau := dyAdd (dom.1 * abftF p.k p.fast, dom.2 - 24) (1, -140)
      let d := dyAdd tau (-(diff.1.natAbs : Int), diff.2)
      some (decide (d.1 < 0))

/-- The outcome of the check of a tile: first failing row and column (as output coordinates, 0xFF for none), lines not checked. -/
structure Abft where
  row : Option Nat
  col : Option Nat
  unchecked : Nat

def Abft.fails (a : Abft) : Bool := a.row.isSome || a.col.isSome

/-- Check a tile's r against its checksums. Saturation of each word is found again from its products. -/
def abftTile (p : MM) (rows cols : List Nat) (as_ bs : List (List Num)) (r : List Int) : Abft :=
  let satOf := fun (a b : List Num) => !fmtInt p.af && (sumR .rne p.fast (List.zipWith Num.mul a b)).2
  let ak := (transpose p.k as_)
  let bk := (transpose p.k bs)
  let abar := ak.map sumNum
  let amag := ak.map fun l => sumNum (l.map Num.abs)
  let bbar := bk.map sumNum
  let bmag := bk.map fun l => sumNum (l.map Num.abs)
  let cn := cols.length
  let colRes := bs.zipIdx.map fun b =>
    abftLine p abar amag b.1 ((List.range rows.length).map fun i => r.getD (i * cn + b.2) 0) (as_.any fun a => satOf a b.1)
  let rowRes := as_.zipIdx.map fun a =>
    abftLine p bbar bmag a.1 ((List.range cn).map fun i => r.getD (a.2 * cn + i) 0) (bs.any fun b => satOf a.1 b)
  let first := fun (l : List (Option Bool)) => l.findIdx? (· == some true)
  { row := first rowRes, col := first colRes, unchecked := ((rowRes ++ colRes).filter (·.isNone)).length }

/-! ### Choosing a checker engine (R372) -/

/-- The ring successor of a die. -/
def ringNext (d : Nat) : Nat := [1, 3, 0, 2].getD d 0

/-- An engine's SUSPECT and service state allow checker work. -/
def State.eligible (s : State) (j : Nat) : Bool :=
  (s.sv j).st == .inService && !(s.sv j).suspect && (s.engine j).st == .idle && !(s.die (engDie j)).inReset

/-- The first eligible ME from the ring successor of a die, starting at an index, on none of the given dies. -/
def State.checkerFrom (s : State) (die idx : Nat) (notOn : List Nat) : Option Nat :=
  let ds := [ringNext die, ringNext (ringNext die), ringNext (ringNext (ringNext die))].filter fun d => !notOn.contains d
  (ds.flatMap fun d => (List.range 16).map fun i => 16 * d + (idx + i) % 16).find? s.eligible

/-! ### Suspicion (R378, R390) -/

/-- The engines a suspicion of an engine concerns: both halves of a twin pair (R118). -/
def State.pairOf (s : State) (j : Nat) : List Nat :=
  if j < 64 && (s.engine j).twin then [j / 2 * 2, j / 2 * 2 + 1] else [j]

/-- Flush an engine's write map (R390). -/
def State.flushMap (s : State) (j : Nat) : State :=
  let e := s.sv j
  e.ctxs.foldl (init := s) fun s c => s.setCtx c fun x =>
    let mine := e.regions.filter fun b => x.windows.any fun w => w.2.1 < (b + 1) * 2 ^ 26 && b * 2 ^ 26 < w.2.1 + w.2.2
    { x with
      taint := mine.foldl huskAdd x.taint
      taintDies := x.taintDies ||| e.storeDies
      taintRemote := match x.taintRemote with | some t => some t | none => e.remoteTo
      taintWrites := satAdd 0xFFFFFFFF x.taintWrites e.remoteCnt }

/-- What a suspicion changes of one engine: marked, its map flushed, an immediate run asked for. -/
def State.suspectOne (s : State) (j : Nat) : State :=
  (s.setSv j fun e =>
    { e with suspect := true, strikes := min 3 (e.strikes + 1), immediate := true, due := e.due || s.silent.packValid }).flushMap j

/-- An engine becomes SUSPECT (R378), both halves of a pair as one (R118): logged with what was flushed. Cause: 1 ABFT,
2 outvoted, 3 sieve transient. -/
def State.suspect (s : State) (j cause : Nat) : State :=
  let js := s.pairOf j
  let u := js.headD j
  let s := js.foldl (fun s i => s.suspectOne i) s
  let ctxs := (js.flatMap fun i => (s.sv i).ctxs).eraseDups
  let regs := (js.flatMap fun i => (s.sv i).regions).eraseDups
  let e := s.sv u
  s.log 0x0504 5 (srcDieUnit (engDie u) (engUnit u))
    ([u, cause, e.strikes, ctxs.length, regs.length] ++ lohi e.cleanStep.toNat ++ [s.silent.version])

/-! ### Finishing a tile (R131-R133, R137-R140, R155) -/

/-- An accumulator word by engine, tile, row and column; tile flags. -/
def tileKey (j t row col : Nat) : Nat := (32 * j + t) * 2048 + 64 * row + col
def State.tileWord (s : State) (j t row col : Nat) : Word := mget 0 s.eng.tiles (tileKey j t row col)
def State.setTileWord (s : State) (j t row col : Nat) (v : Word) : State :=
  let k := tileKey j t row col
  { s with eng := { s.eng with tiles := (if v = 0 then mdel s.eng.tiles k else mput s.eng.tiles k v) } }
def State.orTileFlags (s : State) (j t : Nat) (f : BitVec 4) : State :=
  if f = 0 then s else { s with eng := { s.eng with tileFlags := mmod 0 s.eng.tileFlags (32 * j + t) (· ||| f) } }
def State.clearTileFlags (s : State) (j t : Nat) : State :=
  { s with eng := { s.eng with tileFlags := mdel s.eng.tileFlags (32 * j + t) } }
/-- Every word of a tile +0 and its flags clear (R149). -/
def State.zeroTile (s : State) (j t : Nat) : State :=
  { s with eng := { s.eng with
      tiles := s.eng.tiles.filter (fun e => e.1 / 2048 != 32 * j + t), tileFlags := mdel s.eng.tileFlags (32 * j + t) } }

/-- The accumulator's next word (R131, R132): word, saturation, became NaN. -/
def accNext (p : MM) (old : Word) (r : Int) : Word × Bool × Bool :=
  if fmtInt p.af then
    let (v, o) := satInt 32 ((if p.init then 0 else old.toInt) + r)
    (BitVec.ofNat 32 v, o, false)
  else
    let rw_ := BitVec.ofInt 32 r
    let (w, o) := if p.init then (rw_, false) else fadd .rne old rw_
    (w, o, (ofFp32 w).isNan)

/-- The value of an accumulator word for conversion. -/
def accVal (p : MM) (w : Word) : Num := if fmtInt p.af then ofInt w.toInt else ofFp32 w

/-- A debug dump record of a tile, by the setting of the descriptor's start (R155, R156). -/
def State.dumpTile (s : State) (c q : Nat) (x : Started) (p : MM) (j t : Nat) : State :=
  match x.dump with
  | none => s
  | some (ring, size) =>
    let cx := s.ctx c
    let w := s.tileW j
    let base := ring + 16384 * (cx.dumpSeq % 2 ^ size)
    let head := [cx.dumpSeq, x.index.toNat + c * 2 ^ 32 + q * 2 ^ 40 + b2n (w == 64) * 2 ^ 46 + b2n (fmtInt p.af) * 2 ^ 47 +
        j * 2 ^ 48 + t * 2 ^ 56, (s.diePodStamp (engDie j)).toNat, (s.dt (engDie j)).step.toNat, 0, 0, 0, 0].flatMap (leBytes 8)
    let data := (List.range 32).flatMap fun r => (List.range w).flatMap fun k => leBytes 4 (s.tileWord j t r k).toNat
    match s.engWrite c q x j base (plain (head ++ data)) with
    | (s, some f) => s.failDesc c q x.index f
    | (s, none) => s.setCtx c fun y => { y with dumpSeq := y.dumpSeq + 1 }

/-- Runs of consecutive columns. -/
def runsOf : List Nat → List (List Nat)
  | [] => []
  | n :: rest => match runsOf rest with
    | (m :: r) :: rs => if m = n + 1 then (n :: m :: r) :: rs else [n] :: (m :: r) :: rs
    | rs => [n] :: rs

/-- Output conversion and write of a grid tile (R137-R139, R106): each computed row, run by run of columns. -/
def State.writeTile (s : State) (c q : Nat) (x : Started) (p : MM) (j g : Nat) (rows cols : List Nat) : State × Bool × Bool :=
  let w := s.tileW j
  let t := p.tile + g
  rows.foldl (init := (s, false, false)) fun st m =>
    (runsOf cols).foldl (init := st) fun st ns =>
      let (s, o, na) := st
      let vals := ns.map fun n =>
        (accVal p (s.tileWord j t (m % 32) (n % w)), rndAt x.seed (g * 32 * w + (m % 32) * w + n % w))
      let (bytes, scales, o', na') := convRow p.cf vals
      let n0 := ns.headD 0
      let (s, e) := s.engWrite c q x j (p.c + m * p.cstr + n0 * fmtBits p.cf / 8) (plain bytes)
      let s := match e with
        | some f => s.failDesc c q x.index f
        | none =>
          if fmtMx p.cf then
            let (s, e) := s.engWrite c q x j (p.cs + m * cdiv p.n 32 + n0 / 32) (plain scales)
            (match e with
              | some f => s.failDesc c q x.index f
              | none => s)
          else s
      (s, o || o', na || na')

/-- Add, convert and write a tile from its r (R131, R137, R162): flags to the tile and to the descriptor. -/
def State.finishTile (s : State) (c q : Nat) (x : Started) (p : MM) (j g : Nat) (rows cols : List Nat) (r : List Int × Bool)
    (checked : Bool) : State :=
  let w := s.tileW j
  let t := p.tile + g
  let (s, o, na) := (rows.zipIdx).foldl (init := (s, r.2, false)) fun st m =>
    cols.zipIdx.foldl (init := st) fun st n =>
      let (s, o, na) := st
      let (v, o', n') := accNext p (s.tileWord j t (m.1 % 32) (n.1 % w)) (r.1.getD (m.2 * cols.length + n.2) 0)
      (s.setTileWord j t (m.1 % 32) (n.1 % w) v, o || o', na || n')
  let s := s.dumpTile c q x p j t
  let (s, o2, na2) := if p.write then s.writeTile c q x p j g rows cols else (s, false, false)
  let bnd := p.fast && p.k > 65536 && !fmtInt p.af
  let ovf := o || o2
  let nan := na || na2
  let s := s.orTileFlags j t (BitVec.ofNat 4 (b2n ovf + 2 * b2n nan + 4 * b2n bnd))
  s.setStarted c q x.index fun y =>
    { y with
      tiles := y.tiles.erase g, checks := y.checks.filter (·.tile != g)
      ovf := y.ovf || ovf, nan := y.nan || nan, bound := y.bound || bnd, checked := y.checked || checked }

/-- A descriptor that cannot go on: its failure, and nothing more of it is done. -/
def State.dropTiles (s : State) (c q : Nat) (x : Started) (f : Fail) : State :=
  (s.failDesc c q x.index f).setStarted c q x.index fun y => { y with tiles := [], checks := [], work := true }

/-- Total corrections and uncorrectable halves counted, to tell what a re-read found. -/
def State.ceCount (s : State) : Nat := (s.mem.lpddr.map (·.ce)).foldl (· + ·) 0
def State.ueCount (s : State) : Nat := (s.mem.lpddr.map (·.ue)).foldl (· + ·) 0

/-- INPUT_SUSPECT (R376): the operands are read again, then the descriptor fails. -/
def State.inputSuspect (s : State) (c q : Nat) (x : Started) (p : MM) (g reason : Nat) (flips : List LineFlip) : State :=
  let s' := s.damages 0 flips
  let det := (p.tile + g) + reason * 2 ^ 8 + b2n (decide (s'.ceCount > s.ceCount)) * 2 ^ 16 +
    b2n (decide (s'.ueCount > s.ueCount)) * 2 ^ 17
  s'.dropTiles c q x (0x32, det, p.a)

/-- Change one tile's checker work. -/
def State.setCheck (s : State) (c q : Nat) (x : Started) (w : CheckWork) : State :=
  s.setStarted c q x.index fun y => { y with checks := y.checks.filter (·.tile != w.tile) ++ [w] }

/-- ME_ABFT_CNT fields of an engine. -/
def State.bumpAbft (s : State) (j tr pe un ch : Nat) : State :=
  s.setEng j fun e =>
    { e with
      abftTransient := satAdd 0xFFFF e.abftTransient tr, abftPersistent := satAdd 0xFFFF e.abftPersistent pe
      unchecked := satAdd 0xFFFF e.unchecked un, chkRuns := satAdd 0xFFFF e.chkRuns ch }

/-- Exponent in use (R371). -/
def State.effExp (s : State) : Nat :=
  if s.silent.tallySt = 0 then s.silent.checkExp else max 4 (s.silent.checkExp - 2)

/-- A countdown drawn uniformly from 1 to 2^(n+1) − 1 (R371): a free value. -/
def State.drawCountdown (s : State) : Nat × State :=
  let (v, s) := s.draw 32
  (1 + v.toNat % (2 ^ (s.effExp + 1) - 1), s)

/-- Count one tile down: whether it is sampled. -/
def State.sampleTile (s : State) (j : Nat) : Bool × State :=
  let (n, s) := if (s.engine j).countdown = 0 then s.drawCountdown else ((s.engine j).countdown, s)
  if n ≤ 1 then
    let (m, s) := s.drawCountdown
    (true, s.setEng j fun e => { e with countdown := m })
  else (false, s.setEng j fun e => { e with countdown := n - 1 })

/-- A descriptor's engine, body and the tile rows, if the tile is still to be done. -/
structure TileJob where
  x : Started
  j : Nat
  p : MM
  rows : List Nat
  cols : List Nat

def State.tileJob (s : State) (c q : Nat) (ix : Word) (g : Nat) : Option TileJob :=
  match s.queue? c q with
  | none => none
  | some qu =>
    match qu.started.find? (·.index == ix) with
    | none => none
    | some x =>
      let p := mmOf x.d
      let (rows, cols) := tileRows p (s.tileW qu.eng) x.mask g
      if x.fail.isNone && x.tiles.contains g && (x.work || x.reqs = 0) && (s.engine qu.eng).st == .idle && !(s.die (engDie qu.eng)).inReset then
        some { x := x, j := qu.eng, p := p, rows := rows, cols := cols }
      else none

/-- Descriptors named still started (R150, R151). -/
def State.waitsOn (s : State) (x : Started) : Bool := x.after.any fun a => (s.started? a.1 a.2.1 a.2.2).isSome

/-- The first work of an ME descriptor: its operands are checked before anything of it is written (R198), and with
ACC_INIT = 1 the flags of the tiles it names are cleared (R148). -/
def State.beginMatmul (s : State) (c q : Nat) (x : Started) (p : MM) (j : Nat) : Except Fail State := do
  let w := s.tileW j
  let used := (List.range (p.tiles w)).map fun g => tileRows p w x.mask g
  let rows := (used.flatMap (·.1)).eraseDups
  let cols := (used.flatMap (·.2)).eraseDups
  let _ ← s.mmOperands c (engDie j) x p rows cols
  let s := if p.init then (List.range (p.tiles w)).foldl (fun s g => s.clearTileFlags j (p.tile + g)) s else s
  pure (s.setStarted c q x.index fun y => { y with work := true })

/-- A tile (R367-R371): its r is formed and checked; what fails once is computed again, what fails twice or is
sampled goes to a checker engine, anything else is added, converted and written. Lines damaged as they are read and errors
of the ME's arithmetic come with the command (logs 7, 8). -/
def State.meTile (s : State) (c q : Nat) (t : TileJob) (g : Nat) (err1 err2 : List WordFlip) : State :=
  let begun : Except Fail State := if t.x.work then .ok s else s.beginMatmul c q t.x t.p t.j
  match begun with
  | .error f => s.dropTiles c q t.x f
  | .ok s =>
    if t.rows.isEmpty then
      (s.dumpTile c q t.x t.p t.j (t.p.tile + g)).setStarted c q t.x.index fun y => { y with tiles := y.tiles.erase g }
    else
      match s.mmOperands c (engDie t.j) t.x t.p t.rows t.cols with
      | .error f => s.dropTiles c q t.x f
      | .ok (as_, bs) =>
        let w := s.tileW t.j
        let int := fmtInt t.p.af
        let good := tileR t.p as_ bs
        let r1 := applyErrs t.rows t.cols w int err1 good.1
        let a1 := abftTile t.p t.rows t.cols as_ bs r1
        let die := engDie t.j
        let s := s.countEv die 0x013 (t.j % 16) (some c) 1
        let s := s.countEv die 0x011 (t.j % 16) (some c) (t.rows.length * t.cols.length * t.p.k / 1024)
        let s := s.bumpAbft t.j 0 0 a1.unchecked 0
        let src := srcDieUnit die (engUnit t.j)
        let row := (a1.row.map fun i => t.rows.getD i 0 % 32).getD 0xFF
        let col := (a1.col.map fun i => t.cols.getD i 0 % w).getD 0xFF
        if !a1.fails then
          let (hit, s) := s.sampleTile t.j
          if !hit then s.finishTile c q t.x t.p t.j g t.rows t.cols (r1, good.2) false
          else
            let s := { s with silent := { s.silent with sampled := satAdd 0xFFFFFFFF s.silent.sampled 1 } }
            match s.checkerFrom die (t.j % 16) [die] with
            | some k => s.setCheck c q t.x { tile := g, orig := (r1, good.2), checker := k, chk := none, third := 112, abft := false }
            | none =>
              ({ s with silent := { s.silent with skipped := satAdd 0xFFFF s.silent.skipped 1 } }).finishTile c q t.x t.p t.j g
                t.rows t.cols (r1, good.2) false
        else
          let r2 := applyErrs t.rows t.cols w int err2 good.1
          let a2 := abftTile t.p t.rows t.cols as_ bs r2
          if !a2.fails then
            let s := (s.bumpAbft t.j 1 0 a2.unchecked 0).log 0x0501 3 src
              [t.j, c, q, t.x.index.toNat, t.p.tile + g, row, col, t.p.k]
            s.finishTile c q t.x t.p t.j g t.rows t.cols (r2, good.2) false
          else
            let k := s.checkerFrom die (t.j % 16) [die]
            let s := ((s.suspect t.j 1).bumpAbft t.j 0 1 a2.unchecked 0).log 0x0502 4 src
              [t.j, c, q, t.x.index.toNat, t.p.tile + g, row, col, k.getD 0xFF]
            match k with
            | some k => s.setCheck c q t.x { tile := g, orig := (r2, good.2), checker := k, chk := none, third := 112, abft := true }
            | none => s.inputSuspect c q t.x t.p g 3 []

/-- What another engine computes of a tile: r with its errors, saturation and its own check. -/
def State.recompute (s : State) (c : Nat) (t : TileJob) (k : Nat) (err : List WordFlip) :
    Except Fail ((List Int × Bool) × Abft) := do
  let (as_, bs) ← s.mmOperands c (engDie k) t.x t.p t.rows t.cols
  let good := tileR t.p as_ bs
  let r := applyErrs t.rows t.cols (s.tileW t.j) (fmtInt t.p.af) err good.1
  pure ((r, good.2), abftTile t.p t.rows t.cols as_ bs r)

/-- CHECKER_DISAGREE and its outcome (R375). -/
def State.disagree (s : State) (c q : Nat) (t : TileJob) (g : Nat) (w : CheckWork) (third outcome : Nat) : State :=
  ({ s with silent := { s.silent with disagree := satAdd 0xFFFF s.silent.disagree 1 } }).log 0x0503 4
    (srcDieUnit (engDie t.j) (engUnit t.j)) [t.j, w.checker, third, outcome, c, q, t.x.index.toNat, t.p.tile + g]

/-- No third engine is left (R375 outcome 3). -/
def State.noArbiter (s : State) (c q : Nat) (t : TileJob) (g : Nat) (w : CheckWork) (flips : List LineFlip) : State :=
  (((s.disagree c q t g w 0xFF 3).suspect t.j 2).suspect w.checker 2).inputSuspect c q t.x t.p g 3 flips

/-- CHECKER_VERDICT (R370, R373, R374): the checker engine's computation of a tile that waits for it. -/
def State.checkerVerdict (s : State) (c q : Nat) (t : TileJob) (g : Nat) (w : CheckWork) (err : List WordFlip)
    (flips : List LineFlip) : State :=
  let die := engDie t.j
  if !s.eligible w.checker then
    -- reissued, or skipped (R374)
    match s.checkerFrom die (t.j % 16) [die] with
    | some k => s.setCheck c q t.x { w with checker := k }
    | none =>
      if w.abft then s.inputSuspect c q t.x t.p g 3 flips
      else
        ({ s with silent := { s.silent with skipped := satAdd 0xFFFF s.silent.skipped 1 } }).finishTile c q t.x t.p t.j g
          t.rows t.cols w.orig false
  else
    match s.recompute c t w.checker err with
    | .error f => s.dropTiles c q t.x f
    | .ok (r, a) =>
      let s := s.bumpAbft w.checker 0 0 a.unchecked 1
      if w.abft then
        if a.fails then s.inputSuspect c q t.x t.p g 2 flips
        else s.finishTile c q t.x t.p t.j g t.rows t.cols r true
      else if a.fails then
        let s := s.suspect w.checker 1
        match s.checkerFrom die (t.j % 16) [die] with
        | some k => s.setCheck c q t.x { w with checker := k }
        | none =>
          ({ s with silent := { s.silent with skipped := satAdd 0xFFFF s.silent.skipped 1 } }).finishTile c q t.x t.p t.j g
            t.rows t.cols w.orig false
      else if r = w.orig then s.finishTile c q t.x t.p t.j g t.rows t.cols w.orig true
      else
        match s.checkerFrom (engDie w.checker) (t.j % 16) [die, engDie w.checker] with
        | some k => s.setCheck c q t.x { w with chk := some r, third := k }
        | none => s.noArbiter c q t g w flips

/-- The verdict of a context that has faulted or is fenced is cancelled (R374): the original's tile is used and nothing is
logged. A tile that failed ABFT twice still waits for its verdict. -/
def State.cancelled (s : State) (c : Nat) (w : CheckWork) : Bool := (s.ctx c).st != .active && !w.abft

/-- ARBITER_VERDICT (R375): the third computation decides. -/
def State.arbiterVerdict (s : State) (c q : Nat) (t : TileJob) (g : Nat) (w : CheckWork) (chk : List Int × Bool)
    (err : List WordFlip) (flips : List LineFlip) : State :=
  let next := fun (s : State) =>
    match s.checkerFrom (engDie w.checker) (t.j % 16) [engDie t.j, engDie w.checker] with
    | some k => s.setCheck c q t.x { w with third := k }
    | none => s.noArbiter c q t g w flips
  if !s.eligible w.third then next s
  else
    match s.recompute c t w.third err with
    | .error f => s.dropTiles c q t.x f
    | .ok (r, a) =>
      let s := s.bumpAbft w.third 0 0 a.unchecked 1
      if a.fails then next (s.suspect w.third 1)
      else if r = chk then
        ((s.disagree c q t g w w.third 0).suspect t.j 2).finishTile c q t.x t.p t.j g t.rows t.cols chk true
      else if r = w.orig then
        ((s.disagree c q t g w w.third 1).suspect w.checker 2).finishTile c q t.x t.p t.j g t.rows t.cols w.orig true
      else (s.disagree c q t g w w.third 2).inputSuspect c q t.x t.p g 1 flips

end Sys2Proof.Machine
end

