-- ==== Sys2Proof/Machine/Vector.lean ====
section
/-! DEFINITION. The vector engine: functions, rows and the backward opcodes (chapters 03, 04, 05). -/

namespace Sys2Proof.Machine

/-- The fields of a VE body (R108, R176). -/
structure VB where
  op : Nat
  s0 : Nat
  s1 : Nat
  s2 : Nat
  dst : Nat
  rows : Nat
  cols : Nat
  sstr : Nat
  dstr : Nat
  func : Nat
  inf : Nat
  outf : Nat
  round : Nat
  stream : Nat
  imm : Word
  aux : Nat
  grad : Nat
  gstr : Nat
  gradf : Nat
  gainf : Nat
  s0scale : Nat

def vbOf (d : List Nat) : VB :=
  let w := fun i => d.getD i 0
  { op := bitsOf (w 0) 7 0, s0 := w 4, s1 := w 5, s2 := w 6, dst := w 7
    rows := bitsOf (w 8) 31 0, cols := bitsOf (w 8) 63 32, sstr := bitsOf (w 9) 31 0, dstr := bitsOf (w 9) 63 32
    func := bitsOf (w 10) 7 0, inf := bitsOf (w 10) 11 8, outf := bitsOf (w 10) 15 12, round := bitsOf (w 10) 17 16
    stream := bitsOf (w 10) 27 18, imm := BitVec.ofNat 32 (w 11), aux := w 13, grad := w 12
    gstr := bitsOf (w 14) 31 0, gradf := bitsOf (w 14) 35 32, gainf := bitsOf (w 14) 39 36, s0scale := w 15 }

/-- Output elements (R143). -/
def VB.outputs (p : VB) : Nat := if p.op = 0x23 then p.rows else p.rows * p.cols

/-! ### Functions whose result the manual bounds (R145) -/

/-- Integer square root, bit by bit. -/
def isqrt (n : Nat) : Nat :=
  (List.range 100).foldl (fun r i => let b := r + 2 ^ (99 - i); if b * b ≤ n then b else r) 0

/-- |a − b| ≤ t for dyadic values. -/
def within (a b t : Int × Int) : Bool :=
  let d := dyAdd a (-b.1, b.2)
  decide (0 ≤ (dyAdd t (-(d.1.natAbs : Int), d.2)).1)

/-- 4 ulp at a rounded magnitude, or 2^-126, whichever is larger. -/
def veTol (m : Nat) (e : Int) : Int × Int :=
  let u := (fp32.quant .rne m e).2
  if 2 + u ≤ -126 then (1, -126) else (4, u)

/-- RECIP: the engine's own value where it lies within the bound, else the correctly rounded one. -/
def veRecip (rev : Nat) (x : Word) : Word × Bool :=
  let v := Config.veValue 7 rev x
  match ofFp32 x with
  | .fin n m e =>
    if m = 0 then (v, false)
    else
      let (q, k) := ratio 1 m
      let (cr, o) := fp32.round .rne n q (k - e)
      let ok := match ofFp32 v with
        | .fin n' m' e' => n' == n &&
            (let t := veTol q (k - e); within (m' * m, e') (1, -e) (t.1 * m, t.2))
        | _ => false
      if o then (BitVec.ofNat 32 cr, true) else if ok then (v, false) else (BitVec.ofNat 32 cr, false)
  | _ => (v, false)

/-- RSQRT likewise, for operands above zero. -/
def veRsqrt (rev : Nat) (x : Word) : Word × Bool :=
  let v := Config.veValue 8 rev x
  match ofFp32 x with
  | .fin false m e =>
    if m = 0 then (v, false)
    else
      let s0 : Int := 128 + Nat.log2 m
      let s := if (-e - s0) % 2 = 0 then s0 else s0 + 1
      let n := 2 ^ s.toNat / m
      let q := isqrt n
      let sticky := decide (q * q * m ≠ 2 ^ s.toNat)
      let mm := 2 * q + b2n sticky
      let ex := (-e - s) / 2 - 1
      let cr := BitVec.ofNat 32 (fp32.round .rne false mm ex).1
      let ok := match ofFp32 v with
        | .fin false m' e' =>
          -- (v − t)² x ≤ 1 ≤ (v + t)² x
          let t := veTol mm ex
          let lo := dyAdd (m', e') (-t.1, t.2)
          let hi := dyAdd (m', e') t
          let sq := fun (a : Int × Int) => (a.1 * a.1 * m, 2 * a.2 + e)
          (decide (lo.1 ≤ 0) || decide ((dyAdd (sq lo) (-1, 0)).1 ≤ 0)) && decide (0 ≤ (dyAdd (sq hi) (-1, 0)).1)
        | _ => false
      (if ok then v else cr, false)
  | _ => (v, false)

/-- The engine's own value v where it lies within the bound of R145 about the exact value, else the correctly rounded one. -/
def veBound (v : Word) (n : Bool) (m : Nat) (e : Int) : Word × Bool :=
  let (cr, o) := fp32.round .rne n m e
  let ok := match ofFp32 v with
    | .fin n' m' e' => within (sgn n' m', e') (sgn n m, e) (veTol m e)
    | _ => false
  (if ok && !o then v else BitVec.ofNat 32 cr, o)

/-- e to the power z, both in units of 2^-400, for |z| below 2^7: the series of |z| ÷ 256, squared eight times. -/
def expFix (z : Int) : Nat :=
  let n := z.natAbs / 2 ^ 8
  let t := (List.range 70).foldl (fun (a : Nat × Nat) i =>
    let k := a.2 * n / 2 ^ 400 / (i + 1)
    (a.1 + k, k)) (2 ^ 400, 2 ^ 400)
  let r := (List.range 8).foldl (fun r _ => r * r / 2 ^ 400) t.1
  if z < 0 then 2 ^ 800 / r else r

/-- A finite FP32 value in units of 2^-400. -/
def fixOf (n : Bool) (m : Nat) (e : Int) : Int := sgn n (m * 2 ^ (400 + e).toNat)

/-- EXP of a finite operand: above 2^7 it saturates, below −2^7 it lies below 2^-149. -/
def veExp (v : Word) (n : Bool) (m : Nat) (e : Int) : Word × Bool :=
  if magLe 1 7 m e && m ≠ 0 then (if n then veBound v false 0 0 else veBound v false 1 200)
  else veBound v false (expFix (fixOf n m e)) (-400)

/-- x ÷ (1 + e^-z), z in units of 2^-400; x itself for z of 2^7 and above, a zero of its sign below −2^7. -/
def veGate (v : Word) (n : Bool) (m : Nat) (e : Int) (z : Int) : Word × Bool :=
  if z ≤ -(2 ^ 407) then veBound v n 0 0
  else if 2 ^ 407 ≤ z then veBound v n m e
  else
    let x := expFix z
    veBound v n (m * (x * 2 ^ 400 / (x + 2 ^ 400))) (e - 400)

/-- The square root of 2 ÷ π in units of 2^-400. -/
def geluC : Nat :=
  2060337309860625669158887524896583040847384015804865113243324589387049149478680161082114736606036866790242378560860575272

/-- Twice the argument of the hyperbolic tangent in GELU_TANH, √(2/π) (x + 0.044715 x³), in units of 2^-400 (log 10). -/
def geluArg (n : Bool) (m : Nat) (e : Int) : Int :=
  let x := fixOf n m e
  let cube := x * x * x * 8943 / 200000 / 2 ^ 800
  2 * geluC * (x + cube) / 2 ^ 400

/-- A function of one FP32 operand (FUNC codes 0x06-0x0A): the engine's own value within the bound of R145. A NaN operand gives
NaN (R125), an infinite one the limit, and an operand at which the function has no finite value any value (log 10). -/
def veFun (rev f : Nat) (x : Word) : Word × Bool :=
  let v := Config.veValue f rev x
  let nan := BitVec.ofNat 32 fp32.nanBits
  match f, ofFp32 x with
  | _, .nan => (nan, false)
  | 6, .inf n => if n then veBound v false 0 0 else (x, false)
  | 6, .fin n m e => veExp v n m e
  | 7, .inf n => veBound v n 0 0
  | 7, .fin .. => veRecip rev x
  | 8, .inf false => veBound v false 0 0
  | 8, .fin .. => veRsqrt rev x
  | 9, .inf n => if n then veBound v true 0 0 else (x, false)
  | 9, .fin n m e => veGate v n m e (geluArg n m e)
  | 0xA, .inf n => if n then veBound v true 0 0 else (x, false)
  | 0xA, .fin n m e => veGate v n m e (fixOf n m e)
  | _, _ => (v, false)

/-! ### Rows -/

/-- The revision of the die of an engine (R145). -/
def State.dieRev (s : State) (j : Nat) : Nat := (s.fuse.dieInv.getD (engDie j) {}).rev

/-- FP32 operations that remember saturation. -/
abbrev Sat (α : Type) := α × Bool
def sop (a : Sat Word) (f : Word → Word × Bool) : Sat Word := let (w, o) := f a.1; (w, a.2 || o)

/-- Elements of a row of a source, as values. -/
def State.veRow (s : State) (c die : Nat) (x : Started) (base fmt cols scale : Nat) : Except Fail (List Num) := do
  let row ← s.engUse c die x 3 base (rowBytes fmt cols)
  let sc ← if fmtMx fmt then s.engUse c die x 3 scale (cdiv cols 32) else pure []
  pure ((List.range cols).map fun i => element fmt (elemBits fmt row i) (sc.getD (i / 32) 127).toNat)

/-- A row of a source with its scales directly after its element rows (R108). -/
def State.veSrc (s : State) (c die : Nat) (x : Started) (base stride fmt cols rows r : Nat) : Except Fail (List Num) :=
  s.veRow c die x (base + r * stride) fmt cols (base + rows * stride + r * cdiv cols 32)

/-- Values converted to FP32 (R144). -/
def toF (l : List Num) : List Word × Bool :=
  let ws := l.map (toFp32 .rne)
  (ws.map (·.1), ws.any (·.2))

/-- The rounded sum of FP32 values, each one a product (R146). -/
def sumW (l : List Word) : WSat := sumR .rne false (l.map ofFp32)
/-- The sum of products of FP32 values. -/
def sumPW (a b : List Word) : WSat := sumR .rne false (List.zipWith (fun x y => (ofFp32 x).mul (ofFp32 y)) a b)

/-- The correctly rounded FP32 reciprocal of a count. -/
def recipCount (n : Nat) : Word := let (q, k) := ratio 1 n; BitVec.ofNat 32 (fp32.round .rne false q k).1

/-- Map with saturation collected. -/
def mapSat (l : List α) (f : α → Word × Bool) : List Word × Bool := let r := l.map f; (r.map (·.1), r.any (·.2))

/-- mu, rstd and x̂ of a normalisation row (R146). -/
def normStats (rev : Nat) (rms : Bool) (x : List Word) (eps : Word) : Word × Word × List Word × Bool :=
  let rc := recipCount x.length
  let (mu, o1) := if rms then (0#32, false) else sop (sumW x) fun w => fmul w rc
  let (dv, o2) := if rms then (x, false) else mapSat x fun w => fsub w mu
  let (var, o3) := sop (sumPW dv dv) fun w => fmul w rc
  let (ve, o4) := fadd .rne var eps
  let (rstd, o5) := veFun rev 8 ve
  let (xh, o6) := mapSat dv fun w => fmul w rstd
  (mu, rstd, xh, o1 || o2 || o3 || o4 || o5 || o6)

/-- y of a normalisation row: omitted terms are skipped. -/
def normOut (xh : List Word) (gain bias : Option (List Word)) : List Word × Bool :=
  mapSat xh.zipIdx fun v =>
    match gain, bias with
    | some g, some b => ffma v.1 (g.getD v.2 0) (b.getD v.2 0)
    | some g, none => fmul v.1 (g.getD v.2 0)
    | none, some b => fadd .rne v.1 (b.getD v.2 0)
    | none, none => (v.1, false)

/-- e[c], s and 1/s of a soft-maximum row (R146). -/
def softStats (rev : Nat) (x : List Word) : List Word × Word × Bool :=
  let m := x.getD (winner true (x.map ofFp32)) 0
  let (d, o1) := mapSat x fun w => fsub w m
  let (e, o2) := mapSat d (veFun rev 6)
  let sm := sumW e
  let (r, o3) := veFun rev 7 sm.1
  (e, r, o1 || o2 || sm.2 || o3)

/-- An element of VE_MAP (R108, R145): operands as FP32 words. -/
def veMap (rev f : Nat) (a b c imm : Word) : Word × Bool :=
  match f with
  | 1 => fadd .rne a b
  | 2 => fmul a b
  | 3 => ffma a b c
  | 4 => ([a, b].getD (winner true [ofFp32 a, ofFp32 b]) a, false)
  | 5 => ([a, b].getD (winner false [ofFp32 a, ofFp32 b]) a, false)
  | 0xB => (a, false)
  | 0xC => fmul a imm
  | f => veFun rev f a

/-- FUNC values of VE_MAP that use a second and a third source. -/
def veTwo (p : VB) : Bool := p.op == 0x20 && 1 ≤ p.func && p.func ≤ 5
def veThree (p : VB) : Bool := p.op == 0x20 && p.func == 3

/-- Both formats INT32 and a comparison: integers are compared and copied exactly (R144). -/
def VB.ints (p : VB) : Bool :=
  p.inf == 0xC && p.outf == 0xC && ((p.op == 0x20 && (p.func == 4 || p.func == 5)) || (p.op == 0x23 && (p.func == 1 || p.func == 2)))

/-- What one row of a forward opcode writes: values, winner index, saturation. -/
def State.veForward (s : State) (c j : Nat) (x : Started) (p : VB) (r : Nat) : Except Fail (List Num × Nat × Bool) := do
  let die := engDie j
  let rev := s.dieRev j
  let src := fun b rows r => s.veSrc c die x b p.sstr p.inf p.cols rows r
  let n0 ← src p.s0 p.rows r
  let n1 ← if veTwo p then src p.s1 p.rows r else pure []
  let n2 ← if veThree p then src p.s2 p.rows r else pure []
  let (x0, o0) := toF n0
  match p.op with
  | 0x20 =>
    if p.ints then
      pure (List.zipWith (fun a b => [a, b].getD (winner (p.func == 4) [a, b]) a) n0 n1, 0, false)
    else
      let (x1, o1) := toF n1
      let (x2, o2) := toF n2
      let (y, o) := mapSat x0.zipIdx fun v => veMap rev p.func v.1 (x1.getD v.2 0) (x2.getD v.2 0) p.imm
      pure (y.map ofFp32, 0, o0 || o1 || o2 || o)
  | 0x21 =>
    let g ← if p.s1 = 0 then pure none else do pure (some (toF (← src p.s1 p.rows 0)))
    let b ← if p.s2 = 0 then pure none else do pure (some (toF (← src p.s2 p.rows 0)))
    let (_, _, xh, o1) := normStats rev (p.func == 1) x0 p.imm
    let (y, o2) := normOut xh (g.map (·.1)) (b.map (·.1))
    pure (y.map ofFp32, 0, o0 || o1 || o2 || (g.map (·.2)).getD false || (b.map (·.2)).getD false)
  | 0x22 =>
    let (e, rs, o1) := softStats rev x0
    let (y, o2) := mapSat e fun w => fmul w rs
    pure (y.map ofFp32, 0, o0 || o1 || o2)
  | _ =>
    if p.func = 0 then
      let sm := sumW x0
      pure ([ofFp32 sm.1], 0, o0 || sm.2)
    else if p.ints then
      let i := winner (p.func == 1) n0
      pure ([n0.getD i .nan], i, false)
    else
      let l := x0.map ofFp32
      let i := winner (p.func == 1) l
      pure ([l.getD i .nan], i, o0)

/-- Write a row of values in the output format, with its block scales. -/
def State.veWrite (s : State) (c q : Nat) (x : Started) (p : VB) (j r : Nat) (vals : List Num) (scaleBase : Nat) : State :=
  let n := vals.length
  let (bytes, scales, o, na) := convRow p.outf (vals.zipIdx.map fun v => (v.1, rndAt x.seed (r * n + v.2)))
  let (s, e) := s.engWrite c q x j (p.dst + r * p.dstr) (plain bytes)
  let (s, e) := match e with
    | some f => (s, some f)
    | none => if fmtMx p.outf then s.engWrite c q x j (scaleBase + r * cdiv n 32) (plain scales) else (s, none)
  let s := s.setStarted c q x.index fun y => { y with ovf := y.ovf || o, nan := y.nan || na }
  let s := if 64 ≤ j && j < 80 then s.countEv (engDie j) 0x021 ((j - 64) % 4) (some c) n else s
  match e with
  | some f => s.failDesc c q x.index f
  | none => s

/-- A descriptor has failed meanwhile. -/
def State.hasFailed (s : State) (c q : Nat) (ix : Word) : Bool := ((s.started? c q ix).map (·.fail.isSome)).getD true

/-- A forward opcode, row by row. -/
def State.veRun (s : State) (c q : Nat) (x : Started) (p : VB) (j : Nat) : State :=
  (List.range p.rows).foldl (init := s) fun s r =>
    if s.hasFailed c q x.index then s
    else
      match s.veForward c j x p r with
      | .error f => s.failDesc c q x.index f
      | .ok (vals, win, o) =>
        let s := s.setStarted c q x.index fun y => { y with ovf := y.ovf || o }
        let minmax := p.op == 0x23 && p.func != 0
        let base := if minmax then p.aux + cdiv (4 * p.rows) 64 * 64 else p.aux
        let s := s.veWrite c q x p j r vals base
        if minmax && !s.hasFailed c q x.index then
          let (s, e) := s.engWrite c q x j (p.aux + 4 * r) (plain (leBytes 4 win))
          (match e with
            | some f => s.failDesc c q x.index f
            | none => s)
        else s

/-- One row of a backward opcode (R177, R178): dx, and for VE_NORM_BWD the terms dy × x̂ and dy of each column. -/
def State.veBackRow (s : State) (c j : Nat) (x : Started) (p : VB) (r : Nat) :
    Except Fail (List Num × List Num × List Num × Bool) := do
  let die := engDie j
  let rev := s.dieRev j
  let e' := cdiv p.cols 32 * 32
  let n0 ← s.veRow c die x (p.s0 + r * p.sstr) p.inf p.cols (p.s0scale + r * (e' / 32))
  let ny ← s.veRow c die x (p.grad + r * p.gstr) p.gradf p.cols 0
  let (x0, o0) := toF n0
  let (dy, o1) := toF ny
  if p.op = 0x24 then
    let ng ← s.veRow c die x p.s1 p.gainf p.cols 0
    let rms := p.func % 2 == 1
    let (ga, o2) := toF ng
    let (_, rstd, xh, o3) := normStats rev rms x0 p.imm
    let rc := recipCount p.cols
    let (g, o4) := mapSat (List.zip dy ga) fun v => fmul v.1 v.2
    let (mg, o5) := if rms then (0#32, false) else sop (sumW g) fun w => fmul w rc
    let (mgx, o6) := sop (sumPW g xh) fun w => fmul w rc
    let (dx, o7) := mapSat (List.zip g xh) fun v =>
      let (a, oa) := if rms then (v.1, false) else fsub v.1 mg
      let (b, ob) := fmul v.2 mgx
      let (d, od) := fsub a b
      let (y, oy) := fmul d rstd
      (y, oa || ob || od || oy)
    pure (dx.map ofFp32, List.zipWith (fun a b => (ofFp32 a).mul (ofFp32 b)) dy xh, dy.map ofFp32,
      o0 || o1 || o2 || o3 || o4 || o5 || o6 || o7)
  else
    let (e, rs, o2) := softStats rev x0
    let (y, o3) := mapSat e fun w => fmul w rs
    let d := sumPW dy y
    let (dx, o4) := mapSat (List.zip y dy) fun v =>
      let (a, oa) := fsub v.2 d.1
      let (b, ob) := fmul v.1 a
      (b, oa || ob)
    pure (dx.map ofFp32, [], [], o0 || o1 || o2 || o3 || d.2 || o4)

/-- One word of the gain or bias gradient: the sum, or added to the old word. -/
def State.veGradWord (s : State) (c q : Nat) (x : Started) (p : VB) (j addr : Nat) (terms : List Num) : State :=
  if s.hasFailed c q x.index then s
  else
    let sm := sumR .rne false terms
    let w : Except Fail WSat := if bitOf p.func 7 then
        (s.engUse c (engDie j) x 3 addr 4).map fun b => sop sm fun v => fadd .rne (BitVec.ofNat 32 (ofLe b)) v
      else .ok sm
    match w with
    | .error f => s.failDesc c q x.index f
    | .ok (v, o) =>
      let nan := (ofFp32 v).isNan
      let s := s.setStarted c q x.index fun y => { y with ovf := y.ovf || o, nan := y.nan || nan }
      let (s, e) := s.engWrite c q x j addr (plain (leBytes 4 v.toNat))
      match e with
      | some f => s.failDesc c q x.index f
      | none => s

/-- A backward opcode: the rows, then the gradients of gain and bias. -/
def State.veBackRun (s : State) (c q : Nat) (x : Started) (p : VB) (j : Nat) : State :=
  let (s, gt, bt) := (List.range p.rows).foldl (init := (s, ([] : List (List Num)), ([] : List (List Num)))) fun st r =>
    let (s, gt, bt) := st
    if s.hasFailed c q x.index then st
    else
      match s.veBackRow c j x p r with
      | .error f => (s.failDesc c q x.index f, gt, bt)
      | .ok (dx, g, b, o) =>
        let s := s.setStarted c q x.index fun y => { y with ovf := y.ovf || o }
        (s.veWrite c q x p j r dx 0, gt ++ [g], bt ++ [b])
  if p.op != 0x24 || p.aux = 0 || s.hasFailed c q x.index then s
  else
    let col := fun (t : List (List Num)) i => t.map fun r => r.getD i .nan
    let s := (List.range p.cols).foldl (fun s i => s.veGradWord c q x p j (p.aux + 4 * i) (col gt i)) s
    if p.func % 2 = 1 then s
    else (List.range p.cols).foldl (fun s i => s.veGradWord c q x p j (p.aux + 4 * p.cols + 4 * i) (col bt i)) s

/-- The whole work of a VE descriptor. -/
def State.veWork (s : State) (c q : Nat) (x : Started) (j : Nat) : State :=
  let p := vbOf x.d
  if p.op = 0x24 || p.op = 0x25 then s.veBackRun c q x p j else s.veRun c q x p j

end Sys2Proof.Machine
end

