-- ==== Sys2Proof/Machine/Convoy.lean ====
section
/-! DEFINITION. Collectives and the caravan (chapter 08): partials, segments, the work of a member. -/

namespace Sys2Proof.Machine

/-- Elements of a segment; segments of n elements. -/
def Coll.eseg (p : Coll) : Nat := 4096 / (p.vw + if p.ranked then 4 else 0)
def Coll.nseg (p : Coll) (n : Nat) : Nat := cdiv n p.eseg
/-- Elements of a full ring block, of block b, and of segment i of a block. -/
def Coll.full (p : Coll) : Nat := if p.kind = 1 && p.ring then cdiv p.count p.members else p.count
def Coll.blockLen (p : Coll) (b : Nat) : Nat := if p.kind = 1 && p.ring then min p.full (p.count - b * p.full) else p.count
def Coll.segLen (p : Coll) (b i : Nat) : Nat := min p.eseg (p.blockLen b - i * p.eseg)
/-- The block that reaches a rank in ring step t (R262). The all-gather of a ring all-reduce has steps P − 1 on. -/
def Coll.blockAt (p : Coll) (t : Nat) : Nat :=
  let m := p.members
  if p.kind = 3 then (p.rank + 2 * m - t - 1) % m
  else if t + 1 < m then (p.rank + 2 * m - t - 2) % m
  else (p.rank + 2 * m - (t - (m - 1)) - 1) % m
/-- Steps in which a rank receives. -/
def Coll.steps (p : Coll) : Nat := if p.kind = 1 then 2 * (p.members - 1) else p.members - 1
/-- The block a rank starts with: its own in an all-gather, else the one before it. -/
def Coll.firstBlock (p : Coll) : Nat :=
  if p.kind = 3 || p.members = 1 then p.rank else (p.rank + p.members - 1) % p.members
/-- Own segments a member forms by itself. -/
def Coll.locals (p : Coll) : Nat :=
  if p.car then (if p.up.isNone then cdiv p.count (2 ^ 22) else 0)
  else if p.kind = 5 then 0
  else if p.ring then p.nseg (p.blockLen p.firstBlock)
  else if p.kind = 4 && p.up.isSome then 0
  else p.nseg p.count
/-- Segments a member uses from its parent or its ring predecessor. -/
def Coll.inbound (p : Coll) : Nat :=
  if p.car || p.kind = 5 then 0
  else if p.ring then ((List.range p.steps).map fun t => p.nseg (p.blockLen (p.blockAt t))).foldl (· + ·) 0
  else if p.up.isSome then p.nseg p.count else 0

/-! ### Partials (R264, R265) -/

/-- A partial: elements with their winner ranks, and CONTRIB. -/
structure Partial where
  elems : List (Nat × Nat)
  contrib : Nat

/-- A reducing segment's payload: values, then ranks from the next multiple of 4 bytes. -/
def Coll.pack (p : Coll) (x : Partial) : List Byte :=
  if x.contrib = 0 then []
  else
    let v := x.elems.flatMap fun e => leBytes p.vw e.1
    if p.ranked then v ++ List.replicate ((4 - v.length % 4) % 4) 0 ++ x.elems.flatMap (fun e => leBytes 4 e.2) else v

/-- The partial of a received segment of n elements. -/
def Coll.unpack (p : Coll) (contrib n : Nat) (b : List Byte) : Partial :=
  { contrib := contrib
    elems := if contrib = 0 then []
      else (List.range n).map fun i => (fieldAt b (i * p.vw) p.vw, fieldAt b (cdiv (n * p.vw) 4 * 4 + 4 * i) 4) }

/-- Bytes of a segment of n elements. -/
def Coll.payLen (p : Coll) (n contrib : Nat) : Nat :=
  if !p.reduces then n
  else if contrib = 0 then 0
  else if p.ranked then cdiv (n * p.vw) 4 * 4 + 4 * n else n * p.vw

/-- An element on its way with any NaN in its canonical form (R125); with WIDE = 1 it travels as FP32. -/
def Coll.canon (p : Coll) (v : Nat) : Nat :=
  let f := if p.wide then 0 else p.fmt
  if p.reduces && f ≤ 2 && ((fmtOf f).decode v).isNan then (fmtOf f).nanBits else v

/-- One combining step on one element (R264): value, rank, OVF, NAN. -/
def Coll.combine1 (p : Coll) (a b : Nat × Nat) : (Nat × Nat) × Bool × Bool :=
  if p.op = 0 then
    if p.fmt = 0xC then
      let (v, o) := satInt 32 (intOf 32 a.1 + intOf 32 b.1)
      ((v, 0), o, false)
    else
      let f := if p.wide then 0 else p.fmt
      let num := fun v => element f v 127
      let (r, o) := toFp32 .rne (sumNum [num a.1, num b.1])
      let (v, o2, na) := if f = 0 then (r.toNat, false, (ofFp32 r).isNan) else convElem f .rne (ofFp32 r)
      ((v, 0), o || o2, na)
  else
    let x := element p.fmt a.1 127
    let y := element p.fmt b.1 127
    let low := if a.2 ≤ b.2 then a else b
    let w :=
      if x.isNan && y.isNan then low
      else if x.isNan then a else if y.isNan then b
      else if numLt x y then (if p.op = 1 then b else a)
      else if numLt y x then (if p.op = 1 then a else b) else low
    ((p.canon w.1, w.2), false, x.isNan || y.isNan)

/-- Combine two partials; one with CONTRIB 0 is no term. -/
def Coll.combine (p : Coll) (a b : Partial) : Partial × Bool × Bool :=
  if a.contrib = 0 then (b, false, false)
  else if b.contrib = 0 then (a, false, false)
  else
    let l := (a.elems.zip b.elems).map fun e => p.combine1 e.1 e.2
    ({ elems := l.map (·.1), contrib := a.contrib + b.contrib }, l.any (·.2.1), l.any (·.2.2))

/-- What a member writes of a result: DST bytes, ranks, OVF, NAN (R264, R265). -/
def Coll.store (p : Coll) (n : Nat) (x : Partial) : List Byte × List Byte × Bool × Bool :=
  if x.contrib = 0 then
    (List.replicate (n * p.ew) 0, if p.ranked then List.replicate (4 * n) 0xFF else [], false, false)
  else if p.wide then
    let l := x.elems.map fun e => convElem p.fmt .rne (ofFp32 (BitVec.ofNat 32 e.1))
    (l.flatMap fun e => leBytes p.ew e.1, [], l.any (·.2.1), l.any (·.2.2))
  else
    (x.elems.flatMap fun e => leBytes p.ew (p.canon e.1), if p.ranked then x.elems.flatMap fun e => leBytes 4 e.2 else [], false, false)

/-! ### Sending -/

/-- ORDER_CLASS of a convoy's packets: that of the descriptor it belongs to here; 0 where there is none. -/
def State.cvClass (s : State) (k : ConvoyKey) : Nat := (((s.convoy? k).bind s.cvDesc).map (·.cls)).getD 0

/-- A one-hop packet of a convoy (R220, R267). -/
def State.cvPacket (s : State) (ptype : BitVec 4) (k : ConvoyKey) (epoch : BitVec 16) (port : Nat) (dw2 dw3 : Nat)
    (pay : List Byte) (mask : BitVec 128) : Packet :=
  { blankPkt with
    ptype := ptype, cls := BitVec.ofNat 2 (s.cvClass k), hm := mask != 0, dst := (s.port port).coord, src := BitVec.ofNat 15 s.ownId, slice := k.slice
    epoch := epoch, len := BitVec.ofNat 13 pay.length, dw2 := BitVec.ofNat 64 dw2, dw3 := BitVec.ofNat 64 dw3
    mask := mask, payload := pay }

/-- Put a COLL_SEG of a convoy on its way. -/
def State.putSeg (s : State) (k : ConvoyKey) (g : Seg) : State :=
  s.queuePkt g.port 6 (s.cvPacket 6 k k.epoch g.port (k.convoy.toNat + g.skind * 2 ^ 16)
    (g.seg % 2 ^ 32 + g.contrib % 65536 * 2 ^ 32 + g.step % 65536 * 2 ^ 48) g.payload g.mask)

/-- A convoy is ACTIVE: not ended meanwhile. -/
def State.cvActive (s : State) (k : ConvoyKey) : Bool := (s.convoy? k).any (·.st == .active)

/-- Send a segment of a convoy that goes on: it stays unacknowledged. -/
def State.sendSeg (s : State) (k : ConvoyKey) (g : Seg) : State :=
  if !s.cvActive k then s
  else
    let g := { g with sentAt := s.time.mono }
    (s.putSeg k g).setConvoy k fun c => { c with tx := c.tx ++ [g] }

/-- Segments unacknowledged on a plan edge. -/
def Convoy.open_ (c : Convoy) (port : Nat) : Nat := (c.tx.filter (·.port == port)).length

/-- An ACK of a segment: status, segment, step (R267, R268). It carries the receiver's current epoch of the slice. -/
def State.sendAck (s : State) (car : Bool) (k : ConvoyKey) (epoch : BitVec 16) (port status seg step : Nat) : State :=
  s.queuePkt port 6 (s.cvPacket (if car then 7 else 6) k epoch port (k.convoy.toNat + 3 * 2 ^ 16 + status * 2 ^ 20)
    (if car then seg else seg % 2 ^ 32 + step * 2 ^ 48) [] 0)

/-- A descriptor of a convoy fails with an access or a consumed husk (causes 1 and 2). -/
def State.cvFail (s : State) (k : ConvoyKey) (f : Fail) : State := s.startAbort k (if f.1 = 0x30 then 2 else 1) (some f)

/-! ### Fencing (R230) -/

/-- The entry of a slice ID and the contexts bound to it. -/
def State.boundTo (s : State) (e : Nat) : List Nat := (s.eng.ctxs.filter fun c => c.2.slice == some e && c.2.st != .free).map (·.1)

/-- A newer epoch has been seen: every context bound to the slice is fenced, and WG_SELF_FENCE is logged once for the slice
and that epoch. -/
def State.selfFence (s : State) (slice : BitVec 12) (newer : BitVec 16) (responder ctx : Nat) (ev : FaultEv) : State :=
  match s.sliceOf slice with
  | none => s
  | some (e, _) =>
    let own := (s.ctx ctx).epoch.toNat
    let s := (s.boundTo e).foldl (fun s c =>
      let base : FaultEv := if c = ctx then ev else { kind := 2, status := 0x14, queue := 0, engine := 0, index := 0, detail := 0, addr := 0, d := [] }
      s.contextFence c { base with
        kind := 2, status := 0x14, detail := (s.ctx c).epoch.toNat, responder := responder, newer := newer.toNat }) s
    if s.fab.fenced.contains (slice, newer) then s
    else
      ({ s with fab := { s.fab with fenced := s.fab.fenced ++ [(slice, newer)] } }).log 0x1007 5
        (srcDieUnit (homeDie responder) 66) [slice.toNat, own, newer.toNat, responder]

/-- A fault event of a started descriptor. -/
def State.evOf (s : State) (c q : Nat) (x : Started) (st : Nat) : FaultEv :=
  { kind := 2, status := st, queue := q, engine := ((s.queue? c q).map (·.eng)).getD 0, index := x.index, detail := 0, addr := 0, d := x.d }

/-! ### The work of a collective (R261-R266) -/

/-- Own contribution of segment i of a block: elements and its failure; nothing is read with NO_CONTRIB. -/
def State.ownPart (s : State) (c j : Nat) (x : Started) (p : Coll) (b i : Nat) : Except Fail Partial :=
  let n := p.segLen b i
  if p.noContrib then .ok { elems := [], contrib := 0 }
  else
    let first := (if p.kind = 4 || !p.ring then 0 else b * p.full) + i * p.eseg
    match s.engUse c (engDie j) x 3 (p.src + first * p.ew) (n * p.ew) with
    | .error e => .error e
    | .ok bytes =>
      let v := (List.range n).map fun k => fieldAt bytes (k * p.ew) p.ew
      let v := if p.wide then v.map fun w => (toFp32 .rne (element p.fmt w 127)).1.toNat else v
      .ok { elems := v.map fun w => (p.canon w, p.rank), contrib := 1 }

/-- Own bytes of segment i of a broadcast root or of a rank's block of an all-gather. -/
def State.ownBytes (s : State) (c j : Nat) (x : Started) (p : Coll) (i : Nat) : Except Fail HBytes :=
  s.engRead c (engDie j) x (p.src + i * p.eseg) (p.segLen p.rank i)

/-- An engine write that ends the convoy when it fails. -/
def State.cvWrite (s : State) (k : ConvoyKey) (c q j : Nat) (x : Started) (v : Nat) (b : HBytes) : State :=
  if b.isEmpty then s
  else match s.engWrite c q x j v b with
    | (s, none) => s.countEv (engDie j) 0x031 ((j - 80) % 8) (some c) b.length
    | (s, some f) => s.cvFail k f

/-- Raise OVF and NAN. -/
def State.cvFlags (s : State) (c q : Nat) (ix : Word) (ovf nan : Bool) : State :=
  s.setStarted c q ix fun d => { d with ovf := d.ovf || ovf, nan := d.nan || nan }

/-- Write segment i of result block b with its ranks. -/
def State.cvStore (s : State) (k : ConvoyKey) (c q j : Nat) (x : Started) (p : Coll) (b i : Nat) (r : Partial) : State :=
  let n := p.segLen b i
  let (v, ranks, o, na) := p.store n r
  let first := (if p.kind = 1 && p.ring then b * p.full else 0) + i * p.eseg
  let s := s.cvFlags c q x.index o na
  let s := s.cvWrite k c q j x (p.dst + first * p.ew) (plain v)
  let s := if p.aux = 0 then s else s.cvWrite k c q j x (p.aux + 64 + 4 * first) (plain ranks)
  s.setConvoy k fun cv => { cv with contrib := r.contrib }

/-- Bytes of a received segment with their husk marks: the mask stands for sectors of the payload's place in DST. -/
def segBytes (addr : Nat) (g : Seg) : HBytes :=
  g.payload.zipIdx.map fun b => (b.1, g.mask.getLsbD ((addr + b.2) / 32 - addr / 32))

/-- Where segment i of block b of a collective that moves bytes lies in DST. -/
def Coll.at_ (p : Coll) (b i : Nat) : Nat := p.dst + (if p.kind = 3 then b * p.count else 0) + i * p.eseg

/-- A segment of bytes sent on. -/
def byteSeg (skind port i step addr : Nat) (b : HBytes) : Seg :=
  { skind := skind, port := port, seg := i, step := step, contrib := 1, payload := b.map (·.1), mask := maskOf addr b }

/-- Send the same segment to several ports. -/
def State.sendSegs (s : State) (k : ConvoyKey) (l : List Seg) : State := l.foldl (fun s g => s.sendSeg k g) s

/-- The ports all have room for one more segment (R268). -/
def Convoy.room (cv : Convoy) (ports : List Nat) : Bool := ports.all fun p => cv.open_ p < 8

/-- A reducing segment with a partial. -/
def Coll.segOf (p : Coll) (skind port i step : Nat) (r : Partial) : Seg :=
  { skind := skind, port := port, seg := i, step := step, contrib := r.contrib, payload := p.pack r }

/-- Form the next own segment, if what it needs has arrived and its edges have room. -/
def State.cvLocal (s : State) (cv : Convoy) (c q j : Nat) (x : Started) (p : Coll) : Option State :=
  let k := cv.key
  let i := cv.next
  let step := fun (s : State) => s.setConvoy k fun v => { v with next := i + 1 }
  if p.locals ≤ i then none
  else if p.ring then
    let out := if p.members = 1 then [] else [p.next]
    if !cv.room out then none
    else if p.kind = 3 then
      match s.ownBytes c j x p i with
      | .error f => some (s.cvFail k f)
      | .ok b =>
        let at_ := p.at_ p.rank i
        some ((step (s.cvWrite k c q j x at_ b)).sendSegs k (out.map fun o => byteSeg 2 o i 0 at_ b))
    else
      let b := p.firstBlock
      match s.ownPart c j x p b i with
      | .error f => some (s.cvFail k f)
      | .ok r =>
        some (if p.members = 1 then step (s.cvStore k c q j x p b i r) else (step s).sendSegs k (out.map fun o => p.segOf 2 o i 0 r))
  else if p.kind = 4 then
    if !cv.room p.kids then none
    else match s.ownBytes c j x p i with
      | .error f => some (s.cvFail k f)
      | .ok b =>
        let at_ := p.at_ 0 i
        some ((step (s.cvWrite k c q j x at_ b)).sendSegs k (p.kids.map fun o => byteSeg 1 o i 0 at_ b))
  else
    let got := p.kids.map fun o => cv.rx.find? fun g => g.skind == 0 && g.port == o && g.seg == i
    if got.any (·.isNone) || !cv.room (match p.up with | some u => [u] | none => p.kids) then none
    else match s.ownPart c j x p 0 i with
      | .error f => some (s.cvFail k f)
      | .ok own =>
        let n := p.segLen 0 i
        let (r, o, na) := (got.filterMap id).foldl (fun (a : Partial × Bool × Bool) g =>
          let (m, o, na) := p.combine a.1 (p.unpack g.contrib n g.payload)
          (m, a.2.1 || o, a.2.2 || na)) (own, false, false)
        let s := (step (s.cvFlags c q x.index o na)).setConvoy k fun v =>
          { v with rx := v.rx.filter fun g => !(g.skind == 0 && g.seg == i) }
        some (match p.up with
          | some u => s.sendSeg k (p.segOf 0 u i 0 r)
          | none => (s.cvStore k c q j x p 0 i r).sendSegs k (p.kids.map fun o => p.segOf 1 o i 0 r))

/-- Use one received segment of the parent or the ring. -/
def State.cvUse (s : State) (cv : Convoy) (c q j : Nat) (x : Started) (p : Coll) (g : Seg) : State :=
  let k := cv.key
  let s := s.setConvoy k fun v => { v with rx := v.rx.erase g }
  let b := if p.ring then p.blockAt g.step else 0
  let n := p.segLen b g.seg
  if !p.reduces then
    let at_ := p.at_ b g.seg
    let bytes := segBytes at_ g
    let out := if p.ring then (if g.step + 1 < p.steps then [{ g with port := p.next, step := g.step + 1 }] else [])
      else p.kids.map fun o => { g with port := o }
    (s.cvWrite k c q j x at_ bytes).sendSegs k out
  else
    let r := p.unpack g.contrib n g.payload
    if !p.ring then (s.cvStore k c q j x p 0 g.seg r).sendSegs k (p.kids.map fun o => { g with port := o })
    else if g.step + 1 < p.members then
      match s.ownPart c j x p b g.seg with
      | .error f => s.cvFail k f
      | .ok own =>
        let (m, o, na) := p.combine r own
        let s := s.cvFlags c q x.index o na
        if g.step + 2 < p.members then s.sendSeg k (p.segOf 2 p.next g.seg (g.step + 1) m)
        else
          let s := s.cvStore k c q j x p b g.seg m
          if p.kind = 1 then s.sendSeg k (p.segOf 2 p.next g.seg (g.step + 1) m) else s
    else
      let s := s.cvStore k c q j x p b g.seg r
      if g.step + 1 < p.steps then s.sendSeg k { g with port := p.next, step := g.step + 1 } else s

/-- The next received segment that can be used now. -/
def Convoy.usable (cv : Convoy) (p : Coll) : Option Seg :=
  cv.rx.find? fun g => (g.skind == 1 && cv.room p.kids) || (g.skind == 2 && cv.room [p.next])

/-! ### The work of a caravan (R276, R277) -/

/-- Bytes of 4 MiB segment n of an image. -/
def carLen (len n : Nat) : Nat := min (2 ^ 22) (len - n * 2 ^ 22)

/-- Put the packets of a segment, read from an address, on a child's port: DATA in order, then the DIGEST. -/
def State.putCar (s : State) (k : ConvoyKey) (c j : Nat) (x : Started) (p : Coll) (port n : Nat) : State × Option Fail :=
  let len := carLen p.count n
  match s.engRead c (engDie j) x (p.dst + n * 2 ^ 22) len with
  | .error f => (s, some f)
  | .ok b =>
    let s := ((chunks 4096 b).zipIdx).foldl (fun s g =>
      let off := n * 2 ^ 22 + 4096 * g.2
      s.queuePkt port 6 (s.cvPacket 7 k k.epoch port k.convoy.toNat off (g.1.map (·.1)) (maskOf 0 g.1))) s
    (s.queuePkt port 6 (s.cvPacket 7 k k.epoch port (k.convoy.toNat + 2 ^ 16) n (sha256 (b.map (·.1))) 0), none)

/-- Send a caravan segment to several children. -/
def State.sendCar (s : State) (k : ConvoyKey) (c j : Nat) (x : Started) (p : Coll) (ports : List Nat) (n : Nat) : State :=
  ports.foldl (fun s port =>
    if !s.cvActive k then s
    else match s.putCar k c j x p port n with
    | (s, some f) => s.cvFail k f
    | (s, none) => s.setConvoy k fun v => { v with tx := v.tx ++ [{ skind := 0, port := port, seg := n, sentAt := s.time.mono }] }) s

/-- The root's next segment: stored at DST and sent, while at most four are unacknowledged on each edge. With SRC_ADDR = DST_ADDR
nothing is stored, and husks of the image are moved all the same (R198). -/
def State.carLocal (s : State) (cv : Convoy) (c q j : Nat) (x : Started) (p : Coll) : Option State :=
  let k := cv.key
  let n := cv.next
  if p.locals ≤ n || p.kids.any (fun o => cv.open_ o ≥ 4) then none
  else
    let s1 := match s.engRead c (engDie j) x (p.src + n * 2 ^ 22) (carLen p.count n) with
      | .error f => s.cvFail k f
      | .ok b =>
        if p.src = p.dst then (if b.any (·.2) then s.setStarted c q x.index fun d => { d with husk := true } else s)
        else s.cvWrite k c q j x (p.dst + n * 2 ^ 22) b
    some ((s1.setConvoy k fun v => { v with next := n + 1 }).sendCar k c j x p p.kids n)

/-- Segments verified in order and acknowledged by every child are acknowledged to the parent. -/
def State.carAck (s : State) (cv : Convoy) (p : Coll) : Option State :=
  match p.up with
  | none => none
  | some u =>
    if cv.up < cdiv p.count (2 ^ 22) && cv.taken.contains (1, 0, cv.up, u) && !(cv.tx.any (·.seg == cv.up)) then
      some ((s.sendAck true cv.key cv.key.epoch u 0 cv.up 0).setConvoy cv.key fun v => { v with up := v.up + 1 })
    else none

/-! ### Barriers and the end (R265, R266, R277) -/

/-- A barrier with a change. -/
def State.setBarrier (s : State) (b : Nat) (f : Barrier → Barrier) : State :=
  match s.fab.barriers.lookup b with
  | some x => { s with fab := { s.fab with barriers := mput s.fab.barriers b (f x) } }
  | none => s

/-- The final CONTRIB of a member's result (R265). -/
def Coll.finalContrib (p : Coll) (cv : Convoy) : Nat :=
  if p.kind = 3 then p.members else if p.kind = 4 then 1 else cv.contrib

/-- Write CONTRIB at AUX_ADDR. -/
def State.cvAux (s : State) (cv : Convoy) (c q j : Nat) (x : Started) (p : Coll) : State :=
  if p.aux = 0 then s else s.cvWrite cv.key c q j x p.aux (plain (leBytes 8 (p.finalContrib cv)))

/-- The barrier is released here: RELEASE to the children, and the commit point may be reached. -/
def State.cvRelease (s : State) (cv : Convoy) (c q j : Nat) (x : Started) (p : Coll) (contrib : Nat) : State :=
  let s := s.setConvoy cv.key fun v => { v with released := true, contrib := if p.kind = 5 then contrib else v.contrib }
  let cv := (s.convoy? cv.key).getD cv
  let s := if p.kind = 5 then s.cvAux cv c q j x p else s
  let s := s.setBarrier p.barrier fun b => { b with gen := b.gen + 1, child := 0, self := false }
  let s := s.sendSegs cv.key (p.kids.map fun o => { skind := 5, port := o, seg := 0, contrib := contrib })
  s.setConvoy cv.key fun v => { v with done := v.st == .active }

/-- This member's data are done: own work formed, everything received and written, every segment acknowledged, no PUT open. -/
def Convoy.dataDone (cv : Convoy) (x : Started) (p : Coll) : Bool :=
  p.locals ≤ cv.next && cv.tx.isEmpty && cv.rx.isEmpty && x.reqs == 0 &&
    (cv.taken.filter fun t => t.1 == 1 || t.1 == 2).length ≥ p.inbound

/-- Finish what can be finished: the caravan, the collective without a barrier, ARRIVE, the root's RELEASE. -/
def State.cvFinish (s : State) (cv : Convoy) (c q j : Nat) (x : Started) (p : Coll) : Option State :=
  let k := cv.key
  if cv.done then none
  else if p.car then
    let n := cdiv p.count (2 ^ 22)
    if (match p.up with | some _ => cv.up == n | none => cv.next == n && cv.tx.isEmpty) then
      let s :=
        if p.aux = 0 then s
        else match s.engRead c (engDie j) x p.dst p.count with
          | .error f => s.cvFail k f
          | .ok b => s.cvWrite k c q j x p.aux (plain (sha256 (b.map (·.1))))
      some (s.setConvoy k fun v => { v with done := v.st == .active })
    else none
  else if !cv.arrived then
    if !cv.dataDone x p then none
    else
      let s := if p.kind = 5 then s else s.cvAux cv c q j x p
      if p.barEn then
        some ((s.setConvoy k fun v =>
            { v with arrived := true, contrib := if p.kind = 5 then v.contrib + b2n (!p.noContrib) else v.contrib }).setBarrier
          p.barrier fun b => { b with self := true })
      else some (s.setConvoy k fun v => { v with arrived := true, done := v.st == .active })
  else if p.barEn && !cv.released && p.kids.all (fun o => cv.children.getLsbD o) then
    match p.up with
    | none => some (s.cvRelease cv c q j x p cv.contrib)
    | some u =>
      if cv.taken.contains (4, 0, 0, u) then none
      else
        some ((s.setConvoy k fun v => { v with taken := v.taken ++ [(4, 0, 0, u)] }).sendSeg k
          { skind := 4, port := u, seg := 0, contrib := cv.contrib })
  else none

/-- One piece of work of a convoy, if there is one. -/
def State.cvStep (s : State) (k : ConvoyKey) : Option State :=
  match s.convoy? k with
  | none => none
  | some cv =>
    match cv.st, cv.owner with
    | .active, some (c, q, ix) =>
      match s.started? c q ix, s.queue? c q with
      | some x, some qu =>
        let p := collOf x cv.plan
        if p.car then s.carLocal cv c q qu.eng x p <|> s.carAck cv p <|> s.cvFinish cv c q qu.eng x p
        else
          match s.cvLocal cv c q qu.eng x p with
          | some s => some s
          | none => match cv.usable p with
            | some g => some (s.cvUse cv c q qu.eng x p g)
            | none => s.cvFinish cv c q qu.eng x p
      | _, _ => none
    | _, _ => none

/-- Everything a convoy can do now, at most n pieces. -/
def State.cvGo (s : State) (k : ConvoyKey) : Nat → State
  | 0 => s
  | n + 1 => match s.cvStep k with
    | none => s
    | some s => s.cvGo k n

/-- The same with enough pieces: own segments left, segments waiting, and the few steps of the end. -/
def State.cvRun (s : State) (k : ConvoyKey) : State :=
  match s.convoy? k with
  | none => s
  | some cv =>
    let n := match s.cvDesc cv with
      | some x => (collOf x cv.plan).locals
      | none => 0
    s.cvGo k (2 * n + cv.rx.length + 2 ^ 10)

end Sys2Proof.Machine
end

