-- ==== Sys2Proof/Machine/Packets.lean ====
section
/-! DEFINITION. Packets as bytes (R220) and their taking over from a port's input. -/

namespace Sys2Proof.Machine

/-- The header of a packet (R220): four doublewords. -/
def pktHeader (k : Packet) : List Byte :=
  leBytes 8 (k.ptype.toNat + k.cls.toNat * 2 ^ 4 + b2n k.start * 2 ^ 6 + b2n k.hm * 2 ^ 7 + b2n k.esc * 2 ^ 8 +
    k.dl.toNat * 2 ^ 9 + b2n k.tsr * 2 ^ 12 + bitsOf k.rsvd.toNat 2 0 * 2 ^ 13 + k.dst.toNat * 2 ^ 16 +
    bitsOf k.rsvd.toNat 3 3 * 2 ^ 31 + k.src.toNat * 2 ^ 32 + bitsOf k.rsvd.toNat 4 4 * 2 ^ 47 + k.slice.toNat * 2 ^ 48 + bitsOf k.rsvd.toNat 11 8 * 2 ^ 60) ++
  leBytes 8 (k.epoch.toNat + k.seq.toNat * 2 ^ 16 + k.len.toNat * 2 ^ 32 + bitsOf k.rsvd.toNat 7 5 * 2 ^ 45 +
    k.tsId.toNat * 2 ^ 48) ++
  leBytes 8 k.dw2.toNat ++ leBytes 8 k.dw3.toNat

/-- A packet as it travels: header, husk mask, payload, padded to a multiple of 4 (R220). -/
def pktBytes (k : Packet) : List Byte :=
  let b := pktHeader k ++ (if k.hm then leBytes 16 k.mask.toNat else []) ++ k.payload
  b ++ List.replicate ((4 - b.length % 4) % 4) 0

/-- Length of the packet whose header bytes are given (R220). -/
def pktLenOf (h : List Byte) : Nat :=
  let d0 := fieldAt h 0 8
  let len := bitsOf (fieldAt h 8 8) 44 32
  32 + (if bitOf d0 7 then 16 else 0) + (if bitsOf d0 3 0 = 2 then 0 else cdiv len 4 * 4)

/-- A command that names a packet takes it out of what its port has received, if it came by flits. -/
def State.takePkt (s : State) (p : Nat) (b : List Byte) : State := s.setPort p fun x => { x with rxPkts := x.rxPkts.erase b }
/-- The same for a packet named by its payload. -/
def State.takePay (s : State) (p : Nat) (pay : List Byte) : State :=
  s.setPort p fun x => { x with rxPkts := x.rxPkts.eraseP fun b => (b.drop 32).take pay.length == pay }

/-- Bits of the header that are reserved, and the reserved bits of doubleword 2 of a request, are 0 (R228 check 6). -/
def pktReserved (k : Packet) : Bool := k.rsvd == 0 && bitsOf k.dw2.toNat 51 48 == 0 && bitsOf k.dw2.toNat 63 57 == 0

/-- A slice entry's drops on a die (WG_SLICE_DROPSs): STALE, AHEAD, BOUNDARY. -/
def State.countDrop (s : State) (die e : Nat) (f : Nat × Nat × Nat → Nat × Nat × Nat) : State :=
  s.setWg die fun d => { d with drops := mmod (0, 0, 0) d.drops e f }
def dropStale (x : Nat × Nat × Nat) : Nat × Nat × Nat := (satAdd 0xFFFF x.1 1, x.2.1, x.2.2)
def dropAhead (x : Nat × Nat × Nat) : Nat × Nat × Nat := (x.1, satAdd 0xFFFF x.2.1 1, x.2.2)
def dropBoundary (x : Nat × Nat × Nat) : Nat × Nat × Nat := (x.1, x.2.1, satAdd 0xFFFF x.2.2 1)

/-! ### Calibration and LINK stamps (R52, R469) -/

/-- A section of a calibration set (R469): the bytes its directory entry names, empty when there is none. -/
def calSection (set : List Byte) (id : Nat) : List Byte :=
  match (List.range (fieldAt set 6 2)).find? fun i => fieldAt set (0x40 + 16 * i) 2 == id with
  | some i => (set.drop (fieldAt set (0x44 + 16 * i) 4)).take (fieldAt set (0x48 + 16 * i) 4)
  | none => []

/-- The check of R469 that a calibration set fails, and the section: 1 magic or version, 2 serial, 3 length, 4 section CRC,
5 range; 0 for a valid set (R471, R472). Sections lie apart, after the directory; all other bytes are zero; the shares of a die,
one each of ME, VE, DE and hart, sum to 65,536 over its 36 units. -/
def State.calFail (s : State) (b : List Byte) : Nat × Nat :=
  let n := fieldAt b 6 2
  let len := fieldAt b 8 4
  let off := fun (i : Nat) => fieldAt b (0x44 + 16 * i) 4
  let size := fun (i : Nat) => fieldAt b (0x48 + 16 * i) 4
  let id := fun (i : Nat) => fieldAt b (0x40 + 16 * i) 2
  let is := List.range 6
  let inSec := fun (k : Nat) => is.any fun i => off i ≤ k && k < off i + size i
  let want := fun (i : Nat) => ([0, 0, 0, 104, 0, 52, 64].getD (id i) 0)
  let six := calSection b 6
  let sum := fun (d : Nat) => 16 * fieldAt six (8 * d) 2 + 4 * fieldAt six (8 * d + 2) 2 + 8 * fieldAt six (8 * d + 4) 2 +
    8 * fieldAt six (8 * d + 6) 2
  if fieldAt b 0 4 != 0x4C41435A || fieldAt b 4 2 != 1 then (1, 0)
  else if fieldAt b 16 8 != s.fuse.serial.toNat then (2, 0)
  else if n != 6 || len != b.length || 262144 < len || len < 0xA0 then (3, 0)
  else match is.find? fun i => off i < 0xA0 || len < off i + size i || is.any fun j => j < i && off j < off i + size i &&
      off i < off j + size j with
    | some i => (3, id i)
    | none => match is.find? fun i => (crc32c ((b.drop (off i)).take (size i))).toNat != fieldAt b (0x4C + 16 * i) 4 with
      | some i => (4, id i)
      | none => match is.find? fun i => id i = 0 || 6 < id i || fieldAt b (0x42 + 16 * i) 2 != 0 || size i < want i ||
          is.any fun j => j < i && id j == id i with
        | some i => (5, id i)
        | none =>
          if fieldAt b 12 4 != 0 || ((b.drop 24).take 40).any (· != 0) ||
              ((b.drop 0xA0).zipIdx.any fun e => e.1 != 0 && !inSec (e.2 + 0xA0)) then (5, 0)
          else if (List.range 4).any fun d => sum d != 65536 then (5, 6)
          else (0, 0)

/-- The stored set if it is valid, else none: built-in defaults (R471). -/
def State.validCal (s : State) : List Byte := if (s.calFail s.ctd.nv.cal).1 = 0 then s.ctd.nv.cal else []

/-- A signed field of 32 bits. -/
def sfield32 (l : List Byte) (o : Nat) : Int := (BitVec.ofNat 32 (fieldAt l o 4)).toInt

/-- The LINK stamp of a port now (R52): its die's POD plus the port's delay compensation in picoseconds. -/
def State.linkStamp (s : State) (p : Nat) : BitVec 64 :=
  let t := s.dt (portDie p)
  let d := sfield32 (calSection s.toll.calUse 5) (4 * p)
  if t.seen then stampWord ((t.pod + d * 1000000000) / nsUnit).toNat t.holdover !t.locked else 0

end Sys2Proof.Machine
end

