-- ==== Sys2Proof/Machine/Segments.lean ====
section
/-! DEFINITION. The events of convoys (chapter 08): start, segments, acknowledgements, aborts, release of entries. -/

namespace Sys2Proof.Machine

/-! ### Start (R257-R260, R270) -/

/-- The key of a descriptor's convoy. -/
def State.cvKey (s : State) (c : Nat) (x : Started) : ConvoyKey :=
  { slice := s.sliceIdOf c, epoch := BitVec.ofNat 16 x.epoch, convoy := BitVec.ofNat 16 (x.dw 1) }

/-- Eight doublewords of a plan, or why they cannot be had. -/
def State.readPlan (s : State) (c j : Nat) (x : Started) : Except Fail (List Nat) :=
  (s.engUse c (engDie j) x 3 x.planAddr 64).map fun b => (List.range 8).map fun i => fieldAt b (8 * i) 8

/-- A plan this member may use (R260). -/
def State.planOk (s : State) (c : Nat) (p : Coll) (plan : List Nat) : Bool :=
  let d := fun i => plan.getD i 0
  let bnd := (((s.ctx c).slice.bind fun e => s.fab.slices.lookup e).map fun e => e.boundary.toNat).getD 0
  let named := p.up.toList ++ p.kids ++ (if p.ring then [p.next, p.prev] else [])
  bitsOf (d 0) 47 45 == 0 && bitsOf (d 0) 63 61 == 0 && bitsOf (d 1) 15 12 == 0 && bitsOf (d 1) 63 32 == 0 &&
    (d 2 == 0 || (!p.car && p.kind == 5)) && (List.range 5).all (fun i => d (3 + i) == 0) &&
    1 ≤ p.members && p.members ≤ 32768 && p.rank < p.members &&
    bitsOf (d 1) 11 0 == (s.sliceIdOf c).toNat && named.all (fun o => s.isUp o && !bitOf bnd o) && noDup named &&
    (p.up.isNone == (bitsOf (d 1) 31 16 == p.members)) &&
    (if p.car then true else if p.kind = 4 || p.kind = 5 then !p.ring else if p.kind = 1 then true else p.ring)

/-- An address of a collective or caravan that is one: local usable memory, a multiple of 64 (R257, R275). -/
def State.cvAddrOk (s : State) (v : Nat) : Bool := v / 2 ^ 52 == 0 && v % 64 == 0 && (s.localOff v).isSome

/-- Fields of a broadcast or caravan that only the plan shows to be wrong (R257, R275), as positions of R501: a SRC_ADDR at a member
other than the root, one at the root that is no local address, RING = 1 of a caravan. DESIGN CHOICE (log 61): the last is reported at
PLAN_ADDR, since RING is no field of the descriptor; each of them starts an abort with cause STATUS. -/
def State.cvPlanBad (s : State) (p : Coll) : Option (Nat × Nat) :=
  let i := if p.car then 4 else 12
  if !p.car && p.kind != 4 then none
  else if p.up.isSome && p.src != 0 then some (i, ((List.range 64).find? fun k => p.src.testBit k).getD 0)
  else if p.up.isNone && !s.cvAddrOk p.src then some (i, 0)
  else if p.car && p.ring then some (11, 0)
  else none

/-- An ABORTED entry for a descriptor that ends before it has an ACTIVE one; its neighbours, if the plan can be read, are
told (R271). A plan behind a path change counts as one that cannot be read. -/
def State.abortUnstarted (s : State) (c q j : Nat) (x : Started) (cause : Nat) : State :=
  let k := s.cvKey c x
  if (s.convoy? k).isSome then s
  else
    let plan := match s.readPlan c j x with
      | .ok p => p
      | .error _ => []
    let m := s.ownAbort k cause
    let ports := if plan.isEmpty then [] else (collOf x plan).edges
    let s := { s with fab := { s.fab with originated := satAdd 0xFFFF s.fab.originated 1 } }
    if s.fab.convoys.length < 512 then
      let cv : Convoy :=
        { key := k, st := .aborted, plan := plan, cause := cause, origin := s.ownId, originPod := m.originPod, endAt := s.time.mono }
      let s := { s with fab := { s.fab with convoys := s.fab.convoys ++ [cv] } }
      (s.flood k ports none).logConvoy { cv with owner := some (c, q, x.index) } m 4
    else
      ((s.known ports).foldl (fun s p => s.sendCtrl p (s.port p).coord 1 0 m) s).log 0x0303 4 (srcDieUnit (engDie j) (engUnit j))
        [k.slice.toNat, k.convoy.toNat, k.epoch.toNat, cause, s.ownId, 4, c, 0]

/-- PUTs of one block of an all-to-all, split at the target's 4 KiB (R223, R263). -/
def State.a2aPuts (s : State) (c q j : Nat) (x : Started) (p : Coll) (block dst : Nat) : State :=
  let k := s.cvKey c x
  let to_ := p.dst % 2 ^ 48 + p.rank * p.count
  (packetsOf to_ p.count).foldl (fun s g =>
    let from_ := p.src + block * p.count + (g.1 - to_)
    match s.engRead c (engDie j) x from_ g.2 with
    | .error f => s.cvFail k f
    | .ok _ =>
      let r := { s.mkReq c q x 1 dst g.1 g.2 with src := s.place from_ |> fun | .loc o => some o | _ => none }
      (s.noteRemote j c dst).descReq c q x.index r false) s

/-- All-to-all: own block copied, the others sent (R263). -/
def State.a2aStart (s : State) (c q j : Nat) (x : Started) (p : Coll) (table : List Nat) : State :=
  let k := s.cvKey c x
  if p.noContrib || p.count = 0 then s
  else
    (List.range p.members).foldl (fun s b =>
      if b = p.rank || table.getD b 0 = s.ownId then
        match s.engRead c (engDie j) x (p.src + b * p.count) p.count with
        | .error f => s.cvFail k f
        | .ok d => s.cvWrite k c q j x (p.dst + p.rank * p.count) d
      else s.a2aPuts c q j x p b (table.getD b 0)) s

/-- A PUT of an all-to-all has its final answer, or its failure ends the convoy. -/
def State.cvSettled (s : State) (c q : Nat) (ix : Word) : State :=
  match s.started? c q ix with
  | none => s
  | some x => match x.convoy with
    | none => s
    | some k => match x.fail with
      | some f => s.startAbort k 1 (some f)
      | none => if x.reqs = 0 then s.cvRun k else s

/-- A COLLECTIVE or CARAVAN whose checks have passed starts (R260, R270, R273). -/
def State.startConvoy (s : State) (c q j : Nat) (ix : Word) : State :=
  match s.started? c q ix with
  | none => s
  | some x =>
    let k := s.cvKey c x
    let s := s.setStarted c q ix fun d => { d with convoy := some k }
    let failNow := fun (s : State) (f : Fail) => s.setStarted c q ix fun d => { d with fail := some f, work := true }
    match s.convoy? k with
    | some cv =>
      -- an entry recorded by an ABORT: this descriptor ends at once and floods with its plan
      let s := (s.failDesc c q ix (abortedFail cv.msg)).setStarted c q ix fun d => { d with work := true, convoy := none }
      match s.readPlan c j x with
      | .ok plan => s.flood k (collOf x plan).edges none
      | .error _ => s
    | none =>
      if s.fab.convoys.length ≥ 512 then
        let s := { s with fab := { s.fab with tableFull := satAdd 0xFFFF s.fab.tableFull 1 } }
        let s := s.log 0x0304 4 (srcDieUnit (engDie j) (engUnit j)) [k.slice.toNat, k.convoy.toNat, c]
        failNow (s.abortUnstarted c q j x 8) (abortedFail (s.ownAbort k 8))
      else
        let cv : Convoy := { key := k, st := .active, owner := some (c, q, ix), car := x.opcode == 0x37 }
        let s := { s with fab := { s.fab with convoys := s.fab.convoys ++ [cv] } }
        match s.readPlan c j x with
        | .error f => s.startAbort k 1 (some f)
        | .ok plan =>
          let p := collOf x plan
          let s := s.setConvoy k fun v => { v with plan := plan.take 3 }
          if !s.planOk c p plan then s.startAbort k 6 none
          else if let some at_ := s.cvPlanBad p then s.startAbort k 1 (some (0x10, at_.1 + at_.2 * 2 ^ 8, 0))
          else if p.car || p.kind != 5 then s.cvRun k
          else
            match s.engUse c (engDie j) x 3 (plan.getD 2 0) (2 * p.members) with
            | .error f => s.startAbort k 1 (some f)
            | .ok b =>
              let table := (List.range p.members).map fun i => bitsOf (fieldAt b (2 * i) 2) 14 0
              ((s.setConvoy k fun v => { v with table := table }).a2aStart c q j x p table).cvSettled c q ix

/-! ### Segments (R228, R229, R261, R267, R268) -/

/-- What a segment packet says. -/
def segSkind (k : Packet) : Nat := bitsOf k.dw2.toNat 19 16
def segAck (k : Packet) : Nat := bitsOf k.dw2.toNat 23 20
def segKey (k : Packet) : ConvoyKey := { slice := k.slice, epoch := k.epoch, convoy := BitVec.ofNat 16 k.dw2.toNat }
def segIndex (k : Packet) : Nat := bitsOf k.dw3.toNat 31 0
def segContrib (k : Packet) : Nat := bitsOf k.dw3.toNat 47 32
def segStep (k : Packet) : Nat := bitsOf k.dw3.toNat 63 48
def carOffset (k : Packet) : Nat := bitsOf k.dw3.toNat 39 0

/-- Checks every segment meets: this port carries it, its slice is held and the port is inside it; then its epoch. Answers
the slice entry, or the state after a drop. `stop` gives what is sent back for a status. -/
def State.segGate (s : State) (port : Nat) (k : Packet) (stop : State → SliceEnt → Nat → State) : Except State SliceEnt :=
  if !s.isUp port || k.dst.toNat != s.ownId then .error s
  else match s.sliceOf k.slice with
    | none => .error (s.setWg (portDie port) fun d => { d with noSlice := satAdd 0xFFFF d.noSlice 1 })
    | some (e, ent) =>
      if bitOf ent.boundary.toNat port then .error (s.countDrop (portDie port) e dropBoundary)
      else if k.epoch == ent.epoch then .ok ent
      else
        let s := s.countEv (portDie port) 0x053 port none 1
        if newerEpoch ent.epoch k.epoch then .error (stop (s.countDrop (portDie port) e dropStale) ent 1)
        else .error (stop (s.countDrop (portDie port) e dropAhead) ent 2)

/-- A COLL_SEG's fixed form: reserved fields 0, a defined SKIND, no CONTRIB or step where there is none. -/
def segForm (k : Packet) : Bool :=
  pktReserved k && bitsOf k.dw2.toNat 63 20 == 0 && k.seq == 0 && k.payload.length == k.len.toNat &&
    (segSkind k == 0 || segSkind k == 1 || segSkind k == 2 || segSkind k == 4 || segSkind k == 5) &&
    (segSkind k == 2 || segStep k == 0)

/-- A segment fits the plan at this member: from the right edge, in range, with the length of its elements (R267). -/
def Coll.fits (p : Coll) (port : Nat) (k : Packet) : Bool :=
  let sk := segSkind k
  let i := segIndex k
  let blk := if p.ring then p.blockAt (segStep k) else 0
  let edge := match sk with
    | 0 => p.kind == 1 && !p.ring && p.kids.contains port
    | 1 => (p.kind == 1 && !p.ring || p.kind == 4) && p.up == some port
    | 2 => p.ring && p.prev == port && segStep k < p.steps
    | 4 => p.barEn && p.kids.contains port
    | _ => p.barEn && p.up == some port
  !p.car && edge && (!p.reduces || !k.hm) &&
    (if sk ≥ 4 then k.len == 0 && i == 0
     else i < p.nseg (p.blockLen blk) && k.len.toNat == p.payLen (p.segLen blk i) (segContrib k))

/-- A segment taken over by its convoy. -/
def State.cvTake (s : State) (cv : Convoy) (p : Coll) (port : Nat) (k : Packet) : State :=
  let sk := segSkind k
  let key := cv.key
  let mark := (sk, segStep k, segIndex k, port)
  if cv.taken.contains mark then s
  else
    let s := s.setConvoy key fun v => { v with taken := v.taken ++ [mark] }
    let s :=
      if sk = 4 then
        (s.setConvoy key fun v =>
          { v with
            children := v.children ||| BitVec.ofNat 13 (2 ^ port)
            contrib := if p.kind = 5 then v.contrib + segContrib k else v.contrib }).setBarrier p.barrier fun b =>
          { b with child := b.child ||| BitVec.ofNat 13 (2 ^ port) }
      else if sk = 5 then
        match cv.owner with
        | some (c, q, ix) => match s.started? c q ix, s.queue? c q with
          | some x, some qu => s.cvRelease cv c q qu.eng x p (segContrib k)
          | _, _ => s
        | none => s
      else
        s.setConvoy key fun v =>
          { v with rx := v.rx ++ [{ skind := sk, port := port, seg := segIndex k, step := segStep k, contrib := segContrib k
                                    payload := k.payload, mask := if k.hm then k.mask else 0 }] }
    s.cvRun key

/-- COLL_SEG_RECEIVE (R261, R266, R267, R268): checked, acknowledged, used. -/
def execCollSegReceive (port : Fin 13) (pkt : Packet) (s : State) : Host.Outcome State Fault Refusal :=
  s.orWait <|
    let s := s.takePkt port (pktBytes pkt)
    if pkt.ptype != 6 || segSkind pkt == 3 then s
    else
      let ack := fun (s : State) (epoch : BitVec 16) st => s.sendAck false (segKey pkt) epoch port st (segIndex pkt) (segStep pkt)
      match s.segGate port pkt fun s ent st => ack s ent.epoch st with
      | .error s => s
      | .ok ent =>
        let bad := fun (s : State) =>
          ack (s.setWg (portDie port) fun d => { d with malformed := satAdd 0xFFFF d.malformed 1 }) ent.epoch 5
        if !segForm pkt then bad s
        else match s.convoy? (segKey pkt) with
          | none => ack s ent.epoch 3
          | some cv => match cv.st with
            | .aborted => ack s ent.epoch 4
            | .complete => ack s ent.epoch 0
            | .active => match s.cvDesc cv with
              | none => ack s ent.epoch 3
              | some x =>
                let p := collOf x cv.plan
                if !p.fits port pkt then bad s else (ack s ent.epoch 0).cvTake cv p port pkt

/-- A DATA packet of an active caravan: stored and forwarded at once (R276). -/
def State.carData (s : State) (cv : Convoy) (c q j : Nat) (x : Started) (p : Coll) (port : Nat) (k : Packet) : State :=
  let off := carOffset k
  let n := off / 2 ^ 22
  if cv.taken.contains (1, 0, n, port) then s
  else
    let g : Seg := { skind := 0, port := port, seg := n, payload := k.payload, mask := if k.hm then k.mask else 0 }
    let s := s.cvWrite cv.key c q j x (p.dst + off) (segBytes 0 g)
    let s := s.setConvoy cv.key fun v =>
      if v.taken.contains (0, 0, off, port) then v else { v with taken := v.taken ++ [(0, 0, off, port)] }
    p.kids.foldl (fun s o => s.queuePkt o 6 (s.cvPacket 7 cv.key cv.key.epoch o cv.key.convoy.toNat off k.payload
      (if k.hm then k.mask else 0))) s

/-- Every DATA packet of 4 MiB segment n has been taken. -/
def Convoy.whole (cv : Convoy) (p : Coll) (port n : Nat) : Bool :=
  (List.range (cdiv (carLen p.count n) 4096)).all fun i => cv.taken.contains (0, 0, n * 2 ^ 22 + 4096 * i, port)

/-- The DIGEST of a segment that is complete: forwarded, checked over the stored bytes (R277). -/
def State.carDigest (s : State) (cv : Convoy) (c _q j : Nat) (x : Started) (p : Coll) (port : Nat) (k : Packet) : State :=
  let n := carOffset k
  if cv.taken.contains (1, 0, n, port) then s
  else
    let s := p.kids.foldl (fun s o => (s.queuePkt o 6 (s.cvPacket 7 cv.key cv.key.epoch o
        (cv.key.convoy.toNat + 2 ^ 16) n k.payload 0)).setConvoy cv.key fun v =>
      { v with tx := v.tx ++ [{ skind := 0, port := o, seg := n, sentAt := s.time.mono }] }) s
    match s.engRead c (engDie j) x (p.dst + n * 2 ^ 22) (carLen p.count n) with
    | .error f => s.cvFail cv.key f
    | .ok b =>
      if sha256 (b.map (·.1)) == k.payload then
        (s.setConvoy cv.key fun v => { v with taken := v.taken ++ [(1, 0, n, port)] }).cvRun cv.key
      else
        (s.log 0x0305 5 (s.cvSource cv) [cv.key.slice.toNat, cv.key.convoy.toNat, n, port]).startAbort cv.key 9 none

/-- A CARAVAN_SEG's form at this member: from the parent, in range, cut as R276 says. -/
def Coll.carFits (p : Coll) (port : Nat) (k : Packet) : Bool :=
  p.car && p.up == some port && pktReserved k && bitsOf k.dw2.toNat 63 20 == 0 && bitsOf k.dw3.toNat 63 40 == 0 &&
    k.seq == 0 && k.payload.length == k.len.toNat &&
    (if segSkind k = 0 then
      carOffset k % 4096 == 0 && carOffset k < p.count && k.len.toNat == min 4096 (p.count - carOffset k)
     else segSkind k == 1 && carOffset k < cdiv p.count (2 ^ 22) && k.len == 32 && !k.hm)

/-! ### ROM recovery as a caravan leaf (R480) -/

/-- The 4 MiB segments verified cover an image: a magic, a LENGTH in range, LENGTH + 384 bytes from offset 0. -/
def Staging.imageThere (g : Staging) : Bool :=
  let b := (List.range 16).map (cellGet g.bytes)
  let n := fieldAt b 12 4 + 384
  fieldAt b 0 4 == 0x57465A45 && n ≤ 2 ^ 23 && n ≤ g.top && (List.range (cdiv n (2 ^ 22))).all g.verified.contains

/-- A digest that fails: logged, and the convoy recorded as ABORTED with cause DIGEST, its ABORT sent to the parent. -/
def State.romAbort (s : State) (k : ConvoyKey) (port n : Nat) : State :=
  let m := s.ownAbort k 9
  let cv : Convoy :=
    { key := k, st := .aborted, car := true, cause := 9, origin := m.origin.toNat, originPod := m.originPod, endAt := s.time.mono }
  let s := (s.log 0x0305 5 (s.cvSource cv) [k.slice.toNat, k.convoy.toNat, n, port])
  let s := { s with fab := { s.fab with convoys := s.fab.convoys ++ [cv], originated := satAdd 0xFFFF s.fab.originated 1 } }
  (s.flood k [port] none).logConvoy cv m 4

/-- A DATA payload written to the staging area, a DIGEST checked over what has been staged of its segment. -/
def State.romSeg (s : State) (port : Nat) (k : Packet) : State :=
  let dig := segSkind k == 1
  let n := carOffset k
  let key := segKey k
  let g := s.mbox.stage
  let ack := fun (s : State) (epoch : BitVec 16) (st : Nat) => s.sendAck true key epoch port st (if dig then n else n / 2 ^ 22) 0
  if s.fab.slices.isEmpty then
    if s.isUp port && k.dst.toNat == s.ownId then ack s k.epoch 3 else s
  else match s.segGate port k fun s ent st => if dig then ack s ent.epoch st else s with
    | .error s => s
    | .ok ent =>
      let bad := fun (s : State) => ack (s.setWg (portDie port) fun d => { d with malformed := satAdd 0xFFFF d.malformed 1 }) ent.epoch 5
      if (s.convoy? key).isSome then if dig then ack s ent.epoch 4 else s
      else if g.imageThere || g.job.isSome || g.recovered.isSome then s
      else if !(pktReserved k && bitsOf k.dw2.toNat 63 20 == 0 && bitsOf k.dw3.toNat 63 40 == 0 && k.seq == 0 &&
          k.payload.length == k.len.toNat && segSkind k < 2 && (!dig || k.len == 32)) then bad s
      else if dig then
        let a := n * 2 ^ 22
        let b := (List.range (min (2 ^ 22) (g.top - a))).map fun i => cellGet g.bytes (a + i)
        if sha256 b == k.payload then
          ack { s with mbox := { s.mbox with stage := { g with verified := g.verified ++ [n] } } } ent.epoch 0
        else s.romAbort key port n
      else if 2 ^ 23 < n + k.payload.length then bad s
      else
        let g := { g with
          target := some 1, bytes := cellsPut g.bytes n k.payload, top := max g.top (n + k.payload.length), src := k.src.toNat }
        { s with mbox := { s.mbox with stage := g } }

/-- CARAVAN_SEG_RECEIVE (R276, R277, R480): DATA packets are stored and forwarded; the answer of a 4 MiB segment follows its
DIGEST (log 30). -/
def execCaravanSegReceive (port : Fin 13) (pkt : Packet) (s : State) : Host.Outcome State Fault Refusal :=
  s.orWait <|
    let s := s.takePkt port (pktBytes pkt)
    if pkt.ptype != 7 || segSkind pkt == 3 then s
    else if s.serving.any s.inRom then s.romSeg port pkt
    else
      let dig := segSkind pkt == 1
      let n := carOffset pkt
      let ack := fun (s : State) (epoch : BitVec 16) st => if dig then s.sendAck true (segKey pkt) epoch port st n 0 else s
      match s.segGate port pkt fun s ent st => ack s ent.epoch st with
      | .error s => s
      | .ok ent =>
        match s.convoy? (segKey pkt) with
        | none => ack s ent.epoch 3
        | some cv => match cv.st with
          | .aborted => ack s ent.epoch 4
          | .complete => ack s ent.epoch 0
          | .active => match cv.owner, s.cvDesc cv with
            | some (c, q, _), some x =>
              let p := collOf x cv.plan
              let j := ((s.queue? c q).map (·.eng)).getD 0
              if !p.carFits port pkt then
                (s.setWg (portDie port) fun d => { d with malformed := satAdd 0xFFFF d.malformed 1 }).sendAck true
                  (segKey pkt) ent.epoch port 5 (if dig then n else n / 2 ^ 22) 0
              else if !dig then s.carData cv c q j x p port pkt
              else if cv.whole p port n then s.carDigest cv c q j x p port pkt
              else ack s ent.epoch 3
            | _, _ => ack s ent.epoch 3

/-! ### Acknowledgements (R268) -/

/-- The segments an ACK may mean: same port, segment and step. -/
def ackOf (port seg step : Nat) (g : Seg) : Bool := g.port == port && g.seg == seg && g.step == step

/-- SEG_ACK_RECEIVE (R268). -/
def execSegAckReceive (port : Fin 13) (pkt : Packet) (s : State) : Host.Outcome State Fault Refusal :=
  s.orWait <|
    let s := s.takePkt port (pktBytes pkt)
    let car := pkt.ptype == 7
    let seg := if car then carOffset pkt else segIndex pkt
    let step := if car then 0 else segStep pkt
    if !(pkt.ptype == 6 || car) || segSkind pkt != 3 || !s.isUp port || pkt.dst.toNat != s.ownId then s
    else
      match s.fab.convoys.find? fun cv => cv.st == .active && cv.car == car && cv.key.slice == pkt.slice &&
          cv.key.convoy == (segKey pkt).convoy && cv.tx.any (ackOf port seg step) with
      | none => s
      | some cv =>
        let mark := fun (a : Nat) (s : State) =>
          let tx := modFirst (ackOf port seg step) (fun g =>
            { g with ans := a, sentAt := s.time.mono, ahead := if a = 2 && g.ahead = 0 then s.time.mono else g.ahead }) cv.tx
          s.setConvoy cv.key fun v => { v with tx := tx }
        match segAck pkt with
        | 0 => (s.setConvoy cv.key fun v => { v with tx := v.tx.eraseP (ackOf port seg step) }).cvRun cv.key
        | 1 =>
          match cv.owner, s.cvDesc cv with
          | some (c, q, _), some x =>
            let t := s.startAbort cv.key 4 (some (0x14, (s.ctx c).epoch.toNat, 0))
            if newerEpoch pkt.epoch (s.ctx c).epoch then
              t.selfFence pkt.slice pkt.epoch (s.port port).coord.toNat c (s.evOf c q x 0x14)
            else t
          | _, _ => s.startAbort cv.key 4 none
        | 2 => mark 2 s
        | 3 => mark 3 s
        | 4 =>
          -- the receiver's entry is ABORTED; cause and origin are not stated before its ABORT arrives (log 4)
          let (cause, s) := s.draw 4
          let (origin, s) := s.draw 15
          let m : AbortMsg := { key := cv.key, cause := cause, origin := origin, originPod := s.podStamp }
          s.endConvoy cv m (abortedFail m) 0 none
        | 5 => s.startAbort cv.key 10 none
        | _ => s

/-- The segment a timer names, if it waits at an active convoy in the state given. -/
def State.timedSeg (s : State) (key : ConvoyKey) (port skind seg step ans : Nat) : Option (Convoy × Seg) :=
  match s.convoy? key with
  | none => none
  | some cv =>
    if cv.st != .active then none
    else (cv.tx.find? fun g => g.skind == skind && ackOf port seg step g && g.ans == ans).map fun g => (cv, g)

/-- SEG_ACK_TIMEOUT (R268): no ACK for TIMEOUT. -/
def execSegAckTimeout (key : ConvoyKey) (port : Fin 13) (skind : Fin 16) (seg : Nat) (step : Nat) (s : State) :
    Host.Outcome State Fault Refusal :=
  .next <|
    match s.timedSeg key port skind seg step 0 with
    | some (_, g) => if g.sentAt + s.fab.timeout * 100000 ≤ s.time.mono then s.startAbort key 5 none else s
    | none => s

/-- Send a segment again. -/
def State.resendSeg (s : State) (cv : Convoy) (g : Seg) : State :=
  let again := modFirst (fun x => x.skind == g.skind && ackOf g.port g.seg g.step x)
    (fun x => { x with ans := 0, sentAt := s.time.mono }) cv.tx
  let s := s.setConvoy cv.key fun v => { v with tx := again }
  if cv.car then
    match cv.owner, s.cvDesc cv with
    | some (c, q, _), some x =>
      match s.putCar cv.key c (((s.queue? c q).map (·.eng)).getD 0) x (collOf x cv.plan) g.port g.seg with
      | (s, none) => s
      | (s, some f) => s.cvFail cv.key f
    | _, _ => s
  else s.putSeg cv.key g

/-- NOT_READY_RESEND (R268): 10 µs after the answer. -/
def execNotReadyResend (key : ConvoyKey) (port : Fin 13) (skind : Fin 16) (seg : Nat) (step : Nat) (s : State) :
    Host.Outcome State Fault Refusal :=
  s.orWait <|
    match s.timedSeg key port skind seg step 3 with
    | some (cv, g) => if g.sentAt + 10000 ≤ s.time.mono then s.resendSeg cv g else s
    | none => s

/-- SEG_AHEAD_RESEND (R268): every 100 µs; after EPOCH_WAIT the convoy ends with cause EPOCH. -/
def execSegAheadResend (key : ConvoyKey) (port : Fin 13) (skind : Fin 16) (seg : Nat) (step : Nat) (s : State) :
    Host.Outcome State Fault Refusal :=
  s.orWait <|
    match s.timedSeg key port skind seg step 2 with
    | some (cv, g) =>
      if g.ahead + s.fab.epochWait * 1000000 ≤ s.time.mono then s.startAbort key 4 none
      else if g.sentAt + 100000 ≤ s.time.mono then s.resendSeg cv g else s
    | none => s

/-! ### Aborts (R272, R273) -/

/-- What an ABORT from a module does to an entry that is COMPLETE: the completion stands, the first ABORT is passed on (R273). -/
def State.abortComplete (s : State) (cv : Convoy) (msg : AbortMsg) (source : Option (BitVec 15)) : State :=
  let first := cv.aborts.isEmpty && !cv.logged
  let s := s.setConvoy msg.key fun v =>
    { v with cause := msg.cause.toNat, origin := msg.origin.toNat, originPod := msg.originPod }
  (if first then s.flood msg.key cv.edges source else s).logConvoy cv msg 1

/-- An ABORT that meets no entry: recorded when its epoch is the present one, else ignored; the outcome (R273). It is logged once per
convoy. DESIGN CHOICE (log 61): a convoy whose ABORT was ignored is remembered for 1 s, as an entry is held; and an ABORT that finds no
free entry is ignored. -/
def State.abortUnknown (s : State) (msg : AbortMsg) (die : Nat) : State × Nat :=
  if (s.sliceOf msg.key.slice).map (·.2.epoch) == some msg.key.epoch && s.fab.convoys.length < 512 then
    let cv : Convoy :=
      { key := msg.key, st := .aborted, cause := msg.cause.toNat, origin := msg.origin.toNat, originPod := msg.originPod
        endAt := s.time.mono }
    let s := { s with fab := { s.fab with convoys := s.fab.convoys ++ [cv] } }
    (s.logConvoy cv msg 2, 2)
  else
    let lately := s.fab.ignored.filter fun e => s.time.mono < e.2 + 1000000000
    if lately.any (·.1 == msg.key) then (s, 3)
    else
      let us := (s.podNs - msg.originPod.toNat / 4 * 4) / 1000
      (({ s with fab := { s.fab with ignored := lately ++ [(msg.key, s.time.mono)] } }).log 0x0303 4 (srcDieUnit die 66)
        [msg.key.slice.toNat, msg.key.convoy.toNat, msg.key.epoch.toNat, msg.cause.toNat, msg.origin.toNat, 3, 0, us], 3)

/-- ABORT_RECEIVE (R272, R273): an ABORT of the module `msg.src`, on whatever port it came: acted on by the entry's state, answered to that
module, forwarded to the others. -/
def execAbortReceive (port : Fin 13) (msg : AbortFrom) (s : State) : Host.Outcome State Fault Refusal :=
  .next <|
    let ⟨src, msg⟩ := msg
    let s := s.takePay port (leBytes 1 1 ++ leBytes 1 msg.cause.toNat ++ leBytes 2 msg.key.convoy.toNat)
    let s : State := { s with fab := { s.fab with received := satAdd 0xFFFF s.fab.received 1 } }
    let ack := fun (s : State) (outcome : Nat) => s.sendCtrl port src 2 outcome msg
    match s.convoy? msg.key with
    | some cv =>
      match cv.st with
      | .active => ack (s.endConvoy cv msg (abortedFail msg) 0 (some src)) 0
      | .complete => ack (s.abortComplete cv msg (some src)) 1
      | .aborted => ack (s.logConvoy cv msg 0) 0
    | none =>
      let (s, o) := s.abortUnknown msg (portDie port)
      ack s o

/-- ABORT_RESEND (R272): every 20 µs, at most ten times in all. -/
def execAbortResend (key : ConvoyKey) (port : Fin 13) (s : State) : Host.Outcome State Fault Refusal :=
  .next <|
    match s.convoy? key with
    | none => s
    | some cv =>
      match cv.aborts.find? (·.1 == port.val) with
      | some (_, n, t) =>
        if n < 10 && t + 20000 ≤ s.time.mono then
          let again := modFirst (fun a => a.1 == port.val) (fun _ => (port.val, n + 1, s.time.mono)) cv.aborts
          (s.setConvoy key fun v => { v with aborts := again }).sendCtrl port (s.port port).coord 1 0 cv.msg
        else s
      | none => s

/-- ABORT_ACK_RECEIVE (R272): the ABORT_ACK of the module `key.src`, on whatever port it came. -/
def execAbortAckReceive (_port : Fin 13) (key : AckFrom) (s : State) : Host.Outcome State Fault Refusal :=
  .next (s.setConvoy key.key fun v => { v with aborts := v.aborts.filter fun a => (s.port a.1).coord != key.src })

/-- CONVOY_ENTRY_FREE (R270): 1 s after a convoy's end. -/
def execConvoyEntryFree (key : ConvoyKey) (s : State) : Host.Outcome State Fault Refusal :=
  .next <|
    match s.convoy? key with
    | none => s
    | some cv =>
      if cv.st != .active && cv.endAt + 1000000000 ≤ s.time.mono then
        { s with fab := { s.fab with convoys := s.fab.convoys.filter (·.key != key) } }
      else s

/-! ### What ends convoys from outside -/

/-- A port has gone DOWN (R269). -/
def State.convoysDown (s : State) (p : Nat) : State :=
  (s.fab.convoys.filter fun cv => cv.st == .active && (match s.cvDesc cv with
    | some _ => cv.edges.contains p
    | none => false)).foldl (fun s cv => s.startAbort cv.key 3 none) s

/-- A slice has a new epoch (R253): entries discarded, started members end with cause EPOCH, nothing is flooded. -/
def State.epochConvoys (s : State) (slice : BitVec 12) : State :=
  let mine := s.fab.convoys.filter fun cv => cv.key.slice == slice
  let s := mine.foldl (fun s cv =>
    if cv.st != .active then s
    else
      let m := s.ownAbort cv.key 4
      let s := match cv.owner with
        | some (c, q, ix) => s.setStarted c q ix fun d => { d with fail := d.fail <|> some (abortedFail m), work := true, convoy := none }
        | none => s
      s.logConvoy cv m 4) s
  { s with fab := { s.fab with convoys := s.fab.convoys.filter fun cv => cv.key.slice != slice } }

/-- The convoy of a descriptor has reached its commit point (R270). -/
def State.cvCommit (s : State) (x : Started) : State :=
  match x.convoy with
  | some k => s.setConvoy k fun v => if v.st == .active then { v with st := .complete, endAt := s.time.mono } else v
  | none => s

end Sys2Proof.Machine
end

