-- ==== Sys2Proof/Machine/Stash.lean ====
section
/-! DEFINITION. The activation stash: passes, arming, retirement, producers and copies (chapter 05). -/

namespace Sys2Proof.Machine

def State.stash (s : State) (c : Nat) : Stash := (s.ctx c).stash
def State.setStash (s : State) (c : Nat) (f : Stash → Stash) : State := s.setCtx c fun x => { x with stash := f x.stash }

/-- A pass is open: OPEN or FULL, and not ended by a context fault or reset (R175). DESIGN CHOICE (log 61): from then on nothing is
armed, retired or matched, and writes to STASH_ARM and STASH_RETIRE are ignored with ARM_ERR, though STATE is set only when the reset
completes. -/
def Stash.open? (t : Stash) : Bool := (t.st == .open_ || t.st == .full) && !t.ended

/-- The counters as PASS_START leaves them (R164, R165, R175). -/
def Stash.clear (t : Stash) : Stash :=
  { t with
    fill := 0, demand := 0, armed := 0, retired := 0, fullAt := none, armCount := 0, retireCount := 0, ovf := false
    nan := false, headOff := 0, entries := [] }

/-- STASH_PASS_START (R165, R175): PASS_START = 1 with a reservation asks for a pass; after a context fault or reset it is dropped
until the reset has completed. -/
def execStashPassStart (ctx : Fin 256) (value : BitVec 32) (s : State) : Host.Outcome State Fault Refusal :=
  .next <|
    if value.getLsbD 0 && (s.stash ctx).st != .none && !(s.stash ctx).ended then s.setStash ctx fun t => { t with pending := true } else s

/-- Started descriptors of a context that matched an entry of the present pass. -/
def State.producers (s : State) (c : Nat) : Bool :=
  s.eng.queues.any fun e => e.1 / 64 == c && e.2.started.any fun x => !x.stash.isEmpty && x.pass == (s.stash c).pass.toNat

/-- STASH_PASS_OPEN (R165): with a pass asked for and no producer of the old one in flight, everything at once. -/
def execStashPassOpen (ctx : Fin 256) (s : State) : Host.Outcome State Fault Refusal :=
  .next <|
    if (s.stash ctx).pending && !(s.stash ctx).ended && !s.producers ctx then
      s.setStash ctx fun t => { t.clear with pass := t.pass + 1, st := .open_, pending := false }
    else s

/-- A write to STASH_ARM or STASH_RETIRE that is ignored. -/
def State.armErr (s : State) (c : Nat) : State := s.setStash c fun t => { t with armErr := true }

/-- STASH_ARM_WRITE (R165, R167). -/
def execStashArmWrite (ctx : Fin 256) (value : BitVec 32) (s : State) : Host.Outcome State Fault Refusal :=
  .next <|
    let t := s.stash ctx
    let v := bitsOf value.toNat 12 0
    if t.pending || !t.open? || v < t.armCount || t.tableLen < v then s.armErr ctx
    else s.setStash ctx fun t => { t with armCount := v }

/-! ### Entries (R166, R170) -/

def StashEnt.dw (e : StashEnt) (i : Nat) : Nat := e.d.getD i 0
def StashEnt.src (e : StashEnt) : Nat := e.dw 0
def StashEnt.rows (e : StashEnt) : Nat := bitsOf (e.dw 1) 31 0
def StashEnt.cols (e : StashEnt) : Nat := bitsOf (e.dw 1) 63 32
def StashEnt.stride (e : StashEnt) : Nat := bitsOf (e.dw 2) 31 0
def StashEnt.sfmt (e : StashEnt) : Nat := bitsOf (e.dw 2) 35 32
def StashEnt.tfmt (e : StashEnt) : Nat := bitsOf (e.dw 2) 39 36
def StashEnt.trans (e : StashEnt) : Bool := bitOf (e.dw 2) 40
def StashEnt.recomp (e : StashEnt) : Bool := bitOf (e.dw 2) 41
def StashEnt.input (e : StashEnt) : Nat := bitsOf (e.dw 3) 15 0
def StashEnt.layer (e : StashEnt) : Nat := bitsOf (e.dw 3) 31 16
/-- Bytes of a source row; bytes per source element. -/
def StashEnt.rowLen (e : StashEnt) : Nat := rowBytes e.sfmt e.cols
def StashEnt.esz (e : StashEnt) : Nat := fmtBits e.sfmt / 8

/-- Stash rows, padded row length e', row pitch, size (R170). -/
def StashEnt.srows (e : StashEnt) : Nat := if e.trans then e.cols else e.rows
def StashEnt.slen (e : StashEnt) : Nat := cdiv (if e.trans then e.rows else e.cols) 32 * 32
def StashEnt.pitch (e : StashEnt) : Nat := cdiv (rowBytes e.tfmt e.slen) 64 * 64
def StashEnt.sizeOf_ (e : StashEnt) : Nat :=
  let sc := if fmtMx e.tfmt then cdiv (e.srows * (e.slen / 32)) 64 * 64 else 0
  cdiv (e.srows * e.pitch + sc) 4096 * 4096

/-- A row range [lo, hi) meets rows at base + ρ × stride of len bytes. -/
def rowsMeet (base rows stride len lo hi : Nat) : Bool :=
  let r := if lo < base + len then 0 else if stride = 0 then rows else (lo - base - len) / stride + 1
  r < rows && base + r * stride < hi && lo < base + r * stride + len

/-- Two extents share a byte. -/
def extentsMeet (b1 r1 s1 l1 b2 r2 s2 l2 : Nat) : Bool :=
  (List.range r1).any fun i => rowsMeet b2 r2 s2 l2 (b1 + i * s1) (b1 + i * s1 + l1)

/-- Check 2 of R167. -/
def StashEnt.fieldsOk (e : StashEnt) (dw5 : Nat) : Bool :=
  e.src < 2 ^ 52 && e.src % 64 == 0 && 1 ≤ e.rows && e.rows ≤ 2 ^ 24 && 1 ≤ e.cols && e.cols ≤ 2 ^ 24 &&
    e.sfmt ≤ 2 && e.tfmt ≤ 9 && e.stride % 64 == 0 && e.rowLen ≤ e.stride && bitsOf (e.dw 2) 63 42 == 0 &&
    bitsOf (e.dw 3) 63 32 == 0 && dw5 == 0

/-- SIZE of an entry whose fields were read (R166), in 32 bits of 4 KiB units; a STASH_FMT of no format has no stated size: a free
value (log 4). -/
def State.entrySize (s : State) (e : StashEnt) : Nat × State :=
  if e.tfmt ≤ 9 then (e.sizeOf_ % 2 ^ 44, s)
  else
    let (v, s) := s.draw 32
    (v.toNat * 4096, s)

/-- Every byte of a local range lies in some window of a context. -/
def Ctx.covered (c : Ctx) (a n : Nat) : Bool :=
  n = 0 || (List.range ((a + n - 1) / 2 ^ 21 - a / 2 ^ 21 + 1)).all fun i =>
    c.inWindow (max a ((a / 2 ^ 21 + i) * 2 ^ 21)) 1

/-- The first failing arm check of an entry (R167), 0 for none. `unread` is check 1. -/
def State.armCheck (s : State) (c : Nat) (t : Stash) (i : Nat) (unread : Bool) (e : StashEnt) (dw5 : Nat) : Nat :=
  if unread then 1
  else if !e.fieldsOk dw5 then 2
  else
    let sOff := s.localOff e.src
    let rOff := (s.localOff t.base).getD 0
    let tOff := (s.localOff t.table).getD 0
    match sOff with
    | none => 3
    | some off =>
      if !((List.range e.rows).all fun r => (s.ctx c).covered (e.src + r * e.stride) e.rowLen &&
          (s.localOff (e.src + r * e.stride + e.rowLen - 1)).isSome) || extentsMeet off e.rows e.stride e.rowLen rOff 1 t.size t.size ||
        extentsMeet off e.rows e.stride e.rowLen tOff 1 (64 * t.tableLen) (64 * t.tableLen) then 3
      else if t.entries.any fun p => t.retired ≤ p.1 && (p.2.st == 1 || p.2.st == 2 || p.2.st == 3) &&
        extentsMeet off e.rows e.stride e.rowLen ((s.localOff p.2.src).getD 0) p.2.rows p.2.stride p.2.rowLen then 4
      else if e.input != 0xFFFF && i ≤ e.input then 5
      else
        let inp := ((t.entries.lookup e.input).map (·.st)).getD 0
        if e.input != 0xFFFF && inp = 4 then 6
        else if e.recomp && e.input != 0xFFFF && inp = 3 then 7
        else 0

/-- Allocation of an entry (R168): the stash and the entry after it. -/
def allocate (t : Stash) (i : Nat) (e : StashEnt) : Stash × StashEnt :=
  let n := e.sizeOf_
  let refuse := fun (t : Stash) => (t, { e with st := if e.recomp then 2 else 3, size := n })
  if t.st = .full then refuse t
  else
    let pad := if t.headOff + n ≤ t.size then 0 else t.size - t.headOff
    if t.fill + pad + n ≤ t.size then
      let at_ := (t.headOff + pad) % t.size
      ({ t with fill := t.fill + pad + n, headOff := at_ + n }, { e with st := 1, size := n, pad := pad, addr := t.base + at_ })
    else refuse { t with st := .full, fullAt := some i }

/-- STASH_DEMAND after a change (R168). -/
def Stash.demandNow (t : Stash) : Nat :=
  t.fill + ((t.entries.filter fun p => t.retired ≤ p.1 && (p.2.st == 2 || p.2.st == 3)).map (·.2.size)).foldl (· + ·) 0

/-- Dword 7 of an entry (R166). -/
def StashEnt.dw7 (e : StashEnt) : Nat :=
  e.st + b2n e.ovf * 8 + b2n e.nan * 16 + b2n e.husk * 32 + e.reason * 2 ^ 8 + e.size / 4096 * 2 ^ 32

/-- Write dwords 6 and 7 of entry i to the table. -/
def State.putEntry (s : State) (c i : Nat) (e : StashEnt) : State :=
  let s := s.setStash c fun t => { t with entries := mput t.entries i e }
  match s.localOff ((s.stash c).table + 64 * i + 48) with
  | none => s
  | some off =>
    if s.regionUp (dieOf off) then
      s.setMem fun m => m.write off (leBytes 8 (if e.st = 1 then e.addr else 0) ++ leBytes 8 e.dw7) []
    else s

/-- Arm the next entry (R167). -/
def State.armEntry (s : State) (c : Nat) (off : Nat) : State :=
  let t := s.stash c
  let i := t.armed
  let husk := !(s.mem.main.husksIn off 48).isEmpty
  let unread := husk || !s.regionUp (dieOf off)
  let b := s.mem.main.read off 48
  let dws := (List.range 6).map fun k => fieldAt b (8 * k) 8
  let e : StashEnt := { d := dws.take 4, st := 4, size := 0, pad := 0, addr := 0 }
  let chk := s.armCheck c t i unread e (dws.getD 5 0)
  let unit := srcDieUnit (dieOf off) 64
  let s :=
    if chk = 0 then
      let wasFull := t.st == .full
      let (t', e) := allocate t i e
      let s := (s.setStash c fun _ => t').putEntry c i e
      let s := s.setStash c fun t => { t with demand := max t.demand t.demandNow }
      if t'.st == .full && !wasFull then
        s.log 0x0242 3 unit ([c, t.pass.toNat, i, e.layer] ++ lohi t'.fill ++ [e.size / 4096, b2n e.recomp])
      else s
    else
      let (n, s) := if chk = 1 then (0, s) else s.entrySize e
      let e := { e with reason := chk, husk := husk, size := n }
      ((s.putEntry c i e).armErr c).log 0x0243 3 unit [c, t.pass.toNat, i, e.layer, chk]
  (s.setStash c fun t => { t with armed := t.armed + 1 }).semAdd t.armSem 1

/-- STASH_ARM_ENTRY (R167): the next entry asked for; it waits while the die that holds the table is in reset. -/
def execStashArmEntry (ctx : Fin 256) (flips : List LineFlip) (s : State) : Host.Outcome State Fault Refusal :=
  .next <|
    let t := s.stash ctx
    if t.pending || !t.open? || t.armCount ≤ t.armed then s
    else
      match s.localOff (t.table + 64 * t.armed) with
      | none => s
      | some off => if (s.die (dieOf off)).inReset then s else (s.damages 0 flips).armEntry ctx off

/-- Retire one entry (R169). -/
def State.retireEntry (s : State) (c i : Nat) : State :=
  match (s.stash c).entries.lookup i with
  | none => s.setStash c fun t => { t with retired := i + 1 }
  | some e =>
    let s := if e.st = 1 then
        (s.putEntry c i { e with st := 5 }).setStash c fun t => { t with fill := t.fill - (e.size + e.pad) }
      else s
    s.setStash c fun t => { t with retired := i + 1 }

/-- STASH_RETIRE_WRITE (R165, R169). -/
def execStashRetireWrite (ctx : Fin 256) (value : BitVec 32) (s : State) : Host.Outcome State Fault Refusal :=
  .next <|
    let t := s.stash ctx
    let v := bitsOf value.toNat 12 0
    if t.pending || !t.open? || v < t.retired || t.armed < v then s.armErr ctx
    else
      let s := (List.range (v - t.retired)).foldl (fun s k => s.retireEntry ctx (t.retired + k)) s
      s.setStash ctx fun t => { t with retireCount := v }

/-! ### Producers (R171) -/

/-- An output span: address, rows, stride, row bytes, columns, format, and the descriptor fields R501 names for its format,
stride and address. -/
structure Span where
  addr : Nat
  rows : Nat
  stride : Nat
  len : Nat
  cols : Nat
  fmt : Nat
  fmtPos : Nat × Nat
  stridePos : Nat × Nat
  addrPos : Nat × Nat

/-- The output span of a producer's opcode. -/
def spanOf (d : List Nat) : Option Span :=
  let op := bitsOf (d.getD 0 0) 7 0
  if op = 0x10 || op = 0x11 then
    let p := mmOf d
    if p.write then
      some { addr := p.c, rows := p.m, stride := p.cstr, len := rowBytes p.cf p.n, cols := p.n, fmt := p.cf
             fmtPos := (11, 32), stridePos := (10, 0), addrPos := (6, 0) }
    else none
  else if 0x20 ≤ op && op ≤ 0x22 then
    let p := vbOf d
    some { addr := p.dst, rows := p.rows, stride := p.dstr, len := rowBytes p.outf p.cols, cols := p.cols, fmt := p.outf
           fmtPos := (10, 12), stridePos := (9, 32), addrPos := (7, 0) }
  else none

/-- Entries of the pass a span meets: not retired, STASHED, RECOMPUTE or DENIED. DESIGN CHOICE (log 61): while PASS_PENDING = 1 the
old pass is still the current one, and its entries match; R165 says that they no longer match without saying from when. -/
def State.stashHits (s : State) (c : Nat) (p : Span) : List (Nat × StashEnt) :=
  let t := s.stash c
  if !t.open? || p.addr / 2 ^ 62 != 0 then []
  else match s.localOff p.addr with
    | none => []
    | some off => t.entries.filter fun e => t.retired ≤ e.1 && (e.2.st == 1 || e.2.st == 2 || e.2.st == 3) &&
        extentsMeet off p.rows p.stride p.len ((s.localOff e.2.src).getD 0) e.2.rows e.2.stride e.2.rowLen

/-- Positions (dword, bit) of the conditions of rule 2 that a producer breaks against one entry. -/
def stashBad (op off : Nat) (p : Span) (eoff : Nat) (e : StashEnt) : List (Nat × Nat) :=
  let o := off - eoff
  let row := o / e.stride
  let col := o % e.stride / e.esz
  let inside := eoff ≤ off && row < e.rows && o % e.stride % e.esz == 0 && col < e.cols
  let whole := !fmtMx e.tfmt ||
    (if e.trans then row % 32 == 0 && ((row + p.rows) % 32 == 0 || e.rows ≤ row + p.rows)
     else col % 32 == 0 && ((col + p.cols) % 32 == 0 || e.cols ≤ col + p.cols))
  (if op = 0x11 then [(0, 0)] else []) ++ (if p.fmt = e.sfmt then [] else [p.fmtPos]) ++
    (if p.stride = e.stride then [] else [p.stridePos]) ++ (if inside && whole then [] else [p.addrPos])

/-- The lowest position of R501, as DETAIL. -/
def badPos (l : List (Nat × Nat)) : Option Nat :=
  (l.foldl (fun (b : Option (Nat × Nat)) p => match b with
    | none => some p
    | some q => if p.1 < q.1 || (p.1 == q.1 && p.2 < q.2) then some p else some q) none).map fun p => p.1 + p.2 * 2 ^ 8

/-- What a start meets at the stash: a failure, or the entries matched. -/
def State.stashMatch (s : State) (c : Nat) (d : List Nat) : Except Fail (List Nat) :=
  match spanOf d with
  | none => .ok []
  | some p =>
    let hits := s.stashHits c p
    match hits.find? fun e => e.2.st == 3 with
    | some e => .error (0x31, e.1 + ((s.stash c).fullAt.getD 0) * 2 ^ 16, 0)
    | none =>
      let off := (s.localOff p.addr).getD 0
      match badPos (hits.flatMap fun e => stashBad (bitsOf (d.getD 0 0) 7 0) off p ((s.localOff e.2.src).getD 0) e.2) with
      | some det => .error (0x10, det, 0)
      | none => .ok (hits.map (·.1))

/-! ### The stash copy (R172) -/

/-- A rectangle of source elements in stash order: stash row and its stash columns, each as (source row, source column) or
the +0 padding. -/
def stashRowCells (e : StashEnt) (r : Nat) (lo hi : Nat) : List (Option (Nat × Nat)) :=
  (List.range (hi - lo)).map fun k =>
    let x := lo + k
    if e.trans then (if x < e.rows then some (x, r) else none) else (if x < e.cols then some (r, x) else none)

/-- One element of the source as it stands in memory: value and husk. -/
def State.srcElem (s : State) (e : StashEnt) (rc : Option (Nat × Nat)) : Num × Bool :=
  match rc with
  | none => (.fin false 0 0, false)
  | some (r, k) =>
    let a := (s.localOff e.src).getD 0 + r * e.stride + k * e.esz
    (element e.sfmt (ofLe (s.lRead a e.esz)) 127, s.lHusks a e.esz)

/-- Sectors of a stash copy that have become husks count as created (R172, R197) and the first is latched; R207 gives stash conversion
no cause code, so CAUSE is a free value (log 62). `old` is the state before the write. -/
def State.noteConverted (s old : State) (off n : Nat) : State :=
  match (sectors off n).filter fun k => s.mem.main.husks.contains k && !old.mem.main.husks.contains k with
  | [] => s
  | k :: ks =>
    let (v, s) := s.draw 3
    s.noteHusks (dieOf (32 * k)) (ks.length + 1) v.toNat (32 * k)

/-- Copy stash columns lo to hi − 1 of stash row r of an entry: one block of 32 for an MX format. The stash writes are the
descriptor's own: one that fails ends it (R171 rule 4). -/
def State.copyRow (s : State) (c q : Nat) (x : Started) (j i : Nat) (e : StashEnt) (r lo hi : Nat) : State :=
  let vals := (stashRowCells e r lo hi).map fun rc => s.srcElem e rc
  let husk := vals.any (·.2)
  let (bytes, scales, o, na) := convRow e.tfmt (vals.map fun v => (v.1, .rne))
  let mx := fmtMx e.tfmt
  -- a husk spoils its block; without block scales it spoils what its own bytes fall in (R196)
  let marks := if mx then bytes.map fun b => (b, husk)
    else (bytes.zipIdx).map fun b => (b.1, (vals.getD (b.2 * 8 / fmtBits e.tfmt) (.nan, false)).2)
  let w := fun (s : State) (a : Nat) (b : HBytes) => match s.engWrite c q x j a b with
    | (t, none) => t.noteConverted s ((s.localOff a).getD 0) b.length
    | (t, some f) => t.failDesc c q x.index f
  let s := w s (e.addr + r * e.pitch + lo * fmtBits e.tfmt / 8) marks
  let s := if mx then
      w s (e.addr + e.srows * e.pitch + r * (e.slen / 32) + lo / 32) (scales.map fun b => (b, husk))
    else s
  let s := s.setStash c fun t =>
    { t with
      ovf := t.ovf || o, nan := t.nan || na
      entries := mmod e t.entries i fun e => { e with ovf := e.ovf || o, nan := e.nan || na, husk := e.husk || husk } }
  if husk then s.setStarted c q x.index fun y => { y with husk := true } else s

/-- A part of a producer's output span, in rows and columns of the span: what has just been written. -/
structure Rect where
  row : Nat
  rows : Nat
  col : Nat
  cols : Nat

/-- The stash copy of a part of what a producer writes into one STASHED entry (R171 rule 4, R172), with dword 7 brought up to date.
It is made as that part is written, so the values are the producer's own. -/
def State.stashCopy (s : State) (c q : Nat) (x : Started) (j i : Nat) (p : Span) (g : Rect) : State :=
  match (s.stash c).entries.lookup i with
  | none => s
  | some e =>
    if e.st != 1 then s
    else
      let o := (s.localOff p.addr).getD 0 - (s.localOff e.src).getD 0
      let r0 := o / e.stride + g.row
      let c0 := o % e.stride / e.esz + g.col
      let r1 := min e.rows (r0 + g.rows)
      let c1 := min e.cols (c0 + g.cols)
      let (a0, a1, b0, b1) := if e.trans then (c0, c1, r0, r1) else (r0, r1, c0, c1)
      let pad := if b1 = (if e.trans then e.rows else e.cols) then e.slen else b1
      let s := (List.range (a1 - a0)).foldl (init := s) fun s k =>
        (List.range (cdiv (pad - b0) 32)).foldl (init := s) fun s m =>
          s.copyRow c q x j i e (a0 + k) (b0 + 32 * m) (min pad (b0 + 32 * m + 32))
      match (s.stash c).entries.lookup i with
      | some e => s.putEntry c i e
      | none => s

/-- The copies of a part of a producer's output in every entry it matched, while its pass lasts. -/
def State.stashCopies (s : State) (c q : Nat) (x : Started) (j : Nat) (g : Rect) : State :=
  match spanOf x.d with
  | none => s
  | some p => if x.pass = (s.stash c).pass.toNat then x.stash.foldl (fun s i => s.stashCopy c q x j i p g) s else s

/-! ### Tiles of an ME with their stash copies -/

/-- What a tile's end adds: the stash copy of the tile, if this step has written it. -/
def State.tileCopy (s : State) (c q : Nat) (t : TileJob) (g : Nat) : State :=
  match s.started? c q t.x.index with
  | none => s
  | some y =>
    if y.tiles.contains g || y.fail.isSome || y.stash.isEmpty then s
    else
      let w := s.tileW t.j
      let r := g / t.p.cols w * 32
      let k := g % t.p.cols w * w
      s.stashCopies c q y t.j { row := r, rows := min 32 (t.p.m - r), col := k, cols := min w (t.p.n - k) }

/-- CHECKER_VERDICT (R370, R373, R374). -/
def execCheckerVerdict (ctx : Fin 256) (q : Fin 64) (index : BitVec 32) (tile : Nat) (err : List WordFlip)
    (flips : List LineFlip) (s : State) : Host.Outcome State Fault Refusal :=
  s.orWait <|
    match s.tileJob ctx q index tile with
    | none => s
    | some t =>
      match t.x.checks.find? fun w => w.tile == tile && w.chk.isNone with
      | none => s
      | some w =>
        if !s.roomFor ctx q index then s
        else (if s.cancelled ctx w then s.finishTile ctx q t.x t.p t.j tile t.rows t.cols w.orig false
          else (s.damages 0 flips).checkerVerdict ctx q t tile w err flips).tileCopy ctx q t tile

/-- ARBITER_VERDICT (R375). -/
def execArbiterVerdict (ctx : Fin 256) (q : Fin 64) (index : BitVec 32) (tile : Nat) (err : List WordFlip)
    (flips : List LineFlip) (s : State) : Host.Outcome State Fault Refusal :=
  s.orWait <|
    match s.tileJob ctx q index tile with
    | none => s
    | some t =>
      match t.x.checks.find? fun w => w.tile == tile && w.chk.isSome with
      | none => s
      | some w =>
        if !s.roomFor ctx q index then s
        else (if s.cancelled ctx w then s.finishTile ctx q t.x t.p t.j tile t.rows t.cols w.orig false
          else (s.damages 0 flips).arbiterVerdict ctx q t tile w (w.chk.getD ([], false)) err flips).tileCopy ctx q t tile

/-! ### Darid commands of the stash (R164, R332) -/

/-- A reservation's arguments: base, size, table, length, semaphore. -/
def State.reserveOk (s : State) (c base size table len sem : Nat) : Bool :=
  match s.localOff base, s.localOff table with
  | some _, some _ =>
    base % 2 ^ 21 == 0 && size % 2 ^ 21 == 0 && 0 < size && (s.ctx c).inWindow base size && table % 64 == 0 &&
      1 ≤ len && len ≤ 4096 && (s.ctx c).inWindow table (64 * len) &&
      !(rowsMeet base 1 size size table (table + 64 * len)) && s.holdsSem c sem
  | _, _ => false

end Sys2Proof.Machine
end

