-- ==== Sys2Proof/Machine/DescChecks.lean ====
section
/-! DEFINITION. The checks of a fetched descriptor (R101-R109, R160, R176, R257, R258, R275, R501). -/

namespace Sys2Proof.Machine

/-- A position of R501: doubleword and bit. -/
abbrev Pos := Nat × Nat

/-- One position when a condition fails. -/
def posIf (b : Bool) (d bit : Nat) : List Pos := if b then [(d, bit)] else []

/-- The lowest set bit of a doubleword. -/
def lowBit (v : Nat) : Nat := ((List.range 64).find? fun i => v.testBit i).getD 0

/-- Bits hi to lo as a mask. -/
def bitMask (hi lo : Nat) : Nat := 2 ^ (hi + 1) - 2 ^ lo

/-- The bits of each doubleword that a descriptor of an opcode may set. -/
def allowedBits (op i : Nat) : Nat :=
  let all := 2 ^ 64 - 1
  match i with
  | 0 => bitMask 58 0
  | 1 => bitMask 29 0 + bitMask 45 32 + bitMask 63 48
  | 2 => all
  | 3 => all
  | _ =>
    if op = 0x10 || op = 0x11 then
      (if i = 11 then bitMask 57 0 else if i = 14 then 3 else if i = 15 then 0 else all)
    else if 0x20 ≤ op && op ≤ 0x23 then
      (match i with | 10 => bitMask 27 0 | 11 => bitMask 31 0 | 12 => 0 | 14 => 0 | 15 => 0 | _ => all)
    else if op = 0x24 then
      (match i with | 6 => 0 | 10 => bitMask 27 0 | 11 => bitMask 31 0 | 14 => bitMask 39 0 | _ => all)
    else if op = 0x25 then
      (match i with
      | 5 => 0 | 6 => 0 | 10 => bitMask 27 0 | 11 => 0 | 13 => 0 | 14 => bitMask 35 0 | _ => all)
    else match op, i with
      | 0x30, 4 => all | 0x30, 5 => all | 0x30, 6 => bitMask 39 0 | 0x30, 8 => all | 0x30, 9 => bitMask 31 0
      | 0x31, 5 => all | 0x31, 6 => bitMask 39 0 | 0x31, 8 => bitMask 63 32 | 0x31, 9 => bitMask 31 0 | 0x31, 10 => all
      | 0x32, 4 => all | 0x32, 5 => all | 0x32, 6 => bitMask 39 0 | 0x32, 7 => bitMask 14 0 | 0x32, 8 => all
      | 0x32, 9 => bitMask 31 0
      | 0x33, 4 => all | 0x33, 5 => all | 0x33, 6 => bitMask 39 0 | 0x33, 7 => bitMask 14 0 | 0x33, 8 => all
      | 0x33, 9 => bitMask 31 0
      | 0x34, 4 => all | 0x34, 7 => bitMask 14 0 + bitMask 24 16 | 0x34, 10 => all | 0x34, 11 => all
      | 0x35, 7 => bitMask 14 0 | 0x35, 10 => bitMask 13 0 + bitMask 63 32
      | 0x36, 10 => bitMask 22 0 | 0x36, 11 => all | 0x36, 12 => all | 0x36, 13 => all | 0x36, 14 => bitMask 41 0
      | 0x36, 15 => all
      | 0x37, 4 => all | 0x37, 5 => all | 0x37, 6 => bitMask 39 0 | 0x37, 11 => all | 0x37, 12 => all
      | _, _ => 0

/-- Reserved fields that are not zero: in each doubleword the lowest such bit. -/
def reservedBad (op : Nat) (d : List Nat) : List Pos :=
  (List.range 16).flatMap fun i =>
    let v := d.getD i 0
    let r := v - (v &&& allowedBits op i)
    posIf (r != 0) i (lowBit r)

/-- An address field that is not of the form of R104, or not a multiple of 64 where it must be. -/
def addrBad (d : List Nat) (i : Nat) (align : Bool) : List Pos :=
  let v := d.getD i 0
  posIf ((eaddr v).isNone || (align && v % 64 != 0)) i 0

/-- A stride that is not a multiple of 64. -/
def strideBad (d : List Nat) (i lo : Nat) : List Pos := posIf (bitsOf (d.getD i 0) (lo + 31) lo % 64 != 0) i lo

/-- Codes 1-9: floating-point formats other than FP32. -/
def fmtLow (f : Nat) : Bool := 1 ≤ f && f ≤ 9
/-- ME inputs of integer form. -/
def fmtIntIn (f : Nat) : Bool := f == 0xA || f == 0xB
/-- Four-bit inputs. -/
def fmt4 (f : Nat) : Bool := f == 9 || f == 0xB
/-- Formats that no stochastic rounding applies to. -/
def fmtNoSr (f : Nat) : Bool := f == 0 || f == 0xA || f == 0xC

/-- The conditions of R106, R107 and R160 on a MATMUL or MATMUL_MASKED; w is the tile width. -/
def mmBad (d : List Nat) (w : Nat) : List Pos :=
  let p := mmOf d
  let lim := if w = 64 then 24 else 32
  let intIn := fmtIntIn p.af
  let last := fun (f : Nat → Bool) => if f p.bf then 28 else 24
  [4, 5, 6].flatMap (fun i => addrBad d i true) ++ [7, 8, 12, 13].flatMap (fun i => addrBad d i false) ++
  strideBad d 9 0 ++ strideBad d 9 32 ++ strideBad d 10 0 ++
  posIf (p.m = 0 || 1024 < p.m) 10 32 ++ posIf (p.n = 0 || 2048 < p.n) 10 48 ++ posIf (p.k = 0) 11 0 ++
  posIf (lim < p.tiles w) 10 48 ++ posIf (lim < p.tile + p.tiles w) 11 38 ++
  posIf (0xB < p.af) 11 24 ++
  posIf (0xB < p.bf || !(intIn && fmtIntIn p.bf || p.af == 0 && p.bf == 0 || fmtLow p.af && fmtLow p.bf || 0xB < p.af)) 11 28 ++
  posIf (p.cf == 9 || p.cf == 0xB || 0xC < p.cf || (!intIn && p.cf == 0xC) ||
    (intIn && p.cf ≤ 8 && !(p.af == 0xA && p.bf == 0xA))) 11 32 ++
  posIf ((fmtMx p.af || fmtMx p.bf) && p.k % 32 != 0) 11 (last fmtMx) ++
  posIf ((fmt4 p.af || fmt4 p.bf) && p.k % 2 != 0) 11 (last fmt4) ++
  posIf (5 ≤ p.cf && p.cf ≤ 8 && p.n % 32 != 0) 11 32 ++
  posIf (p.as_ != 0 && !fmtMx p.af) 11 24 ++ posIf (p.bs != 0 && !fmtMx p.bf) 11 28 ++
  posIf (p.cs != 0 && !fmtMx p.cf) 12 0 ++
  posIf (1 < p.round || (p.round == 1 && fmtNoSr p.cf)) 11 46 ++
  (if bitsOf (d.getD 0 0) 7 0 = 0x10 then
    posIf (p.maskAddr != 0) 13 (lowBit p.maskAddr) ++ posIf (p.maskKind != 0) 14 (lowBit p.maskKind)
   else posIf (p.maskKind != 1 && p.maskKind != 2) 14 0 ++ posIf (p.maskAddr = 0 || p.maskAddr % 64 != 0) 13 0)

/-- The conditions of R108 on a forward VE opcode. -/
def veBad (d : List Nat) : List Pos :=
  let p := vbOf d
  let funcOk := match p.op with
    | 0x20 => 1 ≤ p.func && p.func ≤ 0xC
    | 0x21 => p.func ≤ 1
    | 0x22 => p.func == 0
    | _ => p.func ≤ 2
  let one := p.op == 0x21 || veTwo p
  let two := p.op == 0x21 || veThree p
  let unused := fun (v i : Nat) => if p.op = 0x20 then posIf (v != 0) 10 0 else posIf (v != 0) i (lowBit v)
  posIf (!funcOk) 10 0 ++ [4, 5, 6, 7, 13].flatMap (fun i => addrBad d i false) ++
  (if one then [] else unused p.s1 5) ++ (if two then [] else unused p.s2 6) ++
  posIf (p.aux != 0 && !(fmtMx p.outf || (p.op == 0x23 && (p.func == 1 || p.func == 2)))) 13 0 ++
  posIf (0xC < p.inf) 10 8 ++ posIf (p.outf == 0xB || 0xC < p.outf) 10 12 ++
  posIf (1 < p.round || (p.round == 1 && fmtNoSr p.outf)) 10 16 ++ posIf (p.rows = 0) 8 0 ++ posIf (p.cols = 0) 8 32

/-- The conditions of R176 on a backward VE opcode. -/
def veBwdBad (d : List Nat) : List Pos :=
  let p := vbOf d
  let funcOk := if p.op = 0x24 then p.func % 128 ≤ 1 else p.func == 0
  posIf (!funcOk) 10 0 ++ [4, 5, 7, 12, 13].flatMap (fun i => addrBad d i true) ++ addrBad d 15 false ++
  strideBad d 9 0 ++ strideBad d 9 32 ++ strideBad d 14 0 ++
  posIf (p.rows = 0) 8 0 ++ posIf (p.cols = 0 || 2 ^ 24 < p.cols) 8 32 ++
  posIf (9 < p.inf) 10 8 ++ posIf (2 < p.outf) 10 12 ++ posIf (1 < p.round || (p.round == 1 && p.outf == 0)) 10 16 ++
  posIf (2 < p.gradf) 14 32 ++ posIf (p.op == 0x24 && 2 < p.gainf) 14 36 ++
  posIf (p.s0scale != 0 && !fmtMx p.inf) 15 0

/-- The conditions of R109 on a DE opcode. -/
def deBad (d : List Nat) : List Pos :=
  let w := fun i => d.getD i 0
  let op := bitsOf (w 0) 7 0
  let addr := fun i => addrBad d i false
  let far := fun i => posIf (2 ^ 48 ≤ w i) i 0
  let len := posIf (bitsOf (w 6) 39 0 = 0) 6 0
  match op with
  | 0x30 => addr 4 ++ addr 5 ++ len
  | 0x31 => addr 5 ++ len
  | 0x32 => addr 4 ++ far 5 ++ len
  | 0x33 => far 4 ++ addr 5 ++ len
  | 0x34 => far 4 ++ posIf (7 < bitsOf (w 7) 23 16) 7 16
  | _ => []

/-- An address of a collective or caravan that is none (R257, R275); `opt`: zero stands for no address. -/
def State.cvAddrBad (s : State) (d : List Nat) (opt : Bool) (i : Nat) : List Pos :=
  let v := d.getD i 0
  posIf (!(opt && v == 0) && !s.cvAddrOk v) i 0

/-- A convoy with an ACTIVE or COMPLETE entry (R270). -/
def State.convoyBusy (s : State) (c : Nat) (d : List Nat) : Bool :=
  let k : ConvoyKey :=
    { slice := s.sliceIdOf c, epoch := BitVec.ofNat 16 (bitsOf (d.getD 0 0) 51 36), convoy := BitVec.ofNat 16 (d.getD 1 0) }
  match s.convoy? k with
  | some v => v.st != .aborted
  | none => false

/-- The conditions of R257, R258 and R270 on a COLLECTIVE. SRC_ADDR may be zero in a broadcast, where the plan tells the root
(`cvPlanBad`), and, DESIGN CHOICE (log 61), with NO_CONTRIB = 1, where nothing is read there. -/
def State.collBad (s : State) (c : Nat) (d : List Nat) : List Pos :=
  let w := fun i => d.getD i 0
  let kind := bitsOf (w 10) 3 0
  let red := bitsOf (w 10) 7 4
  let fmt := bitsOf (w 10) 11 8
  let wide := bitOf (w 14) 41
  let reduces := kind == 1 || kind == 2
  [11, 13].flatMap (s.cvAddrBad d false) ++ s.cvAddrBad d (kind == 4 || bitOf (w 14) 40) 12 ++ s.cvAddrBad d true 15 ++
  posIf (kind = 0 || 5 < kind) 10 0 ++
  posIf (if reduces then 2 < red else red != 0) 10 4 ++
  posIf (if reduces then !(fmt ≤ 2 || fmt == 0xC) else fmt != 0xA) 10 8 ++
  posIf (wide && !(reduces && red == 0 && (fmt == 1 || fmt == 2))) 14 41 ++
  posIf (bitOf (w 14) 40 && (kind == 3 || kind == 4)) 14 40 ++
  posIf (kind == 5 && !bitOf (w 10) 22) 10 22 ++ posIf (reduces && red != 0 && w 15 == 0) 15 0 ++
  posIf (s.convoyBusy c d) 1 0

/-- The conditions of R275 and R270 on a CARAVAN. -/
def State.carBad (s : State) (c : Nat) (d : List Nat) : List Pos :=
  [5, 11].flatMap (s.cvAddrBad d false) ++ [4, 12].flatMap (s.cvAddrBad d true) ++ posIf (bitsOf (d.getD 6 0) 39 0 = 0) 6 0 ++ posIf (s.convoyBusy c d) 1 0

/-- Every failing condition of check 5 that the descriptor alone and the tables decide. -/
def State.descBad (s : State) (c j : Nat) (d : List Nat) : List Pos :=
  let op := bitsOf (d.getD 0 0) 7 0
  let cv := op == 0x36 || op == 0x37
  let body := if op = 0x10 || op = 0x11 then mmBad d (s.tileW j)
    else if 0x20 ≤ op && op ≤ 0x23 then veBad d
    else if op = 0x24 || op = 0x25 then veBwdBad d
    else if op = 0x36 then s.collBad c d
    else if op = 0x37 then s.carBad c d
    else deBad d
  let stash := match s.stashMatch c d with
    | .error (0x10, det, _) => [(det % 256, det / 256)]
    | _ => []
  reservedBad op d ++ posIf (bitOf (d.getD 0 0) 54 && op != 0x36) 0 54 ++
    posIf (bitOf (d.getD 0 0) 58 != cv) 0 58 ++ body ++ stash

/-- Opcodes of R103 and the engines that run them. -/
def opcodeOk (j op : Nat) : Bool :=
  op == 0 || (j < 64 && (op == 0x10 || op == 0x11)) || (64 ≤ j && j < 80 && 0x20 ≤ op && op ≤ 0x25) ||
    (80 ≤ j && 0x30 ≤ op && op ≤ 0x37)

/-- Address fields of a body that may name a tile store. -/
def storeFields (op : Nat) : List Nat :=
  if op = 0x10 || op = 0x11 then [4, 5, 6, 7, 8, 12, 13]
  else if 0x20 ≤ op && op ≤ 0x23 then [4, 5, 6, 7, 13]
  else if op = 0x24 || op = 0x25 then [4, 5, 7, 12, 13, 15]
  else match op with
    | 0x30 => [4, 5] | 0x31 => [5] | 0x32 => [4] | 0x33 => [5] | _ => []

/-- Check 8 of R102: everything named is held by the context. -/
def State.namesHeld (s : State) (c : Nat) (d : List Nat) : Bool :=
  let w := fun i => d.getD i 0
  let op := bitsOf (w 0) 7 0
  let me := op == 0x10 || op == 0x11
  let ve := 0x20 ≤ op && op ≤ 0x25
  let stream := if me then bitsOf (w 11) 57 48 else bitsOf (w 10) 27 18
  let sr := if me then bitsOf (w 11) 47 46 == 1 else ve && bitsOf (w 10) 17 16 == 1
  (!bitOf (w 0) 56 || s.holdsSem c (bitsOf (w 1) 29 16)) && (!bitOf (w 0) 57 || s.holdsSem c (bitsOf (w 1) 45 32)) &&
    (!sr || s.holdsStream c stream) &&
    (storeFields op).all (fun i => match eaddr (w i) with
      | some (.store die off) => s.storeHeld c die off 1
      | _ => true) &&
    (op != 0x36 || !bitOf (w 10) 22 ||
      (s.fab.barriers.lookup (bitsOf (w 10) 21 12)).map (·.ctx) == some c)

/-- Tiles a descriptor names: first and number. -/
def State.tilesNamed (s : State) (j : Nat) (d : List Nat) : List Nat :=
  let op := bitsOf (d.getD 0 0) 7 0
  if op = 0x10 || op = 0x11 then (List.range ((mmOf d).tiles (s.tileW j))).map (· + (mmOf d).tile) else []

/-- The first tile not held by the context (check 9). -/
def State.tileNotHeld (s : State) (c j : Nat) (d : List Nat) : Option Nat :=
  (s.tilesNamed j d).find? fun t => s.eng.tileOwner.lookup (4 * j + t / 8) != some c

/-- Checks 1 to 9 of R102 in order: the first failure, and whether check 7 has been passed. -/
def State.checkDesc (s : State) (c q j : Nat) (ix : Word) (d : List Nat) (husk : Option Nat) : Option Fail × Bool :=
  let w := fun i => d.getD i 0
  let op := bitsOf (w 0) 7 0
  match husk with
  | some a => (some (0x30, 0, a), false)
  | none =>
    if bitsOf (w 1) 63 48 != ix.toNat % 65536 then (some (0x12, bitsOf (w 1) 63 48, 0), false)
    else if bitsOf (w 0) 15 8 != c then (some (0x10, 8 * 2 ^ 8, 0), false)
    else if bitsOf (w 0) 21 16 != q then (some (0x10, 16 * 2 ^ 8, 0), false)
    else if !opcodeOk j op then (some (0x11, op, 0), false)
    else match badPos (s.descBad c j d) with
      | some det => (some (0x10, det, 0), false)
      | none =>
        if bitsOf (w 0) 51 36 != (s.ctx c).epoch.toNat then (some (0x14, (s.ctx c).epoch.toNat, 0), false)
        else if !s.holdsTag c (bitsOf (w 0) 35 24) then (some (0x13, bitsOf (w 0) 35 24, 0), false)
        else if !s.namesHeld c d then (some (0x5, 8, 0), true)
        else match s.tileNotHeld c j d with
          | some t => (some (0x33, t, 0), true)
          | none => (none, true)

/-- Fetch of a descriptor (R102): its doublewords with the lowest husk sector, or the fetch's own failure. -/
def State.fetchDesc (s : State) (c : Nat) (u : Queue) : Except Fail (List Nat × Option Nat) :=
  let a := u.ring + 128 * (u.head.toNat % 2 ^ u.s)
  if !(s.ctx c).inWindow a 128 then .error (0x5, 10, a)
  else match s.place a with
    | .err e => let (st, det) := (accStatus e 0).getD (0x1, 0); .error (st, det, a)
    | .remote _ _ => .error (0x5, 10, a)
    | .loc off =>
      if usableTop < off + 128 then .error (0x1, 0, a)
      else match s.regionErr (engDie u.eng) off with
        | .waiting => .error (waitMark, 0, a)
        | .domainOff => .error (0x3, dieOf off, a)
        | _ =>
          let b := s.mem.main.read off 128
          .ok ((List.range 16).map fun i => fieldAt b (8 * i) 8,
            (s.mem.main.husksIn off 128).head?.map fun k => a + 32 * k - off)

/-! ### Masks (R158-R161) -/

/-- A mask header as read. -/
structure MaskHdr where
  addr : Nat
  oa : Nat
  ob : Nat
  ea : Nat
  eb : Nat
  rest : Bool

def maskHdr (b : List Byte) : MaskHdr :=
  { addr := fieldAt b 0 8, oa := fieldAt b 8 4, ob := fieldAt b 12 4, ea := fieldAt b 16 4, eb := fieldAt b 20 4
    rest := (b.drop 24).any (· != 0) }

/-- The conditions of R160 on a header. -/
def MaskHdr.ok (h : MaskHdr) (p : MM) : Bool :=
  !h.rest && (eaddr h.addr).isSome &&
    (if p.maskKind = 1 then h.ob == 0 && h.eb == 0 && 1 ≤ h.ea && h.ea ≤ 2 ^ 24 && h.oa + p.m ≤ h.ea
     else h.ea * h.eb ≤ 65536 && h.oa + cdiv p.m 32 ≤ h.ea && h.ob + cdiv p.n 32 ≤ h.eb)

/-- The byte ranges of the bitmap a descriptor uses. -/
def MaskHdr.ranges (h : MaskHdr) (p : MM) : List (Nat × Nat) :=
  if p.maskKind = 1 then [(h.addr + h.oa / 8, (h.oa + p.m - 1) / 8 - h.oa / 8 + 1)]
  else
    (List.range (cdiv p.m 32)).map fun i =>
      (h.addr + (h.oa + i) * cdiv h.eb 8 + h.ob / 8, (h.ob + cdiv p.n 32 - 1) / 8 - h.ob / 8 + 1)

/-- The mask bits of a descriptor, its header and bitmap read as they stand. -/
def State.maskBits (s : State) (c die : Nat) (x : Started) (p : MM) : Except Fail (Bool × List (List Bool)) := do
  let h := maskHdr (← s.engUse c die x 4 p.maskAddr 64)
  if !h.ok p then throw (0x10, 13, 0)
  let bytes ← (h.ranges p).mapM fun r => s.engUse c die x 4 r.1 r.2
  let bits := fun (b : List Byte) (o n : Nat) =>
    (List.range n).map fun i => (b.getD ((o % 8 + i) / 8) 0).getLsbD ((o + i) % 8)
  if p.maskKind = 1 then pure (false, bytes.map fun b => bits b h.oa p.m)
  else pure (true, bytes.map fun b => bits b h.ob (cdiv p.n 32))

/-! ### Operands on other modules of the board (R36) -/

/-- Consecutive elements lo to hi of a row as a byte range. -/
def elemRange (base fmt lo hi : Nat) : Nat × Nat :=
  (base + lo * fmtBits fmt / 8, cdiv ((hi + 1) * fmtBits fmt) 8 - lo * fmtBits fmt / 8)

/-- Byte ranges of one ME operand. -/
def mmRanges (base stride fmt scale k : Nat) (alongK : Bool) (idx : List Nat) : List (Nat × Nat) :=
  (if alongK then idx.map fun m => (base + m * stride, rowBytes fmt k)
   else (List.range k).flatMap fun i => (runsOf idx).map fun r =>
     elemRange (base + i * stride) fmt (r.headD 0) (r.getLastD 0)) ++
  (if fmtMx fmt then idx.map fun m => (scale + m * cdiv k 32, cdiv k 32) else [])

/-- Byte ranges an ME or VE descriptor or a COPY or PUT reads. -/
def State.readRanges (s : State) (j : Nat) (x : Started) : List (Nat × Nat) :=
  let op := x.opcode
  if op = 0x10 || op = 0x11 then
    let p := mmOf x.d
    let used := (List.range (p.tiles (s.tileW j))).map fun g => tileRows p (s.tileW j) x.mask g
    mmRanges p.a p.astr p.af p.as_ p.k (!p.ta) ((used.flatMap (·.1)).eraseDups) ++
      mmRanges p.b p.bstr p.bf p.bs p.k p.tb ((used.flatMap (·.2)).eraseDups)
  else if 0x20 ≤ op && op ≤ 0x25 then
    let p := vbOf x.d
    let src := fun (a fmt stride rows scales : Nat) =>
      (List.range rows).flatMap fun r => (a + r * stride, rowBytes fmt p.cols) ::
        (if fmtMx fmt then [(scales + r * cdiv p.cols 32, cdiv p.cols 32)] else [])
    let full := fun a => src a p.inf p.sstr p.rows (a + p.rows * p.sstr)
    let one := fun a => if a = 0 then [] else src a p.inf 0 1 (a + p.rows * p.sstr)
    if op ≤ 0x23 then
      full p.s0 ++ (if op = 0x21 then one p.s1 ++ one p.s2
        else (if veTwo p then full p.s1 else []) ++ (if veThree p then full p.s2 else []))
    else
      src p.s0 p.inf p.sstr p.rows p.s0scale ++ src p.grad p.gradf p.gstr p.rows 0 ++
        (if op = 0x24 then (p.s1, rowBytes p.gainf p.cols) ::
          (if p.aux != 0 && bitOf p.func 7 then [(p.aux, 4 * p.cols * (2 - p.func % 2))] else []) else [])
  else if op = 0x30 || op = 0x32 then
    (List.range (max 1 (bitsOf (x.dw 9) 31 0))).map fun r =>
      (x.dw 4 + r * bitsOf (x.dw 8) 31 0, bitsOf (x.dw 6) 39 0)
  else []

/-- GETs for the board-remote parts of some ranges that have not been fetched; a part outside the context's windows fails
the descriptor. -/
def State.fetchRemote (s : State) (c q j : Nat) (ix : Word) (ranges : List (Nat × Nat)) : State :=
  ((ranges.filter fun r => s.isRemote r.1).flatMap fun r => packetsOf r.1 r.2).eraseDups.foldl (init := s) fun s p =>
    match s.started? c q ix with
    | none => s
    | some x =>
      match s.target c (engDie j) p.1 p.2 with
      | .bad st det => s.failDesc c q ix (st, det, p.1)
      | .wait _ d => s.failDesc c q ix (waitMark, d, p.1)
      | .loc _ => s
      | .remote idx off =>
        if (x.remote.lookup (idx * 2 ^ 48 + off)).isSome then s
        else if !s.boardRoute (s.ctx c).slice idx then s.failDesc c q ix (0x2, s.peerAt idx, p.1)
        else s.descReq c q ix { s.mkReq c q x 2 (s.peerAt idx) off p.2 with named := p.1 } true

end Sys2Proof.Machine
end

