-- ==== Sys2Proof/Machine/Descriptor.lean ====
section
/-! DEFINITION. Descriptors: doorbells, selection and fetch, start, the DMA engine's work, completion (chapter 03). -/

namespace Sys2Proof.Machine

/-! ### Doorbells and RESUME (R98, R99) -/

/-- Q_TAIL_DOORBELL (R97, R98). -/
def execQTailDoorbell (ctx : Fin 256) (q : Fin 64) (value : BitVec 32) (s : State) : Host.Outcome State Fault Refusal :=
  .next <|
    s.setQueue ctx q fun u =>
      if u.st = .resetting || u.st = .unbound then { u with dbErr := true }
      else if (value - u.done).toNat ≤ 2 ^ u.s && (value - u.head).toNat < 2 ^ 31 then
        let u := { u with tail := value }
        if u.st = .idle then { u with st := u.rest } else u
      else { u with dbErr := true }

/-- Q_CTRL_RESUME (R97, R99): STOPPED to ACTIVE, or IDLE where nothing is left (Q_STATUS). -/
def execQCtrlResume (ctx : Fin 256) (q : Fin 64) (value : BitVec 32) (s : State) : Host.Outcome State Fault Refusal :=
  .next <|
    s.setQueue ctx q fun u => if value.getLsbD 0 && u.st = .stopped then { u with st := .active } else u

/-- DE_SEM_VALUE_WRITE and DE_SEM_ADD_WRITE (R121): in the owning die's block, which answers while the die is out of
reset. -/
def execDeSemValueWrite (sem : Fin 16384) (value : BitVec 32) (s : State) : Host.Outcome State Fault Refusal :=
  .next <| if (s.die (sem.val / 4096)).inReset then s.fail .domainOff else s.setSem sem value
def execDeSemAddWrite (sem : Fin 16384) (amount : BitVec 32) (s : State) : Host.Outcome State Fault Refusal :=
  .next <| if (s.die (sem.val / 4096)).inReset then s.fail .domainOff else s.setSem sem (s.sem sem + amount)

/-! ### The work of DE opcodes (R109) -/

/-- Where a DE opcode with a row form reads and writes: PUT and GET to the own module act as COPY. -/
structure RowForm where
  src : Nat
  dst : Nat
  len : Nat
  sstr : Nat
  dstr : Nat
  rows : Nat
  /-- The source, the destination is an offset in the own module. -/
  ownSrc : Bool
  ownDst : Bool
  /-- PUT to, GET from another module. -/
  put : Option Nat
  get : Option Nat

def State.rowForm (s : State) (x : Started) : RowForm :=
  let t := bitsOf (x.dw 7) 14 0
  let self := t == s.ownId
  let own := (if s.idLocked then boardIdx s.ownId else 0) * 2 ^ 48
  let op := x.opcode
  { src := if op = 0x33 && self then own + x.dw 4 else x.dw 4
    dst := if op = 0x32 && self then own + x.dw 5 else x.dw 5
    len := bitsOf (x.dw 6) 39 0, sstr := bitsOf (x.dw 8) 31 0, dstr := bitsOf (x.dw 8) 63 32
    rows := max 1 (bitsOf (x.dw 9) 31 0), ownSrc := op = 0x33 && self, ownDst := op = 0x32 && self
    put := if op = 0x32 && !self then some t else none
    get := if op = 0x33 && !self then some t else none }

/-- A failure at an address the descriptor names as an offset in the own module: FAULT_ADDR is that offset (R110). -/
def ownFail (own : Bool) (f : Fail) : Fail := if own then (f.1, f.2.1, f.2.2 % 2 ^ 48) else f

/-- A local address of an address field. -/
def State.localOf (s : State) (v : Nat) : Option Nat :=
  match eaddr v with
  | some (.store d off) => some (usableTop + d * storeSize + off)
  | some (.mpa a) => s.localOff a
  | none => none

/-- An address lies in some row of a destination. -/
def RowForm.written (f : RowForm) (dst a : Nat) : Bool :=
  if f.dstr = 0 then dst ≤ a && a < dst + f.len
  else dst ≤ a && (let r := min ((a - dst) / f.dstr) (f.rows - 1)
    a < dst + r * f.dstr + f.len)

/-- The bytes of one row of a COPY, GET or PUT source. Bytes whose source is itself overwritten by the same descriptor have
no stated value: free values (log 4). -/
def State.rowBytesOf (s : State) (c j : Nat) (x : Started) (f : RowForm) (r : Nat) : Except Fail (HBytes × State) :=
  match f.get with
  | some t =>
    let k := boardIdx t * 2 ^ 48 + f.src + r * f.sstr
    .ok ((List.range f.len).map fun i => (mget 0 x.remote (k + i), x.remoteHusks.contains ((k + i) / 32)), s)
  | none =>
    match s.engRead c (engDie j) x (f.src + r * f.sstr) f.len with
    | .error e => .error e
    | .ok b =>
      match s.localOf f.src, s.localOf f.dst with
      | some a, some d =>
        if (List.range f.len).any fun i => f.written d (a + r * f.sstr + i) && a + r * f.sstr + i != d + r * f.dstr + i then
          let (v, s) := s.draw (8 * f.len)
          .ok (b.zipIdx.map fun p =>
            if f.written d (a + r * f.sstr + p.2) && a + r * f.sstr + p.2 != d + r * f.dstr + p.2
            then (BitVec.ofNat 8 (v.toNat / 2 ^ (8 * p.2)), p.1.2) else p.1, s)
        else .ok (b, s)
      | _, _ => .ok (b, s)

/-- One row written or sent. -/
def State.deRow (s : State) (c q j : Nat) (x : Started) (f : RowForm) (r : Nat) : State :=
  if s.hasFailed c q x.index then s
  else
    match f.put with
    | some t =>
      let to_ := f.dst + r * f.dstr
      (packetsOf to_ f.len).foldl (init := s) fun s p =>
        if s.hasFailed c q x.index then s
        else
          let from_ := f.src + r * f.sstr + (p.1 - to_)
          match s.engRead c (engDie j) x from_ p.2 with
          | .error e => s.failDesc c q x.index e
          | .ok b =>
            let rq := s.mkReq c q x 1 t p.1 p.2
            let rq := match s.localOf from_ with
              | some a => { rq with src := some a }
              | none => { rq with bytes := b.map (·.1), mask := maskOf p.1 b }
            ((s.noteRemote j c t).descReq c q x.index rq false).countEv (engDie j) 0x030 ((j - 80) % 8) (some c) p.2
    | none =>
      match s.rowBytesOf c j x f r with
      | .error e => s.failDesc c q x.index (ownFail f.ownSrc e)
      | .ok (b, s) =>
        let (s, e) := s.engCopy c q x j (f.dst + r * f.dstr) b (if f.get.isSome then none else s.localOf (f.src + r * f.sstr))
        let s := (s.countEv (engDie j) 0x030 ((j - 80) % 8) (some c) f.len).countEv (engDie j) 0x031 ((j - 80) % 8) (some c) f.len
        match e with
        | some e => s.failDesc c q x.index (ownFail f.ownDst e)
        | none => s

/-- FILL: each row afresh from byte 0 of the pattern. -/
def State.deFill (s : State) (c q j : Nat) (x : Started) : State :=
  let f := s.rowForm x
  (List.range f.rows).foldl (init := s) fun s r =>
    if s.hasFailed c q x.index then s
    else
      let pat := leBytes 8 (x.dw 10)
      let (s, e) := s.engWrite c q x j (f.dst + r * f.dstr) (plain ((List.range f.len).map fun i => pat.getD (i % 8) 0))
      let s := s.countEv (engDie j) 0x031 ((j - 80) % 8) (some c) f.len
      match e with
      | some e => s.failDesc c q x.index e
      | none => s

/-- ATOMIC: a request, or done here when the target is this module; a husk target is consumed and unchanged (R198). -/
def State.deAtomic (s : State) (c q j : Nat) (x : Started) : State :=
  let t := bitsOf (x.dw 7) 14 0
  let op := bitsOf (x.dw 7) 18 16
  let a64 := bitOf (x.dw 7) 24
  let s := if t = s.ownId then s else s.noteRemote j c t
  if t = s.ownId then
    let v := (if s.idLocked then boardIdx s.ownId else 0) * 2 ^ 48 + x.dw 4
    match s.target c (engDie j) v (if a64 then 8 else 4) with
    | .bad st det => s.failDesc c q x.index (st, det, x.dw 4)
    | .wait _ d => s.failDesc c q x.index (waitMark, d, x.dw 4)
    | .remote _ _ => s.failDesc c q x.index (0x5, 10, x.dw 4)
    | .loc a =>
      if s.lHusk a then s.failDesc c q x.index (0x30, 3, x.dw 4 / 32 * 32)
      else
        let (s, old) := s.atomicAt a a64 op (x.dw 10) (x.dw 11)
        (s.noteWrite j c a (if a64 then 8 else 4)).setStarted c q x.index fun y => { y with result := BitVec.ofNat 64 old }
  else
    s.descReq c q x.index
      { s.mkReq c q x 3 t (x.dw 4) (if a64 then 8 else 4) with
        a64 := a64, subop := BitVec.ofNat 4 op, operand := BitVec.ofNat 64 (x.dw 10), compare := BitVec.ofNat 64 (x.dw 11) } false

/-- SEM_REMOTE: a request, or a signal here when the target is this module. -/
def State.deSem (s : State) (c q : Nat) (x : Started) : State :=
  let t := bitsOf (x.dw 7) 14 0
  let k := bitsOf (x.dw 10) 13 0
  if t = s.ownId then
    if s.holdsSem c k then s.semAdd k (BitVec.ofNat 32 (bitsOf (x.dw 10) 63 32)) else s.failDesc c q x.index (0x5, 10, 0)
  else s.descReq c q x.index { s.mkReq c q x 4 t 0 0 with operand := BitVec.ofNat 64 (x.dw 10) } false

/-- The reads and writes of a descriptor whose board-remote operands have arrived; MATMULs are done tile by tile, convoys
by their segments. -/
def State.doWork (s : State) (c q j : Nat) (x : Started) : State :=
  let s := match x.opcode with
    | 0x00 => s
    | 0x10 => s
    | 0x11 => s
    | 0x31 => s.deFill c q j x
    | 0x34 => s.deAtomic c q j x
    | 0x35 => s.deSem c q x
    | 0x36 => s
    | 0x37 => s
    | _ =>
      if j < 80 then s.veWork c q x j
      else
        let f := s.rowForm x
        (List.range f.rows).foldl (fun s r => s.deRow c q j x f r) s
  s.setStarted c q x.index fun y => { y with work := true }

/-- Work that goes out as requests is done as soon as its operands are here. -/
def State.sendsAtOnce (s : State) (x : Started) : Bool :=
  x.opcode == 0x34 || x.opcode == 0x35 || (x.opcode == 0x32 && (s.rowForm x).put.isSome)

/-! ### Masks and tiles (R158-R163) -/

/-- The tiles of an ME descriptor that have something to do: computed elements, or a dump record (R155). -/
def State.tilesToDo (s : State) (j : Nat) (x : Started) : List Nat :=
  let p := mmOf x.d
  (List.range (p.tiles (s.tileW j))).filter fun g =>
    x.dump.isSome || !(tileRows p (s.tileW j) x.mask g).1.isEmpty

/-! ### Start (R100, R119, R143, R150, R151, R171) -/

/-- Descriptors of the context that have started on the engine, failed ones too, and are not complete, with a tile in common with
one that starts: for each whether it is of another queue, its queue and index, its order, and the tiles shared. -/
def State.sharers (s : State) (c q j : Nat) (tiles : List Nat) : List (Bool × Nat × Word × Nat × List Nat) :=
  if tiles.isEmpty then []
  else s.eng.queues.flatMap fun e =>
    if e.1 / 64 != c || e.2.eng != j then []
    else e.2.started.filterMap fun y =>
      let sh := tiles.filter (s.tilesNamed j y.d).contains
      if !y.begun || sh.isEmpty then none else some (e.1 % 64 != q, e.1 % 64, y.index, y.order, sh)

/-- The seed-stream claim of a descriptor (R143, R504): stream and counter values. -/
def State.seedClaim (s : State) (j : Nat) (d : List Nat) : Option (Nat × Nat) :=
  let op := bitsOf (d.getD 0 0) 7 0
  if op = 0x10 || op = 0x11 then
    let p := mmOf d
    if p.round = 1 then some (p.stream, p.tiles (s.tileW j) * (if s.tileW j = 64 then 256 else 128)) else none
  else if 0x20 ≤ op && op ≤ 0x25 then
    let p := vbOf d
    if p.round = 1 then some (p.stream, cdiv p.outputs 8) else none
  else none

/-- The claims of a start, once: the tag, the range of the seed stream, and the descriptors it shares tiles with (R112, R143, R150,
R151). -/
def State.claimStart (s : State) (c q j : Nat) (ix : Word) : State :=
  match s.started? c q ix with
  | none => s
  | some x =>
    if x.begun then s
    else
      let sh := s.sharers c q j (s.tilesNamed j x.d)
      let other := sh.filter (·.1)
      let first := other.foldl (fun (b : Option (Nat × Word × Nat)) o => match b with
        | none => some (o.2.1, o.2.2.1, o.2.2.2.1)
        | some y => if o.2.2.2.1 < y.2.2 then some (o.2.1, o.2.2.1, o.2.2.2.1) else some y) none
      let (seed, s) := match s.seedClaim j x.d with
        | none => (none, s)
        | some (k, n) =>
          let st : Sys2Proof.Machine.Stream := mget {} s.eng.streams k
          (some (st.ctr, st.key),
            { s with eng := { s.eng with streams := mput s.eng.streams k { st with ctr := (st.ctr + n) % 2 ^ 128 } } })
      (s.setStarted c q ix fun y =>
        { y with
          begun := true, tagged := true, seed := seed, after := sh.map fun o => (c, o.2.1, o.2.2.1)
          overlap := (other.flatMap fun o => o.2.2.2.2).eraseDups, overlapOf := first.map fun y => (y.1, y.2.1)
          unord := !other.isEmpty }).tagStart c x.tag (engDie j)

/-! ### Masks and what follows an answer -/

/-- Every board-remote part of some ranges has been fetched. -/
def State.fetched (s : State) (c j : Nat) (x : Started) (rs : List (Nat × Nat)) : Bool :=
  rs.all fun r => !s.isRemote r.1 || (packetsOf r.1 r.2).all fun g =>
    match s.target c (engDie j) g.1 g.2 with
    | .remote idx off => (x.remote.lookup (idx * 2 ^ 48 + off)).isSome
    | _ => true

/-- The tiles of an ME descriptor whose mask is known, and the GETs for its operands. -/
def State.maskReady (s : State) (c q j : Nat) (ix : Word) (m : Option (Bool × List (List Bool))) : State :=
  let s := s.setStarted c q ix fun y => { y with mask := m, maskDue := false }
  match s.started? c q ix with
  | none => s
  | some y => (s.setStarted c q ix fun z => { z with tiles := s.tilesToDo j y }).fetchRemote c q j ix (s.readRanges j y)

/-- The mask read, or the GETs for the part of it that lies on another module; then the tiles and their operands. A header that fails
R160 is a failure of check 5: on another module too, it ends a descriptor that has claimed nothing (R143, R160). DESIGN CHOICE
(log 61): such a descriptor starts when its header has come. -/
def State.takeMask (s : State) (c q j : Nat) (ix : Word) : State :=
  match s.started? c q ix with
  | none => s
  | some x =>
    let p := mmOf x.d
    if x.opcode != 0x11 then s.maskReady c q j ix none
    else if x.fail.isNone && !s.fetched c j x [(p.maskAddr, 64)] then
      let s := (s.setStarted c q ix fun y => { y with maskDue := true }).fetchRemote c q j ix [(p.maskAddr, 64)]
      if (s.started? c q ix).any fun y => y.reqs = 0 then s.claimStart c q j ix else s
    else
      let hdr := (s.engUse c (engDie j) x 4 p.maskAddr 64).map maskHdr
      match x.fail, hdr with
      | none, .ok h =>
        if !h.ok p then
          s.setStarted c q ix fun y => { y with fail := some (0x10, 13, 0), maskDue := false, work := true }
        else
          let s := s.claimStart c q j ix
          if !s.fetched c j x (h.ranges p) then
            (s.setStarted c q ix fun y => { y with maskDue := true }).fetchRemote c q j ix (h.ranges p)
          else match s.maskBits c (engDie j) x p with
            | .error f => s.dropTiles c q x f
            | .ok m => s.maskReady c q j ix (some m)
      | some f, _ => (s.claimStart c q j ix).dropTiles c q x f
      | none, .error f => (s.claimStart c q j ix).dropTiles c q x f

/-- Requests of a descriptor have been answered: what waited for them goes on. -/
def State.descSettled (s : State) (c q : Nat) (ix : Word) : State :=
  match s.started? c q ix, s.queue? c q with
  | some x, some u =>
    if x.convoy.isSome then s.cvSettled c q ix
    else if x.reqs != 0 then s
    else if !x.begun then s.takeMask c q u.eng ix
    else if x.fail.isSome then s.setStarted c q ix fun y => { y with tiles := [], checks := [] }
    else if x.maskDue then s.takeMask c q u.eng ix
    else if !x.work && s.sendsAtOnce x then s.doWork c q u.eng x
    else s
  | _, _ => s

/-! ### Start -/

/-- Put a descriptor among the started ones of its queue. -/
def State.pushStarted (s : State) (c q : Nat) (x : Started) : State :=
  let s := s.setQueue c q fun u =>
    { u with
      started := u.started ++ [x], head := u.head + 1, beatAt := s.time.mono, waitSince := none, stalled := false
      tagHeld := none
      st := if u.st = .idle || u.st = .waitSem then .active else u.st }
  { s with eng := { s.eng with order := s.eng.order + 1 } }

/-- A new entry, with nothing claimed. -/
def State.newStarted (s : State) (c : Nat) (ix : Word) (d : List Nat) (f : Option Fail) (tagged : Bool) : Started :=
  { index := ix, d := d, order := s.eng.order, at_ := s.time.mono, fail := f, tagged := tagged, work := f.isSome, begun := false
    dump := if (s.ctx c).debug then some ((s.ctx c).dumpRing, (s.ctx c).dumpExp) else none }

/-- A descriptor that ends without starting; a COLLECTIVE or CARAVAN that named its convoy ends it (R271). It completes at once where
it is the oldest and its record can be written (R100). -/
def State.endUnstarted (s : State) (c q j : Nat) (ix : Word) (d : List Nat) (f : Fail) (tagged : Bool) : State :=
  let x := s.newStarted c ix d (some f) tagged
  let op := bitsOf (d.getD 0 0) 7 0
  let late := f.1 == 0x14 || f.1 == 0x13 || f.1 == 0x5 || (f.1 == 0x10 && bitOf (d.getD 0 0) 58)
  let s := s.pushStarted c q x
  let s := if tagged then s.tagStart c x.tag (engDie j) else s
  let s := if (op == 0x36 || op == 0x37) && 80 ≤ j && bitOf (d.getD 0 0) 58 && late && bitsOf (d.getD 0 0) 15 8 == c &&
      bitsOf (d.getD 0 0) 21 16 == q then s.abortUnstarted c q j x 1 else s
  match s.queue? c q with
  | some u => if u.started.length = 1 && s.recordReady u x then s.commit c q else s
  | none => s

/-- Start a descriptor whose checks have passed. -/
def State.startDesc (s : State) (c q j : Nat) (ix : Word) (d : List Nat) : State :=
  let op := bitsOf (d.getD 0 0) 7 0
  match s.stashMatch c d with
  | .error f => s.endUnstarted c q j ix d f true
  | .ok hits =>
    let x0 := s.newStarted c ix d none false
    let p := mmOf d
    let far := s.isRemote p.maskAddr
    let maskBad := op == 0x11 && !far && (match s.maskBits c (engDie j) x0 p with
      | .error (0x10, 13, _) => true
      | _ => false)
    if maskBad then s.endUnstarted c q j ix d (0x10, 13, 0) false
    else
      let x := { x0 with stash := hits, pass := (s.stash c).pass.toNat }
      let s := s.pushStarted c q x
      if op = 0x11 && far then s.takeMask c q j ix
      else
        let s := s.claimStart c q j ix
        if op = 0x10 || op = 0x11 then s.takeMask c q j ix
        else if op = 0x36 || op = 0x37 then s.startConvoy c q j ix
        else
          let f := s.rowForm x
          let s := match f.get with
            | some t => if op = 0x33 then
                ((List.range f.rows).flatMap fun r => packetsOf (f.src + r * f.sstr) f.len).foldl
                  (fun (s : State) (g : Nat × Nat) => s.descReq c q ix (s.mkReq c q x 2 t g.1 g.2) false) s
              else s
            | none => s.fetchRemote c q j ix (s.readRanges j x)
          match s.started? c q ix with
          | some y => if y.reqs = 0 && y.fail.isNone && s.sendsAtOnce y then s.doWork c q j y else s
          | none => s

/-! ### Selection (R96, R98, R99, R120, R155, R457) -/

/-- What a queue's next descriptor meets. -/
inductive Peek where
  | notReady
  | waitSem
  | tagClosing
  | fail (d : List Nat) (f : Fail) (tagged : Bool)
  | start (d : List Nat)

/-- A queue may fetch: not while one of its descriptors has failed, or waits for its mask header before it starts. -/
def State.mayFetch (s : State) (c : Nat) (u : Queue) : Bool :=
  (s.ctx c).st == .active && !(s.ctx c).held && (u.st == .idle || u.st == .active || u.st == .waitSem) &&
    u.head != u.tail && u.deleting.isEmpty && !u.started.any fun x => x.fail.isSome || !x.begun

/-- The wait on a semaphore is over (R120). -/
def State.semReady (s : State) (d : List Nat) : Bool :=
  let k := bitsOf (d.getD 1 0) 29 16
  !bitOf (d.getD 0 0) 56 ||
    (!(s.die (k / 4096)).inReset && 0 ≤ (s.sem k - BitVec.ofNat 32 (d.getD 2 0)).toInt)

/-- What the next descriptor of a queue meets now. DESIGN CHOICE (log 61): a NOP on a queue bound to an ME is no ME descriptor, so the
debug flag does not fence it (R155). -/
def State.peek (s : State) (c q : Nat) (u : Queue) : Peek :=
  if !s.mayFetch c u then .notReady
  else match s.fetchDesc c u with
    | .error f => if f.1 = waitMark then .notReady else .fail [] f false
    | .ok (d, husk) =>
      match s.checkDesc c q u.eng u.head d husk with
      | (some f, t) => .fail d f t
      | (none, _) =>
        let op := bitsOf (d.getD 0 0) 7 0
        let fence := bitOf (d.getD 0 0) 52 || ((s.ctx c).debug && u.eng < 64 && op != 0)
        let g := s.tag (bitsOf (d.getD 0 0) 35 24)
        if fence && !u.started.isEmpty then .notReady
        else if !s.semReady d then .waitSem
        else if g.isOpen && g.closing then .tagClosing
        else .start d

/-- The engine's state allows a start: idle, in service, its die out of reset; both halves of a pair (R118). -/
def State.engFree (s : State) (j : Nat) : Bool :=
  ((s.pairOf j).all fun i => (s.engine i).st == .idle && (s.sv i).st != .outOfService) && !(s.die (engDie j)).inReset

/-- Queues bound to an engine, in key order from the one after a key, that key last. -/
def State.roundFrom (s : State) (j : Nat) (k : Nat) : List (Nat × Queue) :=
  let l := s.eng.queues.filter fun e => e.2.eng == j
  (l.filter fun e => k < e.1) ++ (l.filter fun e => e.1 ≤ k)

/-- A semaphore wait begins or a held tag is counted. -/
def State.notePeek (s : State) (j : Nat) (e : Nat × Queue) : State :=
  let c := e.1 / 64
  let q := e.1 % 64
  match s.peek c q e.2 with
  | .waitSem =>
    s.setQueue c q fun u =>
      { u with
        st := if u.st = .waitSem then u.st else .waitSem
        waitSince := some (u.waitSince.getD s.time.mono) }
  | .tagClosing =>
    if s.toll.backlog < 16384 || e.2.tagHeld == some e.2.head then s
    else
      let s := s.setQueue c q fun u => { u with tagHeld := some u.head }
      let t := { s.toll with tagWaits := satAdd 0xFFFF s.toll.tagWaits 1, heldNow := s.toll.heldNow + 1 }
      let s := { s with toll := t }
      if (match t.backlogAt with | none => true | some b => b + 1000000000 ≤ s.time.mono) then
        ({ s with toll := { s.toll with heldNow := 0, backlogAt := some s.time.mono } }).log 0x0C03 3 (srcDieUnit (engDie j) 64)
          [engDie j, t.fill (engDie j), t.heldNow]
      else s
  | _ => s

/-- A queue's next descriptor can be started or ended now. -/
def Peek.ready : Peek → Bool
  | .fail _ _ _ => true
  | .start _ => true
  | _ => false

/-- DESCRIPTOR_FETCH (R96, R102): the round-robin choice of a ready queue and what its next descriptor meets. A waiting
descriptor is fetched again by a later command. DESIGN CHOICE (log 61): one queue is served for up to 2^prio starts in a row, then the
next ready one in ascending order of 64 × context + queue, and a descriptor that fails its checks uses up a start; R96 fixes the weights
alone. -/
def execDescriptorFetch (eng : Fin 112) (flips : List LineFlip) (s : State) : Host.Outcome State Fault Refusal :=
  s.orWait <|
    let j := eng.val
    if !s.engFree j then s
    else
      let s := (s.damages 0 flips).engTouch j
      let s := (s.eng.queues.filter fun e => e.2.eng == j).foldl (fun s e => s.notePeek j e) s
      let rr := (s.engine j).rr
      let keep := match rr with
        | some (k, n) => if 0 < n then (s.eng.queues.lookup k).filter fun (u : Queue) =>
              u.eng == j && (s.peek (k / 64) (k % 64) u).ready else none
        | none => none
      let pick : Option (Nat × Queue × Nat) := match keep, rr with
        | some u, some (k, n) => some (k, u, n - 1)
        | _, _ => ((s.roundFrom j ((rr.map (·.1)).getD 0)).find? fun e => (s.peek (e.1 / 64) (e.1 % 64) e.2).ready).map
            fun e => (e.1, e.2, 2 ^ e.2.prio - 1)
      match pick with
      | none => s
      | some (k, u, left) =>
        let c := k / 64
        let q := k % 64
        let s := s.setEng j fun x => { x with rr := some (k, left) }
        match s.peek c q u with
        | .fail d f t => s.endUnstarted c q j u.head d f t
        | .start d => s.startDesc c q j u.head d
        | _ => s

/-! ### Completion (R100, R148, R151, R152) -/

/-- UNORDERED_TILE at completion: tile flags, and the record unless one was logged within 1 ms. -/
def State.unordDone (s : State) (c q j : Nat) (x : Started) : State :=
  match x.unord, x.overlapOf with
  | true, some (q0, ix0) =>
    let s := x.overlap.foldl (fun s t => s.orTileFlags j t 8) s
    let k := 64 * c + j
    let (t0, n) := (s.eng.unordLog.lookup k).getD (0, 0)
    if (s.eng.unordLog.lookup k).isSome && s.time.mono < t0 + 1000000 then
      let s := { s with eng := { s.eng with unordLog := mput s.eng.unordLog k (t0, n + 1) } }
      s.setEng j fun e => { e with unordCnt := satAdd 0xFFFFFFFF e.unordCnt 1 }
    else
      let low := x.overlap.foldl min 31
      let s := { s with eng := { s.eng with unordLog := mput s.eng.unordLog k (s.time.mono, 0) } }
      s.log 0x0240 2 (srcDieUnit (engDie j) (engUnit j)) [c, j, low, q0, ix0.toNat, q, x.index.toNat, n]
  | _, _ => s

/-- A convoy's descriptor may commit: its convoy is done, or it has failed. -/
def State.cvReady (s : State) (x : Started) : Bool :=
  match x.convoy with
  | none => true
  | some k => ((s.convoy? k).map fun v => v.done || v.st == .aborted).getD true

/-- The oldest started descriptor of a queue has nothing left to do: every write is visible. -/
def State.settledDesc (s : State) (x : Started) : Bool :=
  x.reqs == 0 && (x.fail.isSome || (!x.maskDue && x.tiles.isEmpty && x.checks.isEmpty && s.cvReady x))

/-- Tiles of an ME descriptor whose flags ACC_INIT clears though nothing of them is computed (R148). -/
def State.initFlags (s : State) (j : Nat) (x : Started) : State :=
  let p := mmOf x.d
  if (x.opcode = 0x10 || x.opcode = 0x11) && p.init && !x.work && x.fail.isNone then
    (List.range (p.tiles (s.tileW j))).foldl (fun s g => s.clearTileFlags j (p.tile + g)) s
  else s

/-- The stash copy of what a VE descriptor has written; an ME's is made tile by tile (R171, R172). -/
def State.veCopies (s : State) (c q j : Nat) (x : Started) : State :=
  if 64 ≤ j && x.fail.isNone then
    s.stashCopies c q x j { row := 0, rows := (vbOf x.d).rows, col := 0, cols := (vbOf x.d).cols }
  else s

/-- DESCRIPTOR_COMPLETE (R100): the reads and writes that remain are made; when all are visible and the record can be written, the
commit. -/
def execDescriptorComplete (ctx : Fin 256) (q : Fin 64) (flips : List LineFlip) (s : State) :
    Host.Outcome State Fault Refusal :=
  s.orWait <|
    match s.queue? ctx q with
    | none => s
    | some u =>
      match u.started with
      | [] => s
      | x :: _ =>
        if !s.settledDesc x || !s.recordReady u x || !s.roomFor ctx q x.index || (s.engine u.eng).st != .idle || (s.die (engDie u.eng)).inReset then s
        else
          let j := u.eng
          let s := (s.damages 0 flips).engTouch j
          let s := s.initFlags j x
          let s := if x.work || x.fail.isSome then s else s.doWork ctx q j x
          match s.started? ctx q x.index with
          | none => s
          | some y =>
            if y.reqs != 0 then s
            else
              let s := s.veCopies ctx q j y
              match s.started? ctx q x.index with
              | none => s
              | some z =>
                if z.reqs != 0 then s else ((s.unordDone ctx q j z).commit ctx q).cvCommit z

end Sys2Proof.Machine
end

