-- ==== Sys2Proof/Machine/Hoard.lean ====
section
/-! DEFINITION. Hoard snapshots, restores and spare fills as they go on when their requests are answered (R424-R441). -/

namespace Sys2Proof.Machine

/-! ### Metadata (R426) -/

/-- A list with bytes replaced. -/
def patchBytes (l : List Byte) (o : Nat) (b : List Byte) : List Byte := l.take o ++ b ++ l.drop (o + b.length)

/-- Pairs by ascending first part. -/
def insPair (p : Nat × Nat) : List (Nat × Nat) → List (Nat × Nat)
  | [] => [p]
  | q :: r => if p.1 ≤ q.1 then p :: q :: r else q :: insPair p r

/-- The windows of a context in this module's own memory: offset and size, ascending. -/
def State.localWins (s : State) (c : Nat) : List (Nat × Nat) :=
  ((s.ctx c).windows.filterMap fun w => match s.place w.2.1 with | .loc off => some (off, w.2.2) | _ => none).foldr insPair []

/-- Seed streams a context holds, ascending. -/
def State.heldStreams (s : State) (c : Nat) : List Nat := (s.eng.streamOwner.filter fun e => e.2 == c).map (·.1)
def State.stream (s : State) (k : Nat) : Sys2Proof.Machine.Stream := mget {} s.eng.streams k

def sumSizes (l : List (Nat × Nat)) : Nat := l.foldl (fun n w => n + w.2) 0

/-- The metadata of a snapshot taken now, with STATE, COPY and HUSKS still 0. -/
def State.hoardMeta (s : State) (c : Nat) (wins : List (Nat × Nat)) : List Byte :=
  let x := s.ctx c
  let ks := s.heldStreams c
  let head := leBytes 4 0x44524F48 ++ leBytes 2 1 ++ leBytes 2 0 ++ leBytes 2 s.ownId ++ leBytes 1 c ++ leBytes 1 0 ++
    leBytes 2 wins.length ++ leBytes 2 ks.length ++ leBytes 8 s.time.step.toNat ++ leBytes 8 s.podStamp.toNat ++
    leBytes 2 (s.sliceIdOf c).toNat ++ leBytes 6 x.epoch.toNat ++ leBytes 8 (sumSizes wins) ++ leBytes 16 0
  let list := padTo 256 0 (wins.flatMap fun w => leBytes 8 w.1 ++ leBytes 8 w.2)
  let curs := (List.range 64).flatMap fun i => leBytes 8 (mget 0 x.cursors i).toNat
  let recs := ks.flatMap fun k =>
    let t := s.stream k
    leBytes 16 k ++ (List.range 4).flatMap (fun i => leBytes 8 (t.key.getD i 0).toNat) ++ leBytes 16 t.ctr
  padTo 0x1000 0 (head ++ list ++ curs) ++ recs

/-- The metadata with STATE, COPY and HUSKS. -/
def metaWith (m : List Byte) (state copy husks : Nat) : List Byte :=
  patchBytes (patchBytes (patchBytes m 6 (leBytes 2 state)) 0xB (leBytes 1 copy)) 0x30 (leBytes 8 husks)

/-- Bay k of a holding region (R425). -/
def HoardCfg.bay (h : HoardCfg) (k : Nat) : Nat := (h.base + k * (h.size / h.copies)) * 2 ^ 21
def HoardCfg.baySize (h : HoardCfg) : Nat := h.size / h.copies * 2 ^ 21

/-! ### Snapshots (R427-R432) -/

def State.snap? (s : State) (c : Nat) : Option Snapshot := s.job.snaps.find? (·.ctx == c)
def State.setSnap (s : State) (c : Nat) (f : Snapshot → Snapshot) : State :=
  { s with job := { s.job with snaps := modFirst (·.ctx == c) f s.job.snaps } }

/-- A request of the continuity queue: ordering class 3, the context's slice and epoch. -/
def State.jobReq (s : State) (o : ReqOwner) (c dst : Nat) (ptype : BitVec 4) (addr len : Nat) : FReq :=
  { ptype := ptype, owner := o, cls := 3, dst := BitVec.ofNat 15 dst, slice := s.sliceIdOf c, epoch := (s.ctx c).epoch
    addr := addr, len := len, named := addr }

/-- Issue requests of the copy in progress. -/
def State.snapIssue (s : State) (c stage : Nat) (l : List FReq) : State :=
  (s.setSnap c fun x => { x with stage := stage, puts := l.length }).issueAll l false

/-- PUTs of given bytes. -/
def State.putsOf (s : State) (c dst addr : Nat) (b : List Byte) : List FReq :=
  (packetsOf addr b.length).map fun p =>
    { s.jobReq (.hoard c) c dst 1 p.1 p.2 with bytes := (b.drop (p.1 - addr)).take p.2 }

/-- The PUTs of step 3.ii and 3.iii: header as FILLING, the rest of 2 MiB of metadata, the windows. -/
def State.copyPuts (s : State) (x : Snapshot) (h : HoardCfg) : List FReq :=
  let c := x.ctx
  let to_ := h.partners.getD x.copy 0
  let bay := h.bay x.copy
  let m := padTo (2 ^ 21) 0 (metaWith x.meta_ 1 x.copy 0)
  let data := x.wins.foldl (fun (acc : Nat × List FReq) w =>
    let rs := (List.range (w.2 / 4096)).map fun i =>
      { s.jobReq (.hoard c) c to_ 1 (bay + 2 ^ 21 + acc.1 + 4096 * i) 4096 with src := some (w.1 + 4096 * i) }
    (acc.1 + w.2, acc.2 ++ rs)) (0, [])
  s.putsOf c to_ bay (m.take 64) ++ s.putsOf c to_ (bay + 64) (m.drop 64) ++ data.2

/-- Husk sectors of the source. -/
def State.winHusks (s : State) (wins : List (Nat × Nat)) : Nat :=
  (s.mem.main.husks.filter fun k => wins.any fun w => w.1 ≤ 32 * k && 32 * k < w.1 + w.2).length

/-- The snapshot ends (R428 step 4, R430). -/
def State.endSnap (s : State) (x : Snapshot) : State :=
  let c := x.ctx
  let ms := (s.time.mono - x.startAt) / 1000000
  let s := { s with job := { s.job with snaps := s.job.snaps.filter (·.ctx != c) } }
  let s := s.setCtx c fun y =>
    { y with
      held := if x.hold then false else y.held, hoardMask := x.doneMask, hoardReason := x.first, snapshots := y.snapshots + 1
      hoardStep := if x.doneMask = 0 then y.hoardStep else x.step }
  let s := match x.sem with | some k => s.semAdd k 1 | none => s
  let s := s.logFw 0x0601 2 ([c] ++ lohi x.step.toNat ++ [x.doneMask, x.failMask, x.first, sumSizes x.wins / 2 ^ 21, ms])
  match x.who with
  | some w => s.finish w dOk (x.doneMask + x.failMask * 2 ^ 8 + x.first * 2 ^ 11) (lohi x.step.toNat)
  | none => s

/-- The copy in progress has failed with a reason of R430. -/
def State.copyFails (s : State) (x : Snapshot) (reason : Nat) : Snapshot × State :=
  let to_ := (((s.ctx x.ctx).hoard.map (·.partners)).getD []).getD x.copy 0
  let y := { x with failMask := x.failMask ||| 2 ^ x.copy, first := if x.first = 0 then reason else x.first }
  (y, (s.setSnap x.ctx fun _ => y).logFw 0x0603 4 [x.ctx, x.copy, to_, reason, x.reason % 0x100, x.bytes / 2 ^ 21])

/-- Begin a copy with the GET of its bay's header; past the last copy the snapshot ends. -/
def State.beginCopy (s : State) (x : Snapshot) (k : Nat) : State :=
  match (s.ctx x.ctx).hoard with
  | none => s.endSnap x
  | some h =>
    if h.copies ≤ k then s.endSnap x
    else
      let s := s.setSnap x.ctx fun _ => { x with copy := k, head := [], reason := 0, bytes := 0 }
      s.snapIssue x.ctx 0 [s.jobReq (.hoard x.ctx) x.ctx (h.partners.getD k 0) 2 (h.bay k) 64]

/-- What an answered request of a snapshot leads to, if anything, under a CTD that serves: firmware drives the copies. -/
def State.snapStep (s : State) (c : Nat) : Option State :=
  match s.snap? c with
  | none => none
  | some x =>
    let stop := x.stop || (s.ctx c).st != .active
    if s.serving.isNone then none
    else if !x.latched then
      if stop then some (s.endSnap { x with first := 5 }) else none
    else if x.puts != 0 then none
    else if x.reason = 0x101 then let (y, s) := s.copyFails x 4; some (s.endSnap y)
    else if stop then let (y, s) := s.copyFails x 5; some (s.endSnap y)
    else if x.reason != 0 then let (y, s) := s.copyFails x 2; some (s.beginCopy y (x.copy + 1))
    else match (s.ctx c).hoard, x.stage with
      | none, _ => some (s.endSnap x)
      | some h, 0 =>
        let src := fieldAt x.head 8 2 % 2 ^ 15
        if fieldAt x.head 6 2 = 2 && src != s.ownId && some src != h.pred then
          let (y, s) := s.copyFails x 1
          some (s.beginCopy y (x.copy + 1))
        else some (s.snapIssue c 1 (s.copyPuts x h))
      | some h, 1 =>
        let m := metaWith x.meta_ 2 x.copy (s.winHusks x.wins)
        some (s.snapIssue c 2 (s.putsOf c (h.partners.getD x.copy 0) (h.bay x.copy) (m.take 64)))
      | _, _ => none

def State.snapGo (s : State) (c : Nat) : Nat → State
  | 0 => s
  | n + 1 => match s.snapStep c with | none => s | some s => s.snapGo c n

/-! ### Fills and restores (R435-R441) -/

def State.setFill (s : State) (c : Nat) (f : Fill → Fill) : State :=
  { s with job := { s.job with fills := modFirst (fun x => x.ctx == c && x.stage != 0) f s.job.fills } }

/-- The fill that runs; else the one whose turn it is: highest priority, then first come. -/
def State.runningFill (s : State) : Option Fill := s.job.fills.find? (·.stage != 0)
def State.nextFill (s : State) : Option Fill :=
  s.job.fills.foldl (fun (b : Option Fill) x => match b with | none => some x | some y => if y.prio < x.prio then some x else b) none

/-- Bay of the source in use: its place among the partners decides. -/
def State.fillBay (s : State) (x : Fill) : Nat :=
  match (s.ctx x.ctx).hoard with
  | some h => h.bay (h.partners.findIdx (· == x.sources.getD x.source 0))
  | none => 0

/-- The GETs of the metadata of a source. -/
def State.fillMeta (s : State) (x : Fill) (i : Nat) : State :=
  let c := x.ctx
  let x := { x with source := i, stage := 1, gets := 17, meta_ := [], metaHusks := [], status := 0 }
  let s := s.setFill c fun _ => x
  let s := s.setCtx c fun y => { y with fillSource := i + 1, fillBytes := x.bytes }
  let bay := s.fillBay x
  s.issueAll ((List.range 17).map fun k => s.jobReq (.fill c) c (x.sources.getD i 0) 2 (bay + 4096 * k) 4096) false

/-- The metadata as bytes. -/
def Fill.bytesOf (x : Fill) : List Byte := x.meta_.flatMap (·.2)

/-- The windows of a metadata, and where each one's bytes lie in the bay. -/
def metaWins (m : List Byte) : List (Nat × Nat) :=
  (List.range (fieldAt m 0xC 1 % 17)).map fun i => (fieldAt m (0x40 + 16 * i) 8, fieldAt m (0x48 + 16 * i) 8)
/-- Every 4 KiB unit: offset in the bay and local address. -/
def metaUnits (m : List Byte) : List (Nat × Nat) :=
  ((metaWins m).foldl (fun (acc : Nat × List (Nat × Nat)) w =>
    (acc.1 + w.2, acc.2 ++ (List.range (w.2 / 4096)).map fun i => (2 ^ 21 + acc.1 + 4096 * i, w.1 + 4096 * i))) (0, [])).2
/-- Stream records: number, key, counter. -/
def metaStreams (m : List Byte) : List (Nat × List (BitVec 64) × Nat) :=
  (List.range (fieldAt m 0xE 2)).map fun i =>
    let o := 0x1000 + 64 * i
    (fieldAt m o 2, (List.range 4).map (fun j => BitVec.ofNat 64 (fieldAt m (o + 16 + 8 * j) 8)), fieldAt m (o + 48) 16)

/-- A source's metadata judged (R437): 0 usable, else a reason of R440. -/
def State.judgeMeta (s : State) (x : Fill) : Nat :=
  let m := x.bytesOf
  let bay := s.fillBay x
  let used := 0x1000 + 64 * fieldAt m 0xE 2
  if (x.metaHusks.any fun k => 32 * k < bay + used) || fieldAt m 0 4 != 0x44524F48 || fieldAt m 4 2 != 1 || fieldAt m 6 2 != 2 then 1
  else if (x.fixed || x.restore) && fieldAt m 0x10 8 != x.step.toNat then 2
  else if (metaWins m).any (fun w => !(s.localWins x.ctx).any fun v => v.1 ≤ w.1 && w.1 + w.2 ≤ v.1 + v.2) then 3
  else if (metaStreams m).any (fun t => !s.holdsStream x.ctx t.1) then 4
  else 0

/-- Units that came only with husks are written with them (R439). -/
def State.writeKept (s : State) (x : Fill) : Fill × State :=
  x.kept.foldl (fun (acc : Fill × State) k =>
    ({ acc.1 with
        written := k.1 :: acc.1.written, bytes := acc.1.bytes + k.2.1.length, husks := acc.1.husks + k.2.2.1.length, last := k.2.2.2 },
      acc.2.setMem fun m => m.write k.1 k.2.1 k.2.2.1)) ({ x with kept := [] }, s)

/-- The fill has come to its end; SPARE_FILL_DONE finishes it. -/
def State.stopFill (s : State) (x : Fill) : State :=
  let (x, s) := s.writeKept x
  let all := x.fixed && !x.meta_.isEmpty && (metaUnits x.bytesOf).all fun u => x.written.contains u.2
  let s := s.setFill x.ctx fun _ => { x with stage := 3, complete := all && x.reason != 3 && x.reason != 4 && x.reason != 6 }
  s.setCtx x.ctx fun y => { y with fillBytes := x.bytes }

/-- A restore's bay is not the one it names (R435): its first 64 bytes hold a husk, or MAGIC, VERSION, STATE or STEP is another. -/
def State.noBay (s : State) (x : Fill) : Bool :=
  let m := x.bytesOf
  let bay := s.fillBay x
  (x.metaHusks.any fun k => 32 * k < bay + 64) || fieldAt m 0 4 != 0x44524F48 || fieldAt m 4 2 != 1 || fieldAt m 6 2 != 2 ||
    fieldAt m 0x10 8 != x.step.toNat

/-- A source is lost (R438): the next one is tried; a restore whose bay is not the one named is answered NO_SUCH. -/
def State.sourceLost (s : State) (x : Fill) (reason : Nat) : State :=
  let x := { x with reason := reason }
  if x.restore && x.stage = 1 && reason < 3 && s.noBay x then s.setFill x.ctx fun _ => { x with stage := 3, noSuch := true }
  else
    let s := s.logFw 0x0604 4 ([x.ctx, x.source + 1, x.sources.getD x.source 0, reason] ++ lohi x.bytes ++ [x.status])
    if x.source + 1 < x.sources.length then s.fillMeta x (x.source + 1) else s.stopFill x

/-- What the answered requests of the fill that runs lead to; or the next fill starts once its context has no started
descriptor. -/
def State.fillStep (s : State) : Option State :=
  match s.runningFill with
  | none =>
    match s.nextFill with
    | none => none
    | some x =>
      if s.serving.isNone || s.eng.queues.any fun e => e.1 / 64 == x.ctx && !e.2.started.isEmpty then none
      else
        let fs := s.job.fills.filter (· != x)
        let s := { s with job := { s.job with fills := { x with stage := 1 } :: fs } }
        some (if x.stop || (s.ctx x.ctx).st != .active then s.stopFill { x with stage := 1, reason := 6 } else s.fillMeta x 0)
  | some x =>
    let stop := x.stop || (s.ctx x.ctx).st != .active
    if s.serving.isNone || x.stage = 3 || x.gets != 0 then none
    else if stop then some (s.stopFill { x with reason := 6 })
    else if x.status != 0 then some (s.sourceLost x 5)
    else if x.stage = 1 then
      match s.judgeMeta x with
      | 0 =>
        let m := x.bytesOf
        let us := (metaUnits m).filter fun u => !x.written.contains u.2
        let x := { x with stage := 2, gets := us.length, fixed := true, step := BitVec.ofNat 64 (fieldAt m 0x10 8) }
        let bay := s.fillBay x
        let s := s.setFill x.ctx fun _ => x
        some (s.issueAll (us.map fun u =>
          { s.jobReq (.fill x.ctx) x.ctx (x.sources.getD x.source 0) 2 (bay + u.1) 4096 with into := some u.2 }) false)
      | r => if r < 3 then some (s.sourceLost x r) else some (s.stopFill { x with reason := r })
    else if !x.kept.isEmpty && x.source + 1 < x.sources.length then some (s.fillMeta x (x.source + 1))
    else some (s.stopFill x)

def State.fillGo (s : State) : Nat → State
  | 0 => s
  | n + 1 => match s.fillStep with | none => s | some s => s.fillGo n

/-- Snapshots and fills go on. -/
def State.jobSweep (s : State) : State :=
  ((s.job.snaps.map (·.ctx)).foldl (fun s c => s.snapGo c 16) s).fillGo 64

/-- A snapshot starts (R427, R431): the cause it is skipped for, or 0. -/
def State.startSnap (s : State) (c : Nat) (who : Option Who) (sem : Option Nat) (hold : Bool) (entry : Nat) : Nat × State :=
  let cause := if (s.snap? c).isSome then 1 else if s.job.fills.any (·.ctx == c) then 2
    else if (s.ctx c).st != .active then 3 else if (s.ctx c).hoard.isNone then 4 else 0
  if cause != 0 then (cause, s.logFw 0x0602 3 [c, entry, cause])
  else
    let x : Snapshot := { ctx := c, who := who, sem := sem, hold := hold, startAt := s.time.mono }
    let s := { s with job := { s.job with snaps := s.job.snaps ++ [x] } }
    (0, if hold then s.setCtx c fun y => { y with held := true } else s)

/-- HOARD_READ_POINT (R428): with a hold once no descriptor of the context is started, the read point is latched and copying
begins; a copy that is too large is refused (R426). -/
def execHoardReadPoint (ctx : Fin 256) (s : State) : Host.Outcome State Fault Refusal :=
  .next <|
    let c := ctx.val
    match s.snap? c, (s.ctx c).hoard with
    | some x, some h =>
      if x.latched || x.stop || (s.ctx c).st != .active ||
          (x.hold && s.eng.queues.any fun e => e.1 / 64 == c && !e.2.started.isEmpty) then s
      else
        let wins := s.localWins c
        let x := { x with latched := true, wins := wins, meta_ := s.hoardMeta c wins, step := s.time.step }
        let s := s.setSnap c fun _ => x
        if h.baySize < 2 ^ 21 + sumSizes wins then
          let (x, s) := (List.range h.copies).foldl (fun (a : Snapshot × State) k => a.2.copyFails { a.1 with copy := k } 3) (x, s)
          s.endSnap x
        else (s.beginCopy x 0).jobSweep
    | _, _ => s

/-- HOARD_COPY_COMMIT (R428 step 3.iv): the VALID header has been answered OK; the next copy starts. -/
def execHoardCopyCommit (ctx : Fin 256) (s : State) : Host.Outcome State Fault Refusal :=
  .next <|
    match s.snap? ctx with
    | some x =>
      if x.latched && x.stage = 2 && x.puts = 0 && x.reason = 0 && !x.stop && (s.ctx ctx).st == .active then
        (s.beginCopy { x with doneMask := x.doneMask ||| 2 ^ x.copy } (x.copy + 1)).jobSweep
      else s
    | none => s

/-- SPARE_FILL_DONE (R437 step 5, R440): a fill that has come to its end writes cursors and streams, releases the hold and is
answered. -/
def execSpareFillDone (ctx : Fin 256) (s : State) : Host.Outcome State Fault Refusal :=
  .next <|
    match s.runningFill with
    | none => s
    | some x =>
      if x.ctx != ctx.val || x.stage != 3 then s
      else
        let c := x.ctx
        let m := x.bytesOf
        let s := { s with job := { s.job with fills := s.job.fills.filter fun y => y.stage == 0 } }
        let s := s.setCtx c fun y =>
          { y with
            held := s.job.fills.any fun z => z.ctx == c, fillSource := 0
            cursors := if x.complete then
                (List.range 64).map fun i => (i, BitVec.ofNat 64 (fieldAt m (0x140 + 8 * i) 8)) else y.cursors }
        let put := fun (t : SMap Sys2Proof.Machine.Stream) (r : Nat × List (BitVec 64) × Nat) => mput t r.1 { key := r.2.1, ctr := r.2.2 }
        let streams := if x.complete then (metaStreams m).foldl put s.eng.streams else s.eng.streams
        let s := { s with eng := { s.eng with streams := streams } }
        let det := (if x.complete then x.last else 0) + b2n x.complete * 4 + x.reason * 2 ^ 8
        let st := lohi x.step.toNat
        let s :=
          if x.noSuch then s
          else if x.restore then
            s.logFw 0x0606 3 ([c, x.sources.headD 0] ++ st ++ [b2n x.complete] ++ lohi x.bytes ++ [x.husks])
          else s.logFw 0x0605 3 ([c, if x.complete then x.last else 0, b2n x.complete] ++ st ++ lohi x.bytes ++ [x.husks])
        let s := match x.who with
          | some w => if x.noSuch then s.finish w dNoSuch 0 [] else s.finish w dOk det []
          | none => s
        s.jobSweep

/-- Requests of the former holder's snapshots and fills are given up: those sent keep their places until their answers come,
for no context (256). -/
def State.dropJobReqs (s : State) : State :=
  let gone := fun (r : FReq) => if r.owner.isFirmware then { r with owner := .hoard 256 } else r
  let flow := fun (f : SendFlow) => { f with una := f.una.map gone, wait := f.wait.filter fun r => !r.owner.isFirmware }
  let peers := s.fab.peers.map fun e => (e.1, { e.2 with tx := e.2.tx.map flow })
  { s with fab := { s.fab with peers := peers, stalled := s.fab.stalled.filter fun r => !r.owner.isFirmware } }

/-- A new holder takes the hoard's work up (R432, R441): a snapshot from the header of the copy being written, with its read point;
a fill from the units not written, of which the mirror knows all (DESIGN CHOICE, log 49). -/
def State.resumeJobs (s : State) : State :=
  let s := s.dropJobReqs
  let again : State → Snapshot → State := fun s x =>
    if !x.latched then s
    else if x.stop || (s.ctx x.ctx).st != CState.active then s.setSnap x.ctx fun y => { y with puts := 0 }
    else s.beginCopy x x.copy
  let s := s.job.snaps.foldl again s
  let s := match s.runningFill with
    | some x =>
      if x.stage = 3 then s
      else if x.stop || (s.ctx x.ctx).st != CState.active then s.setFill x.ctx fun y => { y with gets := 0 }
      else s.fillMeta x x.source
    | none => s
  s.jobSweep

/-- A die entered reset: snapshots that read from its region end with reason 5 (R430). -/
def State.snapsOff (s : State) (die : Nat) : State :=
  let hit := fun (x : Snapshot) => (if x.latched then x.wins else s.localWins x.ctx).any fun w => dieOf w.1 ≤ die && die ≤ dieOf (w.1 + w.2 - 1)
  let snaps := s.job.snaps.map fun x => { x with stop := x.stop || hit x }
  { s with job := { s.job with snaps := snaps } }.jobSweep

end Sys2Proof.Machine
end

