-- ==== Sys2Proof/Machine/Link.lean ====
section
/-! DEFINITION. The links of Weagan: lanes, flits, replay, credits, identity exchange, going DOWN (R209-R218, R237-R245, and
R29, R44, R45 of chapter 01). -/

namespace Sys2Proof.Machine

/-! ### Media and levels (R29, R45, R209) -/

/-- MOD_PORT_MEDIA. -/
def State.portMedia (s : State) : Nat :=
  if s.fuse.variant = .ae || !s.idLocked then 0
  else ofBits ((List.range 6).filter s.optical) + s.axisEngine 0 * 2 ^ 8 + s.axisEngine 1 * 2 ^ 11 + s.axisEngine 2 * 2 ^ 14
/-- A unit of LINK_PERMIT is permitted and enabled (R302, R503). -/
def State.unitOn (s : State) (u : Nat) : Bool := s.ctd.clamp.linkPermit.getLsbD u && s.fab.unitsOn.getLsbD u

/-- The router slices of the dies run in ROM recovery: once the module ID is locked and a slice is set (R480). -/
def State.romRouters (s : State) : Bool := s.serving.any s.inRom && s.idLocked && !s.fab.slices.isEmpty

/-- A port may train (R29, R43, R242, R480, R503): permitted and enabled with its laser, its role not taken by a remap, its die
out of reset, the module ID locked for torus and board ports, circuits only where there are optical engines. -/
def State.mayTrain (s : State) (p : Nat) : Bool :=
  s.unitOn p && !(s.port p).taken && (((s.portDies p).all fun d => !(s.die d).inReset) || s.romRouters) && s.power.rails &&
    (if 9 ≤ p then s.hasOptics && s.unitOn (16 + p - 5)
     else s.idLocked && (!s.optical p || s.unitOn (16 + s.axisEngine (p / 2))))

/-- A port that is DOWN begins to train. DESIGN CHOICE (log 61): MEDIA and LEVEL of its status read 0 from the die's reset until then. -/
def State.train (s : State) (p : Nat) : State :=
  if (s.port p).st == .down && s.mayTrain p then
    s.setPort p fun x =>
      { x with
        st := .training, lockAt := none, exchanged := false, gotIdent := false, before := none, attempts := 0
        startedAt := s.time.mono, media := s.portOptical p, level := s.portLevel p }
  else s
def State.trainAll (s : State) : State := (List.range 13).foldl (fun s p => s.train p) s

/-! ### Transmit timestamps (R71-R73, R245) -/

/-- An entry put into a queue that is ordered by stamp time (R72); a dropped one, which has none, at the end. -/
def tsqInsert (e : TsqEntry) : List TsqEntry → List TsqEntry
  | [] => [e]
  | x :: r =>
    if !e.dropped && !x.dropped && e.stamp.toNat / 4 < x.stamp.toNat / 4 then e :: x :: r else x :: tsqInsert e r

/-- Put a stamp into queue g (R72, R73); a full queue discards it, and a run of losses begins or goes on. -/
def State.pushTsq (s : State) (g : Nat) (e : TsqEntry) : State :=
  { s with time := { s.time with tsq := lmod s.time.tsq g fun q =>
    if q.entries.length < 64 then { q with entries := tsqInsert e q.entries }
    else
      { q with
        lost := satAdd 0xFFFFFFFF q.lost 1
        run := match q.run with | some (id, n) => some (id, n + 1) | none => some (e.id, 1) } } }

/-- The run of losses of queue g ends, as the queue has room again or is lost: it is logged (R73). -/
def State.endRun (s : State) (g : Nat) : State :=
  match (s.time.tsq.getD g {}).run with
  | some (id, n) =>
    ({ s with time := { s.time with tsq := lmod s.time.tsq g fun q => { q with run := none } } }).logFw 0x0B06 2 [g, id.toNat, n]
  | none => s

/-- A packet whose stamp was asked for leaves the port. -/
def State.stampPkt (s : State) (p : Nat) (k : Packet) (dropped : Bool) : State :=
  if k.tsr then
    s.pushTsq (portDie p) { id := k.tsId, port := BitVec.ofNat 4 p, dropped := dropped
                            stamp := if dropped then 0 else s.linkStamp p }
  else s

/-! ### DOWN (R218) and what waits for a training -/

/-- What a port that goes DOWN is left with (R218). -/
def State.portClear (x : PortSt) : PortSt :=
  { x with
    st := .down, lanes := 0, rev := 0, lockAt := none, exchanged := false, attempts := 0, replay := [], resend := [], outq := []
    txNext := 0, txAcked := 0xFFFF, rxLast := 0xFFFF, credits := List.replicate 8 32, borrowed := List.replicate 8 0
    owed := List.replicate 8 0, gotIdent := false, before := none, winTimes := []
    nakDue := false, nakSent := false, unacked := 0, txRest := List.replicate 8 [], rxRest := List.replicate 8 []
    linkDowns := satAdd 0xFFFF x.linkDowns 1 }

/-- A port goes DOWN: what it held is discarded, stamps asked for return DROPPED, convoys on it end. -/
def State.linkDown (s : State) (p cause : Nat) : State :=
  let x := s.port p
  if x.st = .down then s
  else
    let s := x.outq.foldl (fun s k => s.stampPkt p k.pkt true) s
    let s := s.setPort p State.portClear
    (s.log 0x1002 4 (srcPort p) [p, cause, x.replay.length]).convoysDown p

/-- The rack-leaving ports of the axes whose engine differs between two values of SUBST. -/
def State.spareports (s : State) (old new : Nat) : List Nat :=
  if !s.idLocked then []
  else (List.range 6).filter fun p => s.optical p && ((old == p / 2) != (new == p / 2))

/-- Switch to the last value written (R45). -/
def State.applySpare (s : State) : State :=
  let new := s.mod.subst
  let ps := s.spareports s.mod.inUse.toNat new.toNat
  let s := ps.foldl (fun s p => s.linkDown p 3) s
  let s := { s with mod := { s.mod with inUse := new } }
  let s := ps.foldl (fun s p => s.train p) s
  let wait := ps.filter fun p => (s.port p).st == .training
  let s := { s with mod := { s.mod with retraining := wait } }
  if wait.isEmpty then
    ({ s with mod := { s.mod with waiters := [] } }).finishAll s.mod.waiters dOk 0 []
  else s

/-- A port's training or retrain has ended: LinkRetrain is answered, and a spare change goes on (R45). -/
def State.portSettled (s : State) (p : Nat) : State :=
  let s := (s.setPort p fun x => { x with waiters := [] }).finishAll (s.port p).waiters dOk 0 []
  if s.mod.retraining.contains p then
    let rest := s.mod.retraining.filter (· != p)
    let s := { s with mod := { s.mod with retraining := rest } }
    if !rest.isEmpty then s
    else if s.mod.subst != s.mod.inUse then s.applySpare
    else ({ s with mod := { s.mod with waiters := [] } }).finishAll s.mod.waiters dOk 0 []
  else s

/-! ### Retraining (R217) -/

/-- A trained port starts to retrain: 0 lock, 1 replays, 2 firmware. -/
def State.startRetrain (s : State) (p cause : Nat) : State :=
  let x := s.port p
  if x.st = .up || x.st = .quarantine || x.st = .maintenance then
    s.setPort p fun x =>
      { x with
        st := .retraining, cause := cause, startedAt := s.time.mono, attempts := 0, exchanged := false, gotIdent := false
        lockAt := none, before := some x.serial, retrains := satAdd 0xFFFF x.retrains 1 }
  else s

/-- An attempt has failed; the third in succession takes the port DOWN. -/
def State.attemptFails (s : State) (p : Nat) : State :=
  let x := s.port p
  let n := x.attempts + 1
  let s := s.log 0x1005 3 (srcPort p) [p, x.cause, n, (s.time.mono - x.startedAt) / 1000]
  if 3 ≤ n then (s.linkDown p 0).portSettled p
  else
    s.setPort p fun x =>
      { x with
        st := .retraining, attempts := n, startedAt := s.time.mono, exchanged := false, gotIdent := false, lockAt := none
        retrains := satAdd 0xFFFF x.retrains 1 }

/-- LANE_LOCK_LOSS (R217). -/
def execLaneLockLoss (port : Fin 13) (s : State) : Host.Outcome State Fault Refusal := .next (s.startRetrain port 0)

/-- Lanes a training leaves (R210): 16, 8 or none. -/
def lanesOf (failed : BitVec 16) : Nat :=
  if failed = 0 then 16 else if failed.toNat % 256 = 0 || failed.toNat / 256 = 0 then 8 else 0

/-- LANE_LOCK (R210, R217, R238): the exchange begins; without a complete set of eight lanes the port is DOWN, or, in a retrain, the
attempt has failed. -/
def execLaneLock (port : Fin 13) (failedLanes : BitVec 16) (s : State) : Host.Outcome State Fault Refusal :=
  .next <|
    let x := s.port port
    let n := lanesOf failedLanes
    if x.st == .retraining && x.lockAt.isNone && !x.gotIdent then
      if n = 0 then s.attemptFails port
      else s.setPort port fun x => { x with lanes := n, failed := failedLanes, lockAt := some s.time.mono }
    else if x.st != .training || x.lanes != 0 then s
    else
      if n = 0 then (s.linkDown port 0).portSettled port
      else
        let s := s.setPort port fun x => { x with lanes := n, failed := failedLanes, lockAt := some s.time.mono, exchanged := false }
        if n = 8 then s.log 0x1009 4 (srcPort port) [port, failedLanes.toNat] else s

/-! ### Identity exchange (R238-R243) -/

/-- Firmware release of the active CTD. -/
def State.fwRelease (s : State) : Nat := (s.ctdOf (s.holder.getD 0)).release

/-- The peer of a port is the expected one (R239). -/
def State.expectedPeer (s : State) (p coordId portCode : Nat) : Bool :=
  let own := s.ownId
  let n := s.axisN
  if p < 6 then
    let ax := p / 2
    let c := if p % 2 = 0 then (coord own ax + 1) % n else (coord own ax + n - 1) % n
    coordId == withCoord own ax c && portCode == (if p % 2 = 0 then p + 1 else p - 1)
  else if p < 9 then coordId == s.peerAt (boardIdx own ^^^ (p - 5)) && portCode == p
  else
    let far := s.fab.circuits.find? fun e => e.2.getLsbD 15 && bitsOf e.2.toNat 31 28 == p &&
      podOf own * 2 ^ 12 + bitsOf e.2.toNat 27 16 == own
    9 ≤ portCode && portCode ≤ 12 && (match far with
      | some e => coordId == e.2.toNat % 2 ^ 15
      | none => podOf coordId != podOf own)

/-- The agreed revision (R241). -/
def agreedRev (min max : Nat) : Option Nat :=
  let r := Nat.min 2 max
  if 1 ≤ r && min ≤ r then some r else none

/-- Row of R240 for an IDENT. -/
def State.identRow (s : State) (p : Nat) (i : Ident) : Nat :=
  let fw := i.fwRelease.toNat
  if i.serial == s.fuse.serial then 1
  else if !s.expectedPeer p i.coord.toNat i.port.toNat && (s.port p).remapPeer != some i.serial then 2
  else if (agreedRev i.revMin.toNat i.revMax.toNat).isNone then 3
  else if fw + 1 < s.fwRelease || s.fwRelease + 1 < fw then 4
  else 5

/-- The port takes the state of its last exchange's row; `news` tells that a link comes up anew. -/
def State.applyRow (s : State) (p : Nat) (news : Bool) : State :=
  let x := s.port p
  let ser := lohi x.serial.toNat
  match x.row with
  | 5 =>
    let rev := (agreedRev x.revMin.toNat x.revMax.toNat).getD 1
    let s := s.setPort p fun x => { x with st := .up, rev := rev, attempts := 0 }
    if news then s.log 0x1001 2 (srcPort p) [p, rev, x.lanes, x.coord.toNat] else s
  | r =>
    let s := s.setPort p fun x =>
      { x with
        st := if r = 1 || r = 2 then .quarantine else .maintenance, rev := 0, attempts := 0
        identFail := satAdd 0xFFFF x.identFail 1 }
    if r = 1 || r = 2 then s.log 0x1003 4 (srcPort p) ([p] ++ ser ++ [x.coord.toNat, x.peerPort.toNat, r])
    else s.log 0x1004 4 (srcPort p) [p, x.revMin.toNat, x.revMax.toNat, x.fw.toNat, s.fwRelease]

/-- WG_REMAP_ACCEPTED, once, when a remapped port comes UP with the peer its remap covers (R242). -/
def State.logRemap (s : State) (p : Nat) : State :=
  let x := s.port p
  if x.remapNew && x.st == .up && x.remapPeer == some x.serial then
    (s.setPort p fun x => { x with remapNew := false }).log 0x1006 4 (srcPort p) ([p, x.role] ++ lohi x.serial.toNat ++ [x.coord.toNat])
  else s

/-- WG_RETRAIN (R247). -/
def State.logRetrain (s : State) (p : Nat) : State :=
  let x := s.port p
  s.log 0x1005 3 (srcPort p) [p, x.cause, x.attempts + 1, (s.time.mono - x.startedAt) / 1000]

/-- IDENT_RECEIVE (R238-R243): the peer is recorded; once it has acknowledged this end's IDENT the exchange is judged. A SERIAL other
than before a retrain is a new link. -/
def execIdentReceive (port : Fin 13) (ident : Ident) (s : State) : Host.Outcome State Fault Refusal :=
  .next <|
    let x := s.port port
    if !(x.st == .training && x.lanes != 0 || x.st == .retraining) || x.exchanged then s
    else
      let row := s.identRow port ident
      let s := s.setPort port fun x =>
        { x with
          coord := ident.coord, peerPort := ident.port.setWidth 4, revMax := ident.revMax, revMin := ident.revMin
          fw := ident.fwRelease, serial := ident.serial, lockAt := none, gotIdent := true }
      if !ident.acked then s
      else
        let s := s.setPort port fun x => { x with exchanged := true, row := row }
        if x.st = .retraining && x.before.any (· != ident.serial) then
          let lanes := (s.port port).lanes
          let s := (s.logRetrain port).linkDown port 4
          (((s.setPort port fun x => { x with lanes := lanes, exchanged := true, gotIdent := true }).applyRow port true).logRemap
            port).portSettled port
        else if x.st = .training then ((s.applyRow port true).logRemap port).portSettled port
        else s

/-- IDENT_TIMEOUT (R238): no IDENT within 10 ms of lane lock, in a training or a retrain; the port retrains and the attempt counts. -/
def execIdentTimeout (port : Fin 13) (s : State) : Host.Outcome State Fault Refusal :=
  .next <|
    match (s.port port).lockAt with
    | some t => if t + 10000000 ≤ s.time.mono && !(s.port port).exchanged then s.attemptFails port else s
    | none => s

/-- Replay everything after an acknowledged FSEQ (R214, R215): 256 replays within 1 ms start a retrain (R217). -/
def State.replayFrom (s : State) (p : Nat) : State :=
  let now := s.time.mono
  let times := (s.port p).winTimes.filter (now < · + 1000000) ++ [now]
  let s := s.setPort p fun x =>
    { x with
      resend := x.replay.map (·.fseq), replays := satAdd 0xFFFF x.replays 1, replayTotal := x.replayTotal + 1, progress := now
      winTimes := times }
  let s := s.countEv (portDie p) 0x052 p none 1
  if 256 ≤ times.length then s.startRetrain p 1 else s

/-- Flits up to an acknowledged FSEQ leave the replay buffer. -/
def State.takeAck (s : State) (p : Nat) (ack : BitVec 16) : State :=
  let x := s.port p
  let n := (ack - x.txAcked).toNat
  if n = 0 || x.replay.length < n then s
  else
    s.setPort p fun x =>
      { x with
        txAcked := ack, progress := s.time.mono, replay := x.replay.drop n
        resend := x.resend.filter fun f => (x.replay.drop n).any (·.fseq == f) }

/-- WG_RETRAIN (R210, R217): the retrain in progress ends. With lanes and an exchange, RESUME gives the last FSEQ the peer
accepted and the flits after it are replayed; otherwise the attempt has failed. -/
def execWgRetrain (port : Fin 13) (failedLanes resumeFrom : BitVec 16) (s : State) : Host.Outcome State Fault Refusal :=
  .next <|
    let x := s.port port
    if x.st != .retraining then s
    else
      let n := lanesOf failedLanes
      if n = 0 || !x.exchanged then s.attemptFails port
      else
        let s := s.logRetrain port
        let s := s.setPort port fun x => { x with lanes := n, failed := failedLanes, before := none }
        let s := if n = 8 then s.log 0x1009 4 (srcPort port) [port, failedLanes.toNat] else s
        let news := x.rev == 0
        let s := (s.takeAck port resumeFrom).applyRow port news
        let s := s.setPort port fun x => { x with resend := x.replay.map (·.fseq), progress := s.time.mono }
        (s.logRemap port).portSettled port

/-- REPLAY_TIMEOUT (R215). -/
def execReplayTimeout (port : Fin 13) (s : State) : Host.Outcome State Fault Refusal :=
  .next <|
    let x := s.port port
    let limit := if s.portLevel port = 4 then 50000 else 10000
    if (x.st == .up || x.st == .quarantine || x.st == .maintenance) && !x.replay.isEmpty && x.progress + limit ≤ s.time.mono then
      s.replayFrom port
    else s

/-! ### Flits (R211-R216) -/

/-- The 256 bytes of a flit: header and payload, CRC, the two interleaved codewords' parity (R211, R213). -/
def flitBytes (hdr : Nat) (payload : List Byte) : List Byte :=
  let b := leBytes 8 hdr ++ padTo 228 0 payload
  let m := b ++ leBytes 4 (crc32c b).toNat
  let half := fun (o : Nat) => (List.range 120).map fun i => m.getD (2 * i + o) 0
  let p0 := rsParity (half 0)
  let p1 := rsParity (half 1)
  m ++ (List.range 16).map fun i => (if i % 2 = 0 then p0 else p1).getD (i / 2) 0

/-- A flit header word (R212). -/
def flitHdr (ftype vc fseq : Nat) (ack : BitVec 16) (crVc crN startOff : Nat) : Nat :=
  ftype + vc * 2 ^ 3 + fseq * 2 ^ 6 + ack.toNat * 2 ^ 22 + 2 ^ 38 + crVc * 2 ^ 39 + crN * 2 ^ 42 + startOff * 2 ^ 52

/-- Weights of the virtual channels 0-6 (R216). -/
def vcWeight (v : Nat) : Nat := if v = 6 then 4 else if v < 3 then 1 else 2

/-- Flits that the peer's buffer must have room for before a VC 7 packet begins: two of the largest packets where it enters an axis,
one where it goes on (R237). -/
def QPkt.need7 (k : QPkt) : Nat := if k.cont then flitsFor 288 else 2 * flitsFor 288

/-- The VC 7 packets, in their order, for which that room is left, each with the flits it takes itself. -/
def fit7 (room : Nat) : List QPkt → List QPkt
  | [] => []
  | k :: ks => if k.need7 ≤ room then k :: fit7 (room - flitsFor (pktSize k.pkt)) ks else []

/-- The packets of a channel that may begin in the next flit. -/
def PortSt.mayBegin (x : PortSt) (room v : Nat) : List QPkt :=
  let l := x.outq.filter (·.vc == v)
  if v = 7 then fit7 (room - cdiv (x.txRest.getD v []).length 228) l else l

/-- A channel has something to send and a credit, given the flits it has room for. -/
def PortSt.vcReady (x : PortSt) (room : Nat → Nat) (v : Nat) : Bool :=
  0 < room v && (!(x.txRest.getD v []).isEmpty || !(x.mayBegin (room v) v).isEmpty)

/-- The channel that sends next: VC 7 first, then weighted round robin; with the slots it then has left. -/
def PortSt.nextVc (x : PortSt) (room : Nat → Nat) (only7 : Bool) : Option (Nat × Nat) :=
  if x.vcReady room 7 then some (7, x.rrLeft)
  else if only7 then none
  else if 0 < x.rrLeft && x.rrVc < 7 && x.vcReady room x.rrVc then some (x.rrVc, x.rrLeft - 1)
  else (((List.range 7).map fun i => (x.rrVc + 1 + i) % 7).find? (x.vcReady room)).map fun v => (v, vcWeight v - 1)

/-- A flit of a channel is sent for the first time: a reserved credit of the channel, or a place of the shared part. DESIGN CHOICE
(log 61): reserved credits are used first, and places of the shared part given back first. -/
def PortSt.spend (x : PortSt) (v : Nat) : PortSt :=
  if 0 < x.credits.getD v 0 then { x with credits := lmod x.credits v (· - 1) } else { x with borrowed := lmod x.borrowed v (· + 1) }
/-- Credits of a channel come back. -/
def PortSt.refund (x : PortSt) (v n : Nat) : PortSt :=
  let m := min n (x.borrowed.getD v 0)
  { x with borrowed := lmod x.borrowed v (· - m), credits := lmod x.credits v (· + (n - m)) }

/-- Fill a payload from what is left of a packet and the packets behind it: payload, START_OFF, rest, packets begun. -/
def fillFlit (start : Option Nat) (acc rest : List Byte) : List Packet → List Byte × Nat × List Byte × Nat
  | [] => ((acc ++ rest).take 228, start.getD 0xFF, (acc ++ rest).drop 228, 0)
  | k :: ks =>
    if 228 ≤ acc.length + rest.length then ((acc ++ rest).take 228, start.getD 0xFF, (acc ++ rest).drop 228, 0)
    else
      let acc := acc ++ rest
      let (p, o, r, n) := fillFlit (some (start.getD acc.length)) acc (pktBytes k) ks
      (p, o, r, n + 1)

/-- Drop the first n packets of a channel from a queue; those dropped. -/
def dropVc (v : Nat) : Nat → List QPkt → List QPkt
  | 0, l => l
  | _, [] => []
  | n + 1, k :: ks => if k.vc = v then dropVc v n ks else k :: dropVc v (n + 1) ks

/-- The channel whose credits are returned next. -/
def PortSt.creditVc (x : PortSt) : Nat := ((List.range 8).find? fun v => x.owed.getD v 0 != 0).getD 0

/-- Put a flit on the lanes with ACK and returned credits. Its slot is counted as the port's time passes (R246). -/
def State.putFlit (s : State) (p ftype vc fseq startOff : Nat) (payload : List Byte) : State :=
  let x := s.port p
  let v := x.creditVc
  let n := min 1023 (x.owed.getD v 0)
  s.setPort p fun x =>
    { x with
      line := flitBytes (flitHdr ftype vc fseq x.rxLast v n startOff) payload, unacked := 0
      owed := lmod x.owed v fun c => c - n }

/-- The IDENT message of this end (R238). -/
def State.identBytes (s : State) (p : Nat) : List Byte :=
  let x := s.port p
  let var := match s.fuse.variant with | .ax => 1 | .sx => 2 | .ae => 3
  leBytes 1 1 ++ leBytes 1 (b2n x.gotIdent) ++ leBytes 8 s.fuse.serial.toNat ++ leBytes 2 s.ownId ++ leBytes 1 p ++
    leBytes 1 1 ++ leBytes 1 2 ++ leBytes 1 var ++ leBytes 2 s.fwRelease ++ leBytes 1 (b2n s.fab.adaptive)

/-- A DATA flit goes out, anew or again. -/
def State.sendData (s : State) (p : Nat) (f : Flit) : State :=
  (s.putFlit p 1 f.vc f.fseq f.startOff f.payload).setWg (portDie p) fun d =>
    { d with data := lmod d.data (s.portLevel p) (· + 1) }

/-- A TIMESTAMP packet as it leaves (R244): a response gets t3 in its bytes 8 to 15. -/
def State.tsLeaves (s : State) (p : Nat) (k : Packet) : Packet :=
  if k.ptype == 9 && bitsOf k.dw2.toNat 55 52 == 1 then
    { k with payload := k.payload.take 8 ++ leBytes 8 (s.linkStamp p).toNat ++ k.payload.drop 16 }
  else k
/-- What the leaving of a packet leaves behind: its transmit stamp (R245), or t1 of a TIMESTAMP request (R244). -/
def State.pktLeaves (s : State) (p : Nat) (k : Packet) : State :=
  let s := if k.ptype == 9 && bitsOf k.dw2.toNat 55 52 == 0 then
      { s with time := { s.time with tsReq := s.time.tsReq.map fun _ => (some (s.linkStamp p), s.time.mono) } } else s
  s.stampPkt p k false

/-- FLIT_TRANSMIT (R212-R216, R237, R238): a NAK that is due, a replay, a new DATA flit, or an IDLE flit with what is to be
acknowledged; in training the IDENT or RESUME message. -/
def execFlitTransmit (port : Fin 13) (s : State) : Host.Outcome State Fault Refusal :=
  .next <|
    let p := port.val
    let x := s.port p
    if x.st == .down || x.lanes == 0 then s
    else if x.st == .training || x.st == .retraining then
      if x.exchanged then s.putFlit p 3 0 0 0xFF (leBytes 1 2 ++ leBytes 2 x.rxLast.toNat)
      else s.putFlit p 3 0 0 0xFF (s.identBytes p)
    else if x.nakDue then (s.setPort p fun x => { x with nakDue := false, nakSent := true }).putFlit p 2 0 0 0xFF []
    else match x.resend with
      | q :: rest =>
        let s := s.setPort p fun x => { x with resend := rest }
        (match x.replay.find? (·.fseq == q) with
        | some f => s.sendData p f
        | none => s)
      | [] =>
        match (if x.replay.length < s.replaySize p then x.nextVc (s.vcRoom p) (x.st != .up) else none) with
        | none => if x.unacked != 0 || x.owed.any (· != 0) then s.putFlit p 0 0 0 0xFF [] else s
        | some (v, left) =>
          let ks := (x.mayBegin (s.vcRoom p v) v).map fun k => s.tsLeaves p k.pkt
          let (pay, off, rest, n) := fillFlit none [] (x.txRest.getD v []) ks
          let f : Flit := { fseq := x.txNext.toNat, vc := v, startOff := off, payload := pay }
          let s := (ks.take n).foldl (fun s k => s.pktLeaves p k) s
          let s := s.setPort p fun x =>
            { x.spend v with
              outq := dropVc v n x.outq, txRest := x.txRest.set v rest, txNext := x.txNext + 1, dataSent := x.dataSent + 1
              replay := x.replay ++ [f]
              progress := if x.replay.isEmpty then s.time.mono else x.progress
              rrVc := if v = 7 then x.rrVc else v, rrLeft := left }
          (s.countEv (portDie p) 0x050 p none 1).sendData p f

/-- A packet read from bytes. -/
def pktOf (b : List Byte) : Packet :=
  let d0 := fieldAt b 0 8
  let d1 := fieldAt b 8 8
  let hm := bitOf d0 7
  let o := if hm then 48 else 32
  let len := bitsOf d1 44 32
  { ptype := BitVec.ofNat 4 d0, cls := BitVec.ofNat 2 (bitsOf d0 5 4), start := bitOf d0 6, hm := hm, esc := bitOf d0 8
    dl := BitVec.ofNat 3 (bitsOf d0 11 9), tsr := bitOf d0 12, dst := BitVec.ofNat 15 (bitsOf d0 30 16)
    src := BitVec.ofNat 15 (bitsOf d0 46 32), slice := BitVec.ofNat 12 (bitsOf d0 59 48), epoch := BitVec.ofNat 16 d1
    seq := BitVec.ofNat 16 (bitsOf d1 31 16), len := BitVec.ofNat 13 len, tsId := BitVec.ofNat 16 (bitsOf d1 63 48)
    dw2 := BitVec.ofNat 64 (fieldAt b 16 8), dw3 := BitVec.ofNat 64 (fieldAt b 24 8)
    rsvd := BitVec.ofNat 12 (bitsOf d0 15 13 + bitsOf d0 31 31 * 8 + bitsOf d0 47 47 * 16 + bitsOf d1 47 45 * 32 + bitsOf d0 63 60 * 256)
    mask := if hm then BitVec.ofNat 128 (fieldAt b 32 16) else 0
    payload := if bitsOf d0 3 0 = 2 then [] else bytesAt b o len }

/-- Cut a channel's bytes into packets: the whole ones, and the rest. Zeros to the end are padding (R212). -/
def cutPkts : Nat → List Byte → List (List Byte) × List Byte
  | 0, b => ([], b)
  | n + 1, b =>
    if b.all (· == 0) then ([], [])
    else if b.length < 16 || b.length < pktLenOf b then ([], b)
    else
      let (ps, r) := cutPkts n (b.drop (pktLenOf b))
      (b.take (pktLenOf b) :: ps, r)

/-- A received packet: responses and VC 7 packets for others go on at once; the rest wait for the step that takes them. Across a port
that is not UP only MGMT packets of the peer to this module come (R240). -/
def State.gotPkt (s : State) (p : Nat) (b : List Byte) : State :=
  let k := pktOf b
  if !s.isUp p && !(k.ptype == 0xA && k.dst.toNat == s.ownId && k.src == (s.port p).coord) then s
  else if k.dst.toNat = s.ownId || !(k.ptype == 5 || k.ptype == 8 || k.ptype == 0xA) then
    s.setPort p fun x => { x with rxPkts := x.rxPkts ++ [b] }
  else if k.ptype == 5 then (s.emit k true false).getD s
  else match s.hop7 k.dst.toNat (k.ptype == 0xA) with
    | some o => s.setPort o fun x => { x with outq := x.outq ++ [{ vc := 7, pkt := k, cont := o < 6 && p < 6 && o / 2 == p / 2 }] }
    | none => s

/-- A good DATA flit in order is accepted. -/
def State.acceptFlit (s : State) (p vc startOff : Nat) (fseq : BitVec 16) (payload : List Byte) : State :=
  let x := s.port p
  let rest := x.rxRest.getD vc []
  let b := if rest.isEmpty then (if startOff = 0xFF then [] else payload.drop startOff) else rest ++ payload
  let (ps, r) := cutPkts 64 b
  let s := s.setPort p fun x =>
    { x with
      rxLast := fseq, nakSent := false, unacked := x.unacked + 1, owed := lmod x.owed vc (· + 1), rxRest := x.rxRest.set vc r }
  ps.foldl (fun s b => s.gotPkt p b) (s.countEv (portDie p) 0x051 p none 1)

/-- FLIT_RECEIVE (R213, R214, R216). -/
def execFlitReceive (port : Fin 13) (flit : List (BitVec 8)) (s : State) : Host.Outcome State Fault Refusal :=
  .next <|
    let p := port.val
    let x := s.port p
    if x.st == .down || x.lanes == 0 then s
    else
      let word := fun (o : Nat) => (List.range 128).map fun i => flit.getD (2 * i + o) 0
      let d0 := rsDecode (word 0)
      let d1 := rsDecode (word 1)
      let n := (d0.map (·.2)).getD 0 + (d1.map (·.2)).getD 0
      let bad := b2n d0.isNone + b2n d1.isNone
      let s := s.setPort p fun x =>
        { x with
          fecCorr := satAdd 0xFFFF x.fecCorr n, fecUncorr := satAdd 0xFFFF x.fecUncorr bad, errTotal := x.errTotal + bad }
      let nak := fun (s : State) => s.setPort p fun x => { x with nakDue := x.nakDue || !x.nakSent }
      match d0, d1 with
      | some (a, _), some (b, _) =>
        let m := (List.range 240).map fun i => (if i % 2 = 0 then a else b).getD (i / 2) 0
        if (crc32c (m.take 236)).toNat != fieldAt m 236 4 then
          nak (s.setPort p fun x => { x with crcErr := satAdd 0xFFFF x.crcErr 1, errTotal := x.errTotal + 1 })
        else
          let h := fieldAt m 0 8
          let ftype := bitsOf h 2 0
          let s := if bitOf h 38 then s.takeAck p (BitVec.ofNat 16 (bitsOf h 37 22)) else s
          let s := s.setPort p fun x => x.refund (bitsOf h 41 39) (bitsOf h 51 42)
          if ftype = 2 then s.replayFrom p
          else if ftype = 1 && BitVec.ofNat 16 (bitsOf h 21 6) == x.rxLast + 1 then
            s.acceptFlit p (bitsOf h 5 3) (bitsOf h 59 52) (BitVec.ofNat 16 (bitsOf h 21 6)) ((m.drop 8).take 228)
          else s
      | _, _ => nak s

end Sys2Proof.Machine
end

