-- ==== Sys2Proof/Machine/Fabric.lean ====
section
/-! DEFINITION. Requests at the modules they enter and at their target, responses at the issuer, timers of flows and the
release of peer-state entries (R224-R231, R413). -/

namespace Sys2Proof.Machine

/-! ### The receiving side of a flow -/

def State.rxFlow (s : State) (remote cls : Nat) : RecvFlow := (mget {} s.fab.peers remote).rx.getD cls {}
def State.setRx (s : State) (remote cls : Nat) (f : RecvFlow → RecvFlow) : State :=
  let ps := mmod {} s.fab.peers remote fun p => { p with tgt := true, tgtIdle := s.time.mono, rx := lmod p.rx cls f }
  { s with fab := { s.fab with peers := ps } }

/-- What a request is answered: status, operand, data and husk mask. -/
structure Answer where
  st : Nat
  operand : BitVec 64 := 0
  data : List Byte := []
  mask : BitVec 128 := 0

/-- The RESP to a request (R220, R224). -/
def State.respOf (s : State) (k : Packet) (a : Answer) : Packet :=
  { blankPkt with
    ptype := 5, cls := k.cls, hm := a.mask != 0, dst := k.src, src := k.dst, slice := k.slice
    epoch := ((s.sliceOf k.slice).map fun e => e.2.epoch).getD 0, seq := k.seq, len := BitVec.ofNat 13 a.data.length
    dw2 := BitVec.ofNat 64 (a.st * 2 ^ 52), dw3 := a.operand, mask := a.mask, payload := a.data }

/-- Send it: over the circuit the request came by (R236), else on its route. Without a usable port it is lost. -/
def State.reply (s : State) (port : Nat) (k : Packet) (a : Answer) : State :=
  let r := s.respOf k a
  if podOf k.src.toNat != podOf s.ownId && 9 ≤ port && s.isUp port then s.queuePkt port 4 { r with esc := true }
  else (s.emit r true false).getD s

/-- Bytes a request asks for or brings. -/
def reqLen (k : Packet) : Nat := if k.ptype == 3 then (if bitOf k.dw2.toNat 56 then 8 else 4) else if k.ptype == 4 then 0 else k.len.toNat
/-- ADDR and ATOMIC_OP of a request. -/
def reqAddr (k : Packet) : Nat := k.dw2.toNat % 2 ^ 48
def reqOp (k : Packet) : Nat := bitsOf k.dw2.toNat 55 52

/-- Check 6 of R228. -/
def reqForm (k : Packet) : Bool :=
  pktReserved k && k.payload.length == (if k.ptype == 2 then 0 else k.len.toNat) &&
    (match k.ptype.toNat with
    | 1 => 1 ≤ k.len.toNat && k.len.toNat ≤ 4096
    | 2 => 1 ≤ k.len.toNat && k.len.toNat ≤ 4096
    | 3 => reqOp k ≤ 7 && k.len.toNat == (if reqOp k = 5 then 8 else 0)
    | 4 => k.len == 0
    | _ => false)

/-- Check 8: the dies the range lies on, or the owner of the semaphore, answer, and the ring leads to them from the port's die (R22). -/
def State.reqUp (s : State) (port : Nat) (k : Packet) : Bool :=
  let ok := fun (d : Nat) => s.regionUp d && s.portPath d port != .domainOff
  if k.ptype == 4 then ok (bitsOf k.dw3.toNat 13 0 / 4096)
  else ok (dieOf (reqAddr k)) && ok (dieOf (reqAddr k + reqLen k - 1))

/-- Check 9. -/
def State.reqInside (s : State) (e : Nat) (ent : SliceEnt) (k : Packet) : Bool :=
  if k.ptype == 4 then (s.boundTo e).any fun c => s.holdsSem c (bitsOf k.dw3.toNat 13 0)
  else ent.wins.any fun w => w.2.1 * 2 ^ 21 ≤ reqAddr k && reqAddr k + reqLen k ≤ (w.2.1 + w.2.2) * 2 ^ 21

/-- Checks 4 to 10 of R228 with their counts: the status, 0 when the request passes. -/
def State.reqChecks (s : State) (port : Nat) (k : Packet) : Nat × State :=
  let d := homeDie k.src.toNat
  match s.sliceOf k.slice with
  | none => (3, s.setWg d fun x => { x with noSlice := satAdd 0xFFFF x.noSlice 1 })
  | some (e, ent) =>
    if k.epoch != ent.epoch then
      if newerEpoch ent.epoch k.epoch then (1, s.countDrop d e dropStale) else (2, s.countDrop d e dropAhead)
    else if !reqForm k then (6, s.setWg d fun x => { x with malformed := satAdd 0xFFFF x.malformed 1 })
    else if k.ptype != 4 && usableTop < reqAddr k + reqLen k then (4, s)
    else if !s.reqUp port k then (5, s)
    else if !s.reqInside e ent k then (6, s)
    else if k.ptype == 3 && s.lHusk (reqAddr k) then (7, s)
    else (0, s)

/-- What a GET brings back. -/
def State.getData (s : State) (k : Packet) : Answer :=
  let a := reqAddr k
  { st := 0, data := s.lRead a k.len.toNat
    mask := BitVec.ofNat 128 (huskMask s.mem.main.husks.contains a a k.len.toNat) }

/-- A request that has passed every check is performed. -/
def State.performReq (s : State) (k : Packet) : State × Answer :=
  let a := reqAddr k
  match k.ptype.toNat with
  | 1 => (s.lWrite a k.payload (maskedSectors (if k.hm then k.mask else 0) a a k.len.toNat), { st := 0 })
  | 2 => (s, s.getData k)
  | 3 =>
    let (s, old) := s.atomicAt a (bitOf k.dw2.toNat 56) (reqOp k) k.dw3.toNat (ofLe k.payload)
    (s, { st := 0, operand := BitVec.ofNat 64 old })
  | _ => (s.semAdd (bitsOf k.dw3.toNat 13 0) (BitVec.ofNat 32 (bitsOf k.dw3.toNat 63 32)), { st := 0 })

/-- Deliver a request in SEQ order (R226, R228): a consuming status advances E and is cached. -/
def State.deliverReq (s : State) (port : Nat) (k : Packet) : State :=
  let (st, s) := s.reqChecks port k
  let s := if st = 1 || st = 2 then s.countEv (portDie port) 0x053 port none 1 else s
  if st = 2 then s.reply port k { st := 2 }
  else
    let (s, a) := if st = 0 then s.performReq k else (s, { st := st })
    let s := s.setRx k.src.toNat k.cls.toNat fun f =>
      { f with e := some (k.seq + 1), cache := ((k.seq, BitVec.ofNat 4 a.st, a.operand) :: f.cache).take 64 }
    s.reply port k a

/-- Bytes the reorder store of a die holds. -/
def State.reorderUsed (s : State) (die : Nat) : Nat :=
  ((s.fab.peers.filter fun e => homeDie e.1 == die).flatMap fun e => e.2.rx.flatMap fun f => f.waiting.map fun w => pktSize w.2)
    |>.foldl (· + ·) 0

/-- Check 3 at the home die (R226, R227), and what follows from it. -/
def State.orderReq (s : State) (port : Nat) (k : Packet) : State :=
  let src := k.src.toNat
  let d := homeDie src
  let cls := k.cls.toNat
  let count := fun (s : State) (f : WgDie → WgDie) => s.setWg d f
  if (s.fab.peers.lookup src).isNone && 1024 ≤ s.peersOn d then
    let now := s.time.mono
    let s := count s fun x =>
      { x with busySent := satAdd 0xFFFFFFFF x.busySent 1, busyAt := x.busyAt.filter (now < · + 1000000000) ++ [now] }
    let w := s.fab.dies.getD d {}
    let s := if (match w.fullLog with | none => true | some t => t + 1000000000 ≤ now) then
        (count s fun x => { x with fullLog := some now }).log 0x1008 3 (srcDieUnit d 66) [d, w.busyAt.length]
      else s
    s.reply port k { st := 9 }
  else
    let f := s.rxFlow src cls
    match f.e, k.start with
    | none, false => s.reply port k { st := 0xA }
    | none, true =>
      let s := s.setRx src cls fun _ => { e := some k.seq }
      (count s fun x => { x with highWater := max x.highWater (s.peersOn d) }).deliverReq port k
    | some e, start =>
      let delta := (k.seq - e).toNat
      let s := s.setRx src cls id
      if delta = 0 then s.deliverReq port k
      else if 65536 - 64 ≤ delta then
        match f.cache.find? fun c => c.1 == k.seq with
        | some (_, st, operand) =>
          if k.ptype == 2 && st == 0 then s.reply port k (s.getData k) else s.reply port k { st := st.toNat, operand := operand }
        | none => count s fun x => { x with dupDiscard := satAdd 0xFFFF x.dupDiscard 1 }
      else if delta ≤ 63 then
        if f.waiting.any fun w => w.2.seq == k.seq then s
        else if 2 * 2 ^ 20 < s.reorderUsed d + pktSize k then
          (count s fun x => { x with retrySent := satAdd 0xFFFF x.retrySent 1 }).reply port k { st := 8 }
        else s.setRx src cls fun f => { f with waiting := f.waiting ++ [(port, k)] }
      else if start then (s.setRx src cls fun _ => { e := some k.seq }).deliverReq port k
      else if 32768 ≤ delta then count s fun x => { x with dupDiscard := satAdd 0xFFFF x.dupDiscard 1 }
      else count s fun x => { x with malformed := satAdd 0xFFFF x.malformed 1 }

/-- PACKET_ARRIVE (R228): checks 1 and 2 where it enters, then forwarded, or checks 3 to 10 at the home die. -/
def execPacketArrive (port : Fin 13) (pkt : Packet) (flips : List LineFlip) (s : State) : Host.Outcome State Fault Refusal :=
  .next <|
    let k := pkt
    let s := s.takePkt port (pktBytes k)
    if !s.isUp port || (5 ≤ k.ptype.toNat && k.ptype.toNat ≤ 10) then s
    else
      let mine := k.dst.toNat == s.ownId
      let drop := fun (s : State) => s.reply port k { st := 0xB }
      match s.sliceOf k.slice with
      | none =>
        if mine then
          (if (s.die (homeDie k.src.toNat)).inReset then s.reply port k { st := 5 } else (s.damages 0 flips).orderReq port k)
        else drop s
      | some (e, ent) =>
        if bitOf ent.boundary.toNat port then drop (s.countDrop (portDie port) e dropBoundary)
        else if !mine then
          match s.emit k false false with
          | some s => s
          | none => s.reply port k { st := 0xC }
        else if (s.die (homeDie k.src.toNat)).inReset then s.reply port k { st := 5 }
        else (s.damages 0 flips).orderReq port k

/-- REORDERED_REQUEST_DELIVER (R226 step 4): the waiting request whose SEQ is E. -/
def execReorderedRequestDeliver (remote : BitVec 15) (cls : Fin 4) (flips : List LineFlip) (s : State) :
    Host.Outcome State Fault Refusal :=
  .next <|
    if (s.die (homeDie remote.toNat)).inReset then s
    else
      let f := s.rxFlow remote.toNat cls
      match f.waiting.find? fun w => some w.2.seq == f.e with
      | some (port, k) =>
        let s := s.setRx remote.toNat cls fun f => { f with waiting := f.waiting.filter fun w => w.2.seq != k.seq }
        (s.damages 0 flips).deliverReq port k
      | none => s

/-! ### The sending side -/

/-- Every started descriptor whose requests have been answered goes on. -/
def State.sweepDescs (s : State) : State :=
  (s.eng.queues.flatMap fun e => e.2.started.map fun x => (e.1 / 64, e.1 % 64, x.index)).foldl
    (fun s t => s.descSettled t.1 t.2.1 t.2.2) s

/-- Answers have come in a flow: requests that waited go out, stalled ones are tried again, descriptors go on. -/
def State.flowMoves (s : State) (remote cls : Nat) : State :=
  let ps := mmod {} s.fab.peers remote fun p => { p with sndIdle := s.time.mono }
  let s := { s with fab := { s.fab with peers := ps } }
  (((s.pump remote cls 64).unstall).sweepDescs).jobSweep

/-- A request changed where it stands unanswered. -/
def State.setUna (s : State) (remote cls : Nat) (seq : BitVec 16) (f : FReq → FReq) : State :=
  s.setTx remote cls fun t => { t with una := modFirst (·.seq == seq) f t.una }
def State.una? (s : State) (remote cls : Nat) (seq : BitVec 16) : Option FReq :=
  (s.txFlow remote cls).una.find? (·.seq == seq)

/-- Send an unanswered request again with its SEQ. -/
def State.resendReq (s : State) (remote cls : Nat) (r : FReq) : State :=
  let s := s.setUna remote cls r.seq fun _ => { r with sentAt := s.time.mono }
  match s.emit (s.reqPacket r) false r.board with
  | some s => s
  | none => (s.failFlow remote cls 0xC).flowMoves remote cls

/-- The flow starts anew after RESYNC (R227): every unanswered request with a new SEQ, the first with START. -/
def State.resync (s : State) (remote cls : Nat) : State :=
  let f := s.txFlow remote cls
  let base := f.next + 128
  let una := f.una.zipIdx.map fun p =>
    { p.1 with seq := base + BitVec.ofNat 16 p.2, start := p.2 == 0, busy := false, ahead := none, sentAt := s.time.mono }
  let s := s.setTx remote cls fun f => { f with una := una, next := base + BitVec.ofNat 16 una.length, restart := false }
  una.foldl (fun s r => if (s.una? remote cls r.seq).isSome then s.resendReq remote cls r else s) s

/-- The context a request was issued for (R230); none of one whose context has gone, or of a host core bound to none. -/
def State.ownerCtx (s : State) : ReqOwner → Option Nat
  | .desc c _ _ => some c
  | .hoard c => if c < 256 then some c else none
  | .fill c => some c
  | .host (.engine _ c) => some c.val
  | .host (.hart h) => s.eng.hartCtx.lookup h.val
  | _ => none

/-- The fault event of a fence that an answer to its request brings. -/
def State.fenceEv (s : State) : ReqOwner → FaultEv
  | .desc c q ix => match s.started? c q ix with
    | some x => s.evOf c q x 0x14
    | none => { kind := 2, status := 0x14, queue := q, engine := 0, index := ix, detail := 0, addr := 0, d := [] }
  | _ => { kind := 2, status := 0x14, queue := 0, engine := 0, index := 0, detail := 0, addr := 0, d := [] }

/-- RESP_RECEIVE (R224, R226, R230). -/
def execRespReceive (pkt : Packet) (s : State) : Host.Outcome State Fault Refusal :=
  s.orWait <|
    let k := pkt
    let s := (List.range 13).foldl (fun s p => s.takePkt p (pktBytes k)) s
    let remote := k.src.toNat
    let cls := k.cls.toNat
    if k.ptype != 5 || k.dst.toNat != s.ownId then s
    else
      match s.una? remote cls k.seq with
      | none => s
      | some r =>
        let st := bitsOf k.dw2.toNat 55 52
        let gone := fun (s : State) => s.setTx remote cls fun t => { t with una := t.una.filter (·.seq != k.seq) }
        match st with
        | 0x2 => s.setUna remote cls k.seq fun r => { r with ahead := r.ahead <|> some s.time.mono, sentAt := s.time.mono, busy := false }
        | 0x8 => s.resendReq remote cls r
        | 0x9 => s.setUna remote cls k.seq fun r => { r with busy := true, sentAt := s.time.mono }
        | 0xA => s.resync remote cls
        | 0xB => (s.failFlow remote cls 0xB).flowMoves remote cls
        | 0xC => (s.failFlow remote cls 0xC).flowMoves remote cls
        | 0xD => s
        | 0xE => s
        | 0xF => s
        | _ =>
          let s := match s.ownerCtx r.owner with
            | some c =>
              if st = 1 && newerEpoch k.epoch (s.ctx c).epoch then s.selfFence k.slice k.epoch remote c (s.fenceEv r.owner) else s
            | none => s
          ((gone s).settle r st k.dw3 k.payload (if k.hm then k.mask else 0)).flowMoves remote cls

/-- REQUEST_TIMEOUT (R226 step 2): resent up to RETRIES times, then the flow has failed. -/
def execRequestTimeout (remote : BitVec 15) (cls : Fin 4) (seq : BitVec 16) (s : State) : Host.Outcome State Fault Refusal :=
  s.orWait <|
    match s.una? remote.toNat cls seq with
    | none => s
    | some r =>
      if r.busy || r.ahead.isSome || s.time.mono < r.sentAt + s.fab.timeout * 100000 then s
      else if r.tries < s.fab.retries then s.resendReq remote.toNat cls { r with tries := r.tries + 1 }
      else (s.failFlow remote.toNat cls 0xC).flowMoves remote.toNat cls

/-- BUSY_RESEND (R224): after one eighth of TIMEOUT. -/
def execBusyResend (remote : BitVec 15) (cls : Fin 4) (seq : BitVec 16) (s : State) : Host.Outcome State Fault Refusal :=
  s.orWait <|
    match s.una? remote.toNat cls seq with
    | none => s
    | some r =>
      if r.busy && r.sentAt + s.fab.timeout * 12500 ≤ s.time.mono then s.resendReq remote.toNat cls { r with busy := false }
      else s

/-- EPOCH_AHEAD_RESEND (R230): every 100 µs. -/
def execEpochAheadResend (remote : BitVec 15) (cls : Fin 4) (seq : BitVec 16) (s : State) : Host.Outcome State Fault Refusal :=
  s.orWait <|
    match s.una? remote.toNat cls seq with
    | none => s
    | some r => if r.ahead.isSome && r.sentAt + 100000 ≤ s.time.mono then s.resendReq remote.toNat cls r else s

/-- EPOCH_WAIT_EXPIRY (R230): EPOCH_WAIT after the first EPOCH_AHEAD the flow fails with EPOCH_MISMATCH. -/
def execEpochWaitExpiry (remote : BitVec 15) (cls : Fin 4) (seq : BitVec 16) (s : State) : Host.Outcome State Fault Refusal :=
  s.orWait <|
    match s.una? remote.toNat cls seq with
    | none => s
    | some r =>
      match r.ahead with
      | none => s
      | some t =>
        if t + s.fab.epochWait * 1000000 ≤ s.time.mono then (s.failFlow remote.toNat cls 1).flowMoves remote.toNat cls else s

/-- PEER_ENTRY_RELEASE (R227): the sender's part after 20 ms without an unanswered request, the target's after 10 ms
without a request; an entry without parts is freed. -/
def execPeerEntryRelease (remote : BitVec 15) (target : Bool) (s : State) : Host.Outcome State Fault Refusal :=
  .next <|
    let id := remote.toNat
    match s.fab.peers.lookup id with
    | none => s
    | some p =>
      let set := fun (p : Peer) =>
        let ps := if p.snd || p.tgt then mput s.fab.peers id p else mdel s.fab.peers id
        ({ s with fab := { s.fab with peers := ps } }).unstall.sweepDescs.jobSweep
      if target then
        if p.tgt && p.rx.all (·.waiting.isEmpty) && p.tgtIdle + 10000000 ≤ s.time.mono then
          set { p with tgt := false, rx := List.replicate 4 {} }
        else s
      else if p.snd && p.tx.all (fun f => f.una.isEmpty && f.wait.isEmpty) && p.sndIdle + 20000000 ≤ s.time.mono then
        set { p with snd := false, tx := List.replicate 4 {} }
      else s

/-- What a die's reset does to the flows homed on it (R413): requests of this module end with DOMAIN_OFF. -/
def State.flowsOff (s : State) (die : Nat) : State :=
  let ks := (s.fab.peers.filter fun e => homeDie e.1 == die).map (·.1)
  let s := ks.foldl (fun s k => [0, 1, 2, 3].foldl (fun s cls => s.failFlow k cls 5) s) s
  s.sweepDescs.jobSweep

end Sys2Proof.Machine
end

