-- ==== Sys2Proof/Machine/Job.lean ====
section
/-! DEFINITION. Commands of job continuity (0x06xx) and the cellar (chapter 14). -/

namespace Sys2Proof.Machine

/-! ### Hoard commands -/

/-- The context argument in the low byte of a0 is the channel's. -/
def ownCtx (_ : State) (ch : Nat) (a : List Nat) : Bool := arg a 0 % 256 == ch
/-- a0 is a context number. -/
def ctxWord (a : List Nat) : Nat × Bool := (0, arg a 0 < 256)

/-- The local offset range of a window entry of a context that covers a range. -/
def State.inLocalWin (s : State) (c off n : Nat) : Bool := (s.localWins c).any fun w => w.1 ≤ off && off + n ≤ w.1 + w.2

/-- Ranges meet. -/
def meets (a n b m : Nat) : Bool := a < b + m && b < a + n

/-- The first partner that is this module, or that stands earlier in the list (R424). -/
def State.badPartner (s : State) (ps : List Nat) : Nat :=
  ps.zipIdx.findIdx fun e => e.1 == s.ownId || (ps.take e.2).contains e.1

/-- HoardConfig (R424). -/
def dHoardConfig : DaridDef where
  op := 0x0601
  senders := [.m, .f]
  len := (· == 8)
  bad _ a := badWord [ctxWord a, (1, 1 ≤ arg a 1 && arg a 1 ≤ 3), (2, arg a 2 < 2 ^ 15),
    (3, arg a 3 < 2 ^ 15 && (2 ≤ arg a 1 || arg a 3 == 0)), (4, arg a 4 < 2 ^ 15 && (3 ≤ arg a 1 || arg a 4 == 0)),
    (5, arg a 5 * 2 ^ 21 < usableTop), (6, arg a 6 * 2 ^ 21 ≤ usableTop),
    (7, arg a 7 < 2 ^ 16 && (bitOf (arg a 7) 15 || arg a 7 == 0))]
  body s _ a :=
    let c := arg a 0
    let r := arg a 1
    let ps := ((a.drop 2).take r)
    let base := arg a 5 * 2 ^ 21
    let size := arg a 6 * 2 ^ 21
    let pred := if bitOf (arg a 7) 15 then some (arg a 7 % 2 ^ 15) else none
    let ent := (s.ctx c).slice.bind fun e => s.fab.slices.lookup e
    let inWin := match ent with
      | some e => e.wins.any fun w => w.2.1 * 2 ^ 21 ≤ base && base + size ≤ (w.2.1 + w.2.2) * 2 ^ 21
      | none => false
    if ent.isNone then .badArg s 0
    else if ps.contains s.ownId || !noDup ps then .badArg s (2 + s.badPartner ps)
    else if arg a 6 / r * 2 ^ 21 < 4 * 2 ^ 20 then .badArg s 6
    else if !inWin || ((s.localWins c).any fun w => meets w.1 w.2 base size) then .badArg s 5
    else if pred == some s.ownId then .badArg s 7
    else if (s.snap? c).isSome || s.job.fills.any (·.ctx == c) then .no s dBusy
    else { s := s.setCtx c fun x => { x with hoard := some { copies := r, partners := ps, base := arg a 5, size := arg a 6, pred := pred } } }

/-- HoardSnapshot (R427, R431). -/
def dHoardSnapshot : DaridDef where
  op := 0x0602
  senders := [.c, .m, .f]
  own := ownCtx
  len := (· == 1)
  bad _ a := badWord [ctxWord a]
  body s w a :=
    let (cause, s) := s.startSnap (arg a 0) (some w) none true 0xFFFFFFFF
    if cause = 0 then { s := s, status := dPending } else if cause ≤ 2 then .no s dBusy else .no s dBadState

/-- A fill or restore accepted: it holds the context and waits its turn (R437, R441). -/
def State.addFill (s : State) (x : Fill) : State :=
  let s := { s with job := { s.job with fills := s.job.fills ++ [x] } }
  (s.setCtx x.ctx fun y => { y with held := true }).jobSweep

/-- HoardRestore (R435). -/
def dHoardRestore : DaridDef where
  op := 0x0603
  senders := [.m, .f]
  len := (· == 4)
  bad _ a := badWord [ctxWord a, (1, arg a 1 < 2 ^ 15)]
  body s w a :=
    let c := arg a 0
    match (s.ctx c).hoard with
    | none => .no s dNoSuch
    | some h =>
      if !h.partners.contains (arg a 1) then .no s dNoSuch
      else if s.job.fills.any (·.ctx == c) || (s.snap? c).isSome then .no s dBusy
      else
        { status := dPending
          s := s.addFill
            { ctx := c, who := some w, restore := true, prio := 65535, sources := [arg a 1], step := BitVec.ofNat 64 (arg64 a 2)
              startAt := s.time.mono } }

/-- SpareFill (R436). Sources after a zero are not looked at; each must be a partner. -/
def dSpareFill : DaridDef where
  op := 0x0604
  senders := [.m, .f]
  len := (· == 5)
  bad s a :=
    let ps := ((s.ctx (arg a 0 % 256)).hoard.map (·.partners)).getD []
    badWord ([ctxWord a, (1, arg a 1 < 65536), (2, arg a 2 != 0)] ++
      (([2, 3, 4].takeWhile fun i => arg a i != 0).map fun i => (i, ps.contains (arg a i))))
  body s w a :=
    let c := arg a 0
    if s.job.fills.any (·.ctx == c) || (s.snap? c).isSome then .no s dBusy
    else
      { status := dPending
        s := s.addFill
          { ctx := c, who := some w, restore := false, prio := arg a 1, sources := (a.drop 2).takeWhile (· != 0)
            startAt := s.time.mono } }

/-! ### Streams and cursors (R433, R434) -/

def ownStream (s : State) (ch : Nat) (a : List Nat) : Bool := s.holdsStream ch (arg a 0)

def dSeedStreamSet : DaridDef where
  op := 0x0607
  senders := [.c, .m, .f]
  own := ownStream
  len := (· == 13)
  bad _ a := badWord [(0, arg a 0 < 1024)]
  body s _ a :=
    let t : Sys2Proof.Machine.Stream :=
      { key := (List.range 4).map fun i => BitVec.ofNat 64 (arg64 a (1 + 2 * i)), ctr := arg64 a 9 + 2 ^ 64 * arg64 a 11 }
    { s := { s with eng := { s.eng with streams := mput s.eng.streams (arg a 0) t } } }

def dSeedStreamGet : DaridDef where
  op := 0x0608
  senders := [.c, .m, .f]
  own := ownStream
  changes := false
  len := (· == 1)
  bad _ a := badWord [(0, arg a 0 < 1024)]
  body s _ a :=
    let t := s.stream (arg a 0)
    { s := s, words := (List.range 4).flatMap (fun i => lohi (t.key.getD i 0).toNat) ++ lohi (t.ctr % 2 ^ 64) ++ lohi (t.ctr / 2 ^ 64) }

def dDataCursorSet : DaridDef where
  op := 0x0609
  senders := [.c, .m, .f]
  own := ownCtx
  len := (· == 3)
  bad _ a := badWord [(0, arg a 0 < 2 ^ 14)]
  body s _ a :=
    { s := s.setCtx (arg a 0 % 256) fun x => { x with cursors := mput x.cursors (arg a 0 / 256) (BitVec.ofNat 64 (arg64 a 1)) } }

def dDataCursorGet : DaridDef where
  op := 0x060A
  senders := [.c, .m, .f]
  own := ownCtx
  changes := false
  len := (· == 1)
  bad _ a := badWord [(0, arg a 0 < 2 ^ 14)]
  body s _ a := { s := s, words := lohi (mget 0 (s.ctx (arg a 0 % 256)).cursors (arg a 0 / 256)).toNat }

/-! ### The cellar (R442-R446) -/

def State.cellar (s : State) (p : Nat) : CellarPort := s.job.ports.getD p {}
def State.setCellar (s : State) (p : Nat) (f : CellarPort → CellarPort) : State :=
  { s with job := { s.job with ports := lmod s.job.ports p f } }

/-- CellarWrite and CellarRead: accepted, the command waits its turn on its port. -/
def cellarBody (write : Bool) (s : State) (w : Who) (a : List Nat) : DRes :=
  let p := bitsOf (arg a 0) 8 8
  let nsid := bitsOf (arg a 0) 31 16
  let x := s.cellar p
  let n := arg a 5
  let addr := arg64 a 3
  if !s.unitOn (14 + p) then .no s dDenied
  else if !x.present || x.failed then .no s dNotPresent
  else match x.nss.lookup nsid with
    | none => .badArg s 0
    | some (size, ok) =>
      if !ok then .no (s.logFw 0x0608 4 [p, 2, 0, nsid]) dBadArg
      else match (if addr < 2 ^ 52 then s.place addr else .err .unmapped) with
        | .loc off =>
          if size < arg64 a 1 + n then .badArg s 1
          else if off % 4096 != 0 || !s.inLocalWin (arg a 0 % 256) off (n * 4096) then .badArg s 3
          else
            { status := dPending
              s := s.setCellar p fun x =>
                { x with jobs := x.jobs ++ [{
                  who := w, write := write, ctx := arg a 0 % 256, nsid := nsid, lba := arg64 a 1, addr := off, len := n
                  startAt := s.time.mono }] } }
        | _ => .badArg s 3

def cellarBad (_ : State) (a : List Nat) : Option Nat := badWord [(0, bitsOf (arg a 0) 15 9 == 0 && bitsOf (arg a 0) 31 16 != 0)]

def dCellarWrite : DaridDef where
  op := 0x0605
  senders := [.c, .m, .f]
  own := ownCtx
  len := (· == 6)
  bad := cellarBad
  body := cellarBody true
def dCellarRead : DaridDef where
  op := 0x0606
  senders := [.c, .m, .f]
  own := ownCtx
  len := (· == 6)
  bad := cellarBad
  body := cellarBody false

/-- A cellar command ends with an outcome of R445: logged and answered. -/
def State.endCellar (s : State) (p : Nat) (j : CellarJob) (outcome blocks husks : Nat) : State :=
  (s.logFw 0x0607 2 ([j.ctx, p, j.nsid, b2n !j.write, outcome] ++ lohi blocks ++ [husks])).finish j.who dOk outcome []

/-- The blocks of memory a CellarWrite puts out: block, husk mask, data with husks as zeros. -/
def State.blocksOf (s : State) (j : CellarJob) (n : Nat) : List (Nat × BitVec 128 × List Byte) :=
  (List.range n).map fun i =>
    let a := j.addr + 4096 * i
    (j.lba + i, BitVec.ofNat 128 (huskMask s.mem.main.husks.contains a a 4096), s.mem.main.read a 4096)

/-- One block read into memory (R444): a lost one husks all its sectors. -/
def putBlock (m : Mem) (a : Nat) (b : NvmeBlock) : Mem :=
  let bad := match b.data with
    | none => (List.range 128).map (· + a / 32)
    | some _ => ((List.range 128).filter b.husks.getLsbD).map (· + a / 32)
  m.write a (padTo 4096 0 (b.data.getD [])) bad

/-- A block that the device could not read (R197, R207, R444): its 128 sectors are husks with cause 4. One MEM_UE stands for the block,
with the place of its first line and both halves (DESIGN CHOICE, log 62). -/
def State.noteLostBlock (s : State) (a : Nat) : State :=
  let d := dieOf a
  (s.noteHusks d 128 4 a).log 0x1201 4 (srcDieUnit d 65) ([d, stackOf a, channelOf a, dataLine a, 3, 4] ++ lohi a)

/-- A die whose memory a cellar command moves answers the data mover. -/
def State.cellarReach (s : State) (j : CellarJob) (ok : State → Nat → Bool) : Bool :=
  (List.range j.len).all fun i => ok s (dieOf (j.addr + 4096 * i))

/-- CELLAR_DONE (R442-R445): on a port whose queues the active CTD has created, the oldest command ends: all blocks, or with a failed NVMe command (some false), or with
the link or controller lost (some true); `blocks` are those transferred, for a read with what the device returned. DESIGN CHOICE (log 65): memory of a die in reset is waited for,
and a FAILED region ends the command with outcome 1 before any block. -/
def execCellarDone (port : Fin 2) (failed : Option Bool) (blocks : List NvmeBlock) (s : State) : Host.Outcome State Fault Refusal :=
  .next <|
    match (s.cellar port).jobs with
    | [] => s
    | j :: rest =>
      if (s.cellar port).ioQueues = 0 then s
      else if !s.cellarReach j fun s d => !s.regionFailed d then
        (s.setCellar port fun x => { x with jobs := rest }).endCellar port j 1 0 0
      else if !s.cellarReach j State.regionUp then s
      else
      let n := if failed.isNone && j.write then j.len else min j.len blocks.length
      let outcome := match failed with | none => 0 | some false => 1 | some true => 2
      let s := s.setCellar port fun x => { x with jobs := rest }
      if j.write then
        let out := s.blocksOf j n
        let husks := out.foldl (fun k b => k + (setBits 128 b.2.1.toNat).length) 0
        (s.setCellar port fun x => { x with sent := out }).endCellar port j outcome n husks
      else
        let bs := blocks.take n
        let husks := bs.foldl (fun k b => k + (match b.data with | none => 128 | some _ => (setBits 128 b.husks.toNat).length)) 0
        let s := s.setMem fun m => (bs.zipIdx.foldl (fun m b => putBlock m (j.addr + 4096 * b.2) b.1) m)
        let s := (bs.zipIdx.filter (·.1.data.isNone)).foldl (fun s b => s.noteLostBlock (j.addr + 4096 * b.2)) s
        s.endCellar port j outcome n husks

/-- The commands of a port end because its device is lost (outcome 2). -/
def State.cellarLost (s : State) (p : Nat) : State :=
  let js := (s.cellar p).jobs
  js.foldl (fun s j => s.endCellar p j 2 0 0) (s.setCellar p fun x => { x with jobs := [] })

/-- The commands of a released context end (outcome 3). -/
def State.cellarRelease (s : State) (c : Nat) : State :=
  [0, 1].foldl (fun s p =>
    let js := (s.cellar p).jobs.filter (·.ctx == c)
    js.foldl (fun s j => s.endCellar p j 3 0 0) (s.setCellar p fun x => { x with jobs := x.jobs.filter (·.ctx != c) })) s

/-- CELLAR_DEVICE (R442, R450): event 0, a controller has been initialised and reports its namespaces; 1 there is none or its
link is lost; 2 a namespace has another format; 3 the controller reports a fatal status; 4 it has been reset after a
switchover, and its commands are issued again. -/
def execCellarDevice (port : Fin 2) (event : Fin 5) (nvmeStatus : BitVec 32) (nsid : BitVec 32) (nss : List (Nat × Nat × Bool))
    (s : State) : Host.Outcome State Fault Refusal :=
  .next <|
    let p := port.val
    if s.serving.isNone || !s.unitOn (14 + p) then s
    else
      let table := nss.foldl (fun (m : SMap (Nat × Bool)) n => mput m n.1 n.2) []
      let up := fun (s : State) => s.setCellar p fun x => { x with present := true, failed := false, nss := table, ioQueues := 16 }
      let log := fun (s : State) => s.logFw 0x0608 4 [p, event, nvmeStatus.toNat, nsid.toNat]
      match event.val with
      | 0 => up s
      | 1 => log ((s.cellarLost p).setCellar p fun x => { x with present := false, ioQueues := 0 })
      | 2 => log s
      | 3 => log ((s.cellarLost p).setCellar p fun x => { x with failed := true, ioQueues := 0 })
      | _ => log (up s)

def execHoardConfig (r : DReq) (s : State) : Host.Outcome State Fault Refusal := .next (runDarid dHoardConfig r s)
def execHoardSnapshot (r : DReq) (s : State) : Host.Outcome State Fault Refusal := .next (runDarid dHoardSnapshot r s)
def execHoardRestore (r : DReq) (s : State) : Host.Outcome State Fault Refusal := .next (runDarid dHoardRestore r s)
def execSpareFill (r : DReq) (s : State) : Host.Outcome State Fault Refusal := .next (runDarid dSpareFill r s)
def execSeedStreamSet (r : DReq) (s : State) : Host.Outcome State Fault Refusal := .next (runDarid dSeedStreamSet r s)
def execSeedStreamGet (r : DReq) (s : State) : Host.Outcome State Fault Refusal := .next (runDarid dSeedStreamGet r s)
def execDataCursorSet (r : DReq) (s : State) : Host.Outcome State Fault Refusal := .next (runDarid dDataCursorSet r s)
def execDataCursorGet (r : DReq) (s : State) : Host.Outcome State Fault Refusal := .next (runDarid dDataCursorGet r s)
def execCellarWrite (r : DReq) (s : State) : Host.Outcome State Fault Refusal := .next (runDarid dCellarWrite r s)
def execCellarRead (r : DReq) (s : State) : Host.Outcome State Fault Refusal := .next (runDarid dCellarRead r s)

end Sys2Proof.Machine
end

