-- ==== Sys2Proof/Machine/Ring.lean ====
section
/-! DEFINITION. The die-to-die ring (R19-R22): edges, and the path changes of the diagonal pairs. -/

namespace Sys2Proof.Machine

/-- A pair whose default path has been lost, or is whole again, starts to change its path (R21). A change in progress goes on
first. DESIGN CHOICE (log 61): edges that have not come up yet count as lost, so the first check at a boot starts a change to the
alternative path. -/
def State.pathCheck (s : State) : State :=
  let want := fun (p : Nat) => !s.pathOk p false
  let one := fun (p : Nat) =>
    match s.ring.change.getD p none with
    | some x => some x
    | none => if s.ring.alt.getD p false = want p then none else some (want p)
  { s with ring := { s.ring with change := [one 0, one 1] } }

/-- RING_EDGE_DOWN (R21, R22). -/
def execRingEdgeDown (edge : Fin 4) (s : State) : Host.Outcome State Fault Refusal :=
  .next ({ s with ring := { s.ring with edgeUp := s.ring.edgeUp.set edge false } }).pathCheck

/-- RING_EDGE_UP (R21). -/
def execRingEdgeUp (edge : Fin 4) (s : State) : Host.Outcome State Fault Refusal :=
  .next ({ s with ring := { s.ring with edgeUp := s.ring.edgeUp.set edge true } }).pathCheck

end Sys2Proof.Machine
end

