-- ==== Sys2Proof/Machine/Resets.lean ====
section
/-! DEFINITION. What a reset stops, the starts of context, engine and die resets, and the watch over heartbeats
(chapter 13). -/

namespace Sys2Proof.Machine

/-! ### Stopping a descriptor (R398, R406, R417) -/

/-- Ranges a descriptor outside a convoy may have written. -/
def State.writeRanges (s : State) (x : Started) : List (Nat × Nat) :=
  let op := x.opcode
  if op = 0x10 || op = 0x11 then
    let p := mmOf x.d
    if !p.write then []
    else (List.range p.m).flatMap fun m => (p.c + m * p.cstr, rowBytes p.cf p.n) ::
      (if fmtMx p.cf then [(p.cs + m * cdiv p.n 32, cdiv p.n 32)] else [])
  else if 0x20 ≤ op && op ≤ 0x25 then
    let p := vbOf x.d
    let n := if op = 0x23 then 1 else p.cols
    let minmax := op == 0x23 && p.func != 0
    let base := if minmax then p.aux + cdiv (4 * p.rows) 64 * 64 else p.aux
    ((List.range p.rows).flatMap fun r => (p.dst + r * p.dstr, rowBytes p.outf n) ::
      (if fmtMx p.outf then [(base + r * cdiv n 32, cdiv n 32)] else [])) ++
      (if minmax then [(p.aux, 4 * p.rows)] else []) ++
      (if op = 0x24 && p.aux != 0 then [(p.aux, 4 * p.cols * (2 - p.func % 2))] else [])
  else if op = 0x34 then
    let own := (if s.idLocked then boardIdx s.ownId else 0) * 2 ^ 48
    if bitsOf (x.dw 7) 14 0 = s.ownId then [(own + x.dw 4, if bitOf (x.dw 7) 24 then 8 else 4)] else []
  else if 0x30 ≤ op && op ≤ 0x33 then
    let f := s.rowForm x
    if f.put.isSome then [] else (List.range f.rows).map fun r => (f.dst + r * f.dstr, f.len)
  else []

/-- Requests of a descriptor are abandoned (R406): those sent keep their entries and their SEQ until a final response, which
is discarded; those that wait are not sent. -/
def State.abandon (s : State) (c q : Nat) (ix : Word) : State :=
  match s.queue? c q with
  | none => s
  | some u =>
    let mine := fun (r : FReq) => r.owner == ReqOwner.desc c q ix
    let drop := fun (r : FReq) => if mine r then { r with owner := .gone c (engDie u.eng) (engUnit u.eng) } else r
    let flow := fun (f : SendFlow) => { f with una := f.una.map drop, wait := f.wait.filter fun r => !mine r }
    let peers := s.fab.peers.map fun e => (e.1, { e.2 with tx := e.2.tx.map flow })
    { s with fab := { s.fab with peers := peers, stalled := s.fab.stalled.filter fun r => !mine r } }

/-- A started descriptor stops: its convoy is aborted, what it wrote and the stash entries it fed are undefined, its requests
are abandoned. -/
def State.haltDesc (s : State) (c q : Nat) (x : Started) (cause : Nat) (own : Option Fail) : State :=
  match s.queue? c q with
  | none => s
  | some u =>
    let s := match x.convoy with
      | some k => s.startAbort k cause own
      | none => s.undefine u.eng c (s.writeRanges x)
    let t := s.stash c
    let s := if x.pass = t.pass.toNat then
        s.undefine u.eng c (x.stash.filterMap fun i => (t.entries.lookup i).bind fun (e : StashEnt) =>
          if e.st = 1 then some (e.addr, e.size) else none)
      else s
    let s := s.abandon c q x.index
    let free := fun (v : Convoy) => if v.owner == some (c, q, x.index) then { v with owner := none } else v
    { s with fab := { s.fab with convoys := s.fab.convoys.map free } }

/-- It is no longer started and gets no record. -/
def State.removeDesc (s : State) (c q : Nat) (x : Started) : State :=
  let s := s.setQueue c q fun u => { u with started := u.started.filter (·.index != x.index) }
  if x.tagged then s.setTag x.tag fun g => { g with running := g.running - 1 } else s

/-- Open tags of a context close (R458). -/
def State.closeTags (s : State) (c cause : Nat) : State :=
  { s with toll := { s.toll with tags := mmapv s.toll.tags fun _ g =>
      if g.isOpen && g.ctx = c && !g.closing then { g with closing := true, cause := cause } else g } }

/-! ### Context reset and release (R406, R502) -/

/-- A context reset or release starts: nothing more of the context starts, everything started stops, its open tags close.
A second one is joined to the first (R417). -/
def State.startCtxReset (s : State) (c cause : Nat) (who : List Who) : State :=
  let rel := cause == 3
  if (s.ctx c).st = .resetting then
    s.setCtx c fun x =>
      { x with
        resetWho := x.resetWho ++ who, releasing := x.releasing || rel, resetCause := if rel then 3 else x.resetCause }
  else
    let qs := s.eng.queues.filter fun e => e.1 / 64 == c
    let work := qs.flatMap fun e => e.2.started.map fun d => (e.1 % 64, e.2.eng, d)
    let convoys := work.filter fun w => match w.2.2.convoy.bind s.convoy? with
      | some v => v.st == .active
      | none => false
    let s := s.setCtx c fun x =>
      { x with
        st := .resetting, resetCause := cause, resetStart := s.time.mono, resetFrom := s.time.mono, resetWho := who
        removed := work.length, aborted := convoys.length, releasing := rel
        resetEngs := (work.map fun w => w.2.1).eraseDups }
    let s := s.mapQueues c fun u => if u.st = .unbound then u else { u with st := .resetting, saved := none }
    let s := work.foldl (fun s w => (s.haltDesc c w.1 w.2.2 7 none).removeDesc c w.1 w.2.2) s
    let s := qs.foldl (fun s e => s.reapQueue c (e.1 % 64)) s
    (s.closeTags c (if rel then 3 else 2)).jobSweep

/-! ### Engine reset (R409, R410) -/

/-- A sieve run in progress on one of these engines is abandoned without a verdict. -/
def State.dropRuns (s : State) (js : List Nat) : State :=
  let sil := s.silent
  let run := sil.running.map fun (r : Option Nat) => r.filter fun j => !js.contains j
  js.foldl (fun s j => s.setSv j fun e => { e with sieving := false, due := false })
    { s with silent := { sil with running := run } }

def State.queuesOn (s : State) (j : Nat) : List (Nat × Queue) := s.eng.queues.filter fun e => e.2.eng == j
/-- Descriptors started on an engine. -/
def State.startedOn (s : State) (j : Nat) : Nat := ((s.queuesOn j).map fun e => e.2.started.length).foldl (· + ·) 0

/-- Steps 1 to 3 and 5 of R409: everything started on an engine stops; the oldest of each queue keeps its place, to end with
DOMAIN_OFF; a queue with nothing started remembers its state. -/
def State.haltEngine (s : State) (j : Nat) : State :=
  let off : Fail := (3, engDie j, 0)
  (s.queuesOn j).foldl (init := s) fun s e =>
    let c := e.1 / 64
    let q := e.1 % 64
    let s := e.2.started.foldl (fun s x => s.haltDesc c q x 1 (some off)) s
    match e.2.started with
    | [] => s.setQueue c q fun u =>
        if u.st = .resetting || u.st = .unbound then u else { u with saved := some u.st, st := .resetting }
    | x :: rest =>
      let s := rest.foldl (fun s y => s.removeDesc c q y) s
      s.setStarted c q x.index fun y =>
        { y with fail := some off, tiles := [], checks := [], work := true, reqs := 0, maskDue := false, convoy := none }

/-- Step 4: those descriptors complete; Q_HEAD = Q_DONE. -/
def State.closeEngine (s : State) (j : Nat) : State :=
  (s.queuesOn j).foldl (init := s) fun s e =>
    if e.2.started.isEmpty then s
    else (s.commit (e.1 / 64) (e.1 % 64)).setQueue (e.1 / 64) (e.1 % 64) fun u => { u with head := u.done }

/-- Contexts that hold tile groups of some engines. -/
def State.tileHolders (s : State) (js : List Nat) : List Nat :=
  ((s.eng.tileOwner.filter fun e => js.contains (e.1 / 4)).map (·.2)).eraseDups

/-- Step 6: the tiles of the engines are +0 and their flags 0; their holders are told. -/
def State.loseTiles (s : State) (js : List Nat) (unit : Nat) : State :=
  let s := (s.tileHolders js).foldl (fun s c => s.setCtx c fun x => { x with tilesLost := true, lastEngine := unit }) s
  { s with eng := { s.eng with
      tiles := s.eng.tiles.filter (fun e => !js.contains (e.1 / 2048 / 32))
      tileFlags := s.eng.tileFlags.filter (fun e => !js.contains (e.1 / 32)) } }

/-- An engine reset starts; its steps 1 to 6. A pair is reset as one engine, under its even number. A second request joins the
first, and one on a die in reset is absorbed by the die reset (R417). -/
def State.startEngReset (s : State) (j cause : Nat) (who : List Who) : State :=
  let js := s.pairOf j
  let u := js.headD j
  if (s.die (engDie j)).inReset || (s.engine u).st == .resetting then
    s.setEng u fun e => { e with resetWho := e.resetWho ++ who }
  else
    let n := s.startedOn u
    let lost := if j < 64 then (s.tileHolders js).length else 0
    let s := ((s.dropRuns js).haltEngine u).closeEngine u
    let s := if j < 64 then s.loseTiles js u else s
    let s := js.foldl (fun s k => s.setEng k fun e => { e with st := .resetting }) s
    let s := s.setEng u fun e =>
      { e with resetCause := cause, resetStart := s.time.mono, resetWho := who, stopped := n, lostCtxs := lost }
    s.sweepDescs.jobSweep

/-! ### Die reset (R411-R413) -/

/-- Engines of a die. -/
def dieEngines (d : Nat) : List Nat := (List.range 112).filter fun j => engDie j == d

/-- A die reset starts (R411): engines, tiles and tile store, ports, paths and flows; the rest of the sequence is its end. -/
def State.startDieReset (s : State) (d cause : Nat) (who : List Who) : State :=
  if (s.die d).resetStart.isSome then s.setDie d fun x => { x with waiters := x.waiters ++ who }
  else
    let js := dieEngines d
    let n := (js.map s.startedOn).foldl (· + ·) 0
    let s := js.foldl (fun s j => s.haltEngine j) (s.dropRuns js)
    let ports := (List.range 13).filter fun p => (s.portDies p).contains d && (s.port p).st != .down
    let s := s.failTransit d
    let s := ports.foldl (fun s p => s.linkDown p 1) s
    let s := s.setDie d fun x =>
      { x with
        inReset := true, hartsRun := false, resetStart := some s.time.mono, resetCause := cause, resetPorts := ofBits ports
        resetStopped := n, waiters := who }
    let s := js.foldl (fun s j => (s.closeEngine j).setEng j fun e => { e with st := .resetting }) s
    let s := (js.filter (· < 64)).foldl (fun s j => s.loseTiles [j] j) s
    let bit := BitVec.ofNat 4 (2 ^ d)
    let holders := ((s.eng.storeOwner.filter fun e => e.1 / 192 == d).map (·.2)).eraseDups
    let s := holders.foldl (fun s c => s.setCtx c fun x => { x with storeLost := true, storeDies := x.storeDies ||| bit }) s
    let s := (List.range 6).foldl (fun s i => s.setStack (6 * d + i) fun t => { t with selfRefresh := true }) s
    let s := s.setDt d fun t => { t with seen := false, holdover := false, latched := 0 }
    let s := { s with sched := mmapv s.sched fun _ e => { e with armed := e.armed.set d none } }
    ((s.pathCheck.flowsOff d).unstall.sweepDescs).snapsOff d

/-! ### The tile of an ME, and an uncorrectable error in it (R197) -/

/-- ME_TILE_DONE (R367-R371): a tile's accumulation ends; an uncorrectable error in the accumulator tile is a fault of the
engine and starts its reset (cause 3). -/
def execMeTileDone (ctx : Fin 256) (q : Fin 64) (index : BitVec 32) (tile : Nat) (tileUe : Bool) (err1 err2 : List WordFlip)
    (flips : List LineFlip) (s : State) : Host.Outcome State Fault Refusal :=
  s.orWait <|
    match s.tileJob ctx q index tile with
    | none => s
    | some t =>
      if s.waitsOn t.x || t.x.checks.any (·.tile == tile) || !s.roomFor ctx q index then s
      else if tileUe then s.startEngReset t.j 3 []
      else (((s.damages 0 flips).engTouch t.j).meTile ctx q t tile err1 err2).tileCopy ctx q t tile

/-! ### Heartbeats (R400-R402) -/

/-- A started COLLECTIVE or CARAVAN that waits for a peer: nothing of it waits for an acknowledgement but by NOT_READY. -/
def State.collWaits (s : State) (x : Started) : Bool :=
  match x.convoy.bind s.convoy? with
  | some v => v.st == .active && !v.done && (v.tx.isEmpty || v.tx.any (·.ans == 3))
  | none => false

/-- The intervals of R401 that do not count for a queue. -/
def State.exempt (s : State) (u : Queue) : Bool :=
  u.st == .waitSem || (s.engine u.eng).st != .idle || (match u.started with
    | [] => true
    | x :: _ => s.collWaits x || (80 ≤ u.eng && x.reqs != 0) ||
        (!x.checks.isEmpty && x.tiles.all fun t => x.checks.any (·.tile == t)))

/-- One queue at a check: the beats its engine has counted since the last one, then a run stall or a wait stall. -/
def State.checkQueue (s : State) (die c q n : Nat) : State :=
  match s.queue? c q with
  | none => s
  | some u0 =>
    if u0.st = .unbound || u0.st = .resetting then s
    else
      let ex := s.exempt u0
      let now := s.time.mono
      let coll := (match u0.started with | x :: _ => s.collWaits x | [] => false)
      let beat := n != 0 && !u0.started.isEmpty && !ex
      let u := { u0 with
        beats := if beat then u0.beats + BitVec.ofNat 32 n else u0.beats
        beatAt := if beat || ex then now else u0.beatAt
        waitSince := if coll then some (u0.waitSince.getD now) else if u0.st = .waitSem then u0.waitSince else none
        stalled := u0.stalled && (coll || u0.st == .waitSem) }
      let s := s.setQueue c q fun _ => u
      let cx := s.ctx c
      let src := srcDieUnit die 64
      match u.started, u.waitSince with
      | x :: _, none =>
        if !ex && u.beatAt + cx.runLimit * 1000000 ≤ now then
          (s.log 0x0701 4 src [c, q, x.index.toNat, u.eng, (now - u.beatAt) / 1000000, cx.runLimit]).startEngReset u.eng 2 []
        else s
      | l, some t =>
        if cx.waitLimit = 0 || u.stalled || now < t + cx.waitLimit * 1000000000 then s
        else
          let (ix, d) := match l with
            | x :: _ => (x.index, x.d)
            | [] => (u.head, match s.fetchDesc c u with | .ok p => p.1 | .error _ => [])
          let s := if cx.waitAction then
              s.faultRecord c { kind := 3, status := 0, queue := q, engine := u.eng, index := ix, detail := 0, addr := 0, d := d }
            else s
          let s := (s.setQueue c q fun u => { u with stalled := true }).setCtx c fun x => { x with stalled := true }
          let s := s.log 0x0702 3 src [c, q, ix.toNat, b2n coll, (now - t) / 1000000000, b2n cx.waitAction]
          if cx.waitAction then s.startCtxReset c 2 [] else s
      | _, _ => s

/-- HEARTBEAT_CHECK (R400-R402): the context manager of a die looks at the queues bound to its engines. Beats for cycles of
progress since the last check come with the command, by 64 × context + queue (log 23). -/
def execHeartbeatCheck (die : Fin 4) (beats : List (Nat × Nat)) (s : State) : Host.Outcome State Fault Refusal :=
  .next <|
    if (s.die die).inReset then s
    else
      (s.eng.queues.filter fun e => engDie e.2.eng == die.val).foldl (fun s e =>
        s.checkQueue die (e.1 / 64) (e.1 % 64) ((beats.lookup e.1).getD 0)) s

/-! ### Commands (0x07xx) -/

/-- An engine named by kind and number: its j of R377. -/
def engArg (w : Nat) : Option Nat :=
  let n := bitsOf w 15 8
  if bitsOf w 7 2 != 0 || bitsOf w 31 16 != 0 then none
  else match bitsOf w 1 0 with
    | 0 => if n < 64 then some n else none
    | 1 => if n < 16 then some (64 + n) else none
    | 2 => if n < 32 then some (80 + n) else none
    | _ => none

/-- ContextReset (R406). A FREE context has nothing to reset: NO_SUCH (log 22). -/
def dContextReset : DaridDef where
  op := 0x0701
  senders := [.c, .m, .f]
  own := ownCtx
  len := (· == 1)
  bad _ a := badWord [ctxWord a]
  body s w a :=
    if (s.ctx (arg a 0)).st = .free then .no s dNoSuch
    else { s := s.startCtxReset (arg a 0) 1 [w], status := dPending }

/-- ContextRelease (R502). -/
def dContextRelease : DaridDef where
  op := 0x0202
  senders := [.m, .f]
  len := (· == 1)
  bad _ a := badWord [ctxWord a]
  body s w a :=
    if (s.ctx (arg a 0)).st = .free then .no s dNoSuch
    else { s := s.startCtxReset (arg a 0) 3 [w], status := dPending }

/-- EngineReset (R409). -/
def dEngineReset : DaridDef where
  op := 0x0702
  senders := [.m, .f]
  len := (· == 1)
  bad _ a := badWord [(0, (engArg (arg a 0)).isSome)]
  body s w a := { s := s.startEngReset ((engArg (arg a 0)).getD 0) 1 [w], status := dPending }

/-- DieReset (R411). A die that is off outside a die reset cannot be reset: BAD_STATE (log 22). -/
def dDieReset : DaridDef where
  op := 0x0703
  senders := [.m, .f]
  len := (· == 1)
  bad _ a := badWord [(0, arg a 0 < 4)]
  body s w a :=
    let x := s.die (arg a 0)
    if x.inReset && x.resetStart.isNone then .no s dBadState
    else { s := s.startDieReset (arg a 0) 1 [w], status := dPending }

/-- FaultRecordRead (R404). -/
def dFaultRecordRead : DaridDef where
  op := 0x0706
  senders := [.c, .m, .f]
  own := ownCtx
  changes := false
  len := (· == 1)
  bad _ a := badWord [ctxWord a]
  body s _ a :=
    let r := (s.ctx (arg a 0)).faultRec.map (·.toNat)
    if bitsOf (r.getD 0 0) 11 8 = 0 then .no s dNoSuch else { s := s, words := r }

def execContextReset (r : DReq) (s : State) : Host.Outcome State Fault Refusal := .next (runDarid dContextReset r s)
def execContextRelease (r : DReq) (s : State) : Host.Outcome State Fault Refusal := .next (runDarid dContextRelease r s)
def execEngineReset (r : DReq) (s : State) : Host.Outcome State Fault Refusal := .next (runDarid dEngineReset r s)
def execDieReset (r : DReq) (s : State) : Host.Outcome State Fault Refusal := .next (runDarid dDieReset r s)
def execFaultRecordRead (r : DReq) (s : State) : Host.Outcome State Fault Refusal := .next (runDarid dFaultRecordRead r s)

end Sys2Proof.Machine
end

