-- ==== Sys2Proof/Machine/Silent.lean ====
section
/-! DEFINITION. Sieve runs, the tally and their commands (chapter 12). ABFT, the checker and suspicion stand with the
matrix engine; write maps with the engines' writes. -/

namespace Sys2Proof.Machine

/-- The active CTD releases the host cores (R43, R203, R387): the module ID is locked, every die whose region is not FAILED is
initialised, and every engine has run the pack since power-on. A die in reset stays held. -/
def State.releaseHarts (s : State) : State :=
  let ready := s.serving.isSome && s.idLocked && ((List.range 4).all fun d => (s.memDie d).initDone || s.regionFailed d) &&
    s.silent.engs.all fun e => !e.2.afterReset
  if ready then { s with dies := s.dies.map fun x => if x.inReset then x else { x with hartsRun := true } } else s

/-! ### The verdict of a run (R377-R380) -/

/-- An engine goes OUT_OF_SERVICE; its reset follows unless the run was that of a reset. Cause: 1 deterministic, 2 third
strike. -/
def State.outOfService (s : State) (u cause : Nat) (inReset : Bool) : State :=
  let js := s.pairOf u
  let s := js.foldl (fun s j => s.setSv j fun e =>
    { e with st := .outOfService, resetSince := false, due := false, immediate := false }) s
  let s := s.log 0x0506 6 (srcDieUnit (engDie u) (engUnit u))
    ([u, cause, (s.queuesOn u).length, (s.sv u).runPack] ++ lohi (stepNum s.time.step))
  if inReset then s else s.startEngReset u 4 []

/-- A clean run of one engine in probation, or one that follows a suspicion, or another (R377, R379). -/
def State.cleanRun (s : State) (j : Nat) (imm : Bool) : State :=
  s.setSv j fun e =>
    let e := { e with cleanStep := s.time.step, cleanPod := if (s.dt (engDie j)).seen then s.diePodStamp (engDie j) else s.podStamp }
    let e := if e.suspect then e else { e with regions := [], storeDies := 0, remoteCnt := 0, remoteTo := none, ctxs := [] }
    if imm then { e with st := .probation, cleanRuns := 0 }
    else match e.st with
      | .outOfService => { e with st := .probation, cleanRuns := 0, strikes := 0 }
      | .probation =>
        if e.cleanRuns + 1 < 16 then { e with cleanRuns := e.cleanRuns + 1 }
        else { e with st := .inService, suspect := false, strikes := 0, cleanRuns := 16 }
      | .inService => e

/-- One failed pattern. -/
def State.sieveFail (s : State) (u : Nat) (p : PatternResult) : State :=
  let s := (s.pairOf u).foldl (fun s j => s.setSv j fun e => { e with fails := satAdd 0xFFFF e.fails 1 }) s
  s.log 0x0505 4 (srcDieUnit (engDie u) (engUnit u))
    ([u, (s.sv u).runPack, p.pattern, p.sigId, b2n (p.rerun1 || p.rerun2), b2n p.rerun1 + b2n p.rerun2] ++
      lohi (stepNum s.time.step))

/-- The state of an engine or pair follows from the failures of a run (R379). `imm`: the run follows a suspicion. -/
def State.verdict (s : State) (u : Nat) (patterns : List PatternResult) (imm inReset : Bool) : State :=
  let js := s.pairOf u
  let bad := patterns.filter (·.fail)
  let det := bad.any fun p => p.rerun1 || p.rerun2
  let s := bad.foldl (fun s p => s.sieveFail u p) s
  let s := js.foldl (fun s j => s.setSv j fun e =>
    { e with
      sieving := false, runImmediate := false, afterReset := false, runVersion := e.runPack, failPattern := (bad.head?.map (·.pattern)).getD 0
      lastFailed := !bad.isEmpty, determ := det, lastStep := stepNum s.time.step, lastMono := s.time.mono }) s
  if det then s.outOfService u 1 inReset
  else
    let s := if bad.isEmpty then
        let old := (s.sv u).st
        let s := js.foldl (fun s j => s.cleanRun j imm) s
        if old = .probation && (s.sv u).st = .inService then
          s.log 0x0507 2 (srcDieUnit (engDie u) (engUnit u)) ([u, (s.sv u).cleanRuns] ++ lohi (stepNum s.time.step))
        else s
      else
        -- the run that found the failure counts as the immediate run
        let was := (s.sv u).immediate
        let due := (s.sv u).due
        -- an engine OUT_OF_SERVICE leaves that state by a passing run alone (R377, R387)
        js.foldl (fun s j => s.setSv j fun e =>
            { e with st := if e.st = .outOfService then .outOfService else .probation, cleanRuns := 0, immediate := was, due := due })
          (s.suspect u 3)
    if (imm || !bad.isEmpty) && 3 ≤ (s.sv u).strikes && (s.sv u).st != .outOfService then s.outOfService u 2 inReset else s

/-- SieveRunNow commands are answered: 0 pass, 1 fail. -/
def State.answerRuns (s : State) (u : Nat) (patterns : List PatternResult) : State :=
  let l := (s.sv u).waiters
  (s.setSv u fun e => { e with waiters := [] }).finishAll l dOk 0 [b2n (patterns.any (·.fail))]

/-! ### Slots and runs (R383-R387) -/

/-- SIEVING: a run is in progress or waits. -/
def SvEng.busy (e : SvEng) : Bool := e.sieving || e.due

/-- A rotation or catch-up slot on a die at a STEP number (R385): the engines that meet a condition are due. -/
def State.sieveSlot (s : State) (die stepNo : Nat) (ageOnly : Bool) : State :=
  if !s.silent.packValid then s
  else
    let p := if s.silent.tallySt = 0 then s.silent.period else s.silent.probPeriod
    let pp := s.silent.probPeriod
    let hit := fun (j : Nat) =>
      let e := s.sv j
      e.st != .outOfService && (s.engine j).st == .idle && !e.sieving && (s.pairOf j).headD j == j &&
        ((!ageOnly && (j % p == stepNo % p || (e.st == .probation && j % pp == stepNo % pp))) ||
          (stepNo + 2 ^ 48 - e.lastStep) % 2 ^ 48 ≥ p || e.lastMono + 60000000000 ≤ s.time.mono)
    ((dieEngines die).filter hit).foldl (fun s j => s.setSv j fun e => { e with due := true }) s

/-- The one engine an entry with ROTATION = 0 names. -/
def State.sieveOne (s : State) (j : Nat) : State :=
  let u := (s.pairOf j).headD j
  if !s.silent.packValid || (s.sv u).st == .outOfService || (s.engine u).st != .idle || (s.sv u).sieving then s
  else s.setSv u fun e => { e with due := true }

/-- A due engine may start its run now: the first in ascending j of its die, with no run in progress there (R383). -/
def State.mayRun (s : State) (j : Nat) : Bool :=
  let d := engDie j
  let ok := fun (k : Nat) => (s.sv k).due && (s.engine k).st == .idle && (s.pairOf k).headD k == k
  s.silent.packValid && !(s.die d).inReset && (s.silent.running.getD d none).isNone &&
    ok j && (dieEngines d).all fun k => k ≥ j || !ok k

/-- SIEVE_RUN_START (R386). -/
def execSieveRunStart (eng : Fin 112) (s : State) : Host.Outcome State Fault Refusal :=
  .next <|
    let u := eng.val
    if !s.mayRun u then s
    else
      let s := (s.pairOf u).foldl (fun s j => (s.setSv j fun e =>
        { e with sieving := true, due := false, runImmediate := e.immediate, immediate := false, runPack := s.silent.version }).setEng
          j fun e => { e with st := .sieve }) s
      { s with silent := { s.silent with running := s.silent.running.set (engDie u) (some u) } }

/-- SIEVE_RUN_END (R379): the engine takes work again, in the state its failures give it. -/
def execSieveRunEnd (eng : Fin 112) (patterns : List PatternResult) (s : State) : Host.Outcome State Fault Refusal :=
  .next <|
    let u := eng.val
    if s.silent.running.getD (engDie u) none != some u then s
    else
      let imm := (s.sv u).runImmediate
      let s := { s with silent := { s.silent with running := s.silent.running.set (engDie u) none } }
      let s := (s.pairOf u).foldl (fun s j => s.setEng j fun e => { e with st := .idle }) s
      let s := (s.queuesOn u).foldl (fun s e => s.setQueue (e.1 / 64) (e.1 % 64) fun q => { q with beatAt := s.time.mono }) s
      ((s.verdict u patterns imm false).answerRuns u patterns).releaseHarts

/-- SIEVE_AGE_CHECK (R384): before POD is valid, the age conditions on every die, once per second of MONO. -/
def execSieveAgeCheck (s : State) : Host.Outcome State Fault Refusal :=
  .next <|
    if s.time.podValid || s.time.mono < s.silent.lastAge + 1000000000 then s
    else
      let s := { s with silent := { s.silent with lastAge := s.time.mono } }
      (List.range 4).foldl (fun s d => s.sieveSlot d (stepNum s.time.step) true) s

/-- TALLY_DECAY (R392, R393): every hour of MONO the tally T becomes T − ⌈T/32⌉. -/
def execTallyDecay (s : State) : Host.Outcome State Fault Refusal :=
  .next <|
    if s.time.mono < s.silent.lastDecay + 3600000000000 then s
    else
      let t := s.silent.tally - cdiv s.silent.tally 32
      let old := s.silent.tallySt
      let st := tallyNext old t
      let s := { s with silent := { s.silent with tally := t, tallySt := st, lastDecay := s.time.mono } }
      if st = old then s else s.logFw 0x0508 4 [old, st, t, s.silent.lastInput]

/-! ### The sieve pack (R381, R382) -/

/-- A staged object of n bytes, bytes not written reading 0 (R334). -/
def State.stagedBytes (s : State) (n : Nat) : List Byte := (List.range n).map (cellGet s.mbox.stage.bytes)

/-- One directory entry of a pack is well formed. -/
def packEntry (b : List Byte) (count length : Nat) (e : List Byte) : Bool :=
  let off := fieldAt e 4 4
  let descs := fieldAt e 8 4
  let load := fieldAt e 12 4
  fieldAt e 0 1 ≤ 2 && fieldAt e 1 1 == 0 && off % 64 == 0 && 0x40 + 64 * count ≤ off && 1 ≤ descs && descs ≤ 1024 &&
    off + 128 * descs + load ≤ length && load ≤ 2 ^ 22 && fieldAt e 16 4 + fieldAt e 20 4 ≤ 2 ^ 22 && fieldAt e 28 4 == 0 &&
    length ≤ b.length

/-- The status a pack ends with under R381 and R382, above a version already committed. -/
def State.packCheck (s : State) (b : List Byte) (committed : Nat) : Nat :=
  let length := fieldAt b 16 4
  let count := fieldAt b 12 4
  if length + 384 > 2 ^ 22 || !Config.rsaVerify (Config.fusedKey 2) (b.take length) ((b.drop length).take 384) then dBadSig
  else if fieldAt b 8 4 ≤ committed then dRollback
  else
    let dir := (List.range count).map fun i => (b.drop (0x40 + 64 * i)).take 64
    let us := fun (k : Nat) => ((dir.filter fun e => fieldAt e 0 1 == k).map fun e => fieldAt e 24 4).foldl (· + ·) 0
    let revs := s.fuse.dieInv.all fun d => bitOf (fieldAt b 6 2) d.rev
    if fieldAt b 0 4 == 0x56454953 && fieldAt b 4 2 == 1 && revs && 1 ≤ count && count ≤ 4096 && length % 64 == 0 &&
        ((b.drop 0x14).take 44).all (· == 0) && dir.all (packEntry b count length) &&
        [0, 1, 2].all (fun k => us k ≤ 5000)
    then dOk else dBadArg

/-- The committed pack in use: version and number of patterns; suspects start their immediate runs when there was none. -/
def State.usePack (s : State) (b : List Byte) : State :=
  let had := s.silent.packValid
  let s := { s with silent := { s.silent with version := fieldAt b 8 4, patterns := fieldAt b 12 4, packValid := true } }
  if had then s
  else { s with silent := { s.silent with engs := mmapv s.silent.engs fun _ e =>
    if e.suspect && e.st != .outOfService then { e with due := true, immediate := true } else e } }

/-- A committed pack is in flash: logged and used from the next run. -/
def State.packCommitted (s : State) (w : Option Who) (b : List Byte) : State :=
  let old := s.silent.version
  let nv := { s.ctd.nv with pack := b, packVersion := fieldAt b 8 4 }
  let s := ({ s with ctd := { s.ctd with nv := nv } }).usePack b
  let s := s.logFw 0x0509 3 [old, s.silent.version, s.silent.patterns]
  match w with
  | some w => s.finish w dOk 0 [s.silent.version]
  | none => s

/-- SievePackCommit (R382, R334): a commit consumes the staging area. -/
def dSievePackCommit : DaridDef where
  op := 0x0501
  senders := [.m]
  len := (· == 0)
  body s w _ :=
    let g := s.mbox.stage
    if g.target != some 3 then .no s dNoSuch
    else if g.job.isSome then .no s dBusy
    else
      let b := s.stagedBytes (2 ^ 22)
      let st := s.packCheck b s.ctd.nv.packVersion
      let clear := fun (j : Option (Option Who × Nat × List Byte)) (s : State) =>
        { s with mbox := { s.mbox with stage := { job := j } } }
      if st = dOk then { s := clear (some (some w, 3, b.take (fieldAt b 16 4 + 384))) s, status := dPending }
      else .no (clear none s) st

/-! ### Commands (0x05xx) -/

def dSievePolicy : DaridDef where
  op := 0x0502
  senders := [.m, .f]
  len := (· == 3)
  bad _ a := badWord [(0, 1 ≤ arg a 0 && arg a 0 ≤ 1024), (1, 1 ≤ arg a 1 && arg a 1 ≤ arg a 0), (2, 4 ≤ arg a 2 && arg a 2 ≤ 16)]
  body s _ a :=
    { s := { s with silent := { s.silent with period := arg a 0, probPeriod := arg a 1, checkExp := arg a 2 } } }

/-- SieveRunNow (R382). -/
def dSieveRunNow : DaridDef where
  op := 0x0503
  senders := [.m, .f]
  len := (· == 1)
  bad _ a := badWord [(0, (engArg (arg a 0)).isSome)]
  body s w a :=
    let j := (engArg (arg a 0)).getD 0
    let u := (s.pairOf j).headD j
    let e := s.sv u
    if e.busy || (e.st == .outOfService && !e.resetSince) || !s.silent.packValid then .no s dBadState
    else { s := s.setSv u fun e => { e with due := true, waiters := e.waiters ++ [w] }, status := dPending }

/-- ENG_STATUS of an engine: the odd half of a pair mirrors the even one. -/
def State.engStatus (s : State) (j : Nat) : Nat :=
  let u := (s.pairOf j).headD j
  let cur := (s.queuesOn u).find? fun e => !e.2.started.isEmpty
  let st := match (s.engine u).st with
    | .sieve => 2
    | .resetting => 3
    | .idle => if cur.isSome then 1 else 0
  let k := match cur with | some e => if st = 1 then e.1 else 0 | none => 0
  st + 4 * b2n (s.engine j).twin + 8 * b2n (s.sv j).suspect + 2 ^ 8 * (k / 64) + 2 ^ 16 * (k % 64)

def dSieveQuery : DaridDef where
  op := 0x0504
  senders := [.c, .m, .f]
  changes := false
  len := (· == 1)
  bad _ a := badWord [(0, (engArg (arg a 0)).isSome)]
  body s _ a :=
    let j := (engArg (arg a 0)).getD 0
    { s := s, words := lohi (s.sv j).cleanStep.toNat ++ [s.engStatus j] }

/-- TaintRead (R391): words of the taint map. -/
def dTaintRead : DaridDef where
  op := 0x0505
  senders := [.c, .m, .f]
  own := ownCtx
  changes := false
  len := (· == 3)
  bad _ a := badWord [ctxWord a, (1, arg a 1 < 720), (2, 1 ≤ arg a 2 && arg a 1 + arg a 2 ≤ 720)]
  body s _ a :=
    let t := (s.ctx (arg a 0)).taint
    { s := s, words := (List.range (arg a 2)).map fun i =>
        ofBits ((List.range 32).filter fun b => t.contains (32 * (arg a 1 + i) + b)) }

def dTaintClear : DaridDef where
  op := 0x0506
  senders := [.c, .m, .f]
  own := ownCtx
  len := (· == 1)
  bad _ a := badWord [ctxWord a]
  body s _ a :=
    { s := s.setCtx (arg a 0) fun x => { x with taint := [], taintDies := 0, taintRemote := none, taintWrites := 0 } }

def dTallyQuery : DaridDef where
  op := 0x0507
  senders := [.c, .m, .f]
  changes := false
  len := (· == 0)
  body s _ _ := { s := s, words := [s.silent.tally, s.silent.tallySt] }

def execSievePackCommit (r : DReq) (s : State) : Host.Outcome State Fault Refusal := .next (runDarid dSievePackCommit r s)
def execSievePolicy (r : DReq) (s : State) : Host.Outcome State Fault Refusal := .next (runDarid dSievePolicy r s)
def execSieveRunNow (r : DReq) (s : State) : Host.Outcome State Fault Refusal := .next (runDarid dSieveRunNow r s)
def execSieveQuery (r : DReq) (s : State) : Host.Outcome State Fault Refusal := .next (runDarid dSieveQuery r s)
def execTaintRead (r : DReq) (s : State) : Host.Outcome State Fault Refusal := .next (runDarid dTaintRead r s)
def execTaintClear (r : DReq) (s : State) : Host.Outcome State Fault Refusal := .next (runDarid dTaintClear r s)
def execTallyQuery (r : DReq) (s : State) : Host.Outcome State Fault Refusal := .next (runDarid dTallyQuery r s)

end Sys2Proof.Machine
end

