-- ==== Sys2Proof/Machine/ResetEnds.lean ====
section
/-! DEFINITION. The ends of context, engine and die resets, and of a context release (chapter 13). -/

namespace Sys2Proof.Machine

/-! ### Context reset and release (R406-R408, R502) -/

/-- A context reset still waits: an engine or die on which it stopped descriptors is being reset (R417). -/
def State.resetWaits (s : State) (c : Nat) : Bool :=
  (s.ctx c).resetEngs.any fun j => (s.engine j).st == .resetting || (s.die (engDie j)).inReset

/-- A queue after a context reset (R407): IDLE with Q_HEAD = Q_TAIL = Q_DONE; on an engine that is being reset, once that has
ended. -/
def rewindQueue (busy : Bool) (u : Queue) : Queue :=
  let u := { u with head := u.done, tail := u.done, waitSince := none, stalled := false }
  if busy then { u with saved := some .idle } else { u with st := .idle }

/-- The tiles of the groups a context holds are +0, their flags clear (R406). -/
def State.zeroGroups (s : State) (c : Nat) : State :=
  let mine := fun (k : Nat) => s.eng.tileOwner.lookup k == some c
  { s with eng := { s.eng with
      tiles := s.eng.tiles.filter (fun e => !mine (e.1 / 16384))
      tileFlags := s.eng.tileFlags.filter (fun e => !mine (e.1 / 8)) } }

/-- Source of CONTEXT_RESET_DONE: the active CTD at step 9 of R406, the context manager of die 0 in a gap (R417; log 52). -/
def State.srcResetDone (s : State) : Nat := if s.serving.isSome then srcFw s else srcDieUnit 0 64

/-- CONTEXT_RESET_DONE (R406, R407): tiles cleared, the stash pass ended, queues rewound, the context ACTIVE. -/
def execContextResetDone (ctx : Fin 256) (s : State) : Host.Outcome State Fault Refusal :=
  .next <|
    let c := ctx.val
    let x := s.ctx c
    if x.st != .resetting || x.releasing || s.resetWaits c then s
    else
      let n := (s.eng.queues.filter fun e => e.1 / 64 == c && e.2.st != .unbound && e.2.tail != e.2.done).length
      let s := s.zeroGroups c
      let qs := mmapv s.eng.queues fun k u =>
        if k / 64 = c && u.st != .unbound then rewindQueue ((s.engine u.eng).st == .resetting) u else u
      let s := { s with eng := { s.eng with queues := qs } }
      let s := s.setStash c fun t => if t.st = .none then { t with ended := false } else { t.clear with st := .idle, pending := false, ended := false }
      let s := s.setCtx c fun x => { x with st := .active, resetWho := [], resetEngs := [] }
      let s := s.log 0x0202 3 s.srcResetDone
        [c, x.resetCause, x.removed, x.aborted, n, (s.time.mono - x.resetStart) / 1000]
      (s.finishAll x.resetWho dOk 0 []).jobSweep

/-- Step 3 of R502: everything a context holds returns to the module's pools. -/
def State.freeContext (s : State) (c : Nat) : State :=
  let s := s.zeroGroups c
  let keep := fun (m : SMap Nat) => m.filter fun e => e.2 != c
  let pairs := (List.range 32).filter fun i =>
    (s.engine (2 * i)).twin && (List.range 8).any fun g => s.eng.tileOwner.lookup (8 * i + g) == some c
  let s := pairs.foldl (fun s i =>
    (s.setEng (2 * i) fun e => { e with twin := false }).setEng (2 * i + 1) fun e => { e with twin := false }) s
  let e := s.eng
  let eng : EngTables :=
    { e with
      queues := e.queues.filter (fun k => k.1 / 64 != c), tileOwner := keep e.tileOwner, semOwner := keep e.semOwner
      tagOwner := keep e.tagOwner, streamOwner := keep e.streamOwner, storeOwner := keep e.storeOwner, hartCtx := keep e.hartCtx
      ctxs := mput e.ctxs c { faultRec := (s.ctx c).faultRec } }
  let watches := s.obs.watches.filter fun k => k.1 / 2 ^ 32 != c
  let s := s.cellarRelease c
  { s with
    eng := eng, sched := s.sched.filter fun k => k.1 < 128 || k.2.ctx != c
    obs := { s.obs with watches := watches }
    fab := { s.fab with barriers := s.fab.barriers.filter fun b => b.2.ctx != c } }

/-- CONTEXT_RELEASE_DONE (R502): what a context held is given back, and it is FREE. Records that wait for a die's memory are
written first. -/
def execContextReleaseDone (ctx : Fin 256) (s : State) : Host.Outcome State Fault Refusal :=
  .next <|
    let c := ctx.val
    let x := s.ctx c
    let owes := s.eng.queues.any fun e => e.1 / 64 == c && !e.2.owedRecs.isEmpty
    if x.st != .resetting || !x.releasing || owes || s.resetWaits c then s
    else
      let n := (s.eng.queues.filter fun e => e.1 / 64 == c && e.2.st != .unbound && e.2.tail != e.2.done).length
      let s := (s.freeContext c).log 0x0202 3 s.srcResetDone
        [c, 3, x.removed, x.aborted, n, (s.time.mono - x.resetStart) / 1000]
      (s.finishAll x.resetWho dOk 0 []).jobSweep

/-! ### Engine reset (R409) -/

/-- Number of a service state. -/
def Service.code : Service → Nat
  | .inService => 0
  | .probation => 1
  | .outOfService => 2

/-- A queue whose engine or die works again: one without a stopped descriptor has the state it had, unless its context has
since been FAULTED or FENCED. -/
def State.restoreQueue (s : State) (key : Nat) : State :=
  let c := key / 64
  let cs := (s.ctx c).st
  s.setQueue c (key % 64) fun u =>
    match u.saved with
    | none => u
    | some st =>
      { u with
        saved := none, beatAt := s.time.mono
        st := if cs = .faulted then .faulted else if cs = .fenced then .fenced else if cs = .resetting then .resetting else st }

/-- The sieve run of a reset (R387): on an engine not OUT_OF_SERVICE while a pack is valid. -/
def State.resetRun (s : State) (u : Nat) (patterns : List PatternResult) : State :=
  let e := s.sv u
  if e.st = .outOfService || !s.silent.packValid then
    (s.pairOf u).foldl (fun s j => s.setSv j fun e => { e with due := e.immediate || !e.waiters.isEmpty }) s
  else
    let s := (s.pairOf u).foldl (fun s j => s.setSv j fun e =>
      { e with runPack := s.silent.version, immediate := false, due := false }) s
    (s.verdict u patterns e.immediate true).answerRuns u patterns

/-- An engine takes work again after a reset; the commands that wait are answered. -/
def State.engineBack (s : State) (u : Nat) : State :=
  let e := s.engine u
  let byCmd := e.resetCause == 1 || !e.resetWho.isEmpty
  let s := (s.pairOf u).foldl (fun s j => (s.setEng j fun x =>
    { x with st := .idle, resetCause := 0, resetStart := 0, resetWho := [], stopped := 0, lostCtxs := 0 }).setSv j fun v =>
      { v with resetSince := v.resetSince || byCmd }) s
  let s := (s.queuesOn u).foldl (fun s q => s.restoreQueue q.1) s
  let now := s.time.mono
  let upd : Nat → Ctx → Ctx := fun _ x =>
    if x.st == .resetting && x.resetEngs.contains u then { x with resetFrom := now } else x
  let cs := mmapv s.eng.ctxs upd
  let s := { s with eng := { s.eng with ctxs := cs } }
  s.finishAll e.resetWho (if (s.sv u).st = .outOfService then dBadState else dOk) 0 []

/-- ENGINE_RESET_END (R409 step 7). -/
def execEngineResetEnd (eng : Fin 112) (patterns : List PatternResult) (s : State) : Host.Outcome State Fault Refusal :=
  .next <|
    let u := eng.val
    let e := s.engine u
    if e.st != .resetting || (s.die (engDie u)).inReset || (s.pairOf u).headD u != u then s
    else
      let ran := (s.sv u).st != .outOfService && s.silent.packValid
      let s := s.resetRun u patterns
      let s := s.log 0x0703 4 (srcDieUnit (engDie u) (engUnit u))
        [u, e.resetCause, e.stopped, e.lostCtxs, b2n (ran && patterns.any (·.fail)), (s.sv u).st.code,
         (s.time.mono - e.resetStart) / 1000]
      (s.engineBack u).jobSweep

/-! ### Die reset (R411-R413) -/

/-- What a reset of the compute die leaves of its ports' registers (R248). -/
def portCold (x : PortSt) : PortSt :=
  { x with
    fecCorr := 0, fecUncorr := 0, crcErr := 0, replays := 0, retrains := 0, linkDowns := 0, identFail := 0, dataSent := 0
    coord := 0, peerPort := 0, revMax := 0, revMin := 0, fw := 0, serial := 0, media := false, level := 0 }

/-- Registers of a die at their reset values: memory controller (MEM_CTRL is restored, scrub keeps its position), counters,
fabric, engines, ports; the tile store reads as zeros. Which events firmware selects for its counters 0-255 (R351) the spec does not say: the
model's selects none (DESIGN CHOICE, log 65). -/
def State.coldDie (s : State) (d : Nat) : State :=
  let s := s.setMemDie d fun m =>
    { scrubH := m.scrubH, ceStorm := m.ceStorm, initDone := m.initDone, scrubLine := m.scrubLine
      passCorr := m.passCorr, passHusks := m.passHusks }
  let s := (List.range 6).foldl (fun s i => s.setStack (6 * d + i) fun t =>
    { t with ce := 0, ue := 0, linkCe := 0, linkRetry := 0, limited := false, tempC := 0 }) s
  let s := { s with obs := { s.obs with dies := s.obs.dies.set d {} } }
  let s := (s.setWg d fun _ => {}).setDie d fun x => { x with txHigh := 0, txStall := 0 }
  let s := (dieEngines d).foldl (fun s j => s.setEng j fun e =>
    { e with rr := none, abftTransient := 0, abftPersistent := 0, unchecked := 0, chkRuns := 0, unordCnt := 0 }) s
  let s := ((List.range 13).filter fun p => portDie p == d).foldl (fun s p => s.setPort p portCold) s
  s.setStore fun m =>
    { cells := m.cells.filter (fun e => e.1 / storeSize != d), husks := m.husks.filter (fun k => k * 32 / storeSize != d) }

/-- Completion records that waited for a die's memory are written (R412). -/
def State.writeOwed (s : State) (d : Nat) : State :=
  let ks := (s.eng.queues.filter fun e => !e.2.owedRecs.isEmpty).map fun e => (e.1, e.2.eng, e.2.owedRecs)
  ks.foldl (fun s k =>
    let (now, later) := k.2.2.partition fun r => dieOf r.1 == d
    let s := s.setQueue (k.1 / 64) (k.1 % 64) fun u => { u with owedRecs := later }
    now.foldl (fun s r => s.putRecord (k.1 / 64) (k.1 % 64) k.2.1 r.1 r.2) s) s

/-- The modified lines of a die's caches that were not written back within 20 ms are lost, without a husk: what memory holds for
them is older and not known (R412). The others were written back. Their number follows. -/
def State.loseLines (s : State) (d : Nat) (lost : List Nat) : State × Nat :=
  let mine := lost.filter fun l => s.mem.modified.lookup l == some d
  let s := mine.foldl (fun s l =>
    let (v, s) := s.draw 512
    s.setMem fun m => m.write (64 * l) (leBytes 64 v.toNat) []) s
  ({ s with mem := { s.mem with modified := s.mem.modified.filter fun e => e.2 != d } }, mine.length)

/-- DIE_RESET_END (R411-R413): the rows of the sequence that follow its start; `cacheLost` lists the modified cache lines that were
not written back in time. The die holds at its row while no CTD serves (R417). -/
def execDieResetEnd (die : Fin 4) (patterns : List (Nat × List PatternResult)) (cacheLost : List Nat) (s : State) :
    Host.Outcome State Fault Refusal :=
  .next <|
    let d := die.val
    let x := s.die d
    match x.resetStart, s.serving with
    | some t, some _ =>
      let s := s.setDie d fun x =>
        { x with inReset := false, resetStart := none, resetCause := 0, resetPorts := 0, resetStopped := 0, waiters := [] }
      let (s, linesLost) := (s.coldDie d).loseLines d cacheLost
      let s := (List.range 6).foldl (fun s i => s.setStack (6 * d + i) fun t => { t with selfRefresh := false }) s
      let s := s.setMemDie d fun m => { m with contentKept := true }
      let us := (dieEngines d).filter fun j => (s.pairOf j).headD j == j
      let s := us.foldl (fun s u => (s.resetRun u ((patterns.lookup u).getD [])).engineBack u) s
      let mine := s.eng.semWait.filter fun w => w.1 / 4096 == d
      let s := { s with eng := { s.eng with semWait := s.eng.semWait.filter fun w => w.1 / 4096 != d } }
      let s := mine.foldl (fun s w => s.semAdd w.1 w.2) s
      let s := (s.writeOwed d).releaseHarts.pathCheck
      let s := ((List.range 13).filter fun p => (s.portDies p).contains d).foldl (fun s p => s.train p) s
      let s := s.logFw 0x0704 5
        [d, x.resetCause, (s.time.mono - t) / 1000000, 1, linesLost, x.resetPorts, x.resetStopped]
      (s.finishAll x.waiters dOk 0 []).unstall.sweepDescs.jobSweep
    | _, _ => s

end Sys2Proof.Machine
end

