-- ==== Sys2Proof/Machine/Memory.lean ====
section
/-! DEFINITION. The memory controllers: scrub, training, initialisation, temperature, and MemClear (chapter 06). -/

namespace Sys2Proof.Machine

/-! ### THERM_ALERT_N (R493) -/

/-- A die's power state. -/
def State.pow (s : State) (d : Nat) : PowDie := s.power.dies.getD d {}
def State.setPow (s : State) (d : Nat) (f : PowDie → PowDie) : State := { s with power := { s.power with dies := lmod s.power.dies d f } }

/-- A condition of R493 holds. -/
def State.alertHolds (s : State) : Bool :=
  (List.range 4).any (fun d =>
    let p := s.pow d
    decide ((s.ctd.clamp.tj : Int) * 1000 - 5000 ≤ p.junction) || p.hot || p.neigh || (s.die d).tripped) ||
    s.mem.lpddr.any (·.limited)

/-- The pin follows: asserted at once; the time since which no condition holds is noted. -/
def State.alertCheck (s : State) : State :=
  let p := s.power
  if s.alertHolds then { s with power := { p with alert := true, clearSince := none } }
  else { s with power := { p with clearSince := some (p.clearSince.getD s.time.mono) } }

/-! ### Scrub (R201, R202) -/

/-- Corrections of a stack in this second of MONO. -/
def State.ceNow (s : State) (stack : Nat) : Nat :=
  let x := s.stack stack
  if x.second = s.time.mono / 1000000000 then x.inSecond else 0

/-- One damaged line that the scrub reads, and whether it was corrected. -/
def State.scrubLine (p : State × Nat) (f : LineFlip) : State × Nat :=
  let st := stackOf (64 * f.line)
  let s := p.1.damage 1 f
  (s, p.2 + b2n (p.1.ceNow st < s.ceNow st))

/-- PATROL_SCRUB_STEP (R201, R202): the current raw line of every channel of a die is read, corrected and written back, and the
position goes on. Nothing while scrub is off, while the memory is in self-refresh, or for a FAILED region. -/
def execPatrolScrubStep (die : Fin 4) (flips : List LineFlip) (s : State) : Host.Outcome State Fault Refusal :=
  .next <|
    let d := die.val
    let m := s.memDie d
    if m.scrubH = 0 || !s.regionUp d || (List.range 6).any (fun i => (s.stack (6 * d + i)).selfRefresh) then s
    else
      let hit := fun (f : LineFlip) => f.line < storeLine && dieOf (64 * f.line) == d && dataLine (64 * f.line) == m.scrubLine
      let before := s.mem.main.husks.length
      let (s, n) := (flips.filter hit).foldl State.scrubLine (s, 0)
      let s := s.setMemDie d fun m =>
        { m with
          scrubLine := m.scrubLine + 1, passCorr := m.passCorr + n
          passHusks := m.passHusks + (s.mem.main.husks.length - before) }
      let m := s.memDie d
      if m.scrubLine < 2 ^ 25 then s
      else
        let s := s.setMemDie d fun m =>
          { m with scrubLine := 0, scrubPasses := m.scrubPasses + 1, passCorr := 0, passHusks := 0 }
        s.log 0x1206 1 (srcDieUnit d 65) [d, (m.scrubPasses + 1).toNat, m.passCorr, m.passHusks]

/-! ### Training, initialisation, temperature (R183, R184, R186, R203) -/

/-- MEM_TRAINING_DONE (R183, R184, R205, R206): a stack ends its training at its highest passing rate or FAILED. A stack trains
at power-on, in a reset of its die and in module recovery. -/
def execMemTrainingDone (stack : Fin 24) (best : Fin 4) (s : State) : Host.Outcome State Fault Refusal :=
  .next <|
    let d := stack.val / 6
    let x := s.stack stack
    if !s.power.rails || !((!x.up && x.rate != 3) || s.ctd.lease.recovery || (s.die d).resetStart.isSome) then s
    else
      let s := s.setStack stack fun t => { t with rate := best.val, up := best.val != 3, selfRefresh := t.selfRefresh && best.val != 3 }
      let src := srcDieUnit d 65
      let s := if best.val = 3 then s.log 0x1204 6 src [d, stack, 2]
        else if best.val != x.rate then s.log 0x1203 4 src [d, stack, best, x.rate]
        else s
      s.releaseHarts

/-- MEM_INIT_DONE (R203): a die's usable region is zeros with valid check words. -/
def execMemInitDone (die : Fin 4) (s : State) : Host.Outcome State Fault Refusal :=
  .next <|
    let d := die.val
    if (s.die d).inReset || s.ctd.lease.recovery || (s.memDie d).initDone || !((List.range 6).all fun i => (s.stack (6 * d + i)).up) then s
    else
      let s := s.setMem fun m =>
        { cells := m.cells.filter (fun e => dieOf e.1 != d), husks := m.husks.filter (fun k => dieOf (32 * k) != d) }
      (s.setMemDie d fun m => { m with initDone := true }).releaseHarts

/-- MEM_THERMAL (R186): a stack's temperature report. -/
def execMemThermal (stack : Fin 24) (tempC : BitVec 8) (s : State) : Host.Outcome State Fault Refusal :=
  .next <|
    let d := stack.val / 6
    let t := tempC.toNat
    if (s.die d).inReset then s
    else
      let x := s.stack stack
      let lim := if 95 < t then true else if t ≤ 90 then false else x.limited
      let s := (s.setStack stack fun x => { x with tempC := t, limited := lim }).alertCheck
      if lim = x.limited then s else s.log 0x1208 3 (srcDieUnit d 65) [d, stack, t, b2n lim]

/-! ### MemClear (R332) -/

/-- MemClear units of 2 MiB in a die's usable region. -/
def clearUnits : Nat := regionSize / 2 ^ 21

def dMemClear : DaridDef where
  op := 0x0707
  senders := [.m, .f]
  len := (· == 3)
  bad _ a := badWord [(0, arg a 0 < 4), (1, arg a 1 < clearUnits), (2, 1 ≤ arg a 2 && arg a 1 + arg a 2 ≤ clearUnits)]
  body s w a :=
    let lo := arg a 0 * regionSize + arg a 1 * 2 ^ 21
    let n := arg a 2 * 2 ^ 21
    let used := s.eng.ctxs.any fun e => e.2.st != .free && (s.localWins e.1).any fun v => meets lo n v.1 v.2
    if used then .no s dBadState
    else { s := { s with mem := { s.mem with clears := s.mem.clears ++ [(w, lo, n)] } }, status := dPending }

/-- MEM_CLEAR_DONE: the oldest range reads as zeros, its husks cleared; it waits while the region is off. -/
def execMemClearDone (s : State) : Host.Outcome State Fault Refusal :=
  .next <|
    match s.mem.clears with
    | [] => s
    | (w, lo, n) :: rest =>
      if !s.regionUp (dieOf lo) then s
      else
        let s := { s with mem := { s.mem with clears := rest } }
        let s := s.setMem fun m =>
          { cells := m.cells.filter (fun e => !(lo ≤ e.1 && e.1 < lo + n))
            husks := m.husks.filter (fun k => !(lo ≤ 32 * k && 32 * k < lo + n)) }
        s.finish w dOk 0 []

def execMemClear (r : DReq) (s : State) : Host.Outcome State Fault Refusal := .next (runDarid dMemClear r s)

end Sys2Proof.Machine
end

