-- ==== Sys2Proof/Machine/Observe.lean ====
section
/-! DEFINITION. Counters, freeze cuts, live counters, tensor watch, dumps and digests (chapter 11). -/

namespace Sys2Proof.Machine

/-! ### Counters (R351-R353) -/

/-- An event selection is one of R352: event, instance, context filter. -/
def selOk (d x : Nat) : Bool :=
  let ev := bitsOf x 11 0
  let i := bitsOf x 19 12
  let upTo := fun (n : Nat) => i == 0xFF || i < n
  let inst := match ev with
    | 0 => true
    | 0x001 | 0x060 | 0x061 | 0x090 => i == 0xFF
    | 0x010 | 0x011 | 0x012 | 0x013 | 0x014 => upTo 16
    | 0x020 | 0x021 => upTo 4
    | 0x030 | 0x031 | 0x032 | 0x080 => upTo 8
    | 0x040 | 0x041 | 0x042 | 0x043 => upTo 6
    | 0x050 | 0x051 | 0x052 | 0x053 => i == 0xFF || (i < 13 && portDie i == d)
    | 0x070 => upTo 4
    | _ => false
  inst && bitsOf x 31 29 == 0 && (!bitOf x 28 || (0x010 ≤ ev && ev ≤ 0x03F))

/-- The counter block of a die. -/
def State.counters (s : State) (d : Nat) : Counters := s.obs.dies.getD d {}
def State.setCounters (s : State) (d : Nat) (f : Counters → Counters) : State :=
  { s with obs := { s.obs with dies := lmod s.obs.dies d f } }

/-- CounterSelect (R351): the selection and the cleared counter in one step. -/
def dCounterSelect : DaridDef where
  op := 0x0901
  senders := [.m, .f]
  len := (· == 2)
  bad _ a := badWord [(0, bitsOf (arg a 0) 15 2 == 0 && bitsOf (arg a 0) 31 28 == 0), (1, selOk (bitsOf (arg a 0) 1 0) (arg a 1))]
  body s _ a :=
    let n := bitsOf (arg a 0) 27 16
    if n < 256 then .no s dDenied
    else { s := s.setCounters (bitsOf (arg a 0) 1 0) fun c =>
      { c with sel := mput c.sel n (BitVec.ofNat 32 (arg a 1)), cnt := mdel c.cnt n } }

/-- CounterRead (R357): the bank written last with the stamp of its cut, or current values, whose stamp words are open (log 4). -/
def dCounterRead : DaridDef where
  op := 0x0902
  senders := [.c, .m, .f]
  changes := false
  len := (· == 3)
  bad _ a := badWord [(0, bitsOf (arg a 0) 7 2 == 0 && bitsOf (arg a 0) 31 9 == 0), (1, arg a 1 < 4096),
    (2, 1 ≤ arg a 2 && arg a 2 ≤ 510 && arg a 1 + arg a 2 ≤ 4096)]
  body s _ a :=
    let c := s.counters (bitsOf (arg a 0) 1 0)
    let words := fun (m : SMap Nat) => (List.range (arg a 2)).flatMap fun i => lohi (mget 0 m (arg a 1 + i))
    if bitOf (arg a 0) 8 then
      let (v, s) := s.draw 64
      { s := s, words := lohi v.toNat ++ words c.cnt }
    else
      let b := c.banks.getD c.last {}
      if !b.valid then .no s dNoSuch else { s := s, words := lohi b.pod.toNat ++ words b.cnt }

/-- LiveCounterRead (R353). -/
def dLiveCounterRead : DaridDef where
  op := 0x0903
  senders := [.c, .m, .f]
  changes := false
  len := (· == 2)
  bad _ a := badWord [(0, arg a 0 < 64), (1, 1 ≤ arg a 1 && arg a 0 + arg a 1 ≤ 64)]
  body s _ a := { s := s, words := (List.range (arg a 1)).flatMap fun i => lohi (mget 0 s.obs.live (arg a 0 + i)) }

/-! ### Freeze cuts (R355, R356, R358) -/

/-- WG_PORT_STATUSp.STATE. -/
def PState.code : PState → Nat
  | .down => 0
  | .training => 1
  | .up => 2
  | .quarantine => 3
  | .maintenance => 4
  | .retraining => 5

/-- The link capture of a port (R358). -/
def linkCapture (x : PortSt) : List (BitVec 64) :=
  let cr := fun (i : Nat) => x.credits.getD i 0 % 1024
  [BitVec.ofNat 64 (x.txNext.toNat + x.txAcked.toNat * 2 ^ 16 + x.rxLast.toNat * 2 ^ 32 + x.st.code * 2 ^ 48),
   BitVec.ofNat 64 (((List.range 6).map fun i => cr i * 2 ^ (10 * i)).foldl (· + ·) 0),
   BitVec.ofNat 64 (cr 6 + cr 7 * 2 ^ 10 + x.replay.length % 2 ^ 15 * 2 ^ 20), BitVec.ofNat 64 (x.dataSent % 2 ^ 48)]

/-- A freeze mark fires on a die: a cut, or within 1 ms of the previous one it is skipped and reported. -/
def State.freeze (s : State) (d entry mark : Nat) (late : Bool) : State :=
  let c := s.counters d
  let now := s.time.mono
  let soon : Bool := match c.lastFreeze with
    | some t => decide (now < t + 1000000)
    | none => false
  if soon then
    let n := satAdd 0xFFFF c.skipped 1
    (s.setCounters d fun c => { c with skipped := n }).log 0x0901 3 (srcDieUnit d 68)
      [mark, entry, (now - c.lastFreeze.getD 0) / 1000, n]
  else
    let w := s.fab.dies.getD d {}
    let i := (c.last + 1) % 2
    let b : Bank :=
      { mark := mark, valid := true, late := late, entry := entry, pod := s.diePodStamp d, step := (s.dt d).step
        mono := s.dieMonoStamp d, cnt := c.cnt, levels := (List.range 5).map fun l => (w.data.getD l 0, w.slots.getD l 0 / 16 % 2 ^ 64)
        links := ((List.range 13).filter fun p => portDie p == d).map fun p => (p, linkCapture (s.port p)) }
    s.setCounters d fun c => { c with banks := c.banks.set i b, last := i, lastFreeze := some now }

/-! ### Tensor definitions (R360) -/

/-- Bytes of a tensor with its scale array. -/
def Watch.bytes (w : Watch) : Nat := rowBytes w.fmt w.count + (if fmtMx w.fmt then cdiv w.count 32 else 0)

def watchKey (c h : Nat) : Nat := c * 2 ^ 32 + h

/-- The address, format and count of a definition are ones of R360. -/
def State.watchBad (s : State) (a : List Nat) : Option Nat :=
  let n := arg64 a 5
  let w : Watch := { addr := arg64 a 2, fmt := arg a 4, count := n }
  let fmtOk := arg a 4 ≤ 0xC
  let cntOk := 1 ≤ n && n < 2 ^ 40
  let ok := match s.localOff (arg64 a 2) with
    | some off => arg64 a 2 < 2 ^ 52 && off % 64 == 0 &&
        (!(fmtOk && cntOk) || (s.inLocalWin (arg a 0) off w.bytes && dieOf off == dieOf (off + w.bytes - 1)))
    | none => false
  badWord [ctxWord a, (2, ok), (4, fmtOk), (5, cntOk)]

/-- WatchDefine (R360). -/
def dWatchDefine : DaridDef where
  op := 0x0A01
  senders := [.c, .m, .f]
  own := ownCtx
  len := (· == 7)
  bad s a := if (s.ctx (arg a 0)).st = .free then badWord [ctxWord a] else s.watchBad a
  body s _ a :=
    let k := watchKey (arg a 0) (arg a 1)
    let old := (s.obs.watches.lookup k).isSome
    if (s.ctx (arg a 0)).st = .free then .no s dNoSuch
    else if !old && 1024 ≤ s.obs.watches.length then .no s dNoResource
    else
      let w : Watch := { addr := arg64 a 2, fmt := arg a 4, count := arg64 a 5 }
      { s := { s with obs := { s.obs with watches := mput s.obs.watches k w } } }

/-- WatchRemove. -/
def dWatchRemove : DaridDef where
  op := 0x0A03
  senders := [.c, .m, .f]
  own := ownCtx
  len := (· == 2)
  bad _ a := badWord [ctxWord a]
  body s _ a :=
    let k := watchKey (arg a 0) (arg a 1)
    if (s.obs.watches.lookup k).isNone then .no s dNoSuch
    else { s := { s with obs := { s.obs with watches := mdel s.obs.watches k } } }

/-! ### Digests (R364) -/

/-- The digest of a tensor of n elements from its bytes as stored; `husk` says of a byte offset whether its sector is a husk.
An MX element whose scale lies in a husk sector counts as one in a husk. -/
def digest (fmt n : Nat) (b : List Byte) (husk : Nat → Bool) (husks : Nat) : List Byte :=
  let base := rowBytes fmt n
  let bits := fmtBits fmt
  let sound := fun (i : Nat) =>
    !husk (i * bits / 8) && !husk ((i * bits + bits - 1) / 8) && !(fmtMx fmt && husk (base + i / 32))
  let es := ((List.range n).filter sound).map fun i => element fmt (elemBits fmt b i) ((b.getD (base + i / 32) 0).toNat)
  let fin := (es.filter Num.isFin).map fun x => (toFp32 .rne x).1
  let sum := (sumR .rne false (fin.map ofFp32)).1
  let mean := if fin.isEmpty then BitVec.ofNat 32 fp32.nanBits else (fmul sum (recipCount fin.length)).1
  let absMax := fin.foldl (fun m w => max m (w.toNat % 2 ^ 31)) 0
  leBytes 8 n ++ leBytes 4 mean.toNat ++ leBytes 4 absMax ++ leBytes 4 (min 0xFFFFFFFF (es.filter Num.isNan).length) ++
    leBytes 4 (min 0xFFFFFFFF (es.filter Num.isInf).length) ++ sha256 b ++ leBytes 4 husks ++ leBytes 4 0

/-- The bytes of a tensor at a local offset, husk sectors as zeros, and its husk sectors. -/
def State.tensor (s : State) (off n : Nat) : List Byte × List Nat := (s.mem.main.read off n, s.mem.main.husksIn off n)

def State.digestOf (s : State) (w : Watch) (off : Nat) : List Byte :=
  let (b, h) := s.tensor off w.bytes
  digest w.fmt w.count b (fun i => h.contains ((off + i) / 32)) h.length

/-- WatchDigest (R364): PENDING, and the digest when it is computed. -/
def dWatchDigest : DaridDef where
  op := 0x0A02
  senders := [.c, .m, .f]
  own := ownCtx
  changes := false
  len := (· == 2)
  bad _ a := badWord [ctxWord a]
  body s w a :=
    let k := watchKey (arg a 0) (arg a 1)
    if (s.obs.watches.lookup k).isNone then .no s dNoSuch
    else { s := { s with obs := { s.obs with digests := s.obs.digests ++ [(w, k)] } }, status := dPending }

/-- WATCH_DIGEST_DONE (R364): the oldest digest of a handle is answered with its 16 words. DESIGN CHOICE (log 65): a definition removed
since has no digest and is answered NO_SUCH, one in a FAILED region BAD_STATE; a region that is off is waited for. -/
def execWatchDigestDone (ctx : Fin 256) (handle : BitVec 32) (flips : List LineFlip) (s : State) :
    Host.Outcome State Fault Refusal :=
  .next <|
    let k := watchKey ctx handle.toNat
    match s.obs.digests.find? fun e => e.2 == k with
    | none => s
    | some (w, _) =>
      let rest := s.obs.digests.erase (w, k)
      let drop := fun (s : State) => ({ s with obs := { s.obs with digests := rest } } : State)
      match s.obs.watches.lookup k with
      | none => (drop s).finish w dNoSuch 0 []
      | some t =>
        match s.localOff t.addr with
        | none => (drop s).finish w dNoSuch 0 []
        | some off =>
          if s.regionFailed (dieOf off) then (drop s).finish w dBadState 0 []
          else if !s.regionUp (dieOf off) then s
          else
            let s := (drop s).damages 0 flips
            s.finish w dOk 0 ((chunks 4 (s.digestOf t off)).map ofLe)

/-! ### Dumps (R361-R363) -/

/-- A dump is dispatched on a die. -/
def State.pushDump (s : State) (d entry ctx : Nat) (a : BitVec 64) (late : Bool) : State :=
  let x : Dump :=
    { entry := entry, ctx := ctx, arg := a, late := late, step := (s.dt d).step, start := s.diePodStamp d, mono := s.time.mono }
  { s with obs := { s.obs with dumps := lmod s.obs.dumps d fun l => l ++ [x] } }

/-- What a failed dump is logged with: the reason and the failing address. -/
def State.dumpFails (s : State) (d : Nat) (x : Dump) (reason addr : Nat) : State :=
  s.log 0x0A02 3 (srcDieUnit d 68) ([x.ctx, bitsOf x.arg.toNat 31 0, x.entry, reason] ++ lohi addr)

/-- Memory a copy may have partly written: free values. -/
def State.scramble (s : State) (off n : Nat) : State :=
  (linesOf off n).foldl (fun s p =>
    if !s.regionUp (dieOf p.1) then s
    else
      let (v, s) := s.draw (8 * p.2)
      let (h, s) := s.draw 2
      s.setMem fun m => m.write p.1 (leBytes p.2 v.toNat) ((sectors p.1 p.2).filter fun k => h.getLsbD (k % 2))) s

/-- What the copy unit of a die can reach: the line's die runs and a path leads there (R22); a path that changes is waited for. -/
def State.dumpReach (s : State) (d off n : Nat) : Bool :=
  (linesOf off n).all fun p => s.regionUp (dieOf p.1) && s.ringPath d (dieOf p.1) != .domainOff

/-- The copy of one dump. DESIGN CHOICE (log 65): reason 3 is looked for before reason 1, since a FREE context has no definitions. -/
def State.dump (s : State) (d : Nat) (x : Dump) : State :=
  let a := x.arg.toNat
  let c := x.ctx
  let only := bitOf a 63
  if (s.ctx c).st = .free then s.dumpFails d x 3 0
  else match s.obs.watches.lookup (watchKey c (bitsOf a 31 0)) with
  | none => s.dumpFails d x 1 0
  | some w =>
    let n := if only then 64 else w.bytes
    let dest := bitsOf a 62 32 * 2 ^ 21
    let own := if s.idLocked then boardIdx s.ownId * 2 ^ 48 else 0
    match s.localOff dest, s.localOff w.addr with
    | some to_, some from_ =>
      if !s.inLocalWin c to_ (64 + n) then s.dumpFails d x 2 dest
      else if !s.dumpReach d from_ w.bytes then (s.scramble to_ (64 + n)).dumpFails d x 4 (own + from_)
      else if !s.dumpReach d to_ (64 + n) then
        (s.scramble to_ (64 + n)).dumpFails d x 4 (own + to_)
      else
        let (b, h) := s.tensor from_ w.bytes
        let body := if only then s.digestOf w from_ else b
        let bad := if only then [] else h.map fun k => k - from_ / 32 + (to_ + 64) / 32
        let hdr := [bitsOf a 31 0 + c * 2 ^ 32 + w.fmt * 2 ^ 40 + b2n only * 2 ^ 44 + b2n x.late * 2 ^ 45 + x.entry * 2 ^ 46,
          w.count, x.start.toNat, x.step.toNat, n, h.length, (s.diePodStamp d).toNat, 0].flatMap (leBytes 8)
        let s := s.setMem fun m => (m.write (to_ + 64) body bad).write to_ hdr []
        s.log 0x0A01 1 (srcDieUnit d 68)
          ([c, bitsOf a 31 0, x.entry] ++ lohi n ++ [h.length, (s.time.mono - x.mono) / 1000])
    | _, _ => s.dumpFails d x 2 dest

/-- TENSOR_DUMP_DONE (R362): the copy unit of a die finishes its oldest dump, and the next one begins. -/
def execTensorDumpDone (die : Fin 4) (flips : List LineFlip) (s : State) : Host.Outcome State Fault Refusal :=
  .next <|
    let d := die.val
    match s.obs.dumps.getD d [] with
    | [] => s
    | x :: rest =>
      if (s.die d).inReset then s
      else
        let s := (s.damages 0 flips).dump d x
        let begun := fun (l : List Dump) => match l with
          | y :: r => ({ y with start := s.diePodStamp d, mono := s.time.mono } : Dump) :: r
          | [] => []
        { s with obs := { s.obs with dumps := s.obs.dumps.set d (begun rest) } }

def execCounterSelect (r : DReq) (s : State) : Host.Outcome State Fault Refusal := .next (runDarid dCounterSelect r s)
def execCounterRead (r : DReq) (s : State) : Host.Outcome State Fault Refusal := .next (runDarid dCounterRead r s)
def execLiveCounterRead (r : DReq) (s : State) : Host.Outcome State Fault Refusal := .next (runDarid dLiveCounterRead r s)
def execWatchDefine (r : DReq) (s : State) : Host.Outcome State Fault Refusal := .next (runDarid dWatchDefine r s)
def execWatchDigest (r : DReq) (s : State) : Host.Outcome State Fault Refusal := .next (runDarid dWatchDigest r s)
def execWatchRemove (r : DReq) (s : State) : Host.Outcome State Fault Refusal := .next (runDarid dWatchRemove r s)

end Sys2Proof.Machine
end

