-- ==== Sys2Proof/Machine/Time.lean ====
section
/-! DEFINITION. The time bases, the time bus, the POD servo, the 1PPS pair, timestamps of neighbours, and the transmit
timestamp queues (chapter 02, R244). -/

namespace Sys2Proof.Machine

/-! ### The bases count (R47-R50, R54, R56, R57) -/

/-- One part per million in parts per 10^12. -/
def ppm : Int := 1000000

/-- The rate at which POD counts (R54, R63): the servo's rate offset and the slew in progress, at most 200 ppm from nominal
together while there is a slew. -/
def TimeSt.podRate (t : TimeSt) : Int :=
  if t.slew = 0 then t.rate
  else if 0 < t.slew then min (200 * ppm) (t.rate + 200 * ppm) else max (-200 * ppm) (t.rate - 200 * ppm)

/-- What the package counts in 10 ns (log 20): POD with its slew, TOLL at POD's rate and at most 100 ppm from it until the two
agree, MONO. While no CTD drives the time bus (`gap`) both count at the rate of its last frame, as the dies do (R56, R58), and what
that takes off a slew is taken off it. -/
def TimeSt.tick (t : TimeSt) (gap : Bool) : TimeSt :=
  if gap then
    let adv := 10 * nsUnit + 10 * t.busRate
    { t with mono := t.mono + 10, pod := t.pod + adv, toll := t.toll + adv, slew := t.slew - 10 * (t.busRate - t.rate) }
  else
    let part := (t.podRate - t.rate) * 10
    let took := if 0 < t.slew then min t.slew part else max t.slew part
    let adv := 10 * nsUnit + 10 * t.rate + took
    let pod := t.pod + adv
    let toll := t.toll + adv
    let most := 10 * 100 * ppm
    { t with
      mono := t.mono + 10, pod := pod, slew := t.slew - took, toll := toll + max (-most) (min most (pod - toll)) }

/-- The rate offset the servo estimates (R62) from a free value: R63's 200 ppm of slewing about the nominal rate leave room for the slew
only while the offset itself stays within them; the model keeps it within 100 ppm (DESIGN CHOICE, log 63). -/
def estRate (v : Word) : Int := max (-100 * ppm) (min (100 * ppm) v.toInt)

/-- What a die's receiver counts in 10 ns: each base at the rate of the last frame, at half rate while it waits. -/
def DieTime.tick (t : DieTime) : DieTime :=
  if !t.seen then t
  else
    let adv := 10 * nsUnit + 10 * t.rate
    { t with
      pod := t.pod + (if t.slowPod then adv / 2 else adv), toll := t.toll + (if t.slowToll then adv / 2 else adv)
      mono := t.mono + 10 }

/-- A request of a die's requesters stalls for a transaction entry (R123), not for a peer entry or a path. -/
def State.txStalled (s : State) (d : Nat) : Bool :=
  s.fab.stalled.any fun r => ((s.requester r.owner).map (·.1)) == some d && !s.txRoom r.owner

/-- A free amount counted for an event of one unit, when any counter of the die selects the event. -/
def State.countOpen (s : State) (d ev n : Nat) : State :=
  if (s.obs.dies.getD d {}).sel.any fun e => bitsOf e.2.toNat 11 0 == ev then
    (List.range n).foldl (fun s i => let (v, s) := s.draw 32; s.countEv d ev i none v.toNat) s
  else s

/-- Amounts the spec's rules do not fix (log 65): ME cycles stalled for operands, DE bytes read for a convoy, memory lines read and
written, bytes on ring edges, instructions retired. -/
def State.tickOpen (s : State) (d : Nat) : State :=
  let stall := fun (s : State) (i : Nat) =>
    match s.eng.queues.find? fun e => e.2.eng == 16 * d + i && !e.2.started.isEmpty with
    | some e => let (v, s) := s.draw 4; s.countEv d 0x012 i (some (e.1 / 64)) (min 15 v.toNat)
    | none => s
  let convoyReads := fun (s : State) (i : Nat) =>
    match (s.fab.convoys.filterMap (·.owner)).find? fun o => ((s.queue? o.1 o.2.1).map (·.eng)) == some (80 + 8 * d + i) with
    | some o => let (v, s) := s.draw 32; s.countEv d 0x030 i (some o.1) v.toNat
    | none => s
  let selected := fun (ev : Nat) => (s.obs.dies.getD d {}).sel.any fun e => bitsOf e.2.toNat 11 0 == ev
  let s := if selected 0x012 then (List.range 16).foldl stall s else s
  let s := if selected 0x030 then (List.range 8).foldl convoyReads s else s
  [(0x040, 6), (0x041, 6), (0x070, 4), (0x080, 8)].foldl (fun s e => s.countOpen d e.1 e.2) s

/-- What the die's counters see of 10 ns (R352): reference cycles, engines at work, transactions, requesters that stall,
queues that wait, and amounts that are open. -/
def State.tickDie (s : State) (d : Nat) : State :=
  if (s.die d).inReset || (s.obs.dies.getD d {}).sel.isEmpty then s
  else
    let eng := fun (s : State) (ev j : Nat) (i : Nat) =>
      match (s.eng.queues.find? fun e => e.2.eng == j && !e.2.started.isEmpty) with
      | some e => s.countEv d ev i (some (e.1 / 64)) 15
      | none => s
    let s := s.countEv d 0x001 0xFF none 15
    let s := (List.range 16).foldl (fun s i => eng s 0x010 (16 * d + i) i) s
    let s := (List.range 4).foldl (fun s i => eng s 0x020 (64 + 4 * d + i) i) s
    let s := s.countEv d 0x060 0xFF none (15 * s.txInUse d)
    let s := if s.txStalled d then s.countEv d 0x061 0xFF none 15 else s
    let s := if s.eng.queues.any fun e => engDie e.2.eng == d && e.2.st == .waitSem then s.countEv d 0x090 0xFF none 15 else s
    s.tickOpen d

/-- Requests of a die that stall add to DE_TX_STATUS.STALL_CYCLES. -/
def State.tickStall (s : State) (d : Nat) : State :=
  if s.txStalled d then
    s.setDie d fun x => { x with txStall := satAdd 0xFFFFFFFF x.txStall 15 }
  else s

/-- The slots of 10 ns on each level in a die's sending direction, in sixteenths (R209, R246): 1.75 × 10^9 or 1.5625 × 10^9 a second on
a port, half of that on eight lanes, and 256 bytes of 4 TB/s on a ring edge. How many slots of its edges carry data the spec
states for no transfer: a free value up to all of them (log 4). -/
def State.tickSlots (s : State) (d : Nat) : State :=
  if (s.die d).inReset then s
  else
    let edges := ((List.range 4).filter fun b => match edgeOf d b with
      | some e => s.ring.edgeUp.getD e false
      | none => false).length
    let add := fun (l : List Nat) p =>
      let x := s.port p
      let n := if 3 ≤ s.portLevel p then 250 else 280
      if portDie p != d || x.lanes == 0 then l else lmod l (s.portLevel p) (· + (if x.lanes = 8 then n / 2 else n))
    let (v, s) := if edges = 0 then (0, s) else s.draw 32
    s.setWg d fun w =>
      { w with
        slots := (List.range 13).foldl add (lmod w.slots 0 (· + 2500 * edges))
        data := lmod w.data 0 (· + v.toNat % (156 * edges + 1)) }

/-- The package oscillator's next period (R48, log 20): what step does when no command waits. -/
def State.tick (s : State) : State :=
  let s := { s with time := s.time.tick !s.ctd.lease.gates, dieTime := s.dieTime.map DieTime.tick }
  [0, 1, 2, 3].foldl (fun s d => ((s.tickDie d).tickStall d).tickSlots d) s

/-! ### The time bus (R54-R59) -/

/-- The larger of two differences, in ns. -/
def diffNs (a b : Int) : Nat := ((a - b).natAbs / nsUnit.natAbs)

/-- TIME_BUS_FRAME (R54, R57-R59): the die takes each base the frame holds at or ahead of its own, and counts the others at half
rate; a changed step counter makes it take POD at once. Advances latched in holdover go to the active CTD. The largest realignment of
TIME_HOLDOVER leaves out a POD change taken at once because the step counter differs (DESIGN CHOICE, log 63). -/
def execTimeBusFrame (die : Fin 4) (s : State) : Host.Outcome State Fault Refusal :=
  .next <|
    if s.holder.isNone || (s.die die).inReset || !s.ctd.lease.gates then s
    else
      let f := s.time
      let t := s.dt die
      let jump := !t.seen || t.stepCtr != f.stepCtr
      let pod := jump || t.pod ≤ f.pod
      let toll := !t.seen || t.toll ≤ f.toll
      let gone := max (if jump then 0 else diffNs f.pod t.pod) (if t.seen then diffNs f.toll t.toll else 0)
      let realign := if t.holdover then max t.realign gone else 0
      let clear := pod && toll
      let n := t.latched
      let s := ({ s with time := { f with busRate := f.podRate } } : State).setDt die fun t =>
        { t with
          pod := if pod then f.pod else t.pod, toll := if toll then f.toll else t.toll, slowPod := !pod, slowToll := !toll
          mono := f.mono, step := f.step, rate := f.podRate, stepCtr := f.stepCtr, podValid := f.podValid
          locked := f.lock == .locked, seen := true, lastFrame := f.mono, realign := realign, latched := 0
          holdover := t.holdover && !clear }
      let s := if t.holdover && clear then
          s.log 0x0B05 3 (srcDieUnit die 64) [die, (f.mono - t.since) / 1000, realign] else s
      (List.range n).foldl (fun s _ => s.stepAdvance) s

/-- HOLDOVER_ENTRY (R56): 3 µs without a frame. -/
def execHoldoverEntry (die : Fin 4) (s : State) : Host.Outcome State Fault Refusal :=
  .next <|
    let t := s.dt die
    if t.seen && !t.holdover && !(s.die die).inReset && t.lastFrame + 3000 ≤ s.time.mono then
      s.setDt die fun t => { t with holdover := true, since := s.time.mono, realign := 0 }
    else s

/-! ### The servo (R60-R70) -/

def State.setTime (s : State) (f : TimeSt → TimeSt) : State := { s with time := f s.time }
/-- A signed number of ns as two parameter words. -/
def slohi (x : Int) : List Nat := lohi (twos 64 x)

/-- Number of a servo state. -/
def PodLock.code : PodLock → Nat
  | .free => 0
  | .acquiring => 1
  | .locked => 2
  | .hold => 3

/-- The servo enters HOLD: a slew in progress ends; from LOCKED the loss is logged. -/
def State.podHold (s : State) : State :=
  let t := s.time
  let s := s.setTime fun t => { t with lock := .hold, slew := 0, lockCount := 0 }
  if t.lock = .locked then s.logFw 0x0B04 3 [2, (t.mono - t.lastMeas) / 1000000000] else s

/-- The schedule entries firmware writes when POD first becomes valid (R384, R460): the catch-up of the sieve and the toll
close, every second of POD from the first whole second at least 50 ms ahead (log 21). -/
def State.podEntries (s : State) : State :=
  let sec : Nat := 1000000000
  let first := cdiv (s.podNs + 50000000) sec * sec
  let e : SchedEntry :=
    { stepKey := false, action := 1, skip := true, fw := true, ctx := 0, dies := 0xF, rep := 0, first := first, period := sec, arg := 2 }
  { s with sched := mput (mput s.sched 1 e) 2 { e with action := 5, skip := false, arg := 0 } }

/-- TOLL has become valid: the time without a boundary and the running totals of live counters 58 and 59 begin (R353, R460). -/
def State.tollBegins (s : State) : State :=
  { s with toll := { s.toll with lastBoundary := s.tollNs, inputAll := 0, tagAll := 0 } }

/-- An offset of the reference that the module follows, in ns (R62, R63, R65, R67); `count` is false for one that gives only the count of
seconds: with 0 the count is right, and nothing is corrected. -/
def State.servo (s : State) (offset : Int) (count : Bool) : State :=
  let t := s.time
  let s := s.setTime fun t => { t with lastMeas := t.mono }
  let apply := fun (s : State) =>
    let (r, s) := s.draw 32
    s.setTime fun t =>
      let n := if offset.natAbs < 100 then t.lockCount + 1 else 0
      { t with
        rate := estRate r, slew := offset * nsUnit, lockCount := n
        lock := if 16 ≤ n || t.lock = .locked then .locked else .acquiring }
  if !count && offset = 0 then
    if t.lock = .hold && !t.corrPending then s.setTime fun t => { t with lock := .acquiring, lockCount := 0 } else s
  else if t.corrPending then
    let n := if offset.natAbs < t.thresh then t.episodeCount + 1 else 0
    let s := s.setTime fun t => { t with pendingCorr := BitVec.ofInt 64 offset, episodeCount := n }
    if 16 ≤ n then apply (s.setTime fun t => { t with corrPending := false, lock := .acquiring, lockCount := 0 }) else s
  else if offset.natAbs > t.thresh then
    (s.podHold.setTime fun t => { t with corrPending := true, pendingCorr := BitVec.ofInt 64 offset, episodeCount := 0 }).logFw
      0x0B01 4 (slohi offset ++ [t.thresh, t.podSrc.toNat])
  else apply s

/-- A completed offset measurement, reference minus POD in ns, against the grandmaster it comes from, or at an edge of the 1PPS input
(R49, R62, R65, R68). Nothing measures while no CTD serves (R293). While a grandmaster change awaits acceptance neither the old nor
the new one is followed; after a change of POD_SRC the pending identity is that of the new reference (DESIGN CHOICE, log 63). -/
def State.measure (s : State) (offset : Int) (gm : Option (BitVec 64)) (count : Bool) : State :=
  let t := s.time
  if t.podSrc = 0 || t.podSrc = 3 || s.serving.isNone then s
  else match gm with
  | none => if !t.podValid || t.gmPending then s else s.servo offset count
  | some gm =>
    if !t.podValid then
      let pod := t.pod + offset * nsUnit
      (s.setTime fun t =>
        { t with
          pod := pod, toll := pod, podValid := true, tollValid := true, stepCtr := t.stepCtr + 1, lock := .acquiring, lockCount := 0
          gmId := gm, gmFresh := false, lastMeas := t.mono }).tollBegins.podEntries
    else if gm != t.gmId && !t.gmFresh then
      let new := !t.gmPending || t.gmPendId != gm
      let s := s.podHold.setTime fun t =>
        { t with corrPending := true, gmPending := true, gmPendId := gm, pendingCorr := BitVec.ofInt 64 offset, lastMeas := t.mono }
      if new then s.logFw 0x0B03 4 (lohi t.gmId.toNat ++ lohi gm.toNat) else s
    else if t.gmPending then
      s.setTime fun t =>
        if t.gmFresh then
          { t with lastMeas := t.mono, gmFresh := false, gmPendId := gm, pendingCorr := BitVec.ofInt 64 offset }
        else { t with lastMeas := t.mono }
    else (s.setTime fun t => { t with gmId := gm, gmFresh := false }).servo offset count

/-- A measurement against the selected reference: with the 1PPS input in use it gives only the count of seconds (R65). -/
def State.measureRef (s : State) (offset : Int) (gm : BitVec 64) : State :=
  if s.time.podValid && s.time.ppsInEn && s.time.ppsSeen then
    let sec : Int := 1000000000
    s.measure ((offset + sec / 2) / sec * sec) (some gm) false
  else s.measure offset (some gm) true

/-- POD_OFFSET_MEASURED (R67). -/
def execPodOffsetMeasured (offset : Int) (gm : BitVec 64) (s : State) : Host.Outcome State Fault Refusal :=
  .next (s.measureRef offset gm)

/-! ### The PTP time receiver (R10, R61)

What IEEE 1588-2019 and not the manual says is PRESUMED (log 63): the data set comparison, the qualification of a foreign master by
two Announces within four intervals, the timeout after three intervals, the own identity. -/

/-- 2^i seconds in ns. -/
def ptpInterval (i : Int) : Nat := if 0 ≤ i then 1000000000 * 2 ^ i.toNat else 1000000000 / 2 ^ (-i).toNat

/-- A clock is qualified at a moment of MONO: two Announces within four intervals, the last within three; a path of 255 steps or more
qualifies none. -/
def PtpMaster.qualified (m : PtpMaster) (now : Nat) : Bool :=
  match m.heard with
  | a :: b :: _ => m.steps.toNat < 255 && decide (now ≤ a + 3 * ptpInterval m.interval) && decide (now ≤ b + 4 * ptpInterval m.interval)
  | _ => false

/-- The data set comparison: lower priority1, clockQuality, priority2 and identity of the grandmaster; of two paths to one grandmaster
the shorter, then the lower port identity. -/
def PtpMaster.better (a b : PtpMaster) : Bool :=
  let rank := fun (m : PtpMaster) => m.prio1.toNat * 2 ^ 104 + m.quality.toNat * 2 ^ 72 + m.prio2.toNat * 2 ^ 64 + m.gm.toNat
  let path := fun (m : PtpMaster) => m.steps.toNat * 2 ^ 80 + m.src.toNat
  if a.gm = b.gm then path a < path b else rank a < rank b

/-- The clock that the best master clock algorithm chooses. -/
def TimeSt.parent (t : TimeSt) : Option PtpMaster :=
  (t.masters.filter (·.qualified t.mono)).foldl (fun b m => match b with
    | none => some m
    | some x => if m.better x then some m else b) none

/-- An Announce is noted. -/
def TimeSt.announced (t : TimeSt) (m : PtpMaster) : TimeSt :=
  let old := (t.masters.find? fun x => x.src == m.src).elim [] (·.heard)
  { t with masters := { m with heard := t.mono :: old.take 1 } :: t.masters.filter fun x => x.src != m.src }

/-- The module's PTP port identity: the EUI-64 of its MAC address and port 1. -/
def State.ptpPort (s : State) : BitVec 80 :=
  BitVec.ofNat 80 (s.fuse.mac.toNat / 2 ^ 24 * 2 ^ 56 + 0xFFFE * 2 ^ 40 + s.fuse.mac.toNat % 2 ^ 24 * 2 ^ 16 + 1)

/-- A Delay_Req leaves the management port; firmware may ask for its transmit stamp, which goes to queue 4 (R71). -/
def State.delayReq (s : State) : State :=
  let q := s.time.ptpSeq
  let s := s.setTime fun t => { t with ptpSeq := q + 1, ptpOut := t.ptpOut ++ [q] }
  if Config.delayReqStamped then s.pushTsq 4 { id := q, port := 15, dropped := false, stamp := s.podStamp } else s

/-- The exchange is measured once both origin time and Delay_Resp are there; a module that follows PTP is the root of its pod's hops
(R244). -/
def State.ptpDone (s : State) : State :=
  match s.time.ptpSync with
  | some x => match x.t1, x.t4 with
    | some t1, some t4 =>
      (s.setTime fun t => { t with ptpSync := none, hop := 0 }).measureRef (((t1 + x.corr - x.t2) + (t4 - x.t3)) / 2) x.gm
    | _, _ => s
  | none => s

/-- PTP_MESSAGE_RECEIVE (R61): a message of the domain and transport in use. A Sync of the chosen clock, at an interval of 2^-7 to 1 s,
is stamped and answered by a Delay_Req; its Delay_Resp, and in two steps the Follow_Up, complete the measurement. -/
def State.ptp (s : State) (m : PtpMsg) : State :=
  let t := s.time
  let h := m.head
  if !(t.podSrc == 1 && h.domain == t.domain && h.udp == t.udp && s.serving.isSome) then s
  else match m with
  | .announce _ gm prio1 quality prio2 steps =>
    s.setTime fun t => t.announced
      { src := h.src, gm := gm, prio1 := prio1, quality := quality, prio2 := prio2, steps := steps, interval := h.interval, heard := [] }
  | .sync _ twoStep origin =>
    match t.parent with
    | some p =>
      if p.src == h.src && -7 ≤ h.interval && h.interval ≤ 0 then
        let x : PtpExchange :=
          { src := h.src, seq := h.seq, gm := p.gm, t1 := if twoStep then none else some origin, corr := h.corr
            t2 := t.pod / nsUnit, req := t.ptpSeq, t3 := t.pod / nsUnit }
        (s.setTime fun t => { t with ptpSync := some x }).delayReq
      else s
    | none => s
  | .followUp _ origin =>
    (s.setTime fun t => { t with ptpSync := t.ptpSync.map fun x =>
      if x.src == h.src && x.seq == h.seq && x.t1.isNone then { x with t1 := some origin, corr := x.corr + h.corr } else x }).ptpDone
  | .delayResp _ req t4 =>
    (s.setTime fun t => { t with ptpSync := t.ptpSync.map fun x =>
      if x.src == h.src && x.req == h.seq && req == s.ptpPort then { x with t4 := some (t4 - h.corr) } else x }).ptpDone
def execPtpMessageReceive (msg : PtpMsg) (s : State) : Host.Outcome State Fault Refusal := .next (s.ptp msg)

/-- POD_LOCK_LOST (R62): 3 s without a valid measurement. -/
def execPodLockLost (s : State) : Host.Outcome State Fault Refusal :=
  .next <|
    let t := s.time
    if (t.lock = .acquiring || t.lock = .locked) && t.lastMeas + 3000000000 ≤ t.mono && s.serving.isSome then s.podHold else s

/-- PPS_IN_EDGE (R65): the offset of the edge from the nearest second of POD. -/
def execPpsInEdge (s : State) : Host.Outcome State Fault Refusal :=
  .next <|
    let t := s.time
    if !t.ppsInEn || s.serving.isNone then s
    else
      let s := s.setTime fun t => { t with ppsSeen := true, ppsLast := t.mono, ppsLost := false }
      let sec : Int := 1000000000
      let at_ := t.pod / nsUnit - t.ppsDelay
      s.measure ((at_ + sec / 2) / sec * sec - at_) none true

/-- PPS_IN_FAULT (R65): once for 2 s without an edge, counted from the last one or from when the input came into use. -/
def execPpsInFault (s : State) : Host.Outcome State Fault Refusal :=
  .next <|
    let t := s.time
    if t.ppsInEn && !t.ppsLost && t.ppsLast + 2000000000 ≤ t.mono && s.serving.isSome then
      (s.setTime fun t => { t with ppsSeen := false, ppsLost := true }).logFw 0x0B09 3 [(t.mono - t.ppsLast) / 1000000000]
    else s

/-- PPS_OUT_RISE, PPS_OUT_FALL (R66). The output rises at a boundary of POD's second: POD has passed it in the last count of 10 ns. -/
def execPpsOutRise (s : State) : Host.Outcome State Fault Refusal :=
  .next <|
    let t := s.time
    let sec := t.pod / (1000000000 * nsUnit)
    let first := t.pod % (1000000000 * nsUnit) < 11 * nsUnit && !(t.ppsOut && t.ppsSecond == sec)
    if t.ppsOutEn && t.podValid && s.serving.isSome && first then
      s.setTime fun t => { t with ppsOut := true, ppsRose := t.mono, ppsSecond := sec }
    else s
def execPpsOutFall (s : State) : Host.Outcome State Fault Refusal :=
  .next <|
    if s.time.ppsOut && s.time.ppsRose + 100000000 ≤ s.time.mono && s.serving.isSome then
      s.setTime fun t => { t with ppsOut := false }
    else s

/-! ### TIMESTAMP packets (R244) -/

/-- TIMESTAMP_REQUEST_SEND. -/
def execTimestampRequestSend (s : State) : Host.Outcome State Fault Refusal :=
  .next <|
    let t := s.time
    let p := t.wgPort.toNat
    if t.podSrc = 2 && p < 13 && s.isUp p && (s.dt (portDie p)).seen && s.serving.isSome && t.tsLast + 1000000000 / 2 ^ s.fab.interval ≤ t.mono then
      let k := { blankPkt with ptype := 9, dst := (s.port p).coord, src := BitVec.ofNat 15 s.ownId }
      (s.queuePkt p 6 k).setTime fun t => { t with tsReq := some (none, t.mono), tsLast := t.mono }
    else s

/-- A TIMESTAMP packet that came by flits is taken from its port. -/
def State.takeTs (s : State) (p : Nat) : State :=
  s.setPort p fun x => { x with rxPkts := x.rxPkts.eraseP fun b => fieldAt b 0 1 % 16 == 9 }

/-- TIMESTAMP_REQUEST_RECEIVE: answered with t2 and what this module follows; t3 is put in as the response leaves. -/
def execTimestampRequestReceive (port : Fin 13) (src : BitVec 15) (s : State) : Host.Outcome State Fault Refusal :=
  .next <|
    let s := s.takeTs port
    if !s.isUp port || !(s.dt (portDie port)).seen then s
    else
      let pay := leBytes 8 (s.linkStamp port).toNat ++ leBytes 8 0 ++ leBytes 8 s.time.gmId.toNat ++ leBytes 1 s.time.lock.code ++
        leBytes 1 s.time.hop.toNat ++ List.replicate 6 0
      s.queuePkt port 6 { blankPkt with
        ptype := 9, dst := src, src := BitVec.ofNat 15 s.ownId, len := 32, dw2 := BitVec.ofNat 64 (2 ^ 52), payload := pay }

/-- TIMESTAMP_RESPONSE_RECEIVE: the offset, if the exchange qualifies. -/
def execTimestampResponseReceive (port : Fin 13) (resp : TsResp) (s : State) : Host.Outcome State Fault Refusal :=
  .next <|
    let s := s.takeTs port
    let t := s.time
    match t.tsReq with
    | none => s
    | some (none, _) => s
    | some (some t1, sent) =>
      if t.podSrc != 2 || port.val != t.wgPort.toNat || !(s.dt (portDie port)).seen then s
      else
        let s := s.setTime fun t => { t with tsReq := none }
        let t4 := s.linkStamp port
        let v := fun (w : BitVec 64) => ((4 * (w.toNat / 4) : Nat) : Int)
        if resp.lock == 2 && resp.t2.toNat % 4 == 0 && resp.t3.toNat % 4 == 0 && !t1.getLsbD 0 && !t4.getLsbD 0 &&
            t.mono ≤ sent + 100000 then
          (s.setTime fun t => { t with hop := resp.hop + 1 }).measureRef
            (((v resp.t2 - v t1) - (v t4 - v resp.t3)) / 2) resp.gm
        else s

/-! ### Transmit timestamp queues (R71-R74) -/

/-- The fields of the head entry as a pop returns them. -/
def Tsq.head (q : Tsq) : Nat :=
  match q.entries with
  | [] => 0
  | e :: r => e.id.toNat + e.port.toNat * 2 ^ 16 + b2n e.dropped * 2 ^ 20 + 2 ^ 21 + r.length * 2 ^ 32

/-- TB_TSQ_POP (R74, R75): a 64-bit read pops the head and latches its stamp; a 32-bit read of a half changes nothing. The
queues are the active CTD's. -/
def execTbTsqPop (init : Initiator) (ctd : Fin 2) (g : Fin 5) (width : Nat) (upper : Bool) (s : State) :
    Host.Outcome State Fault Refusal :=
  .next <|
    if s.ctdGate ctd != .none then s.fail (s.ctdGate ctd)
    else if !(isHart init || isAnySp init) || !(width == 64 || width == 32) then s.fail .unmapped
    else if s.holder != some ctd.val then s.answer 0
    else
      let q := s.time.tsq.getD g {}
      if width = 32 then s.answer (BitVec.ofNat 64 (if upper then q.head / 2 ^ 32 else q.head % 2 ^ 32))
      else
        let s := s.answer (BitVec.ofNat 64 q.head)
        match q.entries with
        | [] => s
        | e :: r => (s.setTime fun t => { t with tsq := lmod t.tsq g fun q => { q with entries := r, stamp := e.stamp } }).endRun g

end Sys2Proof.Machine
end

