-- ==== Sys2Proof/Machine/Schedule.lean ====
section
/-! DEFINITION. The schedule table and the Darid commands of schedule and time (chapter 02). Keys of both types are one number:
POD ns, or the STEP word. -/

namespace Sys2Proof.Machine

/-! ### Keys (R77, R78) -/

/-- Distance of two keys of an entry; 0 for a one-shot. -/
def SchedEntry.gap (e : SchedEntry) : Nat := if e.stepKey then e.period * 65536 else e.period

/-- The smallest key above a bound. -/
def SchedEntry.after (e : SchedEntry) (bound : Option Nat) : Option Nat :=
  match bound with
  | none => some e.first
  | some b =>
    if b < e.first then some e.first
    else if e.gap = 0 then none
    else some (e.first + ((b - e.first) / e.gap + 1) * e.gap)

/-- Keys from k that lie before a moment, and the last of them. -/
def SchedEntry.passed (e : SchedEntry) (k now : Nat) : Nat × Nat :=
  if e.gap = 0 then (1, k) else ((now - 1 - k) / e.gap + 1, k + (now - 1 - k) / e.gap * e.gap)

/-- REPEAT allows a key: the count has not reached it, or the key has been counted. -/
def SchedEntry.admits (e : SchedEntry) (k : Nat) : Bool :=
  e.rep == 0 || e.fired < e.rep || (match e.counted with | some c => decide (k ≤ c) | none => false)

/-- A key fires on a die: counted once over all dies. -/
def SchedEntry.fire (e : SchedEntry) (d key last : Nat) : SchedEntry :=
  let isNew : Bool := match e.counted with | some c => decide (c < key) | none => true
  { e with
    last := e.last.set d (some last), armed := e.armed.set d none, fired := if isNew then e.fired + 1 else e.fired
    counted := if isNew then some key else e.counted }
def SchedEntry.isNew (e : SchedEntry) (key : Nat) : Bool := match e.counted with | some c => decide (c < key) | none => true

def State.setSched (s : State) (n : Nat) (e : SchedEntry) : State := { s with sched := mput s.sched n e }

/-- The present in the form of an entry's keys. -/
def State.keyNow (s : State) (e : SchedEntry) : Nat := if e.stepKey then s.time.step.toNat else s.podNs / 4 * 4

/-- VALID clears once every die of DIE_MASK has fired or skipped the last key; a die that was in reset at the key counts as having
skipped it (R78). That no die has done so itself, as all were in reset, leaves the entry to be armed again under R83 (DEDUCED, log 63). -/
def State.schedSpent (s : State) (n : Nat) : State :=
  match s.sched.lookup n with
  | none => s
  | some e =>
    let ds := setBits 4 e.dies.toNat
    let did := fun (k d : Nat) => match e.last.getD d none with | some l => decide (k ≤ l) | none => false
    let past := fun (k : Nat) => ds.any (did k) && ds.all fun d => did k d || ((s.die d).inReset && decide (k ≤ s.keyNow e))
    let done := if e.gap = 0 then past e.first
      else e.rep != 0 && e.rep ≤ e.fired && (match e.counted with | some k => past k | none => false)
    if done then { s with sched := mdel s.sched n } else s

/-! ### Dispatch (R79, R80) -/

/-- The action of an entry on a die. `isNew` says that no die has fired the key before. -/
def State.dispatch (s : State) (d n : Nat) (e : SchedEntry) (isNew late : Bool) : State :=
  let a := e.arg.toNat
  match e.action with
  | 1 =>
    if bitOf a 0 then s.sieveSlot d (stepNum (s.dt d).step) (bitOf a 1)
    else if bitOf a 1 then s.sieveSlot d (stepNum (s.dt d).step) true
    else s.sieveOne (bitsOf a 14 8)
  | 2 => s.freeze d n (bitsOf a 31 0) late
  | 3 => s.pushDump d n e.ctx e.arg late
  | 4 =>
    if isNew then
      (s.startSnap e.ctx none (if bitOf a 14 then some (bitsOf a 13 0) else none) (bitOf a 15) n).2.jobSweep
    else s
  | _ =>
    let t := s.tollNs
    let near := t < s.toll.lastBoundary + 100000000 && s.toll.lastBoundary != 0
    if !s.time.tollValid || s.toll.boundary.isSome || near then s
    else { s with toll := { s.toll with boundary := some (cdiv t 10000 * 10000, false) } }

/-- Order of dispatch of two due entries (R80): POD-keyed first, then FREEZE_MARK, TOLL_CLOSE, TENSOR_DUMP, HOARD_SNAPSHOT,
SIEVE_SLOT, then the index. -/
def schedRank (e : SchedEntry) : Nat := b2n e.stepKey * 8 + [7, 4, 0, 2, 3, 1].getD e.action 7

/-- SCHEDULE_ARM (R79, R81): the active CTD looks at an entry on each die of its mask that has none armed. A key already passed
has been missed: it fires late once, or is skipped; the further passed keys are missed with it. -/
def State.armOn (s : State) (n d : Nat) : State :=
  match s.sched.lookup n with
  | none => s
  | some e =>
    let now := s.keyNow e
    if (s.die d).inReset || !(s.dt d).seen || (e.armed.getD d none).isSome || !e.dies.getLsbD d || !(e.stepKey || s.time.podValid) then s
    else match e.after (e.last.getD d none) with
      | none => s
      | some k =>
        if !e.admits k then s
        else if now ≤ k then s.setSched n { e with armed := e.armed.set d (some k) }
        else
          let (cnt, last) := e.passed k now
          let s := if e.skip then s.setSched n { e with last := e.last.set d (some last) }
            else (s.setSched n (e.fire d k last)).dispatch d n e (e.isNew k) true
          s.log 0x0B07 3 (srcDieUnit d 67) ([n] ++ lohi k ++ [cnt, b2n e.skip])

def execScheduleArm (entry : Fin 1024) (s : State) : Host.Outcome State Fault Refusal :=
  .next <|
    if s.serving.isNone then s
    else ([0, 1, 2, 3].foldl (fun s d => s.armOn entry.val d) s).schedSpent entry.val

/-- Entries armed on a die whose key its own time has reached (R79). -/
def State.schedDue (s : State) (d : Nat) : List (Nat × SchedEntry × Nat) :=
  let t := s.dt d
  s.sched.filterMap fun e =>
    match e.2.armed.getD d none with
    | none => none
    | some k =>
      let now := if e.2.stepKey then t.step.toNat else (t.pod / nsUnit).toNat / 4 * 4
      if k ≤ now && (e.2.stepKey || t.podValid) then some (e.1, e.2, k) else none

/-- SCHEDULE_FIRE (R79, R80): everything due on a die is dispatched in its order. -/
def execScheduleFire (die : Fin 4) (s : State) : Host.Outcome State Fault Refusal :=
  .next <|
    let d := die.val
    if (s.die d).inReset || !(s.dt d).seen then s
    else
      let due := s.schedDue d
      let ranks := (due.map fun x => schedRank x.2.1).eraseDups.mergeSort (· ≤ ·)
      let order := ranks.flatMap fun r => due.filter fun x => schedRank x.2.1 == r
      order.foldl (fun s x =>
        let (n, e, k) := x
        ((s.setSched n (e.fire d k k)).dispatch d n e (e.isNew k) false).schedSpent n) s

/-! ### ScheduleWrite, ScheduleClear, ScheduleRead (R76, R77) -/

/-- The entry of eight words. -/
def schedOf (w : List Nat) : SchedEntry :=
  let a := arg w 0
  { stepKey := bitOf a 1, action := bitsOf a 4 2, skip := bitOf a 5, fw := bitOf a 6, ctx := bitsOf a 15 8
    dies := BitVec.ofNat 4 (bitsOf a 19 16), rep := arg w 1, first := arg64 w 2, period := arg64 w 4, arg := BitVec.ofNat 64 (arg64 w 6) }

/-- The eight words of an entry; REPEAT gives the firings left. -/
def schedWords (e : SchedEntry) : List Nat :=
  [1 + 2 * b2n e.stepKey + 4 * e.action + 32 * b2n e.skip + 64 * b2n e.fw + 2 ^ 8 * e.ctx + 2 ^ 16 * e.dies.toNat,
   e.rep - e.fired] ++ lohi e.first ++ lohi e.period ++ lohi e.arg.toNat

/-- The rules of an action for its ARG and DIE_MASK (R354, R361, R384, R427, R460). -/
def State.schedArgOk (s : State) (e : SchedEntry) : Bool :=
  let a := e.arg.toNat
  let m := e.dies.toNat
  match e.action with
  | 1 => bitsOf a 7 2 == 0 && bitsOf a 63 15 == 0 &&
      (bitOf a 0 || (bitsOf a 14 8 < 112 && bitOf m (engDie (bitsOf a 14 8))))
  | 2 => bitsOf a 63 32 == 0
  | 3 => (setBits 4 m).length == 1
  | 4 => m == 0xF && bitsOf a 63 16 == 0 && (!bitOf a 14 || s.holdsSem e.ctx (bitsOf a 13 0))
  | 5 => m == 0xF && a == 0
  | _ => false

/-- The rules of R77. -/
def State.schedOk (s : State) (w : List Nat) : Bool :=
  let a := arg w 0
  let e := schedOf w
  bitOf a 0 && !e.fw && !bitOf a 7 && bitsOf a 31 20 == 0 && e.dies != 0 &&
    (if e.stepKey then e.period < 2 ^ 48 else e.first % 4 == 0 && e.period % 4 == 0) && s.schedArgOk e

def State.freeEntry (s : State) : Option Nat :=
  ((List.range 896).map (· + 128)).find? fun n => (s.sched.lookup n).isNone

/-- ScheduleWrite. -/
def dScheduleWrite : DaridDef where
  op := 0x0401
  senders := [.c, .m, .f]
  own _ ch a := bitsOf (arg a 1) 15 8 == ch && bitsOf (arg a 1) 4 2 != 1 && bitsOf (arg a 1) 4 2 != 5
  len := (· == 9)
  bad _ a := badWord [(0, arg a 0 < 1024 || arg a 0 == 0xFFFFFFFF)]
  body s _ a :=
    let any := arg a 0 == 0xFFFFFFFF
    if !any && arg a 0 < 128 then .no s dDenied
    else
      let w := (a.drop 1).take 8
      match (if any then s.freeEntry else some (arg a 0)) with
      | none => .no s dTableFull
      | some n =>
        if !s.schedOk w then .no s dBadEntry
        else if (s.sched.lookup n).isSome then .no s dBadState
        else { s := s.setSched n (schedOf w), words := [n] }

/-- The entry named is the sender's. -/
def ownEntry (s : State) (ch : Nat) (a : List Nat) : Bool := match s.sched.lookup (arg a 0) with
  | some e => e.ctx == ch
  | none => true

/-- ScheduleClear. -/
def dScheduleClear : DaridDef where
  op := 0x0402
  senders := [.c, .m, .f]
  own := ownEntry
  len := (· == 1)
  bad _ a := badWord [(0, arg a 0 < 1024)]
  body s _ a :=
    if arg a 0 < 128 then .no s dDenied
    else if (s.sched.lookup (arg a 0)).isNone then .no s dNoSuch
    else { s := { s with sched := mdel s.sched (arg a 0) } }

/-- ScheduleRead: an entry not in use reads 0. -/
def dScheduleRead : DaridDef where
  op := 0x0403
  senders := [.c, .m, .f]
  own := ownEntry
  changes := false
  len := (· == 1)
  bad _ a := badWord [(0, arg a 0 < 1024)]
  body s _ a :=
    { s := s, words := match s.sched.lookup (arg a 0) with | some e => schedWords e | none => List.replicate 8 0 }

/-! ### Time commands (R51, R69, R70) -/

def dTimeStepAdvance : DaridDef where
  op := 0x0B01
  senders := [.c, .m, .f]
  changes := false
  mirrored := true
  len := (· == 0)
  body s _ _ := let s := s.stepAdvance; { s := s, words := lohi s.time.step.toNat }

def dTimePhaseAdvance : DaridDef where
  op := 0x0B02
  senders := [.c, .m, .f]
  changes := false
  mirrored := true
  len := (· == 0)
  body s _ _ :=
    let w := s.time.step
    if stepPhase w = 65535 then { s := s, status := dSaturated, words := lohi w.toNat }
    else let s := s.setTime fun t => { t with step := t.step + 1 }; { s := s, words := lohi s.time.step.toNat }

/-- TimeStepSet: keys that a jump forward passes have been missed. -/
def dTimeStepSet : DaridDef where
  op := 0x0B03
  senders := [.c, .m, .f]
  len := (· == 2)
  body s _ a :=
    let old := s.time.step
    let s := s.setTime fun t => { t with step := BitVec.ofNat 64 (arg64 a 0) }
    let s := s.disarm true old.toNat (arg64 a 0)
    { s := s.logFw 0x0B08 3 (lohi old.toNat ++ lohi (arg64 a 0)) }

/-- TimeAcceptCorrection (R69): POD steps, or slews; discipline resumes. -/
def dTimeAcceptCorrection : DaridDef where
  op := 0x0B04
  senders := [.m, .f]
  len := (· == 1)
  bad _ a := badWord [(0, arg a 0 < 2)]
  body s _ a :=
    let t := s.time
    if !t.corrPending then .no s dNothing
    else
      let corr := t.pendingCorr.toInt
      let step := arg a 0 == 0
      let s := s.setTime fun t =>
        { t with
          corrPending := false, gmPending := false, gmId := if t.gmPending then t.gmPendId else t.gmId
          lock := .acquiring, lockCount := 0, episodeCount := 0
          pod := if step then t.pod + corr * nsUnit else t.pod, stepCtr := if step then t.stepCtr + 1 else t.stepCtr
          slew := if step then 0 else corr * nsUnit }
      let s := if step then s.disarm false (t.pod / nsUnit).toNat s.podNs else s
      { s := s.logFw 0x0B02 3 (slohi corr ++ [arg a 0]), words := slohi corr }

/-- A write of TB_CTRL by firmware (R60, R62, R65, R68). Entering FREE drops what was pending and a slew in progress. From one reference
to another a pending correction stays, with HOLD; else the servo acquires (DEDUCED, log 63). The 1PPS input out of use shows no edge. -/
def State.writeTbCtrl (s : State) (v : Nat) : State :=
  let src : BitVec 2 := BitVec.ofNat 2 (if bitsOf v 1 0 = 3 then 0 else bitsOf v 1 0)
  let t := s.time
  let s := s.setTime fun t =>
    { t with
      podSrc := src, wgPort := BitVec.ofNat 4 (bitsOf v 5 2), ppsInEn := bitOf v 6, ppsOutEn := bitOf v 7
      domain := BitVec.ofNat 8 (bitsOf v 15 8), udp := bitOf v 16
      ppsSeen := t.ppsSeen && bitOf v 6, ppsLost := if bitOf v 6 then t.ppsLost && t.ppsInEn else true
      ppsLast := if bitOf v 6 && !t.ppsInEn then t.mono else t.ppsLast }
  if src = t.podSrc then s
  else
    let s := s.setTime fun t =>
      { t with gmFresh := true, lockCount := 0, ptpSync := none, masters := [], tsReq := none, lastMeas := t.mono }
    if src = 0 then
      s.setTime fun t => { t with lock := .free, episodeCount := 0, corrPending := false, gmPending := false, slew := 0 }
    else if t.corrPending then s
    else s.setTime fun t => { t with lock := .acquiring }

/-- TimeConfigure: values beyond a range store the nearer limit (R70), INTERVAL above 13 stores 13, POD_SRC 0b11 counts as 0b00
(R60). -/
def dTimeConfigure : DaridDef where
  op := 0x0B05
  senders := [.m, .f]
  len := (· == 4)
  bad _ a := badWord [
    (0, bitsOf (arg a 0) 31 17 == 0 && bitsOf (arg a 0) 5 2 < 13 && bitsOf (arg a 0) 15 8 < 128),
    (1, bitsOf (arg a 1) 31 20 == 0), (2, bitsOf (arg a 2) 31 24 == 0), (3, bitsOf (arg a 3) 31 5 == 0)]
  body s _ a :=
    let s := (s.writeTbCtrl (arg a 0)).setTime fun t =>
      { t with thresh := max 1000 (min 1000000 (arg a 1)), ppsDelay := arg a 2 }
    { s := { s with fab := { s.fab with interval := min 13 (arg a 3) } } }

/-- TB_STATUS of a CTD. -/
def State.tbStatus (s : State) (ctd : Nat) : Nat :=
  let t := s.time
  b2n t.podValid + 2 * b2n t.tollValid + 4 * t.lock.code + 16 * b2n t.corrPending + 32 * b2n t.gmPending +
    64 * b2n (s.holder == some ctd && s.ctd.lease.gates) + 128 * b2n t.ppsSeen

def dTimeQuery : DaridDef where
  op := 0x0B06
  senders := [.c, .m, .f]
  standby := true
  changes := false
  len := (· == 0)
  body s w _ :=
    { s := s, words := [s.tbStatus w.ctd] ++ lohi s.podStamp.toNat ++ lohi s.time.step.toNat ++ lohi s.time.pendingCorr.toNat }

def execScheduleWrite (r : DReq) (s : State) : Host.Outcome State Fault Refusal := .next (runDarid dScheduleWrite r s)
def execScheduleClear (r : DReq) (s : State) : Host.Outcome State Fault Refusal := .next (runDarid dScheduleClear r s)
def execScheduleRead (r : DReq) (s : State) : Host.Outcome State Fault Refusal := .next (runDarid dScheduleRead r s)
def execTimeStepAdvance (r : DReq) (s : State) : Host.Outcome State Fault Refusal := .next (runDarid dTimeStepAdvance r s)
def execTimePhaseAdvance (r : DReq) (s : State) : Host.Outcome State Fault Refusal := .next (runDarid dTimePhaseAdvance r s)
def execTimeStepSet (r : DReq) (s : State) : Host.Outcome State Fault Refusal := .next (runDarid dTimeStepSet r s)
def execTimeAcceptCorrection (r : DReq) (s : State) : Host.Outcome State Fault Refusal := .next (runDarid dTimeAcceptCorrection r s)
def execTimeConfigure (r : DReq) (s : State) : Host.Outcome State Fault Refusal := .next (runDarid dTimeConfigure r s)
def execTimeQuery (r : DReq) (s : State) : Host.Outcome State Fault Refusal := .next (runDarid dTimeQuery r s)

end Sys2Proof.Machine
end

