-- ==== Sys2Proof/Machine/Boot.lean ====
section
/-! DEFINITION. The boot ROMs: clamp block and image checks, and the module power-on reset (chapters 09 and 16). -/

namespace Sys2Proof.Machine

/-! ### The clamp block (R301-R305) -/

/-- Valid FABRIC_WIN and LOCAL_WIN entries of a block. -/
def fabWinsOf (b : List Byte) : List (Nat × Nat × Nat × Nat) :=
  ((List.range 8).map fun i => (b.drop (0x40 + 16 * i)).take 16).filterMap fun e =>
    if bitOf (fieldAt e 6 1) 0 then some (fieldAt e 0 2, fieldAt e 2 2, fieldAt e 4 2, fieldAt e 8 4) else none
def localWinsOf (b : List Byte) : List (Nat × Nat × Nat) :=
  ((List.range 8).map fun i => (b.drop (0xC0 + 16 * i)).take 16).filterMap fun e =>
    if bitOf (fieldAt e 12 1) 2 then some (fieldAt e 0 8, fieldAt e 8 4, fieldAt e 12 1) else none

/-- SPEED_BIN × 10 of each die. -/
def State.fuseMhz (s : State) (d : Nat) : Nat := 10 * (s.fuse.dieInv.getD d {}).speedBin

/-- Every field of a block lies in its range (R303-R305). -/
def State.clampRanges (s : State) (b : List Byte) : Bool :=
  let f := fieldAt b
  let within := fun (x lo hi : Nat) => decide (lo ≤ x) && decide (x ≤ hi)
  let fw := (List.range 8).map fun i => (b.drop (0x40 + 16 * i)).take 16
  let lw := (List.range 8).map fun i => (b.drop (0xC0 + 16 * i)).take 16
  f 6 2 == 0x180 && within (f 0x14 2) 600 1750 && within (f 0x16 2) 120 380 && within (f 0x18 2) 10 200 &&
    within (f 0x1A 1) 85 105 && within (f 0x1B 1) 2 15 && within (f 0x1C 1) 1 8 && within (f 0x1D 1) 1 168 &&
    bitOf (f 0x1E 1) 0 && f 0x1E 1 < 4 && f 0x1F 1 == 0 && ((List.range 4).all fun d => f (0x20 + 2 * d) 2 ≤ s.fuseMhz d) &&
    f 0x28 2 ≤ 3000 && within (f 0x2A 2) 600 900 && f 0x2C 4 < 2 ^ 24 && ((b.drop 0x30).take 16).all (· == 0) &&
    ((b.drop 0x160).take 32).all (· == 0) &&
    fw.all (fun e => fieldAt e 6 1 < 2 && fieldAt e 7 1 == 0 && fieldAt e 12 4 == 0) &&
    lw.all (fun e => fieldAt e 0 8 < 2 ^ 48 && fieldAt e 0 8 % 2 ^ 21 == 0 && fieldAt e 12 1 < 8 && fieldAt e 13 3 == 0)

/-- The ROM check that fails on a block: 1 magic or version, 2 serial, 3 sequence, 4 signature, 5 range; 0 none. -/
def State.clampCheck (s : State) (b : List Byte) : Nat :=
  if b.length < 768 || fieldAt b 0 4 != 0x504D4C43 || fieldAt b 4 2 != 1 then 1
  else if fieldAt b 8 8 != 0 && fieldAt b 8 8 != s.fuse.serial.toNat then 2
  else if fieldAt b 0x10 4 < s.ctd.nv.clampSeq then 3
  else if !Config.rsaVerify (Config.fusedKey 0) (b.take 0x180) ((b.drop 0x180).take 384) then 4
  else if !s.clampRanges b then 5
  else 0

/-- The values of an accepted block. -/
def clampOf (b : List Byte) : Clamp :=
  let f := fieldAt b
  { valid := true, bound := f 8 8 != 0, failed := 0, image := b.take 768, seq := f 0x10 4, pMax := f 0x14 2, iMax := f 0x16 2
    ramp := f 0x18 2, tj := f 0x1A 1, wdogMs := f 0x1B 1, recLimit := f 0x1C 1, recWindow := f 0x1D 1
    tollPolicy := BitVec.ofNat 2 (f 0x1E 1), fMe := (List.range 4).map fun d => f (0x20 + 2 * d) 2, fHost := f 0x28 2
    vCore := f 0x2A 2, linkPermit := BitVec.ofNat 32 (f 0x2C 4), fabWin := fabWinsOf b, localWin := localWinsOf b
    opKey := (b.drop 0x140).take 32 }

/-- The fused defaults (R302), with the check that failed. -/
def State.clampDefault (s : State) (failed : Nat) : Clamp := { failed := failed, fMe := (List.range 4).map s.fuseMhz }

/-- The block that CTD_CLAMP_IMAGE shows: the accepted one, or one with the default values and a zero signature. -/
def Clamp.block (c : Clamp) : List Byte :=
  if c.valid then c.image
  else
    leBytes 4 0x504D4C43 ++ leBytes 2 1 ++ leBytes 2 0x180 ++ leBytes 8 0 ++ leBytes 4 c.seq ++ leBytes 2 c.pMax ++
      leBytes 2 c.iMax ++ leBytes 2 c.ramp ++ leBytes 1 c.tj ++ leBytes 1 c.wdogMs ++ leBytes 1 c.recLimit ++
      leBytes 1 c.recWindow ++ leBytes 1 c.tollPolicy.toNat ++ leBytes 1 0 ++ c.fMe.flatMap (leBytes 2) ++ leBytes 2 c.fHost ++
      leBytes 2 c.vCore ++ leBytes 4 c.linkPermit.toNat ++ List.replicate 720 0

/-- The ROM loads the clamps. -/
def State.loadClamps (s : State) : State :=
  let b := s.ctd.nv.clampBlock
  match s.clampCheck b with
  | 0 =>
    let nv := { s.ctd.nv with clampSeq := fieldAt b 0x10 4 }
    { s with ctd := { s.ctd with clamp := clampOf b, nv := nv } }
  | k => { s with ctd := { s.ctd with clamp := s.clampDefault k } }

/-! ### The firmware image (R474, R475, R478) -/

/-- The failure code of an image (R475); 0 none. An empty flash has no magic. -/
def State.imageCheck (s : State) (b : List Byte) : Nat :=
  let len := fieldAt b 12 4
  let rel := fieldAt b 6 2
  if fieldAt b 0 4 != 0x57465A45 || fieldAt b 4 2 != 1 then 1
  else if len % 4096 != 0 || 2 ^ 23 < len + 384 || len < 64 || len ≤ fieldAt b 16 4 then 2
  else if rel < fieldAt b 8 2 then 3
  else if rel < s.ctd.nv.minRelease then 4
  else if !Config.rsaVerify (Config.fusedKey 1) (b.take len) ((b.drop len).take 384) then 5
  else 0

/-- The SECDED field of a 32-byte word of a CTD's SRAM (R189, R283). -/
def Ctd.sramField (x : Ctd) (n : Nat) : Nat := secdedField ((x.sram.drop (32 * n)).take 32)

/-- The toll engine checks its sealed key at a boot of its CTD: a bad or missing one is generated anew (R466). -/
def State.checkKey (s : State) (c : Nat) : State :=
  let bad := s.ctd.nv.keyGen.getD c 0 == 0 || !s.ctd.nv.keyGood.getD c false
  { s with toll := { s.toll with keyBusy := s.toll.keyBusy.set c bad } }

/-- A CTD boots: its ROM reads the image from flash (R475: a read that does not complete is failure 6), checks it and starts it, or
enters ROM recovery (R478). -/
def State.bootCtd (s : State) (c : Nat) : State :=
  let b := s.ctd.nv.image
  let k := if s.ctd.nv.imageReads.getD c false then s.imageCheck b else 6
  let now := s.time.mono
  let s := (s.checkKey c).setCtd c fun x =>
    { x with
      running := true, heldUntil := none, role := .booting, health := .good, claimable := false, hit := 0, bootAt := now
      kickAt := now, imageFail := k, stage := if k = 0 then 3 else 4
      release := if k = 0 then fieldAt b 6 2 else s.ctd.nv.lastRelease, minRelease := if k = 0 then fieldAt b 8 2 else 0
      imageHash := if k = 0 then sha256 (b.take (fieldAt b 12 4 + 384)) else []
      sram := if k = 0 then b.take (fieldAt b 12 4) else [], spNext := 0
      sievePass := 0, sieveFail := 0, resyncAsked := false, copied := false, mirrorSeq := 0, nextSeq := 0 }
  if k = 0 then s
  else s.logTo c 0x0E02 6 (512 + c) [c, k, if k = 1 || k = 6 then 0 else fieldAt b 6 2, s.ctd.nv.minRelease]

/-! ### Module power-on reset (R477) -/

/-- What a Ledger keeps over power-on reset: the flash mirror and its counts; the boot number goes up (R347). -/
def Ledger.powerOn (l : Ledger) : Ledger :=
  { flash := l.flash, boot := l.boot + 1, flashOver := l.flashOver, flashDropped := l.flashDropped, flashSeq := l.flashSeq }

/-- Everything at its reset value, but for fuses, the non-volatile stores and what the model itself adds. -/
def State.dark (s : State) : State :=
  let r : State := {}
  { r with
    pending := s.pending, fuse := s.fuse, free := s.free
    ledgers := s.ledgers.map fun l => { l.powerOn with boot := l.boot }
    ctd := { r.ctd with nv := s.ctd.nv }, toll := { r.toll with boot := s.toll.boot } }

/-- The same at a power-on reset: the boot numbers go up. -/
def State.cold (s : State) : State :=
  let s := s.dark
  { s with ledgers := s.ledgers.map Ledger.powerOn, toll := { s.toll with boot := s.toll.boot + 1 } }

/-- The sieve pack and the calibration set that flash holds are in use from power-on. -/
def State.loadStores (s : State) : State :=
  let s := if s.ctd.nv.pack.isEmpty then s else s.usePack s.ctd.nv.pack
  { s with toll := { s.toll with calUse := s.validCal } }

/-- POWER_ON_RESET (R477, R301, R475): causes 1 to 6 of LEASE_RESET_CAUSE. The lease cell starts MONO; each CTD's ROM loads the
clamps and checks the image. -/
def State.powerOn (s : State) (cause : Nat) : State :=
  let nv := { s.ctd.nv with
    resetCause := cause, resetCount := satAdd 0xFFFF s.ctd.nv.resetCount 1, poweredNs := s.ctd.nv.poweredNs + s.time.mono }
  let s := ({ s with ctd := { s.ctd with nv := nv } }).cold.loadStores.loadClamps
  ([0, 1].filter s.ctdPresent).foldl State.bootCtd s

def execPowerOnReset (cause : Fin 8) (s : State) : Host.Outcome State Fault Refusal :=
  .next (if 1 ≤ cause.val && cause.val ≤ 6 then s.powerOn cause else s)

end Sys2Proof.Machine
end

