-- ==== Sys2Proof/Machine/Power.lean ====
section
/-! DEFINITION. Clocks and voltages, limiters, junctions, and the removal of power (chapters 09 and 16). -/

namespace Sys2Proof.Machine

/-! ### Effective clocks (R490, R491, R306) -/

/-- A clock scaled down by sixteenths: a multiple of 25 MHz, never below 400 MHz. -/
def scaled (mhz sixteenths : Nat) : Nat := if sixteenths = 0 then mhz else max 400 (mhz * (16 - sixteenths) / 16 / 25 * 25)

/-- The ME clock of a die under its own limiters. -/
def State.ownClock (s : State) (d : Nat) : Nat := let p := s.pow d; min (scaled p.me p.limit) (scaled p.me p.thermal)

/-- Ring neighbours (R19). -/
def ringNeighbours (d : Nat) : List Nat := [[1, 2], [0, 3], [0, 3], [1, 2]].getD d []

/-- One application of the ratio 1.6:1 to four clocks. -/
def State.ratioStep (s : State) (es : List Nat) : List Nat :=
  (List.range 4).map fun d =>
    ((ringNeighbours d).filter fun n => !(s.die n).inReset).foldl (fun e n => min e (es.getD n 0 * 8 / 5 / 25 * 25)) (es.getD d 0)

/-- Effective ME clocks of the four dies. -/
def State.meClocks (s : State) : List Nat :=
  [0, 1, 2].foldl (fun es _ => s.ratioStep es) ((List.range 4).map s.ownClock)

/-- After a change of clocks the ratio limits are in force, each new one logged (R491). -/
def State.settleClocks (s : State) : State :=
  let es := s.meClocks
  (List.range 4).foldl (fun s d =>
    let e := es.getD d 0
    let lim := if e < s.ownClock d then some e else none
    let old := (s.pow d).pair
    let s := s.setPow d fun p => { p with pair := lim }
    if lim.isNone || lim == old then s
    else
      let slow := (ringNeighbours d).foldl (fun b n =>
        if (s.die n).inReset then b else match b with
          | none => some n
          | some m => if es.getD n 0 < es.getD m 0 then some n else some m) none
      let n := slow.getD d
      s.logDie d 0x0F03 3 [d, n, (s.pow d).me, e, es.getD n 0]) s

/-- POWER_LIMITER_SAMPLE (R306): power averaged over 1 ms and current averaged over 10 µs against the clamps: 1/16 less per
sample while power is above, half at once on current, and 1/16 more per sample once both are below. -/
def execPowerLimiterSample (avgPowerW avgCurrentDA : Nat) (s : State) : Host.Outcome State Fault Refusal :=
  .next <|
    let c := s.ctd.clamp
    let hiP := c.pMax < avgPowerW
    let hiI := c.iMax < avgCurrentDA
    let upd := fun (p : PowDie) =>
      let l := if hiI then (if p.halved then min 15 (p.limit + 1) else min 15 (8 + p.limit / 2))
        else if hiP then min 15 (p.limit + 1) else p.limit - 1
      { p with limit := l, halved := hiI }
    let s := { s with power := { s.power with dies := s.power.dies.map upd } }
    let s := if hiP then s.clampHit 0 avgPowerW c.pMax 0 else s
    let s := if hiI then s.clampHit 1 avgCurrentDA c.iMax 0 else s
    s.settleClocks

/-! ### Junctions (R492, R493) -/

/-- Degrees of a signed number of m°C, as a parameter word. -/
def degrees (m : Int) : Nat := twos 32 (m / 1000)

/-- A die trips: its engines and harts stop and its core rail is off; what it did is lost as in a die reset. -/
def State.thermalTrip (s : State) (d : Nat) (t : Int) : State :=
  let js := dieEngines d
  let s := (js.foldl (fun s j => s.haltEngine j) (s.dropRuns js)).failTransit d
  let s := ((List.range 13).filter fun p => (s.portDies p).contains d).foldl (fun s p => s.linkDown p 1) s
  let s := s.setDie d fun x => { x with inReset := true, hartsRun := false, tripped := true }
  let s := js.foldl (fun s j => s.setEng j fun e => { e with st := .resetting }) s
  let s := (List.range 6).foldl (fun s i => s.setStack (6 * d + i) fun t => { t with selfRefresh := true }) s
  let s := { s with sched := mmapv s.sched fun _ e => { e with armed := e.armed.set d none } }
  ((s.logDie d 0x0F04 6 [d, degrees t, s.ctd.clamp.tj]).pathCheck.flowsOff d).unstall

/-- The clamps of one die at a sample: a step down each 100 µs while a condition holds, a step up each 1 ms once none does. -/
def State.thermalStep (s : State) (d : Nat) (t : Int) : State :=
  let p := s.pow d
  let now := s.time.mono
  let top : Int := s.ctd.clamp.tj * 1000
  let cool := (ringNeighbours d).foldl (fun b n => min b (s.pow n).junction) ((s.pow ((ringNeighbours d).headD 0)).junction)
  let self := decide (top < t)
  let neigh := decide (cool + (if p.neigh then 20000 else 25000) < t)
  let down := self || neigh
  let up := decide (t < top - 3000) && !neigh
  let first := (self && !p.hot) || (neigh && !p.neigh)
  let th := if down && (first || p.stepAt + 100000 ≤ now) then min 15 (p.thermal + 1)
    else if up && p.thermal != 0 && p.stepAt + 1000000 ≤ now then p.thermal - 1 else p.thermal
  let s := s.setPow d fun p =>
    { p with
      thermal := th, hot := self || (p.hot && th != 0), neigh := neigh, stepAt := if th = p.thermal then p.stepAt else now }
  let s := s.settleClocks
  let e := s.meClocks.getD d 0
  let s := if self && !p.hot then
      (s.clampHit 9 (degrees t) s.ctd.clamp.tj d).logDie d 0x0F02 4 [d, 1, degrees t, degrees cool, p.me, e] else s
  if neigh && !p.neigh then s.logDie d 0x0F02 4 [d, 2, degrees t, degrees cool, p.me, e] else s

/-- JUNCTION_SAMPLE (R492): clamps, the trip, and the reset that follows a trip once the die has cooled; with the out-of-service
latch set the die stays in reset (R308). -/
def execJunctionSample (die : Fin 4) (tempMilliC : Int) (s : State) : Host.Outcome State Fault Refusal :=
  .next <|
    let d := die.val
    let top : Int := s.ctd.clamp.tj * 1000
    let s := s.setPow d fun p => { p with junction := tempMilliC }
    let s :=
      if (s.die d).tripped then
        if tempMilliC < top - 10000 && s.serving.isSome && !s.ctd.nv.latched && (s.die d).resetStart.isNone then
          (s.setDie d fun x => { x with tripped := false }).startDieReset d 1 []
        else s
      else if (s.die d).inReset then s
      else if top + 10000 ≤ tempMilliC then s.thermalTrip d tempMilliC
      else s.thermalStep d tempMilliC
    s.alertCheck

/-- THERM_ALERT_RELEASE (R493): 10 ms after no condition holds. -/
def execThermAlertRelease (s : State) : Host.Outcome State Fault Refusal :=
  .next <|
    match s.power.clearSince with
    | some t =>
      if s.power.alert && !s.alertHolds && t + 10000000 ≤ s.time.mono then { s with power := { s.power with alert := false } } else s
    | none => s

/-! ### Loss of power (R487, R488) -/

/-- Every rail but the always-on rail is off. The lease cell goes on as it is while the input is in range (R24); out of range only
its MONO and its generation are taken to stand (log 62). -/
def State.railsOff (s : State) (inRange : Bool) : State :=
  let k := s.dark
  { k with
    time := { k.time with mono := s.time.mono }, mgmt := s.mgmt, i3c := s.i3c
    ctd := { k.ctd with lease := if inRange then s.ctd.lease else { gen := s.ctd.lease.gen } }
    power := { k.power with rails := false } }

/-- INPUT_TRIP (R487): undervoltage, overvoltage, overcurrent; the cause is recorded. -/
def execInputTrip (kind : Fin 3) (s : State) : Host.Outcome State Fault Refusal :=
  .next <|
    let s := s.railsOff (kind.val == 2)
    let nv := { s.ctd.nv with resetCause := 3 + kind.val }
    { s with ctd := { s.ctd with nv := nv }, power := { s.power with trip := kind.val + 1 } }

/-- MOD_RST_N_LOW (R488): the rails are held off; the sequence starts when the pin rises (POWER_ON_RESET). -/
def execModRstNLow (s : State) : Host.Outcome State Fault Refusal :=
  .next <|
    let s := s.railsOff true
    { s with power := { s.power with rstLow := true } }

/-! ### Commands (0x0Fxx) -/

/-- The highest ME and host clock that the fused table allows at a voltage. -/
def State.vfLimit (s : State) (d mv : Nat) : Nat × Nat :=
  ((s.fuse.vfTable.getD d []).filter fun e => e.1 ≤ mv).foldl (fun b e => (max b.1 e.2.1, max b.2 e.2.2)) (0, 0)

/-- A change of setpoints is paced so that its power step stays below RAMP_W_MS (R306). The step in W/ms that it would have made is
open (log 4). -/
def State.paced (s : State) (d : Nat) : State :=
  let (v, s) := s.draw 32
  if s.ctd.clamp.ramp < v.toNat then s.clampHit 8 v.toNat s.ctd.clamp.ramp d else s

/-- PowerSetDie (R490): rounded down to its step, stored as the clamp above it. DESIGN CHOICE (log 65): where a clock and the voltage
are both clamped, DETAIL is the lower bit number. -/
def dPowerSetDie : DaridDef where
  op := 0x0F01
  senders := [.m, .f]
  len := (· == 4)
  bad _ a := badWord [(0, arg a 0 < 4), (1, 400 ≤ arg a 1), (2, 500 ≤ arg a 2), (3, 600 ≤ arg a 3)]
  body s _ a :=
    let d := arg a 0
    let c := s.ctd.clamp
    let fMax := min (s.fuseMhz d) (c.fMe.getD d 0)
    let me := min (arg a 1) fMax / 25 * 25
    let host := min (arg a 2) c.fHost / 100 * 100
    let mv := min (arg a 3) c.vCore / 5 * 5
    let (vm, vh) := s.vfLimit d mv
    if vm < me then { s := s, status := dBadArg, detail := 1 }
    else if vh < host then { s := s, status := dBadArg, detail := 2 }
    else
      let s := if fMax < arg a 1 then s.clampHit 2 (arg a 1) fMax d else s
      let s := if c.fHost < arg a 2 then s.clampHit 2 (arg a 2) c.fHost d else s
      let s := if c.vCore < arg a 3 then s.clampHit 3 (arg a 3) c.vCore d else s
      let capped := fMax < arg a 1 || c.fHost < arg a 2 || c.vCore < arg a 3
      let p := s.pow d
      let s := if p.me = me && p.host = host && p.mv = mv then s else s.paced d
      { s := (s.setPow d fun p => { p with me := me, host := host, mv := mv }).settleClocks
        status := if capped then dClamped else dOk
        detail := if !capped then 0 else if fMax < arg a 1 || c.fHost < arg a 2 then 2 else 3 }

def dPowerCap : DaridDef where
  op := 0x0F02
  senders := [.m, .f]
  len := (· == 1)
  body s _ a :=
    let m := s.ctd.clamp.pMax
    { s := { s with power := { s.power with cap := min (arg a 0) m } }, status := if m < arg a 0 then dClamped else dOk }

/-- PowerQuery: input power, core-rail power and junctions as live counters 2, 3-6 and 14-17 give them, then per die the
setpoints and the effective ME clock (DESIGN CHOICE: the manual does not lay the words out). -/
def dPowerQuery : DaridDef where
  op := 0x0F03
  senders := [.c, .m, .f]
  standby := true
  changes := false
  len := (· == 0)
  body s _ _ :=
    let live := fun (i : Nat) => mget 0 s.obs.live i % 2 ^ 32
    { s := s
      words := live 2 :: ((List.range 4).map fun d => live (3 + d)) ++ ((List.range 4).map fun d => twos 32 (s.pow d).junction) ++
        (List.range 4).flatMap fun d => [(s.pow d).me, (s.pow d).host, (s.pow d).mv, s.meClocks.getD d 0] }

def execPowerSetDie (r : DReq) (s : State) : Host.Outcome State Fault Refusal := .next (runDarid dPowerSetDie r s)
def execPowerCap (r : DReq) (s : State) : Host.Outcome State Fault Refusal := .next (runDarid dPowerCap r s)
def execPowerQuery (r : DReq) (s : State) : Host.Outcome State Fault Refusal := .next (runDarid dPowerQuery r s)

end Sys2Proof.Machine
end

