-- ==== Sys2Proof/Machine/Toll.lean ====
section
/-! DEFINITION. Energy tolls (chapter 15): rail samples and attribution, records, manifests, the toll key, and the reads of the
calibration set. -/

namespace Sys2Proof.Machine

/-! ### Calibration in effect (R469, R471) -/

/-- Current gain (Q16.16) and offset in mA of a rail, in the order of R452. -/
def State.railGain (s : State) (r : Nat) : Nat × Int :=
  if s.toll.calUse.isEmpty then (65536, 0)
  else let b := calSection s.toll.calUse 3; (fieldAt b (8 * r) 4, sfield32 b (8 * r + 4))

/-- Corrected current of a rail in mA, and its energy of one interval in nJ (mV × mA × 10 µs). -/
def State.railMa (s : State) (r ma : Nat) : Nat :=
  let (g, o) := s.railGain r
  (((ma * g : Nat) / 65536 : Nat) + o).toNat
def State.railNj (s : State) (r mv ma : Nat) : Nat :=
  let (g, o) := s.railGain r
  ((mv : Int) * ((ma * g : Nat) + o * 65536) / (65536 * 100)).toNat

/-- The share of a unit of a die in its core rail: numerator and denominator. Units 0-15 ME, 16-19 VE, 20-27 DE, 28-35 hart. -/
def State.unitShare (s : State) (d u : Nat) : Nat × Nat :=
  if s.toll.calUse.isEmpty then (1, 36)
  else
    let k := if u < 16 then 0 else if u < 20 then 1 else if u < 28 then 2 else 3
    (fieldAt (calSection s.toll.calUse 6) (8 * d + 2 * k) 2, 65536)

/-- Coefficients in pJ: a byte by rate code, a flit by level. -/
def State.coeff (s : State) (i : Nat) : Nat :=
  if s.toll.calUse.isEmpty then Config.defaultCoeff i else fieldAt (calSection s.toll.calUse 6) (32 + 4 * i) 4
def State.eByte (s : State) (rate : Nat) : Nat := if rate < 3 then s.coeff rate else 0
def State.eFlit (s : State) (level : Nat) : Nat := if level < 5 then s.coeff (3 + level) else 0

/-! ### Attribution of one interval (R454, R455) -/

/-- The accounts, but for UNATTRIBUTED. -/
inductive AcctKey where
  | tag (t : Nat)
  | ctx (c : Nat)
  | host
  | idle
  | module_
deriving DecidableEq, Repr

/-- A charge: account, part of the record (0 ME, 1 VE, 2 DE, 3 memory, 4 fabric), energy in nJ. -/
abbrev Charge := AcctKey × Nat × Nat

/-- What has occupied a unit: accounts and cycles; only open tags have an account. -/
def State.unitUse (s : State) (x : RailSample) (d u : Nat) : List (AcctKey × Nat) :=
  let pick := fun (l : List (Nat × Nat × Nat × Nat)) => (l.filter fun e => e.1 == d && e.2.1 == u).map (·.2.2)
  ((pick x.tagCycles).filter fun e => (s.tag e.1).isOpen).map (fun e => (AcctKey.tag e.1, e.2)) ++
    (pick x.ctxCycles).map (fun e => (AcctKey.ctx e.1, e.2)) ++
    (x.modCycles.filter fun e => e.1 == d && e.2.1 == u).map fun e => (AcctKey.module_, e.2.2)

/-- The core rail of a die: each unit's share by its cycles, what no account occupies to IDLE, harts to HOST. -/
def State.coreCharges (s : State) (x : RailSample) (d e : Nat) : List Charge :=
  (List.range 36).flatMap fun u =>
    let (n, m) := s.unitShare d u
    let part := fun (cyc : Nat) => e * n * cyc / (m * 15000)
    if 28 ≤ u then [(.host, 2, part 15000)]
    else
      let used := s.unitUse x d u
      let k := if u < 16 then 0 else if u < 20 then 1 else 2
      used.map (fun c => (c.1, k, part c.2)) ++ [(.idle, k, part (15000 - (used.map (·.2)).foldl (· + ·) 0))]

/-- A rail shared by what bytes or flits want, in pJ: whole if there is enough, else in proportion; the rest is IDLE. -/
def wantCharges (e part : Nat) (wants : List (AcctKey × Nat)) : List Charge :=
  let sum := (wants.map (·.2)).foldl (· + ·) 0
  if sum ≤ e * 1000 then wants.map (fun w => (w.1, part, w.2 / 1000)) ++ [(.idle, part, (e * 1000 - sum) / 1000)]
  else wants.map fun w => (w.1, part, w.2 * e / sum)

/-- Bytes or flits of an interval with their accounts: account, rate code or level, number. -/
def State.moved (s : State) (tags ctxs : List (Nat × Nat × Nat)) (mods : List (Nat × Nat)) : List (AcctKey × Nat × Nat) :=
  (tags.filter fun e => (s.tag e.1).isOpen).map (fun e => (AcctKey.tag e.1, e.2)) ++ ctxs.map (fun e => (AcctKey.ctx e.1, e.2)) ++
    mods.map fun e => (AcctKey.module_, e)

/-- A die gives no report for the interval: it is in reset, or the report was lost. -/
def State.noReport (s : State) (x : RailSample) (d : Nat) : Bool := x.missing.getLsbD d || (s.die d).inReset

/-- Millivolts and milliamperes sampled on a rail behind the input; the optical engines' reads 0 on ZM1-AE. -/
def State.railOf (s : State) (x : RailSample) (i : Nat) : Nat × Nat :=
  if i = 9 && !s.hasOptics then (0, 0) else x.rails.getD i (0, 0)

/-- Energies of the eleven rails behind the input, in the order core, I/O, LPDDR, optical, CTD. -/
def State.railEnergies (s : State) (x : RailSample) : List Nat :=
  (List.range 11).map fun i =>
    let r := s.railOf x i
    if i = 9 && !s.hasOptics then 0 else s.railNj (1 + i) r.1 r.2

/-- The rail charges of an interval. Flits of levels L3 and L4 draw on the optical rail, others on the I/O rails of the dies that
have reported. -/
def State.railCharges (s : State) (x : RailSample) (es : List Nat) : List Charge :=
  let here := (List.range 4).filter fun d => !s.noReport x d
  let io := (here.map fun d => es.getD (4 + d) 0).foldl (· + ·) 0
  let bytes := (s.moved x.tagBytes x.ctxBytes x.modBytes).map fun m => (m.1, m.2.2 * s.eByte m.2.1)
  let flits := s.moved x.tagFlits x.ctxFlits x.modFlits
  let want := fun (l : List (AcctKey × Nat × Nat)) => l.map fun m => (m.1, m.2.2 * s.eFlit m.2.1)
  (here.flatMap fun d => s.coreCharges x d (es.getD d 0)) ++
    wantCharges (es.getD 8 0) 3 bytes ++
    wantCharges io 4 (want (flits.filter fun m => m.2.1 < 3)) ++
    wantCharges (es.getD 9 0) 4 (want (flits.filter fun m => 3 ≤ m.2.1)) ++
    [(.module_, 4, es.getD 10 0)]

/-- The conversion loss, shared by rail energy: part 5 of each account. A sum of rails above the input shares nothing. -/
def convCharges (input rails : Nat) (cs : List Charge) : List Charge :=
  if rails = 0 then []
  else (cs.map (·.1)).eraseDups.map fun k =>
    let r := ((cs.filter fun c => c.1 == k).map (·.2.2)).foldl (· + ·) 0
    (k, 5, (input - rails) * r / rails)

def Acct.charge (a : Acct) (part e : Nat) : Acct := { a with parts := lmod a.parts part (· + e) }

/-- One charge put to its account. -/
def TollSt.charge (t : TollSt) (c : Charge) : TollSt :=
  let w := t.win
  match c.1 with
  | .tag k =>
    { t with
      tags := mmod {} t.tags k fun g => { g with acct := g.acct.charge c.2.1 c.2.2 }
      win := { w with tags := w.tags + c.2.2 }, tagAll := t.tagAll + c.2.2 }
  | .ctx k => { t with win := { w with over_ := mmod {} w.over_ k fun a => a.charge c.2.1 c.2.2 } }
  | .host => { t with win := { w with host := w.host + c.2.2 } }
  | .idle => { t with win := { w with idle := w.idle + c.2.2 } }
  | .module_ => { t with win := { w with module_ := w.module_ + c.2.2 } }

/-- Cycles, bytes and flit bytes added to an account. -/
def TollSt.note (t : TollSt) (k : AcctKey) (f : Acct → Acct) : TollSt :=
  match k with
  | .tag g => { t with tags := mmod {} t.tags g fun x => { x with acct := f x.acct } }
  | .ctx c => { t with win := { t.win with over_ := mmod {} t.win.over_ c f } }
  | _ => t

/-- The quantities of an interval that records carry. -/
def State.noteUse (s : State) (x : RailSample) : State :=
  let here := (List.range 4).filter fun d => !s.noReport x d
  let cyc := here.flatMap fun d => (List.range 16).flatMap fun u => s.unitUse x d u
  let t := cyc.foldl (fun (t : TollSt) e => t.note e.1 fun a => { a with meCycles := a.meCycles + e.2 }) s.toll
  let t := (s.moved x.tagBytes x.ctxBytes []).foldl (fun (t : TollSt) e =>
    t.note e.1 fun a => { a with memBytes := a.memBytes + e.2.2 }) t
  let t := (s.moved x.tagFlits x.ctxFlits []).foldl (fun (t : TollSt) e =>
    t.note e.1 fun a => { a with fabBytes := a.fabBytes + 256 * e.2.2 }) t
  { s with toll := t }

/-- Why the window is marked GAP (R462, R472): cause and die, or none. -/
def State.gapNow (s : State) (x : RailSample) : Option (Nat × Nat) :=
  match (List.range 4).find? fun d => (s.die d).resetStart.isSome with
  | some d => some (1, d)
  | none =>
    if s.ctd.lease.closedAt.isSome then some (2, 0)
    else ((List.range 4).find? (s.noReport x)).map fun d => (3, d)

/-- Flags gathered for the window in an interval: GAP, and TOLL_SLEW while TOLL and POD differ by more than 1 µs. -/
def State.windowFlags (s : State) (x : RailSample) : State :=
  let slew := s.time.tollValid && 1000 < (s.time.pod - s.time.toll).natAbs / nsUnit.natAbs
  let w := s.toll.win
  let w := if slew then { w with flags := w.flags ||| 64 } else w
  let w : TollWindow := match s.gapNow x with
    | some (k, d) => if w.flags.testBit 2 then w else { w with flags := w.flags ||| 4, gapCause := k, gapDie := d }
    | none => w
  { s with toll := { s.toll with win := w } }

/-- Attribution of an interval (R455). -/
def State.attribute (s : State) (x : RailSample) : State :=
  let es := s.railEnergies x
  let input := s.railNj 0 x.inputMv x.inputMa
  let rails := es.foldl (· + ·) 0
  let cs := s.railCharges x es
  let all := cs ++ convCharges input rails cs
  let out : Nat := (all.map (·.2.2)).foldl (· + ·) 0
  let s := s.noteUse x
  let t := all.foldl TollSt.charge s.toll
  let w : TollWindow := { t.win with input := t.win.input + input, unattr := t.win.unattr + ((input : Int) - (out : Int)) }
  ({ s with toll := { t with win := w, inputAll := t.inputAll + input } }).windowFlags x

/-! ### Live counters (R353) and the power summary (R500) -/

/-- The live counters after a sample. Memory bandwidths are open (log 4). -/
def State.liveUpdate (s : State) (x : RailSample) : State :=
  let ma := s.railMa 0 x.inputMa
  let mw := fun (i : Nat) => let r := s.railOf x i; r.1 * s.railMa (1 + i) r.2 / 1000
  let (bw, s) := (List.range 8).foldl (fun (p : List Nat × State) _ => let (v, s) := p.2.draw 64; (p.1 ++ [v.toNat], s)) ([], s)
  let stackMax := ((List.range 24).map fun n => (s.stack n).tempC).foldl max 0
  let vals : List Nat :=
    [x.inputMv, ma, x.inputMv * ma / 1000] ++ (List.range 11).map mw ++ ((List.range 4).map fun d => twos 64 (x.temps.getD d 0)) ++
      [stackMax * 1000, twos 64 (x.temps.getD 4 0)] ++ bw ++ ((List.range 13).map fun p => (s.port p).errTotal) ++
      ((List.range 13).map fun p => (s.port p).replayTotal) ++ s.meClocks ++
      [s.toll.inputAll / 1000000, s.toll.tagAll / 1000000]
  { s with obs := { s.obs with live := vals.zipIdx.map fun e => (e.2, e.1) } }

/-- LEASE_PWR_SUMMARY, every 1 ms while the gates are open. -/
def State.powerSummary (s : State) (x : RailSample) : State :=
  if !s.ctd.lease.gates || s.time.mono < s.mgmt.pwrAt + 1000000 then s
  else
    let hot := ((List.range 4).map fun d => (x.temps.getD d 0).toNat / 1000).foldl max 0
    { s with mgmt := { s.mgmt with
      pwrW := x.inputMv * s.railMa 0 x.inputMa / 1000000, pwrV := x.inputMv / 10, maxC := min 255 hot, pwrAt := s.time.mono } }

/-! ### Boundaries (R460-R462) -/

/-- The window is cut at a boundary: its end is set, the next one begins, and the stored calibration set comes into effect. -/
def State.cutAt (s : State) (b : Nat) (forced : Bool) : State :=
  let t := s.toll
  let pre := t.first && t.cut.isEmpty
  let stamp := stampWord b false (s.time.lock != .locked)
  let back := s.tollNs - b
  let mono := s.time.mono - back
  let w : TollWindow :=
    { t.win with
      endToll := stamp, endNs := b, endMono := stampWord mono false false, endMonoNs := mono
      flags := t.win.flags ||| b2n pre ||| (2 * b2n s.ctd.nv.calAltered) ||| (256 * b2n forced) }
  { s with toll := { t with
    cut := t.cut ++ [w], win := { startToll := stamp, startMono := w.endMono }, lastBoundary := b, boundary := none
    calUse := s.validCal } }

/-- A boundary that has been reached is cut. -/
def State.cutDue (s : State) : State :=
  match s.toll.boundary with
  | some (b, forced) => if b ≤ s.tollNs then s.cutAt b forced else s
  | none => s

/-- Number of the interval that ends last: of TOLL once it is valid, before that of MONO (R452). -/
def State.intervalNo (s : State) : Nat := (if s.time.tollValid then s.tollNs else s.time.mono) / 10000

/-- RAIL_SAMPLE (R452-R455): once in every interval. -/
def execRailSample (sample : RailSample) (s : State) : Host.Outcome State Fault Refusal :=
  .next <|
    if !s.power.rails || s.toll.lastIv == some s.intervalNo then s
    else
      let s := (((s.attribute sample).liveUpdate sample).powerSummary sample).cutDue
      { s with toll := { s.toll with
        lastIv := some s.intervalNo, lastMv := sample.inputMv, lastMa := sample.inputMa, lastRails := (List.range 11).map (s.railOf sample) } }

/-- MANIFEST_FORCED (R460): 2 s of TOLL without a boundary. -/
def execManifestForced (s : State) : Host.Outcome State Fault Refusal :=
  .next <|
    let t := s.toll
    if s.time.tollValid && t.boundary.isNone && t.lastBoundary + 2000000000 ≤ s.tollNs then
      { s with toll := { t with boundary := some (cdiv s.tollNs 10000 * 10000, true), forced := satAdd 0xFFFF t.forced 1 } }
    else s

/-! ### Records (R457-R459) -/

/-- RECORD_SEQ. -/
def TollSt.recSeq (t : TollSt) : Nat := t.boot % 2 ^ 24 * 2 ^ 40 + t.recCount % 2 ^ 40

/-- A record put into the close buffers. -/
def TollSt.record (t : TollSt) (type tag ctx cause flags : Nat) (openW closeW : BitVec 64) (a : Acct) (descs step ns : Nat)
    (dies : BitVec 4) : TollRec :=
  { seq := t.recSeq, head := leBytes 2 type ++ leBytes 2 tag ++ leBytes 1 ctx ++ leBytes 1 cause ++ leBytes 2 flags ++ leBytes 8 t.recSeq
    tail := leBytes 8 openW.toNat ++ leBytes 8 closeW.toNat ++ a.parts.flatMap (leBytes 8) ++
      leBytes 8 (a.parts.foldl (· + ·) 0) ++ leBytes 8 (if type = 1 then a.meCycles else 0) ++ leBytes 8 a.memBytes ++
      leBytes 8 a.fabBytes ++ leBytes 4 descs ++ leBytes 4 step
    total := a.parts.foldl (· + ·) 0, closeNs := ns, isTag := type == 1, dies := dies }

/-- A closing tag's record; the tag is free. -/
def State.closeTag (s : State) (k : Nat) : State :=
  let g := s.tag k
  let flags := b2n g.partial_ + 2 * b2n g.holdover + 4 * b2n g.failed
  let r := s.toll.record 1 k g.ctx g.cause flags g.openToll s.intervalStamp g.acct g.descs (stepNum s.time.step)
    (s.tollNs / 10000 * 10000) g.dies
  { s with toll := { s.toll with tags := mdel s.toll.tags k, buffer := s.toll.buffer ++ [r], recCount := s.toll.recCount + 1 } }

/-- Every die that holds a part has room for it. -/
def TollSt.room (t : TollSt) (dies : BitVec 4) : Bool := (List.range 4).all fun d => !dies.getLsbD d || t.fill d < 16384

/-- TAG_CLOSE_POINT (R457): the end of the interval in which a closing tag's started descriptors have completed. -/
def execTagClosePoint (tag : Fin 4096) (s : State) : Host.Outcome State Fault Refusal :=
  .next <|
    let g := s.tag tag
    if g.isOpen && g.closing && g.running == 0 && s.toll.room g.dies then s.closeTag tag else s

/-! ### Manifests (R461-R465) -/

/-- One level of the Merkle tree (R463): pairs hashed, an odd last node carried up. -/
def merkleUp : List (List Byte) → List (List Byte)
  | a :: b :: r => sha256 (1 :: (a ++ b)) :: merkleUp r
  | l => l

/-- The root of a list of nodes (the fuel is a bound on the levels). -/
def merkleRoot : Nat → List (List Byte) → List Byte
  | _, [] => List.replicate 32 0
  | _, [a] => a
  | 0, a :: _ => a
  | n + 1, l => merkleRoot n (merkleUp l)

/-- The siblings on the way from a node to the root. -/
def merklePath : Nat → List (List Byte) → Nat → List (List Byte)
  | 0, _, _ => []
  | n + 1, l, i =>
    if l.length ≤ 1 then []
    else (if i % 2 = 1 then [l.getD (i - 1) []] else if i + 1 < l.length then [l.getD (i + 1) []] else []) ++
      merklePath n (merkleUp l) (i / 2)

/-- A record of a manifest, 128 bytes. -/
def TollRec.bytes (r : TollRec) (num : Nat) : List Byte := r.head ++ leBytes 8 num ++ r.tail
def Manifest.leaves (m : Manifest) : List (List Byte) := m.recs.map fun r => sha256 (0 :: r.bytes m.num)

/-- The toll key of a CTD (R466): modulus big-endian, exponent, certificate. -/
def State.tollKey (s : State) (c : Nat) : List Byte := Config.tollKeyBytes c (s.ctd.nv.keyGen.getD c 0)
def keyModulus (k : List Byte) : List Byte := padTo 384 0 (k.take 384)
def keyExponent (k : List Byte) : List Byte := padTo 4 0 ((k.drop 384).take 4)
def keyCert (k : List Byte) : List Byte := k.drop 388

/-- A signature with it: 384 bytes, big-endian. -/
def State.tollSign (s : State) (c : Nat) (b : List Byte) : List Byte :=
  (leBytes 384 (Config.rsaSign ((1 + c) * 2 ^ 32 + s.ctd.nv.keyGen.getD c 0) b).toNat).reverse

/-- A manifest's first 256 bytes (R462). E_INPUT is the sum of the six energies below it, so that the identity of R462 holds: the
energy of a tag enters when its record closes (log 31). -/
def State.manifestHead (s : State) (c : Nat) (w : TollWindow) (flags : Nat) (root : List Byte) (n tags ctxs : Nat) : List Byte :=
  let t := s.toll
  let key := s.tollKey c
  let input : Int := (tags + ctxs + w.host + w.idle + w.module_ : Nat) + w.unattr
  leBytes 4 0x4D4C4F54 ++ leBytes 2 1 ++ leBytes 2 flags ++ leBytes 8 s.fuse.serial.toNat ++ leBytes 8 t.nextNum ++
    leBytes 8 (if flags.testBit 0 then 0 else w.startToll.toNat) ++ leBytes 8 w.endToll.toNat ++ leBytes 8 w.startMono.toNat ++
    leBytes 8 w.endMono.toNat ++ leBytes 4 n ++ leBytes 4 (s.ctd.nv.keyGen.getD c 0) ++ root ++
    (if t.first then List.replicate 32 0 else t.prevHash) ++
    (if t.calUse.isEmpty then List.replicate 32 0 else sha256 t.calUse) ++ leBytes 8 (twos 64 input) ++ leBytes 8 tags ++
    leBytes 8 ctxs ++ leBytes 8 w.host ++ leBytes 8 w.idle ++ leBytes 8 w.module_ ++ leBytes 8 (twos 64 w.unattr) ++
    sha256 (keyModulus key ++ keyExponent key) ++ leBytes 1 c ++ List.replicate 7 0

/-- Whole manifests are evicted, oldest first, until the store holds the rest (R465). -/
def TollSt.evictOld (t : TollSt) : Nat → TollSt
  | 0 => t
  | n + 1 =>
    if 4096 < t.held.length || 131072 < (t.held.map (·.recs.length)).foldl (· + ·) 0 then
      TollSt.evictOld { t with held := t.held.drop 1, evicted := satAdd 0xFFFF t.evicted 1 } n
    else t

/-- The overhead records of a window (R459). -/
def TollSt.overheads (t : TollSt) (w : TollWindow) (step : Nat) : TollSt × List TollRec :=
  (w.over_.filter fun e => e.2.parts.any (· != 0)).foldl (fun (p : TollSt × List TollRec) e =>
    ({ p.1 with recCount := p.1.recCount + 1 },
      p.2 ++ [p.1.record 2 0xFFFF e.1 0 0 w.startToll w.endToll e.2 0 step w.endNs 0])) (t, [])

/-- The oldest window cut is formed, signed and published (R461-R465, R472); the CTD whose toll engine signs. -/
def State.publish (s : State) (c : Nat) : State :=
  match s.toll.cut with
  | [] => s
  | w :: rest =>
    let (t, heads) := s.toll.overheads w (stepNum s.time.step)
    let recs := (t.buffer.filter fun r => r.closeNs ≤ w.endNs).take (65536 - heads.length)
    let all := recs ++ heads
    let sum := fun (l : List TollRec) => (l.map (·.total)).foldl (· + ·) 0
    let most := (w.input : Int) < 50 * w.unattr && !w.flags.testBit 2
    let gap := w.flags.testBit 2 || most
    let flags := w.flags ||| (4 * b2n gap) ||| (8 * b2n (recs.any fun r => (r.head.getD 6 0).getLsbD 0)) |||
      (32 * b2n (t.keyNew.getD c false)) ||| (128 * b2n t.first)
    let num := t.nextNum
    let leaves := all.map fun r => sha256 (0 :: r.bytes num)
    let head := ({ s with toll := t }).manifestHead c w flags (merkleRoot 32 leaves) all.length (sum recs) (sum heads)
    let body := head ++ s.tollSign c head
    let used := recs.map (·.seq)
    let m : Manifest := { num := num, bytes := body, recs := all }
    let t := { t with
      cut := rest, buffer := t.buffer.filter fun r => !used.contains r.seq, held := t.held ++ [m], prevHash := sha256 body
      manCount := t.manCount + 1, first := false, keyNew := t.keyNew.set c false
      gapManifests := satAdd 0xFFFF t.gapManifests (b2n gap) }
    let s := { s with toll := t.evictOld 4097 }
    let ein : Int := (sum recs + sum heads + w.host + w.idle + w.module_ : Nat) + w.unattr
    let mj := fun (x : Int) => twos 32 (x / 1000000)
    let s := s.log 0x0C01 1 (srcToll s) (lohi num ++ [all.length, flags, mj ein, mj w.unattr, s.ctd.nv.keyGen.getD c 0,
      (s.time.mono - w.endMonoNs) / 1000])
    if gap then s.log 0x0C02 4 (srcToll s) (lohi num ++ [if most then 4 else w.gapCause, w.gapDie, mj w.unattr, mj ein]) else s

/-- TOLL_MANIFEST_CLOSED (R464): the toll engine of the holder publishes the oldest window that has been cut. -/
def execTollManifestClosed (s : State) : Host.Outcome State Fault Refusal :=
  .next <|
    match s.serving with
    | some c => if s.time.tollValid && !s.toll.keyBusy.getD c false then s.publish c else s
    | none => s

/-- An account of no more than another: what a tag held at the last manifest close on a die that cannot be read (R458). -/
def State.lesser (s : State) (a : Acct) : Acct × State :=
  let (ps, s) := a.parts.foldl (fun (p : List Nat × State) e => let (v, s) := p.2.draw 64; (p.1 ++ [v.toNat % (e + 1)], s)) ([], s)
  let (c, s) := s.draw 64
  let (m, s) := s.draw 64
  let (f, s) := s.draw 64
  ({ parts := ps, meCycles := c.toNat % (a.meCycles + 1), memBytes := m.toNat % (a.memBytes + 1)
     fabBytes := f.toNat % (a.fabBytes + 1) }, s)

/-- A tag with a part on a die that cannot be read is PARTIAL. -/
def State.partTag (s : State) (gone : BitVec 4) (k : Nat) : State :=
  if (s.tag k).dies &&& gone = 0 then s
  else
    let (a, s) := s.lesser (s.tag k).acct
    s.setTag k fun g => { g with acct := a, partial_ := true }

/-- Module recovery begins (R458, R468): open tags close with cause 4, and the manifest closes with what the close buffers hold.
Which dies cannot be read is open (log 65). -/
def State.tollRecovery (s : State) : State :=
  let tags := (s.toll.tags.filter fun e => e.2.isOpen).map (·.1)
  let (gone, s) := if tags.isEmpty then (0, s) else s.draw 4
  let s := tags.foldl (fun s k => s.partTag gone k) s
  let s := tags.foldl (fun s k => (s.setTag k fun g =>
    { g with closing := true, running := 0, cause := if g.closing then g.cause else 4 }).closeTag k) s
  let s := { s with toll := { s.toll with rotate := none } }
  match s.holder with
  | some c =>
    if s.time.tollValid then
      let s := s.cutAt (s.tollNs / 10000 * 10000) false
      if s.toll.keyBusy.getD c false then s else (List.range s.toll.cut.length).foldl (fun s _ => s.publish c) s
    else s
  | none => s

/-! ### Windows (R473) and commands (0x0Cxx, 0x0Dxx) -/

/-- Words of bytes, the last filled with zeros. -/
def wordsOf (b : List Byte) : List Nat := (chunks 4 b).map ofLe

/-- TL_WIN_INDEX_WRITE (R473): host cores and service processors; the record is latched at once. -/
def execTlWinIndexWrite (init : Initiator) (ctd : Fin 2) (w : Fin 2) (value : BitVec 32) (s : State) :
    Host.Outcome State Fault Refusal :=
  .next <|
    if s.ctdGate ctd != .none then s.fail (s.ctdGate ctd)
    else if !(isHart init || isAnySp init) then s.fail .unmapped
    else
      let i := 2 * ctd.val + w.val
      let num := (s.toll.wins.getD i {}).manifest.toNat
      let set := fun (f : TlWin → TlWin) => { s.answer 0 with toll := { s.toll with wins := lmod s.toll.wins i f } }
      match (s.toll.held.find? (·.num == num)).bind fun m => (m.recs[value.toNat]?).map fun r => r.bytes num with
      | some b =>
        set fun x =>
          { x with index := value, busy := false, valid := true, none_ := false, words := (wordsOf b).map (BitVec.ofNat 32) }
      | none => set fun x => { x with index := value, busy := false, valid := false, none_ := true }

def dTollTagQuery : DaridDef where
  op := 0x0C01
  senders := [.c, .m, .f]
  own s ch a := s.holdsTag ch (arg a 0)
  changes := false
  len := (· == 1)
  bad _ a := badWord [(0, arg a 0 < 4096)]
  body s _ a :=
    let g := s.tag (arg a 0)
    { s := s, words := (b2n g.isOpen + 256 * g.ctx) :: lohi (g.acct.parts.foldl (· + ·) 0) }

def dTollManifestRead : DaridDef where
  op := 0x0C02
  senders := [.c, .m, .f]
  changes := false
  len := (· == 2)
  body s _ a :=
    match s.toll.held.find? (·.num == arg64 a 0) with
    | some m => { s := s, words := wordsOf m.bytes }
    | none => .no s dNoSuch

/-- TollRecordRead (R465). -/
def dTollRecordRead : DaridDef where
  op := 0x0C03
  senders := [.c, .m, .f]
  changes := false
  len := (· == 3)
  body s _ a :=
    match (s.toll.held.find? (·.num == arg64 a 0)).bind fun m => (m.recs[arg a 2]?).map fun r => (m, r) with
    | some (m, r) =>
      let p := merklePath 32 m.leaves (arg a 2)
      { s := s, words := wordsOf (r.bytes m.num) ++ [m.recs.length, p.length] ++ p.flatMap wordsOf }
    | none => .no s dNoSuch

/-- TollKeyRead (R466). -/
def dTollKeyRead : DaridDef where
  op := 0x0C04
  senders := [.c, .m, .f]
  changes := false
  len := (· == 0)
  body s w _ :=
    let k := s.tollKey w.ctd
    { s := s
      words := [w.ctd, s.ctd.nv.keyGen.getD w.ctd 0] ++ wordsOf (keyModulus k) ++ [ofLe (keyExponent k).reverse, (keyCert k).length] ++
        wordsOf (keyCert k) }

/-- TollKeyRotate (R306, R467). -/
def dTollKeyRotate : DaridDef where
  op := 0x0C05
  senders := [.m]
  len := (· == 0)
  body s w _ :=
    if !s.ctd.clamp.tollPolicy.getLsbD 1 then .no (s.clampHit 7 1 0 w.ctd) dDenied
    else if s.toll.rotate.isSome then .no s dBusy
    else { s := { s with toll := { s.toll with rotate := some w } }, status := dPending }

/-- A toll engine has a new pair: KEY_GEN goes up, the next manifest carries KEY_NEW (R466, R467). -/
def State.newKey (s : State) (c : Nat) : State :=
  let n := s.ctd.nv
  let nv := { n with keyGen := n.keyGen.set c (n.keyGen.getD c 0 + 1), keyGood := n.keyGood.set c true }
  { s with
    ctd := { s.ctd with nv := nv }
    toll := { s.toll with keyNew := s.toll.keyNew.set c true, keyBusy := s.toll.keyBusy.set c false } }

/-- TOLL_KEY_ROTATED (R466, R467): the new pair exists; the old private key is gone. It answers TollKeyRotate, or ends the
generation that a boot began. -/
def execTollKeyRotated (s : State) : Host.Outcome State Fault Refusal :=
  .next <|
    match s.toll.rotate, s.serving with
    | some w, some c =>
      let old := s.ctd.nv.keyGen.getD c 0
      let s := s.newKey c
      let s := { s with toll := { s.toll with rotate := none } }
      let s := s.log 0x0C04 5 (srcToll s) ([c, old, old + 1] ++ lohi s.toll.nextNum)
      s.finish w dOk 0 []
    | _, _ =>
      match s.toll.keyBusy.findIdx? id with
      | some c =>
        let old := s.ctd.nv.keyGen.getD c 0
        (s.newKey c).logTo c 0x0C04 5 (3074 + c) ([c, old, old + 1] ++ lohi s.toll.nextNum)
      | none => s

/-- CalRead: words of the stored set. -/
def dCalRead : DaridDef where
  op := 0x0D01
  senders := [.m, .f]
  changes := false
  len := (· == 2)
  bad s a := badWord [(0, arg a 0 % 4 == 0), (1, 1 ≤ arg a 1 && arg a 1 ≤ 1023 && arg a 0 + 4 * arg a 1 ≤ s.ctd.nv.cal.length)]
  body s _ a := { s := s, words := wordsOf ((s.ctd.nv.cal.drop (arg a 0)).take (4 * arg a 1)) }

/-- CAL_HASH of the stored set: zero while it is invalid (R471). -/
def State.calHash (s : State) : List Byte := if s.validCal.isEmpty then List.replicate 32 0 else sha256 s.validCal

def dCalHash : DaridDef where
  op := 0x0D03
  senders := [.c, .m, .f]
  standby := true
  changes := false
  len := (· == 0)
  body s _ _ := { s := s, words := b2n s.ctd.nv.calAltered :: wordsOf s.calHash }

def execTollTagQuery (r : DReq) (s : State) : Host.Outcome State Fault Refusal := .next (runDarid dTollTagQuery r s)
def execTollManifestRead (r : DReq) (s : State) : Host.Outcome State Fault Refusal := .next (runDarid dTollManifestRead r s)
def execTollRecordRead (r : DReq) (s : State) : Host.Outcome State Fault Refusal := .next (runDarid dTollRecordRead r s)
def execTollKeyRead (r : DReq) (s : State) : Host.Outcome State Fault Refusal := .next (runDarid dTollKeyRead r s)
def execTollKeyRotate (r : DReq) (s : State) : Host.Outcome State Fault Refusal := .next (runDarid dTollKeyRotate r s)
def execCalRead (r : DReq) (s : State) : Host.Outcome State Fault Refusal := .next (runDarid dCalRead r s)
def execCalHash (r : DReq) (s : State) : Host.Outcome State Fault Refusal := .next (runDarid dCalHash r s)

end Sys2Proof.Machine
end

