-- ==== Sys2Proof/Machine/Continuity.lean ====
section
/-! DEFINITION. The lease cell, watchdogs, the standby, switchover, module recovery and its escalation, and the out-of-service
latch (chapters 09 and 13). -/

namespace Sys2Proof.Machine

/-! ### The waybill (R285-R292) -/

/-- The CTD whose service processor makes an access. -/
def spOf : Initiator → Option Nat
  | .sp c => some c.val
  | _ => none

/-- Losses of the waybill by a CTD in the last hour of MONO. -/
def State.recentLosses (s : State) (c : Nat) : List Nat := (s.ctdOf c).losses.filter fun t => s.time.mono < t + 3600000000000

/-- A CTD's service processors are held in reset for 100 ms: what its firmware held is gone (R287, R334, R74, R485). -/
def State.holdCtd (s : State) (c : Nat) : State :=
  let s := s.setCtd c fun x =>
    { x with
      heldUntil := some (s.time.mono + 100000000), role := .booting, health := .good, claimable := false, hit := 0, stage := 0 }
  { s with mbox := { s.mbox with chans := s.mbox.chans.filter fun e => e.1 / 512 != c } }

/-- The standby of a module with an active CTD. -/
def State.standby (s : State) : Option Nat :=
  [0, 1].find? fun c => s.ctdPresent c && s.ctdGate c == .none && (s.ctdOf c).role == .standby

/-- The tally and the totals as the active CTD holds them (R298, R353, R392). -/
def State.totals (s : State) : Totals :=
  { tally := s.silent.tally, tallySt := s.silent.tallySt, lastInput := s.silent.lastInput, inputAll := s.toll.inputAll
    tagAll := s.toll.tagAll, ports := (List.range 13).map fun p => ((s.port p).errTotal, (s.port p).replayTotal) }

/-- The new holder will go on from the totals mirrored last: what was counted since is absent (R298). Without a standby that has
them, the values stand (DESIGN CHOICE, log 64). -/
def State.takeTotals (s : State) : State :=
  match s.standby with
  | none => s
  | some c =>
    if (s.ctdOf c).health != .good then s
    else
      let m := s.ctd.totals
      let s := (List.range 13).foldl (fun s p => s.setPort p fun x =>
        { x with errTotal := (m.ports.getD p (0, 0)).1, replayTotal := (m.ports.getD p (0, 0)).2 }) s
      { s with
        silent := { s.silent with tally := m.tally, tallySt := m.tallySt, lastInput := m.lastInput }
        toll := { s.toll with inputAll := m.inputAll, tagAll := m.tagAll } }

/-- The holder loses the waybill: 0 expiry, 1 release, 2 watchdog. The gates close and the gap begins. Its NVMe queues are gone (R442). -/
def State.loseWaybill (s : State) (cause : Nat) : State :=
  match s.ctd.lease.holder with
  | none => s
  | some c =>
    let now := s.time.mono
    let l := now :: s.recentLosses c
    let s := [0, 1, 2, 3, 4].foldl State.endRun s.takeTotals
    let s := (s.holdCtd c).setCtd c fun x => { x with losses := l, lossLimit := x.lossLimit || 3 ≤ l.length }
    let s := s.setLease fun e =>
      { e with
        holder := none, gates := false, guardEnd := if cause = 0 then some (now + 5000000) else none, waived := cause != 0
        closedAt := if e.gates then some now else e.closedAt, lossCause := cause, loser := some c, renewed := false, takeover := false
        wdogLosses := if cause = 2 then satAdd 0xFFFF e.wdogLosses 1 else e.wdogLosses }
    { s with
      time := { s.time with tsq := s.time.tsq.map fun q => { q with entries := [] }, ptpSync := none, masters := [], tsReq := none }
      mbox := { s.mbox with stage := { job := s.mbox.stage.job, old := s.mbox.stage.old }, binds := mmapv s.mbox.binds fun _ b => { b with queue := [] } }
      spdm := {}, toll := s.toll.lost
      job := { s.job with ports := s.job.ports.map fun x => { x with ioQueues := 0 } } }

/-- The lease cell's tick of 10 ns. -/
def State.tickNo (s : State) : Nat := s.time.mono / 10

/-- A lease that has run out is lost before anything else of its tick (R290). -/
def State.expire (s : State) : State :=
  if s.ctd.lease.holder.isSome && s.ctd.lease.expiry / 10 ≤ s.tickNo then s.loseWaybill 0 else s

/-- LEASE_EXPIRY (R287). -/
def execLeaseExpiry (s : State) : Host.Outcome State Fault Refusal := .next s.expire

/-- LEASE_GUARD_END (R287): 5 ms after an expiry. -/
def State.guardOver (s : State) : State :=
  match s.ctd.lease.guardEnd with
  | some t => if t ≤ s.time.mono then s.setLease fun e => { e with guardEnd := none } else s
  | none => s
def execLeaseGuardEnd (s : State) : Host.Outcome State Fault Refusal := .next s.guardOver

/-- A store of the releases that ran (R476). -/
def State.noteRelease (s : State) (c : Nat) : State :=
  let x := s.ctdOf c
  if x.stage != 3 then s
  else
    let nv := { s.ctd.nv with lastRelease := x.release, minRelease := max s.ctd.nv.minRelease x.minRelease }
    { s with ctd := { s.ctd with nv := nv } }

/-- A CTD takes the role STANDBY, in RESYNC (R299); one in ROM recovery takes the role FAILED (R478). -/
def State.becomeStandby (s : State) (c : Nat) : State :=
  s.setCtd c fun x =>
    if x.stage = 4 then { x with role := .failed }
    else { x with role := .standby, health := .resync, claimable := false, resyncAsked := true, copied := false, reportAt := s.time.mono }

/-- The lease cell would grant a claim (R288). -/
def State.grants (s : State) (c : Nat) (gen : Word) : Bool :=
  let e := s.ctd.lease
  e.holder.isNone && e.guardEnd.isNone && gen == e.gen && s.ctdGate c == .none && (s.recentLosses c).length < 3

/-- The grant: the generation goes up and the lease runs 20 ms; the module's clamp hits show in the holder's register (R298), those
of the time without a holder are logged (R306). The other CTD, if it boots, becomes the standby. -/
def State.grant (s : State) (c : Nat) : State :=
  let s := s.setLease fun e =>
    { e with
      holder := some c, gen := e.gen + 1, expiry := s.time.mono + 20000000, renewed := false, renewTick := none, granted := true
      takeover := e.closedAt.isSome, switchovers := if e.granted then satAdd 0xFFFF e.switchovers 1 else e.switchovers }
  let owed := s.ctd.hitOwed
  let s := { s with ctd := { s.ctd with hits := s.ctd.hits ||| (s.ctdOf c).hit, hitOwed := [] } }
  let s := (s.setCtd c fun x => { x with role := .active, claimable := false, hit := s.ctd.hits }).noteRelease c
  let s := owed.foldl (fun s h => s.logFw 0x1306 4 [h.1, h.2.1, h.2.2.1, h.2.2.2]) s
  let o := 1 - c
  if s.ctdPresent o && s.ctdGate o == .none && (s.ctdOf o).role == .booting then s.becomeStandby o else s

/-- A loss by release or watchdog, and what it changes for events of its tick that came before it (R290): a renewal is refused after
all, and claims refused for the holder's sake are taken again. -/
def State.loseAt (s : State) (cause : Nat) : State :=
  let e := s.ctd.lease
  let now := s.tickNo
  let s := s.loseWaybill cause
  let s := if e.renewTick = some now then s.setLease fun e => { e with badRenew := satAdd 0xFFFF e.badRenew 1 } else s
  (e.claims.filter (·.1 == now)).foldl (fun s p => if s.grants p.2.1 p.2.2 then s.grant p.2.1 else s)
    (s.setLease fun e => { e with renewTick := none, claims := [] })

/-- PERIOD_MS has elapsed since the last kick of a CTD that runs (R297). -/
def State.wdogDue (s : State) (c : Nat) : Bool :=
  s.ctdGate c == .none && (s.ctdOf c).kickAt + s.ctd.clamp.wdogMs * 1000000 ≤ s.time.mono

/-- Number of a role. -/
def Role.code : Role → Nat
  | .booting => 0
  | .active => 1
  | .standby => 2
  | .failed => 3

/-- A watchdog expires (R297): the holder loses the waybill, another CTD is held in reset for 100 ms. -/
def State.wdogExpire (s : State) (c : Nat) : State :=
  let x := s.ctdOf c
  let ms := s.ctd.clamp.wdogMs
  let s := s.setCtd c fun x => { x with expiries := satAdd 0xFFFF x.expiries 1, owesWdog := some (x.role.code, ms) }
  let s := if s.holder = some c then s.loseAt 2 else s.holdCtd c
  let o := 1 - c
  if s.ctdPresent o && s.ctdGate o == .none then s.logTo o 0x1303 5 (512 + o) [c, x.role.code, ms] else s

/-- What the cell applies before a release, a renewal, a claim or an opening of the same tick (R290): the expiry, then the holder's
watchdog. -/
def State.settleLease (s : State) : State :=
  let s := s.expire
  match s.holder with
  | some c => if s.wdogDue c then s.wdogExpire c else s
  | none => s

/-- LEASE_CLAIM (R288). -/
def execLeaseClaim (init : Initiator) (gen : BitVec 32) (s : State) : Host.Outcome State Fault Refusal :=
  .next <|
    match spOf init with
    | none => s.fail .unmapped
    | some c =>
      let s := s.settleLease.guardOver.answer 0
      if s.grants c gen then s.grant c
      else s.setLease fun e => { e with claims := e.claims.filter (·.1 == s.tickNo) ++ [(s.tickNo, c, gen)] }

/-- LEASE_RELEASE (R287). -/
def execLeaseRelease (init : Initiator) (value : BitVec 32) (s : State) : Host.Outcome State Fault Refusal :=
  .next <|
    match spOf init with
    | none => s.fail .unmapped
    | some c =>
      let s := s.settleLease.answer 0
      if value.getLsbD 0 && s.holder = some c then s.loseAt 1 else s

/-! ### Opening the gates (R291, R295, R477) -/

/-- The events the dies kept are appended, STEP advances among them are applied (R294); the number discarded. -/
def State.drainFifos (s : State) (c : Nat) : State × Nat :=
  (List.range 4).foldl (fun p d =>
    let x := p.1.die d
    let s := p.1.setDie d fun y => { y with fifo := [], fifoLost := 0 }
    (x.fifo.foldl (fun s e =>
      if e.1 = 0 then s.stepAdvance
      else s.withLog (s.logPart.event (s.logEnv c true) e.1 e.2.1 e.2.2.1 e.2.2.2)) s, p.2 + x.fifoLost)) (s, 0)

/-- The new holder's caches are what the mirror held (R327): a finished command is replayed, one in progress goes on. -/
def State.takeCaches (s : State) (c : Nat) : State :=
  let put := fun (s : State) (e : Nat × (Nat × Nat × Option (List Word))) =>
    s.setChan c e.1 fun x => { x with cache := some e.2 }
  s.mbox.mirror.foldl put s

/-- Schedule entry 0, the sieve rotation (R384): from the step after the present one (log 21). -/
def State.rotationEntry (s : State) : State :=
  s.setSched 0
    { stepKey := true, action := 1, skip := false, fw := true, ctx := 0, dies := 0xF, rep := 0
      first := (stepWord (stepNum s.time.step + 1) 0).toNat, period := 1, arg := 1 }

/-- The lease cell's own powered time (R420). -/
def State.poweredNow (s : State) : Nat := s.ctd.nv.poweredNs + s.time.mono

/-- Recoveries that lie in the window now. -/
def State.recoveryCount (s : State) : Nat :=
  (s.ctd.nv.recoveries.filter fun t => s.poweredNow < t + s.ctd.clamp.recWindow * 3600000000000).length

/-- OOS_LATCH_SET, once for each setting of the latch (R308). -/
def State.logLatch (s : State) : State :=
  if !s.ctd.nv.latchNew then s
  else
    let s := s.logFw 0x1308 7 [s.recoveryCount, s.ctd.clamp.recWindow, s.ctd.nv.latchCount]
    { s with ctd := { s.ctd with nv := { s.ctd.nv with latchNew := false } } }

/-- What firmware does when it first opens the gates after power-on: boot events, the tally of a missing pack, the sieve entry,
and the compute dies are powered, their power-on runs due (R477, R384, R387). The ROM time and the lowest input voltage are
open (log 4). -/
def State.firstOpen (s : State) (c : Nat) : State :=
  let x := s.ctdOf c
  let nv := s.ctd.nv
  let (t, s) := s.draw 32
  let (v, s) := s.draw 32
  let s := s.logFw 0x0E01 2 [c, x.release, nv.minRelease, nv.lastRelease, t.toNat, b2n s.ctd.clamp.valid]
  let s := if nv.resetCause = 1 then s else s.logFw 0x0F01 4 [nv.resetCause, v.toNat, nv.resetCount]
  let s := if s.ctd.clamp.valid then s else s.logFw 0x1307 6 [s.ctd.clamp.failed, nv.clampSeq]
  let (k, sec) := s.calFail nv.cal
  let s := if k = 0 then s else s.logFw 0x0D02 6 [k, sec]
  let s := if s.silent.packValid then s else s.withLog (s.logPart.addTally (s.logEnv c false) 200 0)
  let s := s.rotationEntry.logLatch
  if nv.latched then s
  else
    let s := { s with dies := s.dies.map fun d => { d with inReset := false } }
    if !s.silent.packValid then s
    else (List.range 112).foldl (fun s j => s.setSv j fun e => { e with due := true, afterReset := true }) s

/-- The holder opens the gates (R291): the gap ends, a takeover drains the dies' events and is logged. -/
def State.openGates (s : State) (c : Nat) : State :=
  let e := s.ctd.lease
  let gap := match e.closedAt with
    | some t => (s.time.mono - t) / 1000
    | none => 0
  let take := e.takeover && !e.recovery
  let (s, lost) := if take then s.drainFifos c else (s, 0)
  let s := s.setLease fun e =>
    { e with
      gates := true, closedAt := none, gapUs := if e.closedAt.isSome then gap else e.gapUs, opened := true, takeover := false
      opening := none }
  let s := if take then
      ((s.takeCaches c).logFw 0x1301 5 [c, e.gen.toNat, e.lossCause, gap, lost, s.ctd.mirrorSeq.toNat]).resumeJobs
    else s.jobSweep
  if !e.opened && (s.ctdOf c).stage = 3 then s.firstOpen c else s

/-- LEASE_OPEN (R291): by the holder, after a renewal; one refused for want of a renewal is kept for its tick (R290). -/
def execLeaseOpen (init : Initiator) (value : BitVec 32) (s : State) : Host.Outcome State Fault Refusal :=
  .next <|
    match spOf init with
    | none => s.fail .unmapped
    | some c =>
      let s := s.settleLease.answer 0
      let e := s.ctd.lease
      if !(value.getLsbD 0 && e.holder == some c && !e.gates) then s
      else if !e.renewed then s.setLease fun e => { e with opening := some (s.tickNo, c) }
      else s.openGates c

/-- LEASE_RENEW (R286): 20 ms from now; any other renewal is ignored, counted and logged. -/
def execLeaseRenew (init : Initiator) (gen : BitVec 32) (s : State) : Host.Outcome State Fault Refusal :=
  .next <|
    match spOf init with
    | none => s.fail .unmapped
    | some c =>
      let s := s.settleLease.answer 0
      if s.holder = some c && gen = s.ctd.lease.gen then
        let s := s.setLease fun e => { e with expiry := s.time.mono + 20000000, renewed := true, renewTick := some s.tickNo }
        if s.ctd.lease.opening = some (s.tickNo, c) && !s.ctd.lease.gates then s.openGates c else s
      else
        (s.setLease fun e => { e with badRenew := satAdd 0xFFFF e.badRenew 1 }).log 0x1302 3 srcLease
          [c, gen.toNat, s.ctd.lease.gen.toNat]

/-! ### Watchdogs and the boot of a CTD (R296, R297) -/

/-- Number of a health. -/
def Health.code : Health → Nat
  | .good => 0
  | .resync => 1
  | .failed => 2

/-- CTD_WDOG_KICK (R297). -/
def execCtdWdogKick (init : Initiator) (ctd : Fin 2) (value : BitVec 32) (s : State) : Host.Outcome State Fault Refusal :=
  .next <|
    if s.ctdGate ctd != .none then s.fail (s.ctdGate ctd)
    else if !isSp init ctd then s.fail .unmapped
    else
      let s := s.answer 0
      if value.getLsbD 0 then s.setCtd ctd fun x => { x with kickAt := s.time.mono } else s

/-- CTD_WDOG_EXPIRED (R297): PERIOD_MS without a kick, after an expiry of the lease in the same tick (R290). -/
def execCtdWdogExpired (ctd : Fin 2) (s : State) : Host.Outcome State Fault Refusal :=
  .next <|
    let s := s.expire
    if s.wdogDue ctd then s.wdogExpire ctd else s

/-- A CTD fails: its role, and STANDBY_FAILED in its own Ledger. -/
def State.failCtd (s : State) (c test detail : Nat) : State :=
  (s.setCtd c fun x => { x with role := .failed, health := .failed, claimable := false }).logTo c 0x130A 5 (512 + c)
    [c, test, detail]

/-- HOLDER_RESET_RELEASE (R296, R297): a CTD leaves its 100 ms of reset, boots and tests itself. The DETAIL of a failed test is
open (log 4). -/
def execHolderResetRelease (ctd : Fin 2) (selfTestFail : Option (Fin 6)) (s : State) : Host.Outcome State Fault Refusal :=
  .next <|
    let c := ctd.val
    match (s.ctdOf c).heldUntil with
    | none => s
    | some t =>
      if s.time.mono < t then s
      else
        let owed := (s.ctdOf c).owesWdog
        let s := (s.bootCtd c).setCtd c fun x => { x with owesWdog := none }
        let s := match owed with
          | some (role, ms) => s.logTo c 0x1303 5 (512 + c) [c, role, ms]
          | none => s
        if (s.ctdOf c).lossLimit then s.failCtd c 5 0
        else match selfTestFail with
          | some k =>
            let (v, s) := s.draw 32
            s.failCtd c k.val v.toNat
          | none => if s.holder.isNone && s.ctd.lease.recovery then s
            else if (s.ctdOf c).stage = 4 && s.holder.isNone then s
            else s.becomeStandby c

/-! ### The standby (R289, R298-R300) -/

/-- STANDBY_LEASE_POLL (R289): a claimable standby claims a free waybill. -/
def execStandbyLeasePoll (ctd : Fin 2) (s : State) : Host.Outcome State Fault Refusal :=
  .next <|
    let c := ctd.val
    let x := s.ctdOf c
    if x.role = .standby && x.claimable && s.grants c s.ctd.lease.gen then s.grant c else s

/-- The standby is GOOD and claimable. -/
def State.standbyGood (s : State) (c : Nat) : State :=
  (s.setCtd c fun x => { x with health := .good, claimable := true, resyncAsked := false }).noteRelease c

/-- MIRROR_CHECK (R299): every 100 ms the standby compares sequence and CRC with its copy; it expects the sequence that follows the
last matched, or that of its full copy. A standby that waits for a full copy compares nothing. The totals are mirrored (R298). -/
def execMirrorCheck (seqSent crcSent crcOwn : BitVec 32) (s : State) : Host.Outcome State Fault Refusal :=
  .next <|
    if s.serving.isNone then s
    else
      let s := { s with ctd := { s.ctd with mirrorSeq := seqSent } }
      match s.standby with
      | none => s
      | some c =>
        let s := { s with ctd := { s.ctd with totals := s.totals } }
        let x := s.ctdOf c
        if x.health = .resync && !x.copied then s
        else if crcSent = crcOwn && seqSent = x.nextSeq then
          let s := s.setCtd c fun x => { x with mirrorSeq := seqSent, nextSeq := seqSent + 1 }
          if x.health = .resync then s.standbyGood c else s
        else
          (s.setCtd c fun x => { x with health := .resync, claimable := false, resyncAsked := true, copied := false }).logTo c
            0x1305 3 (512 + c) [x.nextSeq.toNat, seqSent.toNat, crcOwn.toNat, crcSent.toNat]

/-- RESYNC_COPY_DONE (R299): the copy has the active CTD's sequence. -/
def execResyncCopyDone (ctd : Fin 2) (s : State) : Host.Outcome State Fault Refusal :=
  .next <|
    let x := s.ctdOf ctd
    if x.role = .standby && x.health = .resync && x.resyncAsked && s.serving.isSome && s.ctdGate ctd == .none then
      ({ s with ctd := { s.ctd with totals := s.totals } } : State).setCtd ctd fun x =>
        { x with copied := true, nextSeq := s.ctd.mirrorSeq + 1 }
    else s

/-- STANDBY_SELF_TEST (R299): 0 sieve, on the service processor whose turn it is, 1 SRAM, 2 time. -/
def execStandbySelfTest (ctd : Fin 2) (test : Fin 3) (pass : Bool) (detail : BitVec 32) (s : State) :
    Host.Outcome State Fault Refusal :=
  .next <|
    let c := ctd.val
    if (s.ctdOf c).role != .standby || s.ctdGate c != .none then s
    else
      let s := if test.val = 0 then s.setCtd c fun x =>
          { x with sievePass := x.sievePass + b2n pass, sieveFail := x.sieveFail + b2n (!pass), spNext := (x.spNext + 1) % 4 } else s
      if pass then s else s.failCtd c (test.val + 1) detail.toNat

/-- STANDBY_HEALTH (R300): once per second, in the standby's own Ledger; the active CTD delivers the record as an event,
and answers FwRestartStandby (R332). -/
def execStandbyHealth (ctd : Fin 2) (timeDiffNs tempC : BitVec 32) (s : State) : Host.Outcome State Fault Refusal :=
  .next <|
    let c := ctd.val
    let x := s.ctdOf c
    if x.role != .standby || s.ctdGate c != .none || s.time.mono < x.reportAt + 1000000000 then s
    else
      let s := (s.setCtd c fun x => { x with reportAt := s.time.mono }).logTo c 0x1304 1 (512 + c)
        [x.health.code + 4 * b2n x.claimable, s.ctd.lease.gen.toNat, x.mirrorSeq.toNat, x.sievePass, x.sieveFail, s.silent.version,
         timeDiffNs.toNat, tempC.toNat]
      let s := match s.serving, (s.ledger c).newest with
        | some h, some r =>
          let p := s.logPart
          (s.withLog { p with mbox := { p.mbox with chans := deliver h r p.mbox.chans } })
        | _, _ => s
      (s.setCtd c fun x => { x with waiters := [] }).finishAll x.waiters dOk 0 []

/-! ### Module recovery (R414, R415, R420) -/

/-- A recovery is counted; the one that reaches the limit sets the latch, and a new nonce is drawn. -/
def State.countRecovery (s : State) : State :=
  let nv := { s.ctd.nv with recoveries := (s.poweredNow :: s.ctd.nv.recoveries).take 8 }
  let s := { s with ctd := { s.ctd with nv := nv } }
  if s.recoveryCount < s.ctd.clamp.recLimit || s.ctd.nv.latched then s
  else
    let (v, s) := s.draw 64
    let nv := { s.ctd.nv with latched := true, latchNew := true, latchCount := satAdd 0xFFFF s.ctd.nv.latchCount 1, nonce := v }
    { s with ctd := { s.ctd with nv := nv } }

/-- What started descriptors may have written is undefined (R398). -/
def State.undefStarted (s : State) : State :=
  (s.eng.queues.flatMap fun e => e.2.started.map fun x => (e, x)).foldl (fun s p =>
    let dests := match p.2.convoy.bind s.convoy? with
      | some v => (collOf p.2 v.plan).dests
      | none => s.writeRanges p.2
    s.undefine p.1.2.eng (p.1.1 / 64) dests) s

/-- What module recovery loses of the dies (R415). -/
def State.loseDies (s : State) : State :=
  let s := s.undefStarted
  let ports := (List.range 13).filter fun p => (s.port p).st != .down
  let s := ports.foldl (fun s p => s.linkDown p 1) s
  let s := [0, 1].foldl (fun s p => s.setCellar p fun x => { x with present := false, failed := false, ioQueues := 0, jobs := [], sent := [] }) s
  let e := s.eng
  let tabs : EngTables := { order := e.order, irqs := e.irqs }
  let sv : Nat → SvEng → SvEng := fun _ v => { v with sieving := false, due := false, waiters := [] }
  let svs := mmapv s.silent.engs sv
  let s := [0, 1, 2, 3].foldl State.coldDie { s with
    eng := tabs, silent := { s.silent with running := [none, none, none, none], engs := svs } }
  let reset := fun (x : DieSt) =>
    ({ x with inReset := true, hartsRun := false, resetStart := none, waiters := [], fifo := [], fifoLost := 0 } : DieSt)
  let t := fun (x : DieTime) => ({ x with seen := false, holdover := false, latched := 0 } : DieTime)
  { s with
    dies := s.dies.map reset, dieTime := s.dieTime.map t, sched := []
    obs := { s.obs with watches := [], dumps := List.replicate 4 [], digests := [] }
    mbox := {}, job := { ports := s.job.ports }, spdm := {}
    fab := { s.fab with
      peers := [], stalled := [], fenced := [], convoys := [], barriers := [], ignored := [], originated := 0, received := 0, tableFull := 0 }
    mem := { s.mem with
      clears := [], modified := [], dies := s.mem.dies.map (fun m => { m with initDone := false, contentKept := false })
      lpddr := s.mem.lpddr.map (fun x => { x with selfRefresh := true, up := false }) } }

/-- Module recovery starts. Causes: 1 command, 2 escalation, 3 switchover gap, 4 lease expiry on ZM1-SX, 5 latch clear, which is
not counted, 6 restart. A holder granted in the gap that 3 and 4 end loses the waybill as by release (R292); the gap itself runs until
the gates next open. Without rails there is nothing to recover. -/
def State.startRecovery (s : State) (cause : Nat) : State :=
  if !s.power.rails then s
  else
    let now := s.time.mono
    let s := if cause = 3 || cause = 4 then s.loseWaybill 1 else s
    let s := if cause = 5 then s else s.countRecovery
    let s := s.tollRecovery.loseDies
    let s := ([0, 1].filter fun c => s.ctdPresent c && (s.ctdOf c).running).foldl State.holdCtd s
    let s := { s with ctd := { s.ctd with hits := 0, hitOwed := [] } }
    s.setLease fun e =>
      { e with
        recovery := true, recStart := now, recCause := cause, holder := none, gates := false, guardEnd := none, renewed := false
        closedAt := if e.gates then some now else e.closedAt, takeover := false, next := 0, claims := [], opening := none
        renewTick := none }

/-- SWITCHOVER_GAP_TIMEOUT (R292, R7): gates not opened 40 ms after closing. -/
def execSwitchoverGapTimeout (s : State) : Host.Outcome State Fault Refusal :=
  .next <|
    match s.ctd.lease.closedAt with
    | some t =>
      if !s.ctd.lease.gates && !s.ctd.lease.recovery && t + 40000000 ≤ s.time.mono then s.startRecovery (if s.hasCtd1 then 3 else 4) else s
    | none => s

/-- Lost stacks are filled with the husk pattern (R206): every sector counts as created, with the lowest as the one latched
(DESIGN CHOICE, log 62), cause 5; a stack in `powerLost` lost power, another left self-refresh. -/
def State.huskFill (s : State) (lost powerLost : BitVec 24) : State :=
  if lost = 0 then s
  else
    let gone := fun (a : Nat) => lost.getLsbD (stackOf a)
    let s := s.setMem fun m =>
      { cells := m.cells.filter (fun e => !gone e.1)
        husks := (List.range (usableTop / 32)).filter fun k => gone (32 * k) || m.husks.contains k }
    (setBits 24 lost.toNat).foldl (fun s n =>
      (s.noteHusks (n / 6) (regionSize / 6 / 32) 5 (n / 6 * regionSize + 1024 * (n % 6))).log 0x1205 5 (srcDieUnit (n / 6) 65)
        [n / 6, n, b2n (!powerLost.getLsbD n)]) s

/-- The dies come back from a module recovery: memory, sieve runs, schedule, harts, ports. -/
def State.recoverDies (s : State) (lost powerLost : BitVec 24) (patterns : List (Nat × List PatternResult)) : State :=
  let back := fun (d : DieSt) => ({ d with inReset := false, tripped := false } : DieSt)
  let s := { s with dies := s.dies.map back }
  let s := s.huskFill lost powerLost
  let s := (List.range 24).foldl (fun s i => s.setStack i fun x => { x with selfRefresh := false }) s
  let s := (List.range 4).foldl (fun s d =>
    let sixth := (List.range 6).map (6 * d + ·)
    s.setMemDie d fun m =>
      { m with initDone := sixth.all (fun i => (s.stack i).up), contentKept := !sixth.any lost.getLsbD }) s
  let s := (List.range 112).foldl (fun s u => s.resetRun u ((patterns.lookup u).getD [])) s
  let s := s.rotationEntry
  let s := if s.time.podValid then s.podEntries else s
  s.pathCheck

/-- MODULE_RECOVERY (R414, R415, R420): the sequence completes under the CTD that has claimed. With the latch set it goes only
as far as booting the CTDs. -/
def execModuleRecovery (lostStacks : LostStacks) (patterns : List (Nat × List PatternResult)) (s : State) :
    Host.Outcome State Fault Refusal :=
  .next <|
    let e := s.ctd.lease
    if !e.recovery || !e.gates || e.holder.isNone then s
    else
      let latched := s.ctd.nv.latched
      let s := if latched then s else s.recoverDies lostStacks.content lostStacks.power patterns
      let s := s.setLease fun e => { e with recovery := false }
      let s := if latched then s else s.releaseHarts.trainAll
      let failed := ofBits ((List.range 4).filter s.regionFailed)
      let n := s.recoveryCount
      let s := s.logFw 0x0705 5
        [e.recCause, n, s.ctd.clamp.recLimit, (s.time.mono - e.recStart) / 1000000, if latched then 0 else lostStacks.content.toNat, failed,
         b2n latched]
      s.logLatch

/-! ### Escalation (R416) -/

/-- The number of a level, and its limit in ns. -/
def ResetLevel.limit (releasing : Bool) : ResetLevel → Nat × Nat
  | .context => (1, if releasing then 10000000 else 5000000)
  | .engine => (2, 50000000)
  | .die => (3, 1500000000)
  | .module => (4, 10000000000)

/-- RESET_ESCALATED (R416): a reset that has overrun its limit is taken over by the next larger one. The start of a die reset waits
for an active CTD that serves (R293, R294). -/
def execResetEscalated (level : Sys2Proof.ResetLevel) (unit : Nat) (s : State) : Host.Outcome State Fault Refusal :=
  .next <|
    let now := s.time.mono
    let since : Option Nat := match level with
      | .context =>
        let x := s.ctx unit
        if x.st == .resetting && !s.resetWaits unit && !x.resetEngs.isEmpty then some x.resetFrom else none
      | .engine =>
        let e := s.engine unit
        if unit < 112 && e.st == .resetting && !(s.die (engDie unit)).inReset && (s.pairOf unit).headD unit == unit then
          some e.resetStart else none
      | .die => if unit < 4 then (s.die unit).resetStart else none
      | .module => if s.ctd.lease.recovery then some s.ctd.lease.recStart else none
    let (n, lim) := ResetLevel.limit ((s.ctx unit).releasing && level == .context) level
    let waits := level == .engine && s.serving.isNone
    let die := match level with
      | .context => engDie ((s.ctx unit).resetEngs.headD 0)
      | .engine => engDie unit
      | _ => unit % 4
    match since with
    | none => s
    | some t =>
      if now ≤ t + lim || waits then s
      else
        let s := s.logDie die 0x0706 5 [n, min 4 (n + 1), unit, (now - t) / 1000, lim / 1000]
        match level with
        | .context => (s.ctx unit).resetEngs.foldl (fun s j => s.startEngReset j 5 []) s
        | .engine => s.startDieReset (engDie unit) 2 []
        | .die => s.startRecovery 2
        | .module => s.startRecovery 6

/-! ### Commands -/

/-- ModuleRecover (R414): answered before recovery begins. -/
def dModuleRecover : DaridDef where
  op := 0x0704
  senders := [.m]
  len := (· == 0)
  body s _ _ := { s := s.setLease fun e => { e with next := 11 } }

/-- Switchover (R287): answered before the release. -/
def dSwitchover : DaridDef where
  op := 0x0705
  senders := [.m, .f]
  len := (· == 0)
  present s _ := s.hasCtd1
  body s _ _ := match s.standby with
    | some c => if (s.ctdOf c).claimable then { s := s.setLease fun e => { e with next := 1 } } else .no s dBadState
    | none => .no s dBadState

/-- OOS_STATUS. -/
def State.oosStatus (s : State) : Nat :=
  b2n s.ctd.nv.latched + 2 ^ 8 * min 255 s.recoveryCount + 2 ^ 16 * s.ctd.nv.latchCount

def dOosQuery : DaridDef where
  op := 0x0708
  senders := [.m]
  standby := true
  oos := true
  changes := false
  len := (· == 0)
  body s _ _ := { s := s, words := s.oosStatus :: lohi s.ctd.nv.nonce.toNat }

/-- OosLatchClear (R309): the token is this module's serial, latch count and nonce, signed with the operator key. -/
def dOosLatchClear : DaridDef where
  op := 0x0709
  senders := [.m]
  oos := true
  len := (· == 101)
  body s _ a :=
    let b := argBytes a 0 101
    let nv := s.ctd.nv
    let key := s.ctd.clamp.opKey
    let ok := fieldAt b 0 8 == s.fuse.serial.toNat && fieldAt b 8 4 == nv.latchCount && fieldAt b 12 8 == nv.nonce.toNat &&
      key.any (· != 0) && Config.rsaVerify key (b.take 20) (b.drop 20)
    if !nv.latched then .no s dBadState
    else if !ok then
      let (v, s) := s.draw 64
      let nv := { s.ctd.nv with nonce := v }
      .no { s with ctd := { s.ctd with nv := nv } } dBadSig
    else
      let nv := { nv with latched := false, recoveries := [] }
      let s := ({ s with ctd := { s.ctd with nv := nv } }).logFw 0x1309 5 [nv.latchCount]
      { s := s.setLease fun e => { e with next := 15 } }

/-- Every message that a channel holds for its sender is sent (management and fabric channels) before its CTD stops. -/
def State.flushUp (s : State) (c ch : Nat) : Nat → State
  | 0 => s
  | n + 1 =>
    let x := s.chan c ch
    match x.nextUp with
    | none => s
    | some (m, x') =>
      let s := s.setChan c ch fun _ => x'
      let s := match s.mbox.binds.lookup ch with
        | some b =>
          if ch < 288 then s.sendUdp b.ip b.port ch m else s.sendMgmt b.ip ch m
        | none => s
      s.flushUp c ch n

/-- What was to follow the response begins (R414, R309, Switchover). -/
def State.afterResponse (s : State) (c ch : Nat) : State :=
  let n := s.ctd.lease.next
  if n = 0 then s
  else
    let out := s.mbox.out
    let s := (s.flushUp c ch 64).setLease fun e => { e with next := 0 }
    let sent := s.mbox.out.drop out.length
    let s := if n = 1 then s.loseAt 1 else if n = 2 then s.unbind ch else s.startRecovery (n - 10)
    { s with mbox := { s.mbox with out := out ++ sent } }

def execModuleRecover (r : DReq) (s : State) : Host.Outcome State Fault Refusal :=
  .next ((runDarid dModuleRecover r s).afterResponse r.ctd r.ch)
def execSwitchover (r : DReq) (s : State) : Host.Outcome State Fault Refusal :=
  .next ((runDarid dSwitchover r s).afterResponse r.ctd r.ch)
def execOosQuery (r : DReq) (s : State) : Host.Outcome State Fault Refusal := .next (runDarid dOosQuery r s)
def execOosLatchClear (r : DReq) (s : State) : Host.Outcome State Fault Refusal :=
  .next ((runDarid dOosLatchClear r s).afterResponse r.ctd r.ch)

end Sys2Proof.Machine
end

