-- ==== Sys2Proof/Machine/Regs.lean ====
section
/-! DEFINITION. The registers of CSR space: where each lies (R34 and the register maps of every chapter), what a read returns,
which of its fields a read clears. -/

namespace Sys2Proof.Machine

/-- The blocks of R34. -/
inductive CsrUnit where
  | mod
  | die (d : Nat)
  | ctd (c : Nat)
  | lease
  | optic (n : Nat)
deriving DecidableEq, Repr

/-- The registers by name; a number names the die, CTD, engine j, port, context or place the map counts. -/
inductive Reg where
  | modCaps | modId | modBoard | modSerial | modPortMedia | modOptSpare | modD2d
  | modDieInv (n : Nat) | modStackInv (n : Nat) | modOptInv (n : Nat)
  | tbCtrl | tbStatus (c : Nat) | tbThresh | tbPodNow | tbStepNow | tbMonoNow | tbTollNow | tbPendingCorr | tbGmId | tbGmPending
  | tbPpsDelay | tsqPop (c g : Nat) | tsqStamp (c g : Nat) | tsqOvf (c g : Nat)
  | qTail (c q : Nat) | qHead (c q : Nat) | qDone (c q : Nat) | qStatus (c q : Nat) | qBeats (c q : Nat) | qCtrl (c q : Nat)
  | zero | zero64
  | engStatus (j : Nat) | tileOwner (j : Nat) | tileFlagsLo (j : Nat) | tileFlagsHi (j : Nat) | unordCnt (j : Nat) | abftCnt (j : Nat)
  | semValue (k : Nat) | semAdd (k : Nat) | txStatus (d : Nat)
  | stashCtrl (c : Nat) | stashArm (c : Nat) | stashRetire (c : Nat) | stashStatus (c : Nat) | stashFullAt (c : Nat)
  | stashPass (c : Nat) | stashFill (c : Nat) | stashDemand (c : Nat) | stashBase (c : Nat) | stashSize (c : Nat)
  | stashTable (c : Nat) | stashCfg (c : Nat)
  | hangCtrl (c : Nat) | ctxNote (c : Nat) | faultRec (c n : Nat) | dataCursor (c n : Nat) | hoardStatus (c : Nat)
  | hoardLast (c : Nat) | fillProgress (c : Nat) | barrier (b : Nat) | convoyCnt
  | memCtrl (d : Nat) | memStatus (d : Nat) | huskCnt (d : Nat) | lastUe (d : Nat) | lastUeInfo (d : Nat) | lastConsume (d : Nat)
  | scrubPos (d : Nat) | stackStatus (n : Nat) | stackErr (n : Nat)
  | routeCtrl | txnCtrl | tsCtrl | peerStatus (d : Nat) | dropCnt (d : Nat) | levelData (d l : Nat) | levelSlots (d l : Nat)
  | sliceCfg (e : Nat) | sliceDrops (d e : Nat) | sliceWin (e w : Nat) | circuit (n : Nat)
  | portStatus (p : Nat) | portPeer (p : Nat) | portSerial (p : Nat) | portErr (p : Nat) | portCnt (p : Nat)
  | leaseStatus | leaseGen | leaseRenew | leaseClaim | leaseRelease | leaseOpen | leaseGap | leaseCnt | oosStatus | oosNonce
  | fwStore | resetCause | mgmtMac | mgmtIp | mgmtGw | mgmtStatus | pwrSummary
  | ctdStatus (c : Nat) | wdog (c : Nat) | wdogStatus (c : Nat) | clampHit (c : Nat) | clampSrc | clampImage (n : Nat)
  | ctdBoot (c : Nat)
  | txWord (c ch n : Nat) | txCommit (c ch : Nat) | txStatusMb (c ch : Nat) | rxWord (c ch n : Nat) | rxPop (c ch : Nat)
  | rxStatus (c ch : Nat) | irqCtrl (c ch : Nat) | irqAddr (c ch : Nat) | irqData (c ch : Nat)
  | lgOldest (c : Nat) | lgNewest (c : Nat) | lgFlashSeq (c : Nat) | lgStatus (c : Nat) | lgEvicted (c : Nat)
  | winCursor (c w : Nat) | winStatus (c w : Nat) | winRec (c w n : Nat) | lgAppend (c n : Nat) | lgAppendGo (c : Nat)
  | cnt (d n : Nat) | cntSel (d n : Nat) | frzCnt (d b n : Nat) | frzInfo (d b i : Nat) | frzLevel (d b l i : Nat)
  | frzLink (d b p i : Nat) | frzStatus (d : Nat)
  | svPack | svPolicy | svTally | svChk | svTaint (c : Nat) | svEng (j i : Nat)
  | tlStatus (c : Nat) | tlNext | tlOldest | tlKey (c : Nat) | tlCnt | tlWinManifest (c w : Nat) | tlWinIndex (c w : Nat)
  | tlWinStatus (c w : Nat) | tlWinRec (c w n : Nat)
deriving DecidableEq, Repr

/-! ### Where each register lies -/

/-- The offset o is one of n places a stride apart from a base: which. -/
def place? (o base stride n : Nat) : Option Nat :=
  if base ≤ o && (o - base) % stride == 0 && (o - base) / stride < n then some ((o - base) / stride) else none

/-- A place within one of n slots a stride apart: slot and offset in it. -/
def slot? (o base stride n : Nat) : Option (Nat × Nat) :=
  if base ≤ o && (o - base) / stride < n then some ((o - base) / stride, (o - base) % stride) else none

/-- MOD_ block. -/
def modReg (o : Nat) : Option Reg :=
  match o with
  | 0x000 => some .modCaps
  | 0x008 => some .modId
  | 0x00C => some .modBoard
  | 0x010 => some .modSerial
  | 0x018 => some .modPortMedia
  | 0x01C => some .modOptSpare
  | 0x020 => some .modD2d
  | _ => ((place? o 0x040 8 4).map Reg.modDieInv).orElse fun _ =>
      ((place? o 0x080 4 24).map Reg.modStackInv).orElse fun _ => (place? o 0x100 4 8).map Reg.modOptInv

/-- Lease-cell block. -/
def leaseReg (o : Nat) : Option Reg :=
  match o with
  | 0x000 => some .leaseStatus
  | 0x004 => some .leaseGen
  | 0x008 => some .leaseRenew
  | 0x00C => some .leaseClaim
  | 0x010 => some .leaseRelease
  | 0x014 => some .leaseOpen
  | 0x018 => some .leaseGap
  | 0x020 => some .leaseCnt
  | 0x040 => some .oosStatus
  | 0x048 => some .oosNonce
  | 0x050 => some .fwStore
  | 0x058 => some .resetCause
  | 0x100 => some .mgmtMac
  | 0x108 => some .mgmtIp
  | 0x110 => some .mgmtGw
  | 0x118 => some .mgmtStatus
  | 0x120 => some .pwrSummary
  | _ => none

/-- A queue slot of the ME_, VE_ or DE_ block (R97): `kind` 0, 1, 2. A slot of another engine reads 0. -/
def queueReg (s : State) (d kind o : Nat) : Option Reg :=
  let c := o / 0x1000
  let q := o % 0x1000 / 0x40
  let here : Bool := match s.queue? c q with
    | some u => engDie u.eng == d && (if u.eng < 64 then 0 else if u.eng < 80 then 1 else 2) == kind
    | none => false
  if !here then some .zero
  else match o % 0x40 with
    | 0x00 => some (.qTail c q)
    | 0x04 => some (.qHead c q)
    | 0x08 => some (.qDone c q)
    | 0x0C => some (.qStatus c q)
    | 0x10 => some (.qBeats c q)
    | 0x14 => some (.qCtrl c q)
    | _ => none

/-- ME_, VE_ and DE_ blocks: engine registers and queue slots. -/
def engineReg (s : State) (d kind o : Nat) : Option Reg :=
  let per := [16, 4, 8].getD kind 0
  let j := fun (e : Nat) => [0, 64, 80].getD kind 0 + per * d + e
  match slot? o 0x08000000 0x100000 1 with
  | some (_, x) => if x % 4 = 0 then queueReg s d kind x else none
  | none =>
    match slot? o 0 0x100 per with
    | none => none
    | some (e, x) =>
      match kind, x with
      | _, 0x00 => some (.engStatus (j e))
      | 0, 0x08 => some (.tileOwner (j e))
      | 0, 0x10 => some (.tileFlagsLo (j e))
      | 0, 0x18 => some (.tileFlagsHi (j e))
      | 0, 0x20 => some (.unordCnt (j e))
      | 0, 0x28 => some (.abftCnt (j e))
      | _, _ => none

/-- The 4 KiB page of a context in the DE_ block (R181, R422, R451). -/
def pageReg (c x : Nat) : Option Reg :=
  match x with
  | 0x00 => some (.stashCtrl c)
  | 0x04 => some (.stashArm c)
  | 0x08 => some (.stashRetire c)
  | 0x0C => some (.stashStatus c)
  | 0x10 => some (.stashFullAt c)
  | 0x14 => some (.stashPass c)
  | 0x18 => some (.stashFill c)
  | 0x20 => some (.stashDemand c)
  | 0x28 => some (.stashBase c)
  | 0x30 => some (.stashSize c)
  | 0x38 => some (.stashTable c)
  | 0x40 => some (.stashCfg c)
  | 0x80 => some (.hangCtrl c)
  | 0x84 => some (.ctxNote c)
  | 0x400 => some (.hoardStatus c)
  | 0x408 => some (.hoardLast c)
  | 0x410 => some (.fillProgress c)
  | _ => ((place? x 0x100 4 16).map (Reg.faultRec c)).orElse fun _ => (place? x 0x200 8 64).map (Reg.dataCursor c)

/-- DE_ block beyond engines and queues: semaphores (R121), barriers, context pages, transactions. -/
def deReg (d o : Nat) : Option Reg :=
  if o = 0x01000000 then some (.txStatus d)
  else if o = 0x0D004000 then some .convoyCnt
  else match slot? o 0x0C000000 0x1000 256 with
    | some (g, x) =>
      let k := 4096 * d + 16 * g + x / 0x10
      if 0x100 ≤ x then none
      else match x % 0x10 with
        | 0 => some (.semValue k)
        | 4 => some (.semAdd k)
        | _ => none
    | none => match slot? o 0x0E000000 0x1000 256 with
      | some (c, x) => pageReg c x
      | none => (place? o 0x0D000000 8 1024).map Reg.barrier

/-- MEM_ block (R208). -/
def memReg (d o : Nat) : Option Reg :=
  match o with
  | 0x000 => some (.memCtrl d)
  | 0x004 => some (.memStatus d)
  | 0x010 => some (.huskCnt d)
  | 0x018 => some (.lastUe d)
  | 0x020 => some (.lastUeInfo d)
  | 0x028 => some (.lastConsume d)
  | 0x030 => some (.scrubPos d)
  | _ => match slot? o 0x100 0x40 6 with
    | some (n, 0) => some (.stackStatus (6 * d + n))
    | some (n, 8) => some (.stackErr (6 * d + n))
    | _ => none

/-- WG_ block (R248); a port slot of another die, or of a port that the variant has not (R8), reads 0. -/
def wgReg (s : State) (d o : Nat) : Option Reg :=
  match o with
  | 0x00 => some .routeCtrl
  | 0x04 => some .txnCtrl
  | 0x08 => some .tsCtrl
  | 0x10 => some (.peerStatus d)
  | 0x18 => some (.dropCnt d)
  | _ =>
    match slot? o 0x100 0x10 5, slot? o 0x10000 0x200 16, slot? o 0x100000 0x1000 13 with
    | some (l, 0), _, _ => some (.levelData d l)
    | some (l, 8), _, _ => some (.levelSlots d l)
    | _, some (e, 0), _ => some (.sliceCfg e)
    | _, some (e, 8), _ => some (.sliceDrops d e)
    | _, some (e, x), _ => (place? x 0x100 8 16).map (Reg.sliceWin e)
    | _, _, some (p, x) =>
      if portDie p != d || !s.portPresent p then (if x % 8 = 0 && 0x08 ≤ x && x ≤ 0x20 then some .zero64 else some .zero)
      else match x with
        | 0x00 => some (.portStatus p)
        | 0x08 => some (.portPeer p)
        | 0x10 => some (.portSerial p)
        | 0x18 => some (.portErr p)
        | 0x20 => some (.portCnt p)
        | _ => none
    | _, _, _ => (place? o 0x20000 8 64).map Reg.circuit

/-- The counter registers of a die (R366). -/
def cntReg (d o : Nat) : Option Reg :=
  if o = 0x32000 then some (.frzStatus d)
  else match place? o 0 8 4096, place? o 0x10000 4 4096, slot? o 0x20000 0x8000 2, slot? o 0x30000 0x1000 2 with
    | some n, _, _, _ => some (.cnt d n)
    | _, some n, _, _ => some (.cntSel d n)
    | _, _, some (b, x), _ => (place? x 0 8 4096).map (Reg.frzCnt d b)
    | _, _, _, some (b, x) =>
      match place? x 0 8 4, slot? x 0x40 0x10 5, slot? x 0x100 0x20 13 with
      | some i, _, _ => some (.frzInfo d b i)
      | _, some (l, y), _ => if y % 8 = 0 then some (.frzLevel d b l (y / 8)) else none
      | _, _, some (p, y) => if y % 8 = 0 then some (.frzLink d b p (y / 8)) else none
      | _, _, _ => none
    | _, _, _, _ => none

/-- The range of a compute die. -/
def dieReg (s : State) (d o : Nat) : Option Reg :=
  match o / 0x10000000, o % 0x10000000 with
  | 0, x => engineReg s d 0 x
  | 1, x => engineReg s d 1 x
  | 2, x => (engineReg s d 2 x).orElse fun _ => deReg d x
  | 3, x => memReg d x
  | 4, x => wgReg s d x
  | 5, x => cntReg d x
  | _, _ => none

/-- One channel page (R314). -/
def mbReg (c ch x : Nat) : Option Reg :=
  match x with
  | 0x020 => some (.txCommit c ch)
  | 0x024 => some (.txStatusMb c ch)
  | 0x060 => some (.rxPop c ch)
  | 0x064 => some (.rxStatus c ch)
  | 0x068 => some (.irqCtrl c ch)
  | 0x070 => some (.irqAddr c ch)
  | 0x078 => some (.irqData c ch)
  | _ => ((place? x 0x000 4 8).map (Reg.txWord c ch)).orElse fun _ => (place? x 0x040 4 8).map (Reg.rxWord c ch)

/-- TB_ block (R75). -/
def tbReg (c x : Nat) : Option Reg :=
  match x with
  | 0x00 => some .tbCtrl
  | 0x04 => some (.tbStatus c)
  | 0x08 => some .tbThresh
  | 0x10 => some .tbPodNow
  | 0x18 => some .tbStepNow
  | 0x20 => some .tbMonoNow
  | 0x28 => some .tbTollNow
  | 0x30 => some .tbPendingCorr
  | 0x38 => some .tbGmId
  | 0x40 => some .tbGmPending
  | 0x48 => some .tbPpsDelay
  | _ => match slot? x 0x100 16 5 with
    | some (g, 0) => some (.tsqPop c g)
    | some (g, 8) => some (.tsqStamp c g)
    | _ => (place? x 0x180 4 5).map (Reg.tsqOvf c)

/-- LG_ block of a CTD. -/
def lgReg (c x : Nat) : Option Reg :=
  match x with
  | 0x000 => some (.lgOldest c)
  | 0x008 => some (.lgNewest c)
  | 0x010 => some (.lgStatus c)
  | 0x018 => some (.lgEvicted c)
  | 0x020 => some (.lgFlashSeq c)
  | 0x840 => some (.lgAppendGo c)
  | _ => match slot? x 0x100 0x100 4 with
    | some (w, 0x00) => some (.winCursor c w)
    | some (w, 0x08) => some (.winStatus c w)
    | some (w, y) => (place? y 0x40 4 16).map (Reg.winRec c w)
    | none => (place? x 0x800 4 16).map (Reg.lgAppend c)

/-- SV_ block. -/
def svReg (x : Nat) : Option Reg :=
  match x with
  | 0x000 => some .svPack
  | 0x008 => some .svPolicy
  | 0x010 => some .svTally
  | 0x018 => some .svChk
  | _ => match place? x 0x1000 8 256, slot? x 0x2000 0x20 112 with
    | some c, _ => some (.svTaint c)
    | none, some (j, y) => if y % 8 = 0 then some (.svEng j (y / 8)) else none
    | none, none => none

/-- TL_ block. -/
def tlReg (c x : Nat) : Option Reg :=
  match x with
  | 0x000 => some (.tlStatus c)
  | 0x008 => some .tlNext
  | 0x010 => some .tlOldest
  | 0x018 => some (.tlKey c)
  | 0x020 => some .tlCnt
  | _ => match slot? x 0x100 0x100 2 with
    | some (w, 0x00) => some (.tlWinManifest c w)
    | some (w, 0x08) => some (.tlWinIndex c w)
    | some (w, 0x0C) => some (.tlWinStatus c w)
    | some (w, y) => (place? y 0x40 4 32).map (Reg.tlWinRec c w)
    | none => none

/-- CTD_ block. -/
def ctdReg (c x : Nat) : Option Reg :=
  match x with
  | 0x00 => some (.ctdStatus c)
  | 0x08 => some (.wdog c)
  | 0x0C => some (.wdogStatus c)
  | 0x10 => some (.clampHit c)
  | 0x14 => some .clampSrc
  | 0x18 => some (.ctdBoot c)
  | _ => (place? x 0x1000 8 96).map Reg.clampImage

/-- The range of a CTD. -/
def ctdRange (c o : Nat) : Option Reg :=
  if 0x05000000 ≤ o then tlReg c (o - 0x05000000)
  else if 0x04000000 ≤ o then svReg (o - 0x04000000)
  else if 0x02000000 ≤ o then lgReg c (o - 0x02000000)
  else if 0x01000000 ≤ o then (slot? o 0x01000000 0x1000 512).bind fun p => mbReg c p.1 p.2
  else if 0x00300000 ≤ o then tbReg c (o - 0x00300000)
  else ctdReg c o

/-- The block an offset of CSR space falls in, and the offset there (R34). -/
def csrUnit (off : Nat) : Option (CsrUnit × Nat) :=
  let o := off - 0xF00000000000
  if off < 0xF00000000000 then none
  else if o < 0x1000 then some (.mod, o)
  else match slot? o 0x1000000000 0x100000000 4, slot? o 0x2000000000 0x100000000 2, slot? o 0x4000000000 0x10000000 8 with
    | some (d, x), _, _ => some (.die d, x)
    | _, some (c, x), _ => some (.ctd c, x)
    | _, _, some (n, x) => some (.optic n, x)
    | _, _, _ => if 0x3000000000 ≤ o && o < 0x3000010000 then some (.lease, o - 0x3000000000) else none

/-- The register at an offset of a block. -/
def State.regOf (s : State) (u : CsrUnit) (o : Nat) : Option Reg :=
  match u with
  | .mod => modReg o
  | .die d => dieReg s d o
  | .ctd c => ctdRange c o
  | .lease => leaseReg o
  | .optic _ => none

/-- Registers of 64 bits; the others have 32. -/
def Reg.wide : Reg → Bool
  | .modCaps | .modSerial | .modDieInv _ | .tbPodNow | .tbStepNow | .tbMonoNow | .tbTollNow | .tbPendingCorr | .tbGmId
  | .tbGmPending | .tsqPop .. | .tsqStamp .. | .tileOwner _ | .tileFlagsLo _ | .tileFlagsHi _ | .abftCnt _ | .txStatus _
  | .stashFill _ | .stashDemand _ | .stashBase _ | .stashSize _ | .stashTable _ | .dataCursor .. | .hoardStatus _ | .hoardLast _
  | .fillProgress _ | .barrier _ | .convoyCnt | .huskCnt _ | .lastUe _ | .lastConsume _ | .scrubPos _ | .stackErr _ | .peerStatus _
  | .dropCnt _ | .levelData .. | .levelSlots .. | .sliceCfg _ | .sliceDrops .. | .sliceWin .. | .circuit _ | .portPeer _
  | .portSerial _ | .portErr _ | .portCnt _ | .leaseCnt | .oosNonce | .fwStore | .mgmtMac | .mgmtIp | .pwrSummary
  | .clampImage _ | .irqAddr .. | .lgOldest _ | .lgNewest _ | .lgFlashSeq _ | .lgStatus _ | .lgEvicted _ | .winCursor ..
  | .cnt .. | .frzCnt .. | .frzInfo .. | .frzLevel .. | .frzLink .. | .svPack | .svTally | .svChk | .svTaint _ | .svEng ..
  | .tlNext | .tlOldest | .tlCnt | .tlWinManifest .. | .zero64 => true
  | _ => false

/-- What an access of `width` bits at an offset meets in a block (R14): the register and whether its upper half is meant. -/
def State.regAt (s : State) (u : CsrUnit) (o width : Nat) : Option (Reg × Bool) :=
  if width = 64 then
    if o % 8 = 0 then (s.regOf u o).bind fun r => if r.wide then some (r, false) else none else none
  else if width = 32 && o % 4 = 0 then
    match s.regOf u o with
    | some r => some (r, false)
    | none => if o % 8 = 4 then (s.regOf u (o - 4)).bind fun r => if r.wide then some (r, true) else none else none
  else none

/-! ### Values -/

/-- A number placed at a bit. -/
def at' (v lo : Nat) : Nat := v * 2 ^ lo

/-- STATE of Q_STATUS. -/
def QState.code : QState → Nat
  | .idle => 0
  | .active => 1
  | .waitSem => 2
  | .stopped => 3
  | .faulted => 4
  | .fenced => 5
  | .resetting => 6
  | .unbound => 7

/-- STATE of STASH_STATUS; the states of R91 (ContextQuery). -/
def StashState.code : StashState → Nat
  | .none => 0
  | .idle => 1
  | .open_ => 2
  | .full => 3
def CState.code : CState → Nat
  | .free => 0
  | .active => 1
  | .faulted => 2
  | .fenced => 3
  | .resetting => 4

/-- MOD_CAPS. -/
def State.modCaps (s : State) : Nat :=
  (if s.hasCtd1 then 3 else 1) + at' (if s.hasOptics then 8 else 0) 2 + at' (if s.hasOptics then 0xFF else 0) 8 + at' 0xF 16 +
    at' 0xFFFFFF 20 + at' (match s.fuse.variant with | .ax => 1 | .sx => 2 | .ae => 3) 44 + at' 1 48

/-- MOD_BOARD. -/
def State.modBoard (s : State) : Nat :=
  boardIdx s.ownId + at' (b2n s.idLocked) 2 + at' (ofBits ((List.range 3).filter fun k => s.isUp (6 + k))) 3

/-- MOD_D2D_STATUS. -/
def State.d2dStatus (s : State) : Nat :=
  ofBits ((List.range 4).filter fun e => s.ring.edgeUp.getD e false) + at' (b2n (s.ring.alt.getD 0 false)) 4 +
    at' (b2n (s.ring.alt.getD 1 false)) 5 + at' (b2n (s.ring.change.any Option.isSome)) 6

/-- MOD_DIE_INVn, MOD_STACK_INVn, MOD_OPT_INVn. -/
def State.dieInv (s : State) (n : Nat) : Nat :=
  let x := s.fuse.dieInv.getD n {}
  x.uid % 2 ^ 32 + at' (x.rev % 16) 32 + at' (x.speedBin % 256) 36 + at' (x.leakBin % 256) 44
def stackInv (n : Nat) : Nat := 16 + at' 32 5 + at' (n / 6) 13 + at' 128 15
def State.optInv (s : State) (n : Nat) : Nat :=
  if !s.hasOptics then 0
  else 1 + at' (if n < 3 then 0 else if n = 3 then 2 else 1) 1 + at' ([0, 1, 3, 2, 0, 1, 3, 2].getD n 0) 3

/-- LEASE_STATUS. -/
def State.leaseStatus (s : State) : Nat :=
  let e := s.ctd.lease
  let left := match e.holder with
    | some _ => (e.expiry - s.time.mono) / 1000
    | none => 0
  e.holder.getD 3 + at' (b2n e.gates) 2 + at' (b2n e.guardEnd.isSome) 3 + at' (b2n e.waived) 4 + at' (b2n s.ctd.nv.latched) 5 +
    at' (b2n e.recovery) 6 + at' (min left 0xFFFF) 16

/-- CTD_STATUS. -/
def State.ctdStatus (s : State) (c : Nat) : Nat :=
  let x := s.ctdOf c
  x.role.code + at' x.health.code 2 + at' (b2n x.claimable) 4

/-- CTD_CLAMP_SRC. -/
def State.clampSrc (s : State) : Nat := b2n s.ctd.clamp.valid + 2 * b2n s.ctd.clamp.bound

/-- MEM_STATUS. -/
def State.memStatus (s : State) (d : Nat) : Nat :=
  let m := s.memDie d
  let scrub := m.scrubH != 0 && s.regionUp d && !(List.range 6).any fun i => (s.stack (6 * d + i)).selfRefresh
  ofBits ((List.range 6).filter fun i => (s.stack (6 * d + i)).up) + at' (b2n m.initDone) 6 + at' (b2n m.contentKept) 7 +
    at' (b2n scrub) 8 + at' (b2n (s.regionFailed d)) 9

/-- MEM_STACKn_STATUS. -/
def State.stackStatus (s : State) (n : Nat) : Nat :=
  let x := s.stack n
  x.rate % 4 + at' (b2n x.selfRefresh) 2 + at' (b2n x.limited) 3 + at' (x.tempC % 256) 8

/-- WG_PORT_STATUSp and WG_PORT_PEERp. -/
def State.portStatus (s : State) (p : Nat) : Nat :=
  let x := s.port p
  x.st.code + at' x.lanes 3 + at' (b2n x.media) 8 + at' (if x.st = .up then x.rev % 256 else 0) 11 +
    at' (b2n x.remapped) 19 + at' x.role 20 + at' x.level 24
def State.portPeer (s : State) (p : Nat) : Nat :=
  let x := s.port p
  x.coord.toNat + at' x.peerPort.toNat 15 + at' x.revMax.toNat 19 + at' x.revMin.toNat 27 + at' x.fw.toNat 35

/-- WG_SLICE_CFGs and WG_SLICE_WINs_w. -/
def State.sliceCfg (s : State) (e : Nat) : Nat :=
  let x := s.sliceRegs e
  x.id.toNat + at' (b2n (s.fab.slices.lookup e).isSome) 12 + at' x.wrap.toNat 13 + at' x.epoch.toNat 16 + at' x.boundary.toNat 32
def State.sliceWin (s : State) (e w : Nat) : Nat :=
  let x := s.sliceRegs e
  match x.wins.lookup w with
  | some p => p.1 + at' p.2 32 + 2 ^ 63
  | none => (mget (0, 0) x.winsOff w).1 + at' (mget (0, 0) x.winsOff w).2 32

/-- DE_HOARD_STATUS. -/
def State.hoardStatus (s : State) (c : Nat) : Nat :=
  let x := s.ctx c
  let act := match s.job.fills.find? (·.ctx == c) with
    | some f => if f.stage = 0 then 4 else if f.restore then 2 else 3
    | none => if (s.snap? c).isSome then 1 else 0
  act + at' (b2n x.hoard.isSome) 3 + at' ((x.hoard.map (·.copies)).getD 0) 4 + at' (x.hoardMask % 8) 6 +
    at' (x.hoardReason % 256) 16 + at' x.snapshots.toNat 32

/-- SV_TAINT_SUMc. -/
def State.taintSum (s : State) (c : Nat) : Nat :=
  let x := s.ctx c
  b2n (!x.taint.isEmpty || x.taintDies != 0 || x.taintRemote.isSome || x.taintWrites != 0) + at' x.taintDies.toNat 1 +
    at' (b2n x.taintRemote.isSome) 5 + at' ((x.taintRemote.getD 0) % 2 ^ 15) 6 + at' x.taintWrites 32

/-- The four registers of SV_ENGj. -/
def State.svEngReg (s : State) (j i : Nat) : Nat :=
  let u := (s.pairOf j).headD j
  let e := s.sv j
  match i with
  | 0 => e.st.code + at' (b2n e.suspect) 2 + at' (b2n ((s.sv u).sieving || (s.sv u).due)) 3 + at' (e.strikes % 4) 4 +
      at' (e.cleanRuns % 32) 8 + at' e.fails 16
  | 1 => e.cleanStep.toNat
  | 2 => e.cleanPod.toNat
  | _ => e.runVersion + at' e.failPattern 32 + at' (b2n e.lastFailed) 48 + at' (b2n e.determ) 49

/-- One of the two words of tile flags of an ME; the odd half of a pair mirrors the even one. -/
def State.tileFlags (s : State) (j lo : Nat) : Nat :=
  let u := (s.pairOf j).headD j
  ((List.range 16).map fun i => at' (mget 0 s.eng.tileFlags (32 * u + lo + i)).toNat (4 * i)).foldl (· + ·) 0

/-- ME_TILE_OWNERe. -/
def State.tileOwners (s : State) (j : Nat) : Nat :=
  ((List.range 4).map fun g =>
    match s.eng.tileOwner.lookup (4 * j + g) with
    | some c => at' (c + 2 ^ 8) (16 * g)
    | none => 0).foldl (· + ·) 0

/-- TL_STATUS. -/
def State.tlStatus (s : State) (c : Nat) : Nat :=
  b2n (s.ctd.nv.keyGen.getD c 0 != 0 && !s.toll.keyBusy.getD c false) + at' (b2n s.ctd.nv.calAltered) 1 + at' (b2n ((s.calFail s.ctd.nv.cal).1 == 0)) 2 +
    at' (b2n (!s.toll.cut.isEmpty)) 3 + at' (s.toll.backlog / 64) 16

/-- The value a register reads (R12; WO fields and reserved fields read 0). -/
def State.regVal (s : State) : Reg → Nat
  | .modCaps => s.modCaps
  | .modId => s.mod.modId.toNat
  | .modBoard => s.modBoard
  | .modSerial => s.fuse.serial.toNat
  | .modPortMedia => s.portMedia
  | .modOptSpare => s.mod.subst.toNat
  | .modD2d => s.d2dStatus
  | .modDieInv n => s.dieInv n
  | .modStackInv n => stackInv n
  | .modOptInv n => s.optInv n
  | .tbCtrl =>
    let t := s.time
    t.podSrc.toNat + at' t.wgPort.toNat 2 + at' (b2n t.ppsInEn) 6 + at' (b2n t.ppsOutEn) 7 + at' t.domain.toNat 8 + at' (b2n t.udp) 16
  | .tbStatus c => s.tbStatus c
  | .tbThresh => s.time.thresh
  | .tbPodNow => s.podStamp.toNat
  | .tbStepNow => s.time.step.toNat
  | .tbMonoNow => s.monoStamp.toNat
  | .tbTollNow => s.tollStamp.toNat
  | .tbPendingCorr => s.time.pendingCorr.toNat
  | .tbGmId => s.time.gmId.toNat
  | .tbGmPending => s.time.gmPendId.toNat
  | .tbPpsDelay => s.time.ppsDelay
  | .tsqPop c g => if s.holder = some c then (s.time.tsq.getD g {}).head else 0
  | .tsqStamp c g => if s.holder = some c then (s.time.tsq.getD g {}).stamp.toNat else 0
  | .tsqOvf c g => if s.holder = some c then (s.time.tsq.getD g {}).lost else 0
  | .qTail c q => ((s.queue? c q).map (·.tail.toNat)).getD 0
  | .qHead c q => ((s.queue? c q).map (·.head.toNat)).getD 0
  | .qDone c q => ((s.queue? c q).map (·.done.toNat)).getD 0
  | .qStatus c q => ((s.queue? c q).map fun u => u.st.code + at' (b2n u.dbErr) 3 + at' u.lastErr.toNat 16).getD 0
  | .qBeats c q => ((s.queue? c q).map (·.beats.toNat)).getD 0
  | .qCtrl .. => 0
  | .zero | .zero64 => 0
  | .engStatus j => s.engStatus j
  | .tileOwner j => s.tileOwners j
  | .tileFlagsLo j => s.tileFlags j 0
  | .tileFlagsHi j => s.tileFlags j 16
  | .unordCnt j => (s.engine j).unordCnt
  | .abftCnt j =>
    let e := s.engine j
    e.abftTransient + at' e.abftPersistent 16 + at' e.unchecked 32 + at' e.chkRuns 48
  | .semValue k => (s.sem k).toNat
  | .semAdd _ => 0
  | .txStatus d => s.txInUse d + at' (s.die d).txHigh 16 + at' (s.die d).txStall 32
  | .stashCtrl _ => 0
  | .stashArm c => (s.stash c).armCount
  | .stashRetire c => (s.stash c).retireCount
  | .stashStatus c =>
    let t := s.stash c
    t.st.code + at' (b2n t.pending) 2 + at' (b2n t.armErr) 3 + at' (b2n t.ovf) 4 + at' (b2n t.nan) 5 + at' t.armed 16
  | .stashFullAt c =>
    let t := s.stash c
    (match t.fullAt with | some i => i + 2 ^ 12 | none => 0) + at' t.retired 16
  | .stashPass c => (s.stash c).pass.toNat
  | .stashFill c => (s.stash c).fill
  | .stashDemand c => (s.stash c).demand
  | .stashBase c => (s.stash c).base
  | .stashSize c => (s.stash c).size
  | .stashTable c => (s.stash c).table
  | .stashCfg c => (s.stash c).tableLen + at' (s.stash c).armSem 16
  | .hangCtrl c => (s.ctx c).runLimit + at' (s.ctx c).waitLimit 14 + at' (b2n (s.ctx c).waitAction) 26
  | .ctxNote c =>
    let x := s.ctx c
    b2n x.tilesLost + at' (b2n x.storeLost) 1 + at' (b2n x.stalled) 2 + at' x.lastEngine 8 + at' x.storeDies.toNat 16
  | .faultRec c n => ((s.ctx c).faultRec.getD n 0).toNat
  | .dataCursor c n => (mget 0 (s.ctx c).cursors n).toNat
  | .hoardStatus c => s.hoardStatus c
  | .hoardLast c => (s.ctx c).hoardStep.toNat
  | .fillProgress c => (s.ctx c).fillBytes + at' (s.ctx c).fillSource 48
  | .barrier b =>
    (match s.fab.barriers.lookup b with
    | some x => x.ctx + 2 ^ 8 + at' x.child.toNat 16 + at' (b2n x.self) 29 + at' x.gen.toNat 32
    | none => 0)
  | .convoyCnt => s.fab.convoys.length % 1024 + at' s.fab.originated 16 + at' s.fab.received 32 + at' s.fab.tableFull 48
  | .memCtrl d => (s.memDie d).scrubH + at' (s.memDie d).ceStorm 8
  | .memStatus d => s.memStatus d
  | .huskCnt d => (s.memDie d).created + at' (s.memDie d).consumed 32
  | .lastUe d => (s.memDie d).lastUe
  | .lastUeInfo d => (s.memDie d).lastUeCause + at' (b2n (s.memDie d).lastUeValid) 3
  | .lastConsume d =>
    let m := s.memDie d
    m.lastCons % 2 ^ 52 + at' (m.lastConsHart % 8) 52 + at' (b2n m.lastConsValid) 55
  | .scrubPos d => (s.memDie d).scrubLine % 2 ^ 25 + at' (s.memDie d).scrubPasses.toNat 32
  | .stackStatus n => s.stackStatus n
  | .stackErr n =>
    let x := s.stack n
    x.ce + at' x.ue 16 + at' x.linkCe 32 + at' x.linkRetry 48
  | .routeCtrl => b2n s.fab.adaptive + 2 * b2n s.fab.trayVia
  | .txnCtrl => s.fab.timeout + at' s.fab.retries 14 + at' s.fab.epochWait 17
  | .tsCtrl => s.fab.interval
  | .peerStatus d =>
    let w := s.fab.dies.getD d {}
    s.peersOn d + at' w.highWater 16 + at' w.busySent 32
  | .dropCnt d =>
    let w := s.fab.dies.getD d {}
    w.noSlice + at' w.malformed 16 + at' w.dupDiscard 32 + at' w.retrySent 48
  | .levelData d l => (s.fab.dies.getD d {}).data.getD l 0
  | .levelSlots d l => (s.fab.dies.getD d {}).slots.getD l 0 / 16 % 2 ^ 64
  | .sliceCfg e => s.sliceCfg e
  | .sliceDrops d e =>
    let x := mget (0, 0, 0) (s.fab.dies.getD d {}).drops e
    x.1 + at' x.2.1 16 + at' x.2.2 32
  | .sliceWin e w => s.sliceWin e w
  | .circuit n => (mget 0 s.fab.circuits n).toNat
  | .portStatus p => s.portStatus p
  | .portPeer p => s.portPeer p
  | .portSerial p => (s.port p).serial.toNat
  | .portErr p =>
    let x := s.port p
    x.fecCorr + at' x.fecUncorr 16 + at' x.crcErr 32 + at' x.replays 48
  | .portCnt p => (s.port p).retrains + at' (s.port p).linkDowns 16 + at' (s.port p).identFail 32
  | .leaseStatus => s.leaseStatus
  | .leaseGen => s.ctd.lease.gen.toNat
  | .leaseRenew => 0
  | .leaseClaim => 0
  | .leaseRelease => 0
  | .leaseOpen => 0
  | .leaseGap => s.ctd.lease.gapUs
  | .leaseCnt =>
    let e := s.ctd.lease
    e.switchovers + at' e.badRenew 16 + at' e.wdogLosses 32
  | .oosStatus => s.oosStatus
  | .oosNonce => s.ctd.nv.nonce.toNat
  | .fwStore => s.ctd.nv.minRelease % 2 ^ 16 + at' (s.ctd.nv.lastRelease % 2 ^ 16) 16
  | .resetCause => s.ctd.nv.resetCause % 8 + at' s.ctd.nv.resetCount 16
  | .mgmtMac => s.fuse.mac.toNat
  | .mgmtIp => s.mgmt.ip.toNat + at' s.mgmt.prefix_ 32 + at' (b2n s.mgmt.valid) 38
  | .mgmtGw => s.mgmt.gw.toNat
  | .mgmtStatus => b2n s.mgmt.linkUp + 2 * b2n s.mgmt.fec + 4 * s.holder.getD 0 + at' s.mgmt.discarded 16
  | .pwrSummary => s.mgmt.pwrW + at' s.mgmt.pwrV 16 + at' s.mgmt.maxC 32 + at' (b2n s.power.alert) 40
  | .ctdStatus c => s.ctdStatus c
  | .wdog _ => 0
  | .wdogStatus c => s.ctd.clamp.wdogMs + at' (s.ctdOf c).expiries 16
  | .clampHit c => (s.ctdOf c).hit.toNat
  | .clampSrc => s.clampSrc
  | .clampImage n => fieldAt s.ctd.clamp.block (8 * n) 8
  | .ctdBoot c =>
    let x := s.ctdOf c
    x.stage + at' (b2n (x.stage == 3)) 3 + at' (x.imageFail % 16) 4 + at' (x.release % 2 ^ 16) 8
  | .txWord .. => 0
  | .txCommit .. => 0
  | .txStatusMb c ch => b2n (s.chan c ch).txFull + 2 * b2n (s.chan c ch).overrun
  | .rxWord c ch n => ((s.chan c ch).rx.getD n 0).toNat
  | .rxPop c ch => if (s.chan c ch).rxFull then ((s.chan c ch).rx.getD 0 0).toNat else 0
  | .rxStatus c ch => b2n (s.chan c ch).rxFull + at' (s.chan c ch).events.length 1 + at' (s.chan c ch).lost 16
  | .irqCtrl c ch => b2n (s.chan c ch).irqRx + 2 * b2n (s.chan c ch).irqTx
  | .irqAddr c ch => (s.chan c ch).irqAddr.toNat
  | .irqData c ch => (s.chan c ch).irqData.toNat
  | .lgOldest c => (s.ledger c).oldest
  | .lgNewest c => (s.ledger c).newestSeq
  | .lgFlashSeq c => (s.ledger c).flashSeq
  | .lgStatus c => (s.ledger c).ram.length + at' (s.ledger c).flash.length 16 + at' (s.ledger c).dropped 32
  | .lgEvicted c => (s.ledger c).ramOver + at' (s.ledger c).flashOver 24 + at' (s.ledger c).flashDropped 40
  | .winCursor c w => ((s.ledger c).wins.getD w {}).cursor.toNat
  | .winStatus c w =>
    let x := (s.ledger c).wins.getD w {}
    b2n x.src + 2 * b2n x.busy + 4 * b2n x.valid + 8 * b2n x.fin
  | .winRec c w n => (((s.ledger c).wins.getD w {}).words.getD n 0).toNat
  | .lgAppend .. => 0
  | .lgAppendGo _ => 0
  | .cnt d n => mget 0 (s.counters d).cnt n
  | .cntSel d n => (mget 0 (s.counters d).sel n).toNat
  | .frzCnt d b n => mget 0 ((s.counters d).banks.getD b {}).cnt n
  | .frzInfo d b i =>
    let x := (s.counters d).banks.getD b {}
    (match i with
    | 0 => x.mark + at' (b2n x.valid) 32 + at' (b2n x.late) 33 + at' x.entry 34
    | 1 => x.pod.toNat
    | 2 => x.step.toNat
    | _ => x.mono.toNat)
  | .frzLevel d b l i =>
    let x := ((s.counters d).banks.getD b {}).levels.getD l (0, 0)
    if i = 0 then x.1 else x.2
  | .frzLink d b p i => ((mget [] ((s.counters d).banks.getD b {}).links p).getD i 0).toNat
  | .frzStatus d => (s.counters d).last + at' (s.counters d).skipped 16
  | .svPack => s.silent.version + at' s.silent.patterns 32 + at' (b2n s.silent.packValid) 48
  | .svPolicy => s.silent.period + at' s.silent.probPeriod 11 + at' s.silent.checkExp 22 + at' s.effExp 27
  | .svTally => s.silent.tally + at' s.silent.tallySt 32
  | .svChk => s.silent.sampled + at' s.silent.disagree 32 + at' s.silent.skipped 48
  | .svTaint c => s.taintSum c
  | .svEng j i => s.svEngReg j i
  | .tlStatus c => s.tlStatus c
  | .tlNext => s.toll.nextNum
  | .tlOldest => ((s.toll.held.head?).map (·.num)).getD 0
  | .tlKey c => s.ctd.nv.keyGen.getD c 0
  | .tlCnt => s.toll.tagWaits + at' s.toll.gapManifests 16 + at' s.toll.forced 32 + at' s.toll.evicted 48
  | .tlWinManifest c w => (s.toll.wins.getD (2 * c + w) {}).manifest.toNat
  | .tlWinIndex c w => (s.toll.wins.getD (2 * c + w) {}).index.toNat
  | .tlWinStatus c w =>
    let x := s.toll.wins.getD (2 * c + w) {}
    b2n x.busy + 2 * b2n x.valid + 4 * b2n x.none_
  | .tlWinRec c w n => ((s.toll.wins.getD (2 * c + w) {}).words.getD n 0).toNat

/-! ### Fields that a read clears (R12) -/

/-- RC fields of a register, as pairs of high and low bit. TB_TSQ_POP and MB_RX_POP have a pop of their own. -/
def Reg.rcFields : Reg → List (Nat × Nat)
  | .tsqOvf .. => [(31, 0)]
  | .txStatus _ => [(30, 16), (63, 32)]
  | .unordCnt _ => [(31, 0)]
  | .abftCnt _ => [(15, 0), (31, 16), (47, 32), (63, 48)]
  | .convoyCnt => [(31, 16), (47, 32), (63, 48)]
  | .huskCnt _ => [(31, 0), (63, 32)]
  | .lastUeInfo _ => [(3, 3)]
  | .lastConsume _ => [(55, 55)]
  | .stackErr _ => [(15, 0), (31, 16), (47, 32), (63, 48)]
  | .peerStatus _ => [(26, 16), (63, 32)]
  | .dropCnt _ => [(15, 0), (31, 16), (47, 32), (63, 48)]
  | .sliceDrops .. => [(15, 0), (31, 16), (47, 32)]
  | .portErr _ => [(15, 0), (31, 16), (47, 32), (63, 48)]
  | .portCnt _ => [(15, 0), (31, 16), (47, 32)]
  | .leaseCnt => [(15, 0), (31, 16), (47, 32)]
  | .wdogStatus _ => [(31, 16)]
  | .mgmtStatus => [(31, 16)]
  | .rxStatus .. => [(31, 16)]
  | .frzStatus _ => [(31, 16)]
  | .svChk => [(31, 0), (47, 32), (63, 48)]
  | .tlCnt => [(15, 0), (31, 16), (47, 32), (63, 48)]
  | _ => []

/-- A field of a register by its low bit, set. -/
def State.setRcField (s : State) (r : Reg) (lo v : Nat) : State :=
  match r, lo with
  | .tsqOvf c g, _ =>
    if s.holder = some c then s.setTime fun t => { t with tsq := lmod t.tsq g fun q => { q with lost := v } } else s
  | .txStatus d, 16 => s.setDie d fun x => { x with txHigh := v }
  | .txStatus d, _ => s.setDie d fun x => { x with txStall := v }
  | .unordCnt j, _ => s.setEng j fun e => { e with unordCnt := v }
  | .abftCnt j, 0 => s.setEng j fun e => { e with abftTransient := v }
  | .abftCnt j, 16 => s.setEng j fun e => { e with abftPersistent := v }
  | .abftCnt j, 32 => s.setEng j fun e => { e with unchecked := v }
  | .abftCnt j, _ => s.setEng j fun e => { e with chkRuns := v }
  | .convoyCnt, 16 => { s with fab := { s.fab with originated := v } }
  | .convoyCnt, 32 => { s with fab := { s.fab with received := v } }
  | .convoyCnt, _ => { s with fab := { s.fab with tableFull := v } }
  | .huskCnt d, 0 => s.setMemDie d fun m => { m with created := v }
  | .huskCnt d, _ => s.setMemDie d fun m => { m with consumed := v }
  | .lastUeInfo d, _ => s.setMemDie d fun m => { m with lastUeValid := v != 0 }
  | .lastConsume d, _ => s.setMemDie d fun m => { m with lastConsValid := v != 0 }
  | .stackErr n, 0 => s.setStack n fun x => { x with ce := v }
  | .stackErr n, 16 => s.setStack n fun x => { x with ue := v }
  | .stackErr n, 32 => s.setStack n fun x => { x with linkCe := v }
  | .stackErr n, _ => s.setStack n fun x => { x with linkRetry := v }
  | .peerStatus d, 16 => s.setWg d fun w => { w with highWater := v }
  | .peerStatus d, _ => s.setWg d fun w => { w with busySent := v }
  | .dropCnt d, 0 => s.setWg d fun w => { w with noSlice := v }
  | .dropCnt d, 16 => s.setWg d fun w => { w with malformed := v }
  | .dropCnt d, 32 => s.setWg d fun w => { w with dupDiscard := v }
  | .dropCnt d, _ => s.setWg d fun w => { w with retrySent := v }
  | .sliceDrops d e, 0 => s.setWg d fun w => { w with drops := mmod (0, 0, 0) w.drops e fun x => (v, x.2.1, x.2.2) }
  | .sliceDrops d e, 16 => s.setWg d fun w => { w with drops := mmod (0, 0, 0) w.drops e fun x => (x.1, v, x.2.2) }
  | .sliceDrops d e, _ => s.setWg d fun w => { w with drops := mmod (0, 0, 0) w.drops e fun x => (x.1, x.2.1, v) }
  | .portErr p, 0 => s.setPort p fun x => { x with fecCorr := v }
  | .portErr p, 16 => s.setPort p fun x => { x with fecUncorr := v }
  | .portErr p, 32 => s.setPort p fun x => { x with crcErr := v }
  | .portErr p, _ => s.setPort p fun x => { x with replays := v }
  | .portCnt p, 0 => s.setPort p fun x => { x with retrains := v }
  | .portCnt p, 16 => s.setPort p fun x => { x with linkDowns := v }
  | .portCnt p, _ => s.setPort p fun x => { x with identFail := v }
  | .leaseCnt, 0 => s.setLease fun e => { e with switchovers := v }
  | .leaseCnt, 16 => s.setLease fun e => { e with badRenew := v }
  | .leaseCnt, _ => s.setLease fun e => { e with wdogLosses := v }
  | .wdogStatus c, _ => s.setCtd c fun x => { x with expiries := v }
  | .mgmtStatus, _ => { s with mgmt := { s.mgmt with discarded := v } }
  | .rxStatus c ch, _ => s.setChan c ch fun x => { x with lost := v }
  | .frzStatus d, _ => s.setCounters d fun c => { c with skipped := v }
  | .svChk, 0 => { s with silent := { s.silent with sampled := v } }
  | .svChk, 32 => { s with silent := { s.silent with disagree := v } }
  | .svChk, _ => { s with silent := { s.silent with skipped := v } }
  | .tlCnt, 0 => { s with toll := { s.toll with tagWaits := v } }
  | .tlCnt, 16 => { s with toll := { s.toll with gapManifests := v } }
  | .tlCnt, 32 => { s with toll := { s.toll with forced := v } }
  | .tlCnt, _ => { s with toll := { s.toll with evicted := v } }
  | _, _ => s

/-- The RC fields that a read of `width` bits returns are cleared; what hardware sets in the same cycle is kept (R12). -/
def State.clearRc (s : State) (r : Reg) (width : Nat) (upper : Bool) (hwSet : Nat) : State :=
  (r.rcFields.filter fun f => width == 64 || (decide (32 ≤ f.2)) == upper).foldl
    (fun s f => s.setRcField r f.2 (bitsOf hwSet f.1 f.2)) s

end Sys2Proof.Machine
end

