-- ==== Sys2Proof/Machine/Package.lean ====
section
/-! DEFINITION. Module identity and the optical spare (chapter 01), and the commands of the inventory (0x01xx) and of the links
(0x10xx). -/

namespace Sys2Proof.Machine

/-! ### MOD_ID and MOD_OPT_SPARE (R41-R45) -/

/-- R42 and R8: the reason an ID is rejected; 0 none. DESIGN CHOICE, safe (log 61): with a Pod and a coordinate both refused the
reason is 1, since R44 gives no order. -/
def State.idReason (s : State) (v : Nat) : Nat :=
  if s.fuse.variant != .ae then 0
  else if bitsOf v 14 12 != 0 then 1
  else if 3 < bitsOf v 11 8 || 3 < bitsOf v 7 4 || 3 < bitsOf v 3 0 then 2
  else 0

/-- A write of MOD_ID (R42-R44): without LOCK, or once locked, it is ignored; a rejected ID is logged; an accepted one takes effect
whole, ports train and host cores may be released. -/
def State.writeId (s : State) (v : Nat) : State :=
  if !bitOf v 31 || s.idLocked then s
  else match s.idReason v with
    | 0 => (({ s with mod := { s.mod with modId := BitVec.ofNat 32 (v % 2 ^ 15 + 2 ^ 31) } }).trainAll).releaseHarts
    | k => s.logFw 0x0101 4 [v, k, bitsOf s.modCaps 47 44, s.mod.modId.toNat]

/-- MOD_ID_WRITE (R41, R42): only the active CTD's service processors; with its gates closed the write takes no effect (R293). -/
def execModIdWrite (init : Initiator) (value : BitVec 32) (s : State) : Host.Outcome State Fault Refusal :=
  .next <|
    if !s.isActiveSp init then s.fail .unmapped
    else if s.ctd.lease.gates then (s.answer 0).writeId value.toNat
    else s.answer 0

/-- A write of SUBST (R45): stored; applied at once unless a retrain of an earlier change is in progress. -/
def State.writeSpare (s : State) (v : Nat) : State :=
  if !s.hasOptics then s
  else
    let s := { s with mod := { s.mod with subst := BitVec.ofNat 2 v } }
    if s.mod.retraining.isEmpty && s.mod.subst != s.mod.inUse then s.applySpare else s

/-- MOD_OPT_SPARE_WRITE (R45). -/
def execModOptSpareWrite (init : Initiator) (value : BitVec 32) (s : State) : Host.Outcome State Fault Refusal :=
  .next <|
    if !s.isActiveSp init then s.fail .unmapped
    else if s.ctd.lease.gates then (s.answer 0).writeSpare value.toNat
    else s.answer 0

/-! ### Inventory commands -/

def dInvCaps : DaridDef where
  op := 0x0101
  senders := [.c, .m, .f]
  standby := true
  oos := true
  changes := false
  len := (· == 0)
  body s w _ := { s := s, words := lohi s.modCaps ++ lohi s.fuse.serial.toNat ++ [(s.ctdOf w.ctd).release, 1] }

def dInvDie : DaridDef where
  op := 0x0102
  senders := [.c, .m, .f]
  standby := true
  oos := true
  changes := false
  len := (· == 1)
  bad _ a := badWord [(0, arg a 0 < 4)]
  body s _ a := { s := s, words := lohi (s.dieInv (arg a 0)) ++ [s.memStatus (arg a 0), s.d2dStatus] }

def dInvStack : DaridDef where
  op := 0x0103
  senders := [.c, .m, .f]
  standby := true
  oos := true
  changes := false
  len := (· == 1)
  bad _ a := badWord [(0, arg a 0 < 24)]
  body s _ a := { s := s, words := [stackInv (arg a 0), s.stackStatus (arg a 0)] }

def dInvOptical : DaridDef where
  op := 0x0104
  senders := [.c, .m, .f]
  standby := true
  oos := true
  changes := false
  len := (· == 1)
  bad _ a := badWord [(0, arg a 0 < 8)]
  present s _ := s.hasOptics
  body s _ a := { s := s, words := [s.optInv (arg a 0), s.portMedia, s.mod.subst.toNat] }

def dInvCtd : DaridDef where
  op := 0x0105
  senders := [.c, .m, .f]
  standby := true
  oos := true
  changes := false
  len := (· == 1)
  bad _ a := badWord [(0, arg a 0 < 2)]
  present s a := s.ctdPresent (arg a 0)
  body s _ a := { s := s, words := [s.ctdStatus (arg a 0), s.leaseStatus, s.ctd.lease.gen.toNat, s.clampSrc] }

/-- InvSetId: what MOD_ID_WRITE does, with the outcome answered. -/
def dInvSetId : DaridDef where
  op := 0x0106
  senders := [.m]
  oos := true
  len := (· == 1)
  bad _ a := badWord [(0, bitOf (arg a 0) 31 && bitsOf (arg a 0) 30 15 == 0)]
  body s _ a :=
    if s.idLocked then .no s dBadState
    else { s := s.writeId (arg a 0), status := if s.idReason (arg a 0) = 0 then dOk else dBadArg }

/-- InvSetSpare: PENDING until the retrains it starts, or those in progress, have ended (R45). -/
def dInvSetSpare : DaridDef where
  op := 0x0107
  senders := [.m]
  oos := true
  len := (· == 1)
  bad _ a := badWord [(0, arg a 0 < 4)]
  present s _ := s.hasOptics
  body s w a :=
    let s := s.writeSpare (arg a 0)
    if s.mod.retraining.isEmpty then { s := s }
    else { s := { s with mod := { s.mod with waiters := s.mod.waiters ++ [w] } }, status := dPending }

/-- ChannelRelease: the binding ends once the response has left (R318, R319). -/
def dChannelRelease : DaridDef where
  op := 0x0108
  senders := [.m, .f]
  oos := true
  len := (· == 0)
  body s _ _ := { s := s.setLease fun e => { e with next := 2 } }

def execInvCaps (r : DReq) (s : State) : Host.Outcome State Fault Refusal := .next (runDarid dInvCaps r s)
def execInvDie (r : DReq) (s : State) : Host.Outcome State Fault Refusal := .next (runDarid dInvDie r s)
def execInvStack (r : DReq) (s : State) : Host.Outcome State Fault Refusal := .next (runDarid dInvStack r s)
def execInvOptical (r : DReq) (s : State) : Host.Outcome State Fault Refusal := .next (runDarid dInvOptical r s)
def execInvCtd (r : DReq) (s : State) : Host.Outcome State Fault Refusal := .next (runDarid dInvCtd r s)
def execInvSetId (r : DReq) (s : State) : Host.Outcome State Fault Refusal := .next (runDarid dInvSetId r s)
def execInvSetSpare (r : DReq) (s : State) : Host.Outcome State Fault Refusal := .next (runDarid dInvSetSpare r s)
def execChannelRelease (r : DReq) (s : State) : Host.Outcome State Fault Refusal :=
  .next ((runDarid dChannelRelease r s).afterResponse r.ctd r.ch)

/-- CHANNEL_BINDING_EXPIRY (R318, R319): 60 s, or 10 s for a fabric channel, without a datagram or packet from the source. -/
def execChannelBindingExpiry (ch : Fin 512) (s : State) : Host.Outcome State Fault Refusal :=
  .next <|
    match s.mbox.binds.lookup ch.val with
    | some b => if b.last + (if ch.val < 288 then 60000000000 else 10000000000) ≤ s.time.mono then s.unbind ch else s
    | none => s

/-! ### Link commands -/

/-- The ports that a unit of LINK_PERMIT drives: itself, or the ports whose laser it holds. -/
def State.unitPorts (s : State) (u : Nat) : List Nat :=
  if u < 13 then [u]
  else if u < 16 then []
  else (List.range 13).filter fun p =>
    if 9 ≤ p then p == u - 16 + 5 else s.optical p && s.axisEngine (p / 2) == u - 16

/-- LinkEnable (R503): a disabled unit takes its ports DOWN; an enabled one lets them train. A unit that LINK_PERMIT does not
permit is refused, and the LINK hit set. -/
def dLinkEnable : DaridDef where
  op := 0x1001
  senders := [.m, .f]
  len := (· == 2)
  bad _ a := badWord [(0, arg a 0 < 24), (1, arg a 1 < 2)]
  present s a := arg a 0 < 9 || (13 ≤ arg a 0 && arg a 0 < 16) || s.hasOptics
  body s _ a :=
    let u := arg a 0
    if !s.ctd.clamp.linkPermit.getLsbD u then .no (s.clampHit 4 u s.ctd.clamp.linkPermit.toNat u) dDenied
    else
      let bit := BitVec.ofNat 24 (2 ^ u)
      let set := fun (m : BitVec 24) => { s with fab := { s.fab with unitsOn := m } }
      if arg a 1 = 1 then { s := (s.unitPorts u).foldl (fun s p => s.train p) (set (s.fab.unitsOn ||| bit)) }
      else
        let s := (s.unitPorts u).foldl (fun s p => (s.linkDown p 1).portSettled p) (set (s.fab.unitsOn &&& ~~~bit))
        { s := if u = 14 || u = 15 then
            (s.cellarLost (u - 14)).setCellar (u - 14) fun x => { x with present := false } else s }

/-- LinkRetrain (R217): answered when the port's training or retrain ends. A DOWN port trains; one that may not is refused. -/
def dLinkRetrain : DaridDef where
  op := 0x1002
  senders := [.m, .f]
  len := (· == 1)
  bad _ a := badWord [(0, arg a 0 < 13)]
  present s a := s.portPresent (arg a 0)
  body s w a :=
    let p := arg a 0
    let x := s.port p
    if x.st = .down && !s.mayTrain p then .no s dBadState
    else
      let s := if x.st = .down then s.train p else s.startRetrain p 2
      { s := s.setPort p fun x => { x with waiters := x.waiters ++ [w] }, status := dPending }

/-- The role a remap names can be the peer's: a direction or board port whose neighbour has that COORD (R239, R242). -/
def State.validRole (s : State) (role coordId : Nat) : Bool :=
  role < 9 && (List.range 9).any fun c => s.expectedPeer role coordId c

/-- LinkRemap (R242, R335): bytes of the token; the port takes the role, the port that had it goes DOWN, and the port retrains, or
trains if its own role had been taken before. -/
def dLinkRemap : DaridDef where
  op := 0x1003
  senders := [.m, .f]
  len := (· == 102)
  present s a := let p := fieldAt (argBytes a 0 102) 8 1
    13 ≤ p || s.portPresent p
  body s _ a :=
    let t := argBytes a 0 102
    let p := fieldAt t 8 1
    let role := fieldAt t 9 1
    let ser := BitVec.ofNat 64 (fieldAt t 12 8)
    let x := s.port p
    let key := s.ctd.clamp.opKey
    if key.all (· == 0) || !Config.rsaVerify key (t.take 24) (t.drop 24) then .no s dBadSig
    else if 13 ≤ p then .no s dBadArg
    else if !((x.st == .quarantine || x.taken) && x.row == 2) then .no s dBadState
    else if fieldAt t 0 8 != s.fuse.serial.toNat || fieldAt t 20 4 != 0 || x.serial != ser || x.coord.toNat != fieldAt t 10 2 ||
        !s.validRole role (fieldAt t 10 2) ||
        ((List.range 13).any fun q => q != p && (s.port q).role == role && s.isUp q) then .no s dBadArg
    else
      let s := ((List.range 13).filter fun q => q != p && (s.port q).role == role && !(s.port q).taken).foldl
        (fun s q => ((s.linkDown q 2).portSettled q).setPort q fun x => { x with taken := true }) s
      let s := s.setPort p fun x => { x with role := role, remapped := true, remapPeer := some ser, remapNew := true, taken := false }
      let s := s.rebound
      { s := if x.st = .quarantine then s.startRetrain p 2 else s.train p }

def dLinkQuery : DaridDef where
  op := 0x1004
  senders := [.c, .m, .f]
  standby := true
  changes := false
  len := (· == 1)
  bad _ a := badWord [(0, arg a 0 < 13)]
  present s a := s.portPresent (arg a 0)
  body s _ a :=
    let p := arg a 0
    { s := s, words := s.portStatus p :: (lohi (s.portPeer p) ++ lohi (s.port p).serial.toNat) }

/-- WG_ROUTE_CTRL and WG_TXN_CTRL written: values out of range store the nearer limit. -/
def State.writeRouteCtrl (s : State) (v : Nat) : State :=
  { s with fab := { s.fab with adaptive := bitOf v 0, trayVia := bitOf v 1 } }
def State.writeTxnCtrl (s : State) (v : Nat) : State :=
  { s with fab := { s.fab with
    timeout := max 1 (min 10000 (bitsOf v 13 0)), retries := bitsOf v 16 14, epochWait := max 1 (min 1000 (bitsOf v 26 17)) } }

def dRouteConfig : DaridDef where
  op := 0x1005
  senders := [.m, .f]
  len := (· == 2)
  bad _ a := badWord [(0, arg a 0 < 4), (1, arg a 1 < 2 ^ 27)]
  body s _ a := { s := (s.writeRouteCtrl (arg a 0)).writeTxnCtrl (arg a 1) }

/-- A circuit route stored; a port code outside 9-12 in a valid entry names no port. -/
def State.writeCircuit (s : State) (n : Nat) (v : Word) : State :=
  { s with fab := { s.fab with circuits := mput s.fab.circuits n v } }

def dCircuitRouteSet : DaridDef where
  op := 0x1006
  senders := [.m, .f]
  len := (· == 2)
  bad _ a := badWord [(0, arg a 0 < 64)]
  present s _ := s.hasOptics
  body s _ a := { s := s.writeCircuit (arg a 0) (BitVec.ofNat 32 (arg a 1)) }

def execLinkEnable (r : DReq) (s : State) : Host.Outcome State Fault Refusal := .next (runDarid dLinkEnable r s)
def execLinkRetrain (r : DReq) (s : State) : Host.Outcome State Fault Refusal := .next (runDarid dLinkRetrain r s)
def execLinkRemap (r : DReq) (s : State) : Host.Outcome State Fault Refusal := .next (runDarid dLinkRemap r s)
def execLinkQuery (r : DReq) (s : State) : Host.Outcome State Fault Refusal := .next (runDarid dLinkQuery r s)
def execRouteConfig (r : DReq) (s : State) : Host.Outcome State Fault Refusal := .next (runDarid dRouteConfig r s)
def execCircuitRouteSet (r : DReq) (s : State) : Host.Outcome State Fault Refusal := .next (runDarid dCircuitRouteSet r s)

end Sys2Proof.Machine
end

