-- ==== Sys2Proof/Machine/Contexts.lean ====
section
/-! DEFINITION. Commands of contexts, their resources and queues (0x02xx; chapters 03, 04, 05 and R333). -/

namespace Sys2Proof.Machine

/-! ### Creation, grants (R91, R92, R333) -/

/-- ContextCreate: the context's state as at creation. -/
def dContextCreate : DaridDef where
  op := 0x0201
  senders := [.m, .f]
  len := (· == 1)
  bad _ a := badWord [ctxWord a]
  body s _ a :=
    if (s.ctx (arg a 0)).st != .free then .no s dBadState else { s := s.setCtx (arg a 0) fun _ => { st := .active } }

/-- Reserved bits and ranges of ContextGrant and ContextRevoke by kind. -/
def State.grantBad (s : State) (a : List Nat) : Option Nat :=
  let kind := bitsOf (arg a 0) 15 8
  let z := fun (l : List Nat) => l.map fun i => (i, arg a i == 0)
  let base := arg64 a 3
  let size := arg64 a 5
  badWord <| (0, arg a 0 < 2 ^ 16 && 1 ≤ kind && kind ≤ 8) :: match kind with
    | 1 => [(1, arg a 1 < 16), (2, arg a 2 == 0),
        (3, base % 2 ^ 21 == 0 && base < 2 ^ 50 && (s.idLocked || base < 2 ^ 48) && base % 2 ^ 48 < usableTop),
        (5, size % 2 ^ 21 == 0 && size != 0 && base % 2 ^ 48 + size ≤ usableTop)]
    | 2 => ([(1, arg a 1 < 4), (2, 1 ≤ arg a 2 && arg a 2 ≤ 192), (3, arg a 3 + arg a 2 ≤ 192)] : List (Nat × Bool)) ++ z [4, 5, 6]
    | 3 => ([(1, arg a 1 < 64), (2, arg a 2 < 16)] : List (Nat × Bool)) ++ z [3, 4, 5, 6]
    | 4 => ([(1, arg a 1 < 1024), (2, arg a 1 + arg a 2 ≤ 1024)] : List (Nat × Bool)) ++ z [3, 4, 5, 6]
    | 5 => ([(1, arg a 1 < 256), (2, arg a 1 + arg a 2 ≤ 256)] : List (Nat × Bool)) ++ z [3, 4, 5, 6]
    | 6 => ([(1, arg a 1 < 1024), (2, arg a 1 + arg a 2 ≤ 1024)] : List (Nat × Bool)) ++ z [3, 4, 5, 6]
    | 7 => ([(1, arg a 1 == 0), (2, 256 ≤ arg a 2 && arg a 2 ≤ 16384)] : List (Nat × Bool)) ++ z [3, 4, 5, 6]
    | _ => ([(1, arg a 1 == 0), (2, 1 ≤ arg a 2 && arg a 2 ≤ 64)] : List (Nat × Bool)) ++ z [3, 4, 5, 6]

/-- Consecutive numbers. -/
def fromTo (first n : Nat) : List Nat := (List.range n).map (· + first)

/-- The units that kinds 2 to 6 name, as keys of the table that holds them. -/
def grantUnits (a : List Nat) : List Nat :=
  match bitsOf (arg a 0) 15 8 with
  | 2 => fromTo (192 * arg a 1 + arg a 3) (arg a 2)
  | 3 => (setBits 4 (arg a 2)).map (· + 4 * arg a 1)
  | _ => fromTo (arg a 1) (arg a 2)

/-- The table of holders of a kind, and the state with another. -/
def EngTables.holders (e : EngTables) (kind : Nat) : SMap Nat := match kind with
  | 2 => e.storeOwner
  | 3 => e.tileOwner
  | 4 => e.semOwner
  | 5 => e.tagOwner
  | _ => e.streamOwner
def EngTables.withHolders (e : EngTables) (kind : Nat) (m : SMap Nat) : EngTables := match kind with
  | 2 => { e with storeOwner := m }
  | 3 => { e with tileOwner := m }
  | 4 => { e with semOwner := m }
  | 5 => { e with tagOwner := m }
  | _ => { e with streamOwner := m }

/-- Tile groups at +0 with clear flags (R149). -/
def EngTables.zeroTiles (e : EngTables) (groups : List Nat) : EngTables :=
  { e with
    tiles := e.tiles.filter fun t => !groups.contains (t.1 / 16384)
    tileFlags := e.tileFlags.filter fun t => !groups.contains (t.1 / 8) }

/-- Newly allotted units: held, tiles and streams at zero (R149, R433). -/
def State.allot (s : State) (c kind : Nat) (units : List Nat) : State :=
  let e := s.eng.withHolders kind (units.foldl (fun m u => mput m u c) (s.eng.holders kind))
  let e := if kind = 3 then e.zeroTiles units
    else if kind = 6 then { e with streams := units.foldl mdel e.streams }
    else e
  { s with eng := e }

/-- An ME is half of a twin pair. -/
def State.twinned (s : State) (me : Nat) : Bool := (s.engine me).twin

/-- ContextGrant (R333): all or nothing; what the context already holds stays as it is. -/
def dContextGrant : DaridDef where
  op := 0x0203
  senders := [.m, .f]
  len := (· == 7)
  bad s a := s.grantBad a
  body s _ a :=
    let c := arg a 0 % 256
    let kind := bitsOf (arg a 0) 15 8
    if (s.ctx c).st = .free then .no s dNoSuch
    else match kind with
      | 1 =>
        match (s.ctx c).windows.lookup (arg a 1) with
        | some w => if w = (arg64 a 3, arg64 a 5) then { s := s } else .no s dBadState
        | none => { s := s.setCtx c fun x => { x with windows := mput x.windows (arg a 1) (arg64 a 3, arg64 a 5) } }
      | 7 => { s := s.setCtx c fun x => { x with cap := arg a 2 } }
      | 8 => { s := s.setCtx c fun x => { x with queueMax := max x.queueMax (arg a 2) } }
      | _ =>
        let us := grantUnits a
        let m := s.eng.holders kind
        if kind = 3 && s.twinned (arg a 1) then .no s dBadState
        else if us.any fun u => (m.lookup u).getD c != c then .no s dNoResource
        else { s := s.allot c kind (us.filter fun u => (m.lookup u).isNone) }

/-- Byte ranges that a queue's rings occupy, and the stash region and table. -/
def Queue.rings (q : Queue) : List (Nat × Nat) := [(q.ring, 128 * 2 ^ q.s), (q.comp, 64 * 2 ^ q.s)]
def Stash.ranges (t : Stash) : List (Nat × Nat) := if t.st = .none then [] else [(t.base, t.size), (t.table, 64 * t.tableLen)]

/-- What a window holds (R333), by address; completion rings are kept as local offsets. -/
def State.windowInUse (s : State) (c base size : Nat) : Bool :=
  let inWin := fun (r : Nat × Nat) => meets r.1 r.2 base size
  let loc := match s.place base with
    | .loc off => some off
    | _ => none
  (s.eng.queues.any fun e => e.1 / 64 == c && (meets e.2.ring (128 * 2 ^ e.2.s) base size ||
      (match loc with | some off => meets e.2.comp (64 * 2 ^ e.2.s) off size | none => false))) ||
    (s.ctx c).stash.ranges.any inWin ||
    (s.eng.queues.any fun e => e.1 / 64 == c && e.2.started.any fun x =>
      (s.readRanges e.2.eng x ++ s.writeRanges x ++ [(x.dw 11, if x.opcode = 0x36 || x.opcode = 0x37 then 64 else 0)]).any inWin)

/-- A started descriptor of the context names a unit (R333). -/
def State.unitNamed (s : State) (c kind u : Nat) : Bool :=
  s.eng.queues.any fun e => e.1 / 64 == c && e.2.started.any fun x =>
    let me := x.opcode == 0x10 || x.opcode == 0x11
    let ve := 0x20 ≤ x.opcode && x.opcode ≤ 0x25
    match kind with
    | 2 => (s.readRanges e.2.eng x ++ s.writeRanges x).any fun r => r.2 != 0 && (match eaddr r.1 with
        | some (.store d off) => meets (192 * d * 2 ^ 20 + off) r.2 (u * 2 ^ 20) (2 ^ 20)
        | _ => false)
    | 4 => (bitOf (x.dw 0) 56 && bitsOf (x.dw 1) 29 16 / 16 == u) || (bitOf (x.dw 0) 57 && bitsOf (x.dw 1) 45 32 / 16 == u)
    | 6 => (me && bitsOf (x.dw 11) 47 46 == 1 && bitsOf (x.dw 11) 57 48 == u) ||
        (ve && bitsOf (x.dw 10) 17 16 == 1 && bitsOf (x.dw 10) 27 18 == u)
    | _ => false

/-- A unit of kinds 2 to 6 is in use. -/
def State.unitInUse (s : State) (c kind u : Nat) : Bool :=
  match kind with
  | 3 => s.twinned (u / 4) || s.eng.queues.any fun e => e.1 / 64 == c && e.2.eng == u / 4
  | 5 => (List.range 16).any fun i => (s.tag (16 * u + i)).isOpen
  | _ => s.unitNamed c kind u

/-- ContextRevoke (R333). -/
def dContextRevoke : DaridDef where
  op := 0x0204
  senders := [.m, .f]
  len := (· == 7)
  bad s a := s.grantBad a
  body s _ a :=
    let c := arg a 0 % 256
    let kind := bitsOf (arg a 0) 15 8
    if (s.ctx c).st = .free then .no s dNoSuch
    else match kind with
      | 1 =>
        if (s.ctx c).windows.lookup (arg a 1) != some (arg64 a 3, arg64 a 5) then .no s dNoSuch
        else if s.windowInUse c (arg64 a 3) (arg64 a 5) then .no s dBadState
        else { s := s.setCtx c fun x => { x with windows := mdel x.windows (arg a 1) } }
      | 7 => { s := s.setCtx c fun x => { x with cap := 8192 } }
      | 8 =>
        let left := (s.ctx c).queueMax - arg a 2
        if left < (s.eng.queues.filter fun e => e.1 / 64 == c).length then .no s dBadState
        else { s := s.setCtx c fun x => { x with queueMax := left } }
      | _ =>
        let us := grantUnits a
        let m := s.eng.holders kind
        if us.any fun u => m.lookup u != some c then .no s dNoSuch
        else if us.any (s.unitInUse c kind) then .no s dBadState
        else { s := { s with eng := s.eng.withHolders kind (us.foldl mdel m) } }

/-! ### Queues (R89, R95, R97) -/

/-- A range lies in this module's usable memory, every 4 KiB of it in a window of the context (R89, R95). -/
def State.localRange (s : State) (c a n : Nat) : Option Nat :=
  if a < 2 ^ 52 && (List.range (cdiv n 4096)).all fun i => (s.ctx c).inWindow (a + 4096 * i) (min 4096 (n - 4096 * i)) then
    match s.place a with
    | .loc off => if off + n ≤ usableTop then some off else none
    | _ => none
  else none

/-- The engine j that QueueCreate names. -/
def queueEng (a : List Nat) : Nat := [0, 64, 80].getD (bitsOf (arg a 0) 15 14) 0 + arg a 1

/-- Context and queue of a command that names one. -/
def queueWord (a : List Nat) : Nat × Bool := (0, arg a 0 < 2 ^ 14)

/-- The state of a new queue: that of its context; on an engine that is being reset it starts when that ends. -/
def State.newQueue (s : State) (c : Nat) (q : Queue) : Queue :=
  match (s.ctx c).st with
  | .faulted => { q with st := .faulted }
  | .fenced => { q with st := .fenced }
  | .resetting => { q with st := .resetting }
  | _ => if (s.engine q.eng).st = .resetting then { q with st := .resetting, saved := some .idle } else q

/-- QueueCreate (R95). -/
def dQueueCreate : DaridDef where
  op := 0x0205
  senders := [.c, .m, .f]
  own := ownCtx
  len := (· == 6)
  bad _ a := badWord [(0, bitsOf (arg a 0) 15 14 != 3 && 6 ≤ bitsOf (arg a 0) 20 16 && bitsOf (arg a 0) 20 16 ≤ 16 &&
    arg a 0 < 2 ^ 23), (1, arg a 1 < [64, 16, 32].getD (bitsOf (arg a 0) 15 14) 0)]
  body s _ a :=
    let c := arg a 0 % 256
    let q := bitsOf (arg a 0) 13 8
    let n := bitsOf (arg a 0) 20 16
    let j := queueEng a
    let ring := arg64 a 2
    if (s.ctx c).st = .free then .no s dNoSuch
    else if j < 64 && s.twinned j && j % 2 = 1 then .badArg s 1
    else match s.localRange c ring (128 * 2 ^ n), s.localRange c (arg64 a 4) (64 * 2 ^ n) with
      | none, _ => .badArg s 2
      | some r, none => .badArg s (if r % 4096 != 0 then 2 else 4)
      | some r, some comp =>
        if r % 4096 != 0 then .badArg s 2
        else if comp % 4096 != 0 then .badArg s 4
        else if (s.queue? c q).isSome then .no s dBadState
        else if (s.ctx c).queueMax ≤ (s.eng.queues.filter fun e => e.1 / 64 == c).length then .no s dNoResource
        else if j < 64 && s.twinned j && s.eng.tileOwner.lookup (4 * j) != some c then .no s dNoResource
        else
          let u := s.newQueue c
            { eng := j, s := n, prio := bitsOf (arg a 0) 22 21, ring := ring, comp := comp, beatAt := s.time.mono }
          { s := { s with eng := { s.eng with queues := mput s.eng.queues (64 * c + q) u } } }

def dQueueSetIrq : DaridDef where
  op := 0x0206
  senders := [.c, .m, .f]
  own := ownCtx
  len := (· == 4)
  bad _ a := badWord [queueWord a]
  body s _ a :=
    let c := arg a 0 % 256
    let q := arg a 0 / 256
    if (s.queue? c q).isNone then .no s dNoSuch
    else { s := s.setQueue c q fun u => { u with irqAddr := arg64 a 1, irqData := BitVec.ofNat 32 (arg a 3) } }

/-- QueueDelete: the queue goes once its started descriptors are complete; meanwhile it is UNBOUND and starts none. -/
def dQueueDelete : DaridDef where
  op := 0x0207
  senders := [.c, .m, .f]
  own := ownCtx
  len := (· == 1)
  bad _ a := badWord [queueWord a]
  body s w a :=
    let c := arg a 0 % 256
    let q := arg a 0 / 256
    match s.queue? c q with
    | none => .no s dNoSuch
    | some u =>
      if u.started.isEmpty then { s := { s with eng := { s.eng with queues := mdel s.eng.queues (64 * c + q) } } }
      else { s := s.setQueue c q fun u => { u with st := .unbound, deleting := u.deleting ++ [w] }, status := dPending }

/-! ### Harts, twin pairs, debug (R90, R117, R155) -/

def dContextBindHart : DaridDef where
  op := 0x0208
  senders := [.m, .f]
  len := (· == 3)
  bad _ a := badWord [ctxWord a, (1, arg a 1 < 32), (2, arg a 2 < 2)]
  body s _ a :=
    let held := s.eng.hartCtx.lookup (arg a 1)
    if (s.ctx (arg a 0)).st = .free then .no s dNoSuch
    else if held.getD (arg a 0) != arg a 0 then .no s dBadState
    else
      let m := if arg a 2 = 1 then mput s.eng.hartCtx (arg a 1) (arg a 0) else mdel s.eng.hartCtx (arg a 1)
      { s := { s with eng := { s.eng with hartCtx := m } } }

/-- The groups of both engines of a pair. -/
def pairGroups (me : Nat) : List Nat := fromTo (4 * me) 8

/-- Set or clear TWIN of both engines of a pair. -/
def State.setTwin (s : State) (me : Nat) (b : Bool) : State :=
  (s.setEng me fun e => { e with twin := b }).setEng (me + 1) fun e => { e with twin := b }

def dTwinJoin : DaridDef where
  op := 0x0209
  senders := [.m, .f]
  len := (· == 2)
  bad _ a := badWord [ctxWord a, (1, arg a 1 < 64 && arg a 1 % 2 == 0)]
  body s _ a :=
    let c := arg a 0
    let me := arg a 1
    if (s.ctx c).st = .free then .no s dNoSuch
    else if s.twinned me || (s.eng.queues.any fun e => e.2.eng == me || e.2.eng == me + 1) ||
        ((pairGroups me).any fun g => (s.eng.tileOwner.lookup g).isSome) then .no s dBadState
    else { s := (s.setTwin me true).allot c 3 (pairGroups me) }

/-- TwinSplit: the context keeps the groups of both engines, at +0. -/
def dTwinSplit : DaridDef where
  op := 0x020A
  senders := [.m, .f]
  len := (· == 2)
  bad _ a := badWord [ctxWord a, (1, arg a 1 < 64 && arg a 1 % 2 == 0)]
  body s _ a :=
    let c := arg a 0
    let me := arg a 1
    if !s.twinned me || s.eng.tileOwner.lookup (4 * me) != some c then .no s dNoSuch
    else if s.eng.queues.any fun e => e.2.eng == me || e.2.eng == me + 1 then .no s dBadState
    else { s := (s.setTwin me false).allot c 3 (pairGroups me) }

/-- Every 16 KiB slot of a range lies in a window of the context. -/
def Ctx.inWindows (x : Ctx) (a n : Nat) : Bool := (List.range (n / 16384)).all fun i => x.inWindow (a + 16384 * i) 16384

/-- ContextSetDebug (R155, R156): a change of the flag is logged. With the flag 0 the ring is not looked at. -/
def dContextSetDebug : DaridDef where
  op := 0x020B
  senders := [.c, .m, .f]
  own := ownCtx
  len := (· == 3)
  bad _ a := badWord [(0, arg a 0 < 2 ^ 14 && (!bitOf (arg a 0) 8 || 4 ≤ bitsOf (arg a 0) 13 9 && bitsOf (arg a 0) 13 9 ≤ 16))]
  body s _ a :=
    let c := arg a 0 % 256
    let flag := bitOf (arg a 0) 8
    let d := bitsOf (arg a 0) 13 9
    let ring := arg64 a 1
    let x := s.ctx c
    if x.st = .free then .no s dNoSuch
    else if flag && !(ring % 16384 == 0 && ring < 2 ^ 52 && x.inWindows ring (16384 * 2 ^ d)) then .badArg s 1
    else
      let s := s.setCtx c fun x =>
        { x with
          debug := flag, dumpRing := if flag then ring else x.dumpRing, dumpExp := if flag then d else x.dumpExp
          dumpSeq := if flag && !x.debug then 0 else x.dumpSeq }
      { s := if x.debug == flag then s else s.logFw 0x0241 3 ([c, b2n flag] ++ lohi ring ++ [d]) }

/-! ### Stash reservation, query (R164, R332) -/

/-- ContextStashReserve (R164). DESIGN CHOICE (log 61): a PASS_START that is pending while the stash is IDLE is dropped by it, and by
ContextStashRelease. -/
def dContextStashReserve : DaridDef where
  op := 0x020C
  senders := [.c, .m, .f]
  own s ch a := ownCtx s ch a && s.holdsSem ch (bitsOf (arg a 6) 29 16)
  len := (· == 7)
  bad _ a := badWord [ctxWord a, (6, 1 ≤ bitsOf (arg a 6) 12 0 && bitsOf (arg a 6) 12 0 ≤ 4096 && bitsOf (arg a 6) 15 13 == 0 &&
    bitsOf (arg a 6) 31 30 == 0)]
  body s _ a :=
    let c := arg a 0
    let base := arg64 a 1
    let size := arg a 3 * 2 ^ 21
    let table := arg64 a 4
    let n := bitsOf (arg a 6) 12 0
    let sem := bitsOf (arg a 6) 29 16
    let inLocal := fun (a n : Nat) => a < 2 ^ 52 && (s.ctx c).inWindow a n && (match s.place a with
      | .loc off => decide (off + n ≤ usableTop)
      | _ => false)
    if (s.ctx c).st = .free then .no s dNoSuch
    else if base % 2 ^ 21 != 0 then .badArg s 1
    else if size = 0 then .badArg s 3
    else if !inLocal base size then .badArg s 1
    else if table % 64 != 0 || !inLocal table (64 * n) || meets base size table (64 * n) then .badArg s 4
    else if !s.holdsSem c sem then .badArg s 6
    else if (s.stash c).open? then .no s dBusy
    else
      { s := s.setStash c fun t =>
        { t.clear with
          st := .idle, armErr := false, pending := false, base := base, size := size, table := table, tableLen := n
          armSem := sem } }

/-- ContextStashRelease (R164). -/
def dContextStashRelease : DaridDef where
  op := 0x020D
  senders := [.c, .m, .f]
  own := ownCtx
  len := (· == 1)
  bad _ a := badWord [ctxWord a]
  body s _ a :=
    let c := arg a 0
    if (s.ctx c).st = .free then .no s dNoSuch
    else if (s.stash c).open? then .no s dBusy
    else
      { s := s.setStash c fun t =>
        { t.clear with
          st := .none, armErr := false, pending := false, base := 0, size := 0, table := 0, tableLen := 0, armSem := 0 } }

def dContextQuery : DaridDef where
  op := 0x020E
  senders := [.c, .m, .f]
  own := ownCtx
  changes := false
  len := (· == 1)
  bad _ a := badWord [ctxWord a]
  body s _ a :=
    let x := s.ctx (arg a 0)
    { s := s
      words := [x.st.code + at' (b2n x.debug) 3 + at' x.stash.st.code 4 + at' (b2n x.slice.isSome) 6 + at' (x.slice.getD 0) 8 +
          at' x.epoch.toNat 16, (s.eng.queues.filter fun e => e.1 / 64 == arg a 0).length] }

def execContextCreate (r : DReq) (s : State) : Host.Outcome State Fault Refusal := .next (runDarid dContextCreate r s)
def execContextGrant (r : DReq) (s : State) : Host.Outcome State Fault Refusal := .next (runDarid dContextGrant r s)
def execContextRevoke (r : DReq) (s : State) : Host.Outcome State Fault Refusal := .next (runDarid dContextRevoke r s)
def execQueueCreate (r : DReq) (s : State) : Host.Outcome State Fault Refusal := .next (runDarid dQueueCreate r s)
def execQueueSetIrq (r : DReq) (s : State) : Host.Outcome State Fault Refusal := .next (runDarid dQueueSetIrq r s)
def execQueueDelete (r : DReq) (s : State) : Host.Outcome State Fault Refusal := .next (runDarid dQueueDelete r s)
def execContextBindHart (r : DReq) (s : State) : Host.Outcome State Fault Refusal := .next (runDarid dContextBindHart r s)
def execTwinJoin (r : DReq) (s : State) : Host.Outcome State Fault Refusal := .next (runDarid dTwinJoin r s)
def execTwinSplit (r : DReq) (s : State) : Host.Outcome State Fault Refusal := .next (runDarid dTwinSplit r s)
def execContextSetDebug (r : DReq) (s : State) : Host.Outcome State Fault Refusal := .next (runDarid dContextSetDebug r s)
def execContextStashReserve (r : DReq) (s : State) : Host.Outcome State Fault Refusal := .next (runDarid dContextStashReserve r s)
def execContextStashRelease (r : DReq) (s : State) : Host.Outcome State Fault Refusal := .next (runDarid dContextStashRelease r s)
def execContextQuery (r : DReq) (s : State) : Host.Outcome State Fault Refusal := .next (runDarid dContextQuery r s)

end Sys2Proof.Machine
end

