-- ==== Sys2Proof/Machine/Slices.lean ====
section
/-! DEFINITION. Commands of slices, epochs and convoys (0x03xx; chapter 08). -/

namespace Sys2Proof.Machine

/-! ### Geometry (R249-R251) -/

/-- A geometry is permitted (R249, R250): each extent fits its axis, a mesh axis holds no wrap link, this module is inside. -/
def State.geomOk (s : State) (g : List (Nat × Nat)) : Bool :=
  let n := s.axisN
  g.all (fun e => decide (e.1 < n) && decide (e.2 ≤ n) && (e.2 == n || decide (e.1 + e.2 ≤ n))) && inBlock n (podOf s.ownId) g s.ownId

/-- WRAP (R249). -/
def State.wrapOf (s : State) (g : List (Nat × Nat)) : BitVec 3 :=
  BitVec.ofNat 3 (ofBits ((List.range 3).filter fun ax => (g.getD ax (0, 0)).2 == s.axisN))

/-! ### The commands -/

/-- Origin and extent of X, Y, Z as SliceSet carries them. -/
def geomArg (w : Nat) : List (Nat × Nat) := (List.range 3).map fun i => (w / 2 ^ (4 * i) % 16, w / 2 ^ (12 + 4 * i) % 16 + 1)

def State.logSlice (s : State) (e : Nat) (old : Nat) (x : SliceEnt) : State :=
  s.logFw 0x0301 3 [e, x.id.toNat, old, x.epoch.toNat, x.wrap.toNat, x.boundary.toNat]

def State.setSlice (s : State) (e : Nat) (x : SliceEnt) : State :=
  { s with fab := { s.fab with slices := mput s.fab.slices e x } }

/-- SliceSet (R249-R252). -/
def dSliceSet : DaridDef where
  op := 0x0301
  senders := [.m, .f]
  len := (· == 3)
  bad _ a := badWord [(0, arg a 0 % 4096 != 0), (1, arg a 1 < 2 ^ 24), (2, arg a 2 < 16)]
  present s a := arg a 2 == 0 || s.hasOptics
  body s w a :=
    let e := bitsOf (arg a 0) 15 12
    let id := BitVec.ofNat 12 (arg a 0)
    let g := geomArg (arg a 1)
    let rom := s.inRom w.ctd
    if !s.geomOk g then .no s dBadArg
    else if (s.fab.slices.lookup e).isSome || (s.sliceOf id).isSome || (rom && !s.fab.slices.isEmpty) then .no s dBadState
    else
      let x : SliceEnt :=
        { s.sliceRegs e with
          id := id, wrap := s.wrapOf g, epoch := BitVec.ofNat 16 (bitsOf (arg a 0) 31 16), boundary := s.boundaryOf g (arg a 2)
          geom := g, circuits := BitVec.ofNat 4 (arg a 2) }
      let s := (s.setSlice e x).logSlice e 0 x
      { s := if rom then s.trainAll else s }

/-- SliceEpoch (R231, R253): in one action the entry, the contexts bound to it, and the convoys of the slice. -/
def dSliceEpoch : DaridDef where
  op := 0x0302
  senders := [.m, .f]
  len := (· == 2)
  bad _ a := badWord [(0, arg a 0 < 16), (1, arg a 1 < 2 ^ 16)]
  body s _ a :=
    let e := arg a 0
    let new := BitVec.ofNat 16 (arg a 1)
    match s.fab.slices.lookup e with
    | none => .no s dNoSuch
    | some x =>
      if !newerEpoch new x.epoch then .no s dBadArg
      else
        let y : SliceEnt := { x with epoch := new }
        let s := (s.boundTo e).foldl (fun s c => s.setCtx c fun v => { v with epoch := new }) (s.setSlice e y)
        { s := ((s.epochConvoys x.id).logSlice e x.epoch.toNat y) }

/-- A window register written: BASE_2M and SIZE_2M, and VALID. -/
def SliceEnt.setWin (x : SliceEnt) (w : Nat) (p : Nat × Nat) (valid : Bool) : SliceEnt :=
  if valid then { x with wins := mput x.wins w p, winsOff := mdel x.winsOff w }
  else { x with wins := mdel x.wins w, winsOff := mput x.winsOff w p }

/-- A window of a slice entry stored, the entry VALID or not. -/
def State.setSliceWin (s : State) (e w : Nat) (p : Nat × Nat) (valid : Bool) : State :=
  let x := (s.sliceRegs e).setWin w p valid
  if (s.fab.slices.lookup e).isSome then s.setSlice e x
  else { s with fab := { s.fab with slicesOff := mput s.fab.slicesOff e x } }

/-- VALID of a slice entry cleared (R254): its other fields and its windows stay in the registers. -/
def State.dropSlice (s : State) (e : Nat) (x : SliceEnt) : State :=
  { s with fab := { s.fab with slices := mdel s.fab.slices e, slicesOff := mput s.fab.slicesOff e x } }

def dSliceWindow : DaridDef where
  op := 0x0303
  senders := [.m, .f]
  len := (· == 3)
  bad _ a := badWord [(0, arg a 0 < 2 ^ 9), (1, arg a 1 < 2 ^ 27), (2, arg a 2 < 2 ^ 27)]
  body s _ a :=
    let e := arg a 0 % 16
    if (s.fab.slices.lookup e).isNone then .no s dNoSuch
    else { s := s.setSliceWin e (bitsOf (arg a 0) 7 4) (arg a 1, arg a 2) (bitOf (arg a 0) 8) }

/-- SliceRelease (R254). -/
def dSliceRelease : DaridDef where
  op := 0x0304
  senders := [.m, .f]
  len := (· == 1)
  bad _ a := badWord [(0, arg a 0 < 16)]
  body s _ a :=
    let e := arg a 0
    match s.fab.slices.lookup e with
    | none => .no s dNoSuch
    | some x =>
      if !(s.boundTo e).isEmpty then .no s dBusy
      else { s := (s.dropSlice e x).logFw 0x0302 3 [e, x.id.toNat, x.epoch.toNat] }

/-- ContextBindSlice: the context takes the entry's epoch; unbound, it keeps the epoch it has. -/
def dContextBindSlice : DaridDef where
  op := 0x0305
  senders := [.m, .f]
  len := (· == 2)
  bad _ a := badWord [ctxWord a, (1, arg a 1 < 16 || arg a 1 == 0xFF)]
  body s _ a :=
    let c := arg a 0
    if (s.ctx c).st = .free then .no s dNoSuch
    else if arg a 1 != 0xFF && (s.fab.slices.lookup (arg a 1)).isNone then .no s dNoSuch
    else if s.eng.queues.any fun e => e.1 / 64 == c && !e.2.started.isEmpty then .no s dBadState
    else match s.fab.slices.lookup (arg a 1) with
      | some x => { s := s.setCtx c fun v => { v with slice := some (arg a 1), epoch := x.epoch } }
      | none => { s := s.setCtx c fun v => { v with slice := none } }

/-- Key of the convoy that ConvoyAbort names. -/
def convoyArg (a : List Nat) : ConvoyKey :=
  { slice := BitVec.ofNat 12 (arg a 0), epoch := BitVec.ofNat 16 (arg a 2), convoy := BitVec.ofNat 16 (arg a 1) }

/-- The slice is the one the channel's context is bound to, and the convoy no other context's. -/
def ownConvoy (s : State) (ch : Nat) (a : List Nat) : Bool :=
  s.sliceIdOf ch == BitVec.ofNat 12 (arg a 0) && (s.ctx ch).slice.isSome && (match s.convoy? (convoyArg a) with
    | some v => ((v.owner.map (·.1)).getD ch) == ch
    | none => true)

/-- ConvoyAbort (R273): an ABORT with cause COMMAND and this module as its origin. -/
def dConvoyAbort : DaridDef where
  op := 0x0306
  senders := [.c, .m, .f]
  own := ownConvoy
  len := (· == 3)
  bad _ a := badWord [(0, arg a 0 < 2 ^ 12), (1, arg a 1 < 2 ^ 16), (2, arg a 2 < 2 ^ 16)]
  body s _ a :=
    let k := convoyArg a
    let m := s.ownAbort k 0
    match s.convoy? k with
    | some cv =>
      match cv.st with
      | .active => { s := s.startAbort k 0 none, words := [0] }
      | .complete => { s := s.abortComplete cv m none, words := [1] }
      | .aborted => { s := s.logConvoy cv m 0, words := [0] }
    | none =>
      let r := s.abortUnknown m 0
      { s := r.1, words := [r.2] }

def execSliceSet (r : DReq) (s : State) : Host.Outcome State Fault Refusal := .next (runDarid dSliceSet r s)
def execSliceEpoch (r : DReq) (s : State) : Host.Outcome State Fault Refusal := .next (runDarid dSliceEpoch r s)
def execSliceWindow (r : DReq) (s : State) : Host.Outcome State Fault Refusal := .next (runDarid dSliceWindow r s)
def execSliceRelease (r : DReq) (s : State) : Host.Outcome State Fault Refusal := .next (runDarid dSliceRelease r s)
def execContextBindSlice (r : DReq) (s : State) : Host.Outcome State Fault Refusal := .next (runDarid dContextBindSlice r s)
def execConvoyAbort (r : DReq) (s : State) : Host.Outcome State Fault Refusal := .next (runDarid dConvoyAbort r s)

end Sys2Proof.Machine
end

