-- ==== Sys2Proof/Machine/Staging.lean ====
section
/-! DEFINITION. The staging area and the objects of module NOR flash: firmware image, clamp block, calibration set, sieve pack
(R334, R470, R475, R481). -/

namespace Sys2Proof.Machine

/-- Size limits of the four targets (R334). -/
def stageLimit (t : Nat) : Nat := [0, 2 ^ 23, 768, 2 ^ 22, 2 ^ 18].getD t 0

/-- StageWrite (R334); in ROM recovery target 1 only (R479). -/
def dStageWrite : DaridDef where
  op := 0x0E01
  senders := [.m]
  oos := true
  changes := false
  len n := 3 ≤ n
  bad _ a := badWord [(0, 1 ≤ arg a 0 && arg a 0 ≤ 4), (1, arg a 1 % 4 == 0)]
  body s w a :=
    let g := s.mbox.stage
    let b := (a.drop 2).flatMap (leBytes 4)
    let stop := arg a 1 + b.length
    if s.inRom w.ctd && arg a 0 != 1 then .no s dBadState
    else if g.target.any (· != arg a 0) then .no s dBusy
    else if stageLimit (arg a 0) < stop then .no s dBadArg
    else
      let g := { g with target := some (arg a 0), bytes := cellsPut g.bytes (arg a 1) b, top := max g.top stop }
      { s := { s with mbox := { s.mbox with stage := g } } }

/-- The staging area emptied; what is on its way to flash goes on. -/
def State.stageClear (s : State) : State :=
  let g := s.mbox.stage
  { s with mbox := { s.mbox with stage := { job := g.job, old := g.old, recovered := g.recovered, src := g.src } } }

/-- StageReset. -/
def dStageReset : DaridDef where
  op := 0x0E02
  senders := [.m]
  oos := true
  len := (· == 0)
  body s _ _ := { s := s.stageClear }

/-- A commit consumes the staging area (R334): a verified object goes to flash, and what its end will say of the old one is kept;
anything else leaves the status. -/
def State.stageCommit (s : State) (who : Option Who) (target status : Nat) (b : List Byte) (old : List Nat) : DRes :=
  let s := s.stageClear
  if status = dOk then
    { status := dPending, s := { s with mbox := { s.mbox with stage := { s.mbox.stage with job := some (who, target, b), old := old } } } }
  else .no s status

/-- The staged image and the status of its check (R475): the first LENGTH + 384 bytes. -/
def State.stagedImage (s : State) : Nat × List Byte :=
  let b := s.stagedBytes (2 ^ 23)
  let st := match s.imageCheck b with
    | 0 => dOk
    | 4 => dRollback
    | 5 => dBadSig
    | _ => dBadArg
  (st, b.take (fieldAt b 12 4 + 384))

/-- The image goes to flash: the only copy is erased first, so a power loss leaves none (R334). The image that is replaced is that
of flash, or the one that runs. -/
def State.imageToFlash (s : State) (who : Option Who) : DRes :=
  let (st, b) := s.stagedImage
  let old := if s.ctd.nv.image.isEmpty then (s.ctdOf (s.holder.getD 0)).release else fieldAt s.ctd.nv.image 6 2
  let r := s.stageCommit who 1 st b [old]
  if st = dOk then
    let nv := { r.s.ctd.nv with image := [] }
    { r with s := { r.s with ctd := { r.s.ctd with nv := nv } } }
  else r

/-- FwCommit (R334, R475, R481). -/
def dFwCommit : DaridDef where
  op := 0x0E03
  senders := [.m]
  oos := true
  len := (· == 0)
  body s w _ :=
    let g := s.mbox.stage
    if g.target != some 1 then .no s dNoSuch
    else if g.job.isSome || g.recovered.isSome then .no s dBusy
    else s.imageToFlash (some w)

/-- ClampCommit (R301, R303, R334). -/
def dClampCommit : DaridDef where
  op := 0x0E04
  senders := [.m]
  oos := true
  len := (· == 0)
  body s w _ :=
    let g := s.mbox.stage
    if g.target != some 2 then .no s dNoSuch
    else if g.job.isSome then .no s dBusy
    else
      let b := s.stagedBytes 768
      let st := match s.clampCheck b with
        | 0 => dOk
        | 3 => dRollback
        | 4 => dBadSig
        | _ => dBadArg
      s.stageCommit (some w) 2 st b []

/-- CalCommit (R470): checked; CAL_ALTERED set; the set is erased and written. -/
def dCalCommit : DaridDef where
  op := 0x0D02
  senders := [.m]
  len := (· == 1)
  bad _ a := badWord [(0, arg a 0 == 0x43414C57)]
  body s w _ :=
    let g := s.mbox.stage
    if g.target != some 4 then .no s dNoSuch
    else if g.job.isSome then .no s dBusy
    else
      let b := s.stagedBytes (2 ^ 18)
      let b := b.take (fieldAt b 8 4)
      if (s.calFail b).1 != 0 then s.stageCommit none 4 dBadArg b []
      else
        let r := s.stageCommit (some w) 4 dOk b ((wordsOf s.calHash).take 4)
        let nv := { r.s.ctd.nv with cal := [], calAltered := true }
        { r with s := { r.s with ctd := { r.s.ctd with nv := nv } } }

/-! ### The end of a flash write -/

/-- Where the image came from (FW_RECOVERED): path and source. -/
def State.imageSource (s : State) (w : Option Who) : Nat × Nat :=
  match w with
  | none => (2, s.mbox.stage.src)
  | some w => (if senderOf w.ch == some .f then 2 else 1, ((s.mbox.binds.lookup w.ch).map (·.ip)).getD 0)

/-- An object is in flash and reads back right. -/
def State.inFlash (s : State) (w : Option Who) (target : Nat) (b : List Byte) : State :=
  let h := s.holder.getD 0
  let old := s.mbox.stage.old
  let nv := s.ctd.nv
  let s : State := { s with mbox := { s.mbox with stage := { s.mbox.stage with job := none, old := [] } } }
  let put := fun (s : State) (nv : Nv) => { s with ctd := { s.ctd with nv := nv } }
  let done := fun (s : State) => match w with
    | some w => s.finish w dOk 0 []
    | none => s
  match target with
  | 1 =>
    let s := put s { nv with image := b }
    if s.inRom h then
      let (path, src) := s.imageSource w
      let s := s.logFw 0x0E03 5 [h, path, fieldAt b 6 2, src, (s.time.mono - (s.ctdOf h).bootAt) / 1000000]
      let seq := ((s.ledger h).newest.map (·.seq)).getD 0
      { s with mbox := { s.mbox with stage := { s.mbox.stage with recovered := some (w, seq) } } }
    else done (s.logFw 0x0E04 4 (old ++ [fieldAt b 6 2, fieldAt b 8 2, nv.minRelease]))
  | 2 => done (put s { nv with clampBlock := b })
  | 3 => s.packCommitted w b
  | _ => done ((put s { nv with cal := b }).log 0x0D01 5 (srcFw s) (old ++ (wordsOf (sha256 b)).take 4))

/-- The write failed, or read back wrong. What the area holds then, and the final status, are open (log 4). -/
def State.flashFailed (s : State) (w : Option Who) (target : Nat) (b : List Byte) : State :=
  let nv := s.ctd.nv
  let (v, s) := s.draw (8 * b.length)
  let (st, s) := s.draw 16
  let x := leBytes b.length v.toNat
  let nv := match target with
    | 1 => { nv with image := x }
    | 2 => { nv with clampBlock := x }
    | 3 => { nv with pack := x }
    | _ => { nv with cal := x }
  let s : State := { s with
    ctd := { s.ctd with nv := nv }, mbox := { s.mbox with stage := { s.mbox.stage with job := none, old := [] } } }
  match w with
  | some w => s.finish w st.toNat 0 []
  | none => s

/-- FLASH_COMMIT_DONE (R334, R470, R481): the write and read-back of a committed object end. -/
def execFlashCommitDone (ok : Bool) (s : State) : Host.Outcome State Fault Refusal :=
  .next <|
    match s.mbox.stage.job, s.serving with
    | some (w, target, b), some _ => if ok then s.inFlash w target b else s.flashFailed w target b
    | _, _ => s

/-- ROM recovery ends once FW_RECOVERED is durable (R481): the final response, then a power-on reset of cause 6. What has been sent
out of the module stays sent. -/
def State.romDone (s : State) (ctd : Nat) : State :=
  match s.mbox.stage.recovered with
  | some (w, seq) =>
    if s.holder = some ctd && s.inRom ctd && seq ≤ (s.ledger ctd).flashSeq then
      let out := s.mbox.out
      let s := match w with
        | some w => (s.finish w dOk 0 []).flushUp ctd w.ch 64
        | none => s
      let sent := s.mbox.out.drop out.length
      let s := s.powerOn 6
      { s with mbox := { s.mbox with out := out ++ sent } }
    else s
  | none => s

/-- FLASH_MIRROR_WRITE (R346, R481). -/
def execFlashMirrorWrite (ctd : Fin 2) (seq : BitVec 64) (ok : Bool) (flashStatus : BitVec 32) (s : State) :
    Host.Outcome State Fault Refusal := .next ((s.flashMirror ctd seq ok flashStatus).romDone ctd)

/-- ROM_CARAVAN_IMAGE_COMPLETE (R480, R481): the image that a caravan brought is checked and goes to flash. -/
def execRomCaravanImageComplete (s : State) : Host.Outcome State Fault Refusal :=
  .next <|
    let g := s.mbox.stage
    if s.serving.any s.inRom && g.target == some 1 && g.imageThere && g.job.isNone && g.recovered.isNone then
      (s.imageToFlash none).s
    else s

/-! ### FwInfo and the standby -/

/-- FwInfo (R332, R479). -/
def dFwInfo : DaridDef where
  op := 0x0E05
  senders := [.c, .m, .f]
  standby := true
  oos := true
  changes := false
  len := (· == 0)
  body s w _ :=
    let x := s.ctdOf w.ctd
    { s := s
      words := [if s.inRom w.ctd then 0 else x.release, s.ctd.nv.minRelease, s.ctd.clamp.seq] ++ wordsOf (padTo 32 0 x.imageHash) }

/-- FwRestartStandby (R332): the standby is held in reset as one whose watchdog expired is (R297), and boots the image in flash;
answered at its first health report (R300). -/
def dFwRestartStandby : DaridDef where
  op := 0x0E06
  senders := [.m]
  oos := true
  len := (· == 0)
  present s _ := s.hasCtd1
  body s w _ :=
    match s.standby with
    | none => .no s dBadState
    | some c => { s := (s.holdCtd c).setCtd c fun x => { x with waiters := x.waiters ++ [w] }, status := dPending }

def execStageWrite (r : DReq) (s : State) : Host.Outcome State Fault Refusal := .next (runDarid dStageWrite r s)
def execStageReset (r : DReq) (s : State) : Host.Outcome State Fault Refusal := .next (runDarid dStageReset r s)
def execFwCommit (r : DReq) (s : State) : Host.Outcome State Fault Refusal := .next (runDarid dFwCommit r s)
def execClampCommit (r : DReq) (s : State) : Host.Outcome State Fault Refusal := .next (runDarid dClampCommit r s)
def execCalCommit (r : DReq) (s : State) : Host.Outcome State Fault Refusal := .next (runDarid dCalCommit r s)
def execFwInfo (r : DReq) (s : State) : Host.Outcome State Fault Refusal := .next (runDarid dFwInfo r s)
def execFwRestartStandby (r : DReq) (s : State) : Host.Outcome State Fault Refusal := .next (runDarid dFwRestartStandby r s)

end Sys2Proof.Machine
end

