-- ==== Sys2Proof/Machine/Access.lean ====
section
/-! DEFINITION. Accesses: reads and writes of CSR space (R12-R15, R34, R38-R40 and the access rules of every register map), and the
memory accesses of host cores, engines and service processors (R33-R39, R198, R305). -/

namespace Sys2Proof.Machine

/-! ### Reaching a register -/

/-- What stops an access on its way to a register: an error, a wait for a path change (the pair), or an optical engine's range,
whose layout the manual leaves out. -/
inductive CsrStop where
  | err (e : AccErr)
  | wait (pair : Nat)
  | optical
deriving DecidableEq, Repr

/-- The offset an initiator's address names in this module: host cores by R35 and R38, service processors by R39, the I3C
controller an offset it has formed itself. -/
def State.csrOffset (s : State) (init : Initiator) (addr : Nat) : Except CsrStop Nat :=
  match init with
  | .hart _ => match s.place addr with
    | .loc off => .ok off
    | .remote _ _ => .error (.err .unmapped)
    | .err e => .error (.err e)
  | .engine _ _ => .error (.err .access)
  | _ => if addr < 2 ^ 48 then .ok addr else .error (.err .unmapped)

/-- A register of the mailbox pages. -/
def Reg.inMailbox : Reg → Option Nat
  | .txWord _ ch _ | .txCommit _ ch | .txStatusMb _ ch | .rxWord _ ch _ | .rxPop _ ch | .rxStatus _ ch | .irqCtrl _ ch
  | .irqAddr _ ch | .irqData _ ch => some ch
  | _ => none

/-- What an access to a block meets before its register is looked for: absent units (R6), units off or in reset, the path from the
hart's die (R21, R22); the I3C controller reaches the lease cell only (R498). -/
def State.unitGate (s : State) (init : Initiator) (u : CsrUnit) : Option CsrStop :=
  match u with
  | .optic _ =>
    if !s.hasOptics then some (.err .notPresent) else if s.isActiveSp init then some .optical else some (.err .unmapped)
  | .lease => none
  | u =>
    if init = .i3c then some (.err .unmapped)
    else match u with
      | .die d =>
        if (s.die d).inReset then some (.err .domainOff)
        else match init with
          | .hart h => match s.ringPath (h.val / 8) d with
            | .none => none
            | .waiting => some (.wait ((diagPair (h.val / 8) d).getD 0))
            | e => some (.err e)
          | _ => none
      | .ctd c => if s.ctdGate c = .none then none else some (.err (s.ctdGate c))
      | _ => none

/-- The register an access of `width` bits reaches: its block, its name, whether its upper half is meant. -/
def State.csrAt (s : State) (init : Initiator) (addr width : Nat) : Except CsrStop (CsrUnit × Reg × Bool) := do
  let off ← s.csrOffset init addr
  match csrUnit off with
  | none => .error (.err .unmapped)
  | some (u, o) =>
    match s.unitGate init u with
    | some e => .error e
    | none =>
      match s.regAt u o width with
      | none => .error (.err .unmapped)
      | some (r, upper) =>
        match u, r.inMailbox with
        | .ctd c, some ch => match s.pageGate init c ch with
          | .none => .ok (u, r, upper)
          | e => .error (.err e)
        | _, _ => .ok (u, r, upper)

/-! ### Reads -/

/-- Registers whose words are being latched: what they read then is open (R348, R473). -/
def State.latching (s : State) : Reg → Bool
  | .winRec c w _ => ((s.ledger c).wins.getD w {}).busy
  | .tlWinRec c w _ => (s.toll.wins.getD (2 * c + w) {}).busy
  | _ => false

/-- A read of a register or of one half of it (R12, R15): its value, then the clearing of its RC fields; `hwSet` holds what
hardware sets in the same cycle. -/
def State.csrLoad (s : State) (r : Reg) (width : Nat) (upper : Bool) (hwSet : Nat) : State :=
  if s.latching r then
    let (v, s) := s.draw 32
    s.answer (v.setWidth 64)
  else
    let v := s.regVal r
    let v := if width = 64 then v else if upper then v / 2 ^ 32 % 2 ^ 32 else v % 2 ^ 32
    (s.answer (BitVec.ofNat 64 v)).clearRc r width upper hwSet

/-- A read of CSR space: the two registers that pop have their own commands' meaning. -/
def State.csrRead (s : State) (init : Initiator) (addr : BitVec 52) (width hwSet : Nat) : Host.Outcome State Fault Refusal :=
  match s.csrAt init addr.toNat width with
  | .error (.err e) => .next (s.fail e)
  | .error (.wait p) =>
    let w : WaitingAccess := { pair := p, init := init, op := .load (width / 8), addr := addr, flips := [] }
    .next { s.fail .waiting with ring := { s.ring with waiting := s.ring.waiting ++ [w] } }
  | .error .optical => .refused .opticalRegister
  | .ok (_, .rxPop c ch, _) => execMbRxPop init (Fin.ofNat 2 c) (Fin.ofNat 512 ch) s
  | .ok (_, .tsqPop c g, upper) => execTbTsqPop init (Fin.ofNat 2 c) (Fin.ofNat 5 g) width upper s
  | .ok (_, r, upper) => .next (s.csrLoad r width upper hwSet)

/-- CSR_RC_READ (R12). -/
def execCsrRcRead (init : Initiator) (addr : BitVec 52) (width : Nat) (hwSet : BitVec 64) (s : State) :
    Host.Outcome State Fault Refusal := s.csrRead init addr width hwSet.toNat

/-! ### Writes -/

/-- Who may write the registers of a block (R75, R208, R248, R310, R366, R473, R500): any other initiator gets UNMAPPED. Blocks
whose maps name no writer take writes of host cores and service processors. -/
def State.mayWrite (s : State) (init : Initiator) (u : CsrUnit) (r : Reg) : Bool :=
  let any := isHart init || isAnySp init
  match r with
  | .tbCtrl | .tbStatus _ | .tbThresh | .tbPodNow | .tbStepNow | .tbMonoNow | .tbTollNow | .tbPendingCorr | .tbGmId | .tbGmPending
  | .tbPpsDelay | .tsqPop .. | .tsqStamp .. | .tsqOvf .. => s.isActiveSp init
  | .memCtrl _ | .memStatus _ | .huskCnt _ | .lastUe _ | .lastUeInfo _ | .lastConsume _ | .scrubPos _ | .stackStatus _
  | .stackErr _ => s.isActiveSp init
  | .routeCtrl | .txnCtrl | .tsCtrl | .peerStatus _ | .dropCnt _ | .levelData .. | .levelSlots .. | .sliceCfg _ | .sliceDrops ..
  | .sliceWin .. | .circuit _ | .portStatus _ | .portPeer _ | .portSerial _ | .portErr _ | .portCnt _ => s.isActiveSp init
  | .cntSel .. => s.isActiveSp init
  | .lgAppend c _ => isSp init c
  | .tlStatus _ | .tlNext | .tlOldest | .tlKey _ | .tlCnt | .tlWinStatus .. | .tlWinRec .. => false
  | .mgmtIp | .mgmtGw | .mgmtStatus => s.isActiveSp init || init == .i3c
  | _ => match u, r with
    | .lease, _ => isAnySp init
    | _, .ctdStatus c | _, .wdog c | _, .wdogStatus c | _, .clampHit c | _, .ctdBoot c => isSp init c
    | .ctd c, .clampSrc | .ctd c, .clampImage _ => isSp init c
    | _, _ => any

/-- LEASE_MGMT_IPV4 (R486, R500): VALID with a prefix outside 1-30 is ignored; a change empties the ARP cache and ends the bindings
of the management channels. -/
def State.setMgmtIp (s : State) (v : Nat) : State :=
  let p := bitsOf v 37 32
  let on := bitOf v 38
  if on && !(1 ≤ p && p ≤ 30) then s
  else
    let ip := BitVec.ofNat 32 v
    let m := s.mgmt
    if m.ip = ip && m.prefix_ = p && m.valid = on then s
    else (fromTo 256 32).foldl State.unbind { s with mgmt := { m with ip := ip, prefix_ := p, valid := on, arp := [] } }

/-- MEM_CTRL (R202, R208). -/
def State.writeMemCtrl (s : State) (d v : Nat) : State :=
  let h := min 168 (bitsOf v 7 0)
  let old := (s.memDie d).scrubH
  let s := s.setMemDie d fun m => { m with scrubH := h, ceStorm := bitsOf v 23 8 }
  if h = 0 && old != 0 then s.log 0x1207 3 (srcDieUnit d 65) [d, (s.memDie d).scrubLine] else s

/-- WG_SLICE_CFGs written directly: the entry's fields, VALID or not. -/
def State.writeSliceCfg (s : State) (e v : Nat) : State :=
  let x := { s.sliceRegs e with
    id := BitVec.ofNat 12 v, wrap := BitVec.ofNat 3 (bitsOf v 15 13), epoch := BitVec.ofNat 16 (bitsOf v 31 16)
    boundary := BitVec.ofNat 13 (bitsOf v 44 32) }
  if bitOf v 12 then s.setSlice e x else s.dropSlice e x

/-- A W1C bit after a write: what hardware sets in the same cycle stays set (R12). -/
def w1c (old : Bool) (v hwSet i : Nat) : Bool := bitOf hwSet i || (old && !bitOf v i)

/-- W1C bits (R12). -/
def State.writeOneClear (s : State) (r : Reg) (v hwSet : Nat) : State :=
  match r with
  | .qStatus c q => s.setQueue c q fun u => { u with dbErr := w1c u.dbErr v hwSet 3 }
  | .stashStatus c => s.setStash c fun t => { t with armErr := w1c t.armErr v hwSet 3 }
  | .clampHit c =>
    let clear := fun (b : BitVec 10) => (b &&& ~~~(BitVec.ofNat 10 v)) ||| BitVec.ofNat 10 hwSet
    let s := s.setCtd c fun x => { x with hit := clear x.hit }
    if s.holder = some c then { s with ctd := { s.ctd with hits := clear s.ctd.hits } } else s
  | .ctxNote c => s.setCtx c fun x =>
      { x with tilesLost := w1c x.tilesLost v hwSet 0, storeLost := w1c x.storeLost v hwSet 1, stalled := w1c x.stalled v hwSet 2 }
  | .txStatusMb c ch => s.setChan c ch fun x => { x with overrun := w1c x.overrun v hwSet 1 }
  | _ => s

/-- The effect of a write on a register that has no command of its own: `v` is the register's value with the written half in place.
RO and RC registers ignore it. -/
def State.storeReg (s : State) (r : Reg) (v hwSet : Nat) : State :=
  match r with
  | .tbCtrl => s.writeTbCtrl v
  | .tbThresh => s.setTime fun t => { t with thresh := max 1000 (min 1000000 (bitsOf v 19 0)) }
  | .tbPpsDelay => s.setTime fun t => { t with ppsDelay := bitsOf v 23 0 }
  | .hangCtrl c => s.setCtx c fun x =>
      { x with runLimit := max 10 (min 10000 (bitsOf v 13 0)), waitLimit := min 3600 (bitsOf v 25 14), waitAction := bitOf v 26 }
  | .memCtrl d => s.writeMemCtrl d v
  | .routeCtrl => s.writeRouteCtrl v
  | .txnCtrl => s.writeTxnCtrl v
  | .tsCtrl => { s with fab := { s.fab with interval := min 13 (bitsOf v 4 0) } }
  | .sliceCfg e => s.writeSliceCfg e v
  | .sliceWin e w => s.setSliceWin e w (bitsOf v 26 0, bitsOf v 58 32) (bitOf v 63)
  | .circuit n => s.writeCircuit n (BitVec.ofNat 32 v)
  | .mgmtIp => s.setMgmtIp v
  | .mgmtGw => { s with mgmt := { s.mgmt with gw := BitVec.ofNat 32 v } }
  | .mgmtStatus => { s with mgmt := { s.mgmt with fec := bitOf v 1 } }
  | .irqCtrl c ch => s.setChan c ch fun x => { x with irqRx := bitOf v 0, irqTx := bitOf v 1 }
  | .irqAddr c ch => s.setChan c ch fun x => { x with irqAddr := BitVec.ofNat 64 (bitsOf v 51 0) }
  | .irqData c ch => s.setChan c ch fun x => { x with irqData := BitVec.ofNat 32 v }
  | .winStatus c w => s.setWin c w fun x => { x with src := bitOf v 0 }
  | .lgAppend c n => s.setLedger c fun l => { l with append := l.append.set n (BitVec.ofNat 32 v) }
  | .cntSel d n => s.setCounters d fun c => { c with sel := mput c.sel n (BitVec.ofNat 32 v), cnt := mdel c.cnt n }
  | .tlWinManifest c w => { s with toll := { s.toll with wins := lmod s.toll.wins (2 * c + w) fun x => { x with manifest := BitVec.ofNat 64 v } } }
  | r => s.writeOneClear r v hwSet

/-- A write of a register: registers that have a command of their own take its meaning. -/
def State.csrStore (s : State) (init : Initiator) (r : Reg) (width : Nat) (upper : Bool) (value : BitVec 64)
    (hwSet : Nat) : Host.Outcome State Fault Refusal :=
  let lo := value.setWidth 32
  let old := s.regVal r
  let v := if width = 64 then value.toNat
    else if r.wide then (if upper then lo.toNat * 2 ^ 32 + old % 2 ^ 32 else old / 2 ^ 32 * 2 ^ 32 + lo.toNat) else lo.toNat
  let a := s.answer 0
  match r with
  | .modId => execModIdWrite init lo s
  | .modOptSpare => execModOptSpareWrite init lo s
  | .qTail c q => execQTailDoorbell (Fin.ofNat 256 c) (Fin.ofNat 64 q) lo a
  | .qCtrl c q => execQCtrlResume (Fin.ofNat 256 c) (Fin.ofNat 64 q) lo a
  | .semValue k => execDeSemValueWrite (Fin.ofNat 16384 k) lo a
  | .semAdd k => execDeSemAddWrite (Fin.ofNat 16384 k) lo a
  | .stashCtrl c => execStashPassStart (Fin.ofNat 256 c) lo a
  | .stashArm c => execStashArmWrite (Fin.ofNat 256 c) lo a
  | .stashRetire c => execStashRetireWrite (Fin.ofNat 256 c) lo a
  | .leaseRenew => execLeaseRenew init lo s
  | .leaseClaim => execLeaseClaim init lo s
  | .leaseRelease => execLeaseRelease init lo s
  | .leaseOpen => execLeaseOpen init lo s
  | .wdog c => execCtdWdogKick init (Fin.ofNat 2 c) lo s
  | .txWord c ch n => execMbTxWordWrite init (Fin.ofNat 2 c) (Fin.ofNat 512 ch) (Fin.ofNat 8 n) lo s
  | .txCommit c ch => execMbTxCommit init (Fin.ofNat 2 c) (Fin.ofNat 512 ch) lo s
  | .winCursor c w => execLgWinCursorWrite init (Fin.ofNat 2 c) (Fin.ofNat 4 w) width upper value s
  | .lgAppendGo c => execLgAppendGo init (Fin.ofNat 2 c) lo s
  | .tlWinIndex c w => execTlWinIndexWrite init (Fin.ofNat 2 c) (Fin.ofNat 2 w) lo s
  | r => .next (a.storeReg r v hwSet)

/-- An output of a service processor does not pass: the gates are closed (R293), or its CTD is not the holder (R284, R291). -/
def State.spGated (s : State) (init : Initiator) : Bool := isAnySp init && (!s.ctd.lease.gates || !s.isActiveSp init)

/-- A write that a service processor makes to a compute die, MEM_, WG_ or TB_ registers does not take place behind closed gates. -/
def State.gateHolds (s : State) (init : Initiator) (u : CsrUnit) (r : Reg) : Bool :=
  s.spGated init && (match u, r with
    | .die _, _ => true
    | _, .tbCtrl | _, .tbThresh | _, .tbPpsDelay => true
    | _, _ => false)

/-- A write of CSR space (R12, R14); `hwSet` holds the W1C bits that hardware sets in the same cycle. -/
def State.csrWrite (s : State) (init : Initiator) (addr : BitVec 52) (width : Nat) (value : BitVec 64) (hwSet : Nat) :
    Host.Outcome State Fault Refusal :=
  match s.csrAt init addr.toNat width with
  | .error (.err e) => .next (s.fail e)
  | .error (.wait p) =>
    let w : WaitingAccess := { pair := p, init := init, op := .store (leBytes (width / 8) value.toNat), addr := addr, flips := [] }
    .next { s.fail .waiting with ring := { s.ring with waiting := s.ring.waiting ++ [w] } }
  | .error .optical => .refused .opticalRegister
  | .ok (u, r, upper) =>
    if !s.mayWrite init u r then .next (s.fail .unmapped)
    else if s.gateHolds init u r then .next (s.answer 0)
    else s.csrStore init r width upper value hwSet

/-- CSR_REGISTER_WRITE (R12, R14). -/
def execCsrRegisterWrite (init : Initiator) (addr : BitVec 52) (width : Nat) (value : CsrValue) (s : State) :
    Host.Outcome State Fault Refusal := s.csrWrite init addr width value.value value.hwSet.toNat

/-! ### Memory accesses -/

/-- Bytes an access covers. -/
def opSize : AccessOp → Nat
  | .load n => n
  | .store b => b.length
  | .amo _ w64 _ _ => if w64 then 8 else 4

/-- An access performed on a local place; a load's bytes, an atomic's previous value are the answer. -/
def State.perform (s : State) (op : AccessOp) (a : Nat) : State :=
  match op with
  | .load n => { s with bus := { bytes := s.lRead a n, value := BitVec.ofNat 64 (ofLe (s.lRead a n)) } }
  | .store b => (s.lWrite a b []).answer 0
  | .amo o w64 x c =>
    let (s, old) := s.atomicAt a w64 o x.toNat c.toNat
    s.answer (BitVec.ofNat 64 old)

/-- The first husk sector that stops a host core's access (R198): any one read; one that a store or AMO does not cover whole. -/
def State.huskStop (s : State) (op : AccessOp) (off : Nat) : Option Nat :=
  let ks := s.mem.main.husksIn off (opSize op)
  match op with
  | .store b => ks.find? fun k => (sectorPart off b k).2.length < 32
  | _ => ks.head?

/-- An access that waits for the change of the path between two dies (R21). -/
def State.holdAccess (s : State) (a b : Nat) (w : WaitingAccess) : State :=
  { s.fail .waiting with ring := { s.ring with waiting := s.ring.waiting ++ [{ w with pair := (diagPair a b).getD 0 }] } }

/-- A store or atomic of a host core leaves its line modified in the caches of its die (R88, R197). -/
def State.hartModified (s : State) (die : Nat) (op : AccessOp) (off : Nat) : State :=
  match op with
  | .load _ => s
  | _ => { s with mem := { s.mem with modified := mput s.mem.modified (off / 64) die } }

/-- A host core's access to local usable memory (R22, R184, R198); `flips` is the damage its lines come back with. Without a
transaction entry it stalls (R122): nothing happens, and the command is given again. -/
def State.hartLocal (s : State) (h : Fin 32) (op : AccessOp) (addr : BitVec 52) (off : Nat) (flips : List LineFlip) : State :=
  let die := h.val / 8
  let d := dieOf off
  if !s.regionUp d then s.fail .domainOff
  else match s.ringPath die d with
    | .waiting => s.holdAccess die d { pair := 0, init := .hart h, op := op, addr := addr, flips := flips }
    | .none =>
      if !s.txRoom (.host (.hart h)) then s.fail .waiting
      else
      let s := (s.damages 0 flips).txTouch die 1
      match s.huskStop op off with
      | some k => (s.hartConsume h (addr.toNat - off + 32 * k)).fail .husk
      | none => (s.perform op off).hartModified die op off
    | e => s.fail e

/-- The fabric request of a board-remote access (R36): a put, get or atomic. -/
def boardReq (op : AccessOp) (r : FReq) : FReq :=
  match op with
  | .load n => { r with ptype := 2, len := n }
  | .store b => { r with ptype := 1, len := b.length, bytes := b }
  | .amo o w64 x c =>
    { r with ptype := 3, len := if w64 then 8 else 4, a64 := w64, subop := BitVec.ofNat 4 o.val, operand := x, compare := c }

/-- A board-remote access of a context (R36): PEER_UNREACHABLE without a route or through a boundary port of its slice; otherwise
it is answered when the peer's RESP arrives. A host core without a context has no slice to travel in. -/
def State.boardAccess (s : State) (init : Initiator) (c : Option Nat) (op : AccessOp) (addr : BitVec 52) (idx off : Nat) : State :=
  match c with
  | none => s.fail .peerUnreachable
  | some c =>
    if !s.boardRoute (s.ctx c).slice idx then s.fail .peerUnreachable
    else
      (s.fail .waiting).issue (boardReq op
        { ptype := 0, owner := .host init, cls := 0, dst := BitVec.ofNat 15 (s.peerAt idx), slice := s.sliceIdOf c
          epoch := (s.ctx c).epoch, addr := off, len := 0, named := addr.toNat }) true

/-- An engine's access for a context: check 10 of R102, then R35. -/
def State.engAccess (s : State) (j : Fin 112) (c : Fin 256) (op : AccessOp) (addr : BitVec 52) (flips : List LineFlip) : State :=
  match s.target c (engDie j) addr.toNat (opSize op) with
  | .bad st _ => s.fail (match st with | 1 => .unmapped | 2 => .peerUnreachable | 3 => .domainOff | 4 => .notPresent | _ => .access)
  | .remote idx off => s.boardAccess (.engine j c) (some c) op addr idx off
  | .wait _ d => s.holdAccess (engDie j) d { pair := 0, init := .engine j c, op := op, addr := addr, flips := flips }
  | .loc a =>
    if !s.txRoom (.host (.engine j c)) then s.fail .waiting
    else
      let s := ((s.damages 0 flips).engTouch j).perform op a
      match op with
      | .load _ => s
      | _ => s.noteWrite j c a (opSize op)

/-- A service processor's access to usable memory (R305): only inside a local window with the permission; a refusal sets
CLAMP_HIT.LOCAL_WIN of its CTD. A store or atomic that may not pass its gate does not take place (R284, R291, R293); what such an
atomic returns is open (log 4). -/
def State.spAccess (s : State) (c : Nat) (op : AccessOp) (off : Nat) (flips : List LineFlip) : State :=
  let n := (opSize op)
  let need := match op with | .load _ => 1 | .store _ => 2 | .amo .. => 3
  let ok := s.ctd.clamp.localWin.any fun w => w.1 ≤ off && off + n ≤ w.1 + w.2.1 * 2 ^ 21 && w.2.2 &&& need == need
  if !ok then (s.fail .access).clampHitOn c 6 (off / 2 ^ 21) 0 0
  else if !s.regionUp (dieOf off) then s.fail .domainOff
  else match op, s.ctd.lease.gates && s.holder == some c with
    | .store _, false => s.answer 0
    | .amo .., false => let (v, s) := s.draw 64; s.answer v
    | _, _ => (s.damages 0 flips).perform op off

/-- A memory access reaches CSR space: loads and stores of R14; an atomic, which no register takes, meets what its unit answers
(R6, R34) and is UNMAPPED otherwise. -/
def State.csrAccess (s : State) (init : Initiator) (op : AccessOp) (addr : BitVec 52) : Host.Outcome State Fault Refusal :=
  match op with
  | .load n => s.csrRead init addr (8 * n) 0
  | .store b => s.csrWrite init addr (8 * b.length) (BitVec.ofNat 64 (ofLe b)) 0
  | .amo .. =>
    match (s.csrOffset init addr.toNat).toOption.bind fun off => (csrUnit off).bind fun u => s.unitGate init u.1 with
    | some (.err e) => .next (s.fail e)
    | some .optical => .refused .opticalRegister
    | _ => .next (s.fail .unmapped)

/-- An access by address (R33, R35, R38, R39). -/
def State.access (s : State) (init : Initiator) (op : AccessOp) (addr : BitVec 52) (flips : List LineFlip) :
    Host.Outcome State Fault Refusal :=
  match init with
  | .i3c => .next (s.fail .unmapped)
  | .engine j c => .next (s.engAccess j c op addr flips)
  | .sp c =>
    if 0xF00000000000 ≤ addr.toNat then s.csrAccess init op addr
    else if addr.toNat + (opSize op) ≤ usableTop then .next (s.spAccess c op addr.toNat flips)
    else .next (s.fail .unmapped)
  | .hart h => match s.place addr.toNat with
    | .err e => .next (s.fail e)
    | .remote idx off => .next (s.boardAccess init (s.eng.hartCtx.lookup h.val) op addr idx off)
    | .loc off =>
      if off + (opSize op) ≤ usableTop then .next (s.hartLocal h op addr off flips)
      else if 0xF00000000000 ≤ off then s.csrAccess init op addr
      else .next (s.fail .unmapped)

/-- HOST_MEMORY_ACCESS (R35). -/
def execHostMemoryAccess (init : Initiator) (op : AccessOp) (addr : BitVec 52) (flips : List LineFlip) (s : State) :
    Host.Outcome State Fault Refusal := s.access init op addr flips

/-- Accesses that waited for a path change, in their order (R21): none of them is a service processor's, so none is refused. -/
def State.release (s : State) (l : List WaitingAccess) : State :=
  l.foldl (fun s w => match s.access w.init w.op w.addr w.flips with
    | .next t => t
    | _ => s) s

/-- DIAG_PATH_SWITCH (R21): the old path is empty; the pair takes the new one and what waited is released onto it. A condition that
has changed meanwhile starts the next change. -/
def execDiagPathSwitch (pair : Fin 2) (s : State) : Host.Outcome State Fault Refusal :=
  .next <|
    match s.ring.change.getD pair none with
    | none => s
    | some alt =>
      let mine := s.ring.waiting.filter (·.pair == pair.val)
      let rest := s.ring.waiting.filter (·.pair != pair.val)
      let s := { s with ring := { s.ring with alt := s.ring.alt.set pair alt, change := s.ring.change.set pair none, waiting := rest } }
      (s.release mine).unstall.pathCheck

end Sys2Proof.Machine
end

