-- ==== Sys2Proof/Machine/Mgmt.lean ====
section
/-! DEFINITION. The management port, tray management over I3C, and attestation (chapter 16). -/

namespace Sys2Proof.Machine

/-! ### The management port (R486) -/

/-- MGMT_BLOCK_LOCK: LEASE_MGMT_STATUS.LINK_UP, while the port is permitted and enabled. -/
def execMgmtBlockLock (up : Bool) (s : State) : Host.Outcome State Fault Refusal :=
  .next { s with mgmt := { s.mgmt with linkUp := up && s.unitOn 13 } }

/-- A frame or datagram discarded and counted. -/
def State.discard (s : State) : State := { s with mgmt := { s.mgmt with discarded := satAdd 0xFFFF s.mgmt.discarded 1 } }

/-- A station learnt by ARP. -/
def State.learn (s : State) (ip : BitVec 32) (mac : BitVec 48) : State :=
  let arp := (ip.toNat, mac.toNat) :: s.mgmt.arp.filter fun e => e.1 != ip.toNat
  { s with mgmt := { s.mgmt with arp := arp } }

/-- Whether a PTP message came over UDP. -/
def overUdp (m : Sys2Proof.PtpMsg) : Bool := m.head.udp

/-- A frame the active CTD receives: PTP, ARP for the module's address, IPv4 for it without options or fragments, to the Darid port or
to the PTP ports; anything else is discarded. -/
def State.frame (s : State) (f : MgmtFrame) : State :=
  let g := s.mgmt
  match f with
  | .arpRequest target ip mac =>
    if g.valid && target == g.ip then
      let s := s.learn ip mac
      { s with mgmt := { s.mgmt with arpOut := s.mgmt.arpOut ++ [(ip.toNat, mac.toNat)] } }
    else s.discard
  | .arpReply ip mac => if g.valid then s.learn ip mac else s.discard
  | .ptp msg => if !overUdp msg || (g.valid && s.time.udp) then s.ptp msg else s.discard
  | .ipv4 mac dst plain port src srcPort payload =>
    if (mac == s.fuse.mac || mac == BitVec.ofNat 48 (2 ^ 48 - 1)) && g.valid && plain && dst == g.ip then
      match port with
      | some p =>
        if p == 31354 then s.datagram src.toNat srcPort.toNat payload
        else if (p == 319 || p == 320) && s.time.udp then s
        else s.discard
      | none => s.discard
    else s.discard
  | .other => s.discard

/-- MGMT_FRAME_RECEIVE (R486, R293): while no CTD serves, every frame is discarded and counted. -/
def execMgmtFrameReceive (frame : MgmtFrame) (s : State) : Host.Outcome State Fault Refusal :=
  .next (if !(s.mgmt.linkUp && s.unitOn 13) then s else if s.serving.isSome then s.frame frame else s.discard)

/-! ### I3C (R498) -/

/-- The Provisioned ID. -/
def State.provisionedId (s : State) : Nat := s.fuse.serial.toNat % 2 ^ 32 + 2 ^ 32 + s.fuse.i3cMfr.toNat * 2 ^ 33

/-- I3C_ENTDAA: the target sends its Provisioned ID, most significant byte first, and takes the address. -/
def execI3cEntdaa (addr : BitVec 7) (s : State) : Host.Outcome State Fault Refusal :=
  .next { s with i3c := { s.i3c with addr := some addr, out := (leBytes 6 s.provisionedId).reverse } }

/-- A value of n bytes with some of its bytes replaced: bytes written at an offset, the register at another. -/
def patchReg (old n base off : Nat) (b : List Byte) : Nat :=
  ofLe ((leBytes n old).zipIdx.map fun p =>
    let a := base + p.2
    if off ≤ a && a < off + b.length then b.getD (a - off) 0 else p.1)

/-- The bytes of a private write that fall on a register the controller may write, applied at once. -/
def State.i3cPut (s : State) (off : Nat) (b : List Byte) (r : Reg) (base n : Nat) : State :=
  if off < base + n && base < off + b.length then s.storeReg r (patchReg (s.regVal r) n base off b) 0 else s

/-- I3C_PRIVATE_WRITE: an offset of two bytes, then data; only LEASE_MGMT_IPV4, LEASE_MGMT_GW and FEC_EN take any. -/
def execI3cPrivateWrite (bytes : List (BitVec 8)) (s : State) : Host.Outcome State Fault Refusal :=
  .next <|
    if s.i3c.addr.isNone || bytes.length < 2 then s
    else
      let off := fieldAt bytes 0 2
      let b := bytes.drop 2
      let s := { s with i3c := { s.i3c with offset := off, latch := none } }
      ((s.i3cPut off b .mgmtIp 0x108 8).i3cPut off b .mgmtGw 0x110 4).i3cPut off b .mgmtStatus 0x118 1

/-- One byte read at an offset: byte 0 of a 64-bit register latches all eight and clears its RC fields; the byte of a 32-bit register
is its present value, and reading the highest byte of an RC field clears the field. -/
def State.i3cByte (s : State) (o : Nat) : Byte × State :=
  let low := o / 4 * 4
  let wide := fun (b : Nat) => (leaseReg b).bind fun r => if r.wide then some r else none
  let byte := fun (v k : Nat) => BitVec.ofNat 8 (v / 256 ^ k)
  match wide (o / 8 * 8) with
  | some r =>
    let base := o / 8 * 8
    if o = base then
      let v := s.regVal r
      let s := s.clearRc r 64 false 0
      (byte v 0, { s with i3c := { s.i3c with latch := some (base, BitVec.ofNat 64 v) } })
    else match s.i3c.latch with
      | some (b, v) => if b = base then (byte v.toNat (o - base), s) else (byte (s.regVal r) (o - base), s)
      | none => (byte (s.regVal r) (o - base), s)
  | none => match leaseReg low with
    | some r =>
      let v := s.regVal r
      let s := (r.rcFields.filter fun f => f.1 == 8 * (o - low) + 7).foldl (fun s f => s.setRcField r f.2 0) s
      (byte v (o - low), s)
    | none => (0, s)

/-- Bytes read in order; the offset goes on. -/
def State.i3cRead (s : State) : Nat → List Byte × State
  | 0 => ([], s)
  | n + 1 =>
    let (b, s) := s.i3cByte s.i3c.offset
    let s := { s with i3c := { s.i3c with offset := (s.i3c.offset + 1) % 2 ^ 16 } }
    let (l, s) := s.i3cRead n
    (b :: l, s)

/-- I3C_PRIVATE_READ. -/
def execI3cPrivateRead (count : Nat) (s : State) : Host.Outcome State Fault Refusal :=
  .next <|
    if s.i3c.addr.isNone then s
    else
      let (l, s) := s.i3cRead count
      { s with i3c := { s.i3c with out := l } }

/-! ### Attestation (R482-R485) -/

/-- The measurement blocks of R484: index, DMTF value type, value. -/
def State.measurements (s : State) : List (Nat × Nat × List Byte) :=
  let h := s.holder.getD 0
  let x := s.ctdOf h
  let rom := s.inRom h
  let other := match s.standby with
    | some c => padTo 32 0 (s.ctdOf c).imageHash
    | none => List.replicate 32 0
  [(1, 0x00, Config.romHash h), (2, 0x01, padTo 32 0 x.imageHash), (3, 0x86, leBytes 2 (if rom then 0 else x.release)),
   (4, 0x87, leBytes 2 s.ctd.nv.minRelease), (5, 0x03, sha256 s.ctd.clamp.block), (6, 0x03, sha256 s.ctd.nv.pack),
   (7, 0x03, s.calHash),
   (8, 0x82, leBytes 8 s.modCaps ++ leBytes 8 s.fuse.serial.toNat ++ leBytes 4 s.oosStatus ++ leBytes 4 (s.tlStatus h % 8)),
   (9, 0x01, other)]

/-- Blocks in the DMTF measurement form: index, specification 1, size, then type, size and value. -/
def blockBytes (m : Nat × Nat × List Byte) : List Byte :=
  leBytes 1 m.1 ++ leBytes 1 1 ++ leBytes 2 (m.2.2.length + 3) ++ leBytes 1 m.2.1 ++ leBytes 2 m.2.2.length ++ m.2.2

/-- What the answer to a request reports: the blocks of a GET_MEASUREMENTS, one or with 0xFF all; else the chain of slot 0. -/
def State.spdmContent (s : State) (req : List Byte) : List Byte :=
  if fieldAt req 1 1 = 0xE0 then
    let ix := fieldAt req 3 1
    (s.measurements.filter fun m => ix == 0xFF || m.1 == ix).flatMap blockBytes
  else Config.certChain 0

/-- An ERROR response. -/
def spdmError (code : Nat) : List Byte := [0x13, 0x7F, BitVec.ofNat 8 code, 0]
/-- VERSION: 1.3 alone. -/
def spdmVersion : List Byte := [0x10, 0x04, 0, 0, 0, 1, 0x00, 0x13]

/-- Requests answered: GET_DIGESTS, GET_CERTIFICATE, CHALLENGE, GET_MEASUREMENTS, GET_CAPABILITIES, NEGOTIATE_ALGORITHMS. -/
def spdmKnown : List Nat := [0x81, 0x82, 0x83, 0xE0, 0xE1, 0xE3]

/-- Slot of a request whose response carries a signature: CHALLENGE, and GET_MEASUREMENTS that asks for one. -/
def spdmSigned (req : List Byte) : Option Nat :=
  if fieldAt req 1 1 = 0x83 then some (fieldAt req 2 1)
  else if fieldAt req 1 1 = 0xE0 && bitOf (fieldAt req 2 1) 0 then some (fieldAt req 36 1 % 16)
  else none

/-- A response given: the transcript grows. -/
def State.spdmAnswer (s : State) (req resp : List Byte) : DRes :=
  { s := { s with spdm := { s.spdm with transcript := s.spdm.transcript ++ req ++ resp } }
    words := resp.length :: wordsOf (padTo (cdiv resp.length 4 * 4) 0 resp) }

/-- An error answered without a transcript. -/
def spdmFail (s : State) (code : Nat) : DRes := { s := s, words := [4, ofLe (spdmError code)] }

/-- SpdmExchange (R483, R485). -/
def dSpdmExchange : DaridDef where
  op := 0x1101
  senders := [.m, .f]
  oos := true
  changes := false
  len n := 2 ≤ n && n ≤ 1023
  bad _ a := badWord [(0, 1 ≤ arg a 0 && arg a 0 ≤ 4088)]
  body s w a :=
    let req := ((a.drop 1).flatMap (leBytes 4)).take (arg a 0)
    let code := fieldAt req 1 1
    let p := s.spdm
    if a.length != 1 + cdiv (arg a 0) 4 then .no s dBadLength
    else if p.pending.any fun x => x.1.ch != w.ch then .no s dBusy
    else if code = 0x84 then
      ({ s with spdm := { chan := some w.ch, stage := 1 } } : State).spdmAnswer req spdmVersion
    else if p.chan != some w.ch then spdmFail s 0x43
    else if fieldAt req 0 1 != 0x13 then spdmFail s 0x41
    else if !spdmKnown.contains code then spdmFail s 0x07
    else if p.stage = 3 && spdmSigned req == some 0 then
      { s := { s with spdm := { p with pending := some (w, req) } }, status := dPending }
    else
      let st := if code = 0xE1 && p.stage = 1 then 2 else if code = 0xE3 && p.stage = 2 then 3 else p.stage
      ({ s with spdm := { p with stage := st } } : State).spdmAnswer req (Config.spdmResponse req p.transcript (s.spdmContent req))

/-- SPDM_RESPONSE_DONE (R483, R485): the signed response is final; SPDM_SIGNED is logged. -/
def execSpdmResponseDone (s : State) : Host.Outcome State Fault Refusal :=
  .next <|
    match s.spdm.pending, s.serving with
    | some (w, req), some _ =>
      let resp := Config.spdmResponse req s.spdm.transcript (s.spdmContent req)
      let meas := fieldAt req 1 1 == 0xE0
      let s := s.log 0x1101 2 (srcCrypto s)
        [w.ch, fieldAt req 1 1, (spdmSigned req).getD 0, fieldAt req 4 4, if meas then fieldAt req 3 1 else 0xFF]
      let s := { s with spdm := { s.spdm with pending := none } }
      let r := s.spdmAnswer req resp
      r.s.finish w dOk 0 r.words
    | _, _ => s

/-- The chain of a slot (R482): 0, and the toll keys of the CTDs in 4 and 5. -/
def State.chainOf (s : State) (slot : Nat) : Option (List Byte) :=
  if slot = 0 then some (Config.certChain 0)
  else if slot = 4 || (slot = 5 && s.hasCtd1) then some (keyCert (s.tollKey (slot - 4)))
  else none

/-- CertRead: the bytes of the chain from the offset on, as many as there are. -/
def dCertRead : DaridDef where
  op := 0x1102
  senders := [.c, .m, .f]
  oos := true
  changes := false
  len := (· == 3)
  bad _ a := badWord [(0, arg a 0 < 8), (2, 1 ≤ arg a 2 && arg a 2 ≤ 4088)]
  body s _ a :=
    match s.chainOf (arg a 0) with
    | some b =>
      let x := (b.drop (arg a 1)).take (arg a 2)
      { s := s, words := wordsOf (padTo (cdiv x.length 4 * 4) 0 x) }
    | none => .no s dNoSuch

def execSpdmExchange (r : DReq) (s : State) : Host.Outcome State Fault Refusal := .next (runDarid dSpdmExchange r s)
def execCertRead (r : DReq) (s : State) : Host.Outcome State Fault Refusal := .next (runDarid dCertRead r s)

end Sys2Proof.Machine
end

