-- ==== Sys2Proof/Machine/Mailbox.lean ====
section
/-! DEFINITION. MB_POP: messages taken from the mailbox, commands put together from their fragments (R320, R321) and carried out
(R330, R332). -/

namespace Sys2Proof.Machine

/-- What each defined opcode does (R332). -/
def daridExec (op : Nat) : Option (DReq → State → Host.Outcome State Fault Refusal) :=
  match op with
  | 0x0101 => some execInvCaps
  | 0x0102 => some execInvDie
  | 0x0103 => some execInvStack
  | 0x0104 => some execInvOptical
  | 0x0105 => some execInvCtd
  | 0x0106 => some execInvSetId
  | 0x0107 => some execInvSetSpare
  | 0x0108 => some execChannelRelease
  | 0x0201 => some execContextCreate
  | 0x0202 => some execContextRelease
  | 0x0203 => some execContextGrant
  | 0x0204 => some execContextRevoke
  | 0x0205 => some execQueueCreate
  | 0x0206 => some execQueueSetIrq
  | 0x0207 => some execQueueDelete
  | 0x0208 => some execContextBindHart
  | 0x0209 => some execTwinJoin
  | 0x020A => some execTwinSplit
  | 0x020B => some execContextSetDebug
  | 0x020C => some execContextStashReserve
  | 0x020D => some execContextStashRelease
  | 0x020E => some execContextQuery
  | 0x0301 => some execSliceSet
  | 0x0302 => some execSliceEpoch
  | 0x0303 => some execSliceWindow
  | 0x0304 => some execSliceRelease
  | 0x0305 => some execContextBindSlice
  | 0x0306 => some execConvoyAbort
  | 0x0401 => some execScheduleWrite
  | 0x0402 => some execScheduleClear
  | 0x0403 => some execScheduleRead
  | 0x0501 => some execSievePackCommit
  | 0x0502 => some execSievePolicy
  | 0x0503 => some execSieveRunNow
  | 0x0504 => some execSieveQuery
  | 0x0505 => some execTaintRead
  | 0x0506 => some execTaintClear
  | 0x0507 => some execTallyQuery
  | 0x0601 => some execHoardConfig
  | 0x0602 => some execHoardSnapshot
  | 0x0603 => some execHoardRestore
  | 0x0604 => some execSpareFill
  | 0x0605 => some execCellarWrite
  | 0x0606 => some execCellarRead
  | 0x0607 => some execSeedStreamSet
  | 0x0608 => some execSeedStreamGet
  | 0x0609 => some execDataCursorSet
  | 0x060A => some execDataCursorGet
  | 0x0701 => some execContextReset
  | 0x0702 => some execEngineReset
  | 0x0703 => some execDieReset
  | 0x0704 => some execModuleRecover
  | 0x0705 => some execSwitchover
  | 0x0706 => some execFaultRecordRead
  | 0x0707 => some execMemClear
  | 0x0708 => some execOosQuery
  | 0x0709 => some execOosLatchClear
  | 0x0801 => some execLedgerStatus
  | 0x0802 => some execLedgerRead
  | 0x0803 => some execLedgerAppend
  | 0x0804 => some execLedgerSubscribe
  | 0x0901 => some execCounterSelect
  | 0x0902 => some execCounterRead
  | 0x0903 => some execLiveCounterRead
  | 0x0A01 => some execWatchDefine
  | 0x0A02 => some execWatchDigest
  | 0x0A03 => some execWatchRemove
  | 0x0B01 => some execTimeStepAdvance
  | 0x0B02 => some execTimePhaseAdvance
  | 0x0B03 => some execTimeStepSet
  | 0x0B04 => some execTimeAcceptCorrection
  | 0x0B05 => some execTimeConfigure
  | 0x0B06 => some execTimeQuery
  | 0x0C01 => some execTollTagQuery
  | 0x0C02 => some execTollManifestRead
  | 0x0C03 => some execTollRecordRead
  | 0x0C04 => some execTollKeyRead
  | 0x0C05 => some execTollKeyRotate
  | 0x0D01 => some execCalRead
  | 0x0D02 => some execCalCommit
  | 0x0D03 => some execCalHash
  | 0x0E01 => some execStageWrite
  | 0x0E02 => some execStageReset
  | 0x0E03 => some execFwCommit
  | 0x0E04 => some execClampCommit
  | 0x0E05 => some execFwInfo
  | 0x0E06 => some execFwRestartStandby
  | 0x0F01 => some execPowerSetDie
  | 0x0F02 => some execPowerCap
  | 0x0F03 => some execPowerQuery
  | 0x1001 => some execLinkEnable
  | 0x1002 => some execLinkRetrain
  | 0x1003 => some execLinkRemap
  | 0x1004 => some execLinkQuery
  | 0x1005 => some execRouteConfig
  | 0x1006 => some execCircuitRouteSet
  | 0x1101 => some execSpdmExchange
  | 0x1102 => some execCertRead
  | _ => none

/-- A command whose final fragment has arrived: carried out, or answered BAD_OPCODE (R330 check 1). -/
def State.command (s : State) (ctd : Fin 2) (ch : Fin 512) (op seq : Nat) (args : List Word) : Host.Outcome State Fault Refusal :=
  match daridExec op with
  | some run => run { ctd := ctd, ch := ch, seq := BitVec.ofNat 8 seq, args := args } s
  | none =>
    let w : Who := { ctd := ctd.val, ch := ch.val, op := op, seq := seq, args := (args.map (·.toNat)).take 4, changes := false }
    .next (acceptDarid s ctd ch op seq fun s => answerDarid w (.no s dBadOpcode))

/-- A message taken by the CTD (R320, R321): header bits that a sender must leave clear; a fragment added to the open command; a broken
sequence; a final fragment. -/
def State.message (s : State) (ctd : Fin 2) (ch : Fin 512) (m : Msg) : Host.Outcome State Fault Refusal :=
  let h := (m.getD 0 0).toNat
  let op := bitsOf h 15 0
  let len := bitsOf h 18 16
  let seq := bitsOf h 26 19
  let more := bitOf h 28
  let part := (m.drop 1).take len
  let setOpen := fun (s : State) (o : Option (Nat × Nat × List Word × Nat)) => s.setChan ctd ch fun c => { c with openCmd := o }
  if bitOf h 27 || bitOf h 29 || bitOf h 30 || bitOf h 31 then
    .next (s.respondRaw ctd ch op seq false [statusWord dBadArg 0])
  else
    let held := (s.chan ctd ch).openCmd
    let words := (match held with | some (_, _, ws, _) => ws | none => []) ++ part
    let broken := (held.any fun x => x.1 != op || x.2.1 != seq) || (more && len < 7) || 1024 < words.length
    if broken then .next ((setOpen s none).respondRaw ctd ch op seq false [statusWord dFrag 0])
    else if more then .next (setOpen s (some (op, seq, words, s.time.mono)))
    else (setOpen s none).command ctd ch op seq words

/-- MB_POP (R313, R315, R316, R325): a CTD that carries out commands takes the down message; FULL clears, TX_EN writes its interrupt,
and the next message of a bound source comes in. -/
def execMbPop (ctd : Fin 2) (ch : Fin 512) (s : State) : Host.Outcome State Fault Refusal :=
  let c := s.chan ctd ch
  if !c.txFull || !s.carriesOut ctd then .next s
  else if 416 ≤ ch.val then .refused .internalOpcode
  else
    let s := s.setChan ctd ch fun c => { c with txFull := false }
    let s := if c.irqTx then s.irqWrite c.irqAddr.toNat c.irqData else s
    (s.feed ctd ch).message ctd ch c.tx

end Sys2Proof.Machine
end

