-- ==== Sys2Proof/Machine/Dispatch.lean ====
section
/-! DEFINITION. One arm per command of the table; each calls the meaning of its row. -/

namespace Sys2Proof.Machine

def exec (i : Instr) (s : State) : Host.Outcome State Fault Refusal :=
  match i with
  | .csrRegisterWrite init addr width value => Sys2Proof.Machine.execCsrRegisterWrite init addr width value s
  | .hostMemoryAccess init op addr flips => Sys2Proof.Machine.execHostMemoryAccess init op addr flips s
  | .modIdWrite init value => Sys2Proof.Machine.execModIdWrite init value s
  | .modOptSpareWrite init value => Sys2Proof.Machine.execModOptSpareWrite init value s
  | .ringEdgeDown edge => Sys2Proof.Machine.execRingEdgeDown edge s
  | .ringEdgeUp edge => Sys2Proof.Machine.execRingEdgeUp edge s
  | .diagPathSwitch pair => Sys2Proof.Machine.execDiagPathSwitch pair s
  | .timeBusFrame die => Sys2Proof.Machine.execTimeBusFrame die s
  | .holdoverEntry die => Sys2Proof.Machine.execHoldoverEntry die s
  | .ptpMessageReceive msg => Sys2Proof.Machine.execPtpMessageReceive msg s
  | .podOffsetMeasured offset gm => Sys2Proof.Machine.execPodOffsetMeasured offset gm s
  | .podLockLost => Sys2Proof.Machine.execPodLockLost s
  | .ppsInEdge => Sys2Proof.Machine.execPpsInEdge s
  | .ppsInFault => Sys2Proof.Machine.execPpsInFault s
  | .ppsOutRise => Sys2Proof.Machine.execPpsOutRise s
  | .ppsOutFall => Sys2Proof.Machine.execPpsOutFall s
  | .timestampRequestSend => Sys2Proof.Machine.execTimestampRequestSend s
  | .timestampRequestReceive port src => Sys2Proof.Machine.execTimestampRequestReceive port src s
  | .timestampResponseReceive port resp => Sys2Proof.Machine.execTimestampResponseReceive port resp s
  | .tbTsqPop init ctd g width upper => Sys2Proof.Machine.execTbTsqPop init ctd g width upper s
  | .scheduleArm entry => Sys2Proof.Machine.execScheduleArm entry s
  | .scheduleFire die => Sys2Proof.Machine.execScheduleFire die s
  | .tensorDumpDone die flips => Sys2Proof.Machine.execTensorDumpDone die flips s
  | .qTailDoorbell ctx q value => Sys2Proof.Machine.execQTailDoorbell ctx q value s
  | .qCtrlResume ctx q value => Sys2Proof.Machine.execQCtrlResume ctx q value s
  | .descriptorFetch eng flips => Sys2Proof.Machine.execDescriptorFetch eng flips s
  | .descriptorComplete ctx q flips => Sys2Proof.Machine.execDescriptorComplete ctx q flips s
  | .deSemValueWrite sem value => Sys2Proof.Machine.execDeSemValueWrite sem value s
  | .deSemAddWrite sem amount => Sys2Proof.Machine.execDeSemAddWrite sem amount s
  | .meTileDone ctx q index tile tileUe err1 err2 flips => Sys2Proof.Machine.execMeTileDone ctx q index tile tileUe err1 err2 flips s
  | .checkerVerdict ctx q index tile err flips => Sys2Proof.Machine.execCheckerVerdict ctx q index tile err flips s
  | .arbiterVerdict ctx q index tile err flips => Sys2Proof.Machine.execArbiterVerdict ctx q index tile err flips s
  | .stashPassStart ctx value => Sys2Proof.Machine.execStashPassStart ctx value s
  | .stashPassOpen ctx => Sys2Proof.Machine.execStashPassOpen ctx s
  | .stashArmWrite ctx value => Sys2Proof.Machine.execStashArmWrite ctx value s
  | .stashArmEntry ctx flips => Sys2Proof.Machine.execStashArmEntry ctx flips s
  | .stashRetireWrite ctx value => Sys2Proof.Machine.execStashRetireWrite ctx value s
  | .patrolScrubStep die flips => Sys2Proof.Machine.execPatrolScrubStep die flips s
  | .memTrainingDone stack best => Sys2Proof.Machine.execMemTrainingDone stack best s
  | .memInitDone die => Sys2Proof.Machine.execMemInitDone die s
  | .memThermal stack tempC => Sys2Proof.Machine.execMemThermal stack tempC s
  | .flitTransmit port => Sys2Proof.Machine.execFlitTransmit port s
  | .flitReceive port flit => Sys2Proof.Machine.execFlitReceive port flit s
  | .replayTimeout port => Sys2Proof.Machine.execReplayTimeout port s
  | .laneLockLoss port => Sys2Proof.Machine.execLaneLockLoss port s
  | .wgRetrain port failedLanes resumeFrom => Sys2Proof.Machine.execWgRetrain port failedLanes resumeFrom s
  | .identReceive port ident => Sys2Proof.Machine.execIdentReceive port ident s
  | .identTimeout port => Sys2Proof.Machine.execIdentTimeout port s
  | .packetArrive port pkt flips => Sys2Proof.Machine.execPacketArrive port pkt flips s
  | .reorderedRequestDeliver remote cls flips => Sys2Proof.Machine.execReorderedRequestDeliver remote cls flips s
  | .respReceive pkt => Sys2Proof.Machine.execRespReceive pkt s
  | .requestTimeout remote cls seq => Sys2Proof.Machine.execRequestTimeout remote cls seq s
  | .busyResend remote cls seq => Sys2Proof.Machine.execBusyResend remote cls seq s
  | .epochAheadResend remote cls seq => Sys2Proof.Machine.execEpochAheadResend remote cls seq s
  | .epochWaitExpiry remote cls seq => Sys2Proof.Machine.execEpochWaitExpiry remote cls seq s
  | .peerEntryRelease remote target => Sys2Proof.Machine.execPeerEntryRelease remote target s
  | .collSegReceive port pkt => Sys2Proof.Machine.execCollSegReceive port pkt s
  | .segAckReceive port pkt => Sys2Proof.Machine.execSegAckReceive port pkt s
  | .segAckTimeout key port skind seg step => Sys2Proof.Machine.execSegAckTimeout key port skind seg step s
  | .notReadyResend key port skind seg step => Sys2Proof.Machine.execNotReadyResend key port skind seg step s
  | .segAheadResend key port skind seg step => Sys2Proof.Machine.execSegAheadResend key port skind seg step s
  | .caravanSegReceive port pkt => Sys2Proof.Machine.execCaravanSegReceive port pkt s
  | .abortReceive port msg => Sys2Proof.Machine.execAbortReceive port msg s
  | .abortResend key port => Sys2Proof.Machine.execAbortResend key port s
  | .abortAckReceive port key => Sys2Proof.Machine.execAbortAckReceive port key s
  | .convoyEntryFree key => Sys2Proof.Machine.execConvoyEntryFree key s
  | .leaseRenew init gen => Sys2Proof.Machine.execLeaseRenew init gen s
  | .leaseClaim init gen => Sys2Proof.Machine.execLeaseClaim init gen s
  | .leaseRelease init value => Sys2Proof.Machine.execLeaseRelease init value s
  | .leaseOpen init value => Sys2Proof.Machine.execLeaseOpen init value s
  | .leaseExpiry => Sys2Proof.Machine.execLeaseExpiry s
  | .leaseGuardEnd => Sys2Proof.Machine.execLeaseGuardEnd s
  | .ctdWdogKick init ctd value => Sys2Proof.Machine.execCtdWdogKick init ctd value s
  | .ctdWdogExpired ctd => Sys2Proof.Machine.execCtdWdogExpired ctd s
  | .holderResetRelease ctd selfTestFail => Sys2Proof.Machine.execHolderResetRelease ctd selfTestFail s
  | .standbyLeasePoll ctd => Sys2Proof.Machine.execStandbyLeasePoll ctd s
  | .switchoverGapTimeout => Sys2Proof.Machine.execSwitchoverGapTimeout s
  | .mirrorCheck seqSent crcSent crcOwn => Sys2Proof.Machine.execMirrorCheck seqSent crcSent crcOwn s
  | .resyncCopyDone ctd => Sys2Proof.Machine.execResyncCopyDone ctd s
  | .standbySelfTest ctd test pass detail => Sys2Proof.Machine.execStandbySelfTest ctd test pass detail s
  | .standbyHealth ctd timeDiffNs tempC => Sys2Proof.Machine.execStandbyHealth ctd timeDiffNs tempC s
  | .powerLimiterSample avgPowerW avgCurrentDA => Sys2Proof.Machine.execPowerLimiterSample avgPowerW avgCurrentDA s
  | .mbTxWordWrite init ctd ch n value => Sys2Proof.Machine.execMbTxWordWrite init ctd ch n value s
  | .mbTxCommit init ctd ch value => Sys2Proof.Machine.execMbTxCommit init ctd ch value s
  | .mbPop ctd ch => Sys2Proof.Machine.execMbPop ctd ch s
  | .mbUpPlace ctd ch => Sys2Proof.Machine.execMbUpPlace ctd ch s
  | .mbRxPop init ctd ch => Sys2Proof.Machine.execMbRxPop init ctd ch s
  | .mgmtDatagramReceive srcIp srcPort payload => Sys2Proof.Machine.execMgmtDatagramReceive srcIp srcPort payload s
  | .mgmtPacketReceive src payload => Sys2Proof.Machine.execMgmtPacketReceive src payload s
  | .channelBindingExpiry ch => Sys2Proof.Machine.execChannelBindingExpiry ch s
  | .fragmentTimeout ctd ch => Sys2Proof.Machine.execFragmentTimeout ctd ch s
  | .mgmtFrameReceive frame => Sys2Proof.Machine.execMgmtFrameReceive frame s
  | .invCaps r => Sys2Proof.Machine.execInvCaps r s
  | .invDie r => Sys2Proof.Machine.execInvDie r s
  | .invStack r => Sys2Proof.Machine.execInvStack r s
  | .invOptical r => Sys2Proof.Machine.execInvOptical r s
  | .invCtd r => Sys2Proof.Machine.execInvCtd r s
  | .invSetId r => Sys2Proof.Machine.execInvSetId r s
  | .invSetSpare r => Sys2Proof.Machine.execInvSetSpare r s
  | .channelRelease r => Sys2Proof.Machine.execChannelRelease r s
  | .contextCreate r => Sys2Proof.Machine.execContextCreate r s
  | .contextRelease r => Sys2Proof.Machine.execContextRelease r s
  | .contextGrant r => Sys2Proof.Machine.execContextGrant r s
  | .contextRevoke r => Sys2Proof.Machine.execContextRevoke r s
  | .queueCreate r => Sys2Proof.Machine.execQueueCreate r s
  | .queueSetIrq r => Sys2Proof.Machine.execQueueSetIrq r s
  | .queueDelete r => Sys2Proof.Machine.execQueueDelete r s
  | .contextBindHart r => Sys2Proof.Machine.execContextBindHart r s
  | .twinJoin r => Sys2Proof.Machine.execTwinJoin r s
  | .twinSplit r => Sys2Proof.Machine.execTwinSplit r s
  | .contextSetDebug r => Sys2Proof.Machine.execContextSetDebug r s
  | .contextStashReserve r => Sys2Proof.Machine.execContextStashReserve r s
  | .contextStashRelease r => Sys2Proof.Machine.execContextStashRelease r s
  | .contextQuery r => Sys2Proof.Machine.execContextQuery r s
  | .sliceSet r => Sys2Proof.Machine.execSliceSet r s
  | .sliceEpoch r => Sys2Proof.Machine.execSliceEpoch r s
  | .sliceWindow r => Sys2Proof.Machine.execSliceWindow r s
  | .sliceRelease r => Sys2Proof.Machine.execSliceRelease r s
  | .contextBindSlice r => Sys2Proof.Machine.execContextBindSlice r s
  | .convoyAbort r => Sys2Proof.Machine.execConvoyAbort r s
  | .scheduleWrite r => Sys2Proof.Machine.execScheduleWrite r s
  | .scheduleClear r => Sys2Proof.Machine.execScheduleClear r s
  | .scheduleRead r => Sys2Proof.Machine.execScheduleRead r s
  | .sievePackCommit r => Sys2Proof.Machine.execSievePackCommit r s
  | .sievePolicy r => Sys2Proof.Machine.execSievePolicy r s
  | .sieveRunNow r => Sys2Proof.Machine.execSieveRunNow r s
  | .sieveQuery r => Sys2Proof.Machine.execSieveQuery r s
  | .taintRead r => Sys2Proof.Machine.execTaintRead r s
  | .taintClear r => Sys2Proof.Machine.execTaintClear r s
  | .tallyQuery r => Sys2Proof.Machine.execTallyQuery r s
  | .hoardConfig r => Sys2Proof.Machine.execHoardConfig r s
  | .hoardSnapshot r => Sys2Proof.Machine.execHoardSnapshot r s
  | .hoardReadPoint ctx => Sys2Proof.Machine.execHoardReadPoint ctx s
  | .hoardCopyCommit ctx => Sys2Proof.Machine.execHoardCopyCommit ctx s
  | .hoardRestore r => Sys2Proof.Machine.execHoardRestore r s
  | .spareFill r => Sys2Proof.Machine.execSpareFill r s
  | .spareFillDone ctx => Sys2Proof.Machine.execSpareFillDone ctx s
  | .cellarWrite r => Sys2Proof.Machine.execCellarWrite r s
  | .cellarRead r => Sys2Proof.Machine.execCellarRead r s
  | .cellarDone port failed blocks => Sys2Proof.Machine.execCellarDone port failed blocks s
  | .seedStreamSet r => Sys2Proof.Machine.execSeedStreamSet r s
  | .seedStreamGet r => Sys2Proof.Machine.execSeedStreamGet r s
  | .dataCursorSet r => Sys2Proof.Machine.execDataCursorSet r s
  | .dataCursorGet r => Sys2Proof.Machine.execDataCursorGet r s
  | .contextReset r => Sys2Proof.Machine.execContextReset r s
  | .contextResetDone ctx => Sys2Proof.Machine.execContextResetDone ctx s
  | .engineReset r => Sys2Proof.Machine.execEngineReset r s
  | .engineResetEnd eng patterns => Sys2Proof.Machine.execEngineResetEnd eng patterns s
  | .dieReset r => Sys2Proof.Machine.execDieReset r s
  | .dieResetEnd die patterns cacheLost => Sys2Proof.Machine.execDieResetEnd die patterns cacheLost s
  | .moduleRecover r => Sys2Proof.Machine.execModuleRecover r s
  | .moduleRecovery lostStacks patterns => Sys2Proof.Machine.execModuleRecovery lostStacks patterns s
  | .resetEscalated level unit => Sys2Proof.Machine.execResetEscalated level unit s
  | .switchover r => Sys2Proof.Machine.execSwitchover r s
  | .faultRecordRead r => Sys2Proof.Machine.execFaultRecordRead r s
  | .memClear r => Sys2Proof.Machine.execMemClear r s
  | .oosQuery r => Sys2Proof.Machine.execOosQuery r s
  | .oosLatchClear r => Sys2Proof.Machine.execOosLatchClear r s
  | .ledgerStatus r => Sys2Proof.Machine.execLedgerStatus r s
  | .ledgerRead r => Sys2Proof.Machine.execLedgerRead r s
  | .ledgerAppend r => Sys2Proof.Machine.execLedgerAppend r s
  | .ledgerSubscribe r => Sys2Proof.Machine.execLedgerSubscribe r s
  | .counterSelect r => Sys2Proof.Machine.execCounterSelect r s
  | .counterRead r => Sys2Proof.Machine.execCounterRead r s
  | .liveCounterRead r => Sys2Proof.Machine.execLiveCounterRead r s
  | .watchDefine r => Sys2Proof.Machine.execWatchDefine r s
  | .watchDigest r => Sys2Proof.Machine.execWatchDigest r s
  | .watchRemove r => Sys2Proof.Machine.execWatchRemove r s
  | .timeStepAdvance r => Sys2Proof.Machine.execTimeStepAdvance r s
  | .timePhaseAdvance r => Sys2Proof.Machine.execTimePhaseAdvance r s
  | .timeStepSet r => Sys2Proof.Machine.execTimeStepSet r s
  | .timeAcceptCorrection r => Sys2Proof.Machine.execTimeAcceptCorrection r s
  | .timeConfigure r => Sys2Proof.Machine.execTimeConfigure r s
  | .timeQuery r => Sys2Proof.Machine.execTimeQuery r s
  | .tollTagQuery r => Sys2Proof.Machine.execTollTagQuery r s
  | .tollManifestRead r => Sys2Proof.Machine.execTollManifestRead r s
  | .tollRecordRead r => Sys2Proof.Machine.execTollRecordRead r s
  | .tollKeyRead r => Sys2Proof.Machine.execTollKeyRead r s
  | .tollKeyRotate r => Sys2Proof.Machine.execTollKeyRotate r s
  | .calRead r => Sys2Proof.Machine.execCalRead r s
  | .calCommit r => Sys2Proof.Machine.execCalCommit r s
  | .calHash r => Sys2Proof.Machine.execCalHash r s
  | .stageWrite r => Sys2Proof.Machine.execStageWrite r s
  | .stageReset r => Sys2Proof.Machine.execStageReset r s
  | .fwCommit r => Sys2Proof.Machine.execFwCommit r s
  | .clampCommit r => Sys2Proof.Machine.execClampCommit r s
  | .fwInfo r => Sys2Proof.Machine.execFwInfo r s
  | .fwRestartStandby r => Sys2Proof.Machine.execFwRestartStandby r s
  | .powerSetDie r => Sys2Proof.Machine.execPowerSetDie r s
  | .powerCap r => Sys2Proof.Machine.execPowerCap r s
  | .powerQuery r => Sys2Proof.Machine.execPowerQuery r s
  | .linkEnable r => Sys2Proof.Machine.execLinkEnable r s
  | .linkRetrain r => Sys2Proof.Machine.execLinkRetrain r s
  | .linkRemap r => Sys2Proof.Machine.execLinkRemap r s
  | .linkQuery r => Sys2Proof.Machine.execLinkQuery r s
  | .routeConfig r => Sys2Proof.Machine.execRouteConfig r s
  | .circuitRouteSet r => Sys2Proof.Machine.execCircuitRouteSet r s
  | .spdmExchange r => Sys2Proof.Machine.execSpdmExchange r s
  | .certRead r => Sys2Proof.Machine.execCertRead r s
  | .lgAppendGo init ctd value => Sys2Proof.Machine.execLgAppendGo init ctd value s
  | .repeatWindowClose ctd seq => Sys2Proof.Machine.execRepeatWindowClose ctd seq s
  | .flashMirrorWrite ctd seq ok flashStatus => Sys2Proof.Machine.execFlashMirrorWrite ctd seq ok flashStatus s
  | .lgWinCursorWrite init ctd w width upper value => Sys2Proof.Machine.execLgWinCursorWrite init ctd w width upper value s
  | .lgWinLatchDone ctd w => Sys2Proof.Machine.execLgWinLatchDone ctd w s
  | .sieveRunStart eng => Sys2Proof.Machine.execSieveRunStart eng s
  | .sieveRunEnd eng patterns => Sys2Proof.Machine.execSieveRunEnd eng patterns s
  | .sieveAgeCheck => Sys2Proof.Machine.execSieveAgeCheck s
  | .tallyDecay => Sys2Proof.Machine.execTallyDecay s
  | .heartbeatCheck die beats => Sys2Proof.Machine.execHeartbeatCheck die beats s
  | .railSample sample => Sys2Proof.Machine.execRailSample sample s
  | .tagClosePoint tag => Sys2Proof.Machine.execTagClosePoint tag s
  | .manifestForced => Sys2Proof.Machine.execManifestForced s
  | .tollManifestClosed => Sys2Proof.Machine.execTollManifestClosed s
  | .tlWinIndexWrite init ctd w value => Sys2Proof.Machine.execTlWinIndexWrite init ctd w value s
  | .powerOnReset cause => Sys2Proof.Machine.execPowerOnReset cause s
  | .romCaravanImageComplete => Sys2Proof.Machine.execRomCaravanImageComplete s
  | .inputTrip kind => Sys2Proof.Machine.execInputTrip kind s
  | .modRstNLow => Sys2Proof.Machine.execModRstNLow s
  | .junctionSample die tempMilliC => Sys2Proof.Machine.execJunctionSample die tempMilliC s
  | .thermAlertRelease => Sys2Proof.Machine.execThermAlertRelease s
  | .i3cEntdaa addr => Sys2Proof.Machine.execI3cEntdaa addr s
  | .i3cPrivateWrite bytes => Sys2Proof.Machine.execI3cPrivateWrite bytes s
  | .i3cPrivateRead count => Sys2Proof.Machine.execI3cPrivateRead count s
  | .laneLock port failedLanes => Sys2Proof.Machine.execLaneLock port failedLanes s
  | .mgmtBlockLock up => Sys2Proof.Machine.execMgmtBlockLock up s
  | .cellarDevice port event nvmeStatus nsid nss => Sys2Proof.Machine.execCellarDevice port event nvmeStatus nsid nss s
  | .csrRcRead init addr width hwSet => Sys2Proof.Machine.execCsrRcRead init addr width hwSet s
  | .flashCommitDone ok => Sys2Proof.Machine.execFlashCommitDone ok s
  | .watchDigestDone ctx handle flips => Sys2Proof.Machine.execWatchDigestDone ctx handle flips s
  | .tollKeyRotated => Sys2Proof.Machine.execTollKeyRotated s
  | .spdmResponseDone => Sys2Proof.Machine.execSpdmResponseDone s
  | .contextReleaseDone ctx => Sys2Proof.Machine.execContextReleaseDone ctx s
  | .memClearDone => Sys2Proof.Machine.execMemClearDone s

end Sys2Proof.Machine
end

