-- ==== Sys2Proof/WellFormed.lean ====
section
/-! DEFINITION. Which commands the outside world can send: the widths, lengths and ranges that the manual's formats and units admit.
A value that the manual gives an answer of its own, such as a reserved field or a bad argument, is well formed. -/

namespace Sys2Proof

/-- The argument words of a Darid command (R321). -/
def DReq.wf (r : DReq) : Bool := r.args.length ≤ 1024

/-- Widths of a bus access; those that R14 does not permit are answered UNMAPPED. -/
def busWidth (w : Nat) : Bool := w == 8 || w == 16 || w == 32 || w == 64

/-- A 64-bit access, or a 32-bit one to either half (R14). -/
def halfWf (w : Nat) (upper : Bool) : Bool := w == 32 || (w == 64 && !upper)

/-- A memory access lies in one 64-byte line; an atomic is aligned (R35, R109). -/
def AccessOp.wf (op : AccessOp) (addr : Nat) : Bool :=
  let inLine := fun (n : Nat) => decide (1 ≤ n) && decide (addr % 64 + n ≤ 64)
  match op with
  | .load n => inLine n
  | .store b => inLine b.length
  | .amo _ w64 _ _ => addr % (if w64 then 8 else 4) == 0

/-- Damaged lines are lines of memory or tile store, each named once (R185, R189). -/
def flipsWf (l : List LineFlip) : Bool :=
  l.all (fun f => f.line < 0x16800000000 / 64 + 4 * 0xC000000 / 64) && decide (l.map (·.line)).Nodup

/-- Damaged result words lie in a tile of one ME or a pair (R117, R137). -/
def errsWf (l : List WordFlip) : Bool := l.all fun e => e.row < 32 && e.col < 64

/-- A packet on the wire: a payload of LEN bytes but for a GET, which carries none; a husk mask only where HM says so (R220, R222). -/
def Packet.wf (k : Packet) : Bool :=
  (if k.ptype == 2 then k.payload.isEmpty else k.payload.length == k.len.toNat) && decide (k.payload.length ≤ 4096) &&
    (k.hm || k.mask == 0)

/-- A segment's kind, number and step (R267). -/
def segWf (skind : Fin 16) (seg step : Nat) : Bool := skind.val != 3 && seg < 2 ^ 40 && step < 2 ^ 16

/-- A frame's IPv4 payload fits an Ethernet frame (R486). -/
def MgmtFrame.wf : MgmtFrame → Bool
  | .ipv4 _ _ _ _ _ _ payload => payload.length ≤ 1480
  | _ => true

/-- A logical block of 4 KiB (R442). -/
def NvmeBlock.wf (b : NvmeBlock) : Bool := b.data.all fun d => d.length == 4096

/-- A pattern that passed is not rerun (R379). -/
def PatternResult.wf (p : PatternResult) : Bool := p.pattern < 4096 && p.sigId < 2 ^ 32 && (p.fail || !(p.rerun1 || p.rerun2))

/-- The unit of a reset level (R416). -/
def ResetLevel.unitWf (l : ResetLevel) (unit : Nat) : Bool :=
  match l with
  | .context => unit < 256
  | .engine => unit < 112
  | .die => unit < 4
  | .module => unit == 0

/-- The rails and temperatures of a sample (R452, R353), and tags, contexts, units and dies in range. -/
def RailSample.wf (x : RailSample) : Bool :=
  x.rails.length == 11 && x.temps.length == 5 && x.tagCycles.all (fun e => e.1 < 4096 && e.2.1 < 4 && e.2.2.1 < 36) &&
    x.ctxCycles.all (fun e => e.1 < 256 && e.2.1 < 4 && e.2.2.1 < 36) && x.modCycles.all (fun e => e.1 < 4 && e.2.1 < 36) &&
    x.tagBytes.all (fun e => e.1 < 4096 && e.2.1 < 3) && x.tagFlits.all (fun e => e.1 < 4096 && e.2.1 < 5) &&
    x.ctxBytes.all (fun e => e.1 < 256 && e.2.1 < 3) && x.ctxFlits.all (fun e => e.1 < 256 && e.2.1 < 5) &&
    x.modBytes.all (fun e => e.1 < 3) && x.modFlits.all (fun e => e.1 < 5)

/-- Well-formed commands. -/
def Instr.wf (i : Instr) : Bool :=
  match i with
  | .csrRegisterWrite _ _ width _ => busWidth width
  | .hostMemoryAccess _ op addr flips => op.wf addr.toNat && flipsWf flips
  | .modIdWrite _ _ => true
  | .modOptSpareWrite _ _ => true
  | .ringEdgeDown _ => true
  | .ringEdgeUp _ => true
  | .diagPathSwitch _ => true
  | .timeBusFrame _ => true
  | .holdoverEntry _ => true
  | .ptpMessageReceive _ => true
  | .podOffsetMeasured offset _ => decide (-2 ^ 63 ≤ offset) && decide (offset < 2 ^ 63)
  | .podLockLost => true
  | .ppsInEdge => true
  | .ppsInFault => true
  | .ppsOutRise => true
  | .ppsOutFall => true
  | .timestampRequestSend => true
  | .timestampRequestReceive _ _ => true
  | .timestampResponseReceive _ _ => true
  | .tbTsqPop _ _ _ width upper => halfWf width upper
  | .scheduleArm _ => true
  | .scheduleFire _ => true
  | .tensorDumpDone _ flips => flipsWf flips
  | .qTailDoorbell _ _ _ => true
  | .qCtrlResume _ _ _ => true
  | .descriptorFetch _ flips => flipsWf flips
  | .descriptorComplete _ _ flips => flipsWf flips
  | .deSemValueWrite _ _ => true
  | .deSemAddWrite _ _ => true
  | .meTileDone _ _ _ tile _ err1 err2 flips => decide (tile < 2 ^ 32) && errsWf err1 && errsWf err2 && flipsWf flips
  | .checkerVerdict _ _ _ tile err flips => decide (tile < 2 ^ 32) && errsWf err && flipsWf flips
  | .arbiterVerdict _ _ _ tile err flips => decide (tile < 2 ^ 32) && errsWf err && flipsWf flips
  | .stashPassStart _ _ => true
  | .stashPassOpen _ => true
  | .stashArmWrite _ _ => true
  | .stashArmEntry _ flips => flipsWf flips
  | .stashRetireWrite _ _ => true
  | .patrolScrubStep _ flips => flipsWf flips
  | .memTrainingDone _ _ => true
  | .memInitDone _ => true
  | .memThermal _ _ => true
  | .flitTransmit _ => true
  | .flitReceive _ flit => flit.length == 256
  | .replayTimeout _ => true
  | .laneLockLoss _ => true
  | .wgRetrain _ _ _ => true
  | .identReceive _ _ => true
  | .identTimeout _ => true
  | .packetArrive _ pkt flips => pkt.wf && flipsWf flips
  | .reorderedRequestDeliver _ _ flips => flipsWf flips
  | .respReceive pkt => pkt.wf
  | .requestTimeout _ _ _ => true
  | .busyResend _ _ _ => true
  | .epochAheadResend _ _ _ => true
  | .epochWaitExpiry _ _ _ => true
  | .peerEntryRelease _ _ => true
  | .collSegReceive _ pkt => pkt.wf
  | .segAckReceive _ pkt => pkt.wf
  | .segAckTimeout _ _ skind seg step => segWf skind seg step
  | .notReadyResend _ _ skind seg step => segWf skind seg step
  | .segAheadResend _ _ skind seg step => segWf skind seg step
  | .caravanSegReceive _ pkt => pkt.wf
  | .abortReceive _ _ => true
  | .abortResend _ _ => true
  | .abortAckReceive _ _ => true
  | .convoyEntryFree _ => true
  | .leaseRenew _ _ => true
  | .leaseClaim _ _ => true
  | .leaseRelease _ _ => true
  | .leaseOpen _ _ => true
  | .leaseExpiry => true
  | .leaseGuardEnd => true
  | .ctdWdogKick _ _ _ => true
  | .ctdWdogExpired _ => true
  | .holderResetRelease _ _ => true
  | .standbyLeasePoll _ => true
  | .switchoverGapTimeout => true
  | .mirrorCheck _ _ _ => true
  | .resyncCopyDone _ => true
  | .standbySelfTest _ _ _ _ => true
  | .standbyHealth _ _ _ => true
  | .powerLimiterSample avgPowerW avgCurrentDA => decide (avgPowerW < 2 ^ 16) && decide (avgCurrentDA < 2 ^ 16)
  | .mbTxWordWrite _ _ _ _ _ => true
  | .mbTxCommit _ _ _ _ => true
  | .mbPop _ _ => true
  | .mbUpPlace _ _ => true
  | .mbRxPop _ _ _ => true
  | .mgmtDatagramReceive _ _ payload => decide (payload.length ≤ 1472)
  | .mgmtPacketReceive _ payload => decide (1 ≤ payload.length) && decide (payload.length ≤ 256)
  | .channelBindingExpiry ch => decide (256 ≤ ch.val) && decide (ch.val < 416)
  | .fragmentTimeout _ _ => true
  | .mgmtFrameReceive frame => frame.wf
  | .invCaps r => r.wf
  | .invDie r => r.wf
  | .invStack r => r.wf
  | .invOptical r => r.wf
  | .invCtd r => r.wf
  | .invSetId r => r.wf
  | .invSetSpare r => r.wf
  | .channelRelease r => r.wf
  | .contextCreate r => r.wf
  | .contextRelease r => r.wf
  | .contextGrant r => r.wf
  | .contextRevoke r => r.wf
  | .queueCreate r => r.wf
  | .queueSetIrq r => r.wf
  | .queueDelete r => r.wf
  | .contextBindHart r => r.wf
  | .twinJoin r => r.wf
  | .twinSplit r => r.wf
  | .contextSetDebug r => r.wf
  | .contextStashReserve r => r.wf
  | .contextStashRelease r => r.wf
  | .contextQuery r => r.wf
  | .sliceSet r => r.wf
  | .sliceEpoch r => r.wf
  | .sliceWindow r => r.wf
  | .sliceRelease r => r.wf
  | .contextBindSlice r => r.wf
  | .convoyAbort r => r.wf
  | .scheduleWrite r => r.wf
  | .scheduleClear r => r.wf
  | .scheduleRead r => r.wf
  | .sievePackCommit r => r.wf
  | .sievePolicy r => r.wf
  | .sieveRunNow r => r.wf
  | .sieveQuery r => r.wf
  | .taintRead r => r.wf
  | .taintClear r => r.wf
  | .tallyQuery r => r.wf
  | .hoardConfig r => r.wf
  | .hoardSnapshot r => r.wf
  | .hoardReadPoint _ => true
  | .hoardCopyCommit _ => true
  | .hoardRestore r => r.wf
  | .spareFill r => r.wf
  | .spareFillDone _ => true
  | .cellarWrite r => r.wf
  | .cellarRead r => r.wf
  | .cellarDone _ _ blocks => blocks.all NvmeBlock.wf
  | .seedStreamSet r => r.wf
  | .seedStreamGet r => r.wf
  | .dataCursorSet r => r.wf
  | .dataCursorGet r => r.wf
  | .contextReset r => r.wf
  | .contextResetDone _ => true
  | .engineReset r => r.wf
  | .engineResetEnd _ patterns => patterns.all PatternResult.wf
  | .dieReset r => r.wf
  | .dieResetEnd _ patterns lost =>
    (patterns.all fun p => decide (p.1 < 112) && p.2.all PatternResult.wf) && decide lost.Nodup
  | .moduleRecover r => r.wf
  | .moduleRecovery _ patterns => patterns.all fun p => decide (p.1 < 112) && p.2.all PatternResult.wf
  | .resetEscalated level unit => level.unitWf unit
  | .switchover r => r.wf
  | .faultRecordRead r => r.wf
  | .memClear r => r.wf
  | .oosQuery r => r.wf
  | .oosLatchClear r => r.wf
  | .ledgerStatus r => r.wf
  | .ledgerRead r => r.wf
  | .ledgerAppend r => r.wf
  | .ledgerSubscribe r => r.wf
  | .counterSelect r => r.wf
  | .counterRead r => r.wf
  | .liveCounterRead r => r.wf
  | .watchDefine r => r.wf
  | .watchDigest r => r.wf
  | .watchRemove r => r.wf
  | .timeStepAdvance r => r.wf
  | .timePhaseAdvance r => r.wf
  | .timeStepSet r => r.wf
  | .timeAcceptCorrection r => r.wf
  | .timeConfigure r => r.wf
  | .timeQuery r => r.wf
  | .tollTagQuery r => r.wf
  | .tollManifestRead r => r.wf
  | .tollRecordRead r => r.wf
  | .tollKeyRead r => r.wf
  | .tollKeyRotate r => r.wf
  | .calRead r => r.wf
  | .calCommit r => r.wf
  | .calHash r => r.wf
  | .stageWrite r => r.wf
  | .stageReset r => r.wf
  | .fwCommit r => r.wf
  | .clampCommit r => r.wf
  | .fwInfo r => r.wf
  | .fwRestartStandby r => r.wf
  | .powerSetDie r => r.wf
  | .powerCap r => r.wf
  | .powerQuery r => r.wf
  | .linkEnable r => r.wf
  | .linkRetrain r => r.wf
  | .linkRemap r => r.wf
  | .linkQuery r => r.wf
  | .routeConfig r => r.wf
  | .circuitRouteSet r => r.wf
  | .spdmExchange r => r.wf
  | .certRead r => r.wf
  | .lgAppendGo _ _ _ => true
  | .repeatWindowClose _ _ => true
  | .flashMirrorWrite _ _ _ _ => true
  | .lgWinCursorWrite _ _ _ width upper _ => halfWf width upper
  | .lgWinLatchDone _ _ => true
  | .sieveRunStart _ => true
  | .sieveRunEnd _ patterns => patterns.all PatternResult.wf
  | .sieveAgeCheck => true
  | .tallyDecay => true
  | .heartbeatCheck _ beats => beats.all fun b => decide (b.1 < 16384)
  | .railSample sample => sample.wf
  | .tagClosePoint _ => true
  | .manifestForced => true
  | .tollManifestClosed => true
  | .tlWinIndexWrite _ _ _ _ => true
  | .powerOnReset cause => decide (1 ≤ cause.val) && decide (cause.val ≤ 6)
  | .romCaravanImageComplete => true
  | .inputTrip _ => true
  | .modRstNLow => true
  | .junctionSample _ tempMilliC => decide (-273150 ≤ tempMilliC) && decide (tempMilliC < 1000000)
  | .thermAlertRelease => true
  | .i3cEntdaa _ => true
  | .i3cPrivateWrite _ => true
  | .i3cPrivateRead _ => true
  | .laneLock _ _ => true
  | .mgmtBlockLock _ => true
  | .cellarDevice _ _ _ _ nss => nss.all fun n => decide (n.1 < 2 ^ 32)
  | .csrRcRead _ _ width _ => busWidth width
  | .flashCommitDone _ => true
  | .watchDigestDone _ _ flips => flipsWf flips
  | .tollKeyRotated => true
  | .spdmResponseDone => true
  | .contextReleaseDone _ => true
  | .memClearDone => true

/-- The Darid command a command is, if it is one. -/
def Instr.dreq? (i : Instr) : Option DReq :=
  match i with
  | .csrRegisterWrite _ _ _ _ => none
  | .hostMemoryAccess _ _ _ _ => none
  | .modIdWrite _ _ => none
  | .modOptSpareWrite _ _ => none
  | .ringEdgeDown _ => none
  | .ringEdgeUp _ => none
  | .diagPathSwitch _ => none
  | .timeBusFrame _ => none
  | .holdoverEntry _ => none
  | .ptpMessageReceive _ => none
  | .podOffsetMeasured _ _ => none
  | .podLockLost => none
  | .ppsInEdge => none
  | .ppsInFault => none
  | .ppsOutRise => none
  | .ppsOutFall => none
  | .timestampRequestSend => none
  | .timestampRequestReceive _ _ => none
  | .timestampResponseReceive _ _ => none
  | .tbTsqPop _ _ _ _ _ => none
  | .scheduleArm _ => none
  | .scheduleFire _ => none
  | .tensorDumpDone _ _ => none
  | .qTailDoorbell _ _ _ => none
  | .qCtrlResume _ _ _ => none
  | .descriptorFetch _ _ => none
  | .descriptorComplete _ _ _ => none
  | .deSemValueWrite _ _ => none
  | .deSemAddWrite _ _ => none
  | .meTileDone _ _ _ _ _ _ _ _ => none
  | .checkerVerdict _ _ _ _ _ _ => none
  | .arbiterVerdict _ _ _ _ _ _ => none
  | .stashPassStart _ _ => none
  | .stashPassOpen _ => none
  | .stashArmWrite _ _ => none
  | .stashArmEntry _ _ => none
  | .stashRetireWrite _ _ => none
  | .patrolScrubStep _ _ => none
  | .memTrainingDone _ _ => none
  | .memInitDone _ => none
  | .memThermal _ _ => none
  | .flitTransmit _ => none
  | .flitReceive _ _ => none
  | .replayTimeout _ => none
  | .laneLockLoss _ => none
  | .wgRetrain _ _ _ => none
  | .identReceive _ _ => none
  | .identTimeout _ => none
  | .packetArrive _ _ _ => none
  | .reorderedRequestDeliver _ _ _ => none
  | .respReceive _ => none
  | .requestTimeout _ _ _ => none
  | .busyResend _ _ _ => none
  | .epochAheadResend _ _ _ => none
  | .epochWaitExpiry _ _ _ => none
  | .peerEntryRelease _ _ => none
  | .collSegReceive _ _ => none
  | .segAckReceive _ _ => none
  | .segAckTimeout _ _ _ _ _ => none
  | .notReadyResend _ _ _ _ _ => none
  | .segAheadResend _ _ _ _ _ => none
  | .caravanSegReceive _ _ => none
  | .abortReceive _ _ => none
  | .abortResend _ _ => none
  | .abortAckReceive _ _ => none
  | .convoyEntryFree _ => none
  | .leaseRenew _ _ => none
  | .leaseClaim _ _ => none
  | .leaseRelease _ _ => none
  | .leaseOpen _ _ => none
  | .leaseExpiry => none
  | .leaseGuardEnd => none
  | .ctdWdogKick _ _ _ => none
  | .ctdWdogExpired _ => none
  | .holderResetRelease _ _ => none
  | .standbyLeasePoll _ => none
  | .switchoverGapTimeout => none
  | .mirrorCheck _ _ _ => none
  | .resyncCopyDone _ => none
  | .standbySelfTest _ _ _ _ => none
  | .standbyHealth _ _ _ => none
  | .powerLimiterSample _ _ => none
  | .mbTxWordWrite _ _ _ _ _ => none
  | .mbTxCommit _ _ _ _ => none
  | .mbPop _ _ => none
  | .mbUpPlace _ _ => none
  | .mbRxPop _ _ _ => none
  | .mgmtDatagramReceive _ _ _ => none
  | .mgmtPacketReceive _ _ => none
  | .channelBindingExpiry _ => none
  | .fragmentTimeout _ _ => none
  | .mgmtFrameReceive _ => none
  | .invCaps r => some r
  | .invDie r => some r
  | .invStack r => some r
  | .invOptical r => some r
  | .invCtd r => some r
  | .invSetId r => some r
  | .invSetSpare r => some r
  | .channelRelease r => some r
  | .contextCreate r => some r
  | .contextRelease r => some r
  | .contextGrant r => some r
  | .contextRevoke r => some r
  | .queueCreate r => some r
  | .queueSetIrq r => some r
  | .queueDelete r => some r
  | .contextBindHart r => some r
  | .twinJoin r => some r
  | .twinSplit r => some r
  | .contextSetDebug r => some r
  | .contextStashReserve r => some r
  | .contextStashRelease r => some r
  | .contextQuery r => some r
  | .sliceSet r => some r
  | .sliceEpoch r => some r
  | .sliceWindow r => some r
  | .sliceRelease r => some r
  | .contextBindSlice r => some r
  | .convoyAbort r => some r
  | .scheduleWrite r => some r
  | .scheduleClear r => some r
  | .scheduleRead r => some r
  | .sievePackCommit r => some r
  | .sievePolicy r => some r
  | .sieveRunNow r => some r
  | .sieveQuery r => some r
  | .taintRead r => some r
  | .taintClear r => some r
  | .tallyQuery r => some r
  | .hoardConfig r => some r
  | .hoardSnapshot r => some r
  | .hoardReadPoint _ => none
  | .hoardCopyCommit _ => none
  | .hoardRestore r => some r
  | .spareFill r => some r
  | .spareFillDone _ => none
  | .cellarWrite r => some r
  | .cellarRead r => some r
  | .cellarDone _ _ _ => none
  | .seedStreamSet r => some r
  | .seedStreamGet r => some r
  | .dataCursorSet r => some r
  | .dataCursorGet r => some r
  | .contextReset r => some r
  | .contextResetDone _ => none
  | .engineReset r => some r
  | .engineResetEnd _ _ => none
  | .dieReset r => some r
  | .dieResetEnd _ _ _ => none
  | .moduleRecover r => some r
  | .moduleRecovery _ _ => none
  | .resetEscalated _ _ => none
  | .switchover r => some r
  | .faultRecordRead r => some r
  | .memClear r => some r
  | .oosQuery r => some r
  | .oosLatchClear r => some r
  | .ledgerStatus r => some r
  | .ledgerRead r => some r
  | .ledgerAppend r => some r
  | .ledgerSubscribe r => some r
  | .counterSelect r => some r
  | .counterRead r => some r
  | .liveCounterRead r => some r
  | .watchDefine r => some r
  | .watchDigest r => some r
  | .watchRemove r => some r
  | .timeStepAdvance r => some r
  | .timePhaseAdvance r => some r
  | .timeStepSet r => some r
  | .timeAcceptCorrection r => some r
  | .timeConfigure r => some r
  | .timeQuery r => some r
  | .tollTagQuery r => some r
  | .tollManifestRead r => some r
  | .tollRecordRead r => some r
  | .tollKeyRead r => some r
  | .tollKeyRotate r => some r
  | .calRead r => some r
  | .calCommit r => some r
  | .calHash r => some r
  | .stageWrite r => some r
  | .stageReset r => some r
  | .fwCommit r => some r
  | .clampCommit r => some r
  | .fwInfo r => some r
  | .fwRestartStandby r => some r
  | .powerSetDie r => some r
  | .powerCap r => some r
  | .powerQuery r => some r
  | .linkEnable r => some r
  | .linkRetrain r => some r
  | .linkRemap r => some r
  | .linkQuery r => some r
  | .routeConfig r => some r
  | .circuitRouteSet r => some r
  | .spdmExchange r => some r
  | .certRead r => some r
  | .lgAppendGo _ _ _ => none
  | .repeatWindowClose _ _ => none
  | .flashMirrorWrite _ _ _ _ => none
  | .lgWinCursorWrite _ _ _ _ _ _ => none
  | .lgWinLatchDone _ _ => none
  | .sieveRunStart _ => none
  | .sieveRunEnd _ _ => none
  | .sieveAgeCheck => none
  | .tallyDecay => none
  | .heartbeatCheck _ _ => none
  | .railSample _ => none
  | .tagClosePoint _ => none
  | .manifestForced => none
  | .tollManifestClosed => none
  | .tlWinIndexWrite _ _ _ _ => none
  | .powerOnReset _ => none
  | .romCaravanImageComplete => none
  | .inputTrip _ => none
  | .modRstNLow => none
  | .junctionSample _ _ => none
  | .thermAlertRelease => none
  | .i3cEntdaa _ => none
  | .i3cPrivateWrite _ => none
  | .i3cPrivateRead _ => none
  | .laneLock _ _ => none
  | .mgmtBlockLock _ => none
  | .cellarDevice _ _ _ _ _ => none
  | .csrRcRead _ _ _ _ => none
  | .flashCommitDone _ => none
  | .watchDigestDone _ _ _ => none
  | .tollKeyRotated => none
  | .spdmResponseDone => none
  | .contextReleaseDone _ => none
  | .memClearDone => none

end Sys2Proof
end

