-- ==== Sys2Proof/Safety.lean ====
section
/-! DEFINITION. What counts as a good state and a safe run, and the words that claims are stated in. -/

namespace Sys2Proof.Machine

/-- Main memory and the tile stores are in canonical form. -/
def State.memWf (s : State) : Bool := s.mem.main.wf && s.mem.store.wf

/-- Every waiting command is well formed. -/
def State.queueWf (s : State) : Bool := s.pending.all Instr.wf

/-- The invariant that every step keeps: both memories canonical, every waiting command well formed. -/
def State.Inv (s : State) : Prop := s.memWf = true ∧ s.queueWf = true

/-- One step can neither fault nor be refused here. -/
def State.Safe (s : State) : Prop := ∃ t, step s = .next t

/-- A Darid command reaches the serving CTD, outside ROM recovery and with the out-of-service latch clear, on a channel whose
last command is answered and another one (R308, R324, R326, R330, R478). -/
def State.ready (s : State) (op : Nat) (r : DReq) : Bool :=
  s.carriesOut r.ctd.val && s.serving == some r.ctd.val && !s.inRom r.ctd.val && !s.ctd.nv.latched &&
    (match (s.chan r.ctd.val r.ch.val).cache with
      | none => true
      | some (o, q, fin) => fin.isSome && !(o == op && q == r.seq.toNat))

/-- A command that is ready and whose channel belongs to one of the kinds of sender the command is served to (R312, R332). -/
def State.heard (s : State) (op : Nat) (ks : List Sender) (r : DReq) : Bool :=
  s.ready op r && (match senderOf r.ch.val with | some k => ks.contains k | none => false)

/-- The argument words of a command as numbers. -/
def DReq.nums (r : DReq) : List Nat := r.args.map (·.toNat)

/-- Argument word i of a command, and the 64-bit argument of words i and i + 1. -/
abbrev argOf (r : DReq) (i : Nat) : Nat := arg (DReq.nums r) i
abbrev arg64Of (r : DReq) (i : Nat) : Nat := arg64 (DReq.nums r) i

/-- The command that a response answers (R322, R325). -/
def whoOf (op : Nat) (changes : Bool) (r : DReq) (mirrored : Bool := changes) : Who :=
  { ctd := r.ctd.val, ch := r.ch.val, op := op, seq := r.seq.toNat, args := (DReq.nums r).take 4, changes := changes,
    mirrored := mirrored }

/-- What a command of the engines or of the fabric leaves whose effect is t: nothing while an access of it waits for a path change
(R21). -/
abbrev State.unlessWaits (s t : State) : State := if s.ring.change.any Option.isSome && t.waits then s else t

/-- What the overhead accounts of a window hold together. -/
def TollWindow.overheads (w : TollWindow) : Nat := (w.over_.map fun e => e.2.parts.sum).sum

/-- The energy identity of R462 inside a window: the input is the sum of the accounts and UNATTRIBUTED; the table of overheads is
in order and each account has its six parts. -/
def TollWindow.Balanced (w : TollWindow) : Prop :=
  (w.input : Int) = ((w.tags + w.overheads + w.host + w.idle + w.module_ : Nat) : Int) + w.unattr ∧
    (w.over_.map (·.1)).Pairwise (· < ·) ∧ ∀ e ∈ w.over_, e.2.parts.length = 6

/-- What a verifier who holds a leaf computes: the node of leaf i of n from the leaf and the siblings on its way up (R463; the first
argument bounds the levels). -/
def pathRoot : Nat → Nat → Nat → List Byte → List (List Byte) → List Byte
  | 0, _, _, h, _ => h
  | k + 1, n, i, h, path =>
    if n ≤ 1 then h
    else if i % 2 = 1 then pathRoot k ((n + 1) / 2) (i / 2) (sha256 (1 :: (path.headD [] ++ h))) path.tail
    else if i + 1 < n then pathRoot k ((n + 1) / 2) (i / 2) (sha256 (1 :: (h ++ path.headD []))) path.tail
    else pathRoot k ((n + 1) / 2) (i / 2) h path

end Sys2Proof.Machine
end

