-- ==== Sys2Proof/Certificates/Slice0/Obligations.lean ====
section
/-! DEFINITION. The statements for the provers: one proposition per obligation of OBLIGATIONS.json. Statements about commands of
Darid speak of a ready channel (Safety). -/

open Sys2Proof Sys2Proof.Machine

/-- R342, R348, R366: the Ledger's registers. R344, R346: the end of a repeat window and of a flash mirror write.
Completion is stated of: LG_APPEND_GO, REPEAT_WINDOW_CLOSE, FLASH_MIRROR_WRITE, LG_WIN_CURSOR_WRITE,
LG_WIN_LATCH_DONE. -/
def Obligations.LedgerRegisters : Prop :=
  (∀ (s : State) (n : Fin 2) (v : BitVec 32), s.ctdGate n = .none → v.getLsbD 0 = true →
    exec (.lgAppendGo (.sp n) n v) s = .next
      ((s.answer 0).logTo n (bitsOf (((s.ledger n).append.map (·.toNat)).getD 0 0) 15 0)
        (bitsOf (((s.ledger n).append.map (·.toNat)).getD 0 0) 19 16) (bitsOf (((s.ledger n).append.map (·.toNat)).getD 0 0) 31 20)
        ((((s.ledger n).append.map (·.toNat)).drop 6).take 8))) ∧
  (∀ (s : State) (h : Fin 32) (n : Fin 2) (w : Fin 4) (v : BitVec 64), s.ctdGate n = .none →
    exec (.lgWinCursorWrite (.hart h) n w 64 false v) s = .next
      ((s.answer 0).setWin n w fun x => { x with cursor := v, busy := true, valid := false, fin := false })) ∧
  (∀ (s : State) (n : Fin 2) (w : Fin 4) (r : Rec), ((s.ledger n).wins.getD w {}).busy = true →
    nextRec (if ((s.ledger n).wins.getD w {}).src then (s.ledger n).flash else (s.ledger n).ram)
      ((s.ledger n).wins.getD w {}).cursor.toNat = some r →
    exec (.lgWinLatchDone n w) s = .next
      (s.setWin n w fun x => { x with busy := false, valid := true, fin := false, words := r.words })) ∧
  (∀ (s : State) (n : Fin 2) (w : Fin 4), ((s.ledger n).wins.getD w {}).busy = true →
    nextRec (if ((s.ledger n).wins.getD w {}).src then (s.ledger n).flash else (s.ledger n).ram)
      ((s.ledger n).wins.getD w {}).cursor.toNat = none →
    exec (.lgWinLatchDone n w) s = .next (s.setWin n w fun x => { x with busy := false, valid := false, fin := true })) ∧
(∀ (s : State) (n : Fin 2) (q : BitVec 64) (r : Rec), (s.ledger n).find q.toNat = some r → r.closed = false → r.rep = 0 →
    r.born + 1000000000 ≤ s.time.mono →
    exec (.repeatWindowClose n q) s = .next (s.setLedger n fun l =>
      { l with
        ram := l.ram.map fun x => if x.seq = q.toNat then { x with closed := true } else x
        newest := l.newest.map fun x => if x.seq = q.toNat then { x with closed := true } else x })) ∧
  (∀ (s : State) (n : Fin 2) (q : BitVec 64) (w : BitVec 32) (r : Rec) (att due : Nat),
    (s.ledger n).owed.find? (fun e => e.1.seq == q.toNat) = some (r, att, due) → due ≤ s.time.mono →
    s.mbox.stage.recovered = none →
    exec (.flashMirrorWrite n q true w) s = .next (s.setLedger n fun l =>
      ({ l with owed := l.owed.eraseIdx (l.owed.findIdx fun e => e.1.seq == q.toNat) } : Ledger).toFlash
        (((s.ledger n).ram.find? (·.seq == r.seq)).getD r) |>.durable)) ∧
  (∀ (s : State) (n : Fin 2) (q : BitVec 64) (w : BitVec 32) (r : Rec) (due : Nat),
    (s.ledger n).owed.find? (fun e => e.1.seq == q.toNat) = some (r, 1, due) → due ≤ s.time.mono →
    s.mbox.stage.recovered = none →
    exec (.flashMirrorWrite n q false w) s = .next ((s.setLedger n fun l =>
      { l with owed := l.owed.eraseIdx (l.owed.findIdx fun e => e.1.seq == q.toNat) ++
          [(((s.ledger n).ram.find? (·.seq == r.seq)).getD r, 2, s.time.mono + 100000000)] }).logTo n 0x0801 5 (512 + n)
        (lohi (((s.ledger n).ram.find? (·.seq == r.seq)).getD r).seq ++ [w.toNat, 1])))

/-- R323, R350: the commands 0x0801 to 0x0804. Completion is stated of: LEDGER_STATUS, LEDGER_READ, LEDGER_APPEND,
LEDGER_SUBSCRIBE. -/
def Obligations.LedgerCommands : Prop :=
  (∀ (r : DReq) (s : State), s.heard 0x0801 [.c, .m, .f] r = true → r.args.length = 0 →
    exec (.ledgerStatus r) s = .next (answerDarid (whoOf 0x0801 false r)
      { s := s
        words := lohi (s.ledger r.ctd).oldest ++ lohi (s.ledger r.ctd).newestSeq ++ [(s.ledger r.ctd).dropped] })) ∧
  (∀ (r : DReq) (s : State), s.heard 0x0802 [.c, .m, .f] r = true → r.args.length = 3 →
    1 ≤ arg (DReq.nums r) 2 → arg (DReq.nums r) 2 ≤ 63 →
    exec (.ledgerRead r) s = .next (answerDarid (whoOf 0x0802 false r)
      { s := s
        words := (ledgerWalk (s.ledger r.ctd) (arg (DReq.nums r) 2) (arg64 (DReq.nums r) 0)).length ::
          (ledgerWalk (s.ledger r.ctd) (arg (DReq.nums r) 2) (arg64 (DReq.nums r) 0)).flatMap
            fun x => x.words.map (·.toNat) })) ∧
  (∀ (r : DReq) (s : State), s.heard 0x0803 [.c, .m, .f] r = true → r.args.length = 9 →
    0xF000 ≤ bitsOf (arg (DReq.nums r) 0) 15 0 → bitsOf (arg (DReq.nums r) 0) 18 16 ≤ 3 → arg (DReq.nums r) 0 < 2 ^ 19 →
    ∃ t, t = s.logTo r.ctd (bitsOf (arg (DReq.nums r) 0) 15 0) (bitsOf (arg (DReq.nums r) 0) 18 16) r.ch
        ((DReq.nums r).drop 1) ∧
      exec (.ledgerAppend r) s = .next (answerDarid (whoOf 0x0803 false r true)
        { s := t, words := lohi (((t.ledger r.ctd).newest.map (·.seq)).getD 0) })) ∧
  (∀ (r : DReq) (s : State), s.heard 0x0804 [.c, .m, .f] r = true → r.args.length = 1 → arg (DReq.nums r) 0 ≤ 8 →
    exec (.ledgerSubscribe r) s = .next (answerDarid (whoOf 0x0804 true r)
      { s := s.setChan r.ctd r.ch fun c => { c with sub := arg (DReq.nums r) 0 } }))

/-- R334, R470: the commands 0x0E01 to 0x0E06 and CalCommit. Completion is stated of: CAL_COMMIT, STAGE_WRITE,
STAGE_RESET, FW_COMMIT, CLAMP_COMMIT, FW_INFO, FW_RESTART_STANDBY. -/
def Obligations.StagingCommands : Prop :=
  (∀ (r : DReq) (s : State) (b : List Byte), s.heard 0x0E01 [.m] r = true → 3 ≤ r.args.length →
    1 ≤ arg (DReq.nums r) 0 → arg (DReq.nums r) 0 ≤ 4 → arg (DReq.nums r) 1 % 4 = 0 →
    (s.mbox.stage.target = none ∨ s.mbox.stage.target = some (arg (DReq.nums r) 0)) →
    b = ((DReq.nums r).drop 2).flatMap (leBytes 4) →
    arg (DReq.nums r) 1 + b.length ≤ [0, 8388608, 768, 4194304, 262144].getD (arg (DReq.nums r) 0) 0 →
    exec (.stageWrite r) s = .next (answerDarid (whoOf 0x0E01 false r)
      { s := { s with mbox := { s.mbox with stage := { s.mbox.stage with
          target := some (arg (DReq.nums r) 0)
          bytes := cellsPut s.mbox.stage.bytes (arg (DReq.nums r) 1) b
          top := max s.mbox.stage.top (arg (DReq.nums r) 1 + b.length) } } } })) ∧
  (∀ (r : DReq) (s : State), s.heard 0x0E02 [.m] r = true → r.args.length = 0 →
    exec (.stageReset r) s = .next (answerDarid (whoOf 0x0E02 true r) { s := s.stageClear })) ∧
  (∀ (r : DReq) (s : State), s.heard 0x0E03 [.m] r = true → r.args.length = 0 → s.mbox.stage.target = some 1 →
    s.mbox.stage.job = none → s.mbox.stage.recovered = none → s.stagedImage.1 = dOk → s.ctd.nv.image ≠ [] →
    exec (.fwCommit r) s = .next (answerDarid (whoOf 0x0E03 true r)
      { status := dPending
        s := { s with
          ctd := { s.ctd with nv := { s.ctd.nv with image := [] } }
          mbox := { s.mbox with stage :=
            { job := some (some (whoOf 0x0E03 true r), 1, s.stagedImage.2), old := [fieldAt s.ctd.nv.image 6 2]
              recovered := none, src := s.mbox.stage.src } } } })) ∧
  (∀ (r : DReq) (s : State), s.heard 0x0E04 [.m] r = true → r.args.length = 0 → s.mbox.stage.target = some 2 →
    s.mbox.stage.job = none → s.clampCheck (s.stagedBytes 768) = 0 →
    exec (.clampCommit r) s = .next (answerDarid (whoOf 0x0E04 true r)
      { status := dPending
        s := { s with mbox := { s.mbox with stage :=
            { job := some (some (whoOf 0x0E04 true r), 2, s.stagedBytes 768), old := []
              recovered := s.mbox.stage.recovered, src := s.mbox.stage.src } } } })) ∧
  (∀ (r : DReq) (s : State) (b : List Byte), s.heard 0x0D02 [.m] r = true → r.args.length = 1 →
    arg (DReq.nums r) 0 = 0x43414C57 → s.mbox.stage.target = some 4 → s.mbox.stage.job = none →
    b = (s.stagedBytes 262144).take (fieldAt (s.stagedBytes 262144) 8 4) → (s.calFail b).1 = 0 →
    exec (.calCommit r) s = .next (answerDarid (whoOf 0x0D02 true r)
      { status := dPending
        s := { s with
          ctd := { s.ctd with nv := { s.ctd.nv with cal := [], calAltered := true } }
          mbox := { s.mbox with stage :=
            { job := some (some (whoOf 0x0D02 true r), 4, b), old := (wordsOf s.calHash).take 4
              recovered := s.mbox.stage.recovered, src := s.mbox.stage.src } } } })) ∧
  (∀ (r : DReq) (s : State), s.heard 0x0E05 [.c, .m, .f] r = true → r.args.length = 0 →
    exec (.fwInfo r) s = .next (answerDarid (whoOf 0x0E05 false r)
      { s := s
        words := [(s.ctdOf r.ctd).release, s.ctd.nv.minRelease, s.ctd.clamp.seq] ++
          wordsOf (padTo 32 0 (s.ctdOf r.ctd).imageHash) })) ∧
  (∀ (r : DReq) (s : State) (c : Nat), s.heard 0x0E06 [.m] r = true → r.args.length = 0 → s.hasCtd1 = true →
    s.standby = some c →
    exec (.fwRestartStandby r) s = .next (answerDarid (whoOf 0x0E06 true r)
      { s := (s.holdCtd c).setCtd c fun x => { x with waiters := x.waiters ++ [whoOf 0x0E06 true r] }
        status := dPending }))

/-- R334, R470, R481: FLASH_COMMIT_DONE and ROM_CARAVAN_IMAGE_COMPLETE. Completion is stated of:
ROM_CARAVAN_IMAGE_COMPLETE, FLASH_COMMIT_DONE. -/
def Obligations.FlashCommits : Prop :=
  (∀ (s : State) (w : Who) (b : List Byte) (h : Nat), s.mbox.stage.job = some (some w, 2, b) → s.serving = some h →
    exec (.flashCommitDone true) s = .next
      (({ s with
          ctd := { s.ctd with nv := { s.ctd.nv with clampBlock := b } }
          mbox := { s.mbox with stage := { s.mbox.stage with job := none, old := [] } } } : State).finish w dOk 0 [])) ∧
  (∀ (s : State) (w : Who) (b : List Byte) (h : Nat), s.mbox.stage.job = some (some w, 4, b) → s.serving = some h →
    ∃ t, t = ({ s with
          ctd := { s.ctd with nv := { s.ctd.nv with cal := b } }
          mbox := { s.mbox with stage := { s.mbox.stage with job := none, old := [] } } } : State) ∧
      exec (.flashCommitDone true) s = .next
        ((t.log 0x0D01 5 (srcFw t) (s.mbox.stage.old ++ (wordsOf (sha256 b)).take 4)).finish w dOk 0 [])) ∧
  (∀ (s : State) (w : Who) (b : List Byte) (h : Nat), s.mbox.stage.job = some (some w, 2, b) → s.serving = some h →
    exec (.flashCommitDone false) s = .next
      (({ s with
          free := s.free + 2
          ctd := { s.ctd with nv := { s.ctd.nv with
            clampBlock := leBytes b.length (Config.freeValue (8 * b.length) s.free).toNat } }
          mbox := { s.mbox with stage := { s.mbox.stage with job := none, old := [] } } } : State).finish w
        (Config.freeValue 16 (s.free + 1)).toNat 0 [])) ∧
  (∀ (s : State) (h : Nat), s.serving = some h → s.inRom h = true → s.mbox.stage.target = some 1 →
    s.mbox.stage.imageThere = true → s.mbox.stage.job = none → s.mbox.stage.recovered = none → s.stagedImage.1 = dOk →
    s.ctd.nv.image ≠ [] →
    exec .romCaravanImageComplete s = .next { s with
      ctd := { s.ctd with nv := { s.ctd.nv with image := [] } }
      mbox := { s.mbox with stage :=
        { job := some (none, 1, s.stagedImage.2), old := [fieldAt s.ctd.nv.image 6 2]
          recovered := none, src := s.mbox.stage.src } } })

/-- R41, R42, R45: MOD_ID_WRITE and MOD_OPT_SPARE_WRITE. R332, R42, R45: the commands 0x0101 to 0x0108. Completion is
stated of: MOD_ID_WRITE, MOD_OPT_SPARE_WRITE, CHANNEL_BINDING_EXPIRY, INV_CAPS, INV_DIE, INV_STACK, INV_OPTICAL,
INV_CTD, INV_SET_ID, INV_SET_SPARE, CHANNEL_RELEASE. -/
def Obligations.IdentityAndInventory : Prop :=
  (∀ (s : State) (c : Fin 2) (v : BitVec 32), s.holder = some c.val → s.ctd.lease.gates = true → v.getLsbD 31 = true →
    s.idLocked = false → s.idReason v.toNat = 0 →
    exec (.modIdWrite (.sp c) v) s = .next (State.releaseHarts (State.trainAll
      { s.answer 0 with mod := { s.mod with modId := BitVec.ofNat 32 (v.toNat % 2 ^ 15 + 2 ^ 31) } }))) ∧
  (∀ (s : State) (c : Fin 2) (v : BitVec 32), s.holder = some c.val → s.ctd.lease.gates = true → v.getLsbD 31 = true →
    s.idLocked = false → s.idReason v.toNat ≠ 0 →
    exec (.modIdWrite (.sp c) v) s = .next
      ((s.answer 0).logFw 0x0101 4 [v.toNat, s.idReason v.toNat, bitsOf s.modCaps 47 44, s.mod.modId.toNat])) ∧
  (∀ (s : State) (c : Fin 2) (v : BitVec 32), s.holder = some c.val → (v.getLsbD 31 = false ∨ s.idLocked = true) →
    exec (.modIdWrite (.sp c) v) s = .next (s.answer 0)) ∧
  (∀ (s : State) (i : Initiator) (v : BitVec 32), s.isActiveSp i = false →
    exec (.modIdWrite i v) s = .next (s.fail .unmapped)) ∧
  (∀ (s : State) (c : Fin 2) (v : BitVec 32), s.holder = some c.val → s.ctd.lease.gates = true → s.hasOptics = true →
    s.mod.retraining = [] →
    exec (.modOptSpareWrite (.sp c) v) s = .next
      (if BitVec.ofNat 2 v.toNat ≠ s.mod.inUse
        then State.applySpare { s.answer 0 with mod := { s.mod with subst := BitVec.ofNat 2 v.toNat } }
        else { s.answer 0 with mod := { s.mod with subst := BitVec.ofNat 2 v.toNat } })) ∧
(∀ (r : DReq) (s : State), s.heard 0x0101 [.c, .m, .f] r = true → r.args.length = 0 →
    exec (.invCaps r) s = .next (answerDarid (whoOf 0x0101 false r)
      { s := s, words := lohi s.modCaps ++ lohi s.fuse.serial.toNat ++ [(s.ctdOf r.ctd).release, 1] })) ∧
  (∀ (r : DReq) (s : State), s.heard 0x0102 [.c, .m, .f] r = true → r.args.length = 1 → argOf r 0 < 4 →
    exec (.invDie r) s = .next (answerDarid (whoOf 0x0102 false r)
      { s := s, words := lohi (s.dieInv (argOf r 0)) ++ [s.memStatus (argOf r 0), s.d2dStatus] })) ∧
  (∀ (r : DReq) (s : State), s.heard 0x0103 [.c, .m, .f] r = true → r.args.length = 1 → argOf r 0 < 24 →
    exec (.invStack r) s = .next (answerDarid (whoOf 0x0103 false r)
      { s := s, words := [stackInv (argOf r 0), s.stackStatus (argOf r 0)] })) ∧
  (∀ (r : DReq) (s : State), s.heard 0x0104 [.c, .m, .f] r = true → r.args.length = 1 → argOf r 0 < 8 → s.hasOptics = true →
    exec (.invOptical r) s = .next (answerDarid (whoOf 0x0104 false r)
      { s := s, words := [s.optInv (argOf r 0), s.portMedia, s.mod.subst.toNat] })) ∧
  (∀ (r : DReq) (s : State), s.heard 0x0105 [.c, .m, .f] r = true → r.args.length = 1 → argOf r 0 < 2 →
    s.ctdPresent (argOf r 0) = true →
    exec (.invCtd r) s = .next (answerDarid (whoOf 0x0105 false r)
      { s := s, words := [s.ctdStatus (argOf r 0), s.leaseStatus, s.ctd.lease.gen.toNat, s.clampSrc] })) ∧
  (∀ (r : DReq) (s : State), s.heard 0x0106 [.m] r = true → r.args.length = 1 → bitOf (argOf r 0) 31 = true →
    bitsOf (argOf r 0) 30 15 = 0 → s.idLocked = false →
    exec (.invSetId r) s = .next (answerDarid (whoOf 0x0106 true r)
      { s := s.writeId (argOf r 0), status := if s.idReason (argOf r 0) = 0 then dOk else dBadArg })) ∧
  (∀ (r : DReq) (s : State), s.heard 0x0107 [.m] r = true → r.args.length = 1 → argOf r 0 < 4 → s.hasOptics = true →
    (s.writeSpare (argOf r 0)).mod.retraining = [] →
    exec (.invSetSpare r) s = .next (answerDarid (whoOf 0x0107 true r) { s := s.writeSpare (argOf r 0) })) ∧
  (∀ (r : DReq) (s : State), s.heard 0x0107 [.m] r = true → r.args.length = 1 → argOf r 0 < 4 → s.hasOptics = true →
    (s.writeSpare (argOf r 0)).mod.retraining ≠ [] →
    ∃ t, t = s.writeSpare (argOf r 0) ∧
      exec (.invSetSpare r) s = .next (answerDarid (whoOf 0x0107 true r)
        { s := { t with mod := { t.mod with waiters := t.mod.waiters ++ [whoOf 0x0107 true r] } }, status := dPending })) ∧
  (∀ (r : DReq) (s : State), s.heard 0x0108 [.m, .f] r = true → r.args.length = 0 →
    exec (.channelRelease r) s = .next ((answerDarid (whoOf 0x0108 true r)
      { s := s.setLease fun e => { e with next := 2 } }).afterResponse r.ctd r.ch)) ∧
  (∀ (s : State) (ch : Fin 512) (b : Bind), s.mbox.binds.lookup ch.val = some b → b.last + 60000000000 ≤ s.time.mono →
    ∃ t, exec (.channelBindingExpiry ch) s = .next t ∧ t.mbox.binds = mdel s.mbox.binds ch.val ∧ t.mbox.chans = s.mbox.chans)

/-- R217, R242, R332, R335, R503: the commands 0x1001 to 0x1006. Completion is stated of: LINK_ENABLE, LINK_RETRAIN,
LINK_REMAP, LINK_QUERY, ROUTE_CONFIG, CIRCUIT_ROUTE_SET. -/
def Obligations.LinkCommands : Prop :=
  (∀ (r : DReq) (s : State), s.heard 0x1001 [.m, .f] r = true → r.args.length = 2 → argOf r 0 < 24 → argOf r 1 = 1 →
    (argOf r 0 < 9 ∨ 13 ≤ argOf r 0 ∧ argOf r 0 < 16 ∨ s.hasOptics = true) → s.ctd.clamp.linkPermit.getLsbD (argOf r 0) = true →
    exec (.linkEnable r) s = .next (answerDarid (whoOf 0x1001 true r)
      { s := (s.unitPorts (argOf r 0)).foldl (fun s p => s.train p)
          { s with fab := { s.fab with unitsOn := s.fab.unitsOn ||| BitVec.ofNat 24 (2 ^ argOf r 0) } } })) ∧
  (∀ (r : DReq) (s : State), s.heard 0x1001 [.m, .f] r = true → r.args.length = 2 → argOf r 0 < 24 → argOf r 1 = 0 →
    argOf r 0 ≠ 14 → argOf r 0 ≠ 15 → (argOf r 0 < 9 ∨ argOf r 0 = 13 ∨ s.hasOptics = true) → s.ctd.clamp.linkPermit.getLsbD (argOf r 0) = true →
    exec (.linkEnable r) s = .next (answerDarid (whoOf 0x1001 true r)
      { s := (s.unitPorts (argOf r 0)).foldl (fun s p => (s.linkDown p 1).portSettled p)
          { s with fab := { s.fab with unitsOn := s.fab.unitsOn &&& ~~~BitVec.ofNat 24 (2 ^ argOf r 0) } } })) ∧
  (∀ (r : DReq) (s u : State) (p : Nat), s.heard 0x1001 [.m, .f] r = true → r.args.length = 2 → argOf r 0 = 14 + p → p < 2 →
    argOf r 1 = 0 → s.ctd.clamp.linkPermit.getLsbD (14 + p) = true →
    u = (s.unitPorts (14 + p)).foldl (fun s p => (s.linkDown p 1).portSettled p)
          { s with fab := { s.fab with unitsOn := s.fab.unitsOn &&& ~~~BitVec.ofNat 24 (2 ^ (14 + p)) } } →
    exec (.linkEnable r) s = .next (answerDarid (whoOf 0x1001 true r)
      { s := (u.cellarLost p).setCellar p fun x => { x with present := false } })) ∧
  (∀ (r : DReq) (s : State), s.heard 0x1002 [.m, .f] r = true → r.args.length = 1 → argOf r 0 < 13 →
    (argOf r 0 < 9 ∨ s.hasOptics = true) → (s.port (argOf r 0)).st ≠ .down →
    exec (.linkRetrain r) s = .next (answerDarid (whoOf 0x1002 true r)
      { s := (s.startRetrain (argOf r 0) 2).setPort (argOf r 0) fun x =>
          { x with waiters := x.waiters ++ [whoOf 0x1002 true r] }
        status := dPending })) ∧
  (∀ (r : DReq) (s : State) (t : List Byte) (p role : Nat), s.heard 0x1003 [.m, .f] r = true → r.args.length = 102 →
    t = argBytes (DReq.nums r) 0 102 → p = fieldAt t 8 1 → role = fieldAt t 9 1 → p < 13 →
    (p < 9 ∨ s.hasOptics = true) → s.ctd.clamp.opKey.all (· == 0) = false → Config.rsaVerify s.ctd.clamp.opKey (t.take 24) (t.drop 24) = true →
    (s.port p).st = .quarantine → (s.port p).row = 2 → fieldAt t 0 8 = s.fuse.serial.toNat →
    (s.port p).serial = BitVec.ofNat 64 (fieldAt t 12 8) → (s.port p).coord.toNat = fieldAt t 10 2 → fieldAt t 20 4 = 0 →
    s.validRole role (fieldAt t 10 2) = true →
    (List.range 13).any (fun q => q != p && (s.port q).role == role && s.isUp q) = false →
    ∃ u, u = ((List.range 13).filter fun q => q != p && (s.port q).role == role && !(s.port q).taken).foldl
        (fun s q => ((s.linkDown q 2).portSettled q).setPort q fun x => { x with taken := true }) s ∧
      exec (.linkRemap r) s = .next (answerDarid (whoOf 0x1003 true r)
        { s := (u.setPort p fun x =>
            { x with
              role := role, remapped := true, remapPeer := some (BitVec.ofNat 64 (fieldAt t 12 8)), remapNew := true
              taken := false }).rebound.startRetrain p 2 })) ∧
  (∀ (r : DReq) (s : State), s.heard 0x1004 [.c, .m, .f] r = true → r.args.length = 1 → argOf r 0 < 13 →
    (argOf r 0 < 9 ∨ s.hasOptics = true) →
    exec (.linkQuery r) s = .next (answerDarid (whoOf 0x1004 false r)
      { s := s
        words := s.portStatus (argOf r 0) ::
          (lohi (s.portPeer (argOf r 0)) ++ lohi (s.port (argOf r 0)).serial.toNat) })) ∧
  (∀ (r : DReq) (s : State), s.heard 0x1005 [.m, .f] r = true → r.args.length = 2 → argOf r 0 < 4 →
    argOf r 1 < 2 ^ 27 →
    exec (.routeConfig r) s = .next (answerDarid (whoOf 0x1005 true r)
      { s := { s with fab := { s.fab with
          adaptive := bitOf (argOf r 0) 0, trayVia := bitOf (argOf r 0) 1
          timeout := max 1 (min 10000 (bitsOf (argOf r 1) 13 0)), retries := bitsOf (argOf r 1) 16 14
          epochWait := max 1 (min 1000 (bitsOf (argOf r 1) 26 17)) } } })) ∧
  (∀ (r : DReq) (s : State), s.heard 0x1006 [.m, .f] r = true → r.args.length = 2 → argOf r 0 < 64 → s.hasOptics = true →
    exec (.circuitRouteSet r) s = .next (answerDarid (whoOf 0x1006 true r)
      { s := { s with fab := { s.fab with
          circuits := mput s.fab.circuits (argOf r 0) (BitVec.ofNat 32 (argOf r 1)) } } }))

/-- R231, R249 to R254, R273: the commands 0x0301 to 0x0306. Completion is stated of: SLICE_SET, SLICE_EPOCH,
SLICE_WINDOW, SLICE_RELEASE, CONTEXT_BIND_SLICE, CONVOY_ABORT. -/
def Obligations.SliceCommands : Prop :=
  (∀ (r : DReq) (s : State) (e : Nat) (x : SliceEnt), s.heard 0x0301 [.m, .f] r = true → r.args.length = 3 →
    argOf r 0 % 4096 ≠ 0 → argOf r 1 < 2 ^ 24 → argOf r 2 < 16 → (argOf r 2 = 0 ∨ s.hasOptics = true) →
    e = bitsOf (argOf r 0) 15 12 →
    s.geomOk (geomArg (argOf r 1)) = true → s.fab.slices.lookup e = none → s.sliceOf (BitVec.ofNat 12 (argOf r 0)) = none →
    x = { s.sliceRegs e with
          id := BitVec.ofNat 12 (argOf r 0), wrap := s.wrapOf (geomArg (argOf r 1))
          epoch := BitVec.ofNat 16 (bitsOf (argOf r 0) 31 16), boundary := s.boundaryOf (geomArg (argOf r 1)) (argOf r 2)
          geom := geomArg (argOf r 1), circuits := BitVec.ofNat 4 (argOf r 2) } →
    exec (.sliceSet r) s = .next (answerDarid (whoOf 0x0301 true r)
      { s := ({ s with fab := { s.fab with slices := mput s.fab.slices e x } }).logFw 0x0301 3
          [e, x.id.toNat, 0, x.epoch.toNat, x.wrap.toNat, x.boundary.toNat] })) ∧
  (∀ (r : DReq) (s : State) (x : SliceEnt) (new : BitVec 16), s.heard 0x0302 [.m, .f] r = true → r.args.length = 2 →
    argOf r 0 < 16 → argOf r 1 < 2 ^ 16 → s.fab.slices.lookup (argOf r 0) = some x → new = BitVec.ofNat 16 (argOf r 1) →
    newerEpoch new x.epoch = true →
    exec (.sliceEpoch r) s = .next (answerDarid (whoOf 0x0302 true r)
      { s := ((((s.boundTo (argOf r 0)).foldl (fun s c => s.setCtx c fun v => { v with epoch := new })
            (s.setSlice (argOf r 0) { x with epoch := new })).epochConvoys x.id).logSlice (argOf r 0) x.epoch.toNat
              { x with epoch := new }) })) ∧
  (∀ (r : DReq) (s : State) (x : SliceEnt), s.heard 0x0303 [.m, .f] r = true → r.args.length = 3 → argOf r 0 < 512 →
    argOf r 1 < 2 ^ 27 → argOf r 2 < 2 ^ 27 → s.fab.slices.lookup (argOf r 0 % 16) = some x →
    exec (.sliceWindow r) s = .next (answerDarid (whoOf 0x0303 true r)
      { s := s.setSlice (argOf r 0 % 16) (if bitOf (argOf r 0) 8 = true
          then { x with
            wins := mput x.wins (bitsOf (argOf r 0) 7 4) (argOf r 1, argOf r 2)
            winsOff := mdel x.winsOff (bitsOf (argOf r 0) 7 4) }
          else { x with
            wins := mdel x.wins (bitsOf (argOf r 0) 7 4)
            winsOff := mput x.winsOff (bitsOf (argOf r 0) 7 4) (argOf r 1, argOf r 2) }) })) ∧
  (∀ (r : DReq) (s : State) (x : SliceEnt), s.heard 0x0304 [.m, .f] r = true → r.args.length = 1 → argOf r 0 < 16 →
    s.fab.slices.lookup (argOf r 0) = some x → s.boundTo (argOf r 0) = [] →
    exec (.sliceRelease r) s = .next (answerDarid (whoOf 0x0304 true r)
      { s := ({ s with fab := { s.fab with
          slices := mdel s.fab.slices (argOf r 0), slicesOff := mput s.fab.slicesOff (argOf r 0) x } }).logFw 0x0302 3
          [argOf r 0, x.id.toNat, x.epoch.toNat] })) ∧
  (∀ (r : DReq) (s : State) (x : SliceEnt), s.heard 0x0305 [.m, .f] r = true → r.args.length = 2 → argOf r 0 < 256 →
    argOf r 1 < 16 → (s.ctx (argOf r 0)).st ≠ .free → s.fab.slices.lookup (argOf r 1) = some x →
    s.eng.queues.any (fun e => e.1 / 64 == argOf r 0 && !e.2.started.isEmpty) = false →
    exec (.contextBindSlice r) s = .next (answerDarid (whoOf 0x0305 true r)
      { s := s.setCtx (argOf r 0) fun v => { v with slice := some (argOf r 1), epoch := x.epoch } })) ∧
  (∀ (r : DReq) (s : State) (cv : Convoy), s.heard 0x0306 [.c, .m, .f] r = true → r.args.length = 3 → argOf r 0 < 2 ^ 12 →
    argOf r 1 < 2 ^ 16 → argOf r 2 < 2 ^ 16 → (senderOf r.ch.val = some .c → ownConvoy s r.ch.val (DReq.nums r) = true) →
    s.convoy? (convoyArg (DReq.nums r)) = some cv → cv.st = .active →
    exec (.convoyAbort r) s = .next (answerDarid (whoOf 0x0306 true r)
      { s := s.startAbort (convoyArg (DReq.nums r)) 0 none, words := [0] }))

/-- R91, R92, R149, R333: ContextCreate, ContextGrant, ContextRevoke, ContextQuery. R95, R97, R332: the commands
0x0205 to 0x0207. Completion is stated of: CONTEXT_CREATE, CONTEXT_GRANT, CONTEXT_REVOKE, QUEUE_CREATE, QUEUE_SET_IRQ,
QUEUE_DELETE, CONTEXT_QUERY. -/
def Obligations.ContextAndQueueCommands : Prop :=
  (∀ (r : DReq) (s : State), s.heard 0x0201 [.m, .f] r = true → r.args.length = 1 → argOf r 0 < 256 →
    (s.ctx (argOf r 0)).st = .free →
    exec (.contextCreate r) s = .next (answerDarid (whoOf 0x0201 true r)
      { s := s.setCtx (argOf r 0) fun _ => { st := .active } })) ∧
  (∀ (r : DReq) (s : State), s.heard 0x0203 [.m, .f] r = true → r.args.length = 7 → s.grantBad (DReq.nums r) = none →
    bitsOf (argOf r 0) 15 8 = 1 → (s.ctx (argOf r 0 % 256)).st ≠ .free →
    (s.ctx (argOf r 0 % 256)).windows.lookup (argOf r 1) = none →
    exec (.contextGrant r) s = .next (answerDarid (whoOf 0x0203 true r)
      { s := s.setCtx (argOf r 0 % 256) fun x => { x with windows := mput x.windows (argOf r 1) (arg64Of r 3, arg64Of r 5) } })) ∧
  (∀ (r : DReq) (s : State), s.heard 0x0203 [.m, .f] r = true → r.args.length = 7 → s.grantBad (DReq.nums r) = none →
    bitsOf (argOf r 0) 15 8 = 4 → (s.ctx (argOf r 0 % 256)).st ≠ .free →
    (grantUnits (DReq.nums r)).any (fun u => (s.eng.semOwner.lookup u).getD (argOf r 0 % 256) != argOf r 0 % 256) = false →
    exec (.contextGrant r) s = .next (answerDarid (whoOf 0x0203 true r)
      { s := s.allot (argOf r 0 % 256) 4
          ((grantUnits (DReq.nums r)).filter fun u => (s.eng.semOwner.lookup u).isNone) })) ∧
  (∀ (r : DReq) (s : State), s.heard 0x0203 [.m, .f] r = true → r.args.length = 7 → s.grantBad (DReq.nums r) = none →
    bitsOf (argOf r 0) 15 8 = 7 → (s.ctx (argOf r 0 % 256)).st ≠ .free →
    exec (.contextGrant r) s = .next (answerDarid (whoOf 0x0203 true r)
      { s := s.setCtx (argOf r 0 % 256) fun x => { x with cap := argOf r 2 } })) ∧
  (∀ (r : DReq) (s : State), s.heard 0x0204 [.m, .f] r = true → r.args.length = 7 → s.grantBad (DReq.nums r) = none →
    bitsOf (argOf r 0) 15 8 = 1 → (s.ctx (argOf r 0 % 256)).st ≠ .free →
    (s.ctx (argOf r 0 % 256)).windows.lookup (argOf r 1) = some (arg64Of r 3, arg64Of r 5) →
    s.windowInUse (argOf r 0 % 256) (arg64Of r 3) (arg64Of r 5) = false →
    exec (.contextRevoke r) s = .next (answerDarid (whoOf 0x0204 true r)
      { s := s.setCtx (argOf r 0 % 256) fun x => { x with windows := mdel x.windows (argOf r 1) } })) ∧
  (∀ (r : DReq) (s : State), s.heard 0x020E [.c, .m, .f] r = true → r.args.length = 1 → argOf r 0 < 256 →
    (senderOf r.ch.val = some .c → ownCtx s r.ch.val (DReq.nums r) = true) →
    exec (.contextQuery r) s = .next (answerDarid (whoOf 0x020E false r)
      { s := s
        words := [(s.ctx (argOf r 0)).st.code + at' (b2n (s.ctx (argOf r 0)).debug) 3 +
            at' (s.ctx (argOf r 0)).stash.st.code 4 + at' (b2n (s.ctx (argOf r 0)).slice.isSome) 6 +
            at' ((s.ctx (argOf r 0)).slice.getD 0) 8 + at' (s.ctx (argOf r 0)).epoch.toNat 16,
          (s.eng.queues.filter fun e => e.1 / 64 == argOf r 0).length] })) ∧
(∀ (r : DReq) (s : State) (ring comp : Nat), s.heard 0x0205 [.c, .m, .f] r = true →
    (senderOf r.ch.val = some .c → ownCtx s r.ch.val (DReq.nums r) = true) → r.args.length = 6 →
    bitsOf (argOf r 0) 15 14 ≠ 3 → 6 ≤ bitsOf (argOf r 0) 20 16 → bitsOf (argOf r 0) 20 16 ≤ 16 → argOf r 0 < 2 ^ 23 →
    argOf r 1 < [64, 16, 32].getD (bitsOf (argOf r 0) 15 14) 0 → (s.ctx (argOf r 0 % 256)).st = .active →
    s.twinned (queueEng (DReq.nums r)) = false → (s.engine (queueEng (DReq.nums r))).st ≠ .resetting →
    s.localRange (argOf r 0 % 256) (arg64Of r 2) (128 * 2 ^ bitsOf (argOf r 0) 20 16) = some ring → ring % 4096 = 0 →
    s.localRange (argOf r 0 % 256) (arg64Of r 4) (64 * 2 ^ bitsOf (argOf r 0) 20 16) = some comp → comp % 4096 = 0 →
    s.queue? (argOf r 0 % 256) (bitsOf (argOf r 0) 13 8) = none →
    (s.eng.queues.filter fun e => e.1 / 64 == argOf r 0 % 256).length < (s.ctx (argOf r 0 % 256)).queueMax →
    exec (.queueCreate r) s = .next (answerDarid (whoOf 0x0205 true r)
      { s := { s with eng := { s.eng with queues := (mput s.eng.queues
          (64 * (argOf r 0 % 256) + bitsOf (argOf r 0) 13 8)
          { eng := queueEng (DReq.nums r), s := bitsOf (argOf r 0) 20 16, prio := bitsOf (argOf r 0) 22 21
            ring := arg64Of r 2, comp := comp, beatAt := s.time.mono }) } } })) ∧
  (∀ (r : DReq) (s : State) (q : Queue), s.heard 0x0206 [.c, .m, .f] r = true →
    (senderOf r.ch.val = some .c → ownCtx s r.ch.val (DReq.nums r) = true) → r.args.length = 4 → argOf r 0 < 2 ^ 14 →
    s.queue? (argOf r 0 % 256) (argOf r 0 / 256) = some q →
    exec (.queueSetIrq r) s = .next (answerDarid (whoOf 0x0206 true r)
      { s := s.setQueue (argOf r 0 % 256) (argOf r 0 / 256) fun u =>
          { u with irqAddr := arg64Of r 1, irqData := BitVec.ofNat 32 (argOf r 3) } })) ∧
  (∀ (r : DReq) (s : State) (q : Queue), s.heard 0x0207 [.c, .m, .f] r = true →
    (senderOf r.ch.val = some .c → ownCtx s r.ch.val (DReq.nums r) = true) → r.args.length = 1 → argOf r 0 < 2 ^ 14 →
    s.queue? (argOf r 0 % 256) (argOf r 0 / 256) = some q → q.started = [] →
    exec (.queueDelete r) s = .next (answerDarid (whoOf 0x0207 true r)
      { s := { s with eng := { s.eng with queues := (mdel s.eng.queues
          (64 * (argOf r 0 % 256) + argOf r 0 / 256)) } } })) ∧
  (∀ (r : DReq) (s : State) (q : Queue), s.heard 0x0207 [.c, .m, .f] r = true →
    (senderOf r.ch.val = some .c → ownCtx s r.ch.val (DReq.nums r) = true) → r.args.length = 1 → argOf r 0 < 2 ^ 14 →
    s.queue? (argOf r 0 % 256) (argOf r 0 / 256) = some q → q.started ≠ [] →
    exec (.queueDelete r) s = .next (answerDarid (whoOf 0x0207 true r)
      { s := s.setQueue (argOf r 0 % 256) (argOf r 0 / 256) fun u =>
          { u with st := .unbound, deleting := u.deleting ++ [whoOf 0x0207 true r] }
        status := dPending }))

/-- R90, R117, R149, R155, R164: the commands 0x0208 to 0x020D. Completion is stated of: CONTEXT_BIND_HART, TWIN_JOIN,
TWIN_SPLIT, CONTEXT_SET_DEBUG, CONTEXT_STASH_RESERVE, CONTEXT_STASH_RELEASE. -/
def Obligations.ContextUnitCommands : Prop :=
  (∀ (r : DReq) (s : State), s.heard 0x0208 [.m, .f] r = true → r.args.length = 3 → argOf r 0 < 256 → argOf r 1 < 32 →
    argOf r 2 < 2 → (s.ctx (argOf r 0)).st ≠ .free → (s.eng.hartCtx.lookup (argOf r 1)).getD (argOf r 0) = argOf r 0 →
    exec (.contextBindHart r) s = .next (answerDarid (whoOf 0x0208 true r)
      { s := { s with eng := { s.eng with hartCtx := (if argOf r 2 = 1 then mput s.eng.hartCtx (argOf r 1) (argOf r 0)
          else mdel s.eng.hartCtx (argOf r 1)) } } })) ∧
  (∀ (r : DReq) (s : State), s.heard 0x0209 [.m, .f] r = true → r.args.length = 2 → argOf r 0 < 256 → argOf r 1 < 64 →
    argOf r 1 % 2 = 0 → (s.ctx (argOf r 0)).st ≠ .free → s.twinned (argOf r 1) = false →
    s.eng.queues.any (fun e => e.2.eng == argOf r 1 || e.2.eng == argOf r 1 + 1) = false →
    (pairGroups (argOf r 1)).any (fun g => (s.eng.tileOwner.lookup g).isSome) = false →
    exec (.twinJoin r) s = .next (answerDarid (whoOf 0x0209 true r)
      { s := (s.setTwin (argOf r 1) true).allot (argOf r 0) 3 (pairGroups (argOf r 1)) })) ∧
  (∀ (r : DReq) (s : State), s.heard 0x020A [.m, .f] r = true → r.args.length = 2 → argOf r 0 < 256 → argOf r 1 < 64 →
    argOf r 1 % 2 = 0 → (s.ctx (argOf r 0)).st ≠ .free → s.twinned (argOf r 1) = true →
    s.eng.tileOwner.lookup (4 * argOf r 1) = some (argOf r 0) →
    s.eng.queues.any (fun e => e.2.eng == argOf r 1 || e.2.eng == argOf r 1 + 1) = false →
    exec (.twinSplit r) s = .next (answerDarid (whoOf 0x020A true r)
      { s := (s.setTwin (argOf r 1) false).allot (argOf r 0) 3 (pairGroups (argOf r 1)) })) ∧
  (∀ (r : DReq) (s : State), s.heard 0x020B [.c, .m, .f] r = true →
    (senderOf r.ch.val = some .c → ownCtx s r.ch.val (DReq.nums r) = true) → r.args.length = 3 → argOf r 0 < 2 ^ 14 →
    bitOf (argOf r 0) 8 = true → 4 ≤ bitsOf (argOf r 0) 13 9 → bitsOf (argOf r 0) 13 9 ≤ 16 →
    (s.ctx (argOf r 0 % 256)).st ≠ .free → (s.ctx (argOf r 0 % 256)).debug = false → arg64Of r 1 % 16384 = 0 →
    arg64Of r 1 < 2 ^ 52 →
    (s.ctx (argOf r 0 % 256)).inWindows (arg64Of r 1) (16384 * 2 ^ bitsOf (argOf r 0) 13 9) = true →
    exec (.contextSetDebug r) s = .next (answerDarid (whoOf 0x020B true r)
      { s := (s.setCtx (argOf r 0 % 256) fun x =>
            { x with debug := true, dumpRing := arg64Of r 1, dumpExp := bitsOf (argOf r 0) 13 9
                     dumpSeq := if x.debug then x.dumpSeq else 0 }).logFw 0x0241 3
          ([argOf r 0 % 256, 1] ++ lohi (arg64Of r 1) ++ [bitsOf (argOf r 0) 13 9]) })) ∧
  (∀ (r : DReq) (s : State) (b tb : Nat), s.heard 0x020C [.c, .m, .f] r = true →
    (senderOf r.ch.val = some .c → ownCtx s r.ch.val (DReq.nums r) = true ∧
      s.holdsSem r.ch.val (bitsOf (argOf r 6) 29 16) = true) → r.args.length = 7 → argOf r 0 < 256 →
    1 ≤ bitsOf (argOf r 6) 12 0 → bitsOf (argOf r 6) 12 0 ≤ 4096 → bitsOf (argOf r 6) 15 13 = 0 →
    bitsOf (argOf r 6) 31 30 = 0 → (s.ctx (argOf r 0)).st ≠ .free → arg64Of r 1 % 2 ^ 21 = 0 → argOf r 3 ≠ 0 →
    arg64Of r 1 < 2 ^ 52 → (s.ctx (argOf r 0)).inWindow (arg64Of r 1) (argOf r 3 * 2 ^ 21) = true →
    s.place (arg64Of r 1) = .loc b → b + argOf r 3 * 2 ^ 21 ≤ usableTop → arg64Of r 4 % 64 = 0 →
    arg64Of r 4 < 2 ^ 52 → (s.ctx (argOf r 0)).inWindow (arg64Of r 4) (64 * bitsOf (argOf r 6) 12 0) = true →
    s.place (arg64Of r 4) = .loc tb → tb + 64 * bitsOf (argOf r 6) 12 0 ≤ usableTop →
    meets (arg64Of r 1) (argOf r 3 * 2 ^ 21) (arg64Of r 4) (64 * bitsOf (argOf r 6) 12 0) = false →
    s.holdsSem (argOf r 0) (bitsOf (argOf r 6) 29 16) = true → (s.stash (argOf r 0)).open? = false →
    exec (.contextStashReserve r) s = .next (answerDarid (whoOf 0x020C true r)
      { s := s.setStash (argOf r 0) fun t =>
          { t.clear with
            st := .idle, armErr := false, pending := false, base := arg64Of r 1, size := argOf r 3 * 2 ^ 21
            table := arg64Of r 4, tableLen := bitsOf (argOf r 6) 12 0, armSem := bitsOf (argOf r 6) 29 16 } })) ∧
  (∀ (r : DReq) (s : State), s.heard 0x020D [.c, .m, .f] r = true →
    (senderOf r.ch.val = some .c → ownCtx s r.ch.val (DReq.nums r) = true) → r.args.length = 1 → argOf r 0 < 256 →
    (s.ctx (argOf r 0)).st ≠ .free → (s.stash (argOf r 0)).open? = false →
    exec (.contextStashRelease r) s = .next (answerDarid (whoOf 0x020D true r)
      { s := s.setStash (argOf r 0) fun t =>
          { t.clear with
            st := .none, armErr := false, pending := false, base := 0, size := 0, table := 0, tableLen := 0, armSem := 0
              } }))

/-- R293, R486: MGMT_BLOCK_LOCK and MGMT_FRAME_RECEIVE. R498: I3C_ENTDAA, I3C_PRIVATE_WRITE, I3C_PRIVATE_READ.
Completion is stated of: MGMT_FRAME_RECEIVE, I3C_ENTDAA, I3C_PRIVATE_WRITE, I3C_PRIVATE_READ, MGMT_BLOCK_LOCK. -/
def Obligations.ManagementPortAndI3c : Prop :=
  (∀ (s : State) (up : Bool), exec (.mgmtBlockLock up) s = .next { s with mgmt := { s.mgmt with linkUp := up && s.unitOn 13 } }) ∧
  (∀ (s : State) (f : MgmtFrame), s.mgmt.linkUp = true → s.unitOn 13 = true → s.serving = none →
    exec (.mgmtFrameReceive f) s = .next { s with mgmt := { s.mgmt with discarded := satAdd 0xFFFF s.mgmt.discarded 1 } }) ∧
  (∀ (s : State) (h : Nat) (ip : BitVec 32) (mac : BitVec 48), s.mgmt.linkUp = true → s.unitOn 13 = true →
    s.serving = some h → s.mgmt.valid = true →
    exec (.mgmtFrameReceive (.arpRequest s.mgmt.ip ip mac)) s = .next { s with mgmt := { s.mgmt with
      arp := (ip.toNat, mac.toNat) :: s.mgmt.arp.filter fun e => e.1 != ip.toNat
      arpOut := s.mgmt.arpOut ++ [(ip.toNat, mac.toNat)] } }) ∧
  (∀ (s : State) (h : Nat) (src : BitVec 32) (port : BitVec 16) (b : List Byte), s.mgmt.linkUp = true → s.unitOn 13 = true →
    s.serving = some h → s.mgmt.valid = true →
    exec (.mgmtFrameReceive (.ipv4 s.fuse.mac s.mgmt.ip true (some 31354) src port b)) s =
      exec (.mgmtDatagramReceive src port b) s) ∧
(∀ (s : State) (a : BitVec 7), exec (.i3cEntdaa a) s = .next { s with i3c := { s.i3c with
    addr := some a, out := (leBytes 6 (s.fuse.serial.toNat % 2 ^ 32 + 2 ^ 32 + s.fuse.i3cMfr.toNat * 2 ^ 33)).reverse } }) ∧
  (∀ (s : State) (a : BitVec 7) (lo hi : BitVec 8), s.i3c.addr = some a → 0x200 ≤ lo.toNat + 256 * hi.toNat →
    exec (.i3cPrivateWrite [lo, hi]) s = .next { s with i3c := { s.i3c with offset := lo.toNat + 256 * hi.toNat, latch := none } }) ∧
  (∀ (s : State) (a : BitVec 7) (b : BitVec 8), s.i3c.addr = some a →
    exec (.i3cPrivateWrite [0x18, 0x01, b]) s = .next { s with
      i3c := { s.i3c with offset := 0x118, latch := none }, mgmt := { s.mgmt with fec := b.getLsbD 1 } }) ∧
  (∀ (s : State) (a : BitVec 7), s.i3c.addr = some a → s.i3c.offset = 0x110 →
    exec (.i3cPrivateRead 1) s = .next { s with i3c := { s.i3c with
      offset := 0x111, out := [BitVec.ofNat 8 s.mgmt.gw.toNat] } })

/-- R482, R483, R485: SpdmExchange, SPDM_RESPONSE_DONE, CertRead. Completion is stated of: SPDM_EXCHANGE, CERT_READ,
SPDM_RESPONSE_DONE. -/
def Obligations.Attestation : Prop :=
  (∀ (r : DReq) (s : State) (req : List Byte), s.heard 0x1101 [.m, .f] r = true → 2 ≤ r.args.length → r.args.length ≤ 1023 →
    1 ≤ argOf r 0 → argOf r 0 ≤ 4088 → (DReq.nums r).length = 1 + cdiv (argOf r 0) 4 → s.spdm.pending = none →
    req = (((DReq.nums r).drop 1).flatMap (leBytes 4)).take (argOf r 0) → fieldAt req 1 1 = 0x84 →
    exec (.spdmExchange r) s = .next (answerDarid (whoOf 0x1101 false r)
      { s := { s with spdm := { chan := some r.ch.val, stage := 1, transcript := req ++ spdmVersion } }
        words := 8 :: wordsOf spdmVersion })) ∧
  (∀ (r : DReq) (s : State) (req : List Byte), s.heard 0x1101 [.m, .f] r = true → 2 ≤ r.args.length → r.args.length ≤ 1023 →
    1 ≤ argOf r 0 → argOf r 0 ≤ 4088 → (DReq.nums r).length = 1 + cdiv (argOf r 0) 4 → s.spdm.pending = none →
    req = (((DReq.nums r).drop 1).flatMap (leBytes 4)).take (argOf r 0) → fieldAt req 1 1 ≠ 0x84 →
    s.spdm.chan ≠ some r.ch.val →
    exec (.spdmExchange r) s = .next (answerDarid (whoOf 0x1101 false r)
      { s := s, words := [4, ofLe (spdmError 0x43)] })) ∧
  (∀ (s : State) (w : Who) (req : List Byte) (h : Nat), s.spdm.pending = some (w, req) → s.serving = some h →
    fieldAt req 1 1 = 0x83 →
    ∃ t u, t = s.log 0x1101 2 (srcCrypto s) [w.ch, 0x83, (spdmSigned req).getD 0, fieldAt req 4 4, 0xFF] ∧
      u = ({ t with spdm := { t.spdm with pending := none } } : State).spdmAnswer req
        (Config.spdmResponse req s.spdm.transcript (s.spdmContent req)) ∧
      exec .spdmResponseDone s = .next (u.s.finish w dOk 0 u.words)) ∧
  (∀ (r : DReq) (s : State) (b : List Byte), s.heard 0x1102 [.c, .m, .f] r = true → r.args.length = 3 → argOf r 0 = 0 →
    1 ≤ argOf r 2 → argOf r 2 ≤ 4088 → b = ((Config.certChain 0).drop (argOf r 1)).take (argOf r 2) →
    exec (.certRead r) s = .next (answerDarid (whoOf 0x1102 false r)
      { s := s, words := wordsOf (padTo (cdiv b.length 4 * 4) 0 b) }))

/-- R12, R14, R70, R75: CSR_REGISTER_WRITE and CSR_RC_READ. The last clause is the model's refusal (R34 leaves that
layout out). R21, R22, R35, R198, R305: HOST_MEMORY_ACCESS, RING_EDGE_DOWN, RING_EDGE_UP, DIAG_PATH_SWITCH. Completion
is stated of: CSR_REGISTER_WRITE, HOST_MEMORY_ACCESS, CSR_RC_READ. -/
def Obligations.RegisterAccess : Prop :=
  (∀ (s : State) (i : Initiator) (a : BitVec 52) (n : Nat) (v hw : BitVec 64) (e : AccErr),
    s.csrAt i a.toNat n = .error (.err e) → exec (.csrRegisterWrite i a n ⟨v, hw⟩) s = .next (s.fail e)) ∧
  (∀ (s : State) (i : Initiator) (a : BitVec 52) (n : Nat) (v hw : BitVec 64) (u : CsrUnit) (r : Reg) (h : Bool),
    s.csrAt i a.toNat n = .ok (u, r, h) → s.mayWrite i u r = false →
    exec (.csrRegisterWrite i a n ⟨v, hw⟩) s = .next (s.fail .unmapped)) ∧
  (∀ (s : State) (c : Fin 2) (a : BitVec 52) (v hw : BitVec 64) (u : CsrUnit),
    s.csrAt (.sp c) a.toNat 32 = .ok (u, .tbThresh, false) → s.holder = some c.val → s.ctd.lease.gates = true →
    exec (.csrRegisterWrite (.sp c) a 32 ⟨v, hw⟩) s = .next
      ({ s.answer 0 with time := { s.time with thresh := max 1000 (min 1000000 (v.toNat % 2 ^ 20)) } })) ∧
  (∀ (s : State) (i : Initiator) (a : BitVec 52) (n : Nat) (w : BitVec 64) (e : AccErr),
    s.csrAt i a.toNat n = .error (.err e) → exec (.csrRcRead i a n w) s = .next (s.fail e)) ∧
  (∀ (s : State) (i : Initiator) (a : BitVec 52) (w : BitVec 64) (u : CsrUnit) (p : Nat) (h : Bool),
    s.csrAt i a.toNat 64 = .ok (u, .portErr p, h) →
    exec (.csrRcRead i a 64 w) s = .next
      ((s.answer (BitVec.ofNat 64 (s.regVal (.portErr p)))).clearRc (.portErr p) 64 h w.toNat)) ∧
  (∀ (s : State) (i : Initiator) (a : BitVec 52) (n : Nat) (v hw w : BitVec 64), s.csrAt i a.toNat n = .error .optical →
    exec (.csrRegisterWrite i a n ⟨v, hw⟩) s = .refused .opticalRegister ∧
    exec (.csrRcRead i a n w) s = .refused .opticalRegister) ∧
(∀ (s : State) (h : Fin 32) (op : AccessOp) (a : BitVec 52) (off : Nat) (f : List LineFlip),
    s.place a.toNat = .loc off → off + opSize op ≤ usableTop → s.regionUp (dieOf off) = false →
    exec (.hostMemoryAccess (.hart h) op a f) s = .next (s.fail .domainOff)) ∧
  (∀ (s : State) (h : Fin 32) (op : AccessOp) (a : BitVec 52) (off k : Nat),
    s.place a.toNat = .loc off → off + opSize op ≤ usableTop → s.regionUp (dieOf off) = true →
    s.ringPath (h.val / 8) (dieOf off) = .none → s.txRoom (.host (.hart h)) = true → s.huskStop op off = some k →
    exec (.hostMemoryAccess (.hart h) op a []) s = .next
      (((s.txTouch (h.val / 8) 1).hartConsume h (a.toNat - off + 32 * k)).fail .husk)) ∧
  (∀ (s : State) (h : Fin 32) (op : AccessOp) (a : BitVec 52) (off p : Nat) (f : List LineFlip),
    s.place a.toNat = .loc off → off + opSize op ≤ usableTop → s.regionUp (dieOf off) = true →
    s.ringPath (h.val / 8) (dieOf off) = .waiting → diagPair (h.val / 8) (dieOf off) = some p →
    exec (.hostMemoryAccess (.hart h) op a f) s = .next { s with
      bus := { err := .waiting }
      ring := { s.ring with waiting :=
        s.ring.waiting ++ [{ pair := p, init := .hart h, op := op, addr := a, flips := f }] } }) ∧
  (∀ (s : State) (c : Fin 2) (op : AccessOp) (a : BitVec 52) (f : List LineFlip), a.toNat + opSize op ≤ usableTop →
    s.ctd.clamp.localWin = [] →
    exec (.hostMemoryAccess (.sp c) op a f) s = .next ((s.fail .access).clampHitOn c 6 (a.toNat / 2 ^ 21) 0 0))

/-- R35, R122, R198: HOST_MEMORY_ACCESS, load, store and atomic. Completion is stated of: HOST_MEMORY_ACCESS. -/
def Obligations.HartMemoryAccess : Prop :=
  (∀ (s : State) (h : Fin 32) (b : List Byte) (a : BitVec 52) (off : Nat), s.mem.main.wf = true →
    s.place a.toNat = .loc off → off + b.length ≤ usableTop → s.regionUp (dieOf off) = true →
    s.ringPath (h.val / 8) (dieOf off) = .none → s.txRoom (.host (.hart h)) = true → s.huskStop (.store b) off = none →
    ∃ m, exec (.hostMemoryAccess (.hart h) (.store b) a []) s = .next { s.txTouch (h.val / 8) 1 with
        mem := { s.mem with main := m, modified := mput s.mem.modified (off / 64) (h.val / 8) }, bus := {} } ∧
      ∀ x, cellGet m.cells x = if off ≤ x ∧ x < off + b.length then b.getD (x - off) 0 else cellGet s.mem.main.cells x) ∧
  (∀ (s : State) (h : Fin 32) (n : Nat) (a : BitVec 52) (off : Nat),
    s.place a.toNat = .loc off → off + n ≤ usableTop → s.regionUp (dieOf off) = true →
    s.ringPath (h.val / 8) (dieOf off) = .none → s.txRoom (.host (.hart h)) = true → s.huskStop (.load n) off = none →
    off < usableTop →
    exec (.hostMemoryAccess (.hart h) (.load n) a []) s = .next { s.txTouch (h.val / 8) 1 with
      bus := { bytes := s.mem.main.read off n, value := BitVec.ofNat 64 (ofLe (s.mem.main.read off n)) } }) ∧
  (∀ (s t : State) (h : Fin 32) (o : Fin 8) (w64 : Bool) (x c : BitVec 64) (a : BitVec 52) (off : Nat),
    s.place a.toNat = .loc off → off + (if w64 then 8 else 4) ≤ usableTop → s.regionUp (dieOf off) = true →
    s.ringPath (h.val / 8) (dieOf off) = .none → s.txRoom (.host (.hart h)) = true →
    s.huskStop (.amo o w64 x c) off = none → t = s.txTouch (h.val / 8) 1 →
    exec (.hostMemoryAccess (.hart h) (.amo o w64 x c) a []) s = .next
      (((t.atomicAt off w64 o.val x.toNat c.toNat).1.answer (BitVec.ofNat 64 (t.atomicAt off w64 o.val x.toNat c.toNat).2)).hartModified
        (h.val / 8) (.amo o w64 x c) off))

/-- R20, R21: RING_EDGE_DOWN, RING_EDGE_UP, DIAG_PATH_SWITCH. Completion is stated of: RING_EDGE_DOWN, RING_EDGE_UP,
DIAG_PATH_SWITCH. -/
def Obligations.RingEdges : Prop :=
  (∀ (s : State) (e : Fin 4), exec (.ringEdgeDown e) s = .next
    (State.pathCheck { s with ring := { s.ring with edgeUp := s.ring.edgeUp.set e false } })) ∧
  (∀ (s : State) (e : Fin 4), exec (.ringEdgeUp e) s = .next
    (State.pathCheck { s with ring := { s.ring with edgeUp := s.ring.edgeUp.set e true } })) ∧
  (∀ (s t : State) (p : Fin 2) (alt : Bool), s.ring.change.getD p none = some alt →
    t = { s with ring := { s.ring with
      alt := s.ring.alt.set p alt, change := s.ring.change.set p none
      waiting := s.ring.waiting.filter (·.pair != p.val) } } →
    exec (.diagPathSwitch p) s = .next (State.pathCheck (State.unstall
      (t.release (s.ring.waiting.filter (·.pair == p.val)))))) ∧
  (∀ (s : State) (p : Fin 2), s.ring.change.getD p none = none → exec (.diagPathSwitch p) s = .next s) ∧
  (∀ (s : State) (p : Nat), p < 2 → s.ring.change.getD p none = none → s.ring.alt.getD p false = s.pathOk p false →
    s.pathCheck.ring.change.getD p none = some (!s.pathOk p false)) ∧
  (∀ (s : State) (p : Nat), p < 2 → s.ring.change.getD p none = none → s.ring.alt.getD p false = (!s.pathOk p false) →
    s.pathCheck.ring.change.getD p none = none)

/-- R314 to R317: MB_TX_WORD_WRITE, MB_TX_COMMIT, MB_RX_POP. Completion is stated of: MB_TX_WORD_WRITE, MB_TX_COMMIT,
MB_RX_POP. -/
def Obligations.ChannelPage : Prop :=
  (∀ (s : State) (h : Fin 32) (c : Fin 2) (ch : Fin 512) (n : Fin 8) (v : BitVec 32), s.pageGate (.hart h) c ch = .none →
    (s.chan c ch).txFull = false →
    exec (.mbTxWordWrite (.hart h) c ch n v) s = .next ((s.answer 0).setChan c ch fun x => { x with tx := x.tx.set n v })) ∧
  (∀ (s : State) (h : Fin 32) (c : Fin 2) (ch : Fin 512) (n : Fin 8) (v : BitVec 32), s.pageGate (.hart h) c ch = .none →
    (s.chan c ch).txFull = true →
    exec (.mbTxWordWrite (.hart h) c ch n v) s = .next
      (((s.answer 0).setChan c ch fun x => { x with overrun := true }).logFw 0x1403 2 [c, ch])) ∧
  (∀ (s : State) (h : Fin 32) (c : Fin 2) (ch : Fin 512) (v : BitVec 32), s.pageGate (.hart h) c ch = .none →
    (s.chan c ch).txFull = false → v.getLsbD 0 = true →
    exec (.mbTxCommit (.hart h) c ch v) s = .next ((s.answer 0).setChan c ch fun x => { x with txFull := true })) ∧
  (∀ (s : State) (h : Fin 32) (c : Fin 2) (ch : Fin 512), s.pageGate (.hart h) c ch = .none → (s.chan c ch).rxFull = true →
    exec (.mbRxPop (.hart h) c ch) s = .next
      ((s.answer (((s.chan c ch).rx.getD 0 0).setWidth 64)).setChan c ch fun x => { x with rxFull := false })) ∧
  (∀ (s : State) (h : Fin 32) (c : Fin 2) (ch : Fin 512), s.pageGate (.hart h) c ch = .none → (s.chan c ch).rxFull = false →
    exec (.mbRxPop (.hart h) c ch) s = .next (s.answer 0)) ∧
  (∀ (s : State) (h : Fin 32) (c : Fin 2) (ch : Fin 512) (n : Fin 8) (v : BitVec 32) (e : AccErr), e ≠ .none →
    s.pageGate (.hart h) c ch = e →
    exec (.mbTxWordWrite (.hart h) c ch n v) s = .next (s.fail e) ∧ exec (.mbTxCommit (.hart h) c ch v) s = .next (s.fail e) ∧
    exec (.mbRxPop (.hart h) c ch) s = .next (s.fail e))

/-- R313 to R322: MB_POP, MB_UP_PLACE, MGMT_DATAGRAM_RECEIVE, FRAGMENT_TIMEOUT. The last clause is the model's refusal
(R313). R319: MGMT_PACKET_RECEIVE. Completion is stated of: MB_POP, MB_UP_PLACE, MGMT_DATAGRAM_RECEIVE,
MGMT_PACKET_RECEIVE, FRAGMENT_TIMEOUT. -/
def Obligations.Messages : Prop :=
  (∀ (s : State) (c : Fin 2) (ch : Fin 512) (h : Nat), (s.chan c ch).txFull = true → s.carriesOut c = true → ch.val < 256 →
    (s.chan c ch).irqTx = false → s.mbox.binds.lookup ch.val = none → (s.chan c ch).openCmd = none →
    h = ((s.chan c ch).tx.getD 0 0).toNat → bitOf h 27 = false → bitOf h 28 = true → bitOf h 29 = false →
    bitOf h 30 = false → bitOf h 31 = false → bitsOf h 18 16 = 7 →
    exec (.mbPop c ch) s = .next
      ((s.setChan c ch fun x => { x with txFull := false }).setChan c ch fun x => { x with
        openCmd := some (bitsOf h 15 0, bitsOf h 26 19, ((s.chan c ch).tx.drop 1).take 7, s.time.mono) })) ∧
  (∀ (s : State) (c : Fin 2) (ch : Fin 512) (h : Nat), (s.chan c ch).txFull = true → s.carriesOut c = true → ch.val < 256 →
    (s.chan c ch).irqTx = false → s.mbox.binds.lookup ch.val = none → h = ((s.chan c ch).tx.getD 0 0).toNat →
    bitOf h 27 = true →
    exec (.mbPop c ch) s = .next ((s.setChan c ch fun x => { x with txFull := false }).respondRaw c ch (bitsOf h 15 0)
      (bitsOf h 26 19) false [statusWord dBadArg 0])) ∧
  (∀ (s : State) (c : Fin 2) (ch : Fin 512) (m : Msg) (x : Channel), s.carriesOut c = true → ch.val < 256 →
    (s.chan c ch).nextUp = some (m, x) → (s.chan c ch).rxFull = false → (s.chan c ch).irqRx = false →
    exec (.mbUpPlace c ch) s = .next (s.setChan c ch fun _ => { x with rx := m, rxFull := true })) ∧
  (∀ (s : State) (ip : BitVec 32) (port : BitVec 16) (b : List Byte) (h : Nat), s.serving = some h → 36 ≤ b.length →
    b.length ≤ 260 → (b.length - 4) % 32 = 0 → 256 ≤ fieldAt b 0 2 → fieldAt b 0 2 ≤ 287 → fieldAt b 2 2 = 0 →
    s.mbox.binds.lookup (fieldAt b 0 2) = none →
    exec (.mgmtDatagramReceive ip port b) s = .next
      (({ s with mbox := { s.mbox with binds := (mput s.mbox.binds (fieldAt b 0 2)
          { ip := ip.toNat, port := port.toNat, last := s.time.mono, queue := toMsgs (b.drop 4) }) } } : State).feed h
        (fieldAt b 0 2))) ∧
  (∀ (s : State) (ip : BitVec 32) (port : BitVec 16) (b : List Byte), s.serving = none →
    exec (.mgmtDatagramReceive ip port b) s =
      .next { s with mgmt := { s.mgmt with discarded := satAdd 0xFFFF s.mgmt.discarded 1 } }) ∧
  (∀ (s : State) (c : Fin 2) (ch : Fin 512) (x y : Nat) (l : List Word) (t : Nat),
    (s.chan c ch).openCmd = some (x, y, l, t) → t + 1000000000 ≤ s.time.mono →
    exec (.fragmentTimeout c ch) s = .next (s.setChan c ch fun x => { x with openCmd := none })) ∧
  (∀ (s : State) (c : Fin 2) (ch : Fin 512), (s.chan c ch).txFull = true → s.carriesOut c = true → 416 ≤ ch.val →
    exec (.mbPop c ch) s = .refused .internalOpcode) ∧
(∀ (s : State) (src : BitVec 15) (b : List Byte) (h : Nat) (e : Nat × Bind),
    s.serving = some h → b.length % 32 = 0 → 32 ≤ b.length → b.length ≤ 256 →
    s.mbox.binds.find? (fun e => e.1 ≥ 288 && e.2.ip == src.toNat) = some e →
    exec (.mgmtPacketReceive src b) s = .next ((s.takeMgmt b).enqueue h e.1 src.toNat 0 (toMsgs b))) ∧
  (∀ (s : State) (src : BitVec 15) (b : List Byte) (h i : Nat),
    s.serving = some h → b.length % 32 = 0 → 32 ≤ b.length → b.length ≤ 256 →
    s.mbox.binds.find? (fun e => e.1 ≥ 288 && e.2.ip == src.toNat) = none →
    (List.range 128).find? (fun i => (s.mbox.binds.lookup (288 + i)).isNone) = some i →
    exec (.mgmtPacketReceive src b) s = .next ((s.takeMgmt b).enqueue h (288 + i) src.toNat 0 (toMsgs b))) ∧
  (∀ (s : State) (src : BitVec 15) (b : List Byte), s.serving = none →
    exec (.mgmtPacketReceive src b) s = .next (s.takeMgmt b))

/-- R326, R330: the acceptance of a command, shown on LedgerSubscribe, SliceRelease, DataCursorSet and PowerCap. R322, R326, R336:
the frame of every Darid answer. -/
def Obligations.DaridProtocol : Prop :=
  (∀ (r : DReq) (s : State), s.ready 0x0304 r = true → senderOf r.ch.val = some .c →
    exec (.sliceRelease r) s = .next (answerDarid (whoOf 0x0304 true r) { s := s, status := dDenied })) ∧
  (∀ (r : DReq) (s : State), s.heard 0x0804 [.c, .m, .f] r = true → r.args.length ≠ 1 →
    exec (.ledgerSubscribe r) s = .next (answerDarid (whoOf 0x0804 true r) { s := s, status := dBadLength })) ∧
  (∀ (r : DReq) (s : State), s.carriesOut r.ctd.val = true → (s.chan r.ctd.val r.ch.val).cache = none →
    s.ctd.nv.latched = true → senderOf r.ch.val = some .f →
    exec (.powerCap r) s = .next (answerDarid (whoOf 0x0F02 true r) { s := s, status := dOos })) ∧
  (∀ (r : DReq) (s : State) (fin : List Word), s.carriesOut r.ctd.val = true →
    (s.chan r.ctd.val r.ch.val).cache = some (0x0609, r.seq.toNat, some fin) →
    exec (.dataCursorSet r) s = .next (s.respondRaw r.ctd.val r.ch.val 0x0609 r.seq.toNat true fin)) ∧
  (∀ (r : DReq) (s : State) (o q : Nat), s.carriesOut r.ctd.val = true → ¬(o = 0x0804 ∧ q = r.seq.toNat) →
    (s.chan r.ctd.val r.ch.val).cache = some (o, q, none) →
    exec (.ledgerSubscribe r) s = .next
      (s.respondRaw r.ctd.val r.ch.val 0x0804 r.seq.toNat false [statusWord dBusy 0])) ∧
∀ (w : Who) (d : DRes) (t : State), d.status ≠ dPending → t = answerDarid w d →
    (t.chan w.ctd w.ch).cache =
      some (w.op, w.seq, some ((statusWord d.status d.detail :: d.words.map (BitVec.ofNat 32)).take 1024)) ∧
    (t.chan w.ctd w.ch).up = (d.s.chan w.ctd w.ch).up ++ fragments w.op w.seq true false false
      ((statusWord d.status d.detail :: d.words.map (BitVec.ofNat 32)).take 1024) ∧
    t.fuse = d.s.fuse ∧ t.pending = d.s.pending ∧ t.mem = d.s.mem ∧ t.time = d.s.time ∧ t.eng = d.s.eng ∧
    t.fab = d.s.fab ∧ t.ctd = d.s.ctd ∧ t.job = d.s.job ∧ t.toll = d.s.toll ∧ t.power = d.s.power ∧ t.mod = d.s.mod ∧
    t.sched = d.s.sched ∧ t.free = d.s.free

/-- R424, R427, R433 to R436: the commands 0x0601 to 0x0604 and 0x0607 to 0x060A. Completion is stated of:
HOARD_CONFIG, HOARD_SNAPSHOT, HOARD_RESTORE, SPARE_FILL, SEED_STREAM_SET, SEED_STREAM_GET, DATA_CURSOR_SET,
DATA_CURSOR_GET. -/
def Obligations.HoardCommands : Prop :=
  (∀ (r : DReq) (s : State) (c n base size : Nat) (ps : List Nat) (e : Nat) (x : SliceEnt), s.heard 0x0601 [.m, .f] r = true →
    r.args.length = 8 → c = argOf r 0 → c < 256 → n = argOf r 1 → 1 ≤ n → n ≤ 3 →
    (∀ i, 2 ≤ i → i ≤ 4 → argOf r i < 2 ^ 15 ∧ (n + 2 ≤ i → argOf r i = 0)) → argOf r 7 = 0 →
    ps = ((DReq.nums r).drop 2).take n → base = argOf r 5 * 2 ^ 21 → size = argOf r 6 * 2 ^ 21 → base < usableTop →
    size ≤ usableTop → ps.contains s.ownId = false → noDup ps = true → (s.ctx c).slice = some e →
    s.fab.slices.lookup e = some x →
    x.wins.any (fun w => w.2.1 * 2 ^ 21 ≤ base && base + size ≤ (w.2.1 + w.2.2) * 2 ^ 21) = true →
    (s.localWins c).any (fun w => meets w.1 w.2 base size) = false → 4 * 2 ^ 20 ≤ argOf r 6 / n * 2 ^ 21 →
    s.snap? c = none → s.job.fills.any (·.ctx == c) = false →
    exec (.hoardConfig r) s = .next (answerDarid (whoOf 0x0601 true r)
      { s := s.setCtx c fun y => { y with hoard := (some
          { copies := n, partners := ps, base := argOf r 5, size := argOf r 6, pred := none }) } })) ∧
  (∀ (r : DReq) (s : State) (h : HoardCfg), s.heard 0x0602 [.c, .m, .f] r = true →
    (senderOf r.ch.val = some .c → ownCtx s r.ch.val (DReq.nums r) = true) → r.args.length = 1 → argOf r 0 < 256 →
    s.snap? (argOf r 0) = none → s.job.fills.any (·.ctx == argOf r 0) = false → (s.ctx (argOf r 0)).st = .active →
    (s.ctx (argOf r 0)).hoard = some h →
    exec (.hoardSnapshot r) s = .next (answerDarid (whoOf 0x0602 true r)
      { s := ({ s with job := { s.job with snaps := s.job.snaps ++ [{ ctx := argOf r 0, who := some (whoOf 0x0602 true r)
                                                                      sem := none, hold := true
                                                                      startAt := s.time.mono }] } } : State).setCtx
          (argOf r 0) fun y => { y with held := true }
        status := dPending })) ∧
  (∀ (r : DReq) (s : State) (h : HoardCfg), s.heard 0x0603 [.m, .f] r = true → r.args.length = 4 → argOf r 0 < 256 →
    argOf r 1 < 2 ^ 15 → (s.ctx (argOf r 0)).hoard = some h → h.partners.contains (argOf r 1) = true →
    s.job.fills.any (·.ctx == argOf r 0) = false → s.snap? (argOf r 0) = none →
    exec (.hoardRestore r) s = .next (answerDarid (whoOf 0x0603 true r)
      { s := s.addFill { ctx := argOf r 0, who := some (whoOf 0x0603 true r), restore := true, prio := 65535
                         sources := [argOf r 1], step := BitVec.ofNat 64 (arg64Of r 2), startAt := s.time.mono }
        status := dPending })) ∧
  (∀ (r : DReq) (s : State) (h : HoardCfg), s.heard 0x0604 [.m, .f] r = true → r.args.length = 5 → argOf r 0 < 256 →
    argOf r 1 < 65536 → argOf r 2 ≠ 0 → (s.ctx (argOf r 0)).hoard = some h → h.partners.contains (argOf r 2) = true →
    argOf r 3 = 0 → s.job.fills.any (·.ctx == argOf r 0) = false → s.snap? (argOf r 0) = none →
    exec (.spareFill r) s = .next (answerDarid (whoOf 0x0604 true r)
      { s := s.addFill { ctx := argOf r 0, who := some (whoOf 0x0604 true r), restore := false, prio := argOf r 1
                         sources := [argOf r 2], startAt := s.time.mono }
        status := dPending })) ∧
  (∀ (r : DReq) (s : State), s.heard 0x0607 [.c, .m, .f] r = true →
    (senderOf r.ch.val = some .c → ownStream s r.ch.val (DReq.nums r) = true) → r.args.length = 13 → argOf r 0 < 1024 →
    exec (.seedStreamSet r) s = .next (answerDarid (whoOf 0x0607 true r)
      { s := { s with eng := { s.eng with streams := (mput s.eng.streams (argOf r 0)
          { key := [BitVec.ofNat 64 (arg64Of r 1), BitVec.ofNat 64 (arg64Of r 3), BitVec.ofNat 64 (arg64Of r 5),
              BitVec.ofNat 64 (arg64Of r 7)]
            ctr := arg64Of r 9 + 2 ^ 64 * arg64Of r 11 }) } } })) ∧
  (∀ (r : DReq) (s : State), s.heard 0x0608 [.c, .m, .f] r = true →
    (senderOf r.ch.val = some .c → ownStream s r.ch.val (DReq.nums r) = true) → r.args.length = 1 → argOf r 0 < 1024 →
    exec (.seedStreamGet r) s = .next (answerDarid (whoOf 0x0608 false r)
      { s := s
        words := (List.range 4).flatMap (fun i => lohi ((s.stream (argOf r 0)).key.getD i 0).toNat) ++
          lohi ((s.stream (argOf r 0)).ctr % 2 ^ 64) ++ lohi ((s.stream (argOf r 0)).ctr / 2 ^ 64) })) ∧
  (∀ (r : DReq) (s : State), s.heard 0x0609 [.c, .m, .f] r = true →
    (senderOf r.ch.val = some .c → ownCtx s r.ch.val (DReq.nums r) = true) → r.args.length = 3 → argOf r 0 < 2 ^ 14 →
    exec (.dataCursorSet r) s = .next (answerDarid (whoOf 0x0609 true r)
      { s := s.setCtx (argOf r 0 % 256) fun x =>
          { x with cursors := mput x.cursors (argOf r 0 / 256) (BitVec.ofNat 64 (arg64Of r 1)) } })) ∧
  (∀ (r : DReq) (s : State), s.heard 0x060A [.c, .m, .f] r = true →
    (senderOf r.ch.val = some .c → ownCtx s r.ch.val (DReq.nums r) = true) → r.args.length = 1 → argOf r 0 < 2 ^ 14 →
    exec (.dataCursorGet r) s = .next (answerDarid (whoOf 0x060A false r)
      { s := s, words := lohi (mget 0 (s.ctx (argOf r 0 % 256)).cursors (argOf r 0 / 256)).toNat }))

/-- R442 to R445: CellarWrite, CellarRead, CELLAR_DONE, CELLAR_DEVICE. Completion is stated of: CELLAR_WRITE,
CELLAR_READ, CELLAR_DONE, CELLAR_DEVICE. -/
def Obligations.Cellar : Prop :=
  (∀ (r : DReq) (s : State) (p nsid size off : Nat), s.heard 0x0605 [.c, .m, .f] r = true →
    (senderOf r.ch.val = some .c → ownCtx s r.ch.val (DReq.nums r) = true) → r.args.length = 6 →
    bitsOf (argOf r 0) 15 9 = 0 → nsid = bitsOf (argOf r 0) 31 16 → nsid ≠ 0 → p = bitsOf (argOf r 0) 8 8 →
    s.unitOn (14 + p) = true → (s.cellar p).present = true → (s.cellar p).failed = false →
    (s.cellar p).nss.lookup nsid = some (size, true) → arg64Of r 3 < 2 ^ 52 → s.place (arg64Of r 3) = .loc off →
    off % 4096 = 0 → s.inLocalWin (argOf r 0 % 256) off (argOf r 5 * 4096) = true → arg64Of r 1 + argOf r 5 ≤ size →
    exec (.cellarWrite r) s = .next (answerDarid (whoOf 0x0605 true r)
      { s := s.setCellar p fun x => { x with jobs := x.jobs ++ [{
          who := whoOf 0x0605 true r, write := true, ctx := argOf r 0 % 256, nsid := nsid, lba := arg64Of r 1, addr := off
          len := argOf r 5, startAt := s.time.mono }] }
        status := dPending })) ∧
  (∀ (r : DReq) (s : State) (p nsid size off : Nat), s.heard 0x0606 [.c, .m, .f] r = true →
    (senderOf r.ch.val = some .c → ownCtx s r.ch.val (DReq.nums r) = true) → r.args.length = 6 →
    bitsOf (argOf r 0) 15 9 = 0 → nsid = bitsOf (argOf r 0) 31 16 → nsid ≠ 0 → p = bitsOf (argOf r 0) 8 8 →
    s.unitOn (14 + p) = true → (s.cellar p).present = true → (s.cellar p).failed = false →
    (s.cellar p).nss.lookup nsid = some (size, true) → arg64Of r 3 < 2 ^ 52 → s.place (arg64Of r 3) = .loc off →
    off % 4096 = 0 → s.inLocalWin (argOf r 0 % 256) off (argOf r 5 * 4096) = true → arg64Of r 1 + argOf r 5 ≤ size →
    exec (.cellarRead r) s = .next (answerDarid (whoOf 0x0606 true r)
      { s := s.setCellar p fun x => { x with jobs := x.jobs ++ [{
          who := whoOf 0x0606 true r, write := false, ctx := argOf r 0 % 256, nsid := nsid, lba := arg64Of r 1, addr := off
          len := argOf r 5, startAt := s.time.mono }] }
        status := dPending })) ∧
  (∀ (s : State) (p : Fin 2) (j : CellarJob) (rest : List CellarJob) (b : List NvmeBlock) (out : List (Nat × BitVec 128 × List Byte)),
    (s.cellar p).jobs = j :: rest → j.write = true → (s.cellar p).ioQueues ≠ 0 → s.cellarReach j State.regionUp = true →
    out = (s.setCellar p fun x => { x with jobs := rest }).blocksOf j j.len →
    exec (.cellarDone p none b) s = .next
      (((s.setCellar p fun x => { x with jobs := rest }).setCellar p fun x => { x with sent := out }).endCellar p j 0 j.len
        (out.foldl (fun k b => k + (setBits 128 b.2.1.toNat).length) 0))) ∧
  (∀ (s : State) (p : Fin 2) (j : CellarJob) (rest : List CellarJob) (b : NvmeBlock) (d : List Byte),
    (s.cellar p).jobs = j :: rest → j.write = false → (s.cellar p).ioQueues ≠ 0 → s.cellarReach j State.regionUp = true →
    j.len = 1 → b.data = some d → b.husks = 0 →
    exec (.cellarDone p none [b]) s = .next
      (((s.setCellar p fun x => { x with jobs := rest }).setMem fun m => m.write j.addr (padTo 4096 0 d) []).endCellar p j 0 1 0)) ∧
  (∀ (s : State) (p : Fin 2) (j : CellarJob) (rest : List CellarJob) (o : Option Bool) (b : List NvmeBlock),
    (s.cellar p).jobs = j :: rest → (s.cellar p).ioQueues ≠ 0 → s.cellarReach j (fun s d => !s.regionFailed d) = false →
    exec (.cellarDone p o b) s = .next ((s.setCellar p fun x => { x with jobs := rest }).endCellar p j 1 0 0)) ∧
  (∀ (s : State) (p : Fin 2) (w n : BitVec 32) (nss : List (Nat × Nat × Bool)) (h : Nat), s.serving = some h →
    s.unitOn (14 + p) = true →
    exec (.cellarDevice p 0 w n nss) s = .next (s.setCellar p fun x => { x with
      present := true, failed := false, ioQueues := 16
      nss := nss.foldl (fun (m : SMap (Nat × Bool)) n => mput m n.1 n.2) [] }))

/-- R426, R428, R437, R440: HOARD_READ_POINT, HOARD_COPY_COMMIT, SPARE_FILL_DONE. Completion is stated of:
HOARD_READ_POINT, HOARD_COPY_COMMIT, SPARE_FILL_DONE. -/
def Obligations.HoardProgress : Prop :=
  (∀ (s : State) (c : Fin 256) (x : Snapshot) (h : HoardCfg), s.snap? c = some x → (s.ctx c).hoard = some h →
    x.latched = false → x.stop = false → (s.ctx c).st = .active →
    s.eng.queues.any (fun e => e.1 / 64 == c.val && !e.2.started.isEmpty) = false →
    2 ^ 21 + sumSizes (s.localWins c) ≤ h.baySize →
    ∃ y, y = { x with latched := true, wins := s.localWins c, meta_ := s.hoardMeta c (s.localWins c), step := s.time.step } ∧
      exec (.hoardReadPoint c) s = .next ((s.setSnap c fun _ => y).beginCopy y 0).jobSweep) ∧
  (∀ (s : State) (c : Fin 256) (x : Snapshot), s.snap? c = some x → x.latched = true → x.stage = 2 → x.puts = 0 →
    x.reason = 0 → x.stop = false → (s.ctx c).st = .active →
    exec (.hoardCopyCommit c) s = .next
      (s.beginCopy { x with doneMask := x.doneMask ||| 2 ^ x.copy } (x.copy + 1)).jobSweep) ∧
  (∀ (s : State) (c : Fin 256) (x : Fill) (w : Who), s.runningFill = some x → x.ctx = c.val → x.stage = 3 →
    x.complete = false → x.noSuch = true → x.who = some w →
    ∃ t, t = ({ s with job := { s.job with fills := s.job.fills.filter fun y => y.stage == 0 } } : State) ∧
      exec (.spareFillDone c) s = .next ((t.setCtx c fun y =>
        { y with held := t.job.fills.any fun z => z.ctx == c.val, fillSource := 0 }).finish w dNoSuch 0 []).jobSweep) ∧
  (∀ (s : State) (c : Fin 256) (x : Fill) (w : Who), s.runningFill = some x → x.ctx = c.val → x.stage = 3 →
    x.complete = true → x.noSuch = false → x.restore = false → x.who = some w →
    ∃ t u : State, t = { s with job := { s.job with fills := s.job.fills.filter fun y => y.stage == 0 } } ∧
      u = (t.setCtx c fun y =>
        { y with
          held := t.job.fills.any fun z => z.ctx == c.val, fillSource := 0
          cursors := (List.range 64).map fun i => (i, BitVec.ofNat 64 (fieldAt x.bytesOf (0x140 + 8 * i) 8)) }) ∧
      exec (.spareFillDone c) s = .next ((({ u with eng := { u.eng with
        streams := (metaStreams x.bytesOf).foldl (fun m r => mput m r.1 { key := r.2.1, ctr := r.2.2 }) u.eng.streams } }
        : State).logFw 0x0605 3 ([c.val, x.last, 1] ++ lohi x.step.toNat ++ lohi x.bytes ++ [x.husks])).finish w dOk
          (x.last + 4 + x.reason * 2 ^ 8) []).jobSweep)

/-- R404, R406, R409, R411, R502: the commands 0x0202, 0x0701 to 0x0703 and 0x0706. R400, R409, R411 to R413:
ENGINE_RESET_END, DIE_RESET_END, HEARTBEAT_CHECK. Completion is stated of: CONTEXT_RELEASE, CONTEXT_RESET,
ENGINE_RESET, ENGINE_RESET_END, DIE_RESET, DIE_RESET_END, FAULT_RECORD_READ, HEARTBEAT_CHECK. -/
def Obligations.ResetCommandsAndEnds : Prop :=
  (∀ (r : DReq) (s : State), s.heard 0x0701 [.c, .m, .f] r = true →
    (senderOf r.ch.val = some .c → ownCtx s r.ch.val (DReq.nums r) = true) → r.args.length = 1 → argOf r 0 < 256 →
    (s.ctx (argOf r 0)).st ≠ .free →
    exec (.contextReset r) s = .next (answerDarid (whoOf 0x0701 true r)
      { s := s.startCtxReset (argOf r 0) 1 [whoOf 0x0701 true r], status := dPending })) ∧
  (∀ (r : DReq) (s : State), s.heard 0x0202 [.m, .f] r = true → r.args.length = 1 → argOf r 0 < 256 →
    (s.ctx (argOf r 0)).st ≠ .free →
    exec (.contextRelease r) s = .next (answerDarid (whoOf 0x0202 true r)
      { s := s.startCtxReset (argOf r 0) 3 [whoOf 0x0202 true r], status := dPending })) ∧
  (∀ (r : DReq) (s : State) (j : Nat), s.heard 0x0702 [.m, .f] r = true → r.args.length = 1 →
    engArg (argOf r 0) = some j →
    exec (.engineReset r) s = .next (answerDarid (whoOf 0x0702 true r)
      { s := s.startEngReset j 1 [whoOf 0x0702 true r], status := dPending })) ∧
  (∀ (r : DReq) (s : State), s.heard 0x0703 [.m, .f] r = true → r.args.length = 1 → argOf r 0 < 4 →
    ((s.die (argOf r 0)).inReset = false ∨ (s.die (argOf r 0)).resetStart ≠ none) →
    exec (.dieReset r) s = .next (answerDarid (whoOf 0x0703 true r)
      { s := s.startDieReset (argOf r 0) 1 [whoOf 0x0703 true r], status := dPending })) ∧
  (∀ (r : DReq) (s : State), s.heard 0x0706 [.c, .m, .f] r = true →
    (senderOf r.ch.val = some .c → ownCtx s r.ch.val (DReq.nums r) = true) → r.args.length = 1 → argOf r 0 < 256 →
    bitsOf (((s.ctx (argOf r 0)).faultRec.map (·.toNat)).getD 0 0) 11 8 ≠ 0 →
    exec (.faultRecordRead r) s = .next (answerDarid (whoOf 0x0706 false r)
      { s := s, words := (s.ctx (argOf r 0)).faultRec.map (·.toNat) })) ∧
(∀ (s : State) (j : Fin 112) (l : List PatternResult), (s.engine j).st = .resetting → (s.die (engDie j)).inReset = false →
    (s.pairOf j).headD j = j.val →
    ∃ t, t = s.resetRun j l ∧
      exec (.engineResetEnd j l) s = .next
        ((((t.log 0x0703 4 (srcDieUnit (engDie j) (engUnit j))
          [j.val, (s.engine j).resetCause, (s.engine j).stopped, (s.engine j).lostCtxs,
           b2n ((s.sv j).st != .outOfService && s.silent.packValid && l.any (·.fail)), (t.sv j).st.code,
           (t.time.mono - (s.engine j).resetStart) / 1000]).engineBack j).jobSweep))) ∧
  (∀ (s : State) (d : Fin 4) (l : List (Nat × List PatternResult)) (n : List Nat), (s.die d).resetStart = none →
    exec (.dieResetEnd d l n) s = .next s) ∧
  (∀ (s : State) (d : Fin 4) (l : List (Nat × List PatternResult)) (n : List Nat) (start h : Nat), (s.die d).resetStart = some start →
    s.serving = some h → ∃ t, exec (.dieResetEnd d l n) s = .next t ∧ (t.die d).inReset = false) ∧
  (∀ (s : State) (d : Fin 4) (b : List (Nat × Nat)), (s.die d).inReset = true → exec (.heartbeatCheck d b) s = .next s) ∧
  (∀ (s : State) (d : Fin 4) (b : List (Nat × Nat)), (s.die d).inReset = false →
    (∀ e ∈ s.eng.queues, engDie e.2.eng ≠ d.val) → exec (.heartbeatCheck d b) s = .next s) ∧
  (∀ (s : State) (d : Fin 4) (b : List (Nat × Nat)) (k : Nat) (u : Queue), (s.die d).inReset = false →
    s.eng.queues = [(k, u)] → engDie u.eng = d.val →
    exec (.heartbeatCheck d b) s = .next (s.checkQueue d (k / 64) (k % 64) ((b.lookup k).getD 0)))

/-- R406, R407, R502: CONTEXT_RESET_DONE and CONTEXT_RELEASE_DONE on a module without jobs. Completion is stated of:
CONTEXT_RESET_DONE, CONTEXT_RELEASE_DONE. -/
def Obligations.ContextResetEnds : Prop :=
  (∀ (s : State) (c : Fin 256), (s.ctx c).st = .resetting → (s.ctx c).releasing = false → s.resetWaits c = false →
    s.job.snaps = [] → s.job.fills = [] →
    ∃ t, exec (.contextResetDone c) s = .next t ∧ (t.ctx c).st = .active ∧ t.mem = s.mem ∧ t.fuse = s.fuse ∧
      t.pending = s.pending ∧
      (∀ k u, s.eng.queues.lookup k = some u → k / 64 ≠ c.val → t.eng.queues.lookup k = some u) ∧
      (∀ k u, s.eng.queues.lookup k = some u → k / 64 = c.val → u.st ≠ .unbound → (s.engine u.eng).st ≠ .resetting →
        ∃ v, t.eng.queues.lookup k = some v ∧ v.st = .idle ∧ v.head = u.done ∧ v.tail = u.done ∧ v.done = u.done)) ∧
  (∀ (s : State) (c : Fin 256), (s.ctx c).st = .resetting → (s.ctx c).releasing = true → s.resetWaits c = false →
    s.eng.queues.any (fun e => e.1 / 64 == c.val && !e.2.owedRecs.isEmpty) = false → s.job.snaps = [] → s.job.fills = [] →
    ∃ t, exec (.contextReleaseDone c) s = .next t ∧ (t.ctx c).st = .free ∧ t.fuse = s.fuse ∧ t.pending = s.pending ∧
      t.mem = s.mem ∧ t.eng.queues = s.eng.queues.filter (fun k => k.1 / 64 != c.val))

/-- R332, R377, R382, R391, R392: the commands 0x0501 to 0x0507. R377, R379, R384, R386, R392, R393: SIEVE_RUN_START,
SIEVE_RUN_END, SIEVE_AGE_CHECK, TALLY_DECAY. Completion is stated of: SIEVE_PACK_COMMIT, SIEVE_POLICY, SIEVE_RUN_NOW,
SIEVE_QUERY, TAINT_READ, TAINT_CLEAR, TALLY_QUERY, SIEVE_RUN_START, SIEVE_RUN_END, SIEVE_AGE_CHECK, TALLY_DECAY. -/
def Obligations.SieveRules : Prop :=
  (∀ (r : DReq) (s : State) (b : List Byte), s.heard 0x0501 [.m] r = true → r.args.length = 0 →
    s.mbox.stage.target = some 3 → s.mbox.stage.job = none → b = s.stagedBytes 4194304 →
    s.packCheck b s.ctd.nv.packVersion = dOk →
    exec (.sievePackCommit r) s = .next (answerDarid (whoOf 0x0501 true r)
      { s := { s with mbox := { s.mbox with stage :=
          { job := some (some (whoOf 0x0501 true r), 3, b.take (fieldAt b 16 4 + 384)) } } }
        status := dPending })) ∧
  (∀ (r : DReq) (s : State), s.heard 0x0502 [.m, .f] r = true → r.args.length = 3 → 1 ≤ argOf r 0 → argOf r 0 ≤ 1024 →
    1 ≤ argOf r 1 → argOf r 1 ≤ argOf r 0 → 4 ≤ argOf r 2 → argOf r 2 ≤ 16 →
    exec (.sievePolicy r) s = .next (answerDarid (whoOf 0x0502 true r)
      { s := { s with silent := { s.silent with period := argOf r 0, probPeriod := argOf r 1, checkExp := argOf r 2 } } })) ∧
  (∀ (r : DReq) (s : State) (j u : Nat), s.heard 0x0503 [.m, .f] r = true → r.args.length = 1 →
    engArg (argOf r 0) = some j → u = (s.pairOf j).headD j → (s.sv u).busy = false → ((s.sv u).st ≠ .outOfService ∨ (s.sv u).resetSince = true) →
    s.silent.packValid = true →
    exec (.sieveRunNow r) s = .next (answerDarid (whoOf 0x0503 true r)
      { s := s.setSv u fun e => { e with due := true, waiters := e.waiters ++ [whoOf 0x0503 true r] }
        status := dPending })) ∧
  (∀ (r : DReq) (s : State) (j : Nat), s.heard 0x0504 [.c, .m, .f] r = true → r.args.length = 1 →
    engArg (argOf r 0) = some j →
    exec (.sieveQuery r) s = .next (answerDarid (whoOf 0x0504 false r)
      { s := s, words := lohi (s.sv j).cleanStep.toNat ++ [s.engStatus j] })) ∧
  (∀ (r : DReq) (s : State), s.heard 0x0505 [.c, .m, .f] r = true →
    (senderOf r.ch.val = some .c → ownCtx s r.ch.val (DReq.nums r) = true) → r.args.length = 3 → argOf r 0 < 256 →
    argOf r 1 < 720 → 1 ≤ argOf r 2 → argOf r 1 + argOf r 2 ≤ 720 →
    exec (.taintRead r) s = .next (answerDarid (whoOf 0x0505 false r)
      { s := s
        words := (List.range (argOf r 2)).map fun i => ofBits ((List.range 32).filter fun b =>
          (s.ctx (argOf r 0)).taint.contains (32 * (argOf r 1 + i) + b)) })) ∧
  (∀ (r : DReq) (s : State), s.heard 0x0506 [.c, .m, .f] r = true →
    (senderOf r.ch.val = some .c → ownCtx s r.ch.val (DReq.nums r) = true) → r.args.length = 1 → argOf r 0 < 256 →
    exec (.taintClear r) s = .next (answerDarid (whoOf 0x0506 true r)
      { s := s.setCtx (argOf r 0) fun x => { x with taint := [], taintDies := 0, taintRemote := none, taintWrites := 0 } })) ∧
  (∀ (r : DReq) (s : State), s.heard 0x0507 [.c, .m, .f] r = true → r.args.length = 0 →
    exec (.tallyQuery r) s = .next (answerDarid (whoOf 0x0507 false r)
      { s := s, words := [s.silent.tally, s.silent.tallySt] })) ∧
(∀ (s : State) (j : Fin 112), s.mayRun j = true →
    ∃ t, t = (s.pairOf j).foldl (fun s k => (s.setSv k fun e =>
        { e with sieving := true, due := false, runImmediate := e.immediate, immediate := false
                 runPack := s.silent.version }).setEng k fun e => { e with st := .sieve }) s ∧
      exec (.sieveRunStart j) s = .next
        { t with silent := { t.silent with running := t.silent.running.set (engDie j) (some j.val) } }) ∧
  (∀ (s : State) (j : Fin 112) (l : List PatternResult), s.silent.running.getD (engDie j) none = some j.val →
    ∃ t u, t = (s.pairOf j).foldl (fun s k => s.setEng k fun e => { e with st := .idle })
        ({ s with silent := { s.silent with running := s.silent.running.set (engDie j) none } } : State) ∧
      u = (t.queuesOn j).foldl (fun s e => s.setQueue (e.1 / 64) (e.1 % 64) fun q => { q with beatAt := s.time.mono }) t ∧
      exec (.sieveRunEnd j l) s = .next (((u.verdict j l (s.sv j).runImmediate false).answerRuns j l).releaseHarts)) ∧
  (∀ (s : State), (s.time.podValid = true ∨ s.time.mono < s.silent.lastAge + 1000000000) →
    exec .sieveAgeCheck s = .next s) ∧
  (∀ (s : State), s.time.podValid = false → s.silent.lastAge + 1000000000 ≤ s.time.mono →
    exec .sieveAgeCheck s = .next ((List.range 4).foldl (fun t d => t.sieveSlot d (stepNum s.time.step) true)
      { s with silent := { s.silent with lastAge := s.time.mono } })) ∧
  (∀ (s : State), s.time.mono < s.silent.lastDecay + 3600000000000 → exec .tallyDecay s = .next s) ∧
  (∀ (s : State), s.silent.lastDecay + 3600000000000 ≤ s.time.mono →
    ∃ t, exec .tallyDecay s = .next t ∧
      (tallyNext s.silent.tallySt (s.silent.tally - (s.silent.tally + 31) / 32) = s.silent.tallySt →
        t = { s with silent := { s.silent with
          tally := s.silent.tally - (s.silent.tally + 31) / 32, lastDecay := s.time.mono } }))

/-- R197, R367 to R375: ME_TILE_DONE, CHECKER_VERDICT, ARBITER_VERDICT, without damage in memory. Completion is stated
of: ME_TILE_DONE, CHECKER_VERDICT, ARBITER_VERDICT. -/
def Obligations.MatrixTiles : Prop :=
  (∀ (s v : State) (c : Fin 256) (q : Fin 64) (ix : BitVec 32) (g : Nat) (t : TileJob) (a b : _),
    s.tileJob c q ix g = some t → s.waitsOn t.x = false → t.x.checks = [] → t.x.work = true → t.rows ≠ [] →
    s.roomFor c q ix = true → v = s.engTouch t.j → v.mmOperands c (engDie t.j) t.x t.p t.rows t.cols = .ok (a, b) →
    (abftTile t.p t.rows t.cols a b (applyErrs t.rows t.cols (s.tileW t.j) (fmtInt t.p.af) [] (tileR t.p a b).1)).fails = false →
    2 ≤ (s.engine t.j).countdown →
    ∃ u, u = ((v.countEv (engDie t.j) 0x013 (t.j % 16) (some c) 1).countEv (engDie t.j) 0x011 (t.j % 16) (some c)
          (t.rows.length * t.cols.length * t.p.k / 1024)).bumpAbft t.j 0 0
            (abftTile t.p t.rows t.cols a b (applyErrs t.rows t.cols (s.tileW t.j) (fmtInt t.p.af) [] (tileR t.p a b).1)).unchecked
            0 ∧
      exec (.meTileDone c q ix g false [] [] []) s = .next (s.unlessWaits
        (((u.setEng t.j fun e => { e with countdown := (s.engine t.j).countdown - 1 }).finishTile c q t.x t.p t.j g t.rows
          t.cols (applyErrs t.rows t.cols (s.tileW t.j) (fmtInt t.p.af) [] (tileR t.p a b).1, (tileR t.p a b).2) false).tileCopy
            c q t g))) ∧
  (∀ (s : State) (c : Fin 256) (q : Fin 64) (ix : BitVec 32) (g : Nat) (t : TileJob) (e1 e2 : List WordFlip)
    (f : List LineFlip), s.tileJob c q ix g = some t → s.waitsOn t.x = false → t.x.checks = [] → s.roomFor c q ix = true →
    exec (.meTileDone c q ix g true e1 e2 f) s = .next (s.unlessWaits (s.startEngReset t.j 3 []))) ∧
  (∀ (s : State) (c : Fin 256) (q : Fin 64) (ix : BitVec 32) (g : Nat) (t : TileJob) (w : CheckWork) (a : Abft),
    s.tileJob c q ix g = some t → t.x.checks.find? (fun w => w.tile == g && w.chk.isNone) = some w → w.abft = false →
    s.roomFor c q ix = true → (s.ctx c).st = .active → s.eligible w.checker = true →
    s.recompute c t w.checker [] = .ok (w.orig, a) → a.fails = false →
    exec (.checkerVerdict c q ix g [] []) s = .next (s.unlessWaits
      (((s.bumpAbft w.checker 0 0 a.unchecked 1).finishTile c q t.x t.p t.j g t.rows t.cols w.orig true).tileCopy c q t g))) ∧
  (∀ (s : State) (c : Fin 256) (q : Fin 64) (ix : BitVec 32) (g : Nat) (t : TileJob) (w : CheckWork) (a : Abft)
    (v : List Int × Bool), s.tileJob c q ix g = some t →
    t.x.checks.find? (fun w => w.tile == g && w.chk.isSome) = some w → w.chk = some v → w.abft = false →
    s.roomFor c q ix = true → (s.ctx c).st = .active → s.eligible w.third = true →
    s.recompute c t w.third [] = .ok (w.orig, a) → a.fails = false → w.orig ≠ v →
    exec (.arbiterVerdict c q ix g [] []) s = .next (s.unlessWaits
      ((((((s.bumpAbft w.third 0 0 a.unchecked 1).disagree c q t g w w.third 1).suspect w.checker 2).finishTile c q t.x t.p t.j
        g t.rows t.cols w.orig true)).tileCopy c q t g)))

/-- R203, R332: MEM_INIT_DONE, MemClear, MEM_CLEAR_DONE. R183, R184, R186, R201, R202: PATROL_SCRUB_STEP,
MEM_TRAINING_DONE, MEM_THERMAL. Completion is stated of: PATROL_SCRUB_STEP, MEM_TRAINING_DONE, MEM_INIT_DONE,
MEM_THERMAL, MEM_CLEAR, MEM_CLEAR_DONE. -/
def Obligations.MemoryUpkeep : Prop :=
  (∀ (s : State) (d : Fin 4), (s.die d).inReset = false → s.ctd.lease.recovery = false → (s.memDie d).initDone = false →
    (List.range 6).all (fun i => (s.stack (6 * d + i)).up) = true →
    ∃ t, exec (.memInitDone d) s = .next t ∧ t.mem.store = s.mem.store ∧ t.fuse = s.fuse ∧ t.pending = s.pending ∧
      t.eng = s.eng ∧ t.fab = s.fab ∧
      (∀ a, cellGet t.mem.main.cells a = if dieOf a = d then 0 else cellGet s.mem.main.cells a) ∧
      (∀ k, k ∈ t.mem.main.husks ↔ k ∈ s.mem.main.husks ∧ dieOf (32 * k) ≠ d)) ∧
  (∀ (r : DReq) (s : State), s.heard 0x0707 [.m, .f] r = true → r.args.length = 3 → argOf r 0 < 4 →
    argOf r 1 < clearUnits → 1 ≤ argOf r 2 → argOf r 1 + argOf r 2 ≤ clearUnits →
    s.eng.ctxs.any (fun e => e.2.st != .free && (s.localWins e.1).any fun v =>
      meets (argOf r 0 * regionSize + argOf r 1 * 2 ^ 21) (argOf r 2 * 2 ^ 21) v.1 v.2) = false →
    exec (.memClear r) s = .next (answerDarid (whoOf 0x0707 true r)
      { s := { s with mem := { s.mem with clears := s.mem.clears ++
          [(whoOf 0x0707 true r, argOf r 0 * regionSize + argOf r 1 * 2 ^ 21, argOf r 2 * 2 ^ 21)] } }
        status := dPending })) ∧
  (∀ (s : State) (w : Who) (lo n : Nat) (rest : List (Who × Nat × Nat)), s.mem.clears = (w, lo, n) :: rest →
    s.regionUp (dieOf lo) = true →
    ∃ u t : State, exec .memClearDone s = .next t ∧ t = u.finish w dOk 0 [] ∧ u.mem.store = s.mem.store ∧ u.mem.clears = rest ∧
      u.mbox = s.mbox ∧ u.eng = s.eng ∧
      (∀ a, cellGet u.mem.main.cells a = if lo ≤ a ∧ a < lo + n then 0 else cellGet s.mem.main.cells a) ∧
      (∀ k, k ∈ u.mem.main.husks ↔ k ∈ s.mem.main.husks ∧ ¬(lo ≤ 32 * k ∧ 32 * k < lo + n))) ∧
(∀ (s : State) (d : Fin 4), (s.memDie d).scrubH ≠ 0 → s.regionUp d = true →
    (List.range 6).any (fun i => (s.stack (6 * d + i)).selfRefresh) = false → (s.memDie d).scrubLine + 1 < 2 ^ 25 →
    d.val < s.mem.dies.length →
    exec (.patrolScrubStep d []) s = .next (s.setMemDie d fun m => { m with scrubLine := m.scrubLine + 1 })) ∧
  (∀ (s : State) (d : Fin 4) (l : List LineFlip), (s.memDie d).scrubH = 0 → exec (.patrolScrubStep d l) s = .next s) ∧
  (∀ (s : State) (k : Fin 24) (b : Fin 4), s.power.rails = true → (s.stack k).up = false → (s.stack k).rate ≠ 3 →
    b.val ≠ 3 → b.val ≠ (s.stack k).rate →
    exec (.memTrainingDone k b) s = .next ((State.log (s.setStack k fun t =>
        { t with rate := b.val, up := true }) 0x1203 4 (srcDieUnit (k / 6) 65)
          [k.val / 6, k.val, b.val, (s.stack k).rate]).releaseHarts)) ∧
  (∀ (s : State) (k : Fin 24) (b : Fin 4), s.power.rails = true → (s.stack k).up = false → (s.stack k).rate ≠ 3 →
    b.val = (s.stack k).rate →
    exec (.memTrainingDone k b) s = .next (State.releaseHarts (s.setStack k fun t => { t with rate := b.val, up := true }))) ∧
  (∀ (s : State) (k : Fin 24), s.power.rails = true → (s.stack k).up = false → (s.stack k).rate ≠ 3 →
    exec (.memTrainingDone k 3) s = .next ((State.log (s.setStack k fun t =>
        { t with rate := 3, up := false, selfRefresh := false }) 0x1204 6 (srcDieUnit (k / 6) 65)
          [k.val / 6, k.val, 2]).releaseHarts)) ∧
  (∀ (s : State) (k : Fin 24) (c : BitVec 8), (s.die (k / 6)).inReset = false → 95 < c.toNat → (s.stack k).limited = false →
    exec (.memThermal k c) s = .next (((s.setStack k fun x => { x with tempC := c.toNat, limited := true }).alertCheck).log
      0x1208 3 (srcDieUnit (k / 6) 65) [k.val / 6, k.val, c.toNat, 1])) ∧
  (∀ (s : State) (k : Fin 24) (c : BitVec 8), (s.die (k / 6)).inReset = false → c.toNat ≤ 90 → (s.stack k).limited = false →
    exec (.memThermal k c) s = .next ((s.setStack k fun x => { x with tempC := c.toNat, limited := false }).alertCheck))

/-- R351, R353, R357, R360 to R362, R364: the commands 0x0901 to 0x0903 and 0x0A01 to 0x0A03, WATCH_DIGEST_DONE,
TENSOR_DUMP_DONE. Completion is stated of: TENSOR_DUMP_DONE, COUNTER_SELECT, COUNTER_READ, LIVE_COUNTER_READ,
WATCH_DEFINE, WATCH_DIGEST, WATCH_REMOVE, WATCH_DIGEST_DONE. -/
def Obligations.Observation : Prop :=
  (∀ (r : DReq) (s : State) (n : Nat), s.heard 0x0901 [.m, .f] r = true → r.args.length = 2 →
    bitsOf (argOf r 0) 15 2 = 0 → bitsOf (argOf r 0) 31 28 = 0 → selOk (bitsOf (argOf r 0) 1 0) (argOf r 1) = true →
    n = bitsOf (argOf r 0) 27 16 → 256 ≤ n →
    exec (.counterSelect r) s = .next (answerDarid (whoOf 0x0901 true r)
      { s := s.setCounters (bitsOf (argOf r 0) 1 0) fun c =>
          { c with sel := mput c.sel n (BitVec.ofNat 32 (argOf r 1)), cnt := mdel c.cnt n } })) ∧
  (∀ (r : DReq) (s : State) (b : Bank), s.heard 0x0902 [.c, .m, .f] r = true → r.args.length = 3 →
    argOf r 0 < 4 → argOf r 1 < 4096 → 1 ≤ argOf r 2 → argOf r 2 ≤ 510 → argOf r 1 + argOf r 2 ≤ 4096 →
    b = (s.counters (argOf r 0)).banks.getD (s.counters (argOf r 0)).last {} → b.valid = true →
    exec (.counterRead r) s = .next (answerDarid (whoOf 0x0902 false r)
      { s := s
        words := lohi b.pod.toNat ++ (List.range (argOf r 2)).flatMap fun i => lohi (mget 0 b.cnt (argOf r 1 + i)) })) ∧
  (∀ (r : DReq) (s : State) (d : Nat), s.heard 0x0902 [.c, .m, .f] r = true → r.args.length = 3 →
    argOf r 0 = 256 + d → d < 4 → argOf r 1 < 4096 → 1 ≤ argOf r 2 → argOf r 2 ≤ 510 → argOf r 1 + argOf r 2 ≤ 4096 →
    exec (.counterRead r) s = .next (answerDarid (whoOf 0x0902 false r)
      { s := { s with free := s.free + 1 }
        words := lohi (Config.freeValue 64 s.free).toNat ++
          (List.range (argOf r 2)).flatMap fun i => lohi (mget 0 (s.counters d).cnt (argOf r 1 + i)) })) ∧
  (∀ (r : DReq) (s : State), s.heard 0x0903 [.c, .m, .f] r = true → r.args.length = 2 → argOf r 0 < 64 → 1 ≤ argOf r 1 →
    argOf r 0 + argOf r 1 ≤ 64 →
    exec (.liveCounterRead r) s = .next (answerDarid (whoOf 0x0903 false r)
      { s := s, words := (List.range (argOf r 1)).flatMap fun i => lohi (mget 0 s.obs.live (argOf r 0 + i)) })) ∧
  (∀ (r : DReq) (s : State), s.heard 0x0A01 [.c, .m, .f] r = true →
    (senderOf r.ch.val = some .c → ownCtx s r.ch.val (DReq.nums r) = true) → r.args.length = 7 →
    s.watchBad (DReq.nums r) = none → (s.ctx (argOf r 0)).st ≠ .free → s.obs.watches.length < 1024 →
    exec (.watchDefine r) s = .next (answerDarid (whoOf 0x0A01 true r)
      { s := { s with obs := { s.obs with watches := (mput s.obs.watches (argOf r 0 * 2 ^ 32 + argOf r 1)
          { addr := arg64Of r 2, fmt := argOf r 4, count := arg64Of r 5 }) } } })) ∧
  (∀ (r : DReq) (s : State) (w : Watch), s.heard 0x0A03 [.c, .m, .f] r = true →
    (senderOf r.ch.val = some .c → ownCtx s r.ch.val (DReq.nums r) = true) → r.args.length = 2 → argOf r 0 < 256 →
    s.obs.watches.lookup (argOf r 0 * 2 ^ 32 + argOf r 1) = some w →
    exec (.watchRemove r) s = .next (answerDarid (whoOf 0x0A03 true r)
      { s := { s with obs := { s.obs with watches := (mdel s.obs.watches (argOf r 0 * 2 ^ 32 + argOf r 1)) } } })) ∧
  (∀ (r : DReq) (s : State) (w : Watch), s.heard 0x0A02 [.c, .m, .f] r = true →
    (senderOf r.ch.val = some .c → ownCtx s r.ch.val (DReq.nums r) = true) → r.args.length = 2 → argOf r 0 < 256 →
    s.obs.watches.lookup (argOf r 0 * 2 ^ 32 + argOf r 1) = some w →
    exec (.watchDigest r) s = .next (answerDarid (whoOf 0x0A02 false r)
      { s := { s with obs := { s.obs with digests := s.obs.digests ++
          [(whoOf 0x0A02 false r, argOf r 0 * 2 ^ 32 + argOf r 1)] } }
        status := dPending })) ∧
  (∀ (s : State) (c : Fin 256) (h : BitVec 32) (w : Who) (t : Watch) (off : Nat),
    s.obs.digests.find? (fun e => e.2 == c.val * 2 ^ 32 + h.toNat) = some (w, c.val * 2 ^ 32 + h.toNat) → s.obs.watches.lookup (c.val * 2 ^ 32 + h.toNat) = some t →
    s.localOff t.addr = some off → s.regionFailed (dieOf off) = false → s.regionUp (dieOf off) = true →
    exec (.watchDigestDone c h []) s = .next (({ s with obs := { s.obs with digests := s.obs.digests.erase (w, c.val * 2 ^ 32 + h.toNat) } } : State).finish w dOk 0
      ((chunks 4 (s.digestOf t off)).map ofLe))) ∧
  (∀ (s : State) (d : Fin 4) (x : Dump), s.obs.dumps.getD d [] = [x] → (s.die d).inReset = false →
    ∃ t, t = s.dump d x ∧
      exec (.tensorDumpDone d []) s = .next { t with obs := { t.obs with dumps := t.obs.dumps.set d [] } }) ∧
  (∀ (s : State) (d : Fin 4) (x y : Dump) (rest : List Dump), s.obs.dumps.getD d [] = x :: y :: rest → (s.die d).inReset = false →
    ∃ t n, t = s.dump d x ∧ n = { y with start := t.diePodStamp d, mono := t.time.mono } ∧
      exec (.tensorDumpDone d []) s = .next { t with obs := { t.obs with dumps := t.obs.dumps.set d (n :: rest) } })

/-- R77 to R82: SCHEDULE_ARM and SCHEDULE_FIRE. Completion is stated of: SCHEDULE_ARM, SCHEDULE_FIRE. -/
def Obligations.ScheduleTable : Prop :=
  (∀ (s : State) (n : Fin 1024) (d : Fin 4) (e : SchedEntry) (h : Nat), s.serving = some h → s.sched.lookup n.val = some e →
    e.stepKey = true → e.period = 0 → e.rep = 0 → e.dies = 1 <<< d.val → e.last = [none, none, none, none] →
    e.armed = [none, none, none, none] → (s.die d).inReset = false → s.time.step.toNat ≤ e.first →
    exec (.scheduleArm n) s = .next (s.setSched n { e with armed := e.armed.set d (some e.first) })) ∧
  (∀ (s : State) (n : Fin 1024) (d : Fin 4) (e : SchedEntry) (h i : Nat), s.serving = some h → s.sched.lookup n.val = some e →
    e.stepKey = true → 0 < e.period → e.rep = 0 → e.skip = true → e.dies = 1 <<< d.val → e.last = [none, none, none, none] →
    e.armed = [none, none, none, none] → (s.die d).inReset = false → e.first < s.time.step.toNat →
    i = (s.time.step.toNat - 1 - e.first) / (e.period * 65536) →
    exec (.scheduleArm n) s = .next
      ((s.setSched n { e with last := e.last.set d (some (e.first + i * (e.period * 65536))) }).log 0x0B07 3 (srcDieUnit d 67)
        ([n.val] ++ lohi e.first ++ [i + 1, 1]))) ∧
  (∀ (s : State) (d : Fin 4) (n k : Nat) (e : SchedEntry), (s.die d).inReset = false → (s.dt d).seen = true →
    s.schedDue d = [(n, e, k)] →
    exec (.scheduleFire d) s = .next
      (((s.setSched n (e.fire d k k)).dispatch d n e (e.isNew k) false).schedSpent n))

/-- R76, R77: the commands 0x0401 to 0x0403. R47, R51, R69, R70: the commands 0x0B01 to 0x0B06. Completion is stated
of: SCHEDULE_WRITE, SCHEDULE_CLEAR, SCHEDULE_READ, TIME_STEP_ADVANCE, TIME_PHASE_ADVANCE, TIME_STEP_SET,
TIME_ACCEPT_CORRECTION, TIME_CONFIGURE, TIME_QUERY. -/
def Obligations.ScheduleAndTimeCommands : Prop :=
  (∀ (r : DReq) (s : State), s.heard 0x0401 [.c, .m, .f] r = true →
    (senderOf r.ch.val = some .c → bitsOf (argOf r 1) 15 8 = r.ch.val ∧ bitsOf (argOf r 1) 4 2 ≠ 1 ∧ bitsOf (argOf r 1) 4 2 ≠ 5) →
    r.args.length = 9 → 128 ≤ argOf r 0 → argOf r 0 < 1024 → s.schedOk (((DReq.nums r).drop 1).take 8) = true →
    s.sched.lookup (argOf r 0) = none →
    exec (.scheduleWrite r) s = .next (answerDarid (whoOf 0x0401 true r)
      { s := s.setSched (argOf r 0) (schedOf (((DReq.nums r).drop 1).take 8)), words := [argOf r 0] })) ∧
  (∀ (r : DReq) (s : State) (e : SchedEntry), s.heard 0x0402 [.c, .m, .f] r = true →
    (senderOf r.ch.val = some .c → e.ctx = r.ch.val) → r.args.length = 1 → 128 ≤ argOf r 0 → argOf r 0 < 1024 →
    s.sched.lookup (argOf r 0) = some e →
    exec (.scheduleClear r) s = .next (answerDarid (whoOf 0x0402 true r)
      { s := { s with sched := (mdel s.sched (argOf r 0)) } })) ∧
  (∀ (r : DReq) (s : State) (e : SchedEntry), s.heard 0x0403 [.c, .m, .f] r = true →
    (senderOf r.ch.val = some .c → e.ctx = r.ch.val) → r.args.length = 1 → argOf r 0 < 1024 →
    s.sched.lookup (argOf r 0) = some e →
    exec (.scheduleRead r) s = .next (answerDarid (whoOf 0x0403 false r) { s := s, words := schedWords e })) ∧
(∀ (r : DReq) (s : State), s.heard 0x0B01 [.c, .m, .f] r = true → r.args.length = 0 →
    exec (.timeStepAdvance r) s = .next (answerDarid (whoOf 0x0B01 false r true)
      { s := ({ s with time := { s.time with step := stepWord (stepNum s.time.step + 1) 0 } } : State).disarm true
          s.time.step.toNat (stepWord (stepNum s.time.step + 1) 0).toNat
        words := lohi (stepWord (stepNum s.time.step + 1) 0).toNat })) ∧
  (∀ (r : DReq) (s : State), s.heard 0x0B02 [.c, .m, .f] r = true → r.args.length = 0 → stepPhase s.time.step < 65535 →
    exec (.timePhaseAdvance r) s = .next (answerDarid (whoOf 0x0B02 false r true)
      { s := { s with time := { s.time with step := s.time.step + 1 } }, words := lohi (s.time.step + 1).toNat })) ∧
  (∀ (r : DReq) (s : State), s.heard 0x0B02 [.c, .m, .f] r = true → r.args.length = 0 → stepPhase s.time.step = 65535 →
    exec (.timePhaseAdvance r) s = .next (answerDarid (whoOf 0x0B02 false r true)
      { s := s, status := dSaturated, words := lohi s.time.step.toNat })) ∧
  (∀ (r : DReq) (s : State), s.heard 0x0B03 [.c, .m, .f] r = true → r.args.length = 2 →
    exec (.timeStepSet r) s = .next (answerDarid (whoOf 0x0B03 true r)
      { s := ((s.setTime fun t => { t with step := BitVec.ofNat 64 (arg64Of r 0) }).disarm true s.time.step.toNat
          (arg64Of r 0)).logFw 0x0B08 3
          (lohi s.time.step.toNat ++ lohi (arg64Of r 0)) })) ∧
  (∀ (r : DReq) (s : State), s.heard 0x0B04 [.m, .f] r = true → r.args.length = 1 → argOf r 0 = 1 → s.time.corrPending = true →
    exec (.timeAcceptCorrection r) s = .next (answerDarid (whoOf 0x0B04 true r)
      { s := (s.setTime fun t =>
          { t with corrPending := false, gmPending := false, gmId := if t.gmPending then t.gmPendId else t.gmId
                   lock := .acquiring, lockCount := 0, episodeCount := 0
                   slew := t.pendingCorr.toInt * nsUnit }).logFw 0x0B02 3 (slohi s.time.pendingCorr.toInt ++ [1])
        words := slohi s.time.pendingCorr.toInt })) ∧
  (∀ (r : DReq) (s t : State), s.heard 0x0B04 [.m, .f] r = true → r.args.length = 1 → argOf r 0 = 0 → s.time.corrPending = true →
    t = (s.setTime fun t =>
          { t with corrPending := false, gmPending := false, gmId := if t.gmPending then t.gmPendId else t.gmId
                   lock := .acquiring, lockCount := 0, episodeCount := 0, slew := 0
                   pod := t.pod + t.pendingCorr.toInt * nsUnit, stepCtr := t.stepCtr + 1 }) →
    exec (.timeAcceptCorrection r) s = .next (answerDarid (whoOf 0x0B04 true r)
      { s := (t.disarm false (s.time.pod / nsUnit).toNat t.podNs).logFw 0x0B02 3 (slohi s.time.pendingCorr.toInt ++ [0])
        words := slohi s.time.pendingCorr.toInt })) ∧
  (∀ (r : DReq) (s : State), s.heard 0x0B04 [.m, .f] r = true → r.args.length = 1 → argOf r 0 < 2 → s.time.corrPending = false →
    exec (.timeAcceptCorrection r) s = .next (answerDarid (whoOf 0x0B04 true r) { s := s, status := dNothing })) ∧
  (∀ (r : DReq) (s : State) (t u : State), s.heard 0x0B05 [.m, .f] r = true → r.args.length = 4 → argOf r 0 < 2 ^ 17 →
    bitsOf (argOf r 0) 5 2 < 13 → bitsOf (argOf r 0) 15 8 < 128 → argOf r 1 < 2 ^ 20 → argOf r 2 < 2 ^ 24 → argOf r 3 < 32 →
    t = ((s.writeTbCtrl (argOf r 0)).setTime fun t =>
      { t with thresh := max 1000 (min 1000000 (argOf r 1)), ppsDelay := argOf r 2 }) →
    u = { t with fab := { t.fab with interval := min 13 (argOf r 3) } } →
    exec (.timeConfigure r) s = .next (answerDarid (whoOf 0x0B05 true r) { s := u })) ∧
  (∀ (s : State) (v : Nat), bitsOf v 1 0 = s.time.podSrc.toNat → s.time.podSrc ≠ 3 →
    s.writeTbCtrl v = s.setTime fun t =>
      { t with
        wgPort := BitVec.ofNat 4 (bitsOf v 5 2), ppsInEn := bitOf v 6, ppsOutEn := bitOf v 7
        domain := BitVec.ofNat 8 (bitsOf v 15 8), udp := bitOf v 16, ppsSeen := t.ppsSeen && bitOf v 6
        ppsLost := if bitOf v 6 then t.ppsLost && t.ppsInEn else true
        ppsLast := if bitOf v 6 && !t.ppsInEn then t.mono else t.ppsLast }) ∧
  (∀ (s : State) (v : Nat), s.time.podSrc ≠ 0 → bitsOf v 1 0 = 0 →
    (s.writeTbCtrl v).time.lock = .free ∧ (s.writeTbCtrl v).time.corrPending = false ∧
      (s.writeTbCtrl v).time.slew = 0 ∧ (s.writeTbCtrl v).time.podSrc = 0) ∧
  (∀ (r : DReq) (s : State), s.heard 0x0B06 [.c, .m, .f] r = true → r.args.length = 0 →
    exec (.timeQuery r) s = .next (answerDarid (whoOf 0x0B06 false r)
      { s := s
        words := [s.tbStatus r.ctd] ++ lohi s.podStamp.toNat ++ lohi s.time.step.toNat ++ lohi s.time.pendingCorr.toNat }))

/-- R54, R56 to R58: TIME_BUS_FRAME and HOLDOVER_ENTRY. Completion is stated of: TIME_BUS_FRAME, HOLDOVER_ENTRY. -/
def Obligations.TimeBus : Prop :=
  (∀ (s : State) (d : Fin 4) (h : Nat), s.holder = some h → (s.die d).inReset = false → s.ctd.lease.gates = true →
    (s.dt d).seen = false → (s.dt d).holdover = false → (s.dt d).latched = 0 →
    exec (.timeBusFrame d) s = .next (({ s with time := { s.time with busRate := s.time.podRate } } : State).setDt d fun t =>
      { t with
        pod := s.time.pod, toll := s.time.toll, slowPod := false, slowToll := false, mono := s.time.mono, step := s.time.step
        rate := s.time.podRate, stepCtr := s.time.stepCtr, podValid := s.time.podValid
        locked := s.time.lock == .locked, seen := true, lastFrame := s.time.mono, realign := 0, latched := 0
        holdover := false })) ∧
  (∀ (s : State) (d : Fin 4) (h : Nat), s.holder = some h → (s.die d).inReset = false → s.ctd.lease.gates = true →
    (s.dt d).seen = true → (s.dt d).holdover = false → (s.dt d).latched = 0 → (s.dt d).stepCtr = s.time.stepCtr →
    s.time.pod < (s.dt d).pod → (s.dt d).toll ≤ s.time.toll → d.val < s.dieTime.length →
    exec (.timeBusFrame d) s = .next (({ s with time := { s.time with busRate := s.time.podRate } } : State).setDt d fun t =>
      { t with
        pod := (s.dt d).pod, toll := s.time.toll, slowPod := true, slowToll := false, mono := s.time.mono, step := s.time.step
        rate := s.time.podRate, podValid := s.time.podValid, locked := s.time.lock == .locked, lastFrame := s.time.mono
        realign := 0 })) ∧
  (∀ (s : State) (d : Fin 4) (h : Nat), s.holder = some h → (s.die d).inReset = false → s.ctd.lease.gates = true →
    (s.dt d).seen = true → (s.dt d).holdover = true → (s.dt d).pod ≤ s.time.pod → (s.dt d).toll ≤ s.time.toll →
    d.val < s.dieTime.length →
    ∃ t, exec (.timeBusFrame d) s = .next t ∧ (t.dt d).holdover = false ∧ (t.dt d).pod = s.time.pod ∧
      (t.dt d).toll = s.time.toll ∧ (t.dt d).latched = 0 ∧ t.mem = s.mem ∧ t.eng = s.eng ∧ t.fab = s.fab ∧
      stepNum t.time.step = (stepNum s.time.step + (s.dt d).latched) % 2 ^ 48) ∧
  (∀ (s : State) (d : Fin 4), (s.dt d).seen = true → (s.dt d).holdover = false → (s.die d).inReset = false →
    (s.dt d).lastFrame + 3000 ≤ s.time.mono →
    exec (.holdoverEntry d) s = .next (s.setDt d fun t => { t with holdover := true, since := s.time.mono, realign := 0 }))

/-- R49, R61, R62, R67, R68: POD_OFFSET_MEASURED, PTP_MESSAGE_RECEIVE, POD_LOCK_LOST. Completion is stated of:
PTP_MESSAGE_RECEIVE, POD_OFFSET_MEASURED, POD_LOCK_LOST. -/
def Obligations.PodMeasurement : Prop :=
  (∀ (s : State) (o : Int) (gm : BitVec 64) (h : Nat), s.time.podSrc = 1 → s.time.podValid = false → s.serving = some h →
    exec (.podOffsetMeasured o gm) s = .next ((s.setTime fun t =>
      { t with
        pod := s.time.pod + o * nsUnit, toll := s.time.pod + o * nsUnit, podValid := true, tollValid := true
        stepCtr := t.stepCtr + 1, lock := .acquiring, lockCount := 0, gmId := gm, gmFresh := false
        lastMeas := t.mono }).tollBegins.podEntries)) ∧
  (∀ (s : State) (o : Int) (h : Nat), s.time.podSrc = 2 → s.time.podValid = true → s.serving = some h →
    s.time.ppsInEn = false → s.time.gmFresh = false → s.time.gmPending = false → s.time.corrPending = false → s.time.thresh < o.natAbs → s.time.lock = .acquiring →
    exec (.podOffsetMeasured o s.time.gmId) s = .next ((s.setTime fun t =>
      { t with
        lastMeas := t.mono, lock := .hold, slew := 0, lockCount := 0, corrPending := true, pendingCorr := BitVec.ofInt 64 o
        episodeCount := 0 }).logFw 0x0B01 4 (slohi o ++ [s.time.thresh, 2]))) ∧
  (∀ (s : State) (o : Int) (gm : BitVec 64) (h : Nat), s.time.podSrc = 2 → s.time.podValid = true → s.serving = some h →
    s.time.ppsInEn = false → s.time.gmFresh = false → gm ≠ s.time.gmId → s.time.gmPending = false → s.time.lock = .acquiring →
    exec (.podOffsetMeasured o gm) s = .next ((s.setTime fun t =>
      { t with
        lock := .hold, slew := 0, lockCount := 0, corrPending := true, gmPending := true, gmPendId := gm
        pendingCorr := BitVec.ofInt 64 o, lastMeas := t.mono }).logFw 0x0B03 4 (lohi s.time.gmId.toNat ++ lohi gm.toNat))) ∧
  (∀ (s : State) (h : PtpHead) (gm : BitVec 64) (a c : BitVec 8) (b : BitVec 32) (n : BitVec 16) (k : Nat),
    s.time.podSrc = 1 → s.serving = some k → h.domain = s.time.domain → h.udp = s.time.udp →
    exec (.ptpMessageReceive (.announce h gm a b c n)) s = .next (s.setTime fun t => t.announced
      { src := h.src, gm := gm, prio1 := a, quality := b, prio2 := c, steps := n, interval := h.interval, heard := [] })) ∧
  (∀ (s : State) (h : PtpHead) (two : Bool) (t1 : Int) (m : PtpMaster) (k : Nat), s.time.podSrc = 1 → s.serving = some k →
    h.domain = s.time.domain → h.udp = s.time.udp → s.time.parent = some m → m.src = h.src → -7 ≤ h.interval →
    h.interval ≤ 0 →
    exec (.ptpMessageReceive (.sync h two t1)) s = .next (s.setTime fun t => { t with
      ptpSync := some { src := h.src, seq := h.seq, gm := m.gm, t1 := if two then none else some t1, corr := h.corr
                        t2 := t.pod / nsUnit, req := t.ptpSeq, t3 := t.pod / nsUnit } }).delayReq) ∧
  (∀ (s : State) (h : PtpHead) (t1 : Int) (x : PtpExchange) (k : Nat), s.time.podSrc = 1 → s.serving = some k →
    h.domain = s.time.domain → h.udp = s.time.udp → s.time.ptpSync = some x → x.src = h.src → x.seq = h.seq → x.t1 = none →
    x.t4 = none →
    exec (.ptpMessageReceive (.followUp h t1)) s = .next (s.setTime fun t => { t with
      ptpSync := some { x with t1 := some t1, corr := x.corr + h.corr } })) ∧
  (∀ (s : State) (h : PtpHead) (x : PtpExchange) (t1 t4 : Int) (k : Nat), s.time.podSrc = 1 → s.serving = some k →
    h.domain = s.time.domain → h.udp = s.time.udp → s.time.ptpSync = some x → x.src = h.src → x.req = h.seq →
    x.t1 = some t1 →
    ∃ t : State, t = (s.setTime fun y => { y with ptpSync := none, hop := 0 }) ∧
      exec (.ptpMessageReceive (.delayResp h s.ptpPort t4)) s =
        .next (t.measureRef (((t1 + x.corr - x.t2) + (t4 - h.corr - x.t3)) / 2) x.gm)) ∧
  (∀ (s : State) (h : Nat), s.time.lock = .acquiring → s.time.lastMeas + 3000000000 ≤ s.time.mono → s.serving = some h →
    exec .podLockLost s = .next (s.setTime fun t => { t with lock := .hold, slew := 0, lockCount := 0 }))

/-- R65, R66: PPS_IN_EDGE, PPS_IN_FAULT, PPS_OUT_RISE, PPS_OUT_FALL. R74, R75, R244: TIMESTAMP_REQUEST_SEND,
TIMESTAMP_REQUEST_RECEIVE, TIMESTAMP_RESPONSE_RECEIVE, TB_TSQ_POP. Completion is stated of: PPS_IN_EDGE, PPS_IN_FAULT,
PPS_OUT_RISE, PPS_OUT_FALL, TIMESTAMP_REQUEST_SEND, TIMESTAMP_REQUEST_RECEIVE, TIMESTAMP_RESPONSE_RECEIVE, TB_TSQ_POP. -/
def Obligations.PpsAndTimestamps : Prop :=
  (∀ (s : State) (h : Nat), s.time.ppsInEn = true → s.time.podValid = false → s.serving = some h →
    exec .ppsInEdge s = .next (s.setTime fun t => { t with ppsSeen := true, ppsLast := t.mono, ppsLost := false })) ∧
  (∀ (s : State) (t : State) (a : Int) (h : Nat), s.time.ppsInEn = true → s.time.podValid = true → s.serving = some h →
    t = (s.setTime fun t => { t with ppsSeen := true, ppsLast := t.mono, ppsLost := false }) →
    a = s.time.pod / nsUnit - s.time.ppsDelay →
    exec .ppsInEdge s = .next (t.measure ((a + 500000000) / 1000000000 * 1000000000 - a) none true)) ∧
  (∀ (s : State) (h : Nat), s.time.ppsInEn = true → s.time.ppsLost = false → s.time.ppsLast + 2000000000 ≤ s.time.mono →
    s.serving = some h →
    exec .ppsInFault s = .next ((s.setTime fun t => { t with ppsSeen := false, ppsLost := true }).logFw 0x0B09 3
      [(s.time.mono - s.time.ppsLast) / 1000000000])) ∧
  (∀ (s : State) (h : Nat) (n : Int), s.time.ppsOutEn = true → s.time.podValid = true → s.serving = some h →
    n = s.time.pod / (1000000000 * nsUnit) → s.time.pod % (1000000000 * nsUnit) < 11 * nsUnit →
    (s.time.ppsOut = false ∨ s.time.ppsSecond ≠ n) →
    exec .ppsOutRise s = .next (s.setTime fun t => { t with ppsOut := true, ppsRose := t.mono, ppsSecond := n })) ∧
  (∀ (s : State) (h : Nat), s.time.ppsOut = true → s.time.ppsRose + 100000000 ≤ s.time.mono → s.serving = some h →
    exec .ppsOutFall s = .next (s.setTime fun t => { t with ppsOut := false })) ∧
(∀ (s : State) (p h : Nat), s.time.podSrc = 2 → p = s.time.wgPort.toNat → p < 13 → s.isUp p = true → s.serving = some h →
    (s.dt (portDie p)).seen = true → s.time.tsLast + 1000000000 / 2 ^ s.fab.interval ≤ s.time.mono →
    exec .timestampRequestSend s = .next ((s.queuePkt p 6
      { blankPkt with ptype := 9, dst := (s.port p).coord, src := BitVec.ofNat 15 s.ownId }).setTime fun t =>
        { t with tsReq := some (none, t.mono), tsLast := t.mono })) ∧
  (∀ (s u : State) (p : Fin 13) (src : BitVec 15), u = s.takeTs p → u.isUp p = true → (u.dt (portDie p)).seen = true →
    exec (.timestampRequestReceive p src) s = .next (u.queuePkt p 6
      { blankPkt with
        ptype := 9, dst := src, src := BitVec.ofNat 15 s.ownId, len := 32, dw2 := BitVec.ofNat 64 (2 ^ 52)
        payload := leBytes 8 (u.linkStamp p).toNat ++ leBytes 8 0 ++ leBytes 8 u.time.gmId.toNat ++
          leBytes 1 u.time.lock.code ++ leBytes 1 u.time.hop.toNat ++ List.replicate 6 0 })) ∧
  (∀ (s u : State) (p : Fin 13) (x : TsResp) (t1 : BitVec 64) (sent : Nat), u = s.takeTs p →
    u.time.podSrc = 2 → p.val = u.time.wgPort.toNat → (u.dt (portDie p)).seen = true → u.time.tsReq = some (some t1, sent) →
    x.lock = 2 → x.t2.toNat % 4 = 0 → x.t3.toNat % 4 = 0 → t1.getLsbD 0 = false → (u.linkStamp p).getLsbD 0 = false →
    u.time.mono ≤ sent + 100000 →
    ∃ t : State, t = (u.setTime fun y => { y with tsReq := none, hop := x.hop + 1 }) ∧
      exec (.timestampResponseReceive p x) s = .next (t.measureRef
        ((((x.t2.toNat : Int) - (4 * (t1.toNat / 4) : Nat)) - ((4 * ((u.linkStamp p).toNat / 4) : Nat) - x.t3.toNat)) / 2)
        x.gm)) ∧
  (∀ (s u : State) (p : Fin 13) (x : TsResp) (t1 : BitVec 64) (sent : Nat), u = s.takeTs p →
    u.time.podSrc = 2 → p.val = u.time.wgPort.toNat → (u.dt (portDie p)).seen = true → u.time.tsReq = some (some t1, sent) →
    (x.lock ≠ 2 ∨ u.time.mono > sent + 100000) →
    exec (.timestampResponseReceive p x) s = .next (u.setTime fun y => { y with tsReq := none })) ∧
  (∀ (s : State) (n : Fin 32) (c : Fin 2) (g : Fin 5) (u : Bool) (e : TsqEntry) (rest : List TsqEntry),
    s.ctdGate c = .none → s.holder = some c.val → (s.time.tsq.getD g {}).entries = e :: rest →
    exec (.tbTsqPop (.hart n) c g 64 u) s = .next (((s.answer (BitVec.ofNat 64
        (e.id.toNat + e.port.toNat * 2 ^ 16 + b2n e.dropped * 2 ^ 20 + 2 ^ 21 + rest.length * 2 ^ 32))).setTime fun t =>
      { t with tsq := lmod t.tsq g fun q => { q with entries := rest, stamp := e.stamp } }).endRun g)) ∧
  (∀ (s : State) (n : Fin 32) (c : Fin 2) (g : Fin 5) (u : Bool), s.ctdGate c = .none → s.holder = some c.val →
    exec (.tbTsqPop (.hart n) c g 32 u) s = .next (s.answer (BitVec.ofNat 64
      (if u then (s.time.tsq.getD g {}).head / 2 ^ 32 else (s.time.tsq.getD g {}).head % 2 ^ 32))))

/-- R477, R487, R488: INPUT_TRIP, MOD_RST_N_LOW, POWER_ON_RESET. Completion is stated of: POWER_ON_RESET, INPUT_TRIP,
MOD_RST_N_LOW. -/
def Obligations.PowerLoss : Prop :=
  (∀ (s : State) (k : Fin 3), ∃ t : State, exec (.inputTrip k) s = .next t ∧ t.power.rails = false ∧ t.power.trip = k.val + 1 ∧
    t.ctd.nv = { s.ctd.nv with resetCause := 3 + k.val } ∧ t.time.mono = s.time.mono ∧ t.fuse = s.fuse ∧ t.pending = s.pending ∧
    t.mgmt = s.mgmt ∧ t.i3c = s.i3c ∧ t.ctd.lease.gen = s.ctd.lease.gen ∧ t.holder = none ∧ t.mem = State.reset.mem ∧
    t.eng = State.reset.eng ∧ t.fab = State.reset.fab) ∧
  (∀ (s : State), ∃ t : State, exec .modRstNLow s = .next t ∧ t.power.rails = false ∧ t.power.rstLow = true ∧
    t.ctd.nv = s.ctd.nv ∧ t.time.mono = s.time.mono ∧ t.fuse = s.fuse ∧ t.pending = s.pending ∧ t.mgmt = s.mgmt ∧
    t.i3c = s.i3c ∧ t.ctd.lease.gen = s.ctd.lease.gen ∧ t.holder = none ∧ t.mem = State.reset.mem ∧ t.eng = State.reset.eng ∧
    t.fab = State.reset.fab) ∧
  (∀ (s : State) (c : Fin 8), 1 ≤ c.val → c.val ≤ 6 → ∃ t : State, exec (.powerOnReset c) s = .next t ∧ t.time.mono = 0 ∧
    t.mem.main.cells = [] ∧ t.mem.main.husks = [] ∧ t.holder = none ∧ t.ctd.lease.gen = 0 ∧ t.ctd.lease.gates = false ∧
    t.ctd.nv.resetCause = c.val ∧ t.ctd.nv.resetCount = min 0xFFFF (s.ctd.nv.resetCount + 1) ∧ t.fuse = s.fuse ∧
    t.pending = s.pending ∧ t.power.rails = true)

/-- R306, R491 to R493: POWER_LIMITER_SAMPLE, JUNCTION_SAMPLE, THERM_ALERT_RELEASE. R332, R490, R491: the commands
0x0F01 to 0x0F03. The layout of PowerQuery's words is the model's choice (log 54). Completion is stated of:
POWER_LIMITER_SAMPLE, POWER_SET_DIE, POWER_CAP, POWER_QUERY, JUNCTION_SAMPLE, THERM_ALERT_RELEASE. -/
def Obligations.PowerSamplesAndCommands : Prop :=
  (∀ (s : State) (w a : Nat), w ≤ s.ctd.clamp.pMax → a ≤ s.ctd.clamp.iMax →
    ∃ t : State, t = { s with power := { s.power with dies := s.power.dies.map fun p =>
        { p with limit := p.limit - 1, halved := false } } } ∧
      exec (.powerLimiterSample w a) s = .next t.settleClocks) ∧
  (∀ (s : State) (w a : Nat), s.ctd.clamp.pMax < w → a ≤ s.ctd.clamp.iMax →
    ∃ t : State, t = { s with power := { s.power with dies := s.power.dies.map fun p =>
        { p with limit := min 15 (p.limit + 1), halved := false } } } ∧
      exec (.powerLimiterSample w a) s = .next (t.clampHit 0 w s.ctd.clamp.pMax 0).settleClocks) ∧
  (∀ (s : State) (d : Fin 4) (c : Int), (s.die d).tripped = false → (s.die d).inReset = false → (s.pow d).thermal = 0 →
    (s.pow d).hot = false → (s.pow d).neigh = false → c ≤ (s.ctd.clamp.tj : Int) * 1000 →
    (ringNeighbours d).all (fun n => decide (c ≤ (s.pow n).junction + 25000)) = true →
    exec (.junctionSample d c) s = .next (s.setPow d fun p => { p with junction := c }).settleClocks.alertCheck) ∧
  (∀ (s : State) (d : Fin 4) (c : Int), (s.die d).tripped = false → (s.die d).inReset = false →
    (s.ctd.clamp.tj : Int) * 1000 + 10000 ≤ c →
    exec (.junctionSample d c) s = .next ((s.setPow d fun p => { p with junction := c }).thermalTrip d c).alertCheck) ∧
  (∀ (s : State) (t : Nat), s.power.clearSince = some t → s.power.alert = true → s.alertHolds = false →
    t + 10000000 ≤ s.time.mono →
    exec .thermAlertRelease s = .next { s with power := { s.power with alert := false } }) ∧
(∀ (r : DReq) (s t : State) (d : Nat), s.heard 0x0F01 [.m, .f] r = true → r.args.length = 4 → d = argOf r 0 → d < 4 →
    400 ≤ argOf r 1 → argOf r 1 ≤ min (s.fuseMhz d) (s.ctd.clamp.fMe.getD d 0) → 500 ≤ argOf r 2 →
    argOf r 2 ≤ s.ctd.clamp.fHost → 600 ≤ argOf r 3 → argOf r 3 ≤ s.ctd.clamp.vCore →
    argOf r 1 / 25 * 25 ≤ (s.vfLimit d (argOf r 3 / 5 * 5)).1 → argOf r 2 / 100 * 100 ≤ (s.vfLimit d (argOf r 3 / 5 * 5)).2 →
    t = (if (s.pow d).me = argOf r 1 / 25 * 25 && (s.pow d).host = argOf r 2 / 100 * 100 && (s.pow d).mv = argOf r 3 / 5 * 5 then s
      else s.paced d) →
    exec (.powerSetDie r) s = .next (answerDarid (whoOf 0x0F01 true r)
      { s := (t.setPow d fun p =>
          { p with me := argOf r 1 / 25 * 25, host := argOf r 2 / 100 * 100, mv := argOf r 3 / 5 * 5 }).settleClocks })) ∧
  (∀ (r : DReq) (s : State), s.heard 0x0F02 [.m, .f] r = true → r.args.length = 1 → argOf r 0 ≤ s.ctd.clamp.pMax →
    exec (.powerCap r) s = .next (answerDarid (whoOf 0x0F02 true r)
      { s := { s with power := { s.power with cap := argOf r 0 } } })) ∧
  (∀ (r : DReq) (s : State), s.heard 0x0F02 [.m, .f] r = true → r.args.length = 1 → s.ctd.clamp.pMax < argOf r 0 →
    exec (.powerCap r) s = .next (answerDarid (whoOf 0x0F02 true r)
      { s := { s with power := { s.power with cap := s.ctd.clamp.pMax } }, status := dClamped })) ∧
  (∀ (r : DReq) (s : State), s.heard 0x0F03 [.c, .m, .f] r = true → r.args.length = 0 →
    exec (.powerQuery r) s = .next (answerDarid (whoOf 0x0F03 false r)
      { s := s
        words := (mget 0 s.obs.live 2 % 2 ^ 32) :: ((List.range 4).map fun d => mget 0 s.obs.live (3 + d) % 2 ^ 32) ++
          ((List.range 4).map fun d => twos 32 (s.pow d).junction) ++
          (List.range 4).flatMap fun d => [(s.pow d).me, (s.pow d).host, (s.pow d).mv, s.meClocks.getD d 0] }))

/-- R454, R455, R462: the energy identity of a window is kept by every rail sample. Completion is stated of:
RAIL_SAMPLE. -/
def Obligations.EnergyIdentity : Prop :=
  (∀ (s : State) (x : RailSample), s.toll.win.Balanced →
    ∃ t, exec (.railSample x) s = .next t ∧ t.toll.win.Balanced) ∧
  ({} : TollWindow).Balanced

/-- R452, R460, R464: RAIL_SAMPLE, MANIFEST_FORCED, TOLL_MANIFEST_CLOSED. R457, R459: TAG_CLOSE_POINT. Completion is
stated of: TAG_CLOSE_POINT, MANIFEST_FORCED, TOLL_MANIFEST_CLOSED. -/
def Obligations.ManifestsAndTags : Prop :=
  (∀ (s : State) (x : RailSample), s.toll.lastIv = some s.intervalNo → exec (.railSample x) s = .next s) ∧
  (∀ (s : State), s.time.tollValid = true → s.toll.boundary = none → s.toll.lastBoundary + 2000000000 ≤ s.tollNs →
    exec .manifestForced s = .next { s with toll := { s.toll with
      boundary := some ((s.tollNs + 9999) / 10000 * 10000, true), forced := min 0xFFFF (s.toll.forced + 1) } }) ∧
  (∀ (s : State) (c : Nat), s.serving = some c → s.time.tollValid = true → s.toll.keyBusy.getD c false = false →
    exec .tollManifestClosed s = .next (s.publish c)) ∧
  (∀ (s : State) (c : Nat) (w : TollWindow) (rest : List TollWindow), s.toll.cut = w :: rest →
    w.over_.length ≤ 256 →
    ∃ m : Manifest, (s.publish c).toll.cut = rest ∧ (s.publish c).toll.manCount = s.toll.manCount + 1 ∧
      (s.publish c).toll.first = false ∧ (s.publish c).toll.prevHash = sha256 m.bytes ∧ m.num = s.toll.nextNum ∧
      (s.publish c).toll.held.getLast? = some m ∧ (s.publish c).mem = s.mem ∧ (s.publish c).eng = s.eng) ∧
∀ (s : State) (k : Fin 4096), (s.tag k).isOpen = true → (s.tag k).closing = true → (s.tag k).running = 0 →
    s.toll.room (s.tag k).dies = true →
    ∃ r : TollRec, r.isTag = true ∧ r.total = (s.tag k).acct.parts.foldl (· + ·) 0 ∧ r.seq = s.toll.recSeq ∧
      r.dies = (s.tag k).dies ∧ r.head.take 4 = leBytes 2 1 ++ leBytes 2 k ∧
      exec (.tagClosePoint k) s = .next { s with toll := { s.toll with
        tags := (mdel s.toll.tags k), buffer := s.toll.buffer ++ [r], recCount := s.toll.recCount + 1 } }

/-- R332, R465 to R467, R471, R473: TL_WIN_INDEX_WRITE, the commands 0x0C01 to 0x0C05, 0x0D01, 0x0D03,
TOLL_KEY_ROTATED. Completion is stated of: TOLL_TAG_QUERY, TOLL_MANIFEST_READ, TOLL_RECORD_READ, TOLL_KEY_READ,
TOLL_KEY_ROTATE, CAL_READ, CAL_HASH, TL_WIN_INDEX_WRITE, TOLL_KEY_ROTATED. -/
def Obligations.TollReads : Prop :=
  (∀ (s : State) (n : Fin 32) (c w : Fin 2) (v : BitVec 32) (m : Manifest) (x : TollRec), s.ctdGate c = .none →
    s.toll.held.find? (fun y => y.num == (s.toll.wins.getD (2 * c.val + w.val) {}).manifest.toNat) = some m →
    m.recs[v.toNat]? = some x →
    exec (.tlWinIndexWrite (.hart n) c w v) s = .next { s.answer 0 with toll := { s.toll with
      wins := lmod s.toll.wins (2 * c.val + w.val) fun y =>
        { y with
          index := v, busy := false, valid := true, none_ := false
          words := ((wordsOf (x.bytes y.manifest.toNat)).map (BitVec.ofNat 32)) } } }) ∧
  (∀ (r : DReq) (s : State), s.heard 0x0C01 [.c, .m, .f] r = true →
    (senderOf r.ch.val = some .c → s.holdsTag r.ch.val (argOf r 0) = true) → r.args.length = 1 → argOf r 0 < 4096 →
    exec (.tollTagQuery r) s = .next (answerDarid (whoOf 0x0C01 false r)
      { s := s
        words := (b2n (s.tag (argOf r 0)).isOpen + 256 * (s.tag (argOf r 0)).ctx) ::
          lohi ((s.tag (argOf r 0)).acct.parts.foldl (· + ·) 0) })) ∧
  (∀ (r : DReq) (s : State) (m : Manifest), s.heard 0x0C02 [.c, .m, .f] r = true → r.args.length = 2 →
    s.toll.held.find? (·.num == arg64Of r 0) = some m →
    exec (.tollManifestRead r) s = .next (answerDarid (whoOf 0x0C02 false r) { s := s, words := wordsOf m.bytes })) ∧
  (∀ (r : DReq) (s : State) (m : Manifest) (x : TollRec), s.heard 0x0C03 [.c, .m, .f] r = true → r.args.length = 3 →
    s.toll.held.find? (·.num == arg64Of r 0) = some m → m.recs[argOf r 2]? = some x →
    exec (.tollRecordRead r) s = .next (answerDarid (whoOf 0x0C03 false r)
      { s := s
        words := wordsOf (x.bytes m.num) ++ [m.recs.length, (merklePath 32 m.leaves (argOf r 2)).length] ++
          (merklePath 32 m.leaves (argOf r 2)).flatMap wordsOf })) ∧
  (∀ (r : DReq) (s : State), s.heard 0x0C04 [.c, .m, .f] r = true → r.args.length = 0 →
    exec (.tollKeyRead r) s = .next (answerDarid (whoOf 0x0C04 false r)
      { s := s
        words := [r.ctd.val, s.ctd.nv.keyGen.getD r.ctd 0] ++ wordsOf (keyModulus (s.tollKey r.ctd)) ++
          [ofLe (keyExponent (s.tollKey r.ctd)).reverse, (keyCert (s.tollKey r.ctd)).length] ++
          wordsOf (keyCert (s.tollKey r.ctd)) })) ∧
  (∀ (r : DReq) (s : State), s.heard 0x0C05 [.m] r = true → r.args.length = 0 →
    s.ctd.clamp.tollPolicy.getLsbD 1 = true → s.toll.rotate = none →
    exec (.tollKeyRotate r) s = .next (answerDarid (whoOf 0x0C05 true r)
      { s := { s with toll := { s.toll with rotate := some (whoOf 0x0C05 true r) } }, status := dPending })) ∧
  (∀ (s : State) (w : Who) (c : Nat), s.toll.rotate = some w → s.serving = some c → c < s.ctd.nv.keyGen.length →
    ∃ u : State, exec .tollKeyRotated s = .next (u.finish w dOk 0 []) ∧ u.toll.rotate = none ∧
      u.ctd.nv.keyGen.getD c 0 = s.ctd.nv.keyGen.getD c 0 + 1 ∧ u.toll.keyNew = s.toll.keyNew.set c true ∧ u.eng = s.eng ∧
      u.mem = s.mem) ∧
  (∀ (s : State) (c : Nat), s.toll.rotate = none → s.toll.keyBusy.findIdx? id = some c → c < s.ctd.nv.keyGen.length →
    ∃ u : State, exec .tollKeyRotated s = .next u ∧ u.ctd.nv.keyGen.getD c 0 = s.ctd.nv.keyGen.getD c 0 + 1 ∧
      u.toll.keyNew = s.toll.keyNew.set c true ∧ u.toll.keyBusy = s.toll.keyBusy.set c false ∧ u.eng = s.eng ∧
      u.mem = s.mem) ∧
  (∀ (r : DReq) (s : State), s.heard 0x0D01 [.m, .f] r = true → r.args.length = 2 → argOf r 0 % 4 = 0 → 1 ≤ argOf r 1 →
    argOf r 1 ≤ 1023 → argOf r 0 + 4 * argOf r 1 ≤ s.ctd.nv.cal.length →
    exec (.calRead r) s = .next (answerDarid (whoOf 0x0D01 false r)
      { s := s, words := wordsOf ((s.ctd.nv.cal.drop (argOf r 0)).take (4 * argOf r 1)) })) ∧
  (∀ (r : DReq) (s : State), s.heard 0x0D03 [.c, .m, .f] r = true → r.args.length = 0 →
    exec (.calHash r) s = .next (answerDarid (whoOf 0x0D03 false r)
      { s := s, words := b2n s.ctd.nv.calAltered :: wordsOf s.calHash }))

/-- R285, R287, R288, R290: LEASE_EXPIRY, LEASE_GUARD_END, LEASE_RELEASE, LEASE_CLAIM, STANDBY_LEASE_POLL. Completion
is stated of: LEASE_CLAIM, LEASE_RELEASE, LEASE_EXPIRY, LEASE_GUARD_END, STANDBY_LEASE_POLL. -/
def Obligations.WaybillChanges : Prop :=
  (∀ (s : State) (c : Nat), s.holder = some c → s.ctd.lease.expiry ≤ s.time.mono →
    ∃ t : State, exec .leaseExpiry s = .next t ∧ t.holder = none ∧ t.ctd.lease.gates = false ∧
      t.ctd.lease.guardEnd = some (s.time.mono + 5000000) ∧ t.ctd.lease.gen = s.ctd.lease.gen ∧ t.ctd.lease.lossCause = 0 ∧
      (s.ctd.lease.gates = true → t.ctd.lease.closedAt = some s.time.mono) ∧ t.mem = s.mem ∧ t.eng = s.eng ∧
      t.fab.slices = s.fab.slices ∧ t.fab.peers = s.fab.peers) ∧
  (∀ (s : State) (t : Nat), s.ctd.lease.guardEnd = some t → t ≤ s.time.mono →
    exec .leaseGuardEnd s = .next (s.setLease fun e => { e with guardEnd := none })) ∧
  (∀ (s : State) (c : Fin 2), s.holder = some c.val → s.tickNo < s.ctd.lease.expiry / 10 → s.wdogDue c = false →
    s.ctd.lease.claims.filter (·.1 == s.tickNo) = [] →
    ∃ t : State, exec (.leaseRelease (.sp c) 1) s = .next t ∧ t.holder = none ∧ t.ctd.lease.gates = false ∧
      t.ctd.lease.guardEnd = none ∧ t.ctd.lease.waived = true ∧ t.ctd.lease.gen = s.ctd.lease.gen ∧
      t.ctd.lease.lossCause = 1 ∧ t.bus = { value := 0 } ∧ t.mem = s.mem ∧ t.eng = s.eng ∧ t.fab.slices = s.fab.slices ∧
      t.fab.peers = s.fab.peers) ∧
  (∀ (s : State) (c o : Fin 2), s.holder = some c.val → s.tickNo < s.ctd.lease.expiry / 10 → s.wdogDue c = false → o ≠ c →
    s.ctd.lease.claims = [(s.tickNo, o.val, s.ctd.lease.gen)] → s.ctdGate o = .none → (s.recentLosses o).length < 3 →
    ∃ t : State, exec (.leaseRelease (.sp c) 1) s = .next t ∧ t.holder = some o.val ∧ t.ctd.lease.gates = false ∧
      t.ctd.lease.guardEnd = none ∧ t.ctd.lease.gen = s.ctd.lease.gen + 1 ∧ t.ctd.lease.lossCause = 1 ∧ t.mem = s.mem ∧
      t.eng = s.eng) ∧
  (∀ (s : State) (c : Fin 2), s.power.rails = true → s.holder = none → s.ctd.lease.guardEnd = none → s.ctdGate c = .none →
    (s.recentLosses c).length < 3 → c.val < s.ctd.ctds.length →
    ∃ t : State, exec (.leaseClaim (.sp c) s.ctd.lease.gen) s = .next t ∧ t.holder = some c.val ∧
      t.ctd.lease.gen = s.ctd.lease.gen + 1 ∧ t.ctd.lease.expiry = s.time.mono + 20000000 ∧
      t.ctd.lease.gates = s.ctd.lease.gates ∧ (t.ctdOf c).role = .active ∧ t.bus = { value := 0 } ∧ t.mem = s.mem ∧
      t.eng = s.eng ∧ t.fab = s.fab) ∧
  (∀ (s : State) (c : Fin 2) (g : BitVec 32) (h : Nat), s.holder = some h → s.tickNo < s.ctd.lease.expiry / 10 →
    s.wdogDue h = false → s.ctd.lease.guardEnd = none →
    exec (.leaseClaim (.sp c) g) s = .next ((s.answer 0).setLease fun e =>
      { e with claims := e.claims.filter (·.1 == s.tickNo) ++ [(s.tickNo, c.val, g)] })) ∧
  (∀ (s : State) (c : Fin 2), s.power.rails = true → s.holder = none → s.ctd.lease.guardEnd = none → s.ctdGate c = .none →
    (s.recentLosses c).length < 3 → (s.ctdOf c).role = .standby → (s.ctdOf c).claimable = true →
    ∃ t : State, exec (.standbyLeasePoll c) s = .next t ∧ t.holder = some c.val ∧ t.ctd.lease.gen = s.ctd.lease.gen + 1 ∧
      t.ctd.lease.expiry = s.time.mono + 20000000 ∧ t.mem = s.mem ∧ t.eng = s.eng ∧ t.fab = s.fab)

/-- R291, R292: LEASE_OPEN, SWITCHOVER_GAP_TIMEOUT. R296, R297: CTD_WDOG_KICK, CTD_WDOG_EXPIRED, HOLDER_RESET_RELEASE.
R299, R300: MIRROR_CHECK, RESYNC_COPY_DONE, STANDBY_SELF_TEST, STANDBY_HEALTH. Completion is stated of: LEASE_OPEN,
CTD_WDOG_KICK, CTD_WDOG_EXPIRED, HOLDER_RESET_RELEASE, SWITCHOVER_GAP_TIMEOUT, MIRROR_CHECK, RESYNC_COPY_DONE,
STANDBY_SELF_TEST, STANDBY_HEALTH. -/
def Obligations.CtdUpkeep : Prop :=
  (∀ (s : State) (c : Fin 2), s.holder = some c.val → s.tickNo < s.ctd.lease.expiry / 10 → s.wdogDue c = false →
    s.ctd.lease.renewed = true → s.ctd.lease.gates = false → s.ctd.lease.takeover = false → s.ctd.lease.opened = true →
    s.ctd.lease.closedAt = none →
    exec (.leaseOpen (.sp c) 1) s = .next ((s.answer 0).setLease fun e => { e with
      gates := true, closedAt := none, opened := true, takeover := false, opening := none }).jobSweep) ∧
  (∀ (s : State) (c : Fin 2) (k : Nat), s.holder = some c.val → s.tickNo < s.ctd.lease.expiry / 10 → s.wdogDue c = false →
    s.ctd.lease.renewed = true → s.ctd.lease.gates = false → s.ctd.lease.takeover = true → s.ctd.lease.opened = true →
    s.ctd.lease.recovery = false → s.ctd.lease.closedAt = some k →
    ∃ t : State, exec (.leaseOpen (.sp c) 1) s = .next t ∧ t.ctd.lease.gates = true ∧ t.ctd.lease.closedAt = none ∧
      t.ctd.lease.gapUs = (s.time.mono - k) / 1000 ∧ t.ctd.lease.takeover = false) ∧
  (∀ (s : State) (c : Fin 2), s.holder = some c.val → s.tickNo < s.ctd.lease.expiry / 10 → s.wdogDue c = false →
    s.ctd.lease.renewed = false → s.ctd.lease.gates = false →
    exec (.leaseOpen (.sp c) 1) s = .next ((s.answer 0).setLease fun e => { e with opening := some (s.tickNo, c.val) })) ∧
  (∀ (s : State) (t : Nat), s.ctd.lease.closedAt = some t → s.ctd.lease.gates = false → s.ctd.lease.recovery = false → t + 40000000 ≤ s.time.mono →
    s.power.rails = true →
    ∃ u : State, exec .switchoverGapTimeout s = .next u ∧ u = s.startRecovery (if s.hasCtd1 then 3 else 4) ∧
      u.ctd.lease.recovery = true ∧ u.holder = none ∧ u.ctd.lease.gates = false ∧ u.ctd.lease.recStart = s.time.mono) ∧
(∀ (s : State) (c : Fin 2), s.ctdGate c = .none →
    exec (.ctdWdogKick (.sp c) c 1) s = .next ((s.answer 0).setCtd c fun x => { x with kickAt := s.time.mono })) ∧
  (∀ (s : State) (c : Fin 2), s.wdogDue c = true → c.val < s.ctd.ctds.length → s.power.rails = true →
    (∀ h, s.holder = some h → s.tickNo < s.ctd.lease.expiry / 10) → s.ctd.lease.claims.filter (·.1 == s.tickNo) = [] →
    ∃ t : State, exec (.ctdWdogExpired c) s = .next t ∧ (t.ctdOf c).expiries = min 0xFFFF ((s.ctdOf c).expiries + 1) ∧
      (t.ctdOf c).heldUntil = some (s.time.mono + 100000000) ∧ (t.ctdOf c).role = .booting ∧
      (s.holder = some c.val → t.holder = none ∧ t.ctd.lease.lossCause = 2) ∧
      (s.holder ≠ some c.val → t.ctd.lease = s.ctd.lease) ∧ t.mem = s.mem ∧ t.eng = s.eng ∧ t.fab.slices = s.fab.slices ∧
      t.fab.peers = s.fab.peers) ∧
  (∀ (s : State) (c : Fin 2) (x : Option (Fin 6)) (t : Nat), (s.ctdOf c).heldUntil = some t → t ≤ s.time.mono →
    c.val < s.ctd.ctds.length →
    ∃ u : State, exec (.holderResetRelease c x) s = .next u ∧ (u.ctdOf c).heldUntil = none ∧ (u.ctdOf c).running = true ∧
      (u.ctdOf c).bootAt = s.time.mono ∧ u.mem = s.mem ∧ u.eng = s.eng ∧ u.fab = s.fab) ∧
(∀ (s : State) (h c : Nat) (q k : BitVec 32), s.serving = some h → s.standby = some c → (s.ctdOf c).health = .good →
    q = (s.ctdOf c).nextSeq →
    ∃ t : State, t = { s with ctd := { s.ctd with mirrorSeq := q, totals := s.totals } } ∧
      exec (.mirrorCheck q k k) s = .next (t.setCtd c fun x => { x with mirrorSeq := q, nextSeq := q + 1 })) ∧
  (∀ (s : State) (h c : Nat) (q k m : BitVec 32), s.serving = some h → s.standby = some c → (s.ctdOf c).health = .good →
    (k ≠ m ∨ q ≠ (s.ctdOf c).nextSeq) →
    ∃ t : State, t = { s with ctd := { s.ctd with mirrorSeq := q, totals := s.totals } } ∧
      exec (.mirrorCheck q k m) s = .next ((t.setCtd c fun x =>
        { x with health := .resync, claimable := false, resyncAsked := true, copied := false }).logTo c 0x1305 3 (512 + c)
          [(s.ctdOf c).nextSeq.toNat, q.toNat, m.toNat, k.toNat])) ∧
  (∀ (s : State) (h : Nat) (c : Fin 2), s.serving = some h → (s.ctdOf c).role = .standby → (s.ctdOf c).health = .resync →
    (s.ctdOf c).resyncAsked = true → s.ctdGate c = .none →
    exec (.resyncCopyDone c) s = .next
      (({ s with ctd := { s.ctd with totals := s.totals } } : State).setCtd c fun x =>
        { x with copied := true, nextSeq := s.ctd.mirrorSeq + 1 })) ∧
  (∀ (s : State) (c : Fin 2) (d : BitVec 32), (s.ctdOf c).role = .standby → s.ctdGate c = .none →
    exec (.standbySelfTest c 0 true d) s = .next (s.setCtd c fun x => 
      { x with sievePass := x.sievePass + 1, spNext := (x.spNext + 1) % 4 })) ∧
  (∀ (s : State) (c : Fin 2) (n t : BitVec 32), (s.ctdOf c).role = .standby → s.ctdGate c = .none →
    (s.ctdOf c).reportAt + 1000000000 ≤ s.time.mono → c.val < s.ctd.ctds.length →
    ∃ u : State, exec (.standbyHealth c n t) s = .next u ∧ (u.ctdOf c).reportAt = s.time.mono ∧ (u.ctdOf c).waiters = [] ∧
      u.ctd.lease = s.ctd.lease ∧ u.mem = s.mem ∧ u.fab = s.fab)

/-- R287, R308, R309, R414 to R416, R420: MODULE_RECOVERY, RESET_ESCALATED and the commands 0x0704, 0x0705, 0x0708,
0x0709. Completion is stated of: MODULE_RECOVER, MODULE_RECOVERY, RESET_ESCALATED, SWITCHOVER, OOS_QUERY,
OOS_LATCH_CLEAR. -/
def Obligations.RecoveryCommands : Prop :=
  (∀ (s : State) (l pw : BitVec 24) (p : List (Nat × List PatternResult)) (h : Nat), s.ctd.lease.recovery = true →
    s.ctd.lease.gates = true → s.holder = some h →
    ∃ t : State, exec (.moduleRecovery ⟨l, pw⟩ p) s = .next t ∧ t.ctd.lease.recovery = false ∧ t.fuse = s.fuse ∧
      t.pending = s.pending ∧
      (s.ctd.nv.latched = false → ∀ d, d < s.dies.length → (t.die d).inReset = false)) ∧
  (∀ (s : State) (u : Nat), u < 112 → s.serving.isSome = true → (s.engine u).st = .resetting →
    (s.die (engDie u)).inReset = false → (s.pairOf u).headD u = u → (s.engine u).resetStart + 50000000 < s.time.mono →
    exec (.resetEscalated .engine u) s = .next ((s.logFw 0x0706 5
      [2, 3, u, (s.time.mono - (s.engine u).resetStart) / 1000, 50000]).startDieReset (engDie u) 2 [])) ∧
  (∀ (s : State) (c : Nat), s.serving.isSome = true → (s.ctx c).st = .resetting → s.resetWaits c = false →
    (s.ctx c).resetEngs ≠ [] →
    (s.ctx c).resetFrom + (if (s.ctx c).releasing then 10000000 else 5000000) < s.time.mono →
    exec (.resetEscalated .context c) s = .next ((s.ctx c).resetEngs.foldl (fun t j => t.startEngReset j 5 [])
      (s.logFw 0x0706 5 [1, 2, c, (s.time.mono - (s.ctx c).resetFrom) / 1000,
        if (s.ctx c).releasing then 10000 else 5000]))) ∧
  (∀ (s : State) (d t : Nat), d < 4 → s.serving.isSome = true → (s.die d).resetStart = some t →
    t + 1500000000 < s.time.mono →
    exec (.resetEscalated .die d) s = .next ((s.logFw 0x0706 5
      [3, 4, d, (s.time.mono - t) / 1000, 1500000]).startRecovery 2)) ∧
  (∀ (s : State), s.ctd.lease.recovery = true → s.ctd.lease.recStart + 10000000000 < s.time.mono →
    exec (.resetEscalated .module 0) s = .next ((s.logDie 0 0x0706 5
      [4, 4, 0, (s.time.mono - s.ctd.lease.recStart) / 1000, 10000000]).startRecovery 6)) ∧
  (∀ (r : DReq) (s : State), s.heard 0x0704 [.m] r = true → r.args.length = 0 →
    exec (.moduleRecover r) s = .next ((answerDarid (whoOf 0x0704 true r)
      { s := s.setLease fun e => { e with next := 11 } }).afterResponse r.ctd r.ch)) ∧
  (∀ (r : DReq) (s : State) (c : Nat), s.heard 0x0705 [.m, .f] r = true → r.args.length = 0 → s.hasCtd1 = true →
    s.standby = some c → (s.ctdOf c).claimable = true →
    exec (.switchover r) s = .next ((answerDarid (whoOf 0x0705 true r)
      { s := s.setLease fun e => { e with next := 1 } }).afterResponse r.ctd r.ch)) ∧
  (∀ (r : DReq) (s : State), s.heard 0x0708 [.m] r = true → r.args.length = 0 →
    exec (.oosQuery r) s = .next (answerDarid (whoOf 0x0708 false r)
      { s := s, words := s.oosStatus :: lohi s.ctd.nv.nonce.toNat })) ∧
  (∀ (r : DReq) (s t : State) (b : List Byte), s.carriesOut r.ctd.val = true → s.serving = some r.ctd.val →
    s.inRom r.ctd.val = false → s.ctd.nv.latched = true → (s.chan r.ctd.val r.ch.val).cache = none →
    senderOf r.ch.val = some .m → r.args.length = 101 → b = argBytes (DReq.nums r) 0 101 →
    fieldAt b 0 8 = s.fuse.serial.toNat → fieldAt b 8 4 = s.ctd.nv.latchCount → fieldAt b 12 8 = s.ctd.nv.nonce.toNat →
    s.ctd.clamp.opKey.any (· != 0) = true → Config.rsaVerify s.ctd.clamp.opKey (b.take 20) (b.drop 20) = true →
    t = ({ s with ctd := { s.ctd with nv := { s.ctd.nv with latched := false, recoveries := [] } } } : State).logFw 0x1309 5
      [s.ctd.nv.latchCount] →
    exec (.oosLatchClear r) s = .next ((answerDarid (whoOf 0x0709 true r)
      { s := t.setLease fun e => { e with next := 15 } }).afterResponse r.ctd r.ch)) ∧
  (∀ (r : DReq) (s : State) (b : List Byte), s.carriesOut r.ctd.val = true → s.serving = some r.ctd.val →
    s.inRom r.ctd.val = false → s.ctd.nv.latched = true → (s.chan r.ctd.val r.ch.val).cache = none →
    senderOf r.ch.val = some .m → r.args.length = 101 → b = argBytes (DReq.nums r) 0 101 →
    Config.rsaVerify s.ctd.clamp.opKey (b.take 20) (b.drop 20) = false →
    ∃ t : State, t = { s with
        free := s.free + 1
        ctd := { s.ctd with nv := { s.ctd.nv with nonce := Config.freeValue 64 s.free } } } ∧
      exec (.oosLatchClear r) s = .next ((answerDarid (whoOf 0x0709 true r)
        { s := t, status := dBadSig }).afterResponse r.ctd r.ch))

/-- R210, R215, R217, R238, R240, R241: LANE_LOCK_LOSS, LANE_LOCK, IDENT_RECEIVE, IDENT_TIMEOUT, WG_RETRAIN,
REPLAY_TIMEOUT. Completion is stated of: REPLAY_TIMEOUT, LANE_LOCK_LOSS, WG_RETRAIN, IDENT_RECEIVE, IDENT_TIMEOUT,
LANE_LOCK. -/
def Obligations.LinkTraining : Prop :=
  (∀ (s : State) (p : Fin 13), (s.port p).st = .up →
    exec (.laneLockLoss p) s = .next (s.setPort p fun x =>
      { x with
        st := .retraining, cause := 0, startedAt := s.time.mono, attempts := 0, exchanged := false, gotIdent := false
        lockAt := none, before := some x.serial, retrains := min 0xFFFF (x.retrains + 1) })) ∧
  (∀ (s : State) (p : Fin 13), (s.port p).st = .training → (s.port p).lanes = 0 →
    exec (.laneLock p 0) s = .next (s.setPort p fun x =>
      { x with lanes := 16, failed := 0, lockAt := some s.time.mono, exchanged := false })) ∧
  (∀ (s : State) (p : Fin 13) (i : Ident), (s.port p).st = .training → (s.port p).lanes ≠ 0 → (s.port p).exchanged = false →
    i.acked = false →
    exec (.identReceive p i) s = .next (s.setPort p fun x =>
      { x with
        coord := i.coord, peerPort := i.port.setWidth 4, revMax := i.revMax, revMin := i.revMin, fw := i.fwRelease
        serial := i.serial, lockAt := none, gotIdent := true })) ∧
  (∀ (s : State) (p : Fin 13) (i : Ident) (r : Nat), (s.port p).st = .training → (s.port p).lanes ≠ 0 →
    (s.port p).exchanged = false → i.acked = true → s.identRow p i = 5 → agreedRev i.revMin.toNat i.revMax.toNat = some r →
    (s.port p).remapNew = false → p.val < s.fab.ports.length →
    exec (.identReceive p i) s = .next (((s.setPort p fun x =>
      { x with
        coord := i.coord, peerPort := i.port.setWidth 4, revMax := i.revMax, revMin := i.revMin, fw := i.fwRelease
        serial := i.serial, lockAt := none, gotIdent := true, exchanged := true, row := 5, st := .up, rev := r, attempts := 0 }).log 0x1001 2
          (srcPort p) [p.val, r, (s.port p).lanes, i.coord.toNat]).portSettled p)) ∧
  (∀ (s : State) (p : Fin 13) (t : Nat), (s.port p).lockAt = some t → t + 10000000 ≤ s.time.mono →
    (s.port p).exchanged = false → (s.port p).attempts < 2 →
    exec (.identTimeout p) s = .next ((s.log 0x1005 3 (srcPort p)
        [p.val, (s.port p).cause, (s.port p).attempts + 1, (s.time.mono - (s.port p).startedAt) / 1000]).setPort p fun x =>
      { x with
        st := .retraining, attempts := (s.port p).attempts + 1, startedAt := s.time.mono, exchanged := false
        gotIdent := false, lockAt := none, retrains := min 0xFFFF (x.retrains + 1) })) ∧
  (∀ (s : State) (p : Fin 13) (r : Nat), (s.port p).st = .retraining → (s.port p).exchanged = true → (s.port p).row = 5 →
    (s.port p).rev ≠ 0 → (s.port p).remapNew = false → agreedRev (s.port p).revMin.toNat (s.port p).revMax.toNat = some r → p.val < s.fab.ports.length →
    exec (.wgRetrain p 0 (s.port p).txAcked) s = .next (((s.log 0x1005 3 (srcPort p)
        [p.val, (s.port p).cause, (s.port p).attempts + 1, (s.time.mono - (s.port p).startedAt) / 1000]).setPort p fun x =>
      { x with
        lanes := 16, failed := 0, before := none, st := .up, rev := r, attempts := 0, resend := x.replay.map (·.fseq)
        progress := s.time.mono }).portSettled p)) ∧
  (∀ (s : State) (p : Fin 13), (s.port p).st = .up → (s.port p).replay ≠ [] → (s.port p).progress + 50000 ≤ s.time.mono →
    p.val < s.fab.ports.length →
    ∃ t : State, exec (.replayTimeout p) s = .next t ∧ (t.port p).resend = (s.port p).replay.map (·.fseq) ∧
      (t.port p).replay = (s.port p).replay ∧ (t.port p).replays = min 0xFFFF ((s.port p).replays + 1) ∧ t.mem = s.mem)

/-- R211 to R216: FLIT_TRANSMIT and FLIT_RECEIVE. Completion is stated of: FLIT_TRANSMIT, FLIT_RECEIVE. -/
def Obligations.Flits : Prop :=
  (∀ (s : State) (p : Fin 13), (s.port p).st = .up → (s.port p).lanes ≠ 0 → (s.port p).nakDue = true →
    exec (.flitTransmit p) s = .next ((s.setPort p fun x => { x with nakDue := false, nakSent := true }).putFlit p 2 0 0 0xFF [])) ∧
  (∀ (s : State) (p : Fin 13) (q : Nat) (rest : List Nat) (f : Flit), (s.port p).st = .up → (s.port p).lanes ≠ 0 →
    (s.port p).nakDue = false → (s.port p).resend = q :: rest → (s.port p).replay.find? (fun g => g.fseq == q) = some f →
    exec (.flitTransmit p) s = .next ((s.setPort p fun x => { x with resend := rest }).sendData p f)) ∧
  (∀ (s : State) (p : Fin 13) (v left : Nat), (s.port p).st = .up → (s.port p).lanes ≠ 0 → (s.port p).nakDue = false →
    (s.port p).resend = [] → (s.port p).replay.length < s.replaySize p → (s.port p).nextVc (s.vcRoom p) false = some (v, left) →
    p.val < s.fab.ports.length →
    ∃ (t : State) (f : Flit), exec (.flitTransmit p) s = .next t ∧ f.fseq = (s.port p).txNext.toNat ∧ f.vc = v ∧
      (t.port p).txNext = (s.port p).txNext + 1 ∧ (t.port p).replay = (s.port p).replay ++ [f] ∧
      (t.port p).credits = ((s.port p).spend v).credits ∧ (t.port p).borrowed = ((s.port p).spend v).borrowed ∧
      (t.port p).dataSent = (s.port p).dataSent + 1 ∧
      t.mem = s.mem ∧ t.eng = s.eng) ∧
  (∀ (s : State) (p : Fin 13) (fl : List (BitVec 8)), (s.port p).st = .up → (s.port p).lanes ≠ 0 →
    rsDecode ((List.range 128).map fun i => fl.getD (2 * i) 0) = none →
    rsDecode ((List.range 128).map fun i => fl.getD (2 * i + 1) 0) = none → p.val < s.fab.ports.length →
    exec (.flitReceive p fl) s = .next (s.setPort p fun x =>
      { x with
        fecCorr := min 0xFFFF x.fecCorr, fecUncorr := min 0xFFFF (x.fecUncorr + 2), errTotal := x.errTotal + 2
        nakDue := x.nakDue || !x.nakSent })) ∧
  (∀ (s : State) (p : Fin 13) (fl a b m : List (BitVec 8)) (na nb : Nat), (s.port p).st = .up → (s.port p).lanes ≠ 0 →
    rsDecode ((List.range 128).map fun i => fl.getD (2 * i) 0) = some (a, na) →
    rsDecode ((List.range 128).map fun i => fl.getD (2 * i + 1) 0) = some (b, nb) →
    m = (List.range 240).map (fun i => (if i % 2 = 0 then a else b).getD (i / 2) 0) →
    (crc32c (m.take 236)).toNat = fieldAt m 236 4 → bitsOf (fieldAt m 0 8) 2 0 = 1 → bitOf (fieldAt m 0 8) 38 = false →
    BitVec.ofNat 16 (bitsOf (fieldAt m 0 8) 21 6) = (s.port p).rxLast + 1 → p.val < s.fab.ports.length →
    ∃ t : State, exec (.flitReceive p fl) s = .next t ∧ (t.port p).rxLast = (s.port p).rxLast + 1 ∧
      (t.port p).nakSent = false ∧ (t.port p).unacked = (s.port p).unacked + 1 ∧
      (t.port p).owed = lmod (s.port p).owed (bitsOf (fieldAt m 0 8) 5 3) (· + 1) ∧
      (t.port p).credits = ((s.port p).refund (bitsOf (fieldAt m 0 8) 41 39) (bitsOf (fieldAt m 0 8) 51 42)).credits)

/-- R224, R226, R228: PACKET_ARRIVE and REORDERED_REQUEST_DELIVER. Completion is stated of: PACKET_ARRIVE,
REORDERED_REQUEST_DELIVER. -/
def Obligations.RequestsInOrder : Prop :=
  (∀ (s t : State) (p : Fin 13) (k : Packet), t = s.takePkt p (pktBytes k) → t.isUp p = true →
    (k.ptype.toNat < 5 ∨ 10 < k.ptype.toNat) → k.dst.toNat = t.ownId →
    (∀ x, t.sliceOf k.slice = some x → bitOf x.2.boundary.toNat p = false) →
    (t.die (homeDie k.src.toNat)).inReset = false → (t.fab.peers.lookup k.src.toNat).isSome = true →
    (t.rxFlow k.src.toNat k.cls.toNat).e = some k.seq →
    exec (.packetArrive p k []) s = .next ((t.setRx k.src.toNat k.cls.toNat id).deliverReq p k)) ∧
  (∀ (s : State) (m : BitVec 15) (c : Fin 4) (p : Nat) (k : Packet), (s.die (homeDie m.toNat)).inReset = false →
    (s.rxFlow m.toNat c).waiting.find? (fun w => some w.2.seq == (s.rxFlow m.toNat c).e) = some (p, k) →
    exec (.reorderedRequestDeliver m c []) s = .next ((s.setRx m.toNat c fun f =>
      { f with waiting := f.waiting.filter fun w => w.2.seq != k.seq }).deliverReq p k)) ∧
  (∀ (s : State) (p : Nat) (k : Packet), s.reqChecks p k = (0, s) →
    s.deliverReq p k = (((s.performReq k).1.setRx k.src.toNat k.cls.toNat fun f =>
      { f with
        e := some (k.seq + 1)
        cache := (((k.seq, 0, (s.performReq k).2.operand) :: f.cache).take 64) }).reply p k (s.performReq k).2)) ∧
  (∀ (s : State) (k : Packet), k.ptype = 1 →
    s.performReq k = (s.lWrite (reqAddr k) k.payload
      (maskedSectors (if k.hm then k.mask else 0) (reqAddr k) (reqAddr k) k.len.toNat), { st := 0 })) ∧
  (∀ (s : State) (k : Packet), k.ptype = 2 → (s.performReq k).1 = s ∧
    (s.performReq k).2.data = s.lRead (reqAddr k) k.len.toNat) ∧
  (∀ (s : State) (k : Packet), k.ptype = 3 →
    (s.performReq k).2.operand = BitVec.ofNat 64 (ofLe (s.lRead (reqAddr k) (if bitOf k.dw2.toNat 56 then 8 else 4))))

/-- R224, R226, R230: RESP_RECEIVE, REQUEST_TIMEOUT, BUSY_RESEND, EPOCH_AHEAD_RESEND, EPOCH_WAIT_EXPIRY. R227:
PEER_ENTRY_RELEASE. Completion is stated of: RESP_RECEIVE, REQUEST_TIMEOUT, BUSY_RESEND, EPOCH_AHEAD_RESEND,
EPOCH_WAIT_EXPIRY, PEER_ENTRY_RELEASE. -/
def Obligations.IssuerAndPeers : Prop :=
  (∀ (s t : State) (k : Packet) (r : FReq), t = (List.range 13).foldl (fun s p => s.takePkt p (pktBytes k)) s → k.ptype = 5 →
    k.dst.toNat = s.ownId → t.una? k.src.toNat k.cls.toNat k.seq = some r → bitsOf k.dw2.toNat 55 52 = 0 →
    exec (.respReceive k) s = .next (s.unlessWaits (((t.setTx k.src.toNat k.cls.toNat fun f =>
        { f with una := f.una.filter (·.seq != k.seq) }).settle r 0 k.dw3 k.payload (if k.hm then k.mask else 0)).flowMoves
          k.src.toNat k.cls.toNat))) ∧
  (∀ (s t : State) (k : Packet) (r : FReq), t = (List.range 13).foldl (fun s p => s.takePkt p (pktBytes k)) s → k.ptype = 5 →
    k.dst.toNat = s.ownId → t.una? k.src.toNat k.cls.toNat k.seq = some r → bitsOf k.dw2.toNat 55 52 = 2 →
    exec (.respReceive k) s = .next (s.unlessWaits (t.setUna k.src.toNat k.cls.toNat k.seq fun r =>
      { r with ahead := r.ahead <|> some t.time.mono, sentAt := t.time.mono, busy := false }))) ∧
  (∀ (s : State) (m : BitVec 15) (c : Fin 4) (q : BitVec 16) (r : FReq), s.una? m.toNat c q = some r → r.busy = false →
    r.ahead = none → r.sentAt + s.fab.timeout * 100000 ≤ s.time.mono → r.tries < s.fab.retries →
    exec (.requestTimeout m c q) s = .next (s.unlessWaits (s.resendReq m.toNat c { r with tries := r.tries + 1 }))) ∧
  (∀ (s : State) (m : BitVec 15) (c : Fin 4) (q : BitVec 16) (r : FReq), s.una? m.toNat c q = some r → r.busy = false →
    r.ahead = none → r.sentAt + s.fab.timeout * 100000 ≤ s.time.mono → s.fab.retries ≤ r.tries →
    exec (.requestTimeout m c q) s = .next (s.unlessWaits ((s.failFlow m.toNat c 0xC).flowMoves m.toNat c))) ∧
  (∀ (s : State) (m : BitVec 15) (c : Fin 4) (q : BitVec 16) (r : FReq), s.una? m.toNat c q = some r → r.busy = true →
    r.sentAt + s.fab.timeout * 12500 ≤ s.time.mono →
    exec (.busyResend m c q) s = .next (s.unlessWaits (s.resendReq m.toNat c { r with busy := false }))) ∧
  (∀ (s : State) (m : BitVec 15) (c : Fin 4) (q : BitVec 16) (r : FReq) (a : Nat), s.una? m.toNat c q = some r →
    r.ahead = some a → r.sentAt + 100000 ≤ s.time.mono →
    exec (.epochAheadResend m c q) s = .next (s.unlessWaits (s.resendReq m.toNat c r))) ∧
  (∀ (s : State) (m : BitVec 15) (c : Fin 4) (q : BitVec 16) (r : FReq) (a : Nat), s.una? m.toNat c q = some r →
    r.ahead = some a → a + s.fab.epochWait * 1000000 ≤ s.time.mono →
    exec (.epochWaitExpiry m c q) s = .next (s.unlessWaits ((s.failFlow m.toNat c 1).flowMoves m.toNat c))) ∧
(∀ (s t : State) (m : BitVec 15) (p : Peer), s.fab.peers.lookup m.toNat = some p → p.tgt = true → p.snd = false →
    p.rx.all (·.waiting.isEmpty) = true → p.tgtIdle + 10000000 ≤ s.time.mono →
    t = { s with fab := { s.fab with peers := (mdel s.fab.peers m.toNat) } } →
    exec (.peerEntryRelease m true) s = .next t.unstall.sweepDescs.jobSweep) ∧
  (∀ (s t : State) (m : BitVec 15) (p : Peer), s.fab.peers.lookup m.toNat = some p → p.snd = true → p.tgt = true →
    p.tx.all (fun f => f.una.isEmpty && f.wait.isEmpty) = true → p.sndIdle + 20000000 ≤ s.time.mono →
    t = { s with fab := { s.fab with
      peers := (mput s.fab.peers m.toNat { p with snd := false, tx := List.replicate 4 {} }) } } →
    exec (.peerEntryRelease m false) s = .next t.unstall.sweepDescs.jobSweep)

/-- R97 to R99, R121: Q_TAIL_DOORBELL, Q_CTRL_RESUME, DE_SEM_VALUE_WRITE, DE_SEM_ADD_WRITE. Completion is stated of:
Q_TAIL_DOORBELL, Q_CTRL_RESUME, DE_SEM_VALUE_WRITE, DE_SEM_ADD_WRITE. -/
def Obligations.DoorbellsAndSemaphores : Prop :=
  (∀ (s : State) (c : Fin 256) (q : Fin 64) (v : BitVec 32) (u : Queue), s.queue? c q = some u → u.st ≠ .resetting →
    u.st ≠ .unbound → u.st ≠ .idle → (v - u.done).toNat ≤ 2 ^ u.s → (v - u.head).toNat < 2 ^ 31 →
    exec (.qTailDoorbell c q v) s = .next (s.setQueue c q fun x => { x with tail := v })) ∧
  (∀ (s : State) (c : Fin 256) (q : Fin 64) (v : BitVec 32) (u : Queue), s.queue? c q = some u → u.st = .idle →
    (v - u.done).toNat ≤ 2 ^ u.s → (v - u.head).toNat < 2 ^ 31 →
    exec (.qTailDoorbell c q v) s = .next (s.setQueue c q fun x =>
      { x with tail := v, st := ({ x with tail := v } : Queue).rest })) ∧
  (∀ (s : State) (c : Fin 256) (q : Fin 64) (v : BitVec 32) (u : Queue), s.queue? c q = some u →
    (u.st = .resetting ∨ u.st = .unbound ∨ 2 ^ u.s < (v - u.done).toNat ∨ 2 ^ 31 ≤ (v - u.head).toNat) →
    exec (.qTailDoorbell c q v) s = .next (s.setQueue c q fun x => { x with dbErr := true })) ∧
  (∀ (s : State) (c : Fin 256) (q : Fin 64) (u : Queue), s.queue? c q = some u → u.st = .stopped →
    exec (.qCtrlResume c q 1) s = .next (s.setQueue c q fun x => { x with st := .active })) ∧
  (∀ (s : State) (k : Fin 16384) (v : BitVec 32), (s.die (k.val / 4096)).inReset = false →
    ∃ t : State, exec (.deSemValueWrite k v) s = .next t ∧ t = { s with eng := { s.eng with sems := t.eng.sems } } ∧
      ∀ i, t.sem i = if i = k.val then v else s.sem i) ∧
  (∀ (s : State) (k : Fin 16384) (v : BitVec 32), (s.die (k.val / 4096)).inReset = false →
    ∃ t : State, exec (.deSemAddWrite k v) s = .next t ∧ t = { s with eng := { s.eng with sems := t.eng.sems } } ∧
      ∀ i, t.sem i = if i = k.val then s.sem k + v else s.sem i) ∧
  (∀ (s : State) (k : Fin 16384) (v : BitVec 32), (s.die (k.val / 4096)).inReset = true →
    exec (.deSemValueWrite k v) s = .next (s.fail .domainOff) ∧ exec (.deSemAddWrite k v) s = .next (s.fail .domainOff))

/-- R96, R102: DESCRIPTOR_FETCH. R93, R99, R100, R110: DESCRIPTOR_COMPLETE. Completion is stated of: DESCRIPTOR_FETCH,
DESCRIPTOR_COMPLETE. -/
def Obligations.Descriptors : Prop :=
  (∀ (s v t : State) (j : Fin 112) (k : Nat) (u : Queue) (d : List Nat), s.engFree j = true → v = s.engTouch j →
    s.eng.queues.filter (fun e => e.2.eng == j.val) = [(k, u)] → (s.engine j).rr = none →
    t = (v.setEng j fun x => { x with rr := some (k, 2 ^ u.prio - 1) }) → v.peek (k / 64) (k % 64) u = .start d →
    t.peek (k / 64) (k % 64) u = .start d →
    exec (.descriptorFetch j []) s = .next (s.unlessWaits (t.startDesc (k / 64) (k % 64) j u.head d))) ∧
  (∀ (s v t : State) (j : Fin 112) (k : Nat) (u : Queue) (d : List Nat) (f : Fail) (g : Bool), s.engFree j = true →
    v = s.engTouch j → s.eng.queues.filter (fun e => e.2.eng == j.val) = [(k, u)] → (s.engine j).rr = none →
    t = (v.setEng j fun x => { x with rr := some (k, 2 ^ u.prio - 1) }) → v.peek (k / 64) (k % 64) u = .fail d f g →
    t.peek (k / 64) (k % 64) u = .fail d f g →
    exec (.descriptorFetch j []) s = .next (s.unlessWaits (t.endUnstarted (k / 64) (k % 64) j u.head d f g))) ∧
  (∀ (s : State) (j : Fin 112) (l : List LineFlip), s.engFree j = false → exec (.descriptorFetch j l) s = .next s) ∧
(∀ (s v : State) (c : Fin 256) (q : Fin 64) (u : Queue) (x : Started) (rest : List Started) (f : Fail),
    s.queue? c q = some u → u.started = x :: rest → x.reqs = 0 → x.fail = some f → s.recordReady u x = true →
    s.roomFor c q x.index = true → (s.engine u.eng).st = .idle →
    (s.die (engDie u.eng)).inReset = false → s.started? c q x.index = some x → v = s.engTouch u.eng →
    exec (.descriptorComplete c q []) s = .next (s.unlessWaits (((v.unordDone c q u.eng x).commit c q).cvCommit x))) ∧
  (∀ (s v t : State) (c : Fin 256) (q : Fin 64) (u : Queue) (x z : Started) (rest : List Started),
    s.queue? c q = some u → u.started = x :: rest → x.reqs = 0 → x.fail = none → x.maskDue = false → x.tiles = [] →
    x.checks = [] → x.convoy = none → x.work = true → s.recordReady u x = true → s.roomFor c q x.index = true →
    (s.engine u.eng).st = .idle → (s.die (engDie u.eng)).inReset = false → s.started? c q x.index = some x →
    v = s.engTouch u.eng → t = v.veCopies c q u.eng x → t.started? c q x.index = some z → z.reqs = 0 →
    exec (.descriptorComplete c q []) s = .next (s.unlessWaits (((t.unordDone c q u.eng z).commit c q).cvCommit z))) ∧
  (∀ (s w t : State) (c : Fin 256) (q : Fin 64) (u : Queue) (x y z : Started) (rest : List Started),
    s.queue? c q = some u → u.started = x :: rest → x.reqs = 0 → x.fail = none → x.maskDue = false → x.tiles = [] →
    x.checks = [] → x.convoy = none → x.work = false → s.recordReady u x = true → s.roomFor c q x.index = true →
    (s.engine u.eng).st = .idle → (s.die (engDie u.eng)).inReset = false →
    w = ((s.engTouch u.eng).initFlags u.eng x).doWork c q u.eng x → w.started? c q x.index = some y → y.reqs = 0 →
    t = w.veCopies c q u.eng y → t.started? c q x.index = some z → z.reqs = 0 →
    exec (.descriptorComplete c q []) s = .next (s.unlessWaits (((t.unordDone c q u.eng z).commit c q).cvCommit z))) ∧
  (∀ (s : State) (c q : Nat) (u : Queue) (x : Started) (rest : List Started), s.queue? c q = some u →
    u.started = x :: rest → x.fail = none → u.deleting = [] →
    ∃ v : Queue, (s.commit c q).queue? c q = some v ∧ v.started = rest ∧ v.done = x.index + 1 ∧ v.lastErr = u.lastErr) ∧
  (∀ (s : State) (c q st det a : Nat) (u : Queue) (x : Started) (rest : List Started), s.queue? c q = some u →
    u.started = x :: rest → x.fail = some (st, det, a) → st ≠ 0 → isFaultStatus st = false → u.st = .active →
    u.deleting = [] →
    ∃ v : Queue, (s.commit c q).queue? c q = some v ∧ v.started = rest ∧ v.done = x.index + 1 ∧ v.st = .stopped ∧
      v.lastErr = BitVec.ofNat 16 st)

/-- R164, R165, R167: STASH_PASS_START, STASH_PASS_OPEN, STASH_ARM_WRITE, STASH_ARM_ENTRY. R165, R168, R169: the
allocation of STASH_ARM_ENTRY, STASH_RETIRE_WRITE. Completion is stated of: STASH_PASS_START, STASH_PASS_OPEN,
STASH_ARM_WRITE, STASH_ARM_ENTRY, STASH_RETIRE_WRITE. -/
def Obligations.StashRules : Prop :=
  (∀ (s : State) (c : Fin 256), (s.stash c).st ≠ .none → (s.stash c).ended = false →
    exec (.stashPassStart c 1) s = .next (s.setStash c fun t => { t with pending := true })) ∧
  (∀ (s : State) (c : Fin 256), (s.stash c).pending = true → (s.stash c).ended = false → s.producers c = false →
    exec (.stashPassOpen c) s = .next (s.setStash c fun t =>
      { t with
        pass := t.pass + 1, st := .open_, pending := false, fill := 0, demand := 0, armed := 0, retired := 0, fullAt := none
        armCount := 0, retireCount := 0, ovf := false, nan := false, headOff := 0, entries := [] })) ∧
  (∀ (s : State) (c : Fin 256) (v : BitVec 32), (s.stash c).pending = false → (s.stash c).open? = true →
    (s.stash c).armCount ≤ bitsOf v.toNat 12 0 → bitsOf v.toNat 12 0 ≤ (s.stash c).tableLen →
    exec (.stashArmWrite c v) s = .next (s.setStash c fun t => { t with armCount := bitsOf v.toNat 12 0 })) ∧
  (∀ (s : State) (c : Fin 256) (v : BitVec 32), ((s.stash c).pending = true ∨ (s.stash c).open? = false ∨ bitsOf v.toNat 12 0 < (s.stash c).armCount ∨ (s.stash c).tableLen < bitsOf v.toNat 12 0) →
    exec (.stashArmWrite c v) s = .next (s.setStash c fun t => { t with armErr := true })) ∧
  (∀ (s : State) (c : Fin 256) (off : Nat), (s.stash c).pending = false → (s.stash c).open? = true →
    (s.stash c).armed < (s.stash c).armCount → s.localOff ((s.stash c).table + 64 * (s.stash c).armed) = some off →
    (s.die (dieOf off)).inReset = false →
    ∃ t : State, exec (.stashArmEntry c []) s = .next t ∧ (t.stash c).armed = (s.stash c).armed + 1 ∧
      (t.stash c).retired = (s.stash c).retired ∧ (t.stash c).pass = (s.stash c).pass) ∧
(∀ (t t' : Stash) (i : Nat) (e e' : StashEnt), t.fill ≤ t.size → t.headOff ≤ t.size → 0 < t.size →
    allocate t i e = (t', e') →
    t'.fill ≤ t'.size ∧ t'.headOff ≤ t'.size ∧ t'.size = t.size ∧ t'.base = t.base ∧ e'.size = e.sizeOf_ ∧
      (e'.st = 1 → t.base ≤ e'.addr ∧ e'.addr + e.sizeOf_ ≤ t.base + t.size ∧ t'.fill = t.fill + e'.pad + e.sizeOf_) ∧
      (e'.st ≠ 1 → t'.st = .full ∧ t'.fill = t.fill ∧ e'.st = if e.recomp then 2 else 3)) ∧
  (∀ (s : State) (c : Fin 256) (v : BitVec 32), (s.stash c).pending = false → (s.stash c).open? = true →
    (s.stash c).retired ≤ bitsOf v.toNat 12 0 → bitsOf v.toNat 12 0 ≤ (s.stash c).armed →
    ∃ t : State, exec (.stashRetireWrite c v) s = .next t ∧ (t.stash c).retired = bitsOf v.toNat 12 0 ∧
      (t.stash c).retireCount = bitsOf v.toNat 12 0 ∧ (t.stash c).armed = (s.stash c).armed ∧ (t.stash c).pass = (s.stash c).pass) ∧
  (∀ (s : State) (c : Fin 256) (v : BitVec 32), ((s.stash c).pending = true ∨ (s.stash c).open? = false ∨ bitsOf v.toNat 12 0 < (s.stash c).retired ∨ (s.stash c).armed < bitsOf v.toNat 12 0) →
    exec (.stashRetireWrite c v) s = .next (s.setStash c fun t => { t with armErr := true }))

/-- R261, R266 to R268, R276, R277: COLL_SEG_RECEIVE, CARAVAN_SEG_RECEIVE. Completion is stated of: COLL_SEG_RECEIVE,
CARAVAN_SEG_RECEIVE. -/
def Obligations.SegmentsReceived : Prop :=
  (∀ (s t : State) (p : Fin 13) (k : Packet) (e : Nat) (ent : SliceEnt), t = s.takePkt p (pktBytes k) → k.ptype = 6 →
    segSkind k ≠ 3 → segForm k = true → t.isUp p = true → k.dst.toNat = t.ownId → t.sliceOf k.slice = some (e, ent) →
    bitOf ent.boundary.toNat p = false → k.epoch = ent.epoch →
    (t.convoy? (segKey k) = none →
      exec (.collSegReceive p k) s = .next (s.unlessWaits (t.sendAck false (segKey k) ent.epoch p 3 (segIndex k) (segStep k)))) ∧
    (∀ cv : Convoy, t.convoy? (segKey k) = some cv →
      (cv.st = .complete →
        exec (.collSegReceive p k) s = .next (s.unlessWaits (t.sendAck false (segKey k) ent.epoch p 0 (segIndex k) (segStep k)))) ∧
      (cv.st = .aborted →
        exec (.collSegReceive p k) s = .next (s.unlessWaits (t.sendAck false (segKey k) ent.epoch p 4 (segIndex k) (segStep k)))) ∧
      (∀ x : Started, cv.st = .active → t.cvDesc cv = some x → (collOf x cv.plan).fits p k = true →
        exec (.collSegReceive p k) s = .next (s.unlessWaits ((t.sendAck false (segKey k) ent.epoch p 0 (segIndex k) (segStep k)).cvTake cv
          (collOf x cv.plan) p k))))) ∧
  (∀ (s t : State) (p : Fin 13) (k : Packet) (e c q : Nat) (ix : Word) (ent : SliceEnt) (cv : Convoy) (x : Started) (u : Queue),
    t = s.takePkt p (pktBytes k) → k.ptype = 7 → t.serving.any t.inRom = false → t.isUp p = true → k.dst.toNat = t.ownId →
    t.sliceOf k.slice = some (e, ent) → bitOf ent.boundary.toNat p = false → k.epoch = ent.epoch →
    t.convoy? (segKey k) = some cv → cv.st = .active → cv.owner = some (c, q, ix) → t.cvDesc cv = some x →
    t.queue? c q = some u → (collOf x cv.plan).carFits p k = true →
    (segSkind k = 0 → exec (.caravanSegReceive p k) s = .next (s.unlessWaits (t.carData cv c q u.eng x (collOf x cv.plan) p k))) ∧
    (segSkind k = 1 → cv.whole (collOf x cv.plan) p (carOffset k) = true →
      exec (.caravanSegReceive p k) s = .next (s.unlessWaits (t.carDigest cv c q u.eng x (collOf x cv.plan) p k))))

/-- R268: SEG_ACK_RECEIVE, SEG_ACK_TIMEOUT, NOT_READY_RESEND, SEG_AHEAD_RESEND. R270, R272, R273: ABORT_RECEIVE,
ABORT_RESEND, ABORT_ACK_RECEIVE, CONVOY_ENTRY_FREE. Completion is stated of: SEG_ACK_RECEIVE, SEG_ACK_TIMEOUT,
NOT_READY_RESEND, SEG_AHEAD_RESEND, ABORT_RECEIVE, ABORT_RESEND, ABORT_ACK_RECEIVE, CONVOY_ENTRY_FREE. -/
def Obligations.SegmentTimersAndAborts : Prop :=
  (∀ (s t : State) (p : Fin 13) (k : Packet) (cv : Convoy), t = s.takePkt p (pktBytes k) → k.ptype = 6 → segSkind k = 3 →
    segAck k = 0 → t.isUp p = true → k.dst.toNat = t.ownId →
    t.fab.convoys.find? (fun cv => cv.st == .active && cv.car == false && cv.key.slice == k.slice &&
      cv.key.convoy == (segKey k).convoy && cv.tx.any (ackOf p (segIndex k) (segStep k))) = some cv →
    exec (.segAckReceive p k) s = .next
      (s.unlessWaits ((t.setConvoy cv.key fun v => { v with tx := v.tx.eraseP (ackOf p (segIndex k) (segStep k)) }).cvRun cv.key))) ∧
  (∀ (s : State) (key : ConvoyKey) (p : Fin 13) (sk : Fin 16) (seg st : Nat) (cv : Convoy) (g : Seg),
    s.timedSeg key p sk seg st 0 = some (cv, g) → g.sentAt + s.fab.timeout * 100000 ≤ s.time.mono →
    exec (.segAckTimeout key p sk seg st) s = .next (s.startAbort key 5 none)) ∧
  (∀ (s : State) (key : ConvoyKey) (p : Fin 13) (sk : Fin 16) (seg st : Nat) (cv : Convoy) (g : Seg),
    s.timedSeg key p sk seg st 3 = some (cv, g) → g.sentAt + 10000 ≤ s.time.mono →
    exec (.notReadyResend key p sk seg st) s = .next (s.unlessWaits (s.resendSeg cv g))) ∧
  (∀ (s : State) (key : ConvoyKey) (p : Fin 13) (sk : Fin 16) (seg st : Nat) (cv : Convoy) (g : Seg),
    s.timedSeg key p sk seg st 2 = some (cv, g) → s.time.mono < g.ahead + s.fab.epochWait * 1000000 →
    g.sentAt + 100000 ≤ s.time.mono →
    exec (.segAheadResend key p sk seg st) s = .next (s.unlessWaits (s.resendSeg cv g))) ∧
  (∀ (s : State) (key : ConvoyKey) (p : Fin 13) (sk : Fin 16) (seg st : Nat) (cv : Convoy) (g : Seg),
    s.timedSeg key p sk seg st 2 = some (cv, g) → g.ahead + s.fab.epochWait * 1000000 ≤ s.time.mono →
    exec (.segAheadResend key p sk seg st) s = .next (s.unlessWaits (s.startAbort key 4 none))) ∧
(∀ (s u t : State) (p : Fin 13) (src : BitVec 15) (m : AbortMsg) (cv : Convoy),
    u = s.takePay p (leBytes 1 1 ++ leBytes 1 m.cause.toNat ++ leBytes 2 m.key.convoy.toNat) →
    t = { u with fab := { u.fab with received := min 0xFFFF (u.fab.received + 1) } } → t.convoy? m.key = some cv →
    cv.st = .active →
    exec (.abortReceive p ⟨src, m⟩) s = .next ((t.endConvoy cv m (abortedFail m) 0 (some src)).sendCtrl p src 2 0 m)) ∧
  (∀ (s t v : State) (p : Fin 13) (src : BitVec 15) (m : AbortMsg) (cv : Convoy),
    v = s.takePay p (leBytes 1 1 ++ leBytes 1 m.cause.toNat ++ leBytes 2 m.key.convoy.toNat) →
    t = { v with fab := { v.fab with received := min 0xFFFF (v.fab.received + 1) } } → t.convoy? m.key = none →
    (t.sliceOf m.key.slice).map (·.2.epoch) = some m.key.epoch → t.fab.convoys.length < 512 →
    cv = { key := m.key, st := .aborted, cause := m.cause.toNat, origin := m.origin.toNat, originPod := m.originPod
           endAt := s.time.mono } →
    ∃ u : State, u = { t with fab := { t.fab with convoys := t.fab.convoys ++ [cv] } } ∧
      exec (.abortReceive p ⟨src, m⟩) s = .next ((u.logConvoy cv m 2).sendCtrl p src 2 2 m)) ∧
  (∀ (s : State) (key : ConvoyKey) (p : Fin 13) (cv : Convoy) (n t : Nat), s.convoy? key = some cv →
    cv.aborts = [(p.val, n, t)] → n < 10 → t + 20000 ≤ s.time.mono →
    exec (.abortResend key p) s = .next
      ((s.setConvoy key fun v => { v with aborts := [(p.val, n + 1, s.time.mono)] }).sendCtrl p (s.port p).coord 1 0 cv.msg)) ∧
  (∀ (s : State) (key : ConvoyKey) (p : Fin 13) (src : BitVec 15),
    exec (.abortAckReceive p ⟨src, key⟩) s = .next (s.setConvoy key fun v =>
      { v with aborts := v.aborts.filter fun a => (s.port a.1).coord != src })) ∧
  (∀ (s : State) (key : ConvoyKey) (cv : Convoy), s.convoy? key = some cv → cv.st ≠ .active →
    cv.endAt + 1000000000 ≤ s.time.mono →
    exec (.convoyEntryFree key) s = .next { s with fab := { s.fab with
      convoys := s.fab.convoys.filter fun v => v.key != key } })

/-- The front command is executed with the queue's rest. The tick on an empty queue is the model's choice (log 20). The table
gives no row any bits. -/
def Obligations.StepRunsFront : Prop :=
  (∀ (s : State) (c : Instr) (rest : List Instr), s.pending = c :: rest → step s = exec c { s with pending := rest }) ∧
  (∀ s : State, s.pending = [] → step s = .next s.tick) ∧
  (∀ (s : State) (n w : Nat), decodeTableWord n w = none ∧ s.withFetchWord n w = s)

/-- The reset state, as far as the manual gives it. -/
def Obligations.ResetState : Prop :=
  State.reset.Inv ∧ (∀ a, cellGet State.reset.mem.main.cells a = 0) ∧ State.reset.mem.main.husks = [] ∧
  State.reset.holder = none ∧ State.reset.ctd.lease.gates = false ∧ State.reset.ctd.lease.gen = 0 ∧
  State.reset.time.mono = 0 ∧ State.reset.time.podValid = false ∧ State.reset.time.tollValid = false ∧
  State.reset.time.thresh = 1000 ∧ State.reset.ctd.clamp.pMax = 1750 ∧ State.reset.ctd.clamp.iMax = 380 ∧
  State.reset.ctd.clamp.linkPermit = 0x2000 ∧ (∀ c < 2, (State.reset.ledger c).ram = []) ∧ State.reset.pending = [] ∧
  (∀ c, (State.reset.ctx c).st = .free)

/-- State.Inv is an invariant of step, from every state that meets it. -/
def Obligations.StepKeepsInv : Prop :=
  ∀ s t : State, s.Inv → step s = .next t → t.Inv

/-- R2, over every command and the tick. -/
def Obligations.ModCapsFixed : Prop :=
  (∀ s t : State, step s = .next t → t.fuse = s.fuse ∧ t.modCaps = s.modCaps) ∧
  (∀ s t : State, s.fuse = t.fuse → s.modCaps = t.modCaps) ∧
  (∀ (s t : State) (c : Fin 8), exec (.powerOnReset c) s = .next t → t.modCaps = s.modCaps) ∧
  (∀ (s : State) (i : Initiator) (a : BitVec 52) (w : BitVec 64), s.csrOffset i a.toNat = .ok 0xF00000000000 →
    i ≠ .i3c → exec (.csrRcRead i a 64 w) s = .next (s.answer (BitVec.ofNat 64 s.modCaps)))

/-- R70. -/
def Obligations.ThresholdRange : Prop :=
  State.reset.time.thresh = 1000 ∧
  (∀ (s : State) (c h : Fin 2) (a : BitVec 52) (v hw : BitVec 64), s.csrAt (.sp c) a.toNat 32 = .ok (.ctd h, .tbThresh, false) →
    s.holder = some c.val → s.ctd.lease.gates = true →
    ∃ t : State, exec (.csrRegisterWrite (.sp c) a 32 ⟨v, hw⟩) s = .next t ∧
      t.time.thresh = (if bitsOf v.toNat 19 0 < 1000 then 1000 else if 1000000 < bitsOf v.toNat 19 0 then 1000000
        else bitsOf v.toNat 19 0)) ∧
  (∀ s t : State, 1000 ≤ s.time.thresh ∧ s.time.thresh ≤ 1000000 → step s = .next t →
    1000 ≤ t.time.thresh ∧ t.time.thresh ≤ 1000000)

/-- R286: LEASE_RENEW. Completion is stated of: LEASE_RENEW. -/
def Obligations.Renewal : Prop :=
  (∀ (s : State) (c : Fin 2), s.holder = some c.val → s.tickNo < s.ctd.lease.expiry / 10 → s.wdogDue c = false →
    (s.ctd.lease.gates = true ∨ s.ctd.lease.opening ≠ some (s.tickNo, c.val)) →
    exec (.leaseRenew (.sp c) s.ctd.lease.gen) s = .next ((s.answer 0).setLease fun e =>
      { e with expiry := s.time.mono + 20000000, renewed := true, renewTick := some s.tickNo })) ∧
  (∀ (s : State) (c : Fin 2) (g : BitVec 32), s.power.rails = true →
    (∀ h, s.holder = some h → s.tickNo < s.ctd.lease.expiry / 10 ∧ s.wdogDue h = false) →
    (s.holder ≠ some c.val ∨ g ≠ s.ctd.lease.gen) →
    exec (.leaseRenew (.sp c) g) s = .next (((s.answer 0).setLease fun e =>
      { e with badRenew := min 0xFFFF (e.badRenew + 1) }).log 0x1302 3 srcLease [c.val, g.toNat, s.ctd.lease.gen.toNat])) ∧
  (∀ (s : State) (c : Fin 2), s.holder = some c.val → s.tickNo < s.ctd.lease.expiry / 10 → s.wdogDue c = false →
    s.ctd.lease.gates = false → s.ctd.lease.opening = some (s.tickNo, c.val) →
    exec (.leaseRenew (.sp c) s.ctd.lease.gen) s = .next (((s.answer 0).setLease fun e =>
      { e with expiry := s.time.mono + 20000000, renewed := true, renewTick := some s.tickNo }).openGates c))

/-- R5: check 7 of R330, for every command with a unit that may be absent. -/
def Obligations.AbsentUnits : Prop :=
  (∀ (w : Who) (s : State), let t := answerDarid w { s := s, status := dNotPresent }
    t.ledgers = s.ledgers ∧ t.mem = s.mem ∧ t.eng = s.eng ∧ t.fab = s.fab ∧ t.power = s.power ∧ t.job = s.job ∧
      t.toll = s.toll ∧ t.ctd = s.ctd ∧ t.mod = s.mod ∧ t.time = s.time ∧ t.obs = s.obs ∧ t.dies = s.dies) ∧
  (∀ (s : State) (r : DReq), s.hasOptics = false → s.heard 0x0104 [.c, .m, .f] r = true → r.args.length = 1 →
    argOf r 0 < 8 → exec (.invOptical r) s = .next (answerDarid (whoOf 0x0104 false r) { s := s, status := dNotPresent })) ∧
  (∀ (s : State) (r : DReq), s.hasOptics = false → s.heard 0x0107 [.m] r = true → r.args.length = 1 →
    argOf r 0 < 4 → exec (.invSetSpare r) s = .next (answerDarid (whoOf 0x0107 true r) { s := s, status := dNotPresent })) ∧
  (∀ (s : State) (r : DReq), s.hasOptics = false → s.heard 0x1001 [.m, .f] r = true → r.args.length = 2 →
    (16 ≤ argOf r 0 ∨ 9 ≤ argOf r 0 ∧ argOf r 0 < 13) → argOf r 0 < 24 → argOf r 1 < 2 →
    exec (.linkEnable r) s = .next (answerDarid (whoOf 0x1001 true r) { s := s, status := dNotPresent })) ∧
  (∀ (s : State) (r : DReq), s.hasOptics = false → s.heard 0x1004 [.c, .m, .f] r = true → r.args.length = 1 →
    9 ≤ argOf r 0 → argOf r 0 < 13 →
    exec (.linkQuery r) s = .next (answerDarid (whoOf 0x1004 false r) { s := s, status := dNotPresent })) ∧
  (∀ (s : State) (r : DReq), s.hasOptics = false → s.heard 0x1003 [.m, .f] r = true → r.args.length = 102 →
    9 ≤ fieldAt (argBytes (DReq.nums r) 0 102) 8 1 → fieldAt (argBytes (DReq.nums r) 0 102) 8 1 < 13 →
    exec (.linkRemap r) s = .next (answerDarid (whoOf 0x1003 true r) { s := s, status := dNotPresent })) ∧
  (∀ (s : State) (r : DReq), s.hasOptics = false → s.heard 0x1002 [.m, .f] r = true → r.args.length = 1 →
    9 ≤ argOf r 0 → argOf r 0 < 13 →
    exec (.linkRetrain r) s = .next (answerDarid (whoOf 0x1002 true r) { s := s, status := dNotPresent })) ∧
  (∀ (s : State) (r : DReq), s.hasOptics = false → s.heard 0x1006 [.m, .f] r = true → r.args.length = 2 →
    argOf r 0 < 64 →
    exec (.circuitRouteSet r) s = .next (answerDarid (whoOf 0x1006 true r) { s := s, status := dNotPresent })) ∧
  (∀ (s : State) (r : DReq), s.hasCtd1 = false → s.heard 0x0105 [.c, .m, .f] r = true → r.args.length = 1 →
    argOf r 0 = 1 → exec (.invCtd r) s = .next (answerDarid (whoOf 0x0105 false r) { s := s, status := dNotPresent })) ∧
  (∀ (s : State) (r : DReq), s.hasCtd1 = false → s.heard 0x0705 [.m, .f] r = true → r.args.length = 0 →
    exec (.switchover r) s = .next (answerDarid (whoOf 0x0705 true r) { s := s, status := dNotPresent })) ∧
  (∀ (s : State) (r : DReq), s.hasCtd1 = false → s.heard 0x0E06 [.m] r = true → r.args.length = 0 →
    exec (.fwRestartStandby r) s = .next (answerDarid (whoOf 0x0E06 true r) { s := s, status := dNotPresent }))

/-- R6: accesses to absent and to stopped CTDs. -/
def Obligations.AbsentCtd : Prop :=
  (∀ (s : State) (i : Initiator) (a : BitVec 52) (w o off : Nat) (c : Nat) (v hw x : BitVec 64), s.csrOffset i a.toNat = .ok off →
    csrUnit off = some (.ctd c, o) → i ≠ .i3c → s.ctdPresent c = false →
    exec (.csrRcRead i a w x) s = .next { s with bus := { err := .notPresent, value := 0, bytes := [] } } ∧
    exec (.csrRegisterWrite i a w ⟨v, hw⟩) s = .next { s with bus := { err := .notPresent, value := 0, bytes := [] } }) ∧
  (∀ (s : State) (i : Initiator) (a : BitVec 52) (w o off : Nat) (c : Nat) (v hw x : BitVec 64), s.csrOffset i a.toNat = .ok off →
    csrUnit off = some (.ctd c, o) → i ≠ .i3c → s.ctdPresent c = true → (s.ctdOf c).heldUntil.isSome = true →
    exec (.csrRcRead i a w x) s = .next (s.fail .domainOff) ∧ exec (.csrRegisterWrite i a w ⟨v, hw⟩) s = .next (s.fail .domainOff)) ∧
  (∀ (s : State) (i : Initiator) (c : Fin 2) (ch : Fin 512) (n : Fin 8) (v : BitVec 32), s.ctdPresent c = false →
    exec (.mbTxWordWrite i c ch n v) s = .next (s.fail .notPresent) ∧
    exec (.mbTxCommit i c ch v) s = .next (s.fail .notPresent) ∧ exec (.mbRxPop i c ch) s = .next (s.fail .notPresent)) ∧
  (∀ (s : State) (h : Fin 32) (c : Fin 2) (ch : Fin 512) (n : Fin 8) (v : BitVec 32), s.ctdPresent c = true → ch.val < 256 →
    ((s.ctdOf c).heldUntil.isSome = true ∨ s.ctd.lease.closedAt.isSome = true) →
    exec (.mbTxWordWrite (.hart h) c ch n v) s = .next (s.fail .domainOff) ∧
    exec (.mbTxCommit (.hart h) c ch v) s = .next (s.fail .domainOff) ∧
    exec (.mbRxPop (.hart h) c ch) s = .next (s.fail .domainOff))

/-- R189, R194, R195: SECDED over every data value and every place. -/
def Obligations.HalfCode : Prop :=
  (∀ b : List Byte, b.length = 32 → secdedDecode (codeWord b (secdedField b)) = .clean b) ∧
  (∀ (b : List Byte) (i : Nat), b.length = 32 → i < 266 →
    secdedDecode (lmod (codeWord b (secdedField b)) i (!·)) = .corrected b) ∧
  (∀ (b : List Byte) (i j : Nat), b.length = 32 → i < 266 → j < 266 → i ≠ j →
    secdedDecode (lmod (lmod (codeWord b (secdedField b)) i (!·)) j (!·)) = .bad) ∧
  secdedDecode huskCode = .bad ∧ nearHusk huskCode = true ∧ (∀ i, i < 266 → nearHusk (lmod huskCode i (!·)) = true)

/-- R26, R187: the placement of bytes is injective and in range. -/
def Obligations.Placement : Prop :=
  (∀ a, a < usableTop → stackOf a < 24 ∧ channelOf a < 32 ∧ dataLine a < 2 ^ 25 ∧ dataLine a % 16 ≠ 15 ∧ stackOf a / 6 = dieOf a) ∧
  (∀ a b, a < usableTop → b < usableTop → stackOf a = stackOf b → channelOf a = channelOf b → dataLine a = dataLine b →
    a % 64 = b % 64 → a = b) ∧
  stackOf 0x5A001349E8 = 10 ∧ channelOf 0x5A001349E8 = 13 ∧ dataLine 0x5A001349E8 = 109

/-- R196, for each 32-byte sector of a canonical memory. -/
def Obligations.MemoryWrites : Prop :=
  ∀ (m : Mem) (a k : Nat) (b : List Byte) (bad : List Nat), m.wf = true → b ≠ [] →
    (¬(a / 32 ≤ k ∧ k ≤ (a + b.length - 1) / 32) →
      ((m.write a b bad).husks.contains k = m.husks.contains k ∧
        ∀ i, i < 32 → cellGet (m.write a b bad).cells (32 * k + i) = cellGet m.cells (32 * k + i))) ∧
    (a / 32 ≤ k → k ≤ (a + b.length - 1) / 32 → bad.contains k = true →
      ((m.write a b bad).husks.contains k = true ∧ ∀ i, i < 32 → cellGet (m.write a b bad).cells (32 * k + i) = 0)) ∧
    (a / 32 ≤ k → k ≤ (a + b.length - 1) / 32 → bad.contains k = false → m.husks.contains k = true →
      ¬(a ≤ 32 * k ∧ 32 * k + 32 ≤ a + b.length) →
      ((m.write a b bad).husks.contains k = true ∧
        ∀ i, i < 32 → cellGet (m.write a b bad).cells (32 * k + i) = cellGet m.cells (32 * k + i))) ∧
    (a / 32 ≤ k → k ≤ (a + b.length - 1) / 32 → bad.contains k = false →
      (m.husks.contains k = false ∨ (a ≤ 32 * k ∧ 32 * k + 32 ≤ a + b.length)) →
      ((m.write a b bad).husks.contains k = false ∧
        ∀ i, i < 32 → cellGet (m.write a b bad).cells (32 * k + i) =
          if a ≤ 32 * k + i ∧ 32 * k + i < a + b.length then b.getD (32 * k + i - a) 0 else cellGet m.cells (32 * k + i)))

/-- R463. -/
def Obligations.MerkleTree : Prop :=
  (∀ (m : Manifest) (i : Nat) (r : TollRec), m.recs[i]? = some r → m.leaves[i]? = some (sha256 (0 :: r.bytes m.num))) ∧
  (∀ (l : List (List Byte)) (i : Nat) (x y : List Byte), l[2 * i]? = some x → l[2 * i + 1]? = some y →
    (merkleUp l)[i]? = some (sha256 (1 :: (x ++ y)))) ∧
  (∀ (l : List (List Byte)) (i : Nat), l.length = 2 * i + 1 → (merkleUp l)[i]? = l[2 * i]?) ∧
  (∀ l : List (List Byte), (merkleUp l).length = (l.length + 1) / 2) ∧
  merkleRoot 32 [] = List.replicate 32 0 ∧ (∀ x, merkleRoot 32 [x] = x) ∧
  (∀ (k : Nat) (l : List (List Byte)), 2 ≤ l.length → merkleRoot (k + 1) l = merkleRoot k (merkleUp l)) ∧
  (∀ l : List (List Byte), 1 ≤ l.length → l.length ≤ 2 ^ 32 → ∃ x, merkleUp^[32] l = [x] ∧ merkleRoot 32 l = x) ∧
  (∀ (l : List (List Byte)) (i : Nat) (x : List Byte), l.length ≤ 2 ^ 32 → l[i]? = some x →
    pathRoot 32 l.length i x (merklePath 32 l i) = merkleRoot 32 l)
end

