-- ==== Sys2Proof/Laws/Darid.lean ====
section
/-! SUPPORT. What a Darid command does once it is accepted: every command of R332 goes through these. -/

namespace Sys2Proof.Machine

/-- On a ready channel the acceptance of R324 and R326 hands the command on. -/
theorem acceptDarid_ready {s : State} {op : Nat} {r : DReq} (h : s.ready op r = true) (run : State → State) :
    acceptDarid s r.ctd.val r.ch.val op r.seq.toNat run = run s := by
  simp only [State.ready, Bool.and_eq_true] at h
  obtain ⟨-, hc⟩ := h
  unfold acceptDarid
  split at hc
  · next hn => rw [hn]
  · next o q fin hn =>
    rw [hn]
    rcases fin with _ | ws
    · simp at hc
    · have hne : ¬ (o = op ∧ q = r.seq.toNat) := by rintro ⟨ho, hq⟩; simp [ho, hq] at hc
      simp [hne]

/-- A command on a ready channel that passes checks 4 to 7 of R330 has the effect of its own part, and that is answered. -/
theorem runDarid_heard {d : DaridDef} {r : DReq} {s : State} (h : s.heard d.op d.senders r = true)
    (ho : senderOf r.ch.val = some .c → d.own s r.ch.val (DReq.nums r) = true)
    (hl : d.len r.args.length = true) (hb : d.bad s (DReq.nums r) = none) (hp : d.present s (DReq.nums r) = true) :
    runDarid d r s = answerDarid (whoOf d.op d.changes r d.mirrored) (d.body s (whoOf d.op d.changes r d.mirrored) (DReq.nums r)) := by
  simp only [State.heard, Bool.and_eq_true] at h
  obtain ⟨h, hk⟩ := h
  have hr := h
  simp only [State.ready, Bool.and_eq_true, Bool.not_eq_true', beq_iff_eq] at hr
  obtain ⟨⟨⟨⟨h1, h2⟩, h3⟩, h4⟩, -⟩ := hr
  have ha : d.admits s false r.ch.val (DReq.nums r) = true := by
    unfold DaridDef.admits
    split at hk
    · next k hs =>
      rw [hs]
      have : (!(k == Sender.c) || d.own s r.ch.val (DReq.nums r)) = true := by
        rcases k with _ | _ | _
        · simp [ho hs]
        · rfl
        · rfl
      simp only [hk, Bool.true_or, Bool.true_and, bne]
      exact this
    · simp at hk
  unfold runDarid
  rw [h1]
  simp only [Bool.not_true, Bool.false_eq_true, if_false]
  rw [acceptDarid_ready h]
  split at hk
  · next k hs =>
    simp only [hs]
    unfold DaridDef.run
    have hn : (r.args.map (·.toNat)) = DReq.nums r := rfl
    have hm : (DReq.nums r).length = r.args.length := by simp [DReq.nums]
    simp only [h4, h2, h3, hn, Bool.false_and, Bool.false_eq_true, if_false, bne_self_eq_false, ha, Bool.not_true, hb, hp, hm, hl]
    rfl
  · simp at hk

end Sys2Proof.Machine
end

