-- ==== Sys2Proof/Laws/State.lean ====
section
/-! SUPPORT. What each update of the state leaves alone and what it writes: one lemma for each field, so that no proof unfolds a
record update. Generated from the fields of State. -/

namespace Sys2Proof.Machine

@[simp] theorem State.setDie_pending (s : State) (d : Nat) (f : DieSt → DieSt) : (s.setDie d f).pending = s.pending := rfl
@[simp] theorem State.setDie_fuse (s : State) (d : Nat) (f : DieSt → DieSt) : (s.setDie d f).fuse = s.fuse := rfl
@[simp] theorem State.setDie_mod (s : State) (d : Nat) (f : DieSt → DieSt) : (s.setDie d f).mod = s.mod := rfl
@[simp] theorem State.setDie_ring (s : State) (d : Nat) (f : DieSt → DieSt) : (s.setDie d f).ring = s.ring := rfl
@[simp] theorem State.setDie_dies (s : State) (d : Nat) (f : DieSt → DieSt) : (s.setDie d f).dies = lmod s.dies d f := rfl
@[simp] theorem State.setDie_bus (s : State) (d : Nat) (f : DieSt → DieSt) : (s.setDie d f).bus = s.bus := rfl
@[simp] theorem State.setDie_time (s : State) (d : Nat) (f : DieSt → DieSt) : (s.setDie d f).time = s.time := rfl
@[simp] theorem State.setDie_dieTime (s : State) (d : Nat) (f : DieSt → DieSt) : (s.setDie d f).dieTime = s.dieTime := rfl
@[simp] theorem State.setDie_sched (s : State) (d : Nat) (f : DieSt → DieSt) : (s.setDie d f).sched = s.sched := rfl
@[simp] theorem State.setDie_eng (s : State) (d : Nat) (f : DieSt → DieSt) : (s.setDie d f).eng = s.eng := rfl
@[simp] theorem State.setDie_mem (s : State) (d : Nat) (f : DieSt → DieSt) : (s.setDie d f).mem = s.mem := rfl
@[simp] theorem State.setDie_ledgers (s : State) (d : Nat) (f : DieSt → DieSt) : (s.setDie d f).ledgers = s.ledgers := rfl
@[simp] theorem State.setDie_obs (s : State) (d : Nat) (f : DieSt → DieSt) : (s.setDie d f).obs = s.obs := rfl
@[simp] theorem State.setDie_mbox (s : State) (d : Nat) (f : DieSt → DieSt) : (s.setDie d f).mbox = s.mbox := rfl
@[simp] theorem State.setDie_silent (s : State) (d : Nat) (f : DieSt → DieSt) : (s.setDie d f).silent = s.silent := rfl
@[simp] theorem State.setDie_fab (s : State) (d : Nat) (f : DieSt → DieSt) : (s.setDie d f).fab = s.fab := rfl
@[simp] theorem State.setDie_ctd (s : State) (d : Nat) (f : DieSt → DieSt) : (s.setDie d f).ctd = s.ctd := rfl
@[simp] theorem State.setDie_job (s : State) (d : Nat) (f : DieSt → DieSt) : (s.setDie d f).job = s.job := rfl
@[simp] theorem State.setDie_toll (s : State) (d : Nat) (f : DieSt → DieSt) : (s.setDie d f).toll = s.toll := rfl
@[simp] theorem State.setDie_power (s : State) (d : Nat) (f : DieSt → DieSt) : (s.setDie d f).power = s.power := rfl
@[simp] theorem State.setDie_mgmt (s : State) (d : Nat) (f : DieSt → DieSt) : (s.setDie d f).mgmt = s.mgmt := rfl
@[simp] theorem State.setDie_i3c (s : State) (d : Nat) (f : DieSt → DieSt) : (s.setDie d f).i3c = s.i3c := rfl
@[simp] theorem State.setDie_spdm (s : State) (d : Nat) (f : DieSt → DieSt) : (s.setDie d f).spdm = s.spdm := rfl
@[simp] theorem State.setDie_free (s : State) (d : Nat) (f : DieSt → DieSt) : (s.setDie d f).free = s.free := rfl

@[simp] theorem State.setCtd_pending (s : State) (n : Nat) (f : Ctd → Ctd) : (s.setCtd n f).pending = s.pending := rfl
@[simp] theorem State.setCtd_fuse (s : State) (n : Nat) (f : Ctd → Ctd) : (s.setCtd n f).fuse = s.fuse := rfl
@[simp] theorem State.setCtd_mod (s : State) (n : Nat) (f : Ctd → Ctd) : (s.setCtd n f).mod = s.mod := rfl
@[simp] theorem State.setCtd_ring (s : State) (n : Nat) (f : Ctd → Ctd) : (s.setCtd n f).ring = s.ring := rfl
@[simp] theorem State.setCtd_dies (s : State) (n : Nat) (f : Ctd → Ctd) : (s.setCtd n f).dies = s.dies := rfl
@[simp] theorem State.setCtd_bus (s : State) (n : Nat) (f : Ctd → Ctd) : (s.setCtd n f).bus = s.bus := rfl
@[simp] theorem State.setCtd_time (s : State) (n : Nat) (f : Ctd → Ctd) : (s.setCtd n f).time = s.time := rfl
@[simp] theorem State.setCtd_dieTime (s : State) (n : Nat) (f : Ctd → Ctd) : (s.setCtd n f).dieTime = s.dieTime := rfl
@[simp] theorem State.setCtd_sched (s : State) (n : Nat) (f : Ctd → Ctd) : (s.setCtd n f).sched = s.sched := rfl
@[simp] theorem State.setCtd_eng (s : State) (n : Nat) (f : Ctd → Ctd) : (s.setCtd n f).eng = s.eng := rfl
@[simp] theorem State.setCtd_mem (s : State) (n : Nat) (f : Ctd → Ctd) : (s.setCtd n f).mem = s.mem := rfl
@[simp] theorem State.setCtd_ledgers (s : State) (n : Nat) (f : Ctd → Ctd) : (s.setCtd n f).ledgers = s.ledgers := rfl
@[simp] theorem State.setCtd_obs (s : State) (n : Nat) (f : Ctd → Ctd) : (s.setCtd n f).obs = s.obs := rfl
@[simp] theorem State.setCtd_mbox (s : State) (n : Nat) (f : Ctd → Ctd) : (s.setCtd n f).mbox = s.mbox := rfl
@[simp] theorem State.setCtd_silent (s : State) (n : Nat) (f : Ctd → Ctd) : (s.setCtd n f).silent = s.silent := rfl
@[simp] theorem State.setCtd_fab (s : State) (n : Nat) (f : Ctd → Ctd) : (s.setCtd n f).fab = s.fab := rfl
@[simp] theorem State.setCtd_ctd (s : State) (n : Nat) (f : Ctd → Ctd) : (s.setCtd n f).ctd = { s.ctd with ctds := lmod s.ctd.ctds n f } := rfl
@[simp] theorem State.setCtd_job (s : State) (n : Nat) (f : Ctd → Ctd) : (s.setCtd n f).job = s.job := rfl
@[simp] theorem State.setCtd_toll (s : State) (n : Nat) (f : Ctd → Ctd) : (s.setCtd n f).toll = s.toll := rfl
@[simp] theorem State.setCtd_power (s : State) (n : Nat) (f : Ctd → Ctd) : (s.setCtd n f).power = s.power := rfl
@[simp] theorem State.setCtd_mgmt (s : State) (n : Nat) (f : Ctd → Ctd) : (s.setCtd n f).mgmt = s.mgmt := rfl
@[simp] theorem State.setCtd_i3c (s : State) (n : Nat) (f : Ctd → Ctd) : (s.setCtd n f).i3c = s.i3c := rfl
@[simp] theorem State.setCtd_spdm (s : State) (n : Nat) (f : Ctd → Ctd) : (s.setCtd n f).spdm = s.spdm := rfl
@[simp] theorem State.setCtd_free (s : State) (n : Nat) (f : Ctd → Ctd) : (s.setCtd n f).free = s.free := rfl

@[simp] theorem State.setPort_pending (s : State) (p : Nat) (f : PortSt → PortSt) : (s.setPort p f).pending = s.pending := rfl
@[simp] theorem State.setPort_fuse (s : State) (p : Nat) (f : PortSt → PortSt) : (s.setPort p f).fuse = s.fuse := rfl
@[simp] theorem State.setPort_mod (s : State) (p : Nat) (f : PortSt → PortSt) : (s.setPort p f).mod = s.mod := rfl
@[simp] theorem State.setPort_ring (s : State) (p : Nat) (f : PortSt → PortSt) : (s.setPort p f).ring = s.ring := rfl
@[simp] theorem State.setPort_dies (s : State) (p : Nat) (f : PortSt → PortSt) : (s.setPort p f).dies = s.dies := rfl
@[simp] theorem State.setPort_bus (s : State) (p : Nat) (f : PortSt → PortSt) : (s.setPort p f).bus = s.bus := rfl
@[simp] theorem State.setPort_time (s : State) (p : Nat) (f : PortSt → PortSt) : (s.setPort p f).time = s.time := rfl
@[simp] theorem State.setPort_dieTime (s : State) (p : Nat) (f : PortSt → PortSt) : (s.setPort p f).dieTime = s.dieTime := rfl
@[simp] theorem State.setPort_sched (s : State) (p : Nat) (f : PortSt → PortSt) : (s.setPort p f).sched = s.sched := rfl
@[simp] theorem State.setPort_eng (s : State) (p : Nat) (f : PortSt → PortSt) : (s.setPort p f).eng = s.eng := rfl
@[simp] theorem State.setPort_mem (s : State) (p : Nat) (f : PortSt → PortSt) : (s.setPort p f).mem = s.mem := rfl
@[simp] theorem State.setPort_ledgers (s : State) (p : Nat) (f : PortSt → PortSt) : (s.setPort p f).ledgers = s.ledgers := rfl
@[simp] theorem State.setPort_obs (s : State) (p : Nat) (f : PortSt → PortSt) : (s.setPort p f).obs = s.obs := rfl
@[simp] theorem State.setPort_mbox (s : State) (p : Nat) (f : PortSt → PortSt) : (s.setPort p f).mbox = s.mbox := rfl
@[simp] theorem State.setPort_silent (s : State) (p : Nat) (f : PortSt → PortSt) : (s.setPort p f).silent = s.silent := rfl
@[simp] theorem State.setPort_fab (s : State) (p : Nat) (f : PortSt → PortSt) : (s.setPort p f).fab = { s.fab with ports := lmod s.fab.ports p f } := rfl
@[simp] theorem State.setPort_ctd (s : State) (p : Nat) (f : PortSt → PortSt) : (s.setPort p f).ctd = s.ctd := rfl
@[simp] theorem State.setPort_job (s : State) (p : Nat) (f : PortSt → PortSt) : (s.setPort p f).job = s.job := rfl
@[simp] theorem State.setPort_toll (s : State) (p : Nat) (f : PortSt → PortSt) : (s.setPort p f).toll = s.toll := rfl
@[simp] theorem State.setPort_power (s : State) (p : Nat) (f : PortSt → PortSt) : (s.setPort p f).power = s.power := rfl
@[simp] theorem State.setPort_mgmt (s : State) (p : Nat) (f : PortSt → PortSt) : (s.setPort p f).mgmt = s.mgmt := rfl
@[simp] theorem State.setPort_i3c (s : State) (p : Nat) (f : PortSt → PortSt) : (s.setPort p f).i3c = s.i3c := rfl
@[simp] theorem State.setPort_spdm (s : State) (p : Nat) (f : PortSt → PortSt) : (s.setPort p f).spdm = s.spdm := rfl
@[simp] theorem State.setPort_free (s : State) (p : Nat) (f : PortSt → PortSt) : (s.setPort p f).free = s.free := rfl

@[simp] theorem State.setLease_pending (s : State) (f : Lease → Lease) : (s.setLease f).pending = s.pending := rfl
@[simp] theorem State.setLease_fuse (s : State) (f : Lease → Lease) : (s.setLease f).fuse = s.fuse := rfl
@[simp] theorem State.setLease_mod (s : State) (f : Lease → Lease) : (s.setLease f).mod = s.mod := rfl
@[simp] theorem State.setLease_ring (s : State) (f : Lease → Lease) : (s.setLease f).ring = s.ring := rfl
@[simp] theorem State.setLease_dies (s : State) (f : Lease → Lease) : (s.setLease f).dies = s.dies := rfl
@[simp] theorem State.setLease_bus (s : State) (f : Lease → Lease) : (s.setLease f).bus = s.bus := rfl
@[simp] theorem State.setLease_time (s : State) (f : Lease → Lease) : (s.setLease f).time = s.time := rfl
@[simp] theorem State.setLease_dieTime (s : State) (f : Lease → Lease) : (s.setLease f).dieTime = s.dieTime := rfl
@[simp] theorem State.setLease_sched (s : State) (f : Lease → Lease) : (s.setLease f).sched = s.sched := rfl
@[simp] theorem State.setLease_eng (s : State) (f : Lease → Lease) : (s.setLease f).eng = s.eng := rfl
@[simp] theorem State.setLease_mem (s : State) (f : Lease → Lease) : (s.setLease f).mem = s.mem := rfl
@[simp] theorem State.setLease_ledgers (s : State) (f : Lease → Lease) : (s.setLease f).ledgers = s.ledgers := rfl
@[simp] theorem State.setLease_obs (s : State) (f : Lease → Lease) : (s.setLease f).obs = s.obs := rfl
@[simp] theorem State.setLease_mbox (s : State) (f : Lease → Lease) : (s.setLease f).mbox = s.mbox := rfl
@[simp] theorem State.setLease_silent (s : State) (f : Lease → Lease) : (s.setLease f).silent = s.silent := rfl
@[simp] theorem State.setLease_fab (s : State) (f : Lease → Lease) : (s.setLease f).fab = s.fab := rfl
@[simp] theorem State.setLease_ctd (s : State) (f : Lease → Lease) : (s.setLease f).ctd = { s.ctd with lease := f s.ctd.lease } := rfl
@[simp] theorem State.setLease_job (s : State) (f : Lease → Lease) : (s.setLease f).job = s.job := rfl
@[simp] theorem State.setLease_toll (s : State) (f : Lease → Lease) : (s.setLease f).toll = s.toll := rfl
@[simp] theorem State.setLease_power (s : State) (f : Lease → Lease) : (s.setLease f).power = s.power := rfl
@[simp] theorem State.setLease_mgmt (s : State) (f : Lease → Lease) : (s.setLease f).mgmt = s.mgmt := rfl
@[simp] theorem State.setLease_i3c (s : State) (f : Lease → Lease) : (s.setLease f).i3c = s.i3c := rfl
@[simp] theorem State.setLease_spdm (s : State) (f : Lease → Lease) : (s.setLease f).spdm = s.spdm := rfl
@[simp] theorem State.setLease_free (s : State) (f : Lease → Lease) : (s.setLease f).free = s.free := rfl

@[simp] theorem State.setChan_pending (s : State) (c n : Nat) (f : Channel → Channel) : (s.setChan c n f).pending = s.pending := rfl
@[simp] theorem State.setChan_fuse (s : State) (c n : Nat) (f : Channel → Channel) : (s.setChan c n f).fuse = s.fuse := rfl
@[simp] theorem State.setChan_mod (s : State) (c n : Nat) (f : Channel → Channel) : (s.setChan c n f).mod = s.mod := rfl
@[simp] theorem State.setChan_ring (s : State) (c n : Nat) (f : Channel → Channel) : (s.setChan c n f).ring = s.ring := rfl
@[simp] theorem State.setChan_dies (s : State) (c n : Nat) (f : Channel → Channel) : (s.setChan c n f).dies = s.dies := rfl
@[simp] theorem State.setChan_bus (s : State) (c n : Nat) (f : Channel → Channel) : (s.setChan c n f).bus = s.bus := rfl
@[simp] theorem State.setChan_time (s : State) (c n : Nat) (f : Channel → Channel) : (s.setChan c n f).time = s.time := rfl
@[simp] theorem State.setChan_dieTime (s : State) (c n : Nat) (f : Channel → Channel) : (s.setChan c n f).dieTime = s.dieTime := rfl
@[simp] theorem State.setChan_sched (s : State) (c n : Nat) (f : Channel → Channel) : (s.setChan c n f).sched = s.sched := rfl
@[simp] theorem State.setChan_eng (s : State) (c n : Nat) (f : Channel → Channel) : (s.setChan c n f).eng = s.eng := rfl
@[simp] theorem State.setChan_mem (s : State) (c n : Nat) (f : Channel → Channel) : (s.setChan c n f).mem = s.mem := rfl
@[simp] theorem State.setChan_ledgers (s : State) (c n : Nat) (f : Channel → Channel) : (s.setChan c n f).ledgers = s.ledgers := rfl
@[simp] theorem State.setChan_obs (s : State) (c n : Nat) (f : Channel → Channel) : (s.setChan c n f).obs = s.obs := rfl
@[simp] theorem State.setChan_mbox (s : State) (c n : Nat) (f : Channel → Channel) : (s.setChan c n f).mbox = { s.mbox with chans := mmod {} s.mbox.chans (512 * c + n) f } := rfl
@[simp] theorem State.setChan_silent (s : State) (c n : Nat) (f : Channel → Channel) : (s.setChan c n f).silent = s.silent := rfl
@[simp] theorem State.setChan_fab (s : State) (c n : Nat) (f : Channel → Channel) : (s.setChan c n f).fab = s.fab := rfl
@[simp] theorem State.setChan_ctd (s : State) (c n : Nat) (f : Channel → Channel) : (s.setChan c n f).ctd = s.ctd := rfl
@[simp] theorem State.setChan_job (s : State) (c n : Nat) (f : Channel → Channel) : (s.setChan c n f).job = s.job := rfl
@[simp] theorem State.setChan_toll (s : State) (c n : Nat) (f : Channel → Channel) : (s.setChan c n f).toll = s.toll := rfl
@[simp] theorem State.setChan_power (s : State) (c n : Nat) (f : Channel → Channel) : (s.setChan c n f).power = s.power := rfl
@[simp] theorem State.setChan_mgmt (s : State) (c n : Nat) (f : Channel → Channel) : (s.setChan c n f).mgmt = s.mgmt := rfl
@[simp] theorem State.setChan_i3c (s : State) (c n : Nat) (f : Channel → Channel) : (s.setChan c n f).i3c = s.i3c := rfl
@[simp] theorem State.setChan_spdm (s : State) (c n : Nat) (f : Channel → Channel) : (s.setChan c n f).spdm = s.spdm := rfl
@[simp] theorem State.setChan_free (s : State) (c n : Nat) (f : Channel → Channel) : (s.setChan c n f).free = s.free := rfl

@[simp] theorem State.setMem_pending (s : State) (f : Mem → Mem) : (s.setMem f).pending = s.pending := rfl
@[simp] theorem State.setMem_fuse (s : State) (f : Mem → Mem) : (s.setMem f).fuse = s.fuse := rfl
@[simp] theorem State.setMem_mod (s : State) (f : Mem → Mem) : (s.setMem f).mod = s.mod := rfl
@[simp] theorem State.setMem_ring (s : State) (f : Mem → Mem) : (s.setMem f).ring = s.ring := rfl
@[simp] theorem State.setMem_dies (s : State) (f : Mem → Mem) : (s.setMem f).dies = s.dies := rfl
@[simp] theorem State.setMem_bus (s : State) (f : Mem → Mem) : (s.setMem f).bus = s.bus := rfl
@[simp] theorem State.setMem_time (s : State) (f : Mem → Mem) : (s.setMem f).time = s.time := rfl
@[simp] theorem State.setMem_dieTime (s : State) (f : Mem → Mem) : (s.setMem f).dieTime = s.dieTime := rfl
@[simp] theorem State.setMem_sched (s : State) (f : Mem → Mem) : (s.setMem f).sched = s.sched := rfl
@[simp] theorem State.setMem_eng (s : State) (f : Mem → Mem) : (s.setMem f).eng = s.eng := rfl
@[simp] theorem State.setMem_mem (s : State) (f : Mem → Mem) : (s.setMem f).mem = { s.mem with main := f s.mem.main } := rfl
@[simp] theorem State.setMem_ledgers (s : State) (f : Mem → Mem) : (s.setMem f).ledgers = s.ledgers := rfl
@[simp] theorem State.setMem_obs (s : State) (f : Mem → Mem) : (s.setMem f).obs = s.obs := rfl
@[simp] theorem State.setMem_mbox (s : State) (f : Mem → Mem) : (s.setMem f).mbox = s.mbox := rfl
@[simp] theorem State.setMem_silent (s : State) (f : Mem → Mem) : (s.setMem f).silent = s.silent := rfl
@[simp] theorem State.setMem_fab (s : State) (f : Mem → Mem) : (s.setMem f).fab = s.fab := rfl
@[simp] theorem State.setMem_ctd (s : State) (f : Mem → Mem) : (s.setMem f).ctd = s.ctd := rfl
@[simp] theorem State.setMem_job (s : State) (f : Mem → Mem) : (s.setMem f).job = s.job := rfl
@[simp] theorem State.setMem_toll (s : State) (f : Mem → Mem) : (s.setMem f).toll = s.toll := rfl
@[simp] theorem State.setMem_power (s : State) (f : Mem → Mem) : (s.setMem f).power = s.power := rfl
@[simp] theorem State.setMem_mgmt (s : State) (f : Mem → Mem) : (s.setMem f).mgmt = s.mgmt := rfl
@[simp] theorem State.setMem_i3c (s : State) (f : Mem → Mem) : (s.setMem f).i3c = s.i3c := rfl
@[simp] theorem State.setMem_spdm (s : State) (f : Mem → Mem) : (s.setMem f).spdm = s.spdm := rfl
@[simp] theorem State.setMem_free (s : State) (f : Mem → Mem) : (s.setMem f).free = s.free := rfl

@[simp] theorem State.setStore_pending (s : State) (f : Mem → Mem) : (s.setStore f).pending = s.pending := rfl
@[simp] theorem State.setStore_fuse (s : State) (f : Mem → Mem) : (s.setStore f).fuse = s.fuse := rfl
@[simp] theorem State.setStore_mod (s : State) (f : Mem → Mem) : (s.setStore f).mod = s.mod := rfl
@[simp] theorem State.setStore_ring (s : State) (f : Mem → Mem) : (s.setStore f).ring = s.ring := rfl
@[simp] theorem State.setStore_dies (s : State) (f : Mem → Mem) : (s.setStore f).dies = s.dies := rfl
@[simp] theorem State.setStore_bus (s : State) (f : Mem → Mem) : (s.setStore f).bus = s.bus := rfl
@[simp] theorem State.setStore_time (s : State) (f : Mem → Mem) : (s.setStore f).time = s.time := rfl
@[simp] theorem State.setStore_dieTime (s : State) (f : Mem → Mem) : (s.setStore f).dieTime = s.dieTime := rfl
@[simp] theorem State.setStore_sched (s : State) (f : Mem → Mem) : (s.setStore f).sched = s.sched := rfl
@[simp] theorem State.setStore_eng (s : State) (f : Mem → Mem) : (s.setStore f).eng = s.eng := rfl
@[simp] theorem State.setStore_mem (s : State) (f : Mem → Mem) : (s.setStore f).mem = { s.mem with store := f s.mem.store } := rfl
@[simp] theorem State.setStore_ledgers (s : State) (f : Mem → Mem) : (s.setStore f).ledgers = s.ledgers := rfl
@[simp] theorem State.setStore_obs (s : State) (f : Mem → Mem) : (s.setStore f).obs = s.obs := rfl
@[simp] theorem State.setStore_mbox (s : State) (f : Mem → Mem) : (s.setStore f).mbox = s.mbox := rfl
@[simp] theorem State.setStore_silent (s : State) (f : Mem → Mem) : (s.setStore f).silent = s.silent := rfl
@[simp] theorem State.setStore_fab (s : State) (f : Mem → Mem) : (s.setStore f).fab = s.fab := rfl
@[simp] theorem State.setStore_ctd (s : State) (f : Mem → Mem) : (s.setStore f).ctd = s.ctd := rfl
@[simp] theorem State.setStore_job (s : State) (f : Mem → Mem) : (s.setStore f).job = s.job := rfl
@[simp] theorem State.setStore_toll (s : State) (f : Mem → Mem) : (s.setStore f).toll = s.toll := rfl
@[simp] theorem State.setStore_power (s : State) (f : Mem → Mem) : (s.setStore f).power = s.power := rfl
@[simp] theorem State.setStore_mgmt (s : State) (f : Mem → Mem) : (s.setStore f).mgmt = s.mgmt := rfl
@[simp] theorem State.setStore_i3c (s : State) (f : Mem → Mem) : (s.setStore f).i3c = s.i3c := rfl
@[simp] theorem State.setStore_spdm (s : State) (f : Mem → Mem) : (s.setStore f).spdm = s.spdm := rfl
@[simp] theorem State.setStore_free (s : State) (f : Mem → Mem) : (s.setStore f).free = s.free := rfl

@[simp] theorem State.setMemDie_pending (s : State) (d : Nat) (f : MemDie → MemDie) : (s.setMemDie d f).pending = s.pending := rfl
@[simp] theorem State.setMemDie_fuse (s : State) (d : Nat) (f : MemDie → MemDie) : (s.setMemDie d f).fuse = s.fuse := rfl
@[simp] theorem State.setMemDie_mod (s : State) (d : Nat) (f : MemDie → MemDie) : (s.setMemDie d f).mod = s.mod := rfl
@[simp] theorem State.setMemDie_ring (s : State) (d : Nat) (f : MemDie → MemDie) : (s.setMemDie d f).ring = s.ring := rfl
@[simp] theorem State.setMemDie_dies (s : State) (d : Nat) (f : MemDie → MemDie) : (s.setMemDie d f).dies = s.dies := rfl
@[simp] theorem State.setMemDie_bus (s : State) (d : Nat) (f : MemDie → MemDie) : (s.setMemDie d f).bus = s.bus := rfl
@[simp] theorem State.setMemDie_time (s : State) (d : Nat) (f : MemDie → MemDie) : (s.setMemDie d f).time = s.time := rfl
@[simp] theorem State.setMemDie_dieTime (s : State) (d : Nat) (f : MemDie → MemDie) : (s.setMemDie d f).dieTime = s.dieTime := rfl
@[simp] theorem State.setMemDie_sched (s : State) (d : Nat) (f : MemDie → MemDie) : (s.setMemDie d f).sched = s.sched := rfl
@[simp] theorem State.setMemDie_eng (s : State) (d : Nat) (f : MemDie → MemDie) : (s.setMemDie d f).eng = s.eng := rfl
@[simp] theorem State.setMemDie_mem (s : State) (d : Nat) (f : MemDie → MemDie) : (s.setMemDie d f).mem = { s.mem with dies := lmod s.mem.dies d f } := rfl
@[simp] theorem State.setMemDie_ledgers (s : State) (d : Nat) (f : MemDie → MemDie) : (s.setMemDie d f).ledgers = s.ledgers := rfl
@[simp] theorem State.setMemDie_obs (s : State) (d : Nat) (f : MemDie → MemDie) : (s.setMemDie d f).obs = s.obs := rfl
@[simp] theorem State.setMemDie_mbox (s : State) (d : Nat) (f : MemDie → MemDie) : (s.setMemDie d f).mbox = s.mbox := rfl
@[simp] theorem State.setMemDie_silent (s : State) (d : Nat) (f : MemDie → MemDie) : (s.setMemDie d f).silent = s.silent := rfl
@[simp] theorem State.setMemDie_fab (s : State) (d : Nat) (f : MemDie → MemDie) : (s.setMemDie d f).fab = s.fab := rfl
@[simp] theorem State.setMemDie_ctd (s : State) (d : Nat) (f : MemDie → MemDie) : (s.setMemDie d f).ctd = s.ctd := rfl
@[simp] theorem State.setMemDie_job (s : State) (d : Nat) (f : MemDie → MemDie) : (s.setMemDie d f).job = s.job := rfl
@[simp] theorem State.setMemDie_toll (s : State) (d : Nat) (f : MemDie → MemDie) : (s.setMemDie d f).toll = s.toll := rfl
@[simp] theorem State.setMemDie_power (s : State) (d : Nat) (f : MemDie → MemDie) : (s.setMemDie d f).power = s.power := rfl
@[simp] theorem State.setMemDie_mgmt (s : State) (d : Nat) (f : MemDie → MemDie) : (s.setMemDie d f).mgmt = s.mgmt := rfl
@[simp] theorem State.setMemDie_i3c (s : State) (d : Nat) (f : MemDie → MemDie) : (s.setMemDie d f).i3c = s.i3c := rfl
@[simp] theorem State.setMemDie_spdm (s : State) (d : Nat) (f : MemDie → MemDie) : (s.setMemDie d f).spdm = s.spdm := rfl
@[simp] theorem State.setMemDie_free (s : State) (d : Nat) (f : MemDie → MemDie) : (s.setMemDie d f).free = s.free := rfl

@[simp] theorem State.setStack_pending (s : State) (n : Nat) (f : StackSt → StackSt) : (s.setStack n f).pending = s.pending := rfl
@[simp] theorem State.setStack_fuse (s : State) (n : Nat) (f : StackSt → StackSt) : (s.setStack n f).fuse = s.fuse := rfl
@[simp] theorem State.setStack_mod (s : State) (n : Nat) (f : StackSt → StackSt) : (s.setStack n f).mod = s.mod := rfl
@[simp] theorem State.setStack_ring (s : State) (n : Nat) (f : StackSt → StackSt) : (s.setStack n f).ring = s.ring := rfl
@[simp] theorem State.setStack_dies (s : State) (n : Nat) (f : StackSt → StackSt) : (s.setStack n f).dies = s.dies := rfl
@[simp] theorem State.setStack_bus (s : State) (n : Nat) (f : StackSt → StackSt) : (s.setStack n f).bus = s.bus := rfl
@[simp] theorem State.setStack_time (s : State) (n : Nat) (f : StackSt → StackSt) : (s.setStack n f).time = s.time := rfl
@[simp] theorem State.setStack_dieTime (s : State) (n : Nat) (f : StackSt → StackSt) : (s.setStack n f).dieTime = s.dieTime := rfl
@[simp] theorem State.setStack_sched (s : State) (n : Nat) (f : StackSt → StackSt) : (s.setStack n f).sched = s.sched := rfl
@[simp] theorem State.setStack_eng (s : State) (n : Nat) (f : StackSt → StackSt) : (s.setStack n f).eng = s.eng := rfl
@[simp] theorem State.setStack_mem (s : State) (n : Nat) (f : StackSt → StackSt) : (s.setStack n f).mem = { s.mem with lpddr := lmod s.mem.lpddr n f } := rfl
@[simp] theorem State.setStack_ledgers (s : State) (n : Nat) (f : StackSt → StackSt) : (s.setStack n f).ledgers = s.ledgers := rfl
@[simp] theorem State.setStack_obs (s : State) (n : Nat) (f : StackSt → StackSt) : (s.setStack n f).obs = s.obs := rfl
@[simp] theorem State.setStack_mbox (s : State) (n : Nat) (f : StackSt → StackSt) : (s.setStack n f).mbox = s.mbox := rfl
@[simp] theorem State.setStack_silent (s : State) (n : Nat) (f : StackSt → StackSt) : (s.setStack n f).silent = s.silent := rfl
@[simp] theorem State.setStack_fab (s : State) (n : Nat) (f : StackSt → StackSt) : (s.setStack n f).fab = s.fab := rfl
@[simp] theorem State.setStack_ctd (s : State) (n : Nat) (f : StackSt → StackSt) : (s.setStack n f).ctd = s.ctd := rfl
@[simp] theorem State.setStack_job (s : State) (n : Nat) (f : StackSt → StackSt) : (s.setStack n f).job = s.job := rfl
@[simp] theorem State.setStack_toll (s : State) (n : Nat) (f : StackSt → StackSt) : (s.setStack n f).toll = s.toll := rfl
@[simp] theorem State.setStack_power (s : State) (n : Nat) (f : StackSt → StackSt) : (s.setStack n f).power = s.power := rfl
@[simp] theorem State.setStack_mgmt (s : State) (n : Nat) (f : StackSt → StackSt) : (s.setStack n f).mgmt = s.mgmt := rfl
@[simp] theorem State.setStack_i3c (s : State) (n : Nat) (f : StackSt → StackSt) : (s.setStack n f).i3c = s.i3c := rfl
@[simp] theorem State.setStack_spdm (s : State) (n : Nat) (f : StackSt → StackSt) : (s.setStack n f).spdm = s.spdm := rfl
@[simp] theorem State.setStack_free (s : State) (n : Nat) (f : StackSt → StackSt) : (s.setStack n f).free = s.free := rfl

@[simp] theorem State.setTime_pending (s : State) (f : TimeSt → TimeSt) : (s.setTime f).pending = s.pending := rfl
@[simp] theorem State.setTime_fuse (s : State) (f : TimeSt → TimeSt) : (s.setTime f).fuse = s.fuse := rfl
@[simp] theorem State.setTime_mod (s : State) (f : TimeSt → TimeSt) : (s.setTime f).mod = s.mod := rfl
@[simp] theorem State.setTime_ring (s : State) (f : TimeSt → TimeSt) : (s.setTime f).ring = s.ring := rfl
@[simp] theorem State.setTime_dies (s : State) (f : TimeSt → TimeSt) : (s.setTime f).dies = s.dies := rfl
@[simp] theorem State.setTime_bus (s : State) (f : TimeSt → TimeSt) : (s.setTime f).bus = s.bus := rfl
@[simp] theorem State.setTime_time (s : State) (f : TimeSt → TimeSt) : (s.setTime f).time = f s.time := rfl
@[simp] theorem State.setTime_dieTime (s : State) (f : TimeSt → TimeSt) : (s.setTime f).dieTime = s.dieTime := rfl
@[simp] theorem State.setTime_sched (s : State) (f : TimeSt → TimeSt) : (s.setTime f).sched = s.sched := rfl
@[simp] theorem State.setTime_eng (s : State) (f : TimeSt → TimeSt) : (s.setTime f).eng = s.eng := rfl
@[simp] theorem State.setTime_mem (s : State) (f : TimeSt → TimeSt) : (s.setTime f).mem = s.mem := rfl
@[simp] theorem State.setTime_ledgers (s : State) (f : TimeSt → TimeSt) : (s.setTime f).ledgers = s.ledgers := rfl
@[simp] theorem State.setTime_obs (s : State) (f : TimeSt → TimeSt) : (s.setTime f).obs = s.obs := rfl
@[simp] theorem State.setTime_mbox (s : State) (f : TimeSt → TimeSt) : (s.setTime f).mbox = s.mbox := rfl
@[simp] theorem State.setTime_silent (s : State) (f : TimeSt → TimeSt) : (s.setTime f).silent = s.silent := rfl
@[simp] theorem State.setTime_fab (s : State) (f : TimeSt → TimeSt) : (s.setTime f).fab = s.fab := rfl
@[simp] theorem State.setTime_ctd (s : State) (f : TimeSt → TimeSt) : (s.setTime f).ctd = s.ctd := rfl
@[simp] theorem State.setTime_job (s : State) (f : TimeSt → TimeSt) : (s.setTime f).job = s.job := rfl
@[simp] theorem State.setTime_toll (s : State) (f : TimeSt → TimeSt) : (s.setTime f).toll = s.toll := rfl
@[simp] theorem State.setTime_power (s : State) (f : TimeSt → TimeSt) : (s.setTime f).power = s.power := rfl
@[simp] theorem State.setTime_mgmt (s : State) (f : TimeSt → TimeSt) : (s.setTime f).mgmt = s.mgmt := rfl
@[simp] theorem State.setTime_i3c (s : State) (f : TimeSt → TimeSt) : (s.setTime f).i3c = s.i3c := rfl
@[simp] theorem State.setTime_spdm (s : State) (f : TimeSt → TimeSt) : (s.setTime f).spdm = s.spdm := rfl
@[simp] theorem State.setTime_free (s : State) (f : TimeSt → TimeSt) : (s.setTime f).free = s.free := rfl

@[simp] theorem State.setDt_pending (s : State) (d : Nat) (f : DieTime → DieTime) : (s.setDt d f).pending = s.pending := rfl
@[simp] theorem State.setDt_fuse (s : State) (d : Nat) (f : DieTime → DieTime) : (s.setDt d f).fuse = s.fuse := rfl
@[simp] theorem State.setDt_mod (s : State) (d : Nat) (f : DieTime → DieTime) : (s.setDt d f).mod = s.mod := rfl
@[simp] theorem State.setDt_ring (s : State) (d : Nat) (f : DieTime → DieTime) : (s.setDt d f).ring = s.ring := rfl
@[simp] theorem State.setDt_dies (s : State) (d : Nat) (f : DieTime → DieTime) : (s.setDt d f).dies = s.dies := rfl
@[simp] theorem State.setDt_bus (s : State) (d : Nat) (f : DieTime → DieTime) : (s.setDt d f).bus = s.bus := rfl
@[simp] theorem State.setDt_time (s : State) (d : Nat) (f : DieTime → DieTime) : (s.setDt d f).time = s.time := rfl
@[simp] theorem State.setDt_dieTime (s : State) (d : Nat) (f : DieTime → DieTime) : (s.setDt d f).dieTime = lmod s.dieTime d f := rfl
@[simp] theorem State.setDt_sched (s : State) (d : Nat) (f : DieTime → DieTime) : (s.setDt d f).sched = s.sched := rfl
@[simp] theorem State.setDt_eng (s : State) (d : Nat) (f : DieTime → DieTime) : (s.setDt d f).eng = s.eng := rfl
@[simp] theorem State.setDt_mem (s : State) (d : Nat) (f : DieTime → DieTime) : (s.setDt d f).mem = s.mem := rfl
@[simp] theorem State.setDt_ledgers (s : State) (d : Nat) (f : DieTime → DieTime) : (s.setDt d f).ledgers = s.ledgers := rfl
@[simp] theorem State.setDt_obs (s : State) (d : Nat) (f : DieTime → DieTime) : (s.setDt d f).obs = s.obs := rfl
@[simp] theorem State.setDt_mbox (s : State) (d : Nat) (f : DieTime → DieTime) : (s.setDt d f).mbox = s.mbox := rfl
@[simp] theorem State.setDt_silent (s : State) (d : Nat) (f : DieTime → DieTime) : (s.setDt d f).silent = s.silent := rfl
@[simp] theorem State.setDt_fab (s : State) (d : Nat) (f : DieTime → DieTime) : (s.setDt d f).fab = s.fab := rfl
@[simp] theorem State.setDt_ctd (s : State) (d : Nat) (f : DieTime → DieTime) : (s.setDt d f).ctd = s.ctd := rfl
@[simp] theorem State.setDt_job (s : State) (d : Nat) (f : DieTime → DieTime) : (s.setDt d f).job = s.job := rfl
@[simp] theorem State.setDt_toll (s : State) (d : Nat) (f : DieTime → DieTime) : (s.setDt d f).toll = s.toll := rfl
@[simp] theorem State.setDt_power (s : State) (d : Nat) (f : DieTime → DieTime) : (s.setDt d f).power = s.power := rfl
@[simp] theorem State.setDt_mgmt (s : State) (d : Nat) (f : DieTime → DieTime) : (s.setDt d f).mgmt = s.mgmt := rfl
@[simp] theorem State.setDt_i3c (s : State) (d : Nat) (f : DieTime → DieTime) : (s.setDt d f).i3c = s.i3c := rfl
@[simp] theorem State.setDt_spdm (s : State) (d : Nat) (f : DieTime → DieTime) : (s.setDt d f).spdm = s.spdm := rfl
@[simp] theorem State.setDt_free (s : State) (d : Nat) (f : DieTime → DieTime) : (s.setDt d f).free = s.free := rfl

@[simp] theorem State.setCtx_pending (s : State) (c : Nat) (f : Ctx → Ctx) : (s.setCtx c f).pending = s.pending := rfl
@[simp] theorem State.setCtx_fuse (s : State) (c : Nat) (f : Ctx → Ctx) : (s.setCtx c f).fuse = s.fuse := rfl
@[simp] theorem State.setCtx_mod (s : State) (c : Nat) (f : Ctx → Ctx) : (s.setCtx c f).mod = s.mod := rfl
@[simp] theorem State.setCtx_ring (s : State) (c : Nat) (f : Ctx → Ctx) : (s.setCtx c f).ring = s.ring := rfl
@[simp] theorem State.setCtx_dies (s : State) (c : Nat) (f : Ctx → Ctx) : (s.setCtx c f).dies = s.dies := rfl
@[simp] theorem State.setCtx_bus (s : State) (c : Nat) (f : Ctx → Ctx) : (s.setCtx c f).bus = s.bus := rfl
@[simp] theorem State.setCtx_time (s : State) (c : Nat) (f : Ctx → Ctx) : (s.setCtx c f).time = s.time := rfl
@[simp] theorem State.setCtx_dieTime (s : State) (c : Nat) (f : Ctx → Ctx) : (s.setCtx c f).dieTime = s.dieTime := rfl
@[simp] theorem State.setCtx_sched (s : State) (c : Nat) (f : Ctx → Ctx) : (s.setCtx c f).sched = s.sched := rfl
@[simp] theorem State.setCtx_eng (s : State) (c : Nat) (f : Ctx → Ctx) : (s.setCtx c f).eng = { s.eng with ctxs := mmod {} s.eng.ctxs c f } := rfl
@[simp] theorem State.setCtx_mem (s : State) (c : Nat) (f : Ctx → Ctx) : (s.setCtx c f).mem = s.mem := rfl
@[simp] theorem State.setCtx_ledgers (s : State) (c : Nat) (f : Ctx → Ctx) : (s.setCtx c f).ledgers = s.ledgers := rfl
@[simp] theorem State.setCtx_obs (s : State) (c : Nat) (f : Ctx → Ctx) : (s.setCtx c f).obs = s.obs := rfl
@[simp] theorem State.setCtx_mbox (s : State) (c : Nat) (f : Ctx → Ctx) : (s.setCtx c f).mbox = s.mbox := rfl
@[simp] theorem State.setCtx_silent (s : State) (c : Nat) (f : Ctx → Ctx) : (s.setCtx c f).silent = s.silent := rfl
@[simp] theorem State.setCtx_fab (s : State) (c : Nat) (f : Ctx → Ctx) : (s.setCtx c f).fab = s.fab := rfl
@[simp] theorem State.setCtx_ctd (s : State) (c : Nat) (f : Ctx → Ctx) : (s.setCtx c f).ctd = s.ctd := rfl
@[simp] theorem State.setCtx_job (s : State) (c : Nat) (f : Ctx → Ctx) : (s.setCtx c f).job = s.job := rfl
@[simp] theorem State.setCtx_toll (s : State) (c : Nat) (f : Ctx → Ctx) : (s.setCtx c f).toll = s.toll := rfl
@[simp] theorem State.setCtx_power (s : State) (c : Nat) (f : Ctx → Ctx) : (s.setCtx c f).power = s.power := rfl
@[simp] theorem State.setCtx_mgmt (s : State) (c : Nat) (f : Ctx → Ctx) : (s.setCtx c f).mgmt = s.mgmt := rfl
@[simp] theorem State.setCtx_i3c (s : State) (c : Nat) (f : Ctx → Ctx) : (s.setCtx c f).i3c = s.i3c := rfl
@[simp] theorem State.setCtx_spdm (s : State) (c : Nat) (f : Ctx → Ctx) : (s.setCtx c f).spdm = s.spdm := rfl
@[simp] theorem State.setCtx_free (s : State) (c : Nat) (f : Ctx → Ctx) : (s.setCtx c f).free = s.free := rfl

@[simp] theorem State.setStash_pending (s : State) (c : Nat) (f : Sys2Proof.Machine.Stash → Sys2Proof.Machine.Stash) : (s.setStash c f).pending = s.pending := rfl
@[simp] theorem State.setStash_fuse (s : State) (c : Nat) (f : Sys2Proof.Machine.Stash → Sys2Proof.Machine.Stash) : (s.setStash c f).fuse = s.fuse := rfl
@[simp] theorem State.setStash_mod (s : State) (c : Nat) (f : Sys2Proof.Machine.Stash → Sys2Proof.Machine.Stash) : (s.setStash c f).mod = s.mod := rfl
@[simp] theorem State.setStash_ring (s : State) (c : Nat) (f : Sys2Proof.Machine.Stash → Sys2Proof.Machine.Stash) : (s.setStash c f).ring = s.ring := rfl
@[simp] theorem State.setStash_dies (s : State) (c : Nat) (f : Sys2Proof.Machine.Stash → Sys2Proof.Machine.Stash) : (s.setStash c f).dies = s.dies := rfl
@[simp] theorem State.setStash_bus (s : State) (c : Nat) (f : Sys2Proof.Machine.Stash → Sys2Proof.Machine.Stash) : (s.setStash c f).bus = s.bus := rfl
@[simp] theorem State.setStash_time (s : State) (c : Nat) (f : Sys2Proof.Machine.Stash → Sys2Proof.Machine.Stash) : (s.setStash c f).time = s.time := rfl
@[simp] theorem State.setStash_dieTime (s : State) (c : Nat) (f : Sys2Proof.Machine.Stash → Sys2Proof.Machine.Stash) : (s.setStash c f).dieTime = s.dieTime := rfl
@[simp] theorem State.setStash_sched (s : State) (c : Nat) (f : Sys2Proof.Machine.Stash → Sys2Proof.Machine.Stash) : (s.setStash c f).sched = s.sched := rfl
@[simp] theorem State.setStash_eng (s : State) (c : Nat) (f : Sys2Proof.Machine.Stash → Sys2Proof.Machine.Stash) : (s.setStash c f).eng = { s.eng with ctxs := mmod {} s.eng.ctxs c fun x => { x with stash := f x.stash } } := rfl
@[simp] theorem State.setStash_mem (s : State) (c : Nat) (f : Sys2Proof.Machine.Stash → Sys2Proof.Machine.Stash) : (s.setStash c f).mem = s.mem := rfl
@[simp] theorem State.setStash_ledgers (s : State) (c : Nat) (f : Sys2Proof.Machine.Stash → Sys2Proof.Machine.Stash) : (s.setStash c f).ledgers = s.ledgers := rfl
@[simp] theorem State.setStash_obs (s : State) (c : Nat) (f : Sys2Proof.Machine.Stash → Sys2Proof.Machine.Stash) : (s.setStash c f).obs = s.obs := rfl
@[simp] theorem State.setStash_mbox (s : State) (c : Nat) (f : Sys2Proof.Machine.Stash → Sys2Proof.Machine.Stash) : (s.setStash c f).mbox = s.mbox := rfl
@[simp] theorem State.setStash_silent (s : State) (c : Nat) (f : Sys2Proof.Machine.Stash → Sys2Proof.Machine.Stash) : (s.setStash c f).silent = s.silent := rfl
@[simp] theorem State.setStash_fab (s : State) (c : Nat) (f : Sys2Proof.Machine.Stash → Sys2Proof.Machine.Stash) : (s.setStash c f).fab = s.fab := rfl
@[simp] theorem State.setStash_ctd (s : State) (c : Nat) (f : Sys2Proof.Machine.Stash → Sys2Proof.Machine.Stash) : (s.setStash c f).ctd = s.ctd := rfl
@[simp] theorem State.setStash_job (s : State) (c : Nat) (f : Sys2Proof.Machine.Stash → Sys2Proof.Machine.Stash) : (s.setStash c f).job = s.job := rfl
@[simp] theorem State.setStash_toll (s : State) (c : Nat) (f : Sys2Proof.Machine.Stash → Sys2Proof.Machine.Stash) : (s.setStash c f).toll = s.toll := rfl
@[simp] theorem State.setStash_power (s : State) (c : Nat) (f : Sys2Proof.Machine.Stash → Sys2Proof.Machine.Stash) : (s.setStash c f).power = s.power := rfl
@[simp] theorem State.setStash_mgmt (s : State) (c : Nat) (f : Sys2Proof.Machine.Stash → Sys2Proof.Machine.Stash) : (s.setStash c f).mgmt = s.mgmt := rfl
@[simp] theorem State.setStash_i3c (s : State) (c : Nat) (f : Sys2Proof.Machine.Stash → Sys2Proof.Machine.Stash) : (s.setStash c f).i3c = s.i3c := rfl
@[simp] theorem State.setStash_spdm (s : State) (c : Nat) (f : Sys2Proof.Machine.Stash → Sys2Proof.Machine.Stash) : (s.setStash c f).spdm = s.spdm := rfl
@[simp] theorem State.setStash_free (s : State) (c : Nat) (f : Sys2Proof.Machine.Stash → Sys2Proof.Machine.Stash) : (s.setStash c f).free = s.free := rfl

@[simp] theorem State.setEng_pending (s : State) (j : Nat) (f : EngSt → EngSt) : (s.setEng j f).pending = s.pending := rfl
@[simp] theorem State.setEng_fuse (s : State) (j : Nat) (f : EngSt → EngSt) : (s.setEng j f).fuse = s.fuse := rfl
@[simp] theorem State.setEng_mod (s : State) (j : Nat) (f : EngSt → EngSt) : (s.setEng j f).mod = s.mod := rfl
@[simp] theorem State.setEng_ring (s : State) (j : Nat) (f : EngSt → EngSt) : (s.setEng j f).ring = s.ring := rfl
@[simp] theorem State.setEng_dies (s : State) (j : Nat) (f : EngSt → EngSt) : (s.setEng j f).dies = s.dies := rfl
@[simp] theorem State.setEng_bus (s : State) (j : Nat) (f : EngSt → EngSt) : (s.setEng j f).bus = s.bus := rfl
@[simp] theorem State.setEng_time (s : State) (j : Nat) (f : EngSt → EngSt) : (s.setEng j f).time = s.time := rfl
@[simp] theorem State.setEng_dieTime (s : State) (j : Nat) (f : EngSt → EngSt) : (s.setEng j f).dieTime = s.dieTime := rfl
@[simp] theorem State.setEng_sched (s : State) (j : Nat) (f : EngSt → EngSt) : (s.setEng j f).sched = s.sched := rfl
@[simp] theorem State.setEng_eng (s : State) (j : Nat) (f : EngSt → EngSt) : (s.setEng j f).eng = { s.eng with engs := mmod {} s.eng.engs j f } := rfl
@[simp] theorem State.setEng_mem (s : State) (j : Nat) (f : EngSt → EngSt) : (s.setEng j f).mem = s.mem := rfl
@[simp] theorem State.setEng_ledgers (s : State) (j : Nat) (f : EngSt → EngSt) : (s.setEng j f).ledgers = s.ledgers := rfl
@[simp] theorem State.setEng_obs (s : State) (j : Nat) (f : EngSt → EngSt) : (s.setEng j f).obs = s.obs := rfl
@[simp] theorem State.setEng_mbox (s : State) (j : Nat) (f : EngSt → EngSt) : (s.setEng j f).mbox = s.mbox := rfl
@[simp] theorem State.setEng_silent (s : State) (j : Nat) (f : EngSt → EngSt) : (s.setEng j f).silent = s.silent := rfl
@[simp] theorem State.setEng_fab (s : State) (j : Nat) (f : EngSt → EngSt) : (s.setEng j f).fab = s.fab := rfl
@[simp] theorem State.setEng_ctd (s : State) (j : Nat) (f : EngSt → EngSt) : (s.setEng j f).ctd = s.ctd := rfl
@[simp] theorem State.setEng_job (s : State) (j : Nat) (f : EngSt → EngSt) : (s.setEng j f).job = s.job := rfl
@[simp] theorem State.setEng_toll (s : State) (j : Nat) (f : EngSt → EngSt) : (s.setEng j f).toll = s.toll := rfl
@[simp] theorem State.setEng_power (s : State) (j : Nat) (f : EngSt → EngSt) : (s.setEng j f).power = s.power := rfl
@[simp] theorem State.setEng_mgmt (s : State) (j : Nat) (f : EngSt → EngSt) : (s.setEng j f).mgmt = s.mgmt := rfl
@[simp] theorem State.setEng_i3c (s : State) (j : Nat) (f : EngSt → EngSt) : (s.setEng j f).i3c = s.i3c := rfl
@[simp] theorem State.setEng_spdm (s : State) (j : Nat) (f : EngSt → EngSt) : (s.setEng j f).spdm = s.spdm := rfl
@[simp] theorem State.setEng_free (s : State) (j : Nat) (f : EngSt → EngSt) : (s.setEng j f).free = s.free := rfl

@[simp] theorem State.setSem_pending (s : State) (k : Nat) (v : Word) : (s.setSem k v).pending = s.pending := rfl
@[simp] theorem State.setSem_fuse (s : State) (k : Nat) (v : Word) : (s.setSem k v).fuse = s.fuse := rfl
@[simp] theorem State.setSem_mod (s : State) (k : Nat) (v : Word) : (s.setSem k v).mod = s.mod := rfl
@[simp] theorem State.setSem_ring (s : State) (k : Nat) (v : Word) : (s.setSem k v).ring = s.ring := rfl
@[simp] theorem State.setSem_dies (s : State) (k : Nat) (v : Word) : (s.setSem k v).dies = s.dies := rfl
@[simp] theorem State.setSem_bus (s : State) (k : Nat) (v : Word) : (s.setSem k v).bus = s.bus := rfl
@[simp] theorem State.setSem_time (s : State) (k : Nat) (v : Word) : (s.setSem k v).time = s.time := rfl
@[simp] theorem State.setSem_dieTime (s : State) (k : Nat) (v : Word) : (s.setSem k v).dieTime = s.dieTime := rfl
@[simp] theorem State.setSem_sched (s : State) (k : Nat) (v : Word) : (s.setSem k v).sched = s.sched := rfl
@[simp] theorem State.setSem_mem (s : State) (k : Nat) (v : Word) : (s.setSem k v).mem = s.mem := rfl
@[simp] theorem State.setSem_ledgers (s : State) (k : Nat) (v : Word) : (s.setSem k v).ledgers = s.ledgers := rfl
@[simp] theorem State.setSem_obs (s : State) (k : Nat) (v : Word) : (s.setSem k v).obs = s.obs := rfl
@[simp] theorem State.setSem_mbox (s : State) (k : Nat) (v : Word) : (s.setSem k v).mbox = s.mbox := rfl
@[simp] theorem State.setSem_silent (s : State) (k : Nat) (v : Word) : (s.setSem k v).silent = s.silent := rfl
@[simp] theorem State.setSem_fab (s : State) (k : Nat) (v : Word) : (s.setSem k v).fab = s.fab := rfl
@[simp] theorem State.setSem_ctd (s : State) (k : Nat) (v : Word) : (s.setSem k v).ctd = s.ctd := rfl
@[simp] theorem State.setSem_job (s : State) (k : Nat) (v : Word) : (s.setSem k v).job = s.job := rfl
@[simp] theorem State.setSem_toll (s : State) (k : Nat) (v : Word) : (s.setSem k v).toll = s.toll := rfl
@[simp] theorem State.setSem_power (s : State) (k : Nat) (v : Word) : (s.setSem k v).power = s.power := rfl
@[simp] theorem State.setSem_mgmt (s : State) (k : Nat) (v : Word) : (s.setSem k v).mgmt = s.mgmt := rfl
@[simp] theorem State.setSem_i3c (s : State) (k : Nat) (v : Word) : (s.setSem k v).i3c = s.i3c := rfl
@[simp] theorem State.setSem_spdm (s : State) (k : Nat) (v : Word) : (s.setSem k v).spdm = s.spdm := rfl
@[simp] theorem State.setSem_free (s : State) (k : Nat) (v : Word) : (s.setSem k v).free = s.free := rfl

@[simp] theorem State.setTag_pending (s : State) (t : Nat) (f : Tag → Tag) : (s.setTag t f).pending = s.pending := rfl
@[simp] theorem State.setTag_fuse (s : State) (t : Nat) (f : Tag → Tag) : (s.setTag t f).fuse = s.fuse := rfl
@[simp] theorem State.setTag_mod (s : State) (t : Nat) (f : Tag → Tag) : (s.setTag t f).mod = s.mod := rfl
@[simp] theorem State.setTag_ring (s : State) (t : Nat) (f : Tag → Tag) : (s.setTag t f).ring = s.ring := rfl
@[simp] theorem State.setTag_dies (s : State) (t : Nat) (f : Tag → Tag) : (s.setTag t f).dies = s.dies := rfl
@[simp] theorem State.setTag_bus (s : State) (t : Nat) (f : Tag → Tag) : (s.setTag t f).bus = s.bus := rfl
@[simp] theorem State.setTag_time (s : State) (t : Nat) (f : Tag → Tag) : (s.setTag t f).time = s.time := rfl
@[simp] theorem State.setTag_dieTime (s : State) (t : Nat) (f : Tag → Tag) : (s.setTag t f).dieTime = s.dieTime := rfl
@[simp] theorem State.setTag_sched (s : State) (t : Nat) (f : Tag → Tag) : (s.setTag t f).sched = s.sched := rfl
@[simp] theorem State.setTag_eng (s : State) (t : Nat) (f : Tag → Tag) : (s.setTag t f).eng = s.eng := rfl
@[simp] theorem State.setTag_mem (s : State) (t : Nat) (f : Tag → Tag) : (s.setTag t f).mem = s.mem := rfl
@[simp] theorem State.setTag_ledgers (s : State) (t : Nat) (f : Tag → Tag) : (s.setTag t f).ledgers = s.ledgers := rfl
@[simp] theorem State.setTag_obs (s : State) (t : Nat) (f : Tag → Tag) : (s.setTag t f).obs = s.obs := rfl
@[simp] theorem State.setTag_mbox (s : State) (t : Nat) (f : Tag → Tag) : (s.setTag t f).mbox = s.mbox := rfl
@[simp] theorem State.setTag_silent (s : State) (t : Nat) (f : Tag → Tag) : (s.setTag t f).silent = s.silent := rfl
@[simp] theorem State.setTag_fab (s : State) (t : Nat) (f : Tag → Tag) : (s.setTag t f).fab = s.fab := rfl
@[simp] theorem State.setTag_ctd (s : State) (t : Nat) (f : Tag → Tag) : (s.setTag t f).ctd = s.ctd := rfl
@[simp] theorem State.setTag_job (s : State) (t : Nat) (f : Tag → Tag) : (s.setTag t f).job = s.job := rfl
@[simp] theorem State.setTag_toll (s : State) (t : Nat) (f : Tag → Tag) : (s.setTag t f).toll = { s.toll with tags := mmod {} s.toll.tags t f } := rfl
@[simp] theorem State.setTag_power (s : State) (t : Nat) (f : Tag → Tag) : (s.setTag t f).power = s.power := rfl
@[simp] theorem State.setTag_mgmt (s : State) (t : Nat) (f : Tag → Tag) : (s.setTag t f).mgmt = s.mgmt := rfl
@[simp] theorem State.setTag_i3c (s : State) (t : Nat) (f : Tag → Tag) : (s.setTag t f).i3c = s.i3c := rfl
@[simp] theorem State.setTag_spdm (s : State) (t : Nat) (f : Tag → Tag) : (s.setTag t f).spdm = s.spdm := rfl
@[simp] theorem State.setTag_free (s : State) (t : Nat) (f : Tag → Tag) : (s.setTag t f).free = s.free := rfl

@[simp] theorem State.setSv_pending (s : State) (j : Nat) (f : SvEng → SvEng) : (s.setSv j f).pending = s.pending := rfl
@[simp] theorem State.setSv_fuse (s : State) (j : Nat) (f : SvEng → SvEng) : (s.setSv j f).fuse = s.fuse := rfl
@[simp] theorem State.setSv_mod (s : State) (j : Nat) (f : SvEng → SvEng) : (s.setSv j f).mod = s.mod := rfl
@[simp] theorem State.setSv_ring (s : State) (j : Nat) (f : SvEng → SvEng) : (s.setSv j f).ring = s.ring := rfl
@[simp] theorem State.setSv_dies (s : State) (j : Nat) (f : SvEng → SvEng) : (s.setSv j f).dies = s.dies := rfl
@[simp] theorem State.setSv_bus (s : State) (j : Nat) (f : SvEng → SvEng) : (s.setSv j f).bus = s.bus := rfl
@[simp] theorem State.setSv_time (s : State) (j : Nat) (f : SvEng → SvEng) : (s.setSv j f).time = s.time := rfl
@[simp] theorem State.setSv_dieTime (s : State) (j : Nat) (f : SvEng → SvEng) : (s.setSv j f).dieTime = s.dieTime := rfl
@[simp] theorem State.setSv_sched (s : State) (j : Nat) (f : SvEng → SvEng) : (s.setSv j f).sched = s.sched := rfl
@[simp] theorem State.setSv_eng (s : State) (j : Nat) (f : SvEng → SvEng) : (s.setSv j f).eng = s.eng := rfl
@[simp] theorem State.setSv_mem (s : State) (j : Nat) (f : SvEng → SvEng) : (s.setSv j f).mem = s.mem := rfl
@[simp] theorem State.setSv_ledgers (s : State) (j : Nat) (f : SvEng → SvEng) : (s.setSv j f).ledgers = s.ledgers := rfl
@[simp] theorem State.setSv_obs (s : State) (j : Nat) (f : SvEng → SvEng) : (s.setSv j f).obs = s.obs := rfl
@[simp] theorem State.setSv_mbox (s : State) (j : Nat) (f : SvEng → SvEng) : (s.setSv j f).mbox = s.mbox := rfl
@[simp] theorem State.setSv_silent (s : State) (j : Nat) (f : SvEng → SvEng) : (s.setSv j f).silent = { s.silent with engs := mmod {} s.silent.engs j f } := rfl
@[simp] theorem State.setSv_fab (s : State) (j : Nat) (f : SvEng → SvEng) : (s.setSv j f).fab = s.fab := rfl
@[simp] theorem State.setSv_ctd (s : State) (j : Nat) (f : SvEng → SvEng) : (s.setSv j f).ctd = s.ctd := rfl
@[simp] theorem State.setSv_job (s : State) (j : Nat) (f : SvEng → SvEng) : (s.setSv j f).job = s.job := rfl
@[simp] theorem State.setSv_toll (s : State) (j : Nat) (f : SvEng → SvEng) : (s.setSv j f).toll = s.toll := rfl
@[simp] theorem State.setSv_power (s : State) (j : Nat) (f : SvEng → SvEng) : (s.setSv j f).power = s.power := rfl
@[simp] theorem State.setSv_mgmt (s : State) (j : Nat) (f : SvEng → SvEng) : (s.setSv j f).mgmt = s.mgmt := rfl
@[simp] theorem State.setSv_i3c (s : State) (j : Nat) (f : SvEng → SvEng) : (s.setSv j f).i3c = s.i3c := rfl
@[simp] theorem State.setSv_spdm (s : State) (j : Nat) (f : SvEng → SvEng) : (s.setSv j f).spdm = s.spdm := rfl
@[simp] theorem State.setSv_free (s : State) (j : Nat) (f : SvEng → SvEng) : (s.setSv j f).free = s.free := rfl

@[simp] theorem State.setTx_pending (s : State) (r c : Nat) (f : SendFlow → SendFlow) : (s.setTx r c f).pending = s.pending := rfl
@[simp] theorem State.setTx_fuse (s : State) (r c : Nat) (f : SendFlow → SendFlow) : (s.setTx r c f).fuse = s.fuse := rfl
@[simp] theorem State.setTx_mod (s : State) (r c : Nat) (f : SendFlow → SendFlow) : (s.setTx r c f).mod = s.mod := rfl
@[simp] theorem State.setTx_ring (s : State) (r c : Nat) (f : SendFlow → SendFlow) : (s.setTx r c f).ring = s.ring := rfl
@[simp] theorem State.setTx_dies (s : State) (r c : Nat) (f : SendFlow → SendFlow) : (s.setTx r c f).dies = s.dies := rfl
@[simp] theorem State.setTx_bus (s : State) (r c : Nat) (f : SendFlow → SendFlow) : (s.setTx r c f).bus = s.bus := rfl
@[simp] theorem State.setTx_time (s : State) (r c : Nat) (f : SendFlow → SendFlow) : (s.setTx r c f).time = s.time := rfl
@[simp] theorem State.setTx_dieTime (s : State) (r c : Nat) (f : SendFlow → SendFlow) : (s.setTx r c f).dieTime = s.dieTime := rfl
@[simp] theorem State.setTx_sched (s : State) (r c : Nat) (f : SendFlow → SendFlow) : (s.setTx r c f).sched = s.sched := rfl
@[simp] theorem State.setTx_eng (s : State) (r c : Nat) (f : SendFlow → SendFlow) : (s.setTx r c f).eng = s.eng := rfl
@[simp] theorem State.setTx_mem (s : State) (r c : Nat) (f : SendFlow → SendFlow) : (s.setTx r c f).mem = s.mem := rfl
@[simp] theorem State.setTx_ledgers (s : State) (r c : Nat) (f : SendFlow → SendFlow) : (s.setTx r c f).ledgers = s.ledgers := rfl
@[simp] theorem State.setTx_obs (s : State) (r c : Nat) (f : SendFlow → SendFlow) : (s.setTx r c f).obs = s.obs := rfl
@[simp] theorem State.setTx_mbox (s : State) (r c : Nat) (f : SendFlow → SendFlow) : (s.setTx r c f).mbox = s.mbox := rfl
@[simp] theorem State.setTx_silent (s : State) (r c : Nat) (f : SendFlow → SendFlow) : (s.setTx r c f).silent = s.silent := rfl
@[simp] theorem State.setTx_ctd (s : State) (r c : Nat) (f : SendFlow → SendFlow) : (s.setTx r c f).ctd = s.ctd := rfl
@[simp] theorem State.setTx_job (s : State) (r c : Nat) (f : SendFlow → SendFlow) : (s.setTx r c f).job = s.job := rfl
@[simp] theorem State.setTx_toll (s : State) (r c : Nat) (f : SendFlow → SendFlow) : (s.setTx r c f).toll = s.toll := rfl
@[simp] theorem State.setTx_power (s : State) (r c : Nat) (f : SendFlow → SendFlow) : (s.setTx r c f).power = s.power := rfl
@[simp] theorem State.setTx_mgmt (s : State) (r c : Nat) (f : SendFlow → SendFlow) : (s.setTx r c f).mgmt = s.mgmt := rfl
@[simp] theorem State.setTx_i3c (s : State) (r c : Nat) (f : SendFlow → SendFlow) : (s.setTx r c f).i3c = s.i3c := rfl
@[simp] theorem State.setTx_spdm (s : State) (r c : Nat) (f : SendFlow → SendFlow) : (s.setTx r c f).spdm = s.spdm := rfl
@[simp] theorem State.setTx_free (s : State) (r c : Nat) (f : SendFlow → SendFlow) : (s.setTx r c f).free = s.free := rfl

@[simp] theorem State.setRx_pending (s : State) (r c : Nat) (f : RecvFlow → RecvFlow) : (s.setRx r c f).pending = s.pending := rfl
@[simp] theorem State.setRx_fuse (s : State) (r c : Nat) (f : RecvFlow → RecvFlow) : (s.setRx r c f).fuse = s.fuse := rfl
@[simp] theorem State.setRx_mod (s : State) (r c : Nat) (f : RecvFlow → RecvFlow) : (s.setRx r c f).mod = s.mod := rfl
@[simp] theorem State.setRx_ring (s : State) (r c : Nat) (f : RecvFlow → RecvFlow) : (s.setRx r c f).ring = s.ring := rfl
@[simp] theorem State.setRx_dies (s : State) (r c : Nat) (f : RecvFlow → RecvFlow) : (s.setRx r c f).dies = s.dies := rfl
@[simp] theorem State.setRx_bus (s : State) (r c : Nat) (f : RecvFlow → RecvFlow) : (s.setRx r c f).bus = s.bus := rfl
@[simp] theorem State.setRx_time (s : State) (r c : Nat) (f : RecvFlow → RecvFlow) : (s.setRx r c f).time = s.time := rfl
@[simp] theorem State.setRx_dieTime (s : State) (r c : Nat) (f : RecvFlow → RecvFlow) : (s.setRx r c f).dieTime = s.dieTime := rfl
@[simp] theorem State.setRx_sched (s : State) (r c : Nat) (f : RecvFlow → RecvFlow) : (s.setRx r c f).sched = s.sched := rfl
@[simp] theorem State.setRx_eng (s : State) (r c : Nat) (f : RecvFlow → RecvFlow) : (s.setRx r c f).eng = s.eng := rfl
@[simp] theorem State.setRx_mem (s : State) (r c : Nat) (f : RecvFlow → RecvFlow) : (s.setRx r c f).mem = s.mem := rfl
@[simp] theorem State.setRx_ledgers (s : State) (r c : Nat) (f : RecvFlow → RecvFlow) : (s.setRx r c f).ledgers = s.ledgers := rfl
@[simp] theorem State.setRx_obs (s : State) (r c : Nat) (f : RecvFlow → RecvFlow) : (s.setRx r c f).obs = s.obs := rfl
@[simp] theorem State.setRx_mbox (s : State) (r c : Nat) (f : RecvFlow → RecvFlow) : (s.setRx r c f).mbox = s.mbox := rfl
@[simp] theorem State.setRx_silent (s : State) (r c : Nat) (f : RecvFlow → RecvFlow) : (s.setRx r c f).silent = s.silent := rfl
@[simp] theorem State.setRx_ctd (s : State) (r c : Nat) (f : RecvFlow → RecvFlow) : (s.setRx r c f).ctd = s.ctd := rfl
@[simp] theorem State.setRx_job (s : State) (r c : Nat) (f : RecvFlow → RecvFlow) : (s.setRx r c f).job = s.job := rfl
@[simp] theorem State.setRx_toll (s : State) (r c : Nat) (f : RecvFlow → RecvFlow) : (s.setRx r c f).toll = s.toll := rfl
@[simp] theorem State.setRx_power (s : State) (r c : Nat) (f : RecvFlow → RecvFlow) : (s.setRx r c f).power = s.power := rfl
@[simp] theorem State.setRx_mgmt (s : State) (r c : Nat) (f : RecvFlow → RecvFlow) : (s.setRx r c f).mgmt = s.mgmt := rfl
@[simp] theorem State.setRx_i3c (s : State) (r c : Nat) (f : RecvFlow → RecvFlow) : (s.setRx r c f).i3c = s.i3c := rfl
@[simp] theorem State.setRx_spdm (s : State) (r c : Nat) (f : RecvFlow → RecvFlow) : (s.setRx r c f).spdm = s.spdm := rfl
@[simp] theorem State.setRx_free (s : State) (r c : Nat) (f : RecvFlow → RecvFlow) : (s.setRx r c f).free = s.free := rfl

@[simp] theorem State.setUna_pending (s : State) (r c : Nat) (q : BitVec 16) (f : FReq → FReq) : (s.setUna r c q f).pending = s.pending := rfl
@[simp] theorem State.setUna_fuse (s : State) (r c : Nat) (q : BitVec 16) (f : FReq → FReq) : (s.setUna r c q f).fuse = s.fuse := rfl
@[simp] theorem State.setUna_mod (s : State) (r c : Nat) (q : BitVec 16) (f : FReq → FReq) : (s.setUna r c q f).mod = s.mod := rfl
@[simp] theorem State.setUna_ring (s : State) (r c : Nat) (q : BitVec 16) (f : FReq → FReq) : (s.setUna r c q f).ring = s.ring := rfl
@[simp] theorem State.setUna_dies (s : State) (r c : Nat) (q : BitVec 16) (f : FReq → FReq) : (s.setUna r c q f).dies = s.dies := rfl
@[simp] theorem State.setUna_bus (s : State) (r c : Nat) (q : BitVec 16) (f : FReq → FReq) : (s.setUna r c q f).bus = s.bus := rfl
@[simp] theorem State.setUna_time (s : State) (r c : Nat) (q : BitVec 16) (f : FReq → FReq) : (s.setUna r c q f).time = s.time := rfl
@[simp] theorem State.setUna_dieTime (s : State) (r c : Nat) (q : BitVec 16) (f : FReq → FReq) : (s.setUna r c q f).dieTime = s.dieTime := rfl
@[simp] theorem State.setUna_sched (s : State) (r c : Nat) (q : BitVec 16) (f : FReq → FReq) : (s.setUna r c q f).sched = s.sched := rfl
@[simp] theorem State.setUna_eng (s : State) (r c : Nat) (q : BitVec 16) (f : FReq → FReq) : (s.setUna r c q f).eng = s.eng := rfl
@[simp] theorem State.setUna_mem (s : State) (r c : Nat) (q : BitVec 16) (f : FReq → FReq) : (s.setUna r c q f).mem = s.mem := rfl
@[simp] theorem State.setUna_ledgers (s : State) (r c : Nat) (q : BitVec 16) (f : FReq → FReq) : (s.setUna r c q f).ledgers = s.ledgers := rfl
@[simp] theorem State.setUna_obs (s : State) (r c : Nat) (q : BitVec 16) (f : FReq → FReq) : (s.setUna r c q f).obs = s.obs := rfl
@[simp] theorem State.setUna_mbox (s : State) (r c : Nat) (q : BitVec 16) (f : FReq → FReq) : (s.setUna r c q f).mbox = s.mbox := rfl
@[simp] theorem State.setUna_silent (s : State) (r c : Nat) (q : BitVec 16) (f : FReq → FReq) : (s.setUna r c q f).silent = s.silent := rfl
@[simp] theorem State.setUna_ctd (s : State) (r c : Nat) (q : BitVec 16) (f : FReq → FReq) : (s.setUna r c q f).ctd = s.ctd := rfl
@[simp] theorem State.setUna_job (s : State) (r c : Nat) (q : BitVec 16) (f : FReq → FReq) : (s.setUna r c q f).job = s.job := rfl
@[simp] theorem State.setUna_toll (s : State) (r c : Nat) (q : BitVec 16) (f : FReq → FReq) : (s.setUna r c q f).toll = s.toll := rfl
@[simp] theorem State.setUna_power (s : State) (r c : Nat) (q : BitVec 16) (f : FReq → FReq) : (s.setUna r c q f).power = s.power := rfl
@[simp] theorem State.setUna_mgmt (s : State) (r c : Nat) (q : BitVec 16) (f : FReq → FReq) : (s.setUna r c q f).mgmt = s.mgmt := rfl
@[simp] theorem State.setUna_i3c (s : State) (r c : Nat) (q : BitVec 16) (f : FReq → FReq) : (s.setUna r c q f).i3c = s.i3c := rfl
@[simp] theorem State.setUna_spdm (s : State) (r c : Nat) (q : BitVec 16) (f : FReq → FReq) : (s.setUna r c q f).spdm = s.spdm := rfl
@[simp] theorem State.setUna_free (s : State) (r c : Nat) (q : BitVec 16) (f : FReq → FReq) : (s.setUna r c q f).free = s.free := rfl

@[simp] theorem State.setWg_pending (s : State) (d : Nat) (f : WgDie → WgDie) : (s.setWg d f).pending = s.pending := rfl
@[simp] theorem State.setWg_fuse (s : State) (d : Nat) (f : WgDie → WgDie) : (s.setWg d f).fuse = s.fuse := rfl
@[simp] theorem State.setWg_mod (s : State) (d : Nat) (f : WgDie → WgDie) : (s.setWg d f).mod = s.mod := rfl
@[simp] theorem State.setWg_ring (s : State) (d : Nat) (f : WgDie → WgDie) : (s.setWg d f).ring = s.ring := rfl
@[simp] theorem State.setWg_dies (s : State) (d : Nat) (f : WgDie → WgDie) : (s.setWg d f).dies = s.dies := rfl
@[simp] theorem State.setWg_bus (s : State) (d : Nat) (f : WgDie → WgDie) : (s.setWg d f).bus = s.bus := rfl
@[simp] theorem State.setWg_time (s : State) (d : Nat) (f : WgDie → WgDie) : (s.setWg d f).time = s.time := rfl
@[simp] theorem State.setWg_dieTime (s : State) (d : Nat) (f : WgDie → WgDie) : (s.setWg d f).dieTime = s.dieTime := rfl
@[simp] theorem State.setWg_sched (s : State) (d : Nat) (f : WgDie → WgDie) : (s.setWg d f).sched = s.sched := rfl
@[simp] theorem State.setWg_eng (s : State) (d : Nat) (f : WgDie → WgDie) : (s.setWg d f).eng = s.eng := rfl
@[simp] theorem State.setWg_mem (s : State) (d : Nat) (f : WgDie → WgDie) : (s.setWg d f).mem = s.mem := rfl
@[simp] theorem State.setWg_ledgers (s : State) (d : Nat) (f : WgDie → WgDie) : (s.setWg d f).ledgers = s.ledgers := rfl
@[simp] theorem State.setWg_obs (s : State) (d : Nat) (f : WgDie → WgDie) : (s.setWg d f).obs = s.obs := rfl
@[simp] theorem State.setWg_mbox (s : State) (d : Nat) (f : WgDie → WgDie) : (s.setWg d f).mbox = s.mbox := rfl
@[simp] theorem State.setWg_silent (s : State) (d : Nat) (f : WgDie → WgDie) : (s.setWg d f).silent = s.silent := rfl
@[simp] theorem State.setWg_fab (s : State) (d : Nat) (f : WgDie → WgDie) : (s.setWg d f).fab = { s.fab with dies := lmod s.fab.dies d f } := rfl
@[simp] theorem State.setWg_ctd (s : State) (d : Nat) (f : WgDie → WgDie) : (s.setWg d f).ctd = s.ctd := rfl
@[simp] theorem State.setWg_job (s : State) (d : Nat) (f : WgDie → WgDie) : (s.setWg d f).job = s.job := rfl
@[simp] theorem State.setWg_toll (s : State) (d : Nat) (f : WgDie → WgDie) : (s.setWg d f).toll = s.toll := rfl
@[simp] theorem State.setWg_power (s : State) (d : Nat) (f : WgDie → WgDie) : (s.setWg d f).power = s.power := rfl
@[simp] theorem State.setWg_mgmt (s : State) (d : Nat) (f : WgDie → WgDie) : (s.setWg d f).mgmt = s.mgmt := rfl
@[simp] theorem State.setWg_i3c (s : State) (d : Nat) (f : WgDie → WgDie) : (s.setWg d f).i3c = s.i3c := rfl
@[simp] theorem State.setWg_spdm (s : State) (d : Nat) (f : WgDie → WgDie) : (s.setWg d f).spdm = s.spdm := rfl
@[simp] theorem State.setWg_free (s : State) (d : Nat) (f : WgDie → WgDie) : (s.setWg d f).free = s.free := rfl

@[simp] theorem State.setSnap_pending (s : State) (c : Nat) (f : Snapshot → Snapshot) : (s.setSnap c f).pending = s.pending := rfl
@[simp] theorem State.setSnap_fuse (s : State) (c : Nat) (f : Snapshot → Snapshot) : (s.setSnap c f).fuse = s.fuse := rfl
@[simp] theorem State.setSnap_mod (s : State) (c : Nat) (f : Snapshot → Snapshot) : (s.setSnap c f).mod = s.mod := rfl
@[simp] theorem State.setSnap_ring (s : State) (c : Nat) (f : Snapshot → Snapshot) : (s.setSnap c f).ring = s.ring := rfl
@[simp] theorem State.setSnap_dies (s : State) (c : Nat) (f : Snapshot → Snapshot) : (s.setSnap c f).dies = s.dies := rfl
@[simp] theorem State.setSnap_bus (s : State) (c : Nat) (f : Snapshot → Snapshot) : (s.setSnap c f).bus = s.bus := rfl
@[simp] theorem State.setSnap_time (s : State) (c : Nat) (f : Snapshot → Snapshot) : (s.setSnap c f).time = s.time := rfl
@[simp] theorem State.setSnap_dieTime (s : State) (c : Nat) (f : Snapshot → Snapshot) : (s.setSnap c f).dieTime = s.dieTime := rfl
@[simp] theorem State.setSnap_sched (s : State) (c : Nat) (f : Snapshot → Snapshot) : (s.setSnap c f).sched = s.sched := rfl
@[simp] theorem State.setSnap_eng (s : State) (c : Nat) (f : Snapshot → Snapshot) : (s.setSnap c f).eng = s.eng := rfl
@[simp] theorem State.setSnap_mem (s : State) (c : Nat) (f : Snapshot → Snapshot) : (s.setSnap c f).mem = s.mem := rfl
@[simp] theorem State.setSnap_ledgers (s : State) (c : Nat) (f : Snapshot → Snapshot) : (s.setSnap c f).ledgers = s.ledgers := rfl
@[simp] theorem State.setSnap_obs (s : State) (c : Nat) (f : Snapshot → Snapshot) : (s.setSnap c f).obs = s.obs := rfl
@[simp] theorem State.setSnap_mbox (s : State) (c : Nat) (f : Snapshot → Snapshot) : (s.setSnap c f).mbox = s.mbox := rfl
@[simp] theorem State.setSnap_silent (s : State) (c : Nat) (f : Snapshot → Snapshot) : (s.setSnap c f).silent = s.silent := rfl
@[simp] theorem State.setSnap_fab (s : State) (c : Nat) (f : Snapshot → Snapshot) : (s.setSnap c f).fab = s.fab := rfl
@[simp] theorem State.setSnap_ctd (s : State) (c : Nat) (f : Snapshot → Snapshot) : (s.setSnap c f).ctd = s.ctd := rfl
@[simp] theorem State.setSnap_toll (s : State) (c : Nat) (f : Snapshot → Snapshot) : (s.setSnap c f).toll = s.toll := rfl
@[simp] theorem State.setSnap_power (s : State) (c : Nat) (f : Snapshot → Snapshot) : (s.setSnap c f).power = s.power := rfl
@[simp] theorem State.setSnap_mgmt (s : State) (c : Nat) (f : Snapshot → Snapshot) : (s.setSnap c f).mgmt = s.mgmt := rfl
@[simp] theorem State.setSnap_i3c (s : State) (c : Nat) (f : Snapshot → Snapshot) : (s.setSnap c f).i3c = s.i3c := rfl
@[simp] theorem State.setSnap_spdm (s : State) (c : Nat) (f : Snapshot → Snapshot) : (s.setSnap c f).spdm = s.spdm := rfl
@[simp] theorem State.setSnap_free (s : State) (c : Nat) (f : Snapshot → Snapshot) : (s.setSnap c f).free = s.free := rfl

@[simp] theorem State.setFill_pending (s : State) (c : Nat) (f : Fill → Fill) : (s.setFill c f).pending = s.pending := rfl
@[simp] theorem State.setFill_fuse (s : State) (c : Nat) (f : Fill → Fill) : (s.setFill c f).fuse = s.fuse := rfl
@[simp] theorem State.setFill_mod (s : State) (c : Nat) (f : Fill → Fill) : (s.setFill c f).mod = s.mod := rfl
@[simp] theorem State.setFill_ring (s : State) (c : Nat) (f : Fill → Fill) : (s.setFill c f).ring = s.ring := rfl
@[simp] theorem State.setFill_dies (s : State) (c : Nat) (f : Fill → Fill) : (s.setFill c f).dies = s.dies := rfl
@[simp] theorem State.setFill_bus (s : State) (c : Nat) (f : Fill → Fill) : (s.setFill c f).bus = s.bus := rfl
@[simp] theorem State.setFill_time (s : State) (c : Nat) (f : Fill → Fill) : (s.setFill c f).time = s.time := rfl
@[simp] theorem State.setFill_dieTime (s : State) (c : Nat) (f : Fill → Fill) : (s.setFill c f).dieTime = s.dieTime := rfl
@[simp] theorem State.setFill_sched (s : State) (c : Nat) (f : Fill → Fill) : (s.setFill c f).sched = s.sched := rfl
@[simp] theorem State.setFill_eng (s : State) (c : Nat) (f : Fill → Fill) : (s.setFill c f).eng = s.eng := rfl
@[simp] theorem State.setFill_mem (s : State) (c : Nat) (f : Fill → Fill) : (s.setFill c f).mem = s.mem := rfl
@[simp] theorem State.setFill_ledgers (s : State) (c : Nat) (f : Fill → Fill) : (s.setFill c f).ledgers = s.ledgers := rfl
@[simp] theorem State.setFill_obs (s : State) (c : Nat) (f : Fill → Fill) : (s.setFill c f).obs = s.obs := rfl
@[simp] theorem State.setFill_mbox (s : State) (c : Nat) (f : Fill → Fill) : (s.setFill c f).mbox = s.mbox := rfl
@[simp] theorem State.setFill_silent (s : State) (c : Nat) (f : Fill → Fill) : (s.setFill c f).silent = s.silent := rfl
@[simp] theorem State.setFill_fab (s : State) (c : Nat) (f : Fill → Fill) : (s.setFill c f).fab = s.fab := rfl
@[simp] theorem State.setFill_ctd (s : State) (c : Nat) (f : Fill → Fill) : (s.setFill c f).ctd = s.ctd := rfl
@[simp] theorem State.setFill_toll (s : State) (c : Nat) (f : Fill → Fill) : (s.setFill c f).toll = s.toll := rfl
@[simp] theorem State.setFill_power (s : State) (c : Nat) (f : Fill → Fill) : (s.setFill c f).power = s.power := rfl
@[simp] theorem State.setFill_mgmt (s : State) (c : Nat) (f : Fill → Fill) : (s.setFill c f).mgmt = s.mgmt := rfl
@[simp] theorem State.setFill_i3c (s : State) (c : Nat) (f : Fill → Fill) : (s.setFill c f).i3c = s.i3c := rfl
@[simp] theorem State.setFill_spdm (s : State) (c : Nat) (f : Fill → Fill) : (s.setFill c f).spdm = s.spdm := rfl
@[simp] theorem State.setFill_free (s : State) (c : Nat) (f : Fill → Fill) : (s.setFill c f).free = s.free := rfl

@[simp] theorem State.setCellar_pending (s : State) (p : Nat) (f : CellarPort → CellarPort) : (s.setCellar p f).pending = s.pending := rfl
@[simp] theorem State.setCellar_fuse (s : State) (p : Nat) (f : CellarPort → CellarPort) : (s.setCellar p f).fuse = s.fuse := rfl
@[simp] theorem State.setCellar_mod (s : State) (p : Nat) (f : CellarPort → CellarPort) : (s.setCellar p f).mod = s.mod := rfl
@[simp] theorem State.setCellar_ring (s : State) (p : Nat) (f : CellarPort → CellarPort) : (s.setCellar p f).ring = s.ring := rfl
@[simp] theorem State.setCellar_dies (s : State) (p : Nat) (f : CellarPort → CellarPort) : (s.setCellar p f).dies = s.dies := rfl
@[simp] theorem State.setCellar_bus (s : State) (p : Nat) (f : CellarPort → CellarPort) : (s.setCellar p f).bus = s.bus := rfl
@[simp] theorem State.setCellar_time (s : State) (p : Nat) (f : CellarPort → CellarPort) : (s.setCellar p f).time = s.time := rfl
@[simp] theorem State.setCellar_dieTime (s : State) (p : Nat) (f : CellarPort → CellarPort) : (s.setCellar p f).dieTime = s.dieTime := rfl
@[simp] theorem State.setCellar_sched (s : State) (p : Nat) (f : CellarPort → CellarPort) : (s.setCellar p f).sched = s.sched := rfl
@[simp] theorem State.setCellar_eng (s : State) (p : Nat) (f : CellarPort → CellarPort) : (s.setCellar p f).eng = s.eng := rfl
@[simp] theorem State.setCellar_mem (s : State) (p : Nat) (f : CellarPort → CellarPort) : (s.setCellar p f).mem = s.mem := rfl
@[simp] theorem State.setCellar_ledgers (s : State) (p : Nat) (f : CellarPort → CellarPort) : (s.setCellar p f).ledgers = s.ledgers := rfl
@[simp] theorem State.setCellar_obs (s : State) (p : Nat) (f : CellarPort → CellarPort) : (s.setCellar p f).obs = s.obs := rfl
@[simp] theorem State.setCellar_mbox (s : State) (p : Nat) (f : CellarPort → CellarPort) : (s.setCellar p f).mbox = s.mbox := rfl
@[simp] theorem State.setCellar_silent (s : State) (p : Nat) (f : CellarPort → CellarPort) : (s.setCellar p f).silent = s.silent := rfl
@[simp] theorem State.setCellar_fab (s : State) (p : Nat) (f : CellarPort → CellarPort) : (s.setCellar p f).fab = s.fab := rfl
@[simp] theorem State.setCellar_ctd (s : State) (p : Nat) (f : CellarPort → CellarPort) : (s.setCellar p f).ctd = s.ctd := rfl
@[simp] theorem State.setCellar_job (s : State) (p : Nat) (f : CellarPort → CellarPort) : (s.setCellar p f).job = { s.job with ports := lmod s.job.ports p f } := rfl
@[simp] theorem State.setCellar_toll (s : State) (p : Nat) (f : CellarPort → CellarPort) : (s.setCellar p f).toll = s.toll := rfl
@[simp] theorem State.setCellar_power (s : State) (p : Nat) (f : CellarPort → CellarPort) : (s.setCellar p f).power = s.power := rfl
@[simp] theorem State.setCellar_mgmt (s : State) (p : Nat) (f : CellarPort → CellarPort) : (s.setCellar p f).mgmt = s.mgmt := rfl
@[simp] theorem State.setCellar_i3c (s : State) (p : Nat) (f : CellarPort → CellarPort) : (s.setCellar p f).i3c = s.i3c := rfl
@[simp] theorem State.setCellar_spdm (s : State) (p : Nat) (f : CellarPort → CellarPort) : (s.setCellar p f).spdm = s.spdm := rfl
@[simp] theorem State.setCellar_free (s : State) (p : Nat) (f : CellarPort → CellarPort) : (s.setCellar p f).free = s.free := rfl

@[simp] theorem State.setLedger_pending (s : State) (c : Nat) (f : Ledger → Ledger) : (s.setLedger c f).pending = s.pending := rfl
@[simp] theorem State.setLedger_fuse (s : State) (c : Nat) (f : Ledger → Ledger) : (s.setLedger c f).fuse = s.fuse := rfl
@[simp] theorem State.setLedger_mod (s : State) (c : Nat) (f : Ledger → Ledger) : (s.setLedger c f).mod = s.mod := rfl
@[simp] theorem State.setLedger_ring (s : State) (c : Nat) (f : Ledger → Ledger) : (s.setLedger c f).ring = s.ring := rfl
@[simp] theorem State.setLedger_dies (s : State) (c : Nat) (f : Ledger → Ledger) : (s.setLedger c f).dies = s.dies := rfl
@[simp] theorem State.setLedger_bus (s : State) (c : Nat) (f : Ledger → Ledger) : (s.setLedger c f).bus = s.bus := rfl
@[simp] theorem State.setLedger_time (s : State) (c : Nat) (f : Ledger → Ledger) : (s.setLedger c f).time = s.time := rfl
@[simp] theorem State.setLedger_dieTime (s : State) (c : Nat) (f : Ledger → Ledger) : (s.setLedger c f).dieTime = s.dieTime := rfl
@[simp] theorem State.setLedger_sched (s : State) (c : Nat) (f : Ledger → Ledger) : (s.setLedger c f).sched = s.sched := rfl
@[simp] theorem State.setLedger_eng (s : State) (c : Nat) (f : Ledger → Ledger) : (s.setLedger c f).eng = s.eng := rfl
@[simp] theorem State.setLedger_mem (s : State) (c : Nat) (f : Ledger → Ledger) : (s.setLedger c f).mem = s.mem := rfl
@[simp] theorem State.setLedger_ledgers (s : State) (c : Nat) (f : Ledger → Ledger) : (s.setLedger c f).ledgers = lmod s.ledgers c f := rfl
@[simp] theorem State.setLedger_obs (s : State) (c : Nat) (f : Ledger → Ledger) : (s.setLedger c f).obs = s.obs := rfl
@[simp] theorem State.setLedger_mbox (s : State) (c : Nat) (f : Ledger → Ledger) : (s.setLedger c f).mbox = s.mbox := rfl
@[simp] theorem State.setLedger_silent (s : State) (c : Nat) (f : Ledger → Ledger) : (s.setLedger c f).silent = s.silent := rfl
@[simp] theorem State.setLedger_fab (s : State) (c : Nat) (f : Ledger → Ledger) : (s.setLedger c f).fab = s.fab := rfl
@[simp] theorem State.setLedger_ctd (s : State) (c : Nat) (f : Ledger → Ledger) : (s.setLedger c f).ctd = s.ctd := rfl
@[simp] theorem State.setLedger_job (s : State) (c : Nat) (f : Ledger → Ledger) : (s.setLedger c f).job = s.job := rfl
@[simp] theorem State.setLedger_toll (s : State) (c : Nat) (f : Ledger → Ledger) : (s.setLedger c f).toll = s.toll := rfl
@[simp] theorem State.setLedger_power (s : State) (c : Nat) (f : Ledger → Ledger) : (s.setLedger c f).power = s.power := rfl
@[simp] theorem State.setLedger_mgmt (s : State) (c : Nat) (f : Ledger → Ledger) : (s.setLedger c f).mgmt = s.mgmt := rfl
@[simp] theorem State.setLedger_i3c (s : State) (c : Nat) (f : Ledger → Ledger) : (s.setLedger c f).i3c = s.i3c := rfl
@[simp] theorem State.setLedger_spdm (s : State) (c : Nat) (f : Ledger → Ledger) : (s.setLedger c f).spdm = s.spdm := rfl
@[simp] theorem State.setLedger_free (s : State) (c : Nat) (f : Ledger → Ledger) : (s.setLedger c f).free = s.free := rfl

@[simp] theorem State.setWin_pending (s : State) (c w : Nat) (f : LgWin → LgWin) : (s.setWin c w f).pending = s.pending := rfl
@[simp] theorem State.setWin_fuse (s : State) (c w : Nat) (f : LgWin → LgWin) : (s.setWin c w f).fuse = s.fuse := rfl
@[simp] theorem State.setWin_mod (s : State) (c w : Nat) (f : LgWin → LgWin) : (s.setWin c w f).mod = s.mod := rfl
@[simp] theorem State.setWin_ring (s : State) (c w : Nat) (f : LgWin → LgWin) : (s.setWin c w f).ring = s.ring := rfl
@[simp] theorem State.setWin_dies (s : State) (c w : Nat) (f : LgWin → LgWin) : (s.setWin c w f).dies = s.dies := rfl
@[simp] theorem State.setWin_bus (s : State) (c w : Nat) (f : LgWin → LgWin) : (s.setWin c w f).bus = s.bus := rfl
@[simp] theorem State.setWin_time (s : State) (c w : Nat) (f : LgWin → LgWin) : (s.setWin c w f).time = s.time := rfl
@[simp] theorem State.setWin_dieTime (s : State) (c w : Nat) (f : LgWin → LgWin) : (s.setWin c w f).dieTime = s.dieTime := rfl
@[simp] theorem State.setWin_sched (s : State) (c w : Nat) (f : LgWin → LgWin) : (s.setWin c w f).sched = s.sched := rfl
@[simp] theorem State.setWin_eng (s : State) (c w : Nat) (f : LgWin → LgWin) : (s.setWin c w f).eng = s.eng := rfl
@[simp] theorem State.setWin_mem (s : State) (c w : Nat) (f : LgWin → LgWin) : (s.setWin c w f).mem = s.mem := rfl
@[simp] theorem State.setWin_obs (s : State) (c w : Nat) (f : LgWin → LgWin) : (s.setWin c w f).obs = s.obs := rfl
@[simp] theorem State.setWin_mbox (s : State) (c w : Nat) (f : LgWin → LgWin) : (s.setWin c w f).mbox = s.mbox := rfl
@[simp] theorem State.setWin_silent (s : State) (c w : Nat) (f : LgWin → LgWin) : (s.setWin c w f).silent = s.silent := rfl
@[simp] theorem State.setWin_fab (s : State) (c w : Nat) (f : LgWin → LgWin) : (s.setWin c w f).fab = s.fab := rfl
@[simp] theorem State.setWin_ctd (s : State) (c w : Nat) (f : LgWin → LgWin) : (s.setWin c w f).ctd = s.ctd := rfl
@[simp] theorem State.setWin_job (s : State) (c w : Nat) (f : LgWin → LgWin) : (s.setWin c w f).job = s.job := rfl
@[simp] theorem State.setWin_toll (s : State) (c w : Nat) (f : LgWin → LgWin) : (s.setWin c w f).toll = s.toll := rfl
@[simp] theorem State.setWin_power (s : State) (c w : Nat) (f : LgWin → LgWin) : (s.setWin c w f).power = s.power := rfl
@[simp] theorem State.setWin_mgmt (s : State) (c w : Nat) (f : LgWin → LgWin) : (s.setWin c w f).mgmt = s.mgmt := rfl
@[simp] theorem State.setWin_i3c (s : State) (c w : Nat) (f : LgWin → LgWin) : (s.setWin c w f).i3c = s.i3c := rfl
@[simp] theorem State.setWin_spdm (s : State) (c w : Nat) (f : LgWin → LgWin) : (s.setWin c w f).spdm = s.spdm := rfl
@[simp] theorem State.setWin_free (s : State) (c w : Nat) (f : LgWin → LgWin) : (s.setWin c w f).free = s.free := rfl

@[simp] theorem State.setCounters_pending (s : State) (d : Nat) (f : Counters → Counters) : (s.setCounters d f).pending = s.pending := rfl
@[simp] theorem State.setCounters_fuse (s : State) (d : Nat) (f : Counters → Counters) : (s.setCounters d f).fuse = s.fuse := rfl
@[simp] theorem State.setCounters_mod (s : State) (d : Nat) (f : Counters → Counters) : (s.setCounters d f).mod = s.mod := rfl
@[simp] theorem State.setCounters_ring (s : State) (d : Nat) (f : Counters → Counters) : (s.setCounters d f).ring = s.ring := rfl
@[simp] theorem State.setCounters_dies (s : State) (d : Nat) (f : Counters → Counters) : (s.setCounters d f).dies = s.dies := rfl
@[simp] theorem State.setCounters_bus (s : State) (d : Nat) (f : Counters → Counters) : (s.setCounters d f).bus = s.bus := rfl
@[simp] theorem State.setCounters_time (s : State) (d : Nat) (f : Counters → Counters) : (s.setCounters d f).time = s.time := rfl
@[simp] theorem State.setCounters_dieTime (s : State) (d : Nat) (f : Counters → Counters) : (s.setCounters d f).dieTime = s.dieTime := rfl
@[simp] theorem State.setCounters_sched (s : State) (d : Nat) (f : Counters → Counters) : (s.setCounters d f).sched = s.sched := rfl
@[simp] theorem State.setCounters_eng (s : State) (d : Nat) (f : Counters → Counters) : (s.setCounters d f).eng = s.eng := rfl
@[simp] theorem State.setCounters_mem (s : State) (d : Nat) (f : Counters → Counters) : (s.setCounters d f).mem = s.mem := rfl
@[simp] theorem State.setCounters_ledgers (s : State) (d : Nat) (f : Counters → Counters) : (s.setCounters d f).ledgers = s.ledgers := rfl
@[simp] theorem State.setCounters_obs (s : State) (d : Nat) (f : Counters → Counters) : (s.setCounters d f).obs = { s.obs with dies := lmod s.obs.dies d f } := rfl
@[simp] theorem State.setCounters_mbox (s : State) (d : Nat) (f : Counters → Counters) : (s.setCounters d f).mbox = s.mbox := rfl
@[simp] theorem State.setCounters_silent (s : State) (d : Nat) (f : Counters → Counters) : (s.setCounters d f).silent = s.silent := rfl
@[simp] theorem State.setCounters_fab (s : State) (d : Nat) (f : Counters → Counters) : (s.setCounters d f).fab = s.fab := rfl
@[simp] theorem State.setCounters_ctd (s : State) (d : Nat) (f : Counters → Counters) : (s.setCounters d f).ctd = s.ctd := rfl
@[simp] theorem State.setCounters_job (s : State) (d : Nat) (f : Counters → Counters) : (s.setCounters d f).job = s.job := rfl
@[simp] theorem State.setCounters_toll (s : State) (d : Nat) (f : Counters → Counters) : (s.setCounters d f).toll = s.toll := rfl
@[simp] theorem State.setCounters_power (s : State) (d : Nat) (f : Counters → Counters) : (s.setCounters d f).power = s.power := rfl
@[simp] theorem State.setCounters_mgmt (s : State) (d : Nat) (f : Counters → Counters) : (s.setCounters d f).mgmt = s.mgmt := rfl
@[simp] theorem State.setCounters_i3c (s : State) (d : Nat) (f : Counters → Counters) : (s.setCounters d f).i3c = s.i3c := rfl
@[simp] theorem State.setCounters_spdm (s : State) (d : Nat) (f : Counters → Counters) : (s.setCounters d f).spdm = s.spdm := rfl
@[simp] theorem State.setCounters_free (s : State) (d : Nat) (f : Counters → Counters) : (s.setCounters d f).free = s.free := rfl

@[simp] theorem State.setPow_pending (s : State) (d : Nat) (f : PowDie → PowDie) : (s.setPow d f).pending = s.pending := rfl
@[simp] theorem State.setPow_fuse (s : State) (d : Nat) (f : PowDie → PowDie) : (s.setPow d f).fuse = s.fuse := rfl
@[simp] theorem State.setPow_mod (s : State) (d : Nat) (f : PowDie → PowDie) : (s.setPow d f).mod = s.mod := rfl
@[simp] theorem State.setPow_ring (s : State) (d : Nat) (f : PowDie → PowDie) : (s.setPow d f).ring = s.ring := rfl
@[simp] theorem State.setPow_dies (s : State) (d : Nat) (f : PowDie → PowDie) : (s.setPow d f).dies = s.dies := rfl
@[simp] theorem State.setPow_bus (s : State) (d : Nat) (f : PowDie → PowDie) : (s.setPow d f).bus = s.bus := rfl
@[simp] theorem State.setPow_time (s : State) (d : Nat) (f : PowDie → PowDie) : (s.setPow d f).time = s.time := rfl
@[simp] theorem State.setPow_dieTime (s : State) (d : Nat) (f : PowDie → PowDie) : (s.setPow d f).dieTime = s.dieTime := rfl
@[simp] theorem State.setPow_sched (s : State) (d : Nat) (f : PowDie → PowDie) : (s.setPow d f).sched = s.sched := rfl
@[simp] theorem State.setPow_eng (s : State) (d : Nat) (f : PowDie → PowDie) : (s.setPow d f).eng = s.eng := rfl
@[simp] theorem State.setPow_mem (s : State) (d : Nat) (f : PowDie → PowDie) : (s.setPow d f).mem = s.mem := rfl
@[simp] theorem State.setPow_ledgers (s : State) (d : Nat) (f : PowDie → PowDie) : (s.setPow d f).ledgers = s.ledgers := rfl
@[simp] theorem State.setPow_obs (s : State) (d : Nat) (f : PowDie → PowDie) : (s.setPow d f).obs = s.obs := rfl
@[simp] theorem State.setPow_mbox (s : State) (d : Nat) (f : PowDie → PowDie) : (s.setPow d f).mbox = s.mbox := rfl
@[simp] theorem State.setPow_silent (s : State) (d : Nat) (f : PowDie → PowDie) : (s.setPow d f).silent = s.silent := rfl
@[simp] theorem State.setPow_fab (s : State) (d : Nat) (f : PowDie → PowDie) : (s.setPow d f).fab = s.fab := rfl
@[simp] theorem State.setPow_ctd (s : State) (d : Nat) (f : PowDie → PowDie) : (s.setPow d f).ctd = s.ctd := rfl
@[simp] theorem State.setPow_job (s : State) (d : Nat) (f : PowDie → PowDie) : (s.setPow d f).job = s.job := rfl
@[simp] theorem State.setPow_toll (s : State) (d : Nat) (f : PowDie → PowDie) : (s.setPow d f).toll = s.toll := rfl
@[simp] theorem State.setPow_power (s : State) (d : Nat) (f : PowDie → PowDie) : (s.setPow d f).power = { s.power with dies := lmod s.power.dies d f } := rfl
@[simp] theorem State.setPow_mgmt (s : State) (d : Nat) (f : PowDie → PowDie) : (s.setPow d f).mgmt = s.mgmt := rfl
@[simp] theorem State.setPow_i3c (s : State) (d : Nat) (f : PowDie → PowDie) : (s.setPow d f).i3c = s.i3c := rfl
@[simp] theorem State.setPow_spdm (s : State) (d : Nat) (f : PowDie → PowDie) : (s.setPow d f).spdm = s.spdm := rfl
@[simp] theorem State.setPow_free (s : State) (d : Nat) (f : PowDie → PowDie) : (s.setPow d f).free = s.free := rfl

@[simp] theorem State.setSched_pending (s : State) (n : Nat) (e : SchedEntry) : (s.setSched n e).pending = s.pending := rfl
@[simp] theorem State.setSched_fuse (s : State) (n : Nat) (e : SchedEntry) : (s.setSched n e).fuse = s.fuse := rfl
@[simp] theorem State.setSched_mod (s : State) (n : Nat) (e : SchedEntry) : (s.setSched n e).mod = s.mod := rfl
@[simp] theorem State.setSched_ring (s : State) (n : Nat) (e : SchedEntry) : (s.setSched n e).ring = s.ring := rfl
@[simp] theorem State.setSched_dies (s : State) (n : Nat) (e : SchedEntry) : (s.setSched n e).dies = s.dies := rfl
@[simp] theorem State.setSched_bus (s : State) (n : Nat) (e : SchedEntry) : (s.setSched n e).bus = s.bus := rfl
@[simp] theorem State.setSched_time (s : State) (n : Nat) (e : SchedEntry) : (s.setSched n e).time = s.time := rfl
@[simp] theorem State.setSched_dieTime (s : State) (n : Nat) (e : SchedEntry) : (s.setSched n e).dieTime = s.dieTime := rfl
@[simp] theorem State.setSched_sched (s : State) (n : Nat) (e : SchedEntry) : (s.setSched n e).sched = mput s.sched n e := rfl
@[simp] theorem State.setSched_eng (s : State) (n : Nat) (e : SchedEntry) : (s.setSched n e).eng = s.eng := rfl
@[simp] theorem State.setSched_mem (s : State) (n : Nat) (e : SchedEntry) : (s.setSched n e).mem = s.mem := rfl
@[simp] theorem State.setSched_ledgers (s : State) (n : Nat) (e : SchedEntry) : (s.setSched n e).ledgers = s.ledgers := rfl
@[simp] theorem State.setSched_obs (s : State) (n : Nat) (e : SchedEntry) : (s.setSched n e).obs = s.obs := rfl
@[simp] theorem State.setSched_mbox (s : State) (n : Nat) (e : SchedEntry) : (s.setSched n e).mbox = s.mbox := rfl
@[simp] theorem State.setSched_silent (s : State) (n : Nat) (e : SchedEntry) : (s.setSched n e).silent = s.silent := rfl
@[simp] theorem State.setSched_fab (s : State) (n : Nat) (e : SchedEntry) : (s.setSched n e).fab = s.fab := rfl
@[simp] theorem State.setSched_ctd (s : State) (n : Nat) (e : SchedEntry) : (s.setSched n e).ctd = s.ctd := rfl
@[simp] theorem State.setSched_job (s : State) (n : Nat) (e : SchedEntry) : (s.setSched n e).job = s.job := rfl
@[simp] theorem State.setSched_toll (s : State) (n : Nat) (e : SchedEntry) : (s.setSched n e).toll = s.toll := rfl
@[simp] theorem State.setSched_power (s : State) (n : Nat) (e : SchedEntry) : (s.setSched n e).power = s.power := rfl
@[simp] theorem State.setSched_mgmt (s : State) (n : Nat) (e : SchedEntry) : (s.setSched n e).mgmt = s.mgmt := rfl
@[simp] theorem State.setSched_i3c (s : State) (n : Nat) (e : SchedEntry) : (s.setSched n e).i3c = s.i3c := rfl
@[simp] theorem State.setSched_spdm (s : State) (n : Nat) (e : SchedEntry) : (s.setSched n e).spdm = s.spdm := rfl
@[simp] theorem State.setSched_free (s : State) (n : Nat) (e : SchedEntry) : (s.setSched n e).free = s.free := rfl

@[simp] theorem State.setSlice_pending (s : State) (e : Nat) (x : SliceEnt) : (s.setSlice e x).pending = s.pending := rfl
@[simp] theorem State.setSlice_fuse (s : State) (e : Nat) (x : SliceEnt) : (s.setSlice e x).fuse = s.fuse := rfl
@[simp] theorem State.setSlice_mod (s : State) (e : Nat) (x : SliceEnt) : (s.setSlice e x).mod = s.mod := rfl
@[simp] theorem State.setSlice_ring (s : State) (e : Nat) (x : SliceEnt) : (s.setSlice e x).ring = s.ring := rfl
@[simp] theorem State.setSlice_dies (s : State) (e : Nat) (x : SliceEnt) : (s.setSlice e x).dies = s.dies := rfl
@[simp] theorem State.setSlice_bus (s : State) (e : Nat) (x : SliceEnt) : (s.setSlice e x).bus = s.bus := rfl
@[simp] theorem State.setSlice_time (s : State) (e : Nat) (x : SliceEnt) : (s.setSlice e x).time = s.time := rfl
@[simp] theorem State.setSlice_dieTime (s : State) (e : Nat) (x : SliceEnt) : (s.setSlice e x).dieTime = s.dieTime := rfl
@[simp] theorem State.setSlice_sched (s : State) (e : Nat) (x : SliceEnt) : (s.setSlice e x).sched = s.sched := rfl
@[simp] theorem State.setSlice_eng (s : State) (e : Nat) (x : SliceEnt) : (s.setSlice e x).eng = s.eng := rfl
@[simp] theorem State.setSlice_mem (s : State) (e : Nat) (x : SliceEnt) : (s.setSlice e x).mem = s.mem := rfl
@[simp] theorem State.setSlice_ledgers (s : State) (e : Nat) (x : SliceEnt) : (s.setSlice e x).ledgers = s.ledgers := rfl
@[simp] theorem State.setSlice_obs (s : State) (e : Nat) (x : SliceEnt) : (s.setSlice e x).obs = s.obs := rfl
@[simp] theorem State.setSlice_mbox (s : State) (e : Nat) (x : SliceEnt) : (s.setSlice e x).mbox = s.mbox := rfl
@[simp] theorem State.setSlice_silent (s : State) (e : Nat) (x : SliceEnt) : (s.setSlice e x).silent = s.silent := rfl
@[simp] theorem State.setSlice_fab (s : State) (e : Nat) (x : SliceEnt) : (s.setSlice e x).fab = { s.fab with slices := mput s.fab.slices e x } := rfl
@[simp] theorem State.setSlice_ctd (s : State) (e : Nat) (x : SliceEnt) : (s.setSlice e x).ctd = s.ctd := rfl
@[simp] theorem State.setSlice_job (s : State) (e : Nat) (x : SliceEnt) : (s.setSlice e x).job = s.job := rfl
@[simp] theorem State.setSlice_toll (s : State) (e : Nat) (x : SliceEnt) : (s.setSlice e x).toll = s.toll := rfl
@[simp] theorem State.setSlice_power (s : State) (e : Nat) (x : SliceEnt) : (s.setSlice e x).power = s.power := rfl
@[simp] theorem State.setSlice_mgmt (s : State) (e : Nat) (x : SliceEnt) : (s.setSlice e x).mgmt = s.mgmt := rfl
@[simp] theorem State.setSlice_i3c (s : State) (e : Nat) (x : SliceEnt) : (s.setSlice e x).i3c = s.i3c := rfl
@[simp] theorem State.setSlice_spdm (s : State) (e : Nat) (x : SliceEnt) : (s.setSlice e x).spdm = s.spdm := rfl
@[simp] theorem State.setSlice_free (s : State) (e : Nat) (x : SliceEnt) : (s.setSlice e x).free = s.free := rfl

@[simp] theorem State.setConvoy_pending (s : State) (k : ConvoyKey) (f : Convoy → Convoy) : (s.setConvoy k f).pending = s.pending := rfl
@[simp] theorem State.setConvoy_fuse (s : State) (k : ConvoyKey) (f : Convoy → Convoy) : (s.setConvoy k f).fuse = s.fuse := rfl
@[simp] theorem State.setConvoy_mod (s : State) (k : ConvoyKey) (f : Convoy → Convoy) : (s.setConvoy k f).mod = s.mod := rfl
@[simp] theorem State.setConvoy_ring (s : State) (k : ConvoyKey) (f : Convoy → Convoy) : (s.setConvoy k f).ring = s.ring := rfl
@[simp] theorem State.setConvoy_dies (s : State) (k : ConvoyKey) (f : Convoy → Convoy) : (s.setConvoy k f).dies = s.dies := rfl
@[simp] theorem State.setConvoy_bus (s : State) (k : ConvoyKey) (f : Convoy → Convoy) : (s.setConvoy k f).bus = s.bus := rfl
@[simp] theorem State.setConvoy_time (s : State) (k : ConvoyKey) (f : Convoy → Convoy) : (s.setConvoy k f).time = s.time := rfl
@[simp] theorem State.setConvoy_dieTime (s : State) (k : ConvoyKey) (f : Convoy → Convoy) : (s.setConvoy k f).dieTime = s.dieTime := rfl
@[simp] theorem State.setConvoy_sched (s : State) (k : ConvoyKey) (f : Convoy → Convoy) : (s.setConvoy k f).sched = s.sched := rfl
@[simp] theorem State.setConvoy_eng (s : State) (k : ConvoyKey) (f : Convoy → Convoy) : (s.setConvoy k f).eng = s.eng := rfl
@[simp] theorem State.setConvoy_mem (s : State) (k : ConvoyKey) (f : Convoy → Convoy) : (s.setConvoy k f).mem = s.mem := rfl
@[simp] theorem State.setConvoy_ledgers (s : State) (k : ConvoyKey) (f : Convoy → Convoy) : (s.setConvoy k f).ledgers = s.ledgers := rfl
@[simp] theorem State.setConvoy_obs (s : State) (k : ConvoyKey) (f : Convoy → Convoy) : (s.setConvoy k f).obs = s.obs := rfl
@[simp] theorem State.setConvoy_mbox (s : State) (k : ConvoyKey) (f : Convoy → Convoy) : (s.setConvoy k f).mbox = s.mbox := rfl
@[simp] theorem State.setConvoy_silent (s : State) (k : ConvoyKey) (f : Convoy → Convoy) : (s.setConvoy k f).silent = s.silent := rfl
@[simp] theorem State.setConvoy_ctd (s : State) (k : ConvoyKey) (f : Convoy → Convoy) : (s.setConvoy k f).ctd = s.ctd := rfl
@[simp] theorem State.setConvoy_job (s : State) (k : ConvoyKey) (f : Convoy → Convoy) : (s.setConvoy k f).job = s.job := rfl
@[simp] theorem State.setConvoy_toll (s : State) (k : ConvoyKey) (f : Convoy → Convoy) : (s.setConvoy k f).toll = s.toll := rfl
@[simp] theorem State.setConvoy_power (s : State) (k : ConvoyKey) (f : Convoy → Convoy) : (s.setConvoy k f).power = s.power := rfl
@[simp] theorem State.setConvoy_mgmt (s : State) (k : ConvoyKey) (f : Convoy → Convoy) : (s.setConvoy k f).mgmt = s.mgmt := rfl
@[simp] theorem State.setConvoy_i3c (s : State) (k : ConvoyKey) (f : Convoy → Convoy) : (s.setConvoy k f).i3c = s.i3c := rfl
@[simp] theorem State.setConvoy_spdm (s : State) (k : ConvoyKey) (f : Convoy → Convoy) : (s.setConvoy k f).spdm = s.spdm := rfl
@[simp] theorem State.setConvoy_free (s : State) (k : ConvoyKey) (f : Convoy → Convoy) : (s.setConvoy k f).free = s.free := rfl

@[simp] theorem State.answer_pending (s : State) (v : BitVec 64) : (s.answer v).pending = s.pending := rfl
@[simp] theorem State.answer_fuse (s : State) (v : BitVec 64) : (s.answer v).fuse = s.fuse := rfl
@[simp] theorem State.answer_mod (s : State) (v : BitVec 64) : (s.answer v).mod = s.mod := rfl
@[simp] theorem State.answer_ring (s : State) (v : BitVec 64) : (s.answer v).ring = s.ring := rfl
@[simp] theorem State.answer_dies (s : State) (v : BitVec 64) : (s.answer v).dies = s.dies := rfl
@[simp] theorem State.answer_bus (s : State) (v : BitVec 64) : (s.answer v).bus = { value := v } := rfl
@[simp] theorem State.answer_time (s : State) (v : BitVec 64) : (s.answer v).time = s.time := rfl
@[simp] theorem State.answer_dieTime (s : State) (v : BitVec 64) : (s.answer v).dieTime = s.dieTime := rfl
@[simp] theorem State.answer_sched (s : State) (v : BitVec 64) : (s.answer v).sched = s.sched := rfl
@[simp] theorem State.answer_eng (s : State) (v : BitVec 64) : (s.answer v).eng = s.eng := rfl
@[simp] theorem State.answer_mem (s : State) (v : BitVec 64) : (s.answer v).mem = s.mem := rfl
@[simp] theorem State.answer_ledgers (s : State) (v : BitVec 64) : (s.answer v).ledgers = s.ledgers := rfl
@[simp] theorem State.answer_obs (s : State) (v : BitVec 64) : (s.answer v).obs = s.obs := rfl
@[simp] theorem State.answer_mbox (s : State) (v : BitVec 64) : (s.answer v).mbox = s.mbox := rfl
@[simp] theorem State.answer_silent (s : State) (v : BitVec 64) : (s.answer v).silent = s.silent := rfl
@[simp] theorem State.answer_fab (s : State) (v : BitVec 64) : (s.answer v).fab = s.fab := rfl
@[simp] theorem State.answer_ctd (s : State) (v : BitVec 64) : (s.answer v).ctd = s.ctd := rfl
@[simp] theorem State.answer_job (s : State) (v : BitVec 64) : (s.answer v).job = s.job := rfl
@[simp] theorem State.answer_toll (s : State) (v : BitVec 64) : (s.answer v).toll = s.toll := rfl
@[simp] theorem State.answer_power (s : State) (v : BitVec 64) : (s.answer v).power = s.power := rfl
@[simp] theorem State.answer_mgmt (s : State) (v : BitVec 64) : (s.answer v).mgmt = s.mgmt := rfl
@[simp] theorem State.answer_i3c (s : State) (v : BitVec 64) : (s.answer v).i3c = s.i3c := rfl
@[simp] theorem State.answer_spdm (s : State) (v : BitVec 64) : (s.answer v).spdm = s.spdm := rfl
@[simp] theorem State.answer_free (s : State) (v : BitVec 64) : (s.answer v).free = s.free := rfl

@[simp] theorem State.fail_pending (s : State) (e : AccErr) : (s.fail e).pending = s.pending := rfl
@[simp] theorem State.fail_fuse (s : State) (e : AccErr) : (s.fail e).fuse = s.fuse := rfl
@[simp] theorem State.fail_mod (s : State) (e : AccErr) : (s.fail e).mod = s.mod := rfl
@[simp] theorem State.fail_ring (s : State) (e : AccErr) : (s.fail e).ring = s.ring := rfl
@[simp] theorem State.fail_dies (s : State) (e : AccErr) : (s.fail e).dies = s.dies := rfl
@[simp] theorem State.fail_bus (s : State) (e : AccErr) : (s.fail e).bus = { err := e } := rfl
@[simp] theorem State.fail_time (s : State) (e : AccErr) : (s.fail e).time = s.time := rfl
@[simp] theorem State.fail_dieTime (s : State) (e : AccErr) : (s.fail e).dieTime = s.dieTime := rfl
@[simp] theorem State.fail_sched (s : State) (e : AccErr) : (s.fail e).sched = s.sched := rfl
@[simp] theorem State.fail_eng (s : State) (e : AccErr) : (s.fail e).eng = s.eng := rfl
@[simp] theorem State.fail_mem (s : State) (e : AccErr) : (s.fail e).mem = s.mem := rfl
@[simp] theorem State.fail_ledgers (s : State) (e : AccErr) : (s.fail e).ledgers = s.ledgers := rfl
@[simp] theorem State.fail_obs (s : State) (e : AccErr) : (s.fail e).obs = s.obs := rfl
@[simp] theorem State.fail_mbox (s : State) (e : AccErr) : (s.fail e).mbox = s.mbox := rfl
@[simp] theorem State.fail_silent (s : State) (e : AccErr) : (s.fail e).silent = s.silent := rfl
@[simp] theorem State.fail_fab (s : State) (e : AccErr) : (s.fail e).fab = s.fab := rfl
@[simp] theorem State.fail_ctd (s : State) (e : AccErr) : (s.fail e).ctd = s.ctd := rfl
@[simp] theorem State.fail_job (s : State) (e : AccErr) : (s.fail e).job = s.job := rfl
@[simp] theorem State.fail_toll (s : State) (e : AccErr) : (s.fail e).toll = s.toll := rfl
@[simp] theorem State.fail_power (s : State) (e : AccErr) : (s.fail e).power = s.power := rfl
@[simp] theorem State.fail_mgmt (s : State) (e : AccErr) : (s.fail e).mgmt = s.mgmt := rfl
@[simp] theorem State.fail_i3c (s : State) (e : AccErr) : (s.fail e).i3c = s.i3c := rfl
@[simp] theorem State.fail_spdm (s : State) (e : AccErr) : (s.fail e).spdm = s.spdm := rfl
@[simp] theorem State.fail_free (s : State) (e : AccErr) : (s.fail e).free = s.free := rfl

@[simp] theorem State.setQueue_pending (s : State) (c q : Nat) (f : Queue → Queue) : (s.setQueue c q f).pending = s.pending := by unfold State.setQueue; split <;> rfl
@[simp] theorem State.setQueue_fuse (s : State) (c q : Nat) (f : Queue → Queue) : (s.setQueue c q f).fuse = s.fuse := by unfold State.setQueue; split <;> rfl
@[simp] theorem State.setQueue_mod (s : State) (c q : Nat) (f : Queue → Queue) : (s.setQueue c q f).mod = s.mod := by unfold State.setQueue; split <;> rfl
@[simp] theorem State.setQueue_ring (s : State) (c q : Nat) (f : Queue → Queue) : (s.setQueue c q f).ring = s.ring := by unfold State.setQueue; split <;> rfl
@[simp] theorem State.setQueue_dies (s : State) (c q : Nat) (f : Queue → Queue) : (s.setQueue c q f).dies = s.dies := by unfold State.setQueue; split <;> rfl
@[simp] theorem State.setQueue_bus (s : State) (c q : Nat) (f : Queue → Queue) : (s.setQueue c q f).bus = s.bus := by unfold State.setQueue; split <;> rfl
@[simp] theorem State.setQueue_time (s : State) (c q : Nat) (f : Queue → Queue) : (s.setQueue c q f).time = s.time := by unfold State.setQueue; split <;> rfl
@[simp] theorem State.setQueue_dieTime (s : State) (c q : Nat) (f : Queue → Queue) : (s.setQueue c q f).dieTime = s.dieTime := by unfold State.setQueue; split <;> rfl
@[simp] theorem State.setQueue_sched (s : State) (c q : Nat) (f : Queue → Queue) : (s.setQueue c q f).sched = s.sched := by unfold State.setQueue; split <;> rfl
@[simp] theorem State.setQueue_mem (s : State) (c q : Nat) (f : Queue → Queue) : (s.setQueue c q f).mem = s.mem := by unfold State.setQueue; split <;> rfl
@[simp] theorem State.setQueue_ledgers (s : State) (c q : Nat) (f : Queue → Queue) : (s.setQueue c q f).ledgers = s.ledgers := by unfold State.setQueue; split <;> rfl
@[simp] theorem State.setQueue_obs (s : State) (c q : Nat) (f : Queue → Queue) : (s.setQueue c q f).obs = s.obs := by unfold State.setQueue; split <;> rfl
@[simp] theorem State.setQueue_mbox (s : State) (c q : Nat) (f : Queue → Queue) : (s.setQueue c q f).mbox = s.mbox := by unfold State.setQueue; split <;> rfl
@[simp] theorem State.setQueue_silent (s : State) (c q : Nat) (f : Queue → Queue) : (s.setQueue c q f).silent = s.silent := by unfold State.setQueue; split <;> rfl
@[simp] theorem State.setQueue_fab (s : State) (c q : Nat) (f : Queue → Queue) : (s.setQueue c q f).fab = s.fab := by unfold State.setQueue; split <;> rfl
@[simp] theorem State.setQueue_ctd (s : State) (c q : Nat) (f : Queue → Queue) : (s.setQueue c q f).ctd = s.ctd := by unfold State.setQueue; split <;> rfl
@[simp] theorem State.setQueue_job (s : State) (c q : Nat) (f : Queue → Queue) : (s.setQueue c q f).job = s.job := by unfold State.setQueue; split <;> rfl
@[simp] theorem State.setQueue_toll (s : State) (c q : Nat) (f : Queue → Queue) : (s.setQueue c q f).toll = s.toll := by unfold State.setQueue; split <;> rfl
@[simp] theorem State.setQueue_power (s : State) (c q : Nat) (f : Queue → Queue) : (s.setQueue c q f).power = s.power := by unfold State.setQueue; split <;> rfl
@[simp] theorem State.setQueue_mgmt (s : State) (c q : Nat) (f : Queue → Queue) : (s.setQueue c q f).mgmt = s.mgmt := by unfold State.setQueue; split <;> rfl
@[simp] theorem State.setQueue_i3c (s : State) (c q : Nat) (f : Queue → Queue) : (s.setQueue c q f).i3c = s.i3c := by unfold State.setQueue; split <;> rfl
@[simp] theorem State.setQueue_spdm (s : State) (c q : Nat) (f : Queue → Queue) : (s.setQueue c q f).spdm = s.spdm := by unfold State.setQueue; split <;> rfl
@[simp] theorem State.setQueue_free (s : State) (c q : Nat) (f : Queue → Queue) : (s.setQueue c q f).free = s.free := by unfold State.setQueue; split <;> rfl

@[simp] theorem State.setBarrier_pending (s : State) (b : Nat) (f : Barrier → Barrier) : (s.setBarrier b f).pending = s.pending := by unfold State.setBarrier; split <;> rfl
@[simp] theorem State.setBarrier_fuse (s : State) (b : Nat) (f : Barrier → Barrier) : (s.setBarrier b f).fuse = s.fuse := by unfold State.setBarrier; split <;> rfl
@[simp] theorem State.setBarrier_mod (s : State) (b : Nat) (f : Barrier → Barrier) : (s.setBarrier b f).mod = s.mod := by unfold State.setBarrier; split <;> rfl
@[simp] theorem State.setBarrier_ring (s : State) (b : Nat) (f : Barrier → Barrier) : (s.setBarrier b f).ring = s.ring := by unfold State.setBarrier; split <;> rfl
@[simp] theorem State.setBarrier_dies (s : State) (b : Nat) (f : Barrier → Barrier) : (s.setBarrier b f).dies = s.dies := by unfold State.setBarrier; split <;> rfl
@[simp] theorem State.setBarrier_bus (s : State) (b : Nat) (f : Barrier → Barrier) : (s.setBarrier b f).bus = s.bus := by unfold State.setBarrier; split <;> rfl
@[simp] theorem State.setBarrier_time (s : State) (b : Nat) (f : Barrier → Barrier) : (s.setBarrier b f).time = s.time := by unfold State.setBarrier; split <;> rfl
@[simp] theorem State.setBarrier_dieTime (s : State) (b : Nat) (f : Barrier → Barrier) : (s.setBarrier b f).dieTime = s.dieTime := by unfold State.setBarrier; split <;> rfl
@[simp] theorem State.setBarrier_sched (s : State) (b : Nat) (f : Barrier → Barrier) : (s.setBarrier b f).sched = s.sched := by unfold State.setBarrier; split <;> rfl
@[simp] theorem State.setBarrier_eng (s : State) (b : Nat) (f : Barrier → Barrier) : (s.setBarrier b f).eng = s.eng := by unfold State.setBarrier; split <;> rfl
@[simp] theorem State.setBarrier_mem (s : State) (b : Nat) (f : Barrier → Barrier) : (s.setBarrier b f).mem = s.mem := by unfold State.setBarrier; split <;> rfl
@[simp] theorem State.setBarrier_ledgers (s : State) (b : Nat) (f : Barrier → Barrier) : (s.setBarrier b f).ledgers = s.ledgers := by unfold State.setBarrier; split <;> rfl
@[simp] theorem State.setBarrier_obs (s : State) (b : Nat) (f : Barrier → Barrier) : (s.setBarrier b f).obs = s.obs := by unfold State.setBarrier; split <;> rfl
@[simp] theorem State.setBarrier_mbox (s : State) (b : Nat) (f : Barrier → Barrier) : (s.setBarrier b f).mbox = s.mbox := by unfold State.setBarrier; split <;> rfl
@[simp] theorem State.setBarrier_silent (s : State) (b : Nat) (f : Barrier → Barrier) : (s.setBarrier b f).silent = s.silent := by unfold State.setBarrier; split <;> rfl
@[simp] theorem State.setBarrier_ctd (s : State) (b : Nat) (f : Barrier → Barrier) : (s.setBarrier b f).ctd = s.ctd := by unfold State.setBarrier; split <;> rfl
@[simp] theorem State.setBarrier_job (s : State) (b : Nat) (f : Barrier → Barrier) : (s.setBarrier b f).job = s.job := by unfold State.setBarrier; split <;> rfl
@[simp] theorem State.setBarrier_toll (s : State) (b : Nat) (f : Barrier → Barrier) : (s.setBarrier b f).toll = s.toll := by unfold State.setBarrier; split <;> rfl
@[simp] theorem State.setBarrier_power (s : State) (b : Nat) (f : Barrier → Barrier) : (s.setBarrier b f).power = s.power := by unfold State.setBarrier; split <;> rfl
@[simp] theorem State.setBarrier_mgmt (s : State) (b : Nat) (f : Barrier → Barrier) : (s.setBarrier b f).mgmt = s.mgmt := by unfold State.setBarrier; split <;> rfl
@[simp] theorem State.setBarrier_i3c (s : State) (b : Nat) (f : Barrier → Barrier) : (s.setBarrier b f).i3c = s.i3c := by unfold State.setBarrier; split <;> rfl
@[simp] theorem State.setBarrier_spdm (s : State) (b : Nat) (f : Barrier → Barrier) : (s.setBarrier b f).spdm = s.spdm := by unfold State.setBarrier; split <;> rfl
@[simp] theorem State.setBarrier_free (s : State) (b : Nat) (f : Barrier → Barrier) : (s.setBarrier b f).free = s.free := by unfold State.setBarrier; split <;> rfl

@[simp] theorem State.setStarted_pending (s : State) (c q : Nat) (i : Word) (f : Started → Started) : (s.setStarted c q i f).pending = s.pending := by simp [State.setStarted]
@[simp] theorem State.setStarted_fuse (s : State) (c q : Nat) (i : Word) (f : Started → Started) : (s.setStarted c q i f).fuse = s.fuse := by simp [State.setStarted]
@[simp] theorem State.setStarted_mod (s : State) (c q : Nat) (i : Word) (f : Started → Started) : (s.setStarted c q i f).mod = s.mod := by simp [State.setStarted]
@[simp] theorem State.setStarted_ring (s : State) (c q : Nat) (i : Word) (f : Started → Started) : (s.setStarted c q i f).ring = s.ring := by simp [State.setStarted]
@[simp] theorem State.setStarted_dies (s : State) (c q : Nat) (i : Word) (f : Started → Started) : (s.setStarted c q i f).dies = s.dies := by simp [State.setStarted]
@[simp] theorem State.setStarted_bus (s : State) (c q : Nat) (i : Word) (f : Started → Started) : (s.setStarted c q i f).bus = s.bus := by simp [State.setStarted]
@[simp] theorem State.setStarted_time (s : State) (c q : Nat) (i : Word) (f : Started → Started) : (s.setStarted c q i f).time = s.time := by simp [State.setStarted]
@[simp] theorem State.setStarted_dieTime (s : State) (c q : Nat) (i : Word) (f : Started → Started) : (s.setStarted c q i f).dieTime = s.dieTime := by simp [State.setStarted]
@[simp] theorem State.setStarted_sched (s : State) (c q : Nat) (i : Word) (f : Started → Started) : (s.setStarted c q i f).sched = s.sched := by simp [State.setStarted]
@[simp] theorem State.setStarted_mem (s : State) (c q : Nat) (i : Word) (f : Started → Started) : (s.setStarted c q i f).mem = s.mem := by simp [State.setStarted]
@[simp] theorem State.setStarted_ledgers (s : State) (c q : Nat) (i : Word) (f : Started → Started) : (s.setStarted c q i f).ledgers = s.ledgers := by simp [State.setStarted]
@[simp] theorem State.setStarted_obs (s : State) (c q : Nat) (i : Word) (f : Started → Started) : (s.setStarted c q i f).obs = s.obs := by simp [State.setStarted]
@[simp] theorem State.setStarted_mbox (s : State) (c q : Nat) (i : Word) (f : Started → Started) : (s.setStarted c q i f).mbox = s.mbox := by simp [State.setStarted]
@[simp] theorem State.setStarted_silent (s : State) (c q : Nat) (i : Word) (f : Started → Started) : (s.setStarted c q i f).silent = s.silent := by simp [State.setStarted]
@[simp] theorem State.setStarted_fab (s : State) (c q : Nat) (i : Word) (f : Started → Started) : (s.setStarted c q i f).fab = s.fab := by simp [State.setStarted]
@[simp] theorem State.setStarted_ctd (s : State) (c q : Nat) (i : Word) (f : Started → Started) : (s.setStarted c q i f).ctd = s.ctd := by simp [State.setStarted]
@[simp] theorem State.setStarted_job (s : State) (c q : Nat) (i : Word) (f : Started → Started) : (s.setStarted c q i f).job = s.job := by simp [State.setStarted]
@[simp] theorem State.setStarted_toll (s : State) (c q : Nat) (i : Word) (f : Started → Started) : (s.setStarted c q i f).toll = s.toll := by simp [State.setStarted]
@[simp] theorem State.setStarted_power (s : State) (c q : Nat) (i : Word) (f : Started → Started) : (s.setStarted c q i f).power = s.power := by simp [State.setStarted]
@[simp] theorem State.setStarted_mgmt (s : State) (c q : Nat) (i : Word) (f : Started → Started) : (s.setStarted c q i f).mgmt = s.mgmt := by simp [State.setStarted]
@[simp] theorem State.setStarted_i3c (s : State) (c q : Nat) (i : Word) (f : Started → Started) : (s.setStarted c q i f).i3c = s.i3c := by simp [State.setStarted]
@[simp] theorem State.setStarted_spdm (s : State) (c q : Nat) (i : Word) (f : Started → Started) : (s.setStarted c q i f).spdm = s.spdm := by simp [State.setStarted]
@[simp] theorem State.setStarted_free (s : State) (c q : Nat) (i : Word) (f : Started → Started) : (s.setStarted c q i f).free = s.free := by simp [State.setStarted]

/-- A draw of a free value advances the counter only. -/
theorem State.draw_snd (s : State) (w : Nat) : (s.draw w).2 = { s with free := s.free + 1 } := rfl
@[simp] theorem State.draw_pending (s : State) (w : Nat) : (s.draw w).2.pending = s.pending := rfl
@[simp] theorem State.draw_fuse (s : State) (w : Nat) : (s.draw w).2.fuse = s.fuse := rfl
@[simp] theorem State.draw_mod (s : State) (w : Nat) : (s.draw w).2.mod = s.mod := rfl
@[simp] theorem State.draw_ring (s : State) (w : Nat) : (s.draw w).2.ring = s.ring := rfl
@[simp] theorem State.draw_dies (s : State) (w : Nat) : (s.draw w).2.dies = s.dies := rfl
@[simp] theorem State.draw_bus (s : State) (w : Nat) : (s.draw w).2.bus = s.bus := rfl
@[simp] theorem State.draw_time (s : State) (w : Nat) : (s.draw w).2.time = s.time := rfl
@[simp] theorem State.draw_dieTime (s : State) (w : Nat) : (s.draw w).2.dieTime = s.dieTime := rfl
@[simp] theorem State.draw_sched (s : State) (w : Nat) : (s.draw w).2.sched = s.sched := rfl
@[simp] theorem State.draw_eng (s : State) (w : Nat) : (s.draw w).2.eng = s.eng := rfl
@[simp] theorem State.draw_mem (s : State) (w : Nat) : (s.draw w).2.mem = s.mem := rfl
@[simp] theorem State.draw_ledgers (s : State) (w : Nat) : (s.draw w).2.ledgers = s.ledgers := rfl
@[simp] theorem State.draw_obs (s : State) (w : Nat) : (s.draw w).2.obs = s.obs := rfl
@[simp] theorem State.draw_mbox (s : State) (w : Nat) : (s.draw w).2.mbox = s.mbox := rfl
@[simp] theorem State.draw_silent (s : State) (w : Nat) : (s.draw w).2.silent = s.silent := rfl
@[simp] theorem State.draw_fab (s : State) (w : Nat) : (s.draw w).2.fab = s.fab := rfl
@[simp] theorem State.draw_ctd (s : State) (w : Nat) : (s.draw w).2.ctd = s.ctd := rfl
@[simp] theorem State.draw_job (s : State) (w : Nat) : (s.draw w).2.job = s.job := rfl
@[simp] theorem State.draw_toll (s : State) (w : Nat) : (s.draw w).2.toll = s.toll := rfl
@[simp] theorem State.draw_power (s : State) (w : Nat) : (s.draw w).2.power = s.power := rfl
@[simp] theorem State.draw_mgmt (s : State) (w : Nat) : (s.draw w).2.mgmt = s.mgmt := rfl
@[simp] theorem State.draw_i3c (s : State) (w : Nat) : (s.draw w).2.i3c = s.i3c := rfl
@[simp] theorem State.draw_spdm (s : State) (w : Nat) : (s.draw w).2.spdm = s.spdm := rfl

@[simp] theorem State.withLog_pending (s : State) (p : LogPart) : (s.withLog p).pending = s.pending := rfl
@[simp] theorem State.withLog_fuse (s : State) (p : LogPart) : (s.withLog p).fuse = s.fuse := rfl
@[simp] theorem State.withLog_mod (s : State) (p : LogPart) : (s.withLog p).mod = s.mod := rfl
@[simp] theorem State.withLog_ring (s : State) (p : LogPart) : (s.withLog p).ring = s.ring := rfl
@[simp] theorem State.withLog_bus (s : State) (p : LogPart) : (s.withLog p).bus = s.bus := rfl
@[simp] theorem State.withLog_time (s : State) (p : LogPart) : (s.withLog p).time = s.time := rfl
@[simp] theorem State.withLog_dieTime (s : State) (p : LogPart) : (s.withLog p).dieTime = s.dieTime := rfl
@[simp] theorem State.withLog_sched (s : State) (p : LogPart) : (s.withLog p).sched = s.sched := rfl
@[simp] theorem State.withLog_eng (s : State) (p : LogPart) : (s.withLog p).eng = s.eng := rfl
@[simp] theorem State.withLog_mem (s : State) (p : LogPart) : (s.withLog p).mem = s.mem := rfl
@[simp] theorem State.withLog_obs (s : State) (p : LogPart) : (s.withLog p).obs = s.obs := rfl
@[simp] theorem State.withLog_fab (s : State) (p : LogPart) : (s.withLog p).fab = s.fab := rfl
@[simp] theorem State.withLog_ctd (s : State) (p : LogPart) : (s.withLog p).ctd = s.ctd := rfl
@[simp] theorem State.withLog_job (s : State) (p : LogPart) : (s.withLog p).job = s.job := rfl
@[simp] theorem State.withLog_toll (s : State) (p : LogPart) : (s.withLog p).toll = s.toll := rfl
@[simp] theorem State.withLog_power (s : State) (p : LogPart) : (s.withLog p).power = s.power := rfl
@[simp] theorem State.withLog_mgmt (s : State) (p : LogPart) : (s.withLog p).mgmt = s.mgmt := rfl
@[simp] theorem State.withLog_i3c (s : State) (p : LogPart) : (s.withLog p).i3c = s.i3c := rfl
@[simp] theorem State.withLog_spdm (s : State) (p : LogPart) : (s.withLog p).spdm = s.spdm := rfl
@[simp] theorem State.withLog_free (s : State) (p : LogPart) : (s.withLog p).free = s.free := rfl

end Sys2Proof.Machine
end

