-- ==== Sys2Proof/Laws/Frames.lean ====
section
/-! SUPPORT. Frames of the shared operations: what logging, answering and reading damaged memory leave alone. Generated from the
fields of State. -/

namespace Sys2Proof.Machine

@[simp] theorem State.log_pending (s : State) (c v r : Nat) (ps : List Nat) : (s.log c v r ps).pending = s.pending := by
  unfold State.log; split <;> rfl
@[simp] theorem State.log_fuse (s : State) (c v r : Nat) (ps : List Nat) : (s.log c v r ps).fuse = s.fuse := by
  unfold State.log; split <;> rfl
@[simp] theorem State.log_mod (s : State) (c v r : Nat) (ps : List Nat) : (s.log c v r ps).mod = s.mod := by
  unfold State.log; split <;> rfl
@[simp] theorem State.log_ring (s : State) (c v r : Nat) (ps : List Nat) : (s.log c v r ps).ring = s.ring := by
  unfold State.log; split <;> rfl
@[simp] theorem State.log_bus (s : State) (c v r : Nat) (ps : List Nat) : (s.log c v r ps).bus = s.bus := by
  unfold State.log; split <;> rfl
@[simp] theorem State.log_time (s : State) (c v r : Nat) (ps : List Nat) : (s.log c v r ps).time = s.time := by
  unfold State.log; split <;> rfl
@[simp] theorem State.log_dieTime (s : State) (c v r : Nat) (ps : List Nat) : (s.log c v r ps).dieTime = s.dieTime := by
  unfold State.log; split <;> rfl
@[simp] theorem State.log_sched (s : State) (c v r : Nat) (ps : List Nat) : (s.log c v r ps).sched = s.sched := by
  unfold State.log; split <;> rfl
@[simp] theorem State.log_eng (s : State) (c v r : Nat) (ps : List Nat) : (s.log c v r ps).eng = s.eng := by
  unfold State.log; split <;> rfl
@[simp] theorem State.log_mem (s : State) (c v r : Nat) (ps : List Nat) : (s.log c v r ps).mem = s.mem := by
  unfold State.log; split <;> rfl
@[simp] theorem State.log_obs (s : State) (c v r : Nat) (ps : List Nat) : (s.log c v r ps).obs = s.obs := by
  unfold State.log; split <;> rfl
@[simp] theorem State.log_fab (s : State) (c v r : Nat) (ps : List Nat) : (s.log c v r ps).fab = s.fab := by
  unfold State.log; split <;> rfl
@[simp] theorem State.log_ctd (s : State) (c v r : Nat) (ps : List Nat) : (s.log c v r ps).ctd = s.ctd := by
  unfold State.log; split <;> rfl
@[simp] theorem State.log_job (s : State) (c v r : Nat) (ps : List Nat) : (s.log c v r ps).job = s.job := by
  unfold State.log; split <;> rfl
@[simp] theorem State.log_toll (s : State) (c v r : Nat) (ps : List Nat) : (s.log c v r ps).toll = s.toll := by
  unfold State.log; split <;> rfl
@[simp] theorem State.log_power (s : State) (c v r : Nat) (ps : List Nat) : (s.log c v r ps).power = s.power := by
  unfold State.log; split <;> rfl
@[simp] theorem State.log_mgmt (s : State) (c v r : Nat) (ps : List Nat) : (s.log c v r ps).mgmt = s.mgmt := by
  unfold State.log; split <;> rfl
@[simp] theorem State.log_i3c (s : State) (c v r : Nat) (ps : List Nat) : (s.log c v r ps).i3c = s.i3c := by
  unfold State.log; split <;> rfl
@[simp] theorem State.log_spdm (s : State) (c v r : Nat) (ps : List Nat) : (s.log c v r ps).spdm = s.spdm := by
  unfold State.log; split <;> rfl
@[simp] theorem State.log_free (s : State) (c v r : Nat) (ps : List Nat) : (s.log c v r ps).free = s.free := by
  unfold State.log; split <;> rfl

@[simp] theorem State.logFw_pending (s : State) (c v : Nat) (ps : List Nat) : (s.logFw c v ps).pending = s.pending := by
  simp [State.logFw]
@[simp] theorem State.logFw_fuse (s : State) (c v : Nat) (ps : List Nat) : (s.logFw c v ps).fuse = s.fuse := by
  simp [State.logFw]
@[simp] theorem State.logFw_mod (s : State) (c v : Nat) (ps : List Nat) : (s.logFw c v ps).mod = s.mod := by
  simp [State.logFw]
@[simp] theorem State.logFw_ring (s : State) (c v : Nat) (ps : List Nat) : (s.logFw c v ps).ring = s.ring := by
  simp [State.logFw]
@[simp] theorem State.logFw_bus (s : State) (c v : Nat) (ps : List Nat) : (s.logFw c v ps).bus = s.bus := by
  simp [State.logFw]
@[simp] theorem State.logFw_time (s : State) (c v : Nat) (ps : List Nat) : (s.logFw c v ps).time = s.time := by
  simp [State.logFw]
@[simp] theorem State.logFw_dieTime (s : State) (c v : Nat) (ps : List Nat) : (s.logFw c v ps).dieTime = s.dieTime := by
  simp [State.logFw]
@[simp] theorem State.logFw_sched (s : State) (c v : Nat) (ps : List Nat) : (s.logFw c v ps).sched = s.sched := by
  simp [State.logFw]
@[simp] theorem State.logFw_eng (s : State) (c v : Nat) (ps : List Nat) : (s.logFw c v ps).eng = s.eng := by
  simp [State.logFw]
@[simp] theorem State.logFw_mem (s : State) (c v : Nat) (ps : List Nat) : (s.logFw c v ps).mem = s.mem := by
  simp [State.logFw]
@[simp] theorem State.logFw_obs (s : State) (c v : Nat) (ps : List Nat) : (s.logFw c v ps).obs = s.obs := by
  simp [State.logFw]
@[simp] theorem State.logFw_fab (s : State) (c v : Nat) (ps : List Nat) : (s.logFw c v ps).fab = s.fab := by
  simp [State.logFw]
@[simp] theorem State.logFw_ctd (s : State) (c v : Nat) (ps : List Nat) : (s.logFw c v ps).ctd = s.ctd := by
  simp [State.logFw]
@[simp] theorem State.logFw_job (s : State) (c v : Nat) (ps : List Nat) : (s.logFw c v ps).job = s.job := by
  simp [State.logFw]
@[simp] theorem State.logFw_toll (s : State) (c v : Nat) (ps : List Nat) : (s.logFw c v ps).toll = s.toll := by
  simp [State.logFw]
@[simp] theorem State.logFw_power (s : State) (c v : Nat) (ps : List Nat) : (s.logFw c v ps).power = s.power := by
  simp [State.logFw]
@[simp] theorem State.logFw_mgmt (s : State) (c v : Nat) (ps : List Nat) : (s.logFw c v ps).mgmt = s.mgmt := by
  simp [State.logFw]
@[simp] theorem State.logFw_i3c (s : State) (c v : Nat) (ps : List Nat) : (s.logFw c v ps).i3c = s.i3c := by
  simp [State.logFw]
@[simp] theorem State.logFw_spdm (s : State) (c v : Nat) (ps : List Nat) : (s.logFw c v ps).spdm = s.spdm := by
  simp [State.logFw]
@[simp] theorem State.logFw_free (s : State) (c v : Nat) (ps : List Nat) : (s.logFw c v ps).free = s.free := by
  simp [State.logFw]

@[simp] theorem State.logTo_pending (s : State) (n c v r : Nat) (ps : List Nat) : (s.logTo n c v r ps).pending = s.pending := by
  rfl
@[simp] theorem State.logTo_fuse (s : State) (n c v r : Nat) (ps : List Nat) : (s.logTo n c v r ps).fuse = s.fuse := by
  rfl
@[simp] theorem State.logTo_mod (s : State) (n c v r : Nat) (ps : List Nat) : (s.logTo n c v r ps).mod = s.mod := by
  rfl
@[simp] theorem State.logTo_ring (s : State) (n c v r : Nat) (ps : List Nat) : (s.logTo n c v r ps).ring = s.ring := by
  rfl
@[simp] theorem State.logTo_bus (s : State) (n c v r : Nat) (ps : List Nat) : (s.logTo n c v r ps).bus = s.bus := by
  rfl
@[simp] theorem State.logTo_time (s : State) (n c v r : Nat) (ps : List Nat) : (s.logTo n c v r ps).time = s.time := by
  rfl
@[simp] theorem State.logTo_dieTime (s : State) (n c v r : Nat) (ps : List Nat) : (s.logTo n c v r ps).dieTime = s.dieTime := by
  rfl
@[simp] theorem State.logTo_sched (s : State) (n c v r : Nat) (ps : List Nat) : (s.logTo n c v r ps).sched = s.sched := by
  rfl
@[simp] theorem State.logTo_eng (s : State) (n c v r : Nat) (ps : List Nat) : (s.logTo n c v r ps).eng = s.eng := by
  rfl
@[simp] theorem State.logTo_mem (s : State) (n c v r : Nat) (ps : List Nat) : (s.logTo n c v r ps).mem = s.mem := by
  rfl
@[simp] theorem State.logTo_obs (s : State) (n c v r : Nat) (ps : List Nat) : (s.logTo n c v r ps).obs = s.obs := by
  rfl
@[simp] theorem State.logTo_fab (s : State) (n c v r : Nat) (ps : List Nat) : (s.logTo n c v r ps).fab = s.fab := by
  rfl
@[simp] theorem State.logTo_ctd (s : State) (n c v r : Nat) (ps : List Nat) : (s.logTo n c v r ps).ctd = s.ctd := by
  rfl
@[simp] theorem State.logTo_job (s : State) (n c v r : Nat) (ps : List Nat) : (s.logTo n c v r ps).job = s.job := by
  rfl
@[simp] theorem State.logTo_toll (s : State) (n c v r : Nat) (ps : List Nat) : (s.logTo n c v r ps).toll = s.toll := by
  rfl
@[simp] theorem State.logTo_power (s : State) (n c v r : Nat) (ps : List Nat) : (s.logTo n c v r ps).power = s.power := by
  rfl
@[simp] theorem State.logTo_mgmt (s : State) (n c v r : Nat) (ps : List Nat) : (s.logTo n c v r ps).mgmt = s.mgmt := by
  rfl
@[simp] theorem State.logTo_i3c (s : State) (n c v r : Nat) (ps : List Nat) : (s.logTo n c v r ps).i3c = s.i3c := by
  rfl
@[simp] theorem State.logTo_spdm (s : State) (n c v r : Nat) (ps : List Nat) : (s.logTo n c v r ps).spdm = s.spdm := by
  rfl
@[simp] theorem State.logTo_free (s : State) (n c v r : Nat) (ps : List Nat) : (s.logTo n c v r ps).free = s.free := by
  rfl

@[simp] theorem State.respond_pending (s : State) (w : Who) (b : Bool) (l : List Word) : (s.respond w b l).pending = s.pending := by
  unfold State.respond; dsimp only; split <;> rfl
@[simp] theorem State.respond_fuse (s : State) (w : Who) (b : Bool) (l : List Word) : (s.respond w b l).fuse = s.fuse := by
  unfold State.respond; dsimp only; split <;> rfl
@[simp] theorem State.respond_mod (s : State) (w : Who) (b : Bool) (l : List Word) : (s.respond w b l).mod = s.mod := by
  unfold State.respond; dsimp only; split <;> rfl
@[simp] theorem State.respond_ring (s : State) (w : Who) (b : Bool) (l : List Word) : (s.respond w b l).ring = s.ring := by
  unfold State.respond; dsimp only; split <;> rfl
@[simp] theorem State.respond_dies (s : State) (w : Who) (b : Bool) (l : List Word) : (s.respond w b l).dies = s.dies := by
  unfold State.respond; dsimp only; split <;> rfl
@[simp] theorem State.respond_bus (s : State) (w : Who) (b : Bool) (l : List Word) : (s.respond w b l).bus = s.bus := by
  unfold State.respond; dsimp only; split <;> rfl
@[simp] theorem State.respond_time (s : State) (w : Who) (b : Bool) (l : List Word) : (s.respond w b l).time = s.time := by
  unfold State.respond; dsimp only; split <;> rfl
@[simp] theorem State.respond_dieTime (s : State) (w : Who) (b : Bool) (l : List Word) : (s.respond w b l).dieTime = s.dieTime := by
  unfold State.respond; dsimp only; split <;> rfl
@[simp] theorem State.respond_sched (s : State) (w : Who) (b : Bool) (l : List Word) : (s.respond w b l).sched = s.sched := by
  unfold State.respond; dsimp only; split <;> rfl
@[simp] theorem State.respond_eng (s : State) (w : Who) (b : Bool) (l : List Word) : (s.respond w b l).eng = s.eng := by
  unfold State.respond; dsimp only; split <;> rfl
@[simp] theorem State.respond_mem (s : State) (w : Who) (b : Bool) (l : List Word) : (s.respond w b l).mem = s.mem := by
  unfold State.respond; dsimp only; split <;> rfl
@[simp] theorem State.respond_ledgers (s : State) (w : Who) (b : Bool) (l : List Word) : (s.respond w b l).ledgers = s.ledgers := by
  unfold State.respond; dsimp only; split <;> rfl
@[simp] theorem State.respond_obs (s : State) (w : Who) (b : Bool) (l : List Word) : (s.respond w b l).obs = s.obs := by
  unfold State.respond; dsimp only; split <;> rfl
@[simp] theorem State.respond_silent (s : State) (w : Who) (b : Bool) (l : List Word) : (s.respond w b l).silent = s.silent := by
  unfold State.respond; dsimp only; split <;> rfl
@[simp] theorem State.respond_fab (s : State) (w : Who) (b : Bool) (l : List Word) : (s.respond w b l).fab = s.fab := by
  unfold State.respond; dsimp only; split <;> rfl
@[simp] theorem State.respond_ctd (s : State) (w : Who) (b : Bool) (l : List Word) : (s.respond w b l).ctd = s.ctd := by
  unfold State.respond; dsimp only; split <;> rfl
@[simp] theorem State.respond_job (s : State) (w : Who) (b : Bool) (l : List Word) : (s.respond w b l).job = s.job := by
  unfold State.respond; dsimp only; split <;> rfl
@[simp] theorem State.respond_toll (s : State) (w : Who) (b : Bool) (l : List Word) : (s.respond w b l).toll = s.toll := by
  unfold State.respond; dsimp only; split <;> rfl
@[simp] theorem State.respond_power (s : State) (w : Who) (b : Bool) (l : List Word) : (s.respond w b l).power = s.power := by
  unfold State.respond; dsimp only; split <;> rfl
@[simp] theorem State.respond_mgmt (s : State) (w : Who) (b : Bool) (l : List Word) : (s.respond w b l).mgmt = s.mgmt := by
  unfold State.respond; dsimp only; split <;> rfl
@[simp] theorem State.respond_i3c (s : State) (w : Who) (b : Bool) (l : List Word) : (s.respond w b l).i3c = s.i3c := by
  unfold State.respond; dsimp only; split <;> rfl
@[simp] theorem State.respond_spdm (s : State) (w : Who) (b : Bool) (l : List Word) : (s.respond w b l).spdm = s.spdm := by
  unfold State.respond; dsimp only; split <;> rfl
@[simp] theorem State.respond_free (s : State) (w : Who) (b : Bool) (l : List Word) : (s.respond w b l).free = s.free := by
  unfold State.respond; dsimp only; split <;> rfl

@[simp] theorem State.respondRaw_pending (s : State) (c n p q : Nat) (b : Bool) (l : List Word) : (s.respondRaw c n p q b l).pending = s.pending := by
  rfl
@[simp] theorem State.respondRaw_fuse (s : State) (c n p q : Nat) (b : Bool) (l : List Word) : (s.respondRaw c n p q b l).fuse = s.fuse := by
  rfl
@[simp] theorem State.respondRaw_mod (s : State) (c n p q : Nat) (b : Bool) (l : List Word) : (s.respondRaw c n p q b l).mod = s.mod := by
  rfl
@[simp] theorem State.respondRaw_ring (s : State) (c n p q : Nat) (b : Bool) (l : List Word) : (s.respondRaw c n p q b l).ring = s.ring := by
  rfl
@[simp] theorem State.respondRaw_dies (s : State) (c n p q : Nat) (b : Bool) (l : List Word) : (s.respondRaw c n p q b l).dies = s.dies := by
  rfl
@[simp] theorem State.respondRaw_bus (s : State) (c n p q : Nat) (b : Bool) (l : List Word) : (s.respondRaw c n p q b l).bus = s.bus := by
  rfl
@[simp] theorem State.respondRaw_time (s : State) (c n p q : Nat) (b : Bool) (l : List Word) : (s.respondRaw c n p q b l).time = s.time := by
  rfl
@[simp] theorem State.respondRaw_dieTime (s : State) (c n p q : Nat) (b : Bool) (l : List Word) : (s.respondRaw c n p q b l).dieTime = s.dieTime := by
  rfl
@[simp] theorem State.respondRaw_sched (s : State) (c n p q : Nat) (b : Bool) (l : List Word) : (s.respondRaw c n p q b l).sched = s.sched := by
  rfl
@[simp] theorem State.respondRaw_eng (s : State) (c n p q : Nat) (b : Bool) (l : List Word) : (s.respondRaw c n p q b l).eng = s.eng := by
  rfl
@[simp] theorem State.respondRaw_mem (s : State) (c n p q : Nat) (b : Bool) (l : List Word) : (s.respondRaw c n p q b l).mem = s.mem := by
  rfl
@[simp] theorem State.respondRaw_ledgers (s : State) (c n p q : Nat) (b : Bool) (l : List Word) : (s.respondRaw c n p q b l).ledgers = s.ledgers := by
  rfl
@[simp] theorem State.respondRaw_obs (s : State) (c n p q : Nat) (b : Bool) (l : List Word) : (s.respondRaw c n p q b l).obs = s.obs := by
  rfl
@[simp] theorem State.respondRaw_silent (s : State) (c n p q : Nat) (b : Bool) (l : List Word) : (s.respondRaw c n p q b l).silent = s.silent := by
  rfl
@[simp] theorem State.respondRaw_fab (s : State) (c n p q : Nat) (b : Bool) (l : List Word) : (s.respondRaw c n p q b l).fab = s.fab := by
  rfl
@[simp] theorem State.respondRaw_ctd (s : State) (c n p q : Nat) (b : Bool) (l : List Word) : (s.respondRaw c n p q b l).ctd = s.ctd := by
  rfl
@[simp] theorem State.respondRaw_job (s : State) (c n p q : Nat) (b : Bool) (l : List Word) : (s.respondRaw c n p q b l).job = s.job := by
  rfl
@[simp] theorem State.respondRaw_toll (s : State) (c n p q : Nat) (b : Bool) (l : List Word) : (s.respondRaw c n p q b l).toll = s.toll := by
  rfl
@[simp] theorem State.respondRaw_power (s : State) (c n p q : Nat) (b : Bool) (l : List Word) : (s.respondRaw c n p q b l).power = s.power := by
  rfl
@[simp] theorem State.respondRaw_mgmt (s : State) (c n p q : Nat) (b : Bool) (l : List Word) : (s.respondRaw c n p q b l).mgmt = s.mgmt := by
  rfl
@[simp] theorem State.respondRaw_i3c (s : State) (c n p q : Nat) (b : Bool) (l : List Word) : (s.respondRaw c n p q b l).i3c = s.i3c := by
  rfl
@[simp] theorem State.respondRaw_spdm (s : State) (c n p q : Nat) (b : Bool) (l : List Word) : (s.respondRaw c n p q b l).spdm = s.spdm := by
  rfl
@[simp] theorem State.respondRaw_free (s : State) (c n p q : Nat) (b : Bool) (l : List Word) : (s.respondRaw c n p q b l).free = s.free := by
  rfl

@[simp] theorem State.logDarid_pending (s : State) (w : Who) (t d : Nat) : (s.logDarid w t d).pending = s.pending := by
  unfold State.logDarid; split <;> [rfl; (split <;> [simp; (split <;> simp)])]
@[simp] theorem State.logDarid_fuse (s : State) (w : Who) (t d : Nat) : (s.logDarid w t d).fuse = s.fuse := by
  unfold State.logDarid; split <;> [rfl; (split <;> [simp; (split <;> simp)])]
@[simp] theorem State.logDarid_mod (s : State) (w : Who) (t d : Nat) : (s.logDarid w t d).mod = s.mod := by
  unfold State.logDarid; split <;> [rfl; (split <;> [simp; (split <;> simp)])]
@[simp] theorem State.logDarid_ring (s : State) (w : Who) (t d : Nat) : (s.logDarid w t d).ring = s.ring := by
  unfold State.logDarid; split <;> [rfl; (split <;> [simp; (split <;> simp)])]
@[simp] theorem State.logDarid_bus (s : State) (w : Who) (t d : Nat) : (s.logDarid w t d).bus = s.bus := by
  unfold State.logDarid; split <;> [rfl; (split <;> [simp; (split <;> simp)])]
@[simp] theorem State.logDarid_time (s : State) (w : Who) (t d : Nat) : (s.logDarid w t d).time = s.time := by
  unfold State.logDarid; split <;> [rfl; (split <;> [simp; (split <;> simp)])]
@[simp] theorem State.logDarid_dieTime (s : State) (w : Who) (t d : Nat) : (s.logDarid w t d).dieTime = s.dieTime := by
  unfold State.logDarid; split <;> [rfl; (split <;> [simp; (split <;> simp)])]
@[simp] theorem State.logDarid_sched (s : State) (w : Who) (t d : Nat) : (s.logDarid w t d).sched = s.sched := by
  unfold State.logDarid; split <;> [rfl; (split <;> [simp; (split <;> simp)])]
@[simp] theorem State.logDarid_eng (s : State) (w : Who) (t d : Nat) : (s.logDarid w t d).eng = s.eng := by
  unfold State.logDarid; split <;> [rfl; (split <;> [simp; (split <;> simp)])]
@[simp] theorem State.logDarid_mem (s : State) (w : Who) (t d : Nat) : (s.logDarid w t d).mem = s.mem := by
  unfold State.logDarid; split <;> [rfl; (split <;> [simp; (split <;> simp)])]
@[simp] theorem State.logDarid_obs (s : State) (w : Who) (t d : Nat) : (s.logDarid w t d).obs = s.obs := by
  unfold State.logDarid; split <;> [rfl; (split <;> [simp; (split <;> simp)])]
@[simp] theorem State.logDarid_fab (s : State) (w : Who) (t d : Nat) : (s.logDarid w t d).fab = s.fab := by
  unfold State.logDarid; split <;> [rfl; (split <;> [simp; (split <;> simp)])]
@[simp] theorem State.logDarid_ctd (s : State) (w : Who) (t d : Nat) : (s.logDarid w t d).ctd = s.ctd := by
  unfold State.logDarid; split <;> [rfl; (split <;> [simp; (split <;> simp)])]
@[simp] theorem State.logDarid_job (s : State) (w : Who) (t d : Nat) : (s.logDarid w t d).job = s.job := by
  unfold State.logDarid; split <;> [rfl; (split <;> [simp; (split <;> simp)])]
@[simp] theorem State.logDarid_toll (s : State) (w : Who) (t d : Nat) : (s.logDarid w t d).toll = s.toll := by
  unfold State.logDarid; split <;> [rfl; (split <;> [simp; (split <;> simp)])]
@[simp] theorem State.logDarid_power (s : State) (w : Who) (t d : Nat) : (s.logDarid w t d).power = s.power := by
  unfold State.logDarid; split <;> [rfl; (split <;> [simp; (split <;> simp)])]
@[simp] theorem State.logDarid_mgmt (s : State) (w : Who) (t d : Nat) : (s.logDarid w t d).mgmt = s.mgmt := by
  unfold State.logDarid; split <;> [rfl; (split <;> [simp; (split <;> simp)])]
@[simp] theorem State.logDarid_i3c (s : State) (w : Who) (t d : Nat) : (s.logDarid w t d).i3c = s.i3c := by
  unfold State.logDarid; split <;> [rfl; (split <;> [simp; (split <;> simp)])]
@[simp] theorem State.logDarid_spdm (s : State) (w : Who) (t d : Nat) : (s.logDarid w t d).spdm = s.spdm := by
  unfold State.logDarid; split <;> [rfl; (split <;> [simp; (split <;> simp)])]
@[simp] theorem State.logDarid_free (s : State) (w : Who) (t d : Nat) : (s.logDarid w t d).free = s.free := by
  unfold State.logDarid; split <;> [rfl; (split <;> [simp; (split <;> simp)])]

@[simp] theorem State.finish_pending (s : State) (w : Who) (t d : Nat) (l : List Nat) : (s.finish w t d l).pending = s.pending := by
  unfold State.finish; dsimp only; split <;> [simp; (split <;> rfl)]
@[simp] theorem State.finish_fuse (s : State) (w : Who) (t d : Nat) (l : List Nat) : (s.finish w t d l).fuse = s.fuse := by
  unfold State.finish; dsimp only; split <;> [simp; (split <;> rfl)]
@[simp] theorem State.finish_mod (s : State) (w : Who) (t d : Nat) (l : List Nat) : (s.finish w t d l).mod = s.mod := by
  unfold State.finish; dsimp only; split <;> [simp; (split <;> rfl)]
@[simp] theorem State.finish_ring (s : State) (w : Who) (t d : Nat) (l : List Nat) : (s.finish w t d l).ring = s.ring := by
  unfold State.finish; dsimp only; split <;> [simp; (split <;> rfl)]
@[simp] theorem State.finish_bus (s : State) (w : Who) (t d : Nat) (l : List Nat) : (s.finish w t d l).bus = s.bus := by
  unfold State.finish; dsimp only; split <;> [simp; (split <;> rfl)]
@[simp] theorem State.finish_time (s : State) (w : Who) (t d : Nat) (l : List Nat) : (s.finish w t d l).time = s.time := by
  unfold State.finish; dsimp only; split <;> [simp; (split <;> rfl)]
@[simp] theorem State.finish_dieTime (s : State) (w : Who) (t d : Nat) (l : List Nat) : (s.finish w t d l).dieTime = s.dieTime := by
  unfold State.finish; dsimp only; split <;> [simp; (split <;> rfl)]
@[simp] theorem State.finish_sched (s : State) (w : Who) (t d : Nat) (l : List Nat) : (s.finish w t d l).sched = s.sched := by
  unfold State.finish; dsimp only; split <;> [simp; (split <;> rfl)]
@[simp] theorem State.finish_eng (s : State) (w : Who) (t d : Nat) (l : List Nat) : (s.finish w t d l).eng = s.eng := by
  unfold State.finish; dsimp only; split <;> [simp; (split <;> rfl)]
@[simp] theorem State.finish_mem (s : State) (w : Who) (t d : Nat) (l : List Nat) : (s.finish w t d l).mem = s.mem := by
  unfold State.finish; dsimp only; split <;> [simp; (split <;> rfl)]
@[simp] theorem State.finish_obs (s : State) (w : Who) (t d : Nat) (l : List Nat) : (s.finish w t d l).obs = s.obs := by
  unfold State.finish; dsimp only; split <;> [simp; (split <;> rfl)]
@[simp] theorem State.finish_fab (s : State) (w : Who) (t d : Nat) (l : List Nat) : (s.finish w t d l).fab = s.fab := by
  unfold State.finish; dsimp only; split <;> [simp; (split <;> rfl)]
@[simp] theorem State.finish_ctd (s : State) (w : Who) (t d : Nat) (l : List Nat) : (s.finish w t d l).ctd = s.ctd := by
  unfold State.finish; dsimp only; split <;> [simp; (split <;> rfl)]
@[simp] theorem State.finish_job (s : State) (w : Who) (t d : Nat) (l : List Nat) : (s.finish w t d l).job = s.job := by
  unfold State.finish; dsimp only; split <;> [simp; (split <;> rfl)]
@[simp] theorem State.finish_toll (s : State) (w : Who) (t d : Nat) (l : List Nat) : (s.finish w t d l).toll = s.toll := by
  unfold State.finish; dsimp only; split <;> [simp; (split <;> rfl)]
@[simp] theorem State.finish_power (s : State) (w : Who) (t d : Nat) (l : List Nat) : (s.finish w t d l).power = s.power := by
  unfold State.finish; dsimp only; split <;> [simp; (split <;> rfl)]
@[simp] theorem State.finish_mgmt (s : State) (w : Who) (t d : Nat) (l : List Nat) : (s.finish w t d l).mgmt = s.mgmt := by
  unfold State.finish; dsimp only; split <;> [simp; (split <;> rfl)]
@[simp] theorem State.finish_i3c (s : State) (w : Who) (t d : Nat) (l : List Nat) : (s.finish w t d l).i3c = s.i3c := by
  unfold State.finish; dsimp only; split <;> [simp; (split <;> rfl)]
@[simp] theorem State.finish_spdm (s : State) (w : Who) (t d : Nat) (l : List Nat) : (s.finish w t d l).spdm = s.spdm := by
  unfold State.finish; dsimp only; split <;> [simp; (split <;> rfl)]
@[simp] theorem State.finish_free (s : State) (w : Who) (t d : Nat) (l : List Nat) : (s.finish w t d l).free = s.free := by
  unfold State.finish; dsimp only; split <;> [simp; (split <;> rfl)]

@[simp] theorem answerDarid_pending (w : Who) (r : DRes) : (answerDarid w r).pending = r.s.pending := by
  unfold answerDarid; dsimp only; rw [State.respond_pending]; split <;> simp
@[simp] theorem answerDarid_fuse (w : Who) (r : DRes) : (answerDarid w r).fuse = r.s.fuse := by
  unfold answerDarid; dsimp only; rw [State.respond_fuse]; split <;> simp
@[simp] theorem answerDarid_mod (w : Who) (r : DRes) : (answerDarid w r).mod = r.s.mod := by
  unfold answerDarid; dsimp only; rw [State.respond_mod]; split <;> simp
@[simp] theorem answerDarid_ring (w : Who) (r : DRes) : (answerDarid w r).ring = r.s.ring := by
  unfold answerDarid; dsimp only; rw [State.respond_ring]; split <;> simp
@[simp] theorem answerDarid_bus (w : Who) (r : DRes) : (answerDarid w r).bus = r.s.bus := by
  unfold answerDarid; dsimp only; rw [State.respond_bus]; split <;> simp
@[simp] theorem answerDarid_time (w : Who) (r : DRes) : (answerDarid w r).time = r.s.time := by
  unfold answerDarid; dsimp only; rw [State.respond_time]; split <;> simp
@[simp] theorem answerDarid_dieTime (w : Who) (r : DRes) : (answerDarid w r).dieTime = r.s.dieTime := by
  unfold answerDarid; dsimp only; rw [State.respond_dieTime]; split <;> simp
@[simp] theorem answerDarid_sched (w : Who) (r : DRes) : (answerDarid w r).sched = r.s.sched := by
  unfold answerDarid; dsimp only; rw [State.respond_sched]; split <;> simp
@[simp] theorem answerDarid_eng (w : Who) (r : DRes) : (answerDarid w r).eng = r.s.eng := by
  unfold answerDarid; dsimp only; rw [State.respond_eng]; split <;> simp
@[simp] theorem answerDarid_mem (w : Who) (r : DRes) : (answerDarid w r).mem = r.s.mem := by
  unfold answerDarid; dsimp only; rw [State.respond_mem]; split <;> simp
@[simp] theorem answerDarid_obs (w : Who) (r : DRes) : (answerDarid w r).obs = r.s.obs := by
  unfold answerDarid; dsimp only; rw [State.respond_obs]; split <;> simp
@[simp] theorem answerDarid_fab (w : Who) (r : DRes) : (answerDarid w r).fab = r.s.fab := by
  unfold answerDarid; dsimp only; rw [State.respond_fab]; split <;> simp
@[simp] theorem answerDarid_ctd (w : Who) (r : DRes) : (answerDarid w r).ctd = r.s.ctd := by
  unfold answerDarid; dsimp only; rw [State.respond_ctd]; split <;> simp
@[simp] theorem answerDarid_job (w : Who) (r : DRes) : (answerDarid w r).job = r.s.job := by
  unfold answerDarid; dsimp only; rw [State.respond_job]; split <;> simp
@[simp] theorem answerDarid_toll (w : Who) (r : DRes) : (answerDarid w r).toll = r.s.toll := by
  unfold answerDarid; dsimp only; rw [State.respond_toll]; split <;> simp
@[simp] theorem answerDarid_power (w : Who) (r : DRes) : (answerDarid w r).power = r.s.power := by
  unfold answerDarid; dsimp only; rw [State.respond_power]; split <;> simp
@[simp] theorem answerDarid_mgmt (w : Who) (r : DRes) : (answerDarid w r).mgmt = r.s.mgmt := by
  unfold answerDarid; dsimp only; rw [State.respond_mgmt]; split <;> simp
@[simp] theorem answerDarid_i3c (w : Who) (r : DRes) : (answerDarid w r).i3c = r.s.i3c := by
  unfold answerDarid; dsimp only; rw [State.respond_i3c]; split <;> simp
@[simp] theorem answerDarid_spdm (w : Who) (r : DRes) : (answerDarid w r).spdm = r.s.spdm := by
  unfold answerDarid; dsimp only; rw [State.respond_spdm]; split <;> simp
@[simp] theorem answerDarid_free (w : Who) (r : DRes) : (answerDarid w r).free = r.s.free := by
  unfold answerDarid; dsimp only; rw [State.respond_free]; split <;> simp

@[simp] theorem State.countEv_pending (s : State) (d e i : Nat) (c : Option Nat) (n : Nat) : (s.countEv d e i c n).pending = s.pending := by
  rfl
@[simp] theorem State.countEv_fuse (s : State) (d e i : Nat) (c : Option Nat) (n : Nat) : (s.countEv d e i c n).fuse = s.fuse := by
  rfl
@[simp] theorem State.countEv_mod (s : State) (d e i : Nat) (c : Option Nat) (n : Nat) : (s.countEv d e i c n).mod = s.mod := by
  rfl
@[simp] theorem State.countEv_ring (s : State) (d e i : Nat) (c : Option Nat) (n : Nat) : (s.countEv d e i c n).ring = s.ring := by
  rfl
@[simp] theorem State.countEv_dies (s : State) (d e i : Nat) (c : Option Nat) (n : Nat) : (s.countEv d e i c n).dies = s.dies := by
  rfl
@[simp] theorem State.countEv_bus (s : State) (d e i : Nat) (c : Option Nat) (n : Nat) : (s.countEv d e i c n).bus = s.bus := by
  rfl
@[simp] theorem State.countEv_time (s : State) (d e i : Nat) (c : Option Nat) (n : Nat) : (s.countEv d e i c n).time = s.time := by
  rfl
@[simp] theorem State.countEv_dieTime (s : State) (d e i : Nat) (c : Option Nat) (n : Nat) : (s.countEv d e i c n).dieTime = s.dieTime := by
  rfl
@[simp] theorem State.countEv_sched (s : State) (d e i : Nat) (c : Option Nat) (n : Nat) : (s.countEv d e i c n).sched = s.sched := by
  rfl
@[simp] theorem State.countEv_eng (s : State) (d e i : Nat) (c : Option Nat) (n : Nat) : (s.countEv d e i c n).eng = s.eng := by
  rfl
@[simp] theorem State.countEv_mem (s : State) (d e i : Nat) (c : Option Nat) (n : Nat) : (s.countEv d e i c n).mem = s.mem := by
  rfl
@[simp] theorem State.countEv_ledgers (s : State) (d e i : Nat) (c : Option Nat) (n : Nat) : (s.countEv d e i c n).ledgers = s.ledgers := by
  rfl
@[simp] theorem State.countEv_mbox (s : State) (d e i : Nat) (c : Option Nat) (n : Nat) : (s.countEv d e i c n).mbox = s.mbox := by
  rfl
@[simp] theorem State.countEv_silent (s : State) (d e i : Nat) (c : Option Nat) (n : Nat) : (s.countEv d e i c n).silent = s.silent := by
  rfl
@[simp] theorem State.countEv_fab (s : State) (d e i : Nat) (c : Option Nat) (n : Nat) : (s.countEv d e i c n).fab = s.fab := by
  rfl
@[simp] theorem State.countEv_ctd (s : State) (d e i : Nat) (c : Option Nat) (n : Nat) : (s.countEv d e i c n).ctd = s.ctd := by
  rfl
@[simp] theorem State.countEv_job (s : State) (d e i : Nat) (c : Option Nat) (n : Nat) : (s.countEv d e i c n).job = s.job := by
  rfl
@[simp] theorem State.countEv_toll (s : State) (d e i : Nat) (c : Option Nat) (n : Nat) : (s.countEv d e i c n).toll = s.toll := by
  rfl
@[simp] theorem State.countEv_power (s : State) (d e i : Nat) (c : Option Nat) (n : Nat) : (s.countEv d e i c n).power = s.power := by
  rfl
@[simp] theorem State.countEv_mgmt (s : State) (d e i : Nat) (c : Option Nat) (n : Nat) : (s.countEv d e i c n).mgmt = s.mgmt := by
  rfl
@[simp] theorem State.countEv_i3c (s : State) (d e i : Nat) (c : Option Nat) (n : Nat) : (s.countEv d e i c n).i3c = s.i3c := by
  rfl
@[simp] theorem State.countEv_spdm (s : State) (d e i : Nat) (c : Option Nat) (n : Nat) : (s.countEv d e i c n).spdm = s.spdm := by
  rfl
@[simp] theorem State.countEv_free (s : State) (d e i : Nat) (c : Option Nat) (n : Nat) : (s.countEv d e i c n).free = s.free := by
  rfl

@[simp] theorem State.noteHusks_pending (s : State) (d n c a : Nat) : (s.noteHusks d n c a).pending = s.pending := by
  rfl
@[simp] theorem State.noteHusks_fuse (s : State) (d n c a : Nat) : (s.noteHusks d n c a).fuse = s.fuse := by
  rfl
@[simp] theorem State.noteHusks_mod (s : State) (d n c a : Nat) : (s.noteHusks d n c a).mod = s.mod := by
  rfl
@[simp] theorem State.noteHusks_ring (s : State) (d n c a : Nat) : (s.noteHusks d n c a).ring = s.ring := by
  rfl
@[simp] theorem State.noteHusks_dies (s : State) (d n c a : Nat) : (s.noteHusks d n c a).dies = s.dies := by
  rfl
@[simp] theorem State.noteHusks_bus (s : State) (d n c a : Nat) : (s.noteHusks d n c a).bus = s.bus := by
  rfl
@[simp] theorem State.noteHusks_time (s : State) (d n c a : Nat) : (s.noteHusks d n c a).time = s.time := by
  rfl
@[simp] theorem State.noteHusks_dieTime (s : State) (d n c a : Nat) : (s.noteHusks d n c a).dieTime = s.dieTime := by
  rfl
@[simp] theorem State.noteHusks_sched (s : State) (d n c a : Nat) : (s.noteHusks d n c a).sched = s.sched := by
  rfl
@[simp] theorem State.noteHusks_eng (s : State) (d n c a : Nat) : (s.noteHusks d n c a).eng = s.eng := by
  rfl
@[simp] theorem State.noteHusks_ledgers (s : State) (d n c a : Nat) : (s.noteHusks d n c a).ledgers = s.ledgers := by
  rfl
@[simp] theorem State.noteHusks_obs (s : State) (d n c a : Nat) : (s.noteHusks d n c a).obs = s.obs := by
  rfl
@[simp] theorem State.noteHusks_mbox (s : State) (d n c a : Nat) : (s.noteHusks d n c a).mbox = s.mbox := by
  rfl
@[simp] theorem State.noteHusks_silent (s : State) (d n c a : Nat) : (s.noteHusks d n c a).silent = s.silent := by
  rfl
@[simp] theorem State.noteHusks_fab (s : State) (d n c a : Nat) : (s.noteHusks d n c a).fab = s.fab := by
  rfl
@[simp] theorem State.noteHusks_ctd (s : State) (d n c a : Nat) : (s.noteHusks d n c a).ctd = s.ctd := by
  rfl
@[simp] theorem State.noteHusks_job (s : State) (d n c a : Nat) : (s.noteHusks d n c a).job = s.job := by
  rfl
@[simp] theorem State.noteHusks_toll (s : State) (d n c a : Nat) : (s.noteHusks d n c a).toll = s.toll := by
  rfl
@[simp] theorem State.noteHusks_power (s : State) (d n c a : Nat) : (s.noteHusks d n c a).power = s.power := by
  rfl
@[simp] theorem State.noteHusks_mgmt (s : State) (d n c a : Nat) : (s.noteHusks d n c a).mgmt = s.mgmt := by
  rfl
@[simp] theorem State.noteHusks_i3c (s : State) (d n c a : Nat) : (s.noteHusks d n c a).i3c = s.i3c := by
  rfl
@[simp] theorem State.noteHusks_spdm (s : State) (d n c a : Nat) : (s.noteHusks d n c a).spdm = s.spdm := by
  rfl
@[simp] theorem State.noteHusks_free (s : State) (d n c a : Nat) : (s.noteHusks d n c a).free = s.free := by
  rfl

@[simp] theorem State.noteCe_pending (s : State) (d t n : Nat) : (s.noteCe d t n).pending = s.pending := by
  unfold State.noteCe; split <;> [rfl; (dsimp only; rw [apply_ite State.pending]; simp)]
@[simp] theorem State.noteCe_fuse (s : State) (d t n : Nat) : (s.noteCe d t n).fuse = s.fuse := by
  unfold State.noteCe; split <;> [rfl; (dsimp only; rw [apply_ite State.fuse]; simp)]
@[simp] theorem State.noteCe_mod (s : State) (d t n : Nat) : (s.noteCe d t n).mod = s.mod := by
  unfold State.noteCe; split <;> [rfl; (dsimp only; rw [apply_ite State.mod]; simp)]
@[simp] theorem State.noteCe_ring (s : State) (d t n : Nat) : (s.noteCe d t n).ring = s.ring := by
  unfold State.noteCe; split <;> [rfl; (dsimp only; rw [apply_ite State.ring]; simp)]
@[simp] theorem State.noteCe_bus (s : State) (d t n : Nat) : (s.noteCe d t n).bus = s.bus := by
  unfold State.noteCe; split <;> [rfl; (dsimp only; rw [apply_ite State.bus]; simp)]
@[simp] theorem State.noteCe_time (s : State) (d t n : Nat) : (s.noteCe d t n).time = s.time := by
  unfold State.noteCe; split <;> [rfl; (dsimp only; rw [apply_ite State.time]; simp)]
@[simp] theorem State.noteCe_dieTime (s : State) (d t n : Nat) : (s.noteCe d t n).dieTime = s.dieTime := by
  unfold State.noteCe; split <;> [rfl; (dsimp only; rw [apply_ite State.dieTime]; simp)]
@[simp] theorem State.noteCe_sched (s : State) (d t n : Nat) : (s.noteCe d t n).sched = s.sched := by
  unfold State.noteCe; split <;> [rfl; (dsimp only; rw [apply_ite State.sched]; simp)]
@[simp] theorem State.noteCe_eng (s : State) (d t n : Nat) : (s.noteCe d t n).eng = s.eng := by
  unfold State.noteCe; split <;> [rfl; (dsimp only; rw [apply_ite State.eng]; simp)]
@[simp] theorem State.noteCe_fab (s : State) (d t n : Nat) : (s.noteCe d t n).fab = s.fab := by
  unfold State.noteCe; split <;> [rfl; (dsimp only; rw [apply_ite State.fab]; simp)]
@[simp] theorem State.noteCe_ctd (s : State) (d t n : Nat) : (s.noteCe d t n).ctd = s.ctd := by
  unfold State.noteCe; split <;> [rfl; (dsimp only; rw [apply_ite State.ctd]; simp)]
@[simp] theorem State.noteCe_job (s : State) (d t n : Nat) : (s.noteCe d t n).job = s.job := by
  unfold State.noteCe; split <;> [rfl; (dsimp only; rw [apply_ite State.job]; simp)]
@[simp] theorem State.noteCe_toll (s : State) (d t n : Nat) : (s.noteCe d t n).toll = s.toll := by
  unfold State.noteCe; split <;> [rfl; (dsimp only; rw [apply_ite State.toll]; simp)]
@[simp] theorem State.noteCe_power (s : State) (d t n : Nat) : (s.noteCe d t n).power = s.power := by
  unfold State.noteCe; split <;> [rfl; (dsimp only; rw [apply_ite State.power]; simp)]
@[simp] theorem State.noteCe_mgmt (s : State) (d t n : Nat) : (s.noteCe d t n).mgmt = s.mgmt := by
  unfold State.noteCe; split <;> [rfl; (dsimp only; rw [apply_ite State.mgmt]; simp)]
@[simp] theorem State.noteCe_i3c (s : State) (d t n : Nat) : (s.noteCe d t n).i3c = s.i3c := by
  unfold State.noteCe; split <;> [rfl; (dsimp only; rw [apply_ite State.i3c]; simp)]
@[simp] theorem State.noteCe_spdm (s : State) (d t n : Nat) : (s.noteCe d t n).spdm = s.spdm := by
  unfold State.noteCe; split <;> [rfl; (dsimp only; rw [apply_ite State.spdm]; simp)]
@[simp] theorem State.noteCe_free (s : State) (d t n : Nat) : (s.noteCe d t n).free = s.free := by
  unfold State.noteCe; split <;> [rfl; (dsimp only; rw [apply_ite State.free]; simp)]

/-- The second state differs from the first at most in what an interrupt message writes. -/
def State.Irqs (s t : State) : Prop := ∃ e m, t = { s with eng := e, mem := m }

theorem State.irqWrite_irqs (s : State) (a : Nat) (d : Word) : s.Irqs (s.irqWrite a d) := by
  unfold State.irqWrite
  dsimp only
  split
  · split
    · split <;> exact ⟨_, _, rfl⟩
    · split
      · split <;> exact ⟨_, _, rfl⟩
      · exact ⟨_, _, rfl⟩
  · exact ⟨_, _, rfl⟩

@[simp] theorem State.irqWrite_pending (s : State) (a : Nat) (d : Word) : (s.irqWrite a d).pending = s.pending := by
  obtain ⟨_, _, h⟩ := s.irqWrite_irqs a d; rw [h]
@[simp] theorem State.irqWrite_fuse (s : State) (a : Nat) (d : Word) : (s.irqWrite a d).fuse = s.fuse := by
  obtain ⟨_, _, h⟩ := s.irqWrite_irqs a d; rw [h]
@[simp] theorem State.irqWrite_mod (s : State) (a : Nat) (d : Word) : (s.irqWrite a d).mod = s.mod := by
  obtain ⟨_, _, h⟩ := s.irqWrite_irqs a d; rw [h]
@[simp] theorem State.irqWrite_ring (s : State) (a : Nat) (d : Word) : (s.irqWrite a d).ring = s.ring := by
  obtain ⟨_, _, h⟩ := s.irqWrite_irqs a d; rw [h]
@[simp] theorem State.irqWrite_dies (s : State) (a : Nat) (d : Word) : (s.irqWrite a d).dies = s.dies := by
  obtain ⟨_, _, h⟩ := s.irqWrite_irqs a d; rw [h]
@[simp] theorem State.irqWrite_bus (s : State) (a : Nat) (d : Word) : (s.irqWrite a d).bus = s.bus := by
  obtain ⟨_, _, h⟩ := s.irqWrite_irqs a d; rw [h]
@[simp] theorem State.irqWrite_time (s : State) (a : Nat) (d : Word) : (s.irqWrite a d).time = s.time := by
  obtain ⟨_, _, h⟩ := s.irqWrite_irqs a d; rw [h]
@[simp] theorem State.irqWrite_dieTime (s : State) (a : Nat) (d : Word) : (s.irqWrite a d).dieTime = s.dieTime := by
  obtain ⟨_, _, h⟩ := s.irqWrite_irqs a d; rw [h]
@[simp] theorem State.irqWrite_sched (s : State) (a : Nat) (d : Word) : (s.irqWrite a d).sched = s.sched := by
  obtain ⟨_, _, h⟩ := s.irqWrite_irqs a d; rw [h]
@[simp] theorem State.irqWrite_ledgers (s : State) (a : Nat) (d : Word) : (s.irqWrite a d).ledgers = s.ledgers := by
  obtain ⟨_, _, h⟩ := s.irqWrite_irqs a d; rw [h]
@[simp] theorem State.irqWrite_obs (s : State) (a : Nat) (d : Word) : (s.irqWrite a d).obs = s.obs := by
  obtain ⟨_, _, h⟩ := s.irqWrite_irqs a d; rw [h]
@[simp] theorem State.irqWrite_mbox (s : State) (a : Nat) (d : Word) : (s.irqWrite a d).mbox = s.mbox := by
  obtain ⟨_, _, h⟩ := s.irqWrite_irqs a d; rw [h]
@[simp] theorem State.irqWrite_silent (s : State) (a : Nat) (d : Word) : (s.irqWrite a d).silent = s.silent := by
  obtain ⟨_, _, h⟩ := s.irqWrite_irqs a d; rw [h]
@[simp] theorem State.irqWrite_fab (s : State) (a : Nat) (d : Word) : (s.irqWrite a d).fab = s.fab := by
  obtain ⟨_, _, h⟩ := s.irqWrite_irqs a d; rw [h]
@[simp] theorem State.irqWrite_ctd (s : State) (a : Nat) (d : Word) : (s.irqWrite a d).ctd = s.ctd := by
  obtain ⟨_, _, h⟩ := s.irqWrite_irqs a d; rw [h]
@[simp] theorem State.irqWrite_job (s : State) (a : Nat) (d : Word) : (s.irqWrite a d).job = s.job := by
  obtain ⟨_, _, h⟩ := s.irqWrite_irqs a d; rw [h]
@[simp] theorem State.irqWrite_toll (s : State) (a : Nat) (d : Word) : (s.irqWrite a d).toll = s.toll := by
  obtain ⟨_, _, h⟩ := s.irqWrite_irqs a d; rw [h]
@[simp] theorem State.irqWrite_power (s : State) (a : Nat) (d : Word) : (s.irqWrite a d).power = s.power := by
  obtain ⟨_, _, h⟩ := s.irqWrite_irqs a d; rw [h]
@[simp] theorem State.irqWrite_mgmt (s : State) (a : Nat) (d : Word) : (s.irqWrite a d).mgmt = s.mgmt := by
  obtain ⟨_, _, h⟩ := s.irqWrite_irqs a d; rw [h]
@[simp] theorem State.irqWrite_i3c (s : State) (a : Nat) (d : Word) : (s.irqWrite a d).i3c = s.i3c := by
  obtain ⟨_, _, h⟩ := s.irqWrite_irqs a d; rw [h]
@[simp] theorem State.irqWrite_spdm (s : State) (a : Nat) (d : Word) : (s.irqWrite a d).spdm = s.spdm := by
  obtain ⟨_, _, h⟩ := s.irqWrite_irqs a d; rw [h]
@[simp] theorem State.irqWrite_free (s : State) (a : Nat) (d : Word) : (s.irqWrite a d).free = s.free := by
  obtain ⟨_, _, h⟩ := s.irqWrite_irqs a d; rw [h]

@[simp] theorem State.logUe_pending (s : State) (x : Nat) (l : List Nat) (c : Nat) : (s.logUe x l c).pending = s.pending := by
  simp [State.logUe]
@[simp] theorem State.logUe_fuse (s : State) (x : Nat) (l : List Nat) (c : Nat) : (s.logUe x l c).fuse = s.fuse := by
  simp [State.logUe]
@[simp] theorem State.logUe_mod (s : State) (x : Nat) (l : List Nat) (c : Nat) : (s.logUe x l c).mod = s.mod := by
  simp [State.logUe]
@[simp] theorem State.logUe_ring (s : State) (x : Nat) (l : List Nat) (c : Nat) : (s.logUe x l c).ring = s.ring := by
  simp [State.logUe]
@[simp] theorem State.logUe_bus (s : State) (x : Nat) (l : List Nat) (c : Nat) : (s.logUe x l c).bus = s.bus := by
  simp [State.logUe]
@[simp] theorem State.logUe_time (s : State) (x : Nat) (l : List Nat) (c : Nat) : (s.logUe x l c).time = s.time := by
  simp [State.logUe]
@[simp] theorem State.logUe_dieTime (s : State) (x : Nat) (l : List Nat) (c : Nat) : (s.logUe x l c).dieTime = s.dieTime := by
  simp [State.logUe]
@[simp] theorem State.logUe_sched (s : State) (x : Nat) (l : List Nat) (c : Nat) : (s.logUe x l c).sched = s.sched := by
  simp [State.logUe]
@[simp] theorem State.logUe_eng (s : State) (x : Nat) (l : List Nat) (c : Nat) : (s.logUe x l c).eng = s.eng := by
  simp [State.logUe]
@[simp] theorem State.logUe_fab (s : State) (x : Nat) (l : List Nat) (c : Nat) : (s.logUe x l c).fab = s.fab := by
  simp [State.logUe]
@[simp] theorem State.logUe_ctd (s : State) (x : Nat) (l : List Nat) (c : Nat) : (s.logUe x l c).ctd = s.ctd := by
  simp [State.logUe]
@[simp] theorem State.logUe_job (s : State) (x : Nat) (l : List Nat) (c : Nat) : (s.logUe x l c).job = s.job := by
  simp [State.logUe]
@[simp] theorem State.logUe_toll (s : State) (x : Nat) (l : List Nat) (c : Nat) : (s.logUe x l c).toll = s.toll := by
  simp [State.logUe]
@[simp] theorem State.logUe_power (s : State) (x : Nat) (l : List Nat) (c : Nat) : (s.logUe x l c).power = s.power := by
  simp [State.logUe]
@[simp] theorem State.logUe_mgmt (s : State) (x : Nat) (l : List Nat) (c : Nat) : (s.logUe x l c).mgmt = s.mgmt := by
  simp [State.logUe]
@[simp] theorem State.logUe_i3c (s : State) (x : Nat) (l : List Nat) (c : Nat) : (s.logUe x l c).i3c = s.i3c := by
  simp [State.logUe]
@[simp] theorem State.logUe_spdm (s : State) (x : Nat) (l : List Nat) (c : Nat) : (s.logUe x l c).spdm = s.spdm := by
  simp [State.logUe]
@[simp] theorem State.logUe_free (s : State) (x : Nat) (l : List Nat) (c : Nat) : (s.logUe x l c).free = s.free := by
  simp [State.logUe]

@[simp] theorem State.cacheDamage_pending (s : State) (f : LineFlip) : (s.cacheDamage f).pending = s.pending := by
  unfold State.cacheDamage; split <;> [rfl; simp]
@[simp] theorem State.cacheDamage_fuse (s : State) (f : LineFlip) : (s.cacheDamage f).fuse = s.fuse := by
  unfold State.cacheDamage; split <;> [rfl; simp]
@[simp] theorem State.cacheDamage_mod (s : State) (f : LineFlip) : (s.cacheDamage f).mod = s.mod := by
  unfold State.cacheDamage; split <;> [rfl; simp]
@[simp] theorem State.cacheDamage_ring (s : State) (f : LineFlip) : (s.cacheDamage f).ring = s.ring := by
  unfold State.cacheDamage; split <;> [rfl; simp]
@[simp] theorem State.cacheDamage_bus (s : State) (f : LineFlip) : (s.cacheDamage f).bus = s.bus := by
  unfold State.cacheDamage; split <;> [rfl; simp]
@[simp] theorem State.cacheDamage_time (s : State) (f : LineFlip) : (s.cacheDamage f).time = s.time := by
  unfold State.cacheDamage; split <;> [rfl; simp]
@[simp] theorem State.cacheDamage_dieTime (s : State) (f : LineFlip) : (s.cacheDamage f).dieTime = s.dieTime := by
  unfold State.cacheDamage; split <;> [rfl; simp]
@[simp] theorem State.cacheDamage_sched (s : State) (f : LineFlip) : (s.cacheDamage f).sched = s.sched := by
  unfold State.cacheDamage; split <;> [rfl; simp]
@[simp] theorem State.cacheDamage_eng (s : State) (f : LineFlip) : (s.cacheDamage f).eng = s.eng := by
  unfold State.cacheDamage; split <;> [rfl; simp]
@[simp] theorem State.cacheDamage_fab (s : State) (f : LineFlip) : (s.cacheDamage f).fab = s.fab := by
  unfold State.cacheDamage; split <;> [rfl; simp]
@[simp] theorem State.cacheDamage_ctd (s : State) (f : LineFlip) : (s.cacheDamage f).ctd = s.ctd := by
  unfold State.cacheDamage; split <;> [rfl; simp]
@[simp] theorem State.cacheDamage_job (s : State) (f : LineFlip) : (s.cacheDamage f).job = s.job := by
  unfold State.cacheDamage; split <;> [rfl; simp]
@[simp] theorem State.cacheDamage_toll (s : State) (f : LineFlip) : (s.cacheDamage f).toll = s.toll := by
  unfold State.cacheDamage; split <;> [rfl; simp]
@[simp] theorem State.cacheDamage_power (s : State) (f : LineFlip) : (s.cacheDamage f).power = s.power := by
  unfold State.cacheDamage; split <;> [rfl; simp]
@[simp] theorem State.cacheDamage_mgmt (s : State) (f : LineFlip) : (s.cacheDamage f).mgmt = s.mgmt := by
  unfold State.cacheDamage; split <;> [rfl; simp]
@[simp] theorem State.cacheDamage_i3c (s : State) (f : LineFlip) : (s.cacheDamage f).i3c = s.i3c := by
  unfold State.cacheDamage; split <;> [rfl; simp]
@[simp] theorem State.cacheDamage_spdm (s : State) (f : LineFlip) : (s.cacheDamage f).spdm = s.spdm := by
  unfold State.cacheDamage; split <;> [rfl; simp]
@[simp] theorem State.cacheDamage_free (s : State) (f : LineFlip) : (s.cacheDamage f).free = s.free := by
  unfold State.cacheDamage; split <;> [rfl; simp]

@[simp] theorem State.lineBack_pending (s : State) (c : Nat) (f : LineFlip) (r : LineOut) : (s.lineBack c f r).pending = s.pending := by
  unfold State.lineBack; dsimp only; split <;> simp
@[simp] theorem State.lineBack_fuse (s : State) (c : Nat) (f : LineFlip) (r : LineOut) : (s.lineBack c f r).fuse = s.fuse := by
  unfold State.lineBack; dsimp only; split <;> simp
@[simp] theorem State.lineBack_mod (s : State) (c : Nat) (f : LineFlip) (r : LineOut) : (s.lineBack c f r).mod = s.mod := by
  unfold State.lineBack; dsimp only; split <;> simp
@[simp] theorem State.lineBack_ring (s : State) (c : Nat) (f : LineFlip) (r : LineOut) : (s.lineBack c f r).ring = s.ring := by
  unfold State.lineBack; dsimp only; split <;> simp
@[simp] theorem State.lineBack_bus (s : State) (c : Nat) (f : LineFlip) (r : LineOut) : (s.lineBack c f r).bus = s.bus := by
  unfold State.lineBack; dsimp only; split <;> simp
@[simp] theorem State.lineBack_time (s : State) (c : Nat) (f : LineFlip) (r : LineOut) : (s.lineBack c f r).time = s.time := by
  unfold State.lineBack; dsimp only; split <;> simp
@[simp] theorem State.lineBack_dieTime (s : State) (c : Nat) (f : LineFlip) (r : LineOut) : (s.lineBack c f r).dieTime = s.dieTime := by
  unfold State.lineBack; dsimp only; split <;> simp
@[simp] theorem State.lineBack_sched (s : State) (c : Nat) (f : LineFlip) (r : LineOut) : (s.lineBack c f r).sched = s.sched := by
  unfold State.lineBack; dsimp only; split <;> simp
@[simp] theorem State.lineBack_eng (s : State) (c : Nat) (f : LineFlip) (r : LineOut) : (s.lineBack c f r).eng = s.eng := by
  unfold State.lineBack; dsimp only; split <;> simp
@[simp] theorem State.lineBack_fab (s : State) (c : Nat) (f : LineFlip) (r : LineOut) : (s.lineBack c f r).fab = s.fab := by
  unfold State.lineBack; dsimp only; split <;> simp
@[simp] theorem State.lineBack_ctd (s : State) (c : Nat) (f : LineFlip) (r : LineOut) : (s.lineBack c f r).ctd = s.ctd := by
  unfold State.lineBack; dsimp only; split <;> simp
@[simp] theorem State.lineBack_job (s : State) (c : Nat) (f : LineFlip) (r : LineOut) : (s.lineBack c f r).job = s.job := by
  unfold State.lineBack; dsimp only; split <;> simp
@[simp] theorem State.lineBack_toll (s : State) (c : Nat) (f : LineFlip) (r : LineOut) : (s.lineBack c f r).toll = s.toll := by
  unfold State.lineBack; dsimp only; split <;> simp
@[simp] theorem State.lineBack_power (s : State) (c : Nat) (f : LineFlip) (r : LineOut) : (s.lineBack c f r).power = s.power := by
  unfold State.lineBack; dsimp only; split <;> simp
@[simp] theorem State.lineBack_mgmt (s : State) (c : Nat) (f : LineFlip) (r : LineOut) : (s.lineBack c f r).mgmt = s.mgmt := by
  unfold State.lineBack; dsimp only; split <;> simp
@[simp] theorem State.lineBack_i3c (s : State) (c : Nat) (f : LineFlip) (r : LineOut) : (s.lineBack c f r).i3c = s.i3c := by
  unfold State.lineBack; dsimp only; split <;> simp
@[simp] theorem State.lineBack_spdm (s : State) (c : Nat) (f : LineFlip) (r : LineOut) : (s.lineBack c f r).spdm = s.spdm := by
  unfold State.lineBack; dsimp only; split <;> simp
@[simp] theorem State.lineBack_free (s : State) (c : Nat) (f : LineFlip) (r : LineOut) : (s.lineBack c f r).free = s.free := by
  unfold State.lineBack; dsimp only; split <;> simp

@[simp] theorem State.storeBack_pending (s : State) (n : Nat) (r : LineOut) : (s.storeBack n r).pending = s.pending := by
  unfold State.storeBack; dsimp only; split <;> simp
@[simp] theorem State.storeBack_fuse (s : State) (n : Nat) (r : LineOut) : (s.storeBack n r).fuse = s.fuse := by
  unfold State.storeBack; dsimp only; split <;> simp
@[simp] theorem State.storeBack_mod (s : State) (n : Nat) (r : LineOut) : (s.storeBack n r).mod = s.mod := by
  unfold State.storeBack; dsimp only; split <;> simp
@[simp] theorem State.storeBack_ring (s : State) (n : Nat) (r : LineOut) : (s.storeBack n r).ring = s.ring := by
  unfold State.storeBack; dsimp only; split <;> simp
@[simp] theorem State.storeBack_bus (s : State) (n : Nat) (r : LineOut) : (s.storeBack n r).bus = s.bus := by
  unfold State.storeBack; dsimp only; split <;> simp
@[simp] theorem State.storeBack_time (s : State) (n : Nat) (r : LineOut) : (s.storeBack n r).time = s.time := by
  unfold State.storeBack; dsimp only; split <;> simp
@[simp] theorem State.storeBack_dieTime (s : State) (n : Nat) (r : LineOut) : (s.storeBack n r).dieTime = s.dieTime := by
  unfold State.storeBack; dsimp only; split <;> simp
@[simp] theorem State.storeBack_sched (s : State) (n : Nat) (r : LineOut) : (s.storeBack n r).sched = s.sched := by
  unfold State.storeBack; dsimp only; split <;> simp
@[simp] theorem State.storeBack_eng (s : State) (n : Nat) (r : LineOut) : (s.storeBack n r).eng = s.eng := by
  unfold State.storeBack; dsimp only; split <;> simp
@[simp] theorem State.storeBack_fab (s : State) (n : Nat) (r : LineOut) : (s.storeBack n r).fab = s.fab := by
  unfold State.storeBack; dsimp only; split <;> simp
@[simp] theorem State.storeBack_ctd (s : State) (n : Nat) (r : LineOut) : (s.storeBack n r).ctd = s.ctd := by
  unfold State.storeBack; dsimp only; split <;> simp
@[simp] theorem State.storeBack_job (s : State) (n : Nat) (r : LineOut) : (s.storeBack n r).job = s.job := by
  unfold State.storeBack; dsimp only; split <;> simp
@[simp] theorem State.storeBack_toll (s : State) (n : Nat) (r : LineOut) : (s.storeBack n r).toll = s.toll := by
  unfold State.storeBack; dsimp only; split <;> simp
@[simp] theorem State.storeBack_power (s : State) (n : Nat) (r : LineOut) : (s.storeBack n r).power = s.power := by
  unfold State.storeBack; dsimp only; split <;> simp
@[simp] theorem State.storeBack_mgmt (s : State) (n : Nat) (r : LineOut) : (s.storeBack n r).mgmt = s.mgmt := by
  unfold State.storeBack; dsimp only; split <;> simp
@[simp] theorem State.storeBack_i3c (s : State) (n : Nat) (r : LineOut) : (s.storeBack n r).i3c = s.i3c := by
  unfold State.storeBack; dsimp only; split <;> simp
@[simp] theorem State.storeBack_spdm (s : State) (n : Nat) (r : LineOut) : (s.storeBack n r).spdm = s.spdm := by
  unfold State.storeBack; dsimp only; split <;> simp
@[simp] theorem State.storeBack_free (s : State) (n : Nat) (r : LineOut) : (s.storeBack n r).free = s.free := by
  unfold State.storeBack; dsimp only; split <;> simp

@[simp] theorem State.damage_pending (s : State) (c : Nat) (f : LineFlip) : (s.damage c f).pending = s.pending := by
  unfold State.damage; dsimp only; split <;> simp
@[simp] theorem State.damage_fuse (s : State) (c : Nat) (f : LineFlip) : (s.damage c f).fuse = s.fuse := by
  unfold State.damage; dsimp only; split <;> simp
@[simp] theorem State.damage_mod (s : State) (c : Nat) (f : LineFlip) : (s.damage c f).mod = s.mod := by
  unfold State.damage; dsimp only; split <;> simp
@[simp] theorem State.damage_ring (s : State) (c : Nat) (f : LineFlip) : (s.damage c f).ring = s.ring := by
  unfold State.damage; dsimp only; split <;> simp
@[simp] theorem State.damage_bus (s : State) (c : Nat) (f : LineFlip) : (s.damage c f).bus = s.bus := by
  unfold State.damage; dsimp only; split <;> simp
@[simp] theorem State.damage_time (s : State) (c : Nat) (f : LineFlip) : (s.damage c f).time = s.time := by
  unfold State.damage; dsimp only; split <;> simp
@[simp] theorem State.damage_dieTime (s : State) (c : Nat) (f : LineFlip) : (s.damage c f).dieTime = s.dieTime := by
  unfold State.damage; dsimp only; split <;> simp
@[simp] theorem State.damage_sched (s : State) (c : Nat) (f : LineFlip) : (s.damage c f).sched = s.sched := by
  unfold State.damage; dsimp only; split <;> simp
@[simp] theorem State.damage_eng (s : State) (c : Nat) (f : LineFlip) : (s.damage c f).eng = s.eng := by
  unfold State.damage; dsimp only; split <;> simp
@[simp] theorem State.damage_fab (s : State) (c : Nat) (f : LineFlip) : (s.damage c f).fab = s.fab := by
  unfold State.damage; dsimp only; split <;> simp
@[simp] theorem State.damage_ctd (s : State) (c : Nat) (f : LineFlip) : (s.damage c f).ctd = s.ctd := by
  unfold State.damage; dsimp only; split <;> simp
@[simp] theorem State.damage_job (s : State) (c : Nat) (f : LineFlip) : (s.damage c f).job = s.job := by
  unfold State.damage; dsimp only; split <;> simp
@[simp] theorem State.damage_toll (s : State) (c : Nat) (f : LineFlip) : (s.damage c f).toll = s.toll := by
  unfold State.damage; dsimp only; split <;> simp
@[simp] theorem State.damage_power (s : State) (c : Nat) (f : LineFlip) : (s.damage c f).power = s.power := by
  unfold State.damage; dsimp only; split <;> simp
@[simp] theorem State.damage_mgmt (s : State) (c : Nat) (f : LineFlip) : (s.damage c f).mgmt = s.mgmt := by
  unfold State.damage; dsimp only; split <;> simp
@[simp] theorem State.damage_i3c (s : State) (c : Nat) (f : LineFlip) : (s.damage c f).i3c = s.i3c := by
  unfold State.damage; dsimp only; split <;> simp
@[simp] theorem State.damage_spdm (s : State) (c : Nat) (f : LineFlip) : (s.damage c f).spdm = s.spdm := by
  unfold State.damage; dsimp only; split <;> simp
@[simp] theorem State.damage_free (s : State) (c : Nat) (f : LineFlip) : (s.damage c f).free = s.free := by
  unfold State.damage; dsimp only; split <;> simp

@[simp] theorem State.damages_pending (s : State) (c : Nat) (l : List LineFlip) : (s.damages c l).pending = s.pending := by
  unfold State.damages; induction l generalizing s with
  | nil => rfl
  | cons a r ih => rw [List.foldl_cons, ih, State.damage_pending]
@[simp] theorem State.damages_fuse (s : State) (c : Nat) (l : List LineFlip) : (s.damages c l).fuse = s.fuse := by
  unfold State.damages; induction l generalizing s with
  | nil => rfl
  | cons a r ih => rw [List.foldl_cons, ih, State.damage_fuse]
@[simp] theorem State.damages_mod (s : State) (c : Nat) (l : List LineFlip) : (s.damages c l).mod = s.mod := by
  unfold State.damages; induction l generalizing s with
  | nil => rfl
  | cons a r ih => rw [List.foldl_cons, ih, State.damage_mod]
@[simp] theorem State.damages_ring (s : State) (c : Nat) (l : List LineFlip) : (s.damages c l).ring = s.ring := by
  unfold State.damages; induction l generalizing s with
  | nil => rfl
  | cons a r ih => rw [List.foldl_cons, ih, State.damage_ring]
@[simp] theorem State.damages_bus (s : State) (c : Nat) (l : List LineFlip) : (s.damages c l).bus = s.bus := by
  unfold State.damages; induction l generalizing s with
  | nil => rfl
  | cons a r ih => rw [List.foldl_cons, ih, State.damage_bus]
@[simp] theorem State.damages_time (s : State) (c : Nat) (l : List LineFlip) : (s.damages c l).time = s.time := by
  unfold State.damages; induction l generalizing s with
  | nil => rfl
  | cons a r ih => rw [List.foldl_cons, ih, State.damage_time]
@[simp] theorem State.damages_dieTime (s : State) (c : Nat) (l : List LineFlip) : (s.damages c l).dieTime = s.dieTime := by
  unfold State.damages; induction l generalizing s with
  | nil => rfl
  | cons a r ih => rw [List.foldl_cons, ih, State.damage_dieTime]
@[simp] theorem State.damages_sched (s : State) (c : Nat) (l : List LineFlip) : (s.damages c l).sched = s.sched := by
  unfold State.damages; induction l generalizing s with
  | nil => rfl
  | cons a r ih => rw [List.foldl_cons, ih, State.damage_sched]
@[simp] theorem State.damages_eng (s : State) (c : Nat) (l : List LineFlip) : (s.damages c l).eng = s.eng := by
  unfold State.damages; induction l generalizing s with
  | nil => rfl
  | cons a r ih => rw [List.foldl_cons, ih, State.damage_eng]
@[simp] theorem State.damages_fab (s : State) (c : Nat) (l : List LineFlip) : (s.damages c l).fab = s.fab := by
  unfold State.damages; induction l generalizing s with
  | nil => rfl
  | cons a r ih => rw [List.foldl_cons, ih, State.damage_fab]
@[simp] theorem State.damages_ctd (s : State) (c : Nat) (l : List LineFlip) : (s.damages c l).ctd = s.ctd := by
  unfold State.damages; induction l generalizing s with
  | nil => rfl
  | cons a r ih => rw [List.foldl_cons, ih, State.damage_ctd]
@[simp] theorem State.damages_job (s : State) (c : Nat) (l : List LineFlip) : (s.damages c l).job = s.job := by
  unfold State.damages; induction l generalizing s with
  | nil => rfl
  | cons a r ih => rw [List.foldl_cons, ih, State.damage_job]
@[simp] theorem State.damages_toll (s : State) (c : Nat) (l : List LineFlip) : (s.damages c l).toll = s.toll := by
  unfold State.damages; induction l generalizing s with
  | nil => rfl
  | cons a r ih => rw [List.foldl_cons, ih, State.damage_toll]
@[simp] theorem State.damages_power (s : State) (c : Nat) (l : List LineFlip) : (s.damages c l).power = s.power := by
  unfold State.damages; induction l generalizing s with
  | nil => rfl
  | cons a r ih => rw [List.foldl_cons, ih, State.damage_power]
@[simp] theorem State.damages_mgmt (s : State) (c : Nat) (l : List LineFlip) : (s.damages c l).mgmt = s.mgmt := by
  unfold State.damages; induction l generalizing s with
  | nil => rfl
  | cons a r ih => rw [List.foldl_cons, ih, State.damage_mgmt]
@[simp] theorem State.damages_i3c (s : State) (c : Nat) (l : List LineFlip) : (s.damages c l).i3c = s.i3c := by
  unfold State.damages; induction l generalizing s with
  | nil => rfl
  | cons a r ih => rw [List.foldl_cons, ih, State.damage_i3c]
@[simp] theorem State.damages_spdm (s : State) (c : Nat) (l : List LineFlip) : (s.damages c l).spdm = s.spdm := by
  unfold State.damages; induction l generalizing s with
  | nil => rfl
  | cons a r ih => rw [List.foldl_cons, ih, State.damage_spdm]
@[simp] theorem State.damages_free (s : State) (c : Nat) (l : List LineFlip) : (s.damages c l).free = s.free := by
  unfold State.damages; induction l generalizing s with
  | nil => rfl
  | cons a r ih => rw [List.foldl_cons, ih, State.damage_free]

end Sys2Proof.Machine
end

