-- ==== Sys2Proof/Laws/Maps.lean ====
section
/-! SUPPORT. Tables, lists and bytes: what reading after writing gives. -/

namespace Sys2Proof.Machine

/-! ### Tables -/

theorem lookup_pair (j k : Nat) (v : α) (r : SMap α) : List.lookup j ((k, v) :: r) = if j = k then some v else r.lookup j := by
  rw [List.lookup_cons]
  by_cases h : j = k
  · simp [h]
  · have : (j == k) = false := by simp [h]
    simp [h, this]

theorem lookup_mput (m : SMap α) (k j : Nat) (v : α) : (mput m k v).lookup j = if j = k then some v else m.lookup j := by
  induction m with
  | nil => simp [mput, lookup_pair]
  | cons e r ih =>
    obtain ⟨i, w⟩ := e
    simp only [mput]
    by_cases h1 : k < i
    · simp only [h1, if_true, lookup_pair]
    · by_cases h2 : k = i
      · subst h2; simp only [h1, if_false, if_true, lookup_pair]; by_cases h : j = k <;> simp [h]
      · simp only [h1, h2, if_false, lookup_pair, ih]
        by_cases h : j = i
        · subst h; simp [Ne.symm h2]
        · simp [h]

@[simp] theorem lookup_mput_self (m : SMap α) (k : Nat) (v : α) : (mput m k v).lookup k = some v := by simp [lookup_mput]

theorem lookup_mput_ne {m : SMap α} {k j : Nat} {v : α} (h : j ≠ k) : (mput m k v).lookup j = m.lookup j := by
  simp [lookup_mput, h]

theorem mget_mput (d : α) (m : SMap α) (k j : Nat) (v : α) : mget d (mput m k v) j = if j = k then v else mget d m j := by
  simp only [mget, lookup_mput]; split <;> rfl

@[simp] theorem mget_mmod_self (d : α) (m : SMap α) (k : Nat) (f : α → α) : mget d (mmod d m k f) k = f (mget d m k) := by
  simp [mmod, mget_mput]

theorem mget_mmod_ne {d : α} {m : SMap α} {k j : Nat} {f : α → α} (h : j ≠ k) : mget d (mmod d m k f) j = mget d m j := by
  simp [mmod, mget_mput, h]

/-! ### Lists -/

@[simp] theorem length_lmod (l : List α) (n : Nat) (f : α → α) : (lmod l n f).length = l.length := by
  induction l generalizing n with
  | nil => rfl
  | cons a r ih => cases n <;> simp [lmod, ih]

theorem getElem?_lmod (l : List α) (n i : Nat) (f : α → α) : (lmod l n f)[i]? = if i = n then l[i]?.map f else l[i]? := by
  induction l generalizing n i with
  | nil => simp [lmod]
  | cons a r ih =>
    cases n with
    | zero => cases i <;> simp [lmod]
    | succ n => cases i <;> simp [lmod, ih]

theorem getD_lmod_self {l : List α} {n : Nat} {f : α → α} {d : α} (h : n < l.length) : (lmod l n f).getD n d = f (l.getD n d) := by
  rw [List.getD, List.getD, getElem?_lmod, if_pos rfl, List.getElem?_eq_getElem h]; rfl

theorem getD_lmod_ne {l : List α} {n i : Nat} {f : α → α} {d : α} (h : i ≠ n) : (lmod l n f).getD i d = l.getD i d := by
  rw [List.getD, List.getD, getElem?_lmod, if_neg h]

/-! ### Bytes -/

@[simp] theorem length_leBytes (n x : Nat) : (leBytes n x).length = n := by
  induction n generalizing x with
  | zero => rfl
  | succ n ih => simp [leBytes, ih]

theorem ofLe_leBytes (n x : Nat) : ofLe (leBytes n x) = x % 256 ^ n := by
  induction n generalizing x with
  | zero => simp [leBytes, ofLe, Nat.mod_one]
  | succ n ih =>
    simp only [leBytes, ofLe, ih, BitVec.toNat_ofNat, Nat.pow_succ]
    rw [Nat.mul_comm (256 ^ n) 256, Nat.mod_mul (a := 256)]

/-! ### Units of the state -/

theorem State.die_setDie_self {s : State} {d : Nat} {f : DieSt → DieSt} (h : d < s.dies.length) :
    (s.setDie d f).die d = f (s.die d) := getD_lmod_self h
theorem State.die_setDie_ne {s : State} {d e : Nat} {f : DieSt → DieSt} (h : e ≠ d) : (s.setDie d f).die e = s.die e :=
  getD_lmod_ne h
theorem State.ctdOf_setCtd_self {s : State} {c : Nat} {f : Ctd → Ctd} (h : c < s.ctd.ctds.length) :
    (s.setCtd c f).ctdOf c = f (s.ctdOf c) := getD_lmod_self h
theorem State.ctdOf_setCtd_ne {s : State} {c e : Nat} {f : Ctd → Ctd} (h : e ≠ c) : (s.setCtd c f).ctdOf e = s.ctdOf e :=
  getD_lmod_ne h
theorem State.port_setPort_self {s : State} {p : Nat} {f : PortSt → PortSt} (h : p < s.fab.ports.length) :
    (s.setPort p f).port p = f (s.port p) := getD_lmod_self h
theorem State.port_setPort_ne {s : State} {p e : Nat} {f : PortSt → PortSt} (h : e ≠ p) : (s.setPort p f).port e = s.port e :=
  getD_lmod_ne h
@[simp] theorem State.chan_setChan_self (s : State) (c n : Nat) (f : Channel → Channel) :
    (s.setChan c n f).chan c n = f (s.chan c n) := mget_mmod_self ..
theorem State.chan_setChan_ne {s : State} {c n e m : Nat} {f : Channel → Channel} (h : 512 * e + m ≠ 512 * c + n) :
    (s.setChan c n f).chan e m = s.chan e m := mget_mmod_ne h
@[simp] theorem State.ctx_setCtx_self (s : State) (c : Nat) (f : Ctx → Ctx) : (s.setCtx c f).ctx c = f (s.ctx c) :=
  mget_mmod_self ..
theorem State.ctx_setCtx_ne {s : State} {c e : Nat} {f : Ctx → Ctx} (h : e ≠ c) : (s.setCtx c f).ctx e = s.ctx e :=
  mget_mmod_ne h
@[simp] theorem State.engine_setEng_self (s : State) (j : Nat) (f : EngSt → EngSt) :
    (s.setEng j f).engine j = f (s.engine j) := mget_mmod_self ..
theorem State.engine_setEng_ne {s : State} {j e : Nat} {f : EngSt → EngSt} (h : e ≠ j) :
    (s.setEng j f).engine e = s.engine e := mget_mmod_ne h
theorem State.queue_setQueue_self {s : State} {c q : Nat} {f : Queue → Queue} :
    (s.setQueue c q f).queue? c q = (s.queue? c q).map f := by
  unfold State.setQueue
  split
  · next x h => simp [State.queue?] at h ⊢; simp [h]
  · next h => simp [h]
theorem State.queue_setQueue_ne {s : State} {c q d p : Nat} {f : Queue → Queue} (h : 64 * d + p ≠ 64 * c + q) :
    (s.setQueue c q f).queue? d p = s.queue? d p := by
  unfold State.setQueue
  split
  · exact lookup_mput_ne h
  · rfl

end Sys2Proof.Machine
end

