-- ==== Sys2Proof/Laws/Memory.lean ====
section
/-! SUPPORT. Byte stores: reading after writing, and that every operation keeps the canonical form. -/

namespace Sys2Proof.Machine

/-! ### One byte -/

theorem cellsWf_mono {l : List Host.Cell} {lo hi : Nat} (h : cellsWf hi l = true) (hl : lo ≤ hi) : cellsWf lo l = true := by
  cases l with
  | nil => rfl
  | cons e r =>
    obtain ⟨a, b⟩ := e
    simp only [cellsWf, Bool.and_eq_true, decide_eq_true_eq] at h ⊢
    exact ⟨⟨by omega, h.1.2⟩, h.2⟩

theorem lookup_none_of_wf {l : List Host.Cell} {lo a : Nat} (h : cellsWf lo l = true) (ha : a < lo) : l.lookup a = none := by
  induction l generalizing lo with
  | nil => rfl
  | cons e r ih =>
    obtain ⟨j, w⟩ := e
    simp only [cellsWf, Bool.and_eq_true, decide_eq_true_eq] at h
    rw [lookup_pair, if_neg (by omega)]
    exact ih h.2 (by omega)

/-- A byte written keeps the canonical form. -/
theorem cellsWf_cellPut {l : List Host.Cell} {lo a : Nat} (b : Byte) (h : cellsWf lo l = true) (ha : lo ≤ a) :
    cellsWf lo (cellPut l a b) = true := by
  induction l generalizing lo with
  | nil => by_cases hb : b = 0#8 <;> simp [cellPut, hb, cellsWf, ha]
  | cons e r ih =>
    obtain ⟨j, w⟩ := e
    have h' := h
    simp only [cellsWf, Bool.and_eq_true, decide_eq_true_eq] at h'
    obtain ⟨⟨h1, h2⟩, h3⟩ := h'
    simp only [cellPut]
    by_cases c1 : a < j
    · simp only [c1, if_true]
      by_cases hb : b = 0#8
      · simpa [hb] using h
      · rw [if_neg (show ¬ b = 0 from hb)]; simp only [cellsWf, Bool.and_eq_true, decide_eq_true_eq, bne_iff_ne, ne_eq]
        exact ⟨⟨ha, hb⟩, ⟨by omega, by simpa using h2⟩, h3⟩
    · by_cases c2 : a = j
      · subst c2
        simp only [c1, if_false, if_true]
        by_cases hb : b = 0#8
        · rw [if_pos (show b = 0 from hb)]; exact cellsWf_mono h3 (by omega)
        · rw [if_neg (show ¬ b = 0 from hb)]; simp only [cellsWf, Bool.and_eq_true, decide_eq_true_eq, bne_iff_ne, ne_eq]
          exact ⟨⟨ha, hb⟩, h3⟩
      · simp only [c1, c2, if_false, cellsWf, Bool.and_eq_true, decide_eq_true_eq]
        exact ⟨⟨h1, h2⟩, ih h3 (by omega)⟩

/-- A byte written is read back, and every other byte is as before. -/
theorem cellGet_cellPut {l : List Host.Cell} {lo a : Nat} (b : Byte) (x : Nat) (h : cellsWf lo l = true) :
    cellGet (cellPut l a b) x = if x = a then b else cellGet l x := by
  induction l generalizing lo with
  | nil =>
    by_cases hb : b = 0#8 <;> by_cases hx : x = a <;> simp [cellPut, cellGet, lookup_pair, hb, hx]
  | cons e r ih =>
    obtain ⟨j, w⟩ := e
    have h' := h
    simp only [cellsWf, Bool.and_eq_true, decide_eq_true_eq] at h'
    obtain ⟨⟨h1, h2⟩, h3⟩ := h'
    simp only [cellPut]
    by_cases c1 : a < j
    · simp only [c1, if_true]
      have hn : ((j, w) :: r).lookup a = none := by
        have : cellsWf j ((j, w) :: r) = true := by simp only [cellsWf, Bool.and_eq_true, decide_eq_true_eq]; exact ⟨⟨le_refl _, h2⟩, h3⟩
        exact lookup_none_of_wf this c1
      by_cases hb : b = 0#8
      · by_cases hx : x = a
        · subst hx; simp [hb, cellGet, hn]
        · simp [hb, hx]
      · by_cases hx : x = a
        · subst hx; simp [hb, cellGet]
        · rw [if_neg (show ¬ b = 0 from hb)]; simp only [hx, if_false, cellGet]; rw [lookup_pair, if_neg hx]
    · by_cases c2 : a = j
      · subst c2
        simp only [c1, if_false, if_true]
        have hn : r.lookup a = none := lookup_none_of_wf h3 (by omega)
        by_cases hx : x = a
        · subst hx
          by_cases hb : b = 0#8 <;> simp [hb, cellGet, hn]
        · by_cases hb : b = 0#8 <;> simp [hb, cellGet, lookup_pair, hx]
      · simp only [c1, c2, if_false]
        have := ih h3
        by_cases hx : x = j
        · subst hx
          have : ¬ x = a := by omega
          simp [cellGet, this]
        · simp only [cellGet, lookup_pair, hx, if_false] at this ⊢
          exact this

/-! ### Runs of bytes -/

theorem cellsWf_cellsPut {l : List Host.Cell} {a : Nat} (b : List Byte) (h : cellsWf 0 l = true) :
    cellsWf 0 (cellsPut l a b) = true := by
  induction b generalizing l a with
  | nil => exact h
  | cons x r ih => exact ih (cellsWf_cellPut x h (Nat.zero_le _))

/-- Bytes written are read back, and every byte outside them is as before. -/
theorem cellGet_cellsPut {l : List Host.Cell} {a : Nat} (b : List Byte) (x : Nat) (h : cellsWf 0 l = true) :
    cellGet (cellsPut l a b) x = if a ≤ x ∧ x < a + b.length then b.getD (x - a) 0 else cellGet l x := by
  induction b generalizing l a with
  | nil => simp [cellsPut]
  | cons y r ih =>
    simp only [cellsPut, ih (cellsWf_cellPut y h (Nat.zero_le _)), cellGet_cellPut y x h, List.length_cons]
    by_cases h1 : x = a
    · subst h1
      have : ¬ (x + 1 ≤ x ∧ x < x + 1 + r.length) := by omega
      rw [if_neg this]
      simp
    · by_cases h2 : a + 1 ≤ x ∧ x < a + 1 + r.length
      · have : a ≤ x ∧ x < a + (r.length + 1) := by omega
        rw [if_pos h2, if_pos this]
        have : x - a = (x - (a + 1)) + 1 := by omega
        rw [this]; rfl
      · have : ¬ (a ≤ x ∧ x < a + (r.length + 1)) := by omega
        rw [if_neg h2, if_neg this, if_neg h1]

/-- Cells taken out keep the canonical form. -/
theorem cellsWf_filter {l : List Host.Cell} {lo : Nat} (p : Host.Cell → Bool) (h : cellsWf lo l = true) :
    cellsWf lo (l.filter p) = true := by
  induction l generalizing lo with
  | nil => rfl
  | cons e r ih =>
    obtain ⟨j, w⟩ := e
    simp only [cellsWf, Bool.and_eq_true, decide_eq_true_eq] at h
    by_cases hp : p (j, w) = true
    · simp only [List.filter_cons, hp, if_true, cellsWf, Bool.and_eq_true, decide_eq_true_eq]
      exact ⟨h.1, ih h.2⟩
    · simp only [List.filter_cons, hp, if_false, Bool.false_eq_true]
      exact cellsWf_mono (ih h.2) (by omega)

/-! ### Husk marks -/

theorem husksWf_mono {l : List Nat} {lo hi : Nat} (h : husksWf hi l = true) (hl : lo ≤ hi) : husksWf lo l = true := by
  cases l with
  | nil => rfl
  | cons a r => simp only [husksWf, Bool.and_eq_true, decide_eq_true_eq] at h ⊢; exact ⟨by omega, h.2⟩

theorem husksWf_huskAdd {l : List Nat} {lo k : Nat} (h : husksWf lo l = true) (hk : lo ≤ k) : husksWf lo (huskAdd l k) = true := by
  induction l generalizing lo with
  | nil => simp [huskAdd, husksWf, hk]
  | cons a r ih =>
    have h' := h
    simp only [husksWf, Bool.and_eq_true, decide_eq_true_eq] at h'
    simp only [huskAdd]
    by_cases c1 : k < a
    · simp only [c1, if_true, husksWf, Bool.and_eq_true, decide_eq_true_eq]; exact ⟨hk, by omega, h'.2⟩
    · by_cases c2 : k = a
      · subst c2; simpa using h
      · simp only [c1, c2, if_false, husksWf, Bool.and_eq_true, decide_eq_true_eq]; exact ⟨h'.1, ih h'.2 (by omega)⟩

theorem husksWf_filter {l : List Nat} {lo : Nat} (p : Nat → Bool) (h : husksWf lo l = true) : husksWf lo (l.filter p) = true := by
  induction l generalizing lo with
  | nil => rfl
  | cons a r ih =>
    simp only [husksWf, Bool.and_eq_true, decide_eq_true_eq] at h
    by_cases hp : p a = true
    · simp only [List.filter_cons, hp, if_true, husksWf, Bool.and_eq_true, decide_eq_true_eq]; exact ⟨h.1, ih h.2⟩
    · simp only [List.filter_cons, hp, if_false, Bool.false_eq_true]; exact husksWf_mono (ih h.2) (by omega)

theorem husksWf_huskDel {l : List Nat} {lo k : Nat} (h : husksWf lo l = true) : husksWf lo (huskDel l k) = true :=
  husksWf_filter _ h

@[simp] theorem mem_huskAdd {l : List Nat} {j k : Nat} : j ∈ huskAdd l k ↔ j = k ∨ j ∈ l := by
  induction l with
  | nil => simp [huskAdd]
  | cons a r ih =>
    simp only [huskAdd]
    split
    · simp
    · split
      · next h => subst h; simp
      · simp only [List.mem_cons, ih]; tauto

@[simp] theorem mem_huskDel {l : List Nat} {j k : Nat} : j ∈ huskDel l k ↔ j ∈ l ∧ j ≠ k := by simp [huskDel]

theorem husksWf_range {n : Nat} (p : Nat → Bool) : husksWf 0 ((List.range n).filter p) = true := by
  apply husksWf_filter
  suffices ∀ k, husksWf k (List.range' k n) = true by rw [List.range_eq_range']; exact this 0
  induction n with
  | zero => intro k; rfl
  | succ n ih => intro k; simp [List.range'_succ, husksWf, ih (k + 1)]

/-! ### Memories -/

theorem Mem.wf_iff {m : Mem} : m.wf = true ↔ cellsWf 0 m.cells = true ∧ husksWf 0 m.husks = true := by simp [Mem.wf]

theorem Mem.wf_husk {m : Mem} (k : Nat) (h : m.wf = true) : (m.husk k).wf = true := by
  rw [Mem.wf_iff] at h
  unfold Mem.husk
  rw [Mem.wf_iff]
  generalize List.replicate 32 (0 : Byte) = z
  exact ⟨cellsWf_cellsPut z h.1, husksWf_huskAdd h.2 (Nat.zero_le _)⟩

theorem Mem.wf_put {m : Mem} (a k : Nat) (b : List Byte) (h : m.wf = true) :
    Mem.wf { cells := cellsPut m.cells a b, husks := huskDel m.husks k } = true := by
  rw [Mem.wf_iff] at h ⊢
  exact ⟨cellsWf_cellsPut _ h.1, husksWf_huskDel h.2⟩

theorem Mem.wf_writeSector {m : Mem} (k a : Nat) (b : List Byte) (x : Bool) (h : m.wf = true) :
    (m.writeSector k a b x).wf = true := by
  unfold Mem.writeSector
  split
  · exact Mem.wf_husk k h
  · split
    · exact h
    · exact Mem.wf_put a k b h

/-- A write under R196 keeps the canonical form. -/
theorem Mem.wf_write {m : Mem} (a : Nat) (b : List Byte) (bad : List Nat) (h : m.wf = true) : (m.write a b bad).wf = true := by
  unfold Mem.write
  generalize sectors a b.length = l
  induction l generalizing m with
  | nil => exact h
  | cons k r ih => exact ih (Mem.wf_writeSector _ _ _ _ h)

/-- So does a write that clears husks. -/
theorem Mem.wf_writeClear {m : Mem} (a : Nat) (b : List Byte) (h : m.wf = true) : (m.writeClear a b).wf = true := by
  rw [Mem.wf_iff] at h ⊢
  refine ⟨cellsWf_cellsPut _ h.1, ?_⟩
  show husksWf 0 ((sectors a b.length).foldl huskDel m.husks) = true
  generalize sectors a b.length = l
  have h2 := h.2
  generalize m.husks = u at h2
  induction l generalizing u with
  | nil => exact h2
  | cons k r ih => exact ih _ (husksWf_huskDel h2)

/-- And so does taking out what a test does not keep: initialisation, clearing, the loss of a die's tile store. -/
theorem Mem.wf_filter {m : Mem} (p : Host.Cell → Bool) (q : Nat → Bool) (h : m.wf = true) :
    Mem.wf { cells := m.cells.filter p, husks := m.husks.filter q } = true := by
  rw [Mem.wf_iff] at h ⊢
  exact ⟨cellsWf_filter p h.1, husksWf_filter q h.2⟩

/-- The husk fill of lost stacks (R206). -/
theorem Mem.wf_fill {m : Mem} (p : Host.Cell → Bool) (q : Nat → Bool) (n : Nat) (h : m.wf = true) :
    Mem.wf { cells := m.cells.filter p, husks := (List.range n).filter q } = true := by
  rw [Mem.wf_iff] at h ⊢
  exact ⟨cellsWf_filter p h.1, husksWf_range q⟩

/-- The memories after reset are canonical. -/
theorem reset_memWf : State.reset.memWf = true := rfl

end Sys2Proof.Machine
end

