-- ==== Sys2Proof/Laws/Keeps.lean ====
section
/-! SUPPORT. What no part of a step changes: fuses, the waiting commands, the canonical form of the memories and the range of the
servo's threshold. Each shared operation keeps them; a proof about all steps goes through these. -/

namespace Sys2Proof.Machine

/-- The second state has the fuses and the waiting commands of the first; its memories are canonical and its threshold is in the
range of R70 if the first one's are. -/
def Keeps (s t : State) : Prop :=
  t.fuse = s.fuse ∧ t.pending = s.pending ∧ (s.memWf = true → t.memWf = true) ∧
    (1000 ≤ s.time.thresh ∧ s.time.thresh ≤ 1000000 → 1000 ≤ t.time.thresh ∧ t.time.thresh ≤ 1000000)

theorem Keeps.refl (s : State) : Keeps s s := ⟨rfl, rfl, id, id⟩

theorem Keeps.trans {s t u : State} (h : Keeps s t) (k : Keeps t u) : Keeps s u :=
  ⟨k.1.trans h.1, k.2.1.trans h.2.1, k.2.2.1 ∘ h.2.2.1, k.2.2.2 ∘ h.2.2.2⟩

/-- A state that differs elsewhere only. -/
theorem Keeps.of_eq {s t : State} (h1 : t.fuse = s.fuse) (h2 : t.pending = s.pending) (h3 : t.mem = s.mem)
    (h4 : t.time.thresh = s.time.thresh) : Keeps s t :=
  ⟨h1, h2, by simp [State.memWf, h3], by rw [h4]; exact id⟩

theorem Keeps.foldl {f : State → α → State} (l : List α) (h : ∀ s a, Keeps s (f s a)) (s : State) : Keeps s (l.foldl f s) := by
  induction l generalizing s with
  | nil => exact Keeps.refl s
  | cons a r ih => exact (h s a).trans (ih _)

theorem Keeps.ite {c : Prop} [Decidable c] {s t u : State} (h : Keeps s t) (k : Keeps s u) : Keeps s (if c then t else u) := by
  split <;> assumption

/-! ### The setters -/

theorem Keeps.setDie (s : State) (d : Nat) (f : DieSt → DieSt) : Keeps s (s.setDie d f) := Keeps.of_eq rfl rfl rfl rfl
theorem Keeps.setCtd (s : State) (d : Nat) (f : Ctd → Ctd) : Keeps s (s.setCtd d f) := Keeps.of_eq rfl rfl rfl rfl
theorem Keeps.setPort (s : State) (d : Nat) (f : PortSt → PortSt) : Keeps s (s.setPort d f) := Keeps.of_eq rfl rfl rfl rfl
theorem Keeps.setLease (s : State) (f : Lease → Lease) : Keeps s (s.setLease f) := Keeps.of_eq rfl rfl rfl rfl
theorem Keeps.setChan (s : State) (c n : Nat) (f : Channel → Channel) : Keeps s (s.setChan c n f) := Keeps.of_eq rfl rfl rfl rfl
theorem Keeps.setDt (s : State) (d : Nat) (f : DieTime → DieTime) : Keeps s (s.setDt d f) := Keeps.of_eq rfl rfl rfl rfl
theorem Keeps.setCtx (s : State) (c : Nat) (f : Ctx → Ctx) : Keeps s (s.setCtx c f) := Keeps.of_eq rfl rfl rfl rfl
theorem Keeps.setEng (s : State) (j : Nat) (f : EngSt → EngSt) : Keeps s (s.setEng j f) := Keeps.of_eq rfl rfl rfl rfl
theorem Keeps.setQueue (s : State) (c q : Nat) (f : Queue → Queue) : Keeps s (s.setQueue c q f) :=
  Keeps.of_eq (by simp) (by simp) (by simp) (by simp)
theorem Keeps.setStarted (s : State) (c q : Nat) (i : Word) (f : Started → Started) : Keeps s (s.setStarted c q i f) :=
  Keeps.of_eq (by simp) (by simp) (by simp) (by simp)
theorem Keeps.setSem (s : State) (k : Nat) (v : Word) : Keeps s (s.setSem k v) := Keeps.of_eq rfl rfl rfl rfl
theorem Keeps.setTag (s : State) (k : Nat) (f : Tag → Tag) : Keeps s (s.setTag k f) := Keeps.of_eq rfl rfl rfl rfl
theorem Keeps.setSv (s : State) (k : Nat) (f : SvEng → SvEng) : Keeps s (s.setSv k f) := Keeps.of_eq rfl rfl rfl rfl
theorem Keeps.setTx (s : State) (r c : Nat) (f : SendFlow → SendFlow) : Keeps s (s.setTx r c f) := Keeps.of_eq rfl rfl rfl rfl
theorem Keeps.setRx (s : State) (r c : Nat) (f : RecvFlow → RecvFlow) : Keeps s (s.setRx r c f) := Keeps.of_eq rfl rfl rfl rfl
theorem Keeps.setWg (s : State) (d : Nat) (f : WgDie → WgDie) : Keeps s (s.setWg d f) := Keeps.of_eq rfl rfl rfl rfl
theorem Keeps.setSnap (s : State) (c : Nat) (f : Snapshot → Snapshot) : Keeps s (s.setSnap c f) := Keeps.of_eq rfl rfl rfl rfl
theorem Keeps.setFill (s : State) (c : Nat) (f : Fill → Fill) : Keeps s (s.setFill c f) := Keeps.of_eq rfl rfl rfl rfl
theorem Keeps.setCellar (s : State) (p : Nat) (f : CellarPort → CellarPort) : Keeps s (s.setCellar p f) := Keeps.of_eq rfl rfl rfl rfl
theorem Keeps.setLedger (s : State) (c : Nat) (f : Ledger → Ledger) : Keeps s (s.setLedger c f) := Keeps.of_eq rfl rfl rfl rfl
theorem Keeps.setCounters (s : State) (d : Nat) (f : Counters → Counters) : Keeps s (s.setCounters d f) := Keeps.of_eq rfl rfl rfl rfl
theorem Keeps.setPow (s : State) (d : Nat) (f : PowDie → PowDie) : Keeps s (s.setPow d f) := Keeps.of_eq rfl rfl rfl rfl
theorem Keeps.setSched (s : State) (n : Nat) (e : SchedEntry) : Keeps s (s.setSched n e) := Keeps.of_eq rfl rfl rfl rfl
theorem Keeps.setMemDie (s : State) (d : Nat) (f : MemDie → MemDie) : Keeps s (s.setMemDie d f) := ⟨rfl, rfl, id, id⟩
theorem Keeps.setStack (s : State) (d : Nat) (f : StackSt → StackSt) : Keeps s (s.setStack d f) := ⟨rfl, rfl, id, id⟩
theorem Keeps.answer (s : State) (v : BitVec 64) : Keeps s (s.answer v) := Keeps.of_eq rfl rfl rfl rfl
theorem Keeps.fail (s : State) (e : AccErr) : Keeps s (s.fail e) := Keeps.of_eq rfl rfl rfl rfl
theorem Keeps.draw (s : State) (w : Nat) : Keeps s (s.draw w).2 := Keeps.of_eq rfl rfl rfl rfl

/-- A change of main memory that keeps the form. -/
theorem Keeps.setMem {s : State} {f : Mem → Mem} (h : ∀ m : Mem, m.wf = true → (f m).wf = true) : Keeps s (s.setMem f) := by
  refine ⟨rfl, rfl, fun hm => ?_, id⟩
  simp only [State.memWf, Bool.and_eq_true] at hm ⊢
  exact ⟨h _ hm.1, hm.2⟩

/-- The same for the tile stores. -/
theorem Keeps.setStore {s : State} {f : Mem → Mem} (h : ∀ m : Mem, m.wf = true → (f m).wf = true) : Keeps s (s.setStore f) := by
  refine ⟨rfl, rfl, fun hm => ?_, id⟩
  simp only [State.memWf, Bool.and_eq_true] at hm ⊢
  exact ⟨hm.1, h _ hm.2⟩

/-! ### Logging and answering -/

theorem Keeps.withLog (s : State) (p : LogPart) : Keeps s (s.withLog p) := Keeps.of_eq rfl rfl rfl rfl

theorem Keeps.log (s : State) (code sev src : Nat) (ps : List Nat) : Keeps s (s.log code sev src ps) := by
  unfold State.log
  split
  · exact Keeps.withLog ..
  · exact Keeps.withLog ..
  · exact Keeps.refl _

theorem Keeps.logFw (s : State) (code sev : Nat) (ps : List Nat) : Keeps s (s.logFw code sev ps) := Keeps.log ..
theorem Keeps.logTo (s : State) (c code sev src : Nat) (ps : List Nat) : Keeps s (s.logTo c code sev src ps) := Keeps.withLog ..

theorem Keeps.respond (s : State) (w : Who) (fin : Bool) (ws : List Word) : Keeps s (s.respond w fin ws) := by
  unfold State.respond
  dsimp only
  split <;> exact Keeps.of_eq rfl rfl rfl rfl

theorem Keeps.respondRaw (s : State) (c n op q : Nat) (r : Bool) (ws : List Word) : Keeps s (s.respondRaw c n op q r ws) :=
  Keeps.setChan ..

theorem Keeps.logDarid (s : State) (w : Who) (st d : Nat) : Keeps s (s.logDarid w st d) := by
  unfold State.logDarid
  split
  · exact Keeps.refl _
  · split
    · exact Keeps.logFw ..
    · split
      · exact Keeps.logFw ..
      · exact Keeps.refl _

theorem Keeps.finish (s : State) (w : Who) (st d : Nat) (ws : List Nat) : Keeps s (s.finish w st d ws) := by
  unfold State.finish
  dsimp only
  split
  · exact (Keeps.respond ..).trans (Keeps.logDarid ..)
  · exact Keeps.ite (Keeps.of_eq rfl rfl rfl rfl) (Keeps.refl _)

theorem Keeps.finishAll (s : State) (l : List Who) (st d : Nat) (ws : List Nat) : Keeps s (s.finishAll l st d ws) :=
  Keeps.foldl l (fun s w => Keeps.finish s w st d ws) s

theorem Keeps.answerDarid {s : State} (w : Who) {r : DRes} (h : Keeps s r.s) : Keeps s (answerDarid w r) := by
  unfold Machine.answerDarid
  dsimp only
  refine Keeps.trans ?_ (Keeps.respond ..)
  split
  · exact h
  · exact h.trans (Keeps.logDarid ..)

/-- A Darid command keeps them if its own part does. -/
theorem Keeps.runDarid {d : DaridDef} (h : ∀ (s : State) (w : Who) (a : List Nat), Keeps s (d.body s w a).s) (r : DReq) (s : State) :
    Keeps s (runDarid d r s) := by
  have hr : ∀ (w : Who) (a : List Nat), Keeps s (d.run s w a).s := by
    intro w a
    unfold DaridDef.run
    repeat' split
    all_goals first | exact Keeps.refl _ | exact h ..
  unfold Machine.runDarid
  split
  · exact Keeps.refl _
  · dsimp only
    unfold acceptDarid
    split
    · split
      · exact Keeps.respondRaw ..
      · split
        · exact Keeps.respondRaw ..
        · split
          · exact Keeps.answerDarid _ (Keeps.refl _)
          · exact Keeps.answerDarid _ (hr ..)
    · split
      · exact Keeps.answerDarid _ (Keeps.refl _)
      · exact Keeps.answerDarid _ (hr ..)

/-! ### Memory -/

theorem Keeps.countEv (s : State) (d ev i : Nat) (c : Option Nat) (n : Nat) : Keeps s (s.countEv d ev i c n) :=
  Keeps.of_eq rfl rfl rfl rfl

theorem Keeps.noteHusks (s : State) (d n c a : Nat) : Keeps s (s.noteHusks d n c a) := Keeps.setMemDie ..

theorem Keeps.noteCe (s : State) (d st n : Nat) : Keeps s (s.noteCe d st n) := by
  unfold State.noteCe
  split
  · exact Keeps.refl _
  · dsimp only
    apply Keeps.ite
    · exact ((Keeps.setStack ..).trans (Keeps.countEv ..)).trans (Keeps.log ..)
    · exact (Keeps.setStack ..).trans (Keeps.countEv ..)

/-- Writing back a decoded half keeps the form. -/
theorem Mem.wf_putHalf {m : Mem} (k a i : Nat) (o : LineOut) (h : m.wf = true) : (m.putHalf k a i o).wf = true := by
  unfold Mem.putHalf
  split
  · exact Mem.wf_husk _ h
  · exact Mem.wf_put _ _ _ h

theorem Keeps.logUe (s : State) (off : Nat) (bad : List Nat) (c : Nat) : Keeps s (s.logUe off bad c) :=
  (Keeps.noteHusks ..).trans (Keeps.log ..)

/-- Making a list of halves husks keeps the form. -/
theorem Mem.wf_husks (l : List Nat) (k : Nat → Nat) {m : Mem} (h : m.wf = true) :
    (l.foldl (fun m h => m.husk (k h)) m).wf = true := by
  induction l generalizing m with
  | nil => exact h
  | cons a r ih => rw [List.foldl_cons]; exact ih (Mem.wf_husk (k a) h)

theorem Keeps.cacheDamage (s : State) (f : LineFlip) : Keeps s (s.cacheDamage f) := by
  unfold State.cacheDamage
  refine Keeps.ite (Keeps.refl _) ?_
  have hs : Keeps s { s with mem := { s.mem with modified := mdel s.mem.modified f.line } } := ⟨rfl, rfl, id, id⟩
  exact hs.trans ((Keeps.setMem fun m h => Mem.wf_husks _ _ h).trans (Keeps.logUe ..))

theorem Keeps.lineBack (s : State) (cause : Nat) (f : LineFlip) (o : LineOut) : Keeps s (s.lineBack cause f o) := by
  have hs : ∀ t : State, Keeps s t → Keeps s ((t.setMem fun m => (m.putHalf (2 * f.line) (64 * f.line) 0 o).putHalf (2 * f.line)
      (64 * f.line) 1 o).noteCe (dieOf (64 * f.line)) (stackOf (64 * f.line)) o.corrected) := fun t h =>
    h.trans ((Keeps.setMem fun m h => Mem.wf_putHalf _ _ _ _ (Mem.wf_putHalf _ _ _ _ h)).trans (Keeps.noteCe ..))
  unfold State.lineBack
  dsimp only
  refine Keeps.ite (hs _ (Keeps.setStack ..)) ?_
  exact (hs _ (Keeps.setStack ..)).trans (((Keeps.setStack ..).trans (Keeps.countEv ..)).trans (Keeps.logUe ..))

theorem Keeps.storeBack (s : State) (line : Nat) (o : LineOut) : Keeps s (s.storeBack line o) := by
  have hs : Keeps s (s.setStore fun m => (m.putHalf (2 * line) (64 * line) 0 o).putHalf (2 * line) (64 * line) 1 o) :=
    Keeps.setStore fun m h => Mem.wf_putHalf _ _ _ _ (Mem.wf_putHalf _ _ _ _ h)
  unfold State.storeBack
  exact Keeps.ite hs (hs.trans ((Keeps.noteHusks ..).trans (Keeps.log ..)))

theorem Keeps.damage (s : State) (cause : Nat) (f : LineFlip) : Keeps s (s.damage cause f) := by
  unfold State.damage
  exact Keeps.ite ((Keeps.cacheDamage s f).trans (Keeps.lineBack ..)) (Keeps.storeBack ..)

theorem Keeps.damages (s : State) (cause : Nat) (l : List LineFlip) : Keeps s (s.damages cause l) :=
  Keeps.foldl l (fun s f => Keeps.damage s cause f) s

theorem Keeps.irqWrite (s : State) (a : Nat) (d : Word) : Keeps s (s.irqWrite a d) := by
  have hs : Keeps s { s with eng := { s.eng with irqs := s.eng.irqs ++ [(a, d)] } } := Keeps.of_eq rfl rfl rfl rfl
  unfold State.irqWrite
  refine hs.trans ?_
  dsimp only
  split
  · split
    · exact Keeps.ite (Keeps.setMem fun m h => Mem.wf_write _ _ _ h) (Keeps.refl _)
    · split
      · exact Keeps.ite (Keeps.refl _) (Keeps.setSem ..)
      · exact Keeps.refl _
  · exact Keeps.refl _

end Sys2Proof.Machine
end

