-- ==== Sys2Proof/Laws/PerInstr.lean ====
section
/-! SUPPORT. Statements about every command as syntax, one lemma for each constructor. -/

namespace Sys2Proof.Laws.Wf

/-- A well-formed Darid command carries at most 1,024 argument words (R321). -/
def Statement (i : Instr) : Prop := i.wf = true → ∀ r, i.dreq? = some r → r.args.length ≤ 1024

/-- A command that is no Darid command carries none. -/
theorem of_none {i : Instr} (h : i.dreq? = none) : Statement i := fun _ r hr => by simp [h] at hr

/-- A Darid command is well formed when its words are. -/
theorem of_some {i : Instr} {r : DReq} (h : i.dreq? = some r) (hw : i.wf = r.wf) : Statement i := by
  intro hi q hq
  rw [h, Option.some.injEq] at hq
  subst hq
  rw [hw] at hi
  simpa [DReq.wf] using hi

theorem csrRegisterWrite (init : Initiator) (addr : BitVec 52) (width : Nat) (value : CsrValue) : Statement (.csrRegisterWrite init addr width value) := of_none rfl
theorem hostMemoryAccess (init : Initiator) (op : AccessOp) (addr : BitVec 52) (flips : List LineFlip) : Statement (.hostMemoryAccess init op addr flips) := of_none rfl
theorem modIdWrite (init : Initiator) (value : BitVec 32) : Statement (.modIdWrite init value) := of_none rfl
theorem modOptSpareWrite (init : Initiator) (value : BitVec 32) : Statement (.modOptSpareWrite init value) := of_none rfl
theorem ringEdgeDown (edge : Fin 4) : Statement (.ringEdgeDown edge) := of_none rfl
theorem ringEdgeUp (edge : Fin 4) : Statement (.ringEdgeUp edge) := of_none rfl
theorem diagPathSwitch (pair : Fin 2) : Statement (.diagPathSwitch pair) := of_none rfl
theorem timeBusFrame (die : Fin 4) : Statement (.timeBusFrame die) := of_none rfl
theorem holdoverEntry (die : Fin 4) : Statement (.holdoverEntry die) := of_none rfl
theorem ptpMessageReceive (msg : PtpMsg) : Statement (.ptpMessageReceive msg) := of_none rfl
theorem podOffsetMeasured (offset : Int) (gm : BitVec 64) : Statement (.podOffsetMeasured offset gm) := of_none rfl
theorem podLockLost : Statement .podLockLost := of_none rfl
theorem ppsInEdge : Statement .ppsInEdge := of_none rfl
theorem ppsInFault : Statement .ppsInFault := of_none rfl
theorem ppsOutRise : Statement .ppsOutRise := of_none rfl
theorem ppsOutFall : Statement .ppsOutFall := of_none rfl
theorem timestampRequestSend : Statement .timestampRequestSend := of_none rfl
theorem timestampRequestReceive (port : Fin 13) (src : BitVec 15) : Statement (.timestampRequestReceive port src) := of_none rfl
theorem timestampResponseReceive (port : Fin 13) (resp : TsResp) : Statement (.timestampResponseReceive port resp) := of_none rfl
theorem tbTsqPop (init : Initiator) (ctd : Fin 2) (g : Fin 5) (width : Nat) (upper : Bool) : Statement (.tbTsqPop init ctd g width upper) := of_none rfl
theorem scheduleArm (entry : Fin 1024) : Statement (.scheduleArm entry) := of_none rfl
theorem scheduleFire (die : Fin 4) : Statement (.scheduleFire die) := of_none rfl
theorem tensorDumpDone (die : Fin 4) (flips : List LineFlip) : Statement (.tensorDumpDone die flips) := of_none rfl
theorem qTailDoorbell (ctx : Fin 256) (q : Fin 64) (value : BitVec 32) : Statement (.qTailDoorbell ctx q value) := of_none rfl
theorem qCtrlResume (ctx : Fin 256) (q : Fin 64) (value : BitVec 32) : Statement (.qCtrlResume ctx q value) := of_none rfl
theorem descriptorFetch (eng : Fin 112) (flips : List LineFlip) : Statement (.descriptorFetch eng flips) := of_none rfl
theorem descriptorComplete (ctx : Fin 256) (q : Fin 64) (flips : List LineFlip) : Statement (.descriptorComplete ctx q flips) := of_none rfl
theorem deSemValueWrite (sem : Fin 16384) (value : BitVec 32) : Statement (.deSemValueWrite sem value) := of_none rfl
theorem deSemAddWrite (sem : Fin 16384) (amount : BitVec 32) : Statement (.deSemAddWrite sem amount) := of_none rfl
theorem meTileDone (ctx : Fin 256) (q : Fin 64) (index : BitVec 32) (tile : Nat) (tileUe : Bool) (err1 : List WordFlip) (err2 : List WordFlip) (flips : List LineFlip) : Statement (.meTileDone ctx q index tile tileUe err1 err2 flips) := of_none rfl
theorem checkerVerdict (ctx : Fin 256) (q : Fin 64) (index : BitVec 32) (tile : Nat) (err : List WordFlip) (flips : List LineFlip) : Statement (.checkerVerdict ctx q index tile err flips) := of_none rfl
theorem arbiterVerdict (ctx : Fin 256) (q : Fin 64) (index : BitVec 32) (tile : Nat) (err : List WordFlip) (flips : List LineFlip) : Statement (.arbiterVerdict ctx q index tile err flips) := of_none rfl
theorem stashPassStart (ctx : Fin 256) (value : BitVec 32) : Statement (.stashPassStart ctx value) := of_none rfl
theorem stashPassOpen (ctx : Fin 256) : Statement (.stashPassOpen ctx) := of_none rfl
theorem stashArmWrite (ctx : Fin 256) (value : BitVec 32) : Statement (.stashArmWrite ctx value) := of_none rfl
theorem stashArmEntry (ctx : Fin 256) (flips : List LineFlip) : Statement (.stashArmEntry ctx flips) := of_none rfl
theorem stashRetireWrite (ctx : Fin 256) (value : BitVec 32) : Statement (.stashRetireWrite ctx value) := of_none rfl
theorem patrolScrubStep (die : Fin 4) (flips : List LineFlip) : Statement (.patrolScrubStep die flips) := of_none rfl
theorem memTrainingDone (stack : Fin 24) (best : Fin 4) : Statement (.memTrainingDone stack best) := of_none rfl
theorem memInitDone (die : Fin 4) : Statement (.memInitDone die) := of_none rfl
theorem memThermal (stack : Fin 24) (tempC : BitVec 8) : Statement (.memThermal stack tempC) := of_none rfl
theorem flitTransmit (port : Fin 13) : Statement (.flitTransmit port) := of_none rfl
theorem flitReceive (port : Fin 13) (flit : List (BitVec 8)) : Statement (.flitReceive port flit) := of_none rfl
theorem replayTimeout (port : Fin 13) : Statement (.replayTimeout port) := of_none rfl
theorem laneLockLoss (port : Fin 13) : Statement (.laneLockLoss port) := of_none rfl
theorem wgRetrain (port : Fin 13) (failedLanes : BitVec 16) (resumeFrom : BitVec 16) : Statement (.wgRetrain port failedLanes resumeFrom) := of_none rfl
theorem identReceive (port : Fin 13) (ident : Ident) : Statement (.identReceive port ident) := of_none rfl
theorem identTimeout (port : Fin 13) : Statement (.identTimeout port) := of_none rfl
theorem packetArrive (port : Fin 13) (pkt : Packet) (flips : List LineFlip) : Statement (.packetArrive port pkt flips) := of_none rfl
theorem reorderedRequestDeliver (remote : BitVec 15) (cls : Fin 4) (flips : List LineFlip) : Statement (.reorderedRequestDeliver remote cls flips) := of_none rfl
theorem respReceive (pkt : Packet) : Statement (.respReceive pkt) := of_none rfl
theorem requestTimeout (remote : BitVec 15) (cls : Fin 4) (seq : BitVec 16) : Statement (.requestTimeout remote cls seq) := of_none rfl
theorem busyResend (remote : BitVec 15) (cls : Fin 4) (seq : BitVec 16) : Statement (.busyResend remote cls seq) := of_none rfl
theorem epochAheadResend (remote : BitVec 15) (cls : Fin 4) (seq : BitVec 16) : Statement (.epochAheadResend remote cls seq) := of_none rfl
theorem epochWaitExpiry (remote : BitVec 15) (cls : Fin 4) (seq : BitVec 16) : Statement (.epochWaitExpiry remote cls seq) := of_none rfl
theorem peerEntryRelease (remote : BitVec 15) (target : Bool) : Statement (.peerEntryRelease remote target) := of_none rfl
theorem collSegReceive (port : Fin 13) (pkt : Packet) : Statement (.collSegReceive port pkt) := of_none rfl
theorem segAckReceive (port : Fin 13) (pkt : Packet) : Statement (.segAckReceive port pkt) := of_none rfl
theorem segAckTimeout (key : ConvoyKey) (port : Fin 13) (skind : Fin 16) (seg : Nat) (step : Nat) : Statement (.segAckTimeout key port skind seg step) := of_none rfl
theorem notReadyResend (key : ConvoyKey) (port : Fin 13) (skind : Fin 16) (seg : Nat) (step : Nat) : Statement (.notReadyResend key port skind seg step) := of_none rfl
theorem segAheadResend (key : ConvoyKey) (port : Fin 13) (skind : Fin 16) (seg : Nat) (step : Nat) : Statement (.segAheadResend key port skind seg step) := of_none rfl
theorem caravanSegReceive (port : Fin 13) (pkt : Packet) : Statement (.caravanSegReceive port pkt) := of_none rfl
theorem abortReceive (port : Fin 13) (msg : AbortFrom) : Statement (.abortReceive port msg) := of_none rfl
theorem abortResend (key : ConvoyKey) (port : Fin 13) : Statement (.abortResend key port) := of_none rfl
theorem abortAckReceive (port : Fin 13) (key : AckFrom) : Statement (.abortAckReceive port key) := of_none rfl
theorem convoyEntryFree (key : ConvoyKey) : Statement (.convoyEntryFree key) := of_none rfl
theorem leaseRenew (init : Initiator) (gen : BitVec 32) : Statement (.leaseRenew init gen) := of_none rfl
theorem leaseClaim (init : Initiator) (gen : BitVec 32) : Statement (.leaseClaim init gen) := of_none rfl
theorem leaseRelease (init : Initiator) (value : BitVec 32) : Statement (.leaseRelease init value) := of_none rfl
theorem leaseOpen (init : Initiator) (value : BitVec 32) : Statement (.leaseOpen init value) := of_none rfl
theorem leaseExpiry : Statement .leaseExpiry := of_none rfl
theorem leaseGuardEnd : Statement .leaseGuardEnd := of_none rfl
theorem ctdWdogKick (init : Initiator) (ctd : Fin 2) (value : BitVec 32) : Statement (.ctdWdogKick init ctd value) := of_none rfl
theorem ctdWdogExpired (ctd : Fin 2) : Statement (.ctdWdogExpired ctd) := of_none rfl
theorem holderResetRelease (ctd : Fin 2) (selfTestFail : Option (Fin 6)) : Statement (.holderResetRelease ctd selfTestFail) := of_none rfl
theorem standbyLeasePoll (ctd : Fin 2) : Statement (.standbyLeasePoll ctd) := of_none rfl
theorem switchoverGapTimeout : Statement .switchoverGapTimeout := of_none rfl
theorem mirrorCheck (seqSent : BitVec 32) (crcSent : BitVec 32) (crcOwn : BitVec 32) : Statement (.mirrorCheck seqSent crcSent crcOwn) := of_none rfl
theorem resyncCopyDone (ctd : Fin 2) : Statement (.resyncCopyDone ctd) := of_none rfl
theorem standbySelfTest (ctd : Fin 2) (test : Fin 3) (pass : Bool) (detail : BitVec 32) : Statement (.standbySelfTest ctd test pass detail) := of_none rfl
theorem standbyHealth (ctd : Fin 2) (timeDiffNs : BitVec 32) (tempC : BitVec 32) : Statement (.standbyHealth ctd timeDiffNs tempC) := of_none rfl
theorem powerLimiterSample (avgPowerW : Nat) (avgCurrentDA : Nat) : Statement (.powerLimiterSample avgPowerW avgCurrentDA) := of_none rfl
theorem mbTxWordWrite (init : Initiator) (ctd : Fin 2) (ch : Fin 512) (n : Fin 8) (value : BitVec 32) : Statement (.mbTxWordWrite init ctd ch n value) := of_none rfl
theorem mbTxCommit (init : Initiator) (ctd : Fin 2) (ch : Fin 512) (value : BitVec 32) : Statement (.mbTxCommit init ctd ch value) := of_none rfl
theorem mbPop (ctd : Fin 2) (ch : Fin 512) : Statement (.mbPop ctd ch) := of_none rfl
theorem mbUpPlace (ctd : Fin 2) (ch : Fin 512) : Statement (.mbUpPlace ctd ch) := of_none rfl
theorem mbRxPop (init : Initiator) (ctd : Fin 2) (ch : Fin 512) : Statement (.mbRxPop init ctd ch) := of_none rfl
theorem mgmtDatagramReceive (srcIp : BitVec 32) (srcPort : BitVec 16) (payload : List (BitVec 8)) : Statement (.mgmtDatagramReceive srcIp srcPort payload) := of_none rfl
theorem mgmtPacketReceive (src : BitVec 15) (payload : List (BitVec 8)) : Statement (.mgmtPacketReceive src payload) := of_none rfl
theorem channelBindingExpiry (ch : Fin 512) : Statement (.channelBindingExpiry ch) := of_none rfl
theorem fragmentTimeout (ctd : Fin 2) (ch : Fin 512) : Statement (.fragmentTimeout ctd ch) := of_none rfl
theorem mgmtFrameReceive (frame : MgmtFrame) : Statement (.mgmtFrameReceive frame) := of_none rfl
theorem invCaps (r : DReq) : Statement (.invCaps r) := of_some rfl rfl
theorem invDie (r : DReq) : Statement (.invDie r) := of_some rfl rfl
theorem invStack (r : DReq) : Statement (.invStack r) := of_some rfl rfl
theorem invOptical (r : DReq) : Statement (.invOptical r) := of_some rfl rfl
theorem invCtd (r : DReq) : Statement (.invCtd r) := of_some rfl rfl
theorem invSetId (r : DReq) : Statement (.invSetId r) := of_some rfl rfl
theorem invSetSpare (r : DReq) : Statement (.invSetSpare r) := of_some rfl rfl
theorem channelRelease (r : DReq) : Statement (.channelRelease r) := of_some rfl rfl
theorem contextCreate (r : DReq) : Statement (.contextCreate r) := of_some rfl rfl
theorem contextRelease (r : DReq) : Statement (.contextRelease r) := of_some rfl rfl
theorem contextGrant (r : DReq) : Statement (.contextGrant r) := of_some rfl rfl
theorem contextRevoke (r : DReq) : Statement (.contextRevoke r) := of_some rfl rfl
theorem queueCreate (r : DReq) : Statement (.queueCreate r) := of_some rfl rfl
theorem queueSetIrq (r : DReq) : Statement (.queueSetIrq r) := of_some rfl rfl
theorem queueDelete (r : DReq) : Statement (.queueDelete r) := of_some rfl rfl
theorem contextBindHart (r : DReq) : Statement (.contextBindHart r) := of_some rfl rfl
theorem twinJoin (r : DReq) : Statement (.twinJoin r) := of_some rfl rfl
theorem twinSplit (r : DReq) : Statement (.twinSplit r) := of_some rfl rfl
theorem contextSetDebug (r : DReq) : Statement (.contextSetDebug r) := of_some rfl rfl
theorem contextStashReserve (r : DReq) : Statement (.contextStashReserve r) := of_some rfl rfl
theorem contextStashRelease (r : DReq) : Statement (.contextStashRelease r) := of_some rfl rfl
theorem contextQuery (r : DReq) : Statement (.contextQuery r) := of_some rfl rfl
theorem sliceSet (r : DReq) : Statement (.sliceSet r) := of_some rfl rfl
theorem sliceEpoch (r : DReq) : Statement (.sliceEpoch r) := of_some rfl rfl
theorem sliceWindow (r : DReq) : Statement (.sliceWindow r) := of_some rfl rfl
theorem sliceRelease (r : DReq) : Statement (.sliceRelease r) := of_some rfl rfl
theorem contextBindSlice (r : DReq) : Statement (.contextBindSlice r) := of_some rfl rfl
theorem convoyAbort (r : DReq) : Statement (.convoyAbort r) := of_some rfl rfl
theorem scheduleWrite (r : DReq) : Statement (.scheduleWrite r) := of_some rfl rfl
theorem scheduleClear (r : DReq) : Statement (.scheduleClear r) := of_some rfl rfl
theorem scheduleRead (r : DReq) : Statement (.scheduleRead r) := of_some rfl rfl
theorem sievePackCommit (r : DReq) : Statement (.sievePackCommit r) := of_some rfl rfl
theorem sievePolicy (r : DReq) : Statement (.sievePolicy r) := of_some rfl rfl
theorem sieveRunNow (r : DReq) : Statement (.sieveRunNow r) := of_some rfl rfl
theorem sieveQuery (r : DReq) : Statement (.sieveQuery r) := of_some rfl rfl
theorem taintRead (r : DReq) : Statement (.taintRead r) := of_some rfl rfl
theorem taintClear (r : DReq) : Statement (.taintClear r) := of_some rfl rfl
theorem tallyQuery (r : DReq) : Statement (.tallyQuery r) := of_some rfl rfl
theorem hoardConfig (r : DReq) : Statement (.hoardConfig r) := of_some rfl rfl
theorem hoardSnapshot (r : DReq) : Statement (.hoardSnapshot r) := of_some rfl rfl
theorem hoardReadPoint (ctx : Fin 256) : Statement (.hoardReadPoint ctx) := of_none rfl
theorem hoardCopyCommit (ctx : Fin 256) : Statement (.hoardCopyCommit ctx) := of_none rfl
theorem hoardRestore (r : DReq) : Statement (.hoardRestore r) := of_some rfl rfl
theorem spareFill (r : DReq) : Statement (.spareFill r) := of_some rfl rfl
theorem spareFillDone (ctx : Fin 256) : Statement (.spareFillDone ctx) := of_none rfl
theorem cellarWrite (r : DReq) : Statement (.cellarWrite r) := of_some rfl rfl
theorem cellarRead (r : DReq) : Statement (.cellarRead r) := of_some rfl rfl
theorem cellarDone (port : Fin 2) (failed : Option Bool) (blocks : List NvmeBlock) : Statement (.cellarDone port failed blocks) := of_none rfl
theorem seedStreamSet (r : DReq) : Statement (.seedStreamSet r) := of_some rfl rfl
theorem seedStreamGet (r : DReq) : Statement (.seedStreamGet r) := of_some rfl rfl
theorem dataCursorSet (r : DReq) : Statement (.dataCursorSet r) := of_some rfl rfl
theorem dataCursorGet (r : DReq) : Statement (.dataCursorGet r) := of_some rfl rfl
theorem contextReset (r : DReq) : Statement (.contextReset r) := of_some rfl rfl
theorem contextResetDone (ctx : Fin 256) : Statement (.contextResetDone ctx) := of_none rfl
theorem engineReset (r : DReq) : Statement (.engineReset r) := of_some rfl rfl
theorem engineResetEnd (eng : Fin 112) (patterns : List PatternResult) : Statement (.engineResetEnd eng patterns) := of_none rfl
theorem dieReset (r : DReq) : Statement (.dieReset r) := of_some rfl rfl
theorem dieResetEnd (die : Fin 4) (patterns : List (Nat × List PatternResult)) (cacheLost : List Nat) : Statement (.dieResetEnd die patterns cacheLost) := of_none rfl
theorem moduleRecover (r : DReq) : Statement (.moduleRecover r) := of_some rfl rfl
theorem moduleRecovery (lostStacks : LostStacks) (patterns : List (Nat × List PatternResult)) : Statement (.moduleRecovery lostStacks patterns) := of_none rfl
theorem resetEscalated (level : ResetLevel) (unit : Nat) : Statement (.resetEscalated level unit) := of_none rfl
theorem switchover (r : DReq) : Statement (.switchover r) := of_some rfl rfl
theorem faultRecordRead (r : DReq) : Statement (.faultRecordRead r) := of_some rfl rfl
theorem memClear (r : DReq) : Statement (.memClear r) := of_some rfl rfl
theorem oosQuery (r : DReq) : Statement (.oosQuery r) := of_some rfl rfl
theorem oosLatchClear (r : DReq) : Statement (.oosLatchClear r) := of_some rfl rfl
theorem ledgerStatus (r : DReq) : Statement (.ledgerStatus r) := of_some rfl rfl
theorem ledgerRead (r : DReq) : Statement (.ledgerRead r) := of_some rfl rfl
theorem ledgerAppend (r : DReq) : Statement (.ledgerAppend r) := of_some rfl rfl
theorem ledgerSubscribe (r : DReq) : Statement (.ledgerSubscribe r) := of_some rfl rfl
theorem counterSelect (r : DReq) : Statement (.counterSelect r) := of_some rfl rfl
theorem counterRead (r : DReq) : Statement (.counterRead r) := of_some rfl rfl
theorem liveCounterRead (r : DReq) : Statement (.liveCounterRead r) := of_some rfl rfl
theorem watchDefine (r : DReq) : Statement (.watchDefine r) := of_some rfl rfl
theorem watchDigest (r : DReq) : Statement (.watchDigest r) := of_some rfl rfl
theorem watchRemove (r : DReq) : Statement (.watchRemove r) := of_some rfl rfl
theorem timeStepAdvance (r : DReq) : Statement (.timeStepAdvance r) := of_some rfl rfl
theorem timePhaseAdvance (r : DReq) : Statement (.timePhaseAdvance r) := of_some rfl rfl
theorem timeStepSet (r : DReq) : Statement (.timeStepSet r) := of_some rfl rfl
theorem timeAcceptCorrection (r : DReq) : Statement (.timeAcceptCorrection r) := of_some rfl rfl
theorem timeConfigure (r : DReq) : Statement (.timeConfigure r) := of_some rfl rfl
theorem timeQuery (r : DReq) : Statement (.timeQuery r) := of_some rfl rfl
theorem tollTagQuery (r : DReq) : Statement (.tollTagQuery r) := of_some rfl rfl
theorem tollManifestRead (r : DReq) : Statement (.tollManifestRead r) := of_some rfl rfl
theorem tollRecordRead (r : DReq) : Statement (.tollRecordRead r) := of_some rfl rfl
theorem tollKeyRead (r : DReq) : Statement (.tollKeyRead r) := of_some rfl rfl
theorem tollKeyRotate (r : DReq) : Statement (.tollKeyRotate r) := of_some rfl rfl
theorem calRead (r : DReq) : Statement (.calRead r) := of_some rfl rfl
theorem calCommit (r : DReq) : Statement (.calCommit r) := of_some rfl rfl
theorem calHash (r : DReq) : Statement (.calHash r) := of_some rfl rfl
theorem stageWrite (r : DReq) : Statement (.stageWrite r) := of_some rfl rfl
theorem stageReset (r : DReq) : Statement (.stageReset r) := of_some rfl rfl
theorem fwCommit (r : DReq) : Statement (.fwCommit r) := of_some rfl rfl
theorem clampCommit (r : DReq) : Statement (.clampCommit r) := of_some rfl rfl
theorem fwInfo (r : DReq) : Statement (.fwInfo r) := of_some rfl rfl
theorem fwRestartStandby (r : DReq) : Statement (.fwRestartStandby r) := of_some rfl rfl
theorem powerSetDie (r : DReq) : Statement (.powerSetDie r) := of_some rfl rfl
theorem powerCap (r : DReq) : Statement (.powerCap r) := of_some rfl rfl
theorem powerQuery (r : DReq) : Statement (.powerQuery r) := of_some rfl rfl
theorem linkEnable (r : DReq) : Statement (.linkEnable r) := of_some rfl rfl
theorem linkRetrain (r : DReq) : Statement (.linkRetrain r) := of_some rfl rfl
theorem linkRemap (r : DReq) : Statement (.linkRemap r) := of_some rfl rfl
theorem linkQuery (r : DReq) : Statement (.linkQuery r) := of_some rfl rfl
theorem routeConfig (r : DReq) : Statement (.routeConfig r) := of_some rfl rfl
theorem circuitRouteSet (r : DReq) : Statement (.circuitRouteSet r) := of_some rfl rfl
theorem spdmExchange (r : DReq) : Statement (.spdmExchange r) := of_some rfl rfl
theorem certRead (r : DReq) : Statement (.certRead r) := of_some rfl rfl
theorem lgAppendGo (init : Initiator) (ctd : Fin 2) (value : BitVec 32) : Statement (.lgAppendGo init ctd value) := of_none rfl
theorem repeatWindowClose (ctd : Fin 2) (seq : BitVec 64) : Statement (.repeatWindowClose ctd seq) := of_none rfl
theorem flashMirrorWrite (ctd : Fin 2) (seq : BitVec 64) (ok : Bool) (flashStatus : BitVec 32) : Statement (.flashMirrorWrite ctd seq ok flashStatus) := of_none rfl
theorem lgWinCursorWrite (init : Initiator) (ctd : Fin 2) (w : Fin 4) (width : Nat) (upper : Bool) (value : BitVec 64) : Statement (.lgWinCursorWrite init ctd w width upper value) := of_none rfl
theorem lgWinLatchDone (ctd : Fin 2) (w : Fin 4) : Statement (.lgWinLatchDone ctd w) := of_none rfl
theorem sieveRunStart (eng : Fin 112) : Statement (.sieveRunStart eng) := of_none rfl
theorem sieveRunEnd (eng : Fin 112) (patterns : List PatternResult) : Statement (.sieveRunEnd eng patterns) := of_none rfl
theorem sieveAgeCheck : Statement .sieveAgeCheck := of_none rfl
theorem tallyDecay : Statement .tallyDecay := of_none rfl
theorem heartbeatCheck (die : Fin 4) (beats : List (Nat × Nat)) : Statement (.heartbeatCheck die beats) := of_none rfl
theorem railSample (sample : RailSample) : Statement (.railSample sample) := of_none rfl
theorem tagClosePoint (tag : Fin 4096) : Statement (.tagClosePoint tag) := of_none rfl
theorem manifestForced : Statement .manifestForced := of_none rfl
theorem tollManifestClosed : Statement .tollManifestClosed := of_none rfl
theorem tlWinIndexWrite (init : Initiator) (ctd : Fin 2) (w : Fin 2) (value : BitVec 32) : Statement (.tlWinIndexWrite init ctd w value) := of_none rfl
theorem powerOnReset (cause : Fin 8) : Statement (.powerOnReset cause) := of_none rfl
theorem romCaravanImageComplete : Statement .romCaravanImageComplete := of_none rfl
theorem inputTrip (kind : Fin 3) : Statement (.inputTrip kind) := of_none rfl
theorem modRstNLow : Statement .modRstNLow := of_none rfl
theorem junctionSample (die : Fin 4) (tempMilliC : Int) : Statement (.junctionSample die tempMilliC) := of_none rfl
theorem thermAlertRelease : Statement .thermAlertRelease := of_none rfl
theorem i3cEntdaa (addr : BitVec 7) : Statement (.i3cEntdaa addr) := of_none rfl
theorem i3cPrivateWrite (bytes : List (BitVec 8)) : Statement (.i3cPrivateWrite bytes) := of_none rfl
theorem i3cPrivateRead (count : Nat) : Statement (.i3cPrivateRead count) := of_none rfl
theorem laneLock (port : Fin 13) (failedLanes : BitVec 16) : Statement (.laneLock port failedLanes) := of_none rfl
theorem mgmtBlockLock (up : Bool) : Statement (.mgmtBlockLock up) := of_none rfl
theorem cellarDevice (port : Fin 2) (event : Fin 5) (nvmeStatus : BitVec 32) (nsid : BitVec 32) (nss : List (Nat × Nat × Bool)) : Statement (.cellarDevice port event nvmeStatus nsid nss) := of_none rfl
theorem csrRcRead (init : Initiator) (addr : BitVec 52) (width : Nat) (hwSet : BitVec 64) : Statement (.csrRcRead init addr width hwSet) := of_none rfl
theorem flashCommitDone (ok : Bool) : Statement (.flashCommitDone ok) := of_none rfl
theorem watchDigestDone (ctx : Fin 256) (handle : BitVec 32) (flips : List LineFlip) : Statement (.watchDigestDone ctx handle flips) := of_none rfl
theorem tollKeyRotated : Statement .tollKeyRotated := of_none rfl
theorem spdmResponseDone : Statement .spdmResponseDone := of_none rfl
theorem contextReleaseDone (ctx : Fin 256) : Statement (.contextReleaseDone ctx) := of_none rfl
theorem memClearDone : Statement .memClearDone := of_none rfl

end Sys2Proof.Laws.Wf
end

