-- ==== Sys2Proof/Tests/Slice0.lean ====
section
/-! SUPPORT. The author's tests: helper states; the refusal of an ill-formed term for each check of WellFormed; some worked
examples of the manual; single steps; and, for each obligation, one theorem `test_wit_<Name>` that shows states and operands
meeting the hypotheses of each of its clauses together. -/

set_option linter.all false
open Sys2Proof Sys2Proof.Machine
namespace Sys2Proof.Tests

/-- A module whose CTD0 serves: it holds the waybill with the gates open. -/
def sv : State :=
  { ctd := { ctds := [{ role := .active, running := true }, {}]
             lease := { holder := some 0, gates := true, expiry := 1000000, gen := 1, renewed := true, opened := true, granted := true } } }
/-- The same with all dies out of reset and their memory initialised. -/
def up : State :=
  { sv with
    dies := List.replicate 4 { inReset := false, hartsRun := true }
    mem := { sv.mem with dies := List.replicate 4 { initDone := true }, lpddr := List.replicate 24 { up := true } }
    ring := { sv.ring with edgeUp := [true, true, true, true] }
    power := { sv.power with rails := true } }
/-- The same with a standby in CTD1 that may claim. -/
def two : State :=
  { up with ctd := { up.ctd with ctds := [{ role := .active, running := true }, { role := .standby, running := true, claimable := true }] } }
/-- The same at a later time of MONO. -/
def late (s : State) (t : Nat) : State := { s with time := { s.time with mono := t } }
/-- A Darid command on a channel. -/
def rq (ch : Fin 512) (a : List Word) : DReq := { ctd := 0, ch := ch, seq := 1, args := a }
/-- One on a management channel. -/
def rm (a : List Word) : DReq := rq 256 a
/-- A context that exists, with a window of the whole die 0. -/
def cx : Ctx := { st := .active, windows := [(0, (0, 0x5A00000000))], queueMax := 4 }
def withCtx (s : State) (c : Nat) (x : Ctx) : State := { s with eng := { s.eng with ctxs := [(c, x)] } }
def withQ (s : State) (q : Queue) : State := { s with eng := { s.eng with queues := [(0, q)] } }
def q0 : Queue := { eng := 0, s := 6, prio := 0, ring := 0, comp := 0x100000 }
def st0 : Started := { index := 0, d := [], order := 0, at_ := 0 }
def who : Who := { ctd := 0, ch := 256, op := 0x0801, seq := 1, args := [], changes := true }
/-- A PUT of 64 bytes from module 1 in slice 1. -/
def pk : Packet :=
  { ptype := 1, cls := 0, start := false, hm := false, esc := false, dl := 0, tsr := false, dst := 0, src := 1, slice := 1
    epoch := 1, seq := 0, len := 64, tsId := 0, dw2 := 0, dw3 := 0, rsvd := 0, mask := 0, payload := List.replicate 64 0 }
/-- A slice entry with one window. -/
def sl : SliceEnt :=
  { id := 1, wrap := 0, epoch := 1, boundary := 0, geom := [(0, 1), (0, 1), (0, 1)], circuits := 0, wins := [(0, (0, 8))] }
/-- A module with all ports UP, a slice and a peer. -/
def net : State :=
  { up with fab := { up.fab with
      ports := List.replicate 13 { st := .up, exchanged := true, lanes := 16, rev := 1, row := 5, revMax := 1, revMin := 1 }
      slices := [(0, sl)] } }
/-- An unanswered request. -/
def req : FReq := { ptype := 1, owner := .host (.hart 0), cls := 0, dst := 1, slice := 1, epoch := 1, addr := 0, len := 64 }
/-- `net` with that request on its flow to module 1. -/
def asked (r : FReq) : State :=
  late { net with fab := { net.fab with peers := [(1, { snd := true, tx := [{ una := [r] }, {}, {}, {}] })] } } 20000000
/-- A convoy. -/
def key : ConvoyKey := { slice := 1, epoch := 1, convoy := 7 }
def cvy : Convoy := { key := key, st := .active }
def seg : Seg := { skind := 0, port := 0, seg := 0 }
def inConvoy (c : Convoy) : State := late { net with fab := { net.fab with convoys := [c] } } 2000000000
/-- A queue with a started descriptor. -/
def running (u : Queue) (l : List Started) : State :=
  withQ (withCtx up 0 cx) { u with st := .active, started := l }

/-! ### WellFormed refuses -/

def flip0 : LineFlip := { line := 0, data := 1, check := 0, linkErrs := 0, linkCorr := 0, cache := 0 }
def smp : RailSample :=
  { inputMv := 0, inputMa := 0, rails := List.replicate 11 (0, 0), tagCycles := [], ctxCycles := [], modCycles := [], tagBytes := []
    tagFlits := [], ctxBytes := [], ctxFlits := [], modBytes := [], modFlits := [], missing := 0, temps := [0, 0, 0, 0, 0] }

theorem test_wf_bus_width : (Instr.csrRegisterWrite (.sp 0) 0 24 ⟨0, 0⟩).wf = false ∧ (Instr.csrRcRead (.sp 0) 0 128 0).wf = false := by decide
theorem test_wf_access_line :
    (Instr.hostMemoryAccess (.hart 0) (.load 2) 63 []).wf = false ∧ (Instr.hostMemoryAccess (.hart 0) (.load 0) 0 []).wf = false ∧
      (Instr.hostMemoryAccess (.hart 0) (.store (List.replicate 65 0)) 0 []).wf = false := by decide +kernel
theorem test_wf_atomic_aligned : (Instr.hostMemoryAccess (.hart 0) (.amo 0 true 1 0) 4 []).wf = false := by decide
theorem test_wf_flips :
    (Instr.patrolScrubStep 0 [flip0, flip0]).wf = false ∧ (Instr.patrolScrubStep 0 [{ flip0 with line := 2 ^ 40 }]).wf = false := by decide
theorem test_wf_errs : (Instr.checkerVerdict 0 0 0 0 [{ row := 32, col := 0, mask := 1 }] []).wf = false := by decide
theorem test_wf_tile : (Instr.meTileDone 0 0 0 (2 ^ 32) false [] [] []).wf = false := by decide
theorem test_wf_half : (Instr.tbTsqPop (.sp 0) 0 0 64 true).wf = false ∧ (Instr.lgWinCursorWrite (.sp 0) 0 0 16 false 0).wf = false := by decide
theorem test_wf_pod_offset : (Instr.podOffsetMeasured (2 ^ 63) 0).wf = false := by decide
theorem test_wf_flit : (Instr.flitReceive 0 (List.replicate 255 0)).wf = false := by decide +kernel
theorem test_wf_packet :
    (Instr.packetArrive 0 { pk with len := 65 } []).wf = false ∧ (Instr.respReceive { pk with mask := 1 }).wf = false ∧
      (Instr.packetArrive 0 { pk with ptype := 2 } []).wf = false := by decide
theorem test_wf_segment :
    (Instr.segAckTimeout key 0 3 0 0).wf = false ∧ (Instr.notReadyResend key 0 0 (2 ^ 40) 0).wf = false ∧
      (Instr.segAheadResend key 0 0 0 (2 ^ 16)).wf = false := by decide
theorem test_wf_power_sample : (Instr.powerLimiterSample 65536 0).wf = false := by decide
theorem test_wf_payloads :
    (Instr.mgmtDatagramReceive 0 0 (List.replicate 1473 0)).wf = false ∧ (Instr.mgmtPacketReceive 0 []).wf = false ∧
      (Instr.mgmtFrameReceive (.ipv4 0 0 true none 0 0 (List.replicate 1481 0))).wf = false := by decide +kernel
theorem test_wf_binding_channel :
    (Instr.channelBindingExpiry 255).wf = false ∧ (Instr.channelBindingExpiry 416).wf = false := by decide
theorem test_wf_darid : (Instr.invCaps (rm (List.replicate 1025 0))).wf = false := by decide +kernel
theorem test_wf_nvme : (Instr.cellarDone 0 none [{ data := some [0], husks := 0 }]).wf = false := by decide
theorem test_wf_pattern :
    (Instr.sieveRunEnd 0 [{ pattern := 0, sigId := 0, fail := false, rerun1 := true, rerun2 := false }]).wf = false ∧
      (Instr.moduleRecovery ⟨0, 0⟩ [(112, [])]).wf = false := by decide
theorem test_wf_reset_unit :
    (Instr.resetEscalated .context 256).wf = false ∧ (Instr.resetEscalated .engine 112).wf = false ∧
      (Instr.resetEscalated .die 4).wf = false ∧ (Instr.resetEscalated .module 1).wf = false := by decide
theorem test_wf_heartbeat : (Instr.heartbeatCheck 0 [(16384, 0)]).wf = false := by decide
theorem test_wf_rail_sample :
    smp.wf = true ∧ (Instr.railSample { smp with rails := [] }).wf = false ∧ (Instr.railSample { smp with temps := [] }).wf = false ∧
      (Instr.railSample { smp with tagBytes := [(4096, 0, 1)] }).wf = false := by decide
theorem test_wf_power_on_cause : (Instr.powerOnReset 0).wf = false ∧ (Instr.powerOnReset 7).wf = false := by decide
theorem test_wf_junction : (Instr.junctionSample 0 1000000).wf = false := by decide
theorem test_wf_cellar_device : (Instr.cellarDevice 0 0 0 0 [(2 ^ 32, 1, true)]).wf = false := by decide

/-! ### Worked examples of the manual -/

-- chapter 04, the example on FP8 E4M3 (R137)
theorem test_e4m3_rounds : (fmtOf 3).round .rne false 460 0 = (0x7E, false) ∧ (fmtOf 3).round .rne false 470 0 = (0x7E, true) := by decide
-- chapter 04, the example on MXFP8 (R139)
theorem test_mx_block : convBlock 5 [(.fin false 100 0, .rne)] = (125, [0x7C], false, false) := by decide
-- chapter 04, the example on stochastic rounding (R141)
theorem test_stochastic :
    (fmtOf 2).round (.draw 0xC000) false 513 (-9) = (0x3F81, false) ∧ (fmtOf 2).round (.draw 0xBFFF) false 513 (-9) = (0x3F80, false) := by decide
-- chapter 04, the example on MAX and MIN: 3.0, -0.0, 7.5, 7.5, +0.0, 7.5
theorem test_max_min :
    winner true [.fin false 3 0, .fin true 0 0, .fin false 15 (-1), .fin false 15 (-1), .fin false 0 0, .fin false 15 (-1)] = 2 ∧
      winner false [.fin false 3 0, .fin true 0 0, .fin false 15 (-1), .fin false 15 (-1), .fin false 0 0, .fin false 15 (-1)] = 1 ∧
      winner true [.fin false 1 0, .nan, .fin false 5 0, .nan] = 1 := by decide
-- chapter 04: an INT8 sum above the INT32 range saturates
theorem test_int_saturates : satInt 32 3225800000 = (0x7FFFFFFF, true) := by decide
-- chapter 15, the example on the manifest of five records (R463)
theorem test_merkle_path :
    (merklePath 32 [[0], [1], [2], [3], [4]] 2).length = 3 ∧ (merklePath 32 [[0], [1], [2], [3], [4]] 4).length = 1 := by decide +kernel
-- chapter 15, the example on the conversion share (R454)
theorem test_conversion_share :
    (convCharges 15750000 15000000 [(.tag 0x2A3, 0, 146484), (.tag 0x2A3, 0, 87890), (.tag 0x2A3, 2, 400000)]).map (·.2.2) = [31718] := by decide
-- chapter 06, the example on placement (R187)
theorem test_placement : stackOf 0x5A001349E8 = 10 ∧ channelOf 0x5A001349E8 = 13 ∧ dataLine 0x5A001349E8 = 109 := by decide
-- chapter 01, the example on the board index
theorem test_board_index : boardIdx (1 * 4096 + 5 * 256 + 2 * 16 + 9) = 1 := by decide

/-! ### Single steps -/

/-- The outcome of a step as a state. -/
def after (s : State) : State := match step s with
  | .next t => t
  | _ => s
def front (c : Instr) (s : State) : State := { s with pending := [c] }

theorem test_sem_add_wraps : (after (front (.deSemAddWrite 5 1) (up.setSem 5 0xFFFFFFFF))).sem 5 = 0 := by decide
theorem test_queue_pops : (after (front (.deSemAddWrite 5 1) up)).pending = [] := by decide
theorem test_idle_ticks : (after sv).time.mono = 10 := by decide
theorem test_doorbell : ((after (front (.qTailDoorbell 0 0 65) (withQ (withCtx up 0 cx) q0))).queue? 0 0).map (·.dbErr) = some true := by decide
-- R286: the lease runs 20 ms from the write
theorem test_renew : (after (front (.leaseRenew (.sp 0) 1) (late sv 5))).ctd.lease.expiry = 20000005 := by decide
-- R193: two bits of a half are not corrected
set_option maxRecDepth 100000 in
theorem test_ue_makes_husk :
    (after (front (.hostMemoryAccess (.hart 0) (.load 4) 0 [{ flip0 with data := 3 }]) up)).bus.err = .husk := by decide +kernel
theorem test_store_load :
    (after (front (.hostMemoryAccess (.hart 0) (.load 2) 1 []) (after (front (.hostMemoryAccess (.hart 0) (.store [7, 8, 9]) 0 []) up)))).bus.bytes =
      [8, 9] := by decide +kernel

/-! ### Witnesses of the hypotheses of each obligation -/

theorem test_wit_LedgerRegisters : (∃ (s : State) (n : Fin 2) (v : BitVec 32), s.ctdGate n = .none ∧
    v.getLsbD 0 = true) ∧ (∃ (s : State) (h : Fin 32) (n : Fin 2) (w : Fin 4) (v : BitVec 64), s.ctdGate n = .none) ∧
    (∃ (s : State) (n : Fin 2) (w : Fin 4) (r : Rec), ((s.ledger n).wins.getD w {}).busy = true ∧
    nextRec (if ((s.ledger n).wins.getD w {}).src then (s.ledger n).flash else (s.ledger n).ram) ((s.ledger n).wins.getD w {}).cursor.toNat = some r) ∧
    (∃ (s : State) (n : Fin 2) (w : Fin 4), ((s.ledger n).wins.getD w {}).busy = true ∧
    nextRec (if ((s.ledger n).wins.getD w {}).src then (s.ledger n).flash else (s.ledger n).ram) ((s.ledger n).wins.getD w {}).cursor.toNat = none) ∧
    (∃ (s : State) (n : Fin 2) (q : BitVec 64) (r : Rec), (s.ledger n).find q.toNat = some r ∧ r.closed = false ∧
    r.rep = 0 ∧ r.born + 1000000000 ≤ s.time.mono) ∧
    (∃ (s : State) (n : Fin 2) (q : BitVec 64) (w : BitVec 32) (r : Rec) (att : Nat) (due : Nat),
    (s.ledger n).owed.find? (fun e => e.1.seq == q.toNat) = some (r, att, due) ∧ due ≤ s.time.mono ∧
    s.mbox.stage.recovered = none) ∧
    (∃ (s : State) (n : Fin 2) (q : BitVec 64) (w : BitVec 32) (r : Rec) (due : Nat),
    (s.ledger n).owed.find? (fun e => e.1.seq == q.toNat) = some (r, 1, due) ∧ due ≤ s.time.mono ∧
    s.mbox.stage.recovered = none) :=
⟨⟨sv, 0, 1, by decide⟩, ⟨sv, 0, 0, 0, 0, by decide⟩,
    ⟨({ sv with ledgers := [{ ram := [{ code := 1, sev := 1, src := 1, seq := 5, time := 0, params := [], born := 0 }], wins := [{ busy := true, cursor := 5 }, {}, {}, {}] }, {}] } : State),
    0, 0, { code := 1, sev := 1, src := 1, seq := 5, time := 0, params := [], born := 0 }, by decide⟩,
    ⟨({ sv with ledgers := [{ ram := [], wins := [{ busy := true, cursor := 5 }, {}, {}, {}] }, {}] } : State), 0, 0,
    by decide⟩,
    ⟨(late { sv with ledgers := [{ ram := [{ code := 1, sev := 1, src := 1, seq := 5, time := 0, params := [], born := 0 }] }, {}] } 1000000000),
    0, 5, { code := 1, sev := 1, src := 1, seq := 5, time := 0, params := [], born := 0 }, by decide⟩,
    ⟨(late { sv with ledgers := [{ owed := [({ code := 1, sev := 1, src := 1, seq := 5, time := 0, params := [], born := 0 }, 1, 7)] }, {}] } 7),
    0, 5, 0, { code := 1, sev := 1, src := 1, seq := 5, time := 0, params := [], born := 0 }, 1, 7, by decide⟩,
    ⟨(late { sv with ledgers := [{ owed := [({ code := 1, sev := 1, src := 1, seq := 5, time := 0, params := [], born := 0 }, 1, 7)] }, {}] } 7),
    0, 5, 0, { code := 1, sev := 1, src := 1, seq := 5, time := 0, params := [], born := 0 }, 7, by decide⟩⟩

theorem test_wit_LedgerCommands : (∃ (r : DReq) (s : State), s.heard 0x0801 [.c, .m, .f] r = true ∧
    r.args.length = 0) ∧ (∃ (r : DReq) (s : State), s.heard 0x0802 [.c, .m, .f] r = true ∧ r.args.length = 3 ∧
    1 ≤ arg (DReq.nums r) 2 ∧ arg (DReq.nums r) 2 ≤ 63) ∧ (∃ (r : DReq) (s : State), s.heard 0x0803 [.c,
    .m, .f] r = true ∧ r.args.length = 9 ∧ 0xF000 ≤ bitsOf (arg (DReq.nums r) 0) 15 0 ∧ bitsOf (arg (DReq.nums r) 0) 18 16 ≤ 3 ∧
    arg (DReq.nums r) 0 < 2 ^ 19) ∧ (∃ (r : DReq) (s : State), s.heard 0x0804 [.c, .m, .f] r = true ∧
    r.args.length = 1 ∧ arg (DReq.nums r) 0 ≤ 8) :=
⟨⟨rm [], sv, by decide⟩, ⟨(rm [0, 0, 63]), sv, by decide⟩, ⟨(rm [0x3F000, 0, 0, 0, 0, 0, 0,
    0, 0]), sv, by decide⟩, ⟨(rm [8]), sv, by decide⟩⟩

theorem test_wit_StagingCommands : (∃ (r : DReq) (s : State) (b : List Byte), s.heard 0x0E01 [.m] r = true ∧
    3 ≤ r.args.length ∧ 1 ≤ arg (DReq.nums r) 0 ∧ arg (DReq.nums r) 0 ≤ 4 ∧ arg (DReq.nums r) 1 % 4 = 0 ∧
    (s.mbox.stage.target = none ∨ s.mbox.stage.target = some (arg (DReq.nums r) 0)) ∧ b = ((DReq.nums r).drop 2).flatMap (leBytes 4) ∧
    arg (DReq.nums r) 1 + b.length ≤ [0, 8388608, 768, 4194304, 262144].getD (arg (DReq.nums r) 0) 0) ∧
    (∃ (r : DReq) (s : State), s.heard 0x0E02 [.m] r = true ∧ r.args.length = 0) ∧ (∀ hv : ({ sv with mbox := { sv.mbox with stage := { target := some 1 } }, ctd := { sv.ctd with nv := { sv.ctd.nv with image := [1] } } } : State).stagedImage.1 = dOk,
    ∃ (r : DReq) (s : State), s.heard 0x0E03 [.m] r = true ∧ r.args.length = 0 ∧ s.mbox.stage.target = some 1 ∧
    s.mbox.stage.job = none ∧ s.mbox.stage.recovered = none ∧ s.stagedImage.1 = dOk ∧ s.ctd.nv.image ≠ []) ∧
    (∀ hv : ({ sv with mbox := { sv.mbox with stage := { target := some 2 } }, ctd := { sv.ctd with nv := { sv.ctd.nv with image := [1] } } } : State).clampCheck (({ sv with mbox := { sv.mbox with stage := { target := some 2 } }, ctd := { sv.ctd with nv := { sv.ctd.nv with image := [1] } } } : State).stagedBytes 768) = 0,
    ∃ (r : DReq) (s : State), s.heard 0x0E04 [.m] r = true ∧ r.args.length = 0 ∧ s.mbox.stage.target = some 2 ∧
    s.mbox.stage.job = none ∧ s.clampCheck (s.stagedBytes 768) = 0) ∧ (∀ hv : (({ sv with mbox := { sv.mbox with stage := { target := some 4 } }, ctd := { sv.ctd with nv := { sv.ctd.nv with image := [1] } } } : State).calFail ((({ sv with mbox := { sv.mbox with stage := { target := some 4 } }, ctd := { sv.ctd with nv := { sv.ctd.nv with image := [1] } } } : State).stagedBytes 262144).take (fieldAt (({ sv with mbox := { sv.mbox with stage := { target := some 4 } }, ctd := { sv.ctd with nv := { sv.ctd.nv with image := [1] } } } : State).stagedBytes 262144) 8 4))).1 = 0,
    ∃ (r : DReq) (s : State) (b : List Byte), s.heard 0x0D02 [.m] r = true ∧ r.args.length = 1 ∧
    arg (DReq.nums r) 0 = 0x43414C57 ∧ s.mbox.stage.target = some 4 ∧ s.mbox.stage.job = none ∧
    b = (s.stagedBytes 262144).take (fieldAt (s.stagedBytes 262144) 8 4) ∧ (s.calFail b).1 = 0) ∧
    (∃ (r : DReq) (s : State), s.heard 0x0E05 [.c, .m, .f] r = true ∧ r.args.length = 0) ∧ (∃ (r : DReq) (s : State) (c : Nat),
    s.heard 0x0E06 [.m] r = true ∧ r.args.length = 0 ∧ s.hasCtd1 = true ∧ s.standby = some c) :=
⟨⟨(rm [2, 764, 7]), sv, (((DReq.nums ((rm [2, 764, 7]) : DReq)).drop 2).flatMap (leBytes 4)),
    by decide, by decide, by decide, by decide, by decide, by decide, rfl, by decide⟩, ⟨rm [],
    sv, by decide⟩, (fun hv => ⟨rm [], ({ sv with mbox := { sv.mbox with stage := { target := some 1 } }, ctd := { sv.ctd with nv := { sv.ctd.nv with image := [1] } } } : State),
    by decide, by decide, by decide, by decide, by decide, hv, by decide⟩), (fun hv => ⟨rm [],
    ({ sv with mbox := { sv.mbox with stage := { target := some 2 } }, ctd := { sv.ctd with nv := { sv.ctd.nv with image := [1] } } } : State),
    by decide, by decide, by decide, by decide, hv⟩), (fun hv => ⟨(rm [0x43414C57]), ({ sv with mbox := { sv.mbox with stage := { target := some 4 } }, ctd := { sv.ctd with nv := { sv.ctd.nv with image := [1] } } } : State),
    (((({ sv with mbox := { sv.mbox with stage := { target := some 4 } }, ctd := { sv.ctd with nv := { sv.ctd.nv with image := [1] } } } : State) : State).stagedBytes 262144).take (fieldAt ((({ sv with mbox := { sv.mbox with stage := { target := some 4 } }, ctd := { sv.ctd with nv := { sv.ctd.nv with image := [1] } } } : State) : State).stagedBytes 262144) 8 4)),
    by decide, by decide, by decide, by decide, by decide, rfl, hv⟩), ⟨rm [], sv, by decide⟩,
    ⟨rm [], two, 1, by decide⟩⟩

theorem test_wit_FlashCommits : (∃ (s : State) (w : Who) (b : List Byte) (h : Nat), s.mbox.stage.job = some (some w,
    2, b) ∧ s.serving = some h) ∧ (∃ (s : State) (w : Who) (b : List Byte) (h : Nat), s.mbox.stage.job = some (some w,
    4, b) ∧ s.serving = some h) ∧ (∃ (s : State) (w : Who) (b : List Byte) (h : Nat), s.mbox.stage.job = some (some w,
    2, b) ∧ s.serving = some h) ∧ (∀ hv : ({ sv with mbox := { sv.mbox with stage := { target := some 1, top := 384, verified := [0], bytes := [(0, 0x45), (1, 0x5A), (2, 0x46), (3, 0x57)] } }, ctd := { sv.ctd with ctds := [{ role := .active, running := true, stage := 4 }, {}], nv := { sv.ctd.nv with image := [1] } } } : State).stagedImage.1 = dOk,
    ∃ (s : State) (h : Nat), s.serving = some h ∧ s.inRom h = true ∧ s.mbox.stage.target = some 1 ∧
    s.mbox.stage.imageThere = true ∧ s.mbox.stage.job = none ∧ s.mbox.stage.recovered = none ∧
    s.stagedImage.1 = dOk ∧ s.ctd.nv.image ≠ []) :=
⟨⟨({ sv with mbox := { sv.mbox with stage := { job := some (some who, 2, [1]) } } } : State),
    who, [1], 0, by decide⟩, ⟨({ sv with mbox := { sv.mbox with stage := { job := some (some who, 4, [1]) } } } : State),
    who, [1], 0, by decide⟩, ⟨({ sv with mbox := { sv.mbox with stage := { job := some (some who, 2, [1]) } } } : State),
    who, [1], 0, by decide⟩, (fun hv => ⟨({ sv with mbox := { sv.mbox with stage := { target := some 1, top := 384, verified := [0], bytes := [(0, 0x45), (1, 0x5A), (2, 0x46), (3, 0x57)] } }, ctd := { sv.ctd with ctds := [{ role := .active, running := true, stage := 4 }, {}], nv := { sv.ctd.nv with image := [1] } } } : State),
    0, by decide, by decide, by decide, by decide, by decide, by decide, hv, by decide⟩)⟩

theorem test_wit_IdentityAndInventory : (∃ (s : State) (c : Fin 2) (v : BitVec 32), s.holder = some c.val ∧
    s.ctd.lease.gates = true ∧ v.getLsbD 31 = true ∧ s.idLocked = false ∧ s.idReason v.toNat = 0) ∧
    (∃ (s : State) (c : Fin 2) (v : BitVec 32), s.holder = some c.val ∧ s.ctd.lease.gates = true ∧
    v.getLsbD 31 = true ∧ s.idLocked = false ∧ s.idReason v.toNat ≠ 0) ∧ (∃ (s : State) (c : Fin 2) (v : BitVec 32),
    s.holder = some c.val ∧ (v.getLsbD 31 = false ∨ s.idLocked = true)) ∧ (∃ (s : State) (i : Initiator) (v : BitVec 32),
    s.isActiveSp i = false) ∧ (∃ (s : State) (c : Fin 2) (v : BitVec 32), s.holder = some c.val ∧
    s.ctd.lease.gates = true ∧ s.hasOptics = true ∧ s.mod.retraining = []) ∧ (∃ (r : DReq) (s : State),
    s.heard 0x0101 [.c, .m, .f] r = true ∧ r.args.length = 0) ∧ (∃ (r : DReq) (s : State), s.heard 0x0102 [.c,
    .m, .f] r = true ∧ r.args.length = 1 ∧ argOf r 0 < 4) ∧ (∃ (r : DReq) (s : State), s.heard 0x0103 [.c,
    .m, .f] r = true ∧ r.args.length = 1 ∧ argOf r 0 < 24) ∧ (∃ (r : DReq) (s : State), s.heard 0x0104 [.c,
    .m, .f] r = true ∧ r.args.length = 1 ∧ argOf r 0 < 8 ∧ s.hasOptics = true) ∧ (∃ (r : DReq) (s : State),
    s.heard 0x0105 [.c, .m, .f] r = true ∧ r.args.length = 1 ∧ argOf r 0 < 2 ∧ s.ctdPresent (argOf r 0) = true) ∧
    (∃ (r : DReq) (s : State), s.heard 0x0106 [.m] r = true ∧ r.args.length = 1 ∧ bitOf (argOf r 0) 31 = true ∧
    bitsOf (argOf r 0) 30 15 = 0 ∧ s.idLocked = false) ∧ (∃ (r : DReq) (s : State), s.heard 0x0107 [.m] r = true ∧
    r.args.length = 1 ∧ argOf r 0 < 4 ∧ s.hasOptics = true ∧ (s.writeSpare (argOf r 0)).mod.retraining = []) ∧
    (∃ (r : DReq) (s : State), s.heard 0x0107 [.m] r = true ∧ r.args.length = 1 ∧ argOf r 0 < 4 ∧
    s.hasOptics = true ∧ (s.writeSpare (argOf r 0)).mod.retraining ≠ []) ∧ (∃ (r : DReq) (s : State),
    s.heard 0x0108 [.m, .f] r = true ∧ r.args.length = 0) ∧ (∃ (s : State) (ch : Fin 512) (b : Bind),
    s.mbox.binds.lookup ch.val = some b ∧ b.last + 60000000000 ≤ s.time.mono) :=
⟨⟨sv, 0, 0x80000001, by decide⟩, ⟨({ sv with fuse := { sv.fuse with variant := .ae } } : State),
    0, 0x80001000, by decide⟩, ⟨sv, 0, 0x7FFFFFFF, by decide⟩, ⟨sv, (.hart 0), 0, by decide⟩,
    ⟨sv, 0, 0, by decide⟩, ⟨rm [], sv, by decide⟩, ⟨(rm [3]), sv, by decide⟩, ⟨(rm [23]), sv,
    by decide⟩, ⟨(rm [7]), sv, by decide⟩, ⟨(rm [1]), sv, by decide⟩, ⟨(rm [0x80007FFF]), sv,
    by decide⟩, ⟨(rm [3]), sv, by decide⟩, ⟨(rm [3]), ({ up with mod := { up.mod with inUse := 0, retraining := [0] } } : State),
    by decide⟩, ⟨rm [], sv, by decide⟩, ⟨(late { sv with mbox := { sv.mbox with binds := [(256, { ip := 1, port := 1, last := 0, queue := [] })] } } 60000000000),
    256, { ip := 1, port := 1, last := 0, queue := [] }, by decide⟩⟩

theorem test_wit_LinkCommands : (∃ (r : DReq) (s : State), s.heard 0x1001 [.m, .f] r = true ∧ r.args.length = 2 ∧
    argOf r 0 < 24 ∧ argOf r 1 = 1 ∧ (argOf r 0 < 9 ∨ 13 ≤ argOf r 0 ∧ argOf r 0 < 16 ∨ s.hasOptics = true) ∧
    s.ctd.clamp.linkPermit.getLsbD (argOf r 0) = true) ∧ (∃ (r : DReq) (s : State), s.heard 0x1001 [.m,
    .f] r = true ∧ r.args.length = 2 ∧ argOf r 0 < 24 ∧ argOf r 1 = 0 ∧ argOf r 0 ≠ 14 ∧ argOf r 0 ≠ 15 ∧
    (argOf r 0 < 9 ∨ argOf r 0 = 13 ∨ s.hasOptics = true) ∧ s.ctd.clamp.linkPermit.getLsbD (argOf r 0) = true) ∧
    (∃ (r : DReq) (s : State) (u : State) (p : Nat), s.heard 0x1001 [.m, .f] r = true ∧ r.args.length = 2 ∧
    argOf r 0 = 14 + p ∧ p < 2 ∧ argOf r 1 = 0 ∧ s.ctd.clamp.linkPermit.getLsbD (14 + p) = true ∧
    u = (s.unitPorts (14 + p)).foldl (fun s p => (s.linkDown p 1).portSettled p) { s with fab := { s.fab with unitsOn := s.fab.unitsOn &&& ~~~BitVec.ofNat 24 (2 ^ (14 + p)) } }) ∧
    (∃ (r : DReq) (s : State), s.heard 0x1002 [.m, .f] r = true ∧ r.args.length = 1 ∧ argOf r 0 < 13 ∧
    (argOf r 0 < 9 ∨ s.hasOptics = true) ∧ (s.port (argOf r 0)).st ≠ .down) ∧
    (∀ hv : Config.rsaVerify ({ sv with ctd := { sv.ctd with clamp := { sv.ctd.clamp with opKey := List.replicate 32 1 } }, fab := { sv.fab with ports := [{ st := .quarantine, row := 2, serial := 9, coord := 16 }] } } : State).ctd.clamp.opKey ((argBytes (DReq.nums (rm ([1,
    0, 0x00100200, 9, 0] ++ List.replicate 97 0))) 0 102).take 24) ((argBytes (DReq.nums (rm ([1, 0, 0x00100200, 9,
    0] ++ List.replicate 97 0))) 0 102).drop 24) = true,
    ∃ (r : DReq) (s : State) (t : List Byte) (p : Nat) (role : Nat), s.heard 0x1003 [.m, .f] r = true ∧
    r.args.length = 102 ∧ t = argBytes (DReq.nums r) 0 102 ∧ p = fieldAt t 8 1 ∧ role = fieldAt t 9 1 ∧ p < 13 ∧
    (p < 9 ∨ s.hasOptics = true) ∧ s.ctd.clamp.opKey.all (· == 0) = false ∧
    Config.rsaVerify s.ctd.clamp.opKey (t.take 24) (t.drop 24) = true ∧ (s.port p).st = .quarantine ∧
    (s.port p).row = 2 ∧ fieldAt t 0 8 = s.fuse.serial.toNat ∧ (s.port p).serial = BitVec.ofNat 64 (fieldAt t 12 8) ∧
    (s.port p).coord.toNat = fieldAt t 10 2 ∧ fieldAt t 20 4 = 0 ∧ s.validRole role (fieldAt t 10 2) = true ∧
    (List.range 13).any (fun q => q != p && (s.port q).role == role && s.isUp q) = false) ∧
    (∃ (r : DReq) (s : State), s.heard 0x1004 [.c, .m, .f] r = true ∧ r.args.length = 1 ∧ argOf r 0 < 13 ∧
    (argOf r 0 < 9 ∨ s.hasOptics = true)) ∧ (∃ (r : DReq) (s : State), s.heard 0x1005 [.m, .f] r = true ∧
    r.args.length = 2 ∧ argOf r 0 < 4 ∧ argOf r 1 < 2 ^ 27) ∧ (∃ (r : DReq) (s : State), s.heard 0x1006 [.m,
    .f] r = true ∧ r.args.length = 2 ∧ argOf r 0 < 64 ∧ s.hasOptics = true) :=
⟨⟨(rm [23, 1]), ({ up with ctd := { up.ctd with clamp := { up.ctd.clamp with linkPermit := 0xFFFFFF } } } : State),
    by decide⟩, ⟨(rm [12, 0]),
    ({ up with ctd := { up.ctd with clamp := { up.ctd.clamp with linkPermit := 0xFFFFFF } } } : State), by decide⟩,
    ⟨(rm [15, 0]),
    ({ up with ctd := { up.ctd with clamp := { up.ctd.clamp with linkPermit := 0xFFFFFF } } } : State), _, 1,
    by decide, by decide, by decide, by decide, by decide, by decide, rfl⟩, ⟨(rm [12]),
    ({ up with fab := { up.fab with ports := List.replicate 13 { st := .up, exchanged := true, lanes := 16, rev := 1, row := 5 } } } : State),
    by decide⟩, fun hv => ⟨(rm ([1, 0, 0x00100200, 9, 0] ++ List.replicate 97 0)),
    ({ sv with ctd := { sv.ctd with clamp := { sv.ctd.clamp with opKey := List.replicate 32 1 } }, fab := { sv.fab with ports := [{ st := .quarantine, row := 2, serial := 9, coord := 16 }] } } : State),
    (argBytes (DReq.nums ((rm ([1, 0, 0x00100200, 9, 0] ++ List.replicate 97 0)) : DReq)) 0 102), 0, 2, by decide,
    by decide, rfl, by decide, by decide, by decide, by decide, by decide, hv, by decide⟩, ⟨(rm [12]), sv,
    by decide⟩, ⟨(rm [3, 0x7FFFFFF]), sv, by decide⟩, ⟨(rm [63, 0]), sv, by decide⟩⟩

theorem test_wit_SliceCommands : (∃ (r : DReq) (s : State) (e : Nat) (x : SliceEnt), s.heard 0x0301 [.m,
    .f] r = true ∧ r.args.length = 3 ∧ argOf r 0 % 4096 ≠ 0 ∧ argOf r 1 < 2 ^ 24 ∧ argOf r 2 < 16 ∧
    (argOf r 2 = 0 ∨ s.hasOptics = true) ∧ e = bitsOf (argOf r 0) 15 12 ∧ s.geomOk (geomArg (argOf r 1)) = true ∧
    s.fab.slices.lookup e = none ∧ s.sliceOf (BitVec.ofNat 12 (argOf r 0)) = none ∧
    x = { s.sliceRegs e with id := BitVec.ofNat 12 (argOf r 0), wrap := s.wrapOf (geomArg (argOf r 1)), epoch := BitVec.ofNat 16 (bitsOf (argOf r 0) 31 16), boundary := s.boundaryOf (geomArg (argOf r 1)) (argOf r 2), geom := geomArg (argOf r 1), circuits := BitVec.ofNat 4 (argOf r 2) }) ∧
    (∃ (r : DReq) (s : State) (x : SliceEnt) (new : BitVec 16), s.heard 0x0302 [.m, .f] r = true ∧
    r.args.length = 2 ∧ argOf r 0 < 16 ∧ argOf r 1 < 2 ^ 16 ∧ s.fab.slices.lookup (argOf r 0) = some x ∧
    new = BitVec.ofNat 16 (argOf r 1) ∧ newerEpoch new x.epoch = true) ∧ (∃ (r : DReq) (s : State) (x : SliceEnt),
    s.heard 0x0303 [.m, .f] r = true ∧ r.args.length = 3 ∧ argOf r 0 < 512 ∧ argOf r 1 < 2 ^ 27 ∧
    argOf r 2 < 2 ^ 27 ∧ s.fab.slices.lookup (argOf r 0 % 16) = some x) ∧ (∃ (r : DReq) (s : State) (x : SliceEnt),
    s.heard 0x0304 [.m, .f] r = true ∧ r.args.length = 1 ∧ argOf r 0 < 16 ∧
    s.fab.slices.lookup (argOf r 0) = some x ∧ s.boundTo (argOf r 0) = []) ∧
    (∃ (r : DReq) (s : State) (x : SliceEnt), s.heard 0x0305 [.m, .f] r = true ∧ r.args.length = 2 ∧
    argOf r 0 < 256 ∧ argOf r 1 < 16 ∧ (s.ctx (argOf r 0)).st ≠ .free ∧ s.fab.slices.lookup (argOf r 1) = some x ∧
    s.eng.queues.any (fun e => e.1 / 64 == argOf r 0 && !e.2.started.isEmpty) = false) ∧
    (∃ (r : DReq) (s : State) (cv : Convoy), s.heard 0x0306 [.c, .m, .f] r = true ∧ r.args.length = 3 ∧
    argOf r 0 < 2 ^ 12 ∧ argOf r 1 < 2 ^ 16 ∧ argOf r 2 < 2 ^ 16 ∧
    (senderOf r.ch.val = some .c → ownConvoy s r.ch.val (DReq.nums r) = true) ∧
    s.convoy? (convoyArg (DReq.nums r)) = some cv ∧ cv.st = .active) :=
⟨⟨(rm [0x1F001, 0, 8]), up, (bitsOf (argOf ((rm [0x1F001, 0, 8]) : DReq) 0) 15 12),
    ({ (up : State).sliceRegs ((bitsOf (argOf ((rm [0x1F001, 0, 8]) : DReq) 0) 15 12) : Nat) with id := BitVec.ofNat 12 (argOf ((rm [0x1F001, 0, 8]) : DReq) 0), wrap := (up : State).wrapOf (geomArg (argOf ((rm [0x1F001, 0, 8]) : DReq) 1)), epoch := BitVec.ofNat 16 (bitsOf (argOf ((rm [0x1F001, 0, 8]) : DReq) 0) 31 16), boundary := (up : State).boundaryOf (geomArg (argOf ((rm [0x1F001, 0, 8]) : DReq) 1)) (argOf ((rm [0x1F001, 0, 8]) : DReq) 2), geom := geomArg (argOf ((rm [0x1F001, 0, 8]) : DReq) 1), circuits := BitVec.ofNat 4 (argOf ((rm [0x1F001, 0, 8]) : DReq) 2) }),
    by decide, by decide, by decide, by decide, by decide, by decide, rfl, by decide, by decide, by decide, rfl⟩,
    ⟨(rm [15, 2]),
    ({ up with fab := { up.fab with slices := [(15, { id := 1, wrap := 0, epoch := 1, boundary := 0, geom := [(0, 1), (0, 1), (0, 1)], circuits := 0 })] } } : State),
    { id := 1, wrap := 0, epoch := 1, boundary := 0, geom := [(0, 1), (0, 1), (0, 1)], circuits := 0 },
    (BitVec.ofNat 16 (argOf ((rm [15, 2]) : DReq) 1)), by decide, by decide, by decide, by decide, by decide, rfl,
    by decide⟩, ⟨(rm [0x1FF, 0x7FFFFFF, 0x7FFFFFF]),
    ({ up with fab := { up.fab with slices := [(15, { id := 1, wrap := 0, epoch := 1, boundary := 0, geom := [(0, 1), (0, 1), (0, 1)], circuits := 0 })] } } : State),
    { id := 1, wrap := 0, epoch := 1, boundary := 0, geom := [(0, 1), (0, 1), (0, 1)], circuits := 0 }, by decide⟩,
    ⟨(rm [15]),
    ({ up with fab := { up.fab with slices := [(15, { id := 1, wrap := 0, epoch := 1, boundary := 0, geom := [(0, 1), (0, 1), (0, 1)], circuits := 0 })] } } : State),
    { id := 1, wrap := 0, epoch := 1, boundary := 0, geom := [(0, 1), (0, 1), (0, 1)], circuits := 0 }, by decide⟩,
    ⟨(rm [255, 15]),
    (withCtx ({ up with fab := { up.fab with slices := [(15, { id := 1, wrap := 0, epoch := 1, boundary := 0, geom := [(0, 1), (0, 1), (0, 1)], circuits := 0 })] } } : State) 255 cx),
    { id := 1, wrap := 0, epoch := 1, boundary := 0, geom := [(0, 1), (0, 1), (0, 1)], circuits := 0 }, by decide⟩,
    ⟨(rm [1, 7, 1]),
    ({ up with fab := { up.fab with convoys := [{ key := { slice := 1, epoch := 1, convoy := 7 }, st := .active }] } } : State),
    { key := { slice := 1, epoch := 1, convoy := 7 }, st := .active }, by decide⟩⟩

theorem test_wit_ContextAndQueueCommands : (∃ (r : DReq) (s : State), s.heard 0x0201 [.m, .f] r = true ∧
    r.args.length = 1 ∧ argOf r 0 < 256 ∧ (s.ctx (argOf r 0)).st = .free) ∧ (∃ (r : DReq) (s : State),
    s.heard 0x0203 [.m, .f] r = true ∧ r.args.length = 7 ∧ s.grantBad (DReq.nums r) = none ∧
    bitsOf (argOf r 0) 15 8 = 1 ∧ (s.ctx (argOf r 0 % 256)).st ≠ .free ∧ (s.ctx (argOf r 0 % 256)).windows.lookup (argOf r 1) = none) ∧
    (∃ (r : DReq) (s : State), s.heard 0x0203 [.m, .f] r = true ∧ r.args.length = 7 ∧ s.grantBad (DReq.nums r) = none ∧
    bitsOf (argOf r 0) 15 8 = 4 ∧ (s.ctx (argOf r 0 % 256)).st ≠ .free ∧ (grantUnits (DReq.nums r)).any (fun u => (s.eng.semOwner.lookup u).getD (argOf r 0 % 256) != argOf r 0 % 256) = false) ∧
    (∃ (r : DReq) (s : State), s.heard 0x0203 [.m, .f] r = true ∧ r.args.length = 7 ∧ s.grantBad (DReq.nums r) = none ∧
    bitsOf (argOf r 0) 15 8 = 7 ∧ (s.ctx (argOf r 0 % 256)).st ≠ .free) ∧ (∃ (r : DReq) (s : State),
    s.heard 0x0204 [.m, .f] r = true ∧ r.args.length = 7 ∧ s.grantBad (DReq.nums r) = none ∧
    bitsOf (argOf r 0) 15 8 = 1 ∧ (s.ctx (argOf r 0 % 256)).st ≠ .free ∧ (s.ctx (argOf r 0 % 256)).windows.lookup (argOf r 1) = some (arg64Of r 3,
    arg64Of r 5) ∧ s.windowInUse (argOf r 0 % 256) (arg64Of r 3) (arg64Of r 5) = false) ∧ (∃ (r : DReq) (s : State),
    s.heard 0x020E [.c, .m, .f] r = true ∧ r.args.length = 1 ∧ argOf r 0 < 256 ∧ (senderOf r.ch.val = some .c → ownCtx s r.ch.val (DReq.nums r) = true)) ∧
    (∃ (r : DReq) (s : State) (ring : Nat) (comp : Nat), s.heard 0x0205 [.c, .m, .f] r = true ∧
    (senderOf r.ch.val = some .c → ownCtx s r.ch.val (DReq.nums r) = true) ∧ r.args.length = 6 ∧
    bitsOf (argOf r 0) 15 14 ≠ 3 ∧ 6 ≤ bitsOf (argOf r 0) 20 16 ∧ bitsOf (argOf r 0) 20 16 ≤ 16 ∧
    argOf r 0 < 2 ^ 23 ∧ argOf r 1 < [64, 16, 32].getD (bitsOf (argOf r 0) 15 14) 0 ∧ (s.ctx (argOf r 0 % 256)).st = .active ∧
    s.twinned (queueEng (DReq.nums r)) = false ∧ (s.engine (queueEng (DReq.nums r))).st ≠ .resetting ∧
    s.localRange (argOf r 0 % 256) (arg64Of r 2) (128 * 2 ^ bitsOf (argOf r 0) 20 16) = some ring ∧
    ring % 4096 = 0 ∧ s.localRange (argOf r 0 % 256) (arg64Of r 4) (64 * 2 ^ bitsOf (argOf r 0) 20 16) = some comp ∧
    comp % 4096 = 0 ∧ s.queue? (argOf r 0 % 256) (bitsOf (argOf r 0) 13 8) = none ∧ (s.eng.queues.filter fun e => e.1 / 64 == argOf r 0 % 256).length < (s.ctx (argOf r 0 % 256)).queueMax) ∧
    (∃ (r : DReq) (s : State) (q : Queue), s.heard 0x0206 [.c, .m, .f] r = true ∧ (senderOf r.ch.val = some .c → ownCtx s r.ch.val (DReq.nums r) = true) ∧
    r.args.length = 4 ∧ argOf r 0 < 2 ^ 14 ∧ s.queue? (argOf r 0 % 256) (argOf r 0 / 256) = some q) ∧
    (∃ (r : DReq) (s : State) (q : Queue), s.heard 0x0207 [.c, .m, .f] r = true ∧ (senderOf r.ch.val = some .c → ownCtx s r.ch.val (DReq.nums r) = true) ∧
    r.args.length = 1 ∧ argOf r 0 < 2 ^ 14 ∧ s.queue? (argOf r 0 % 256) (argOf r 0 / 256) = some q ∧
    q.started = []) ∧ (∃ (r : DReq) (s : State) (q : Queue), s.heard 0x0207 [.c, .m, .f] r = true ∧
    (senderOf r.ch.val = some .c → ownCtx s r.ch.val (DReq.nums r) = true) ∧ r.args.length = 1 ∧
    argOf r 0 < 2 ^ 14 ∧ s.queue? (argOf r 0 % 256) (argOf r 0 / 256) = some q ∧ q.started ≠ []) :=
⟨⟨(rm [255]), sv, by decide⟩, ⟨(rm [0x1FF, 15, 0, 0x200000, 0, 0x200000, 0]), (withCtx sv 255 cx),
    by decide⟩, ⟨(rm [0x4FF, 1023, 1, 0, 0, 0, 0]), (withCtx sv 255 cx), by decide⟩, ⟨(rm [0x7FF,
    0, 16384, 0, 0, 0, 0]), (withCtx sv 255 cx), by decide⟩, ⟨(rm [0x1FF, 15, 0, 0x200000, 0,
    0x200000, 0]), (withCtx sv 255 { cx with windows := [(15, (0x200000, 0x200000))] }), by decide⟩,
    ⟨(rm [255]), sv, by decide⟩, ⟨(rm [0x60000, 0, 0, 0, 0x100000, 0]), (withCtx up 0 cx), 0,
    0x100000, by decide⟩, ⟨(rm [0, 0, 0, 0]), (withQ (withCtx up 0 cx) q0), q0, by decide⟩,
    ⟨(rm [0]), (withQ (withCtx up 0 cx) q0), q0, by decide⟩, ⟨(rm [0]), (withQ (withCtx up 0 cx) { q0 with started := [st0] }),
    { q0 with started := [st0] }, by decide⟩⟩

theorem test_wit_ContextUnitCommands : (∃ (r : DReq) (s : State), s.heard 0x0208 [.m, .f] r = true ∧
    r.args.length = 3 ∧ argOf r 0 < 256 ∧ argOf r 1 < 32 ∧ argOf r 2 < 2 ∧ (s.ctx (argOf r 0)).st ≠ .free ∧
    (s.eng.hartCtx.lookup (argOf r 1)).getD (argOf r 0) = argOf r 0) ∧ (∃ (r : DReq) (s : State),
    s.heard 0x0209 [.m, .f] r = true ∧ r.args.length = 2 ∧ argOf r 0 < 256 ∧ argOf r 1 < 64 ∧
    argOf r 1 % 2 = 0 ∧ (s.ctx (argOf r 0)).st ≠ .free ∧ s.twinned (argOf r 1) = false ∧ s.eng.queues.any (fun e => e.2.eng == argOf r 1 || e.2.eng == argOf r 1 + 1) = false ∧
    (pairGroups (argOf r 1)).any (fun g => (s.eng.tileOwner.lookup g).isSome) = false) ∧ (∃ (r : DReq) (s : State),
    s.heard 0x020A [.m, .f] r = true ∧ r.args.length = 2 ∧ argOf r 0 < 256 ∧ argOf r 1 < 64 ∧
    argOf r 1 % 2 = 0 ∧ (s.ctx (argOf r 0)).st ≠ .free ∧ s.twinned (argOf r 1) = true ∧ s.eng.tileOwner.lookup (4 * argOf r 1) = some (argOf r 0) ∧
    s.eng.queues.any (fun e => e.2.eng == argOf r 1 || e.2.eng == argOf r 1 + 1) = false) ∧
    (∃ (r : DReq) (s : State), s.heard 0x020B [.c, .m, .f] r = true ∧ (senderOf r.ch.val = some .c → ownCtx s r.ch.val (DReq.nums r) = true) ∧
    r.args.length = 3 ∧ argOf r 0 < 2 ^ 14 ∧ bitOf (argOf r 0) 8 = true ∧ 4 ≤ bitsOf (argOf r 0) 13 9 ∧
    bitsOf (argOf r 0) 13 9 ≤ 16 ∧ (s.ctx (argOf r 0 % 256)).st ≠ .free ∧ (s.ctx (argOf r 0 % 256)).debug = false ∧
    arg64Of r 1 % 16384 = 0 ∧ arg64Of r 1 < 2 ^ 52 ∧ (s.ctx (argOf r 0 % 256)).inWindows (arg64Of r 1) (16384 * 2 ^ bitsOf (argOf r 0) 13 9) = true) ∧
    (∃ (r : DReq) (s : State) (b : Nat) (tb : Nat), s.heard 0x020C [.c, .m, .f] r = true ∧ (senderOf r.ch.val = some .c → ownCtx s r.ch.val (DReq.nums r) = true ∧
    s.holdsSem r.ch.val (bitsOf (argOf r 6) 29 16) = true) ∧ r.args.length = 7 ∧ argOf r 0 < 256 ∧
    1 ≤ bitsOf (argOf r 6) 12 0 ∧ bitsOf (argOf r 6) 12 0 ≤ 4096 ∧ bitsOf (argOf r 6) 15 13 = 0 ∧
    bitsOf (argOf r 6) 31 30 = 0 ∧ (s.ctx (argOf r 0)).st ≠ .free ∧ arg64Of r 1 % 2 ^ 21 = 0 ∧
    argOf r 3 ≠ 0 ∧ arg64Of r 1 < 2 ^ 52 ∧ (s.ctx (argOf r 0)).inWindow (arg64Of r 1) (argOf r 3 * 2 ^ 21) = true ∧
    s.place (arg64Of r 1) = .loc b ∧ b + argOf r 3 * 2 ^ 21 ≤ usableTop ∧ arg64Of r 4 % 64 = 0 ∧
    arg64Of r 4 < 2 ^ 52 ∧ (s.ctx (argOf r 0)).inWindow (arg64Of r 4) (64 * bitsOf (argOf r 6) 12 0) = true ∧
    s.place (arg64Of r 4) = .loc tb ∧ tb + 64 * bitsOf (argOf r 6) 12 0 ≤ usableTop ∧ meets (arg64Of r 1) (argOf r 3 * 2 ^ 21) (arg64Of r 4) (64 * bitsOf (argOf r 6) 12 0) = false ∧
    s.holdsSem (argOf r 0) (bitsOf (argOf r 6) 29 16) = true ∧ (s.stash (argOf r 0)).open? = false) ∧
    (∃ (r : DReq) (s : State), s.heard 0x020D [.c, .m, .f] r = true ∧ (senderOf r.ch.val = some .c → ownCtx s r.ch.val (DReq.nums r) = true) ∧
    r.args.length = 1 ∧ argOf r 0 < 256 ∧ (s.ctx (argOf r 0)).st ≠ .free ∧ (s.stash (argOf r 0)).open? = false) :=
⟨⟨(rm [255, 31, 1]), (withCtx sv 255 cx), by decide⟩, ⟨(rm [255, 62]), (withCtx sv 255 cx),
    by decide⟩, ⟨(rm [255, 62]), ({ (withCtx sv 255 cx) with eng := { ((withCtx sv 255 cx)).eng with engs := [(62, { twin := true }), (63, { twin := true })], tileOwner := [(248, 255)] } } : State),
    by decide⟩, ⟨(rm [0x0900, 0, 0]), (withCtx up 0 cx), by decide⟩, ⟨(rm [0, 0, 0, 1, 0x200000,
    0, 1]), ({ (withCtx up 0 cx) with eng := { ((withCtx up 0 cx)).eng with semOwner := [(0, 0)] } } : State),
    0, 0x200000, by decide⟩, ⟨(rm [0]), (withCtx up 0 cx), by decide⟩⟩

theorem test_wit_ManagementPortAndI3c : (∃ (s : State) (f : MgmtFrame), s.mgmt.linkUp = true ∧
    s.unitOn 13 = true ∧ s.serving = none) ∧ (∃ (s : State) (h : Nat) (ip : BitVec 32) (mac : BitVec 48),
    s.mgmt.linkUp = true ∧ s.unitOn 13 = true ∧ s.serving = some h ∧ s.mgmt.valid = true) ∧
    (∃ (s : State) (h : Nat) (src : BitVec 32) (port : BitVec 16) (b : List Byte), s.mgmt.linkUp = true ∧
    s.unitOn 13 = true ∧ s.serving = some h ∧ s.mgmt.valid = true) ∧ (∃ (s : State) (a : BitVec 7) (lo : BitVec 8) (hi : BitVec 8),
    s.i3c.addr = some a ∧ 0x200 ≤ lo.toNat + 256 * hi.toNat) ∧ (∃ (s : State) (a : BitVec 7) (b : BitVec 8),
    s.i3c.addr = some a) ∧ (∃ (s : State) (a : BitVec 7), s.i3c.addr = some a ∧ s.i3c.offset = 0x110) :=
⟨⟨({ (({ up with mgmt := { up.mgmt with linkUp := true, valid := true } } : State)) with ctd := { sv.ctd with lease := {} } } : State),
    (.arpReply 1 2), by decide⟩, ⟨({ up with mgmt := { up.mgmt with linkUp := true, valid := true } } : State),
    0, 0, 0, by decide⟩, ⟨({ up with mgmt := { up.mgmt with linkUp := true, valid := true } } : State),
    0, 0, 0, [], by decide⟩, ⟨({ sv with i3c := { addr := some 8 } } : State), 8, 0, 2, by decide⟩,
    ⟨({ sv with i3c := { addr := some 8 } } : State), 8, 0, by decide⟩, ⟨({ sv with i3c := { addr := some 8, offset := 0x110 } } : State),
    8, by decide⟩⟩

theorem test_wit_Attestation : (∃ (r : DReq) (s : State) (req : List Byte), s.heard 0x1101 [.m,
    .f] r = true ∧ 2 ≤ r.args.length ∧ r.args.length ≤ 1023 ∧ 1 ≤ argOf r 0 ∧ argOf r 0 ≤ 4088 ∧
    (DReq.nums r).length = 1 + cdiv (argOf r 0) 4 ∧ s.spdm.pending = none ∧ req = (((DReq.nums r).drop 1).flatMap (leBytes 4)).take (argOf r 0) ∧
    fieldAt req 1 1 = 0x84) ∧ (∃ (r : DReq) (s : State) (req : List Byte), s.heard 0x1101 [.m,
    .f] r = true ∧ 2 ≤ r.args.length ∧ r.args.length ≤ 1023 ∧ 1 ≤ argOf r 0 ∧ argOf r 0 ≤ 4088 ∧
    (DReq.nums r).length = 1 + cdiv (argOf r 0) 4 ∧ s.spdm.pending = none ∧ req = (((DReq.nums r).drop 1).flatMap (leBytes 4)).take (argOf r 0) ∧
    fieldAt req 1 1 ≠ 0x84 ∧ s.spdm.chan ≠ some r.ch.val) ∧ (∃ (s : State) (w : Who) (req : List Byte) (h : Nat),
    s.spdm.pending = some (w, req) ∧ s.serving = some h ∧ fieldAt req 1 1 = 0x83) ∧ (∃ (r : DReq) (s : State) (b : List Byte),
    s.heard 0x1102 [.c, .m, .f] r = true ∧ r.args.length = 3 ∧ argOf r 0 = 0 ∧ 1 ≤ argOf r 2 ∧
    argOf r 2 ≤ 4088 ∧ b = ((Config.certChain 0).drop (argOf r 1)).take (argOf r 2)) :=
⟨⟨(rm [4, 0x00008410]), sv, ((((DReq.nums ((rm [4, 0x00008410]) : DReq)).drop 1).flatMap (leBytes 4)).take (argOf ((rm [4,
    0x00008410]) : DReq) 0)), by decide, by decide, by decide, by decide, by decide, by decide,
    by decide, rfl, by decide⟩, ⟨(rm [4, 0x0000E110]), sv, ((((DReq.nums ((rm [4, 0x0000E110]) : DReq)).drop 1).flatMap (leBytes 4)).take (argOf ((rm [4,
    0x0000E110]) : DReq) 0)), by decide, by decide, by decide, by decide, by decide, by decide,
    by decide, rfl, by decide⟩, ⟨({ sv with spdm := { sv.spdm with pending := some (who, [0x10, 0x83, 0, 0]) } } : State),
    who, [0x10, 0x83, 0, 0], 0, by decide⟩, ⟨(rm [0, 0, 4088]), sv, (((Config.certChain 0).drop (argOf ((rm [0,
    0, 4088]) : DReq) 1)).take (argOf ((rm [0, 0, 4088]) : DReq) 2)), by decide, by decide,
    by decide, by decide, by decide, rfl⟩⟩

theorem test_wit_RegisterAccess : (∃ (s : State) (i : Initiator) (a : BitVec 52) (n : Nat) (v : BitVec 64) (hw : BitVec 64) (e : AccErr),
    s.csrAt i a.toNat n = .error (.err e)) ∧
    (∃ (s : State) (i : Initiator) (a : BitVec 52) (n : Nat) (v : BitVec 64) (hw : BitVec 64) (u : CsrUnit) (r : Reg) (h : Bool),
    s.csrAt i a.toNat n = .ok (u, r, h) ∧ s.mayWrite i u r = false) ∧
    (∃ (s : State) (c : Fin 2) (a : BitVec 52) (v : BitVec 64) (hw : BitVec 64) (u : CsrUnit),
    s.csrAt (.sp c) a.toNat 32 = .ok (u, .tbThresh, false) ∧ s.holder = some c.val ∧ s.ctd.lease.gates = true) ∧
    (∃ (s : State) (i : Initiator) (a : BitVec 52) (n : Nat) (w : BitVec 64) (e : AccErr),
    s.csrAt i a.toNat n = .error (.err e)) ∧
    (∃ (s : State) (i : Initiator) (a : BitVec 52) (w : BitVec 64) (u : CsrUnit) (p : Nat) (h : Bool),
    s.csrAt i a.toNat 64 = .ok (u, .portErr p, h)) ∧
    (∃ (s : State) (i : Initiator) (a : BitVec 52) (n : Nat) (v : BitVec 64) (hw : BitVec 64) (w : BitVec 64),
    s.csrAt i a.toNat n = .error .optical) ∧
    (∃ (s : State) (h : Fin 32) (op : AccessOp) (a : BitVec 52) (off : Nat) (f : List LineFlip),
    s.place a.toNat = .loc off ∧ off + opSize op ≤ usableTop ∧ s.regionUp (dieOf off) = false) ∧
    (∃ (s : State) (h : Fin 32) (op : AccessOp) (a : BitVec 52) (off : Nat) (k : Nat), s.place a.toNat = .loc off ∧
    off + opSize op ≤ usableTop ∧ s.regionUp (dieOf off) = true ∧ s.ringPath (h.val / 8) (dieOf off) = .none ∧
    s.txRoom (.host (.hart h)) = true ∧ s.huskStop op off = some k) ∧
    (∃ (s : State) (h : Fin 32) (op : AccessOp) (a : BitVec 52) (off : Nat) (p : Nat) (f : List LineFlip),
    s.place a.toNat = .loc off ∧ off + opSize op ≤ usableTop ∧ s.regionUp (dieOf off) = true ∧
    s.ringPath (h.val / 8) (dieOf off) = .waiting ∧ diagPair (h.val / 8) (dieOf off) = some p) ∧
    (∃ (s : State) (c : Fin 2) (op : AccessOp) (a : BitVec 52) (f : List LineFlip), a.toNat + opSize op ≤ usableTop ∧
    s.ctd.clamp.localWin = []) :=
⟨⟨sv, (.hart 0), 0xF05000000000, 32, 0, 0, .unmapped, by decide⟩, ⟨sv, (.hart 0), 0xF02000300008, 32, 0, 0, (.ctd 0),
    .tbThresh, false, by decide⟩, ⟨sv, 0, 0xF02000300008, 0, 0, (.ctd 0), by decide⟩, ⟨sv, (.hart 0), 0xF05000000000,
    32, 0, .unmapped, by decide⟩, ⟨up, (.hart 0), 0xF01040100018, 0, (.die 0), 0, false, by decide⟩, ⟨sv, (.sp 0),
    0xF04000000000, 32, 0, 0, 0, by decide⟩, ⟨sv, 0, (.load 1), 0, 0, [], by decide⟩,
    ⟨({ up with mem := { up.mem with main := { cells := [(0x1000, 7)], husks := [4] } } } : State), 0, (.load 8),
    0x80, 0x80, 4, by decide⟩, ⟨({ up with ring := { up.ring with change := [some true, none] } } : State), 24,
    (.load 1), 0, 0, 0, [], by decide⟩, ⟨sv, 0, (.load 8), 0x167FFFFFFF8, [], by decide⟩⟩

theorem test_wit_HartMemoryAccess : (∃ (s : State) (h : Fin 32) (b : List Byte) (a : BitVec 52) (off : Nat),
    s.mem.main.wf = true ∧ s.place a.toNat = .loc off ∧ off + b.length ≤ usableTop ∧ s.regionUp (dieOf off) = true ∧
    s.ringPath (h.val / 8) (dieOf off) = .none ∧ s.txRoom (.host (.hart h)) = true ∧
    s.huskStop (.store b) off = none) ∧ (∃ (s : State) (h : Fin 32) (n : Nat) (a : BitVec 52) (off : Nat),
    s.place a.toNat = .loc off ∧ off + n ≤ usableTop ∧ s.regionUp (dieOf off) = true ∧
    s.ringPath (h.val / 8) (dieOf off) = .none ∧ s.txRoom (.host (.hart h)) = true ∧
    s.huskStop (.load n) off = none ∧ off < usableTop) ∧
    (∃ (s : State) (t : State) (h : Fin 32) (o : Fin 8) (w64 : Bool) (x : BitVec 64) (c : BitVec 64) (a : BitVec 52) (off : Nat),
    s.place a.toNat = .loc off ∧ off + (if w64 then 8 else 4) ≤ usableTop ∧ s.regionUp (dieOf off) = true ∧
    s.ringPath (h.val / 8) (dieOf off) = .none ∧ s.txRoom (.host (.hart h)) = true ∧
    s.huskStop (.amo o w64 x c) off = none ∧ t = s.txTouch (h.val / 8) 1) :=
⟨⟨({ up with mem := { up.mem with main := { cells := [(0x1000, 7)], husks := [4] } } } : State), 0, [1, 2],
    0x5A00000000, 0x5A00000000, by decide⟩,
    ⟨({ up with mem := { up.mem with main := { cells := [(0x1000, 7)], husks := [4] } } } : State), 0, 8, 0x1000,
    0x1000, by decide⟩,
    ⟨({ up with mem := { up.mem with main := { cells := [(0x1000, 7)], husks := [4] } } } : State),
    ((({ up with mem := { up.mem with main := { cells := [(0x1000, 7)], husks := [4] } } } : State) : State).txTouch ((0 : Fin 32).val / 8) 1),
    0, 7, true, 0, 0, 0x1000, 0x1000, by decide, by decide, by decide, by decide, by decide, by decide, rfl⟩⟩

theorem test_wit_RingEdges : (∃ (s : State) (t : State) (p : Fin 2) (alt : Bool),
    s.ring.change.getD p none = some alt ∧
    t = { s with ring := { s.ring with alt := s.ring.alt.set p alt, change := s.ring.change.set p none, waiting := s.ring.waiting.filter (·.pair != p.val) } }) ∧
    (∃ (s : State) (p : Fin 2), s.ring.change.getD p none = none) ∧ (∃ (s : State) (p : Nat), p < 2 ∧
    s.ring.change.getD p none = none ∧ s.ring.alt.getD p false = s.pathOk p false) ∧ (∃ (s : State) (p : Nat),
    p < 2 ∧ s.ring.change.getD p none = none ∧ s.ring.alt.getD p false = (!s.pathOk p false)) :=
⟨⟨({ up with ring := { up.ring with change := [none, some true] } } : State), _, 1, true, by decide, rfl⟩, ⟨up, 1,
    by decide⟩, ⟨({ up with ring := { up.ring with alt := [true, true] } } : State), 1, by decide⟩, ⟨up, 1,
    by decide⟩⟩

theorem test_wit_ChannelPage : (∃ (s : State) (h : Fin 32) (c : Fin 2) (ch : Fin 512) (n : Fin 8) (v : BitVec 32),
    s.pageGate (.hart h) c ch = .none ∧ (s.chan c ch).txFull = false) ∧ (∃ (s : State) (h : Fin 32) (c : Fin 2) (ch : Fin 512) (n : Fin 8) (v : BitVec 32),
    s.pageGate (.hart h) c ch = .none ∧ (s.chan c ch).txFull = true) ∧ (∃ (s : State) (h : Fin 32) (c : Fin 2) (ch : Fin 512) (v : BitVec 32),
    s.pageGate (.hart h) c ch = .none ∧ (s.chan c ch).txFull = false ∧ v.getLsbD 0 = true) ∧
    (∃ (s : State) (h : Fin 32) (c : Fin 2) (ch : Fin 512), s.pageGate (.hart h) c ch = .none ∧
    (s.chan c ch).rxFull = true) ∧ (∃ (s : State) (h : Fin 32) (c : Fin 2) (ch : Fin 512), s.pageGate (.hart h) c ch = .none ∧
    (s.chan c ch).rxFull = false) ∧ (∃ (s : State) (h : Fin 32) (c : Fin 2) (ch : Fin 512) (n : Fin 8) (v : BitVec 32) (e : AccErr),
    e ≠ .none ∧ s.pageGate (.hart h) c ch = e) :=
⟨⟨sv, 31, 0, 255, 7, 0, by decide⟩, ⟨({ sv with mbox := { sv.mbox with chans := [(255, { txFull := true })] } } : State),
    0, 0, 255, 7, 0, by decide⟩, ⟨sv, 0, 0, 255, 1, by decide⟩, ⟨({ sv with mbox := { sv.mbox with chans := [(255, { rxFull := true })] } } : State),
    0, 0, 255, by decide⟩, ⟨sv, 0, 0, 255, by decide⟩, ⟨sv, 0, 0, 256, 0, 0, .unmapped, by decide⟩⟩

theorem test_wit_Messages : (∃ (s : State) (c : Fin 2) (ch : Fin 512) (h : Nat), (s.chan c ch).txFull = true ∧
    s.carriesOut c = true ∧ ch.val < 256 ∧ (s.chan c ch).irqTx = false ∧ s.mbox.binds.lookup ch.val = none ∧
    (s.chan c ch).openCmd = none ∧ h = ((s.chan c ch).tx.getD 0 0).toNat ∧ bitOf h 27 = false ∧ bitOf h 28 = true ∧
    bitOf h 29 = false ∧ bitOf h 30 = false ∧ bitOf h 31 = false ∧ bitsOf h 18 16 = 7) ∧
    (∃ (s : State) (c : Fin 2) (ch : Fin 512) (h : Nat), (s.chan c ch).txFull = true ∧ s.carriesOut c = true ∧
    ch.val < 256 ∧ (s.chan c ch).irqTx = false ∧ s.mbox.binds.lookup ch.val = none ∧
    h = ((s.chan c ch).tx.getD 0 0).toNat ∧ bitOf h 27 = true) ∧
    (∃ (s : State) (c : Fin 2) (ch : Fin 512) (m : Msg) (x : Channel), s.carriesOut c = true ∧ ch.val < 256 ∧
    (s.chan c ch).nextUp = some (m, x) ∧ (s.chan c ch).rxFull = false ∧ (s.chan c ch).irqRx = false) ∧
    (∃ (s : State) (ip : BitVec 32) (port : BitVec 16) (b : List Byte) (h : Nat), s.serving = some h ∧
    36 ≤ b.length ∧ b.length ≤ 260 ∧ (b.length - 4) % 32 = 0 ∧ 256 ≤ fieldAt b 0 2 ∧ fieldAt b 0 2 ≤ 287 ∧
    fieldAt b 2 2 = 0 ∧ s.mbox.binds.lookup (fieldAt b 0 2) = none) ∧
    (∃ (s : State) (ip : BitVec 32) (port : BitVec 16) (b : List Byte), s.serving = none) ∧
    (∃ (s : State) (c : Fin 2) (ch : Fin 512) (x : Nat) (y : Nat) (l : List Word) (t : Nat),
    (s.chan c ch).openCmd = some (x, y, l, t) ∧ t + 1000000000 ≤ s.time.mono) ∧
    (∃ (s : State) (c : Fin 2) (ch : Fin 512), (s.chan c ch).txFull = true ∧ s.carriesOut c = true ∧ 416 ≤ ch.val) ∧
    (∃ (s : State) (src : BitVec 15) (b : List Byte) (h : Nat) (e : Nat × Bind), s.serving = some h ∧
    b.length % 32 = 0 ∧ 32 ≤ b.length ∧ b.length ≤ 256 ∧
    s.mbox.binds.find? (fun e => e.1 ≥ 288 && e.2.ip == src.toNat) = some e) ∧
    (∃ (s : State) (src : BitVec 15) (b : List Byte) (h : Nat) (i : Nat), s.serving = some h ∧ b.length % 32 = 0 ∧
    32 ≤ b.length ∧ b.length ≤ 256 ∧ s.mbox.binds.find? (fun e => e.1 ≥ 288 && e.2.ip == src.toNat) = none ∧
    (List.range 128).find? (fun i => (s.mbox.binds.lookup (288 + i)).isNone) = some i) ∧
    (∃ (s : State) (src : BitVec 15) (b : List Byte), s.serving = none) :=
⟨⟨({ sv with mbox := { sv.mbox with chans := [(255, { txFull := true, tx := [0x10070801, 0, 0, 0, 0, 0, 0, 0] })] } } : State),
    0, 255,
    ((((({ sv with mbox := { sv.mbox with chans := [(255, { txFull := true, tx := [0x10070801, 0, 0, 0, 0, 0, 0, 0] })] } } : State) : State).chan (0 : Fin 2) (255 : Fin 512)).tx.getD 0 0).toNat),
    by decide, by decide, by decide, by decide, by decide, by decide, rfl, by decide⟩,
    ⟨({ sv with mbox := { sv.mbox with chans := [(255, { txFull := true, tx := [0x08000801, 0, 0, 0, 0, 0, 0, 0] })] } } : State),
    0, 255,
    ((((({ sv with mbox := { sv.mbox with chans := [(255, { txFull := true, tx := [0x08000801, 0, 0, 0, 0, 0, 0, 0] })] } } : State) : State).chan (0 : Fin 2) (255 : Fin 512)).tx.getD 0 0).toNat),
    by decide, by decide, by decide, by decide, by decide, rfl, by decide⟩,
    ⟨({ sv with mbox := { sv.mbox with chans := [(255, { up := [[1]] })] } } : State), 0, 255, [1], { up := [] },
    by decide⟩, ⟨sv, 0, 0, ([31, 1, 0, 0] ++ List.replicate 32 0), 0, by decide⟩, ⟨({ } : State), 0, 0, [],
    by decide⟩,
    ⟨(late ({ sv with mbox := { sv.mbox with chans := [(511, { openCmd := some (1, 1, [], 0) })] } } : State) 1000000000),
    0, 511, 1, 1, [], 0, by decide⟩,
    ⟨({ sv with mbox := { sv.mbox with chans := [(416, { txFull := true })] } } : State), 0, 416, by decide⟩,
    ⟨({ sv with mbox := { sv.mbox with binds := [(415, { ip := 5, port := 0, last := 0, queue := [] })] } } : State),
    5, (List.replicate 32 0), 0, (415, { ip := 5, port := 0, last := 0, queue := [] }), by decide⟩, ⟨sv, 5,
    (List.replicate 64 0), 0, 0, by decide⟩, ⟨({} : State), 0, [], by decide⟩⟩

theorem test_wit_DaridProtocol : (∃ (r : DReq) (s : State), s.ready 0x0304 r = true ∧ senderOf r.ch.val = some .c) ∧
    (∃ (r : DReq) (s : State), s.heard 0x0804 [.c, .m, .f] r = true ∧ r.args.length ≠ 1) ∧ (∃ (r : DReq) (s : State),
    s.carriesOut r.ctd.val = true ∧ (s.chan r.ctd.val r.ch.val).cache = none ∧ s.ctd.nv.latched = true ∧
    senderOf r.ch.val = some .f) ∧ (∃ (r : DReq) (s : State) (fin : List Word), s.carriesOut r.ctd.val = true ∧
    (s.chan r.ctd.val r.ch.val).cache = some (0x0609, r.seq.toNat, some fin)) ∧ (∃ (r : DReq) (s : State) (o : Nat) (q : Nat),
    s.carriesOut r.ctd.val = true ∧ ¬(o = 0x0804 ∧ q = r.seq.toNat) ∧ (s.chan r.ctd.val r.ch.val).cache = some (o,
    q, none)) ∧ (∃ (w : Who) (d : DRes) (t : State), d.status ≠ dPending ∧ t = answerDarid w d) :=
⟨⟨(rq 255 []), sv, by decide⟩, ⟨rm [], sv, by decide⟩, ⟨(rq 415 []), ({ sv with ctd := { sv.ctd with nv := { sv.ctd.nv with latched := true } } } : State),
    by decide⟩, ⟨rm [], ({ sv with mbox := { sv.mbox with chans := [(256, { cache := some (0x0609, 1, some [0]) })] } } : State),
    [0], by decide⟩, ⟨rm [], ({ sv with mbox := { sv.mbox with chans := [(256, { cache := some (0x0804, 0, none) })] } } : State),
    0x0804, 0, by decide⟩, ⟨who, { s := sv }, (answerDarid (who : Who) ({ s := sv } : DRes)),
    by decide, rfl⟩⟩

theorem test_wit_HoardCommands : (∃ (r : DReq) (s : State) (c : Nat) (n : Nat) (base : Nat) (size : Nat) (ps : List Nat) (e : Nat) (x : SliceEnt),
    s.heard 0x0601 [.m, .f] r = true ∧ r.args.length = 8 ∧ c = argOf r 0 ∧ c < 256 ∧ n = argOf r 1 ∧
    1 ≤ n ∧ n ≤ 3 ∧ (∀ i, 2 ≤ i → i ≤ 4 → argOf r i < 2 ^ 15 ∧ (n + 2 ≤ i → argOf r i = 0)) ∧
    argOf r 7 = 0 ∧ ps = ((DReq.nums r).drop 2).take n ∧ base = argOf r 5 * 2 ^ 21 ∧ size = argOf r 6 * 2 ^ 21 ∧
    base < usableTop ∧ size ≤ usableTop ∧ ps.contains s.ownId = false ∧ noDup ps = true ∧ (s.ctx c).slice = some e ∧
    s.fab.slices.lookup e = some x ∧ x.wins.any (fun w => w.2.1 * 2 ^ 21 ≤ base && base + size ≤ (w.2.1 + w.2.2) * 2 ^ 21) = true ∧
    (s.localWins c).any (fun w => meets w.1 w.2 base size) = false ∧ 4 * 2 ^ 20 ≤ argOf r 6 / n * 2 ^ 21 ∧
    s.snap? c = none ∧ s.job.fills.any (·.ctx == c) = false) ∧ (∃ (r : DReq) (s : State) (h : HoardCfg),
    s.heard 0x0602 [.c, .m, .f] r = true ∧ (senderOf r.ch.val = some .c → ownCtx s r.ch.val (DReq.nums r) = true) ∧
    r.args.length = 1 ∧ argOf r 0 < 256 ∧ s.snap? (argOf r 0) = none ∧ s.job.fills.any (·.ctx == argOf r 0) = false ∧
    (s.ctx (argOf r 0)).st = .active ∧ (s.ctx (argOf r 0)).hoard = some h) ∧ (∃ (r : DReq) (s : State) (h : HoardCfg),
    s.heard 0x0603 [.m, .f] r = true ∧ r.args.length = 4 ∧ argOf r 0 < 256 ∧ argOf r 1 < 2 ^ 15 ∧
    (s.ctx (argOf r 0)).hoard = some h ∧ h.partners.contains (argOf r 1) = true ∧ s.job.fills.any (·.ctx == argOf r 0) = false ∧
    s.snap? (argOf r 0) = none) ∧ (∃ (r : DReq) (s : State) (h : HoardCfg), s.heard 0x0604 [.m,
    .f] r = true ∧ r.args.length = 5 ∧ argOf r 0 < 256 ∧ argOf r 1 < 65536 ∧ argOf r 2 ≠ 0 ∧
    (s.ctx (argOf r 0)).hoard = some h ∧ h.partners.contains (argOf r 2) = true ∧ argOf r 3 = 0 ∧
    s.job.fills.any (·.ctx == argOf r 0) = false ∧ s.snap? (argOf r 0) = none) ∧ (∃ (r : DReq) (s : State),
    s.heard 0x0607 [.c, .m, .f] r = true ∧ (senderOf r.ch.val = some .c → ownStream s r.ch.val (DReq.nums r) = true) ∧
    r.args.length = 13 ∧ argOf r 0 < 1024) ∧ (∃ (r : DReq) (s : State), s.heard 0x0608 [.c,
    .m, .f] r = true ∧ (senderOf r.ch.val = some .c → ownStream s r.ch.val (DReq.nums r) = true) ∧
    r.args.length = 1 ∧ argOf r 0 < 1024) ∧ (∃ (r : DReq) (s : State), s.heard 0x0609 [.c, .m,
    .f] r = true ∧ (senderOf r.ch.val = some .c → ownCtx s r.ch.val (DReq.nums r) = true) ∧
    r.args.length = 3 ∧ argOf r 0 < 2 ^ 14) ∧ (∃ (r : DReq) (s : State), s.heard 0x060A [.c,
    .m, .f] r = true ∧ (senderOf r.ch.val = some .c → ownCtx s r.ch.val (DReq.nums r) = true) ∧
    r.args.length = 1 ∧ argOf r 0 < 2 ^ 14) :=
⟨⟨(rm [0, 1, 5, 0, 0, 1, 4, 0]), ({ up with fab := { up.fab with slices := [(0, { id := 1, wrap := 0, epoch := 1, boundary := 0, geom := [(0, 1), (0, 1), (0, 1)], circuits := 0, wins := [(0, (0, 8))] })] }, eng := { up.eng with ctxs := [(0, { cx with slice := some 0, windows := [] })] } } : State),
    0, 1, 0x200000, 0x800000, [5], 0, { id := 1, wrap := 0, epoch := 1, boundary := 0, geom := [(0, 1), (0, 1), (0, 1)], circuits := 0, wins := [(0, (0, 8))] },
    by decide, by decide, by decide, by decide, by decide, by decide, by decide, by intro i h1 h2; have h3 : i = 2 ∨ i = 3 ∨ i = 4 := (by omega); rcases h3 with rfl | rfl | rfl <;> decide,
    by decide⟩, ⟨(rm [0]), (withCtx up 0 { cx with hoard := some { copies := 1, partners := [5], base := 0x200000, size := 0x400000, pred := none } }),
    { copies := 1, partners := [5], base := 0x200000, size := 0x400000, pred := none }, by decide⟩,
    ⟨(rm [0, 5, 0, 0]), (withCtx up 0 { cx with hoard := some { copies := 1, partners := [5], base := 0x200000, size := 0x400000, pred := none } }),
    { copies := 1, partners := [5], base := 0x200000, size := 0x400000, pred := none }, by decide⟩,
    ⟨(rm [0, 65535, 5, 0, 0]), (withCtx up 0 { cx with hoard := some { copies := 1, partners := [5], base := 0x200000, size := 0x400000, pred := none } }),
    { copies := 1, partners := [5], base := 0x200000, size := 0x400000, pred := none }, by decide⟩,
    ⟨(rm [1023, 0, 0, 0, 0, 0, 0, 0, 0, 0, 0, 0, 0]), sv, by decide⟩, ⟨(rm [1023]), sv, by decide⟩,
    ⟨(rm [0x3FFF, 0, 0]), sv, by decide⟩, ⟨(rm [0x3FFF]), sv, by decide⟩⟩

theorem test_wit_Cellar : (∃ (r : DReq) (s : State) (p : Nat) (nsid : Nat) (size : Nat) (off : Nat),
    s.heard 0x0605 [.c, .m, .f] r = true ∧ (senderOf r.ch.val = some .c → ownCtx s r.ch.val (DReq.nums r) = true) ∧
    r.args.length = 6 ∧ bitsOf (argOf r 0) 15 9 = 0 ∧ nsid = bitsOf (argOf r 0) 31 16 ∧ nsid ≠ 0 ∧
    p = bitsOf (argOf r 0) 8 8 ∧ s.unitOn (14 + p) = true ∧ (s.cellar p).present = true ∧
    (s.cellar p).failed = false ∧ (s.cellar p).nss.lookup nsid = some (size, true) ∧ arg64Of r 3 < 2 ^ 52 ∧
    s.place (arg64Of r 3) = .loc off ∧ off % 4096 = 0 ∧
    s.inLocalWin (argOf r 0 % 256) off (argOf r 5 * 4096) = true ∧ arg64Of r 1 + argOf r 5 ≤ size) ∧
    (∃ (r : DReq) (s : State) (p : Nat) (nsid : Nat) (size : Nat) (off : Nat), s.heard 0x0606 [.c, .m, .f] r = true ∧
    (senderOf r.ch.val = some .c → ownCtx s r.ch.val (DReq.nums r) = true) ∧ r.args.length = 6 ∧
    bitsOf (argOf r 0) 15 9 = 0 ∧ nsid = bitsOf (argOf r 0) 31 16 ∧ nsid ≠ 0 ∧ p = bitsOf (argOf r 0) 8 8 ∧
    s.unitOn (14 + p) = true ∧ (s.cellar p).present = true ∧ (s.cellar p).failed = false ∧
    (s.cellar p).nss.lookup nsid = some (size, true) ∧ arg64Of r 3 < 2 ^ 52 ∧ s.place (arg64Of r 3) = .loc off ∧
    off % 4096 = 0 ∧ s.inLocalWin (argOf r 0 % 256) off (argOf r 5 * 4096) = true ∧ arg64Of r 1 + argOf r 5 ≤ size) ∧
    (∃ (s : State) (p : Fin 2) (j : CellarJob) (rest : List CellarJob) (b : List NvmeBlock) (out : List (Nat × BitVec 128 × List Byte)),
    (s.cellar p).jobs = j :: rest ∧ j.write = true ∧ (s.cellar p).ioQueues ≠ 0 ∧
    s.cellarReach j State.regionUp = true ∧
    out = (s.setCellar p fun x => { x with jobs := rest }).blocksOf j j.len) ∧
    (∃ (s : State) (p : Fin 2) (j : CellarJob) (rest : List CellarJob) (b : NvmeBlock) (d : List Byte),
    (s.cellar p).jobs = j :: rest ∧ j.write = false ∧ (s.cellar p).ioQueues ≠ 0 ∧
    s.cellarReach j State.regionUp = true ∧ j.len = 1 ∧ b.data = some d ∧ b.husks = 0) ∧
    (∃ (s : State) (p : Fin 2) (j : CellarJob) (rest : List CellarJob) (o : Option Bool) (b : List NvmeBlock),
    (s.cellar p).jobs = j :: rest ∧ (s.cellar p).ioQueues ≠ 0 ∧
    s.cellarReach j (fun s d => !s.regionFailed d) = false) ∧
    (∃ (s : State) (p : Fin 2) (w : BitVec 32) (n : BitVec 32) (nss : List (Nat × Nat × Bool)) (h : Nat),
    s.serving = some h ∧ s.unitOn (14 + p) = true) :=
⟨⟨(rm [0x00010100, 15, 0, 0x1000, 0, 1]),
    ({ (withCtx up 0 cx) with ctd := { up.ctd with clamp := { up.ctd.clamp with linkPermit := 0xC000 } }, job := { up.job with ports := [{}, { present := true, nss := [(1, (16, true))] }] } } : State),
    1, 1, 16, 0x1000, by decide⟩, ⟨(rm [0x00010100, 15, 0, 0x1000, 0, 1]),
    ({ (withCtx up 0 cx) with ctd := { up.ctd with clamp := { up.ctd.clamp with linkPermit := 0xC000 } }, job := { up.job with ports := [{}, { present := true, nss := [(1, (16, true))] }] } } : State),
    1, 1, 16, 0x1000, by decide⟩,
    ⟨({ (withCtx up 0 cx) with ctd := { up.ctd with clamp := { up.ctd.clamp with linkPermit := 0xC000 } }, job := { up.job with ports := [{}, { present := true, ioQueues := 16, nss := [(1, (16, true))], jobs := [{ who := who, write := true, ctx := 0, nsid := 1, lba := 0, addr := 0, len := 1, startAt := 0 }] }] } } : State),
    1, { who := who, write := true, ctx := 0, nsid := 1, lba := 0, addr := 0, len := 1, startAt := 0 }, [], [],
    (((({ (withCtx up 0 cx) with ctd := { up.ctd with clamp := { up.ctd.clamp with linkPermit := 0xC000 } }, job := { up.job with ports := [{}, { present := true, ioQueues := 16, nss := [(1, (16, true))], jobs := [{ who := who, write := true, ctx := 0, nsid := 1, lba := 0, addr := 0, len := 1, startAt := 0 }] }] } } : State) : State).setCellar (1 : Fin 2) fun x => { x with jobs := ([] : List CellarJob) }).blocksOf ({ who := who, write := true, ctx := 0, nsid := 1, lba := 0, addr := 0, len := 1, startAt := 0 } : CellarJob) ({ who := who, write := true, ctx := 0, nsid := 1, lba := 0, addr := 0, len := 1, startAt := 0 } : CellarJob).len),
    by decide, by decide, by decide, by decide, rfl⟩,
    ⟨({ (withCtx up 0 cx) with ctd := { up.ctd with clamp := { up.ctd.clamp with linkPermit := 0xC000 } }, job := { up.job with ports := [{}, { present := true, ioQueues := 16, nss := [(1, (16, true))], jobs := [{ who := who, write := false, ctx := 0, nsid := 1, lba := 0, addr := 0, len := 1, startAt := 0 }] }] } } : State),
    1, { who := who, write := false, ctx := 0, nsid := 1, lba := 0, addr := 0, len := 1, startAt := 0 }, [],
    { data := some [1], husks := 0 }, [1], by decide⟩,
    ⟨({ ({ (withCtx up 0 cx) with ctd := { up.ctd with clamp := { up.ctd.clamp with linkPermit := 0xC000 } }, job := { up.job with ports := [{}, { present := true, ioQueues := 16, nss := [(1, (16, true))], jobs := [{ who := who, write := true, ctx := 0, nsid := 1, lba := 0, addr := 0, len := 1, startAt := 0 }] }] } } : State) with mem := { up.mem with lpddr := [{ rate := 3 }] } } : State),
    1, { who := who, write := true, ctx := 0, nsid := 1, lba := 0, addr := 0, len := 1, startAt := 0 }, [], none, [],
    by decide⟩,
    ⟨({ (withCtx up 0 cx) with ctd := { up.ctd with clamp := { up.ctd.clamp with linkPermit := 0xC000 } }, job := { up.job with ports := [{}, { present := true, nss := [(1, (16, true))] }] } } : State),
    1, 0, 0, [], 0, by decide⟩⟩

theorem test_wit_HoardProgress : (∃ (s : State) (c : Fin 256) (x : Snapshot) (h : HoardCfg), s.snap? c = some x ∧
    (s.ctx c).hoard = some h ∧ x.latched = false ∧ x.stop = false ∧ (s.ctx c).st = .active ∧
    s.eng.queues.any (fun e => e.1 / 64 == c.val && !e.2.started.isEmpty) = false ∧
    2 ^ 21 + sumSizes (s.localWins c) ≤ h.baySize) ∧ (∃ (s : State) (c : Fin 256) (x : Snapshot),
    s.snap? c = some x ∧ x.latched = true ∧ x.stage = 2 ∧ x.puts = 0 ∧ x.reason = 0 ∧ x.stop = false ∧
    (s.ctx c).st = .active) ∧ (∃ (s : State) (c : Fin 256) (x : Fill) (w : Who), s.runningFill = some x ∧
    x.ctx = c.val ∧ x.stage = 3 ∧ x.complete = false ∧ x.noSuch = true ∧ x.who = some w) ∧
    (∃ (s : State) (c : Fin 256) (x : Fill) (w : Who), s.runningFill = some x ∧ x.ctx = c.val ∧ x.stage = 3 ∧
    x.complete = true ∧ x.noSuch = false ∧ x.restore = false ∧ x.who = some w) :=
⟨⟨({ (withCtx up 0 { cx with hoard := some { copies := 1, partners := [5], base := 0x200000, size := 0x5A00400000, pred := none } }) with job := { up.job with snaps := [{ ctx := 0, who := none, sem := none, hold := false, startAt := 0, stage := 0, latched := false }] } } : State),
    0, { ctx := 0, who := none, sem := none, hold := false, startAt := 0, stage := 0, latched := false },
    { copies := 1, partners := [5], base := 0x200000, size := 0x5A00400000, pred := none }, by decide⟩,
    ⟨({ (withCtx up 0 cx) with job := { up.job with snaps := [{ ctx := 0, who := none, sem := none, hold := false, startAt := 0, stage := 2, latched := true }] } } : State),
    0, { ctx := 0, who := none, sem := none, hold := false, startAt := 0, stage := 2, latched := true }, by decide⟩,
    ⟨({ up with job := { up.job with fills := [{ ctx := 0, who := some who, restore := true, prio := 0, sources := [5], startAt := 0, stage := 3, noSuch := true }] } } : State),
    0,
    { ctx := 0, who := some who, restore := true, prio := 0, sources := [5], startAt := 0, stage := 3, noSuch := true },
    who, by decide⟩,
    ⟨({ up with job := { up.job with fills := [{ ctx := 0, who := some who, restore := false, prio := 0, sources := [5], startAt := 0, stage := 3, complete := true }] } } : State),
    0,
    { ctx := 0, who := some who, restore := false, prio := 0, sources := [5], startAt := 0, stage := 3, complete := true },
    who, by decide⟩⟩

theorem test_wit_ResetCommandsAndEnds : (∃ (r : DReq) (s : State), s.heard 0x0701 [.c, .m, .f] r = true ∧
    (senderOf r.ch.val = some .c → ownCtx s r.ch.val (DReq.nums r) = true) ∧ r.args.length = 1 ∧ argOf r 0 < 256 ∧
    (s.ctx (argOf r 0)).st ≠ .free) ∧ (∃ (r : DReq) (s : State), s.heard 0x0202 [.m, .f] r = true ∧
    r.args.length = 1 ∧ argOf r 0 < 256 ∧ (s.ctx (argOf r 0)).st ≠ .free) ∧ (∃ (r : DReq) (s : State) (j : Nat),
    s.heard 0x0702 [.m, .f] r = true ∧ r.args.length = 1 ∧ engArg (argOf r 0) = some j) ∧ (∃ (r : DReq) (s : State),
    s.heard 0x0703 [.m, .f] r = true ∧ r.args.length = 1 ∧ argOf r 0 < 4 ∧
    ((s.die (argOf r 0)).inReset = false ∨ (s.die (argOf r 0)).resetStart ≠ none)) ∧ (∃ (r : DReq) (s : State),
    s.heard 0x0706 [.c, .m, .f] r = true ∧ (senderOf r.ch.val = some .c → ownCtx s r.ch.val (DReq.nums r) = true) ∧
    r.args.length = 1 ∧ argOf r 0 < 256 ∧ bitsOf (((s.ctx (argOf r 0)).faultRec.map (·.toNat)).getD 0 0) 11 8 ≠ 0) ∧
    (∃ (s : State) (j : Fin 112) (l : List PatternResult), (s.engine j).st = .resetting ∧
    (s.die (engDie j)).inReset = false ∧ (s.pairOf j).headD j = j.val) ∧
    (∃ (s : State) (d : Fin 4) (l : List (Nat × List PatternResult)) (n : List Nat), (s.die d).resetStart = none) ∧
    (∃ (s : State) (d : Fin 4) (l : List (Nat × List PatternResult)) (n : List Nat) (start : Nat) (h : Nat),
    (s.die d).resetStart = some start ∧ s.serving = some h) ∧ (∃ (s : State) (d : Fin 4) (b : List (Nat × Nat)),
    (s.die d).inReset = true) ∧ (∃ (s : State) (d : Fin 4) (b : List (Nat × Nat)), (s.die d).inReset = false ∧
    (∀ e ∈ s.eng.queues, engDie e.2.eng ≠ d.val)) ∧
    (∃ (s : State) (d : Fin 4) (b : List (Nat × Nat)) (k : Nat) (u : Queue), (s.die d).inReset = false ∧
    s.eng.queues = [(k, u)] ∧ engDie u.eng = d.val) :=
⟨⟨(rm [0]), (withCtx up 0 cx), by decide⟩, ⟨(rm [0]), (withCtx up 0 cx), by decide⟩, ⟨(rm [0x1F02]), sv, 111,
    by decide⟩, ⟨(rm [3]), up, by decide⟩, ⟨(rm [0]),
    (withCtx up 0 { cx with faultRec := 0x100 :: List.replicate 15 0 }), by decide⟩,
    ⟨({ up with eng := { up.eng with engs := [(111, { st := .resetting })] } } : State), 111, [], by decide⟩, ⟨sv, 3,
    [], [], by decide⟩, ⟨({ sv with dies := [{ resetStart := some 0 }] } : State), 0, [], [], 0, 0, by decide⟩, ⟨sv,
    3, [], by decide⟩, ⟨up, 0, [], by decide, by intro e h; cases h⟩, ⟨(withQ up q0), 0, [], 0, q0, by decide⟩⟩

theorem test_wit_ContextResetEnds : (∃ (s : State) (c : Fin 256), (s.ctx c).st = .resetting ∧
    (s.ctx c).releasing = false ∧ s.resetWaits c = false ∧ s.job.snaps = [] ∧ s.job.fills = []) ∧
    (∃ (s : State) (c : Fin 256), (s.ctx c).st = .resetting ∧ (s.ctx c).releasing = true ∧ s.resetWaits c = false ∧
    s.eng.queues.any (fun e => e.1 / 64 == c.val && !e.2.owedRecs.isEmpty) = false ∧ s.job.snaps = [] ∧
    s.job.fills = []) :=
⟨⟨(withCtx up 255 { cx with st := .resetting }), 255, by decide⟩, ⟨(withCtx up 255 { cx with st := .resetting, releasing := true }),
    255, by decide⟩⟩

theorem test_wit_SieveRules : (∀ hv : ({ sv with mbox := { sv.mbox with stage := { target := some 3 } } } : State).packCheck (({ sv with mbox := { sv.mbox with stage := { target := some 3 } } } : State).stagedBytes 4194304) ({ sv with mbox := { sv.mbox with stage := { target := some 3 } } } : State).ctd.nv.packVersion = dOk,
    ∃ (r : DReq) (s : State) (b : List Byte), s.heard 0x0501 [.m] r = true ∧ r.args.length = 0 ∧
    s.mbox.stage.target = some 3 ∧ s.mbox.stage.job = none ∧ b = s.stagedBytes 4194304 ∧
    s.packCheck b s.ctd.nv.packVersion = dOk) ∧ (∃ (r : DReq) (s : State), s.heard 0x0502 [.m, .f] r = true ∧
    r.args.length = 3 ∧ 1 ≤ argOf r 0 ∧ argOf r 0 ≤ 1024 ∧ 1 ≤ argOf r 1 ∧ argOf r 1 ≤ argOf r 0 ∧ 4 ≤ argOf r 2 ∧
    argOf r 2 ≤ 16) ∧ (∃ (r : DReq) (s : State) (j : Nat) (u : Nat), s.heard 0x0503 [.m, .f] r = true ∧
    r.args.length = 1 ∧ engArg (argOf r 0) = some j ∧ u = (s.pairOf j).headD j ∧ (s.sv u).busy = false ∧
    ((s.sv u).st ≠ .outOfService ∨ (s.sv u).resetSince = true) ∧ s.silent.packValid = true) ∧
    (∃ (r : DReq) (s : State) (j : Nat), s.heard 0x0504 [.c, .m, .f] r = true ∧ r.args.length = 1 ∧
    engArg (argOf r 0) = some j) ∧ (∃ (r : DReq) (s : State), s.heard 0x0505 [.c, .m, .f] r = true ∧
    (senderOf r.ch.val = some .c → ownCtx s r.ch.val (DReq.nums r) = true) ∧ r.args.length = 3 ∧ argOf r 0 < 256 ∧
    argOf r 1 < 720 ∧ 1 ≤ argOf r 2 ∧ argOf r 1 + argOf r 2 ≤ 720) ∧ (∃ (r : DReq) (s : State), s.heard 0x0506 [.c,
    .m, .f] r = true ∧ (senderOf r.ch.val = some .c → ownCtx s r.ch.val (DReq.nums r) = true) ∧ r.args.length = 1 ∧
    argOf r 0 < 256) ∧ (∃ (r : DReq) (s : State), s.heard 0x0507 [.c, .m, .f] r = true ∧ r.args.length = 0) ∧
    (∃ (s : State) (j : Fin 112), s.mayRun j = true) ∧ (∃ (s : State) (j : Fin 112) (l : List PatternResult),
    s.silent.running.getD (engDie j) none = some j.val) ∧ (∃ (s : State),
    (s.time.podValid = true ∨ s.time.mono < s.silent.lastAge + 1000000000)) ∧ (∃ (s : State),
    s.time.podValid = false ∧ s.silent.lastAge + 1000000000 ≤ s.time.mono) ∧ (∃ (s : State),
    s.time.mono < s.silent.lastDecay + 3600000000000) ∧ (∃ (s : State),
    s.silent.lastDecay + 3600000000000 ≤ s.time.mono) :=
⟨(fun hv => ⟨rm [], ({ sv with mbox := { sv.mbox with stage := { target := some 3 } } } : State),
    ((({ sv with mbox := { sv.mbox with stage := { target := some 3 } } } : State) : State).stagedBytes 4194304),
    by decide, by decide, by decide, by decide, rfl, hv⟩), ⟨(rm [1024, 1024, 16]), sv, by decide⟩, ⟨(rm [0x1F02]),
    ({ up with silent := { up.silent with packValid := true } } : State), 111,
    (((({ up with silent := { up.silent with packValid := true } } : State) : State).pairOf (111 : Nat)).headD (111 : Nat)),
    by decide, by decide, by decide, rfl, by decide⟩, ⟨(rm [0x3F00]), sv, 63, by decide⟩, ⟨(rm [255, 719, 1]), sv,
    by decide⟩, ⟨(rm [255]), sv, by decide⟩, ⟨rm [], sv, by decide⟩,
    ⟨({ up with silent := { up.silent with packValid := true, engs := [(0, { due := true })] } } : State), 0,
    by decide⟩, ⟨({ up with silent := { up.silent with running := [none, none, none, some 111] } } : State), 111, [],
    by decide⟩, ⟨sv, by decide⟩, ⟨(late sv 1000000000), by decide⟩, ⟨sv, by decide⟩, ⟨(late sv 3600000000000),
    by decide⟩⟩

theorem test_wit_MatrixTiles : (∃ (s : State) (v : State) (c : Fin 256) (q : Fin 64) (ix : BitVec 32) (g : Nat) (t : TileJob) (a : _) (b : _),
    s.tileJob c q ix g = some t ∧ s.waitsOn t.x = false ∧ t.x.checks = [] ∧ t.x.work = true ∧ t.rows ≠ [] ∧
    s.roomFor c q ix = true ∧ v = s.engTouch t.j ∧ v.mmOperands c (engDie t.j) t.x t.p t.rows t.cols = .ok (a, b) ∧
    (abftTile t.p t.rows t.cols a b (applyErrs t.rows t.cols (s.tileW t.j) (fmtInt t.p.af) [] (tileR t.p a b).1)).fails = false ∧
    2 ≤ (s.engine t.j).countdown) ∧
    (∃ (s : State) (c : Fin 256) (q : Fin 64) (ix : BitVec 32) (g : Nat) (t : TileJob) (e1 : List WordFlip) (e2 : List WordFlip) (f : List LineFlip),
    s.tileJob c q ix g = some t ∧ s.waitsOn t.x = false ∧ t.x.checks = [] ∧ s.roomFor c q ix = true) ∧
    (∃ (s : State) (c : Fin 256) (q : Fin 64) (ix : BitVec 32) (g : Nat) (t : TileJob) (w : CheckWork) (a : Abft),
    s.tileJob c q ix g = some t ∧ t.x.checks.find? (fun w => w.tile == g && w.chk.isNone) = some w ∧ w.abft = false ∧
    s.roomFor c q ix = true ∧ (s.ctx c).st = .active ∧ s.eligible w.checker = true ∧
    s.recompute c t w.checker [] = .ok (w.orig, a) ∧ a.fails = false) ∧
    (∃ (s : State) (c : Fin 256) (q : Fin 64) (ix : BitVec 32) (g : Nat) (t : TileJob) (w : CheckWork) (a : Abft) (v : List Int × Bool),
    s.tileJob c q ix g = some t ∧ t.x.checks.find? (fun w => w.tile == g && w.chk.isSome) = some w ∧ w.chk = some v ∧
    w.abft = false ∧ s.roomFor c q ix = true ∧ (s.ctx c).st = .active ∧ s.eligible w.third = true ∧
    s.recompute c t w.third [] = .ok (w.orig, a) ∧ a.fails = false ∧ w.orig ≠ v) :=
⟨⟨({ (withCtx up 0 cx) with eng := { (withCtx up 0 cx).eng with engs := [(0, { countdown := 2 })], queues := [(0, { q0 with started := [{ index := 0, d := [0, 0, 0, 0, 0, 0x1000, 0x2000, 0, 0, 0, 0x1000100000000, 0x9AA000001], order := 0, at_ := 0, tiles := [0], work := true }] })] } } : State),
    ((({ (withCtx up 0 cx) with eng := { (withCtx up 0 cx).eng with engs := [(0, { countdown := 2 })], queues := [(0, { q0 with started := [{ index := 0, d := [0, 0, 0, 0, 0, 0x1000, 0x2000, 0, 0, 0, 0x1000100000000, 0x9AA000001], order := 0, at_ := 0, tiles := [0], work := true }] })] } } : State) : State).engTouch ({ x := { index := 0, d := [0, 0, 0, 0, 0, 0x1000, 0x2000, 0, 0, 0, 0x1000100000000, 0x9AA000001], order := 0, at_ := 0, tiles := [0], work := true }, j := 0, p := mmOf [0, 0, 0, 0, 0, 0x1000, 0x2000, 0, 0, 0, 0x1000100000000, 0x9AA000001], rows := [0], cols := [0] } : TileJob).j),
    0, 0, 0, 0,
    { x := { index := 0, d := [0, 0, 0, 0, 0, 0x1000, 0x2000, 0, 0, 0, 0x1000100000000, 0x9AA000001], order := 0, at_ := 0, tiles := [0], work := true }, j := 0, p := mmOf [0, 0, 0, 0, 0, 0x1000, 0x2000, 0, 0, 0, 0x1000100000000, 0x9AA000001], rows := [0], cols := [0] },
    _, _, rfl, by decide, by decide, by decide, by decide, by decide, rfl, rfl, by decide⟩,
    ⟨({ (withCtx up 0 cx) with eng := { (withCtx up 0 cx).eng with engs := [(0, { countdown := 2 })], queues := [(0, { q0 with started := [{ index := 0, d := [0, 0, 0, 0, 0, 0x1000, 0x2000, 0, 0, 0, 0x1000100000000, 0x9AA000001], order := 0, at_ := 0, tiles := [0], work := true }] })] } } : State),
    0, 0, 0, 0,
    { x := { index := 0, d := [0, 0, 0, 0, 0, 0x1000, 0x2000, 0, 0, 0, 0x1000100000000, 0x9AA000001], order := 0, at_ := 0, tiles := [0], work := true }, j := 0, p := mmOf [0, 0, 0, 0, 0, 0x1000, 0x2000, 0, 0, 0, 0x1000100000000, 0x9AA000001], rows := [0], cols := [0] },
    [], [], [], rfl, by decide⟩,
    ⟨({ (withCtx up 0 cx) with eng := { (withCtx up 0 cx).eng with engs := [(0, { countdown := 2 })], queues := [(0, { q0 with started := [{ index := 0, d := [0, 0, 0, 0, 0, 0x1000, 0x2000, 0, 0, 0, 0x1000100000000, 0x9AA000001], order := 0, at_ := 0, tiles := [0], work := true, checks := [{ tile := 0, orig := ([0], false), checker := 16, chk := none, third := 32, abft := false }] }] })] } } : State),
    0, 0, 0, 0,
    { x := { index := 0, d := [0, 0, 0, 0, 0, 0x1000, 0x2000, 0, 0, 0, 0x1000100000000, 0x9AA000001], order := 0, at_ := 0, tiles := [0], work := true, checks := [{ tile := 0, orig := ([0], false), checker := 16, chk := none, third := 32, abft := false }] }, j := 0, p := mmOf [0, 0, 0, 0, 0, 0x1000, 0x2000, 0, 0, 0, 0x1000100000000, 0x9AA000001], rows := [0], cols := [0] },
    { tile := 0, orig := ([0], false), checker := 16, chk := none, third := 32, abft := false }, _, rfl, rfl,
    by decide, by decide, by decide, by decide, rfl, by decide⟩,
    ⟨({ (withCtx up 0 cx) with eng := { (withCtx up 0 cx).eng with engs := [(0, { countdown := 2 })], queues := [(0, { q0 with started := [{ index := 0, d := [0, 0, 0, 0, 0, 0x1000, 0x2000, 0, 0, 0, 0x1000100000000, 0x9AA000001], order := 0, at_ := 0, tiles := [0], work := true, checks := [{ tile := 0, orig := ([0], false), checker := 16, chk := some ([1], false), third := 32, abft := false }] }] })] } } : State),
    0, 0, 0, 0,
    { x := { index := 0, d := [0, 0, 0, 0, 0, 0x1000, 0x2000, 0, 0, 0, 0x1000100000000, 0x9AA000001], order := 0, at_ := 0, tiles := [0], work := true, checks := [{ tile := 0, orig := ([0], false), checker := 16, chk := some ([1], false), third := 32, abft := false }] }, j := 0, p := mmOf [0, 0, 0, 0, 0, 0x1000, 0x2000, 0, 0, 0, 0x1000100000000, 0x9AA000001], rows := [0], cols := [0] },
    { tile := 0, orig := ([0], false), checker := 16, chk := some ([1], false), third := 32, abft := false }, _,
    ([1], false), rfl, rfl, by decide, by decide, by decide, by decide, by decide, rfl, by decide⟩⟩

theorem test_wit_MemoryUpkeep : (∃ (s : State) (d : Fin 4), (s.die d).inReset = false ∧
    s.ctd.lease.recovery = false ∧ (s.memDie d).initDone = false ∧
    (List.range 6).all (fun i => (s.stack (6 * d + i)).up) = true) ∧ (∃ (r : DReq) (s : State), s.heard 0x0707 [.m,
    .f] r = true ∧ r.args.length = 3 ∧ argOf r 0 < 4 ∧ argOf r 1 < clearUnits ∧ 1 ≤ argOf r 2 ∧
    argOf r 1 + argOf r 2 ≤ clearUnits ∧
    s.eng.ctxs.any (fun e => e.2.st != .free && (s.localWins e.1).any fun v => meets (argOf r 0 * regionSize + argOf r 1 * 2 ^ 21) (argOf r 2 * 2 ^ 21) v.1 v.2) = false) ∧
    (∃ (s : State) (w : Who) (lo : Nat) (n : Nat) (rest : List (Who × Nat × Nat)), s.mem.clears = (w, lo,
    n) :: rest ∧ s.regionUp (dieOf lo) = true) ∧ (∃ (s : State) (d : Fin 4), (s.memDie d).scrubH ≠ 0 ∧
    s.regionUp d = true ∧ (List.range 6).any (fun i => (s.stack (6 * d + i)).selfRefresh) = false ∧
    (s.memDie d).scrubLine + 1 < 2 ^ 25 ∧ d.val < s.mem.dies.length) ∧
    (∃ (s : State) (d : Fin 4) (l : List LineFlip), (s.memDie d).scrubH = 0) ∧
    (∃ (s : State) (k : Fin 24) (b : Fin 4), s.power.rails = true ∧ (s.stack k).up = false ∧ (s.stack k).rate ≠ 3 ∧
    b.val ≠ 3 ∧ b.val ≠ (s.stack k).rate) ∧ (∃ (s : State) (k : Fin 24) (b : Fin 4), s.power.rails = true ∧
    (s.stack k).up = false ∧ (s.stack k).rate ≠ 3 ∧ b.val = (s.stack k).rate) ∧ (∃ (s : State) (k : Fin 24),
    s.power.rails = true ∧ (s.stack k).up = false ∧ (s.stack k).rate ≠ 3) ∧
    (∃ (s : State) (k : Fin 24) (c : BitVec 8), (s.die (k / 6)).inReset = false ∧ 95 < c.toNat ∧
    (s.stack k).limited = false) ∧ (∃ (s : State) (k : Fin 24) (c : BitVec 8), (s.die (k / 6)).inReset = false ∧
    c.toNat ≤ 90 ∧ (s.stack k).limited = false) :=
⟨⟨({ up with mem := { up.mem with dies := [] } } : State), 3, by decide⟩, ⟨(rm [3, 0, 184320]), up, by decide⟩,
    ⟨({ up with mem := { up.mem with clears := [(who, 0, 0x200000)] } } : State), who, 0, 0x200000, [], by decide⟩,
    ⟨up, 3, by decide⟩, ⟨({ up with mem := { up.mem with dies := List.replicate 4 { scrubH := 0 } } } : State), 0,
    [], by decide⟩, ⟨({ up with mem := { up.mem with lpddr := [] } } : State), 23, 1, by decide⟩,
    ⟨({ up with mem := { up.mem with lpddr := [] } } : State), 23, 0, by decide⟩,
    ⟨({ up with mem := { up.mem with lpddr := [] } } : State), 23, by decide⟩, ⟨up, 23, 96, by decide⟩, ⟨up, 23, 90,
    by decide⟩⟩

theorem test_wit_Observation : (∃ (r : DReq) (s : State) (n : Nat), s.heard 0x0901 [.m, .f] r = true ∧
    r.args.length = 2 ∧ bitsOf (argOf r 0) 15 2 = 0 ∧ bitsOf (argOf r 0) 31 28 = 0 ∧
    selOk (bitsOf (argOf r 0) 1 0) (argOf r 1) = true ∧ n = bitsOf (argOf r 0) 27 16 ∧ 256 ≤ n) ∧
    (∃ (r : DReq) (s : State) (b : Bank), s.heard 0x0902 [.c, .m, .f] r = true ∧ r.args.length = 3 ∧ argOf r 0 < 4 ∧
    argOf r 1 < 4096 ∧ 1 ≤ argOf r 2 ∧ argOf r 2 ≤ 510 ∧ argOf r 1 + argOf r 2 ≤ 4096 ∧
    b = (s.counters (argOf r 0)).banks.getD (s.counters (argOf r 0)).last {} ∧ b.valid = true) ∧
    (∃ (r : DReq) (s : State) (d : Nat), s.heard 0x0902 [.c, .m, .f] r = true ∧ r.args.length = 3 ∧
    argOf r 0 = 256 + d ∧ d < 4 ∧ argOf r 1 < 4096 ∧ 1 ≤ argOf r 2 ∧ argOf r 2 ≤ 510 ∧
    argOf r 1 + argOf r 2 ≤ 4096) ∧ (∃ (r : DReq) (s : State), s.heard 0x0903 [.c, .m, .f] r = true ∧
    r.args.length = 2 ∧ argOf r 0 < 64 ∧ 1 ≤ argOf r 1 ∧ argOf r 0 + argOf r 1 ≤ 64) ∧ (∃ (r : DReq) (s : State),
    s.heard 0x0A01 [.c, .m, .f] r = true ∧ (senderOf r.ch.val = some .c → ownCtx s r.ch.val (DReq.nums r) = true) ∧
    r.args.length = 7 ∧ s.watchBad (DReq.nums r) = none ∧ (s.ctx (argOf r 0)).st ≠ .free ∧
    s.obs.watches.length < 1024) ∧ (∃ (r : DReq) (s : State) (w : Watch), s.heard 0x0A03 [.c, .m, .f] r = true ∧
    (senderOf r.ch.val = some .c → ownCtx s r.ch.val (DReq.nums r) = true) ∧ r.args.length = 2 ∧ argOf r 0 < 256 ∧
    s.obs.watches.lookup (argOf r 0 * 2 ^ 32 + argOf r 1) = some w) ∧ (∃ (r : DReq) (s : State) (w : Watch),
    s.heard 0x0A02 [.c, .m, .f] r = true ∧ (senderOf r.ch.val = some .c → ownCtx s r.ch.val (DReq.nums r) = true) ∧
    r.args.length = 2 ∧ argOf r 0 < 256 ∧ s.obs.watches.lookup (argOf r 0 * 2 ^ 32 + argOf r 1) = some w) ∧
    (∃ (s : State) (c : Fin 256) (h : BitVec 32) (w : Who) (t : Watch) (off : Nat),
    s.obs.digests.find? (fun e => e.2 == c.val * 2 ^ 32 + h.toNat) = some (w, c.val * 2 ^ 32 + h.toNat) ∧
    s.obs.watches.lookup (c.val * 2 ^ 32 + h.toNat) = some t ∧ s.localOff t.addr = some off ∧
    s.regionFailed (dieOf off) = false ∧ s.regionUp (dieOf off) = true) ∧ (∃ (s : State) (d : Fin 4) (x : Dump),
    s.obs.dumps.getD d [] = [x] ∧ (s.die d).inReset = false) ∧
    (∃ (s : State) (d : Fin 4) (x : Dump) (y : Dump) (rest : List Dump), s.obs.dumps.getD d [] = x :: y :: rest ∧
    (s.die d).inReset = false) :=
⟨⟨(rm [0x0FFF0003, 0]), sv, 0xFFF, by decide⟩, ⟨(rm [3, 3586, 510]),
    ({ up with obs := { up.obs with dies := List.replicate 4 { banks := [{ valid := true }] } } } : State),
    { valid := true }, by decide⟩, ⟨(rm [259, 3586, 510]), sv, 3, by decide⟩, ⟨(rm [63, 1]), sv, by decide⟩, ⟨(rm [0,
    7, 0, 0, 0, 1, 0]), (withCtx up 0 cx), by decide⟩, ⟨(rm [255, 1]),
    ({ up with obs := { up.obs with watches := [(0xFF00000001, { addr := 0, fmt := 0, count := 1 })], digests := [(who, 0xFF00000001)], dumps := [[], [], [], [{ entry := 0, ctx := 0, arg := 0, late := false, step := 0, start := 0, mono := 0 }]] } } : State),
    { addr := 0, fmt := 0, count := 1 }, by decide⟩, ⟨(rm [255, 1]),
    ({ up with obs := { up.obs with watches := [(0xFF00000001, { addr := 0, fmt := 0, count := 1 })], digests := [(who, 0xFF00000001)], dumps := [[], [], [], [{ entry := 0, ctx := 0, arg := 0, late := false, step := 0, start := 0, mono := 0 }]] } } : State),
    { addr := 0, fmt := 0, count := 1 }, by decide⟩,
    ⟨({ up with obs := { up.obs with watches := [(0xFF00000001, { addr := 0, fmt := 0, count := 1 })], digests := [(who, 7), (who, 0xFF00000001)] } } : State),
    255, 1, who, { addr := 0, fmt := 0, count := 1 }, 0, by decide⟩,
    ⟨({ up with obs := { up.obs with watches := [(0xFF00000001, { addr := 0, fmt := 0, count := 1 })], digests := [(who, 0xFF00000001)], dumps := [[], [], [], [{ entry := 0, ctx := 0, arg := 0, late := false, step := 0, start := 0, mono := 0 }]] } } : State),
    3, { entry := 0, ctx := 0, arg := 0, late := false, step := 0, start := 0, mono := 0 }, by decide⟩,
    ⟨({ up with obs := { up.obs with dumps := [[], [], [], [{ entry := 0, ctx := 0, arg := 0, late := false, step := 0, start := 0, mono := 0 }, { entry := 1, ctx := 0, arg := 0, late := false, step := 0, start := 0, mono := 0 }]] } } : State),
    3, { entry := 0, ctx := 0, arg := 0, late := false, step := 0, start := 0, mono := 0 },
    { entry := 1, ctx := 0, arg := 0, late := false, step := 0, start := 0, mono := 0 }, [], by decide⟩⟩

theorem test_wit_ScheduleTable : (∃ (s : State) (n : Fin 1024) (d : Fin 4) (e : SchedEntry) (h : Nat),
    s.serving = some h ∧ s.sched.lookup n.val = some e ∧ e.stepKey = true ∧ e.period = 0 ∧ e.rep = 0 ∧
    e.dies = 1 <<< d.val ∧ e.last = [none, none, none, none] ∧ e.armed = [none, none, none,
    none] ∧ (s.die d).inReset = false ∧ s.time.step.toNat ≤ e.first) ∧ (∃ (s : State) (n : Fin 1024) (d : Fin 4) (e : SchedEntry) (h : Nat) (i : Nat),
    s.serving = some h ∧ s.sched.lookup n.val = some e ∧ e.stepKey = true ∧ 0 < e.period ∧ e.rep = 0 ∧
    e.skip = true ∧ e.dies = 1 <<< d.val ∧ e.last = [none, none, none, none] ∧ e.armed = [none,
    none, none, none] ∧ (s.die d).inReset = false ∧ e.first < s.time.step.toNat ∧ i = (s.time.step.toNat - 1 - e.first) / (e.period * 65536)) ∧
    (∃ (s : State) (d : Fin 4) (n : Nat) (k : Nat) (e : SchedEntry), (s.die d).inReset = false ∧
    (s.dt d).seen = true ∧ s.schedDue d = [(n, e, k)]) :=
⟨⟨({ up with sched := [(1023, { stepKey := true, action := 0, skip := false, fw := false, ctx := 0, dies := 8, rep := 0, first := 65536, period := 0, arg := 0 })], time := { up.time with step := 65536 } } : State),
    1023, 3, { stepKey := true, action := 0, skip := false, fw := false, ctx := 0, dies := 8, rep := 0, first := 65536, period := 0, arg := 0 },
    0, by decide⟩, ⟨({ up with sched := [(1023, { stepKey := true, action := 0, skip := true, fw := false, ctx := 0, dies := 8, rep := 0, first := 65536, period := 1, arg := 0 })], time := { up.time with step := 131073 } } : State),
    1023, 3, { stepKey := true, action := 0, skip := true, fw := false, ctx := 0, dies := 8, rep := 0, first := 65536, period := 1, arg := 0 },
    0, 1, by decide⟩, ⟨({ ({ up with sched := [(1023, { stepKey := true, action := 0, skip := true, fw := false, ctx := 0, dies := 8, rep := 0, first := 65536, period := 1, arg := 0, armed := [none, none, none, some 0x10000] })], time := { up.time with step := 131073 } } : State) with dieTime := List.replicate 4 { seen := true, step := 0x10000 } } : State),
    3, 1023, 0x10000, { stepKey := true, action := 0, skip := true, fw := false, ctx := 0, dies := 8, rep := 0, first := 65536, period := 1, arg := 0, armed := [none, none, none, some 0x10000] },
    by decide⟩⟩

theorem test_wit_ScheduleAndTimeCommands : (∃ (r : DReq) (s : State), s.heard 0x0401 [.c, .m, .f] r = true ∧
    (senderOf r.ch.val = some .c → bitsOf (argOf r 1) 15 8 = r.ch.val ∧ bitsOf (argOf r 1) 4 2 ≠ 1 ∧
    bitsOf (argOf r 1) 4 2 ≠ 5) ∧ r.args.length = 9 ∧ 128 ≤ argOf r 0 ∧ argOf r 0 < 1024 ∧
    s.schedOk (((DReq.nums r).drop 1).take 8) = true ∧ s.sched.lookup (argOf r 0) = none) ∧
    (∃ (r : DReq) (s : State) (e : SchedEntry), s.heard 0x0402 [.c, .m, .f] r = true ∧
    (senderOf r.ch.val = some .c → e.ctx = r.ch.val) ∧ r.args.length = 1 ∧ 128 ≤ argOf r 0 ∧ argOf r 0 < 1024 ∧
    s.sched.lookup (argOf r 0) = some e) ∧ (∃ (r : DReq) (s : State) (e : SchedEntry), s.heard 0x0403 [.c, .m,
    .f] r = true ∧ (senderOf r.ch.val = some .c → e.ctx = r.ch.val) ∧ r.args.length = 1 ∧ argOf r 0 < 1024 ∧
    s.sched.lookup (argOf r 0) = some e) ∧ (∃ (r : DReq) (s : State), s.heard 0x0B01 [.c, .m, .f] r = true ∧
    r.args.length = 0) ∧ (∃ (r : DReq) (s : State), s.heard 0x0B02 [.c, .m, .f] r = true ∧ r.args.length = 0 ∧
    stepPhase s.time.step < 65535) ∧ (∃ (r : DReq) (s : State), s.heard 0x0B02 [.c, .m, .f] r = true ∧
    r.args.length = 0 ∧ stepPhase s.time.step = 65535) ∧ (∃ (r : DReq) (s : State), s.heard 0x0B03 [.c, .m,
    .f] r = true ∧ r.args.length = 2) ∧ (∃ (r : DReq) (s : State), s.heard 0x0B04 [.m, .f] r = true ∧
    r.args.length = 1 ∧ argOf r 0 = 1 ∧ s.time.corrPending = true) ∧ (∃ (r : DReq) (s : State) (t : State),
    s.heard 0x0B04 [.m, .f] r = true ∧ r.args.length = 1 ∧ argOf r 0 = 0 ∧ s.time.corrPending = true ∧
    t = (s.setTime fun t => { t with corrPending := false, gmPending := false, gmId := if t.gmPending then t.gmPendId else t.gmId, lock := .acquiring, lockCount := 0, episodeCount := 0, slew := 0, pod := t.pod + t.pendingCorr.toInt * nsUnit, stepCtr := t.stepCtr + 1 })) ∧
    (∃ (r : DReq) (s : State), s.heard 0x0B04 [.m, .f] r = true ∧ r.args.length = 1 ∧ argOf r 0 < 2 ∧
    s.time.corrPending = false) ∧ (∃ (r : DReq) (s : State) (t : State) (u : State), s.heard 0x0B05 [.m,
    .f] r = true ∧ r.args.length = 4 ∧ argOf r 0 < 2 ^ 17 ∧ bitsOf (argOf r 0) 5 2 < 13 ∧
    bitsOf (argOf r 0) 15 8 < 128 ∧ argOf r 1 < 2 ^ 20 ∧ argOf r 2 < 2 ^ 24 ∧ argOf r 3 < 32 ∧
    t = ((s.writeTbCtrl (argOf r 0)).setTime fun t => { t with thresh := max 1000 (min 1000000 (argOf r 1)), ppsDelay := argOf r 2 }) ∧
    u = { t with fab := { t.fab with interval := min 13 (argOf r 3) } }) ∧ (∃ (s : State) (v : Nat),
    bitsOf v 1 0 = s.time.podSrc.toNat ∧ s.time.podSrc ≠ 3) ∧ (∃ (s : State) (v : Nat), s.time.podSrc ≠ 0 ∧
    bitsOf v 1 0 = 0) ∧ (∃ (r : DReq) (s : State), s.heard 0x0B06 [.c, .m, .f] r = true ∧ r.args.length = 0) :=
⟨⟨(rm [1023, 0x1000B, 0, 0x10000, 0, 0, 0, 0, 0]), (withCtx up 0 cx), by decide⟩, ⟨(rm [1023]),
    ({ up with sched := [(1023, { stepKey := true, action := 0, skip := true, fw := false, ctx := 0, dies := 8, rep := 0, first := 65536, period := 1, arg := 0 })], time := { up.time with step := 0 } } : State),
    { stepKey := true, action := 0, skip := true, fw := false, ctx := 0, dies := 8, rep := 0, first := 65536, period := 1, arg := 0 },
    by decide⟩, ⟨(rm [1023]),
    ({ up with sched := [(1023, { stepKey := true, action := 0, skip := true, fw := false, ctx := 0, dies := 8, rep := 0, first := 65536, period := 1, arg := 0 })], time := { up.time with step := 0 } } : State),
    { stepKey := true, action := 0, skip := true, fw := false, ctx := 0, dies := 8, rep := 0, first := 65536, period := 1, arg := 0 },
    by decide⟩, ⟨rm [], sv, by decide⟩, ⟨rm [], sv, by decide⟩, ⟨rm [],
    ({ sv with time := { sv.time with step := 0xFFFF } } : State), by decide⟩, ⟨(rm [5, 0]), sv, by decide⟩,
    ⟨(rm [1]), ({ sv with time := { sv.time with corrPending := true } } : State), by decide⟩, ⟨(rm [0]),
    ({ sv with time := { sv.time with corrPending := true, gmPending := true, pendingCorr := 0x8000000000000000 } } : State),
    (((({ sv with time := { sv.time with corrPending := true, gmPending := true, pendingCorr := 0x8000000000000000 } } : State) : State).setTime fun t => { t with corrPending := false, gmPending := false, gmId := if t.gmPending then t.gmPendId else t.gmId, lock := .acquiring, lockCount := 0, episodeCount := 0, slew := 0, pod := t.pod + t.pendingCorr.toInt * nsUnit, stepCtr := t.stepCtr + 1 })),
    by decide, by decide, by decide, by decide, rfl⟩, ⟨(rm [1]), sv, by decide⟩, ⟨(rm [0x17FF2, 0xFFFFF, 0xFFFFFF,
    31]), sv, ((((sv : State).writeTbCtrl (argOf ((rm [0x17FF2, 0xFFFFF, 0xFFFFFF,
    31]) : DReq) 0)).setTime fun t => { t with thresh := max 1000 (min 1000000 (argOf ((rm [0x17FF2, 0xFFFFF, 0xFFFFFF, 31]) : DReq) 1)), ppsDelay := argOf ((rm [0x17FF2, 0xFFFFF, 0xFFFFFF, 31]) : DReq) 2 })),
    ({ (((((sv : State).writeTbCtrl (argOf ((rm [0x17FF2, 0xFFFFF, 0xFFFFFF, 31]) : DReq) 0)).setTime fun t => { t with thresh := max 1000 (min 1000000 (argOf ((rm [0x17FF2, 0xFFFFF, 0xFFFFFF, 31]) : DReq) 1)), ppsDelay := argOf ((rm [0x17FF2, 0xFFFFF, 0xFFFFFF, 31]) : DReq) 2 })) : State) with fab := { (((((sv : State).writeTbCtrl (argOf ((rm [0x17FF2, 0xFFFFF, 0xFFFFFF, 31]) : DReq) 0)).setTime fun t => { t with thresh := max 1000 (min 1000000 (argOf ((rm [0x17FF2, 0xFFFFF, 0xFFFFFF, 31]) : DReq) 1)), ppsDelay := argOf ((rm [0x17FF2, 0xFFFFF, 0xFFFFFF, 31]) : DReq) 2 })) : State).fab with interval := min 13 (argOf ((rm [0x17FF2, 0xFFFFF, 0xFFFFFF, 31]) : DReq) 3) } }),
    by decide, by decide, by decide, by decide, by decide, by decide, by decide, by decide, rfl, rfl⟩,
    ⟨({ sv with time := { sv.time with podSrc := 2 } } : State), 2, by decide⟩,
    ⟨({ sv with time := { sv.time with podSrc := 2 } } : State), 0x104, by decide⟩, ⟨rm [], sv, by decide⟩⟩

theorem test_wit_TimeBus : (∃ (s : State) (d : Fin 4) (h : Nat), s.holder = some h ∧ (s.die d).inReset = false ∧
    s.ctd.lease.gates = true ∧ (s.dt d).seen = false ∧ (s.dt d).holdover = false ∧ (s.dt d).latched = 0) ∧
    (∃ (s : State) (d : Fin 4) (h : Nat), s.holder = some h ∧ (s.die d).inReset = false ∧ s.ctd.lease.gates = true ∧
    (s.dt d).seen = true ∧ (s.dt d).holdover = false ∧ (s.dt d).latched = 0 ∧ (s.dt d).stepCtr = s.time.stepCtr ∧
    s.time.pod < (s.dt d).pod ∧ (s.dt d).toll ≤ s.time.toll ∧ d.val < s.dieTime.length) ∧
    (∃ (s : State) (d : Fin 4) (h : Nat), s.holder = some h ∧ (s.die d).inReset = false ∧ s.ctd.lease.gates = true ∧
    (s.dt d).seen = true ∧ (s.dt d).holdover = true ∧ (s.dt d).pod ≤ s.time.pod ∧ (s.dt d).toll ≤ s.time.toll ∧
    d.val < s.dieTime.length) ∧ (∃ (s : State) (d : Fin 4), (s.dt d).seen = true ∧ (s.dt d).holdover = false ∧
    (s.die d).inReset = false ∧ (s.dt d).lastFrame + 3000 ≤ s.time.mono) :=
⟨⟨up, 3, 0, by decide⟩,
    ⟨({ up with dieTime := List.replicate 4 { seen := true, pod := 5 }, time := { up.time with mono := 3000 } } : State),
    3, 0, by decide⟩,
    ⟨({ up with dieTime := List.replicate 4 { seen := true, holdover := true }, time := { up.time with mono := 3000 } } : State),
    3, 0, by decide⟩,
    ⟨({ up with dieTime := List.replicate 4 { seen := true, pod := 5 }, time := { up.time with mono := 3000 } } : State),
    3, by decide⟩⟩

theorem test_wit_PodMeasurement : (∃ (s : State) (o : Int) (gm : BitVec 64) (h : Nat), s.time.podSrc = 1 ∧
    s.time.podValid = false ∧ s.serving = some h) ∧ (∃ (s : State) (o : Int) (h : Nat), s.time.podSrc = 2 ∧
    s.time.podValid = true ∧ s.serving = some h ∧ s.time.ppsInEn = false ∧ s.time.gmFresh = false ∧
    s.time.gmPending = false ∧ s.time.corrPending = false ∧ s.time.thresh < o.natAbs ∧ s.time.lock = .acquiring) ∧
    (∃ (s : State) (o : Int) (gm : BitVec 64) (h : Nat), s.time.podSrc = 2 ∧ s.time.podValid = true ∧
    s.serving = some h ∧ s.time.ppsInEn = false ∧ s.time.gmFresh = false ∧ gm ≠ s.time.gmId ∧
    s.time.gmPending = false ∧ s.time.lock = .acquiring) ∧
    (∃ (s : State) (h : PtpHead) (gm : BitVec 64) (a : BitVec 8) (c : BitVec 8) (b : BitVec 32) (n : BitVec 16) (k : Nat),
    s.time.podSrc = 1 ∧ s.serving = some k ∧ h.domain = s.time.domain ∧ h.udp = s.time.udp) ∧
    (∃ (s : State) (h : PtpHead) (two : Bool) (t1 : Int) (m : PtpMaster) (k : Nat), s.time.podSrc = 1 ∧
    s.serving = some k ∧ h.domain = s.time.domain ∧ h.udp = s.time.udp ∧ s.time.parent = some m ∧ m.src = h.src ∧
    -7 ≤ h.interval ∧ h.interval ≤ 0) ∧ (∃ (s : State) (h : PtpHead) (t1 : Int) (x : PtpExchange) (k : Nat),
    s.time.podSrc = 1 ∧ s.serving = some k ∧ h.domain = s.time.domain ∧ h.udp = s.time.udp ∧
    s.time.ptpSync = some x ∧ x.src = h.src ∧ x.seq = h.seq ∧ x.t1 = none ∧ x.t4 = none) ∧
    (∃ (s : State) (h : PtpHead) (x : PtpExchange) (t1 : Int) (t4 : Int) (k : Nat), s.time.podSrc = 1 ∧
    s.serving = some k ∧ h.domain = s.time.domain ∧ h.udp = s.time.udp ∧ s.time.ptpSync = some x ∧ x.src = h.src ∧
    x.req = h.seq ∧ x.t1 = some t1) ∧ (∃ (s : State) (h : Nat), s.time.lock = .acquiring ∧
    s.time.lastMeas + 3000000000 ≤ s.time.mono ∧ s.serving = some h) :=
⟨⟨({ sv with time := { sv.time with podSrc := 1 } } : State), 0, 0, 0, by decide⟩,
    ⟨({ sv with time := { sv.time with podSrc := 2, podValid := true, gmFresh := false, lock := .acquiring } } : State),
    (-1001), 0, by decide⟩,
    ⟨({ sv with time := { sv.time with podSrc := 2, podValid := true, gmFresh := false, lock := .acquiring } } : State),
    0, 1, 0, by decide⟩, ⟨({ sv with time := { sv.time with podSrc := 1 } } : State),
    { domain := 0, udp := false, src := 7, seq := 3, interval := 0, corr := 0 }, 0, 0, 0, 0, 0, 0, by decide⟩,
    ⟨({ sv with time := { sv.time with podSrc := 1, masters := [{ src := 7, gm := 1, prio1 := 0, quality := 0, prio2 := 0, steps := 0, interval := 0, heard := [0, 0] }] } } : State),
    { domain := 0, udp := false, src := 7, seq := 3, interval := (-7), corr := 0 }, true, 0,
    { src := 7, gm := 1, prio1 := 0, quality := 0, prio2 := 0, steps := 0, interval := 0, heard := [0, 0] }, 0,
    by decide⟩,
    ⟨({ sv with time := { sv.time with podSrc := 1, ptpSync := some { src := 7, seq := 3, gm := 1, t1 := none, corr := 0, t2 := 5, req := 3, t3 := 6 } } } : State),
    { domain := 0, udp := false, src := 7, seq := 3, interval := 0, corr := 0 }, 0,
    { src := 7, seq := 3, gm := 1, t1 := none, corr := 0, t2 := 5, req := 3, t3 := 6 }, 0, by decide⟩,
    ⟨({ sv with time := { sv.time with podSrc := 1, ptpSync := some { src := 7, seq := 3, gm := 1, t1 := some 4, corr := 0, t2 := 5, req := 3, t3 := 6 } } } : State),
    { domain := 0, udp := false, src := 7, seq := 3, interval := 0, corr := 0 },
    { src := 7, seq := 3, gm := 1, t1 := some 4, corr := 0, t2 := 5, req := 3, t3 := 6 }, 4, 0, 0, by decide⟩,
    ⟨({ sv with time := { sv.time with lock := .acquiring, mono := 3000000000 } } : State), 0, by decide⟩⟩

theorem test_wit_PpsAndTimestamps : (∃ (s : State) (h : Nat), s.time.ppsInEn = true ∧ s.time.podValid = false ∧
    s.serving = some h) ∧ (∃ (s : State) (t : State) (a : Int) (h : Nat), s.time.ppsInEn = true ∧
    s.time.podValid = true ∧ s.serving = some h ∧
    t = (s.setTime fun t => { t with ppsSeen := true, ppsLast := t.mono, ppsLost := false }) ∧
    a = s.time.pod / nsUnit - s.time.ppsDelay) ∧ (∃ (s : State) (h : Nat), s.time.ppsInEn = true ∧
    s.time.ppsLost = false ∧ s.time.ppsLast + 2000000000 ≤ s.time.mono ∧ s.serving = some h) ∧
    (∃ (s : State) (h : Nat) (n : Int), s.time.ppsOutEn = true ∧ s.time.podValid = true ∧ s.serving = some h ∧
    n = s.time.pod / (1000000000 * nsUnit) ∧ s.time.pod % (1000000000 * nsUnit) < 11 * nsUnit ∧
    (s.time.ppsOut = false ∨ s.time.ppsSecond ≠ n)) ∧ (∃ (s : State) (h : Nat), s.time.ppsOut = true ∧
    s.time.ppsRose + 100000000 ≤ s.time.mono ∧ s.serving = some h) ∧ (∃ (s : State) (p : Nat) (h : Nat),
    s.time.podSrc = 2 ∧ p = s.time.wgPort.toNat ∧ p < 13 ∧ s.isUp p = true ∧ s.serving = some h ∧
    (s.dt (portDie p)).seen = true ∧ s.time.tsLast + 1000000000 / 2 ^ s.fab.interval ≤ s.time.mono) ∧
    (∃ (s : State) (u : State) (p : Fin 13) (src : BitVec 15), u = s.takeTs p ∧ u.isUp p = true ∧
    (u.dt (portDie p)).seen = true) ∧
    (∃ (s : State) (u : State) (p : Fin 13) (x : TsResp) (t1 : BitVec 64) (sent : Nat), u = s.takeTs p ∧
    u.time.podSrc = 2 ∧ p.val = u.time.wgPort.toNat ∧ (u.dt (portDie p)).seen = true ∧ u.time.tsReq = some (some t1,
    sent) ∧ x.lock = 2 ∧ x.t2.toNat % 4 = 0 ∧ x.t3.toNat % 4 = 0 ∧ t1.getLsbD 0 = false ∧
    (u.linkStamp p).getLsbD 0 = false ∧ u.time.mono ≤ sent + 100000) ∧
    (∃ (s : State) (u : State) (p : Fin 13) (x : TsResp) (t1 : BitVec 64) (sent : Nat), u = s.takeTs p ∧
    u.time.podSrc = 2 ∧ p.val = u.time.wgPort.toNat ∧ (u.dt (portDie p)).seen = true ∧ u.time.tsReq = some (some t1,
    sent) ∧ (x.lock ≠ 2 ∨ u.time.mono > sent + 100000)) ∧
    (∃ (s : State) (n : Fin 32) (c : Fin 2) (g : Fin 5) (u : Bool) (e : TsqEntry) (rest : List TsqEntry),
    s.ctdGate c = .none ∧ s.holder = some c.val ∧ (s.time.tsq.getD g {}).entries = e :: rest) ∧
    (∃ (s : State) (n : Fin 32) (c : Fin 2) (g : Fin 5) (u : Bool), s.ctdGate c = .none ∧ s.holder = some c.val) :=
⟨⟨({ sv with time := { sv.time with ppsInEn := true } } : State), 0, by decide⟩,
    ⟨({ sv with time := { sv.time with ppsInEn := true, podValid := true } } : State),
    (((({ sv with time := { sv.time with ppsInEn := true, podValid := true } } : State) : State).setTime fun t => { t with ppsSeen := true, ppsLast := t.mono, ppsLost := false })),
    ((({ sv with time := { sv.time with ppsInEn := true, podValid := true } } : State) : State).time.pod / nsUnit - (({ sv with time := { sv.time with ppsInEn := true, podValid := true } } : State) : State).time.ppsDelay),
    0, by decide, by decide, by decide, rfl, rfl⟩,
    ⟨({ sv with time := { sv.time with ppsInEn := true, ppsLost := false, mono := 2000000000 } } : State), 0,
    by decide⟩,
    ⟨({ sv with time := { sv.time with ppsOutEn := true, podValid := true, pod := 1000000000 * nsUnit + 10 * nsUnit } } : State),
    0,
    ((({ sv with time := { sv.time with ppsOutEn := true, podValid := true, pod := 1000000000 * nsUnit + 10 * nsUnit } } : State) : State).time.pod / (1000000000 * nsUnit)),
    by decide, by decide, by decide, rfl, by decide⟩,
    ⟨({ sv with time := { sv.time with ppsOut := true, mono := 100000000 } } : State), 0, by decide⟩,
    ⟨({ net with dieTime := List.replicate 4 { seen := true }, time := { net.time with podSrc := 2, wgPort := 12, mono := 1000000 } } : State),
    12, 0, by decide⟩,
    ⟨({ net with dieTime := List.replicate 4 { seen := true }, time := { net.time with podSrc := 2 } } : State),
    ((({ net with dieTime := List.replicate 4 { seen := true }, time := { net.time with podSrc := 2 } } : State) : State).takeTs (12 : Fin 13)),
    12, 0, rfl, by decide⟩,
    ⟨({ net with dieTime := List.replicate 4 { seen := true }, time := { net.time with podSrc := 2, wgPort := 12, tsReq := some (some 0, 0), mono := 100000 } } : State),
    ((({ net with dieTime := List.replicate 4 { seen := true }, time := { net.time with podSrc := 2, wgPort := 12, tsReq := some (some 0, 0), mono := 100000 } } : State) : State).takeTs (12 : Fin 13)),
    12, { t2 := 0, t3 := 0, gm := 0, lock := 2, hop := 0 }, 0, 0, rfl, by decide⟩,
    ⟨({ net with dieTime := List.replicate 4 { seen := true }, time := { net.time with podSrc := 2, wgPort := 12, tsReq := some (some 0, 0), mono := 100001 } } : State),
    ((({ net with dieTime := List.replicate 4 { seen := true }, time := { net.time with podSrc := 2, wgPort := 12, tsReq := some (some 0, 0), mono := 100001 } } : State) : State).takeTs (12 : Fin 13)),
    12, { t2 := 0, t3 := 0, gm := 0, lock := 2, hop := 0 }, 0, 0, rfl, by decide⟩,
    ⟨({ sv with time := { sv.time with tsq := [{}, {}, {}, {}, { entries := [{ id := 0, port := 0, dropped := false, stamp := 0 }] }] } } : State),
    0, 0, 4, false, { id := 0, port := 0, dropped := false, stamp := 0 }, [], by decide⟩, ⟨sv, 0, 0, 0, false,
    by decide⟩⟩

theorem test_wit_PowerLoss : ∃ (s : State) (c : Fin 8), 1 ≤ c.val ∧ c.val ≤ 6 :=
⟨sv, 6, by decide⟩

theorem test_wit_PowerSamplesAndCommands : (∃ (s : State) (w : Nat) (a : Nat), w ≤ s.ctd.clamp.pMax ∧
    a ≤ s.ctd.clamp.iMax) ∧ (∃ (s : State) (w : Nat) (a : Nat), s.ctd.clamp.pMax < w ∧ a ≤ s.ctd.clamp.iMax) ∧
    (∃ (s : State) (d : Fin 4) (c : Int), (s.die d).tripped = false ∧ (s.die d).inReset = false ∧
    (s.pow d).thermal = 0 ∧ (s.pow d).hot = false ∧ (s.pow d).neigh = false ∧ c ≤ (s.ctd.clamp.tj : Int) * 1000 ∧
    (ringNeighbours d).all (fun n => decide (c ≤ (s.pow n).junction + 25000)) = true) ∧
    (∃ (s : State) (d : Fin 4) (c : Int), (s.die d).tripped = false ∧ (s.die d).inReset = false ∧
    (s.ctd.clamp.tj : Int) * 1000 + 10000 ≤ c) ∧ (∃ (s : State) (t : Nat), s.power.clearSince = some t ∧
    s.power.alert = true ∧ s.alertHolds = false ∧ t + 10000000 ≤ s.time.mono) ∧
    (∃ (r : DReq) (s : State) (t : State) (d : Nat), s.heard 0x0F01 [.m, .f] r = true ∧ r.args.length = 4 ∧
    d = argOf r 0 ∧ d < 4 ∧ 400 ≤ argOf r 1 ∧ argOf r 1 ≤ min (s.fuseMhz d) (s.ctd.clamp.fMe.getD d 0) ∧
    500 ≤ argOf r 2 ∧ argOf r 2 ≤ s.ctd.clamp.fHost ∧ 600 ≤ argOf r 3 ∧ argOf r 3 ≤ s.ctd.clamp.vCore ∧
    argOf r 1 / 25 * 25 ≤ (s.vfLimit d (argOf r 3 / 5 * 5)).1 ∧
    argOf r 2 / 100 * 100 ≤ (s.vfLimit d (argOf r 3 / 5 * 5)).2 ∧
    t = (if (s.pow d).me = argOf r 1 / 25 * 25 && (s.pow d).host = argOf r 2 / 100 * 100 && (s.pow d).mv = argOf r 3 / 5 * 5 then s else s.paced d)) ∧
    (∃ (r : DReq) (s : State), s.heard 0x0F02 [.m, .f] r = true ∧ r.args.length = 1 ∧ argOf r 0 ≤ s.ctd.clamp.pMax) ∧
    (∃ (r : DReq) (s : State), s.heard 0x0F02 [.m, .f] r = true ∧ r.args.length = 1 ∧ s.ctd.clamp.pMax < argOf r 0) ∧
    (∃ (r : DReq) (s : State), s.heard 0x0F03 [.c, .m, .f] r = true ∧ r.args.length = 0) :=
⟨⟨sv, 1750, 380, by decide⟩, ⟨sv, 1751, 380, by decide⟩, ⟨up, 3, 25000, by decide⟩, ⟨up, 3, 115000, by decide⟩,
    ⟨({ (late up 10000000) with power := { up.power with clearSince := some 0, alert := true } } : State), 0,
    by decide⟩, ⟨(rm [3, 400, 500, 900]), sv, ((if ((sv : State).pow (3 : Nat)).me = argOf ((rm [3, 400, 500,
    900]) : DReq) 1 / 25 * 25 && ((sv : State).pow (3 : Nat)).host = argOf ((rm [3, 400, 500,
    900]) : DReq) 2 / 100 * 100 && ((sv : State).pow (3 : Nat)).mv = argOf ((rm [3, 400, 500,
    900]) : DReq) 3 / 5 * 5 then (sv : State) else (sv : State).paced (3 : Nat))), 3, by decide, by decide,
    by decide, by decide, by decide, by decide, by decide, by decide, by decide, by decide, by decide, by decide,
    rfl⟩, ⟨(rm [1750]), sv, by decide⟩, ⟨(rm [1751]), sv, by decide⟩, ⟨rm [], sv, by decide⟩⟩

theorem test_wit_EnergyIdentity : ∃ (s : State) (x : RailSample), s.toll.win.Balanced :=
⟨sv, { inputMv := 0, inputMa := 0, rails := [], tagCycles := [], ctxCycles := [], modCycles := [], tagBytes := [], tagFlits := [], ctxBytes := [], ctxFlits := [], modBytes := [], modFlits := [], missing := 0, temps := [] },
    ⟨rfl, List.Pairwise.nil, by intro e h; cases h⟩⟩

theorem test_wit_ManifestsAndTags : (∃ (s : State) (x : RailSample), s.toll.lastIv = some s.intervalNo) ∧
    (∃ (s : State), s.time.tollValid = true ∧ s.toll.boundary = none ∧ s.toll.lastBoundary + 2000000000 ≤ s.tollNs) ∧
    (∃ (s : State) (c : Nat), s.serving = some c ∧ s.time.tollValid = true ∧ s.toll.keyBusy.getD c false = false) ∧
    (∃ (s : State) (c : Nat) (w : TollWindow) (rest : List TollWindow),
    s.toll.cut = w :: rest ∧ w.over_.length ≤ 256) ∧ (∃ (s : State) (k : Fin 4096), (s.tag k).isOpen = true ∧
    (s.tag k).closing = true ∧ (s.tag k).running = 0 ∧ s.toll.room (s.tag k).dies = true) :=
⟨⟨({ sv with toll := { sv.toll with lastIv := some 0 } } : State), { inputMv := 0, inputMa := 0, rails := [], tagCycles := [], ctxCycles := [], modCycles := [], tagBytes := [], tagFlits := [], ctxBytes := [], ctxFlits := [], modBytes := [], modFlits := [], missing := 0, temps := [] },
    by decide⟩, ⟨({ sv with time := { sv.time with tollValid := true, toll := 2000000000 * nsUnit } } : State),
    by decide⟩, ⟨({ sv with time := { sv.time with tollValid := true } } : State), 0, by decide⟩,
    ⟨({ sv with toll := { sv.toll with cut := [{}] } } : State), 0, {}, [], by decide⟩, ⟨({ sv with toll := { sv.toll with tags := [(4095, { isOpen := true, closing := true })] } } : State),
    4095, by decide⟩⟩

theorem test_wit_TollReads : (∃ (s : State) (n : Fin 32) (c : Fin 2) (w : Fin 2) (v : BitVec 32) (m : Manifest) (x : TollRec),
    s.ctdGate c = .none ∧ s.toll.held.find? (fun y => y.num == (s.toll.wins.getD (2 * c.val + w.val) {}).manifest.toNat) = some m ∧
    m.recs[v.toNat]? = some x) ∧ (∃ (r : DReq) (s : State), s.heard 0x0C01 [.c, .m, .f] r = true ∧
    (senderOf r.ch.val = some .c → s.holdsTag r.ch.val (argOf r 0) = true) ∧ r.args.length = 1 ∧
    argOf r 0 < 4096) ∧ (∃ (r : DReq) (s : State) (m : Manifest), s.heard 0x0C02 [.c, .m, .f] r = true ∧
    r.args.length = 2 ∧ s.toll.held.find? (·.num == arg64Of r 0) = some m) ∧ (∃ (r : DReq) (s : State) (m : Manifest) (x : TollRec),
    s.heard 0x0C03 [.c, .m, .f] r = true ∧ r.args.length = 3 ∧ s.toll.held.find? (·.num == arg64Of r 0) = some m ∧
    m.recs[argOf r 2]? = some x) ∧ (∃ (r : DReq) (s : State), s.heard 0x0C04 [.c, .m, .f] r = true ∧
    r.args.length = 0) ∧ (∃ (r : DReq) (s : State), s.heard 0x0C05 [.m] r = true ∧ r.args.length = 0 ∧
    s.ctd.clamp.tollPolicy.getLsbD 1 = true ∧ s.toll.rotate = none) ∧ (∃ (s : State) (w : Who) (c : Nat),
    s.toll.rotate = some w ∧ s.serving = some c ∧ c < s.ctd.nv.keyGen.length) ∧ (∃ (s : State) (c : Nat),
    s.toll.rotate = none ∧ s.toll.keyBusy.findIdx? id = some c ∧ c < s.ctd.nv.keyGen.length) ∧ (∃ (r : DReq) (s : State),
    s.heard 0x0D01 [.m, .f] r = true ∧ r.args.length = 2 ∧ argOf r 0 % 4 = 0 ∧ 1 ≤ argOf r 1 ∧
    argOf r 1 ≤ 1023 ∧ argOf r 0 + 4 * argOf r 1 ≤ s.ctd.nv.cal.length) ∧ (∃ (r : DReq) (s : State),
    s.heard 0x0D03 [.c, .m, .f] r = true ∧ r.args.length = 0) :=
⟨⟨({ sv with toll := { sv.toll with held := [{ num := 0, bytes := [], recs := [{ seq := 0, head := [], tail := [], total := 0, closeNs := 0, isTag := true }] }], rotate := none }, ctd := { sv.ctd with clamp := { sv.ctd.clamp with tollPolicy := 3 }, nv := { sv.ctd.nv with cal := [1, 2, 3, 4] } } } : State),
    0, 0, 0, 0, { num := 0, bytes := [], recs := [{ seq := 0, head := [], tail := [], total := 0, closeNs := 0, isTag := true }] },
    { seq := 0, head := [], tail := [], total := 0, closeNs := 0, isTag := true }, by decide⟩,
    ⟨(rm [4095]), sv, by decide⟩, ⟨(rm [0, 0]), ({ sv with toll := { sv.toll with held := [{ num := 0, bytes := [], recs := [{ seq := 0, head := [], tail := [], total := 0, closeNs := 0, isTag := true }] }], rotate := none }, ctd := { sv.ctd with clamp := { sv.ctd.clamp with tollPolicy := 3 }, nv := { sv.ctd.nv with cal := [1, 2, 3, 4] } } } : State),
    { num := 0, bytes := [], recs := [{ seq := 0, head := [], tail := [], total := 0, closeNs := 0, isTag := true }] },
    by decide⟩, ⟨(rm [0, 0, 0]), ({ sv with toll := { sv.toll with held := [{ num := 0, bytes := [], recs := [{ seq := 0, head := [], tail := [], total := 0, closeNs := 0, isTag := true }] }], rotate := none }, ctd := { sv.ctd with clamp := { sv.ctd.clamp with tollPolicy := 3 }, nv := { sv.ctd.nv with cal := [1, 2, 3, 4] } } } : State),
    { num := 0, bytes := [], recs := [{ seq := 0, head := [], tail := [], total := 0, closeNs := 0, isTag := true }] },
    { seq := 0, head := [], tail := [], total := 0, closeNs := 0, isTag := true }, by decide⟩,
    ⟨rm [], sv, by decide⟩, ⟨rm [], ({ sv with toll := { sv.toll with held := [{ num := 0, bytes := [], recs := [{ seq := 0, head := [], tail := [], total := 0, closeNs := 0, isTag := true }] }], rotate := none }, ctd := { sv.ctd with clamp := { sv.ctd.clamp with tollPolicy := 3 }, nv := { sv.ctd.nv with cal := [1, 2, 3, 4] } } } : State),
    by decide⟩, ⟨({ sv with toll := { sv.toll with held := [{ num := 0, bytes := [], recs := [{ seq := 0, head := [], tail := [], total := 0, closeNs := 0, isTag := true }] }], rotate := some who }, ctd := { sv.ctd with clamp := { sv.ctd.clamp with tollPolicy := 3 }, nv := { sv.ctd.nv with cal := [1, 2, 3, 4] } } } : State),
    who, 0, by decide⟩, ⟨({ sv with toll := { sv.toll with keyBusy := [false, true] } } : State), 1, by decide⟩,
    ⟨(rm [0, 1]), ({ sv with toll := { sv.toll with held := [{ num := 0, bytes := [], recs := [{ seq := 0, head := [], tail := [], total := 0, closeNs := 0, isTag := true }] }], rotate := none }, ctd := { sv.ctd with clamp := { sv.ctd.clamp with tollPolicy := 3 }, nv := { sv.ctd.nv with cal := [1, 2, 3, 4] } } } : State),
    by decide⟩, ⟨rm [], sv, by decide⟩⟩

theorem test_wit_WaybillChanges : (∃ (s : State) (c : Nat), s.holder = some c ∧ s.ctd.lease.expiry ≤ s.time.mono) ∧
    (∃ (s : State) (t : Nat), s.ctd.lease.guardEnd = some t ∧ t ≤ s.time.mono) ∧ (∃ (s : State) (c : Fin 2),
    s.holder = some c.val ∧ s.tickNo < s.ctd.lease.expiry / 10 ∧ s.wdogDue c = false ∧
    s.ctd.lease.claims.filter (·.1 == s.tickNo) = []) ∧ (∃ (s : State) (c : Fin 2) (o : Fin 2),
    s.holder = some c.val ∧ s.tickNo < s.ctd.lease.expiry / 10 ∧ s.wdogDue c = false ∧ o ≠ c ∧
    s.ctd.lease.claims = [(s.tickNo, o.val, s.ctd.lease.gen)] ∧ s.ctdGate o = .none ∧
    (s.recentLosses o).length < 3) ∧ (∃ (s : State) (c : Fin 2), s.power.rails = true ∧ s.holder = none ∧
    s.ctd.lease.guardEnd = none ∧ s.ctdGate c = .none ∧ (s.recentLosses c).length < 3 ∧ c.val < s.ctd.ctds.length) ∧
    (∃ (s : State) (c : Fin 2) (g : BitVec 32) (h : Nat), s.holder = some h ∧ s.tickNo < s.ctd.lease.expiry / 10 ∧
    s.wdogDue h = false ∧ s.ctd.lease.guardEnd = none) ∧ (∃ (s : State) (c : Fin 2), s.power.rails = true ∧
    s.holder = none ∧ s.ctd.lease.guardEnd = none ∧ s.ctdGate c = .none ∧ (s.recentLosses c).length < 3 ∧
    (s.ctdOf c).role = .standby ∧ (s.ctdOf c).claimable = true) :=
⟨⟨(late sv 1000000), 0, by decide⟩,
    ⟨({ two with ctd := { two.ctd with lease := { two.ctd.lease with guardEnd := some 0 } } } : State), 0,
    by decide⟩, ⟨sv, 0, by decide⟩,
    ⟨({ two with ctd := { two.ctd with lease := { two.ctd.lease with claims := [(0, 1, 1)] } } } : State), 0, 1,
    by decide⟩, ⟨({ two with ctd := { two.ctd with lease := { two.ctd.lease with holder := none } } } : State), 1,
    by decide⟩, ⟨sv, 0, 0, 0, by decide⟩,
    ⟨({ two with ctd := { two.ctd with lease := { two.ctd.lease with holder := none } } } : State), 1, by decide⟩⟩

theorem test_wit_CtdUpkeep : (∃ (s : State) (c : Fin 2), s.holder = some c.val ∧ s.tickNo < s.ctd.lease.expiry / 10 ∧
    s.wdogDue c = false ∧ s.ctd.lease.renewed = true ∧ s.ctd.lease.gates = false ∧ s.ctd.lease.takeover = false ∧
    s.ctd.lease.opened = true ∧ s.ctd.lease.closedAt = none) ∧ (∃ (s : State) (c : Fin 2) (k : Nat),
    s.holder = some c.val ∧ s.tickNo < s.ctd.lease.expiry / 10 ∧ s.wdogDue c = false ∧ s.ctd.lease.renewed = true ∧
    s.ctd.lease.gates = false ∧ s.ctd.lease.takeover = true ∧ s.ctd.lease.opened = true ∧
    s.ctd.lease.recovery = false ∧ s.ctd.lease.closedAt = some k) ∧ (∃ (s : State) (c : Fin 2),
    s.holder = some c.val ∧ s.tickNo < s.ctd.lease.expiry / 10 ∧ s.wdogDue c = false ∧ s.ctd.lease.renewed = false ∧
    s.ctd.lease.gates = false) ∧ (∃ (s : State) (t : Nat), s.ctd.lease.closedAt = some t ∧
    s.ctd.lease.gates = false ∧ s.ctd.lease.recovery = false ∧ t + 40000000 ≤ s.time.mono ∧ s.power.rails = true) ∧
    (∃ (s : State) (c : Fin 2), s.ctdGate c = .none) ∧ (∃ (s : State) (c : Fin 2), s.wdogDue c = true ∧
    c.val < s.ctd.ctds.length ∧ s.power.rails = true ∧ (∀ h,
    s.holder = some h → s.tickNo < s.ctd.lease.expiry / 10) ∧ s.ctd.lease.claims.filter (·.1 == s.tickNo) = []) ∧
    (∃ (s : State) (c : Fin 2) (x : Option (Fin 6)) (t : Nat), (s.ctdOf c).heldUntil = some t ∧ t ≤ s.time.mono ∧
    c.val < s.ctd.ctds.length) ∧ (∃ (s : State) (h : Nat) (c : Nat) (q : BitVec 32) (k : BitVec 32),
    s.serving = some h ∧ s.standby = some c ∧ (s.ctdOf c).health = .good ∧ q = (s.ctdOf c).nextSeq) ∧
    (∃ (s : State) (h : Nat) (c : Nat) (q : BitVec 32) (k : BitVec 32) (m : BitVec 32), s.serving = some h ∧
    s.standby = some c ∧ (s.ctdOf c).health = .good ∧ (k ≠ m ∨ q ≠ (s.ctdOf c).nextSeq)) ∧
    (∃ (s : State) (h : Nat) (c : Fin 2), s.serving = some h ∧ (s.ctdOf c).role = .standby ∧
    (s.ctdOf c).health = .resync ∧ (s.ctdOf c).resyncAsked = true ∧ s.ctdGate c = .none) ∧
    (∃ (s : State) (c : Fin 2) (d : BitVec 32), (s.ctdOf c).role = .standby ∧ s.ctdGate c = .none) ∧
    (∃ (s : State) (c : Fin 2) (n : BitVec 32) (t : BitVec 32), (s.ctdOf c).role = .standby ∧ s.ctdGate c = .none ∧
    (s.ctdOf c).reportAt + 1000000000 ≤ s.time.mono ∧ c.val < s.ctd.ctds.length) :=
⟨⟨({ up with ctd := { up.ctd with lease := { up.ctd.lease with gates := false } } } : State), 0, by decide⟩,
    ⟨({ two with ctd := { two.ctd with lease := { two.ctd.lease with gates := false, takeover := true, closedAt := some 0 } } } : State),
    0, 0, by decide⟩,
    ⟨({ two with ctd := { two.ctd with lease := { two.ctd.lease with gates := false, renewed := false } } } : State),
    0, by decide⟩,
    ⟨(late ({ up with ctd := { up.ctd with lease := { up.ctd.lease with gates := false, closedAt := some 0 } } } : State) 40000000),
    0, by decide⟩, ⟨sv, 0, by decide⟩,
    ⟨(late ({ two with ctd := { two.ctd with lease := { two.ctd.lease with expiry := 20000000 } } } : State) 10000000),
    0, by decide, by decide, by decide, (fun h hh => by cases hh; decide), by decide⟩,
    ⟨({ two with ctd := { two.ctd with ctds := [{ role := .active, running := true }, { role := .standby, running := true, heldUntil := some 0 }] } } : State),
    1, none, 0, by decide⟩, ⟨two, 0, 1, (((two : State).ctdOf (1 : Nat)).nextSeq), 0, by decide, by decide,
    by decide, rfl⟩, ⟨two, 0, 1, 7, 0, 0, by decide⟩,
    ⟨({ two with ctd := { two.ctd with ctds := [{ role := .active, running := true }, { role := .standby, running := true, health := .resync, resyncAsked := true }] } } : State),
    0, 1, by decide⟩, ⟨two, 1, 0, by decide⟩, ⟨(late two 1000000000), 1, 0, 0, by decide⟩⟩

theorem test_wit_RecoveryCommands : (∃ (s : State) (l : BitVec 24) (pw : BitVec 24) (p : List (Nat × List PatternResult)) (h : Nat),
    s.ctd.lease.recovery = true ∧ s.ctd.lease.gates = true ∧ s.holder = some h) ∧ (∃ (s : State) (u : Nat), u < 112 ∧
    s.serving.isSome = true ∧ (s.engine u).st = .resetting ∧ (s.die (engDie u)).inReset = false ∧
    (s.pairOf u).headD u = u ∧ (s.engine u).resetStart + 50000000 < s.time.mono) ∧ (∃ (s : State) (c : Nat),
    s.serving.isSome = true ∧ (s.ctx c).st = .resetting ∧ s.resetWaits c = false ∧ (s.ctx c).resetEngs ≠ [] ∧
    (s.ctx c).resetFrom + (if (s.ctx c).releasing then 10000000 else 5000000) < s.time.mono) ∧
    (∃ (s : State) (d : Nat) (t : Nat), d < 4 ∧ s.serving.isSome = true ∧ (s.die d).resetStart = some t ∧
    t + 1500000000 < s.time.mono) ∧ (∃ (s : State), s.ctd.lease.recovery = true ∧
    s.ctd.lease.recStart + 10000000000 < s.time.mono) ∧ (∃ (r : DReq) (s : State), s.heard 0x0704 [.m] r = true ∧
    r.args.length = 0) ∧ (∃ (r : DReq) (s : State) (c : Nat), s.heard 0x0705 [.m, .f] r = true ∧ r.args.length = 0 ∧
    s.hasCtd1 = true ∧ s.standby = some c ∧ (s.ctdOf c).claimable = true) ∧ (∃ (r : DReq) (s : State),
    s.heard 0x0708 [.m] r = true ∧ r.args.length = 0) ∧
    (∀ hv : Config.rsaVerify ({ sv with ctd := { sv.ctd with clamp := { sv.ctd.clamp with opKey := List.replicate 32 1 }, nv := { sv.ctd.nv with latched := true, latchCount := 1 } } } : State).ctd.clamp.opKey ((argBytes (DReq.nums (rm ([1,
    0, 1, 0, 0] ++ List.replicate 96 0))) 0 101).take 20) ((argBytes (DReq.nums (rm ([1, 0, 1, 0,
    0] ++ List.replicate 96 0))) 0 101).drop 20) = true, ∃ (r : DReq) (s : State) (t : State) (b : List Byte),
    s.carriesOut r.ctd.val = true ∧ s.serving = some r.ctd.val ∧ s.inRom r.ctd.val = false ∧
    s.ctd.nv.latched = true ∧ (s.chan r.ctd.val r.ch.val).cache = none ∧ senderOf r.ch.val = some .m ∧
    r.args.length = 101 ∧ b = argBytes (DReq.nums r) 0 101 ∧ fieldAt b 0 8 = s.fuse.serial.toNat ∧
    fieldAt b 8 4 = s.ctd.nv.latchCount ∧ fieldAt b 12 8 = s.ctd.nv.nonce.toNat ∧
    s.ctd.clamp.opKey.any (· != 0) = true ∧ Config.rsaVerify s.ctd.clamp.opKey (b.take 20) (b.drop 20) = true ∧
    t = ({ s with ctd := { s.ctd with nv := { s.ctd.nv with latched := false, recoveries := [] } } } : State).logFw 0x1309 5 [s.ctd.nv.latchCount]) ∧
    (∀ hv : Config.rsaVerify ({ sv with ctd := { sv.ctd with clamp := { sv.ctd.clamp with opKey := List.replicate 32 1 }, nv := { sv.ctd.nv with latched := true, latchCount := 1 } } } : State).ctd.clamp.opKey ((argBytes (DReq.nums (rm ([1,
    0, 1, 0, 0] ++ List.replicate 96 0))) 0 101).take 20) ((argBytes (DReq.nums (rm ([1, 0, 1, 0,
    0] ++ List.replicate 96 0))) 0 101).drop 20) = false, ∃ (r : DReq) (s : State) (b : List Byte),
    s.carriesOut r.ctd.val = true ∧ s.serving = some r.ctd.val ∧ s.inRom r.ctd.val = false ∧
    s.ctd.nv.latched = true ∧ (s.chan r.ctd.val r.ch.val).cache = none ∧ senderOf r.ch.val = some .m ∧
    r.args.length = 101 ∧ b = argBytes (DReq.nums r) 0 101 ∧
    Config.rsaVerify s.ctd.clamp.opKey (b.take 20) (b.drop 20) = false) :=
⟨⟨({ up with ctd := { up.ctd with lease := { up.ctd.lease with recovery := true } } } : State), 0, 0, [], 0,
    by decide⟩, ⟨(late { up with eng := { up.eng with engs := [(111, { st := .resetting })] } } 50000001), 111,
    by decide⟩,
    ⟨(late { up with eng := { up.eng with ctxs := [(255, { cx with st := .resetting, releasing := true, resetEngs := [111] })] } } 10000001),
    255, by decide⟩,
    ⟨(late { up with dies := List.replicate 4 { inReset := true, resetStart := some 0 } } 1500000001), 3, 0,
    by decide⟩,
    ⟨(late ({ up with ctd := { up.ctd with lease := { up.ctd.lease with recovery := true } } } : State) 10000000001),
    by decide⟩, ⟨rm [], sv, by decide⟩, ⟨rm [], two, 1, by decide⟩, ⟨rm [], sv, by decide⟩, (fun hv => ⟨(rm ([1, 0,
    1, 0, 0] ++ List.replicate 96 0)),
    ({ sv with ctd := { sv.ctd with clamp := { sv.ctd.clamp with opKey := List.replicate 32 1 }, nv := { sv.ctd.nv with latched := true, latchCount := 1 } } } : State),
    (({ (({ sv with ctd := { sv.ctd with clamp := { sv.ctd.clamp with opKey := List.replicate 32 1 }, nv := { sv.ctd.nv with latched := true, latchCount := 1 } } } : State) : State) with ctd := { (({ sv with ctd := { sv.ctd with clamp := { sv.ctd.clamp with opKey := List.replicate 32 1 }, nv := { sv.ctd.nv with latched := true, latchCount := 1 } } } : State) : State).ctd with nv := { (({ sv with ctd := { sv.ctd with clamp := { sv.ctd.clamp with opKey := List.replicate 32 1 }, nv := { sv.ctd.nv with latched := true, latchCount := 1 } } } : State) : State).ctd.nv with latched := false, recoveries := [] } } } : State).logFw 0x1309 5 [(({ sv with ctd := { sv.ctd with clamp := { sv.ctd.clamp with opKey := List.replicate 32 1 }, nv := { sv.ctd.nv with latched := true, latchCount := 1 } } } : State) : State).ctd.nv.latchCount]),
    (argBytes (DReq.nums ((rm ([1, 0, 1, 0, 0] ++ List.replicate 96 0)) : DReq)) 0 101), by decide, by decide,
    by decide, by decide, by decide, by decide, by decide, rfl, by decide, by decide, by decide, by decide, hv,
    rfl⟩), (fun hv => ⟨(rm ([1, 0, 1, 0, 0] ++ List.replicate 96 0)),
    ({ sv with ctd := { sv.ctd with clamp := { sv.ctd.clamp with opKey := List.replicate 32 1 }, nv := { sv.ctd.nv with latched := true, latchCount := 1 } } } : State),
    (argBytes (DReq.nums ((rm ([1, 0, 1, 0, 0] ++ List.replicate 96 0)) : DReq)) 0 101), by decide, by decide,
    by decide, by decide, by decide, by decide, by decide, rfl, hv⟩)⟩

theorem test_wit_LinkTraining : (∃ (s : State) (p : Fin 13), (s.port p).st = .up) ∧ (∃ (s : State) (p : Fin 13),
    (s.port p).st = .training ∧ (s.port p).lanes = 0) ∧ (∃ (s : State) (p : Fin 13) (i : Ident),
    (s.port p).st = .training ∧ (s.port p).lanes ≠ 0 ∧ (s.port p).exchanged = false ∧ i.acked = false) ∧
    (∃ (s : State) (p : Fin 13) (i : Ident) (r : Nat), (s.port p).st = .training ∧ (s.port p).lanes ≠ 0 ∧
    (s.port p).exchanged = false ∧ i.acked = true ∧ s.identRow p i = 5 ∧
    agreedRev i.revMin.toNat i.revMax.toNat = some r ∧ (s.port p).remapNew = false ∧ p.val < s.fab.ports.length) ∧
    (∃ (s : State) (p : Fin 13) (t : Nat), (s.port p).lockAt = some t ∧ t + 10000000 ≤ s.time.mono ∧
    (s.port p).exchanged = false ∧ (s.port p).attempts < 2) ∧ (∃ (s : State) (p : Fin 13) (r : Nat),
    (s.port p).st = .retraining ∧ (s.port p).exchanged = true ∧ (s.port p).row = 5 ∧ (s.port p).rev ≠ 0 ∧
    (s.port p).remapNew = false ∧ agreedRev (s.port p).revMin.toNat (s.port p).revMax.toNat = some r ∧
    p.val < s.fab.ports.length) ∧ (∃ (s : State) (p : Fin 13), (s.port p).st = .up ∧ (s.port p).replay ≠ [] ∧
    (s.port p).progress + 50000 ≤ s.time.mono ∧ p.val < s.fab.ports.length) :=
⟨⟨net, 12, by decide⟩,
    ⟨({ up with fab := { up.fab with ports := List.replicate 13 { st := .training } }, time := { up.time with mono := 20000000 } } : State),
    12, by decide⟩,
    ⟨({ up with fab := { up.fab with ports := List.replicate 13 { st := .training, lanes := 16 } }, time := { up.time with mono := 20000000 } } : State),
    12,
    { acked := false, serial := 9, coord := 256, port := 1, revMin := 1, revMax := 1, variant := 0, fwRelease := 0, flags := 0 },
    by decide⟩,
    ⟨({ up with fab := { up.fab with ports := List.replicate 13 { st := .training, lanes := 16 } }, time := { up.time with mono := 20000000 } } : State),
    0,
    { acked := true, serial := 9, coord := 256, port := 1, revMin := 1, revMax := 1, variant := 0, fwRelease := 0, flags := 0 },
    1, by decide⟩,
    ⟨({ up with fab := { up.fab with ports := List.replicate 13 { st := .training, lanes := 16, lockAt := some 0, attempts := 1 } }, time := { up.time with mono := 20000000 } } : State),
    12, 0, by decide⟩,
    ⟨({ up with fab := { up.fab with ports := List.replicate 13 { st := .retraining, lanes := 16, exchanged := true, row := 5, rev := 1, revMin := 1, revMax := 1 } }, time := { up.time with mono := 20000000 } } : State),
    12, 1, by decide⟩,
    ⟨({ up with fab := { up.fab with ports := List.replicate 13 { st := .up, replay := [{ fseq := 3, vc := 0, startOff := 0, payload := [] }] } }, time := { up.time with mono := 20000000 } } : State),
    12, by decide⟩⟩

set_option maxRecDepth 100000 in
theorem test_wit_Flits : (∃ (s : State) (p : Fin 13), (s.port p).st = .up ∧ (s.port p).lanes ≠ 0 ∧
    (s.port p).nakDue = true) ∧ (∃ (s : State) (p : Fin 13) (q : Nat) (rest : List Nat) (f : Flit),
    (s.port p).st = .up ∧ (s.port p).lanes ≠ 0 ∧ (s.port p).nakDue = false ∧ (s.port p).resend = q :: rest ∧
    (s.port p).replay.find? (fun g => g.fseq == q) = some f) ∧ (∃ (s : State) (p : Fin 13) (v : Nat) (left : Nat),
    (s.port p).st = .up ∧ (s.port p).lanes ≠ 0 ∧ (s.port p).nakDue = false ∧ (s.port p).resend = [] ∧
    (s.port p).replay.length < s.replaySize p ∧ (s.port p).nextVc (s.vcRoom p) false = some (v, left) ∧
    p.val < s.fab.ports.length) ∧ (∃ (s : State) (p : Fin 13) (fl : List (BitVec 8)), (s.port p).st = .up ∧
    (s.port p).lanes ≠ 0 ∧ rsDecode ((List.range 128).map fun i => fl.getD (2 * i) 0) = none ∧
    rsDecode ((List.range 128).map fun i => fl.getD (2 * i + 1) 0) = none ∧ p.val < s.fab.ports.length) ∧
    (∃ (s : State) (p : Fin 13) (fl : List (BitVec 8)) (a : List (BitVec 8)) (b : List (BitVec 8)) (m : List (BitVec 8)) (na : Nat) (nb : Nat),
    (s.port p).st = .up ∧ (s.port p).lanes ≠ 0 ∧
    rsDecode ((List.range 128).map fun i => fl.getD (2 * i) 0) = some (a, na) ∧
    rsDecode ((List.range 128).map fun i => fl.getD (2 * i + 1) 0) = some (b, nb) ∧
    m = (List.range 240).map (fun i => (if i % 2 = 0 then a else b).getD (i / 2) 0) ∧
    (crc32c (m.take 236)).toNat = fieldAt m 236 4 ∧ bitsOf (fieldAt m 0 8) 2 0 = 1 ∧
    bitOf (fieldAt m 0 8) 38 = false ∧ BitVec.ofNat 16 (bitsOf (fieldAt m 0 8) 21 6) = (s.port p).rxLast + 1 ∧
    p.val < s.fab.ports.length) :=
⟨⟨({ up with fab := { up.fab with ports := List.replicate 13 { st := .up, lanes := 16, nakDue := true } }, time := { up.time with mono := 20000000 } } : State),
    12, by decide⟩,
    ⟨({ up with fab := { up.fab with ports := List.replicate 13 { st := .up, lanes := 16, resend := [3], replay := [{ fseq := 3, vc := 0, startOff := 0, payload := [] }] } }, time := { up.time with mono := 20000000 } } : State),
    12, 3, [], { fseq := 3, vc := 0, startOff := 0, payload := [] }, by decide⟩,
    ⟨({ up with fab := { up.fab with ports := List.replicate 13 { st := .up, lanes := 16, outq := [{ vc := 0, pkt := pk }] } }, time := { up.time with mono := 20000000 } } : State),
    12, 0, 0, by decide⟩, ⟨net, 12, (List.replicate 20 1), by decide +kernel⟩, ⟨net, 12, ([1, 0, 0, 0, 0, 0, 240,
    15] ++ List.replicate 228 0 ++ [15, 41, 243, 5, 204, 108, 209, 111, 42, 201, 219, 178, 207, 14, 129, 250, 247,
    149, 88, 58]), ([1,0,0,240] ++ List.replicate 114 0 ++ [15,243,204,209,42,219,207,129,247,88]),
    ([0,0,0,15] ++ List.replicate 114 0 ++ [41,5,108,111,201,178,14,250,149,58]),
    ((List.range 240).map (fun i => (if i % 2 = 0 then ([1,0,0,240] ++ List.replicate 114 0 ++ [15,243,204,209,42,219,207,129,247,88]) else ([0,0,0,15] ++ List.replicate 114 0 ++ [41,5,108,111,201,178,14,250,149,58])).getD (i / 2) 0)),
    0, 0, by decide +kernel⟩⟩

theorem test_wit_RequestsInOrder : (∃ (s : State) (t : State) (p : Fin 13) (k : Packet),
    t = s.takePkt p (pktBytes k) ∧ t.isUp p = true ∧ (k.ptype.toNat < 5 ∨ 10 < k.ptype.toNat) ∧
    k.dst.toNat = t.ownId ∧ (∀ x, t.sliceOf k.slice = some x → bitOf x.2.boundary.toNat p = false) ∧
    (t.die (homeDie k.src.toNat)).inReset = false ∧ (t.fab.peers.lookup k.src.toNat).isSome = true ∧
    (t.rxFlow k.src.toNat k.cls.toNat).e = some k.seq) ∧
    (∃ (s : State) (m : BitVec 15) (c : Fin 4) (p : Nat) (k : Packet), (s.die (homeDie m.toNat)).inReset = false ∧
    (s.rxFlow m.toNat c).waiting.find? (fun w => some w.2.seq == (s.rxFlow m.toNat c).e) = some (p, k)) ∧
    (∃ (s : State) (p : Nat) (k : Packet), s.reqChecks p k = (0, s)) ∧ (∃ (s : State) (k : Packet), k.ptype = 1) ∧
    (∃ (s : State) (k : Packet), k.ptype = 2) ∧ (∃ (s : State) (k : Packet), k.ptype = 3) :=
⟨⟨({ net with fab := { net.fab with peers := [(1, { tgt := true, rx := [{ e := some 0 }, {}, {}, {}] })] } } : State),
    ((({ net with fab := { net.fab with peers := [(1, { tgt := true, rx := [{ e := some 0 }, {}, {}, {}] })] } } : State) : State).takePkt (12 : Fin 13) (pktBytes (pk : Packet))),
    12, pk, rfl, by decide, by decide, by decide, (fun x h => by cases h; decide), by decide⟩,
    ⟨({ net with fab := { net.fab with peers := [(1, { tgt := true, rx := [{ e := some 0, waiting := [(11, { pk with seq := 5 }), (12, pk)] }, {}, {}, {}] })] } } : State),
    1, 0, 12, pk, by decide⟩, ⟨net, 0, pk, by decide⟩, ⟨sv, ({ pk with ptype := 1 } : Packet), by decide⟩, ⟨sv,
    ({ pk with ptype := 2 } : Packet), by decide⟩, ⟨sv, ({ pk with ptype := 3 } : Packet), by decide⟩⟩

theorem test_wit_IssuerAndPeers : (∃ (s : State) (t : State) (k : Packet) (r : FReq), t = (List.range 13).foldl (fun s p => s.takePkt p (pktBytes k)) s ∧
    k.ptype = 5 ∧ k.dst.toNat = s.ownId ∧ t.una? k.src.toNat k.cls.toNat k.seq = some r ∧ bitsOf k.dw2.toNat 55 52 = 0) ∧
    (∃ (s : State) (t : State) (k : Packet) (r : FReq), t = (List.range 13).foldl (fun s p => s.takePkt p (pktBytes k)) s ∧
    k.ptype = 5 ∧ k.dst.toNat = s.ownId ∧ t.una? k.src.toNat k.cls.toNat k.seq = some r ∧ bitsOf k.dw2.toNat 55 52 = 2) ∧
    (∃ (s : State) (m : BitVec 15) (c : Fin 4) (q : BitVec 16) (r : FReq), s.una? m.toNat c q = some r ∧
    r.busy = false ∧ r.ahead = none ∧ r.sentAt + s.fab.timeout * 100000 ≤ s.time.mono ∧ r.tries < s.fab.retries) ∧
    (∃ (s : State) (m : BitVec 15) (c : Fin 4) (q : BitVec 16) (r : FReq), s.una? m.toNat c q = some r ∧
    r.busy = false ∧ r.ahead = none ∧ r.sentAt + s.fab.timeout * 100000 ≤ s.time.mono ∧ s.fab.retries ≤ r.tries) ∧
    (∃ (s : State) (m : BitVec 15) (c : Fin 4) (q : BitVec 16) (r : FReq), s.una? m.toNat c q = some r ∧
    r.busy = true ∧ r.sentAt + s.fab.timeout * 12500 ≤ s.time.mono) ∧ (∃ (s : State) (m : BitVec 15) (c : Fin 4) (q : BitVec 16) (r : FReq) (a : Nat),
    s.una? m.toNat c q = some r ∧ r.ahead = some a ∧ r.sentAt + 100000 ≤ s.time.mono) ∧ (∃ (s : State) (m : BitVec 15) (c : Fin 4) (q : BitVec 16) (r : FReq) (a : Nat),
    s.una? m.toNat c q = some r ∧ r.ahead = some a ∧ a + s.fab.epochWait * 1000000 ≤ s.time.mono) ∧
    (∃ (s : State) (t : State) (m : BitVec 15) (p : Peer), s.fab.peers.lookup m.toNat = some p ∧
    p.tgt = true ∧ p.snd = false ∧ p.rx.all (·.waiting.isEmpty) = true ∧ p.tgtIdle + 10000000 ≤ s.time.mono ∧
    t = { s with fab := { s.fab with peers := (mdel s.fab.peers m.toNat) } }) ∧ (∃ (s : State) (t : State) (m : BitVec 15) (p : Peer),
    s.fab.peers.lookup m.toNat = some p ∧ p.snd = true ∧ p.tgt = true ∧ p.tx.all (fun f => f.una.isEmpty && f.wait.isEmpty) = true ∧
    p.sndIdle + 20000000 ≤ s.time.mono ∧ t = { s with fab := { s.fab with peers := (mput s.fab.peers m.toNat { p with snd := false, tx := List.replicate 4 {} }) } }) :=
⟨⟨(asked req), ((List.range 13).foldl (fun s p => s.takePkt p (pktBytes ({ pk with ptype := 5, len := 0, payload := [], dw2 := 0 } : Packet))) (asked req)),
    ({ pk with ptype := 5, len := 0, payload := [], dw2 := 0 } : Packet), req, rfl, by decide⟩,
    ⟨(asked req), ((List.range 13).foldl (fun s p => s.takePkt p (pktBytes ({ pk with ptype := 5, len := 0, payload := [], dw2 := 0x20000000000000 } : Packet))) (asked req)),
    ({ pk with ptype := 5, len := 0, payload := [], dw2 := 0x20000000000000 } : Packet), req,
    rfl, by decide⟩, ⟨(asked { req with tries := 2 }), 1, 0, 0, ({ req with tries := 2 } : FReq),
    by decide⟩, ⟨(asked { req with tries := 3 }), 1, 0, 0, ({ req with tries := 3 } : FReq),
    by decide⟩, ⟨(asked { req with busy := true }), 1, 0, 0, ({ req with busy := true } : FReq),
    by decide⟩, ⟨(asked { req with ahead := some 0 }), 1, 0, 0, ({ req with ahead := some 0 } : FReq),
    0, by decide⟩, ⟨(asked { req with ahead := some 0 }), 1, 0, 0, ({ req with ahead := some 0 } : FReq),
    0, by decide⟩, ⟨(late { net with fab := { net.fab with peers := [(1, { tgt := true })] } } 20000000),
    ({ ((late { net with fab := { net.fab with peers := [(1, { tgt := true })] } } 20000000) : State) with fab := { ((late { net with fab := { net.fab with peers := [(1, { tgt := true })] } } 20000000) : State).fab with peers := (mdel ((late { net with fab := { net.fab with peers := [(1, { tgt := true })] } } 20000000) : State).fab.peers (1 : BitVec 15).toNat) } }),
    1, { tgt := true }, by decide, by decide, by decide, by decide, by decide, rfl⟩, ⟨(late { net with fab := { net.fab with peers := [(1, { tgt := true, snd := true })] } } 20000000),
    ({ ((late { net with fab := { net.fab with peers := [(1, { tgt := true, snd := true })] } } 20000000) : State) with fab := { ((late { net with fab := { net.fab with peers := [(1, { tgt := true, snd := true })] } } 20000000) : State).fab with peers := (mput ((late { net with fab := { net.fab with peers := [(1, { tgt := true, snd := true })] } } 20000000) : State).fab.peers (1 : BitVec 15).toNat { ({ tgt := true, snd := true } : Peer) with snd := false, tx := List.replicate 4 {} }) } }),
    1, { tgt := true, snd := true }, by decide, by decide, by decide, by decide, by decide,
    rfl⟩⟩

theorem test_wit_DoorbellsAndSemaphores : (∃ (s : State) (c : Fin 256) (q : Fin 64) (v : BitVec 32) (u : Queue),
    s.queue? c q = some u ∧ u.st ≠ .resetting ∧ u.st ≠ .unbound ∧ u.st ≠ .idle ∧ (v - u.done).toNat ≤ 2 ^ u.s ∧
    (v - u.head).toNat < 2 ^ 31) ∧ (∃ (s : State) (c : Fin 256) (q : Fin 64) (v : BitVec 32) (u : Queue),
    s.queue? c q = some u ∧ u.st = .idle ∧ (v - u.done).toNat ≤ 2 ^ u.s ∧ (v - u.head).toNat < 2 ^ 31) ∧
    (∃ (s : State) (c : Fin 256) (q : Fin 64) (v : BitVec 32) (u : Queue), s.queue? c q = some u ∧
    (u.st = .resetting ∨ u.st = .unbound ∨ 2 ^ u.s < (v - u.done).toNat ∨ 2 ^ 31 ≤ (v - u.head).toNat)) ∧
    (∃ (s : State) (c : Fin 256) (q : Fin 64) (u : Queue), s.queue? c q = some u ∧ u.st = .stopped) ∧
    (∃ (s : State) (k : Fin 16384) (v : BitVec 32), (s.die (k.val / 4096)).inReset = false) ∧
    (∃ (s : State) (k : Fin 16384) (v : BitVec 32), (s.die (k.val / 4096)).inReset = false) ∧
    (∃ (s : State) (k : Fin 16384) (v : BitVec 32), (s.die (k.val / 4096)).inReset = true) :=
⟨⟨(withQ { withCtx up 0 cx with eng := { (withCtx up 0 cx).eng with tagOwner := [(0, 0)] } } { q0 with st := .active }),
    0, 0, 64, ({ q0 with st := .active } : Queue), by decide⟩, ⟨(withQ { withCtx up 0 cx with eng := { (withCtx up 0 cx).eng with tagOwner := [(0, 0)] } } { q0 with st := .idle }),
    0, 0, 64, ({ q0 with st := .idle } : Queue), by decide⟩, ⟨(withQ { withCtx up 0 cx with eng := { (withCtx up 0 cx).eng with tagOwner := [(0, 0)] } } { q0 with st := .idle }),
    0, 0, 65, ({ q0 with st := .idle } : Queue), by decide⟩, ⟨(withQ { withCtx up 0 cx with eng := { (withCtx up 0 cx).eng with tagOwner := [(0, 0)] } } { q0 with st := .stopped }),
    0, 0, ({ q0 with st := .stopped } : Queue), by decide⟩, ⟨up, 16383, 0, by decide⟩, ⟨up,
    16383, 0, by decide⟩, ⟨sv, 16383, 0, by decide⟩⟩

theorem test_wit_Descriptors : (∃ (s : State) (v : State) (t : State) (j : Fin 112) (k : Nat) (u : Queue) (d : List Nat),
    s.engFree j = true ∧ v = s.engTouch j ∧ s.eng.queues.filter (fun e => e.2.eng == j.val) = [(k, u)] ∧
    (s.engine j).rr = none ∧ t = (v.setEng j fun x => { x with rr := some (k, 2 ^ u.prio - 1) }) ∧
    v.peek (k / 64) (k % 64) u = .start d ∧ t.peek (k / 64) (k % 64) u = .start d) ∧
    (∃ (s : State) (v : State) (t : State) (j : Fin 112) (k : Nat) (u : Queue) (d : List Nat) (f : Fail) (g : Bool),
    s.engFree j = true ∧ v = s.engTouch j ∧ s.eng.queues.filter (fun e => e.2.eng == j.val) = [(k, u)] ∧
    (s.engine j).rr = none ∧ t = (v.setEng j fun x => { x with rr := some (k, 2 ^ u.prio - 1) }) ∧
    v.peek (k / 64) (k % 64) u = .fail d f g ∧ t.peek (k / 64) (k % 64) u = .fail d f g) ∧
    (∃ (s : State) (j : Fin 112) (l : List LineFlip), s.engFree j = false) ∧
    (∃ (s : State) (v : State) (c : Fin 256) (q : Fin 64) (u : Queue) (x : Started) (rest : List Started) (f : Fail),
    s.queue? c q = some u ∧ u.started = x :: rest ∧ x.reqs = 0 ∧ x.fail = some f ∧ s.recordReady u x = true ∧
    s.roomFor c q x.index = true ∧ (s.engine u.eng).st = .idle ∧ (s.die (engDie u.eng)).inReset = false ∧
    s.started? c q x.index = some x ∧ v = s.engTouch u.eng) ∧
    (∃ (s : State) (v : State) (t : State) (c : Fin 256) (q : Fin 64) (u : Queue) (x : Started) (z : Started) (rest : List Started),
    s.queue? c q = some u ∧ u.started = x :: rest ∧ x.reqs = 0 ∧ x.fail = none ∧ x.maskDue = false ∧ x.tiles = [] ∧
    x.checks = [] ∧ x.convoy = none ∧ x.work = true ∧ s.recordReady u x = true ∧ s.roomFor c q x.index = true ∧
    (s.engine u.eng).st = .idle ∧ (s.die (engDie u.eng)).inReset = false ∧ s.started? c q x.index = some x ∧
    v = s.engTouch u.eng ∧ t = v.veCopies c q u.eng x ∧ t.started? c q x.index = some z ∧ z.reqs = 0) ∧
    (∃ (s : State) (w : State) (t : State) (c : Fin 256) (q : Fin 64) (u : Queue) (x : Started) (y : Started) (z : Started) (rest : List Started),
    s.queue? c q = some u ∧ u.started = x :: rest ∧ x.reqs = 0 ∧ x.fail = none ∧ x.maskDue = false ∧ x.tiles = [] ∧
    x.checks = [] ∧ x.convoy = none ∧ x.work = false ∧ s.recordReady u x = true ∧ s.roomFor c q x.index = true ∧
    (s.engine u.eng).st = .idle ∧ (s.die (engDie u.eng)).inReset = false ∧
    w = ((s.engTouch u.eng).initFlags u.eng x).doWork c q u.eng x ∧ w.started? c q x.index = some y ∧ y.reqs = 0 ∧
    t = w.veCopies c q u.eng y ∧ t.started? c q x.index = some z ∧ z.reqs = 0) ∧
    (∃ (s : State) (c : Nat) (q : Nat) (u : Queue) (x : Started) (rest : List Started), s.queue? c q = some u ∧
    u.started = x :: rest ∧ x.fail = none ∧ u.deleting = []) ∧
    (∃ (s : State) (c : Nat) (q : Nat) (st : Nat) (det : Nat) (a : Nat) (u : Queue) (x : Started) (rest : List Started),
    s.queue? c q = some u ∧ u.started = x :: rest ∧ x.fail = some (st, det, a) ∧ st ≠ 0 ∧ isFaultStatus st = false ∧
    u.st = .active ∧ u.deleting = []) :=
⟨⟨({ (withQ { withCtx up 0 cx with eng := { (withCtx up 0 cx).eng with tagOwner := [(0, 0)] } } { q0 with tail := 1, st := .active }) with dieTime := List.replicate 4 { seen := true } } : State),
    ((({ (withQ { withCtx up 0 cx with eng := { (withCtx up 0 cx).eng with tagOwner := [(0, 0)] } } { q0 with tail := 1, st := .active }) with dieTime := List.replicate 4 { seen := true } } : State) : State).engTouch (0 : Fin 112)),
    (((((({ (withQ { withCtx up 0 cx with eng := { (withCtx up 0 cx).eng with tagOwner := [(0, 0)] } } { q0 with tail := 1, st := .active }) with dieTime := List.replicate 4 { seen := true } } : State) : State).engTouch (0 : Fin 112)) : State).setEng (0 : Fin 112) fun x => { x with rr := some ((0 : Nat), 2 ^ (({ q0 with tail := 1, st := .active } : Queue) : Queue).prio - 1) })),
    0, 0, ({ q0 with tail := 1, st := .active } : Queue), List.replicate 16 0, by decide, rfl, by decide, by decide,
    rfl, rfl, rfl⟩,
    ⟨({ (withQ { withCtx up 0 cx with eng := { (withCtx up 0 cx).eng with tagOwner := [(0, 0)] } } { q0 with tail := 1, st := .active, ring := 0x16800000000 }) with dieTime := List.replicate 4 { seen := true } } : State),
    ((({ (withQ { withCtx up 0 cx with eng := { (withCtx up 0 cx).eng with tagOwner := [(0, 0)] } } { q0 with tail := 1, st := .active, ring := 0x16800000000 }) with dieTime := List.replicate 4 { seen := true } } : State) : State).engTouch (0 : Fin 112)),
    (((((({ (withQ { withCtx up 0 cx with eng := { (withCtx up 0 cx).eng with tagOwner := [(0, 0)] } } { q0 with tail := 1, st := .active, ring := 0x16800000000 }) with dieTime := List.replicate 4 { seen := true } } : State) : State).engTouch (0 : Fin 112)) : State).setEng (0 : Fin 112) fun x => { x with rr := some ((0 : Nat), 2 ^ (({ q0 with tail := 1, st := .active, ring := 0x16800000000 } : Queue) : Queue).prio - 1) })),
    0, 0, ({ q0 with tail := 1, st := .active, ring := 0x16800000000 } : Queue), [], (5, 10, 0x16800000000), false,
    by decide, rfl, by decide, by decide, rfl, rfl, rfl⟩, ⟨sv, 111, [], by decide⟩,
    ⟨({ (running q0 [({ st0 with d := List.replicate 16 0, fail := some (5, 0, 0) } : Started)]) with dieTime := List.replicate 4 { seen := true } } : State),
    ((({ (running q0 [({ st0 with d := List.replicate 16 0, fail := some (5, 0, 0) } : Started)]) with dieTime := List.replicate 4 { seen := true } } : State) : State).engTouch (({ q0 with st := .active, started := [({ st0 with d := List.replicate 16 0, fail := some (5, 0, 0) } : Started)] } : Queue) : Queue).eng),
    0, 0,
    ({ q0 with st := .active, started := [({ st0 with d := List.replicate 16 0, fail := some (5, 0, 0) } : Started)] } : Queue),
    ({ st0 with d := List.replicate 16 0, fail := some (5, 0, 0) } : Started), [], (5, 0, 0), by decide, by decide,
    by decide, by decide, by decide, by decide, by decide, by decide, by decide, rfl⟩,
    ⟨({ (running q0 [({ st0 with d := List.replicate 16 0, work := true } : Started)]) with dieTime := List.replicate 4 { seen := true } } : State),
    ((({ (running q0 [({ st0 with d := List.replicate 16 0, work := true } : Started)]) with dieTime := List.replicate 4 { seen := true } } : State) : State).engTouch (({ q0 with st := .active, started := [({ st0 with d := List.replicate 16 0, work := true } : Started)] } : Queue) : Queue).eng),
    ((((({ (running q0 [({ st0 with d := List.replicate 16 0, work := true } : Started)]) with dieTime := List.replicate 4 { seen := true } } : State) : State).engTouch (({ q0 with st := .active, started := [({ st0 with d := List.replicate 16 0, work := true } : Started)] } : Queue) : Queue).eng) : State).veCopies (0 : Fin 256) (0 : Fin 64) (({ q0 with st := .active, started := [({ st0 with d := List.replicate 16 0, work := true } : Started)] } : Queue) : Queue).eng (({ st0 with d := List.replicate 16 0, work := true } : Started) : Started)),
    0, 0,
    ({ q0 with st := .active, started := [({ st0 with d := List.replicate 16 0, work := true } : Started)] } : Queue),
    ({ st0 with d := List.replicate 16 0, work := true } : Started),
    ({ st0 with d := List.replicate 16 0, work := true } : Started), [], by decide, by decide, by decide, by decide,
    by decide, by decide, by decide, by decide, by decide, by decide, by decide, by decide, by decide, by decide,
    rfl, rfl, by decide⟩,
    ⟨({ (running q0 [({ st0 with d := List.replicate 16 0 } : Started)]) with dieTime := List.replicate 4 { seen := true } } : State),
    ((((({ (running q0 [({ st0 with d := List.replicate 16 0 } : Started)]) with dieTime := List.replicate 4 { seen := true } } : State) : State).engTouch (({ q0 with st := .active, started := [({ st0 with d := List.replicate 16 0 } : Started)] } : Queue) : Queue).eng).initFlags (({ q0 with st := .active, started := [({ st0 with d := List.replicate 16 0 } : Started)] } : Queue) : Queue).eng (({ st0 with d := List.replicate 16 0 } : Started) : Started)).doWork (0 : Fin 256) (0 : Fin 64) (({ q0 with st := .active, started := [({ st0 with d := List.replicate 16 0 } : Started)] } : Queue) : Queue).eng (({ st0 with d := List.replicate 16 0 } : Started) : Started)),
    _, 0, 0, ({ q0 with st := .active, started := [({ st0 with d := List.replicate 16 0 } : Started)] } : Queue),
    ({ st0 with d := List.replicate 16 0 } : Started), _, _, [], by decide, by decide, by decide, by decide,
    by decide, by decide, by decide, by decide, by decide, by decide, by decide, by decide, by decide, rfl, rfl, rfl,
    rfl, rfl, rfl⟩, ⟨(running q0 [({ st0 with d := List.replicate 16 0, work := true } : Started)]), 0, 0,
    ({ q0 with st := .active, started := [({ st0 with d := List.replicate 16 0, work := true } : Started)] } : Queue),
    ({ st0 with d := List.replicate 16 0, work := true } : Started), [], by decide⟩,
    ⟨(running q0 [({ st0 with d := List.replicate 16 0, fail := some (3, 0, 0) } : Started)]), 0, 0, 3, 0, 0,
    ({ q0 with st := .active, started := [({ st0 with d := List.replicate 16 0, fail := some (3, 0, 0) } : Started)] } : Queue),
    ({ st0 with d := List.replicate 16 0, fail := some (3, 0, 0) } : Started), [], by decide⟩⟩

theorem test_wit_StashRules : (∃ (s : State) (c : Fin 256), (s.stash c).st ≠ .none ∧ (s.stash c).ended = false) ∧
    (∃ (s : State) (c : Fin 256), (s.stash c).pending = true ∧ (s.stash c).ended = false ∧ s.producers c = false) ∧
    (∃ (s : State) (c : Fin 256) (v : BitVec 32), (s.stash c).pending = false ∧ (s.stash c).open? = true ∧
    (s.stash c).armCount ≤ bitsOf v.toNat 12 0 ∧ bitsOf v.toNat 12 0 ≤ (s.stash c).tableLen) ∧
    (∃ (s : State) (c : Fin 256) (v : BitVec 32),
    ((s.stash c).pending = true ∨ (s.stash c).open? = false ∨ bitsOf v.toNat 12 0 < (s.stash c).armCount ∨ (s.stash c).tableLen < bitsOf v.toNat 12 0)) ∧
    (∃ (s : State) (c : Fin 256) (off : Nat), (s.stash c).pending = false ∧ (s.stash c).open? = true ∧
    (s.stash c).armed < (s.stash c).armCount ∧ s.localOff ((s.stash c).table + 64 * (s.stash c).armed) = some off ∧
    (s.die (dieOf off)).inReset = false) ∧ (∃ (t : Stash) (t' : Stash) (i : Nat) (e : StashEnt) (e' : StashEnt),
    t.fill ≤ t.size ∧ t.headOff ≤ t.size ∧ 0 < t.size ∧ allocate t i e = (t', e')) ∧
    (∃ (s : State) (c : Fin 256) (v : BitVec 32), (s.stash c).pending = false ∧ (s.stash c).open? = true ∧
    (s.stash c).retired ≤ bitsOf v.toNat 12 0 ∧ bitsOf v.toNat 12 0 ≤ (s.stash c).armed) ∧
    (∃ (s : State) (c : Fin 256) (v : BitVec 32),
    ((s.stash c).pending = true ∨ (s.stash c).open? = false ∨ bitsOf v.toNat 12 0 < (s.stash c).retired ∨ (s.stash c).armed < bitsOf v.toNat 12 0)) ∧
    (∃ (t t' : Stash) (i : Nat) (e e' : StashEnt), t.fill ≤ t.size ∧ t.headOff ≤ t.size ∧ 0 < t.size ∧
    allocate t i e = (t', e') ∧ e'.st ≠ 1) :=
⟨⟨(withCtx up 255 { cx with stash := { st := .idle } }), 255, by decide⟩,
    ⟨(withCtx up 255 { cx with stash := { st := .idle, pending := true } }), 255, by decide⟩,
    ⟨(withCtx up 255 { cx with stash := { st := .open_, size := 0x200000, tableLen := 4096, armCount := 5, armed := 5, retired := 2 } }),
    255, 4096, by decide⟩,
    ⟨(withCtx up 255 { cx with stash := { st := .open_, size := 0x200000, tableLen := 4096, armCount := 5, armed := 5, retired := 2 } }),
    255, 4097, by decide⟩,
    ⟨(withCtx up 255 { cx with stash := { st := .open_, size := 0x200000, tableLen := 4096, armCount := 5, armed := 4, retired := 2 } }),
    255, 256, by decide⟩, ⟨({ st := .open_, size := 0x200000 } : Stash),
    (allocate { st := .open_, size := 0x200000 } 4095 { d := [], st := 0, size := 0, pad := 0, addr := 0 }).1, 4095,
    ({ d := [], st := 0, size := 0, pad := 0, addr := 0 } : StashEnt),
    (allocate { st := .open_, size := 0x200000 } 4095 { d := [], st := 0, size := 0, pad := 0, addr := 0 }).2,
    by decide⟩,
    ⟨(withCtx up 255 { cx with stash := { st := .open_, size := 0x200000, tableLen := 4096, armCount := 5, armed := 5, retired := 2 } }),
    255, 0x2005, by decide⟩,
    ⟨(withCtx up 255 { cx with stash := { st := .open_, size := 0x200000, tableLen := 4096, armCount := 5, armed := 5, retired := 2 } }),
    255, 6, by decide⟩, ⟨{ st := .full, size := 256 }, _, 0, { d := [], st := 0, size := 0, pad := 0, addr := 0 }, _,
    by decide, by decide, by decide, rfl, by decide⟩⟩

theorem test_wit_SegmentsReceived : (∃ (s : State) (t : State) (p : Fin 13) (k : Packet) (e : Nat) (ent : SliceEnt),
    t = s.takePkt p (pktBytes k) ∧ k.ptype = 6 ∧ segSkind k ≠ 3 ∧ segForm k = true ∧ t.isUp p = true ∧
    k.dst.toNat = t.ownId ∧ t.sliceOf k.slice = some (e, ent) ∧ bitOf ent.boundary.toNat p = false ∧
    k.epoch = ent.epoch) ∧
    (∃ (s : State) (t : State) (p : Fin 13) (k : Packet) (e : Nat) (c : Nat) (q : Nat) (ix : Word) (ent : SliceEnt) (cv : Convoy) (x : Started) (u : Queue),
    t = s.takePkt p (pktBytes k) ∧ k.ptype = 7 ∧ t.serving.any t.inRom = false ∧ t.isUp p = true ∧
    k.dst.toNat = t.ownId ∧ t.sliceOf k.slice = some (e, ent) ∧ bitOf ent.boundary.toNat p = false ∧
    k.epoch = ent.epoch ∧ t.convoy? (segKey k) = some cv ∧ cv.st = .active ∧ cv.owner = some (c, q, ix) ∧
    t.cvDesc cv = some x ∧ t.queue? c q = some u ∧ (collOf x cv.plan).carFits p k = true) ∧
    (∃ (s : State) (k : Packet), k.ptype = 6 ∧ segForm k = true ∧ (s.takePkt 12 (pktBytes k)).isUp 12 = true ∧
    k.dst.toNat = s.ownId ∧ s.sliceOf k.slice = some (0, sl) ∧ bitOf sl.boundary.toNat 12 = false ∧
    k.epoch = sl.epoch ∧ s.convoy? (segKey k) = none) ∧ (∃ (s : State) (k : Packet), k.ptype = 6 ∧ segForm k = true ∧
    (s.takePkt 12 (pktBytes k)).isUp 12 = true ∧ k.dst.toNat = s.ownId ∧ s.sliceOf k.slice = some (0, sl) ∧
    bitOf sl.boundary.toNat 12 = false ∧ k.epoch = sl.epoch ∧ (∃ cv : Convoy, s.convoy? (segKey k) = some cv ∧
    cv.st = .complete)) ∧ (∃ (s : State) (k : Packet), k.ptype = 6 ∧ segForm k = true ∧
    (s.takePkt 12 (pktBytes k)).isUp 12 = true ∧ k.dst.toNat = s.ownId ∧ s.sliceOf k.slice = some (0, sl) ∧
    bitOf sl.boundary.toNat 12 = false ∧ k.epoch = sl.epoch ∧ (∃ cv : Convoy, s.convoy? (segKey k) = some cv ∧
    cv.st = .aborted)) ∧ (∃ (s : State) (k : Packet), k.ptype = 6 ∧ segForm k = true ∧
    (s.takePkt 12 (pktBytes k)).isUp 12 = true ∧ k.dst.toNat = s.ownId ∧ s.sliceOf k.slice = some (0, sl) ∧
    bitOf sl.boundary.toNat 12 = false ∧ k.epoch = sl.epoch ∧ (∃ (cv : Convoy) (x : Started),
    s.convoy? (segKey k) = some cv ∧ cv.st = .active ∧ s.cvDesc cv = some x ∧ (collOf x cv.plan).fits 12 k = true)) ∧
    (∃ (s : State) (k : Packet) (cv : Convoy) (x : Started), k.ptype = 7 ∧
    (s.takePkt 12 (pktBytes k)).isUp 12 = true ∧ s.serving.any s.inRom = false ∧ k.dst.toNat = s.ownId ∧
    s.sliceOf k.slice = some (0, sl) ∧ k.epoch = sl.epoch ∧ s.convoy? (segKey k) = some cv ∧ cv.st = .active ∧
    cv.owner = some (0, 0, 5) ∧ s.cvDesc cv = some x ∧ (collOf x cv.plan).carFits 12 k = true ∧ segSkind k = 1 ∧
    cv.whole (collOf x cv.plan) 12 (carOffset k) = true) :=
⟨⟨net, ((net : State).takePkt (12 : Fin 13) (pktBytes (({ pk with ptype := 6, dw2 := 7 } : Packet) : Packet))), 12,
    ({ pk with ptype := 6, dw2 := 7 } : Packet), 0, sl, rfl, by decide⟩,
    ⟨({ net with eng := { net.eng with queues := [(0, ({ q0 with st := .active, started := [({ st0 with d := [0x37, 0, 0, 0, 0, 0x1000, 32], index := 5 } : Started)] } : Queue))] }, fab := { net.fab with convoys := [({ cvy with owner := some (0, 0, 5), plan := [0x10001 + 12 * 2 ^ 33], car := true } : Convoy)] } } : State),
    ((({ net with eng := { net.eng with queues := [(0, ({ q0 with st := .active, started := [({ st0 with d := [0x37, 0, 0, 0, 0, 0x1000, 32], index := 5 } : Started)] } : Queue))] }, fab := { net.fab with convoys := [({ cvy with owner := some (0, 0, 5), plan := [0x10001 + 12 * 2 ^ 33], car := true } : Convoy)] } } : State) : State).takePkt (12 : Fin 13) (pktBytes (({ pk with ptype := 7, dw2 := 7, len := 32, payload := List.replicate 32 0, dw3 := 0 } : Packet) : Packet))),
    12, ({ pk with ptype := 7, dw2 := 7, len := 32, payload := List.replicate 32 0, dw3 := 0 } : Packet), 0, 0, 0, 5,
    sl, ({ cvy with owner := some (0, 0, 5), plan := [0x10001 + 12 * 2 ^ 33], car := true } : Convoy),
    ({ st0 with d := [0x37, 0, 0, 0, 0, 0x1000, 32], index := 5 } : Started),
    ({ q0 with st := .active, started := [({ st0 with d := [0x37, 0, 0, 0, 0, 0x1000, 32], index := 5 } : Started)] } : Queue),
    rfl, by decide⟩, ⟨net, ({ pk with ptype := 6, dw2 := 7 } : Packet), by decide⟩,
    ⟨({ net with eng := { net.eng with queues := [(0, { q0 with st := .active, started := [({ st0 with d := [0x36, 0, 0, 0, 0, 0, 0, 0, 0, 0, 0x1, 0, 0x1000, 0x2000, 1], index := 5 } : Started)] })] }, fab := { net.fab with convoys := [({ cvy with st := .complete, owner := some (0, 0, 5), plan := [0x20000 + 15 * 2 ^ 33 + 2 ^ 60] } : Convoy)] } } : State),
    ({ pk with ptype := 6, dw2 := 7, len := 4, payload := List.replicate 4 0, dw3 := 2 ^ 32 } : Packet), by decide,
    by decide, by decide, by decide, by decide, by decide, by decide,
    ({ cvy with st := .complete, owner := some (0, 0, 5), plan := [0x20000 + 15 * 2 ^ 33 + 2 ^ 60] } : Convoy),
    by decide⟩,
    ⟨({ net with eng := { net.eng with queues := [(0, { q0 with st := .active, started := [({ st0 with d := [0x36, 0, 0, 0, 0, 0, 0, 0, 0, 0, 0x1, 0, 0x1000, 0x2000, 1], index := 5 } : Started)] })] }, fab := { net.fab with convoys := [({ cvy with st := .aborted, owner := some (0, 0, 5), plan := [0x20000 + 15 * 2 ^ 33 + 2 ^ 60] } : Convoy)] } } : State),
    ({ pk with ptype := 6, dw2 := 7, len := 4, payload := List.replicate 4 0, dw3 := 2 ^ 32 } : Packet), by decide,
    by decide, by decide, by decide, by decide, by decide, by decide,
    ({ cvy with st := .aborted, owner := some (0, 0, 5), plan := [0x20000 + 15 * 2 ^ 33 + 2 ^ 60] } : Convoy),
    by decide⟩,
    ⟨({ net with eng := { net.eng with queues := [(0, { q0 with st := .active, started := [({ st0 with d := [0x36, 0, 0, 0, 0, 0, 0, 0, 0, 0, 0x1, 0, 0x1000, 0x2000, 1], index := 5 } : Started)] })] }, fab := { net.fab with convoys := [({ cvy with st := .active, owner := some (0, 0, 5), plan := [0x20000 + 15 * 2 ^ 33 + 2 ^ 60] } : Convoy)] } } : State),
    ({ pk with ptype := 6, dw2 := 7, len := 4, payload := List.replicate 4 0, dw3 := 2 ^ 32 } : Packet), by decide,
    by decide, by decide, by decide, by decide, by decide, by decide,
    ({ cvy with st := .active, owner := some (0, 0, 5), plan := [0x20000 + 15 * 2 ^ 33 + 2 ^ 60] } : Convoy),
    ({ st0 with d := [0x36, 0, 0, 0, 0, 0, 0, 0, 0, 0, 0x1, 0, 0x1000, 0x2000, 1], index := 5 } : Started),
    by decide⟩,
    ⟨({ net with eng := { net.eng with queues := [(0, ({ q0 with st := .active, started := [({ st0 with d := [0x37, 0, 0, 0, 0, 0x1000, 32], index := 5 } : Started)] } : Queue))] }, fab := { net.fab with convoys := [({ cvy with owner := some (0, 0, 5), plan := [0x10001 + 12 * 2 ^ 33], car := true, taken := [(0, 0, 0, 12)] } : Convoy)] } } : State),
    ({ pk with ptype := 7, dw2 := 0x10007, len := 32, payload := List.replicate 32 0, dw3 := 0 } : Packet),
    ({ cvy with owner := some (0, 0, 5), plan := [0x10001 + 12 * 2 ^ 33], car := true, taken := [(0, 0, 0, 12)] } : Convoy),
    ({ st0 with d := [0x37, 0, 0, 0, 0, 0x1000, 32], index := 5 } : Started), by decide⟩⟩

theorem test_wit_SegmentTimersAndAborts : (∃ (s : State) (t : State) (p : Fin 13) (k : Packet) (cv : Convoy),
    t = s.takePkt p (pktBytes k) ∧ k.ptype = 6 ∧ segSkind k = 3 ∧ segAck k = 0 ∧ t.isUp p = true ∧
    k.dst.toNat = t.ownId ∧
    t.fab.convoys.find? (fun cv => cv.st == .active && cv.car == false && cv.key.slice == k.slice && cv.key.convoy == (segKey k).convoy && cv.tx.any (ackOf p (segIndex k) (segStep k))) = some cv) ∧
    (∃ (s : State) (key : ConvoyKey) (p : Fin 13) (sk : Fin 16) (seg : Nat) (st : Nat) (cv : Convoy) (g : Seg),
    s.timedSeg key p sk seg st 0 = some (cv, g) ∧ g.sentAt + s.fab.timeout * 100000 ≤ s.time.mono) ∧
    (∃ (s : State) (key : ConvoyKey) (p : Fin 13) (sk : Fin 16) (seg : Nat) (st : Nat) (cv : Convoy) (g : Seg),
    s.timedSeg key p sk seg st 3 = some (cv, g) ∧ g.sentAt + 10000 ≤ s.time.mono) ∧
    (∃ (s : State) (key : ConvoyKey) (p : Fin 13) (sk : Fin 16) (seg : Nat) (st : Nat) (cv : Convoy) (g : Seg),
    s.timedSeg key p sk seg st 2 = some (cv, g) ∧ s.time.mono < g.ahead + s.fab.epochWait * 1000000 ∧
    g.sentAt + 100000 ≤ s.time.mono) ∧
    (∃ (s : State) (key : ConvoyKey) (p : Fin 13) (sk : Fin 16) (seg : Nat) (st : Nat) (cv : Convoy) (g : Seg),
    s.timedSeg key p sk seg st 2 = some (cv, g) ∧ g.ahead + s.fab.epochWait * 1000000 ≤ s.time.mono) ∧
    (∃ (s : State) (u : State) (t : State) (p : Fin 13) (src : BitVec 15) (m : AbortMsg) (cv : Convoy),
    u = s.takePay p (leBytes 1 1 ++ leBytes 1 m.cause.toNat ++ leBytes 2 m.key.convoy.toNat) ∧
    t = { u with fab := { u.fab with received := min 0xFFFF (u.fab.received + 1) } } ∧ t.convoy? m.key = some cv ∧
    cv.st = .active) ∧
    (∃ (s : State) (t : State) (v : State) (p : Fin 13) (src : BitVec 15) (m : AbortMsg) (cv : Convoy),
    v = s.takePay p (leBytes 1 1 ++ leBytes 1 m.cause.toNat ++ leBytes 2 m.key.convoy.toNat) ∧
    t = { v with fab := { v.fab with received := min 0xFFFF (v.fab.received + 1) } } ∧ t.convoy? m.key = none ∧
    (t.sliceOf m.key.slice).map (·.2.epoch) = some m.key.epoch ∧ t.fab.convoys.length < 512 ∧
    cv = { key := m.key, st := .aborted, cause := m.cause.toNat, origin := m.origin.toNat, originPod := m.originPod, endAt := s.time.mono }) ∧
    (∃ (s : State) (key : ConvoyKey) (p : Fin 13) (cv : Convoy) (n : Nat) (t : Nat), s.convoy? key = some cv ∧
    cv.aborts = [(p.val, n, t)] ∧ n < 10 ∧ t + 20000 ≤ s.time.mono) ∧ (∃ (s : State) (key : ConvoyKey) (cv : Convoy),
    s.convoy? key = some cv ∧ cv.st ≠ .active ∧ cv.endAt + 1000000000 ≤ s.time.mono) :=
⟨⟨(inConvoy ({ cvy with tx := [{ seg with port := 12 }] } : Convoy)),
    ((inConvoy ({ cvy with tx := [{ seg with port := 12 }] } : Convoy)).takePkt 12 (pktBytes ({ pk with ptype := 6, dw2 := 0x30007, len := 0, payload := [] } : Packet))),
    12, ({ pk with ptype := 6, dw2 := 0x30007, len := 0, payload := [] } : Packet),
    ({ cvy with tx := [{ seg with port := 12 }] } : Convoy), rfl, by decide⟩,
    ⟨(inConvoy ({ cvy with tx := [{ seg with ans := 0 }] } : Convoy)), key, 0, 0, 0, 0,
    ({ cvy with tx := [{ seg with ans := 0 }] } : Convoy), ({ seg with ans := 0 } : Seg), by decide⟩,
    ⟨(inConvoy ({ cvy with tx := [{ seg with ans := 3 }] } : Convoy)), key, 0, 0, 0, 0,
    ({ cvy with tx := [{ seg with ans := 3 }] } : Convoy), ({ seg with ans := 3 } : Seg), by decide⟩,
    ⟨(late (inConvoy ({ cvy with tx := [{ seg with ans := 2 }] } : Convoy)) 100000), key, 0, 0, 0, 0,
    ({ cvy with tx := [{ seg with ans := 2 }] } : Convoy), ({ seg with ans := 2 } : Seg), by decide⟩,
    ⟨(inConvoy ({ cvy with tx := [{ seg with ans := 2 }] } : Convoy)), key, 0, 0, 0, 0,
    ({ cvy with tx := [{ seg with ans := 2 }] } : Convoy), ({ seg with ans := 2 } : Seg), by decide⟩,
    ⟨({ net with fab := { net.fab with convoys := [cvy] } } : State),
    ((({ net with fab := { net.fab with convoys := [cvy] } } : State) : State).takePay (12 : Fin 13) (leBytes 1 1 ++ leBytes 1 ({ key := key, cause := 5, origin := 1, originPod := 0 } : AbortMsg).cause.toNat ++ leBytes 2 ({ key := key, cause := 5, origin := 1, originPod := 0 } : AbortMsg).key.convoy.toNat)),
    ({ (((({ net with fab := { net.fab with convoys := [cvy] } } : State) : State).takePay (12 : Fin 13) (leBytes 1 1 ++ leBytes 1 ({ key := key, cause := 5, origin := 1, originPod := 0 } : AbortMsg).cause.toNat ++ leBytes 2 ({ key := key, cause := 5, origin := 1, originPod := 0 } : AbortMsg).key.convoy.toNat)) : State) with fab := { (((({ net with fab := { net.fab with convoys := [cvy] } } : State) : State).takePay (12 : Fin 13) (leBytes 1 1 ++ leBytes 1 ({ key := key, cause := 5, origin := 1, originPod := 0 } : AbortMsg).cause.toNat ++ leBytes 2 ({ key := key, cause := 5, origin := 1, originPod := 0 } : AbortMsg).key.convoy.toNat)) : State).fab with received := min 0xFFFF ((((({ net with fab := { net.fab with convoys := [cvy] } } : State) : State).takePay (12 : Fin 13) (leBytes 1 1 ++ leBytes 1 ({ key := key, cause := 5, origin := 1, originPod := 0 } : AbortMsg).cause.toNat ++ leBytes 2 ({ key := key, cause := 5, origin := 1, originPod := 0 } : AbortMsg).key.convoy.toNat)) : State).fab.received + 1) } }),
    12, 0, { key := key, cause := 5, origin := 1, originPod := 0 }, cvy, rfl, rfl, by decide⟩, ⟨net,
    ({ (((net : State).takePay (12 : Fin 13) (leBytes 1 1 ++ leBytes 1 (({ key := key, cause := 5, origin := 1, originPod := 0 } : AbortMsg) : AbortMsg).cause.toNat ++ leBytes 2 (({ key := key, cause := 5, origin := 1, originPod := 0 } : AbortMsg) : AbortMsg).key.convoy.toNat)) : State) with fab := { (((net : State).takePay (12 : Fin 13) (leBytes 1 1 ++ leBytes 1 (({ key := key, cause := 5, origin := 1, originPod := 0 } : AbortMsg) : AbortMsg).cause.toNat ++ leBytes 2 (({ key := key, cause := 5, origin := 1, originPod := 0 } : AbortMsg) : AbortMsg).key.convoy.toNat)) : State).fab with received := min 0xFFFF ((((net : State).takePay (12 : Fin 13) (leBytes 1 1 ++ leBytes 1 (({ key := key, cause := 5, origin := 1, originPod := 0 } : AbortMsg) : AbortMsg).cause.toNat ++ leBytes 2 (({ key := key, cause := 5, origin := 1, originPod := 0 } : AbortMsg) : AbortMsg).key.convoy.toNat)) : State).fab.received + 1) } }),
    ((net : State).takePay (12 : Fin 13) (leBytes 1 1 ++ leBytes 1 (({ key := key, cause := 5, origin := 1, originPod := 0 } : AbortMsg) : AbortMsg).cause.toNat ++ leBytes 2 (({ key := key, cause := 5, origin := 1, originPod := 0 } : AbortMsg) : AbortMsg).key.convoy.toNat)),
    12, 0, ({ key := key, cause := 5, origin := 1, originPod := 0 } : AbortMsg),
    ({ key := (({ key := key, cause := 5, origin := 1, originPod := 0 } : AbortMsg) : AbortMsg).key, st := .aborted, cause := (({ key := key, cause := 5, origin := 1, originPod := 0 } : AbortMsg) : AbortMsg).cause.toNat, origin := (({ key := key, cause := 5, origin := 1, originPod := 0 } : AbortMsg) : AbortMsg).origin.toNat, originPod := (({ key := key, cause := 5, origin := 1, originPod := 0 } : AbortMsg) : AbortMsg).originPod, endAt := (net : State).time.mono }),
    rfl, rfl, by decide, by decide, by decide, rfl⟩,
    ⟨(inConvoy ({ cvy with st := .aborted, aborts := [(12, 9, 0)] } : Convoy)), key, 12,
    ({ cvy with st := .aborted, aborts := [(12, 9, 0)] } : Convoy), 9, 0, by decide⟩,
    ⟨(inConvoy ({ cvy with st := .aborted, aborts := [(12, 9, 0)] } : Convoy)), key,
    ({ cvy with st := .aborted, aborts := [(12, 9, 0)] } : Convoy), by decide⟩⟩

theorem test_wit_StepRunsFront : (∃ (s : State) (c : Instr) (rest : List Instr), s.pending = c :: rest) ∧
    (∃ (s : State), s.pending = []) :=
⟨⟨({ up with pending := [.deSemValueWrite 5 7] } : State), .deSemValueWrite 5 7, [], by decide⟩,
    ⟨up, by decide⟩⟩

theorem test_wit_StepKeepsInv : ∃ (s : State) (t : State), s.Inv ∧ step s = .next t :=
⟨({ up with pending := [.deSemValueWrite 5 7] } : State), (up.setSem 5 7), ⟨by decide, by decide⟩,
    rfl⟩

theorem test_wit_ModCapsFixed : (∃ (s : State) (t : State), step s = .next t) ∧ (∃ (s : State) (t : State),
    s.fuse = t.fuse) ∧ (∃ (s : State) (t : State) (c : Fin 8), exec (.powerOnReset c) s = .next t) ∧
    (∃ (s : State) (i : Initiator) (a : BitVec 52) (w : BitVec 64), s.csrOffset i a.toNat = .ok 0xF00000000000 ∧
    i ≠ .i3c) :=
⟨⟨({ up with pending := [.deSemValueWrite 5 7] } : State), (up.setSem 5 7), rfl⟩, ⟨sv, up, by decide⟩,
    ⟨up, up.powerOn 1, 1, rfl⟩, ⟨sv, .sp 0, 0xF00000000000, 0, rfl, by decide⟩⟩

theorem test_wit_ThresholdRange : (∃ (s : State) (c : Fin 2) (h : Fin 2) (a : BitVec 52) (v : BitVec 64) (hw : BitVec 64),
    s.csrAt (.sp c) a.toNat 32 = .ok (.ctd h, .tbThresh, false) ∧ s.holder = some c.val ∧ s.ctd.lease.gates = true) ∧
    (∃ (s : State) (t : State), 1000 ≤ s.time.thresh ∧ s.time.thresh ≤ 1000000 ∧ step s = .next t) :=
⟨⟨sv, 0, 0, 0xF02000300008, 0, 0, rfl, by decide⟩, ⟨({ up with pending := [.deSemValueWrite 5 7] } : State),
    (up.setSem 5 7), by decide, by decide, rfl⟩⟩

theorem test_wit_Renewal : (∃ (s : State) (c : Fin 2), s.holder = some c.val ∧ s.tickNo < s.ctd.lease.expiry / 10 ∧
    s.wdogDue c = false ∧ (s.ctd.lease.gates = true ∨ s.ctd.lease.opening ≠ some (s.tickNo, c.val))) ∧
    (∃ (s : State) (c : Fin 2) (g : BitVec 32), s.power.rails = true ∧ (∀ h,
    s.holder = some h → s.tickNo < s.ctd.lease.expiry / 10 ∧ s.wdogDue h = false) ∧
    (s.holder ≠ some c.val ∨ g ≠ s.ctd.lease.gen)) ∧ (∃ (s : State) (c : Fin 2), s.holder = some c.val ∧
    s.tickNo < s.ctd.lease.expiry / 10 ∧ s.wdogDue c = false ∧ s.ctd.lease.gates = false ∧
    s.ctd.lease.opening = some (s.tickNo, c.val)) :=
⟨⟨sv, 0, by decide⟩, ⟨up, 1, 0, by decide, (fun h hh => by cases hh; decide), by decide⟩,
    ⟨({ up with ctd := { up.ctd with lease := { up.ctd.lease with gates := false, opening := some (up.tickNo, 0) } } } : State),
    0, by decide⟩⟩

theorem test_wit_AbsentUnits : (∃ (s : State) (r : DReq), s.hasOptics = false ∧ s.heard 0x0104 [.c, .m,
    .f] r = true ∧ r.args.length = 1 ∧ argOf r 0 < 8) ∧ (∃ (s : State) (r : DReq), s.hasOptics = false ∧
    s.heard 0x0107 [.m] r = true ∧ r.args.length = 1 ∧ argOf r 0 < 4) ∧ (∃ (s : State) (r : DReq),
    s.hasOptics = false ∧ s.heard 0x1001 [.m, .f] r = true ∧ r.args.length = 2 ∧ (16 ≤ argOf r 0 ∨ 9 ≤ argOf r 0 ∧
    argOf r 0 < 13) ∧ argOf r 0 < 24 ∧ argOf r 1 < 2) ∧ (∃ (s : State) (r : DReq), s.hasOptics = false ∧
    s.heard 0x1004 [.c, .m, .f] r = true ∧ r.args.length = 1 ∧ 9 ≤ argOf r 0 ∧ argOf r 0 < 13) ∧
    (∃ (s : State) (r : DReq), s.hasOptics = false ∧ s.heard 0x1003 [.m, .f] r = true ∧ r.args.length = 102 ∧
    9 ≤ fieldAt (argBytes (DReq.nums r) 0 102) 8 1 ∧ fieldAt (argBytes (DReq.nums r) 0 102) 8 1 < 13) ∧
    (∃ (s : State) (r : DReq), s.hasOptics = false ∧ s.heard 0x1002 [.m, .f] r = true ∧ r.args.length = 1 ∧
    9 ≤ argOf r 0 ∧ argOf r 0 < 13) ∧ (∃ (s : State) (r : DReq), s.hasOptics = false ∧ s.heard 0x1006 [.m,
    .f] r = true ∧ r.args.length = 2 ∧ argOf r 0 < 64) ∧ (∃ (s : State) (r : DReq), s.hasCtd1 = false ∧
    s.heard 0x0105 [.c, .m, .f] r = true ∧ r.args.length = 1 ∧ argOf r 0 = 1) ∧ (∃ (s : State) (r : DReq),
    s.hasCtd1 = false ∧ s.heard 0x0705 [.m, .f] r = true ∧ r.args.length = 0) ∧ (∃ (s : State) (r : DReq),
    s.hasCtd1 = false ∧ s.heard 0x0E06 [.m] r = true ∧ r.args.length = 0) :=
⟨⟨({ sv with fuse := { sv.fuse with variant := .ae } } : State), (rm [7]), by decide⟩,
    ⟨({ sv with fuse := { sv.fuse with variant := .ae } } : State), (rm [3]), by decide⟩,
    ⟨({ sv with fuse := { sv.fuse with variant := .ae } } : State), (rm [12, 1]), by decide⟩,
    ⟨({ sv with fuse := { sv.fuse with variant := .ae } } : State), (rm [12]), by decide⟩,
    ⟨({ sv with fuse := { sv.fuse with variant := .ae } } : State), (rm ([0, 0, 0x0000000C] ++ List.replicate 99 0)),
    by decide⟩, ⟨({ sv with fuse := { sv.fuse with variant := .ae } } : State), (rm [12]), by decide⟩,
    ⟨({ sv with fuse := { sv.fuse with variant := .ae } } : State), (rm [63, 0]), by decide⟩,
    ⟨({ sv with fuse := { sv.fuse with variant := .sx } } : State), (rm [1]), by decide⟩,
    ⟨({ sv with fuse := { sv.fuse with variant := .sx } } : State), (rm []), by decide⟩,
    ⟨({ sv with fuse := { sv.fuse with variant := .sx } } : State), (rm []), by decide⟩⟩

theorem test_wit_AbsentCtd : (∃ (s : State) (i : Initiator) (a : BitVec 52) (w : Nat) (o : Nat) (off : Nat) (c : Nat) (v : BitVec 64) (hw : BitVec 64) (x : BitVec 64),
    s.csrOffset i a.toNat = .ok off ∧ csrUnit off = some (.ctd c, o) ∧ i ≠ .i3c ∧ s.ctdPresent c = false) ∧
    (∃ (s : State) (i : Initiator) (a : BitVec 52) (w : Nat) (o : Nat) (off : Nat) (c : Nat) (v : BitVec 64) (hw : BitVec 64) (x : BitVec 64),
    s.csrOffset i a.toNat = .ok off ∧ csrUnit off = some (.ctd c, o) ∧ i ≠ .i3c ∧ s.ctdPresent c = true ∧
    (s.ctdOf c).heldUntil.isSome = true) ∧
    (∃ (s : State) (i : Initiator) (c : Fin 2) (ch : Fin 512) (n : Fin 8) (v : BitVec 32), s.ctdPresent c = false) ∧
    (∃ (s : State) (h : Fin 32) (c : Fin 2) (ch : Fin 512) (n : Fin 8) (v : BitVec 32), s.ctdPresent c = true ∧
    ch.val < 256 ∧ ((s.ctdOf c).heldUntil.isSome = true ∨ s.ctd.lease.closedAt.isSome = true)) :=
⟨⟨({ sv with fuse := { sv.fuse with variant := .sx } } : State), .sp 0, 0xF02100000000, 32, 0, 0xF02100000000, 1, 0,
    0, 0, rfl, rfl, by decide⟩,
    ⟨({ two with ctd := { two.ctd with ctds := [{ role := .active, running := true }, { role := .standby, running := true, heldUntil := some 0 }] } } : State),
    .sp 0, 0xF02100000000, 32, 0, 0xF02100000000, 1, 0, 0, 0, rfl, rfl, by decide⟩,
    ⟨({ sv with fuse := { sv.fuse with variant := .sx } } : State), .sp 0, 1, 0, 0, 0, by decide⟩,
    ⟨({ two with ctd := { two.ctd with ctds := [{ role := .active, running := true }, { role := .standby, running := true, heldUntil := some 0 }] } } : State),
    31, 1, 255, 0, 0, by decide⟩⟩

theorem test_wit_HalfCode : (∃ (b : List Byte), b.length = 32) ∧ (∃ (b : List Byte) (i : Nat),
    b.length = 32 ∧ i < 266) ∧ (∃ (b : List Byte) (i : Nat) (j : Nat), b.length = 32 ∧ i < 266 ∧
    j < 266 ∧ i ≠ j) ∧ (∃ (i : Nat), i < 266) :=
⟨⟨(List.replicate 32 0), by decide⟩, ⟨(List.replicate 32 0), 265, by decide⟩, ⟨(List.replicate 32 0),
    264, 265, by decide⟩, ⟨265, by decide⟩⟩

theorem test_wit_Placement : (∃ (a : Nat), a < usableTop) ∧ (∃ (a : Nat) (b : Nat), a < usableTop ∧
    b < usableTop ∧ stackOf a = stackOf b ∧ channelOf a = channelOf b ∧ dataLine a = dataLine b ∧
    a % 64 = b % 64) :=
⟨⟨usableTop - 1, by decide⟩, ⟨64, 64, by decide⟩⟩

theorem test_wit_MemoryWrites : (∃ (m : Mem) (a : Nat) (k : Nat) (b : List Byte) (bad : List Nat),
    m.wf = true ∧ b ≠ []) ∧ (∃ (m : Mem) (a k : Nat) (b : List Byte) (bad : List Nat), m.wf = true ∧
    b ≠ [] ∧ ¬(a / 32 ≤ k ∧ k ≤ (a + b.length - 1) / 32)) ∧ (∃ (m : Mem) (a k : Nat) (b : List Byte) (bad : List Nat),
    m.wf = true ∧ b ≠ [] ∧ a / 32 ≤ k ∧ k ≤ (a + b.length - 1) / 32 ∧ bad.contains k = true) ∧
    (∃ (m : Mem) (a k : Nat) (b : List Byte) (bad : List Nat), m.wf = true ∧ b ≠ [] ∧ a / 32 ≤ k ∧
    k ≤ (a + b.length - 1) / 32 ∧ bad.contains k = false ∧ m.husks.contains k = true ∧ ¬(a ≤ 32 * k ∧
    32 * k + 32 ≤ a + b.length)) ∧ (∃ (m : Mem) (a k : Nat) (b : List Byte) (bad : List Nat),
    m.wf = true ∧ b ≠ [] ∧ a / 32 ≤ k ∧ k ≤ (a + b.length - 1) / 32 ∧ bad.contains k = false ∧
    (m.husks.contains k = false ∨ (a ≤ 32 * k ∧ 32 * k + 32 ≤ a + b.length))) :=
⟨⟨({} : Mem), 0, 0, [1], [], by decide⟩, ⟨{}, 31, 2, [1, 2], [], by decide⟩, ⟨{}, 31, 1, [1,
    2], [1], by decide⟩, ⟨{ husks := [1] }, 31, 1, [1, 2], [], by decide⟩, ⟨{ husks := [1] },
    32, 1, List.replicate 32 7, [], by decide⟩⟩

theorem test_wit_MerkleTree : (∃ (m : Manifest) (i : Nat) (r : TollRec), m.recs[i]? = some r) ∧
    (∃ (l : List (List Byte)) (i : Nat) (x : List Byte) (y : List Byte), l[2 * i]? = some x ∧
    l[2 * i + 1]? = some y) ∧ (∃ (l : List (List Byte)) (i : Nat), l.length = 2 * i + 1) ∧ (∃ (k : Nat) (l : List (List Byte)),
    2 ≤ l.length) ∧ (∃ (l : List (List Byte)), 1 ≤ l.length ∧ l.length ≤ 2 ^ 32) ∧ (∃ (l : List (List Byte)) (i : Nat) (x : List Byte),
    l.length ≤ 2 ^ 32 ∧ l[i]? = some x) :=
⟨⟨{ num := 0, bytes := [], recs := [{ seq := 0, head := [], tail := [], total := 0, closeNs := 0, isTag := true }] },
    0, { seq := 0, head := [], tail := [], total := 0, closeNs := 0, isTag := true }, by decide⟩,
    ⟨[[1], [2], [3], [4]], 1, [3], [4], by decide⟩, ⟨[[1], [2], [3]], 1, by decide⟩, ⟨0, [[1],
    [2]], by decide⟩, ⟨[[1]], by decide⟩, ⟨[[1]], 0, [1], by decide⟩⟩

end Sys2Proof.Tests
end

