-- ==== Sys2Proof/Proofs/CsrRules.lean ====
section
/-! PROOFS. Rules for accesses to CSR space: what the way to a register (`State.csrAt`) makes of a read and of a write. -/

namespace Sys2Proof.Machine

/-- A read that fails on its way answers its error. -/
theorem exec_csrRcRead_err {s : State} {i : Initiator} {a : BitVec 52} {n : Nat} {e : AccErr}
    (h : s.csrAt i a.toNat n = .error (.err e)) (w : BitVec 64) : exec (.csrRcRead i a n w) s = .next (s.fail e) := by
  show s.csrRead i a n w.toNat = _
  unfold State.csrRead
  rw [h]

/-- A write that fails on its way answers its error. -/
theorem exec_csrRegisterWrite_err {s : State} {i : Initiator} {a : BitVec 52} {n : Nat} {e : AccErr}
    (h : s.csrAt i a.toNat n = .error (.err e)) (v : CsrValue) : exec (.csrRegisterWrite i a n v) s = .next (s.fail e) := by
  show s.csrWrite i a n v.value v.hwSet.toNat = _
  unfold State.csrWrite
  rw [h]

/-- A read that reaches a register is a load of it, but for the two registers that pop. -/
theorem exec_csrRcRead_ok {s : State} {i : Initiator} {a : BitVec 52} {n : Nat} {u : CsrUnit} {r : Reg} {up : Bool}
    (h : s.csrAt i a.toNat n = .ok (u, r, up)) (hr : ∀ c ch, r ≠ .rxPop c ch) (ht : ∀ c g, r ≠ .tsqPop c g) (w : BitVec 64) :
    exec (.csrRcRead i a n w) s = .next (s.csrLoad r n up w.toNat) := by
  show s.csrRead i a n w.toNat = _
  unfold State.csrRead
  rw [h]
  split <;> simp_all

/-- A write that reaches a register stores there if its initiator may write and the gates let it through. -/
theorem exec_csrRegisterWrite_ok {s : State} {i : Initiator} {a : BitVec 52} {n : Nat} {u : CsrUnit} {r : Reg} {up : Bool}
    (h : s.csrAt i a.toNat n = .ok (u, r, up)) (v : CsrValue) :
    exec (.csrRegisterWrite i a n v) s =
      if !s.mayWrite i u r then .next (s.fail .unmapped)
      else if s.gateHolds i u r then .next (s.answer 0)
      else s.csrStore i r n up v.value v.hwSet.toNat := by
  show s.csrWrite i a n v.value v.hwSet.toNat = _
  unfold State.csrWrite
  rw [h]

/-- An optical engine's range, for the active CTD's service processor, is where the model stops. -/
theorem exec_csr_optical {s : State} {i : Initiator} {a : BitVec 52} {n : Nat} (h : s.csrAt i a.toNat n = .error .optical)
    (v : CsrValue) (w : BitVec 64) : exec (.csrRegisterWrite i a n v) s = .refused .opticalRegister ∧
      exec (.csrRcRead i a n w) s = .refused .opticalRegister := by
  constructor
  · show s.csrWrite i a n v.value v.hwSet.toNat = _
    unfold State.csrWrite
    rw [h]
  · show s.csrRead i a n w.toNat = _
    unfold State.csrRead
    rw [h]

/-- What a block's gate says stops the access before its register is looked for (log 16). -/
theorem State.csrAt_of_gate {s : State} {i : Initiator} {a n off o : Nat} {u : CsrUnit} {e : CsrStop}
    (h : s.csrOffset i a = .ok off) (hu : csrUnit off = some (u, o)) (hg : s.unitGate i u = some e) :
    s.csrAt i a n = .error e := by
  unfold State.csrAt
  rw [h]
  simp only [bind, Except.bind, hu, hg]

/-- The gate of a CTD's block, for every initiator but the I3C controller. -/
theorem State.unitGate_ctd {s : State} {i : Initiator} (hi : i ≠ .i3c) {c : Nat} (h : s.ctdGate c ≠ .none) :
    s.unitGate i (.ctd c) = some (.err (s.ctdGate c)) := by
  simp [State.unitGate, hi, h]

theorem State.ctdGate_absent {s : State} {c : Nat} (h : s.ctdPresent c = false) : s.ctdGate c = .notPresent := by
  simp [State.ctdGate, h]

theorem State.ctdGate_held {s : State} {c : Nat} (h : s.ctdPresent c = true) (hh : (s.ctdOf c).heldUntil.isSome = true) :
    s.ctdGate c = .domainOff := by
  simp [State.ctdGate, h, hh]

/-- An access to a CTD that does not answer meets what its gate says. -/
theorem exec_csr_ctdGate {s : State} {i : Initiator} {a : BitVec 52} {o off c : Nat} (h : s.csrOffset i a.toNat = .ok off)
    (hu : csrUnit off = some (.ctd c, o)) (hi : i ≠ .i3c) {e : AccErr} (he : e ≠ .none) (hg : s.ctdGate c = e)
    (w : Nat) (v : CsrValue) (x : BitVec 64) :
    exec (.csrRcRead i a w x) s = .next (s.fail e) ∧ exec (.csrRegisterWrite i a w v) s = .next (s.fail e) := by
  subst hg
  have hstop := State.csrAt_of_gate (n := w) h hu (State.unitGate_ctd hi he)
  exact ⟨exec_csrRcRead_err hstop x, exec_csrRegisterWrite_err hstop v⟩

/-! ### Mailbox pages -/

/-- An access to a channel page that does not answer meets what its gate says. -/
theorem exec_mbPage_gate {s : State} {i : Initiator} {c : Fin 2} {ch : Fin 512} {e : AccErr} (he : e ≠ .none)
    (h : s.pageGate i c ch = e) (n : Fin 8) (v : BitVec 32) :
    exec (.mbTxWordWrite i c ch n v) s = .next (s.fail e) ∧ exec (.mbTxCommit i c ch v) s = .next (s.fail e) ∧
      exec (.mbRxPop i c ch) s = .next (s.fail e) := by
  refine ⟨?_, ?_, ?_⟩
  · show execMbTxWordWrite i c ch n v s = _
    unfold execMbTxWordWrite
    rw [h]
    cases e with
    | none => exact absurd rfl he
    | _ => rfl
  · show execMbTxCommit i c ch v s = _
    unfold execMbTxCommit
    rw [h]
    cases e with
    | none => exact absurd rfl he
    | _ => rfl
  · show execMbRxPop i c ch s = _
    unfold execMbRxPop
    rw [h]
    cases e with
    | none => exact absurd rfl he
    | _ => rfl

theorem State.pageGate_absent {s : State} {c : Nat} (h : s.ctdPresent c = false) (i : Initiator) (ch : Nat) :
    s.pageGate i c ch = .notPresent := by
  simp [State.pageGate, h]

/-- A host core's page of a CTD that is held in reset, or of either CTD in a switchover gap (R317). -/
theorem State.pageGate_off {s : State} {c ch : Nat} (hp : s.ctdPresent c = true) (hc : ch < 256)
    (h : (s.ctdOf c).heldUntil.isSome = true ∨ s.ctd.lease.closedAt.isSome = true) (k : Fin 32) :
    s.pageGate (.hart k) c ch = .domainOff := by
  have hoff : s.ctdGate c ≠ .none ∨ s.ctd.lease.closedAt.isSome = true := by
    rcases h with h | h
    · exact .inl (by simp [State.ctdGate_held hp h])
    · exact .inr h
  simp [State.pageGate, hp, isHart, Nat.not_le.mpr hc, hoff]

end Sys2Proof.Machine
end

