-- ==== Sys2Proof/Proofs/AbsentCtd.lean ====
section
/-! PROOFS. O56: accesses to an absent and to a stopped CTD. -/

namespace Sys2Proof.Machine

/-- Settles O56: the CTD's gate stops every access to its registers, the page's gate every access to its channels. -/
theorem absentCtd : Obligations.AbsentCtd := by
  unfold Obligations.AbsentCtd
  refine ⟨?_, ?_, ?_, ?_⟩
  · intro s i a w o off c v hw x h hu hi hp
    exact exec_csr_ctdGate h hu hi (by decide) (State.ctdGate_absent hp) w ⟨v, hw⟩ x
  · intro s i a w o off c v hw x h hu hi hp hh
    exact exec_csr_ctdGate h hu hi (by decide) (State.ctdGate_held hp hh) w ⟨v, hw⟩ x
  · intro s i c ch n v hp
    exact exec_mbPage_gate (by decide) (State.pageGate_absent hp i ch) n v
  · intro s h c ch n v hp hc hoff
    exact exec_mbPage_gate (by decide) (State.pageGate_off hp hc hoff h) n v

end Sys2Proof.Machine
end

