-- ==== Sys2Proof/Proofs/RegisterAccess.lean ====
section
/-! PROOFS. O12: accesses that reach a register, that fail, and that wait. -/

namespace Sys2Proof.Machine

/-- What the gates hold back is nothing of the active CTD's service processor while they are open. -/
theorem State.gateHolds_open {s : State} {c : Fin 2} (hh : s.holder = some c.val) (hg : s.ctd.lease.gates = true)
    (u : CsrUnit) (r : Reg) : s.gateHolds (.sp c) u r = false := by
  simp [State.gateHolds, State.spGated, State.isActiveSp, hh, hg]

/-- TB_JUMP_THRESH keeps the low 20 bits of what is written, brought into the range of R70. -/
theorem State.csrStore_thresh (s : State) (i : Initiator) (v : BitVec 64) (hw : Nat) :
    s.csrStore i .tbThresh 32 false v hw = .next
      ({ s.answer 0 with time := { s.time with thresh := max 1000 (min 1000000 (v.toNat % 2 ^ 20)) } }) := by
  have hv : bitsOf (v.setWidth 32).toNat 19 0 = v.toNat % 2 ^ 20 := by
    simp only [bitsOf, BitVec.toNat_setWidth]
    omega
  show Host.Outcome.next (State.setTime (s.answer 0) fun t =>
    { t with thresh := max 1000 (min 1000000 (bitsOf (v.setWidth 32).toNat 19 0)) }) = _
  rw [hv]
  rfl

/-- A 64-bit read of a register whose words are not being latched. -/
theorem State.csrLoad_wide {s : State} {r : Reg} (h : s.latching r = false) (up : Bool) (hw : Nat) :
    s.csrLoad r 64 up hw = (s.answer (BitVec.ofNat 64 (s.regVal r))).clearRc r 64 up hw := by
  simp [State.csrLoad, h]

/-! ### Memory accesses -/

/-- A host core's access to usable memory. -/
theorem exec_hostMemoryAccess_hart {s : State} {a : BitVec 52} {off : Nat} {op : AccessOp} (hp : s.place a.toNat = .loc off)
    (hn : off + opSize op ≤ usableTop) (h : Fin 32) (f : List LineFlip) :
    exec (.hostMemoryAccess (.hart h) op a f) s = .next (s.hartLocal h op a off f) := by
  show s.access (.hart h) op a f = _
  simp [State.access, hp, hn]

/-- A service processor's access to usable memory. -/
theorem exec_hostMemoryAccess_sp {s : State} {a : BitVec 52} {op : AccessOp} (hn : a.toNat + opSize op ≤ usableTop)
    (c : Fin 2) (f : List LineFlip) : exec (.hostMemoryAccess (.sp c) op a f) s = .next (s.spAccess c op a.toNat f) := by
  have hlow : ¬ 0xF00000000000 ≤ a.toNat := by
    unfold usableTop at hn
    omega
  show s.access (.sp c) op a f = _
  simp only [State.access, hlow, hn, if_true, if_false]

/-- Which husk stops an access depends on main memory alone. -/
theorem State.huskStop_txTouch (s : State) (d n : Nat) (op : AccessOp) (off : Nat) :
    (s.txTouch d n).huskStop op off = s.huskStop op off := rfl

/-- Settles O12: each clause follows the way of the access: to its register, to its die, to its window. -/
theorem registerAccess : Obligations.RegisterAccess := by
  unfold Obligations.RegisterAccess
  refine ⟨?_, ?_, ?_, ?_, ?_, ?_, ?_, ?_, ?_, ?_⟩
  · intro s i a n v hw e h
    exact exec_csrRegisterWrite_err h ⟨v, hw⟩
  · intro s i a n v hw u r up h hm
    rw [exec_csrRegisterWrite_ok h, hm]
    rfl
  · intro s c a v hw u h hh hg
    have hm : s.mayWrite (.sp c) u .tbThresh = true := by simp [State.mayWrite, State.isActiveSp, hh]
    rw [exec_csrRegisterWrite_ok h, hm, State.gateHolds_open hh hg]
    exact State.csrStore_thresh s (.sp c) v hw.toNat
  · intro s i a n w e h
    exact exec_csrRcRead_err h w
  · intro s i a w u p up h
    rw [exec_csrRcRead_ok h (by simp) (by simp), State.csrLoad_wide rfl]
  · intro s i a n v hw w h
    exact exec_csr_optical h ⟨v, hw⟩ w
  · intro s h op a off f hp hn hu
    rw [exec_hostMemoryAccess_hart hp hn]
    simp [State.hartLocal, hu]
  · intro s h op a off k hp hn hu hr ht hk
    rw [exec_hostMemoryAccess_hart hp hn]
    simp [State.hartLocal, hu, hr, ht, State.damages, State.huskStop_txTouch, hk]
  · intro s h op a off p f hp hn hu hr hd
    rw [exec_hostMemoryAccess_hart hp hn]
    simp [State.hartLocal, hu, hr, State.holdAccess, hd, State.fail]
  · intro s c op a f hn hl
    rw [exec_hostMemoryAccess_sp hn]
    simp [State.spAccess, hl]

end Sys2Proof.Machine
end

