-- ==== Sys2Proof/Proofs/AbsentUnits.lean ====
section
/-! PROOFS. O55: commands that name a unit the module does not have (check 7 of R330), and where the statement fails. -/

namespace Sys2Proof.Machine

/-- The acceptance runs a command in the state it finds, or not at all. -/
theorem acceptDarid_congr {s : State} {c ch op q : Nat} {f g : State → State} (h : f s = g s) :
    acceptDarid s c ch op q f = acceptDarid s c ch op q g := by
  unfold acceptDarid
  rw [h]

/-- On a ready channel, a command whose sender and arguments pass checks 4 to 6 of R330 and whose unit is absent is answered
NOT_PRESENT, and has no other effect. -/
theorem runDarid_absent {d : DaridDef} {r : DReq} {s : State} (h : s.heard d.op d.senders r = true)
    (ho : senderOf r.ch.val = some .c → d.own s r.ch.val (DReq.nums r) = true)
    (hl : d.len r.args.length = true) (hb : d.bad s (DReq.nums r) = none) (hp : d.present s (DReq.nums r) = false) :
    runDarid d r s = answerDarid (whoOf d.op d.changes r d.mirrored) { s := s, status := dNotPresent } := by
  -- The row with a body that refuses in place of the check of presence runs the same way.
  let d' : DaridDef := { d with present := fun _ _ => true, body := fun s _ _ => .no s dNotPresent }
  have hrun : ∀ w, d.run s w (DReq.nums r) = d'.run s w (DReq.nums r) := by
    intro w
    have hb' : d'.bad s (DReq.nums r) = none := hb
    unfold DaridDef.run
    simp only [hb, hb', hp]
    rfl
  have hsame : runDarid d r s = runDarid d' r s := by
    unfold runDarid
    split
    · rfl
    · refine acceptDarid_congr ?_
      dsimp only
      split
      · rfl
      · exact congrArg (answerDarid _) (hrun _)
  exact hsame.trans (runDarid_heard (d := d') h ho hl hb rfl)

/-- What was to follow a response is begun once: a release of the channel that is due leaves nothing due. -/
theorem State.afterResponse_released {s : State} (h : s.ctd.lease.next = 2) (c ch : Nat) :
    (s.afterResponse c ch).ctd.lease.next = 0 := by
  simp [State.afterResponse, h, State.unbind, State.setLease]

/-- A ZM1-SX whose CTD0 serves, with the release of a channel still due (`Lease.next` 2). -/
def dueRelease : State :=
  { fuse := { variant := .sx }
    ctd := { ctds := [{ role := .active, running := true }, {}]
             lease := { holder := some 0, gates := true, granted := true, next := 2 } } }

/-- Refutes O55 in its clause of Switchover: the command is answered NOT_PRESENT, but what follows every response of Switchover
then begins as well. In a state where the end of a channel's binding is due, that binding ends, so the state is not that of
the answer alone. -/
theorem not_absentUnits : ¬ Obligations.AbsentUnits := by
  unfold Obligations.AbsentUnits
  rintro ⟨-, -, -, -, -, -, -, -, -, hswitch, -⟩
  let r : DReq := { ctd := 0, ch := 256, seq := 1, args := [] }
  have heard : dueRelease.heard 0x0705 [.m, .f] r = true := by decide
  have hanswer := runDarid_absent (d := dSwitchover) heard (fun _ => rfl) rfl rfl rfl
  have hsame : (runDarid dSwitchover r dueRelease).afterResponse r.ctd r.ch = _ :=
    Host.Outcome.next.inj (hswitch dueRelease r rfl heard rfl)
  rw [hanswer] at hsame
  have hnext := congrArg (fun t : State => t.ctd.lease.next) hsame
  rw [State.afterResponse_released (by rw [answerDarid_ctd]; rfl)] at hnext
  simp [dueRelease] at hnext

end Sys2Proof.Machine
end

