-- ==== Sys2Proof/Proofs/Cellar.lean ====
section
/-! PROOFS. O19: the commands of the cellar, and what a port answers (R442-R445, R450). -/

namespace Sys2Proof.Machine

/-- A cellar command that is inside its namespace and its context's windows joins its port's queue and waits. -/
theorem cellarBody_joins {s : State} {a : List Nat} {size off : Nat} (hu : s.unitOn (14 + bitsOf (arg a 0) 8 8) = true)
    (hp : (s.cellar (bitsOf (arg a 0) 8 8)).present = true) (hf : (s.cellar (bitsOf (arg a 0) 8 8)).failed = false)
    (hn : (s.cellar (bitsOf (arg a 0) 8 8)).nss.lookup (bitsOf (arg a 0) 31 16) = some (size, true))
    (hlt : arg64 a 3 < 2 ^ 52) (hpl : s.place (arg64 a 3) = .loc off) (hal : off % 4096 = 0)
    (hw : s.inLocalWin (arg a 0 % 256) off (arg a 5 * 4096) = true) (hsz : arg64 a 1 + arg a 5 ≤ size) (write : Bool) (w : Who) :
    cellarBody write s w a = { status := dPending
                               s := s.setCellar (bitsOf (arg a 0) 8 8) fun x => { x with jobs := x.jobs ++ [{
                                 who := w, write := write, ctx := arg a 0 % 256, nsid := bitsOf (arg a 0) 31 16, lba := arg64 a 1
                                 addr := off, len := arg a 5, startAt := s.time.mono }] } } := by
  simp only [cellarBody, hu, hp, hf, hn, hlt, hpl, hal, hw, if_true, Nat.not_lt.mpr hsz, if_false]
  simp

/-- A list of argument checks that all hold names no bad word. -/
theorem badWord_none {l : List (Nat × Bool)} (h : ∀ p ∈ l, p.2 = true) : badWord l = none := by
  have hf : l.find? (fun p => !p.2) = none := by
    rw [List.find?_eq_none]
    intro p hp
    simp [h p hp]
  simp [badWord, hf]

/-- The reserved bits of a cellar command's first word are clear, and it names a namespace. -/
theorem cellarBad_none (s : State) {a : List Nat} (h : bitsOf (arg a 0) 15 9 = 0) (hn : bitsOf (arg a 0) 31 16 ≠ 0) :
    cellarBad s a = none :=
  badWord_none (by simp [h, hn])

/-- CELLAR_DONE with a failed region in the buffer: outcome 1, and no block has moved. -/
theorem exec_cellarDone_failed {s : State} {p : Fin 2} {j : CellarJob} {rest : List CellarJob}
    (hj : (s.cellar p).jobs = j :: rest) (hq : (s.cellar p).ioQueues ≠ 0)
    (hr : s.cellarReach j (fun s d => !s.regionFailed d) = false) (o : Option Bool) (b : List NvmeBlock) :
    exec (.cellarDone p o b) s = .next ((s.setCellar p fun x => { x with jobs := rest }).endCellar p j 1 0 0) := by
  show execCellarDone p o b s = _
  simp [execCellarDone, hj, hq, hr]

/-- Memory that answers has not failed. -/
theorem State.cellarReach_notFailed {s : State} {j : CellarJob} (h : s.cellarReach j State.regionUp = true) :
    s.cellarReach j (fun s d => !s.regionFailed d) = true := by
  simp only [State.cellarReach, List.all_eq_true] at h ⊢
  intro i hi
  have hup := h i hi
  simp only [State.regionUp, Bool.and_eq_true] at hup
  exact hup.1.1.2

/-- CELLAR_DONE of a write that ends well: every block goes out. -/
theorem exec_cellarDone_write {s : State} {p : Fin 2} {j : CellarJob} {rest : List CellarJob}
    (hj : (s.cellar p).jobs = j :: rest) (hw : j.write = true) (hq : (s.cellar p).ioQueues ≠ 0)
    (hr : s.cellarReach j State.regionUp = true) (b : List NvmeBlock) :
    exec (.cellarDone p none b) s =
      let t := s.setCellar p fun x => { x with jobs := rest }
      let out := t.blocksOf j j.len
      .next ((t.setCellar p fun x => { x with sent := out }).endCellar p j 0 j.len
        (out.foldl (fun k b => k + (setBits 128 b.2.1.toNat).length) 0)) := by
  show execCellarDone p none b s = _
  simp [execCellarDone, hj, hq, hr, hw, State.cellarReach_notFailed hr]

/-- A block without a husk mask is written as it is. -/
theorem putBlock_clean {b : NvmeBlock} {d : List Byte} (hd : b.data = some d) (hh : b.husks = 0) (m : Mem) (a : Nat) :
    putBlock m a b = m.write a (padTo 4096 0 d) [] := by
  have hmask : (List.range 128).filter (0 : BitVec 128).getLsbD = [] := by decide
  simp only [putBlock, hd, hh, hmask, List.map_nil, Option.getD_some]

/-- CELLAR_DONE of a read of one whole block that ends well: the block stands in memory. -/
theorem exec_cellarDone_read {s : State} {p : Fin 2} {j : CellarJob} {rest : List CellarJob} {b : NvmeBlock} {d : List Byte}
    (hj : (s.cellar p).jobs = j :: rest) (hw : j.write = false) (hq : (s.cellar p).ioQueues ≠ 0)
    (hr : s.cellarReach j State.regionUp = true) (hn : j.len = 1) (hd : b.data = some d) (hh : b.husks = 0) :
    exec (.cellarDone p none [b]) s = .next
      (((s.setCellar p fun x => { x with jobs := rest }).setMem fun m => m.write j.addr (padTo 4096 0 d) []).endCellar p j 0 1 0) := by
  have hnone : (setBits 128 0).length = 0 := by decide
  show execCellarDone p none [b] s = _
  simp [execCellarDone, hj, hq, hr, hw, State.cellarReach_notFailed hr, hn, putBlock_clean hd hh, hd, hh, hnone]

/-- Settles O19: a command joins its port's queue, and CELLAR_DONE ends the oldest one. -/
theorem cellar : Obligations.Cellar := by
  unfold Obligations.Cellar
  refine ⟨?_, ?_, ?_, ?_, ?_, ?_⟩
  · rintro r s p nsid size off h ho hl hb rfl hn rfl hu hp hf hns hlt hpl hal hw hsz
    exact congrArg _ ((runDarid_heard (d := dCellarWrite) h ho (by simp [dCellarWrite, hl]) (cellarBad_none s hb hn) rfl).trans
      (congrArg _ (cellarBody_joins hu hp hf hns hlt hpl hal hw hsz true _)))
  · rintro r s p nsid size off h ho hl hb rfl hn rfl hu hp hf hns hlt hpl hal hw hsz
    exact congrArg _ ((runDarid_heard (d := dCellarRead) h ho (by simp [dCellarRead, hl]) (cellarBad_none s hb hn) rfl).trans
      (congrArg _ (cellarBody_joins hu hp hf hns hlt hpl hal hw hsz false _)))
  · rintro s p j rest b out hj hw hq hr rfl
    exact exec_cellarDone_write hj hw hq hr b
  · intro s p j rest b d hj hw hq hr hn hd hh
    exact exec_cellarDone_read hj hw hq hr hn hd hh
  · intro s p j rest o b hj hq hr
    exact exec_cellarDone_failed hj hq hr o b
  · intro s p w n nss h hs hu
    show execCellarDevice p 0 w n nss s = _
    simp [execCellarDevice, hs, hu]

end Sys2Proof.Machine
end

