-- ==== Sys2Proof/Proofs/KeepsRules.lean ====
section
/-! PROOFS. Rules for `Keeps`: how it goes through updates, choices and folds, for an operation that may answer no state
(`KeepsOpt`) and for an outcome (`KeepsOut`). Every function that yields a state then has one lemma, `Keeps.f` for `State.f`,
that names the lemmas of the functions it calls, the last update first. -/

-- One theorem after the other: threads that wait for one another would each take a stack of the check's memory.
set_option Elab.async false

namespace Sys2Proof.Machine

/-! ### Updates, choices and folds -/

theorem Keeps.fuse {s t : State} (h : Keeps s t) : t.fuse = s.fuse := h.1

/-- `Keeps.trans` from the outermost update inwards, the order in which a function's body is read. -/
theorem Keeps.after {s t u : State} (k : Keeps t u) (h : Keeps s t) : Keeps s u := h.trans k

/-- An update of other fields: what it writes for the memories and the time has the memories and the threshold there were. -/
theorem Keeps.upd {t : State} {mod ring dies bus time dieTime sched eng mem ledgers obs mbox silent fab ctd job toll power mgmt i3c
    spdm free} (h1 : mem.main = t.mem.main := by rfl) (h2 : mem.store = t.mem.store := by rfl)
    (h3 : time.thresh = t.time.thresh := by rfl) :
    Keeps t ⟨t.pending, t.fuse, mod, ring, dies, bus, time, dieTime, sched, eng, mem, ledgers, obs, mbox, silent, fab, ctd, job,
      toll, power, mgmt, i3c, spdm, free⟩ :=
  ⟨rfl, rfl, by simp [State.memWf, h1, h2], by rw [h3]; exact id⟩

theorem Keeps.of_fst {s t : State} {α : Type} {p : State × α} {a : α} (k : Keeps s p.1) (h : p = (t, a)) : Keeps s t := by
  rw [h] at k
  exact k

theorem Keeps.iteRes {c : Prop} [Decidable c] {s : State} {a b : DRes} (h : Keeps s a.s) (k : Keeps s b.s) :
    Keeps s (if c then a else b).s := by
  split <;> assumption

/-- A fold that carries a state along: `g` finds it in what is carried. -/
theorem Keeps.foldlVia {α β : Type} (g : β → State) {f : β → α → β} (l : List α) (h : ∀ b a, Keeps (g b) (g (f b a))) (b : β) :
    Keeps (g b) (g (l.foldl f b)) := by
  induction l generalizing b with
  | nil => exact .refl _
  | cons a r ih => exact (h b a).trans (ih _)

theorem Keeps.foldlFst {α β : Type} {f : State × β → α → State × β} (l : List α) (h : ∀ p a, Keeps p.1 (f p a).1)
    (p : State × β) : Keeps p.1 (l.foldl f p).1 := .foldlVia Prod.fst l h p

theorem Keeps.foldlSnd {α β : Type} {f : β × State → α → β × State} (l : List α) (h : ∀ p a, Keeps p.2 (f p a).2)
    (p : β × State) : Keeps p.2 (l.foldl f p).2 := .foldlVia Prod.snd l h p

/-! ### An operation that may answer no state -/

/-- The state that an operation answers, if it answers one, keeps what `s` had. -/
inductive KeepsOpt (s : State) : Option State → Prop
  | none : KeepsOpt s none
  | some {t : State} (h : Keeps s t) : KeepsOpt s (some t)

theorem KeepsOpt.ite {c : Prop} [Decidable c] {s : State} {a b : Option State} (h : KeepsOpt s a) (k : KeepsOpt s b) :
    KeepsOpt s (if c then a else b) := by
  split <;> assumption

theorem KeepsOpt.orElse {s : State} {a b : Option State} (h : KeepsOpt s a) (k : KeepsOpt s b) :
    KeepsOpt s (a <|> b) := by
  cases a with
  | none => exact k
  | some t => exact h

theorem Keeps.of_some {s t : State} {o : Option State} (k : KeepsOpt s o) (h : o = some t) : Keeps s t := by
  cases k <;> cases h
  assumption

theorem Keeps.getD {s t : State} {o : Option State} (k : KeepsOpt s o) (h : Keeps s t) : Keeps s (o.getD t) := by
  cases k with
  | none => exact h
  | some k => exact k

/-! ### Outcomes -/

/-- The state that an outcome goes on with, if it goes on, keeps what `s` had. -/
inductive KeepsOut (s : State) : Host.Outcome State Fault Refusal → Prop
  | next {t : State} (h : Keeps s t) : KeepsOut s (.next t)
  | fault (f : Fault) : KeepsOut s (.fault f)
  | refused (r : Refusal) : KeepsOut s (.refused r)

theorem KeepsOut.ite {c : Prop} [Decidable c] {s : State} {a b : Host.Outcome State Fault Refusal} (h : KeepsOut s a)
    (k : KeepsOut s b) : KeepsOut s (if c then a else b) := by
  split <;> assumption

theorem KeepsOut.after {s t : State} {o : Host.Outcome State Fault Refusal} (k : KeepsOut t o) (h : Keeps s t) : KeepsOut s o := by
  cases k with
  | next k => exact .next (h.trans k)
  | fault f => exact .fault f
  | refused r => exact .refused r

theorem KeepsOut.orWait {s t : State} (h : Keeps s t) : KeepsOut s (s.orWait t) := .next (.ite (.refl _) h)

end Sys2Proof.Machine
end

