-- ==== Sys2Proof/Proofs/KeepsFabric.lean ====
section
/-! PROOFS. What the fabric, the logs, the channels and the Ledgers do keeps the fuses, the queue, the memories and the range of
the threshold. -/

-- One theorem after the other: threads that wait for one another would each take a stack of the check's memory.
set_option Elab.async false

namespace Sys2Proof.Machine

/-! ### Shared operations (`Machine/Ops`) -/

theorem Keeps.semAdd (s : State) (k : Nat) (v : Word) : Keeps s (s.semAdd k v) := by
  unfold State.semAdd
  dsimp only
  exact .ite .upd (.setSem ..)

/-! ### Flags and events (`Machine/Flags`) -/

theorem Keeps.clampHit (s : State) (bit value limit unit : Nat) : Keeps s (s.clampHit bit value limit unit) := by
  unfold State.clampHit
  dsimp only
  refine .ite ?_ ?_
  · exact .refl _
  · split
    · exact .upd
    · exact .after (.logFw ..) (.after (.setCtd ..) .upd)

theorem Keeps.clampHitOn (s : State) (c bit value limit unit : Nat) : Keeps s (s.clampHitOn c bit value limit unit) := by
  unfold State.clampHitOn
  exact .ite (.clampHit ..) (.ite (.refl _) (.after (.logTo ..) (.setCtd ..)))

theorem Keeps.logDie (s : State) (d code sev : Nat) (ps : List Nat) : Keeps s (s.logDie d code sev ps) := by
  unfold State.logDie
  exact .ite (.logFw ..) (.log ..)

/-! ### Packets and the fabric (`Machine/FabricOps`) -/

theorem Keeps.queuePkt (s : State) (p vc : Nat) (k : Packet) : Keeps s (s.queuePkt p vc k) := by
  unfold State.queuePkt
  exact .setPort ..

theorem Keeps.lWrite (s : State) (a : Nat) (b : List Byte) (bad : List Nat) : Keeps s (s.lWrite a b bad) := by
  unfold State.lWrite
  exact .ite (.setMem fun _ h => Mem.wf_write _ _ _ h) (.setStore fun _ h => Mem.wf_write _ _ _ h)

theorem Keeps.atomicAt (s : State) (a : Nat) (a64 : Bool) (op x cmp : Nat) : Keeps s (s.atomicAt a a64 op x cmp).1 := by
  unfold State.atomicAt
  dsimp only
  exact .lWrite ..

theorem KeepsOpt.emit (s : State) (k : Packet) (resp board : Bool) : KeepsOpt s (s.emit k resp board) := by
  unfold State.emit
  cases s.nextHop k.slice k.dst.toNat resp board k.esc k.dl.toNat (pktSize k) with
  | none => exact .none
  | some h => exact .some (.queuePkt ..)

theorem Keeps.emit7 (s : State) (k : Packet) : Keeps s (s.emit7 k) := by
  unfold State.emit7
  split
  · exact .queuePkt ..
  · exact .refl _

theorem Keeps.txTouch (s : State) (die n : Nat) : Keeps s (s.txTouch die n) := by
  unfold State.txTouch
  exact .setDie ..

theorem Keeps.hartConsume (s : State) (h addr : Nat) : Keeps s (s.hartConsume h addr) := by
  unfold State.hartConsume
  exact .setMemDie ..

theorem Keeps.settle (s : State) (r : FReq) (st : Nat) (operand : BitVec 64) (data : List Byte) (mask : BitVec 128) : Keeps s
    (s.settle r st operand data mask) := by
  unfold State.settle
  dsimp only
  split
  · refine .after (.setStarted ..) ?_
    refine .ite ?_ ?_
    · split
      · exact .after (.setStarted ..) (.lWrite ..)
      · exact .setStarted ..
    · exact .refl _
  · refine .ite ?_ ?_
    · refine .after .upd ?_
      split
      · exact .ite (.hartConsume ..) (.refl _)
      · exact .refl _
    · refine .after (.fail ..) ?_
      split
      · exact .ite (.hartConsume ..) (.refl _)
      · exact .refl _
  · exact .upd
  · split
    · exact .upd
    · exact .ite .upd (.ite (.after .upd (.after (.setMem fun _ h => Mem.wf_write _ _ _ h) .upd)) .upd)
    · exact .upd
  · exact .refl _

theorem Keeps.failFlow (s : State) (remote cls st : Nat) : Keeps s (s.failFlow remote cls st) := by
  unfold State.failFlow
  dsimp only
  exact .ite (.refl _) (.after (.foldl _ (fun _ _ => .settle ..) _) (.after .upd (.setTx ..)))

theorem Keeps.failTransit (s : State) (die : Nat) : Keeps s (s.failTransit die) := by
  unfold State.failTransit
  dsimp only
  exact .after (.foldl _ (fun _ _ => .settle ..) _) .upd

theorem Keeps.txNote (s : State) (o : ReqOwner) : Keeps s (s.txNote o) := by
  unfold State.txNote
  split
  · exact .txTouch ..
  · exact .refl _

theorem Keeps.winDrop (s : State) (dst ptype : Nat) : Keeps s (s.winDrop dst ptype) := by
  unfold State.winDrop
  dsimp only
  exact .after (.clampHit ..) .upd

theorem Keeps.sendReq (s : State) (r : FReq) : Keeps s (s.sendReq r) := by
  unfold State.sendReq
  dsimp only
  split
  · exact .after (.of_some (KeepsOpt.emit ..) ‹_›) (.after (.txNote ..) (.after (.setWg ..) (.setTx ..)))
  · exact .after (.failFlow ..) (.after (.txNote ..) (.after (.setWg ..) (.setTx ..)))

theorem Keeps.issue (s : State) (r : FReq) (board : Bool) : Keeps s (s.issue r board) := by
  unfold State.issue
  dsimp only
  exact .ite (.after (.settle ..) (.winDrop ..)) (.ite (.settle ..) (.ite (.settle ..) (.ite .upd (.ite (.after (.txNote ..)
      (.setTx ..)) (.sendReq ..)))))

theorem Keeps.issueAll (s : State) (l : List FReq) (board : Bool) : Keeps s (s.issueAll l board) := by
  unfold State.issueAll
  exact .foldl _ (fun _ _ => .issue ..) _

theorem Keeps.pump (s : State) (remote cls n : Nat) : Keeps s (s.pump remote cls n) := by
  induction n generalizing s with
  | zero => exact .refl _
  | succ n ih =>
    unfold State.pump
    dsimp only
    split
    · exact .refl _
    · exact .ite (.refl _) (.after (ih _) (.after (.sendReq ..) (.setTx ..)))

theorem Keeps.unstall (s : State) : Keeps s s.unstall := by
  unfold State.unstall
  dsimp only
  exact .after (.foldl _ (fun _ _ => .issue ..) _) .upd

theorem Keeps.rebound (s : State) : Keeps s s.rebound := by
  unfold State.rebound
  dsimp only
  exact .upd

/-! ### Channels and answers (`Machine/Channel`) -/

theorem Keeps.overrun (s : State) (ctd ch : Nat) : Keeps s (s.overrun ctd ch) := by
  unfold State.overrun
  exact .after (.logFw ..) (.setChan ..)

theorem KeepsOut.mbTxWordWrite (s : State) (init : Initiator) (ctd : Fin 2) (ch : Fin 512) (n : Fin 8) (value : BitVec 32) :
    KeepsOut s (execMbTxWordWrite init ctd ch n value s) := by
  unfold execMbTxWordWrite
  dsimp only
  refine .next ?_
  split
  · exact .after (.ite (.overrun ..) (.setChan ..)) (.answer ..)
  · exact .fail ..

theorem KeepsOut.mbTxCommit (s : State) (init : Initiator) (ctd : Fin 2) (ch : Fin 512) (value : BitVec 32) : KeepsOut s
    (execMbTxCommit init ctd ch value s) := by
  unfold execMbTxCommit
  dsimp only
  refine .next ?_
  split
  · exact .after (.ite (.overrun ..) (.ite (.setChan ..) (.refl _))) (.answer ..)
  · exact .fail ..

theorem KeepsOut.mbRxPop (s : State) (init : Initiator) (ctd : Fin 2) (ch : Fin 512) : KeepsOut s (execMbRxPop init ctd ch s) :=
    by
  unfold execMbRxPop
  dsimp only
  refine .next ?_
  split
  · exact .ite (.after (.setChan ..) (.answer ..)) (.answer ..)
  · exact .fail ..

theorem Keeps.sendUdp (s : State) (ip port ch : Nat) (m : Msg) : Keeps s (s.sendUdp ip port ch m) := by
  unfold State.sendUdp
  dsimp only
  exact .ite (.refl _) .upd

theorem Keeps.sendMgmt (s : State) (dst ch : Nat) (m : Msg) : Keeps s (s.sendMgmt dst ch m) := by
  unfold State.sendMgmt
  dsimp only
  exact .ite (.after .upd (.emit7 ..)) (.winDrop ..)

theorem KeepsOut.mbUpPlace (s : State) (ctd : Fin 2) (ch : Fin 512) : KeepsOut s (execMbUpPlace ctd ch s) := by
  unfold execMbUpPlace
  dsimp only
  refine .next ?_
  refine .ite ?_ ?_
  · exact .refl _
  · split
    · exact .refl _
    · refine .ite ?_ ?_
      · exact .ite (.refl _) (.after (.ite (.irqWrite ..) (.refl _)) (.setChan ..))
      · split
        · exact .after (.sendUdp ..) (.setChan ..)
        · exact .after (.sendMgmt ..) (.setChan ..)
        · exact .setChan ..

theorem Keeps.feed (s : State) (ctd ch : Nat) : Keeps s (s.feed ctd ch) := by
  unfold State.feed
  dsimp only
  split
  · split
    · exact .ite (.refl _) (.after .upd (.setChan ..))
    · exact .refl _
  · exact .refl _

theorem Keeps.enqueue (s : State) (ctd ch ip port : Nat) (ms : List Msg) : Keeps s (s.enqueue ctd ch ip port ms) := by
  unfold State.enqueue
  dsimp only
  exact .after (.feed ..) .upd

theorem Keeps.refuseMgmt (s : State) (src n : Nat) : Keeps s (s.refuseMgmt src n) := by
  unfold State.refuseMgmt
  dsimp only
  exact .ite (.after (.logFw ..) .upd) .upd

theorem Keeps.datagram (s : State) (srcIp srcPort : Nat) (p : List Byte) : Keeps s (s.datagram srcIp srcPort p) := by
  unfold State.datagram
  dsimp only
  split
  · exact .upd
  · refine .ite ?_ ?_
    · exact .refl _
    · split
      · exact .enqueue ..
      · exact .ite (.enqueue ..) (.after (.refuseMgmt ..) (.sendUdp ..))

theorem KeepsOut.mgmtDatagramReceive (s : State) (srcIp : BitVec 32) (srcPort : BitVec 16) (payload : List (BitVec 8)) :
    KeepsOut s (execMgmtDatagramReceive srcIp srcPort payload s) := by
  unfold execMgmtDatagramReceive
  exact .next (.datagram ..)

theorem Keeps.refuseFabric (s : State) (src n : Nat) : Keeps s (s.refuseFabric src n) := by
  unfold State.refuseFabric
  dsimp only
  exact .ite (.after (.logFw ..) .upd) .upd

theorem Keeps.takeMgmt (s : State) (pay : List Byte) : Keeps s (s.takeMgmt pay) := by
  unfold State.takeMgmt
  dsimp only
  split
  · exact .setPort ..
  · exact .refl _

theorem KeepsOut.mgmtPacketReceive (s : State) (src : BitVec 15) (payload : List (BitVec 8)) : KeepsOut s (execMgmtPacketReceive
    src payload s) := by
  unfold execMgmtPacketReceive
  dsimp only
  refine .next ?_
  split
  · exact .takeMgmt ..
  · refine .ite ?_ ?_
    · exact .takeMgmt ..
    · split
      · exact .after (.enqueue ..) (.takeMgmt ..)
      · split
        · exact .after (.enqueue ..) (.takeMgmt ..)
        · exact .after (.refuseFabric ..) (.after (.foldl _ (fun _ _ => .sendMgmt ..) _) (.takeMgmt ..))

theorem Keeps.unbind (s : State) (ch : Nat) : Keeps s (s.unbind ch) := by
  unfold State.unbind
  dsimp only
  exact .upd

theorem KeepsOut.fragmentTimeout (s : State) (ctd : Fin 2) (ch : Fin 512) : KeepsOut s (execFragmentTimeout ctd ch s) := by
  unfold execFragmentTimeout
  refine .next ?_
  split
  · exact .ite (.setChan ..) (.refl _)
  · exact .refl _

/-! ### Ledgers (`Machine/Ledger`) -/

theorem KeepsOut.lgAppendGo (s : State) (init : Initiator) (ctd : Fin 2) (value : BitVec 32) : KeepsOut s (execLgAppendGo init
    ctd value s) := by
  unfold execLgAppendGo
  dsimp only
  exact .next (.ite (.fail ..) (.ite (.fail ..) (.after (.ite (.refl _) (.logTo ..)) (.answer ..))))

theorem KeepsOut.repeatWindowClose (s : State) (ctd : Fin 2) (seq : BitVec 64) : KeepsOut s (execRepeatWindowClose ctd seq s) :=
    by
  unfold execRepeatWindowClose
  dsimp only
  refine .next ?_
  split
  · exact .refl _
  · exact .ite (.refl _) (.after (.ite (.refl _) (.withLog ..)) (.setLedger ..))

theorem Keeps.flashMirror (s : State) (ctd : Nat) (seq : BitVec 64) (ok : Bool) (flashStatus : BitVec 32) : Keeps s
    (s.flashMirror ctd seq ok flashStatus) := by
  unfold State.flashMirror
  dsimp only
  split
  · exact .refl _
  · exact .ite (.refl _) (.ite (.setLedger ..) (.after (.logTo ..) (.setLedger ..)))

theorem Keeps.setWin (s : State) (ctd w : Nat) (f : LgWin → LgWin) : Keeps s (s.setWin ctd w f) := by
  unfold State.setWin
  exact .setLedger ..

theorem KeepsOut.lgWinCursorWrite (s : State) (init : Initiator) (ctd : Fin 2) (w : Fin 4) (width : Nat) (upper : Bool) (value :
    BitVec 64) : KeepsOut s (execLgWinCursorWrite init ctd w width upper value s) := by
  unfold execLgWinCursorWrite
  dsimp only
  exact .next (.ite (.fail ..) (.ite (.fail ..) (.ite (.after (.setWin ..) (.answer ..)) (.ite (.after (.ite (.setWin ..)
      (.setWin ..)) (.answer ..)) (.fail ..)))))

theorem KeepsOut.lgWinLatchDone (s : State) (ctd : Fin 2) (w : Fin 4) : KeepsOut s (execLgWinLatchDone ctd w s) := by
  unfold execLgWinLatchDone
  dsimp only
  refine .next ?_
  refine .ite ?_ ?_
  · exact .refl _
  · split <;> exact .setWin ..

theorem Keeps.body_dLedgerStatus (s : State) (w : Who) (a : List Nat) : Keeps s (dLedgerStatus.body s w a).s := by
  unfold dLedgerStatus
  dsimp only
  exact .refl _

theorem Keeps.body_dLedgerRead (s : State) (w : Who) (a : List Nat) : Keeps s (dLedgerRead.body s w a).s := by
  unfold dLedgerRead
  dsimp only
  exact .refl _

theorem Keeps.body_dLedgerAppend (s : State) (w : Who) (a : List Nat) : Keeps s (dLedgerAppend.body s w a).s := by
  unfold dLedgerAppend
  dsimp only
  exact .logTo ..

theorem Keeps.body_dLedgerSubscribe (s : State) (w : Who) (a : List Nat) : Keeps s (dLedgerSubscribe.body s w a).s := by
  unfold dLedgerSubscribe
  dsimp only
  exact .setChan ..

theorem KeepsOut.ledgerStatus (s : State) (r : DReq) : KeepsOut s (execLedgerStatus r s) := by
  unfold execLedgerStatus
  exact .next (.runDarid (fun _ _ _ => .body_dLedgerStatus ..) ..)

theorem KeepsOut.ledgerRead (s : State) (r : DReq) : KeepsOut s (execLedgerRead r s) := by
  unfold execLedgerRead
  exact .next (.runDarid (fun _ _ _ => .body_dLedgerRead ..) ..)

theorem KeepsOut.ledgerAppend (s : State) (r : DReq) : KeepsOut s (execLedgerAppend r s) := by
  unfold execLedgerAppend
  exact .next (.runDarid (fun _ _ _ => .body_dLedgerAppend ..) ..)

theorem KeepsOut.ledgerSubscribe (s : State) (r : DReq) : KeepsOut s (execLedgerSubscribe r s) := by
  unfold execLedgerSubscribe
  exact .next (.runDarid (fun _ _ _ => .body_dLedgerSubscribe ..) ..)

end Sys2Proof.Machine
end

