-- ==== Sys2Proof/Proofs/KeepsEngines.lean ====
section
/-! PROOFS. The same for the engines: aborts, commits, matrix and vector work. -/

-- One theorem after the other: threads that wait for one another would each take a stack of the check's memory.
set_option Elab.async false

namespace Sys2Proof.Machine

/-! ### Engine operations (`Machine/EngineOps`) -/

theorem Keeps.noteWrite (s : State) (j c a n : Nat) : Keeps s (s.noteWrite j c a n) := by
  unfold State.noteWrite
  dsimp only
  exact .ite (.refl _) (.ite (.after (.ite (.setCtx ..) (.refl _)) (.setSv ..)) (.after (.ite (.setCtx ..) (.refl _)) (.setSv
      ..)))

theorem Keeps.noteRemote (s : State) (j c id : Nat) : Keeps s (s.noteRemote j c id) := by
  unfold State.noteRemote
  dsimp only
  exact .after (.ite (.setCtx ..) (.refl _)) (.setSv ..)

theorem Keeps.undefLine (s : State) (j c a n : Nat) : Keeps s (s.undefLine j c a n) := by
  unfold State.undefLine
  dsimp only
  exact .after (.noteWrite ..) (.after (.lWrite ..) (.after (.draw ..) (.draw ..)))

theorem Keeps.undefine (s : State) (j c : Nat) (ranges : List (Nat × Nat)) : Keeps s (s.undefine j c ranges) := by
  unfold State.undefine
  refine .foldl _ (fun s a => ?_) _
  split
  · exact .undefLine ..
  · exact .undefLine ..
  · exact .refl _

theorem Keeps.descReq (s : State) (c q : Nat) (ix : Word) (r : FReq) (board : Bool) : Keeps s (s.descReq c q ix r board) := by
  unfold State.descReq
  exact .after (.issue ..) (.setStarted ..)

theorem Keeps.failDesc (s : State) (c q : Nat) (ix : Word) (f : Fail) : Keeps s (s.failDesc c q ix f) := by
  unfold State.failDesc
  exact .setStarted ..

theorem Keeps.writeLine (s : State) (c q : Nat) (x : Started) (j v : Nat) (b : HBytes) (src : Option Nat) : Keeps s (s.writeLine
    c q x j v b src).1 := by
  unfold State.writeLine
  dsimp only
  split
  · dsimp only
    exact .refl _
  · dsimp only
    exact .refl _
  · dsimp only
    exact .after (.ite (.setStarted ..) (.refl _)) (.after (.noteWrite ..) (.lWrite ..))
  · split
    · dsimp only
      exact .refl _
    · dsimp only
      exact .after (.descReq ..) (.noteRemote ..)

theorem Keeps.engCopy (s : State) (c q : Nat) (x : Started) (j v : Nat) (b : HBytes) (src : Option Nat) : Keeps s (s.engCopy c q
    x j v b src).1 := by
  unfold State.engCopy
  refine Keeps.foldlVia (fun p : (State × Option Fail) × HBytes => p.1.1) _ (fun p a => ?_) _
  split
  · exact .refl _
  · exact .writeLine ..

theorem Keeps.engWrite (s : State) (c q : Nat) (x : Started) (j v : Nat) (b : HBytes) : Keeps s (s.engWrite c q x j v b).1 := by
  unfold State.engWrite
  exact .engCopy ..

theorem Keeps.tagStart (s : State) (c t die : Nat) : Keeps s (s.tagStart c t die) := by
  unfold State.tagStart
  dsimp only
  exact .setTag ..

theorem Keeps.tagDone (s : State) (t die : Nat) (ok close : Bool) : Keeps s (s.tagDone t die ok close) := by
  unfold State.tagDone
  dsimp only
  exact .setTag ..

theorem Keeps.engTouch (s : State) (j : Nat) : Keeps s (s.engTouch j) := by
  unfold State.engTouch
  exact .txTouch ..

/-! ### Aborts (`Machine/Abort`) -/

theorem Keeps.setConvoy (s : State) (k : ConvoyKey) (f : Convoy → Convoy) : Keeps s (s.setConvoy k f) := by
  unfold State.setConvoy
  dsimp only
  exact .upd

theorem Keeps.sendCtrl (s : State) (port : Nat) (dst : BitVec 15) (type outcome : Nat) (m : AbortMsg) : Keeps s (s.sendCtrl port
    dst type outcome m) := by
  unfold State.sendCtrl
  dsimp only
  exact .ite (.queuePkt ..) (.emit7 ..)

theorem Keeps.logConvoy (s : State) (c : Convoy) (m : AbortMsg) (outcome : Nat) : Keeps s (s.logConvoy c m outcome) := by
  unfold State.logConvoy
  dsimp only
  exact .ite (.refl _) (.after (.log ..) (.setConvoy ..))

theorem Keeps.flood (s : State) (k : ConvoyKey) (ports : List Nat) (except : Option (BitVec 15)) : Keeps s (s.flood k ports
    except) := by
  unfold State.flood
  dsimp only
  split
  · exact .refl _
  · exact .after (.foldl _ (fun _ _ => .sendCtrl ..) _) (.setConvoy ..)

theorem Keeps.endConvoy (s : State) (c : Convoy) (m : AbortMsg) (f : Fail) (outcome : Nat) (except : Option (BitVec 15)) : Keeps
    s (s.endConvoy c m f outcome except) := by
  unfold State.endConvoy
  dsimp only
  refine .after (.logConvoy ..) ?_
  refine .after (.flood ..) ?_
  split
  · refine .after (.setStarted ..) ?_
    split
    · exact .after (.ite (.refl _) (.undefine ..)) (.setConvoy ..)
    · exact .setConvoy ..
  · exact .setConvoy ..

theorem Keeps.startAbort (s : State) (k : ConvoyKey) (cause : Nat) (own : Option Fail) : Keeps s (s.startAbort k cause own) :=
    by
  unfold State.startAbort
  dsimp only
  split
  · exact .refl _
  · exact .ite (.refl _) (.after (.endConvoy ..) .upd)

theorem Keeps.abortConvoysOf (s : State) (c : Nat) : Keeps s (s.abortConvoysOf c) := by
  unfold State.abortConvoysOf
  exact .foldl _ (fun _ _ => .startAbort ..) _

/-! ### Commits (`Machine/Commit`) -/

theorem Keeps.mapQueues (s : State) (c : Nat) (f : Queue → Queue) : Keeps s (s.mapQueues c f) := by
  unfold State.mapQueues
  dsimp only
  exact .upd

theorem Keeps.faultRecord (s : State) (c : Nat) (e : FaultEv) : Keeps s (s.faultRecord c e) := by
  unfold State.faultRecord
  dsimp only
  exact .after (.log ..) (.setCtx ..)

theorem Keeps.contextFault (s : State) (c : Nat) (e : FaultEv) : Keeps s (s.contextFault c e) := by
  unfold State.contextFault
  dsimp only
  split
  · exact .after (.abortConvoysOf ..) (.after (.mapQueues ..) (.after (.setCtx ..) (.faultRecord ..)))
  · exact .after (.abortConvoysOf ..) (.after (.mapQueues ..) (.after (.setCtx ..) (.faultRecord ..)))
  · exact .faultRecord ..

theorem Keeps.contextFence (s : State) (c : Nat) (e : FaultEv) : Keeps s (s.contextFence c e) := by
  unfold State.contextFence
  dsimp only
  split
  · exact .after (.abortConvoysOf ..) (.after (.mapQueues ..) (.after (.setCtx ..) (.faultRecord ..)))
  · exact .after (.abortConvoysOf ..) (.after (.mapQueues ..) (.after (.setCtx ..) (.faultRecord ..)))
  · exact .after (.abortConvoysOf ..) (.after (.mapQueues ..) (.after (.setCtx ..) (.faultRecord ..)))
  · exact .faultRecord ..

theorem Keeps.putRecord (s : State) (c q j slot : Nat) (b : List Byte) : Keeps s (s.putRecord c q j slot b) := by
  unfold State.putRecord
  dsimp only
  exact .ite (.refl _) (.ite (.after (.noteWrite ..) (.setMem fun _ h => Mem.wf_writeClear _ _ h)) (.setQueue ..))

theorem Keeps.disarm (s : State) (steps : Bool) (old new : Nat) : Keeps s (s.disarm steps old new) := by
  unfold State.disarm
  dsimp only
  exact .upd

theorem Keeps.stepAdvance (s : State) : Keeps s s.stepAdvance := by
  unfold State.stepAdvance
  dsimp only
  exact .after (.disarm ..) .upd

theorem Keeps.stepFrom (s : State) (die : Nat) : Keeps s (s.stepFrom die) := by
  unfold State.stepFrom
  exact .ite (.withLog ..) (.ite (.setDt ..) (.stepAdvance ..))

theorem Keeps.reapQueue (s : State) (c q : Nat) : Keeps s (s.reapQueue c q) := by
  unfold State.reapQueue
  dsimp only
  split
  · exact .ite (.refl _) (.after (.finishAll ..) .upd)
  · exact .refl _

theorem Keeps.commit (s : State) (c q : Nat) : Keeps s (s.commit c q) := by
  unfold State.commit
  dsimp only
  split
  · exact .refl _
  · split
    · exact .refl _
    · exact .after (.reapQueue ..) (.after (.ite (.tagDone ..) (.refl _)) (.after (.ite (.irqWrite ..) (.refl _)) (.after (.ite
          (.stepFrom ..) (.refl _)) (.after (.ite (.semAdd ..) (.refl _)) (.after (.ite (.contextFault ..) (.refl _)) (.after
          (.ite (.setMemDie ..) (.refl _)) (.after (.countEv ..) (.after (.setQueue ..) (.putRecord ..)))))))))

/-! ### Matrix engines (`Machine/Matrix`) -/

theorem Keeps.flushMap (s : State) (j : Nat) : Keeps s (s.flushMap j) := by
  unfold State.flushMap
  dsimp only
  exact .foldl _ (fun _ _ => .setCtx ..) _

theorem Keeps.suspectOne (s : State) (j : Nat) : Keeps s (s.suspectOne j) := by
  unfold State.suspectOne
  exact .after (.flushMap ..) (.setSv ..)

theorem Keeps.suspect (s : State) (j cause : Nat) : Keeps s (s.suspect j cause) := by
  unfold State.suspect
  dsimp only
  exact .after (.log ..) (.foldl _ (fun _ _ => .suspectOne ..) _)

theorem Keeps.setTileWord (s : State) (j t row col : Nat) (v : Word) : Keeps s (s.setTileWord j t row col v) := by
  unfold State.setTileWord
  dsimp only
  exact .upd

theorem Keeps.orTileFlags (s : State) (j t : Nat) (f : BitVec 4) : Keeps s (s.orTileFlags j t f) := by
  unfold State.orTileFlags
  dsimp only
  exact .ite (.refl _) .upd

theorem Keeps.clearTileFlags (s : State) (j t : Nat) : Keeps s (s.clearTileFlags j t) := by
  unfold State.clearTileFlags
  dsimp only
  exact .upd

theorem Keeps.dumpTile (s : State) (c q : Nat) (x : Started) (p : MM) (j t : Nat) : Keeps s (s.dumpTile c q x p j t) := by
  unfold State.dumpTile
  dsimp only
  split
  · exact .refl _
  · split
    · exact .after (.failDesc ..) (.of_fst (.engWrite ..) ‹_›)
    · exact .after (.setCtx ..) (.of_fst (.engWrite ..) ‹_›)

theorem Keeps.writeTile (s : State) (c q : Nat) (x : Started) (p : MM) (j g : Nat) (rows cols : List Nat) : Keeps s (s.writeTile
    c q x p j g rows cols).1 := by
  unfold State.writeTile
  dsimp only
  refine .foldlFst _ (fun p a => ?_) _
  refine .foldlFst _ (fun p a => ?_) _
  dsimp only
  split
  · exact .after (.failDesc ..) (.engWrite ..)
  · refine .ite ?_ ?_
    · split
      · exact .after (.failDesc ..) (.after (.engWrite ..) (.engWrite ..))
      · exact .after (.engWrite ..) (.engWrite ..)
    · exact .engWrite ..

theorem Keeps.finishTile (s : State) (c q : Nat) (x : Started) (p : MM) (j g : Nat) (rows cols : List Nat) (r : List Int × Bool)
    (checked : Bool) : Keeps s (s.finishTile c q x p j g rows cols r checked) := by
  have hword : ∀ (l : List (Nat × Nat)) (u : State × Bool × Bool) (f : State × Bool × Bool → Nat × Nat → State × Bool × Bool),
      (∀ u a, ∃ t m n v, (f u a).1 = u.1.setTileWord j t m n v) → Keeps u.1 (l.foldl f u).1 := by
    intro l u f hf
    refine .foldlFst _ (fun u a => ?_) _
    obtain ⟨t, m, n, v, h⟩ := hf u a
    rw [h]
    exact .setTileWord ..
  unfold State.finishTile
  dsimp only
  refine .after (.setStarted ..) (.after (.orTileFlags ..) ?_)
  split
  · refine .after (.writeTile ..) (.after (.dumpTile ..) (.foldlFst _ (fun u m => hword _ _ _ fun u n => ⟨_, _, _, _, rfl⟩) _))
  · refine .after (.dumpTile ..) (.foldlFst _ (fun u m => hword _ _ _ fun u n => ⟨_, _, _, _, rfl⟩) _)

theorem Keeps.dropTiles (s : State) (c q : Nat) (x : Started) (f : Fail) : Keeps s (s.dropTiles c q x f) := by
  unfold State.dropTiles
  exact .after (.setStarted ..) (.failDesc ..)

theorem Keeps.inputSuspect (s : State) (c q : Nat) (x : Started) (p : MM) (g reason : Nat) (flips : List LineFlip) : Keeps s
    (s.inputSuspect c q x p g reason flips) := by
  unfold State.inputSuspect
  dsimp only
  exact .after (.dropTiles ..) (.damages ..)

theorem Keeps.setCheck (s : State) (c q : Nat) (x : Started) (w : CheckWork) : Keeps s (s.setCheck c q x w) := by
  unfold State.setCheck
  exact .setStarted ..

theorem Keeps.bumpAbft (s : State) (j tr pe un ch : Nat) : Keeps s (s.bumpAbft j tr pe un ch) := by
  unfold State.bumpAbft
  exact .setEng ..

theorem Keeps.drawCountdown (s : State) : Keeps s s.drawCountdown.2 := by
  unfold State.drawCountdown
  dsimp only
  exact .draw ..

theorem Keeps.sampleTile (s : State) (j : Nat) : Keeps s (s.sampleTile j).2 := by
  unfold State.sampleTile
  dsimp only
  split
  · split
    · dsimp only
      exact .after (.setEng ..) (.after (.drawCountdown ..) (.drawCountdown ..))
    · dsimp only
      exact .after (.setEng ..) (.drawCountdown ..)
  · split
    · dsimp only
      exact .after (.setEng ..) (.drawCountdown ..)
    · dsimp only
      exact .setEng ..

theorem Keeps.beginMatmul {s t : State} {c q : Nat} {x : Started} {p : MM} {j : Nat} (h : s.beginMatmul c q x p j = .ok t) :
    Keeps s t := by
  unfold State.beginMatmul at h
  simp only [bind, Except.bind] at h
  split at h
  · cases h
  · cases h
    exact .after (.setStarted ..) (.ite (.foldl _ (fun _ _ => .clearTileFlags ..) _) (.refl _))

/-- A tile whose operands are there: its first computation is good, or the second, or it goes to a checker. -/
theorem Keeps.meTile (s : State) (c q : Nat) (t : TileJob) (g : Nat) (err1 err2 : List WordFlip) : Keeps s (s.meTile c q t g
    err1 err2) := by
  unfold State.meTile
  dsimp only
  split
  · exact .dropTiles ..
  next u hu =>
  have hb : Keeps s u := by
    split at hu
    · cases hu
      exact .refl _
    · exact .beginMatmul hu
  refine .after ?_ hb
  refine .ite (.after (.setStarted ..) (.dumpTile ..)) ?_
  split
  · exact .dropTiles ..
  have hcount : ∀ m n, Keeps u (((u.countEv (engDie t.j) 0x013 (t.j % 16) (some c) 1).countEv (engDie t.j) 0x011 (t.j % 16) (some c)
      m).bumpAbft t.j 0 0 n 0) := fun m n => .after (.bumpAbft ..) (.after (.countEv ..) (.countEv ..))
  refine .ite ?_ (.ite ?_ ?_)
  · refine .ite (.after (.finishTile ..) (.after (.sampleTile ..) (hcount ..))) ?_
    split
    · exact .after (.setCheck ..) (.after .upd (.after (.sampleTile ..) (hcount ..)))
    · exact .after (.finishTile ..) (.after .upd (.after .upd (.after (.sampleTile ..) (hcount ..))))
  · exact .after (.finishTile ..) (.after (.log ..) (.after (.bumpAbft ..) (hcount ..)))
  · split
    · exact .after (.setCheck ..) (.after (.log ..) (.after (.bumpAbft ..) (.after (.suspect ..) (hcount ..))))
    · exact .after (.inputSuspect ..) (.after (.log ..) (.after (.bumpAbft ..) (.after (.suspect ..) (hcount ..))))

theorem Keeps.disagree (s : State) (c q : Nat) (t : TileJob) (g : Nat) (w : CheckWork) (third outcome : Nat) : Keeps s
    (s.disagree c q t g w third outcome) := by
  unfold State.disagree
  dsimp only
  exact .after (.log ..) .upd

theorem Keeps.noArbiter (s : State) (c q : Nat) (t : TileJob) (g : Nat) (w : CheckWork) (flips : List LineFlip) : Keeps s
    (s.noArbiter c q t g w flips) := by
  unfold State.noArbiter
  exact .after (.inputSuspect ..) (.after (.suspect ..) (.after (.suspect ..) (.disagree ..)))

theorem Keeps.checkerVerdict (s : State) (c q : Nat) (t : TileJob) (g : Nat) (w : CheckWork) (err : List WordFlip) (flips : List
    LineFlip) : Keeps s (s.checkerVerdict c q t g w err flips) := by
  unfold State.checkerVerdict
  dsimp only
  refine .ite ?_ ?_
  · split
    · exact .setCheck ..
    · exact .ite (.inputSuspect ..) (.after (.finishTile ..) .upd)
  · split
    · exact .dropTiles ..
    · refine .ite ?_ ?_
      · exact .after (.ite (.inputSuspect ..) (.finishTile ..)) (.bumpAbft ..)
      · refine .ite ?_ ?_
        · split
          · exact .after (.setCheck ..) (.after (.suspect ..) (.bumpAbft ..))
          · exact .after (.finishTile ..) (.after .upd (.after (.suspect ..) (.bumpAbft ..)))
        · refine .ite ?_ ?_
          · exact .after (.finishTile ..) (.bumpAbft ..)
          · split
            · exact .after (.setCheck ..) (.bumpAbft ..)
            · exact .after (.noArbiter ..) (.bumpAbft ..)

theorem Keeps.arbiterVerdict (s : State) (c q : Nat) (t : TileJob) (g : Nat) (w : CheckWork) (chk : List Int × Bool) (err : List
    WordFlip) (flips : List LineFlip) : Keeps s (s.arbiterVerdict c q t g w chk err flips) := by
  unfold State.arbiterVerdict
  dsimp only
  refine .ite ?_ ?_
  · split
    · exact .setCheck ..
    · exact .noArbiter ..
  · split
    · exact .dropTiles ..
    · refine .ite ?_ ?_
      · split
        · exact .after (.setCheck ..) (.after (.suspect ..) (.bumpAbft ..))
        · exact .after (.noArbiter ..) (.after (.suspect ..) (.bumpAbft ..))
      · exact .after (.ite (.after (.finishTile ..) (.after (.suspect ..) (.disagree ..))) (.ite (.after (.finishTile ..)
            (.after (.suspect ..) (.disagree ..))) (.after (.inputSuspect ..) (.disagree ..)))) (.bumpAbft ..)

/-! ### Vector engines (`Machine/Vector`) -/

theorem Keeps.veWrite (s : State) (c q : Nat) (x : Started) (p : VB) (j r : Nat) (vals : List Num) (scaleBase : Nat) : Keeps s
    (s.veWrite c q x p j r vals scaleBase) := by
  unfold State.veWrite
  dsimp only
  split
  · refine .after (.failDesc ..) ?_
    refine .ite ?_ ?_
    · refine .after (.countEv ..) ?_
      refine .after (.setStarted ..) ?_
      split
      · dsimp only
        exact .engWrite ..
      · split
        · exact .after (.engWrite ..) (.engWrite ..)
        · dsimp only
          exact .engWrite ..
    · refine .after (.setStarted ..) ?_
      split
      · dsimp only
        exact .engWrite ..
      · split
        · exact .after (.engWrite ..) (.engWrite ..)
        · dsimp only
          exact .engWrite ..
  · refine .ite ?_ ?_
    · refine .after (.countEv ..) ?_
      refine .after (.setStarted ..) ?_
      split
      · dsimp only
        exact .engWrite ..
      · split
        · exact .after (.engWrite ..) (.engWrite ..)
        · dsimp only
          exact .engWrite ..
    · refine .after (.setStarted ..) ?_
      split
      · dsimp only
        exact .engWrite ..
      · split
        · exact .after (.engWrite ..) (.engWrite ..)
        · dsimp only
          exact .engWrite ..

theorem Keeps.veRun (s : State) (c q : Nat) (x : Started) (p : VB) (j : Nat) : Keeps s (s.veRun c q x p j) := by
  unfold State.veRun
  dsimp only
  refine .foldl _ (fun s a => ?_) _
  refine .ite ?_ ?_
  · exact .refl _
  · split
    · exact .failDesc ..
    · refine .ite ?_ ?_
      · split
        · exact .after (.failDesc ..) (.after (.engWrite ..) (.after (.veWrite ..) (.setStarted ..)))
        · exact .after (.engWrite ..) (.after (.veWrite ..) (.setStarted ..))
      · exact .after (.veWrite ..) (.setStarted ..)

theorem Keeps.veGradWord (s : State) (c q : Nat) (x : Started) (p : VB) (j addr : Nat) (terms : List Num) : Keeps s
    (s.veGradWord c q x p j addr terms) := by
  unfold State.veGradWord
  dsimp only
  refine .ite ?_ ?_
  · exact .refl _
  · split
    · exact .failDesc ..
    · split
      · exact .after (.failDesc ..) (.after (.engWrite ..) (.setStarted ..))
      · exact .after (.engWrite ..) (.setStarted ..)

theorem Keeps.veBackRun (s : State) (c q : Nat) (x : Started) (p : VB) (j : Nat) : Keeps s (s.veBackRun c q x p j) := by
  unfold State.veBackRun
  dsimp only
  refine .ite ?_ ?_
  · refine .foldlFst _ (fun p a => ?_) _
    split
    · exact .refl _
    · split
      · dsimp only
        exact .failDesc ..
      · dsimp only
        exact .after (.veWrite ..) (.setStarted ..)
  · refine .ite ?_ ?_
    · refine .after (.foldl _ (fun _ _ => .veGradWord ..) _) ?_
      refine .foldlFst _ (fun p a => ?_) _
      split
      · exact .refl _
      · split
        · dsimp only
          exact .failDesc ..
        · dsimp only
          exact .after (.veWrite ..) (.setStarted ..)
    · refine .after (.foldl _ (fun _ _ => .veGradWord ..) _) ?_
      refine .after (.foldl _ (fun _ _ => .veGradWord ..) _) ?_
      refine .foldlFst _ (fun p a => ?_) _
      split
      · exact .refl _
      · split
        · dsimp only
          exact .failDesc ..
        · dsimp only
          exact .after (.veWrite ..) (.setStarted ..)

theorem Keeps.veWork (s : State) (c q : Nat) (x : Started) (j : Nat) : Keeps s (s.veWork c q x j) := by
  unfold State.veWork
  dsimp only
  exact .ite (.veBackRun ..) (.veRun ..)

end Sys2Proof.Machine
end

