-- ==== Sys2Proof/Proofs/KeepsConvoys.lean ====
section
/-! PROOFS. The same for convoys, the packets of the fabric and their segments. -/

-- One theorem after the other: threads that wait for one another would each take a stack of the check's memory.
set_option Elab.async false

namespace Sys2Proof.Machine

/-! ### Convoys (`Machine/Convoy`) -/

theorem Keeps.putSeg (s : State) (k : ConvoyKey) (g : Seg) : Keeps s (s.putSeg k g) := by
  unfold State.putSeg
  exact .queuePkt ..

theorem Keeps.sendSeg (s : State) (k : ConvoyKey) (g : Seg) : Keeps s (s.sendSeg k g) := by
  unfold State.sendSeg
  dsimp only
  exact .ite (.refl _) (.after (.setConvoy ..) (.putSeg ..))

theorem Keeps.sendAck (s : State) (car : Bool) (k : ConvoyKey) (epoch : BitVec 16) (port status seg step : Nat) : Keeps s
    (s.sendAck car k epoch port status seg step) := by
  unfold State.sendAck
  exact .queuePkt ..

theorem Keeps.cvFail (s : State) (k : ConvoyKey) (f : Fail) : Keeps s (s.cvFail k f) := by
  unfold State.cvFail
  exact .startAbort ..

theorem Keeps.selfFence (s : State) (slice : BitVec 12) (newer : BitVec 16) (responder ctx : Nat) (ev : FaultEv) : Keeps s
    (s.selfFence slice newer responder ctx ev) := by
  unfold State.selfFence
  dsimp only
  split
  · exact .refl _
  · exact .after (.ite (.refl _) (.after (.log ..) .upd)) (.foldl _ (fun _ _ => .contextFence ..) _)

theorem Keeps.cvWrite (s : State) (k : ConvoyKey) (c q j : Nat) (x : Started) (v : Nat) (b : HBytes) : Keeps s (s.cvWrite k c q
    j x v b) := by
  unfold State.cvWrite
  refine .ite ?_ ?_
  · exact .refl _
  · split
    · exact .after (.countEv ..) (.of_fst (.engWrite ..) ‹_›)
    · exact .after (.cvFail ..) (.of_fst (.engWrite ..) ‹_›)

theorem Keeps.cvFlags (s : State) (c q : Nat) (ix : Word) (ovf nan : Bool) : Keeps s (s.cvFlags c q ix ovf nan) := by
  unfold State.cvFlags
  exact .setStarted ..

theorem Keeps.cvStore (s : State) (k : ConvoyKey) (c q j : Nat) (x : Started) (p : Coll) (b i : Nat) (r : Partial) : Keeps s
    (s.cvStore k c q j x p b i r) := by
  unfold State.cvStore
  dsimp only
  exact .after (.setConvoy ..) (.after (.ite (.refl _) (.cvWrite ..)) (.after (.cvWrite ..) (.cvFlags ..)))

theorem Keeps.sendSegs (s : State) (k : ConvoyKey) (l : List Seg) : Keeps s (s.sendSegs k l) := by
  unfold State.sendSegs
  exact .foldl _ (fun _ _ => .sendSeg ..) _

theorem KeepsOpt.cvLocal (s : State) (cv : Convoy) (c q j : Nat) (x : Started) (p : Coll) : KeepsOpt s (s.cvLocal cv c q j x p)
    := by
  unfold State.cvLocal
  dsimp only
  refine .ite ?_ ?_
  · exact .none
  · refine .ite ?_ ?_
    · refine .ite ?_ ?_
      · exact .none
      · refine .ite ?_ ?_
        · split
          · exact .some (.cvFail ..)
          · exact .some (.after (.sendSegs ..) (.after (.setConvoy ..) (.cvWrite ..)))
        · split
          · exact .some (.cvFail ..)
          · exact .some (.ite (.after (.setConvoy ..) (.cvStore ..)) (.after (.sendSegs ..) (.setConvoy ..)))
    · refine .ite ?_ ?_
      · refine .ite ?_ ?_
        · exact .none
        · split
          · exact .some (.cvFail ..)
          · exact .some (.after (.sendSegs ..) (.after (.setConvoy ..) (.cvWrite ..)))
      · refine .ite ?_ ?_
        · exact .none
        · split
          · exact .some (.cvFail ..)
          · refine .some ?_
            split
            · exact .after (.sendSeg ..) (.after (.setConvoy ..) (.after (.setConvoy ..) (.cvFlags ..)))
            · exact .after (.sendSegs ..) (.after (.cvStore ..) (.after (.setConvoy ..) (.after (.setConvoy ..) (.cvFlags ..))))

theorem Keeps.cvUse (s : State) (cv : Convoy) (c q j : Nat) (x : Started) (p : Coll) (g : Seg) : Keeps s (s.cvUse cv c q j x p
    g) := by
  unfold State.cvUse
  dsimp only
  refine .ite ?_ ?_
  · exact .after (.sendSegs ..) (.after (.cvWrite ..) (.setConvoy ..))
  · refine .ite ?_ ?_
    · exact .after (.sendSegs ..) (.after (.cvStore ..) (.setConvoy ..))
    · refine .ite ?_ ?_
      · split
        · exact .after (.cvFail ..) (.setConvoy ..)
        · exact .after (.ite (.sendSeg ..) (.after (.ite (.sendSeg ..) (.refl _)) (.cvStore ..))) (.after (.cvFlags ..)
              (.setConvoy ..))
      · exact .after (.ite (.sendSeg ..) (.refl _)) (.after (.cvStore ..) (.setConvoy ..))

/-- What is kept whatever state `f` answers. It is said of the function, because the kernel compares two bodies of `putCar` by
counting down from the offset `n * 2 ^ 22` of a segment; with `engRead` a variable it cannot. -/
def KeepsPut (f : State → ConvoyKey → Nat → Nat → Started → Coll → Nat → Nat → State × Option Fail) : Prop :=
  ∀ s k c j x p port n, Keeps s (f s k c j x p port n).1

theorem keepsPut_putCar : KeepsPut State.putCar := by
  delta State.putCar
  generalize State.engRead = read
  revert read
  refine id fun read s k c j x p port n => ?_
  dsimp only
  split
  · exact .refl _
  · exact .after (.queuePkt ..) (.foldl _ (fun _ _ => .queuePkt ..) _)

theorem Keeps.putCar (s : State) (k : ConvoyKey) (c j : Nat) (x : Started) (p : Coll) (port n : Nat) : Keeps s (s.putCar k c j x
    p port n).1 := keepsPut_putCar ..

theorem Keeps.sendCar (s : State) (k : ConvoyKey) (c j : Nat) (x : Started) (p : Coll) (ports : List Nat) (n : Nat) : Keeps s
    (s.sendCar k c j x p ports n) := by
  unfold State.sendCar
  refine .foldl _ (fun s a => ?_) _
  refine .ite ?_ ?_
  · exact .refl _
  · split
    · exact .after (.cvFail ..) (.of_fst (.putCar ..) ‹_›)
    · exact .after (.setConvoy ..) (.of_fst (.putCar ..) ‹_›)

theorem KeepsOpt.carLocal (s : State) (cv : Convoy) (c q j : Nat) (x : Started) (p : Coll) : KeepsOpt s (s.carLocal cv c q j x
    p) := by
  unfold State.carLocal
  dsimp only
  refine .ite ?_ ?_
  · exact .none
  · refine .some ?_
    refine .after (.sendCar ..) ?_
    refine .after (.setConvoy ..) ?_
    split
    · exact .cvFail ..
    · exact .ite (.ite (.setStarted ..) (.refl _)) (.cvWrite ..)

theorem KeepsOpt.carAck (s : State) (cv : Convoy) (p : Coll) : KeepsOpt s (s.carAck cv p) := by
  unfold State.carAck
  split
  · exact .none
  · exact .ite (.some (.after (.setConvoy ..) (.sendAck ..))) .none

theorem Keeps.setBarrier (s : State) (b : Nat) (f : Barrier → Barrier) : Keeps s (s.setBarrier b f) := by
  unfold State.setBarrier
  dsimp only
  split
  · exact .upd
  · exact .refl _

theorem Keeps.cvAux (s : State) (cv : Convoy) (c q j : Nat) (x : Started) (p : Coll) : Keeps s (s.cvAux cv c q j x p) := by
  unfold State.cvAux
  exact .ite (.refl _) (.cvWrite ..)

theorem Keeps.cvRelease (s : State) (cv : Convoy) (c q j : Nat) (x : Started) (p : Coll) (contrib : Nat) : Keeps s (s.cvRelease
    cv c q j x p contrib) := by
  unfold State.cvRelease
  dsimp only
  exact .after (.setConvoy ..) (.after (.sendSegs ..) (.after (.setBarrier ..) (.after (.ite (.cvAux ..) (.refl _)) (.setConvoy
      ..))))

theorem KeepsOpt.cvFinish (s : State) (cv : Convoy) (c q j : Nat) (x : Started) (p : Coll) : KeepsOpt s (s.cvFinish cv c q j x
    p) := by
  unfold State.cvFinish
  dsimp only
  refine .ite ?_ ?_
  · exact .none
  · refine .ite ?_ ?_
    · refine .ite ?_ ?_
      · refine .some ?_
        refine .after (.setConvoy ..) ?_
        refine .ite ?_ ?_
        · exact .refl _
        · split
          · exact .cvFail ..
          · exact .cvWrite ..
      · exact .none
    · refine .ite ?_ ?_
      · exact .ite .none (.ite (.some (.after (.setBarrier ..) (.after (.setConvoy ..) (.ite (.refl _) (.cvAux ..))))) (.some
            (.after (.setConvoy ..) (.ite (.refl _) (.cvAux ..)))))
      · refine .ite ?_ ?_
        · split
          · exact .some (.cvRelease ..)
          · exact .ite .none (.some (.after (.sendSeg ..) (.setConvoy ..)))
        · exact .none

theorem KeepsOpt.cvStep (s : State) (k : ConvoyKey) : KeepsOpt s (s.cvStep k) := by
  unfold State.cvStep
  dsimp only
  split
  · exact .none
  · split
    · split
      · refine .ite ?_ ?_
        · exact .orElse (.carLocal ..) (.orElse (.carAck ..) (.cvFinish ..))
        · split
          · exact .some (.of_some (KeepsOpt.cvLocal ..) ‹_›)
          · split
            · exact .some (.cvUse ..)
            · exact .cvFinish ..
      · exact .none
    · exact .none

theorem Keeps.cvGo (s : State) (k : ConvoyKey) (n : Nat) : Keeps s (s.cvGo k n) := by
  induction n generalizing s with
  | zero => exact .refl _
  | succ n ih =>
    unfold State.cvGo
    split
    · exact .refl _
    · exact .after (ih _) (.of_some (.cvStep ..) ‹_›)

theorem Keeps.cvRun (s : State) (k : ConvoyKey) : Keeps s (s.cvRun k) := by
  unfold State.cvRun
  dsimp only
  split
  · exact .refl _
  · exact .cvGo ..

/-! ### Packets (`Machine/Packets`) -/

theorem Keeps.takePkt (s : State) (p : Nat) (b : List Byte) : Keeps s (s.takePkt p b) := by
  unfold State.takePkt
  exact .setPort ..

theorem Keeps.takePay (s : State) (p : Nat) (pay : List Byte) : Keeps s (s.takePay p pay) := by
  unfold State.takePay
  exact .setPort ..

theorem Keeps.countDrop (s : State) (die e : Nat) (f : Nat × Nat × Nat → Nat × Nat × Nat) : Keeps s (s.countDrop die e f) := by
  unfold State.countDrop
  exact .setWg ..

/-! ### Segments (`Machine/Segments`) -/

theorem Keeps.abortUnstarted (s : State) (c q j : Nat) (x : Started) (cause : Nat) : Keeps s (s.abortUnstarted c q j x cause) :=
    by
  unfold State.abortUnstarted
  dsimp only
  exact .ite (.refl _) (.ite (.after (.logConvoy ..) (.after (.flood ..) .upd)) (.after (.log ..) (.after (.foldl _ (fun _ _ =>
      .sendCtrl ..) _) .upd)))

theorem Keeps.a2aPuts (s : State) (c q j : Nat) (x : Started) (p : Coll) (block dst : Nat) : Keeps s (s.a2aPuts c q j x p block
    dst) := by
  unfold State.a2aPuts
  dsimp only
  refine .foldl _ (fun s a => ?_) _
  split
  · exact .cvFail ..
  · exact .after (.descReq ..) (.noteRemote ..)

theorem Keeps.a2aStart (s : State) (c q j : Nat) (x : Started) (p : Coll) (table : List Nat) : Keeps s (s.a2aStart c q j x p
    table) := by
  unfold State.a2aStart
  dsimp only
  refine .ite ?_ ?_
  · exact .refl _
  · refine .foldl _ (fun s a => ?_) _
    refine .ite ?_ ?_
    · split
      · exact .cvFail ..
      · exact .cvWrite ..
    · exact .a2aPuts ..

theorem Keeps.cvSettled (s : State) (c q : Nat) (ix : Word) : Keeps s (s.cvSettled c q ix) := by
  unfold State.cvSettled
  split
  · exact .refl _
  · split
    · exact .refl _
    · split
      · exact .startAbort ..
      · exact .ite (.cvRun ..) (.refl _)

theorem Keeps.startConvoy (s : State) (c q j : Nat) (ix : Word) : Keeps s (s.startConvoy c q j ix) := by
  unfold State.startConvoy
  dsimp only
  split
  · exact .refl _
  · split
    · split
      · exact .after (.flood ..) (.after (.setStarted ..) (.after (.failDesc ..) (.setStarted ..)))
      · exact .after (.setStarted ..) (.after (.failDesc ..) (.setStarted ..))
    · refine .ite ?_ ?_
      · exact .after (.setStarted ..) (.after (.abortUnstarted ..) (.after (.log ..) (.after .upd (.setStarted ..))))
      · split
        · exact .after (.startAbort ..) (.after .upd (.setStarted ..))
        · refine .ite ?_ ?_
          · exact .after (.startAbort ..) (.after (.setConvoy ..) (.after .upd (.setStarted ..)))
          · split
            · exact .after (.startAbort ..) (.after (.setConvoy ..) (.after .upd (.setStarted ..)))
            · refine .ite ?_ ?_
              · exact .after (.cvRun ..) (.after (.setConvoy ..) (.after .upd (.setStarted ..)))
              · split
                · exact .after (.startAbort ..) (.after (.setConvoy ..) (.after .upd (.setStarted ..)))
                · exact .after (.cvSettled ..) (.after (.a2aStart ..) (.after (.setConvoy ..) (.after (.setConvoy ..) (.after
                      .upd (.setStarted ..)))))

/-- A segment that does not pass the gate: a drop is counted, and what `stop` sends back goes out. -/
theorem Keeps.segGate {s t : State} {port : Nat} {k : Packet} {stop : State → SliceEnt → Nat → State}
    (hs : ∀ u e n, Keeps u (stop u e n)) (h : s.segGate port k stop = .error t) : Keeps s t := by
  unfold State.segGate at h
  split at h
  · cases h
    exact .refl _
  split at h
  · cases h
    exact .setWg ..
  split at h
  · cases h
    exact .countDrop ..
  split at h
  · cases h
  dsimp only at h
  split at h
  all_goals
    cases h
    exact .after (hs ..) (.after (.countDrop ..) (.countEv ..))

theorem Keeps.cvTake (s : State) (cv : Convoy) (p : Coll) (port : Nat) (k : Packet) : Keeps s (s.cvTake cv p port k) := by
  unfold State.cvTake
  dsimp only
  refine .ite ?_ ?_
  · exact .refl _
  · refine .after (.cvRun ..) ?_
    refine .ite ?_ ?_
    · exact .after (.setBarrier ..) (.after (.setConvoy ..) (.setConvoy ..))
    · refine .ite ?_ ?_
      · split
        · split
          · exact .after (.cvRelease ..) (.setConvoy ..)
          · exact .setConvoy ..
        · exact .setConvoy ..
      · exact .after (.setConvoy ..) (.setConvoy ..)

theorem KeepsOut.collSegReceive (s : State) (port : Fin 13) (pkt : Packet) : KeepsOut s (execCollSegReceive port pkt s) := by
  unfold execCollSegReceive
  refine .orWait ?_
  dsimp only
  refine .after ?_ (.takePkt _ port (pktBytes pkt))
  refine .ite (.refl _) ?_
  split
  · exact .segGate (fun _ _ _ => .sendAck ..) ‹_›
  refine .ite (.after (.sendAck ..) (.setWg ..)) ?_
  split
  · exact .sendAck ..
  split
  · exact .sendAck ..
  · exact .sendAck ..
  split
  · exact .sendAck ..
  · exact .ite (.after (.sendAck ..) (.setWg ..)) (.after (.cvTake ..) (.sendAck ..))

theorem Keeps.carData (s : State) (cv : Convoy) (c q j : Nat) (x : Started) (p : Coll) (port : Nat) (k : Packet) : Keeps s
    (s.carData cv c q j x p port k) := by
  unfold State.carData
  dsimp only
  exact .ite (.refl _) (.after (.foldl _ (fun _ _ => .queuePkt ..) _) (.after (.setConvoy ..) (.cvWrite ..)))

theorem Keeps.carDigest (s : State) (cv : Convoy) (c _q j : Nat) (x : Started) (p : Coll) (port : Nat) (k : Packet) : Keeps s
    (s.carDigest cv c _q j x p port k) := by
  unfold State.carDigest
  dsimp only
  refine .ite ?_ ?_
  · exact .refl _
  · split
    · exact .after (.cvFail ..) (.foldl _ (fun _ _ => .after (.setConvoy ..) (.queuePkt ..)) _)
    · exact .after (.ite (.after (.cvRun ..) (.setConvoy ..)) (.after (.startAbort ..) (.log ..))) (.foldl _ (fun _ _ => .after
          (.setConvoy ..) (.queuePkt ..)) _)

theorem Keeps.romAbort (s : State) (k : ConvoyKey) (port n : Nat) : Keeps s (s.romAbort k port n) := by
  unfold State.romAbort
  dsimp only
  exact .after (.logConvoy ..) (.after (.flood ..) (.after .upd (.log ..)))

theorem Keeps.romSeg (s : State) (port : Nat) (k : Packet) : Keeps s (s.romSeg port k) := by
  unfold State.romSeg
  dsimp only
  refine .ite (.ite (.sendAck ..) (.refl _)) ?_
  split
  · exact .segGate (fun _ _ _ => .ite (.sendAck ..) (.refl _)) ‹_›
  · exact .ite (.ite (.sendAck ..) (.refl _)) (.ite (.refl _) (.ite (.after (.sendAck ..) (.setWg ..)) (.ite (.ite (.after
        (.sendAck ..) .upd) (.romAbort ..)) (.ite (.after (.sendAck ..) (.setWg ..)) .upd))))

theorem KeepsOut.caravanSegReceive (s : State) (port : Fin 13) (pkt : Packet) :
    KeepsOut s (execCaravanSegReceive port pkt s) := by
  unfold execCaravanSegReceive
  refine .orWait ?_
  dsimp only
  refine .after ?_ (.takePkt _ port (pktBytes pkt))
  refine .ite (.refl _) (.ite (.romSeg ..) ?_)
  split
  · exact .segGate (fun _ _ _ => .ite (.sendAck ..) (.refl _)) ‹_›
  have hack : ∀ (u : State) e st,
      Keeps u (if segSkind pkt == 1 then u.sendAck true (segKey pkt) e port st (carOffset pkt) 0 else u) :=
    fun _ _ _ => .ite (.sendAck ..) (.refl _)
  split
  · exact hack ..
  split
  · exact hack ..
  · exact hack ..
  split
  · exact .ite (.after (.sendAck ..) (.setWg ..)) (.ite (.carData ..) (.ite (.carDigest ..) (hack ..)))
  · exact hack ..

theorem KeepsOut.segAckReceive (s : State) (port : Fin 13) (pkt : Packet) : KeepsOut s (execSegAckReceive port pkt s) := by
  unfold execSegAckReceive
  dsimp only
  refine .orWait ?_
  refine .ite ?_ ?_
  · exact .takePkt ..
  · split
    · exact .takePkt ..
    · split
      · exact .after (.cvRun ..) (.after (.setConvoy ..) (.takePkt ..))
      · split
        · exact .after (.ite (.selfFence ..) (.refl _)) (.after (.startAbort ..) (.takePkt ..))
        · exact .after (.startAbort ..) (.takePkt ..)
      · exact .after (.setConvoy ..) (.takePkt ..)
      · exact .after (.setConvoy ..) (.takePkt ..)
      · exact .after (.endConvoy ..) (.after (.draw ..) (.after (.draw ..) (.takePkt ..)))
      · exact .after (.startAbort ..) (.takePkt ..)
      · exact .takePkt ..

theorem KeepsOut.segAckTimeout (s : State) (key : ConvoyKey) (port : Fin 13) (skind : Fin 16) (seg step : Nat) : KeepsOut s
    (execSegAckTimeout key port skind seg step s) := by
  unfold execSegAckTimeout
  refine .next ?_
  split
  · exact .ite (.startAbort ..) (.refl _)
  · exact .refl _

/-- The same for a resent segment, with `putCar` a variable. -/
def KeepsResend (f : State → Convoy → Seg → State) : Prop := ∀ s cv g, Keeps s (f s cv g)

theorem keepsResend_resendSeg : KeepsResend State.resendSeg := by
  have hput := keepsPut_putCar
  delta State.resendSeg
  generalize State.putCar = put at hput ⊢
  revert put
  refine id fun put hput s cv g => ?_
  dsimp only
  refine .ite ?_ (.after (.putSeg ..) (.setConvoy ..))
  split
  · split
    · exact .after (.of_fst (hput ..) ‹_›) (.setConvoy ..)
    · exact .after (.cvFail ..) (.after (.of_fst (hput ..) ‹_›) (.setConvoy ..))
  · exact .setConvoy ..

theorem Keeps.resendSeg (s : State) (cv : Convoy) (g : Seg) : Keeps s (s.resendSeg cv g) := keepsResend_resendSeg ..

theorem KeepsOut.notReadyResend (s : State) (key : ConvoyKey) (port : Fin 13) (skind : Fin 16) (seg step : Nat) : KeepsOut s
    (execNotReadyResend key port skind seg step s) := by
  unfold execNotReadyResend
  refine .orWait ?_
  split
  · exact .ite (.resendSeg ..) (.refl _)
  · exact .refl _

theorem KeepsOut.segAheadResend (s : State) (key : ConvoyKey) (port : Fin 13) (skind : Fin 16) (seg step : Nat) : KeepsOut s
    (execSegAheadResend key port skind seg step s) := by
  unfold execSegAheadResend
  refine .orWait ?_
  split
  · exact .ite (.startAbort ..) (.ite (.resendSeg ..) (.refl _))
  · exact .refl _

theorem Keeps.abortComplete (s : State) (cv : Convoy) (msg : AbortMsg) (source : Option (BitVec 15)) : Keeps s (s.abortComplete
    cv msg source) := by
  unfold State.abortComplete
  dsimp only
  exact .after (.logConvoy ..) (.after (.ite (.flood ..) (.refl _)) (.setConvoy ..))

theorem Keeps.abortUnknown (s : State) (msg : AbortMsg) (die : Nat) : Keeps s (s.abortUnknown msg die).1 := by
  unfold State.abortUnknown
  dsimp only
  split
  · dsimp only
    exact .after (.logConvoy ..) .upd
  · split
    · dsimp only
      exact .refl _
    · dsimp only
      exact .after (.log ..) .upd

theorem KeepsOut.abortReceive (s : State) (port : Fin 13) (msg : AbortFrom) : KeepsOut s (execAbortReceive port msg s) := by
  unfold execAbortReceive
  dsimp only
  refine .next ?_
  split
  · split
    · exact .after (.sendCtrl ..) (.after (.endConvoy ..) (.after .upd (.takePay ..)))
    · exact .after (.sendCtrl ..) (.after (.abortComplete ..) (.after .upd (.takePay ..)))
    · exact .after (.sendCtrl ..) (.after (.logConvoy ..) (.after .upd (.takePay ..)))
  · exact .after (.sendCtrl ..) (.after (.abortUnknown ..) (.after .upd (.takePay ..)))

theorem KeepsOut.abortResend (s : State) (key : ConvoyKey) (port : Fin 13) : KeepsOut s (execAbortResend key port s) := by
  unfold execAbortResend
  dsimp only
  refine .next ?_
  split
  · exact .refl _
  · split
    · exact .ite (.after (.sendCtrl ..) (.setConvoy ..)) (.refl _)
    · exact .refl _

theorem KeepsOut.abortAckReceive (s : State) (_port : Fin 13) (key : AckFrom) : KeepsOut s (execAbortAckReceive _port key s) :=
    by
  unfold execAbortAckReceive
  exact .next (.setConvoy ..)

theorem KeepsOut.convoyEntryFree (s : State) (key : ConvoyKey) : KeepsOut s (execConvoyEntryFree key s) := by
  unfold execConvoyEntryFree
  dsimp only
  refine .next ?_
  split
  · exact .refl _
  · exact .ite .upd (.refl _)

theorem Keeps.convoysDown (s : State) (p : Nat) : Keeps s (s.convoysDown p) := by
  unfold State.convoysDown
  exact .foldl _ (fun _ _ => .startAbort ..) _

theorem Keeps.epochConvoys (s : State) (slice : BitVec 12) : Keeps s (s.epochConvoys slice) := by
  unfold State.epochConvoys
  dsimp only
  refine .after .upd (.foldl _ (fun u cv => .ite (.refl _) (.after (.logConvoy ..) ?_)) _)
  split
  · exact .setStarted ..
  · exact .refl _

theorem Keeps.cvCommit (s : State) (x : Started) : Keeps s (s.cvCommit x) := by
  unfold State.cvCommit
  split
  · exact .setConvoy ..
  · exact .refl _

end Sys2Proof.Machine
end

