-- ==== Sys2Proof/Proofs/KeepsDescriptors.lean ====
section
/-! PROOFS. The same for the stash, the data engines' descriptors and the hoard. -/

-- One theorem after the other: threads that wait for one another would each take a stack of the check's memory.
set_option Elab.async false

namespace Sys2Proof.Machine

/-! ### The stash (`Machine/Stash`) -/

theorem Keeps.setStash (s : State) (c : Nat) (f : Stash → Stash) : Keeps s (s.setStash c f) := by
  unfold State.setStash
  exact .setCtx ..

theorem KeepsOut.stashPassStart (s : State) (ctx : Fin 256) (value : BitVec 32) : KeepsOut s (execStashPassStart ctx value s) :=
    by
  unfold execStashPassStart
  exact .next (.ite (.setStash ..) (.refl _))

theorem KeepsOut.stashPassOpen (s : State) (ctx : Fin 256) : KeepsOut s (execStashPassOpen ctx s) := by
  unfold execStashPassOpen
  dsimp only
  exact .next (.ite (.setStash ..) (.refl _))

theorem Keeps.armErr (s : State) (c : Nat) : Keeps s (s.armErr c) := by
  unfold State.armErr
  exact .setStash ..

theorem KeepsOut.stashArmWrite (s : State) (ctx : Fin 256) (value : BitVec 32) : KeepsOut s (execStashArmWrite ctx value s) :=
    by
  unfold execStashArmWrite
  dsimp only
  exact .next (.ite (.armErr ..) (.setStash ..))

theorem Keeps.entrySize (s : State) (e : StashEnt) : Keeps s (s.entrySize e).2 := by
  unfold State.entrySize
  dsimp only
  split
  · dsimp only
    exact .refl _
  · dsimp only
    exact .draw ..

theorem Keeps.putEntry (s : State) (c i : Nat) (e : StashEnt) : Keeps s (s.putEntry c i e) := by
  unfold State.putEntry
  dsimp only
  split
  · exact .setStash ..
  · exact .after (.ite (.setMem fun _ h => Mem.wf_write _ _ _ h) (.refl _)) (.setStash ..)

theorem Keeps.armEntry (s : State) (c off : Nat) : Keeps s (s.armEntry c off) := by
  unfold State.armEntry
  dsimp only
  refine .after (.semAdd ..) ?_
  refine .after (.setStash ..) ?_
  refine .ite ?_ ?_
  · exact .after (.ite (.log ..) (.refl _)) (.after (.setStash ..) (.after (.putEntry ..) (.setStash ..)))
  · refine .after (.log ..) ?_
    refine .after (.armErr ..) ?_
    refine .after (.putEntry ..) ?_
    split
    · dsimp only
      exact .refl _
    · exact .entrySize ..

theorem KeepsOut.stashArmEntry (s : State) (ctx : Fin 256) (flips : List LineFlip) : KeepsOut s (execStashArmEntry ctx flips s)
    := by
  unfold execStashArmEntry
  dsimp only
  refine .next ?_
  refine .ite ?_ ?_
  · exact .refl _
  · split
    · exact .refl _
    · exact .ite (.refl _) (.after (.armEntry ..) (.damages ..))

theorem Keeps.retireEntry (s : State) (c i : Nat) : Keeps s (s.retireEntry c i) := by
  unfold State.retireEntry
  dsimp only
  split
  · exact .setStash ..
  · exact .after (.setStash ..) (.ite (.after (.setStash ..) (.putEntry ..)) (.refl _))

theorem KeepsOut.stashRetireWrite (s : State) (ctx : Fin 256) (value : BitVec 32) : KeepsOut s (execStashRetireWrite ctx value
    s) := by
  unfold execStashRetireWrite
  dsimp only
  exact .next (.ite (.armErr ..) (.after (.setStash ..) (.foldl _ (fun _ _ => .retireEntry ..) _)))

theorem Keeps.noteConverted (s old : State) (off n : Nat) : Keeps s (s.noteConverted old off n) := by
  unfold State.noteConverted
  dsimp only
  split
  · exact .refl _
  · exact .after (.noteHusks ..) (.draw ..)

/-- Each write of a stash copy goes on with its husks noted, or fails the descriptor. -/
theorem Keeps.copyRow (s : State) (c q : Nat) (x : Started) (j i : Nat) (e : StashEnt) (r lo hi : Nat) : Keeps s (s.copyRow c q
    x j i e r lo hi) := by
  have hw : ∀ (s : State) (a : Nat) (b : HBytes), Keeps s (match s.engWrite c q x j a b with
      | (t, none) => t.noteConverted s ((s.localOff a).getD 0) b.length
      | (t, some f) => t.failDesc c q x.index f) := by
    intro s a b
    split
    · exact .after (.noteConverted ..) (.of_fst (.engWrite ..) ‹_›)
    · exact .after (.failDesc ..) (.of_fst (.engWrite ..) ‹_›)
  have hset : ∀ (u : State) (p : Bool) f g, Keeps u (if p then (u.setStash c f).setStarted c q x.index g else u.setStash c f) :=
    fun _ _ _ _ => .ite (.after (.setStarted ..) (.setStash ..)) (.setStash ..)
  unfold State.copyRow
  dsimp only
  refine .after (hset ..) (.after (.ite (hw ..) (.refl _)) (hw ..))

theorem Keeps.stashCopy (s : State) (c q : Nat) (x : Started) (j i : Nat) (p : Span) (g : Rect) : Keeps s (s.stashCopy c q x j i
    p g) := by
  unfold State.stashCopy
  dsimp only
  split
  · exact .refl _
  · refine .ite ?_ ?_
    · exact .refl _
    · split
      · exact .after (.putEntry ..) (.foldl _ (fun _ _ => .foldl _ (fun _ _ => .copyRow ..) _) _)
      · exact .foldl _ (fun _ _ => .foldl _ (fun _ _ => .copyRow ..) _) _

theorem Keeps.stashCopies (s : State) (c q : Nat) (x : Started) (j : Nat) (g : Rect) : Keeps s (s.stashCopies c q x j g) := by
  unfold State.stashCopies
  split
  · exact .refl _
  · exact .ite (.foldl _ (fun _ _ => .stashCopy ..) _) (.refl _)

theorem Keeps.tileCopy (s : State) (c q : Nat) (t : TileJob) (g : Nat) : Keeps s (s.tileCopy c q t g) := by
  unfold State.tileCopy
  dsimp only
  split
  · exact .refl _
  · exact .ite (.refl _) (.stashCopies ..)

theorem KeepsOut.checkerVerdict (s : State) (ctx : Fin 256) (q : Fin 64) (index : BitVec 32) (tile : Nat) (err : List WordFlip)
    (flips : List LineFlip) : KeepsOut s (execCheckerVerdict ctx q index tile err flips s) := by
  unfold execCheckerVerdict
  refine .orWait ?_
  split
  · exact .refl _
  · split
    · exact .refl _
    · exact .ite (.refl _) (.after (.tileCopy ..) (.ite (.finishTile ..) (.after (.checkerVerdict ..) (.damages ..))))

theorem KeepsOut.arbiterVerdict (s : State) (ctx : Fin 256) (q : Fin 64) (index : BitVec 32) (tile : Nat) (err : List WordFlip)
    (flips : List LineFlip) : KeepsOut s (execArbiterVerdict ctx q index tile err flips s) := by
  unfold execArbiterVerdict
  refine .orWait ?_
  split
  · exact .refl _
  · split
    · exact .refl _
    · exact .ite (.refl _) (.after (.tileCopy ..) (.ite (.finishTile ..) (.after (.arbiterVerdict ..) (.damages ..))))

/-! ### Checks of descriptors (`Machine/DescChecks`) -/

theorem Keeps.fetchRemote (s : State) (c q j : Nat) (ix : Word) (ranges : List (Nat × Nat)) : Keeps s (s.fetchRemote c q j ix
    ranges) := by
  unfold State.fetchRemote
  dsimp only
  refine .foldl _ (fun s a => ?_) _
  split
  · exact .refl _
  · split
    · exact .failDesc ..
    · exact .failDesc ..
    · exact .refl _
    · exact .ite (.refl _) (.ite (.failDesc ..) (.descReq ..))

/-! ### Descriptors of the data engines (`Machine/Descriptor`) -/

theorem KeepsOut.qTailDoorbell (s : State) (ctx : Fin 256) (q : Fin 64) (value : BitVec 32) : KeepsOut s (execQTailDoorbell ctx
    q value s) := by
  unfold execQTailDoorbell
  dsimp only
  exact .next (.setQueue ..)

theorem KeepsOut.qCtrlResume (s : State) (ctx : Fin 256) (q : Fin 64) (value : BitVec 32) : KeepsOut s (execQCtrlResume ctx q
    value s) := by
  unfold execQCtrlResume
  exact .next (.setQueue ..)

theorem KeepsOut.deSemValueWrite (s : State) (sem : Fin 16384) (value : BitVec 32) : KeepsOut s (execDeSemValueWrite sem value
    s) := by
  unfold execDeSemValueWrite
  exact .next (.ite (.fail ..) (.setSem ..))

theorem KeepsOut.deSemAddWrite (s : State) (sem : Fin 16384) (amount : BitVec 32) : KeepsOut s (execDeSemAddWrite sem amount s)
    := by
  unfold execDeSemAddWrite
  exact .next (.ite (.fail ..) (.setSem ..))

theorem Keeps.rowBytesOf {s t : State} {c j : Nat} {x : Started} {f : RowForm} {r : Nat} {b : HBytes}
    (h : s.rowBytesOf c j x f r = .ok (b, t)) : Keeps s t := by
  unfold State.rowBytesOf at h
  dsimp only at h
  split at h
  · cases h
    exact .refl _
  split at h
  · cases h
  split at h
  · split at h
    · cases h
      exact .draw ..
    · cases h
      exact .refl _
  · cases h
    exact .refl _

theorem Keeps.deRow (s : State) (c q j : Nat) (x : Started) (f : RowForm) (r : Nat) : Keeps s (s.deRow c q j x f r) := by
  unfold State.deRow
  dsimp only
  refine .ite (.refl _) ?_
  split
  · refine .foldl _ (fun u p => .ite (.refl _) ?_) _
    split
    · exact .failDesc ..
    · exact .after (.countEv ..) (.after (.descReq ..) (.noteRemote ..))
  split
  · exact .failDesc ..
  next b u hb =>
  refine .after ?_ (.rowBytesOf hb)
  split
  · exact .after (.failDesc ..) (.after (.countEv ..) (.after (.countEv ..) (.engCopy ..)))
  · exact .after (.countEv ..) (.after (.countEv ..) (.engCopy ..))

theorem Keeps.deFill (s : State) (c q j : Nat) (x : Started) : Keeps s (s.deFill c q j x) := by
  unfold State.deFill
  dsimp only
  refine .foldl _ (fun s a => ?_) _
  refine .ite ?_ ?_
  · exact .refl _
  · split
    · exact .after (.failDesc ..) (.after (.countEv ..) (.engWrite ..))
    · exact .after (.countEv ..) (.engWrite ..)

theorem Keeps.deAtomic (s : State) (c q j : Nat) (x : Started) : Keeps s (s.deAtomic c q j x) := by
  unfold State.deAtomic
  extract_lets t op a64 u v
  have hu : Keeps s u := .ite (.refl _) (.noteRemote ..)
  refine .after (.ite ?_ (.descReq ..)) hu
  split
  · exact .failDesc ..
  · exact .failDesc ..
  · exact .failDesc ..
  · exact .ite (.failDesc ..) (.after (.setStarted ..) (.after (.noteWrite ..) (.atomicAt ..)))

theorem Keeps.deSem (s : State) (c q : Nat) (x : Started) : Keeps s (s.deSem c q x) := by
  unfold State.deSem
  dsimp only
  exact .ite (.ite (.semAdd ..) (.failDesc ..)) (.descReq ..)

theorem Keeps.doWork (s : State) (c q j : Nat) (x : Started) : Keeps s (s.doWork c q j x) := by
  unfold State.doWork
  dsimp only
  refine .after (.setStarted ..) ?_
  split
  · exact .refl _
  · exact .refl _
  · exact .refl _
  · exact .deFill ..
  · exact .deAtomic ..
  · exact .deSem ..
  · exact .refl _
  · exact .refl _
  · exact .ite (.veWork ..) (.foldl _ (fun _ _ => .deRow ..) _)

theorem Keeps.claimStart (s : State) (c q j : Nat) (ix : Word) : Keeps s (s.claimStart c q j ix) := by
  unfold State.claimStart
  dsimp only
  split
  · exact .refl _
  · refine .ite ?_ ?_
    · exact .refl _
    · refine .after (.tagStart ..) ?_
      refine .after (.setStarted ..) ?_
      split
      · dsimp only
        exact .refl _
      · dsimp only
        exact .upd

theorem Keeps.maskReady (s : State) (c q j : Nat) (ix : Word) (m : Option (Bool × List (List Bool))) : Keeps s (s.maskReady c q
    j ix m) := by
  unfold State.maskReady
  dsimp only
  split
  · exact .setStarted ..
  · exact .after (.fetchRemote ..) (.after (.setStarted ..) (.setStarted ..))

theorem Keeps.takeMask (s : State) (c q j : Nat) (ix : Word) : Keeps s (s.takeMask c q j ix) := by
  unfold State.takeMask
  dsimp only
  split
  · exact .refl _
  · refine .ite ?_ ?_
    · exact .maskReady ..
    · refine .ite ?_ ?_
      · exact .after (.ite (.claimStart ..) (.refl _)) (.after (.fetchRemote ..) (.setStarted ..))
      · split
        · refine .ite ?_ ?_
          · exact .setStarted ..
          · refine .ite ?_ ?_
            · exact .after (.fetchRemote ..) (.after (.setStarted ..) (.claimStart ..))
            · split
              · exact .after (.dropTiles ..) (.claimStart ..)
              · exact .after (.maskReady ..) (.claimStart ..)
        · exact .after (.dropTiles ..) (.claimStart ..)
        · exact .after (.dropTiles ..) (.claimStart ..)

theorem Keeps.descSettled (s : State) (c q : Nat) (ix : Word) : Keeps s (s.descSettled c q ix) := by
  unfold State.descSettled
  split
  · exact .ite (.cvSettled ..) (.ite (.refl _) (.ite (.takeMask ..) (.ite (.setStarted ..) (.ite (.takeMask ..) (.ite (.doWork
        ..) (.refl _))))))
  · exact .refl _

theorem Keeps.pushStarted (s : State) (c q : Nat) (x : Started) : Keeps s (s.pushStarted c q x) := by
  unfold State.pushStarted
  dsimp only
  exact .after .upd (.setQueue ..)

theorem Keeps.endUnstarted (s : State) (c q j : Nat) (ix : Word) (d : List Nat) (f : Fail) (tagged : Bool) : Keeps s
    (s.endUnstarted c q j ix d f tagged) := by
  unfold State.endUnstarted
  dsimp only
  split
  · exact .after (.ite (.commit ..) (.refl _)) (.after (.ite (.abortUnstarted ..) (.refl _)) (.after (.ite (.tagStart ..) (.refl
        _)) (.pushStarted ..)))
  · exact .after (.ite (.abortUnstarted ..) (.refl _)) (.after (.ite (.tagStart ..) (.refl _)) (.pushStarted ..))

theorem Keeps.startDesc (s : State) (c q j : Nat) (ix : Word) (d : List Nat) : Keeps s (s.startDesc c q j ix d) := by
  unfold State.startDesc
  dsimp only
  split
  · exact .endUnstarted ..
  · refine .ite ?_ ?_
    · exact .endUnstarted ..
    · refine .ite ?_ ?_
      · exact .after (.takeMask ..) (.pushStarted ..)
      · refine .ite ?_ ?_
        · exact .after (.takeMask ..) (.after (.claimStart ..) (.pushStarted ..))
        · refine .ite ?_ ?_
          · exact .after (.startConvoy ..) (.after (.claimStart ..) (.pushStarted ..))
          · split
            · refine .ite ?_ ?_
              · refine .after (.doWork ..) ?_
                split
                · exact .after (.ite (.foldl _ (fun _ _ => .descReq ..) _) (.refl _)) (.after (.claimStart ..) (.pushStarted
                      ..))
                · exact .after (.fetchRemote ..) (.after (.claimStart ..) (.pushStarted ..))
              · split
                · exact .after (.ite (.foldl _ (fun _ _ => .descReq ..) _) (.refl _)) (.after (.claimStart ..) (.pushStarted
                      ..))
                · exact .after (.fetchRemote ..) (.after (.claimStart ..) (.pushStarted ..))
            · split
              · exact .after (.ite (.foldl _ (fun _ _ => .descReq ..) _) (.refl _)) (.after (.claimStart ..) (.pushStarted ..))
              · exact .after (.fetchRemote ..) (.after (.claimStart ..) (.pushStarted ..))

theorem Keeps.notePeek (s : State) (j : Nat) (e : Nat × Queue) : Keeps s (s.notePeek j e) := by
  unfold State.notePeek
  dsimp only
  split
  · exact .setQueue ..
  · exact .ite (.refl _) (.after (.ite (.after (.log ..) .upd) .upd) (.setQueue ..))
  · exact .refl _

theorem KeepsOut.descriptorFetch (s : State) (eng : Fin 112) (flips : List LineFlip) : KeepsOut s (execDescriptorFetch eng flips
    s) := by
  unfold execDescriptorFetch
  dsimp only
  refine .orWait ?_
  refine .ite ?_ ?_
  · exact .refl _
  · split
    · exact .after (.foldl _ (fun _ _ => .notePeek ..) _) (.after (.engTouch ..) (.damages ..))
    · split
      · exact .after (.endUnstarted ..) (.after (.setEng ..) (.after (.foldl _ (fun _ _ => .notePeek ..) _) (.after (.engTouch
            ..) (.damages ..))))
      · exact .after (.startDesc ..) (.after (.setEng ..) (.after (.foldl _ (fun _ _ => .notePeek ..) _) (.after (.engTouch ..)
            (.damages ..))))
      · exact .after (.setEng ..) (.after (.foldl _ (fun _ _ => .notePeek ..) _) (.after (.engTouch ..) (.damages ..)))

theorem Keeps.unordDone (s : State) (c q j : Nat) (x : Started) : Keeps s (s.unordDone c q j x) := by
  unfold State.unordDone
  dsimp only
  split
  · exact .after (.ite (.after (.setEng ..) .upd) (.after (.log ..) .upd)) (.foldl _ (fun _ _ => .orTileFlags ..) _)
  · exact .refl _

theorem Keeps.initFlags (s : State) (j : Nat) (x : Started) : Keeps s (s.initFlags j x) := by
  unfold State.initFlags
  dsimp only
  exact .ite (.foldl _ (fun _ _ => .clearTileFlags ..) _) (.refl _)

theorem Keeps.veCopies (s : State) (c q j : Nat) (x : Started) : Keeps s (s.veCopies c q j x) := by
  unfold State.veCopies
  exact .ite (.stashCopies ..) (.refl _)

theorem KeepsOut.descriptorComplete (s : State) (ctx : Fin 256) (q : Fin 64) (flips : List LineFlip) : KeepsOut s
    (execDescriptorComplete ctx q flips s) := by
  unfold execDescriptorComplete
  dsimp only
  refine .orWait ?_
  split
  · exact .refl _
  · split
    · exact .refl _
    · refine .ite ?_ ?_
      · exact .refl _
      · split
        · exact .after (.ite (.refl _) (.doWork ..)) (.after (.initFlags ..) (.after (.engTouch ..) (.damages ..)))
        · refine .ite ?_ ?_
          · exact .after (.ite (.refl _) (.doWork ..)) (.after (.initFlags ..) (.after (.engTouch ..) (.damages ..)))
          · split
            · exact .after (.veCopies ..) (.after (.ite (.refl _) (.doWork ..)) (.after (.initFlags ..) (.after (.engTouch ..)
                  (.damages ..))))
            · exact .after (.ite (.refl _) (.after (.cvCommit ..) (.after (.commit ..) (.unordDone ..)))) (.after (.veCopies ..)
                  (.after (.ite (.refl _) (.doWork ..)) (.after (.initFlags ..) (.after (.engTouch ..) (.damages ..)))))

/-! ### The hoard (`Machine/Hoard`) -/

theorem Keeps.snapIssue (s : State) (c stage : Nat) (l : List FReq) : Keeps s (s.snapIssue c stage l) := by
  unfold State.snapIssue
  exact .after (.issueAll ..) (.setSnap ..)

theorem Keeps.endSnap (s : State) (x : Snapshot) : Keeps s (s.endSnap x) := by
  unfold State.endSnap
  dsimp only
  split
  · refine .after (.finish ..) ?_
    refine .after (.logFw ..) ?_
    split
    · exact .after (.semAdd ..) (.after (.setCtx ..) .upd)
    · exact .after (.setCtx ..) .upd
  · refine .after (.logFw ..) ?_
    split
    · exact .after (.semAdd ..) (.after (.setCtx ..) .upd)
    · exact .after (.setCtx ..) .upd

theorem Keeps.copyFails (s : State) (x : Snapshot) (reason : Nat) : Keeps s (s.copyFails x reason).2 := by
  unfold State.copyFails
  dsimp only
  exact .after (.logFw ..) (.setSnap ..)

theorem Keeps.beginCopy (s : State) (x : Snapshot) (k : Nat) : Keeps s (s.beginCopy x k) := by
  unfold State.beginCopy
  dsimp only
  split
  · exact .endSnap ..
  · exact .ite (.endSnap ..) (.after (.snapIssue ..) (.setSnap ..))

theorem KeepsOpt.snapStep (s : State) (c : Nat) : KeepsOpt s (s.snapStep c) := by
  unfold State.snapStep
  dsimp only
  split
  · exact .none
  · refine .ite ?_ ?_
    · exact .none
    · refine .ite ?_ ?_
      · exact .ite (.some (.endSnap ..)) .none
      · refine .ite ?_ ?_
        · exact .none
        · refine .ite ?_ ?_
          · exact .some (.after (.endSnap ..) (.copyFails ..))
          · refine .ite ?_ ?_
            · exact .some (.after (.endSnap ..) (.copyFails ..))
            · refine .ite ?_ ?_
              · exact .some (.after (.beginCopy ..) (.copyFails ..))
              · split
                · exact .some (.endSnap ..)
                · exact .ite (.some (.after (.beginCopy ..) (.copyFails ..))) (.some (.snapIssue ..))
                · exact .some (.snapIssue ..)
                · exact .none

theorem Keeps.snapGo (s : State) (c n : Nat) : Keeps s (s.snapGo c n) := by
  induction n generalizing s with
  | zero => exact .refl _
  | succ n ih =>
    unfold State.snapGo
    split
    · exact .refl _
    · exact .after (ih _) (.of_some (.snapStep ..) ‹_›)

theorem Keeps.fillMeta (s : State) (x : Fill) (i : Nat) : Keeps s (s.fillMeta x i) := by
  unfold State.fillMeta
  dsimp only
  exact .after (.issueAll ..) (.after (.setCtx ..) (.setFill ..))

theorem Keeps.writeKept (s : State) (x : Fill) : Keeps s (s.writeKept x).2 := by
  unfold State.writeKept
  dsimp only
  exact .foldlSnd _ (fun _ _ => .setMem fun _ h => Mem.wf_write _ _ _ h) _

theorem Keeps.stopFill (s : State) (x : Fill) : Keeps s (s.stopFill x) := by
  unfold State.stopFill
  dsimp only
  exact .after (.setCtx ..) (.after (.setFill ..) (.writeKept ..))

theorem Keeps.sourceLost (s : State) (x : Fill) (reason : Nat) : Keeps s (s.sourceLost x reason) := by
  unfold State.sourceLost
  dsimp only
  exact .ite (.setFill ..) (.after (.ite (.fillMeta ..) (.stopFill ..)) (.logFw ..))

theorem KeepsOpt.fillStep (s : State) : KeepsOpt s s.fillStep := by
  unfold State.fillStep
  dsimp only
  split
  · split
    · exact .none
    · exact .ite .none (.some (.after (.ite (.stopFill ..) (.fillMeta ..)) .upd))
  · refine .ite ?_ ?_
    · exact .none
    · refine .ite ?_ ?_
      · exact .some (.stopFill ..)
      · refine .ite ?_ ?_
        · exact .some (.sourceLost ..)
        · refine .ite ?_ ?_
          · split
            · exact .some (.after (.issueAll ..) (.setFill ..))
            · exact .ite (.some (.sourceLost ..)) (.some (.stopFill ..))
          · exact .ite (.some (.fillMeta ..)) (.some (.stopFill ..))

theorem Keeps.fillGo (s : State) (n : Nat) : Keeps s (s.fillGo n) := by
  induction n generalizing s with
  | zero => exact .refl _
  | succ n ih =>
    unfold State.fillGo
    split
    · exact .refl _
    · exact .after (ih _) (.of_some (.fillStep ..) ‹_›)

theorem Keeps.jobSweep (s : State) : Keeps s s.jobSweep := by
  unfold State.jobSweep
  exact .after (.fillGo ..) (.foldl _ (fun _ _ => .snapGo ..) _)

theorem Keeps.startSnap (s : State) (c : Nat) (who : Option Who) (sem : Option Nat) (hold : Bool) (entry : Nat) : Keeps s
    (s.startSnap c who sem hold entry).2 := by
  unfold State.startSnap
  dsimp only
  split
  · split
    · dsimp only
      exact .logFw ..
    · dsimp only
      exact .after (.ite (.setCtx ..) (.refl _)) .upd
  · split
    · split
      · dsimp only
        exact .logFw ..
      · dsimp only
        exact .after (.ite (.setCtx ..) (.refl _)) .upd
    · split
      · split
        · dsimp only
          exact .logFw ..
        · dsimp only
          exact .after (.ite (.setCtx ..) (.refl _)) .upd
      · split
        · split
          · dsimp only
            exact .logFw ..
          · dsimp only
            exact .after (.ite (.setCtx ..) (.refl _)) .upd
        · split
          · dsimp only
            exact .logFw ..
          · dsimp only
            exact .after (.ite (.setCtx ..) (.refl _)) .upd

theorem KeepsOut.hoardReadPoint (s : State) (ctx : Fin 256) : KeepsOut s (execHoardReadPoint ctx s) := by
  unfold execHoardReadPoint
  dsimp only
  refine .next ?_
  split
  · exact .ite (.refl _) (.after (.ite (.after (.endSnap ..) (.foldlSnd _ (fun _ _ => .copyFails ..) _)) (.after (.jobSweep ..)
        (.beginCopy ..))) (.setSnap ..))
  · exact .refl _

theorem KeepsOut.hoardCopyCommit (s : State) (ctx : Fin 256) : KeepsOut s (execHoardCopyCommit ctx s) := by
  unfold execHoardCopyCommit
  refine .next ?_
  split
  · exact .ite (.after (.jobSweep ..) (.beginCopy ..)) (.refl _)
  · exact .refl _

theorem KeepsOut.spareFillDone (s : State) (ctx : Fin 256) : KeepsOut s (execSpareFillDone ctx s) := by
  unfold execSpareFillDone
  dsimp only
  refine .next ?_
  split
  · exact .refl _
  · refine .ite ?_ ?_
    · exact .refl _
    · refine .after (.jobSweep ..) ?_
      split
      · exact .after (.ite (.finish ..) (.finish ..)) (.after (.ite (.refl _) (.ite (.logFw ..) (.logFw ..))) (.after .upd
            (.after (.setCtx ..) .upd)))
      · exact .after (.ite (.refl _) (.ite (.logFw ..) (.logFw ..))) (.after .upd (.after (.setCtx ..) .upd))

theorem Keeps.dropJobReqs (s : State) : Keeps s s.dropJobReqs := by
  unfold State.dropJobReqs
  dsimp only
  exact .upd

theorem Keeps.resumeJobs (s : State) : Keeps s s.resumeJobs := by
  unfold State.resumeJobs
  dsimp only
  refine .after (.jobSweep ..) ?_
  split
  · exact .after (.ite (.refl _) (.ite (.setFill ..) (.fillMeta ..))) (.after (.foldl _ (fun _ _ => .ite (.refl _) (.ite
        (.setSnap ..) (.beginCopy ..))) _) (.dropJobReqs ..))
  · exact .after (.foldl _ (fun _ _ => .ite (.refl _) (.ite (.setSnap ..) (.beginCopy ..))) _) (.dropJobReqs ..)

theorem Keeps.snapsOff (s : State) (die : Nat) : Keeps s (s.snapsOff die) := by
  unfold State.snapsOff
  dsimp only
  exact .after (.jobSweep ..) .upd

end Sys2Proof.Machine
end

