-- ==== Sys2Proof/Proofs/KeepsLinks.lean ====
section
/-! PROOFS. The same for links, the fabric's commands, jobs, the cellar and the ring. -/

-- One theorem after the other: threads that wait for one another would each take a stack of the check's memory.
set_option Elab.async false

namespace Sys2Proof.Machine

/-! ### Links (`Machine/Link`) -/

theorem Keeps.train (s : State) (p : Nat) : Keeps s (s.train p) := by
  unfold State.train
  exact .ite (.setPort ..) (.refl _)

theorem Keeps.trainAll (s : State) : Keeps s s.trainAll := by
  unfold State.trainAll
  exact .foldl _ (fun _ _ => .train ..) _

theorem Keeps.pushTsq (s : State) (g : Nat) (e : TsqEntry) : Keeps s (s.pushTsq g e) := by
  unfold State.pushTsq
  dsimp only
  exact .upd

theorem Keeps.endRun (s : State) (g : Nat) : Keeps s (s.endRun g) := by
  unfold State.endRun
  dsimp only
  split
  · exact .after (.logFw ..) .upd
  · exact .refl _

theorem Keeps.stampPkt (s : State) (p : Nat) (k : Packet) (dropped : Bool) : Keeps s (s.stampPkt p k dropped) := by
  unfold State.stampPkt
  exact .ite (.pushTsq ..) (.refl _)

theorem Keeps.linkDown (s : State) (p cause : Nat) : Keeps s (s.linkDown p cause) := by
  unfold State.linkDown
  dsimp only
  exact .ite (.refl _) (.after (.convoysDown ..) (.after (.log ..) (.after (.setPort ..) (.foldl _ (fun _ _ => .stampPkt ..)
      _))))

theorem Keeps.applySpare (s : State) : Keeps s s.applySpare := by
  unfold State.applySpare
  dsimp only
  exact .after (.ite (.after (.finishAll ..) .upd) .upd) (.after (.foldl _ (fun _ _ => .train ..) _) (.after .upd (.foldl _ (fun
      _ _ => .linkDown ..) _)))

theorem Keeps.portSettled (s : State) (p : Nat) : Keeps s (s.portSettled p) := by
  unfold State.portSettled
  dsimp only
  exact .after (.ite (.ite .upd (.ite (.after (.applySpare ..) .upd) (.after (.finishAll ..) .upd))) (.refl _)) (.after
      (.finishAll ..) (.setPort ..))

theorem Keeps.startRetrain (s : State) (p cause : Nat) : Keeps s (s.startRetrain p cause) := by
  unfold State.startRetrain
  dsimp only
  exact .ite (.setPort ..) (.refl _)

theorem Keeps.attemptFails (s : State) (p : Nat) : Keeps s (s.attemptFails p) := by
  unfold State.attemptFails
  dsimp only
  exact .after (.ite (.after (.portSettled ..) (.linkDown ..)) (.setPort ..)) (.log ..)

theorem KeepsOut.laneLockLoss (s : State) (port : Fin 13) : KeepsOut s (execLaneLockLoss port s) := by
  unfold execLaneLockLoss
  exact .next (.startRetrain ..)

theorem KeepsOut.laneLock (s : State) (port : Fin 13) (failedLanes : BitVec 16) : KeepsOut s (execLaneLock port failedLanes s)
    := by
  unfold execLaneLock
  dsimp only
  exact .next (.ite (.ite (.attemptFails ..) (.setPort ..)) (.ite (.refl _) (.ite (.after (.portSettled ..) (.linkDown ..))
      (.after (.ite (.log ..) (.refl _)) (.setPort ..)))))

theorem Keeps.applyRow (s : State) (p : Nat) (news : Bool) : Keeps s (s.applyRow p news) := by
  unfold State.applyRow
  dsimp only
  split
  · exact .after (.ite (.log ..) (.refl _)) (.setPort ..)
  · exact .after (.ite (.log ..) (.log ..)) (.setPort ..)

theorem Keeps.logRemap (s : State) (p : Nat) : Keeps s (s.logRemap p) := by
  unfold State.logRemap
  dsimp only
  exact .ite (.after (.log ..) (.setPort ..)) (.refl _)

theorem Keeps.logRetrain (s : State) (p : Nat) : Keeps s (s.logRetrain p) := by
  unfold State.logRetrain
  dsimp only
  exact .log ..

theorem KeepsOut.identReceive (s : State) (port : Fin 13) (ident : Ident) : KeepsOut s (execIdentReceive port ident s) := by
  unfold execIdentReceive
  dsimp only
  exact .next (.ite (.refl _) (.after (.ite (.refl _) (.after (.ite (.after (.portSettled ..) (.after (.logRemap ..) (.after
      (.applyRow ..) (.after (.setPort ..) (.after (.linkDown ..) (.logRetrain ..)))))) (.ite (.after (.portSettled ..) (.after
      (.logRemap ..) (.applyRow ..))) (.refl _))) (.setPort ..))) (.setPort ..)))

theorem KeepsOut.identTimeout (s : State) (port : Fin 13) : KeepsOut s (execIdentTimeout port s) := by
  unfold execIdentTimeout
  refine .next ?_
  split
  · exact .ite (.attemptFails ..) (.refl _)
  · exact .refl _

theorem Keeps.replayFrom (s : State) (p : Nat) : Keeps s (s.replayFrom p) := by
  unfold State.replayFrom
  dsimp only
  exact .after (.ite (.startRetrain ..) (.refl _)) (.after (.countEv ..) (.setPort ..))

theorem Keeps.takeAck (s : State) (p : Nat) (ack : BitVec 16) : Keeps s (s.takeAck p ack) := by
  unfold State.takeAck
  dsimp only
  exact .ite (.refl _) (.setPort ..)

theorem KeepsOut.wgRetrain (s : State) (port : Fin 13) (failedLanes resumeFrom : BitVec 16) : KeepsOut s (execWgRetrain port
    failedLanes resumeFrom s) := by
  unfold execWgRetrain
  dsimp only
  exact .next (.ite (.refl _) (.ite (.attemptFails ..) (.after (.portSettled ..) (.after (.logRemap ..) (.after (.setPort ..)
      (.after (.applyRow ..) (.after (.takeAck ..) (.after (.ite (.log ..) (.refl _)) (.after (.setPort ..) (.logRetrain
      ..))))))))))

theorem KeepsOut.replayTimeout (s : State) (port : Fin 13) : KeepsOut s (execReplayTimeout port s) := by
  unfold execReplayTimeout
  dsimp only
  exact .next (.ite (.replayFrom ..) (.refl _))

theorem Keeps.putFlit (s : State) (p ftype vc fseq startOff : Nat) (payload : List Byte) : Keeps s (s.putFlit p ftype vc fseq
    startOff payload) := by
  unfold State.putFlit
  dsimp only
  exact .setPort ..

theorem Keeps.sendData (s : State) (p : Nat) (f : Flit) : Keeps s (s.sendData p f) := by
  unfold State.sendData
  exact .after (.setWg ..) (.putFlit ..)

theorem Keeps.pktLeaves (s : State) (p : Nat) (k : Packet) : Keeps s (s.pktLeaves p k) := by
  unfold State.pktLeaves
  dsimp only
  exact .after (.stampPkt ..) (.ite .upd (.refl _))

theorem KeepsOut.flitTransmit (s : State) (port : Fin 13) : KeepsOut s (execFlitTransmit port s) := by
  unfold execFlitTransmit
  dsimp only
  refine .next ?_
  refine .ite ?_ ?_
  · exact .refl _
  · refine .ite ?_ ?_
    · exact .ite (.putFlit ..) (.putFlit ..)
    · refine .ite ?_ ?_
      · exact .after (.putFlit ..) (.setPort ..)
      · split
        · split
          · exact .after (.sendData ..) (.setPort ..)
          · exact .setPort ..
        · split
          · exact .ite (.putFlit ..) (.refl _)
          · exact .after (.sendData ..) (.after (.countEv ..) (.after (.setPort ..) (.foldl _ (fun _ _ => .pktLeaves ..) _)))

theorem Keeps.gotPkt (s : State) (p : Nat) (b : List Byte) : Keeps s (s.gotPkt p b) := by
  unfold State.gotPkt
  dsimp only
  refine .ite ?_ ?_
  · exact .refl _
  · refine .ite ?_ ?_
    · exact .setPort ..
    · refine .ite ?_ ?_
      · exact .getD (KeepsOpt.emit ..) (.refl _)
      · split
        · exact .setPort ..
        · exact .refl _

theorem Keeps.acceptFlit (s : State) (p vc startOff : Nat) (fseq : BitVec 16) (payload : List Byte) : Keeps s (s.acceptFlit p vc
    startOff fseq payload) := by
  unfold State.acceptFlit
  dsimp only
  exact .after (.foldl _ (fun _ _ => .gotPkt ..) _) (.after (.countEv ..) (.setPort ..))

theorem KeepsOut.flitReceive (s : State) (port : Fin 13) (flit : List (BitVec 8)) : KeepsOut s (execFlitReceive port flit s) :=
    by
  unfold execFlitReceive
  dsimp only
  refine .next ?_
  refine .ite ?_ ?_
  · exact .refl _
  · split
    · exact .after (.ite (.after (.setPort ..) (.setPort ..)) (.after (.ite (.replayFrom ..) (.ite (.acceptFlit ..) (.refl _)))
          (.after (.setPort ..) (.ite (.takeAck ..) (.refl _))))) (.setPort ..)
    · exact .after (.setPort ..) (.setPort ..)

/-! ### The fabric's commands (`Machine/Fabric`) -/

theorem Keeps.reply (s : State) (port : Nat) (k : Packet) (a : Answer) : Keeps s (s.reply port k a) := by
  unfold State.reply
  dsimp only
  exact .ite (.queuePkt ..) (.getD (KeepsOpt.emit ..) (.refl _))

theorem Keeps.reqChecks (s : State) (port : Nat) (k : Packet) : Keeps s (s.reqChecks port k).2 := by
  unfold State.reqChecks
  dsimp only
  split
  · dsimp only
    exact .setWg ..
  · split
    · split
      · dsimp only
        exact .countDrop ..
      · dsimp only
        exact .countDrop ..
    · split
      · dsimp only
        exact .setWg ..
      · split
        · dsimp only
          exact .refl _
        · split
          · dsimp only
            exact .refl _
          · split
            · dsimp only
              exact .refl _
            · split
              · dsimp only
                exact .refl _
              · dsimp only
                exact .refl _

theorem Keeps.performReq (s : State) (k : Packet) : Keeps s (s.performReq k).1 := by
  unfold State.performReq
  dsimp only
  split
  · dsimp only
    exact .lWrite ..
  · dsimp only
    exact .refl _
  · dsimp only
    exact .atomicAt ..
  · dsimp only
    exact .semAdd ..

theorem Keeps.deliverReq (s : State) (port : Nat) (k : Packet) : Keeps s (s.deliverReq port k) := by
  unfold State.deliverReq
  dsimp only
  refine .ite ?_ ?_
  · exact .after (.reply ..) (.after (.ite (.countEv ..) (.refl _)) (.reqChecks ..))
  · refine .after (.reply ..) ?_
    refine .after (.setRx ..) ?_
    split
    · exact .after (.performReq ..) (.after (.ite (.countEv ..) (.refl _)) (.reqChecks ..))
    · dsimp only
      exact .after (.ite (.countEv ..) (.refl _)) (.reqChecks ..)

theorem Keeps.orderReq (s : State) (port : Nat) (k : Packet) : Keeps s (s.orderReq port k) := by
  unfold State.orderReq
  dsimp only
  refine .ite ?_ ?_
  · exact .after (.reply ..) (.after (.ite (.after (.log ..) (.setWg ..)) (.refl _)) (.setWg ..))
  · split
    · exact .reply ..
    · exact .after (.deliverReq ..) (.after (.setWg ..) (.setRx ..))
    · refine .ite ?_ ?_
      · exact .after (.deliverReq ..) (.setRx ..)
      · refine .ite ?_ ?_
        · split
          · exact .after (.ite (.reply ..) (.reply ..)) (.setRx ..)
          · exact .after (.setWg ..) (.setRx ..)
        · exact .after (.ite (.ite (.refl _) (.ite (.after (.reply ..) (.setWg ..)) (.setRx ..))) (.ite (.after (.deliverReq ..)
              (.setRx ..)) (.ite (.setWg ..) (.setWg ..)))) (.setRx ..)

theorem KeepsOut.packetArrive (s : State) (port : Fin 13) (pkt : Packet) (flips : List LineFlip) : KeepsOut s (execPacketArrive
    port pkt flips s) := by
  unfold execPacketArrive
  dsimp only
  refine .next ?_
  refine .ite ?_ ?_
  · exact .takePkt ..
  · split
    · exact .after (.ite (.ite (.reply ..) (.after (.orderReq ..) (.damages ..))) (.reply ..)) (.takePkt ..)
    · refine .ite ?_ ?_
      · exact .after (.reply ..) (.after (.countDrop ..) (.takePkt ..))
      · refine .ite ?_ ?_
        · split
          · exact .after (.of_some (KeepsOpt.emit ..) ‹_›) (.takePkt ..)
          · exact .after (.reply ..) (.takePkt ..)
        · exact .after (.ite (.reply ..) (.after (.orderReq ..) (.damages ..))) (.takePkt ..)

theorem KeepsOut.reorderedRequestDeliver (s : State) (remote : BitVec 15) (cls : Fin 4) (flips : List LineFlip) : KeepsOut s
    (execReorderedRequestDeliver remote cls flips s) := by
  unfold execReorderedRequestDeliver
  dsimp only
  refine .next ?_
  refine .ite ?_ ?_
  · exact .refl _
  · split
    · exact .after (.deliverReq ..) (.after (.damages ..) (.setRx ..))
    · exact .refl _

theorem Keeps.sweepDescs (s : State) : Keeps s s.sweepDescs := by
  unfold State.sweepDescs
  exact .foldl _ (fun _ _ => .descSettled ..) _

theorem Keeps.flowMoves (s : State) (remote cls : Nat) : Keeps s (s.flowMoves remote cls) := by
  unfold State.flowMoves
  dsimp only
  exact .after (.jobSweep ..) (.after (.sweepDescs ..) (.after (.unstall ..) (.after (.pump ..) .upd)))

theorem Keeps.setUna (s : State) (remote cls : Nat) (seq : BitVec 16) (f : FReq → FReq) : Keeps s (s.setUna remote cls seq f) :=
    by
  unfold State.setUna
  exact .setTx ..

theorem Keeps.resendReq (s : State) (remote cls : Nat) (r : FReq) : Keeps s (s.resendReq remote cls r) := by
  unfold State.resendReq
  dsimp only
  split
  · exact .after (.of_some (KeepsOpt.emit ..) ‹_›) (.setUna ..)
  · exact .after (.flowMoves ..) (.after (.failFlow ..) (.setUna ..))

theorem Keeps.resync (s : State) (remote cls : Nat) : Keeps s (s.resync remote cls) := by
  unfold State.resync
  dsimp only
  exact .after (.foldl _ (fun _ _ => .ite (.resendReq ..) (.refl _)) _) (.setTx ..)

theorem KeepsOut.respReceive (s : State) (pkt : Packet) : KeepsOut s (execRespReceive pkt s) := by
  unfold execRespReceive
  dsimp only
  refine .orWait ?_
  refine .ite ?_ ?_
  · exact .foldl _ (fun _ _ => .takePkt ..) _
  · split
    · exact .foldl _ (fun _ _ => .takePkt ..) _
    · split
      · exact .after (.setUna ..) (.foldl _ (fun _ _ => .takePkt ..) _)
      · exact .after (.resendReq ..) (.foldl _ (fun _ _ => .takePkt ..) _)
      · exact .after (.setUna ..) (.foldl _ (fun _ _ => .takePkt ..) _)
      · exact .after (.resync ..) (.foldl _ (fun _ _ => .takePkt ..) _)
      · exact .after (.flowMoves ..) (.after (.failFlow ..) (.foldl _ (fun _ _ => .takePkt ..) _))
      · exact .after (.flowMoves ..) (.after (.failFlow ..) (.foldl _ (fun _ _ => .takePkt ..) _))
      · exact .foldl _ (fun _ _ => .takePkt ..) _
      · exact .foldl _ (fun _ _ => .takePkt ..) _
      · exact .foldl _ (fun _ _ => .takePkt ..) _
      · refine .after (.flowMoves ..) ?_
        refine .after (.settle ..) ?_
        refine .after (.setTx ..) ?_
        split
        · exact .after (.ite (.selfFence ..) (.refl _)) (.foldl _ (fun _ _ => .takePkt ..) _)
        · exact .foldl _ (fun _ _ => .takePkt ..) _

theorem KeepsOut.requestTimeout (s : State) (remote : BitVec 15) (cls : Fin 4) (seq : BitVec 16) : KeepsOut s
    (execRequestTimeout remote cls seq s) := by
  unfold execRequestTimeout
  refine .orWait ?_
  split
  · exact .refl _
  · exact .ite (.refl _) (.ite (.resendReq ..) (.after (.flowMoves ..) (.failFlow ..)))

theorem KeepsOut.busyResend (s : State) (remote : BitVec 15) (cls : Fin 4) (seq : BitVec 16) : KeepsOut s (execBusyResend remote
    cls seq s) := by
  unfold execBusyResend
  refine .orWait ?_
  split
  · exact .refl _
  · exact .ite (.resendReq ..) (.refl _)

theorem KeepsOut.epochAheadResend (s : State) (remote : BitVec 15) (cls : Fin 4) (seq : BitVec 16) : KeepsOut s
    (execEpochAheadResend remote cls seq s) := by
  unfold execEpochAheadResend
  refine .orWait ?_
  split
  · exact .refl _
  · exact .ite (.resendReq ..) (.refl _)

theorem KeepsOut.epochWaitExpiry (s : State) (remote : BitVec 15) (cls : Fin 4) (seq : BitVec 16) : KeepsOut s
    (execEpochWaitExpiry remote cls seq s) := by
  unfold execEpochWaitExpiry
  refine .orWait ?_
  split
  · exact .refl _
  · split
    · exact .refl _
    · exact .ite (.after (.flowMoves ..) (.failFlow ..)) (.refl _)

theorem KeepsOut.peerEntryRelease (s : State) (remote : BitVec 15) (target : Bool) : KeepsOut s (execPeerEntryRelease remote
    target s) := by
  unfold execPeerEntryRelease
  dsimp only
  refine .next ?_
  split
  · exact .refl _
  · exact .ite (.ite (.after (.jobSweep ..) (.after (.sweepDescs ..) (.after (.unstall ..) .upd))) (.refl _)) (.ite (.after
        (.jobSweep ..) (.after (.sweepDescs ..) (.after (.unstall ..) .upd))) (.refl _))

theorem Keeps.flowsOff (s : State) (die : Nat) : Keeps s (s.flowsOff die) := by
  unfold State.flowsOff
  dsimp only
  exact .after (.jobSweep ..) (.after (.sweepDescs ..) (.foldl _ (fun _ _ => .foldl _ (fun _ _ => .failFlow ..) _) _))

/-! ### Jobs and the cellar (`Machine/Job`) -/

theorem Keeps.body_dHoardConfig (s : State) (w : Who) (a : List Nat) : Keeps s (dHoardConfig.body s w a).s := by
  unfold dHoardConfig
  dsimp only
  exact .iteRes (.refl _) (.iteRes (.refl _) (.iteRes (.refl _) (.iteRes (.refl _) (.iteRes (.refl _) (.iteRes (.refl _)
      (.setCtx ..))))))

theorem Keeps.body_dHoardSnapshot (s : State) (w : Who) (a : List Nat) : Keeps s (dHoardSnapshot.body s w a).s := by
  unfold dHoardSnapshot
  dsimp only
  exact .iteRes (.startSnap ..) (.iteRes (.startSnap ..) (.startSnap ..))

theorem Keeps.addFill (s : State) (x : Fill) : Keeps s (s.addFill x) := by
  unfold State.addFill
  dsimp only
  exact .after (.jobSweep ..) (.after (.setCtx ..) .upd)

theorem Keeps.body_dHoardRestore (s : State) (w : Who) (a : List Nat) : Keeps s (dHoardRestore.body s w a).s := by
  unfold dHoardRestore
  dsimp only
  split
  · exact .refl _
  · exact .iteRes (.refl _) (.iteRes (.refl _) (.addFill ..))

theorem Keeps.body_dSpareFill (s : State) (w : Who) (a : List Nat) : Keeps s (dSpareFill.body s w a).s := by
  unfold dSpareFill
  dsimp only
  exact .iteRes (.refl _) (.addFill ..)

theorem Keeps.body_dSeedStreamSet (s : State) (w : Who) (a : List Nat) : Keeps s (dSeedStreamSet.body s w a).s := by
  unfold dSeedStreamSet
  dsimp only
  exact .upd

theorem Keeps.body_dSeedStreamGet (s : State) (w : Who) (a : List Nat) : Keeps s (dSeedStreamGet.body s w a).s := by
  unfold dSeedStreamGet
  dsimp only
  exact .refl _

theorem Keeps.body_dDataCursorSet (s : State) (w : Who) (a : List Nat) : Keeps s (dDataCursorSet.body s w a).s := by
  unfold dDataCursorSet
  dsimp only
  exact .setCtx ..

theorem Keeps.body_dDataCursorGet (s : State) (w : Who) (a : List Nat) : Keeps s (dDataCursorGet.body s w a).s := by
  unfold dDataCursorGet
  dsimp only
  exact .refl _

theorem Keeps.cellarBody (s : State) (write : Bool) (w : Who) (a : List Nat) : Keeps s (cellarBody write s w a).s := by
  unfold Machine.cellarBody
  dsimp only
  refine .iteRes ?_ ?_
  · exact .refl _
  · refine .iteRes ?_ ?_
    · exact .refl _
    · split
      · exact .refl _
      · refine .iteRes ?_ ?_
        · exact .logFw ..
        · split
          · exact .iteRes (.refl _) (.iteRes (.refl _) (.setCellar ..))
          · exact .refl _

theorem Keeps.body_dCellarWrite (s : State) (w : Who) (a : List Nat) : Keeps s (dCellarWrite.body s w a).s := by
  unfold dCellarWrite
  dsimp only
  exact .cellarBody ..

theorem Keeps.body_dCellarRead (s : State) (w : Who) (a : List Nat) : Keeps s (dCellarRead.body s w a).s := by
  unfold dCellarRead
  dsimp only
  exact .cellarBody ..

theorem Keeps.endCellar (s : State) (p : Nat) (j : CellarJob) (outcome blocks husks : Nat) : Keeps s (s.endCellar p j outcome
    blocks husks) := by
  unfold State.endCellar
  exact .after (.finish ..) (.logFw ..)

theorem Mem.wf_putBlocks (l : List (NvmeBlock × Nat)) (a : Nat) {m : Mem} (h : m.wf = true) :
    (l.foldl (fun m b => putBlock m (a + 4096 * b.2) b.1) m).wf = true := by
  induction l generalizing m with
  | nil => exact h
  | cons b r ih => exact ih (Mem.wf_write _ _ _ h)

theorem Keeps.putBlocks (s : State) (l : List (NvmeBlock × Nat)) (a : Nat) :
    Keeps s (s.setMem fun m => l.foldl (fun m b => putBlock m (a + 4096 * b.2) b.1) m) :=
  .setMem fun _ h => Mem.wf_putBlocks l a h

theorem Keeps.noteLostBlock (s : State) (a : Nat) : Keeps s (s.noteLostBlock a) := by
  unfold State.noteLostBlock
  dsimp only
  exact .after (.log ..) (.noteHusks ..)

theorem KeepsOut.cellarDone (s : State) (port : Fin 2) (failed : Option Bool) (blocks : List NvmeBlock) : KeepsOut s
    (execCellarDone port failed blocks s) := by
  unfold execCellarDone
  refine .next ?_
  split
  · exact .refl _
  dsimp only
  refine .ite (.refl _) (.ite (.after (.endCellar ..) (.setCellar ..)) (.ite (.refl _) (.ite ?_ ?_)))
  · exact .after (.endCellar ..) (.after (.setCellar ..) (.setCellar ..))
  · exact .after (.endCellar ..) (.after (.foldl _ (fun _ _ => .noteLostBlock ..) _) (.after (.putBlocks ..) (.setCellar ..)))

theorem Keeps.cellarLost (s : State) (p : Nat) : Keeps s (s.cellarLost p) := by
  unfold State.cellarLost
  dsimp only
  exact .after (.foldl _ (fun _ _ => .endCellar ..) _) (.setCellar ..)

theorem Keeps.cellarRelease (s : State) (c : Nat) : Keeps s (s.cellarRelease c) := by
  unfold State.cellarRelease
  dsimp only
  exact .foldl _ (fun _ _ => .after (.foldl _ (fun _ _ => .endCellar ..) _) (.setCellar ..)) _

theorem KeepsOut.cellarDevice (s : State) (port : Fin 2) (event : Fin 5) (nvmeStatus nsid : BitVec 32) (nss : List (Nat × Nat ×
    Bool)) : KeepsOut s (execCellarDevice port event nvmeStatus nsid nss s) := by
  unfold execCellarDevice
  dsimp only
  refine .next ?_
  refine .ite ?_ ?_
  · exact .refl _
  · split
    · exact .setCellar ..
    · exact .after (.logFw ..) (.after (.setCellar ..) (.cellarLost ..))
    · exact .logFw ..
    · exact .after (.logFw ..) (.after (.setCellar ..) (.cellarLost ..))
    · exact .after (.logFw ..) (.setCellar ..)

theorem KeepsOut.hoardConfig (s : State) (r : DReq) : KeepsOut s (execHoardConfig r s) := by
  unfold execHoardConfig
  exact .next (.runDarid (fun _ _ _ => .body_dHoardConfig ..) ..)

theorem KeepsOut.hoardSnapshot (s : State) (r : DReq) : KeepsOut s (execHoardSnapshot r s) := by
  unfold execHoardSnapshot
  exact .next (.runDarid (fun _ _ _ => .body_dHoardSnapshot ..) ..)

theorem KeepsOut.hoardRestore (s : State) (r : DReq) : KeepsOut s (execHoardRestore r s) := by
  unfold execHoardRestore
  exact .next (.runDarid (fun _ _ _ => .body_dHoardRestore ..) ..)

theorem KeepsOut.spareFill (s : State) (r : DReq) : KeepsOut s (execSpareFill r s) := by
  unfold execSpareFill
  exact .next (.runDarid (fun _ _ _ => .body_dSpareFill ..) ..)

theorem KeepsOut.seedStreamSet (s : State) (r : DReq) : KeepsOut s (execSeedStreamSet r s) := by
  unfold execSeedStreamSet
  exact .next (.runDarid (fun _ _ _ => .body_dSeedStreamSet ..) ..)

theorem KeepsOut.seedStreamGet (s : State) (r : DReq) : KeepsOut s (execSeedStreamGet r s) := by
  unfold execSeedStreamGet
  exact .next (.runDarid (fun _ _ _ => .body_dSeedStreamGet ..) ..)

theorem KeepsOut.dataCursorSet (s : State) (r : DReq) : KeepsOut s (execDataCursorSet r s) := by
  unfold execDataCursorSet
  exact .next (.runDarid (fun _ _ _ => .body_dDataCursorSet ..) ..)

theorem KeepsOut.dataCursorGet (s : State) (r : DReq) : KeepsOut s (execDataCursorGet r s) := by
  unfold execDataCursorGet
  exact .next (.runDarid (fun _ _ _ => .body_dDataCursorGet ..) ..)

theorem KeepsOut.cellarWrite (s : State) (r : DReq) : KeepsOut s (execCellarWrite r s) := by
  unfold execCellarWrite
  exact .next (.runDarid (fun _ _ _ => .body_dCellarWrite ..) ..)

theorem KeepsOut.cellarRead (s : State) (r : DReq) : KeepsOut s (execCellarRead r s) := by
  unfold execCellarRead
  exact .next (.runDarid (fun _ _ _ => .body_dCellarRead ..) ..)

/-! ### The ring (`Machine/Ring`) -/

theorem Keeps.pathCheck (s : State) : Keeps s s.pathCheck := by
  unfold State.pathCheck
  dsimp only
  exact .upd

theorem KeepsOut.ringEdgeDown (s : State) (edge : Fin 4) : KeepsOut s (execRingEdgeDown edge s) := by
  unfold execRingEdgeDown
  dsimp only
  exact .next (.after (.pathCheck ..) .upd)

theorem KeepsOut.ringEdgeUp (s : State) (edge : Fin 4) : KeepsOut s (execRingEdgeUp edge s) := by
  unfold execRingEdgeUp
  dsimp only
  exact .next (.after (.pathCheck ..) .upd)

end Sys2Proof.Machine
end

