-- ==== Sys2Proof/Proofs/KeepsResets.lean ====
section
/-! PROOFS. The same for resets, silent corruption and memory upkeep. -/

-- One theorem after the other: threads that wait for one another would each take a stack of the check's memory.
set_option Elab.async false

namespace Sys2Proof.Machine

/-! ### Resets (`Machine/Resets`) -/

theorem Keeps.abandon (s : State) (c q : Nat) (ix : Word) : Keeps s (s.abandon c q ix) := by
  unfold State.abandon
  dsimp only
  split
  · exact .refl _
  · exact .upd

theorem Keeps.haltDesc (s : State) (c q : Nat) (x : Started) (cause : Nat) (own : Option Fail) : Keeps s (s.haltDesc c q x cause
    own) := by
  unfold State.haltDesc
  dsimp only
  split
  · exact .refl _
  · refine .after .upd ?_
    refine .after (.abandon ..) ?_
    refine .ite ?_ ?_
    · refine .after (.undefine ..) ?_
      split
      · exact .startAbort ..
      · exact .undefine ..
    · split
      · exact .startAbort ..
      · exact .undefine ..

theorem Keeps.removeDesc (s : State) (c q : Nat) (x : Started) : Keeps s (s.removeDesc c q x) := by
  unfold State.removeDesc
  dsimp only
  exact .after (.ite (.setTag ..) (.refl _)) (.setQueue ..)

theorem Keeps.closeTags (s : State) (c cause : Nat) : Keeps s (s.closeTags c cause) := by
  unfold State.closeTags
  dsimp only
  exact .upd

theorem Keeps.startCtxReset (s : State) (c cause : Nat) (who : List Who) : Keeps s (s.startCtxReset c cause who) := by
  unfold State.startCtxReset
  dsimp only
  exact .ite (.setCtx ..) (.after (.jobSweep ..) (.after (.closeTags ..) (.after (.foldl _ (fun _ _ => .reapQueue ..) _) (.after
      (.foldl _ (fun _ _ => .after (.removeDesc ..) (.haltDesc ..)) _) (.after (.mapQueues ..) (.setCtx ..))))))

theorem Keeps.dropRuns (s : State) (js : List Nat) : Keeps s (s.dropRuns js) := by
  unfold State.dropRuns
  dsimp only
  exact .after (.foldl _ (fun _ _ => .setSv ..) _) .upd

theorem Keeps.haltEngine (s : State) (j : Nat) : Keeps s (s.haltEngine j) := by
  unfold State.haltEngine
  dsimp only
  refine .foldl _ (fun s a => ?_) _
  split
  · exact .after (.setQueue ..) (.foldl _ (fun _ _ => .haltDesc ..) _)
  · exact .after (.setStarted ..) (.after (.foldl _ (fun _ _ => .removeDesc ..) _) (.foldl _ (fun _ _ => .haltDesc ..) _))

theorem Keeps.closeEngine (s : State) (j : Nat) : Keeps s (s.closeEngine j) := by
  unfold State.closeEngine
  exact .foldl _ (fun _ _ => .ite (.refl _) (.after (.setQueue ..) (.commit ..))) _

theorem Keeps.loseTiles (s : State) (js : List Nat) (unit : Nat) : Keeps s (s.loseTiles js unit) := by
  unfold State.loseTiles
  dsimp only
  exact .after .upd (.foldl _ (fun _ _ => .setCtx ..) _)

theorem Keeps.startEngReset (s : State) (j cause : Nat) (who : List Who) : Keeps s (s.startEngReset j cause who) := by
  unfold State.startEngReset
  dsimp only
  exact .ite (.setEng ..) (.after (.jobSweep ..) (.after (.sweepDescs ..) (.after (.setEng ..) (.after (.foldl _ (fun _ _ =>
      .setEng ..) _) (.after (.ite (.loseTiles ..) (.refl _)) (.after (.closeEngine ..) (.after (.haltEngine ..) (.dropRuns
      ..))))))))

theorem Keeps.startDieReset (s : State) (d cause : Nat) (who : List Who) : Keeps s (s.startDieReset d cause who) := by
  unfold State.startDieReset
  dsimp only
  exact .ite (.setDie ..) (.after (.snapsOff ..) (.after (.sweepDescs ..) (.after (.unstall ..) (.after (.flowsOff ..) (.after
      (.pathCheck ..) (.after .upd (.after (.setDt ..) (.after (.foldl _ (fun _ _ => .setStack ..) _) (.after (.foldl _ (fun _ _
      => .setCtx ..) _) (.after (.foldl _ (fun _ _ => .loseTiles ..) _) (.after (.foldl _ (fun _ _ => .after (.setEng ..)
      (.closeEngine ..)) _) (.after (.setDie ..) (.after (.foldl _ (fun _ _ => .linkDown ..) _) (.after (.failTransit ..)
      (.after (.foldl _ (fun _ _ => .haltEngine ..) _) (.dropRuns ..))))))))))))))))

theorem KeepsOut.meTileDone (s : State) (ctx : Fin 256) (q : Fin 64) (index : BitVec 32) (tile : Nat) (tileUe : Bool) (err1 err2
    : List WordFlip) (flips : List LineFlip) : KeepsOut s (execMeTileDone ctx q index tile tileUe err1 err2 flips s) := by
  unfold execMeTileDone
  refine .orWait ?_
  split
  · exact .refl _
  · exact .ite (.refl _) (.ite (.startEngReset ..) (.after (.tileCopy ..) (.after (.meTile ..) (.after (.engTouch ..) (.damages
        ..)))))

theorem Keeps.checkQueue (s : State) (die c q n : Nat) : Keeps s (s.checkQueue die c q n) := by
  unfold State.checkQueue
  dsimp only
  split
  · exact .refl _
  · refine .ite ?_ ?_
    · exact .refl _
    · split
      · exact .after (.ite (.after (.startEngReset ..) (.log ..)) (.refl _)) (.setQueue ..)
      · exact .after (.ite (.refl _) (.after (.ite (.startCtxReset ..) (.refl _)) (.after (.log ..) (.after (.setCtx ..) (.after
            (.setQueue ..) (.ite (.faultRecord ..) (.refl _))))))) (.setQueue ..)
      · exact .setQueue ..

theorem KeepsOut.heartbeatCheck (s : State) (die : Fin 4) (beats : List (Nat × Nat)) : KeepsOut s (execHeartbeatCheck die beats
    s) := by
  unfold execHeartbeatCheck
  exact .next (.ite (.refl _) (.foldl _ (fun _ _ => .checkQueue ..) _))

theorem Keeps.body_dContextReset (s : State) (w : Who) (a : List Nat) : Keeps s (dContextReset.body s w a).s := by
  unfold dContextReset
  dsimp only
  exact .iteRes (.refl _) (.startCtxReset ..)

theorem Keeps.body_dContextRelease (s : State) (w : Who) (a : List Nat) : Keeps s (dContextRelease.body s w a).s := by
  unfold dContextRelease
  dsimp only
  exact .iteRes (.refl _) (.startCtxReset ..)

theorem Keeps.body_dEngineReset (s : State) (w : Who) (a : List Nat) : Keeps s (dEngineReset.body s w a).s := by
  unfold dEngineReset
  dsimp only
  exact .startEngReset ..

theorem Keeps.body_dDieReset (s : State) (w : Who) (a : List Nat) : Keeps s (dDieReset.body s w a).s := by
  unfold dDieReset
  dsimp only
  exact .iteRes (.refl _) (.startDieReset ..)

theorem Keeps.body_dFaultRecordRead (s : State) (w : Who) (a : List Nat) : Keeps s (dFaultRecordRead.body s w a).s := by
  unfold dFaultRecordRead
  dsimp only
  exact .iteRes (.refl _) (.refl _)

theorem KeepsOut.contextReset (s : State) (r : DReq) : KeepsOut s (execContextReset r s) := by
  unfold execContextReset
  exact .next (.runDarid (fun _ _ _ => .body_dContextReset ..) ..)

theorem KeepsOut.contextRelease (s : State) (r : DReq) : KeepsOut s (execContextRelease r s) := by
  unfold execContextRelease
  exact .next (.runDarid (fun _ _ _ => .body_dContextRelease ..) ..)

theorem KeepsOut.engineReset (s : State) (r : DReq) : KeepsOut s (execEngineReset r s) := by
  unfold execEngineReset
  exact .next (.runDarid (fun _ _ _ => .body_dEngineReset ..) ..)

theorem KeepsOut.dieReset (s : State) (r : DReq) : KeepsOut s (execDieReset r s) := by
  unfold execDieReset
  exact .next (.runDarid (fun _ _ _ => .body_dDieReset ..) ..)

theorem KeepsOut.faultRecordRead (s : State) (r : DReq) : KeepsOut s (execFaultRecordRead r s) := by
  unfold execFaultRecordRead
  exact .next (.runDarid (fun _ _ _ => .body_dFaultRecordRead ..) ..)

/-! ### Silent corruption (`Machine/Silent`) -/

theorem Keeps.releaseHarts (s : State) : Keeps s s.releaseHarts := by
  unfold State.releaseHarts
  dsimp only
  exact .ite .upd (.refl _)

theorem Keeps.outOfService (s : State) (u cause : Nat) (inReset : Bool) : Keeps s (s.outOfService u cause inReset) := by
  unfold State.outOfService
  dsimp only
  exact .after (.ite (.refl _) (.startEngReset ..)) (.after (.log ..) (.foldl _ (fun _ _ => .setSv ..) _))

theorem Keeps.cleanRun (s : State) (j : Nat) (imm : Bool) : Keeps s (s.cleanRun j imm) := by
  unfold State.cleanRun
  dsimp only
  exact .setSv ..

theorem Keeps.sieveFail (s : State) (u : Nat) (p : PatternResult) : Keeps s (s.sieveFail u p) := by
  unfold State.sieveFail
  dsimp only
  exact .after (.log ..) (.foldl _ (fun _ _ => .setSv ..) _)

theorem Keeps.verdict (s : State) (u : Nat) (patterns : List PatternResult) (imm inReset : Bool) : Keeps s (s.verdict u patterns
    imm inReset) := by
  unfold State.verdict
  dsimp only
  exact .after (.ite (.outOfService ..) (.after (.ite (.outOfService ..) (.refl _)) (.ite (.after (.ite (.log ..) (.refl _))
      (.foldl _ (fun _ _ => .cleanRun ..) _)) (.after (.foldl _ (fun _ _ => .setSv ..) _) (.suspect ..))))) (.after (.foldl _
      (fun _ _ => .setSv ..) _) (.foldl _ (fun _ _ => .sieveFail ..) _))

theorem Keeps.answerRuns (s : State) (u : Nat) (patterns : List PatternResult) : Keeps s (s.answerRuns u patterns) := by
  unfold State.answerRuns
  dsimp only
  exact .after (.finishAll ..) (.setSv ..)

theorem Keeps.sieveSlot (s : State) (die stepNo : Nat) (ageOnly : Bool) : Keeps s (s.sieveSlot die stepNo ageOnly) := by
  unfold State.sieveSlot
  dsimp only
  exact .ite (.refl _) (.foldl _ (fun _ _ => .setSv ..) _)

theorem Keeps.sieveOne (s : State) (j : Nat) : Keeps s (s.sieveOne j) := by
  unfold State.sieveOne
  dsimp only
  exact .ite (.refl _) (.setSv ..)

theorem KeepsOut.sieveRunStart (s : State) (eng : Fin 112) : KeepsOut s (execSieveRunStart eng s) := by
  unfold execSieveRunStart
  dsimp only
  exact .next (.ite (.refl _) (.after .upd (.foldl _ (fun _ _ => .after (.setEng ..) (.setSv ..)) _)))

theorem KeepsOut.sieveRunEnd (s : State) (eng : Fin 112) (patterns : List PatternResult) : KeepsOut s (execSieveRunEnd eng
    patterns s) := by
  unfold execSieveRunEnd
  dsimp only
  exact .next (.ite (.refl _) (.after (.releaseHarts ..) (.after (.answerRuns ..) (.after (.verdict ..) (.after (.foldl _ (fun _
      _ => .setQueue ..) _) (.after (.foldl _ (fun _ _ => .setEng ..) _) .upd))))))

theorem KeepsOut.sieveAgeCheck (s : State) : KeepsOut s (execSieveAgeCheck s) := by
  unfold execSieveAgeCheck
  dsimp only
  exact .next (.ite (.refl _) (.after (.foldl _ (fun _ _ => .sieveSlot ..) _) .upd))

theorem KeepsOut.tallyDecay (s : State) : KeepsOut s (execTallyDecay s) := by
  unfold execTallyDecay
  dsimp only
  exact .next (.ite (.refl _) (.after (.ite (.refl _) (.logFw ..)) .upd))

theorem Keeps.usePack (s : State) (b : List Byte) : Keeps s (s.usePack b) := by
  unfold State.usePack
  dsimp only
  exact .ite .upd .upd

theorem Keeps.packCommitted (s : State) (w : Option Who) (b : List Byte) : Keeps s (s.packCommitted w b) := by
  unfold State.packCommitted
  dsimp only
  split
  · exact .after (.finish ..) (.after (.logFw ..) (.after (.usePack ..) .upd))
  · exact .after (.logFw ..) (.after (.usePack ..) .upd)

theorem Keeps.body_dSievePackCommit (s : State) (w : Who) (a : List Nat) : Keeps s (dSievePackCommit.body s w a).s := by
  unfold dSievePackCommit
  dsimp only
  exact .iteRes (.refl _) (.iteRes (.refl _) (.iteRes .upd .upd))

theorem Keeps.body_dSievePolicy (s : State) (w : Who) (a : List Nat) : Keeps s (dSievePolicy.body s w a).s := by
  unfold dSievePolicy
  dsimp only
  exact .upd

theorem Keeps.body_dSieveRunNow (s : State) (w : Who) (a : List Nat) : Keeps s (dSieveRunNow.body s w a).s := by
  unfold dSieveRunNow
  dsimp only
  exact .iteRes (.refl _) (.setSv ..)

theorem Keeps.body_dSieveQuery (s : State) (w : Who) (a : List Nat) : Keeps s (dSieveQuery.body s w a).s := by
  unfold dSieveQuery
  dsimp only
  exact .refl _

theorem Keeps.body_dTaintRead (s : State) (w : Who) (a : List Nat) : Keeps s (dTaintRead.body s w a).s := by
  unfold dTaintRead
  dsimp only
  exact .refl _

theorem Keeps.body_dTaintClear (s : State) (w : Who) (a : List Nat) : Keeps s (dTaintClear.body s w a).s := by
  unfold dTaintClear
  dsimp only
  exact .setCtx ..

theorem Keeps.body_dTallyQuery (s : State) (w : Who) (a : List Nat) : Keeps s (dTallyQuery.body s w a).s := by
  unfold dTallyQuery
  dsimp only
  exact .refl _

theorem KeepsOut.sievePackCommit (s : State) (r : DReq) : KeepsOut s (execSievePackCommit r s) := by
  unfold execSievePackCommit
  exact .next (.runDarid (fun _ _ _ => .body_dSievePackCommit ..) ..)

theorem KeepsOut.sievePolicy (s : State) (r : DReq) : KeepsOut s (execSievePolicy r s) := by
  unfold execSievePolicy
  exact .next (.runDarid (fun _ _ _ => .body_dSievePolicy ..) ..)

theorem KeepsOut.sieveRunNow (s : State) (r : DReq) : KeepsOut s (execSieveRunNow r s) := by
  unfold execSieveRunNow
  exact .next (.runDarid (fun _ _ _ => .body_dSieveRunNow ..) ..)

theorem KeepsOut.sieveQuery (s : State) (r : DReq) : KeepsOut s (execSieveQuery r s) := by
  unfold execSieveQuery
  exact .next (.runDarid (fun _ _ _ => .body_dSieveQuery ..) ..)

theorem KeepsOut.taintRead (s : State) (r : DReq) : KeepsOut s (execTaintRead r s) := by
  unfold execTaintRead
  exact .next (.runDarid (fun _ _ _ => .body_dTaintRead ..) ..)

theorem KeepsOut.taintClear (s : State) (r : DReq) : KeepsOut s (execTaintClear r s) := by
  unfold execTaintClear
  exact .next (.runDarid (fun _ _ _ => .body_dTaintClear ..) ..)

theorem KeepsOut.tallyQuery (s : State) (r : DReq) : KeepsOut s (execTallyQuery r s) := by
  unfold execTallyQuery
  exact .next (.runDarid (fun _ _ _ => .body_dTallyQuery ..) ..)

/-! ### Ends of resets (`Machine/ResetEnds`) -/

theorem Keeps.zeroGroups (s : State) (c : Nat) : Keeps s (s.zeroGroups c) := by
  unfold State.zeroGroups
  dsimp only
  exact .upd

theorem KeepsOut.contextResetDone (s : State) (ctx : Fin 256) : KeepsOut s (execContextResetDone ctx s) := by
  unfold execContextResetDone
  dsimp only
  exact .next (.ite (.refl _) (.after (.jobSweep ..) (.after (.finishAll ..) (.after (.log ..) (.after (.setCtx ..) (.after
      (.setStash ..) (.after .upd (.zeroGroups ..))))))))

theorem Keeps.freeContext (s : State) (c : Nat) : Keeps s (s.freeContext c) := by
  unfold State.freeContext
  dsimp only
  exact .after .upd (.after (.cellarRelease ..) (.after (.foldl _ (fun _ _ => .after (.setEng ..) (.setEng ..)) _) (.zeroGroups
      ..)))

theorem KeepsOut.contextReleaseDone (s : State) (ctx : Fin 256) : KeepsOut s (execContextReleaseDone ctx s) := by
  unfold execContextReleaseDone
  dsimp only
  exact .next (.ite (.refl _) (.after (.jobSweep ..) (.after (.finishAll ..) (.after (.log ..) (.freeContext ..)))))

theorem Keeps.restoreQueue (s : State) (key : Nat) : Keeps s (s.restoreQueue key) := by
  unfold State.restoreQueue
  dsimp only
  exact .setQueue ..

theorem Keeps.resetRun (s : State) (u : Nat) (patterns : List PatternResult) : Keeps s (s.resetRun u patterns) := by
  unfold State.resetRun
  dsimp only
  exact .ite (.foldl _ (fun _ _ => .setSv ..) _) (.after (.answerRuns ..) (.after (.verdict ..) (.foldl _ (fun _ _ => .setSv ..)
      _)))

theorem Keeps.engineBack (s : State) (u : Nat) : Keeps s (s.engineBack u) := by
  unfold State.engineBack
  dsimp only
  exact .after (.finishAll ..) (.after .upd (.after (.foldl _ (fun _ _ => .restoreQueue ..) _) (.foldl _ (fun _ _ => .after
      (.setSv ..) (.setEng ..)) _)))

theorem KeepsOut.engineResetEnd (s : State) (eng : Fin 112) (patterns : List PatternResult) : KeepsOut s (execEngineResetEnd eng
    patterns s) := by
  unfold execEngineResetEnd
  dsimp only
  exact .next (.ite (.refl _) (.after (.jobSweep ..) (.after (.engineBack ..) (.after (.log ..) (.resetRun ..)))))

theorem Keeps.coldDie (s : State) (d : Nat) : Keeps s (s.coldDie d) := by
  unfold State.coldDie
  dsimp only
  exact .after (.setStore fun _ h => Mem.wf_filter _ _ h) (.after (.foldl _ (fun _ _ => .setPort ..) _) (.after (.foldl _ (fun _
      _ => .setEng ..) _) (.after (.setDie ..) (.after (.setWg ..) (.after .upd (.after (.foldl _ (fun _ _ => .setStack ..) _)
      (.setMemDie ..)))))))

theorem Keeps.writeOwed (s : State) (d : Nat) : Keeps s (s.writeOwed d) := by
  unfold State.writeOwed
  dsimp only
  exact .foldl _ (fun _ _ => .after (.foldl _ (fun _ _ => .putRecord ..) _) (.setQueue ..)) _

theorem Keeps.loseLines (s : State) (d : Nat) (lost : List Nat) : Keeps s (s.loseLines d lost).1 := by
  unfold State.loseLines
  dsimp only
  exact .after .upd (.foldl _ (fun _ _ => .after (.setMem fun _ h => Mem.wf_write _ _ _ h) (.draw ..)) _)

theorem KeepsOut.dieResetEnd (s : State) (die : Fin 4) (patterns : List (Nat × List PatternResult)) (cacheLost : List Nat) :
    KeepsOut s (execDieResetEnd die patterns cacheLost s) := by
  unfold execDieResetEnd
  dsimp only
  refine .next ?_
  split
  · exact .after (.jobSweep ..) (.after (.sweepDescs ..) (.after (.unstall ..) (.after (.finishAll ..) (.after (.logFw ..)
        (.after (.foldl _ (fun _ _ => .train ..) _) (.after (.pathCheck ..) (.after (.releaseHarts ..) (.after (.writeOwed ..)
        (.after (.foldl _ (fun _ _ => .semAdd ..) _) (.after .upd (.after (.foldl _ (fun _ _ => .after (.engineBack ..)
        (.resetRun ..)) _) (.after (.setMemDie ..) (.after (.foldl _ (fun _ _ => .setStack ..) _) (.after (.loseLines ..)
        (.after (.coldDie ..) (.setDie ..))))))))))))))))
  · exact .refl _

/-! ### Memory upkeep (`Machine/Memory`) -/

theorem Keeps.alertCheck (s : State) : Keeps s s.alertCheck := by
  unfold State.alertCheck
  dsimp only
  exact .ite .upd .upd

theorem Keeps.scrubLine (p : State × Nat) (f : LineFlip) : Keeps p.1 (State.scrubLine p f).1 := .damage ..

theorem KeepsOut.patrolScrubStep (s : State) (die : Fin 4) (flips : List LineFlip) : KeepsOut s (execPatrolScrubStep die flips s)
    := by
  unfold execPatrolScrubStep
  refine .next ?_
  dsimp only
  have hs : ∀ l : List LineFlip, Keeps s (l.foldl State.scrubLine (s, 0)).1 := fun l => .foldlFst l Keeps.scrubLine (s, 0)
  exact .ite (.refl _) (.ite (.after (.setMemDie ..) (hs _)) (.after (.log ..) (.after (.setMemDie ..) (.after (.setMemDie ..)
    (hs _)))))

theorem KeepsOut.memTrainingDone (s : State) (stack : Fin 24) (best : Fin 4) : KeepsOut s (execMemTrainingDone stack best s) :=
    by
  unfold execMemTrainingDone
  dsimp only
  exact .next (.ite (.refl _) (.after (.releaseHarts ..) (.after (.ite (.log ..) (.ite (.log ..) (.refl _))) (.setStack ..))))

theorem KeepsOut.memInitDone (s : State) (die : Fin 4) : KeepsOut s (execMemInitDone die s) := by
  unfold execMemInitDone
  dsimp only
  exact .next (.ite (.refl _) (.after (.releaseHarts ..) (.after (.setMemDie ..) (.setMem fun _ h => Mem.wf_filter _ _ h))))

theorem KeepsOut.memThermal (s : State) (stack : Fin 24) (tempC : BitVec 8) : KeepsOut s (execMemThermal stack tempC s) := by
  unfold execMemThermal
  dsimp only
  exact .next (.ite (.refl _) (.after (.ite (.refl _) (.log ..)) (.after (.alertCheck ..) (.setStack ..))))

theorem Keeps.body_dMemClear (s : State) (w : Who) (a : List Nat) : Keeps s (dMemClear.body s w a).s := by
  unfold dMemClear
  dsimp only
  exact .iteRes (.refl _) .upd

theorem KeepsOut.memClearDone (s : State) : KeepsOut s (execMemClearDone s) := by
  unfold execMemClearDone
  dsimp only
  refine .next ?_
  split
  · exact .refl _
  · exact .ite (.refl _) (.after (.finish ..) (.after (.setMem fun _ h => Mem.wf_filter _ _ h) .upd))

theorem KeepsOut.memClear (s : State) (r : DReq) : KeepsOut s (execMemClear r s) := by
  unfold execMemClear
  exact .next (.runDarid (fun _ _ _ => .body_dMemClear ..) ..)

end Sys2Proof.Machine
end

