-- ==== Sys2Proof/Proofs/KeepsTime.lean ====
section
/-! PROOFS. The same for observability, the time base, schedules and the start. -/

-- One theorem after the other: threads that wait for one another would each take a stack of the check's memory.
set_option Elab.async false

namespace Sys2Proof.Machine

/-! ### Observability (`Machine/Observe`) -/

theorem Keeps.body_dCounterSelect (s : State) (w : Who) (a : List Nat) : Keeps s (dCounterSelect.body s w a).s := by
  unfold dCounterSelect
  dsimp only
  exact .iteRes (.refl _) (.setCounters ..)

theorem Keeps.body_dCounterRead (s : State) (w : Who) (a : List Nat) : Keeps s (dCounterRead.body s w a).s := by
  unfold dCounterRead
  dsimp only
  exact .iteRes (.draw _ 64) (.iteRes (.refl _) (.refl _))

theorem Keeps.body_dLiveCounterRead (s : State) (w : Who) (a : List Nat) : Keeps s (dLiveCounterRead.body s w a).s := by
  unfold dLiveCounterRead
  dsimp only
  exact .refl _

theorem Keeps.freeze (s : State) (d entry mark : Nat) (late : Bool) : Keeps s (s.freeze d entry mark late) := by
  unfold State.freeze
  dsimp only
  exact .ite (.after (.log ..) (.setCounters ..)) (.setCounters ..)

theorem Keeps.body_dWatchDefine (s : State) (w : Who) (a : List Nat) : Keeps s (dWatchDefine.body s w a).s := by
  unfold dWatchDefine
  dsimp only
  exact .iteRes (.refl _) (.iteRes (.refl _) .upd)

theorem Keeps.body_dWatchRemove (s : State) (w : Who) (a : List Nat) : Keeps s (dWatchRemove.body s w a).s := by
  unfold dWatchRemove
  dsimp only
  exact .iteRes (.refl _) .upd

theorem Keeps.body_dWatchDigest (s : State) (w : Who) (a : List Nat) : Keeps s (dWatchDigest.body s w a).s := by
  unfold dWatchDigest
  dsimp only
  exact .iteRes (.refl _) .upd

theorem KeepsOut.watchDigestDone (s : State) (ctx : Fin 256) (handle : BitVec 32) (flips : List LineFlip) : KeepsOut s
    (execWatchDigestDone ctx handle flips s) := by
  unfold execWatchDigestDone
  dsimp only
  refine .next ?_
  split
  · exact .refl _
  · split
    · exact .after (.finish ..) .upd
    · split
      · exact .after (.finish ..) .upd
      · exact .ite (.after (.finish ..) .upd) (.ite (.refl _) (.after (.finish ..) (.after (.damages ..) .upd)))

theorem Keeps.pushDump (s : State) (d entry ctx : Nat) (a : BitVec 64) (late : Bool) : Keeps s (s.pushDump d entry ctx a late)
    := by
  unfold State.pushDump
  dsimp only
  exact .upd

theorem Keeps.dumpFails (s : State) (d : Nat) (x : Dump) (reason addr : Nat) : Keeps s (s.dumpFails d x reason addr) := by
  unfold State.dumpFails
  exact .log ..

theorem Keeps.scramble (s : State) (off n : Nat) : Keeps s (s.scramble off n) := by
  unfold State.scramble
  dsimp only
  exact .foldl _ (fun _ _ => .ite (.refl _) (.after (.setMem fun _ h => Mem.wf_write _ _ _ h) (.after (.draw ..) (.draw ..)))) _

theorem Keeps.dump (s : State) (d : Nat) (x : Dump) : Keeps s (s.dump d x) := by
  unfold State.dump
  dsimp only
  refine .ite ?_ ?_
  · exact .dumpFails ..
  · split
    · exact .dumpFails ..
    · split
      · exact .ite (.dumpFails ..) (.ite (.after (.dumpFails ..) (.scramble ..)) (.ite (.after (.dumpFails ..) (.scramble ..))
            (.after (.log ..) (.setMem fun _ h => Mem.wf_write _ _ _ (Mem.wf_write _ _ _ h)))))
      · exact .dumpFails ..

theorem KeepsOut.tensorDumpDone (s : State) (die : Fin 4) (flips : List LineFlip) : KeepsOut s (execTensorDumpDone die flips s)
    := by
  unfold execTensorDumpDone
  dsimp only
  refine .next ?_
  split
  · exact .refl _
  · exact .ite (.refl _) (.after .upd (.after (.dump ..) (.damages ..)))

theorem KeepsOut.counterSelect (s : State) (r : DReq) : KeepsOut s (execCounterSelect r s) := by
  unfold execCounterSelect
  exact .next (.runDarid (fun _ _ _ => .body_dCounterSelect ..) ..)

theorem KeepsOut.counterRead (s : State) (r : DReq) : KeepsOut s (execCounterRead r s) := by
  unfold execCounterRead
  exact .next (.runDarid (fun _ _ _ => .body_dCounterRead ..) ..)

theorem KeepsOut.liveCounterRead (s : State) (r : DReq) : KeepsOut s (execLiveCounterRead r s) := by
  unfold execLiveCounterRead
  exact .next (.runDarid (fun _ _ _ => .body_dLiveCounterRead ..) ..)

theorem KeepsOut.watchDefine (s : State) (r : DReq) : KeepsOut s (execWatchDefine r s) := by
  unfold execWatchDefine
  exact .next (.runDarid (fun _ _ _ => .body_dWatchDefine ..) ..)

theorem KeepsOut.watchDigest (s : State) (r : DReq) : KeepsOut s (execWatchDigest r s) := by
  unfold execWatchDigest
  exact .next (.runDarid (fun _ _ _ => .body_dWatchDigest ..) ..)

theorem KeepsOut.watchRemove (s : State) (r : DReq) : KeepsOut s (execWatchRemove r s) := by
  unfold execWatchRemove
  exact .next (.runDarid (fun _ _ _ => .body_dWatchRemove ..) ..)

/-! ### Time (`Machine/Time`) -/

theorem Keeps.countOpen (s : State) (d ev n : Nat) : Keeps s (s.countOpen d ev n) := by
  unfold State.countOpen
  dsimp only
  exact .ite (.foldl _ (fun _ _ => .after (.countEv ..) (.draw ..)) _) (.refl _)

theorem Keeps.tickOpen (s : State) (d : Nat) : Keeps s (s.tickOpen d) := by
  unfold State.tickOpen
  dsimp only
  refine .after (.foldl _ (fun _ _ => .countOpen ..) _) ?_
  refine .ite ?_ ?_
  · refine .after (.foldl _ (fun s a => ?_) _) ?_
    · split
      · exact .after (.countEv ..) (.draw ..)
      · exact .refl _
    · refine .ite ?_ ?_
      · refine .foldl _ (fun s a => ?_) _
        split
        · exact .after (.countEv ..) (.draw ..)
        · exact .refl _
      · exact .refl _
  · refine .ite ?_ ?_
    · refine .foldl _ (fun s a => ?_) _
      split
      · exact .after (.countEv ..) (.draw ..)
      · exact .refl _
    · exact .refl _

theorem Keeps.tickDie (s : State) (d : Nat) : Keeps s (s.tickDie d) := by
  have heng : ∀ (s : State) (ev j i : Nat), Keeps s (match (s.eng.queues.find? fun e => e.2.eng == j && !e.2.started.isEmpty) with
      | some e => s.countEv d ev i (some (e.1 / 64)) 15
      | none => s) := by
    intro s ev j i
    split
    · exact .countEv ..
    · exact .refl _
  unfold State.tickDie
  refine .ite (.refl _) ?_
  extract_lets eng s1 s2 s3 s4 s5 s6
  have h1 : Keeps s s1 := .countEv ..
  have h2 : Keeps s1 s2 := .foldl _ (fun _ _ => heng ..) _
  have h3 : Keeps s2 s3 := .foldl _ (fun _ _ => heng ..) _
  have h4 : Keeps s3 s4 := .countEv ..
  have h5 : Keeps s4 s5 := .ite (.countEv ..) (.refl _)
  have h6 : Keeps s5 s6 := .ite (.countEv ..) (.refl _)
  exact .after (.tickOpen ..) (.after h6 (.after h5 (.after h4 (.after h3 (.after h2 h1)))))

theorem Keeps.tickStall (s : State) (d : Nat) : Keeps s (s.tickStall d) := by
  unfold State.tickStall
  exact .ite (.setDie ..) (.refl _)

theorem Keeps.tickSlots (s : State) (d : Nat) : Keeps s (s.tickSlots d) := by
  unfold State.tickSlots
  dsimp only
  refine .ite ?_ ?_
  · exact .refl _
  · refine .after (.setWg ..) ?_
    split
    · dsimp only
      exact .refl _
    · exact .draw ..

theorem TimeSt.tick_thresh (t : TimeSt) (gap : Bool) : (t.tick gap).thresh = t.thresh := by
  unfold TimeSt.tick
  split <;> rfl

theorem Keeps.tick (s : State) : Keeps s s.tick := by
  unfold State.tick
  exact .after (.foldl _ (fun _ _ => .after (.tickSlots ..) (.after (.tickStall ..) (.tickDie ..))) _)
    (.upd rfl rfl (TimeSt.tick_thresh ..))

theorem KeepsOut.timeBusFrame (s : State) (die : Fin 4) : KeepsOut s (execTimeBusFrame die s) := by
  unfold execTimeBusFrame
  dsimp only
  exact .next (.ite (.refl _) (.after (.foldl _ (fun _ _ => .stepAdvance ..) _) (.after (.ite (.log ..) (.refl _)) (.after
      (.setDt ..) .upd))))

theorem KeepsOut.holdoverEntry (s : State) (die : Fin 4) : KeepsOut s (execHoldoverEntry die s) := by
  unfold execHoldoverEntry
  dsimp only
  exact .next (.ite (.setDt ..) (.refl _))

theorem Keeps.setTime (s : State) (f : TimeSt → TimeSt) (h : (f s.time).thresh = s.time.thresh := by rfl) :
    Keeps s (s.setTime f) := by
  unfold State.setTime
  exact .upd rfl rfl h

/-- A new threshold, brought into the range of R70. -/
theorem Keeps.setTime_inRange (s : State) (f : TimeSt → TimeSt) (h : 1000 ≤ (f s.time).thresh ∧ (f s.time).thresh ≤ 1000000) :
    Keeps s (s.setTime f) := ⟨rfl, rfl, id, fun _ => h⟩

theorem Keeps.podHold (s : State) : Keeps s s.podHold := by
  unfold State.podHold
  dsimp only
  exact .after (.ite (.logFw ..) (.refl _)) (.setTime ..)

theorem Keeps.podEntries (s : State) : Keeps s s.podEntries := by
  unfold State.podEntries
  dsimp only
  exact .upd

theorem Keeps.tollBegins (s : State) : Keeps s s.tollBegins := by
  unfold State.tollBegins
  dsimp only
  exact .upd

theorem Keeps.servo (s : State) (offset : Int) (count : Bool) : Keeps s (s.servo offset count) := by
  unfold State.servo
  dsimp only
  exact .after (.ite (.ite (.setTime ..) (.refl _)) (.ite (.after (.ite (.after (.setTime ..) (.after (.draw ..) (.setTime ..)))
      (.refl _)) (.setTime ..)) (.ite (.after (.logFw ..) (.after (.setTime ..) (.podHold ..))) (.after (.setTime ..) (.draw
      ..))))) (.setTime ..)

theorem Keeps.measure (s : State) (offset : Int) (gm : Option (BitVec 64)) (count : Bool) : Keeps s (s.measure offset gm count)
    := by
  unfold State.measure
  dsimp only
  refine .ite (.refl _) ?_
  split
  · exact .ite (.refl _) (.servo ..)
  · refine .ite (.after (.podEntries ..) (.after (.tollBegins ..) (.setTime ..))) (.ite (.after (.ite (.logFw ..) (.refl _))
      (.after (.setTime ..) (.podHold ..))) (.ite (.setTime _ _ ?_) (.after (.servo ..) (.setTime ..))))
    split <;> rfl

theorem Keeps.measureRef (s : State) (offset : Int) (gm : BitVec 64) : Keeps s (s.measureRef offset gm) := by
  unfold State.measureRef
  dsimp only
  exact .ite (.measure ..) (.measure ..)

theorem KeepsOut.podOffsetMeasured (s : State) (offset : Int) (gm : BitVec 64) : KeepsOut s (execPodOffsetMeasured offset gm s)
    := by
  unfold execPodOffsetMeasured
  exact .next (.measureRef ..)

theorem Keeps.delayReq (s : State) : Keeps s s.delayReq := by
  unfold State.delayReq
  dsimp only
  exact .after (.ite (.pushTsq ..) (.refl _)) (.setTime ..)

theorem Keeps.ptpDone (s : State) : Keeps s s.ptpDone := by
  unfold State.ptpDone
  split
  · split
    · exact .after (.measureRef ..) (.setTime ..)
    · exact .refl _
  · exact .refl _

theorem Keeps.ptp (s : State) (m : PtpMsg) : Keeps s (s.ptp m) := by
  unfold State.ptp
  dsimp only
  refine .ite ?_ ?_
  · exact .refl _
  · split
    · exact .setTime ..
    · split
      · exact .ite (.after (.delayReq ..) (.setTime ..)) (.refl _)
      · exact .refl _
    · exact .after (.ptpDone ..) (.setTime ..)
    · exact .after (.ptpDone ..) (.setTime ..)

theorem KeepsOut.ptpMessageReceive (s : State) (msg : PtpMsg) : KeepsOut s (execPtpMessageReceive msg s) := by
  unfold execPtpMessageReceive
  exact .next (.ptp ..)

theorem KeepsOut.podLockLost (s : State) : KeepsOut s (execPodLockLost s) := by
  unfold execPodLockLost
  dsimp only
  exact .next (.ite (.podHold ..) (.refl _))

theorem KeepsOut.ppsInEdge (s : State) : KeepsOut s (execPpsInEdge s) := by
  unfold execPpsInEdge
  dsimp only
  exact .next (.ite (.refl _) (.after (.measure ..) (.setTime ..)))

theorem KeepsOut.ppsInFault (s : State) : KeepsOut s (execPpsInFault s) := by
  unfold execPpsInFault
  dsimp only
  exact .next (.ite (.after (.logFw ..) (.setTime ..)) (.refl _))

theorem KeepsOut.ppsOutRise (s : State) : KeepsOut s (execPpsOutRise s) := by
  unfold execPpsOutRise
  dsimp only
  exact .next (.ite (.setTime ..) (.refl _))

theorem KeepsOut.ppsOutFall (s : State) : KeepsOut s (execPpsOutFall s) := by
  unfold execPpsOutFall
  exact .next (.ite (.setTime ..) (.refl _))

theorem KeepsOut.timestampRequestSend (s : State) : KeepsOut s (execTimestampRequestSend s) := by
  unfold execTimestampRequestSend
  dsimp only
  exact .next (.ite (.after (.setTime ..) (.queuePkt ..)) (.refl _))

theorem Keeps.takeTs (s : State) (p : Nat) : Keeps s (s.takeTs p) := by
  unfold State.takeTs
  exact .setPort ..

theorem KeepsOut.timestampRequestReceive (s : State) (port : Fin 13) (src : BitVec 15) : KeepsOut s (execTimestampRequestReceive
    port src s) := by
  unfold execTimestampRequestReceive
  dsimp only
  exact .next (.after (.ite (.refl _) (.queuePkt ..)) (.takeTs ..))

theorem KeepsOut.timestampResponseReceive (s : State) (port : Fin 13) (resp : TsResp) : KeepsOut s (execTimestampResponseReceive
    port resp s) := by
  unfold execTimestampResponseReceive
  dsimp only
  refine .next ?_
  split
  · exact .takeTs ..
  · exact .takeTs ..
  · exact .after (.ite (.refl _) (.after (.ite (.after (.measureRef ..) (.setTime ..)) (.refl _)) (.setTime ..))) (.takeTs ..)

theorem KeepsOut.tbTsqPop (s : State) (init : Initiator) (ctd : Fin 2) (g : Fin 5) (width : Nat) (upper : Bool) : KeepsOut s
    (execTbTsqPop init ctd g width upper s) := by
  unfold execTbTsqPop
  dsimp only
  refine .next ?_
  refine .ite ?_ ?_
  · exact .fail ..
  · refine .ite ?_ ?_
    · exact .fail ..
    · refine .ite ?_ ?_
      · exact .answer ..
      · refine .ite ?_ ?_
        · exact .answer ..
        · split
          · exact .answer ..
          · exact .after (.endRun ..) (.after (.setTime ..) (.answer ..))

/-! ### Schedules and time commands (`Machine/Schedule`) -/

theorem Keeps.schedSpent (s : State) (n : Nat) : Keeps s (s.schedSpent n) := by
  unfold State.schedSpent
  dsimp only
  split
  · exact .refl _
  · exact .ite .upd (.refl _)

theorem Keeps.dispatch (s : State) (d n : Nat) (e : SchedEntry) (isNew late : Bool) : Keeps s (s.dispatch d n e isNew late) :=
    by
  unfold State.dispatch
  dsimp only
  split
  · exact .ite (.sieveSlot ..) (.ite (.sieveSlot ..) (.sieveOne ..))
  · exact .freeze ..
  · exact .pushDump ..
  · exact .ite (.after (.jobSweep ..) (.startSnap ..)) (.refl _)
  · exact .ite (.refl _) .upd

theorem Keeps.armOn (s : State) (n d : Nat) : Keeps s (s.armOn n d) := by
  unfold State.armOn
  dsimp only
  split
  · exact .refl _
  · refine .ite ?_ ?_
    · exact .refl _
    · split
      · exact .refl _
      · exact .ite (.refl _) (.ite (.setSched ..) (.after (.log ..) (.ite (.setSched ..) (.after (.dispatch ..) (.setSched
            ..)))))

theorem KeepsOut.scheduleArm (s : State) (entry : Fin 1024) : KeepsOut s (execScheduleArm entry s) := by
  unfold execScheduleArm
  exact .next (.ite (.refl _) (.after (.schedSpent ..) (.foldl _ (fun _ _ => .armOn ..) _)))

theorem KeepsOut.scheduleFire (s : State) (die : Fin 4) : KeepsOut s (execScheduleFire die s) := by
  unfold execScheduleFire
  dsimp only
  exact .next (.ite (.refl _) (.foldl _ (fun _ _ => .after (.schedSpent ..) (.after (.dispatch ..) (.setSched ..))) _))

theorem Keeps.body_dScheduleWrite (s : State) (w : Who) (a : List Nat) : Keeps s (dScheduleWrite.body s w a).s := by
  unfold dScheduleWrite
  dsimp only
  refine .iteRes ?_ ?_
  · exact .refl _
  · split
    · exact .refl _
    · exact .iteRes (.refl _) (.iteRes (.refl _) (.setSched ..))

theorem Keeps.body_dScheduleClear (s : State) (w : Who) (a : List Nat) : Keeps s (dScheduleClear.body s w a).s := by
  unfold dScheduleClear
  dsimp only
  exact .iteRes (.refl _) (.iteRes (.refl _) .upd)

theorem Keeps.body_dScheduleRead (s : State) (w : Who) (a : List Nat) : Keeps s (dScheduleRead.body s w a).s := by
  unfold dScheduleRead
  dsimp only
  exact .refl _

theorem Keeps.body_dTimeStepAdvance (s : State) (w : Who) (a : List Nat) : Keeps s (dTimeStepAdvance.body s w a).s := by
  unfold dTimeStepAdvance
  dsimp only
  exact .stepAdvance ..

theorem Keeps.body_dTimePhaseAdvance (s : State) (w : Who) (a : List Nat) : Keeps s (dTimePhaseAdvance.body s w a).s := by
  unfold dTimePhaseAdvance
  dsimp only
  exact .iteRes (.refl _) (.setTime ..)

theorem Keeps.body_dTimeStepSet (s : State) (w : Who) (a : List Nat) : Keeps s (dTimeStepSet.body s w a).s := by
  unfold dTimeStepSet
  dsimp only
  exact .after (.logFw ..) (.after (.disarm ..) (.setTime ..))

theorem Keeps.body_dTimeAcceptCorrection (s : State) (w : Who) (a : List Nat) : Keeps s (dTimeAcceptCorrection.body s w a).s := by
  unfold dTimeAcceptCorrection
  dsimp only
  exact .iteRes (.refl _) (.after (.logFw ..) (.after (.ite (.disarm ..) (.refl _)) (.setTime ..)))

theorem Keeps.writeTbCtrl (s : State) (v : Nat) : Keeps s (s.writeTbCtrl v) := by
  unfold State.writeTbCtrl
  dsimp only
  exact .after (.ite (.refl _) (.after (.ite (.setTime ..) (.ite (.refl _) (.setTime ..))) (.setTime ..))) (.setTime ..)

theorem Keeps.body_dTimeConfigure (s : State) (w : Who) (a : List Nat) : Keeps s (dTimeConfigure.body s w a).s := by
  unfold dTimeConfigure
  dsimp only
  exact .after .upd (.after (.setTime_inRange _ _ (by dsimp only; omega)) (.writeTbCtrl ..))

theorem Keeps.body_dTimeQuery (s : State) (w : Who) (a : List Nat) : Keeps s (dTimeQuery.body s w a).s := by
  unfold dTimeQuery
  dsimp only
  exact .refl _

theorem KeepsOut.scheduleWrite (s : State) (r : DReq) : KeepsOut s (execScheduleWrite r s) := by
  unfold execScheduleWrite
  exact .next (.runDarid (fun _ _ _ => .body_dScheduleWrite ..) ..)

theorem KeepsOut.scheduleClear (s : State) (r : DReq) : KeepsOut s (execScheduleClear r s) := by
  unfold execScheduleClear
  exact .next (.runDarid (fun _ _ _ => .body_dScheduleClear ..) ..)

theorem KeepsOut.scheduleRead (s : State) (r : DReq) : KeepsOut s (execScheduleRead r s) := by
  unfold execScheduleRead
  exact .next (.runDarid (fun _ _ _ => .body_dScheduleRead ..) ..)

theorem KeepsOut.timeStepAdvance (s : State) (r : DReq) : KeepsOut s (execTimeStepAdvance r s) := by
  unfold execTimeStepAdvance
  exact .next (.runDarid (fun _ _ _ => .body_dTimeStepAdvance ..) ..)

theorem KeepsOut.timePhaseAdvance (s : State) (r : DReq) : KeepsOut s (execTimePhaseAdvance r s) := by
  unfold execTimePhaseAdvance
  exact .next (.runDarid (fun _ _ _ => .body_dTimePhaseAdvance ..) ..)

theorem KeepsOut.timeStepSet (s : State) (r : DReq) : KeepsOut s (execTimeStepSet r s) := by
  unfold execTimeStepSet
  exact .next (.runDarid (fun _ _ _ => .body_dTimeStepSet ..) ..)

theorem KeepsOut.timeAcceptCorrection (s : State) (r : DReq) : KeepsOut s (execTimeAcceptCorrection r s) := by
  unfold execTimeAcceptCorrection
  exact .next (.runDarid (fun _ _ _ => .body_dTimeAcceptCorrection ..) ..)

theorem KeepsOut.timeConfigure (s : State) (r : DReq) : KeepsOut s (execTimeConfigure r s) := by
  unfold execTimeConfigure
  exact .next (.runDarid (fun _ _ _ => .body_dTimeConfigure ..) ..)

theorem KeepsOut.timeQuery (s : State) (r : DReq) : KeepsOut s (execTimeQuery r s) := by
  unfold execTimeQuery
  exact .next (.runDarid (fun _ _ _ => .body_dTimeQuery ..) ..)

/-! ### Power-on and boot (`Machine/Boot`) -/

theorem Keeps.loadClamps (s : State) : Keeps s s.loadClamps := by
  unfold State.loadClamps
  dsimp only
  split <;> exact .upd

theorem Keeps.checkKey (s : State) (c : Nat) : Keeps s (s.checkKey c) := by
  unfold State.checkKey
  dsimp only
  exact .upd

theorem Keeps.bootCtd (s : State) (c : Nat) : Keeps s (s.bootCtd c) := by
  unfold State.bootCtd
  dsimp only
  exact .after (.ite (.refl _) (.logTo ..)) (.after (.setCtd ..) (.checkKey ..))

/-- What is at its reset value is in its range. -/
theorem Keeps.dark (s : State) : Keeps s s.dark := ⟨rfl, rfl, fun _ => rfl, fun _ => (by decide : 1000 ≤ 1000 ∧ 1000 ≤ 1000000)⟩

theorem Keeps.cold (s : State) : Keeps s s.cold := by
  unfold State.cold
  dsimp only
  exact .after .upd (.dark ..)

theorem Keeps.loadStores (s : State) : Keeps s s.loadStores := by
  unfold State.loadStores
  dsimp only
  exact .after .upd (.ite (.refl _) (.usePack ..))

theorem Keeps.powerOn (s : State) (cause : Nat) : Keeps s (s.powerOn cause) := by
  unfold State.powerOn
  dsimp only
  exact .after (.foldl _ (fun _ _ => .bootCtd ..) _) (.after (.loadClamps ..) (.after (.loadStores ..) (.after (.cold ..)
      .upd)))

theorem KeepsOut.powerOnReset (s : State) (cause : Fin 8) : KeepsOut s (execPowerOnReset cause s) := by
  unfold execPowerOnReset
  exact .next (.ite (.powerOn ..) (.refl _))

end Sys2Proof.Machine
end

