-- ==== Sys2Proof/Proofs/KeepsPower.lean ====
section
/-! PROOFS. The same for power, tolls, the lease and recovery. -/

-- One theorem after the other: threads that wait for one another would each take a stack of the check's memory.
set_option Elab.async false

namespace Sys2Proof.Machine

/-! ### Power (`Machine/Power`) -/

theorem Keeps.settleClocks (s : State) : Keeps s s.settleClocks := by
  unfold State.settleClocks
  dsimp only
  exact .foldl _ (fun _ _ => .after (.ite (.refl _) (.logDie ..)) (.setPow ..)) _

theorem KeepsOut.powerLimiterSample (s : State) (avgPowerW avgCurrentDA : Nat) : KeepsOut s (execPowerLimiterSample avgPowerW
    avgCurrentDA s) := by
  unfold execPowerLimiterSample
  dsimp only
  exact .next (.after (.settleClocks ..) (.after (.ite (.clampHit ..) (.refl _)) (.after (.ite (.clampHit ..) (.refl _)) .upd)))

theorem Keeps.thermalTrip (s : State) (d : Nat) (t : Int) : Keeps s (s.thermalTrip d t) := by
  unfold State.thermalTrip
  dsimp only
  exact .after (.unstall ..) (.after (.flowsOff ..) (.after (.pathCheck ..) (.after (.logDie ..) (.after .upd (.after (.foldl _
      (fun _ _ => .setStack ..) _) (.after (.foldl _ (fun _ _ => .setEng ..) _) (.after (.setDie ..) (.after (.foldl _ (fun _ _
      => .linkDown ..) _) (.after (.failTransit ..) (.after (.foldl _ (fun _ _ => .haltEngine ..) _) (.dropRuns ..)))))))))))

theorem Keeps.thermalStep (s : State) (d : Nat) (t : Int) : Keeps s (s.thermalStep d t) := by
  unfold State.thermalStep
  dsimp only
  exact .after (.ite (.logDie ..) (.refl _)) (.after (.ite (.after (.logDie ..) (.clampHit ..)) (.refl _)) (.after
      (.settleClocks ..) (.setPow ..)))

theorem KeepsOut.junctionSample (s : State) (die : Fin 4) (tempMilliC : Int) : KeepsOut s (execJunctionSample die tempMilliC s)
    := by
  unfold execJunctionSample
  dsimp only
  exact .next (.after (.alertCheck ..) (.after (.ite (.ite (.after (.startDieReset ..) (.setDie ..)) (.refl _)) (.ite (.refl _)
      (.ite (.thermalTrip ..) (.thermalStep ..)))) (.setPow ..)))

theorem KeepsOut.thermAlertRelease (s : State) : KeepsOut s (execThermAlertRelease s) := by
  unfold execThermAlertRelease
  dsimp only
  refine .next ?_
  split
  · exact .ite .upd (.refl _)
  · exact .refl _

theorem Keeps.railsOff (s : State) (inRange : Bool) : Keeps s (s.railsOff inRange) := by
  unfold State.railsOff
  dsimp only
  exact .after .upd (.dark ..)

theorem KeepsOut.inputTrip (s : State) (kind : Fin 3) : KeepsOut s (execInputTrip kind s) := by
  unfold execInputTrip
  dsimp only
  exact .next (.after .upd (.railsOff ..))

theorem KeepsOut.modRstNLow (s : State) : KeepsOut s (execModRstNLow s) := by
  unfold execModRstNLow
  dsimp only
  exact .next (.after .upd (.railsOff ..))

theorem Keeps.paced (s : State) (d : Nat) : Keeps s (s.paced d) := by
  unfold State.paced
  dsimp only
  exact .after (.ite (.clampHit ..) (.refl _)) (.draw ..)

theorem Keeps.body_dPowerSetDie (s : State) (w : Who) (a : List Nat) : Keeps s (dPowerSetDie.body s w a).s := by
  unfold dPowerSetDie
  dsimp -zeta only
  extract_lets d c fMax me host mv u v w capped p x
  have hu : Keeps s u := .ite (.clampHit ..) (.refl _)
  have hv : Keeps u v := .ite (.clampHit ..) (.refl _)
  have hw : Keeps v w := .ite (.clampHit ..) (.refl _)
  have hx : Keeps w x := .ite (.refl _) (.paced ..)
  have hset : ∀ f, Keeps s (x.setPow d f).settleClocks := fun f =>
    .after (.settleClocks _) (.after (.setPow x d f) (.after hx (.after hw (.after hv hu))))
  clear_value x capped
  split
  · exact .refl _
  split
  · exact .refl _
  · dsimp only
    exact hset _

theorem Keeps.body_dPowerCap (s : State) (w : Who) (a : List Nat) : Keeps s (dPowerCap.body s w a).s := by
  unfold dPowerCap
  dsimp only
  exact .upd

theorem Keeps.body_dPowerQuery (s : State) (w : Who) (a : List Nat) : Keeps s (dPowerQuery.body s w a).s := by
  unfold dPowerQuery
  dsimp only
  exact .refl _

theorem KeepsOut.powerSetDie (s : State) (r : DReq) : KeepsOut s (execPowerSetDie r s) := by
  unfold execPowerSetDie
  exact .next (.runDarid (fun _ _ _ => .body_dPowerSetDie ..) ..)

theorem KeepsOut.powerCap (s : State) (r : DReq) : KeepsOut s (execPowerCap r s) := by
  unfold execPowerCap
  exact .next (.runDarid (fun _ _ _ => .body_dPowerCap ..) ..)

theorem KeepsOut.powerQuery (s : State) (r : DReq) : KeepsOut s (execPowerQuery r s) := by
  unfold execPowerQuery
  exact .next (.runDarid (fun _ _ _ => .body_dPowerQuery ..) ..)

/-! ### Tolls (`Machine/Toll`) -/

theorem Keeps.noteUse (s : State) (x : RailSample) : Keeps s (s.noteUse x) := by
  unfold State.noteUse
  dsimp only
  exact .upd

theorem Keeps.windowFlags (s : State) (x : RailSample) : Keeps s (s.windowFlags x) := by
  unfold State.windowFlags
  dsimp only
  exact .upd

theorem Keeps.liveUpdate (s : State) (x : RailSample) : Keeps s (s.liveUpdate x) := by
  unfold State.liveUpdate
  dsimp only
  refine .after .upd (.foldlSnd _ (fun p e => ?_) ([], s))
  exact .draw p.2 64

theorem Keeps.powerSummary (s : State) (x : RailSample) : Keeps s (s.powerSummary x) := by
  unfold State.powerSummary
  dsimp only
  exact .ite (.refl _) .upd

theorem Keeps.cutAt (s : State) (b : Nat) (forced : Bool) : Keeps s (s.cutAt b forced) := by
  unfold State.cutAt
  dsimp only
  exact .upd

theorem Keeps.cutDue (s : State) : Keeps s s.cutDue := by
  unfold State.cutDue
  split
  · exact .ite (.cutAt ..) (.refl _)
  · exact .refl _

/-- The charges of a sample come first: the use is noted, the tolls are charged, the window's flags follow. -/
theorem KeepsOut.railSample (s : State) (sample : RailSample) : KeepsOut s (execRailSample sample s) := by
  unfold execRailSample
  dsimp only
  refine .next (.ite (.refl _) (.after .upd (.after (.cutDue ..) (.after (.powerSummary ..) (.after (.liveUpdate ..) ?_)))))
  exact .after (.windowFlags ..) (.after .upd (.noteUse ..))

theorem KeepsOut.manifestForced (s : State) : KeepsOut s (execManifestForced s) := by
  unfold execManifestForced
  dsimp only
  exact .next (.ite .upd (.refl _))

theorem Keeps.closeTag (s : State) (k : Nat) : Keeps s (s.closeTag k) := by
  unfold State.closeTag
  dsimp only
  exact .upd

theorem KeepsOut.tagClosePoint (s : State) (tag : Fin 4096) : KeepsOut s (execTagClosePoint tag s) := by
  unfold execTagClosePoint
  dsimp only
  exact .next (.ite (.closeTag ..) (.refl _))

theorem Keeps.publish (s : State) (c : Nat) : Keeps s (s.publish c) := by
  unfold State.publish
  dsimp only
  split
  · exact .refl _
  · exact .after (.ite (.log ..) (.refl _)) (.after (.log ..) .upd)

theorem KeepsOut.tollManifestClosed (s : State) : KeepsOut s (execTollManifestClosed s) := by
  unfold execTollManifestClosed
  refine .next ?_
  split
  · exact .ite (.publish ..) (.refl _)
  · exact .refl _

theorem Keeps.lesser (s : State) (a : Acct) : Keeps s (s.lesser a).2 := by
  unfold State.lesser
  dsimp only
  refine .after (.draw ..) (.after (.draw ..) (.after (.draw ..) (.foldlSnd _ (fun p e => ?_) ([], s))))
  exact .draw p.2 64

theorem Keeps.partTag (s : State) (gone : BitVec 4) (k : Nat) : Keeps s (s.partTag gone k) := by
  unfold State.partTag
  dsimp only
  exact .ite (.refl _) (.after (.setTag ..) (.lesser ..))

theorem Keeps.tollRecovery (s : State) : Keeps s s.tollRecovery := by
  unfold State.tollRecovery
  dsimp only
  split
  · refine .ite ?_ ?_
    · refine .ite ?_ ?_
      · refine .after (.cutAt ..) ?_
        refine .after .upd ?_
        refine .after (.foldl _ (fun _ _ => .after (.closeTag ..) (.setTag ..)) _) ?_
        refine .after (.foldl _ (fun _ _ => .partTag ..) _) ?_
        split
        · dsimp only
          exact .refl _
        · exact .draw ..
      · refine .after (.foldl _ (fun _ _ => .publish ..) _) ?_
        refine .after (.cutAt ..) ?_
        refine .after .upd ?_
        refine .after (.foldl _ (fun _ _ => .after (.closeTag ..) (.setTag ..)) _) ?_
        refine .after (.foldl _ (fun _ _ => .partTag ..) _) ?_
        split
        · dsimp only
          exact .refl _
        · exact .draw ..
    · refine .after .upd ?_
      refine .after (.foldl _ (fun _ _ => .after (.closeTag ..) (.setTag ..)) _) ?_
      refine .after (.foldl _ (fun _ _ => .partTag ..) _) ?_
      split
      · dsimp only
        exact .refl _
      · exact .draw ..
  · refine .after .upd ?_
    refine .after (.foldl _ (fun _ _ => .after (.closeTag ..) (.setTag ..)) _) ?_
    refine .after (.foldl _ (fun _ _ => .partTag ..) _) ?_
    split
    · dsimp only
      exact .refl _
    · exact .draw ..

theorem KeepsOut.tlWinIndexWrite (s : State) (init : Initiator) (ctd w : Fin 2) (value : BitVec 32) : KeepsOut s
    (execTlWinIndexWrite init ctd w value s) := by
  unfold execTlWinIndexWrite
  dsimp only
  refine .next ?_
  refine .ite ?_ ?_
  · exact .fail ..
  · refine .ite ?_ ?_
    · exact .fail ..
    · split <;> exact .after .upd (.answer ..)

theorem Keeps.body_dTollTagQuery (s : State) (w : Who) (a : List Nat) : Keeps s (dTollTagQuery.body s w a).s := by
  unfold dTollTagQuery
  dsimp only
  exact .refl _

theorem Keeps.body_dTollManifestRead (s : State) (w : Who) (a : List Nat) : Keeps s (dTollManifestRead.body s w a).s := by
  unfold dTollManifestRead
  dsimp only
  split <;> exact .refl _

theorem Keeps.body_dTollRecordRead (s : State) (w : Who) (a : List Nat) : Keeps s (dTollRecordRead.body s w a).s := by
  unfold dTollRecordRead
  dsimp only
  split <;> exact .refl _

theorem Keeps.body_dTollKeyRead (s : State) (w : Who) (a : List Nat) : Keeps s (dTollKeyRead.body s w a).s := by
  unfold dTollKeyRead
  dsimp only
  exact .refl _

theorem Keeps.body_dTollKeyRotate (s : State) (w : Who) (a : List Nat) : Keeps s (dTollKeyRotate.body s w a).s := by
  unfold dTollKeyRotate
  dsimp only
  exact .iteRes (.clampHit ..) (.iteRes (.refl _) .upd)

theorem Keeps.newKey (s : State) (c : Nat) : Keeps s (s.newKey c) := by
  unfold State.newKey
  dsimp only
  exact .upd

theorem KeepsOut.tollKeyRotated (s : State) : KeepsOut s (execTollKeyRotated s) := by
  unfold execTollKeyRotated
  dsimp only
  refine .next ?_
  split
  · exact .after (.finish ..) (.after (.log ..) (.after .upd (.newKey ..)))
  · split
    · exact .after (.logTo ..) (.newKey ..)
    · exact .refl _

theorem Keeps.body_dCalRead (s : State) (w : Who) (a : List Nat) : Keeps s (dCalRead.body s w a).s := by
  unfold dCalRead
  dsimp only
  exact .refl _

theorem Keeps.body_dCalHash (s : State) (w : Who) (a : List Nat) : Keeps s (dCalHash.body s w a).s := by
  unfold dCalHash
  dsimp only
  exact .refl _

theorem KeepsOut.tollTagQuery (s : State) (r : DReq) : KeepsOut s (execTollTagQuery r s) := by
  unfold execTollTagQuery
  exact .next (.runDarid (fun _ _ _ => .body_dTollTagQuery ..) ..)

theorem KeepsOut.tollManifestRead (s : State) (r : DReq) : KeepsOut s (execTollManifestRead r s) := by
  unfold execTollManifestRead
  exact .next (.runDarid (fun _ _ _ => .body_dTollManifestRead ..) ..)

theorem KeepsOut.tollRecordRead (s : State) (r : DReq) : KeepsOut s (execTollRecordRead r s) := by
  unfold execTollRecordRead
  exact .next (.runDarid (fun _ _ _ => .body_dTollRecordRead ..) ..)

theorem KeepsOut.tollKeyRead (s : State) (r : DReq) : KeepsOut s (execTollKeyRead r s) := by
  unfold execTollKeyRead
  exact .next (.runDarid (fun _ _ _ => .body_dTollKeyRead ..) ..)

theorem KeepsOut.tollKeyRotate (s : State) (r : DReq) : KeepsOut s (execTollKeyRotate r s) := by
  unfold execTollKeyRotate
  exact .next (.runDarid (fun _ _ _ => .body_dTollKeyRotate ..) ..)

theorem KeepsOut.calRead (s : State) (r : DReq) : KeepsOut s (execCalRead r s) := by
  unfold execCalRead
  exact .next (.runDarid (fun _ _ _ => .body_dCalRead ..) ..)

theorem KeepsOut.calHash (s : State) (r : DReq) : KeepsOut s (execCalHash r s) := by
  unfold execCalHash
  exact .next (.runDarid (fun _ _ _ => .body_dCalHash ..) ..)

/-! ### Lease, switchover and recovery (`Machine/Continuity`) -/

theorem Keeps.holdCtd (s : State) (c : Nat) : Keeps s (s.holdCtd c) := by
  unfold State.holdCtd
  dsimp only
  exact .after .upd (.setCtd ..)

theorem Keeps.takeTotals (s : State) : Keeps s s.takeTotals := by
  unfold State.takeTotals
  dsimp only
  split
  · exact .refl _
  · exact .ite (.refl _) (.after .upd (.foldl _ (fun _ _ => .setPort ..) _))

theorem Keeps.loseWaybill (s : State) (cause : Nat) : Keeps s (s.loseWaybill cause) := by
  unfold State.loseWaybill
  dsimp only
  split
  · exact .refl _
  · exact .after .upd (.after (.setLease ..) (.after (.setCtd ..) (.after (.holdCtd ..) (.after (.foldl _ (fun _ _ => .endRun
        ..) _) (.takeTotals ..)))))

theorem Keeps.expire (s : State) : Keeps s s.expire := by
  unfold State.expire
  exact .ite (.loseWaybill ..) (.refl _)

theorem KeepsOut.leaseExpiry (s : State) : KeepsOut s (execLeaseExpiry s) := by
  unfold execLeaseExpiry
  exact .next (.expire ..)

theorem Keeps.guardOver (s : State) : Keeps s s.guardOver := by
  unfold State.guardOver
  split
  · exact .ite (.setLease ..) (.refl _)
  · exact .refl _

theorem KeepsOut.leaseGuardEnd (s : State) : KeepsOut s (execLeaseGuardEnd s) := by
  unfold execLeaseGuardEnd
  exact .next (.guardOver ..)

theorem Keeps.noteRelease (s : State) (c : Nat) : Keeps s (s.noteRelease c) := by
  unfold State.noteRelease
  dsimp only
  exact .ite (.refl _) .upd

theorem Keeps.becomeStandby (s : State) (c : Nat) : Keeps s (s.becomeStandby c) := by
  unfold State.becomeStandby
  exact .setCtd ..

theorem Keeps.grant (s : State) (c : Nat) : Keeps s (s.grant c) := by
  unfold State.grant
  dsimp only
  exact .after (.ite (.becomeStandby ..) (.refl _)) (.after (.foldl _ (fun _ _ => .logFw ..) _) (.after (.noteRelease ..)
      (.after (.setCtd ..) (.after .upd (.setLease ..)))))

theorem Keeps.loseAt (s : State) (cause : Nat) : Keeps s (s.loseAt cause) := by
  unfold State.loseAt
  dsimp only
  exact .after (.foldl _ (fun _ _ => .ite (.grant ..) (.refl _)) _) (.after (.setLease ..) (.after (.ite (.setLease ..) (.refl
      _)) (.loseWaybill ..)))

theorem Keeps.wdogExpire (s : State) (c : Nat) : Keeps s (s.wdogExpire c) := by
  unfold State.wdogExpire
  dsimp only
  exact .after (.ite (.logTo ..) (.refl _)) (.after (.ite (.loseAt ..) (.holdCtd ..)) (.setCtd ..))

theorem Keeps.settleLease (s : State) : Keeps s s.settleLease := by
  unfold State.settleLease
  dsimp only
  split
  · exact .after (.ite (.wdogExpire ..) (.refl _)) (.expire ..)
  · exact .expire ..

theorem KeepsOut.leaseClaim (s : State) (init : Initiator) (gen : BitVec 32) : KeepsOut s (execLeaseClaim init gen s) := by
  unfold execLeaseClaim
  dsimp only
  refine .next ?_
  split
  · exact .fail ..
  · exact .after (.ite (.grant ..) (.setLease ..)) (.after (.answer ..) (.after (.guardOver ..) (.settleLease ..)))

theorem KeepsOut.leaseRelease (s : State) (init : Initiator) (value : BitVec 32) : KeepsOut s (execLeaseRelease init value s) :=
    by
  unfold execLeaseRelease
  dsimp only
  refine .next ?_
  split
  · exact .fail ..
  · exact .after (.ite (.loseAt ..) (.refl _)) (.after (.answer ..) (.settleLease ..))

theorem Keeps.drainFifos (s : State) (c : Nat) : Keeps s (s.drainFifos c).1 := by
  unfold State.drainFifos
  dsimp only
  exact .foldlFst _ (fun _ _ => .after (.foldl _ (fun _ _ => .ite (.stepAdvance ..) (.withLog ..)) _) (.setDie ..)) _

theorem Keeps.takeCaches (s : State) (c : Nat) : Keeps s (s.takeCaches c) := by
  unfold State.takeCaches
  dsimp only
  exact .foldl _ (fun _ _ => .setChan ..) _

theorem Keeps.rotationEntry (s : State) : Keeps s s.rotationEntry := by
  unfold State.rotationEntry
  exact .setSched ..

theorem Keeps.logLatch (s : State) : Keeps s s.logLatch := by
  unfold State.logLatch
  dsimp only
  exact .ite (.refl _) (.after .upd (.logFw ..))

theorem Keeps.firstOpen (s : State) (c : Nat) : Keeps s (s.firstOpen c) := by
  unfold State.firstOpen
  dsimp only
  exact .after (.ite (.refl _) (.after (.ite (.refl _) (.foldl _ (fun _ _ => .setSv ..) _)) .upd)) (.after (.logLatch ..)
      (.after (.rotationEntry ..) (.after (.ite (.refl _) (.withLog ..)) (.after (.ite (.refl _) (.logFw ..)) (.after (.ite
      (.refl _) (.logFw ..)) (.after (.ite (.refl _) (.logFw ..)) (.after (.logFw ..) (.after (.draw ..) (.draw ..)))))))))

theorem Keeps.openGates (s : State) (c : Nat) : Keeps s (s.openGates c) := by
  unfold State.openGates
  dsimp only
  refine .ite ?_ ?_
  · refine .after (.firstOpen ..) ?_
    refine .ite ?_ ?_
    · refine .after (.resumeJobs ..) ?_
      refine .after (.logFw ..) ?_
      refine .after (.takeCaches ..) ?_
      refine .after (.setLease ..) ?_
      split
      · exact .drainFifos ..
      · dsimp only
        exact .refl _
    · refine .after (.jobSweep ..) ?_
      refine .after (.setLease ..) ?_
      split
      · exact .drainFifos ..
      · dsimp only
        exact .refl _
  · refine .ite ?_ ?_
    · refine .after (.resumeJobs ..) ?_
      refine .after (.logFw ..) ?_
      refine .after (.takeCaches ..) ?_
      refine .after (.setLease ..) ?_
      split
      · exact .drainFifos ..
      · dsimp only
        exact .refl _
    · refine .after (.jobSweep ..) ?_
      refine .after (.setLease ..) ?_
      split
      · exact .drainFifos ..
      · dsimp only
        exact .refl _

theorem KeepsOut.leaseOpen (s : State) (init : Initiator) (value : BitVec 32) : KeepsOut s (execLeaseOpen init value s) := by
  unfold execLeaseOpen
  dsimp only
  refine .next ?_
  split
  · exact .fail ..
  · exact .after (.ite (.refl _) (.ite (.setLease ..) (.openGates ..))) (.after (.answer ..) (.settleLease ..))

theorem KeepsOut.leaseRenew (s : State) (init : Initiator) (gen : BitVec 32) : KeepsOut s (execLeaseRenew init gen s) := by
  unfold execLeaseRenew
  dsimp only
  refine .next ?_
  split
  · exact .fail ..
  · exact .after (.ite (.after (.ite (.openGates ..) (.refl _)) (.setLease ..)) (.after (.log ..) (.setLease ..))) (.after
        (.answer ..) (.settleLease ..))

theorem KeepsOut.ctdWdogKick (s : State) (init : Initiator) (ctd : Fin 2) (value : BitVec 32) : KeepsOut s (execCtdWdogKick init
    ctd value s) := by
  unfold execCtdWdogKick
  dsimp only
  exact .next (.ite (.fail ..) (.ite (.fail ..) (.after (.ite (.setCtd ..) (.refl _)) (.answer ..))))

theorem KeepsOut.ctdWdogExpired (s : State) (ctd : Fin 2) : KeepsOut s (execCtdWdogExpired ctd s) := by
  unfold execCtdWdogExpired
  dsimp only
  exact .next (.after (.ite (.wdogExpire ..) (.refl _)) (.expire ..))

theorem Keeps.failCtd (s : State) (c test detail : Nat) : Keeps s (s.failCtd c test detail) := by
  unfold State.failCtd
  exact .after (.logTo ..) (.setCtd ..)

theorem KeepsOut.holderResetRelease (s : State) (ctd : Fin 2) (selfTestFail : Option (Fin 6)) : KeepsOut s
    (execHolderResetRelease ctd selfTestFail s) := by
  unfold execHolderResetRelease
  dsimp only
  refine .next ?_
  split
  · exact .refl _
  · refine .ite ?_ ?_
    · exact .refl _
    · refine .ite ?_ ?_
      · refine .after (.failCtd ..) ?_
        split
        · exact .after (.logTo ..) (.after (.setCtd ..) (.bootCtd ..))
        · exact .after (.setCtd ..) (.bootCtd ..)
      · split
        · refine .after (.failCtd ..) ?_
          split
          · exact .after (.draw ..) (.after (.logTo ..) (.after (.setCtd ..) (.bootCtd ..)))
          · exact .after (.draw ..) (.after (.setCtd ..) (.bootCtd ..))
        · refine .ite ?_ ?_
          · split
            · exact .after (.logTo ..) (.after (.setCtd ..) (.bootCtd ..))
            · exact .after (.setCtd ..) (.bootCtd ..)
          · refine .ite ?_ ?_
            · split
              · exact .after (.logTo ..) (.after (.setCtd ..) (.bootCtd ..))
              · exact .after (.setCtd ..) (.bootCtd ..)
            · refine .after (.becomeStandby ..) ?_
              split
              · exact .after (.logTo ..) (.after (.setCtd ..) (.bootCtd ..))
              · exact .after (.setCtd ..) (.bootCtd ..)

theorem KeepsOut.standbyLeasePoll (s : State) (ctd : Fin 2) : KeepsOut s (execStandbyLeasePoll ctd s) := by
  unfold execStandbyLeasePoll
  dsimp only
  exact .next (.ite (.grant ..) (.refl _))

theorem Keeps.standbyGood (s : State) (c : Nat) : Keeps s (s.standbyGood c) := by
  unfold State.standbyGood
  exact .after (.noteRelease ..) (.setCtd ..)

theorem KeepsOut.mirrorCheck (s : State) (seqSent crcSent crcOwn : BitVec 32) : KeepsOut s (execMirrorCheck seqSent crcSent
    crcOwn s) := by
  unfold execMirrorCheck
  dsimp only
  refine .next ?_
  refine .ite ?_ ?_
  · exact .refl _
  · split
    · exact .upd
    · exact .after (.ite (.refl _) (.ite (.after (.ite (.standbyGood ..) (.refl _)) (.setCtd ..)) (.after (.logTo ..) (.setCtd
          ..)))) .upd

theorem KeepsOut.resyncCopyDone (s : State) (ctd : Fin 2) : KeepsOut s (execResyncCopyDone ctd s) := by
  unfold execResyncCopyDone
  dsimp only
  exact .next (.ite (.after (.setCtd ..) .upd) (.refl _))

theorem KeepsOut.standbySelfTest (s : State) (ctd : Fin 2) (test : Fin 3) (pass : Bool) (detail : BitVec 32) : KeepsOut s
    (execStandbySelfTest ctd test pass detail s) := by
  unfold execStandbySelfTest
  dsimp only
  exact .next (.ite (.refl _) (.after (.ite (.refl _) (.failCtd ..)) (.ite (.setCtd ..) (.refl _))))

theorem KeepsOut.standbyHealth (s : State) (ctd : Fin 2) (timeDiffNs tempC : BitVec 32) : KeepsOut s (execStandbyHealth ctd
    timeDiffNs tempC s) := by
  unfold execStandbyHealth
  dsimp only
  refine .next ?_
  refine .ite ?_ ?_
  · exact .refl _
  · refine .after (.finishAll ..) ?_
    refine .after (.setCtd ..) ?_
    split
    · exact .after (.withLog ..) (.after (.logTo ..) (.setCtd ..))
    · exact .after (.logTo ..) (.setCtd ..)

theorem Keeps.countRecovery (s : State) : Keeps s s.countRecovery := by
  unfold State.countRecovery
  dsimp only
  exact .after (.ite (.refl _) (.after .upd (.draw ..))) .upd

theorem Keeps.undefStarted (s : State) : Keeps s s.undefStarted := by
  unfold State.undefStarted
  dsimp only
  exact .foldl _ (fun _ _ => .undefine ..) _

theorem Keeps.loseDies (s : State) : Keeps s s.loseDies := by
  unfold State.loseDies
  dsimp only
  exact .after .upd (.after (.foldl _ (fun _ _ => .coldDie ..) _) (.after .upd (.after (.foldl _ (fun _ _ => .setCellar ..) _)
      (.after (.foldl _ (fun _ _ => .linkDown ..) _) (.undefStarted ..)))))

theorem Keeps.startRecovery (s : State) (cause : Nat) : Keeps s (s.startRecovery cause) := by
  unfold State.startRecovery
  dsimp only
  exact .ite (.refl _) (.after (.setLease ..) (.after .upd (.after (.foldl _ (fun _ _ => .holdCtd ..) _) (.after (.loseDies ..)
      (.after (.tollRecovery ..) (.after (.ite (.refl _) (.countRecovery ..)) (.ite (.loseWaybill ..) (.refl _))))))))

theorem KeepsOut.switchoverGapTimeout (s : State) : KeepsOut s (execSwitchoverGapTimeout s) := by
  unfold execSwitchoverGapTimeout
  refine .next ?_
  split
  · exact .ite (.startRecovery ..) (.refl _)
  · exact .refl _

theorem Keeps.huskFill (s : State) (lost powerLost : BitVec 24) : Keeps s (s.huskFill lost powerLost) := by
  unfold State.huskFill
  refine .ite (.refl _) ?_
  extract_lets gone u
  have hu : Keeps s u := .setMem fun m h => Mem.wf_fill _ _ _ h
  exact .after (.foldl _ (fun _ _ => .after (.log ..) (.noteHusks ..)) _) hu

theorem Keeps.recoverDies (s : State) (lost powerLost : BitVec 24) (patterns : List (Nat × List PatternResult)) : Keeps s
    (s.recoverDies lost powerLost patterns) := by
  unfold State.recoverDies
  dsimp only
  exact .after (.pathCheck ..) (.after (.ite (.podEntries ..) (.refl _)) (.after (.rotationEntry ..) (.after (.foldl _ (fun _ _
      => .resetRun ..) _) (.after (.foldl _ (fun _ _ => .setMemDie ..) _) (.after (.foldl _ (fun _ _ => .setStack ..) _) (.after
      (.huskFill ..) .upd))))))

theorem KeepsOut.moduleRecovery (s : State) (lostStacks : LostStacks) (patterns : List (Nat × List PatternResult)) : KeepsOut s
    (execModuleRecovery lostStacks patterns s) := by
  unfold execModuleRecovery
  dsimp only
  exact .next (.ite (.refl _) (.after (.logLatch ..) (.after (.logFw ..) (.after (.ite (.refl _) (.after (.trainAll ..)
      (.releaseHarts ..))) (.after (.setLease ..) (.ite (.refl _) (.recoverDies ..)))))))

theorem KeepsOut.resetEscalated (s : State) (level : ResetLevel) (unit : Nat) : KeepsOut s (execResetEscalated level unit s) :=
    by
  unfold execResetEscalated
  dsimp only
  refine .next ?_
  split
  · exact .refl _
  · refine .ite ?_ ?_
    · exact .refl _
    · split
      · exact .after (.foldl _ (fun _ _ => .startEngReset ..) _) (.logDie ..)
      · exact .after (.startDieReset ..) (.logDie ..)
      · exact .after (.startRecovery ..) (.logDie ..)
      · exact .after (.startRecovery ..) (.logDie ..)

theorem Keeps.body_dModuleRecover (s : State) (w : Who) (a : List Nat) : Keeps s (dModuleRecover.body s w a).s := by
  unfold dModuleRecover
  dsimp only
  exact .setLease ..

theorem Keeps.body_dSwitchover (s : State) (w : Who) (a : List Nat) : Keeps s (dSwitchover.body s w a).s := by
  unfold dSwitchover
  dsimp only
  split
  · exact .iteRes (.setLease ..) (.refl _)
  · exact .refl _

theorem Keeps.body_dOosQuery (s : State) (w : Who) (a : List Nat) : Keeps s (dOosQuery.body s w a).s := by
  unfold dOosQuery
  dsimp only
  exact .refl _

theorem Keeps.body_dOosLatchClear (s : State) (w : Who) (a : List Nat) : Keeps s (dOosLatchClear.body s w a).s := by
  unfold dOosLatchClear
  dsimp only
  exact .iteRes (.refl _) (.iteRes (.after .upd (.draw ..)) (.after (.setLease ..) (.after (.logFw ..) .upd)))

theorem Keeps.flushUp (s : State) (c ch n : Nat) : Keeps s (s.flushUp c ch n) := by
  induction n generalizing s with
  | zero => exact .refl _
  | succ n ih =>
    unfold State.flushUp
    dsimp only
    split
    · exact .refl _
    · refine .after (ih _) ?_
      split
      · exact .ite (.after (.sendUdp ..) (.setChan ..)) (.after (.sendMgmt ..) (.setChan ..))
      · exact .setChan ..

theorem Keeps.afterResponse (s : State) (c ch : Nat) : Keeps s (s.afterResponse c ch) := by
  unfold State.afterResponse
  dsimp only
  exact .ite (.refl _) (.after .upd (.after (.ite (.loseAt ..) (.ite (.unbind ..) (.startRecovery ..))) (.after (.setLease ..)
      (.flushUp ..))))

theorem KeepsOut.moduleRecover (s : State) (r : DReq) : KeepsOut s (execModuleRecover r s) := by
  unfold execModuleRecover
  exact .next (.after (.afterResponse ..) (.runDarid (fun _ _ _ => .body_dModuleRecover ..) ..))

theorem KeepsOut.switchover (s : State) (r : DReq) : KeepsOut s (execSwitchover r s) := by
  unfold execSwitchover
  exact .next (.after (.afterResponse ..) (.runDarid (fun _ _ _ => .body_dSwitchover ..) ..))

theorem KeepsOut.oosQuery (s : State) (r : DReq) : KeepsOut s (execOosQuery r s) := by
  unfold execOosQuery
  exact .next (.runDarid (fun _ _ _ => .body_dOosQuery ..) ..)

theorem KeepsOut.oosLatchClear (s : State) (r : DReq) : KeepsOut s (execOosLatchClear r s) := by
  unfold execOosLatchClear
  exact .next (.after (.afterResponse ..) (.runDarid (fun _ _ _ => .body_dOosLatchClear ..) ..))

end Sys2Proof.Machine
end

