-- ==== Sys2Proof/Proofs/KeepsCommands.lean ====
section
/-! PROOFS. The same for the commands of the package, contexts, slices and the staging area. -/

-- One theorem after the other: threads that wait for one another would each take a stack of the check's memory.
set_option Elab.async false

namespace Sys2Proof.Machine

/-! ### Registers (`Machine/Regs`) -/

theorem Keeps.setRcField (s : State) (r : Reg) (lo v : Nat) : Keeps s (s.setRcField r lo v) := by
  unfold State.setRcField
  dsimp only
  split
  · exact .ite (.setTime ..) (.refl _)
  · exact .setDie ..
  · exact .setDie ..
  · exact .setEng ..
  · exact .setEng ..
  · exact .setEng ..
  · exact .setEng ..
  · exact .setEng ..
  · exact .upd
  · exact .upd
  · exact .upd
  · exact .setMemDie ..
  · exact .setMemDie ..
  · exact .setMemDie ..
  · exact .setMemDie ..
  · exact .setStack ..
  · exact .setStack ..
  · exact .setStack ..
  · exact .setStack ..
  · exact .setWg ..
  · exact .setWg ..
  · exact .setWg ..
  · exact .setWg ..
  · exact .setWg ..
  · exact .setWg ..
  · exact .setWg ..
  · exact .setWg ..
  · exact .setWg ..
  · exact .setPort ..
  · exact .setPort ..
  · exact .setPort ..
  · exact .setPort ..
  · exact .setPort ..
  · exact .setPort ..
  · exact .setPort ..
  · exact .setLease ..
  · exact .setLease ..
  · exact .setLease ..
  · exact .setCtd ..
  · exact .upd
  · exact .setChan ..
  · exact .setCounters ..
  · exact .upd
  · exact .upd
  · exact .upd
  · exact .upd
  · exact .upd
  · exact .upd
  · exact .upd
  · exact .refl _

theorem Keeps.clearRc (s : State) (r : Reg) (width : Nat) (upper : Bool) (hwSet : Nat) : Keeps s (s.clearRc r width upper hwSet)
    := by
  unfold State.clearRc
  exact .foldl _ (fun _ _ => .setRcField ..) _

/-! ### The package (`Machine/Package`) -/

theorem Keeps.writeId (s : State) (v : Nat) : Keeps s (s.writeId v) := by
  unfold State.writeId
  dsimp only
  refine .ite ?_ ?_
  · exact .refl _
  · split
    · exact .after (.releaseHarts ..) (.after (.trainAll ..) .upd)
    · exact .logFw ..

theorem KeepsOut.modIdWrite (s : State) (init : Initiator) (value : BitVec 32) : KeepsOut s (execModIdWrite init value s) := by
  unfold execModIdWrite
  exact .next (.ite (.fail ..) (.after (.ite (.writeId ..) (.refl _)) (.answer ..)))

theorem Keeps.writeSpare (s : State) (v : Nat) : Keeps s (s.writeSpare v) := by
  unfold State.writeSpare
  dsimp only
  exact .ite (.refl _) (.after (.ite (.applySpare ..) (.refl _)) .upd)

theorem KeepsOut.modOptSpareWrite (s : State) (init : Initiator) (value : BitVec 32) : KeepsOut s (execModOptSpareWrite init
    value s) := by
  unfold execModOptSpareWrite
  exact .next (.ite (.fail ..) (.after (.ite (.writeSpare ..) (.refl _)) (.answer ..)))

theorem Keeps.body_dInvCaps (s : State) (w : Who) (a : List Nat) : Keeps s (dInvCaps.body s w a).s := by
  unfold dInvCaps
  dsimp only
  exact .refl _

theorem Keeps.body_dInvDie (s : State) (w : Who) (a : List Nat) : Keeps s (dInvDie.body s w a).s := by
  unfold dInvDie
  dsimp only
  exact .refl _

theorem Keeps.body_dInvStack (s : State) (w : Who) (a : List Nat) : Keeps s (dInvStack.body s w a).s := by
  unfold dInvStack
  dsimp only
  exact .refl _

theorem Keeps.body_dInvOptical (s : State) (w : Who) (a : List Nat) : Keeps s (dInvOptical.body s w a).s := by
  unfold dInvOptical
  dsimp only
  exact .refl _

theorem Keeps.body_dInvCtd (s : State) (w : Who) (a : List Nat) : Keeps s (dInvCtd.body s w a).s := by
  unfold dInvCtd
  dsimp only
  exact .refl _

theorem Keeps.body_dInvSetId (s : State) (w : Who) (a : List Nat) : Keeps s (dInvSetId.body s w a).s := by
  unfold dInvSetId
  dsimp only
  exact .iteRes (.refl _) (.writeId ..)

theorem Keeps.body_dInvSetSpare (s : State) (w : Who) (a : List Nat) : Keeps s (dInvSetSpare.body s w a).s := by
  unfold dInvSetSpare
  dsimp only
  exact .iteRes (.writeSpare ..) (.after .upd (.writeSpare ..))

theorem Keeps.body_dChannelRelease (s : State) (w : Who) (a : List Nat) : Keeps s (dChannelRelease.body s w a).s := by
  unfold dChannelRelease
  dsimp only
  exact .setLease ..

theorem KeepsOut.invCaps (s : State) (r : DReq) : KeepsOut s (execInvCaps r s) := by
  unfold execInvCaps
  exact .next (.runDarid (fun _ _ _ => .body_dInvCaps ..) ..)

theorem KeepsOut.invDie (s : State) (r : DReq) : KeepsOut s (execInvDie r s) := by
  unfold execInvDie
  exact .next (.runDarid (fun _ _ _ => .body_dInvDie ..) ..)

theorem KeepsOut.invStack (s : State) (r : DReq) : KeepsOut s (execInvStack r s) := by
  unfold execInvStack
  exact .next (.runDarid (fun _ _ _ => .body_dInvStack ..) ..)

theorem KeepsOut.invOptical (s : State) (r : DReq) : KeepsOut s (execInvOptical r s) := by
  unfold execInvOptical
  exact .next (.runDarid (fun _ _ _ => .body_dInvOptical ..) ..)

theorem KeepsOut.invCtd (s : State) (r : DReq) : KeepsOut s (execInvCtd r s) := by
  unfold execInvCtd
  exact .next (.runDarid (fun _ _ _ => .body_dInvCtd ..) ..)

theorem KeepsOut.invSetId (s : State) (r : DReq) : KeepsOut s (execInvSetId r s) := by
  unfold execInvSetId
  exact .next (.runDarid (fun _ _ _ => .body_dInvSetId ..) ..)

theorem KeepsOut.invSetSpare (s : State) (r : DReq) : KeepsOut s (execInvSetSpare r s) := by
  unfold execInvSetSpare
  exact .next (.runDarid (fun _ _ _ => .body_dInvSetSpare ..) ..)

theorem KeepsOut.channelRelease (s : State) (r : DReq) : KeepsOut s (execChannelRelease r s) := by
  unfold execChannelRelease
  exact .next (.after (.afterResponse ..) (.runDarid (fun _ _ _ => .body_dChannelRelease ..) ..))

theorem KeepsOut.channelBindingExpiry (s : State) (ch : Fin 512) : KeepsOut s (execChannelBindingExpiry ch s) := by
  unfold execChannelBindingExpiry
  refine .next ?_
  split
  · exact .ite (.unbind ..) (.refl _)
  · exact .refl _

theorem Keeps.body_dLinkEnable (s : State) (w : Who) (a : List Nat) : Keeps s (dLinkEnable.body s w a).s := by
  unfold dLinkEnable
  dsimp only
  exact .iteRes (.clampHit ..) (.iteRes (.after (.foldl _ (fun _ _ => .train ..) _) .upd) (.after (.ite (.after (.setCellar ..)
      (.cellarLost ..)) (.refl _)) (.after (.foldl _ (fun _ _ => .after (.portSettled ..) (.linkDown ..)) _) .upd)))

theorem Keeps.body_dLinkRetrain (s : State) (w : Who) (a : List Nat) : Keeps s (dLinkRetrain.body s w a).s := by
  unfold dLinkRetrain
  dsimp only
  exact .iteRes (.refl _) (.after (.setPort ..) (.ite (.train ..) (.startRetrain ..)))

theorem Keeps.body_dLinkRemap (s : State) (w : Who) (a : List Nat) : Keeps s (dLinkRemap.body s w a).s := by
  unfold dLinkRemap
  dsimp only
  exact .iteRes (.refl _) (.iteRes (.refl _) (.iteRes (.refl _) (.iteRes (.refl _) (.after (.ite (.startRetrain ..) (.train ..))
      (.after (.rebound ..) (.after (.setPort ..) (.foldl _ (fun _ _ => .after (.setPort ..) (.after (.portSettled ..)
      (.linkDown ..))) _)))))))

theorem Keeps.body_dLinkQuery (s : State) (w : Who) (a : List Nat) : Keeps s (dLinkQuery.body s w a).s := by
  unfold dLinkQuery
  dsimp only
  exact .refl _

theorem Keeps.writeRouteCtrl (s : State) (v : Nat) : Keeps s (s.writeRouteCtrl v) := by
  unfold State.writeRouteCtrl
  dsimp only
  exact .upd

theorem Keeps.writeTxnCtrl (s : State) (v : Nat) : Keeps s (s.writeTxnCtrl v) := by
  unfold State.writeTxnCtrl
  dsimp only
  exact .upd

theorem Keeps.body_dRouteConfig (s : State) (w : Who) (a : List Nat) : Keeps s (dRouteConfig.body s w a).s := by
  unfold dRouteConfig
  dsimp only
  exact .after (.writeTxnCtrl ..) (.writeRouteCtrl ..)

theorem Keeps.writeCircuit (s : State) (n : Nat) (v : Word) : Keeps s (s.writeCircuit n v) := by
  unfold State.writeCircuit
  dsimp only
  exact .upd

theorem Keeps.body_dCircuitRouteSet (s : State) (w : Who) (a : List Nat) : Keeps s (dCircuitRouteSet.body s w a).s := by
  unfold dCircuitRouteSet
  dsimp only
  exact .writeCircuit ..

theorem KeepsOut.linkEnable (s : State) (r : DReq) : KeepsOut s (execLinkEnable r s) := by
  unfold execLinkEnable
  exact .next (.runDarid (fun _ _ _ => .body_dLinkEnable ..) ..)

theorem KeepsOut.linkRetrain (s : State) (r : DReq) : KeepsOut s (execLinkRetrain r s) := by
  unfold execLinkRetrain
  exact .next (.runDarid (fun _ _ _ => .body_dLinkRetrain ..) ..)

theorem KeepsOut.linkRemap (s : State) (r : DReq) : KeepsOut s (execLinkRemap r s) := by
  unfold execLinkRemap
  exact .next (.runDarid (fun _ _ _ => .body_dLinkRemap ..) ..)

theorem KeepsOut.linkQuery (s : State) (r : DReq) : KeepsOut s (execLinkQuery r s) := by
  unfold execLinkQuery
  exact .next (.runDarid (fun _ _ _ => .body_dLinkQuery ..) ..)

theorem KeepsOut.routeConfig (s : State) (r : DReq) : KeepsOut s (execRouteConfig r s) := by
  unfold execRouteConfig
  exact .next (.runDarid (fun _ _ _ => .body_dRouteConfig ..) ..)

theorem KeepsOut.circuitRouteSet (s : State) (r : DReq) : KeepsOut s (execCircuitRouteSet r s) := by
  unfold execCircuitRouteSet
  exact .next (.runDarid (fun _ _ _ => .body_dCircuitRouteSet ..) ..)

/-! ### Contexts and queues (`Machine/Contexts`) -/

theorem Keeps.body_dContextCreate (s : State) (w : Who) (a : List Nat) : Keeps s (dContextCreate.body s w a).s := by
  unfold dContextCreate
  dsimp only
  exact .iteRes (.refl _) (.setCtx ..)

theorem Keeps.allot (s : State) (c kind : Nat) (units : List Nat) : Keeps s (s.allot c kind units) := by
  unfold State.allot
  dsimp only
  exact .upd

theorem Keeps.body_dContextGrant (s : State) (w : Who) (a : List Nat) : Keeps s (dContextGrant.body s w a).s := by
  unfold dContextGrant
  dsimp only
  refine .iteRes ?_ ?_
  · exact .refl _
  · split
    · split
      · exact .iteRes (.refl _) (.refl _)
      · exact .setCtx ..
    · exact .setCtx ..
    · exact .setCtx ..
    · exact .iteRes (.refl _) (.iteRes (.refl _) (.allot ..))

theorem Keeps.body_dContextRevoke (s : State) (w : Who) (a : List Nat) : Keeps s (dContextRevoke.body s w a).s := by
  unfold dContextRevoke
  dsimp only
  refine .iteRes ?_ ?_
  · exact .refl _
  · split
    · exact .iteRes (.refl _) (.iteRes (.refl _) (.setCtx ..))
    · exact .setCtx ..
    · exact .iteRes (.refl _) (.setCtx ..)
    · exact .iteRes (.refl _) (.iteRes (.refl _) .upd)

theorem Keeps.body_dQueueCreate (s : State) (w : Who) (a : List Nat) : Keeps s (dQueueCreate.body s w a).s := by
  unfold dQueueCreate
  dsimp only
  refine .iteRes ?_ ?_
  · exact .refl _
  · refine .iteRes ?_ ?_
    · exact .refl _
    · split
      · exact .refl _
      · exact .refl _
      · exact .iteRes (.refl _) (.iteRes (.refl _) (.iteRes (.refl _) (.iteRes (.refl _) (.iteRes (.refl _) .upd))))

theorem Keeps.body_dQueueSetIrq (s : State) (w : Who) (a : List Nat) : Keeps s (dQueueSetIrq.body s w a).s := by
  unfold dQueueSetIrq
  dsimp only
  exact .iteRes (.refl _) (.setQueue ..)

theorem Keeps.body_dQueueDelete (s : State) (w : Who) (a : List Nat) : Keeps s (dQueueDelete.body s w a).s := by
  unfold dQueueDelete
  dsimp only
  split
  · exact .refl _
  · exact .iteRes .upd (.setQueue ..)

theorem Keeps.body_dContextBindHart (s : State) (w : Who) (a : List Nat) : Keeps s (dContextBindHart.body s w a).s := by
  unfold dContextBindHart
  dsimp only
  exact .iteRes (.refl _) (.iteRes (.refl _) .upd)

theorem Keeps.setTwin (s : State) (me : Nat) (b : Bool) : Keeps s (s.setTwin me b) := by
  unfold State.setTwin
  exact .after (.setEng ..) (.setEng ..)

theorem Keeps.body_dTwinJoin (s : State) (w : Who) (a : List Nat) : Keeps s (dTwinJoin.body s w a).s := by
  unfold dTwinJoin
  dsimp only
  exact .iteRes (.refl _) (.iteRes (.refl _) (.after (.allot ..) (.setTwin ..)))

theorem Keeps.body_dTwinSplit (s : State) (w : Who) (a : List Nat) : Keeps s (dTwinSplit.body s w a).s := by
  unfold dTwinSplit
  dsimp only
  exact .iteRes (.refl _) (.iteRes (.refl _) (.after (.allot ..) (.setTwin ..)))

theorem Keeps.body_dContextSetDebug (s : State) (w : Who) (a : List Nat) : Keeps s (dContextSetDebug.body s w a).s := by
  unfold dContextSetDebug
  dsimp only
  exact .iteRes (.refl _) (.iteRes (.refl _) (.after (.ite (.refl _) (.logFw ..)) (.setCtx ..)))

theorem Keeps.body_dContextStashReserve (s : State) (w : Who) (a : List Nat) : Keeps s (dContextStashReserve.body s w a).s := by
  unfold dContextStashReserve
  dsimp only
  exact .iteRes (.refl _) (.iteRes (.refl _) (.iteRes (.refl _) (.iteRes (.refl _) (.iteRes (.refl _) (.iteRes (.refl _)
      (.iteRes (.refl _) (.setStash ..)))))))

theorem Keeps.body_dContextStashRelease (s : State) (w : Who) (a : List Nat) : Keeps s (dContextStashRelease.body s w a).s := by
  unfold dContextStashRelease
  dsimp only
  exact .iteRes (.refl _) (.iteRes (.refl _) (.setStash ..))

theorem Keeps.body_dContextQuery (s : State) (w : Who) (a : List Nat) : Keeps s (dContextQuery.body s w a).s := by
  unfold dContextQuery
  dsimp only
  exact .refl _

theorem KeepsOut.contextCreate (s : State) (r : DReq) : KeepsOut s (execContextCreate r s) := by
  unfold execContextCreate
  exact .next (.runDarid (fun _ _ _ => .body_dContextCreate ..) ..)

theorem KeepsOut.contextGrant (s : State) (r : DReq) : KeepsOut s (execContextGrant r s) := by
  unfold execContextGrant
  exact .next (.runDarid (fun _ _ _ => .body_dContextGrant ..) ..)

theorem KeepsOut.contextRevoke (s : State) (r : DReq) : KeepsOut s (execContextRevoke r s) := by
  unfold execContextRevoke
  exact .next (.runDarid (fun _ _ _ => .body_dContextRevoke ..) ..)

theorem KeepsOut.queueCreate (s : State) (r : DReq) : KeepsOut s (execQueueCreate r s) := by
  unfold execQueueCreate
  exact .next (.runDarid (fun _ _ _ => .body_dQueueCreate ..) ..)

theorem KeepsOut.queueSetIrq (s : State) (r : DReq) : KeepsOut s (execQueueSetIrq r s) := by
  unfold execQueueSetIrq
  exact .next (.runDarid (fun _ _ _ => .body_dQueueSetIrq ..) ..)

theorem KeepsOut.queueDelete (s : State) (r : DReq) : KeepsOut s (execQueueDelete r s) := by
  unfold execQueueDelete
  exact .next (.runDarid (fun _ _ _ => .body_dQueueDelete ..) ..)

theorem KeepsOut.contextBindHart (s : State) (r : DReq) : KeepsOut s (execContextBindHart r s) := by
  unfold execContextBindHart
  exact .next (.runDarid (fun _ _ _ => .body_dContextBindHart ..) ..)

theorem KeepsOut.twinJoin (s : State) (r : DReq) : KeepsOut s (execTwinJoin r s) := by
  unfold execTwinJoin
  exact .next (.runDarid (fun _ _ _ => .body_dTwinJoin ..) ..)

theorem KeepsOut.twinSplit (s : State) (r : DReq) : KeepsOut s (execTwinSplit r s) := by
  unfold execTwinSplit
  exact .next (.runDarid (fun _ _ _ => .body_dTwinSplit ..) ..)

theorem KeepsOut.contextSetDebug (s : State) (r : DReq) : KeepsOut s (execContextSetDebug r s) := by
  unfold execContextSetDebug
  exact .next (.runDarid (fun _ _ _ => .body_dContextSetDebug ..) ..)

theorem KeepsOut.contextStashReserve (s : State) (r : DReq) : KeepsOut s (execContextStashReserve r s) := by
  unfold execContextStashReserve
  exact .next (.runDarid (fun _ _ _ => .body_dContextStashReserve ..) ..)

theorem KeepsOut.contextStashRelease (s : State) (r : DReq) : KeepsOut s (execContextStashRelease r s) := by
  unfold execContextStashRelease
  exact .next (.runDarid (fun _ _ _ => .body_dContextStashRelease ..) ..)

theorem KeepsOut.contextQuery (s : State) (r : DReq) : KeepsOut s (execContextQuery r s) := by
  unfold execContextQuery
  exact .next (.runDarid (fun _ _ _ => .body_dContextQuery ..) ..)

/-! ### Slices (`Machine/Slices`) -/

theorem Keeps.logSlice (s : State) (e old : Nat) (x : SliceEnt) : Keeps s (s.logSlice e old x) := by
  unfold State.logSlice
  exact .logFw ..

theorem Keeps.setSlice (s : State) (e : Nat) (x : SliceEnt) : Keeps s (s.setSlice e x) := by
  unfold State.setSlice
  dsimp only
  exact .upd

theorem Keeps.body_dSliceSet (s : State) (w : Who) (a : List Nat) : Keeps s (dSliceSet.body s w a).s := by
  unfold dSliceSet
  dsimp only
  exact .iteRes (.refl _) (.iteRes (.refl _) (.after (.ite (.trainAll ..) (.refl _)) (.after (.logSlice ..) (.setSlice ..))))

theorem Keeps.body_dSliceEpoch (s : State) (w : Who) (a : List Nat) : Keeps s (dSliceEpoch.body s w a).s := by
  unfold dSliceEpoch
  dsimp only
  split
  · exact .refl _
  · exact .iteRes (.refl _) (.after (.logSlice ..) (.after (.epochConvoys ..) (.after (.foldl _ (fun _ _ => .setCtx ..) _)
        (.setSlice ..))))

theorem Keeps.setSliceWin (s : State) (e w : Nat) (p : Nat × Nat) (valid : Bool) : Keeps s (s.setSliceWin e w p valid) := by
  unfold State.setSliceWin
  dsimp only
  exact .ite (.setSlice ..) .upd

theorem Keeps.dropSlice (s : State) (e : Nat) (x : SliceEnt) : Keeps s (s.dropSlice e x) := by
  unfold State.dropSlice
  dsimp only
  exact .upd

theorem Keeps.body_dSliceWindow (s : State) (w : Who) (a : List Nat) : Keeps s (dSliceWindow.body s w a).s := by
  unfold dSliceWindow
  dsimp only
  exact .iteRes (.refl _) (.setSliceWin ..)

theorem Keeps.body_dSliceRelease (s : State) (w : Who) (a : List Nat) : Keeps s (dSliceRelease.body s w a).s := by
  unfold dSliceRelease
  dsimp only
  split
  · exact .refl _
  · exact .iteRes (.refl _) (.after (.logFw ..) (.dropSlice ..))

theorem Keeps.body_dContextBindSlice (s : State) (w : Who) (a : List Nat) : Keeps s (dContextBindSlice.body s w a).s := by
  unfold dContextBindSlice
  dsimp only
  refine .iteRes ?_ ?_
  · exact .refl _
  · refine .iteRes ?_ ?_
    · exact .refl _
    · refine .iteRes ?_ ?_
      · exact .refl _
      · split <;> exact .setCtx ..

theorem Keeps.body_dConvoyAbort (s : State) (w : Who) (a : List Nat) : Keeps s (dConvoyAbort.body s w a).s := by
  unfold dConvoyAbort
  dsimp only
  split
  · split
    · exact .startAbort ..
    · exact .abortComplete ..
    · exact .logConvoy ..
  · exact .abortUnknown ..

theorem KeepsOut.sliceSet (s : State) (r : DReq) : KeepsOut s (execSliceSet r s) := by
  unfold execSliceSet
  exact .next (.runDarid (fun _ _ _ => .body_dSliceSet ..) ..)

theorem KeepsOut.sliceEpoch (s : State) (r : DReq) : KeepsOut s (execSliceEpoch r s) := by
  unfold execSliceEpoch
  exact .next (.runDarid (fun _ _ _ => .body_dSliceEpoch ..) ..)

theorem KeepsOut.sliceWindow (s : State) (r : DReq) : KeepsOut s (execSliceWindow r s) := by
  unfold execSliceWindow
  exact .next (.runDarid (fun _ _ _ => .body_dSliceWindow ..) ..)

theorem KeepsOut.sliceRelease (s : State) (r : DReq) : KeepsOut s (execSliceRelease r s) := by
  unfold execSliceRelease
  exact .next (.runDarid (fun _ _ _ => .body_dSliceRelease ..) ..)

theorem KeepsOut.contextBindSlice (s : State) (r : DReq) : KeepsOut s (execContextBindSlice r s) := by
  unfold execContextBindSlice
  exact .next (.runDarid (fun _ _ _ => .body_dContextBindSlice ..) ..)

theorem KeepsOut.convoyAbort (s : State) (r : DReq) : KeepsOut s (execConvoyAbort r s) := by
  unfold execConvoyAbort
  exact .next (.runDarid (fun _ _ _ => .body_dConvoyAbort ..) ..)

/-! ### Staging and flash (`Machine/Staging`) -/

theorem Keeps.body_dStageWrite (s : State) (w : Who) (a : List Nat) : Keeps s (dStageWrite.body s w a).s := by
  unfold dStageWrite
  dsimp only
  exact .iteRes (.refl _) (.iteRes (.refl _) (.iteRes (.refl _) .upd))

theorem Keeps.stageClear (s : State) : Keeps s s.stageClear := by
  unfold State.stageClear
  dsimp only
  exact .upd

theorem Keeps.body_dStageReset (s : State) (w : Who) (a : List Nat) : Keeps s (dStageReset.body s w a).s := by
  unfold dStageReset
  dsimp only
  exact .stageClear ..

theorem Keeps.stageCommit (s : State) (who : Option Who) (target status : Nat) (b : List Byte) (old : List Nat) : Keeps s
    (s.stageCommit who target status b old).s := by
  unfold State.stageCommit
  dsimp only
  exact .iteRes (.after .upd (.stageClear ..)) (.stageClear ..)

theorem Keeps.imageToFlash (s : State) (who : Option Who) : Keeps s (s.imageToFlash who).s := by
  unfold State.imageToFlash
  dsimp only
  exact .iteRes (.after .upd (.stageCommit ..)) (.stageCommit ..)

theorem Keeps.body_dFwCommit (s : State) (w : Who) (a : List Nat) : Keeps s (dFwCommit.body s w a).s := by
  unfold dFwCommit
  dsimp only
  exact .iteRes (.refl _) (.iteRes (.refl _) (.imageToFlash ..))

theorem Keeps.body_dClampCommit (s : State) (w : Who) (a : List Nat) : Keeps s (dClampCommit.body s w a).s := by
  unfold dClampCommit
  dsimp only
  exact .iteRes (.refl _) (.iteRes (.refl _) (.stageCommit ..))

theorem Keeps.body_dCalCommit (s : State) (w : Who) (a : List Nat) : Keeps s (dCalCommit.body s w a).s := by
  unfold dCalCommit
  dsimp only
  exact .iteRes (.refl _) (.iteRes (.refl _) (.iteRes (.stageCommit ..) (.after .upd (.stageCommit ..))))

theorem Keeps.inFlash (s : State) (w : Option Who) (target : Nat) (b : List Byte) : Keeps s (s.inFlash w target b) := by
  unfold State.inFlash
  dsimp only
  split
  · refine .ite ?_ ?_
    · exact .after .upd (.after (.logFw ..) .upd)
    · split
      · exact .after (.finish ..) (.after (.logFw ..) .upd)
      · exact .after (.logFw ..) .upd
  · split
    · exact .after (.finish ..) .upd
    · exact .upd
  · exact .after (.packCommitted ..) .upd
  · split
    · exact .after (.finish ..) (.after (.log ..) .upd)
    · exact .after (.log ..) .upd

theorem Keeps.flashFailed (s : State) (w : Option Who) (target : Nat) (b : List Byte) : Keeps s (s.flashFailed w target b) := by
  unfold State.flashFailed
  dsimp only
  split
  · exact .after (.finish ..) (.after .upd (.after (.draw ..) (.draw ..)))
  · exact .after .upd (.after (.draw ..) (.draw ..))

theorem KeepsOut.flashCommitDone (s : State) (ok : Bool) : KeepsOut s (execFlashCommitDone ok s) := by
  unfold execFlashCommitDone
  refine .next ?_
  split
  · exact .ite (.inFlash ..) (.flashFailed ..)
  · exact .refl _

theorem Keeps.romDone (s : State) (ctd : Nat) : Keeps s (s.romDone ctd) := by
  unfold State.romDone
  dsimp only
  split
  · refine .ite ?_ ?_
    · refine .after .upd ?_
      refine .after (.powerOn ..) ?_
      split
      · exact .after (.flushUp ..) (.finish ..)
      · exact .refl _
    · exact .refl _
  · exact .refl _

theorem KeepsOut.flashMirrorWrite (s : State) (ctd : Fin 2) (seq : BitVec 64) (ok : Bool) (flashStatus : BitVec 32) : KeepsOut s
    (execFlashMirrorWrite ctd seq ok flashStatus s) := by
  unfold execFlashMirrorWrite
  exact .next (.after (.romDone ..) (.flashMirror ..))

theorem KeepsOut.romCaravanImageComplete (s : State) : KeepsOut s (execRomCaravanImageComplete s) := by
  unfold execRomCaravanImageComplete
  dsimp only
  exact .next (.ite (.imageToFlash ..) (.refl _))

theorem Keeps.body_dFwInfo (s : State) (w : Who) (a : List Nat) : Keeps s (dFwInfo.body s w a).s := by
  unfold dFwInfo
  dsimp only
  exact .refl _

theorem Keeps.body_dFwRestartStandby (s : State) (w : Who) (a : List Nat) : Keeps s (dFwRestartStandby.body s w a).s := by
  unfold dFwRestartStandby
  dsimp only
  split
  · exact .refl _
  · exact .after (.setCtd ..) (.holdCtd ..)

theorem KeepsOut.stageWrite (s : State) (r : DReq) : KeepsOut s (execStageWrite r s) := by
  unfold execStageWrite
  exact .next (.runDarid (fun _ _ _ => .body_dStageWrite ..) ..)

theorem KeepsOut.stageReset (s : State) (r : DReq) : KeepsOut s (execStageReset r s) := by
  unfold execStageReset
  exact .next (.runDarid (fun _ _ _ => .body_dStageReset ..) ..)

theorem KeepsOut.fwCommit (s : State) (r : DReq) : KeepsOut s (execFwCommit r s) := by
  unfold execFwCommit
  exact .next (.runDarid (fun _ _ _ => .body_dFwCommit ..) ..)

theorem KeepsOut.clampCommit (s : State) (r : DReq) : KeepsOut s (execClampCommit r s) := by
  unfold execClampCommit
  exact .next (.runDarid (fun _ _ _ => .body_dClampCommit ..) ..)

theorem KeepsOut.calCommit (s : State) (r : DReq) : KeepsOut s (execCalCommit r s) := by
  unfold execCalCommit
  exact .next (.runDarid (fun _ _ _ => .body_dCalCommit ..) ..)

theorem KeepsOut.fwInfo (s : State) (r : DReq) : KeepsOut s (execFwInfo r s) := by
  unfold execFwInfo
  exact .next (.runDarid (fun _ _ _ => .body_dFwInfo ..) ..)

theorem KeepsOut.fwRestartStandby (s : State) (r : DReq) : KeepsOut s (execFwRestartStandby r s) := by
  unfold execFwRestartStandby
  exact .next (.runDarid (fun _ _ _ => .body_dFwRestartStandby ..) ..)

end Sys2Proof.Machine
end

