-- ==== Sys2Proof/Proofs/KeepsAccess.lean ====
section
/-! PROOFS. The same for accesses to memory and to CSR space, management traffic and the mailboxes. -/

-- One theorem after the other: threads that wait for one another would each take a stack of the check's memory.
set_option Elab.async false

namespace Sys2Proof.Machine

/-! ### Accesses (`Machine/Access`) -/

theorem Keeps.csrLoad (s : State) (r : Reg) (width : Nat) (upper : Bool) (hwSet : Nat) : Keeps s (s.csrLoad r width upper hwSet)
    := by
  unfold State.csrLoad
  dsimp only
  exact .ite (.after (.answer ..) (.draw ..)) (.after (.clearRc ..) (.answer ..))

theorem KeepsOut.csrRead (s : State) (init : Initiator) (addr : BitVec 52) (width hwSet : Nat) : KeepsOut s (s.csrRead init addr
    width hwSet) := by
  unfold State.csrRead
  dsimp only
  split
  · exact .next (.fail ..)
  · exact .next (.after .upd (.fail ..))
  · exact .refused ..
  · exact .mbRxPop ..
  · exact .tbTsqPop ..
  · exact .next (.csrLoad ..)

theorem KeepsOut.csrRcRead (s : State) (init : Initiator) (addr : BitVec 52) (width : Nat) (hwSet : BitVec 64) : KeepsOut s
    (execCsrRcRead init addr width hwSet s) := by
  unfold execCsrRcRead
  exact .csrRead ..

theorem Keeps.setMgmtIp (s : State) (v : Nat) : Keeps s (s.setMgmtIp v) := by
  unfold State.setMgmtIp
  dsimp only
  exact .ite (.refl _) (.ite (.refl _) (.after (.foldl _ (fun _ _ => .unbind ..) _) .upd))

theorem Keeps.writeMemCtrl (s : State) (d v : Nat) : Keeps s (s.writeMemCtrl d v) := by
  unfold State.writeMemCtrl
  dsimp only
  exact .after (.ite (.log ..) (.refl _)) (.setMemDie ..)

theorem Keeps.writeSliceCfg (s : State) (e v : Nat) : Keeps s (s.writeSliceCfg e v) := by
  unfold State.writeSliceCfg
  dsimp only
  exact .ite (.setSlice ..) (.dropSlice ..)

theorem Keeps.writeOneClear (s : State) (r : Reg) (v hwSet : Nat) : Keeps s (s.writeOneClear r v hwSet) := by
  unfold State.writeOneClear
  dsimp only
  split
  · exact .setQueue ..
  · exact .setStash ..
  · exact .after (.ite .upd (.refl _)) (.setCtd ..)
  · exact .setCtx ..
  · exact .setChan ..
  · exact .refl _

theorem Keeps.storeReg (s : State) (r : Reg) (v hwSet : Nat) : Keeps s (s.storeReg r v hwSet) := by
  unfold State.storeReg
  dsimp only
  split
  · exact .writeTbCtrl ..
  · exact .setTime_inRange _ _ (by dsimp only; omega)
  · exact .setTime ..
  · exact .setCtx ..
  · exact .writeMemCtrl ..
  · exact .writeRouteCtrl ..
  · exact .writeTxnCtrl ..
  · exact .upd
  · exact .writeSliceCfg ..
  · exact .setSliceWin ..
  · exact .writeCircuit ..
  · exact .setMgmtIp ..
  · exact .upd
  · exact .upd
  · exact .setChan ..
  · exact .setChan ..
  · exact .setChan ..
  · exact .setWin ..
  · exact .setLedger ..
  · exact .setCounters ..
  · exact .upd
  · exact .writeOneClear ..

theorem KeepsOut.csrStore (s : State) (init : Initiator) (r : Reg) (width : Nat) (upper : Bool) (value : BitVec 64) (hwSet :
    Nat) : KeepsOut s (s.csrStore init r width upper value hwSet) := by
  unfold State.csrStore
  dsimp only
  split
  · exact .modIdWrite ..
  · exact .modOptSpareWrite ..
  · exact .after (.qTailDoorbell ..) (.answer ..)
  · exact .after (.qCtrlResume ..) (.answer ..)
  · exact .after (.deSemValueWrite ..) (.answer ..)
  · exact .after (.deSemAddWrite ..) (.answer ..)
  · exact .after (.stashPassStart ..) (.answer ..)
  · exact .after (.stashArmWrite ..) (.answer ..)
  · exact .after (.stashRetireWrite ..) (.answer ..)
  · exact .leaseRenew ..
  · exact .leaseClaim ..
  · exact .leaseRelease ..
  · exact .leaseOpen ..
  · exact .ctdWdogKick ..
  · exact .mbTxWordWrite ..
  · exact .mbTxCommit ..
  · exact .lgWinCursorWrite ..
  · exact .lgAppendGo ..
  · exact .tlWinIndexWrite ..
  · exact .next (.after (.storeReg ..) (.answer ..))

theorem KeepsOut.csrWrite (s : State) (init : Initiator) (addr : BitVec 52) (width : Nat) (value : BitVec 64) (hwSet : Nat) :
    KeepsOut s (s.csrWrite init addr width value hwSet) := by
  unfold State.csrWrite
  dsimp only
  split
  · exact .next (.fail ..)
  · exact .next (.after .upd (.fail ..))
  · exact .refused ..
  · exact .ite (.next (.fail ..)) (.ite (.next (.answer ..)) (.csrStore ..))

theorem KeepsOut.csrRegisterWrite (s : State) (init : Initiator) (addr : BitVec 52) (width : Nat) (value : CsrValue) : KeepsOut
    s (execCsrRegisterWrite init addr width value s) := by
  unfold execCsrRegisterWrite
  exact .csrWrite ..

theorem Keeps.perform (s : State) (op : AccessOp) (a : Nat) : Keeps s (s.perform op a) := by
  unfold State.perform
  dsimp only
  split
  · exact .upd
  · exact .after (.answer ..) (.lWrite ..)
  · exact .after (.answer ..) (.atomicAt ..)

theorem Keeps.holdAccess (s : State) (a b : Nat) (w : WaitingAccess) : Keeps s (s.holdAccess a b w) := by
  unfold State.holdAccess
  dsimp only
  exact .after .upd (.fail ..)

theorem Keeps.hartModified (s : State) (die : Nat) (op : AccessOp) (off : Nat) : Keeps s (s.hartModified die op off) := by
  unfold State.hartModified
  dsimp only
  split
  · exact .refl _
  · exact .upd

theorem Keeps.hartLocal (s : State) (h : Fin 32) (op : AccessOp) (addr : BitVec 52) (off : Nat) (flips : List LineFlip) : Keeps
    s (s.hartLocal h op addr off flips) := by
  unfold State.hartLocal
  dsimp only
  refine .ite ?_ ?_
  · exact .fail ..
  · split
    · exact .holdAccess ..
    · refine .ite ?_ ?_
      · exact .fail ..
      · split
        · exact .after (.fail ..) (.after (.hartConsume ..) (.after (.txTouch ..) (.damages ..)))
        · exact .after (.hartModified ..) (.after (.perform ..) (.after (.txTouch ..) (.damages ..)))
    · exact .fail ..

theorem Keeps.boardAccess (s : State) (init : Initiator) (c : Option Nat) (op : AccessOp) (addr : BitVec 52) (idx off : Nat) :
    Keeps s (s.boardAccess init c op addr idx off) := by
  unfold State.boardAccess
  split
  · exact .fail ..
  · exact .ite (.fail ..) (.after (.issue ..) (.fail ..))

theorem Keeps.engAccess (s : State) (j : Fin 112) (c : Fin 256) (op : AccessOp) (addr : BitVec 52) (flips : List LineFlip) :
    Keeps s (s.engAccess j c op addr flips) := by
  unfold State.engAccess
  dsimp only
  split
  · exact .fail ..
  · exact .boardAccess ..
  · exact .holdAccess ..
  · refine .ite ?_ ?_
    · exact .fail ..
    · split
      · exact .after (.perform ..) (.after (.engTouch ..) (.damages ..))
      · exact .after (.noteWrite ..) (.after (.perform ..) (.after (.engTouch ..) (.damages ..)))

theorem Keeps.spAccess (s : State) (c : Nat) (op : AccessOp) (off : Nat) (flips : List LineFlip) : Keeps s (s.spAccess c op off
    flips) := by
  unfold State.spAccess
  dsimp only
  refine .ite ?_ ?_
  · exact .after (.clampHitOn ..) (.fail ..)
  · refine .ite ?_ ?_
    · exact .fail ..
    · split
      · exact .answer ..
      · exact .after (.answer ..) (.draw ..)
      · exact .after (.perform ..) (.damages ..)

theorem KeepsOut.csrAccess (s : State) (init : Initiator) (op : AccessOp) (addr : BitVec 52) : KeepsOut s (s.csrAccess init op
    addr) := by
  unfold State.csrAccess
  split
  · exact .csrRead ..
  · exact .csrWrite ..
  · split
    · exact .next (.fail ..)
    · exact .refused ..
    · exact .next (.fail ..)

theorem KeepsOut.access (s : State) (init : Initiator) (op : AccessOp) (addr : BitVec 52) (flips : List LineFlip) : KeepsOut s
    (s.access init op addr flips) := by
  unfold State.access
  split
  · exact .next (.fail ..)
  · exact .next (.engAccess ..)
  · exact .ite (.csrAccess ..) (.ite (.next (.spAccess ..)) (.next (.fail ..)))
  · split
    · exact .next (.fail ..)
    · exact .next (.boardAccess ..)
    · exact .ite (.next (.hartLocal ..)) (.ite (.csrAccess ..) (.next (.fail ..)))

theorem KeepsOut.hostMemoryAccess (s : State) (init : Initiator) (op : AccessOp) (addr : BitVec 52) (flips : List LineFlip) :
    KeepsOut s (execHostMemoryAccess init op addr flips s) := by
  unfold execHostMemoryAccess
  exact .access ..

theorem Keeps.release (s : State) (l : List WaitingAccess) : Keeps s (s.release l) := by
  unfold State.release
  refine .foldl _ (fun u w => ?_) _
  have h := KeepsOut.access u w.init w.op w.addr w.flips
  split
  next t ht =>
    rw [ht] at h
    cases h
    assumption
  · exact .refl _

theorem KeepsOut.diagPathSwitch (s : State) (pair : Fin 2) : KeepsOut s (execDiagPathSwitch pair s) := by
  unfold execDiagPathSwitch
  dsimp only
  refine .next ?_
  split
  · exact .refl _
  · exact .after (.pathCheck ..) (.after (.unstall ..) (.after (.release ..) .upd))

/-! ### Management (`Machine/Mgmt`) -/

theorem KeepsOut.mgmtBlockLock (s : State) (up : Bool) : KeepsOut s (execMgmtBlockLock up s) := by
  unfold execMgmtBlockLock
  dsimp only
  exact .next .upd

theorem Keeps.discard (s : State) : Keeps s s.discard := by
  unfold State.discard
  dsimp only
  exact .upd

theorem Keeps.learn (s : State) (ip : BitVec 32) (mac : BitVec 48) : Keeps s (s.learn ip mac) := by
  unfold State.learn
  dsimp only
  exact .upd

theorem Keeps.frame (s : State) (f : MgmtFrame) : Keeps s (s.frame f) := by
  unfold State.frame
  dsimp only
  split
  · exact .ite (.after .upd (.learn ..)) (.discard ..)
  · exact .ite (.learn ..) (.discard ..)
  · exact .ite (.ptp ..) (.discard ..)
  · refine .ite ?_ ?_
    · split
      · exact .ite (.datagram ..) (.ite (.refl _) (.discard ..))
      · exact .discard ..
    · exact .discard ..
  · exact .discard ..

theorem KeepsOut.mgmtFrameReceive (s : State) (frame : MgmtFrame) : KeepsOut s (execMgmtFrameReceive frame s) := by
  unfold execMgmtFrameReceive
  exact .next (.ite (.refl _) (.ite (.frame ..) (.discard ..)))

theorem KeepsOut.i3cEntdaa (s : State) (addr : BitVec 7) : KeepsOut s (execI3cEntdaa addr s) := by
  unfold execI3cEntdaa
  dsimp only
  exact .next .upd

theorem Keeps.i3cPut (s : State) (off : Nat) (b : List Byte) (r : Reg) (base n : Nat) : Keeps s (s.i3cPut off b r base n) := by
  unfold State.i3cPut
  exact .ite (.storeReg ..) (.refl _)

theorem KeepsOut.i3cPrivateWrite (s : State) (bytes : List (BitVec 8)) : KeepsOut s (execI3cPrivateWrite bytes s) := by
  unfold execI3cPrivateWrite
  dsimp only
  exact .next (.ite (.refl _) (.after (.i3cPut ..) (.after (.i3cPut ..) (.after (.i3cPut ..) .upd))))

theorem Keeps.i3cByte (s : State) (o : Nat) : Keeps s (s.i3cByte o).2 := by
  unfold State.i3cByte
  dsimp only
  split
  · split
    · dsimp only
      exact .after .upd (.clearRc ..)
    · split
      · split
        · dsimp only
          exact .refl _
        · dsimp only
          exact .refl _
      · dsimp only
        exact .refl _
  · split
    · dsimp only
      exact .foldl _ (fun _ _ => .setRcField ..) _
    · dsimp only
      exact .refl _

theorem Keeps.i3cRead (s : State) (n : Nat) : Keeps s (s.i3cRead n).2 := by
  induction n generalizing s with
  | zero => exact .refl _
  | succ n ih =>
    unfold State.i3cRead
    dsimp only
    exact .after (ih _) (.after .upd (.i3cByte ..))

theorem KeepsOut.i3cPrivateRead (s : State) (count : Nat) : KeepsOut s (execI3cPrivateRead count s) := by
  unfold execI3cPrivateRead
  dsimp only
  exact .next (.ite (.refl _) (.after .upd (.i3cRead ..)))

theorem Keeps.spdmAnswer (s : State) (req resp : List Byte) : Keeps s (s.spdmAnswer req resp).s := by
  unfold State.spdmAnswer
  dsimp only
  exact .upd

theorem Keeps.spdmFail (s : State) (code : Nat) : Keeps s (spdmFail s code).s := by
  unfold Machine.spdmFail
  dsimp only
  exact .refl _

theorem Keeps.body_dSpdmExchange (s : State) (w : Who) (a : List Nat) : Keeps s (dSpdmExchange.body s w a).s := by
  unfold dSpdmExchange
  dsimp only
  exact .iteRes (.refl _) (.iteRes (.refl _) (.iteRes (.after (.spdmAnswer ..) .upd) (.iteRes (.spdmFail ..) (.iteRes (.spdmFail
      ..) (.iteRes (.spdmFail ..) (.iteRes .upd (.after (.spdmAnswer ..) .upd)))))))

theorem KeepsOut.spdmResponseDone (s : State) : KeepsOut s (execSpdmResponseDone s) := by
  unfold execSpdmResponseDone
  dsimp only
  refine .next ?_
  split
  · exact .after (.finish ..) (.after (.spdmAnswer ..) (.after .upd (.log ..)))
  · exact .refl _

theorem Keeps.body_dCertRead (s : State) (w : Who) (a : List Nat) : Keeps s (dCertRead.body s w a).s := by
  unfold dCertRead
  dsimp only
  split <;> exact .refl _

theorem KeepsOut.spdmExchange (s : State) (r : DReq) : KeepsOut s (execSpdmExchange r s) := by
  unfold execSpdmExchange
  exact .next (.runDarid (fun _ _ _ => .body_dSpdmExchange ..) ..)

theorem KeepsOut.certRead (s : State) (r : DReq) : KeepsOut s (execCertRead r s) := by
  unfold execCertRead
  exact .next (.runDarid (fun _ _ _ => .body_dCertRead ..) ..)

/-! ### Mailboxes (`Machine/Mailbox`) -/

theorem KeepsOut.daridExec {op : Nat} {run : DReq → State → Host.Outcome State Fault Refusal}
    (h : Machine.daridExec op = some run) (r : DReq) (s : State) : KeepsOut s (run r s) := by
  unfold Machine.daridExec at h
  split at h
  · cases h; exact .invCaps ..
  · cases h; exact .invDie ..
  · cases h; exact .invStack ..
  · cases h; exact .invOptical ..
  · cases h; exact .invCtd ..
  · cases h; exact .invSetId ..
  · cases h; exact .invSetSpare ..
  · cases h; exact .channelRelease ..
  · cases h; exact .contextCreate ..
  · cases h; exact .contextRelease ..
  · cases h; exact .contextGrant ..
  · cases h; exact .contextRevoke ..
  · cases h; exact .queueCreate ..
  · cases h; exact .queueSetIrq ..
  · cases h; exact .queueDelete ..
  · cases h; exact .contextBindHart ..
  · cases h; exact .twinJoin ..
  · cases h; exact .twinSplit ..
  · cases h; exact .contextSetDebug ..
  · cases h; exact .contextStashReserve ..
  · cases h; exact .contextStashRelease ..
  · cases h; exact .contextQuery ..
  · cases h; exact .sliceSet ..
  · cases h; exact .sliceEpoch ..
  · cases h; exact .sliceWindow ..
  · cases h; exact .sliceRelease ..
  · cases h; exact .contextBindSlice ..
  · cases h; exact .convoyAbort ..
  · cases h; exact .scheduleWrite ..
  · cases h; exact .scheduleClear ..
  · cases h; exact .scheduleRead ..
  · cases h; exact .sievePackCommit ..
  · cases h; exact .sievePolicy ..
  · cases h; exact .sieveRunNow ..
  · cases h; exact .sieveQuery ..
  · cases h; exact .taintRead ..
  · cases h; exact .taintClear ..
  · cases h; exact .tallyQuery ..
  · cases h; exact .hoardConfig ..
  · cases h; exact .hoardSnapshot ..
  · cases h; exact .hoardRestore ..
  · cases h; exact .spareFill ..
  · cases h; exact .cellarWrite ..
  · cases h; exact .cellarRead ..
  · cases h; exact .seedStreamSet ..
  · cases h; exact .seedStreamGet ..
  · cases h; exact .dataCursorSet ..
  · cases h; exact .dataCursorGet ..
  · cases h; exact .contextReset ..
  · cases h; exact .engineReset ..
  · cases h; exact .dieReset ..
  · cases h; exact .moduleRecover ..
  · cases h; exact .switchover ..
  · cases h; exact .faultRecordRead ..
  · cases h; exact .memClear ..
  · cases h; exact .oosQuery ..
  · cases h; exact .oosLatchClear ..
  · cases h; exact .ledgerStatus ..
  · cases h; exact .ledgerRead ..
  · cases h; exact .ledgerAppend ..
  · cases h; exact .ledgerSubscribe ..
  · cases h; exact .counterSelect ..
  · cases h; exact .counterRead ..
  · cases h; exact .liveCounterRead ..
  · cases h; exact .watchDefine ..
  · cases h; exact .watchDigest ..
  · cases h; exact .watchRemove ..
  · cases h; exact .timeStepAdvance ..
  · cases h; exact .timePhaseAdvance ..
  · cases h; exact .timeStepSet ..
  · cases h; exact .timeAcceptCorrection ..
  · cases h; exact .timeConfigure ..
  · cases h; exact .timeQuery ..
  · cases h; exact .tollTagQuery ..
  · cases h; exact .tollManifestRead ..
  · cases h; exact .tollRecordRead ..
  · cases h; exact .tollKeyRead ..
  · cases h; exact .tollKeyRotate ..
  · cases h; exact .calRead ..
  · cases h; exact .calCommit ..
  · cases h; exact .calHash ..
  · cases h; exact .stageWrite ..
  · cases h; exact .stageReset ..
  · cases h; exact .fwCommit ..
  · cases h; exact .clampCommit ..
  · cases h; exact .fwInfo ..
  · cases h; exact .fwRestartStandby ..
  · cases h; exact .powerSetDie ..
  · cases h; exact .powerCap ..
  · cases h; exact .powerQuery ..
  · cases h; exact .linkEnable ..
  · cases h; exact .linkRetrain ..
  · cases h; exact .linkRemap ..
  · cases h; exact .linkQuery ..
  · cases h; exact .routeConfig ..
  · cases h; exact .circuitRouteSet ..
  · cases h; exact .spdmExchange ..
  · cases h; exact .certRead ..
  · cases h

theorem KeepsOut.command (s : State) (ctd : Fin 2) (ch : Fin 512) (op seq : Nat) (args : List Word) : KeepsOut s (s.command ctd
    ch op seq args) := by
  unfold State.command
  split
  · exact .daridExec ‹_› ..
  · refine .next ?_
    unfold acceptDarid
    split
    · refine .ite (.respondRaw ..) ?_
      split
      · exact .respondRaw ..
      · exact .answerDarid _ (.refl _)
    · exact .answerDarid _ (.refl _)

theorem KeepsOut.message (s : State) (ctd : Fin 2) (ch : Fin 512) (m : Msg) : KeepsOut s (s.message ctd ch m) := by
  unfold State.message
  dsimp only
  exact .ite (.next (.respondRaw ..)) (.ite (.next (.after (.respondRaw ..) (.setChan ..))) (.ite (.next (.setChan ..)) (.after
      (.command ..) (.setChan ..))))

theorem KeepsOut.mbPop (s : State) (ctd : Fin 2) (ch : Fin 512) : KeepsOut s (execMbPop ctd ch s) := by
  unfold execMbPop
  dsimp only
  exact .ite (.next (.refl _)) (.ite (.refused ..) (.after (.message ..) (.after (.feed ..) (.after (.ite (.irqWrite ..) (.refl
      _)) (.setChan ..)))))

end Sys2Proof.Machine
end

