-- ==== Sys2Proof/Proofs/KeepsStep.lean ====
section
/-! PROOFS. `Keeps` for every instruction. -/

-- One theorem after the other: threads that wait for one another would each take a stack of the check's memory.
set_option Elab.async false

namespace Sys2Proof.Machine

theorem KeepsOut.exec (i : Instr) (s : State) : KeepsOut s (exec i s) := by
  cases i with
  | csrRegisterWrite => exact .csrRegisterWrite ..
  | hostMemoryAccess => exact .hostMemoryAccess ..
  | modIdWrite => exact .modIdWrite ..
  | modOptSpareWrite => exact .modOptSpareWrite ..
  | ringEdgeDown => exact .ringEdgeDown ..
  | ringEdgeUp => exact .ringEdgeUp ..
  | diagPathSwitch => exact .diagPathSwitch ..
  | timeBusFrame => exact .timeBusFrame ..
  | holdoverEntry => exact .holdoverEntry ..
  | ptpMessageReceive => exact .ptpMessageReceive ..
  | podOffsetMeasured => exact .podOffsetMeasured ..
  | podLockLost => exact .podLockLost ..
  | ppsInEdge => exact .ppsInEdge ..
  | ppsInFault => exact .ppsInFault ..
  | ppsOutRise => exact .ppsOutRise ..
  | ppsOutFall => exact .ppsOutFall ..
  | timestampRequestSend => exact .timestampRequestSend ..
  | timestampRequestReceive => exact .timestampRequestReceive ..
  | timestampResponseReceive => exact .timestampResponseReceive ..
  | tbTsqPop => exact .tbTsqPop ..
  | scheduleArm => exact .scheduleArm ..
  | scheduleFire => exact .scheduleFire ..
  | tensorDumpDone => exact .tensorDumpDone ..
  | qTailDoorbell => exact .qTailDoorbell ..
  | qCtrlResume => exact .qCtrlResume ..
  | descriptorFetch => exact .descriptorFetch ..
  | descriptorComplete => exact .descriptorComplete ..
  | deSemValueWrite => exact .deSemValueWrite ..
  | deSemAddWrite => exact .deSemAddWrite ..
  | meTileDone => exact .meTileDone ..
  | checkerVerdict => exact .checkerVerdict ..
  | arbiterVerdict => exact .arbiterVerdict ..
  | stashPassStart => exact .stashPassStart ..
  | stashPassOpen => exact .stashPassOpen ..
  | stashArmWrite => exact .stashArmWrite ..
  | stashArmEntry => exact .stashArmEntry ..
  | stashRetireWrite => exact .stashRetireWrite ..
  | patrolScrubStep => exact .patrolScrubStep ..
  | memTrainingDone => exact .memTrainingDone ..
  | memInitDone => exact .memInitDone ..
  | memThermal => exact .memThermal ..
  | flitTransmit => exact .flitTransmit ..
  | flitReceive => exact .flitReceive ..
  | replayTimeout => exact .replayTimeout ..
  | laneLockLoss => exact .laneLockLoss ..
  | wgRetrain => exact .wgRetrain ..
  | identReceive => exact .identReceive ..
  | identTimeout => exact .identTimeout ..
  | packetArrive => exact .packetArrive ..
  | reorderedRequestDeliver => exact .reorderedRequestDeliver ..
  | respReceive => exact .respReceive ..
  | requestTimeout => exact .requestTimeout ..
  | busyResend => exact .busyResend ..
  | epochAheadResend => exact .epochAheadResend ..
  | epochWaitExpiry => exact .epochWaitExpiry ..
  | peerEntryRelease => exact .peerEntryRelease ..
  | collSegReceive => exact .collSegReceive ..
  | segAckReceive => exact .segAckReceive ..
  | segAckTimeout => exact .segAckTimeout ..
  | notReadyResend => exact .notReadyResend ..
  | segAheadResend => exact .segAheadResend ..
  | caravanSegReceive => exact .caravanSegReceive ..
  | abortReceive => exact .abortReceive ..
  | abortResend => exact .abortResend ..
  | abortAckReceive port => exact .abortAckReceive _ port _
  | convoyEntryFree => exact .convoyEntryFree ..
  | leaseRenew => exact .leaseRenew ..
  | leaseClaim => exact .leaseClaim ..
  | leaseRelease => exact .leaseRelease ..
  | leaseOpen => exact .leaseOpen ..
  | leaseExpiry => exact .leaseExpiry ..
  | leaseGuardEnd => exact .leaseGuardEnd ..
  | ctdWdogKick => exact .ctdWdogKick ..
  | ctdWdogExpired => exact .ctdWdogExpired ..
  | holderResetRelease => exact .holderResetRelease ..
  | standbyLeasePoll => exact .standbyLeasePoll ..
  | switchoverGapTimeout => exact .switchoverGapTimeout ..
  | mirrorCheck => exact .mirrorCheck ..
  | resyncCopyDone => exact .resyncCopyDone ..
  | standbySelfTest => exact .standbySelfTest ..
  | standbyHealth => exact .standbyHealth ..
  | powerLimiterSample => exact .powerLimiterSample ..
  | mbTxWordWrite => exact .mbTxWordWrite ..
  | mbTxCommit => exact .mbTxCommit ..
  | mbPop => exact .mbPop ..
  | mbUpPlace => exact .mbUpPlace ..
  | mbRxPop => exact .mbRxPop ..
  | mgmtDatagramReceive => exact .mgmtDatagramReceive ..
  | mgmtPacketReceive => exact .mgmtPacketReceive ..
  | channelBindingExpiry => exact .channelBindingExpiry ..
  | fragmentTimeout => exact .fragmentTimeout ..
  | mgmtFrameReceive => exact .mgmtFrameReceive ..
  | invCaps => exact .invCaps ..
  | invDie => exact .invDie ..
  | invStack => exact .invStack ..
  | invOptical => exact .invOptical ..
  | invCtd => exact .invCtd ..
  | invSetId => exact .invSetId ..
  | invSetSpare => exact .invSetSpare ..
  | channelRelease => exact .channelRelease ..
  | contextCreate => exact .contextCreate ..
  | contextRelease => exact .contextRelease ..
  | contextGrant => exact .contextGrant ..
  | contextRevoke => exact .contextRevoke ..
  | queueCreate => exact .queueCreate ..
  | queueSetIrq => exact .queueSetIrq ..
  | queueDelete => exact .queueDelete ..
  | contextBindHart => exact .contextBindHart ..
  | twinJoin => exact .twinJoin ..
  | twinSplit => exact .twinSplit ..
  | contextSetDebug => exact .contextSetDebug ..
  | contextStashReserve => exact .contextStashReserve ..
  | contextStashRelease => exact .contextStashRelease ..
  | contextQuery => exact .contextQuery ..
  | sliceSet => exact .sliceSet ..
  | sliceEpoch => exact .sliceEpoch ..
  | sliceWindow => exact .sliceWindow ..
  | sliceRelease => exact .sliceRelease ..
  | contextBindSlice => exact .contextBindSlice ..
  | convoyAbort => exact .convoyAbort ..
  | scheduleWrite => exact .scheduleWrite ..
  | scheduleClear => exact .scheduleClear ..
  | scheduleRead => exact .scheduleRead ..
  | sievePackCommit => exact .sievePackCommit ..
  | sievePolicy => exact .sievePolicy ..
  | sieveRunNow => exact .sieveRunNow ..
  | sieveQuery => exact .sieveQuery ..
  | taintRead => exact .taintRead ..
  | taintClear => exact .taintClear ..
  | tallyQuery => exact .tallyQuery ..
  | hoardConfig => exact .hoardConfig ..
  | hoardSnapshot => exact .hoardSnapshot ..
  | hoardReadPoint => exact .hoardReadPoint ..
  | hoardCopyCommit => exact .hoardCopyCommit ..
  | hoardRestore => exact .hoardRestore ..
  | spareFill => exact .spareFill ..
  | spareFillDone => exact .spareFillDone ..
  | cellarWrite => exact .cellarWrite ..
  | cellarRead => exact .cellarRead ..
  | cellarDone => exact .cellarDone ..
  | seedStreamSet => exact .seedStreamSet ..
  | seedStreamGet => exact .seedStreamGet ..
  | dataCursorSet => exact .dataCursorSet ..
  | dataCursorGet => exact .dataCursorGet ..
  | contextReset => exact .contextReset ..
  | contextResetDone => exact .contextResetDone ..
  | engineReset => exact .engineReset ..
  | engineResetEnd => exact .engineResetEnd ..
  | dieReset => exact .dieReset ..
  | dieResetEnd => exact .dieResetEnd ..
  | moduleRecover => exact .moduleRecover ..
  | moduleRecovery => exact .moduleRecovery ..
  | resetEscalated => exact .resetEscalated ..
  | switchover => exact .switchover ..
  | faultRecordRead => exact .faultRecordRead ..
  | memClear => exact .memClear ..
  | oosQuery => exact .oosQuery ..
  | oosLatchClear => exact .oosLatchClear ..
  | ledgerStatus => exact .ledgerStatus ..
  | ledgerRead => exact .ledgerRead ..
  | ledgerAppend => exact .ledgerAppend ..
  | ledgerSubscribe => exact .ledgerSubscribe ..
  | counterSelect => exact .counterSelect ..
  | counterRead => exact .counterRead ..
  | liveCounterRead => exact .liveCounterRead ..
  | watchDefine => exact .watchDefine ..
  | watchDigest => exact .watchDigest ..
  | watchRemove => exact .watchRemove ..
  | timeStepAdvance => exact .timeStepAdvance ..
  | timePhaseAdvance => exact .timePhaseAdvance ..
  | timeStepSet => exact .timeStepSet ..
  | timeAcceptCorrection => exact .timeAcceptCorrection ..
  | timeConfigure => exact .timeConfigure ..
  | timeQuery => exact .timeQuery ..
  | tollTagQuery => exact .tollTagQuery ..
  | tollManifestRead => exact .tollManifestRead ..
  | tollRecordRead => exact .tollRecordRead ..
  | tollKeyRead => exact .tollKeyRead ..
  | tollKeyRotate => exact .tollKeyRotate ..
  | calRead => exact .calRead ..
  | calCommit => exact .calCommit ..
  | calHash => exact .calHash ..
  | stageWrite => exact .stageWrite ..
  | stageReset => exact .stageReset ..
  | fwCommit => exact .fwCommit ..
  | clampCommit => exact .clampCommit ..
  | fwInfo => exact .fwInfo ..
  | fwRestartStandby => exact .fwRestartStandby ..
  | powerSetDie => exact .powerSetDie ..
  | powerCap => exact .powerCap ..
  | powerQuery => exact .powerQuery ..
  | linkEnable => exact .linkEnable ..
  | linkRetrain => exact .linkRetrain ..
  | linkRemap => exact .linkRemap ..
  | linkQuery => exact .linkQuery ..
  | routeConfig => exact .routeConfig ..
  | circuitRouteSet => exact .circuitRouteSet ..
  | spdmExchange => exact .spdmExchange ..
  | certRead => exact .certRead ..
  | lgAppendGo => exact .lgAppendGo ..
  | repeatWindowClose => exact .repeatWindowClose ..
  | flashMirrorWrite => exact .flashMirrorWrite ..
  | lgWinCursorWrite => exact .lgWinCursorWrite ..
  | lgWinLatchDone => exact .lgWinLatchDone ..
  | sieveRunStart => exact .sieveRunStart ..
  | sieveRunEnd => exact .sieveRunEnd ..
  | sieveAgeCheck => exact .sieveAgeCheck ..
  | tallyDecay => exact .tallyDecay ..
  | heartbeatCheck => exact .heartbeatCheck ..
  | railSample => exact .railSample ..
  | tagClosePoint => exact .tagClosePoint ..
  | manifestForced => exact .manifestForced ..
  | tollManifestClosed => exact .tollManifestClosed ..
  | tlWinIndexWrite => exact .tlWinIndexWrite ..
  | powerOnReset => exact .powerOnReset ..
  | romCaravanImageComplete => exact .romCaravanImageComplete ..
  | inputTrip => exact .inputTrip ..
  | modRstNLow => exact .modRstNLow ..
  | junctionSample => exact .junctionSample ..
  | thermAlertRelease => exact .thermAlertRelease ..
  | i3cEntdaa => exact .i3cEntdaa ..
  | i3cPrivateWrite => exact .i3cPrivateWrite ..
  | i3cPrivateRead => exact .i3cPrivateRead ..
  | laneLock => exact .laneLock ..
  | mgmtBlockLock => exact .mgmtBlockLock ..
  | cellarDevice => exact .cellarDevice ..
  | csrRcRead => exact .csrRcRead ..
  | flashCommitDone => exact .flashCommitDone ..
  | watchDigestDone => exact .watchDigestDone ..
  | tollKeyRotated => exact .tollKeyRotated ..
  | spdmResponseDone => exact .spdmResponseDone ..
  | contextReleaseDone => exact .contextReleaseDone ..
  | memClearDone => exact .memClearDone ..

/-- What an instruction that goes on keeps. -/
theorem Keeps.of_exec {i : Instr} {s t : State} (h : exec i s = .next t) : Keeps s t := by
  have k := KeepsOut.exec i s
  rw [h] at k
  cases k
  assumption

end Sys2Proof.Machine
end

