-- ==== Sys2Proof/Proofs/ModCapsFixed.lean ====
section
/-! PROOFS. MOD_CAPS is what the fuses say and never changes. -/

namespace Sys2Proof.Machine

/-! ### MOD_CAPS -/

/-- The fuses name the variant, and MOD_CAPS is made of the variant and of constants (R1). -/
theorem State.modCaps_congr {s t : State} (h : s.fuse = t.fuse) : s.modCaps = t.modCaps := by
  unfold State.modCaps State.hasCtd1 State.hasOptics
  rw [h]

/-- No step changes the fuses: it carries out a command, whatever the rest of the queue, or is a tick. -/
theorem step_fuse {s t : State} (h : step s = .next t) : t.fuse = s.fuse := by
  unfold step at h
  split at h
  · exact (Keeps.of_exec h).fuse
  · rw [← Host.Outcome.next.inj h]
    exact (Keeps.tick s).fuse

/-- The first word of the module's block is MOD_CAPS for every initiator but the I3C target. -/
theorem State.csrAt_modCaps {s : State} {i : Initiator} {a : Nat} (h : s.csrOffset i a = .ok 0xF00000000000) (hi : i ≠ .i3c) :
    s.csrAt i a 64 = .ok (.mod, .modCaps, false) := by
  have hu : csrUnit 0xF00000000000 = some (.mod, 0) := by decide
  have hg : s.unitGate i .mod = none := by simp [State.unitGate, hi]
  have hr : s.regAt .mod 0 64 = some (.modCaps, false) := rfl
  unfold State.csrAt
  rw [h]
  simp only [bind, Except.bind, hu, hg, hr]

/-- Settles O52: every command and the tick keep the fuses (`Keeps`), and MOD_CAPS depends on them alone. -/
theorem modCapsFixed : Obligations.ModCapsFixed := by
  refine ⟨fun s t h => ⟨step_fuse h, State.modCaps_congr (step_fuse h)⟩, fun s t h => State.modCaps_congr h,
    fun s t c h => State.modCaps_congr (Keeps.of_exec h).fuse, fun s i a w h hi => ?_⟩
  have hat := State.csrAt_modCaps h hi
  rw [exec_csrRcRead_ok hat (by simp) (by simp), State.csrLoad_wide rfl]
  rfl

end Sys2Proof.Machine
end

