-- ==== Sys2Proof/Proofs/StepKeepsInv.lean ====
section
/-! PROOFS. O51: every step keeps the memories canonical and the queue well formed. -/

namespace Sys2Proof.Machine

/-- The queue of waiting commands after the front one is taken is well formed if the queue was. -/
theorem State.queueWf_tail {s : State} {c : Instr} {rest : List Instr} (h : s.pending = c :: rest) (hq : s.queueWf = true) :
    ({ s with pending := rest } : State).queueWf = true := by
  rw [State.queueWf, h, List.all_cons, Bool.and_eq_true] at hq
  exact hq.2

/-- What keeps the waiting commands and the form of the memories keeps the invariant. -/
theorem Keeps.inv {s t : State} (k : Keeps s t) (hi : s.Inv) : t.Inv := by
  obtain ⟨-, hpending, hmem, -⟩ := k
  obtain ⟨hm, hq⟩ := hi
  refine ⟨hmem hm, ?_⟩
  rw [State.queueWf, hpending]
  exact hq

/-- Settles O51: a command runs with the rest of the queue waiting, and it and the tick keep memories and queue (`Keeps`). -/
theorem stepKeepsInv : Obligations.StepKeepsInv := by
  unfold Obligations.StepKeepsInv
  rintro s t ⟨hmem, hqueue⟩ h
  unfold step at h
  split at h
  · next c rest hp => exact (Keeps.of_exec h).inv ⟨hmem, State.queueWf_tail hp hqueue⟩
  · rw [← Host.Outcome.next.inj h]
    exact (Keeps.tick s).inv ⟨hmem, hqueue⟩

end Sys2Proof.Machine
end

