-- ==== Sys2Proof/Proofs/Placement.lean ====
section
/-! PROOFS. O58: every usable byte has a place of its own (R25, R26, R33, R187). -/

namespace Sys2Proof.Machine

theorem dieOf_lt {a : Nat} (h : a < usableTop) : dieOf a < 4 := by
  unfold dieOf regionSize
  unfold usableTop at h
  omega

/-- A stack belongs to the die whose region the offset lies in. -/
theorem stackOf_div_six (a : Nat) : stackOf a / 6 = dieOf a := by
  unfold stackOf
  omega

theorem stackOf_mod_six (a : Nat) : stackOf a % 6 = a % regionSize / 1024 % 6 := by
  unfold stackOf
  omega

/-- Every channel has 15 times 2^21 usable lines. -/
theorem usableLine_lt (a : Nat) : usableLine a < 15 * 2 ^ 21 := by
  unfold usableLine regionSize
  dsimp only
  omega

theorem dataLine_div_sixteen (a : Nat) : dataLine a / 16 = usableLine a / 15 := by
  unfold dataLine
  omega

theorem dataLine_mod_sixteen (a : Nat) : dataLine a % 16 = usableLine a % 15 := by
  unfold dataLine
  omega

/-- The data line names the usable line: check lines are left out, and none is used twice. -/
theorem usableLine_of_dataLine (a : Nat) : usableLine a = 15 * (dataLine a / 16) + dataLine a % 16 := by
  rw [dataLine_div_sixteen, dataLine_mod_sixteen]
  omega

/-- Die, block of 1 KiB in its round of 192, usable line and byte of the line make up an offset again. -/
theorem offset_of_place (a : Nat) :
    a = regionSize * dieOf a +
      (1024 * (192 * (usableLine a / 16) + (6 * channelOf a + stackOf a % 6)) + 64 * (usableLine a % 16) + a % 64) := by
  rw [stackOf_mod_six]
  have hdie : a = regionSize * dieOf a + a % regionSize := (Nat.div_add_mod a regionSize).symm
  have hbyte : a % 64 = a % regionSize % 64 := by unfold regionSize; omega
  rw [hbyte]
  unfold usableLine channelOf
  dsimp only
  generalize a % regionSize = o at *
  omega

/-- Settles O58: the ranges, and that an offset is made up of the parts of its place. -/
theorem placement : Obligations.Placement := by
  unfold Obligations.Placement
  refine ⟨fun a h => ⟨?_, ?_, ?_, ?_, stackOf_div_six a⟩, fun a b _ _ hs hc hl hb => ?_, by decide, by decide, by decide⟩
  · have hdie := dieOf_lt h
    have hstack := stackOf_div_six a
    omega
  · exact Nat.mod_lt _ (by decide)
  · have hline := usableLine_lt a
    have hdata := dataLine_div_sixteen a
    omega
  · have hdata := dataLine_mod_sixteen a
    omega
  · have hdie : dieOf a = dieOf b := by rw [← stackOf_div_six, ← stackOf_div_six, hs]
    have hline : usableLine a = usableLine b := by rw [usableLine_of_dataLine, usableLine_of_dataLine, hl]
    rw [offset_of_place a, offset_of_place b, hdie, hline, hc, hs, hb]

end Sys2Proof.Machine
end

