-- ==== Sys2Proof/Proofs/RingEdges.lean ====
section
/-! PROOFS. O14: the ring's edges and the path changes of the diagonal pairs (R20-R22). -/

namespace Sys2Proof.Machine

/-- What the check makes of a pair without a change in progress: a change to the path it should be on, unless it is on it. -/
theorem State.pathCheck_change {s : State} {p : Nat} (hp : p < 2) (h : s.ring.change.getD p none = none) :
    s.pathCheck.ring.change.getD p none =
      if s.ring.alt.getD p false = !s.pathOk p false then none else some (!s.pathOk p false) := by
  have hcases : p = 0 ∨ p = 1 := by omega
  rcases hcases with rfl | rfl
  · simp only [State.pathCheck, List.getD_cons_zero, h]
  · simp only [State.pathCheck, List.getD_cons_succ, List.getD_cons_zero, h]

/-- Settles O14: the edges and the end of a change are read off the commands, the start of a change off the check. -/
theorem ringEdges : Obligations.RingEdges := by
  unfold Obligations.RingEdges
  refine ⟨fun s e => rfl, fun s e => rfl, ?_, ?_, ?_, ?_⟩
  · rintro s t p alt h rfl
    show execDiagPathSwitch p s = _
    simp only [execDiagPathSwitch, h]
  · intro s p h
    show execDiagPathSwitch p s = _
    simp only [execDiagPathSwitch, h]
  · intro s p hp h hpath
    rw [State.pathCheck_change hp h, hpath]
    simp
  · intro s p hp h hpath
    rw [State.pathCheck_change hp h, if_pos hpath]

end Sys2Proof.Machine
end

