-- ==== Sys2Proof/Proofs/HartMemoryAccess.lean ====
section
/-! PROOFS. O13: a host core's store, load and atomic on local memory. First what a write under R196 does to the bytes when no
husk that it touches is covered only in part. -/

namespace Sys2Proof.Machine

/-! ### Writes under R196 -/

theorem mem_sectors {a n k : Nat} : k ∈ sectors a n ↔ n ≠ 0 ∧ a / 32 ≤ k ∧ k ≤ (a + n - 1) / 32 := by
  unfold sectors
  split
  · next h => simp [h]
  · next h =>
    simp only [List.mem_map, List.mem_range]
    constructor
    · rintro ⟨i, hi, rfl⟩
      omega
    · rintro ⟨-, h1, h2⟩
      exact ⟨k - a / 32, by omega, by omega⟩

/-- The sectors of a range hold each of its addresses. -/
theorem div_mem_sectors {a n x : Nat} (h1 : a ≤ x) (h2 : x < a + n) : x / 32 ∈ sectors a n := by
  rw [mem_sectors]
  omega

/-- The part of a write in sector k covers the addresses of the write in that sector. -/
theorem sectorPart_covers (a : Nat) (b : List Byte) (k x : Nat) :
    ((sectorPart a b k).1 ≤ x ∧ x < (sectorPart a b k).1 + (sectorPart a b k).2.length) ↔
      x / 32 = k ∧ a ≤ x ∧ x < a + b.length := by
  simp only [sectorPart, List.length_take, List.length_drop]
  omega

/-- And it has their bytes. -/
theorem sectorPart_getD {a : Nat} {b : List Byte} {k x : Nat} (h : x / 32 = k) (ha : a ≤ x) :
    (sectorPart a b k).2.getD (x - (sectorPart a b k).1) 0 = b.getD (x - a) 0 := by
  have hlo : max a (32 * k) - a + (x - max a (32 * k)) = x - a := by omega
  have hin : x - max a (32 * k) < 32 * k + 32 - max a (32 * k) := by omega
  simp only [sectorPart, List.getD_eq_getElem?_getD, List.getElem?_take_of_lt hin, List.getElem?_drop, hlo]

/-- A part that is not of a husk, or covers its husk whole, is put there and clears the husk. -/
theorem Mem.writeSector_covered {m : Mem} {k : Nat} {b : List Byte} (h : k ∈ m.husks → 32 ≤ b.length) (a : Nat) :
    m.writeSector k a b false = { cells := cellsPut m.cells a b, husks := huskDel m.husks k } := by
  have hkeep : (m.husks.contains k && decide (b.length < 32)) = false := by
    by_cases hk : k ∈ m.husks
    · simp [Nat.not_lt.mpr (h hk)]
    · simp [hk]
  unfold Mem.writeSector
  rw [hkeep]
  rfl

/-- No husk of these sectors is covered only in part by a write (R196, R198). -/
def Mem.CoversHusks (m : Mem) (a : Nat) (b : List Byte) (l : List Nat) : Prop :=
  ∀ k ∈ l, k ∈ m.husks → 32 ≤ (sectorPart a b k).2.length

/-- Sectors written one after the other: those bytes of the write that lie in them are there, every other byte is as before. -/
theorem cellGet_writeSectors {m : Mem} {a : Nat} {b : List Byte} {l : List Nat} (hm : m.wf = true) (h : m.CoversHusks a b l)
    (x : Nat) :
    cellGet (l.foldl (fun m k => m.writeSector k (sectorPart a b k).1 (sectorPart a b k).2 false) m).cells x =
      if x / 32 ∈ l ∧ a ≤ x ∧ x < a + b.length then b.getD (x - a) 0 else cellGet m.cells x := by
  induction l generalizing m with
  | nil => simp
  | cons k r ih =>
    have hk := Mem.writeSector_covered (h k List.mem_cons_self) (sectorPart a b k).1
    have hrest : Mem.CoversHusks { cells := cellsPut m.cells (sectorPart a b k).1 (sectorPart a b k).2, husks := huskDel m.husks k }
        a b r := fun j hj hh => h j (List.mem_cons_of_mem _ hj) (mem_huskDel.mp hh).1
    have hhere : cellGet (cellsPut m.cells (sectorPart a b k).1 (sectorPart a b k).2) x =
        if x / 32 = k ∧ a ≤ x ∧ x < a + b.length then b.getD (x - a) 0 else cellGet m.cells x := by
      rw [cellGet_cellsPut _ _ (Mem.wf_iff.mp hm).1]
      simp only [sectorPart_covers]
      split
      · next hx => exact sectorPart_getD hx.1 hx.2.1
      · rfl
    rw [List.foldl_cons, hk, ih (Mem.wf_put _ _ _ hm) hrest, hhere]
    by_cases hx : a ≤ x ∧ x < a + b.length
    · by_cases hr : x / 32 ∈ r <;> simp [hr, hx]
    · simp [hx]

/-- Every byte of a write that covers the husks it touches is there, every other byte is as before. -/
theorem Mem.cellGet_write {m : Mem} {a : Nat} {b : List Byte} (hm : m.wf = true) (h : m.CoversHusks a b (sectors a b.length))
    (x : Nat) :
    cellGet (m.write a b []).cells x = if a ≤ x ∧ x < a + b.length then b.getD (x - a) 0 else cellGet m.cells x := by
  refine (cellGet_writeSectors hm h x).trans ?_
  by_cases hx : a ≤ x ∧ x < a + b.length
  · simp [hx, div_mem_sectors hx.1 hx.2]
  · simp [hx]

theorem Mem.write_nil (m : Mem) (a : Nat) (bad : List Nat) : m.write a [] bad = m := rfl

/-- A store that no husk stops covers the husks it touches. -/
theorem State.coversHusks_of_huskStop {s : State} {b : List Byte} {off : Nat} (h : s.huskStop (.store b) off = none) :
    s.mem.main.CoversHusks off b (sectors off b.length) := by
  intro k hk hh
  have hfind : ((sectors off b.length).filter s.mem.main.husks.contains).find?
      (fun k => (sectorPart off b k).2.length < 32) = none := h
  rw [List.find?_eq_none] at hfind
  have hlen := hfind k (List.mem_filter.mpr ⟨hk, List.contains_iff_mem.mpr hh⟩)
  simpa using hlen

/-- A write that ends inside usable memory is one to main memory; at its top it is empty. -/
theorem State.lWrite_main {a : Nat} {b : List Byte} (h : a + b.length ≤ usableTop) (s : State) (bad : List Nat) :
    s.lWrite a b bad = s.setMem fun m => m.write a b bad := by
  unfold State.lWrite
  split
  · rfl
  · have hb : b = [] := List.length_eq_zero_iff.mp (by omega)
    subst hb
    simp only [Mem.write_nil]
    rfl

theorem State.lRead_main {a : Nat} (h : a < usableTop) (s : State) (n : Nat) : s.lRead a n = s.mem.main.read a n := by
  simp [State.lRead, State.lMem, h]

/-! ### Accesses -/

/-- A host core's access to local usable memory that nothing stops is performed, and marks the line it writes as modified in the
caches of its die (R122, R197, R198). -/
theorem exec_hostMemoryAccess_local {s : State} {h : Fin 32} {a : BitVec 52} {off : Nat} {op : AccessOp}
    (hp : s.place a.toNat = .loc off) (hn : off + opSize op ≤ usableTop) (hu : s.regionUp (dieOf off) = true)
    (hr : s.ringPath (h.val / 8) (dieOf off) = .none) (ht : s.txRoom (.host (.hart h)) = true) (hk : s.huskStop op off = none) :
    exec (.hostMemoryAccess (.hart h) op a []) s = .next
      (((s.txTouch (h.val / 8) 1).perform op off).hartModified (h.val / 8) op off) := by
  rw [exec_hostMemoryAccess_hart hp hn]
  simp [State.hartLocal, hu, hr, ht, State.damages, State.huskStop_txTouch, hk]

/-- Settles O13: what a performed store, load and atomic is; a store's bytes are those of a write that covers its husks. -/
theorem hartMemoryAccess : Obligations.HartMemoryAccess := by
  unfold Obligations.HartMemoryAccess
  refine ⟨?_, ?_, ?_⟩
  · intro s h b a off hm hp hn hu hr ht hk
    refine ⟨s.mem.main.write off b [], ?_, Mem.cellGet_write hm (State.coversHusks_of_huskStop hk)⟩
    rw [exec_hostMemoryAccess_local (op := .store b) hp hn hu hr ht hk]
    simp only [State.perform, State.lWrite_main hn]
    rfl
  · intro s h n a off hp hn hu hr ht hk hoff
    rw [exec_hostMemoryAccess_local (op := .load n) hp hn hu hr ht hk]
    simp only [State.perform, State.lRead_main hoff]
    rfl
  · rintro s t h o w64 x c a off hp hn hu hr ht hk rfl
    rw [exec_hostMemoryAccess_local (op := .amo o w64 x c) hp hn hu hr ht hk]
    rfl

end Sys2Proof.Machine
end

