-- ==== Sys2Proof/Proofs/IdentityAndInventory.lean ====
section
/-! PROOFS. O5: MOD_ID, MOD_OPT_SPARE and the inventory commands (R41-R45, R332), and the end of a channel's binding (R318, R319). -/

namespace Sys2Proof.Machine

/-! ### Writes of MOD_ID -/

/-- A write without LOCK, or once the ID is locked, is ignored. -/
theorem State.writeId_ignored {s : State} {v : Nat} (h : bitOf v 31 = false ∨ s.idLocked = true) : s.writeId v = s := by
  unfold State.writeId
  rw [if_pos]
  simpa using h

/-- An accepted ID takes effect whole, the ports train, and the host cores may be released. -/
theorem State.writeId_accepted {s : State} {v : Nat} (hv : bitOf v 31 = true) (hl : s.idLocked = false) (hr : s.idReason v = 0) :
    s.writeId v = State.releaseHarts (State.trainAll
      { s with mod := { s.mod with modId := BitVec.ofNat 32 (v % 2 ^ 15 + 2 ^ 31) } }) := by
  simp [State.writeId, hv, hl, hr]

/-- A rejected ID is logged. -/
theorem State.writeId_rejected {s : State} {v : Nat} (hv : bitOf v 31 = true) (hl : s.idLocked = false) (hr : s.idReason v ≠ 0) :
    s.writeId v = s.logFw 0x0101 4 [v, s.idReason v, bitsOf s.modCaps 47 44, s.mod.modId.toNat] := by
  unfold State.writeId
  rw [hv, hl]
  split
  · next h => simp at h
  · split
    · next h0 => exact absurd h0 hr
    · rfl

theorem State.isActiveSp_holder {s : State} {c : Fin 2} (h : s.holder = some c.val) : s.isActiveSp (.sp c) = true := by
  simp [State.isActiveSp, h]

/-- The active CTD's service processor writes MOD_ID through open gates. -/
theorem exec_modIdWrite_open {s : State} {c : Fin 2} (h : s.holder = some c.val) (hg : s.ctd.lease.gates = true) (v : BitVec 32) :
    exec (.modIdWrite (.sp c) v) s = .next ((s.answer 0).writeId v.toNat) := by
  show execModIdWrite (.sp c) v s = _
  simp [execModIdWrite, State.isActiveSp_holder h, hg]

/-- Behind closed gates its write is answered and takes no effect (R293). -/
theorem exec_modIdWrite_closed {s : State} {c : Fin 2} (h : s.holder = some c.val) (hg : s.ctd.lease.gates = false)
    (v : BitVec 32) : exec (.modIdWrite (.sp c) v) s = .next (s.answer 0) := by
  show execModIdWrite (.sp c) v s = _
  simp [execModIdWrite, State.isActiveSp_holder h, hg]

theorem exec_modIdWrite_other {s : State} {i : Initiator} (h : s.isActiveSp i = false) (v : BitVec 32) :
    exec (.modIdWrite i v) s = .next (s.fail .unmapped) := by
  show execModIdWrite i v s = _
  simp [execModIdWrite, h]

/-! ### Writes of MOD_OPT_SPARE -/

/-- Without a retrain of an earlier change a write of SUBST is stored, and applied if it names another engine than the one in
use. -/
theorem State.writeSpare_idle {s : State} (ho : s.hasOptics = true) (hr : s.mod.retraining = []) (v : Nat) :
    s.writeSpare v = if BitVec.ofNat 2 v ≠ s.mod.inUse
      then State.applySpare { s with mod := { s.mod with subst := BitVec.ofNat 2 v } }
      else { s with mod := { s.mod with subst := BitVec.ofNat 2 v } } := by
  simp [State.writeSpare, ho, hr]

/-- The active CTD's service processor writes MOD_OPT_SPARE through open gates. -/
theorem exec_modOptSpareWrite_open {s : State} {c : Fin 2} (h : s.holder = some c.val) (hg : s.ctd.lease.gates = true)
    (v : BitVec 32) : exec (.modOptSpareWrite (.sp c) v) s = .next ((s.answer 0).writeSpare v.toNat) := by
  show execModOptSpareWrite (.sp c) v s = _
  simp [execModOptSpareWrite, State.isActiveSp_holder h, hg]

/-! ### Commands -/

/-- A command that takes the number of a unit, one of n, as its only word: on a channel that is heard its own part is answered if
the unit is present. -/
theorem runDarid_unitArg {d : DaridDef} {r : DReq} {s : State} {n : Nat} (h : s.heard d.op d.senders r = true)
    (hown : d.own = fun _ _ _ => true) (hlen : d.len = (· == 1)) (hbad : d.bad = fun _ a => badWord [(0, arg a 0 < n)])
    (hargs : r.args.length = 1) (ha : argOf r 0 < n) (hp : d.present s (DReq.nums r) = true) :
    runDarid d r s =
      answerDarid (whoOf d.op d.changes r d.mirrored) (d.body s (whoOf d.op d.changes r d.mirrored) (DReq.nums r)) := by
  refine runDarid_heard h (fun _ => by rw [hown]) (by rw [hlen, hargs]; rfl) ?_ hp
  rw [hbad]
  exact badWord_none (by simpa using ha)

/-! ### What the bodies of InvSetId and InvSetSpare answer -/

theorem dInvSetId_body {s : State} {a : List Nat} (hl : s.idLocked = false) (w : Who) :
    dInvSetId.body s w a =
      { s := s.writeId (arg a 0), status := if s.idReason (arg a 0) = 0 then dOk else dBadArg } := by
  simp [dInvSetId, hl]

theorem dInvSetSpare_body_done {s : State} {a : List Nat} (h : (s.writeSpare (arg a 0)).mod.retraining = []) (w : Who) :
    dInvSetSpare.body s w a = { s := s.writeSpare (arg a 0) } := by
  simp [dInvSetSpare, h]

/-- While a change's retrains run the command waits for them. -/
theorem dInvSetSpare_body_waits {s t : State} {a : List Nat} (ht : t = s.writeSpare (arg a 0)) (h : t.mod.retraining ≠ [])
    (w : Who) :
    dInvSetSpare.body s w a =
      { s := { t with mod := { t.mod with waiters := t.mod.waiters ++ [w] } }, status := dPending } := by
  subst ht
  simp [dInvSetSpare, h]

/-! ### Bindings -/

/-- After 60 s without traffic a binding of either kind ends. -/
theorem exec_channelBindingExpiry {s : State} {ch : Fin 512} {b : Bind} (hb : s.mbox.binds.lookup ch.val = some b)
    (ht : b.last + 60000000000 ≤ s.time.mono) : exec (.channelBindingExpiry ch) s = .next (s.unbind ch) := by
  have hdue : b.last + (if ch.val < 288 then 60000000000 else 10000000000) ≤ s.time.mono := by
    split <;> omega
  show execChannelBindingExpiry ch s = _
  simp only [execChannelBindingExpiry, hb, hdue, if_true]

/-- Settles O5: each write is that of its register's rule, each command is heard and has the effect of its own part. -/
theorem identityAndInventory : Obligations.IdentityAndInventory := by
  unfold Obligations.IdentityAndInventory
  refine ⟨?_, ?_, ?_, ?_, ?_, ?_, ?_, ?_, ?_, ?_, ?_, ?_, ?_, ?_, ?_⟩
  · intro s c v hh hg hv hl hr
    rw [exec_modIdWrite_open hh hg, State.writeId_accepted (s := s.answer 0) hv hl hr]
    rfl
  · intro s c v hh hg hv hl hr
    rw [exec_modIdWrite_open hh hg, State.writeId_rejected (s := s.answer 0) hv hl hr]
    rfl
  · intro s c v hh hv
    cases hg : s.ctd.lease.gates with
    | true => rw [exec_modIdWrite_open hh hg, State.writeId_ignored (s := s.answer 0) hv]
    | false => exact exec_modIdWrite_closed hh hg v
  · intro s i v hi
    exact exec_modIdWrite_other hi v
  · intro s c v hh hg ho hr
    rw [exec_modOptSpareWrite_open hh hg, State.writeSpare_idle (s := s.answer 0) ho hr]
    rfl
  · intro r s h hn
    exact congrArg _ (runDarid_heard (d := dInvCaps) h (fun _ => rfl) (by simp [dInvCaps, hn]) rfl rfl)
  · intro r s h hn ha
    exact congrArg _ (runDarid_unitArg (d := dInvDie) h rfl rfl rfl hn ha rfl)
  · intro r s h hn ha
    exact congrArg _ (runDarid_unitArg (d := dInvStack) h rfl rfl rfl hn ha rfl)
  · intro r s h hn ha ho
    exact congrArg _ (runDarid_unitArg (d := dInvOptical) h rfl rfl rfl hn ha ho)
  · intro r s h hn ha hp
    exact congrArg _ (runDarid_unitArg (d := dInvCtd) h rfl rfl rfl hn ha hp)
  · intro r s h hn h31 hres hl
    exact congrArg _ ((runDarid_heard (d := dInvSetId) h (fun _ => rfl) (by simp [dInvSetId, hn])
      (badWord_none (by simp [h31, hres])) rfl).trans (congrArg _ (dInvSetId_body hl _)))
  · intro r s h hn ha ho ht
    exact congrArg _ ((runDarid_unitArg (d := dInvSetSpare) h rfl rfl rfl hn ha ho).trans
      (congrArg _ (dInvSetSpare_body_done ht _)))
  · intro r s h hn ha ho ht
    exact ⟨_, rfl, congrArg _ ((runDarid_unitArg (d := dInvSetSpare) h rfl rfl rfl hn ha ho).trans
      (congrArg _ (dInvSetSpare_body_waits rfl ht _)))⟩
  · intro r s h hn
    exact congrArg (fun t : State => Host.Outcome.next (t.afterResponse r.ctd r.ch))
      (runDarid_heard (d := dChannelRelease) h (fun _ => rfl) (by simp [dChannelRelease, hn]) rfl rfl)
  · intro s ch b hb ht
    exact ⟨s.unbind ch, exec_channelBindingExpiry hb ht, rfl, rfl⟩

end Sys2Proof.Machine
end

