-- ==== Sys2Proof/Proofs/ScheduleTable.lean ====
section
/-! PROOFS. O27: where the statement about SCHEDULE_ARM fails: a die that has received no time-bus frame (R59). -/

namespace Sys2Proof.Machine

/-- A die that has received no frame since it left reset has no key armed, and none is missed there. -/
theorem State.armOn_unseen {s : State} {d : Nat} (h : (s.dt d).seen = false) (n : Nat) : s.armOn n d = s := by
  unfold State.armOn
  split
  · rfl
  · simp [h]

/-- While no die has received a frame, SCHEDULE_ARM only sees whether the entry is spent. -/
theorem exec_scheduleArm_unseen {s : State} {h : Nat} (hs : s.serving = some h) (hd : ∀ d < 4, (s.dt d).seen = false)
    (n : Fin 1024) : exec (.scheduleArm n) s = .next (s.schedSpent n) := by
  show execScheduleArm n s = _
  simp [execScheduleArm, hs, State.armOn_unseen, hd]

/-- A one-shot entry on die 0 at the first phase of step 1. -/
def firstStepEntry : SchedEntry :=
  { stepKey := true, action := 2, skip := false, fw := false, ctx := 0, dies := 1, rep := 0, first := 65536, period := 0, arg := 0 }

/-- CTD0 serves and all dies are out of reset, but no frame has reached one; the table holds `firstStepEntry` at index 128. -/
def beforeFirstFrame : State :=
  { ctd := { ctds := [{ role := .active, running := true }, {}]
             lease := { holder := some 0, gates := true, granted := true } }
    dies := List.replicate 4 { inReset := false }
    sched := [(128, firstStepEntry)] }

/-- Refutes O27 in its first clause: its premises let die 0 be out of reset without having received a time-bus frame, and then
SCHEDULE_ARM arms nothing there, though the key is not passed. -/
theorem not_scheduleTable : ¬ Obligations.ScheduleTable := by
  unfold Obligations.ScheduleTable
  rintro ⟨harm, -, -⟩
  have hserving : beforeFirstFrame.serving = some 0 := rfl
  have hunseen : ∀ d < 4, (beforeFirstFrame.dt d).seen = false := by decide
  have hclaim := harm beforeFirstFrame 128 0 firstStepEntry 0 hserving rfl rfl rfl rfl rfl rfl rfl rfl (by decide)
  rw [exec_scheduleArm_unseen hserving hunseen] at hclaim
  have hsched := congrArg State.sched (Host.Outcome.next.inj hclaim)
  revert hsched
  decide

end Sys2Proof.Machine
end

