-- ==== Sys2Proof/Proofs/ThresholdRange.lean ====
section
/-! PROOFS. O53: TB_JUMP_THRESH stays in the range of R70. -/

namespace Sys2Proof.Machine

/-- A write of TB_JUMP_THRESH that the service processor of the active CTD makes with the gates open is stored. -/
theorem exec_csrRegisterWrite_thresh {s : State} {c h : Fin 2} {a : BitVec 52}
    (hat : s.csrAt (.sp c) a.toNat 32 = .ok (.ctd h, .tbThresh, false)) (hh : s.holder = some c.val)
    (hg : s.ctd.lease.gates = true) (v : CsrValue) :
    exec (.csrRegisterWrite (.sp c) a 32 v) s = s.csrStore (.sp c) .tbThresh 32 false v.value v.hwSet.toNat := by
  have hmay : s.mayWrite (.sp c) (.ctd h) .tbThresh = true := State.isActiveSp_holder hh
  rw [exec_csrRegisterWrite_ok hat, hmay, State.gateHolds_open hh hg]
  rfl

/-- What every step does to the threshold: from inside the range it stays inside. -/
theorem step_thresh {s t : State} (h : step s = .next t) (hs : 1000 ≤ s.time.thresh ∧ s.time.thresh ≤ 1000000) :
    1000 ≤ t.time.thresh ∧ t.time.thresh ≤ 1000000 := by
  unfold step at h
  split at h
  · obtain ⟨-, -, -, hthresh⟩ := Keeps.of_exec h
    exact hthresh hs
  · rw [← Host.Outcome.next.inj h]
    obtain ⟨-, -, -, hthresh⟩ := Keeps.tick s
    exact hthresh hs

/-- Settles O53: the write brings its value into the range, and every command and the tick keep the range (`Keeps`). -/
theorem thresholdRange : Obligations.ThresholdRange := by
  unfold Obligations.ThresholdRange
  refine ⟨rfl, ?_, fun s t hs h => step_thresh h hs⟩
  intro s c h a v hw hat hh hg
  refine ⟨_, (exec_csrRegisterWrite_thresh hat hh hg ⟨v, hw⟩).trans (State.csrStore_thresh ..), ?_⟩
  have hbits : bitsOf v.toNat 19 0 = v.toNat % 2 ^ 20 := rfl
  show max 1000 (min 1000000 (v.toNat % 2 ^ 20)) = _
  rw [hbits]
  split
  · omega
  · split <;> omega

end Sys2Proof.Machine
end

