-- ==== Sys2Proof/Proofs/StepAndReset.lean ====
section
/-! PROOFS. O49 and O50: what a step is, and the state it starts from. -/

namespace Sys2Proof.Machine

/-- Settles O49: the two forms of the queue are the two branches of `step`, and no table word spells a command. -/
theorem stepRunsFront : Obligations.StepRunsFront := by
  unfold Obligations.StepRunsFront
  refine ⟨?_, ?_, fun s n w => ⟨rfl, rfl⟩⟩
  · intro s c rest h
    unfold step
    rw [h]
  · intro s h
    unfold step
    rw [h]

/-- The queue is empty after reset, so the invariant holds of it. -/
theorem reset_inv : State.reset.Inv := ⟨reset_memWf, rfl⟩

/-- Both Ledgers are empty after reset. -/
theorem reset_ledger_ram : ∀ c < 2, (State.reset.ledger c).ram = [] := by decide

/-- Settles O50: each field has the default it is declared with. -/
theorem resetState : Obligations.ResetState :=
  ⟨reset_inv, fun _ => rfl, rfl, rfl, rfl, rfl, rfl, rfl, rfl, rfl, rfl, rfl, rfl, reset_ledger_ram, rfl, fun _ => rfl⟩

end Sys2Proof.Machine
end

