-- ==== Sys2Proof/Proofs/TimeBus.lean ====
section
/-! PROOFS. O29: a frame of the time bus and holdover at a die (R54-R58). First what an advance of STEP does, then what a frame
leaves at its die. -/

namespace Sys2Proof.Machine

/-! ### Changes of one time receiver -/

/-- Two changes of a list's element give one list if they agree on that element. -/
theorem lmod_congr {α : Type} {l : List α} {n : Nat} {d : α} {f g : α → α} (h : f (l.getD n d) = g (l.getD n d)) :
    lmod l n f = lmod l n g := by
  induction l generalizing n with
  | nil => rfl
  | cons a r ih =>
    cases n with
    | zero => exact congrArg (· :: r) h
    | succ n => exact congrArg (a :: ·) (ih h)

theorem State.setDt_congr {s : State} {d : Nat} {f g : DieTime → DieTime} (h : f (s.dt d) = g (s.dt d)) :
    s.setDt d f = s.setDt d g :=
  congrArg (fun l => { s with dieTime := l }) (lmod_congr h)

theorem State.dt_setDt_self {s : State} {d : Nat} {f : DieTime → DieTime} (h : d < s.dieTime.length) :
    (s.setDt d f).dt d = f (s.dt d) := getD_lmod_self h

/-! ### Advances of STEP (R51) -/

theorem stepNum_stepWord (n ph : Nat) : stepNum (stepWord n ph) = n % 2 ^ 48 := by
  simp only [stepNum, stepWord, BitVec.toNat_ofNat]
  omega

theorem stepNum_lt (w : BitVec 64) : stepNum w < 2 ^ 48 := by
  have := w.isLt
  simp only [stepNum]
  omega

/-- Advances of STEP count its number up, and touch only it and the schedule. -/
theorem State.stepAdvance_iterate (s : State) (n : Nat) :
    stepNum (State.stepAdvance^[n] s).time.step = (stepNum s.time.step + n) % 2 ^ 48 ∧
      (State.stepAdvance^[n] s).dieTime = s.dieTime ∧ (State.stepAdvance^[n] s).mem = s.mem ∧
      (State.stepAdvance^[n] s).eng = s.eng ∧ (State.stepAdvance^[n] s).fab = s.fab := by
  induction n with
  | zero => exact ⟨(Nat.mod_eq_of_lt (stepNum_lt _)).symm, rfl, rfl, rfl, rfl⟩
  | succ n ih =>
    obtain ⟨hstep, hdie, hmem, heng, hfab⟩ := ih
    rw [Function.iterate_succ_apply']
    refine ⟨?_, hdie, hmem, heng, hfab⟩
    show stepNum (stepWord (stepNum (State.stepAdvance^[n] s).time.step + 1) 0) = _
    rw [stepNum_stepWord, hstep]
    omega

/-! ### A frame at a die (R54, R57) -/

/-- The frame makes the die take POD at once: it is the first one, or its step counter differs. -/
def DieTime.jumps (t : DieTime) (f : TimeSt) : Bool := !t.seen || t.stepCtr != f.stepCtr

/-- The die takes POD, and TOLL, of a frame. -/
def DieTime.takesPod (t : DieTime) (f : TimeSt) : Bool := t.jumps f || t.pod ≤ f.pod
def DieTime.takesToll (t : DieTime) (f : TimeSt) : Bool := !t.seen || t.toll ≤ f.toll

/-- The largest realignment that TIME_HOLDOVER reports, after the frame. -/
def DieTime.realigned (t : DieTime) (f : TimeSt) : Nat :=
  if t.holdover then
    max t.realign (max (if t.jumps f then 0 else diffNs f.pod t.pod) (if t.seen then diffNs f.toll t.toll else 0))
  else 0

/-- What a frame of what the active CTD holds makes of a time receiver, which is `was` as the frame comes. -/
def DieTime.framed (f : TimeSt) (was t : DieTime) : DieTime :=
  { t with
    pod := if was.takesPod f then f.pod else t.pod, toll := if was.takesToll f then f.toll else t.toll
    slowPod := !was.takesPod f, slowToll := !was.takesToll f, mono := f.mono, step := f.step, rate := f.podRate
    stepCtr := f.stepCtr, podValid := f.podValid, locked := f.lock == .locked, seen := true, lastFrame := f.mono
    realign := was.realigned f, latched := 0, holdover := t.holdover && !(was.takesPod f && was.takesToll f) }

/-- The state after a frame at a die, before what the die latched in holdover and what it reports. -/
def State.framed (s : State) (d : Nat) : State :=
  ({ s with time := { s.time with busRate := s.time.podRate } } : State).setDt d (DieTime.framed s.time (s.dt d))

/-- What a frame leaves is any change that is the same for the receiver as it stands. -/
theorem State.framed_eq {s : State} {d : Nat} {g : DieTime → DieTime}
    (h : DieTime.framed s.time (s.dt d) (s.dt d) = g (s.dt d)) :
    s.framed d = ({ s with time := { s.time with busRate := s.time.podRate } } : State).setDt d g := State.setDt_congr h

theorem State.dt_framed {s : State} {d : Nat} (h : d < s.dieTime.length) :
    (s.framed d).dt d = DieTime.framed s.time (s.dt d) (s.dt d) :=
  State.dt_setDt_self (s := { s with time := { s.time with busRate := s.time.podRate } }) h

/-- With a holder and open gates, a frame reaches a die that is out of reset; the end of a holdover is logged, and the steps latched
in it are added. -/
theorem exec_timeBusFrame {s : State} {d : Fin 4} {h : Nat} (hh : s.holder = some h) (hr : (s.die d).inReset = false)
    (hg : s.ctd.lease.gates = true) :
    exec (.timeBusFrame d) s = .next (State.stepAdvance^[(s.dt d).latched]
      (if (s.dt d).holdover && ((s.dt d).takesPod s.time && (s.dt d).takesToll s.time) then
        (s.framed d).log 0x0B05 3 (srcDieUnit d 64) [d, (s.time.mono - (s.dt d).since) / 1000, (s.dt d).realigned s.time]
      else s.framed d)) := by
  show execTimeBusFrame d s = _
  simp only [execTimeBusFrame, hh, hr, hg, Option.isNone_some, Bool.or_self, Bool.not_true, Bool.false_eq_true, if_false,
    List.foldl_const, List.length_range]
  rfl

/-- Out of holdover and with no step latched, a frame does nothing else. -/
theorem exec_timeBusFrame_inStep {s : State} {d : Fin 4} {h : Nat} (hh : s.holder = some h) (hr : (s.die d).inReset = false)
    (hg : s.ctd.lease.gates = true) (hho : (s.dt d).holdover = false) (hl : (s.dt d).latched = 0) :
    exec (.timeBusFrame d) s = .next (s.framed d) := by
  rw [exec_timeBusFrame hh hr hg, hho, hl]
  rfl

/-- A frame at or ahead of both bases of a die in holdover ends the holdover; the steps latched in it are added to STEP. -/
theorem exec_timeBusFrame_endsHoldover {s : State} {d : Fin 4} {h : Nat} (hh : s.holder = some h)
    (hr : (s.die d).inReset = false) (hg : s.ctd.lease.gates = true) (hho : (s.dt d).holdover = true)
    (hpod : (s.dt d).pod ≤ s.time.pod) (htoll : (s.dt d).toll ≤ s.time.toll) (hd : d.val < s.dieTime.length) :
    ∃ t, exec (.timeBusFrame d) s = .next t ∧ (t.dt d).holdover = false ∧ (t.dt d).pod = s.time.pod ∧
      (t.dt d).toll = s.time.toll ∧ (t.dt d).latched = 0 ∧ t.mem = s.mem ∧ t.eng = s.eng ∧ t.fab = s.fab ∧
      stepNum t.time.step = (stepNum s.time.step + (s.dt d).latched) % 2 ^ 48 := by
  have htakesPod : (s.dt d).takesPod s.time = true := by simp [DieTime.takesPod, hpod]
  have htakesToll : (s.dt d).takesToll s.time = true := by simp [DieTime.takesToll, htoll]
  refine ⟨_, exec_timeBusFrame hh hr hg, ?_⟩
  rw [hho, htakesPod, htakesToll]
  generalize hu : (s.framed d).log 0x0B05 3 (srcDieUnit d 64) _ = u
  have hlogged : u.dieTime = (s.framed d).dieTime ∧ u.time.step = s.time.step ∧ u.mem = s.mem ∧ u.eng = s.eng ∧
      u.fab = s.fab := by
    subst hu
    simp [State.framed]
  obtain ⟨hdie, hstep, hmem, heng, hfab⟩ := hlogged
  obtain ⟨astep, adie, amem, aeng, afab⟩ := State.stepAdvance_iterate u (s.dt d).latched
  have hdt : (State.stepAdvance^[(s.dt d).latched] u).dt d = DieTime.framed s.time (s.dt d) (s.dt d) := by
    rw [← State.dt_framed hd]
    exact congrArg (·.getD d.val {}) (adie.trans hdie)
  simp only [Bool.and_self, if_true, hdt, amem, aeng, afab, hmem, heng, hfab, astep, hstep, DieTime.framed, htakesPod, htakesToll,
    hho, Bool.not_true, Bool.and_false, and_self]

/-- Settles O29: the first two frames are read off `DieTime.framed`, the end of a holdover off it and the advances of STEP. -/
theorem timeBus : Obligations.TimeBus := by
  unfold Obligations.TimeBus
  refine ⟨?_, ?_, ?_, ?_⟩
  · intro s d h hh hr hg hseen hho hl
    rw [exec_timeBusFrame_inStep hh hr hg hho hl]
    refine congrArg _ (State.framed_eq ?_)
    simp [DieTime.framed, DieTime.takesPod, DieTime.takesToll, DieTime.jumps, DieTime.realigned, hseen, hho]
  · intro s d h hh hr hg hseen hho hl hctr hpod htoll hd
    have hbehind : ¬ (s.dt d).pod ≤ s.time.pod := Int.not_le.mpr hpod
    rw [exec_timeBusFrame_inStep hh hr hg hho hl]
    refine congrArg _ (State.framed_eq ?_)
    simp [DieTime.framed, DieTime.takesPod, DieTime.takesToll, DieTime.jumps, DieTime.realigned, hseen, hho, hctr, htoll, hl,
      hbehind]
  · intro s d h hh hr hg _ hho hpod htoll hd
    exact exec_timeBusFrame_endsHoldover hh hr hg hho hpod htoll hd
  · intro s d hseen hho hr ht
    show execHoldoverEntry d s = _
    simp [execHoldoverEntry, hseen, hho, hr, ht]

end Sys2Proof.Machine
end

