-- ==== Sys2Proof/Proofs/PodMeasurement.lean ====
section
/-! PROOFS. O30: measurements of POD against the reference and the PTP exchange (R49, R61-R68). First rules for what the servo makes
of a measurement, then for the messages of the exchange. -/

namespace Sys2Proof.Machine

/-! ### Measurements (R49, R62, R67, R68) -/

theorem State.setTime_setTime (s : State) (f g : TimeSt → TimeSt) : (s.setTime f).setTime g = s.setTime fun t => g (f t) := rfl

/-- Two changes of the time base that agree on it give one state. -/
theorem State.setTime_congr {s : State} {f g : TimeSt → TimeSt} (h : f s.time = g s.time) : s.setTime f = s.setTime g :=
  congrArg (fun t => { s with time := t }) h

theorem State.setTime_serving (s : State) (f : TimeSt → TimeSt) : (s.setTime f).serving = s.serving := rfl

/-- From ACQUIRING the servo enters HOLD without a record. -/
theorem State.podHold_acquiring {s : State} (h : s.time.lock = .acquiring) :
    s.podHold = s.setTime fun t => { t with lock := .hold, slew := 0, lockCount := 0 } := by
  simp [State.podHold, h]

/-- Without the 1PPS input, or before POD is valid, the reference's offset is the measurement. -/
theorem State.measureRef_direct {s : State} (h : s.time.podValid = false ∨ s.time.ppsInEn = false) (o : Int) (gm : BitVec 64) :
    s.measureRef o gm = s.measure o (some gm) true := by
  rcases h with h | h <;> simp [State.measureRef, h]

/-- The first measurement sets POD and TOLL and makes both valid (R49). -/
theorem State.measure_first {s : State} {h : Nat} (hsrc : s.time.podSrc = 1) (hv : s.time.podValid = false)
    (hs : s.serving = some h) (o : Int) (gm : BitVec 64) (count : Bool) :
    s.measure o (some gm) count = (s.setTime fun t =>
      { t with
        pod := s.time.pod + o * nsUnit, toll := s.time.pod + o * nsUnit, podValid := true, tollValid := true
        stepCtr := t.stepCtr + 1, lock := .acquiring, lockCount := 0, gmId := gm, gmFresh := false
        lastMeas := t.mono }).tollBegins.podEntries := by
  simp [State.measure, hsrc, hv, hs]

/-- A measurement against the grandmaster that is followed goes to the servo. -/
theorem State.measure_followed {s : State} {h : Nat} (hsrc : s.time.podSrc = 2) (hv : s.time.podValid = true)
    (hs : s.serving = some h) (hp : s.time.gmPending = false) (o : Int) (count : Bool) :
    s.measure o (some s.time.gmId) count =
      (s.setTime fun t => { t with gmId := s.time.gmId, gmFresh := false }).servo o count := by
  simp [State.measure, hsrc, hv, hs, hp]

/-- A measurement against another grandmaster stops the servo and awaits acceptance (R68). -/
theorem State.measure_otherGm {s : State} {h : Nat} {gm : BitVec 64} (hsrc : s.time.podSrc = 2) (hv : s.time.podValid = true)
    (hs : s.serving = some h) (hf : s.time.gmFresh = false) (hg : gm ≠ s.time.gmId) (hp : s.time.gmPending = false)
    (hl : s.time.lock = .acquiring) (o : Int) (count : Bool) :
    s.measure o (some gm) count = (s.setTime fun t =>
      { t with
        lock := .hold, slew := 0, lockCount := 0, corrPending := true, gmPending := true, gmPendId := gm
        pendingCorr := BitVec.ofInt 64 o, lastMeas := t.mono }).logFw 0x0B03 4 (lohi s.time.gmId.toNat ++ lohi gm.toNat) := by
  simp [State.measure, hsrc, hv, hs, hf, hg, hp, State.podHold_acquiring hl, State.setTime_setTime]

/-- An offset beyond the threshold stops the servo, is pending and is logged (R67). -/
theorem State.servo_beyondThreshold {s : State} {o : Int} (hc : s.time.corrPending = false) (ht : s.time.thresh < o.natAbs)
    (hl : s.time.lock = .acquiring) :
    s.servo o true = (s.setTime fun t =>
      { t with
        lastMeas := t.mono, lock := .hold, slew := 0, lockCount := 0, corrPending := true, pendingCorr := BitVec.ofInt 64 o
        episodeCount := 0 }).logFw 0x0B01 4 (slohi o ++ [s.time.thresh, s.time.podSrc.toNat]) := by
  have hhold := State.podHold_acquiring (s := s.setTime fun t => { t with lastMeas := t.mono }) hl
  simp [State.servo, hc, ht, hhold, State.setTime_setTime]

/-! ### PTP messages (R61) -/

/-- A message of the domain and transport in use, while PTP is the source and a CTD serves, is looked at. -/
theorem State.ptp_heard {s : State} {m : PtpMsg} {k : Nat} (hsrc : s.time.podSrc = 1) (hs : s.serving = some k)
    (hd : m.head.domain = s.time.domain) (hu : m.head.udp = s.time.udp) :
    (!(s.time.podSrc == 1 && m.head.domain == s.time.domain && m.head.udp == s.time.udp && s.serving.isSome)) = false := by
  simp [hsrc, hs, hd, hu]

/-- An exchange that lacks its Delay_Resp is not measured yet. -/
theorem State.ptpDone_waits {s : State} {x : PtpExchange} (hx : s.time.ptpSync = some x) (h4 : x.t4 = none) : s.ptpDone = s := by
  unfold State.ptpDone
  rw [hx]
  simp only [h4]
  rcases x.t1 with _ | t1 <;> rfl

/-- An exchange with all its times is measured: half the sum of the two differences. -/
theorem State.ptpDone_measures {s : State} {x : PtpExchange} {t1 t4 : Int} (hx : s.time.ptpSync = some x) (h1 : x.t1 = some t1)
    (h4 : x.t4 = some t4) : s.ptpDone = (s.setTime fun t => { t with ptpSync := none, hop := 0 }).measureRef
      (((t1 + x.corr - x.t2) + (t4 - x.t3)) / 2) x.gm := by
  unfold State.ptpDone
  rw [hx]
  simp only [h1, h4]

theorem exec_ptp_announce {s : State} {h : PtpHead} {k : Nat} (hsrc : s.time.podSrc = 1) (hs : s.serving = some k)
    (hd : h.domain = s.time.domain) (hu : h.udp = s.time.udp) (gm : BitVec 64) (a c : BitVec 8) (b : BitVec 32) (n : BitVec 16) :
    exec (.ptpMessageReceive (.announce h gm a b c n)) s = .next (s.setTime fun t => t.announced
      { src := h.src, gm := gm, prio1 := a, quality := b, prio2 := c, steps := n, interval := h.interval, heard := [] }) := by
  show Host.Outcome.next (s.ptp _) = _
  simp only [State.ptp, State.ptp_heard (m := .announce h gm a b c n) hsrc hs hd hu, Bool.false_eq_true, if_false]
  rfl

theorem exec_ptp_sync {s : State} {h : PtpHead} {m : PtpMaster} {k : Nat} (hsrc : s.time.podSrc = 1) (hs : s.serving = some k)
    (hd : h.domain = s.time.domain) (hu : h.udp = s.time.udp) (hp : s.time.parent = some m) (hm : m.src = h.src)
    (hi : -7 ≤ h.interval ∧ h.interval ≤ 0) (two : Bool) (t1 : Int) :
    exec (.ptpMessageReceive (.sync h two t1)) s = .next (s.setTime fun t => { t with
      ptpSync := some { src := h.src, seq := h.seq, gm := m.gm, t1 := if two then none else some t1, corr := h.corr
                        t2 := t.pod / nsUnit, req := t.ptpSeq, t3 := t.pod / nsUnit } }).delayReq := by
  have hfit : (m.src == h.src && decide (-7 ≤ h.interval) && decide (h.interval ≤ 0)) = true := by simp [hm, hi]
  show Host.Outcome.next (s.ptp _) = _
  simp only [State.ptp, State.ptp_heard (m := .sync h two t1) hsrc hs hd hu, Bool.false_eq_true, if_false, hp]
  exact congrArg _ (if_pos hfit)

theorem exec_ptp_followUp {s : State} {h : PtpHead} {x : PtpExchange} {k : Nat} (hsrc : s.time.podSrc = 1)
    (hs : s.serving = some k) (hd : h.domain = s.time.domain) (hu : h.udp = s.time.udp) (hx : s.time.ptpSync = some x)
    (hxs : x.src = h.src) (hq : x.seq = h.seq) (h1 : x.t1 = none) (h4 : x.t4 = none) (t1 : Int) :
    exec (.ptpMessageReceive (.followUp h t1)) s = .next (s.setTime fun t => { t with
      ptpSync := some { x with t1 := some t1, corr := x.corr + h.corr } }) := by
  show Host.Outcome.next (s.ptp _) = _
  simp only [State.ptp, State.ptp_heard (m := .followUp h t1) hsrc hs hd hu, Bool.false_eq_true, if_false]
  have hset : (s.setTime fun t => { t with ptpSync := t.ptpSync.map fun x =>
      if x.src == h.src && x.seq == h.seq && x.t1.isNone then { x with t1 := some t1, corr := x.corr + h.corr } else x }) =
      s.setTime fun t => { t with ptpSync := some { x with t1 := some t1, corr := x.corr + h.corr } } :=
    State.setTime_congr (by simp [hx, hxs, hq, h1])
  rw [← State.ptpDone_waits (s := s.setTime fun t => { t with
    ptpSync := some { x with t1 := some t1, corr := x.corr + h.corr } }) rfl h4, ← hset]
  rfl

theorem exec_ptp_delayResp {s : State} {h : PtpHead} {x : PtpExchange} {t1 : Int} {k : Nat} (hsrc : s.time.podSrc = 1)
    (hs : s.serving = some k) (hd : h.domain = s.time.domain) (hu : h.udp = s.time.udp) (hx : s.time.ptpSync = some x)
    (hxs : x.src = h.src) (hq : x.req = h.seq) (h1 : x.t1 = some t1) (t4 : Int) :
    exec (.ptpMessageReceive (.delayResp h s.ptpPort t4)) s =
      .next ((s.setTime fun t => { t with ptpSync := none, hop := 0 }).measureRef
        (((t1 + x.corr - x.t2) + (t4 - h.corr - x.t3)) / 2) x.gm) := by
  show Host.Outcome.next (s.ptp _) = _
  simp only [State.ptp, State.ptp_heard (m := .delayResp h s.ptpPort t4) hsrc hs hd hu, Bool.false_eq_true, if_false]
  have hset : (s.setTime fun t => { t with ptpSync := t.ptpSync.map fun x =>
      if x.src == h.src && x.req == h.seq && s.ptpPort == s.ptpPort then { x with t4 := some (t4 - h.corr) } else x }) =
      s.setTime fun t => { t with ptpSync := some { x with t4 := some (t4 - h.corr) } } :=
    State.setTime_congr (by simp [hx, hxs, hq])
  have hdone := State.ptpDone_measures (s := s.setTime fun t => { t with ptpSync := some { x with t4 := some (t4 - h.corr) } })
    rfl h1 rfl
  rw [← hset] at hdone
  refine congrArg _ (Eq.trans ?_ hdone)
  rfl

/-- Settles O30: a measurement by what the servo makes of it, a message by what it adds to the exchange. -/
theorem podMeasurement : Obligations.PodMeasurement := by
  unfold Obligations.PodMeasurement
  refine ⟨?_, ?_, ?_, ?_, ?_, ?_, ?_, ?_⟩
  · intro s o gm h hsrc hv hs
    show Host.Outcome.next (s.measureRef o gm) = _
    rw [State.measureRef_direct (.inl hv), State.measure_first hsrc hv hs]
  · intro s o h hsrc hv hs hpps hf hp hc ht hl
    show Host.Outcome.next (s.measureRef o s.time.gmId) = _
    have hsame : (s.setTime fun t => { t with gmId := s.time.gmId, gmFresh := false }) = s :=
      State.setTime_congr (g := id) (by simp [← hf])
    rw [State.measureRef_direct (.inr hpps), State.measure_followed hsrc hv hs hp, hsame,
      State.servo_beyondThreshold hc ht hl, hsrc]
    rfl
  · intro s o gm h hsrc hv hs hpps hf hg hp hl
    show Host.Outcome.next (s.measureRef o gm) = _
    rw [State.measureRef_direct (.inr hpps), State.measure_otherGm hsrc hv hs hf hg hp hl]
  · intro s h gm a c b n k hsrc hs hd hu
    exact exec_ptp_announce hsrc hs hd hu gm a c b n
  · intro s h two t1 m k hsrc hs hd hu hp hm h7 h0
    exact exec_ptp_sync hsrc hs hd hu hp hm ⟨h7, h0⟩ two t1
  · intro s h t1 x k hsrc hs hd hu hx hxs hq h1 h4
    exact exec_ptp_followUp hsrc hs hd hu hx hxs hq h1 h4 t1
  · intro s h x t1 t4 k hsrc hs hd hu hx hxs hq h1
    exact ⟨_, rfl, exec_ptp_delayResp hsrc hs hd hu hx hxs hq h1 t4⟩
  · intro s h hl ht hs
    show execPodLockLost s = _
    simp [execPodLockLost, hl, ht, hs, State.podHold_acquiring hl]

end Sys2Proof.Machine
end

