-- ==== Sys2Proof/Proofs/PpsAndTimestamps.lean ====
section
/-! PROOFS. O31: the 1PPS pair (R65, R66), TIMESTAMP packets (R244) and the transmit timestamp queues (R74, R75). -/

namespace Sys2Proof.Machine

/-! ### The 1PPS pair -/

/-- Before POD is valid an edge of the 1PPS input measures nothing. -/
theorem State.measure_ppsInvalid {s : State} (hv : s.time.podValid = false) (o : Int) (count : Bool) :
    s.measure o none count = s := by
  simp [State.measure, hv]

/-- An edge of an input in use, while a CTD serves, is noted and goes to the measurement against its nearest second. -/
theorem exec_ppsInEdge {s : State} {h : Nat} (hen : s.time.ppsInEn = true) (hs : s.serving = some h) :
    exec .ppsInEdge s = .next ((s.setTime fun t => { t with ppsSeen := true, ppsLast := t.mono, ppsLost := false }).measure
      ((s.time.pod / nsUnit - s.time.ppsDelay + 500000000) / 1000000000 * 1000000000 -
        (s.time.pod / nsUnit - s.time.ppsDelay)) none true) := by
  show execPpsInEdge s = _
  simp only [execPpsInEdge, hen, hs, Option.isNone_some, Bool.not_true, Bool.or_self, Bool.false_eq_true, if_false]
  rfl

/-! ### TIMESTAMP packets -/

/-- An exchange qualifies (R244): its responder is locked, the responder's stamps carry neither HOLDOVER nor UNTRACED, the module's
own carry no HOLDOVER, and the response came within 100 microseconds. -/
def State.tsQualifies (s : State) (p : Nat) (x : TsResp) (t1 : BitVec 64) (sent : Nat) : Bool :=
  x.lock == 2 && x.t2.toNat % 4 == 0 && x.t3.toNat % 4 == 0 && !t1.getLsbD 0 && !(s.linkStamp p).getLsbD 0 &&
    s.time.mono ≤ sent + 100000

/-- A response to the module's request on the time source's port ends the exchange; it is measured if it qualifies. -/
theorem exec_timestampResponseReceive {s u : State} {p : Fin 13} {t1 : BitVec 64} {sent : Nat} (hu : u = s.takeTs p)
    (hsrc : u.time.podSrc = 2) (hp : p.val = u.time.wgPort.toNat) (hseen : (u.dt (portDie p)).seen = true)
    (hreq : u.time.tsReq = some (some t1, sent)) (x : TsResp) :
    exec (.timestampResponseReceive p x) s = .next
      (if u.tsQualifies p x t1 sent then
        (u.setTime fun y => { y with tsReq := none, hop := x.hop + 1 }).measureRef
          ((((4 * (x.t2.toNat / 4) : Nat) - (4 * (t1.toNat / 4) : Nat) : Int) -
            ((4 * ((u.linkStamp p).toNat / 4) : Nat) - (4 * (x.t3.toNat / 4) : Nat))) / 2) x.gm
      else u.setTime fun y => { y with tsReq := none }) := by
  subst hu
  show execTimestampResponseReceive p x s = _
  simp only [execTimestampResponseReceive, hreq, hsrc, ← hp, hseen, bne_self_eq_false, Bool.not_true, Bool.or_self,
    Bool.false_eq_true, if_false]
  rfl

/-! ### Transmit timestamp queues -/

/-- A host core's read of a half of the active CTD's queue takes nothing. -/
theorem exec_tbTsqPop_half {s : State} {c : Fin 2} (hc : s.ctdGate c = .none) (hh : s.holder = some c.val) (n : Fin 32)
    (g : Fin 5) (u : Bool) :
    exec (.tbTsqPop (.hart n) c g 32 u) s = .next (s.answer (BitVec.ofNat 64
      (if u then (s.time.tsq.getD g {}).head / 2 ^ 32 else (s.time.tsq.getD g {}).head % 2 ^ 32))) := by
  show execTbTsqPop (.hart n) c g 32 u s = _
  simp [execTbTsqPop, hc, hh, isHart]

/-- A host core's read of the whole word takes the head off the active CTD's queue. -/
theorem exec_tbTsqPop_whole {s : State} {c : Fin 2} {g : Fin 5} {e : TsqEntry} {rest : List TsqEntry}
    (hc : s.ctdGate c = .none) (hh : s.holder = some c.val) (he : (s.time.tsq.getD g {}).entries = e :: rest) (n : Fin 32)
    (u : Bool) :
    exec (.tbTsqPop (.hart n) c g 64 u) s = .next (((s.answer (BitVec.ofNat 64 (s.time.tsq.getD g {}).head)).setTime
      fun t => { t with tsq := lmod t.tsq g fun q => { q with entries := rest, stamp := e.stamp } }).endRun g) := by
  have hlet : (!(isHart (.hart n) || isAnySp (.hart n)) || !(64 == 64 || 64 == 32)) = false := rfl
  show execTbTsqPop (.hart n) c g 64 u s = _
  simp only [execTbTsqPop, hc, hh, hlet, he, bne_self_eq_false, Bool.false_eq_true, if_false, Nat.reduceEqDiff]

/-- Settles O31: each command by its conditions, which the clause gives. -/
theorem ppsAndTimestamps : Obligations.PpsAndTimestamps := by
  unfold Obligations.PpsAndTimestamps
  refine ⟨?_, ?_, ?_, ?_, ?_, ?_, ?_, ?_, ?_, ?_, ?_⟩
  · intro s h hen hv hs
    refine (exec_ppsInEdge hen hs).trans (congrArg _ (State.measure_ppsInvalid ?_ _ _))
    exact hv
  · rintro s t a h hen hv hs rfl rfl
    exact exec_ppsInEdge hen hs
  · intro s h hen hl ht hs
    show execPpsInFault s = _
    simp [execPpsInFault, hen, hl, ht, hs]
  · rintro s h n hen hv hs rfl hb hf
    have hnew : (s.time.ppsOut && s.time.ppsSecond == s.time.pod / (1000000000 * nsUnit)) = false := by
      rcases hf with h | h <;> simp [h]
    show execPpsOutRise s = _
    simp [execPpsOutRise, hen, hv, hs, hb, hnew]
  · intro s h ho ht hs
    show execPpsOutFall s = _
    simp [execPpsOutFall, ho, ht, hs]
  · rintro s p h hsrc rfl hlt hup hs hseen ht
    show execTimestampRequestSend s = _
    simp [execTimestampRequestSend, hsrc, hlt, hup, hs, hseen, ht]
  · rintro s u p src rfl hup hseen
    show execTimestampRequestReceive p src s = _
    simp only [execTimestampRequestReceive, hup, hseen, Bool.not_true, Bool.or_self, Bool.false_eq_true, if_false]
    rfl
  · intro s u p x t1 sent hu hsrc hp hseen hreq hl h2 h3 ht1 ht4 hm
    refine ⟨_, rfl, ?_⟩
    have hq : u.tsQualifies p x t1 sent = true := by
      simp only [State.tsQualifies, hl, h2, h3, ht1, ht4, hm, beq_self_eq_true, Bool.not_false, decide_true, Bool.and_self]
    have h2' : 4 * (x.t2.toNat / 4) = x.t2.toNat := by omega
    have h3' : 4 * (x.t3.toNat / 4) = x.t3.toNat := by omega
    rw [exec_timestampResponseReceive hu hsrc hp hseen hreq, hq, h2', h3']
    rfl
  · intro s u p x t1 sent hu hsrc hp hseen hreq hbad
    have hq : u.tsQualifies p x t1 sent = false := by
      rcases hbad with h | h
      · simp only [State.tsQualifies, beq_false_of_ne h, Bool.false_and]
      · simp only [State.tsQualifies, Nat.not_le.mpr h, decide_false, Bool.and_false]
    rw [exec_timestampResponseReceive hu hsrc hp hseen hreq, hq]
    rfl
  · intro s n c g u e rest hc hh he
    rw [exec_tbTsqPop_whole hc hh he n u]
    simp only [Tsq.head, he]
  · intro s n c g u hc hh
    exact exec_tbTsqPop_half hc hh n g u

end Sys2Proof.Machine
end

