-- ==== Sys2Proof/Proofs/ScheduleAndTimeCommands.lean ====
section
/-! PROOFS. O28: the schedule commands 0x0401 to 0x0403 (R76, R77) and the time commands 0x0B01 to 0x0B06 (R47, R51, R69, R70).
First what each command's own part answers, then that it is heard. -/

namespace Sys2Proof.Machine

/-! ### The schedule -/

/-- ScheduleWrite of a valid entry to a free index that firmware does not keep for itself. -/
theorem dScheduleWrite_body {s : State} {a : List Nat} (h128 : 128 ≤ arg a 0) (h1024 : arg a 0 < 1024)
    (hok : s.schedOk ((a.drop 1).take 8) = true) (hfree : s.sched.lookup (arg a 0) = none) (w : Who) :
    dScheduleWrite.body s w a = { s := s.setSched (arg a 0) (schedOf ((a.drop 1).take 8)), words := [arg a 0] } := by
  have hany : (arg a 0 == 0xFFFFFFFF) = false := by simp; omega
  simp only [dScheduleWrite, hany, Nat.not_lt.mpr h128, hok, hfree, decide_false, Bool.not_false, Bool.not_true, Bool.and_false,
    Bool.false_eq_true, if_false, Option.isSome_none]

theorem dScheduleClear_body {s : State} {a : List Nat} {e : SchedEntry} (h128 : 128 ≤ arg a 0)
    (he : s.sched.lookup (arg a 0) = some e) (w : Who) :
    dScheduleClear.body s w a = { s := { s with sched := mdel s.sched (arg a 0) } } := by
  simp [dScheduleClear, Nat.not_lt.mpr h128, he]

theorem dScheduleRead_body {s : State} {a : List Nat} {e : SchedEntry} (he : s.sched.lookup (arg a 0) = some e) (w : Who) :
    dScheduleRead.body s w a = { s := s, words := schedWords e } := by
  simp [dScheduleRead, he]

/-- An entry is the sender's if it has the sender's context. -/
theorem ownEntry_of_lookup {s : State} {ch : Nat} {a : List Nat} {e : SchedEntry} (he : s.sched.lookup (arg a 0) = some e)
    (hc : e.ctx = ch) : ownEntry s ch a = true := by
  simp [ownEntry, he, hc]

/-! ### The time base -/

theorem dTimePhaseAdvance_body {s : State} (h : stepPhase s.time.step < 65535) (w : Who) (a : List Nat) :
    dTimePhaseAdvance.body s w a =
      { s := { s with time := { s.time with step := s.time.step + 1 } }, words := lohi (s.time.step + 1).toNat } :=
  if_neg (Nat.ne_of_lt h)

theorem dTimePhaseAdvance_body_saturated {s : State} (h : stepPhase s.time.step = 65535) (w : Who) (a : List Nat) :
    dTimePhaseAdvance.body s w a = { s := s, status := dSaturated, words := lohi s.time.step.toNat } := if_pos h

/-- TimeAcceptCorrection by slewing: POD stands, and the correction is what is left to slew (R69). -/
theorem dTimeAcceptCorrection_body_slew {s : State} {a : List Nat} (hc : s.time.corrPending = true) (ha : arg a 0 = 1) (w : Who) :
    dTimeAcceptCorrection.body s w a =
      { s := (s.setTime fun t =>
          { t with corrPending := false, gmPending := false, gmId := if t.gmPending then t.gmPendId else t.gmId
                   lock := .acquiring, lockCount := 0, episodeCount := 0
                   slew := t.pendingCorr.toInt * nsUnit }).logFw 0x0B02 3 (slohi s.time.pendingCorr.toInt ++ [1])
        words := slohi s.time.pendingCorr.toInt } := by
  simp only [dTimeAcceptCorrection, hc, ha, Bool.not_true, Nat.reduceBEq, Bool.false_eq_true, if_false]
  exact congrArg (fun u : State => ({ s := u.logFw 0x0B02 3 (slohi s.time.pendingCorr.toInt ++ [1])
                                      words := slohi s.time.pendingCorr.toInt } : DRes)) (State.setTime_congr rfl)

/-- TimeAcceptCorrection by a step: POD jumps, and the keys it passes are given up. -/
theorem dTimeAcceptCorrection_body_step {s t : State} {a : List Nat} (hc : s.time.corrPending = true) (ha : arg a 0 = 0)
    (ht : t = s.setTime fun t =>
      { t with corrPending := false, gmPending := false, gmId := if t.gmPending then t.gmPendId else t.gmId
               lock := .acquiring, lockCount := 0, episodeCount := 0, slew := 0
               pod := t.pod + t.pendingCorr.toInt * nsUnit, stepCtr := t.stepCtr + 1 }) (w : Who) :
    dTimeAcceptCorrection.body s w a =
      { s := (t.disarm false (s.time.pod / nsUnit).toNat t.podNs).logFw 0x0B02 3 (slohi s.time.pendingCorr.toInt ++ [0])
        words := slohi s.time.pendingCorr.toInt } := by
  subst ht
  simp only [dTimeAcceptCorrection, hc, ha, Bool.not_true, Nat.reduceBEq, Bool.false_eq_true, if_false, if_true]
  exact congrArg (fun u : State => ({ s := (u.disarm false (s.time.pod / nsUnit).toNat u.podNs).logFw 0x0B02 3
                                        (slohi s.time.pendingCorr.toInt ++ [0])
                                      words := slohi s.time.pendingCorr.toInt } : DRes)) (State.setTime_congr rfl)

theorem dTimeAcceptCorrection_body_nothing {s : State} (hc : s.time.corrPending = false) (w : Who) (a : List Nat) :
    dTimeAcceptCorrection.body s w a = { s := s, status := dNothing } := by
  simp [dTimeAcceptCorrection, hc, DRes.no]

/-- The words of TimeConfigure whose reserved bits are clear and whose port and domain exist. -/
theorem dTimeConfigure_bad {a : List Nat} (h0 : arg a 0 < 2 ^ 17) (hp : bitsOf (arg a 0) 5 2 < 13)
    (hd : bitsOf (arg a 0) 15 8 < 128) (h1 : arg a 1 < 2 ^ 20) (h2 : arg a 2 < 2 ^ 24) (h3 : arg a 3 < 32) (s : State) :
    dTimeConfigure.bad s a = none := by
  have hz : ∀ {x hi lo : Nat}, x < 2 ^ lo → bitsOf x hi lo = 0 := by
    intro x hi lo h
    simp [bitsOf, Nat.shiftRight_eq_div_pow, Nat.div_eq_of_lt h]
  exact badWord_none (by simp [hz h0, hz h1, hz h2, hz (lo := 5) h3, hp, hd])

/-! ### TB_CTRL (R60, R62) -/

/-- A write of TB_CTRL that leaves POD_SRC as it is. -/
theorem State.writeTbCtrl_sameSource {s : State} {v : Nat} (hv : bitsOf v 1 0 = s.time.podSrc.toNat) (h3 : s.time.podSrc ≠ 3) :
    s.writeTbCtrl v = s.setTime fun t =>
      { t with
        wgPort := BitVec.ofNat 4 (bitsOf v 5 2), ppsInEn := bitOf v 6, ppsOutEn := bitOf v 7
        domain := BitVec.ofNat 8 (bitsOf v 15 8), udp := bitOf v 16, ppsSeen := t.ppsSeen && bitOf v 6
        ppsLost := if bitOf v 6 then t.ppsLost && t.ppsInEn else true
        ppsLast := if bitOf v 6 && !t.ppsInEn then t.mono else t.ppsLast } := by
  have hne : s.time.podSrc.toNat ≠ 3 := fun h => h3 (BitVec.eq_of_toNat_eq h)
  have hsrc : BitVec.ofNat 2 (if bitsOf v 1 0 = 3 then 0 else bitsOf v 1 0) = s.time.podSrc := by
    rw [hv, if_neg hne, BitVec.ofNat_toNat, BitVec.setWidth_eq]
  simp only [State.writeTbCtrl, hsrc, if_true]
  rfl

/-- A write of TB_CTRL that takes the source away frees the servo and drops what was pending (R62). -/
theorem State.writeTbCtrl_noSource {s : State} {v : Nat} (h0 : s.time.podSrc ≠ 0) (hv : bitsOf v 1 0 = 0) :
    (s.writeTbCtrl v).time.lock = .free ∧ (s.writeTbCtrl v).time.corrPending = false ∧
      (s.writeTbCtrl v).time.slew = 0 ∧ (s.writeTbCtrl v).time.podSrc = 0 := by
  have hsrc : BitVec.ofNat 2 (if bitsOf v 1 0 = 3 then 0 else bitsOf v 1 0) = 0 := by rw [hv]; rfl
  simp only [State.writeTbCtrl, hsrc, h0.symm, if_true, if_false]
  exact ⟨rfl, rfl, rfl, rfl⟩

/-- Settles O28: each command is heard and has the effect of its own part. -/
theorem scheduleAndTimeCommands : Obligations.ScheduleAndTimeCommands := by
  unfold Obligations.ScheduleAndTimeCommands
  refine ⟨?_, ?_, ?_, ?_, ?_, ?_, ?_, ?_, ?_, ?_, ?_, ?_, ?_, ?_⟩
  · intro r s h ho hl h128 h1024 hok hfree
    exact congrArg _ ((runDarid_heard (d := dScheduleWrite) h (fun hc => by simp [dScheduleWrite, ho hc])
      (by simp [dScheduleWrite, hl]) (badWord_none (by simp [h1024])) rfl).trans
        (congrArg _ (dScheduleWrite_body h128 h1024 hok hfree _)))
  · intro r s e h ho hl h128 h1024 he
    exact congrArg _ ((runDarid_heard (d := dScheduleClear) h (fun hc => ownEntry_of_lookup he (ho hc))
      (by simp [dScheduleClear, hl]) (badWord_none (by simp [h1024])) rfl).trans (congrArg _ (dScheduleClear_body h128 he _)))
  · intro r s e h ho hl h1024 he
    exact congrArg _ ((runDarid_heard (d := dScheduleRead) h (fun hc => ownEntry_of_lookup he (ho hc))
      (by simp [dScheduleRead, hl]) (badWord_none (by simp [h1024])) rfl).trans (congrArg _ (dScheduleRead_body he _)))
  · intro r s h hl
    exact congrArg _ (runDarid_heard (d := dTimeStepAdvance) h (fun _ => rfl) (by simp [dTimeStepAdvance, hl]) rfl rfl)
  · intro r s h hl hp
    exact congrArg _ ((runDarid_heard (d := dTimePhaseAdvance) h (fun _ => rfl) (by simp [dTimePhaseAdvance, hl]) rfl rfl).trans
      (congrArg _ (dTimePhaseAdvance_body hp _ _)))
  · intro r s h hl hp
    exact congrArg _ ((runDarid_heard (d := dTimePhaseAdvance) h (fun _ => rfl) (by simp [dTimePhaseAdvance, hl]) rfl rfl).trans
      (congrArg _ (dTimePhaseAdvance_body_saturated hp _ _)))
  · intro r s h hl
    exact congrArg _ (runDarid_heard (d := dTimeStepSet) h (fun _ => rfl) (by simp [dTimeStepSet, hl]) rfl rfl)
  · intro r s h hl ha hc
    exact congrArg _ ((runDarid_unitArg (d := dTimeAcceptCorrection) (n := 2) h rfl rfl rfl hl (by simp [ha]) rfl).trans
      (congrArg _ (dTimeAcceptCorrection_body_slew hc ha _)))
  · intro r s t h hl ha hc ht
    exact congrArg _ ((runDarid_unitArg (d := dTimeAcceptCorrection) (n := 2) h rfl rfl rfl hl (by simp [ha]) rfl).trans
      (congrArg _ (dTimeAcceptCorrection_body_step hc ha ht _)))
  · intro r s h hl ha hc
    exact congrArg _ ((runDarid_unitArg (d := dTimeAcceptCorrection) (n := 2) h rfl rfl rfl hl ha rfl).trans
      (congrArg _ (dTimeAcceptCorrection_body_nothing hc _ _)))
  · rintro r s t u h hl h0 hp hd h1 h2 h3 rfl rfl
    exact congrArg _ (runDarid_heard (d := dTimeConfigure) h (fun _ => rfl) (by simp [dTimeConfigure, hl])
      (dTimeConfigure_bad h0 hp hd h1 h2 h3 s) rfl)
  · intro s v hv h3
    exact State.writeTbCtrl_sameSource hv h3
  · intro s v h0 hv
    exact State.writeTbCtrl_noSource h0 hv
  · intro r s h hl
    exact congrArg _ (runDarid_heard (d := dTimeQuery) h (fun _ => rfl) (by simp [dTimeQuery, hl]) rfl rfl)

end Sys2Proof.Machine
end

