-- ==== Sys2Proof/Proofs/DoorbellsAndSemaphores.lean ====
section
/-! PROOFS. O44: doorbells and RESUME (R97-R99), writes of DE_SEM (R121). First rules for a change of a queue and of a semaphore. -/

namespace Sys2Proof.Machine

/-! ### Changes of one queue -/

/-- A bound queue's change is an entry of the table. -/
theorem State.setQueue_of_some {s : State} {c q : Nat} {u : Queue} (h : s.queue? c q = some u) (f : Queue → Queue) :
    s.setQueue c q f = { s with eng := { s.eng with queues := mput s.eng.queues (64 * c + q) (f u) } } := by
  unfold State.setQueue
  rw [h]

/-- Two changes that agree on the queue as it stands give one state. -/
theorem State.setQueue_congr {s : State} {c q : Nat} {u : Queue} (h : s.queue? c q = some u) {f g : Queue → Queue}
    (hfg : f u = g u) : s.setQueue c q f = s.setQueue c q g := by
  rw [State.setQueue_of_some h, State.setQueue_of_some h, hfg]

/-! ### Doorbells (R98) -/

/-- A doorbell value is in range: not beyond the ring, not behind the head. -/
def Queue.takesTail (u : Queue) (v : BitVec 32) : Bool := (v - u.done).toNat ≤ 2 ^ u.s && (v - u.head).toNat < 2 ^ 31

theorem Queue.takesTail_iff (u : Queue) (v : BitVec 32) :
    u.takesTail v = true ↔ (v - u.done).toNat ≤ 2 ^ u.s ∧ (v - u.head).toNat < 2 ^ 31 := by
  simp only [Queue.takesTail, Bool.and_eq_true, decide_eq_true_eq]

/-- What a doorbell makes of its queue. -/
def Queue.doorbell (u : Queue) (v : BitVec 32) : Queue :=
  if u.st = .resetting || u.st = .unbound then { u with dbErr := true }
  else if u.takesTail v then
    if u.st = .idle then { u with tail := v, st := ({ u with tail := v } : Queue).rest } else { u with tail := v }
  else { u with dbErr := true }

theorem exec_qTailDoorbell (c : Fin 256) (q : Fin 64) (v : BitVec 32) (s : State) :
    exec (.qTailDoorbell c q v) s = .next (s.setQueue c q fun u => u.doorbell v) := rfl

/-- A value in range at a bound queue becomes the tail. -/
theorem Queue.doorbell_inRange {u : Queue} {v : BitVec 32} (hr : u.st ≠ .resetting) (hb : u.st ≠ .unbound)
    (hv : u.takesTail v = true) : u.doorbell v =
      if u.st = .idle then { u with tail := v, st := ({ u with tail := v } : Queue).rest } else { u with tail := v } := by
  simp only [Queue.doorbell, hr, hb, hv, decide_false, Bool.or_self, Bool.false_eq_true, if_false, if_true]

/-- A value out of range, or a queue that is unbound or being reset: DB_ERR alone. -/
theorem Queue.doorbell_dbErr {u : Queue} {v : BitVec 32} (h : u.st = .resetting ∨ u.st = .unbound ∨ u.takesTail v = false) :
    u.doorbell v = { u with dbErr := true } := by
  rcases h with hr | hb | hv
  · simp only [Queue.doorbell, hr, decide_true, Bool.true_or, if_true]
  · simp only [Queue.doorbell, hb, decide_true, Bool.or_true, if_true]
  · simp only [Queue.doorbell, hv, Bool.false_eq_true, if_false, ite_self]

/-! ### Semaphores (R119, R121) -/

theorem lookup_mdel (m : SMap α) (k j : Nat) : (mdel m k).lookup j = if j = k then none else m.lookup j := by
  induction m with
  | nil => exact (ite_self _).symm
  | cons e r ih =>
    obtain ⟨i, w⟩ := e
    simp only [mdel] at ih ⊢
    by_cases hi : i = k
    · subst hi
      simp only [List.filter_cons, bne_self_eq_false, Bool.false_eq_true, if_false, ih, lookup_pair]
      split <;> rfl
    · have hkeep : (i != k) = true := by simpa using hi
      simp only [List.filter_cons, hkeep, if_true, lookup_pair, ih]
      by_cases hj : j = i
      · simp only [hj, if_true, if_neg hi]
      · simp only [hj, if_false]

/-- A semaphore that is set has the value, 0 too, which the table does not list. -/
theorem State.sem_setSem (s : State) (k : Nat) (v : Word) (i : Nat) : (s.setSem k v).sem i = if i = k then v else s.sem i := by
  show mget 0 (if v = 0 then mdel s.eng.sems k else mput s.eng.sems k v) i = if i = k then v else mget 0 s.eng.sems i
  split
  · next hv =>
    simp only [mget, lookup_mdel, hv]
    split <;> rfl
  · exact mget_mput ..

theorem exec_deSemValueWrite_on {s : State} {k : Fin 16384} (h : (s.die (k.val / 4096)).inReset = false) (v : BitVec 32) :
    exec (.deSemValueWrite k v) s = .next (s.setSem k v) := by
  show execDeSemValueWrite k v s = _
  simp [execDeSemValueWrite, h]

theorem exec_deSemAddWrite_on {s : State} {k : Fin 16384} (h : (s.die (k.val / 4096)).inReset = false) (v : BitVec 32) :
    exec (.deSemAddWrite k v) s = .next (s.setSem k (s.sem k + v)) := by
  show execDeSemAddWrite k v s = _
  simp [execDeSemAddWrite, h]

/-- Settles O44: a doorbell by its range and the queue's state, a semaphore's write by its die. -/
theorem doorbellsAndSemaphores : Obligations.DoorbellsAndSemaphores := by
  unfold Obligations.DoorbellsAndSemaphores
  refine ⟨?_, ?_, ?_, ?_, ?_, ?_, ?_⟩
  · intro s c q v u h hr hb hi hring hhead
    refine congrArg _ (State.setQueue_congr h ?_)
    exact (Queue.doorbell_inRange hr hb ((u.takesTail_iff v).mpr ⟨hring, hhead⟩)).trans (if_neg hi)
  · intro s c q v u h hi hring hhead
    refine congrArg _ (State.setQueue_congr h ?_)
    exact (Queue.doorbell_inRange (by simp [hi]) (by simp [hi]) ((u.takesTail_iff v).mpr ⟨hring, hhead⟩)).trans (if_pos hi)
  · intro s c q v u h hbad
    refine congrArg _ (State.setQueue_congr h (Queue.doorbell_dbErr ?_))
    refine hbad.imp_right fun hbad => hbad.imp_right fun hout => ?_
    rw [← Bool.not_eq_true, u.takesTail_iff v]
    rintro ⟨hring, hhead⟩
    rcases hout with h | h
    · exact Nat.not_lt.mpr hring h
    · exact Nat.not_lt.mpr h hhead
  · intro s c q u h hst
    exact congrArg _ (State.setQueue_congr h (by simp [hst]))
  · intro s k v hd
    exact ⟨_, exec_deSemValueWrite_on hd v, rfl, State.sem_setSem s k v⟩
  · intro s k v hd
    exact ⟨_, exec_deSemAddWrite_on hd v, rfl, State.sem_setSem s k _⟩
  · intro s k v hd
    constructor
    · show execDeSemValueWrite k v s = _
      simp [execDeSemValueWrite, hd]
    · show execDeSemAddWrite k v s = _
      simp [execDeSemAddWrite, hd]

end Sys2Proof.Machine
end

