-- ==== Sys2Proof/Proofs/ContextAndQueueCommands.lean ====
section
/-! PROOFS. O8: contexts and their grants (R91, R92, R333) and their queues (R95, R97, R332). First what each command's own part
answers, then that it is heard. -/

namespace Sys2Proof.Machine

/-- On a channel that is heard a command is answered with what its own part answers. -/
theorem runDarid_body {d : DaridDef} {r : DReq} {s : State} {x : DRes} (h : s.heard d.op d.senders r = true)
    (hown : senderOf r.ch.val = some .c → d.own s r.ch.val (DReq.nums r) = true) (hlen : d.len r.args.length = true)
    (hbad : d.bad s (DReq.nums r) = none) (hpresent : d.present s (DReq.nums r) = true)
    (hbody : d.body s (whoOf d.op d.changes r d.mirrored) (DReq.nums r) = x) :
    runDarid d r s = answerDarid (whoOf d.op d.changes r d.mirrored) x :=
  (runDarid_heard h hown hlen hbad hpresent).trans (congrArg _ hbody)

/-! ### Contexts and grants -/

theorem badWord_ctxWord {a : List Nat} (h : arg a 0 < 256) : badWord [ctxWord a] = none :=
  badWord_none (by simp [ctxWord, h])

theorem dContextCreate_body {s : State} {a : List Nat} (h : (s.ctx (arg a 0)).st = .free) (w : Who) :
    dContextCreate.body s w a = { s := s.setCtx (arg a 0) fun _ => { st := .active } } := by
  simp [dContextCreate, h]

/-- A window that the context does not hold is stored. -/
theorem dContextGrant_body_window {s : State} {a : List Nat} (hk : bitsOf (arg a 0) 15 8 = 1)
    (hst : (s.ctx (arg a 0 % 256)).st ≠ .free) (hw : (s.ctx (arg a 0 % 256)).windows.lookup (arg a 1) = none) (w : Who) :
    dContextGrant.body s w a = { s := s.setCtx (arg a 0 % 256) fun x =>
      { x with windows := mput x.windows (arg a 1) (arg64 a 3, arg64 a 5) } } := by
  simp only [dContextGrant, hst, hk, hw, if_false]

/-- Semaphore groups that no other context holds: those nobody holds are taken. -/
theorem dContextGrant_body_sems {s : State} {a : List Nat} (hk : bitsOf (arg a 0) 15 8 = 4)
    (hst : (s.ctx (arg a 0 % 256)).st ≠ .free)
    (hfree : (grantUnits a).any (fun u => (s.eng.semOwner.lookup u).getD (arg a 0 % 256) != arg a 0 % 256) = false) (w : Who) :
    dContextGrant.body s w a =
      { s := s.allot (arg a 0 % 256) 4 ((grantUnits a).filter fun u => (s.eng.semOwner.lookup u).isNone) } := by
  simp only [dContextGrant, hst, hk, if_false, EngTables.holders, hfree, Nat.reduceEqDiff, decide_false, Bool.false_and,
    Bool.false_eq_true]

theorem dContextGrant_body_cap {s : State} {a : List Nat} (hk : bitsOf (arg a 0) 15 8 = 7)
    (hst : (s.ctx (arg a 0 % 256)).st ≠ .free) (w : Who) :
    dContextGrant.body s w a = { s := s.setCtx (arg a 0 % 256) fun x => { x with cap := arg a 2 } } := by
  simp only [dContextGrant, hst, hk, if_false]

/-- A window that the context holds and does not use is taken away. -/
theorem dContextRevoke_body_window {s : State} {a : List Nat} (hk : bitsOf (arg a 0) 15 8 = 1)
    (hst : (s.ctx (arg a 0 % 256)).st ≠ .free)
    (hw : (s.ctx (arg a 0 % 256)).windows.lookup (arg a 1) = some (arg64 a 3, arg64 a 5))
    (huse : s.windowInUse (arg a 0 % 256) (arg64 a 3) (arg64 a 5) = false) (w : Who) :
    dContextRevoke.body s w a =
      { s := s.setCtx (arg a 0 % 256) fun x => { x with windows := mdel x.windows (arg a 1) } } := by
  simp only [dContextRevoke, hst, hk, hw, huse, if_false, bne_self_eq_false, Bool.false_eq_true]

/-! ### Queues -/

theorem badWord_queueWord {a : List Nat} (h : arg a 0 < 2 ^ 14) : badWord [queueWord a] = none :=
  badWord_none (by simpa [queueWord] using h)

/-- The reserved bits of a QueueCreate are clear, its ring size is one of 6 to 16, and its engine exists. -/
theorem dQueueCreate_bad {a : List Nat} (hkind : bitsOf (arg a 0) 15 14 ≠ 3) (h6 : 6 ≤ bitsOf (arg a 0) 20 16)
    (h16 : bitsOf (arg a 0) 20 16 ≤ 16) (hres : arg a 0 < 2 ^ 23)
    (hunit : arg a 1 < [64, 16, 32].getD (bitsOf (arg a 0) 15 14) 0) (s : State) : dQueueCreate.bad s a = none :=
  badWord_none (by simpa [hkind, h6, h16] using ⟨hres, hunit⟩)

/-- A queue created in an ACTIVE context on an engine that is not being reset starts as it is. -/
theorem State.newQueue_active {s : State} {c : Nat} {q : Queue} (hc : (s.ctx c).st = .active)
    (he : (s.engine q.eng).st ≠ .resetting) : s.newQueue c q = q := by
  simp only [State.newQueue, hc, he, if_false]

/-- A free queue number with both rings in local windows of the context: a queue with empty rings. -/
theorem dQueueCreate_body {s : State} {a : List Nat} {ring comp : Nat} (hst : (s.ctx (arg a 0 % 256)).st = .active)
    (htwin : s.twinned (queueEng a) = false) (heng : (s.engine (queueEng a)).st ≠ .resetting)
    (hring : s.localRange (arg a 0 % 256) (arg64 a 2) (128 * 2 ^ bitsOf (arg a 0) 20 16) = some ring) (hr : ring % 4096 = 0)
    (hcomp : s.localRange (arg a 0 % 256) (arg64 a 4) (64 * 2 ^ bitsOf (arg a 0) 20 16) = some comp) (hc : comp % 4096 = 0)
    (hq : s.queue? (arg a 0 % 256) (bitsOf (arg a 0) 13 8) = none)
    (hmax : (s.eng.queues.filter fun e => e.1 / 64 == arg a 0 % 256).length < (s.ctx (arg a 0 % 256)).queueMax) (w : Who) :
    dQueueCreate.body s w a = { s := { s with eng := { s.eng with queues := (mput s.eng.queues
      (64 * (arg a 0 % 256) + bitsOf (arg a 0) 13 8)
      { eng := queueEng a, s := bitsOf (arg a 0) 20 16, prio := bitsOf (arg a 0) 22 21, ring := arg64 a 2, comp := comp
        beatAt := s.time.mono }) } } } := by
  have hfree : (s.ctx (arg a 0 % 256)).st ≠ .free := by simp [hst]
  simp only [dQueueCreate, hfree, htwin, hring, hcomp, hr, hc, hq, Nat.not_le.mpr hmax, if_false, Bool.and_false, Bool.false_and,
    Bool.false_eq_true, bne_self_eq_false, Option.isSome_none]
  rw [State.newQueue_active hst heng]

theorem dQueueSetIrq_body {s : State} {a : List Nat} {q : Queue} (hq : s.queue? (arg a 0 % 256) (arg a 0 / 256) = some q)
    (w : Who) :
    dQueueSetIrq.body s w a = { s := s.setQueue (arg a 0 % 256) (arg a 0 / 256) fun u =>
      { u with irqAddr := arg64 a 1, irqData := BitVec.ofNat 32 (arg a 3) } } := by
  simp only [dQueueSetIrq, hq, Option.isNone_some, Bool.false_eq_true, if_false]

/-- A queue of which nothing is started goes. -/
theorem dQueueDelete_body_idle {s : State} {a : List Nat} {q : Queue}
    (hq : s.queue? (arg a 0 % 256) (arg a 0 / 256) = some q) (hs : q.started = []) (w : Who) :
    dQueueDelete.body s w a =
      { s := { s with eng := { s.eng with queues := mdel s.eng.queues (64 * (arg a 0 % 256) + arg a 0 / 256) } } } := by
  simp only [dQueueDelete, hq, hs, List.isEmpty_nil, if_true]

/-- Otherwise it starts nothing more, and the command waits. -/
theorem dQueueDelete_body_waits {s : State} {a : List Nat} {q : Queue}
    (hq : s.queue? (arg a 0 % 256) (arg a 0 / 256) = some q) (hs : q.started ≠ []) (w : Who) :
    dQueueDelete.body s w a =
      { s := s.setQueue (arg a 0 % 256) (arg a 0 / 256) fun u => { u with st := .unbound, deleting := u.deleting ++ [w] }
        status := dPending } := by
  have hbusy : q.started.isEmpty = false := by simp [hs]
  simp only [dQueueDelete, hq, hbusy, Bool.false_eq_true, if_false]

/-- Settles O8: each command is heard and has the effect of its own part. -/
theorem contextAndQueueCommands : Obligations.ContextAndQueueCommands := by
  unfold Obligations.ContextAndQueueCommands
  refine ⟨?_, ?_, ?_, ?_, ?_, ?_, ?_, ?_, ?_, ?_⟩
  · intro r s h hl ha hst
    exact congrArg _ (runDarid_body (d := dContextCreate) h (fun _ => rfl) (by simp [dContextCreate, hl])
      (badWord_ctxWord ha) rfl (dContextCreate_body hst _))
  · intro r s h hl hb hk hst hw
    exact congrArg _ (runDarid_body (d := dContextGrant) h (fun _ => rfl) (by simp [dContextGrant, hl]) hb rfl
      (dContextGrant_body_window hk hst hw _))
  · intro r s h hl hb hk hst hfree
    exact congrArg _ (runDarid_body (d := dContextGrant) h (fun _ => rfl) (by simp [dContextGrant, hl]) hb rfl
      (dContextGrant_body_sems hk hst hfree _))
  · intro r s h hl hb hk hst
    exact congrArg _ (runDarid_body (d := dContextGrant) h (fun _ => rfl) (by simp [dContextGrant, hl]) hb rfl
      (dContextGrant_body_cap hk hst _))
  · intro r s h hl hb hk hst hw huse
    exact congrArg _ (runDarid_body (d := dContextRevoke) h (fun _ => rfl) (by simp [dContextRevoke, hl]) hb rfl
      (dContextRevoke_body_window hk hst hw huse _))
  · intro r s h hl ha hown
    exact congrArg _ (runDarid_body (d := dContextQuery) h hown (by simp [dContextQuery, hl])
      (badWord_ctxWord ha) rfl rfl)
  · intro r s ring comp h hown hl hkind h6 h16 hres hunit hst htwin heng hring hr hcomp hc hq hmax
    exact congrArg _ (runDarid_body (d := dQueueCreate) h hown (by simp [dQueueCreate, hl])
      (dQueueCreate_bad hkind h6 h16 hres hunit s) rfl
      (dQueueCreate_body hst htwin heng hring hr hcomp hc hq hmax _))
  · intro r s q h hown hl ha hq
    exact congrArg _ (runDarid_body (d := dQueueSetIrq) h hown (by simp [dQueueSetIrq, hl])
      (badWord_queueWord ha) rfl (dQueueSetIrq_body hq _))
  · intro r s q h hown hl ha hq hs
    exact congrArg _ (runDarid_body (d := dQueueDelete) h hown (by simp [dQueueDelete, hl])
      (badWord_queueWord ha) rfl (dQueueDelete_body_idle hq hs _))
  · intro r s q h hown hl ha hq hs
    exact congrArg _ (runDarid_body (d := dQueueDelete) h hown (by simp [dQueueDelete, hl])
      (badWord_queueWord ha) rfl (dQueueDelete_body_waits hq hs _))

end Sys2Proof.Machine
end

