-- ==== Sys2Proof/Proofs/ContextUnitCommands.lean ====
section
/-! PROOFS. O9: harts and twin pairs (R90, R117, R149), the debug flag (R155) and the stash reservation (R164). First what each
command's own part answers, then that it is heard. -/

namespace Sys2Proof.Machine

/-! ### Harts and twin pairs -/

/-- A hart that no other context holds is bound or freed. -/
theorem dContextBindHart_body {s : State} {a : List Nat} (hst : (s.ctx (arg a 0)).st ≠ .free)
    (hheld : (s.eng.hartCtx.lookup (arg a 1)).getD (arg a 0) = arg a 0) (w : Who) :
    dContextBindHart.body s w a = { s := { s with eng := { s.eng with hartCtx :=
      (if arg a 2 = 1 then mput s.eng.hartCtx (arg a 1) (arg a 0) else mdel s.eng.hartCtx (arg a 1)) } } } := by
  simp only [dContextBindHart, hst, hheld, if_false, bne_self_eq_false, Bool.false_eq_true]

/-- A command about a pair names a context and an even engine. -/
theorem badWord_pair {a : List Nat} (hc : arg a 0 < 256) (hlt : arg a 1 < 64) (heven : arg a 1 % 2 = 0) :
    badWord [ctxWord a, (1, arg a 1 < 64 && arg a 1 % 2 == 0)] = none :=
  badWord_none (by simp [ctxWord, hc, hlt, heven])

/-- Two engines without queue or tile group are joined. -/
theorem dTwinJoin_body {s : State} {a : List Nat} (hst : (s.ctx (arg a 0)).st ≠ .free) (htwin : s.twinned (arg a 1) = false)
    (hq : s.eng.queues.any (fun e => e.2.eng == arg a 1 || e.2.eng == arg a 1 + 1) = false)
    (hg : (pairGroups (arg a 1)).any (fun g => (s.eng.tileOwner.lookup g).isSome) = false) (w : Who) :
    dTwinJoin.body s w a = { s := (s.setTwin (arg a 1) true).allot (arg a 0) 3 (pairGroups (arg a 1)) } := by
  simp only [dTwinJoin, hst, htwin, hq, hg, if_false, Bool.or_self, Bool.false_eq_true]

/-- A pair of the context without queue is parted. -/
theorem dTwinSplit_body {s : State} {a : List Nat} (htwin : s.twinned (arg a 1) = true)
    (hown : s.eng.tileOwner.lookup (4 * arg a 1) = some (arg a 0))
    (hq : s.eng.queues.any (fun e => e.2.eng == arg a 1 || e.2.eng == arg a 1 + 1) = false) (w : Who) :
    dTwinSplit.body s w a = { s := (s.setTwin (arg a 1) false).allot (arg a 0) 3 (pairGroups (arg a 1)) } := by
  simp only [dTwinSplit, htwin, hown, hq, bne_self_eq_false, Bool.not_true, Bool.or_self, Bool.false_eq_true, if_false]

/-! ### The debug flag -/

/-- Two changes of a context that agree on it give one state. -/
theorem State.setCtx_congr {s : State} {c : Nat} {f g : Ctx → Ctx} (h : f (s.ctx c) = g (s.ctx c)) : s.setCtx c f = s.setCtx c g :=
  congrArg (fun x => { s with eng := { s.eng with ctxs := mput s.eng.ctxs c x } }) h

/-- Setting a flag that is clear stores the ring, begins its count of dumps and is logged. -/
theorem dContextSetDebug_body_set {s : State} {a : List Nat} (hflag : bitOf (arg a 0) 8 = true)
    (hst : (s.ctx (arg a 0 % 256)).st ≠ .free) (hoff : (s.ctx (arg a 0 % 256)).debug = false) (hal : arg64 a 1 % 16384 = 0)
    (hlt : arg64 a 1 < 2 ^ 52)
    (hwin : (s.ctx (arg a 0 % 256)).inWindows (arg64 a 1) (16384 * 2 ^ bitsOf (arg a 0) 13 9) = true) (w : Who) :
    dContextSetDebug.body s w a =
      { s := (s.setCtx (arg a 0 % 256) fun x =>
            { x with debug := true, dumpRing := arg64 a 1, dumpExp := bitsOf (arg a 0) 13 9
                     dumpSeq := if x.debug then x.dumpSeq else 0 }).logFw 0x0241 3
          ([arg a 0 % 256, 1] ++ lohi (arg64 a 1) ++ [bitsOf (arg a 0) 13 9]) } := by
  have hring : (arg64 a 1 % 16384 == 0 && decide (arg64 a 1 < 2 ^ 52) &&
      (s.ctx (arg a 0 % 256)).inWindows (arg64 a 1) (16384 * 2 ^ bitsOf (arg a 0) 13 9)) = true := by
    rw [hwin, hal, decide_eq_true hlt]
    rfl
  have hchange : ((s.ctx (arg a 0 % 256)).debug == true) = false := by rw [hoff]; rfl
  simp only [dContextSetDebug, hst, hring, hflag, hchange, Bool.not_true, Bool.and_false, Bool.false_eq_true, if_false, if_true]
  refine congrArg (fun t : State => ({ s := (t.logFw 0x0241 3
    ([arg a 0 % 256, 1] ++ lohi (arg64 a 1) ++ [bitsOf (arg a 0) 13 9])) } : DRes)) (State.setCtx_congr ?_)
  simp only [hoff, Bool.not_false, Bool.and_self, Bool.false_eq_true, if_true, if_false]

/-! ### The stash reservation -/

/-- Region and table of a reservation: aligned, apart, both in windows of the context and in usable memory of this module, and the
semaphore is the context's. -/
structure State.StashFits (s : State) (c base size table n sem : Nat) : Prop where
  baseAligned : base % 2 ^ 21 = 0
  sizePos : size ≠ 0
  baseLocal : ∃ off, base < 2 ^ 52 ∧ (s.ctx c).inWindow base size = true ∧ s.place base = .loc off ∧ off + size ≤ usableTop
  tableAligned : table % 64 = 0
  tableLocal : ∃ off, table < 2 ^ 52 ∧ (s.ctx c).inWindow table (64 * n) = true ∧ s.place table = .loc off ∧
    off + 64 * n ≤ usableTop
  apart : meets base size table (64 * n) = false
  holds : s.holdsSem c sem = true

/-- A reservation that fits, with no pass open, is stored with its pass IDLE. -/
theorem dContextStashReserve_body {s : State} {a : List Nat} (hst : (s.ctx (arg a 0)).st ≠ .free)
    (hfit : s.StashFits (arg a 0) (arg64 a 1) (arg a 3 * 2 ^ 21) (arg64 a 4) (bitsOf (arg a 6) 12 0) (bitsOf (arg a 6) 29 16))
    (hopen : (s.stash (arg a 0)).open? = false) (w : Who) :
    dContextStashReserve.body s w a = { s := s.setStash (arg a 0) fun t =>
      { t.clear with
        st := .idle, armErr := false, pending := false, base := arg64 a 1, size := arg a 3 * 2 ^ 21
        table := arg64 a 4, tableLen := bitsOf (arg a 6) 12 0, armSem := bitsOf (arg a 6) 29 16 } } := by
  obtain ⟨hal, hsz, ⟨b, hlt, hwin, hpl, htop⟩, htal, ⟨tb, htlt, htwin, htpl, httop⟩, hapart, hsem⟩ := hfit
  simp only [dContextStashReserve, hst, hal, hsz, hlt, hwin, hpl, htop, htal, htlt, htwin, htpl, httop, hapart, hsem, hopen,
    bne_self_eq_false, decide_true, Bool.and_self, Bool.not_true, Bool.or_self, Bool.false_eq_true, if_false]

theorem dContextStashRelease_body {s : State} {a : List Nat} (hst : (s.ctx (arg a 0)).st ≠ .free)
    (hopen : (s.stash (arg a 0)).open? = false) (w : Who) :
    dContextStashRelease.body s w a = { s := s.setStash (arg a 0) fun t =>
      { t.clear with
        st := .none, armErr := false, pending := false, base := 0, size := 0, table := 0, tableLen := 0, armSem := 0 } } := by
  simp only [dContextStashRelease, hst, hopen, Bool.false_eq_true, if_false]

/-- Settles O9: each command is heard and has the effect of its own part. -/
theorem contextUnitCommands : Obligations.ContextUnitCommands := by
  unfold Obligations.ContextUnitCommands
  refine ⟨?_, ?_, ?_, ?_, ?_, ?_⟩
  · intro r s h hl hc hn h2 hst hheld
    exact congrArg _ (runDarid_body (d := dContextBindHart) h (fun _ => rfl) (by simp [dContextBindHart, hl])
      (badWord_none (by simp [ctxWord, hc, hn, h2])) rfl (dContextBindHart_body hst hheld _))
  · intro r s h hl hc hlt heven hst htwin hq hg
    exact congrArg _ (runDarid_body (d := dTwinJoin) h (fun _ => rfl) (by simp [dTwinJoin, hl]) (badWord_pair hc hlt heven) rfl
      (dTwinJoin_body hst htwin hq hg _))
  · intro r s h hl hc hlt heven _ htwin hown hq
    exact congrArg _ (runDarid_body (d := dTwinSplit) h (fun _ => rfl) (by simp [dTwinSplit, hl]) (badWord_pair hc hlt heven) rfl
      (dTwinSplit_body htwin hown hq _))
  · intro r s h hown hl ha hflag h4 h16 hst hoff hal hlt hwin
    exact congrArg _ (runDarid_body (d := dContextSetDebug) h hown (by simp [dContextSetDebug, hl])
      (badWord_none (by simpa [hflag, h4, h16] using ha)) rfl (dContextSetDebug_body_set hflag hst hoff hal hlt hwin _))
  · intro r s b tb h hown hl hc h1 h4096 hres hres' hst hal hsz hlt hwin hpl htop htal htlt htwin htpl httop hapart hsem hopen
    have hmine : senderOf r.ch.val = some .c → dContextStashReserve.own s r.ch.val (DReq.nums r) = true := fun hs => by
      obtain ⟨hctx, hsems⟩ := hown hs
      simp only [dContextStashReserve, hctx, hsems, Bool.and_self]
    exact congrArg _ (runDarid_body (d := dContextStashReserve) h hmine (by simp [dContextStashReserve, hl])
      (badWord_none (by simp [ctxWord, hc, h1, h4096, hres, hres'])) rfl
      (dContextStashReserve_body hst ⟨hal, Nat.mul_ne_zero hsz (by decide), ⟨b, hlt, hwin, hpl, htop⟩, htal,
        ⟨tb, htlt, htwin, htpl, httop⟩, hapart, hsem⟩ hopen _))
  · intro r s h hown hl hc hst hopen
    exact congrArg _ (runDarid_body (d := dContextStashRelease) h hown (by simp [dContextStashRelease, hl])
      (badWord_ctxWord hc) rfl (dContextStashRelease_body hst hopen _))

end Sys2Proof.Machine
end

