-- ==== Sys2Proof/Proofs/Descriptors.lean ====
section
/-! PROOFS. O45: choosing, fetching and completing descriptors (R93, R96, R99, R100, R102, R110). First the choice of a queue and the
way to a commit, then what a commit leaves of its queue. -/

namespace Sys2Proof.Machine

/-! ### The choice of a queue (R96) -/

/-- A queue whose next descriptor is ready notes nothing. -/
theorem State.notePeek_ready {s : State} {e : Nat × Queue} (h : (s.peek (e.1 / 64) (e.1 % 64) e.2).ready = true) (j : Nat) :
    s.notePeek j e = s := by
  unfold State.notePeek
  dsimp only
  split
  · next hp => rw [hp] at h; cases h
  · next hp => rw [hp] at h; cases h
  · rfl

/-- With one queue bound the round begins and ends with it. -/
theorem State.roundFrom_single {s : State} {j : Nat} {e : Nat × Queue} (h : (s.eng.queues.filter fun e => e.2.eng == j) = [e])
    (n : Nat) : s.roundFrom j n = [e] := by
  unfold State.roundFrom
  rw [h]
  by_cases hn : n < e.1
  · simp [hn, Nat.not_le.mpr hn]
  · simp [hn, Nat.not_lt.mp hn]

/-- What a queue that has been chosen does with its next descriptor. -/
def State.fetchNext (s : State) (c q j : Nat) (u : Queue) : State :=
  match s.peek c q u with
  | .fail d f t => s.endUnstarted c q j u.head d f t
  | .start d => s.startDesc c q j u.head d
  | _ => s

/-- On a free engine with one queue bound, a ready descriptor begins the queue's run of turns. -/
theorem exec_descriptorFetch_ready {s v t : State} {j : Fin 112} {k : Nat} {u : Queue} (hfree : s.engFree j = true)
    (hv : v = s.engTouch j) (hq : s.eng.queues.filter (fun e => e.2.eng == j.val) = [(k, u)]) (hrr : (s.engine j).rr = none)
    (ht : t = v.setEng j fun x => { x with rr := some (k, 2 ^ u.prio - 1) })
    (hready : (v.peek (k / 64) (k % 64) u).ready = true) :
    exec (.descriptorFetch j []) s = .next (s.unlessWaits (t.fetchNext (k / 64) (k % 64) j u)) := by
  have hvq : v.eng.queues.filter (fun e => e.2.eng == j.val) = [(k, u)] := by rw [hv]; exact hq
  have hvrr : (v.engine j).rr = none := by rw [hv]; exact hrr
  have hnote : v.notePeek j (k, u) = v := State.notePeek_ready (e := (k, u)) hready j
  have hpick : (v.roundFrom j 0).find? (fun e => (v.peek (e.1 / 64) (e.1 % 64) e.2).ready) = some (k, u) := by
    rw [State.roundFrom_single hvq, List.find?_cons_of_pos (a := (k, u)) hready]
  refine congrArg (fun t : State => Host.Outcome.next (s.unlessWaits t)) ?_
  have hdamage : (s.damages 0 []).engTouch j = v := hv.symm
  simp only [hfree, hdamage, hvq, List.foldl_cons, List.foldl_nil, hnote, hvrr, Option.map_none, Option.getD_none, hpick,
    Option.map_some, Bool.not_true, Bool.false_eq_true, if_false, ← ht]
  rfl

/-- An engine that is not free fetches nothing. -/
theorem exec_descriptorFetch_busy {s : State} {j : Fin 112} (h : s.engFree j = false) (l : List LineFlip) :
    exec (.descriptorFetch j l) s = .next s := by
  show execDescriptorFetch j l s = _
  simp [execDescriptorFetch, State.orWait, h]

/-! ### The way to a commit (R100) -/

/-- A failed descriptor whose requests are answered has nothing left to do. -/
theorem State.settledDesc_failed {s : State} {x : Started} {f : Fail} (hr : x.reqs = 0) (hf : x.fail = some f) :
    s.settledDesc x = true := by
  simp [State.settledDesc, hr, hf]

/-- Nor has one that awaits no mask, tile, check or convoy. -/
theorem State.settledDesc_quiet {s : State} {x : Started} (hr : x.reqs = 0) (hm : x.maskDue = false) (ht : x.tiles = [])
    (hc : x.checks = []) (hv : x.convoy = none) : s.settledDesc x = true := by
  simp [State.settledDesc, State.cvReady, hr, hm, ht, hc, hv]

/-- The state in which the reads and writes of a settled descriptor are done. -/
def State.worked (s : State) (c q j : Nat) (x : Started) : State :=
  if x.work || x.fail.isSome then (s.engTouch j).initFlags j x else ((s.engTouch j).initFlags j x).doWork c q j x

/-- ACC_INIT of a descriptor that is done or has failed clears no flag any more. -/
theorem State.initFlags_over {s : State} {x : Started} (h : (x.work || x.fail.isSome) = true) (j : Nat) : s.initFlags j x = s := by
  unfold State.initFlags
  refine if_neg ?_
  cases hw : x.work with
  | true => simp
  | false =>
    have hf : x.fail.isNone = false := by simpa [hw] using h
    simp [hf]

/-- Done or failed, a descriptor does nothing more. -/
theorem State.worked_over {s : State} {x : Started} (h : (x.work || x.fail.isSome) = true) (c q j : Nat) :
    s.worked c q j x = s.engTouch j := by
  unfold State.worked
  rw [if_pos h, State.initFlags_over h]

theorem State.veCopies_failed {s : State} {x : Started} {f : Fail} (h : x.fail = some f) (c q j : Nat) :
    s.veCopies c q j x = s := by
  simp [State.veCopies, h]

/-- The oldest started descriptor of a queue, settled, with room for its record and its accesses, on an idle engine: its work is
made, then its stash copies, and if no request of it is left it commits. -/
theorem exec_descriptorComplete_commits {s t : State} {c : Fin 256} {q : Fin 64} {u : Queue} {x y z : Started}
    {rest : List Started} (hq : s.queue? c q = some u) (hx : u.started = x :: rest) (hset : s.settledDesc x = true)
    (hrec : s.recordReady u x = true) (hroom : s.roomFor c q x.index = true) (hidle : (s.engine u.eng).st = .idle)
    (hon : (s.die (engDie u.eng)).inReset = false)
    (hy : (s.worked c q u.eng x).started? c q x.index = some y) (hyr : y.reqs = 0)
    (ht : t = (s.worked c q u.eng x).veCopies c q u.eng y) (hz : t.started? c q x.index = some z) (hzr : z.reqs = 0) :
    exec (.descriptorComplete c q []) s = .next (s.unlessWaits (((t.unordDone c q u.eng z).commit c q).cvCommit z)) := by
  refine congrArg (fun t : State => Host.Outcome.next (s.unlessWaits t)) ?_
  have hw : (if x.work || x.fail.isSome then ((s.damages 0 []).engTouch u.eng).initFlags u.eng x
      else (((s.damages 0 []).engTouch u.eng).initFlags u.eng x).doWork c q u.eng x) = s.worked c q u.eng x := rfl
  simp only [hq, hx, hset, hrec, hroom, hidle, hon, hw, hy, hyr, ← ht, hz, hzr, bne_self_eq_false, Bool.not_true, Bool.or_self,
    Bool.false_eq_true, if_false]

/-! ### What a commit leaves of its queue (R93, R99, R110) -/

/-- The queue after the commit of its oldest started descriptor. -/
def Queue.committed (u : Queue) (x : Started) (rest : List Started) (now : Nat) : Queue :=
  let st := (x.fail.getD (0, 0, 0)).1
  let y := { u with
    started := rest, done := x.index + 1, beats := u.beats + 1, beatAt := now, stalled := false
    lastErr := if st == 0 then u.lastErr else BitVec.ofNat 16 st }
  match y.st with
  | .idle | .active | .waitSem =>
    if !(st == 0) && !isFaultStatus st then { y with st := .stopped } else if y.st = .waitSem then y else { y with st := y.rest }
  | _ => y

/-- Whatever becomes of its state, the queue is without the descriptor and notes a failing status. -/
theorem Queue.committed_fields (u : Queue) (x : Started) (rest : List Started) (now : Nat) :
    (u.committed x rest now).started = rest ∧ (u.committed x rest now).done = x.index + 1 ∧
      (u.committed x rest now).deleting = u.deleting ∧
      (u.committed x rest now).lastErr =
        if (x.fail.getD (0, 0, 0)).1 == 0 then u.lastErr else BitVec.ofNat 16 (x.fail.getD (0, 0, 0)).1 := by
  unfold Queue.committed
  cases u.st
  case idle | active | waitSem =>
    dsimp only
    split
    · exact ⟨rfl, rfl, rfl, rfl⟩
    · split <;> exact ⟨rfl, rfl, rfl, rfl⟩
  all_goals exact ⟨rfl, rfl, rfl, rfl⟩

/-- An ACTIVE queue stops on a status that is no context fault. -/
theorem Queue.committed_stops {u : Queue} {x : Started} (hst : u.st = .active) (h0 : (x.fail.getD (0, 0, 0)).1 ≠ 0)
    (hf : isFaultStatus (x.fail.getD (0, 0, 0)).1 = false) (rest : List Started) (now : Nat) :
    (u.committed x rest now).st = .stopped := by
  have hbad : (!((x.fail.getD (0, 0, 0)).1 == 0) && !isFaultStatus (x.fail.getD (0, 0, 0)).1) = true := by simp [h0, hf]
  unfold Queue.committed
  simp only [hst, hbad, if_true]

theorem State.queue?_of_queues {s t : State} (h : t.eng.queues = s.eng.queues) (c q : Nat) : t.queue? c q = s.queue? c q :=
  congrArg (List.lookup (64 * c + q)) h

theorem State.queues_ite {s t : State} {p : Prop} {_ : Decidable p} (h : t.eng.queues = s.eng.queues) :
    (if p then t else s).eng.queues = s.eng.queues := by
  split
  · exact h
  · rfl

theorem State.noteWrite_queues (s : State) (j c a n : Nat) : (s.noteWrite j c a n).eng.queues = s.eng.queues := by
  unfold State.noteWrite
  dsimp only
  split
  · rfl
  · split <;> split <;> rfl

theorem State.setMemDie_queues (s : State) (d : Nat) (f : MemDie → MemDie) : (s.setMemDie d f).eng.queues = s.eng.queues := rfl

theorem State.tagDone_queues (s : State) (t d : Nat) (ok close : Bool) :
    (s.tagDone t d ok close).eng.queues = s.eng.queues := rfl

theorem State.semAdd_queues (s : State) (k : Nat) (v : Word) : (s.semAdd k v).eng.queues = s.eng.queues := by
  unfold State.semAdd
  split <;> rfl

theorem State.disarm_eng (s : State) (steps : Bool) (old new : Nat) : (s.disarm steps old new).eng = s.eng := rfl

theorem State.stepAdvance_eng (s : State) : s.stepAdvance.eng = s.eng := State.disarm_eng ..

theorem State.stepFrom_queues (s : State) (d : Nat) : (s.stepFrom d).eng.queues = s.eng.queues := by
  unfold State.stepFrom
  split
  · rw [State.withLog_eng]
  · split
    · rw [State.setDt_eng]
    · rw [State.stepAdvance_eng]

theorem State.irqWrite_queues (s : State) (a : Nat) (d : Word) : (s.irqWrite a d).eng.queues = s.eng.queues := by
  unfold State.irqWrite
  dsimp only
  split
  · split
    · split <;> rfl
    · split
      · split <;> rfl
      · rfl
  · rfl

/-- A completion record is written, lost, or owed by its queue. -/
theorem State.putRecord_queue {s : State} {c q : Nat} {u : Queue} (h : s.queue? c q = some u) (j slot : Nat) (b : List Byte) :
    ∃ owed, (s.putRecord c q j slot b).queue? c q = some { u with owedRecs := owed } := by
  unfold State.putRecord
  dsimp only
  split
  · exact ⟨u.owedRecs, h⟩
  · split
    · exact ⟨u.owedRecs, (State.queue?_of_queues (State.noteWrite_queues (s.setMem fun m => m.writeClear slot b) ..) c q).trans h⟩
    · exact ⟨_, by rw [State.queue_setQueue_self, h]; rfl⟩

/-- A queue that no QueueDelete waits for stays. -/
theorem State.reapQueue_kept {s : State} {c q : Nat} {u : Queue} (h : s.queue? c q = some u) (hd : u.deleting = []) :
    s.reapQueue c q = s := by
  simp [State.reapQueue, h, hd]

/-- What follows the change of the queue in a commit: the counter, a context fault, the signal, STEP_ADV, the interrupt, the tag. -/
def State.committing (s : State) (c q : Nat) (u : Queue) (x : Started) : State :=
  let die := engDie u.eng
  let st := (x.fail.getD (0, 0, 0)).1
  let s := s.countEv die (if u.eng < 64 then 0x014 else 0x032) (if u.eng < 64 then u.eng % 16 else (u.eng - 80) % 8) (some c)
    (if 64 ≤ u.eng && u.eng < 80 then 0 else 1)
  let s := if st = 0x30 then s.setMemDie die fun m => { m with consumed := satAdd 0xFFFFFFFF m.consumed 1 } else s
  let s := if isFaultStatus st then
      s.contextFault c { kind := 1, status := st, queue := q, engine := u.eng, index := x.index
                         detail := (x.fail.getD (0, 0, 0)).2.1, addr := (x.fail.getD (0, 0, 0)).2.2, d := x.d }
    else s
  let s := if st == 0 && x.flag 57 then s.semAdd (bitsOf (x.dw 1) 45 32) (BitVec.ofNat 32 (bitsOf (x.dw 2) 63 32)) else s
  let s := if st == 0 && x.flag 54 then s.stepFrom die else s
  let s := if x.flag 53 then s.irqWrite u.irqAddr u.irqData else s
  if x.tagged then s.tagDone x.tag die (st == 0) (x.flag 55) else s

/-- A commit in its four parts: the record, the queue, what follows, and the end of a queue that is being deleted. -/
theorem State.commit_eq {s t : State} {c q : Nat} {u : Queue} {x : Started} {rest : List Started} (hq : s.queue? c q = some u)
    (hx : u.started = x :: rest)
    (ht : t = s.putRecord c q u.eng (u.comp + 64 * (x.index.toNat % 2 ^ u.s)) (s.recBytes c q x (engDie u.eng))) :
    s.commit c q = ((t.setQueue c q fun y => y.committed x rest t.time.mono).committing c q u x).reapQueue c q := by
  subst ht
  unfold State.commit
  rw [hq]
  simp only [hx]
  rfl

/-- Without a context fault nothing that follows touches a queue. -/
theorem State.committing_queues {x : Started} (h : isFaultStatus (x.fail.getD (0, 0, 0)).1 = false) (s : State) (c q : Nat)
    (u : Queue) : (s.committing c q u x).eng.queues = s.eng.queues := by
  unfold State.committing
  simp only [h, Bool.false_eq_true, if_false]
  refine (State.queues_ite (State.tagDone_queues ..)).trans ?_
  refine (State.queues_ite (State.irqWrite_queues ..)).trans ?_
  refine (State.queues_ite (State.stepFrom_queues ..)).trans ?_
  refine (State.queues_ite (State.semAdd_queues ..)).trans ?_
  exact State.queues_ite (State.setMemDie_queues ..)

/-- A commit with a status that is no context fault changes its queue's entry, which may owe the record, and no later part of it
touches the queue. -/
theorem State.commit_queue {s : State} {c q : Nat} {u : Queue} {x : Started} {rest : List Started} (hq : s.queue? c q = some u)
    (hx : u.started = x :: rest) (hf : isFaultStatus (x.fail.getD (0, 0, 0)).1 = false) (hd : u.deleting = []) :
    ∃ owed now, (s.commit c q).queue? c q = some (({ u with owedRecs := owed } : Queue).committed x rest now) := by
  obtain ⟨owed, hput⟩ := State.putRecord_queue hq u.eng (u.comp + 64 * (x.index.toNat % 2 ^ u.s))
    (s.recBytes c q x (engDie u.eng))
  rw [State.commit_eq hq hx rfl]
  generalize s.putRecord c q u.eng (u.comp + 64 * (x.index.toNat % 2 ^ u.s)) (s.recBytes c q x (engDie u.eng)) = t at hput
  have hset : ((t.setQueue c q fun y => y.committed x rest t.time.mono).committing c q u x).queue? c q =
      some (({ u with owedRecs := owed } : Queue).committed x rest t.time.mono) := by
    rw [State.queue?_of_queues (State.committing_queues hf ..), State.queue_setQueue_self, hput]
    rfl
  obtain ⟨-, -, hdel, -⟩ := Queue.committed_fields { u with owedRecs := owed } x rest t.time.mono
  exact ⟨owed, t.time.mono, by rw [State.reapQueue_kept hset (hdel.trans hd), hset]⟩

/-- Settles O45: the choice falls on the one queue bound, a settled descriptor goes the way to its commit, and a commit is read off
`Queue.committed`. -/
theorem descriptors : Obligations.Descriptors := by
  unfold Obligations.Descriptors
  refine ⟨?_, ?_, ?_, ?_, ?_, ?_, ?_, ?_⟩
  · intro s v t j k u d hfree hv hq hrr ht hpv hpt
    rw [exec_descriptorFetch_ready hfree hv hq hrr ht (by rw [hpv]; rfl), State.fetchNext, hpt]
  · intro s v t j k u d f g hfree hv hq hrr ht hpv hpt
    rw [exec_descriptorFetch_ready hfree hv hq hrr ht (by rw [hpv]; rfl), State.fetchNext, hpt]
  · intro s j l hfree
    exact exec_descriptorFetch_busy hfree l
  · rintro s v c q u x rest f hq hx hr hf hrec hroom hidle hon hself rfl
    have hw : s.worked c q u.eng x = s.engTouch u.eng := State.worked_over (by simp [hf]) ..
    exact exec_descriptorComplete_commits hq hx (State.settledDesc_failed hr hf) hrec hroom hidle hon (by rw [hw]; exact hself) hr
      (by rw [hw, State.veCopies_failed hf]) hself hr
  · rintro s v t c q u x z rest hq hx hr _ hm htl hc hv hwork hrec hroom hidle hon hself rfl ht hz hzr
    have hw : s.worked c q u.eng x = s.engTouch u.eng := State.worked_over (by simp [hwork]) ..
    exact exec_descriptorComplete_commits hq hx (State.settledDesc_quiet hr hm htl hc hv) hrec hroom hidle hon
      (by rw [hw]; exact hself) hr (by rw [hw]; exact ht) hz hzr
  · rintro s w t c q u x y z rest hq hx hr hf hm htl hc hv hwork hrec hroom hidle hon rfl hy hyr ht hz hzr
    have hw : s.worked c q u.eng x = ((s.engTouch u.eng).initFlags u.eng x).doWork c q u.eng x := if_neg (by simp [hwork, hf])
    exact exec_descriptorComplete_commits hq hx (State.settledDesc_quiet hr hm htl hc hv) hrec hroom hidle hon
      (by rw [hw]; exact hy) hyr (by rw [hw]; exact ht) hz hzr
  · intro s c q u x rest hq hx hf hd
    obtain ⟨owed, now, hv⟩ := State.commit_queue hq hx (by rw [hf]; rfl) hd
    obtain ⟨hstarted, hdone, -, hlast⟩ := Queue.committed_fields { u with owedRecs := owed } x rest now
    exact ⟨_, hv, hstarted, hdone, hlast.trans (by rw [hf]; rfl)⟩
  · intro s c q st det a u x rest hq hx hf h0 hfault hst hd
    obtain ⟨owed, now, hv⟩ := State.commit_queue hq hx (by rw [hf]; exact hfault) hd
    obtain ⟨hstarted, hdone, -, hlast⟩ := Queue.committed_fields { u with owedRecs := owed } x rest now
    have hstop := Queue.committed_stops (u := { u with owedRecs := owed }) hst (by rw [hf]; exact h0) (by rw [hf]; exact hfault)
      rest now
    exact ⟨_, hv, hstarted, hdone, hstop, hlast.trans (by rw [hf]; exact if_neg (by simpa using h0))⟩

end Sys2Proof.Machine
end

