-- ==== Sys2Proof/Proofs/StashRules.lean ====
section
/-! PROOFS. O46: stash passes (R165), arming (R167), allocation (R168) and retirement (R169). First what the state's operations leave
of a stash and of its counts, then allocation, arming and retiring. -/

namespace Sys2Proof.Machine

/-! ### A context's stash -/

/-- A stash stands in the table of contexts and nowhere else. -/
theorem State.stash_of_ctxs {s t : State} (h : t.eng.ctxs = s.eng.ctxs) (c : Nat) : t.stash c = s.stash c :=
  congrArg (fun m => (mget {} m c : Ctx).stash) h

theorem State.stash_of_eng {s t : State} (h : t.eng = s.eng) (c : Nat) : t.stash c = s.stash c :=
  State.stash_of_ctxs (congrArg EngTables.ctxs h) c

@[simp] theorem State.stash_setStash_self (s : State) (c : Nat) (f : Stash → Stash) :
    (s.setStash c f).stash c = f (s.stash c) :=
  congrArg Ctx.stash (State.ctx_setCtx_self s c _)

@[simp] theorem State.stash_log (s : State) (code sev src : Nat) (ps : List Nat) (c : Nat) :
    (s.log code sev src ps).stash c = s.stash c :=
  State.stash_of_eng (State.log_eng ..) c

@[simp] theorem State.stash_armErr (s : State) (c : Nat) : (s.armErr c).stash c = { s.stash c with armErr := true } :=
  State.stash_setStash_self ..

@[simp] theorem State.stash_semAdd (s : State) (k : Nat) (v : Word) (c : Nat) : (s.semAdd k v).stash c = s.stash c := by
  refine State.stash_of_ctxs ?_ c
  unfold State.semAdd
  split <;> rfl

@[simp] theorem State.stash_entrySize (s : State) (e : StashEnt) (c : Nat) : (s.entrySize e).2.stash c = s.stash c := by
  refine State.stash_of_eng ?_ c
  unfold State.entrySize
  split <;> rfl

/-- The table's dwords go to memory; the stash itself changes in the entry alone. -/
@[simp] theorem State.stash_putEntry (s : State) (c i : Nat) (e : StashEnt) :
    (s.putEntry c i e).stash c = { s.stash c with entries := mput (s.stash c).entries i e } := by
  refine Eq.trans (State.stash_of_eng ?_ c) (s.stash_setStash_self c fun t => { t with entries := mput t.entries i e })
  unfold State.putEntry
  dsimp only
  split
  · rfl
  · split <;> rfl

/-- ARMED, RETIRED and STASH_PASS: where the pass stands. -/
def Stash.counts (t : Stash) : Nat × Nat × Word := (t.armed, t.retired, t.pass)

theorem Stash.counts_iff {t : Stash} {a r : Nat} {p : Word} :
    t.counts = (a, r, p) ↔ t.armed = a ∧ t.retired = r ∧ t.pass = p := by
  simp only [Stash.counts, Prod.mk.injEq]

/-! ### Counts that are written (R165, R167, R169) -/

/-- A count written to STASH_ARM or STASH_RETIRE is ignored: no pass is open, or it is not from lo to hi. -/
def Stash.ignores (t : Stash) (lo hi v : Nat) : Bool := t.pending || !t.open? || v < lo || hi < v

theorem Stash.ignores_iff (t : Stash) (lo hi v : Nat) :
    t.ignores lo hi v = true ↔ t.pending = true ∨ t.open? = false ∨ v < lo ∨ hi < v := by
  simp only [Stash.ignores, Bool.or_eq_true, Bool.not_eq_true', decide_eq_true_eq, or_assoc]

theorem Stash.ignores_inRange {t : Stash} {lo hi v : Nat} (hp : t.pending = false) (ho : t.open? = true) (hlo : lo ≤ v)
    (hhi : v ≤ hi) : t.ignores lo hi v = false := by
  simp [Stash.ignores, hp, ho, Nat.not_lt.mpr hlo, Nat.not_lt.mpr hhi]

theorem exec_stashArmWrite (c : Fin 256) (v : BitVec 32) (s : State) :
    exec (.stashArmWrite c v) s =
      .next (if (s.stash c).ignores (s.stash c).armCount (s.stash c).tableLen (bitsOf v.toNat 12 0) then s.armErr c
        else s.setStash c fun t => { t with armCount := bitsOf v.toNat 12 0 }) := rfl

/-- The entries from r on, n of them, retired in index order. -/
def State.retireFrom (s : State) (c r n : Nat) : State := (List.range n).foldl (fun s k => s.retireEntry c (r + k)) s

theorem exec_stashRetireWrite (c : Fin 256) (v : BitVec 32) (s : State) :
    exec (.stashRetireWrite c v) s =
      .next (if (s.stash c).ignores (s.stash c).retired (s.stash c).armed (bitsOf v.toNat 12 0) then s.armErr c
        else (s.retireFrom c (s.stash c).retired (bitsOf v.toNat 12 0 - (s.stash c).retired)).setStash c fun t =>
          { t with retireCount := bitsOf v.toNat 12 0 }) := rfl

/-! ### Allocation (R168) -/

/-- Bytes left free at the end of the reservation, where n bytes from the head do not fit before it. -/
def Stash.padFor (t : Stash) (n : Nat) : Nat := if t.headOff + n ≤ t.size then 0 else t.size - t.headOff

/-- Offset at which n bytes are placed. -/
def Stash.placeFor (t : Stash) (n : Nat) : Nat := (t.headOff + t.padFor n) % t.size

/-- What is placed lies inside the reservation: from the head where it fits, else from the start. -/
theorem Stash.placeFor_add_le {t : Stash} {n : Nat} (hhead : t.headOff ≤ t.size)
    (hroom : t.fill + t.padFor n + n ≤ t.size) : t.placeFor n + n ≤ t.size := by
  unfold Stash.placeFor
  by_cases hfit : t.headOff + n ≤ t.size
  · have hpad : t.padFor n = 0 := if_pos hfit
    have hmod : t.headOff % t.size ≤ t.headOff := Nat.mod_le ..
    rw [hpad, Nat.add_zero]
    omega
  · have hpad : t.padFor n = t.size - t.headOff := if_neg hfit
    rw [hpad, Nat.add_sub_cancel' hhead, Nat.mod_self]
    omega

/-- What an allocation can do: the entry has room and is STASHED where it is placed, or it is RECOMPUTE or DENIED and
the pass is FULL. -/
theorem allocate_cases (t : Stash) (i : Nat) (e : StashEnt) :
    (t.fill + t.padFor e.sizeOf_ + e.sizeOf_ ≤ t.size ∧ allocate t i e =
      ({ t with fill := t.fill + t.padFor e.sizeOf_ + e.sizeOf_, headOff := t.placeFor e.sizeOf_ + e.sizeOf_ },
        { e with st := 1, size := e.sizeOf_, pad := t.padFor e.sizeOf_, addr := t.base + t.placeFor e.sizeOf_ })) ∨
    ∃ full : Option Nat, allocate t i e =
      ({ t with st := .full, fullAt := full }, { e with st := if e.recomp then 2 else 3, size := e.sizeOf_ }) := by
  unfold allocate
  by_cases hfull : t.st = .full
  · exact .inr ⟨t.fullAt, (if_pos hfull).trans (by rw [← hfull])⟩
  · by_cases hroom : t.fill + t.padFor e.sizeOf_ + e.sizeOf_ ≤ t.size
    · exact .inl ⟨hroom, (if_neg hfull).trans (if_pos hroom)⟩
    · exact .inr ⟨some i, (if_neg hfull).trans (if_neg hroom)⟩

/-- Allocation leaves the pass where it stands. -/
theorem allocate_counts (t : Stash) (i : Nat) (e : StashEnt) :
    (allocate t i e).1.armed = t.armed ∧ (allocate t i e).1.retired = t.retired ∧ (allocate t i e).1.pass = t.pass := by
  rcases allocate_cases t i e with ⟨-, h⟩ | ⟨full, h⟩ <;> rw [h] <;> exact ⟨rfl, rfl, rfl⟩

/-! ### Arming and retiring one entry (R167, R169) -/

/-- Whatever an entry's checks and its allocation give, it counts as armed, and nothing is retired by it. -/
theorem State.armEntry_counts (s : State) (c off : Nat) :
    ((s.armEntry c off).stash c).counts = ((s.stash c).armed + 1, (s.stash c).retired, (s.stash c).pass) := by
  unfold State.armEntry
  dsimp only
  rw [State.stash_semAdd, State.stash_setStash_self, Stash.counts_iff]
  generalize s.armCheck _ _ _ _ _ _ = chk
  split
  · split <;> simp [allocate_counts]
  · split <;> simp

/-- The next entry asked for is armed, where its table's die is not in reset. -/
theorem exec_stashArmEntry_on {s : State} {c : Fin 256} {off : Nat} (hp : (s.stash c).pending = false)
    (ho : (s.stash c).open? = true) (hlt : (s.stash c).armed < (s.stash c).armCount)
    (hoff : s.localOff ((s.stash c).table + 64 * (s.stash c).armed) = some off) (hon : (s.die (dieOf off)).inReset = false) :
    exec (.stashArmEntry c []) s = .next (s.armEntry c off) := by
  show execStashArmEntry c [] s = _
  simp [execStashArmEntry, hp, ho, Nat.not_le.mpr hlt, hoff, hon, State.damages]

/-- An entry's retirement moves RETIRED past it, whether its space is freed or it had none. -/
theorem State.retireEntry_counts (s : State) (c i : Nat) :
    ((s.retireEntry c i).stash c).counts = ((s.stash c).armed, i + 1, (s.stash c).pass) := by
  unfold State.retireEntry
  split
  · simp [Stash.counts]
  · dsimp only
    split <;> simp [Stash.counts]

theorem State.retireFrom_counts {s : State} {c r : Nat} (h : (s.stash c).retired = r) (n : Nat) :
    ((s.retireFrom c r n).stash c).counts = ((s.stash c).armed, r + n, (s.stash c).pass) := by
  induction n with
  | zero => exact Stash.counts_iff.mpr ⟨rfl, h, rfl⟩
  | succ n ih =>
    obtain ⟨harmed, -, hpass⟩ := Stash.counts_iff.mp ih
    have hlast : s.retireFrom c r (n + 1) = (s.retireFrom c r n).retireEntry c (r + n) := by
      simp [State.retireFrom, List.range_succ]
    rw [hlast, State.retireEntry_counts, harmed, hpass, Nat.add_assoc]

/-- Settles O46: a pass asked for and opened, then what each written count, the allocation and the arming of an entry give. -/
theorem stashRules : Obligations.StashRules := by
  unfold Obligations.StashRules
  refine ⟨?_, ?_, ?_, ?_, ?_, ?_, ?_, ?_⟩
  · intro s c hst hended
    show execStashPassStart c 1 s = _
    simp [execStashPassStart, hst, hended]
  · intro s c hp hended hprod
    show execStashPassOpen c s = _
    simp [execStashPassOpen, hp, hended, hprod, Stash.clear]
  · intro s c v hp ho hlo hhi
    rw [exec_stashArmWrite, Stash.ignores_inRange hp ho hlo hhi]
    rfl
  · intro s c v hbad
    rw [exec_stashArmWrite, if_pos ((Stash.ignores_iff ..).mpr hbad)]
    rfl
  · intro s c off hp ho hlt hoff hon
    exact ⟨_, exec_stashArmEntry_on hp ho hlt hoff hon, Stash.counts_iff.mp (State.armEntry_counts s c off)⟩
  · intro t t' i e e' hfill hhead _ ha
    rcases allocate_cases t i e with ⟨hroom, h⟩ | ⟨full, h⟩
    · obtain ⟨rfl, rfl⟩ := Prod.mk.inj (ha.symm.trans h)
      have hin : t.placeFor e.sizeOf_ + e.sizeOf_ ≤ t.size := Stash.placeFor_add_le hhead hroom
      refine ⟨hroom, hin, rfl, rfl, rfl, fun _ => ⟨Nat.le_add_right .., ?_, rfl⟩, fun hne => absurd rfl hne⟩
      exact Nat.add_assoc t.base _ _ ▸ Nat.add_le_add_left hin t.base
    · obtain ⟨rfl, rfl⟩ := Prod.mk.inj (ha.symm.trans h)
      have hne : (if e.recomp then 2 else 3) ≠ 1 := by split <;> decide
      exact ⟨hfill, hhead, rfl, rfl, rfl, fun h1 => absurd h1 hne, fun _ => ⟨rfl, rfl, rfl⟩⟩
  · intro s c v hp ho hlo hhi
    have hcounts := State.retireFrom_counts (s := s) (c := c) rfl (bitsOf v.toNat 12 0 - (s.stash c).retired)
    rw [Nat.add_sub_cancel' hlo] at hcounts
    obtain ⟨harmed, hretired, hpass⟩ := Stash.counts_iff.mp hcounts
    rw [exec_stashRetireWrite, Stash.ignores_inRange hp ho hlo hhi]
    refine ⟨_, rfl, ?_⟩
    rw [if_neg Bool.false_ne_true, State.stash_setStash_self]
    exact ⟨hretired, rfl, harmed, hpass⟩
  · intro s c v hbad
    rw [exec_stashRetireWrite, if_pos ((Stash.ignores_iff ..).mpr hbad)]
    rfl

end Sys2Proof.Machine
end

