-- ==== Sys2Proof/Proofs/MatrixTiles.lean ====
section
/-! PROOFS. O24: a tile of a matrix engine (R367, R371), its checker (R370, R373) and its arbiter (R375). First the tile that passes its
check, then the verdicts on a sampled one, then the commands. -/

namespace Sys2Proof.Machine

/-! ### A tile that passes (R367, R371) -/

/-- A computed tile is counted: as one of its context's, by its work, and with the lines that its check left out. -/
def State.countTile (s : State) (c : Nat) (t : TileJob) (unchecked : Nat) : State :=
  ((s.countEv (engDie t.j) 0x013 (t.j % 16) (some c) 1).countEv (engDie t.j) 0x011 (t.j % 16) (some c)
    (t.rows.length * t.cols.length * t.p.k / 1024)).bumpAbft t.j 0 0 unchecked 0

theorem State.countdown_countTile (s : State) (c : Nat) (t : TileJob) (unchecked : Nat) :
    ((s.countTile c t unchecked).engine t.j).countdown = (s.engine t.j).countdown := by
  rw [State.countTile, State.bumpAbft, State.engine_setEng_self]
  rfl

/-- Above 1 the countdown falls by one and the tile is not sampled (R371). -/
theorem State.sampleTile_counts {s : State} {j n : Nat} (hn : (s.engine j).countdown = n) (h : 2 ≤ n) :
    s.sampleTile j = (false, s.setEng j fun e => { e with countdown := n - 1 }) := by
  have hz : n ≠ 0 := by omega
  have hone : ¬n ≤ 1 := by omega
  simp only [State.sampleTile, hz, hn, hone, if_false]

/-- A tile whose operands are checked and whose first result passes ABFT is counted and, not sampled, finished with it. -/
theorem State.meTile_passes {s : State} {c q : Nat} {t : TileJob} {g n : Nat} {a b : List (List Num)} {err1 : List WordFlip}
    {r : List Int} {ck : Abft} (hwork : t.x.work = true) (hrows : t.rows ≠ [])
    (hops : s.mmOperands c (engDie t.j) t.x t.p t.rows t.cols = .ok (a, b))
    (hr : r = applyErrs t.rows t.cols (s.tileW t.j) (fmtInt t.p.af) err1 (tileR t.p a b).1)
    (hck : ck = abftTile t.p t.rows t.cols a b r) (hpass : ck.fails = false)
    (hn : (s.engine t.j).countdown = n) (h2 : 2 ≤ n) (err2 : List WordFlip) :
    s.meTile c q t g err1 err2 =
      ((s.countTile c t ck.unchecked).setEng t.j fun e => { e with countdown := n - 1 }).finishTile c q t.x t.p t.j g t.rows
        t.cols (r, (tileR t.p a b).2) false := by
  subst hr hck
  have hempty : t.rows.isEmpty = false := by simpa using hrows
  have hsample := fun un => State.sampleTile_counts ((s.countdown_countTile c t un).trans hn) h2
  simp only [State.countTile] at hsample ⊢
  simp only [State.meTile, hwork, if_true, hempty, Bool.false_eq_true, if_false, hops, hpass, Bool.not_false, hsample]

/-! ### The tile's checker and its arbiter (R370, R373, R375) -/

theorem State.cancelled_active {s : State} {c : Nat} (h : (s.ctx c).st = .active) (w : CheckWork) : s.cancelled c w = false := by
  simp [State.cancelled, h]

/-- An eligible checker whose own check passes and which computes the original's result confirms it. -/
theorem State.checkerVerdict_agrees {s : State} {c : Nat} {t : TileJob} {w : CheckWork} {a : Abft} {err : List WordFlip}
    (helig : s.eligible w.checker = true) (hre : s.recompute c t w.checker err = .ok (w.orig, a)) (habft : w.abft = false)
    (hpass : a.fails = false) (q g : Nat) (flips : List LineFlip) :
    s.checkerVerdict c q t g w err flips =
      (s.bumpAbft w.checker 0 0 a.unchecked 1).finishTile c q t.x t.p t.j g t.rows t.cols w.orig true := by
  simp only [State.checkerVerdict, helig, hre, habft, hpass, Bool.not_true, Bool.false_eq_true, if_false, if_true]

/-- An arbiter that computes the original's result and not the checker's outvotes the checker. -/
theorem State.arbiterVerdict_original {s : State} {c : Nat} {t : TileJob} {w : CheckWork} {chk : List Int × Bool} {a : Abft}
    {err : List WordFlip} (helig : s.eligible w.third = true) (hre : s.recompute c t w.third err = .ok (w.orig, a))
    (hpass : a.fails = false) (hne : w.orig ≠ chk) (q g : Nat) (flips : List LineFlip) :
    s.arbiterVerdict c q t g w chk err flips =
      (((s.bumpAbft w.third 0 0 a.unchecked 1).disagree c q t g w w.third 1).suspect w.checker 2).finishTile c q t.x t.p t.j g
        t.rows t.cols w.orig true := by
  simp only [State.arbiterVerdict, helig, hre, hpass, hne, Bool.not_true, Bool.false_eq_true, if_false, if_true]

/-! ### The three commands -/

theorem exec_meTileDone {s : State} {c : Fin 256} {q : Fin 64} {ix : BitVec 32} {g : Nat} {t : TileJob}
    (ht : s.tileJob c q ix g = some t) (hwait : s.waitsOn t.x = false) (hchecks : t.x.checks = [])
    (hroom : s.roomFor c q ix = true) (ue : Bool) (e1 e2 : List WordFlip) (f : List LineFlip) :
    exec (.meTileDone c q ix g ue e1 e2 f) s = .next (s.unlessWaits (if ue then s.startEngReset t.j 3 []
      else (((s.damages 0 f).engTouch t.j).meTile c q t g e1 e2).tileCopy c q t g)) := by
  refine congrArg (fun u : State => Host.Outcome.next (s.unlessWaits u)) ?_
  simp only [ht, hwait, hchecks, hroom, List.any_nil, Bool.not_true, Bool.or_self, Bool.false_eq_true, if_false]

/-- The verdict of a checker on a tile of an ACTIVE context is not cancelled. -/
theorem exec_checkerVerdict {s : State} {c : Fin 256} {q : Fin 64} {ix : BitVec 32} {g : Nat} {t : TileJob} {w : CheckWork}
    (ht : s.tileJob c q ix g = some t) (hw : t.x.checks.find? (fun w => w.tile == g && w.chk.isNone) = some w)
    (hroom : s.roomFor c q ix = true) (hact : (s.ctx c).st = .active) (err : List WordFlip) (flips : List LineFlip) :
    exec (.checkerVerdict c q ix g err flips) s =
      .next (s.unlessWaits (((s.damages 0 flips).checkerVerdict c q t g w err flips).tileCopy c q t g)) := by
  refine congrArg (fun u : State => Host.Outcome.next (s.unlessWaits u)) ?_
  simp only [ht, hw, hroom, State.cancelled_active hact, Bool.not_true, Bool.false_eq_true, if_false]

/-- Nor is that of an arbiter. -/
theorem exec_arbiterVerdict {s : State} {c : Fin 256} {q : Fin 64} {ix : BitVec 32} {g : Nat} {t : TileJob} {w : CheckWork}
    {chk : List Int × Bool} (ht : s.tileJob c q ix g = some t)
    (hw : t.x.checks.find? (fun w => w.tile == g && w.chk.isSome) = some w) (hchk : w.chk = some chk)
    (hroom : s.roomFor c q ix = true) (hact : (s.ctx c).st = .active) (err : List WordFlip) (flips : List LineFlip) :
    exec (.arbiterVerdict c q ix g err flips) s =
      .next (s.unlessWaits (((s.damages 0 flips).arbiterVerdict c q t g w chk err flips).tileCopy c q t g)) := by
  refine congrArg (fun u : State => Host.Outcome.next (s.unlessWaits u)) ?_
  simp only [ht, hw, hchk, hroom, State.cancelled_active hact, Option.getD_some, Bool.not_true, Bool.false_eq_true, if_false]

/-- Settles O24: each command comes to its tile, and the tile's own rules say the rest. -/
theorem matrixTiles : Obligations.MatrixTiles := by
  unfold Obligations.MatrixTiles
  refine ⟨?_, ?_, ?_, ?_⟩
  · rintro s v c q ix g t a b ht hwait hchecks hwork hrows hroom rfl hops hpass h2
    refine ⟨_, rfl, (exec_meTileDone ht hwait hchecks hroom ..).trans ?_⟩
    exact congrArg (fun u : State => Host.Outcome.next (s.unlessWaits (u.tileCopy c q t g)))
      (State.meTile_passes (s := s.engTouch t.j) hwork hrows hops rfl rfl hpass rfl h2 [])
  · intro s c q ix g t e1 e2 f ht hwait hchecks hroom
    exact exec_meTileDone ht hwait hchecks hroom true e1 e2 f
  · intro s c q ix g t w a ht hw habft hroom hact helig hre hpass
    refine (exec_checkerVerdict ht hw hroom hact ..).trans ?_
    exact congrArg (fun u : State => Host.Outcome.next (s.unlessWaits (u.tileCopy c q t g)))
      (State.checkerVerdict_agrees helig hre habft hpass q g [])
  · intro s c q ix g t w a v ht hw hv _ hroom hact helig hre hpass hne
    refine (exec_arbiterVerdict ht hw hv hroom hact ..).trans ?_
    exact congrArg (fun u : State => Host.Outcome.next (s.unlessWaits (u.tileCopy c q t g)))
      (State.arbiterVerdict_original helig hre hpass hne q g [])

end Sys2Proof.Machine
end

