-- ==== Sys2Proof/Proofs/MemoryUpkeep.lean ====
section
/-! PROOFS. O25: initialisation and MemClear (R203, R332), training (R183, R184), scrub (R201, R202) and temperature (R186). First
memory of which a part is taken out, then what each command comes to. -/

namespace Sys2Proof.Machine

/-! ### Bytes and husks taken out -/

/-- Cells taken out by their address read 0, and the others are as before. -/
theorem cellGet_filter (l : List Host.Cell) (p : Nat → Bool) (x : Nat) :
    cellGet (l.filter fun e => p e.1) x = if p x then cellGet l x else 0 := by
  induction l with
  | nil => exact (ite_self _).symm
  | cons e r ih =>
    obtain ⟨j, w⟩ := e
    unfold cellGet at ih ⊢
    by_cases hj : x = j
    · subst hj
      by_cases hp : p x = true
      · simp only [List.filter_cons, hp, if_true, lookup_pair]
      · simp only [List.filter_cons, hp, Bool.false_eq_true, if_false, ih]
    · by_cases hp : p j = true
      · simp only [List.filter_cons, hp, if_true, lookup_pair, hj, if_false, ih]
      · simp only [List.filter_cons, hp, Bool.false_eq_true, if_false, lookup_pair, hj, ih]

/-- Memory that keeps the bytes whose address meets a test, and the husks whose first byte does; the rest reads 0. -/
def Mem.keep (m : Mem) (p : Nat → Bool) : Mem :=
  { cells := m.cells.filter (fun e => p e.1), husks := m.husks.filter (fun k => p (32 * k)) }

theorem Mem.cellGet_keep {m : Mem} {p : Nat → Bool} {out : Prop} [Decidable out] {a : Nat} (h : p a = true ↔ ¬out) :
    cellGet (m.keep p).cells a = if out then 0 else cellGet m.cells a := by
  rw [Mem.keep, cellGet_filter]
  by_cases hout : out <;> simp [h, hout]

theorem Mem.mem_husks_keep {m : Mem} {p : Nat → Bool} {out : Prop} {k : Nat} (h : p (32 * k) = true ↔ ¬out) :
    k ∈ (m.keep p).husks ↔ k ∈ m.husks ∧ ¬out := by
  rw [Mem.keep, List.mem_filter, h]

/-! ### The controllers' registers -/

theorem State.memDie_setMemDie_self {s : State} {d : Nat} (h : d < s.mem.dies.length) (f : MemDie → MemDie) :
    (s.setMemDie d f).memDie d = f (s.memDie d) := getD_lmod_self h

/-- The release of the host cores changes the dies and nothing else. -/
theorem State.releaseHarts_eq (s : State) : ∃ dies, s.releaseHarts = { s with dies := dies } := by
  unfold State.releaseHarts
  dsimp only
  split
  · exact ⟨_, rfl⟩
  · exact ⟨s.dies, rfl⟩

/-! ### Initialisation and MemClear (R203, R332) -/

/-- Out of reset and recovery, with its six stacks up, a die that is not initialised reads zeros without husks. -/
theorem exec_memInitDone {s : State} {d : Fin 4} (hreset : (s.die d).inReset = false) (hrec : s.ctd.lease.recovery = false)
    (hinit : (s.memDie d).initDone = false) (hup : (List.range 6).all (fun i => (s.stack (6 * d + i)).up) = true) :
    exec (.memInitDone d) s = .next (((s.setMem fun m => m.keep fun a => dieOf a != d).setMemDie d fun m =>
      { m with initDone := true }).releaseHarts) := by
  refine congrArg Host.Outcome.next ?_
  simp only [hreset, hrec, hinit, hup, Bool.or_self, Bool.not_true, Bool.false_eq_true, if_false]
  rfl

/-- The words of MemClear name a die and a range of units in its region. -/
theorem dMemClear_bad {a : List Nat} (hd : arg a 0 < 4) (hlo : arg a 1 < clearUnits) (hn : 1 ≤ arg a 2)
    (hhi : arg a 1 + arg a 2 ≤ clearUnits) (s : State) : dMemClear.bad s a = none :=
  badWord_none (by simp [hd, hlo, hn, hhi])

/-- A range in which no context has a window waits to be cleared. -/
theorem dMemClear_body {s : State} {a : List Nat}
    (hfree : s.eng.ctxs.any (fun e => e.2.st != .free && (s.localWins e.1).any fun v =>
      meets (arg a 0 * regionSize + arg a 1 * 2 ^ 21) (arg a 2 * 2 ^ 21) v.1 v.2) = false) (w : Who) :
    dMemClear.body s w a =
      { s := { s with mem := { s.mem with clears := s.mem.clears ++
          [(w, arg a 0 * regionSize + arg a 1 * 2 ^ 21, arg a 2 * 2 ^ 21)] } }
        status := dPending } := by
  simp only [dMemClear, hfree, Bool.false_eq_true, if_false]

theorem exec_memClearDone {s : State} {w : Who} {lo n : Nat} {rest : List (Who × Nat × Nat)}
    (hc : s.mem.clears = (w, lo, n) :: rest) (hup : s.regionUp (dieOf lo) = true) :
    exec .memClearDone s = .next (State.finish { s with mem := { s.mem with
      main := s.mem.main.keep fun a => !(lo ≤ a && a < lo + n), clears := rest } } w dOk 0 []) := by
  refine congrArg Host.Outcome.next ?_
  simp only [hc, hup, Bool.not_true, Bool.false_eq_true, if_false]
  rfl

/-! ### Training (R183, R184) -/

/-- What the end of a stack's training leaves before the host cores are looked at: the stack's rate, and what is logged. -/
def State.trained (s : State) (k best : Nat) : State :=
  let t := s.setStack k fun x => { x with rate := best, up := best != 3, selfRefresh := x.selfRefresh && best != 3 }
  if best = 3 then t.log 0x1204 6 (srcDieUnit (k / 6) 65) [k / 6, k, 2]
  else if best != (s.stack k).rate then t.log 0x1203 4 (srcDieUnit (k / 6) 65) [k / 6, k, best, (s.stack k).rate]
  else t

theorem exec_memTrainingDone {s : State} {k : Fin 24} (hrails : s.power.rails = true) (hup : (s.stack k).up = false)
    (hrate : (s.stack k).rate ≠ 3) (b : Fin 4) :
    exec (.memTrainingDone k b) s = .next (s.trained k b).releaseHarts := by
  refine congrArg Host.Outcome.next ?_
  have htrains : (!(s.stack k).up && (s.stack k).rate != 3) = true := by simp [hup, hrate]
  simp only [hrails, htrains, Bool.true_or, Bool.not_true, Bool.or_self, Bool.false_eq_true, if_false]
  rfl

/-- A rate that passes is the stack's, and it is up (R183). -/
theorem State.trained_passing (s : State) (k : Nat) {best : Nat} (h3 : best ≠ 3) :
    s.trained k best =
      if best != (s.stack k).rate then (s.setStack k fun x => { x with rate := best, up := true }).log 0x1203 4
        (srcDieUnit (k / 6) 65) [k / 6, k, best, (s.stack k).rate]
      else s.setStack k fun x => { x with rate := best, up := true } := by
  have hpass : (best != 3) = true := bne_iff_ne.mpr h3
  simp only [State.trained, h3, hpass, Bool.and_true, if_false]

/-- Without one it is FAILED (R184). -/
theorem State.trained_failed (s : State) (k : Nat) :
    s.trained k 3 = (s.setStack k fun x => { x with rate := 3, up := false, selfRefresh := false }).log 0x1204 6
      (srcDieUnit (k / 6) 65) [k / 6, k, 2] := by
  simp only [State.trained, bne_self_eq_false, Bool.and_false, if_true]

/-! ### Scrub (R201, R202) -/

/-- Without damage the scrub moves on by one raw line, short of the last one. -/
theorem exec_patrolScrubStep_moves {s : State} {d : Fin 4} (hon : (s.memDie d).scrubH ≠ 0) (hup : s.regionUp d = true)
    (hawake : (List.range 6).any (fun i => (s.stack (6 * d + i)).selfRefresh) = false)
    (hline : (s.memDie d).scrubLine + 1 < 2 ^ 25) (hd : d.val < s.mem.dies.length) :
    exec (.patrolScrubStep d []) s = .next (s.setMemDie d fun m => { m with scrubLine := m.scrubLine + 1 }) := by
  refine congrArg Host.Outcome.next ?_
  have hon' : decide ((s.memDie d).scrubH = 0) = false := decide_eq_false hon
  simp only [hon', hup, hawake, Bool.not_true, Bool.or_self, Bool.false_eq_true, if_false, List.filter_nil, List.foldl_nil,
    Nat.sub_self, Nat.add_zero, State.memDie_setMemDie_self hd, hline, if_true]

/-! ### Temperature (R186) -/

/-- Out of reset a stack's temperature is stored, and a change of its limitation is logged. -/
theorem exec_memThermal {s : State} {k : Fin 24} {c : BitVec 8} {lim : Bool} (hreset : (s.die (k / 6)).inReset = false)
    (hlim : (if 95 < c.toNat then true else if c.toNat ≤ 90 then false else (s.stack k).limited) = lim) :
    exec (.memThermal k c) s = .next (
      if lim = (s.stack k).limited then (s.setStack k fun x => { x with tempC := c.toNat, limited := lim }).alertCheck
      else ((s.setStack k fun x => { x with tempC := c.toNat, limited := lim }).alertCheck).log 0x1208 3
        (srcDieUnit (k / 6) 65) [k.val / 6, k.val, c.toNat, b2n lim]) := by
  refine congrArg Host.Outcome.next ?_
  simp only [hreset, hlim, Bool.false_eq_true, if_false]

/-- Settles O25: what each command comes to, and then what is left in memory. -/
theorem memoryUpkeep : Obligations.MemoryUpkeep := by
  unfold Obligations.MemoryUpkeep
  refine ⟨?_, ?_, ?_, ?_, ?_, ?_, ?_, ?_, ?_, ?_⟩
  · intro s d hreset hrec hinit hup
    obtain ⟨dies, hrel⟩ := State.releaseHarts_eq
      ((s.setMem fun m => m.keep fun a => dieOf a != d).setMemDie d fun m => { m with initDone := true })
    refine ⟨_, exec_memInitDone hreset hrec hinit hup, ?_⟩
    rw [hrel]
    exact ⟨rfl, rfl, rfl, rfl, rfl, fun a => Mem.cellGet_keep bne_iff_ne, fun k => Mem.mem_husks_keep bne_iff_ne⟩
  · intro r s h hl hd hlo hn hhi hfree
    exact congrArg _ (runDarid_body (d := dMemClear) h (fun _ => rfl) (by simp [dMemClear, hl])
      (dMemClear_bad hd hlo hn hhi s) rfl (dMemClear_body hfree _))
  · intro s w lo n rest hc hup
    have hout : ∀ a, (!(decide (lo ≤ a) && decide (a < lo + n))) = true ↔ ¬(lo ≤ a ∧ a < lo + n) := fun a => by
      simp only [Bool.not_eq_true', ← Bool.not_eq_true, Bool.and_eq_true, decide_eq_true_eq]
    exact ⟨_, _, exec_memClearDone hc hup, rfl, rfl, rfl, rfl, rfl, fun a => Mem.cellGet_keep (hout a), fun k =>
      Mem.mem_husks_keep (hout (32 * k))⟩
  · intro s d hon hup hawake hline hd
    exact exec_patrolScrubStep_moves hon hup hawake hline hd
  · intro s d l hoff
    refine congrArg Host.Outcome.next ?_
    simp [hoff]
  · intro s k b hrails hup hrate h3 hne
    rw [exec_memTrainingDone hrails hup hrate, State.trained_passing s k h3, if_pos (bne_iff_ne.mpr hne)]
  · intro s k b hrails hup hrate heq
    have h3 : b.val ≠ 3 := heq ▸ hrate
    rw [exec_memTrainingDone hrails hup hrate, State.trained_passing s k h3, if_neg (by simp [heq])]
  · intro s k hrails hup hrate
    exact (exec_memTrainingDone hrails hup hrate 3).trans (by rw [← State.trained_failed]; rfl)
  · intro s k c hreset hhot hlim
    rw [exec_memThermal hreset (if_pos hhot), hlim]
    rfl
  · intro s k c hreset hcool hlim
    have hcold : ¬95 < c.toNat := by omega
    rw [exec_memThermal hreset ((if_neg hcold).trans (if_pos hcool)), hlim]
    rfl

end Sys2Proof.Machine
end

