-- ==== Sys2Proof/Proofs/MemoryWrites.lean ====
section
/-! PROOFS. O59: what a write leaves of each sector (R194, R196). First one sector, then all sectors of a write, then what the part of
a write does to its sector. -/

namespace Sys2Proof.Machine

/-! ### One sector -/

/-- Whether sector k is a husk, and its bytes by address. -/
def Mem.SectorIs (m : Mem) (k : Nat) (husk : Bool) (f : Nat → Byte) : Prop :=
  m.husks.contains k = husk ∧ ∀ i, i < 32 → cellGet m.cells (32 * k + i) = f (32 * k + i)

theorem Mem.sectorIs_self (m : Mem) (k : Nat) : m.SectorIs k (m.husks.contains k) (cellGet m.cells) := ⟨rfl, fun _ _ => rfl⟩

theorem contains_huskAdd (l : List Nat) (j k : Nat) : (huskAdd l k).contains j = (j == k || l.contains j) := by
  rw [Bool.eq_iff_iff]
  simp

theorem contains_huskDel (l : List Nat) (j k : Nat) : (huskDel l k).contains j = (l.contains j && j != k) := by
  rw [Bool.eq_iff_iff]
  simp

theorem Mem.cellGet_husk {m : Mem} (hm : m.wf = true) (k x : Nat) :
    cellGet (m.husk k).cells x = if x / 32 = k then 0 else cellGet m.cells x := by
  have hiff : (32 * k ≤ x ∧ x < 32 * k + (List.replicate 32 (0 : Byte)).length) ↔ x / 32 = k := by
    rw [List.length_replicate]
    omega
  rw [Mem.husk, cellGet_cellsPut _ _ (Mem.wf_iff.mp hm).1]
  simp only [hiff]
  split
  · rw [List.getD_eq_getElem?_getD, List.getElem?_getD_replicate_default_eq]
  · rfl

/-- The part of a write in sector k, put there. -/
theorem cellGet_putPart {m : Mem} (hm : m.wf = true) (a : Nat) (b : List Byte) (k x : Nat) :
    cellGet (cellsPut m.cells (sectorPart a b k).1 (sectorPart a b k).2) x =
      if x / 32 = k ∧ a ≤ x ∧ x < a + b.length then b.getD (x - a) 0 else cellGet m.cells x := by
  rw [cellGet_cellsPut _ _ (Mem.wf_iff.mp hm).1]
  simp only [sectorPart_covers]
  split
  · next hx => exact sectorPart_getD hx.1 hx.2.1
  · rfl

/-- A sector's part of a write leaves every other sector. -/
theorem Mem.SectorIs.writeSector_ne {m : Mem} {j k : Nat} {husk : Bool} {f : Nat → Byte} (h : m.SectorIs j husk f)
    (hm : m.wf = true) (hne : j ≠ k) (a : Nat) (b : List Byte) (x : Bool) :
    (m.writeSector k (sectorPart a b k).1 (sectorPart a b k).2 x).SectorIs j husk f := by
  obtain ⟨hhusk, hbytes⟩ := h
  have hout : ∀ i, i < 32 → (32 * j + i) / 32 ≠ k := by omega
  unfold Mem.writeSector
  split
  · refine ⟨?_, fun i hi => ?_⟩
    · rw [Mem.husk, contains_huskAdd, hhusk, beq_false_of_ne hne, Bool.false_or]
    · rw [Mem.cellGet_husk hm, if_neg (hout i hi), hbytes i hi]
  · split
    · exact ⟨hhusk, hbytes⟩
    · refine ⟨?_, fun i hi => ?_⟩
      · rw [contains_huskDel, hhusk, bne_iff_ne.mpr hne, Bool.and_true]
      · rw [cellGet_putPart hm, if_neg (fun hx => hout i hi hx.1), hbytes i hi]

/-! ### All sectors of a write -/

/-- Sectors written one after the other leave a sector that is not among them. -/
theorem Mem.SectorIs.writeSectors {m : Mem} {k : Nat} {husk : Bool} {f : Nat → Byte} (h : m.SectorIs k husk f)
    (hm : m.wf = true) (a : Nat) (b : List Byte) (bad : List Nat) {l : List Nat} (hk : k ∉ l) :
    (l.foldl (fun m k => m.writeSector k (sectorPart a b k).1 (sectorPart a b k).2 (bad.contains k)) m).SectorIs k husk f := by
  induction l generalizing m with
  | nil => exact h
  | cons j r ih =>
    obtain ⟨hne, hr⟩ := not_or.mp (fun h => hk (List.mem_cons.mpr h))
    exact ih (h.writeSector_ne hm hne ..) (Mem.wf_writeSector _ _ _ _ hm) hr

theorem Mem.SectorIs.write_outside {m : Mem} {k : Nat} {husk : Bool} {f : Nat → Byte} (h : m.SectorIs k husk f)
    (hm : m.wf = true) {a : Nat} {b : List Byte} (hk : k ∉ sectors a b.length) (bad : List Nat) :
    (m.write a b bad).SectorIs k husk f :=
  h.writeSectors hm a b bad hk

theorem nodup_sectors (a n : Nat) : (sectors a n).Nodup := by
  unfold sectors
  split
  · exact List.nodup_nil
  · exact List.nodup_range.map (fun i j h => by simpa using h)

/-- A write does to a sector that it touches what its part of the write does, whatever it has done to other sectors. -/
theorem Mem.SectorIs.write_touched {m : Mem} {k : Nat} {husk husk' : Bool} {f f' : Nat → Byte} {a : Nat} {b : List Byte}
    {bad : List Nat} (h : m.SectorIs k husk f) (hm : m.wf = true) (hk : k ∈ sectors a b.length)
    (hpart : ∀ n : Mem, n.wf = true → n.SectorIs k husk f →
      (n.writeSector k (sectorPart a b k).1 (sectorPart a b k).2 (bad.contains k)).SectorIs k husk' f') :
    (m.write a b bad).SectorIs k husk' f' := by
  have hnodup := nodup_sectors a b.length
  unfold Mem.write
  generalize sectors a b.length = l at hk hnodup
  induction l generalizing m with
  | nil => simp at hk
  | cons j r ih =>
    obtain ⟨hj, hr⟩ := List.nodup_cons.mp hnodup
    have hwf : (m.writeSector j (sectorPart a b j).1 (sectorPart a b j).2 (bad.contains j)).wf = true :=
      Mem.wf_writeSector _ _ _ _ hm
    by_cases hkj : k = j
    · subst hkj
      exact (hpart m hm h).writeSectors hwf a b bad hj
    · exact ih (h.writeSector_ne hm hkj ..) hwf ((List.mem_cons.mp hk).resolve_left hkj) hr

/-! ### What the part of a write does to its sector (R194, R196) -/

/-- A sector that receives a byte from a husk becomes a husk of zeros. -/
theorem Mem.writeSector_fromHusk {m : Mem} (hm : m.wf = true) (k a : Nat) (b : List Byte) :
    (m.writeSector k a b true).SectorIs k true fun _ => 0 := by
  refine ⟨?_, fun i hi => ?_⟩
  · show (huskAdd m.husks k).contains k = true
    rw [contains_huskAdd, beq_self_eq_true, Bool.true_or]
  · refine (Mem.cellGet_husk hm k _).trans (if_pos ?_)
    omega

/-- A husk that is not covered whole stays as it is. -/
theorem Mem.writeSector_keepsHusk {m : Mem} {k : Nat} {b : List Byte} (h : m.husks.contains k = true) (hb : b.length < 32)
    (a : Nat) : m.writeSector k a b false = m := by
  simp [Mem.writeSector, h, hb, -List.contains_eq_mem]

/-- Otherwise the written bytes are there, the old ones elsewhere, and the sector is no husk. -/
theorem Mem.SectorIs.writeSector_put {m : Mem} {k a : Nat} {b : List Byte} {husk : Bool} {f : Nat → Byte}
    (h : m.SectorIs k husk f) (hm : m.wf = true) (hcover : husk = true → 32 ≤ (sectorPart a b k).2.length) :
    (m.writeSector k (sectorPart a b k).1 (sectorPart a b k).2 false).SectorIs k false fun x =>
      if a ≤ x ∧ x < a + b.length then b.getD (x - a) 0 else f x := by
  obtain ⟨hhusk, hbytes⟩ := h
  rw [Mem.writeSector_covered fun hk => hcover (hhusk ▸ List.contains_iff_mem.mpr hk)]
  refine ⟨?_, fun i hi => ?_⟩
  · rw [contains_huskDel, bne_self_eq_false, Bool.and_false]
  · have hin : (32 * k + i) / 32 = k := by omega
    rw [cellGet_putPart hm, hbytes i hi]
    simp only [hin, true_and]

/-- A part of a write has 32 bytes when the write covers its sector. -/
theorem length_sectorPart_lt {a k : Nat} {b : List Byte} : (sectorPart a b k).2.length < 32 ↔
    ¬(a ≤ 32 * k ∧ 32 * k + 32 ≤ a + b.length) := by
  simp only [sectorPart, List.length_take, List.length_drop]
  omega

/-- Settles O59: a touched sector is what its part of the write makes of it. -/
theorem memoryWrites : Obligations.MemoryWrites := by
  unfold Obligations.MemoryWrites
  intro m a k b bad hm hb
  have hself := m.sectorIs_self k
  have hlen : b.length ≠ 0 := fun h => hb (List.length_eq_zero_iff.mp h)
  refine ⟨fun hout => ?_, fun hlo hhi hbad => ?_, fun hlo hhi hbad hhusk hpart => ?_, fun hlo hhi hbad hcover => ?_⟩
  · exact hself.write_outside hm (fun hk => hout (mem_sectors.mp hk).2) bad
  · refine hself.write_touched (f' := fun _ => 0) hm (mem_sectors.mpr ⟨hlen, hlo, hhi⟩) fun n hn _ => ?_
    rw [hbad]
    exact Mem.writeSector_fromHusk hn ..
  · refine (hhusk ▸ hself).write_touched hm (mem_sectors.mpr ⟨hlen, hlo, hhi⟩) fun n _ h => ?_
    rw [hbad, Mem.writeSector_keepsHusk h.1 (length_sectorPart_lt.mpr hpart)]
    exact h
  · refine hself.write_touched (f' := fun x => if a ≤ x ∧ x < a + b.length then b.getD (x - a) 0 else cellGet m.cells x) hm
      (mem_sectors.mpr ⟨hlen, hlo, hhi⟩) fun n hn h => ?_
    rw [hbad]
    refine h.writeSector_put hn fun hhusk => ?_
    have hcovered := hcover.resolve_left (by simp [hhusk, -List.contains_eq_mem])
    exact Nat.not_lt.mp fun hlt => length_sectorPart_lt.mp hlt hcovered

end Sys2Proof.Machine
end

