-- ==== Sys2Proof/Proofs/HalfCode.lean ====
section
/-! PROOFS. O57: the code of a half (R189) and the husk pattern (R194, R195). First what one flipped place does to the XOR and the parity of
a word, then the stored word, then the data read from it. -/

namespace Sys2Proof.Machine

/-! ### Parity and XOR of places, and one place flipped -/

theorem foldl_bne (l : List Bool) (a : Bool) : l.foldl (fun a b => a != b) a = (a != parity l) := by
  unfold parity
  induction l generalizing a with
  | nil => simp
  | cons b r ih => rw [List.foldl_cons, List.foldl_cons, ih, ih (false != b), Bool.false_bne, Bool.bne_assoc]

theorem parity_cons (a : Bool) (l : List Bool) : parity (a :: l) = (a != parity l) := by
  rw [parity, List.foldl_cons, foldl_bne, Bool.false_bne]

theorem parity_append (l r : List Bool) : parity (l ++ r) = (parity l != parity r) := by
  rw [parity, List.foldl_append, foldl_bne]
  rfl

theorem parity_lmod_not {w : List Bool} {i : Nat} (h : i < w.length) : parity (lmod w i (!·)) = !parity w := by
  induction w generalizing i with
  | nil => simp at h
  | cons a r ih =>
    cases i with
    | zero => simp [lmod, parity_cons]
    | succ i => simp [lmod, parity_cons, ih (Nat.lt_of_succ_lt_succ h)]

theorem lmod_lmod (w : List α) (i : Nat) (f g : α → α) : lmod (lmod w i f) i g = lmod w i (g ∘ f) := by
  induction w generalizing i with
  | nil => rfl
  | cons a r ih => cases i <;> simp [lmod, ih]

theorem lmod_id (w : List α) (i : Nat) {f : α → α} (h : ∀ a, f a = a) : lmod w i f = w := by
  induction w generalizing i with
  | nil => rfl
  | cons a r ih => cases i <;> simp [lmod, ih, h]

/-- The XOR of the places marked. -/
def xorMarked (l : List (Bool × Nat)) : Nat := l.foldl (fun a p => if p.1 then a ^^^ p.2 else a) 0

theorem xorMarked_cons (e : Bool × Nat) (l : List (Bool × Nat)) :
    xorMarked (e :: l) = (if e.1 then e.2 else 0) ^^^ xorMarked l := by
  have hacc : ∀ (l : List (Bool × Nat)) (a : Nat),
      l.foldl (fun a p => if p.1 then a ^^^ p.2 else a) a = a ^^^ xorMarked l := by
    intro l
    induction l with
    | nil => simp [xorMarked]
    | cons b r ih =>
      intro a
      rw [xorMarked, List.foldl_cons, List.foldl_cons, ih, ih (if b.1 then 0 ^^^ b.2 else 0)]
      split <;> simp [Nat.xor_assoc]
  rw [xorMarked, List.foldl_cons, hacc, Nat.zero_xor]

theorem xorMarked_append (l r : List (Bool × Nat)) : xorMarked (l ++ r) = xorMarked l ^^^ xorMarked r := by
  induction l with
  | nil => simp [xorMarked]
  | cons e l ih => rw [List.cons_append, xorMarked_cons, xorMarked_cons, ih, Nat.xor_assoc]

theorem xorMarked_perm {l r : List (Bool × Nat)} (h : l.Perm r) : xorMarked l = xorMarked r := by
  induction h with
  | nil => rfl
  | cons e _ ih => rw [xorMarked_cons, xorMarked_cons, ih]
  | swap e f l => simp only [xorMarked_cons, ← Nat.xor_assoc, Nat.xor_comm]
  | trans _ _ ih ih' => exact ih.trans ih'

theorem codeSyn_eq_xorMarked (w : List Bool) : codeSyn w = xorMarked w.zipIdx := rfl

/-- One flipped place changes the syndrome by the place. -/
theorem codeSyn_lmod_not {w : List Bool} {i : Nat} (h : i < w.length) : codeSyn (lmod w i (!·)) = codeSyn w ^^^ i := by
  have hfrom : ∀ (w : List Bool) (i n : Nat), i < w.length →
      xorMarked ((lmod w i (!·)).zipIdx n) = xorMarked (w.zipIdx n) ^^^ (n + i) := by
    intro w
    induction w with
    | nil => simp
    | cons a r ih =>
      intro i n hi
      cases i with
      | zero => cases a <;> simp [lmod, xorMarked_cons, Nat.xor_comm]
      | succ i =>
        have hn : n + 1 + i = n + (i + 1) := by omega
        simp only [lmod, List.zipIdx_cons, xorMarked_cons, ih i (n + 1) (Nat.lt_of_succ_lt_succ hi), hn, Nat.xor_assoc]
  rw [codeSyn_eq_xorMarked, codeSyn_eq_xorMarked, hfrom w i 0 h, Nat.zero_add]

/-! ### What a decode says of a word whose syndrome and parity are 0 -/

theorem secdedDecode_clean {w : List Bool} (hs : codeSyn w = 0) (hp : parity w = false) :
    secdedDecode w = .clean (codeData w) := by
  simp [secdedDecode, hs, hp]

/-- One flipped place is the syndrome, and is flipped back. -/
theorem secdedDecode_flip {w : List Bool} {i : Nat} (hs : codeSyn w = 0) (hp : parity w = false) (hi : i < w.length)
    (h266 : i < 266) : secdedDecode (lmod w i (!·)) = .corrected (codeData w) := by
  have hback : lmod (lmod w i (!·)) i (!·) = w := (lmod_lmod ..).trans (lmod_id w i Bool.not_not)
  have hle : ¬265 < i := by omega
  simp [secdedDecode, codeSyn_lmod_not hi, parity_lmod_not hi, hs, hp, hback, hle]

/-- Two flipped places leave the parity and a syndrome that is not 0. -/
theorem secdedDecode_flip_flip {w : List Bool} {i j : Nat} (hs : codeSyn w = 0) (hp : parity w = false) (hi : i < w.length)
    (hj : j < w.length) (hne : i ≠ j) : secdedDecode (lmod (lmod w i (!·)) j (!·)) = .bad := by
  have hj' : j < (lmod w i (!·)).length := (length_lmod ..).symm ▸ hj
  have hsyn : i ^^^ j ≠ 0 := fun h => hne (Nat.xor_eq_zero_iff.mp h)
  simp [secdedDecode, codeSyn_lmod_not hj', codeSyn_lmod_not hi, parity_lmod_not hj', parity_lmod_not hi, hs, hp, hsyn]

/-! ### The places of a stored half -/

/-- The check places of c[0] to c[8]: place 2^j holds c[j]. -/
def checkPlaces : List Nat := (List.range 9).map (2 ^ ·)

theorem mem_checkPlaces {p : Nat} : p ∈ checkPlaces ↔ p ∈ [1, 2, 4, 8, 16, 32, 64, 128, 256] := Iff.rfl

/-- The data places are those that are neither 0 nor a check place. -/
theorem mem_secdedPos {p : Nat} : p ∈ secdedPos ↔ p < 266 ∧ p ≠ 0 ∧ p ∉ checkPlaces := by
  simp only [secdedPos, mem_checkPlaces, List.mem_filter, List.mem_range, List.contains_eq_mem, Bool.and_eq_true,
    Bool.not_eq_true', decide_eq_true_eq, decide_eq_false_iff_not, List.mem_cons, List.not_mem_nil, or_false]
  omega

theorem nodup_secdedPos : secdedPos.Nodup := List.nodup_range.filter _

/-- Place 0, the check places and the data places are the 266 places of a word. -/
theorem places_perm : (List.range 266).Perm (0 :: (checkPlaces ++ secdedPos)) := by
  have hcheck : checkPlaces.Nodup ∧ 0 ∉ checkPlaces ∧ ∀ p ∈ checkPlaces, p < 266 := by decide
  obtain ⟨hnodup, hzero, hlt⟩ := hcheck
  have hdata : (checkPlaces ++ secdedPos).Nodup :=
    hnodup.append nodup_secdedPos fun _ hc hd => (mem_secdedPos.mp hd).2.2 hc
  have hcons : (0 :: (checkPlaces ++ secdedPos)).Nodup :=
    hdata.cons fun h => (List.mem_append.mp h).elim hzero fun hd => (mem_secdedPos.mp hd).2.1 rfl
  refine (List.perm_ext_iff_of_nodup List.nodup_range hcons).mpr fun p => ?_
  rw [List.mem_range, List.mem_cons, List.mem_append, mem_secdedPos]
  by_cases hc : p ∈ checkPlaces
  · simp [hc, hlt p hc]
  · by_cases h0 : p = 0 <;> simp [hc, h0]

theorem length_secdedPos : secdedPos.length = 256 := by
  have hlen := places_perm.length_eq
  simp only [checkPlaces, List.length_cons, List.length_append, List.length_map, List.length_range] at hlen
  omega

/-- The bits of a word at some places. -/
def bitsAt (w : List Bool) (places : List Nat) : List Bool := places.map fun p => w.getD p false

theorem bitsAt_range {w : List Bool} {n : Nat} (h : w.length = n) : bitsAt w (List.range n) = w := by
  subst h
  refine List.ext_getElem (by simp [bitsAt]) fun i h1 h2 => ?_
  simp [bitsAt, h2]

theorem zipIdx_eq_map {w : List Bool} {n : Nat} (h : w.length = n) :
    w.zipIdx = (List.range n).map fun p => (w.getD p false, p) := by
  subst h
  refine List.ext_getElem (by simp) fun i h1 h2 => ?_
  have hi : i < w.length := by simpa using h1
  simp [hi]

theorem parity_perm {l r : List Bool} (h : l.Perm r) : parity l = parity r := by
  induction h with
  | nil => rfl
  | cons e _ ih => rw [parity_cons, parity_cons, ih]
  | swap e f l =>
    rw [parity_cons, parity_cons, parity_cons, parity_cons, ← Bool.bne_assoc, ← Bool.bne_assoc, bne_comm (a := e)]
  | trans _ _ ih ih' => exact ih.trans ih'

theorem parity_places {w : List Bool} (h : w.length = 266) :
    parity w = (w.getD 0 false != (parity (bitsAt w checkPlaces) != parity (bitsAt w secdedPos))) := by
  have hw : parity w = parity (bitsAt w (List.range 266)) := by rw [bitsAt_range h]
  rw [hw, bitsAt, parity_perm (places_perm.map _), List.map_cons, parity_cons, List.map_append, parity_append]
  rfl

/-- Place 0 adds nothing to the syndrome; the data places add the syndrome of the data. -/
theorem codeSyn_places {w : List Bool} (h : w.length = 266) :
    codeSyn w = xorMarked (checkPlaces.map fun p => (w.getD p false, p)) ^^^ secdedSyn (bitsAt w secdedPos) := by
  have hdata : secdedSyn (bitsAt w secdedPos) = xorMarked (secdedPos.map fun p => (w.getD p false, p)) := by
    rw [secdedSyn, bitsAt, ← List.map_prod_left_eq_zip, List.foldl_map, xorMarked, List.foldl_map]
  rw [codeSyn_eq_xorMarked, zipIdx_eq_map h, xorMarked_perm (places_perm.map _), List.map_cons, xorMarked_cons, List.map_append,
    xorMarked_append, ← hdata]
  simp

theorem length_codeWord (l : List Byte) (field : Nat) : (codeWord l field).length = 266 := by simp [codeWord]

theorem codeWord_zero (l : List Byte) (field : Nat) : (codeWord l field).getD 0 false = field.testBit 9 := by
  simp [codeWord]

theorem codeWord_check (l : List Byte) (field : Nat) {j : Nat} (h : j < 9) :
    (codeWord l field).getD (2 ^ j) false = field.testBit j := by
  have hplace : ∀ j < 9, 2 ^ j < 266 ∧ 2 ^ j ≠ 0 ∧ [1, 2, 4, 8, 16, 32, 64, 128, 256].idxOf? (2 ^ j) = some j := by decide
  obtain ⟨hlt, h0, hidx⟩ := hplace j h
  simp only [codeWord, List.getD_eq_getElem?_getD, List.getElem?_map, List.getElem?_range hlt, Option.map_some, h0, hidx,
    Option.getD_some, if_false]

/-- Values looked up under their own keys. -/
theorem map_lookup_zip {keys : List Nat} {l : List Bool} (hk : keys.Nodup) (hl : l.length = keys.length) :
    (keys.map fun k => ((keys.zip l).lookup k).getD false) = l := by
  induction keys generalizing l with
  | nil => exact (List.length_eq_zero_iff.mp hl).symm
  | cons k r ih =>
    cases l with
    | nil => simp at hl
    | cons a l =>
      obtain ⟨hnot, hr⟩ := List.nodup_cons.mp hk
      have hrest : (r.map fun j => (((k :: r).zip (a :: l)).lookup j).getD false) =
          r.map fun j => ((r.zip l).lookup j).getD false := by
        refine List.map_congr_left fun j hj => ?_
        have hne : j ≠ k := fun h => hnot (h ▸ hj)
        rw [List.zip_cons_cons, lookup_pair, if_neg hne]
      rw [List.map_cons, hrest, ih hr (Nat.succ.inj hl), List.zip_cons_cons, lookup_pair, if_pos rfl]
      rfl

theorem length_halfBits {l : List Byte} (h : l.length = 32) : (halfBits l).length = 256 := by simp [halfBits, h]

/-- The data places hold the data. -/
theorem bitsAt_codeWord_data {l : List Byte} (h : l.length = 32) (field : Nat) :
    bitsAt (codeWord l field) secdedPos = halfBits l := by
  refine Eq.trans ?_ (map_lookup_zip nodup_secdedPos ((length_halfBits h).trans length_secdedPos.symm))
  refine List.map_congr_left fun p hp => ?_
  obtain ⟨hlt, h0, hcheck⟩ := mem_secdedPos.mp hp
  have hidx : [1, 2, 4, 8, 16, 32, 64, 128, 256].idxOf? p = none := List.idxOf?_eq_none_iff.mpr (mem_checkPlaces.not.mp hcheck)
  simp only [codeWord, List.getD_eq_getElem?_getD, List.getElem?_map, List.getElem?_range hlt, Option.map_some, h0, hidx,
    Option.getD_some, if_false]

/-! ### The check field (R189) -/

theorem testBit_ite_two_pow (b : Bool) (n i : Nat) : (if b then 2 ^ n else 0).testBit i = (b && decide (i = n)) := by
  cases b
  · simp
  · rw [if_pos rfl, Nat.testBit_two_pow, Bool.true_and, decide_eq_decide]
    exact eq_comm

/-- A number is the XOR of the powers of its set bits. -/
theorem xorMarked_testBit (x n : Nat) : xorMarked ((List.range n).map fun j => (x.testBit j, 2 ^ j)) = x % 2 ^ n := by
  induction n with
  | zero => simp [xorMarked, Nat.mod_one]
  | succ n ih =>
    rw [List.range_succ, List.map_append, xorMarked_append, ih]
    refine Nat.eq_of_testBit_eq fun i => ?_
    have hlast : xorMarked [(x.testBit n, 2 ^ n)] = if x.testBit n then 2 ^ n else 0 := by simp [xorMarked]
    rw [List.map_cons, List.map_nil, hlast, Nat.testBit_xor, Nat.testBit_mod_two_pow, Nat.testBit_mod_two_pow,
      testBit_ite_two_pow]
    by_cases hi : i = n
    · subst hi
      simp
    · have hiff : i < n ↔ i < n + 1 := by omega
      simp [hi, hiff]

theorem secdedSyn_lt (l : List Bool) : secdedSyn l < 2 ^ 9 := by
  have hlt : ∀ e ∈ secdedPos.zip l, e.1 < 2 ^ 9 := fun e he =>
    lt_trans (mem_secdedPos.mp (List.of_mem_zip he).1).1 (by decide)
  unfold secdedSyn
  refine List.foldlRecOn (motive := (· < 2 ^ 9)) _ _ (by decide) fun a ha e he => ?_
  split
  · exact Nat.xor_lt_two_pow ha (hlt e he)
  · exact ha

theorem bitsAt_codeWord_check (l : List Byte) (field : Nat) :
    bitsAt (codeWord l field) checkPlaces = (List.range 9).map field.testBit := by
  rw [bitsAt, checkPlaces, List.map_map]
  exact List.map_congr_left fun j hj => codeWord_check l field (List.mem_range.mp hj)

/-- The syndrome of a stored word is the difference of its check bits from those of its data. -/
theorem codeSyn_codeWord {l : List Byte} (h : l.length = 32) (field : Nat) :
    codeSyn (codeWord l field) = field % 2 ^ 9 ^^^ secdedSyn (halfBits l) := by
  rw [codeSyn_places (length_codeWord ..), bitsAt_codeWord_data h, ← xorMarked_testBit, checkPlaces, List.map_map]
  refine congrArg (fun c => xorMarked c ^^^ _) (List.map_congr_left fun j hj => ?_)
  exact congrArg (fun b => (b, 2 ^ j)) (codeWord_check l field (List.mem_range.mp hj))

theorem parity_codeWord {l : List Byte} (h : l.length = 32) (field : Nat) :
    parity (codeWord l field) =
      (field.testBit 9 != (parity ((List.range 9).map field.testBit) != parity (halfBits l))) := by
  rw [parity_places (length_codeWord ..), codeWord_zero, bitsAt_codeWord_check, bitsAt_codeWord_data h]

/-- c[9] of a half: it makes the parity of the stored word even. -/
def parityBit (l : List Byte) : Bool :=
  parity (halfBits l) != parity ((List.range 9).map (secdedSyn (halfBits l)).testBit)

theorem secdedField_eq (l : List Byte) : secdedField l = secdedSyn (halfBits l) + 512 * b2n (parityBit l) := rfl

theorem secdedField_mod (l : List Byte) : secdedField l % 2 ^ 9 = secdedSyn (halfBits l) := by
  have hfield := secdedField_eq l
  have hlt := secdedSyn_lt (halfBits l)
  omega

theorem secdedField_testBit_nine (l : List Byte) : (secdedField l).testBit 9 = parityBit l := by
  have hfield := secdedField_eq l
  have hlt := secdedSyn_lt (halfBits l)
  have hdiv : secdedField l / 2 ^ 9 = b2n (parityBit l) := by omega
  rw [Nat.testBit_eq_decide_div_mod_eq, hdiv]
  cases parityBit l <;> rfl

theorem secdedField_testBit {j : Nat} (l : List Byte) (h : j < 9) :
    (secdedField l).testBit j = (secdedSyn (halfBits l)).testBit j := by
  rw [← secdedField_mod, Nat.testBit_mod_two_pow, decide_eq_true h, Bool.true_and]

theorem codeSyn_stored {l : List Byte} (h : l.length = 32) : codeSyn (codeWord l (secdedField l)) = 0 := by
  rw [codeSyn_codeWord h, secdedField_mod, Nat.xor_self]

theorem parity_stored {l : List Byte} (h : l.length = 32) : parity (codeWord l (secdedField l)) = false := by
  have hlow : (List.range 9).map (secdedField l).testBit = (List.range 9).map (secdedSyn (halfBits l)).testBit :=
    List.map_congr_left fun j hj => secdedField_testBit l (List.mem_range.mp hj)
  rw [parity_codeWord h, secdedField_testBit_nine, hlow, parityBit, bne_comm (a := parity (List.map _ _)),
    bne_self_eq_false]

/-! ### The data of a stored word -/

/-- A number is the OR of the powers of its set bits. -/
theorem ofBits_testBit (x n : Nat) : ofBits ((List.range n).filter x.testBit) = x % 2 ^ n := by
  induction n with
  | zero => simp [ofBits, Nat.mod_one]
  | succ n ih =>
    have hstep : ofBits ((List.range (n + 1)).filter x.testBit) = x % 2 ^ n ||| if x.testBit n then 2 ^ n else 0 := by
      rw [← ih, List.range_succ, List.filter_append, ofBits, List.foldl_append]
      cases hx : x.testBit n <;> simp [hx, ofBits]
    rw [hstep]
    refine Nat.eq_of_testBit_eq fun i => ?_
    rw [Nat.testBit_or, Nat.testBit_mod_two_pow, Nat.testBit_mod_two_pow, testBit_ite_two_pow]
    by_cases hi : i = n
    · subst hi
      simp
    · have hiff : i < n ↔ i < n + 1 := by omega
      simp [hi, hiff]

theorem chunksGo_succ {l : List α} (h : l ≠ []) (n k : Nat) :
    chunksGo n (k + 1) l = l.take n :: chunksGo n k (l.drop n) := by
  cases l with
  | nil => exact absurd rfl h
  | cons a r => rfl

theorem chunksGo_flatMap {n : Nat} {f : α → List β} (hn : 0 < n) (hf : ∀ a, (f a).length = n) (l : List α) {k : Nat}
    (hk : l.length ≤ k) : chunksGo n k (l.flatMap f) = l.map f := by
  induction l generalizing k with
  | nil => cases k <;> rfl
  | cons a r ih =>
    cases k with
    | zero => simp at hk
    | succ k =>
      have hne : (a :: r).flatMap f ≠ [] := by
        intro hnil
        have hlen := congrArg List.length hnil
        rw [List.flatMap_cons, List.length_append, hf, List.length_nil] at hlen
        omega
      rw [chunksGo_succ hne, List.flatMap_cons, List.take_left' (hf a), List.drop_left' (hf a),
        ih (Nat.le_of_succ_le_succ hk), List.map_cons]

/-- Pieces of equal length, put together and cut again. -/
theorem chunks_flatMap {n : Nat} {f : α → List β} (hn : 0 < n) (hf : ∀ a, (f a).length = n) (l : List α) :
    chunks n (l.flatMap f) = l.map f := by
  refine chunksGo_flatMap hn hf l ?_
  have hlen : (l.flatMap f).length = l.length * n := by simp [List.length_flatMap, hf]
  rw [hlen]
  exact Nat.le_mul_of_pos_right _ hn

/-- A byte is read back from its bits. -/
theorem ofBits_getLsbD (x : Byte) :
    BitVec.ofNat 8 (ofBits ((List.range 8).filter fun i => ((List.range 8).map fun i => x.getLsbD i).getD i false)) = x := by
  have hbits : ((List.range 8).filter fun i => ((List.range 8).map fun i => x.getLsbD i).getD i false) =
      (List.range 8).filter x.toNat.testBit := by
    refine List.filter_congr fun i hi => ?_
    rw [List.getD_eq_getElem?_getD, List.getElem?_map, List.getElem?_range (List.mem_range.mp hi), Option.map_some,
      Option.getD_some, BitVec.testBit_toNat]
  rw [hbits, ofBits_testBit, Nat.mod_eq_of_lt x.isLt, BitVec.ofNat_toNat, BitVec.setWidth_eq]

theorem codeData_codeWord {l : List Byte} (h : l.length = 32) (field : Nat) : codeData (codeWord l field) = l := by
  have hdata : codeData (codeWord l field) = (chunks 8 (bitsAt (codeWord l field) secdedPos)).map fun b =>
    BitVec.ofNat 8 (ofBits ((List.range 8).filter fun i => b.getD i false)) := rfl
  rw [hdata, bitsAt_codeWord_data h, halfBits, chunks_flatMap (by decide) (fun _ => by simp), List.map_map]
  exact (List.map_congr_left fun x _ => ofBits_getLsbD x).trans (List.map_id l)

/-! ### The husk pattern (R194, R195) -/

theorem parity_of_false {l : List Bool} (h : ∀ b ∈ l, b = false) : parity l = false := by
  induction l with
  | nil => rfl
  | cons a r ih =>
    obtain ⟨ha, hr⟩ := List.forall_mem_cons.mp h
    rw [parity_cons, ha, ih hr, bne_self_eq_false]

theorem secdedSyn_of_false {l : List Bool} (h : ∀ b ∈ l, b = false) : secdedSyn l = 0 := by
  unfold secdedSyn
  refine List.foldlRecOn (motive := (· = 0)) _ _ rfl fun a ha e he => ?_
  rw [h e.2 (List.of_mem_zip he).2, ha]
  rfl

/-- Data 0 with every check bit set: the syndrome is 511 and the parity even. -/
theorem secdedDecode_huskCode : secdedDecode huskCode = .bad := by
  have hzeros : ∀ b ∈ halfBits (List.replicate 32 0), b = false := by
    intro b hb
    obtain ⟨x, hx, hbit⟩ := List.mem_flatMap.mp hb
    obtain ⟨i, -, rfl⟩ := List.mem_map.mp hbit
    rw [List.eq_of_mem_replicate hx]
    exact BitVec.getLsbD_zero
  have hlen : (List.replicate 32 (0 : Byte)).length = 32 := List.length_replicate
  have hsyn : codeSyn huskCode = 511 := by
    rw [huskCode, codeSyn_codeWord hlen, secdedSyn_of_false hzeros]
    decide
  have hparity : parity huskCode = false := by
    rw [huskCode, parity_codeWord hlen, parity_of_false hzeros]
    decide
  simp [secdedDecode, hsyn, hparity]

/-- The places at which a word and the word with one place changed differ. -/
theorem length_filter_zip_lmod_le (w : List Bool) (i : Nat) (f : Bool → Bool) :
    (((lmod w i f).zip w).filter fun p => p.1 != p.2).length ≤ 1 := by
  have hsame : ∀ w : List Bool, (w.zip w).filter (fun p => p.1 != p.2) = [] := by
    intro w
    induction w with
    | nil => rfl
    | cons a r ih => simpa using ih
  induction w generalizing i with
  | nil => simp [lmod]
  | cons a r ih =>
    cases i with
    | zero =>
      rw [lmod, List.zip_cons_cons, List.filter_cons, hsame]
      split <;> simp
    | succ i =>
      rw [lmod, List.zip_cons_cons, List.filter_cons, bne_self_eq_false]
      exact ih i

theorem nearHusk_lmod (i : Nat) (f : Bool → Bool) : nearHusk (lmod huskCode i f) = true :=
  decide_eq_true (length_filter_zip_lmod_le huskCode i f)

theorem nearHusk_huskCode : nearHusk huskCode = true := by
  have h := nearHusk_lmod 0 id
  rwa [lmod_id huskCode 0 (f := id) fun _ => rfl] at h

/-- Settles O57: a stored word has syndrome 0 and even parity, and flipped places show in both. -/
theorem halfCode : Obligations.HalfCode := by
  unfold Obligations.HalfCode
  have hlt : ∀ (b : List Byte) {i : Nat}, i < 266 → i < (codeWord b (secdedField b)).length := fun b _ h =>
    (length_codeWord b (secdedField b)).symm ▸ h
  refine ⟨fun b hb => ?_, fun b i hb hi => ?_, fun b i j hb hi hj hne => ?_, secdedDecode_huskCode, nearHusk_huskCode,
    fun i _ => nearHusk_lmod i _⟩
  · rw [secdedDecode_clean (codeSyn_stored hb) (parity_stored hb), codeData_codeWord hb]
  · rw [secdedDecode_flip (codeSyn_stored hb) (parity_stored hb) (hlt b hi) hi, codeData_codeWord hb]
  · exact secdedDecode_flip_flip (codeSyn_stored hb) (parity_stored hb) (hlt b hi) (hlt b hj) hne

end Sys2Proof.Machine
end

