-- ==== Sys2Proof/Proofs/PortRules.lean ====
section
/-! SUPPORT. One port: changes of it one after the other, and what leaves it alone. -/

namespace Sys2Proof.Machine

/-! ### One port -/

/-- Two changes of a port one after the other are one. -/
theorem State.setPort_setPort (s : State) (p : Nat) (f g : PortSt → PortSt) :
    (s.setPort p f).setPort p g = s.setPort p (g ∘ f) :=
  congrArg (fun l => { s with fab := { s.fab with ports := l } }) (lmod_lmod s.fab.ports p f g)

/-- A port depends on the fabric alone. -/
theorem State.port_congr {s t : State} (h : t.fab = s.fab) (p : Nat) : t.port p = s.port p :=
  congrArg (fun f : FabricSt => f.ports.getD p {}) h

@[simp] theorem State.log_port (s : State) (c v r : Nat) (ps : List Nat) (p : Nat) : (s.log c v r ps).port p = s.port p :=
  State.port_congr (s.log_fab c v r ps) p

@[simp] theorem State.countEv_port (s : State) (d e i : Nat) (c : Option Nat) (n p : Nat) :
    (s.countEv d e i c n).port p = s.port p := rfl

end Sys2Proof.Machine
end

