-- ==== Sys2Proof/Proofs/Flits.lean ====
section
/-! PROOFS. O41: what a port sends (R212, R214 to R216) and what it makes of a flit received (R211, R213 to R216). -/

namespace Sys2Proof.Machine

/-! ### Sending (R212, R214 to R216) -/

/-- A port that is UP with its lanes. -/
structure State.Sends (s : State) (p : Nat) : Prop where
  up : (s.port p).st = .up
  lanes : (s.port p).lanes ≠ 0

section
variable {s : State} {p : Nat}

theorem State.Sends.on (h : s.Sends p) : ((s.port p).st == .down || (s.port p).lanes == 0) = false := by
  rw [h.up, beq_false_of_ne h.lanes]; rfl

theorem State.Sends.trained (h : s.Sends p) : ((s.port p).st == .training || (s.port p).st == .retraining) = false := by
  rw [h.up]; rfl

theorem State.Sends.unrestricted (h : s.Sends p) : ((s.port p).st != .up) = false := by
  rw [h.up]; rfl

end

theorem exec_flitTransmit_nak {s : State} {p : Fin 13} (hp : s.Sends p) (hnak : (s.port p).nakDue = true) :
    exec (.flitTransmit p) s =
      .next ((s.setPort p fun x => { x with nakDue := false, nakSent := true }).putFlit p 2 0 0 0xFF []) := by
  refine congrArg Host.Outcome.next ?_
  simp only [hp.on, hp.trained, hnak, Bool.false_eq_true, if_false, if_true]

theorem exec_flitTransmit_replay {s : State} {p : Fin 13} {q : Nat} {rest : List Nat} {f : Flit} (hp : s.Sends p)
    (hnak : (s.port p).nakDue = false) (hresend : (s.port p).resend = q :: rest)
    (hf : (s.port p).replay.find? (fun g => g.fseq == q) = some f) :
    exec (.flitTransmit p) s = .next ((s.setPort p fun x => { x with resend := rest }).sendData p f) := by
  refine congrArg Host.Outcome.next ?_
  simp only [hp.on, hp.trained, hnak, hresend, hf, Bool.false_eq_true, if_false]

/-- What leaves a port changes the time alone: its stamps (R244, R245). -/
theorem State.pktLeaves_eq (s : State) (p : Nat) (k : Packet) : ∃ time, s.pktLeaves p k = { s with time := time } := by
  unfold State.pktLeaves State.stampPkt
  split <;> split <;> exact ⟨_, rfl⟩

theorem State.foldl_pktLeaves_eq (s : State) (p : Nat) (ks : List Packet) :
    ∃ time, ks.foldl (fun s k => s.pktLeaves p k) s = { s with time := time } := by
  induction ks generalizing s with
  | nil => exact ⟨s.time, rfl⟩
  | cons k ks ih =>
    obtain ⟨time, hk⟩ := s.pktLeaves_eq p k
    obtain ⟨time', hks⟩ := ih (s.pktLeaves p k)
    exact ⟨time', by rw [List.foldl_cons, hks, hk]⟩

/-- A port that has sent a new flit: a credit spent, the flit in its replay buffer, n packets begun and the rest of the last one
kept. -/
def PortSt.sendNew (x : PortSt) (f : Flit) (n left now : Nat) (rest : List Byte) : PortSt :=
  { x.spend f.vc with
    outq := dropVc f.vc n x.outq, txRest := x.txRest.set f.vc rest, txNext := x.txNext + 1, dataSent := x.dataSent + 1
    replay := x.replay ++ [f]
    progress := if x.replay.isEmpty then now else x.progress
    rrVc := if f.vc = 7 then x.rrVc else f.vc, rrLeft := left }

/-- A new flit goes out: the port has sent it, the time has the stamps of the packets that left, and it is counted. -/
def State.sendNew (s : State) (p : Nat) (f : Flit) (n left : Nat) (rest : List Byte) (time : TimeSt) : State :=
  ((({ s with time := time }).setPort p (PortSt.sendNew · f n left time.mono rest)).countEv (portDie p) 0x050 p none 1).sendData p f

/-- With room in the replay buffer, a channel that is ready sends a new flit. -/
theorem exec_flitTransmit_new {s : State} {p : Fin 13} {v left : Nat} (hp : s.Sends p) (hnak : (s.port p).nakDue = false)
    (hresend : (s.port p).resend = []) (hroom : (s.port p).replay.length < s.replaySize p)
    (hvc : (s.port p).nextVc (s.vcRoom p) false = some (v, left)) :
    ∃ (f : Flit) (n : Nat) (rest : List Byte) (time : TimeSt), f.fseq = (s.port p).txNext.toNat ∧ f.vc = v ∧
      exec (.flitTransmit p) s = .next (s.sendNew p f n left rest time) := by
  rcases hfill : fillFlit none [] ((s.port p).txRest.getD v [])
    (((s.port p).mayBegin (s.vcRoom p v) v).map fun k => s.tsLeaves p k.pkt) with ⟨pay, off, rest, n⟩
  obtain ⟨time, htime⟩ := s.foldl_pktLeaves_eq p
    ((((s.port p).mayBegin (s.vcRoom p v) v).map fun k => s.tsLeaves p k.pkt).take n)
  refine ⟨{ fseq := (s.port p).txNext.toNat, vc := v, startOff := off, payload := pay }, n, rest, time, rfl, rfl,
    congrArg Host.Outcome.next ?_⟩
  simp only [hp.on, hp.trained, hp.unrestricted, hnak, hresend, hroom, hvc, hfill, htime, Bool.false_eq_true, if_false, if_true]
  rfl

/-- A DATA flit that goes out leaves in its port the flit on the lanes and nothing to acknowledge or return. -/
theorem State.sendData_port {s : State} {p : Nat} (hp : p < s.fab.ports.length) (f : Flit) :
    ∃ line owed, (s.sendData p f).port p = { s.port p with line := line, unacked := 0, owed := owed } :=
  ⟨_, _, State.port_setPort_self hp⟩

theorem State.sendNew_port {s : State} {p : Nat} (hp : p < s.fab.ports.length) (f : Flit) (n left : Nat) (rest : List Byte)
    (time : TimeSt) :
    ∃ line owed, (s.sendNew p f n left rest time).port p =
      { (s.port p).sendNew f n left time.mono rest with line := line, unacked := 0, owed := owed } := by
  have hnew : (({ s with time := time } : State).setPort p (PortSt.sendNew · f n left time.mono rest)).port p =
      (s.port p).sendNew f n left time.mono rest := State.port_setPort_self hp
  obtain ⟨line, owed, hport⟩ := State.sendData_port (s := (({ s with time := time } : State).setPort p
    (PortSt.sendNew · f n left time.mono rest)).countEv (portDie p) 0x050 p none 1) (by simpa using hp) f
  rw [State.countEv_port, hnew] at hport
  exact ⟨line, owed, hport⟩

/-! ### What packets received leave alone -/

/-- A port without its packets: those received whole and those queued for it. -/
def PortSt.wire (x : PortSt) : PortSt := { x with rxPkts := [], outq := [] }

/-- Ports that differ in their packets only. -/
theorem PortSt.eq_of_wire {x y : PortSt} (h : x.wire = y.wire) : x = { y with rxPkts := x.rxPkts, outq := x.outq } :=
  congrArg (fun z : PortSt => { z with rxPkts := x.rxPkts, outq := x.outq }) h

/-- A change of a port's packets leaves every port's other parts alone. -/
theorem State.wire_port_setPort {f : PortSt → PortSt} (hf : ∀ x, (f x).wire = x.wire) (s : State) (p q : Nat) :
    ((s.setPort p f).port q).wire = (s.port q).wire := by
  by_cases hq : q = p
  · subst hq
    by_cases hlt : q < s.fab.ports.length
    · rw [State.port_setPort_self hlt, hf]
    · have hlen : s.fab.ports.length ≤ q := not_lt.mp hlt
      simp only [State.port, State.setPort_fab, List.getD_eq_default, length_lmod, hlen]
  · rw [State.port_setPort_ne hq]

theorem State.wire_port_emit {s t : State} {k : Packet} {resp board : Bool} (h : s.emit k resp board = some t) (q : Nat) :
    (t.port q).wire = (s.port q).wire := by
  obtain ⟨hop, -, rfl⟩ := Option.map_eq_some_iff.mp h
  exact State.wire_port_setPort (by intro x; rfl) ..

theorem State.wire_port_gotPkt (s : State) (p : Nat) (b : List Byte) (q : Nat) :
    ((s.gotPkt p b).port q).wire = (s.port q).wire := by
  unfold State.gotPkt
  dsimp only
  split
  · rfl
  · split
    · exact State.wire_port_setPort (by intro x; rfl) ..
    · split
      · cases h : s.emit (pktOf b) true false with
        | none => rfl
        | some t => exact State.wire_port_emit h q
      · split
        · exact State.wire_port_setPort (by intro x; rfl) ..
        · rfl

theorem State.wire_port_foldl_gotPkt (s : State) (p : Nat) (bs : List (List Byte)) (q : Nat) :
    ((bs.foldl (fun s b => s.gotPkt p b) s).port q).wire = (s.port q).wire := by
  induction bs generalizing s with
  | nil => rfl
  | cons b bs ih => exact (ih _).trans (s.wire_port_gotPkt p b q)

/-! ### Receiving (R213, R214, R216) -/

/-- An accepted flit is the last one received, its slot is owed as a credit, and part of a packet may be left over. -/
theorem State.wire_port_acceptFlit {s : State} {p : Nat} (hp : p < s.fab.ports.length) (vc startOff : Nat) (fseq : BitVec 16)
    (payload : List Byte) :
    ∃ rest, ((s.acceptFlit p vc startOff fseq payload).port p).wire =
      PortSt.wire { s.port p with
        rxLast := fseq, nakSent := false, unacked := (s.port p).unacked + 1, owed := lmod (s.port p).owed vc (· + 1)
        rxRest := rest } :=
  ⟨_, (State.wire_port_foldl_gotPkt ..).trans (congrArg PortSt.wire (State.port_setPort_self hp))⟩

/-- Without a decoded word both are counted as uncorrectable, and a NAK becomes due unless one has been sent. -/
theorem exec_flitReceive_uncorrectable {s : State} {p : Fin 13} {fl : List (BitVec 8)} (hp : s.Sends p)
    (h0 : rsDecode ((List.range 128).map fun i => fl.getD (2 * i) 0) = none)
    (h1 : rsDecode ((List.range 128).map fun i => fl.getD (2 * i + 1) 0) = none) :
    exec (.flitReceive p fl) s = .next (s.setPort p fun x =>
      { x with
        fecCorr := min 0xFFFF x.fecCorr, fecUncorr := min 0xFFFF (x.fecUncorr + 2), errTotal := x.errTotal + 2
        nakDue := x.nakDue || !x.nakSent }) := by
  refine congrArg Host.Outcome.next ?_
  simp only [hp.on, Nat.add_zero, h0, h1, Bool.false_eq_true, if_false, State.setPort_setPort]
  rfl

/-- A port after the error counts of a flit whose words decoded with n corrections. -/
def PortSt.corrected (x : PortSt) (n : Nat) : PortSt :=
  { x with
    fecCorr := satAdd 0xFFFF x.fecCorr n, fecUncorr := satAdd 0xFFFF x.fecUncorr 0, errTotal := x.errTotal + 0 }

/-- A good DATA flit with the next FSEQ: its credits come back and it is accepted. -/
theorem exec_flitReceive_data {s : State} {p : Fin 13} {fl a b m : List (BitVec 8)} {na nb : Nat} (hp : s.Sends p)
    (h0 : rsDecode ((List.range 128).map fun i => fl.getD (2 * i) 0) = some (a, na))
    (h1 : rsDecode ((List.range 128).map fun i => fl.getD (2 * i + 1) 0) = some (b, nb))
    (hm : m = (List.range 240).map (fun i => (if i % 2 = 0 then a else b).getD (i / 2) 0))
    (hcrc : (crc32c (m.take 236)).toNat = fieldAt m 236 4) (htype : bitsOf (fieldAt m 0 8) 2 0 = 1)
    (hack : bitOf (fieldAt m 0 8) 38 = false) (hseq : BitVec.ofNat 16 (bitsOf (fieldAt m 0 8) 21 6) = (s.port p).rxLast + 1) :
    exec (.flitReceive p fl) s =
      .next (((s.setPort p (PortSt.corrected · (na + nb))).setPort p
        (PortSt.refund · (bitsOf (fieldAt m 0 8) 41 39) (bitsOf (fieldAt m 0 8) 51 42))).acceptFlit p
          (bitsOf (fieldAt m 0 8) 5 3) (bitsOf (fieldAt m 0 8) 59 52) ((s.port p).rxLast + 1) ((m.drop 8).take 228)) := by
  refine congrArg Host.Outcome.next ?_
  simp only [hp.on, Nat.add_zero, h0, h1, Bool.false_eq_true, if_false, ← hm, hcrc, bne_self_eq_false, htype, hack,
    hseq, beq_self_eq_true, decide_true, Bool.and_self, if_true, Nat.reduceEqDiff]
  rfl

/-- Settles O41: each flit sent or received by what its command comes to; the packets of an accepted flit leave its port's counters
and credits alone. -/
theorem flits : Obligations.Flits := by
  unfold Obligations.Flits
  refine ⟨?_, ?_, ?_, ?_, ?_⟩
  · intro s p hup hlanes hnak
    exact exec_flitTransmit_nak ⟨hup, hlanes⟩ hnak
  · intro s p q rest f hup hlanes hnak hresend hf
    exact exec_flitTransmit_replay ⟨hup, hlanes⟩ hnak hresend hf
  · intro s p v left hup hlanes hnak hresend hroom hvc hlt
    obtain ⟨f, n, rest, time, hseq, rfl, hexec⟩ := exec_flitTransmit_new ⟨hup, hlanes⟩ hnak hresend hroom hvc
    obtain ⟨line, owed, hport⟩ := State.sendNew_port hlt f n left rest time
    refine ⟨_, f, hexec, hseq, rfl, ?_⟩
    rw [hport]
    exact ⟨rfl, rfl, rfl, rfl, rfl, rfl, rfl⟩
  · intro s p fl hup hlanes h0 h1 _
    exact exec_flitReceive_uncorrectable ⟨hup, hlanes⟩ h0 h1
  · intro s p fl a b m na nb hup hlanes h0 h1 hm hcrc htype hack hseq hlt
    refine ⟨_, exec_flitReceive_data ⟨hup, hlanes⟩ h0 h1 hm hcrc htype hack hseq, ?_⟩
    generalize (bitsOf (fieldAt m 0 8) 41 39) = v, (bitsOf (fieldAt m 0 8) 51 42) = c
    have hlt' : p.val < ((s.setPort p (PortSt.corrected · (na + nb))).setPort p (PortSt.refund · v c)).fab.ports.length := by
      simpa using hlt
    obtain ⟨rest, hwire⟩ := State.wire_port_acceptFlit hlt' (bitsOf (fieldAt m 0 8) 5 3) (bitsOf (fieldAt m 0 8) 59 52)
      ((s.port p).rxLast + 1) ((m.drop 8).take 228)
    have hport : ((s.setPort p (PortSt.corrected · (na + nb))).setPort p (PortSt.refund · v c)).port p =
        ((s.port p).corrected (na + nb)).refund v c := by
      rw [State.setPort_setPort, State.port_setPort_self hlt]; rfl
    rw [PortSt.eq_of_wire hwire, hport]
    exact ⟨rfl, rfl, rfl, rfl, rfl⟩

end Sys2Proof.Machine
end

