-- ==== Sys2Proof/Proofs/RequestsInOrder.lean ====
section
/-! PROOFS. O42: a request in order at its home die (R226, R228), and what it is answered when it is performed (R222, R224). -/

namespace Sys2Proof.Machine

/-- A packet of a request, or of a type that no rule defines, comes over a port that is no boundary port of its slice to its home
die: its order is looked at. -/
theorem exec_packetArrive_home {s t : State} {p : Fin 13} {k : Packet} (ht : t = s.takePkt p (pktBytes k)) (hup : t.isUp p = true)
    (htype : k.ptype.toNat < 5 ∨ 10 < k.ptype.toNat) (hdst : k.dst.toNat = t.ownId)
    (hbnd : ∀ x, t.sliceOf k.slice = some x → bitOf x.2.boundary.toNat p = false)
    (hreset : (t.die (homeDie k.src.toNat)).inReset = false) :
    exec (.packetArrive p k []) s = .next (t.orderReq p k) := by
  refine congrArg Host.Outcome.next ?_
  have htype' : (decide (5 ≤ k.ptype.toNat) && decide (k.ptype.toNat ≤ 10)) = false := by
    simp only [Bool.and_eq_false_iff, decide_eq_false_iff_not]
    omega
  simp only [← ht, hup, htype', hdst, hreset, Bool.not_true, Bool.or_self, beq_self_eq_true, Bool.false_eq_true, if_false, if_true]
  cases hslice : t.sliceOf k.slice with
  | none => rfl
  | some x => simp only [hbnd x hslice, Bool.false_eq_true, if_false]; rfl

/-- The request whose SEQ is the next one of a flow is delivered (R226). -/
theorem State.orderReq_next {s : State} {p : Nat} {k : Packet} (hpeer : (s.fab.peers.lookup k.src.toNat).isSome = true)
    (hseq : (s.rxFlow k.src.toNat k.cls.toNat).e = some k.seq) :
    s.orderReq p k = (s.setRx k.src.toNat k.cls.toNat id).deliverReq p k := by
  have hpeer' : (s.fab.peers.lookup k.src.toNat).isNone = false := by rw [← Option.not_isSome, hpeer]; rfl
  simp only [State.orderReq, hpeer', Bool.false_and, Bool.false_eq_true, if_false, hseq, BitVec.sub_self, BitVec.toNat_zero,
    if_true]

/-- So is the one that waited for it (R226 step 4). -/
theorem exec_reorderedRequestDeliver {s : State} {m : BitVec 15} {c : Fin 4} {p : Nat} {k : Packet}
    (hreset : (s.die (homeDie m.toNat)).inReset = false)
    (hk : (s.rxFlow m.toNat c).waiting.find? (fun w => some w.2.seq == (s.rxFlow m.toNat c).e) = some (p, k)) :
    exec (.reorderedRequestDeliver m c []) s = .next ((s.setRx m.toNat c fun f =>
      { f with waiting := f.waiting.filter fun w => w.2.seq != k.seq }).deliverReq p k) := by
  refine congrArg Host.Outcome.next ?_
  simp only [hreset, hk, Bool.false_eq_true, if_false]
  rfl

/-- Every request that is performed is answered with status 0. -/
theorem State.performReq_st (s : State) (k : Packet) : (s.performReq k).2.st = 0 := by
  unfold State.performReq
  dsimp only
  split <;> rfl

/-- A request that passes checks 4 to 10 is performed, cached and answered. -/
theorem State.deliverReq_passes {s : State} {p : Nat} {k : Packet} (h : s.reqChecks p k = (0, s)) :
    s.deliverReq p k = (((s.performReq k).1.setRx k.src.toNat k.cls.toNat fun f =>
      { f with
        e := some (k.seq + 1)
        cache := (((k.seq, 0, (s.performReq k).2.operand) :: f.cache).take 64) }).reply p k (s.performReq k).2) := by
  simp only [State.deliverReq, h, Nat.reduceEqDiff, OfNat.zero_ne_ofNat, decide_false, Bool.or_self, Bool.false_eq_true, if_false,
    if_true, State.performReq_st]
  rfl

/-- Settles O42: what a performed request does is `performReq` at its PTYPE. -/
theorem requestsInOrder : Obligations.RequestsInOrder := by
  unfold Obligations.RequestsInOrder
  refine ⟨?_, ?_, ?_, ?_, ?_, ?_⟩
  · intro s t p k ht hup htype hdst hbnd hreset hpeer hseq
    rw [exec_packetArrive_home ht hup htype hdst hbnd hreset, State.orderReq_next hpeer hseq]
  · intro s m c p k hreset hk
    exact exec_reorderedRequestDeliver hreset hk
  · intro s p k h
    exact State.deliverReq_passes h
  · intro s k hk
    simp only [State.performReq, hk]
    rfl
  · intro s k hk
    simp only [State.performReq, hk]
    exact ⟨rfl, rfl⟩
  · intro s k hk
    simp only [State.performReq, hk]
    rfl

end Sys2Proof.Machine
end

