-- ==== Sys2Proof/Proofs/LinkCommands.lean ====
section
/-! PROOFS. O6: the commands of links and routes (R217, R242, R332, R335, R503). First what each command's own part answers, then that it
is heard. -/

namespace Sys2Proof.Machine

/-- The words of LinkEnable name a unit and a state. -/
theorem dLinkEnable_bad {a : List Nat} (hu : arg a 0 < 24) (hon : arg a 1 < 2) (s : State) : dLinkEnable.bad s a = none :=
  badWord_none (by simp [hu, hon])

/-- A unit that the module has: a port of every module, a unit without a port, or one that goes with the optical engines. -/
theorem dLinkEnable_present {s : State} {a : List Nat} (h : arg a 0 < 9 ∨ 13 ≤ arg a 0 ∧ arg a 0 < 16 ∨ s.hasOptics = true) :
    dLinkEnable.present s a = true := by
  simpa [dLinkEnable, or_assoc] using h

/-- A permitted unit is enabled, and its ports train. -/
theorem dLinkEnable_body_on {s : State} {a : List Nat} (hpermit : s.ctd.clamp.linkPermit.getLsbD (arg a 0) = true)
    (hon : arg a 1 = 1) (w : Who) :
    dLinkEnable.body s w a =
      { s := (s.unitPorts (arg a 0)).foldl (fun s p => s.train p)
          { s with fab := { s.fab with unitsOn := s.fab.unitsOn ||| BitVec.ofNat 24 (2 ^ arg a 0) } } } := by
  simp only [dLinkEnable, hpermit, hon, Bool.not_true, Bool.false_eq_true, if_false, if_true]

/-- A unit disabled: its ports are DOWN. -/
def State.unitOff (s : State) (u : Nat) : State :=
  (s.unitPorts u).foldl (fun s p => (s.linkDown p 1).portSettled p)
    { s with fab := { s.fab with unitsOn := s.fab.unitsOn &&& ~~~BitVec.ofNat 24 (2 ^ u) } }

/-- A permitted unit that is no cellar port is disabled. -/
theorem dLinkEnable_body_off {s : State} {a : List Nat} (hpermit : s.ctd.clamp.linkPermit.getLsbD (arg a 0) = true)
    (hoff : arg a 1 = 0) (h14 : arg a 0 ≠ 14) (h15 : arg a 0 ≠ 15) (w : Who) :
    dLinkEnable.body s w a = { s := s.unitOff (arg a 0) } := by
  simp only [dLinkEnable, hpermit, hoff, h14, h15, Bool.not_true, decide_false, Bool.or_self, Bool.false_eq_true, Nat.zero_ne_one,
    if_false]
  rfl

/-- A cellar port that is disabled loses its controller. -/
theorem dLinkEnable_body_cellarOff {s : State} {a : List Nat} {p : Nat} (hu : arg a 0 = 14 + p) (hp : p < 2)
    (hpermit : s.ctd.clamp.linkPermit.getLsbD (14 + p) = true) (hoff : arg a 1 = 0) (w : Who) :
    dLinkEnable.body s w a =
      { s := ((s.unitOff (14 + p)).cellarLost p).setCellar p fun x => { x with present := false } } := by
  have hcellar : (decide (14 + p = 14) || decide (14 + p = 15)) = true := by
    simp only [Bool.or_eq_true, decide_eq_true_eq]
    omega
  simp only [dLinkEnable, hu, hpermit, hoff, hcellar, Nat.add_sub_cancel_left, Bool.not_true, Bool.false_eq_true, Nat.zero_ne_one,
    if_false, if_true]
  rfl

/-- A port code below 9, or any with optical engines, is present. -/
theorem State.portPresent_of {s : State} {p : Nat} (h : p < 9 ∨ s.hasOptics = true) : s.portPresent p = true := by
  simpa [State.portPresent] using h

/-- A port that is not DOWN retrains, and the command waits. -/
theorem dLinkRetrain_body {s : State} {a : List Nat} (hst : (s.port (arg a 0)).st ≠ .down) (w : Who) :
    dLinkRetrain.body s w a =
      { s := (s.startRetrain (arg a 0) 2).setPort (arg a 0) fun x => { x with waiters := x.waiters ++ [w] }
        status := dPending } := by
  simp only [dLinkRetrain, hst, decide_false, Bool.false_and, Bool.false_eq_true, if_false]

/-- A verified token for a quarantined port: it takes the role from the port that had it, and retrains. -/
theorem dLinkRemap_body {s : State} {a : List Nat} {t : List Byte} {p role : Nat} (ht : t = argBytes a 0 102)
    (hp : p = fieldAt t 8 1) (hrole : role = fieldAt t 9 1) (hlt : p < 13)
    (hkey : s.ctd.clamp.opKey.all (· == 0) = false)
    (hsig : Config.rsaVerify s.ctd.clamp.opKey (t.take 24) (t.drop 24) = true)
    (hst : (s.port p).st = .quarantine) (hrow : (s.port p).row = 2) (hmod : fieldAt t 0 8 = s.fuse.serial.toNat)
    (hser : (s.port p).serial = BitVec.ofNat 64 (fieldAt t 12 8)) (hcoord : (s.port p).coord.toNat = fieldAt t 10 2)
    (hzero : fieldAt t 20 4 = 0) (hvalid : s.validRole role (fieldAt t 10 2) = true)
    (hfree : (List.range 13).any (fun q => q != p && (s.port q).role == role && s.isUp q) = false) (w : Who) :
    dLinkRemap.body s w a =
      { s := ((((List.range 13).filter fun q => q != p && (s.port q).role == role && !(s.port q).taken).foldl
            (fun s q => ((s.linkDown q 2).portSettled q).setPort q fun x => { x with taken := true }) s).setPort p fun x =>
          { x with
            role := role, remapped := true, remapPeer := some (BitVec.ofNat 64 (fieldAt t 12 8)), remapNew := true
            taken := false }).rebound.startRetrain p 2 } := by
  subst hp hrole
  simp only [dLinkRemap, ← ht, hkey, hsig, Nat.not_le.mpr hlt, hst, hrow, hmod, hser, hcoord, hzero, hvalid, hfree, Bool.not_true,
    bne_self_eq_false, beq_self_eq_true, Bool.true_or, Bool.and_self, Bool.or_self, Bool.false_eq_true, if_false, if_true]

/-- Settles O6: each command is heard and has the effect of its own part. -/
theorem linkCommands : Obligations.LinkCommands := by
  unfold Obligations.LinkCommands
  refine ⟨?_, ?_, ?_, ?_, ?_, ?_, ?_, ?_⟩
  · intro r s h hl hu hon hhas hpermit
    exact congrArg _ (runDarid_body (d := dLinkEnable) h (fun _ => rfl) (by simp [dLinkEnable, hl])
      (dLinkEnable_bad hu (hon.trans_lt (by decide)) s) (dLinkEnable_present hhas) (dLinkEnable_body_on hpermit hon _))
  · intro r s h hl hu hoff h14 h15 hhas hpermit
    have hhas' : argOf r 0 < 9 ∨ 13 ≤ argOf r 0 ∧ argOf r 0 < 16 ∨ s.hasOptics = true :=
      hhas.imp_right (Or.imp_left fun h13 => ⟨h13.ge, h13.trans_lt (by decide)⟩)
    exact congrArg _ (runDarid_body (d := dLinkEnable) h (fun _ => rfl) (by simp [dLinkEnable, hl])
      (dLinkEnable_bad hu (hoff.trans_lt (by decide)) s) (dLinkEnable_present hhas')
      (dLinkEnable_body_off hpermit hoff h14 h15 _))
  · rintro r s u p h hl hu hp hoff hpermit rfl
    have hunit : 13 ≤ argOf r 0 ∧ argOf r 0 < 16 := by omega
    exact congrArg _ (runDarid_body (d := dLinkEnable) h (fun _ => rfl) (by simp [dLinkEnable, hl])
      (dLinkEnable_bad (hunit.2.trans (by decide)) (hoff.trans_lt (by decide)) s) (dLinkEnable_present (.inr (.inl hunit)))
      (dLinkEnable_body_cellarOff hu hp hpermit hoff _))
  · intro r s h hl hp hhas hst
    exact congrArg _ ((runDarid_unitArg (d := dLinkRetrain) h rfl rfl rfl hl hp (State.portPresent_of hhas)).trans
      (congrArg _ (dLinkRetrain_body hst _)))
  · intro r s t p role h hl ht hp hrole hlt hhas hkey hsig hst hrow hmod hser hcoord hzero hvalid hfree
    have hpresent : dLinkRemap.present s (DReq.nums r) = true := by
      simp only [dLinkRemap, ← ht, ← hp, State.portPresent_of hhas, Bool.or_true]
    exact ⟨_, rfl, congrArg _ (runDarid_body (d := dLinkRemap) h (fun _ => rfl) (by simp [dLinkRemap, hl]) rfl hpresent
      (dLinkRemap_body ht hp hrole hlt hkey hsig hst hrow hmod hser hcoord hzero hvalid hfree _))⟩
  · intro r s h hl hp hhas
    exact congrArg _ (runDarid_unitArg (d := dLinkQuery) h rfl rfl rfl hl hp (State.portPresent_of hhas))
  · intro r s h hl h0 h1
    exact congrArg _ (runDarid_heard (d := dRouteConfig) h (fun _ => rfl) (by simp [dRouteConfig, hl])
      (badWord_none (by simpa [h0] using h1)) rfl)
  · intro r s h hl hn hopt
    exact congrArg _ (runDarid_heard (d := dCircuitRouteSet) h (fun _ => rfl) (by simp [dCircuitRouteSet, hl])
      (badWord_none (by simpa using hn)) hopt)

end Sys2Proof.Machine
end

