-- ==== Sys2Proof/Proofs/SliceCommands.lean ====
section
/-! PROOFS. O7: the commands of slices and convoys (R231, R249 to R254, R273). First what each command's own part answers, then that it
is heard. -/

namespace Sys2Proof.Machine

/-- A CTD that hears commands is not in ROM recovery. -/
theorem State.inRom_of_heard {s : State} {op : Nat} {ks : List Sender} {r : DReq} (h : s.heard op ks r = true) :
    s.inRom r.ctd.val = false := by
  simp only [State.heard, State.ready, Bool.and_eq_true, Bool.not_eq_true'] at h
  obtain ⟨⟨⟨⟨-, hrom⟩, -⟩, -⟩, -⟩ := h
  exact hrom

/-- An empty entry and an ID that no entry has: SliceSet fills the entry. -/
theorem dSliceSet_body {s : State} {a : List Nat} {e : Nat} {x : SliceEnt} (he : e = bitsOf (arg a 0) 15 12)
    (hgeom : s.geomOk (geomArg (arg a 1)) = true) (hfree : s.fab.slices.lookup e = none)
    (hid : s.sliceOf (BitVec.ofNat 12 (arg a 0)) = none)
    (hx : x = { s.sliceRegs e with
          id := BitVec.ofNat 12 (arg a 0), wrap := s.wrapOf (geomArg (arg a 1))
          epoch := BitVec.ofNat 16 (bitsOf (arg a 0) 31 16), boundary := s.boundaryOf (geomArg (arg a 1)) (arg a 2)
          geom := geomArg (arg a 1), circuits := BitVec.ofNat 4 (arg a 2) })
    {w : Who} (hrom : s.inRom w.ctd = false) :
    dSliceSet.body s w a = { s := (s.setSlice e x).logSlice e 0 x } := by
  subst hx he
  simp only [dSliceSet, hgeom, hfree, hid, hrom, Bool.not_true, Option.isSome_none, Bool.false_and, Bool.or_self,
    Bool.false_eq_true, if_false]

/-- A newer epoch: entry, bound contexts and convoys move together. -/
theorem dSliceEpoch_body {s : State} {a : List Nat} {x : SliceEnt} (hx : s.fab.slices.lookup (arg a 0) = some x)
    (hnew : newerEpoch (BitVec.ofNat 16 (arg a 1)) x.epoch = true) (w : Who) :
    dSliceEpoch.body s w a =
      { s := ((((s.boundTo (arg a 0)).foldl (fun s c => s.setCtx c fun v => { v with epoch := BitVec.ofNat 16 (arg a 1) })
            (s.setSlice (arg a 0) { x with epoch := BitVec.ofNat 16 (arg a 1) })).epochConvoys x.id).logSlice (arg a 0)
              x.epoch.toNat { x with epoch := BitVec.ofNat 16 (arg a 1) }) } := by
  simp only [dSliceEpoch, hx, hnew, Bool.not_true, Bool.false_eq_true, if_false]

/-- A window of a VALID entry is stored in it. -/
theorem dSliceWindow_body {s : State} {a : List Nat} {x : SliceEnt} (hx : s.fab.slices.lookup (arg a 0 % 16) = some x) (w : Who) :
    dSliceWindow.body s w a =
      { s := s.setSlice (arg a 0 % 16) (x.setWin (bitsOf (arg a 0) 7 4) (arg a 1, arg a 2) (bitOf (arg a 0) 8)) } := by
  simp only [dSliceWindow, State.setSliceWin, State.sliceRegs, hx, Option.isNone_some, Option.isSome_some, Option.getD_some,
    Bool.false_eq_true, if_false, if_true]

/-- An entry that no context is bound to is freed. -/
theorem dSliceRelease_body {s : State} {a : List Nat} {x : SliceEnt} (hx : s.fab.slices.lookup (arg a 0) = some x)
    (hbound : s.boundTo (arg a 0) = []) (w : Who) :
    dSliceRelease.body s w a =
      { s := (s.dropSlice (arg a 0) x).logFw 0x0302 3 [arg a 0, x.id.toNat, x.epoch.toNat] } := by
  simp only [dSliceRelease, hx, hbound, List.isEmpty_nil, Bool.not_true, Bool.false_eq_true, if_false]

/-- A context without a started descriptor is bound to an entry and takes its epoch. -/
theorem dContextBindSlice_body {s : State} {a : List Nat} {x : SliceEnt} (hst : (s.ctx (arg a 0)).st ≠ .free)
    (hx : s.fab.slices.lookup (arg a 1) = some x)
    (hidle : s.eng.queues.any (fun e => e.1 / 64 == arg a 0 && !e.2.started.isEmpty) = false) (w : Who) :
    dContextBindSlice.body s w a =
      { s := s.setCtx (arg a 0) fun v => { v with slice := some (arg a 1), epoch := x.epoch } } := by
  simp only [dContextBindSlice, hst, hx, hidle, Option.isNone_some, Bool.and_false, Bool.false_eq_true, if_false]

/-- An ACTIVE convoy is aborted with cause COMMAND. -/
theorem dConvoyAbort_body {s : State} {a : List Nat} {cv : Convoy} (hcv : s.convoy? (convoyArg a) = some cv)
    (hst : cv.st = .active) (w : Who) :
    dConvoyAbort.body s w a = { s := s.startAbort (convoyArg a) 0 none, words := [0] } := by
  simp only [dConvoyAbort, hcv, hst]

/-- Settles O7: each command is heard and has the effect of its own part. -/
theorem sliceCommands : Obligations.SliceCommands := by
  unfold Obligations.SliceCommands
  refine ⟨?_, ?_, ?_, ?_, ?_, ?_⟩
  · intro r s e x h hl hid0 h1 h2 hopt he hgeom hfree hid hx
    exact congrArg _ (runDarid_body (d := dSliceSet) h (fun _ => rfl) (by simp [dSliceSet, hl])
      (badWord_none (by simpa [hid0, h2] using h1)) (by simpa [dSliceSet] using hopt)
      (dSliceSet_body he hgeom hfree hid hx (State.inRom_of_heard h)))
  · rintro r s x new h hl he h1 hx rfl hnew
    exact congrArg _ (runDarid_body (d := dSliceEpoch) h (fun _ => rfl) (by simp [dSliceEpoch, hl])
      (badWord_none (by simpa [he] using h1)) rfl (dSliceEpoch_body hx hnew _))
  · intro r s x h hl h0 h1 h2 hx
    exact congrArg _ (runDarid_body (d := dSliceWindow) h (fun _ => rfl) (by simp [dSliceWindow, hl])
      (badWord_none (by simpa using ⟨h0, h1, h2⟩)) rfl (dSliceWindow_body hx _))
  · intro r s x h hl he hx hbound
    exact congrArg _ (runDarid_body (d := dSliceRelease) h (fun _ => rfl) (by simp [dSliceRelease, hl])
      (badWord_none (by simpa using he)) rfl (dSliceRelease_body hx hbound _))
  · intro r s x h hl hc he hst hx hidle
    exact congrArg _ (runDarid_body (d := dContextBindSlice) h (fun _ => rfl) (by simp [dContextBindSlice, hl])
      (badWord_none (by simp [ctxWord, hc, he])) rfl (dContextBindSlice_body hst hx hidle _))
  · intro r s cv h hl h0 h1 h2 hown hcv hst
    exact congrArg _ (runDarid_body (d := dConvoyAbort) h hown (by simp [dConvoyAbort, hl])
      (badWord_none (by simpa using ⟨h0, h1, h2⟩)) rfl (dConvoyAbort_body hcv hst _))

end Sys2Proof.Machine
end

