-- ==== Sys2Proof/Proofs/LinkTraining.lean ====
section
/-! PROOFS. O40: training, identity exchange and retrain of a port (R210, R215, R217, R238 to R241). -/

namespace Sys2Proof.Machine

/-! ### Lanes (R210, R217) -/

/-- A port that is UP goes into RETRAINING. -/
theorem State.startRetrain_up {s : State} {p : Nat} (hup : (s.port p).st = .up) (cause : Nat) :
    s.startRetrain p cause = s.setPort p fun x =>
      { x with
        st := .retraining, cause := cause, startedAt := s.time.mono, attempts := 0, exchanged := false, gotIdent := false
        lockAt := none, before := some x.serial, retrains := min 0xFFFF (x.retrains + 1) } := by
  simp only [State.startRetrain, hup, decide_true, Bool.true_or, if_true]
  rfl

theorem exec_laneLock_all {s : State} {p : Fin 13} (hst : (s.port p).st = .training) (hlanes : (s.port p).lanes = 0) :
    exec (.laneLock p 0) s = .next (s.setPort p fun x =>
      { x with lanes := 16, failed := 0, lockAt := some s.time.mono, exchanged := false }) := by
  refine congrArg Host.Outcome.next ?_
  have hn : lanesOf 0 = 16 := rfl
  have hretrain : ((s.port p).st == .retraining && (s.port p).lockAt.isNone && !(s.port p).gotIdent) = false := by rw [hst]; rfl
  have htrain : ((s.port p).st != .training || (s.port p).lanes != 0) = false := by rw [hst, hlanes]; rfl
  simp only [hretrain, htrain, hn, Nat.reduceEqDiff, Bool.false_eq_true, if_false]

/-! ### The identity exchange (R238 to R241) -/

/-- What an IDENT says of the peer, recorded. -/
def PortSt.withIdent (x : PortSt) (i : Ident) : PortSt :=
  { x with
    coord := i.coord, peerPort := i.port.setWidth 4, revMax := i.revMax, revMin := i.revMin, fw := i.fwRelease
    serial := i.serial, lockAt := none, gotIdent := true }

/-- A port in training with its lanes, whose exchange goes on. -/
structure State.Exchanges (s : State) (p : Nat) : Prop where
  training : (s.port p).st = .training
  lanes : (s.port p).lanes ≠ 0
  open_ : (s.port p).exchanged = false

theorem State.Exchanges.listens {s : State} {p : Nat} (h : s.Exchanges p) :
    (!((s.port p).st == .training && (s.port p).lanes != 0 || (s.port p).st == .retraining) || (s.port p).exchanged) = false := by
  rw [h.training, bne_iff_ne.mpr h.lanes, h.open_]; rfl

theorem exec_identReceive_notAcked {s : State} {p : Fin 13} {i : Ident} (hp : s.Exchanges p) (hack : i.acked = false) :
    exec (.identReceive p i) s = .next (s.setPort p (PortSt.withIdent · i)) := by
  refine congrArg Host.Outcome.next ?_
  simp only [hp.listens, hack, Bool.not_false, Bool.false_eq_true, if_false, if_true]
  rfl

/-- The peer has acknowledged this end's IDENT: the port takes the state of its row. -/
theorem exec_identReceive_acked {s : State} {p : Fin 13} {i : Ident} (hp : s.Exchanges p) (hack : i.acked = true) :
    exec (.identReceive p i) s = .next (((((s.setPort p fun x =>
      { x.withIdent i with exchanged := true, row := s.identRow p i }).applyRow p true).logRemap p)).portSettled p) := by
  refine congrArg Host.Outcome.next ?_
  have hretrain : decide ((s.port p).st = .retraining) = false := by rw [hp.training]; rfl
  simp only [hp.listens, hretrain, hack, Bool.false_and, Bool.not_true, Bool.false_eq_true, if_false, State.setPort_setPort]
  exact if_pos hp.training

/-- Row 5 brings the port UP with the agreed revision, and a link that comes up anew is logged. -/
theorem State.applyRow_up {s : State} {p r : Nat} (hrow : (s.port p).row = 5)
    (hrev : agreedRev (s.port p).revMin.toNat (s.port p).revMax.toNat = some r) (news : Bool) :
    s.applyRow p news =
      if news then (s.setPort p fun x => { x with st := .up, rev := r, attempts := 0 }).log 0x1001 2 (srcPort p)
        [p, r, (s.port p).lanes, (s.port p).coord.toNat]
      else s.setPort p fun x => { x with st := .up, rev := r, attempts := 0 } := by
  simp only [State.applyRow, hrow, hrev, Option.getD_some]

theorem State.logRemap_none {s : State} {p : Nat} (h : (s.port p).remapNew = false) : s.logRemap p = s := by
  simp only [State.logRemap, h, Bool.false_and, Bool.false_eq_true, if_false]

/-- An acknowledged IDENT of row 5 brings a port without a new remap UP. -/
theorem exec_identReceive_up {s : State} {p : Fin 13} {i : Ident} {r : Nat} (hp : s.Exchanges p) (hack : i.acked = true)
    (hrow : s.identRow p i = 5) (hagreed : agreedRev i.revMin.toNat i.revMax.toNat = some r)
    (hremap : (s.port p).remapNew = false) (hlt : p.val < s.fab.ports.length) :
    exec (.identReceive p i) s = .next (((s.setPort p fun x =>
      { x.withIdent i with exchanged := true, row := 5, st := .up, rev := r, attempts := 0 }).log 0x1001 2
        (srcPort p) [p.val, r, (s.port p).lanes, i.coord.toNat]).portSettled p) := by
  have hport : ∀ f, (s.setPort p f).port p = f (s.port p) := fun f => State.port_setPort_self hlt
  rw [exec_identReceive_acked hp hack, hrow, State.applyRow_up (r := r) (by rw [hport]) (by rw [hport]; exact hagreed),
    if_pos rfl, State.setPort_setPort, State.logRemap_none (by rw [State.log_port, hport]; exact hremap), hport]
  rfl

/-- The first and the second attempt that fails in succession starts the retrain again. -/
theorem State.attemptFails_again {s : State} {p : Nat} (h : (s.port p).attempts < 2) :
    s.attemptFails p = (s.logRetrain p).setPort p fun x =>
      { x with
        st := .retraining, attempts := (s.port p).attempts + 1, startedAt := s.time.mono, exchanged := false
        gotIdent := false, lockAt := none, retrains := min 0xFFFF (x.retrains + 1) } := by
  have hagain : ¬3 ≤ (s.port p).attempts + 1 := by omega
  simp only [State.attemptFails, hagain, if_false, State.log_time]
  rfl

theorem exec_identTimeout {s : State} {p : Fin 13} {t : Nat} (hlock : (s.port p).lockAt = some t)
    (hdue : t + 10000000 ≤ s.time.mono) (hopen : (s.port p).exchanged = false) :
    exec (.identTimeout p) s = .next (s.attemptFails p) := by
  refine congrArg Host.Outcome.next ?_
  simp only [hlock, hdue, hopen, decide_true, Bool.not_false, Bool.and_self, if_true]

/-! ### The end of a retrain and replay (R215, R217) -/

/-- Nothing is acknowledged that was not before. -/
theorem State.takeAck_self {s : State} {p : Nat} {ack : BitVec 16} (h : ack = (s.port p).txAcked) : s.takeAck p ack = s := by
  simp [State.takeAck, h]

@[simp] theorem State.logRetrain_port (s : State) (p q : Nat) : (s.logRetrain p).port q = s.port q := State.log_port ..

/-- A port whose retrain has ended with all its lanes. -/
def PortSt.relocked (x : PortSt) : PortSt := { x with lanes := 16, failed := 0, before := none }

/-- All that a port has not seen acknowledged is to be replayed. -/
def State.replayAll (s : State) (p : Nat) : State :=
  s.setPort p fun x => { x with resend := x.replay.map (·.fseq), progress := s.time.mono }

/-- A retrain that ends with all lanes and an exchange: what the peer accepted is acknowledged, the port takes the state of its row,
and the rest is replayed. -/
theorem exec_wgRetrain_all {s : State} {p : Fin 13} (hst : (s.port p).st = .retraining) (hex : (s.port p).exchanged = true)
    (ack : BitVec 16) :
    exec (.wgRetrain p 0 ack) s = .next (((((((s.logRetrain p).setPort p PortSt.relocked).takeAck p ack).applyRow p
      ((s.port p).rev == 0)).replayAll p).logRemap p).portSettled p) := by
  refine congrArg Host.Outcome.next ?_
  have hn : lanesOf 0 = 16 := rfl
  have hretrain : ((s.port p).st != .retraining) = false := by rw [hst]; rfl
  simp only [hretrain, hex, hn, Nat.reduceEqDiff, decide_false, Bool.not_true, Bool.or_self, Bool.false_eq_true, if_false]
  rfl

/-- With an exchange of row 5 it is UP again. -/
theorem exec_wgRetrain_up {s : State} {p : Fin 13} {r : Nat} (hst : (s.port p).st = .retraining)
    (hex : (s.port p).exchanged = true) (hrow : (s.port p).row = 5) (hrev : (s.port p).rev ≠ 0)
    (hremap : (s.port p).remapNew = false)
    (hagreed : agreedRev (s.port p).revMin.toNat (s.port p).revMax.toNat = some r) (hlt : p.val < s.fab.ports.length) :
    exec (.wgRetrain p 0 (s.port p).txAcked) s = .next (((s.logRetrain p).setPort p fun x =>
      { x with
        lanes := 16, failed := 0, before := none, st := .up, rev := r, attempts := 0, resend := x.replay.map (·.fseq)
        progress := s.time.mono }).portSettled p) := by
  have hport : ∀ f, ((s.logRetrain p).setPort p f).port p = f (s.port p) := fun f =>
    (State.port_setPort_self (by simpa [State.logRetrain] using hlt)).trans (congrArg f (s.logRetrain_port p p))
  have hnews : ((s.port p).rev == 0) = false := beq_false_of_ne hrev
  have hnow : (s.logRetrain p).time.mono = s.time.mono := congrArg (·.mono) (State.log_time ..)
  rw [exec_wgRetrain_all hst hex, State.takeAck_self (by rw [hport]; rfl), hnews,
    State.applyRow_up (r := r) (by rw [hport]; exact hrow) (by rw [hport]; exact hagreed), if_neg Bool.false_ne_true,
    State.replayAll, State.setPort_setPort, State.setPort_setPort, State.logRemap_none (by rw [hport]; exact hremap)]
  simp only [State.setPort_time, hnow]
  rfl

/-- A retrain leaves the replay buffer and what is to be replayed alone. -/
theorem State.startRetrain_replay {s : State} {p : Nat} (hlt : p < s.fab.ports.length) (cause : Nat) :
    ((s.startRetrain p cause).port p).resend = (s.port p).resend ∧ ((s.startRetrain p cause).port p).replay = (s.port p).replay ∧
      ((s.startRetrain p cause).port p).replays = (s.port p).replays ∧ (s.startRetrain p cause).mem = s.mem := by
  unfold State.startRetrain
  dsimp only
  split
  · rw [State.port_setPort_self hlt]
    exact ⟨rfl, rfl, rfl, rfl⟩
  · exact ⟨rfl, rfl, rfl, rfl⟩

/-- Every flit of the replay buffer is to be replayed, and the replay is counted, whether or not it starts a retrain. -/
theorem State.replayFrom_replay {s : State} {p : Nat} (hlt : p < s.fab.ports.length) :
    ((s.replayFrom p).port p).resend = (s.port p).replay.map (·.fseq) ∧ ((s.replayFrom p).port p).replay = (s.port p).replay ∧
      ((s.replayFrom p).port p).replays = min 0xFFFF ((s.port p).replays + 1) ∧ (s.replayFrom p).mem = s.mem := by
  unfold State.replayFrom
  dsimp only
  split
  · obtain ⟨hresend, hreplay, hreplays, hmem⟩ := State.startRetrain_replay (s := State.countEv (s.setPort p _) _ _ _ _ _) (p := p)
      (by simpa using hlt) 1
    rw [hresend, hreplay, hreplays, hmem, State.countEv_port, State.port_setPort_self hlt]
    exact ⟨rfl, rfl, rfl, rfl⟩
  · rw [State.countEv_port, State.port_setPort_self hlt]
    exact ⟨rfl, rfl, rfl, rfl⟩

theorem exec_replayTimeout {s : State} {p : Fin 13} (hup : (s.port p).st = .up) (hreplay : (s.port p).replay ≠ [])
    (hdue : (s.port p).progress + 50000 ≤ s.time.mono) : exec (.replayTimeout p) s = .next (s.replayFrom p) := by
  refine congrArg Host.Outcome.next ?_
  have hlimit : (s.port p).progress + (if s.portLevel p = 4 then 50000 else 10000) ≤ s.time.mono := by
    split <;> omega
  simp [hup, hreplay, hlimit]

/-- Settles O40: what each command does to its port, by the port's state and the row of its exchange. -/
theorem linkTraining : Obligations.LinkTraining := by
  unfold Obligations.LinkTraining
  refine ⟨?_, ?_, ?_, ?_, ?_, ?_, ?_⟩
  · intro s p hup
    exact congrArg Host.Outcome.next (State.startRetrain_up hup 0)
  · intro s p hst hlanes
    exact exec_laneLock_all hst hlanes
  · intro s p i hst hlanes hopen hack
    exact exec_identReceive_notAcked ⟨hst, hlanes, hopen⟩ hack
  · intro s p i r hst hlanes hopen hack hrow hagreed hremap hlt
    exact exec_identReceive_up ⟨hst, hlanes, hopen⟩ hack hrow hagreed hremap hlt
  · intro s p t hlock hdue hopen hattempts
    rw [exec_identTimeout hlock hdue hopen, State.attemptFails_again hattempts]
    rfl
  · intro s p r hst hex hrow hrev hremap hagreed hlt
    exact exec_wgRetrain_up hst hex hrow hrev hremap hagreed hlt
  · intro s p hup hreplay hdue hlt
    obtain ⟨hresend, hbuffer, hreplays, hmem⟩ := State.replayFrom_replay hlt
    exact ⟨_, exec_replayTimeout hup hreplay hdue, hresend, hbuffer, hreplays, hmem⟩

end Sys2Proof.Machine
end

