-- ==== Sys2Proof/Proofs/IssuerAndPeers.lean ====
section
/-! PROOFS. O43: answers and timers at the issuer (R224, R226, R230), and the release of a peer-state entry (R227). -/

namespace Sys2Proof.Machine

/-! ### Answers (R224, R230) -/

/-- Taking a packet out of every port's input leaves the module's ID alone. -/
theorem State.ownId_foldl_takePkt (l : List Nat) (b : List Byte) (s : State) :
    (l.foldl (fun s p => s.takePkt p b) s).ownId = s.ownId := by
  induction l generalizing s with
  | nil => rfl
  | cons p l ih => exact ih (s.takePkt p b)

/-- An answer to an unanswered request, taken out of the ports' inputs: the state it finds. -/
structure State.Answers (s t : State) (k : Packet) (r : FReq) : Prop where
  taken : t = (List.range 13).foldl (fun s p => s.takePkt p (pktBytes k)) s
  resp : k.ptype = 5
  mine : k.dst.toNat = s.ownId
  una : t.una? k.src.toNat k.cls.toNat k.seq = some r

/-- Such a packet is an answer to this module. -/
theorem State.Answers.forUs {s t : State} {k : Packet} {r : FReq} (h : s.Answers t k r) :
    (k.ptype != 5 || k.dst.toNat != t.ownId) = false := by
  rw [h.resp, h.taken, State.ownId_foldl_takePkt, h.mine, bne_self_eq_false, bne_self_eq_false, Bool.or_self]

/-- Status 0 settles the request and takes it off its flow, which moves on. -/
theorem exec_respReceive_ok {s t : State} {k : Packet} {r : FReq} (h : s.Answers t k r) (hst : bitsOf k.dw2.toNat 55 52 = 0) :
    exec (.respReceive k) s = .next (s.unlessWaits (((t.setTx k.src.toNat k.cls.toNat fun f =>
      { f with una := f.una.filter (·.seq != k.seq) }).settle r 0 k.dw3 k.payload (if k.hm then k.mask else 0)).flowMoves
        k.src.toNat k.cls.toNat)) := by
  refine congrArg (fun u : State => Host.Outcome.next (s.unlessWaits u)) ?_
  simp only [← h.taken, h.forUs, h.una, hst, Bool.false_eq_true, if_false, Nat.zero_ne_one, decide_false, Bool.false_and]
  cases t.ownerCtx r.owner <;> rfl

/-- EPOCH_AHEAD notes its time, the first one for good. -/
theorem exec_respReceive_ahead {s t : State} {k : Packet} {r : FReq} (h : s.Answers t k r) (hst : bitsOf k.dw2.toNat 55 52 = 2) :
    exec (.respReceive k) s = .next (s.unlessWaits (t.setUna k.src.toNat k.cls.toNat k.seq fun r =>
      { r with ahead := r.ahead <|> some t.time.mono, sentAt := t.time.mono, busy := false })) := by
  refine congrArg (fun u : State => Host.Outcome.next (s.unlessWaits u)) ?_
  simp only [← h.taken, h.forUs, h.una, hst, Bool.false_eq_true, if_false]

/-! ### Timers of an unanswered request (R224, R226, R230) -/

section
variable {s : State} {m : BitVec 15} {c : Fin 4} {q : BitVec 16} {r : FReq}

theorem exec_requestTimeout_resends (hr : s.una? m.toNat c q = some r) (hbusy : r.busy = false) (hahead : r.ahead = none)
    (hdue : r.sentAt + s.fab.timeout * 100000 ≤ s.time.mono) (htries : r.tries < s.fab.retries) :
    exec (.requestTimeout m c q) s = .next (s.unlessWaits (s.resendReq m.toNat c { r with tries := r.tries + 1 })) := by
  refine congrArg (fun u : State => Host.Outcome.next (s.unlessWaits u)) ?_
  simp only [hr, hbusy, hahead, Nat.not_lt.mpr hdue, htries, Option.isSome_none, decide_false, Bool.or_self, Bool.false_eq_true,
    if_false, if_true]

theorem exec_requestTimeout_fails (hr : s.una? m.toNat c q = some r) (hbusy : r.busy = false) (hahead : r.ahead = none)
    (hdue : r.sentAt + s.fab.timeout * 100000 ≤ s.time.mono) (htries : s.fab.retries ≤ r.tries) :
    exec (.requestTimeout m c q) s = .next (s.unlessWaits ((s.failFlow m.toNat c 0xC).flowMoves m.toNat c)) := by
  refine congrArg (fun u : State => Host.Outcome.next (s.unlessWaits u)) ?_
  simp only [hr, hbusy, hahead, Nat.not_lt.mpr hdue, Nat.not_lt.mpr htries, Option.isSome_none, decide_false, Bool.or_self,
    Bool.false_eq_true, if_false]

theorem exec_busyResend (hr : s.una? m.toNat c q = some r) (hbusy : r.busy = true)
    (hdue : r.sentAt + s.fab.timeout * 12500 ≤ s.time.mono) :
    exec (.busyResend m c q) s = .next (s.unlessWaits (s.resendReq m.toNat c { r with busy := false })) := by
  refine congrArg (fun u : State => Host.Outcome.next (s.unlessWaits u)) ?_
  simp only [hr, hbusy, hdue, decide_true, Bool.and_self, if_true]

theorem exec_epochAheadResend {a : Nat} (hr : s.una? m.toNat c q = some r) (hahead : r.ahead = some a)
    (hdue : r.sentAt + 100000 ≤ s.time.mono) :
    exec (.epochAheadResend m c q) s = .next (s.unlessWaits (s.resendReq m.toNat c r)) := by
  refine congrArg (fun u : State => Host.Outcome.next (s.unlessWaits u)) ?_
  simp only [hr, hahead, hdue, Option.isSome_some, decide_true, Bool.and_self, if_true]

theorem exec_epochWaitExpiry {a : Nat} (hr : s.una? m.toNat c q = some r) (hahead : r.ahead = some a)
    (hdue : a + s.fab.epochWait * 1000000 ≤ s.time.mono) :
    exec (.epochWaitExpiry m c q) s = .next (s.unlessWaits ((s.failFlow m.toNat c 1).flowMoves m.toNat c)) := by
  refine congrArg (fun u : State => Host.Outcome.next (s.unlessWaits u)) ?_
  simp only [hr, hahead, hdue, if_true]

end

/-! ### The release of a peer-state entry (R227) -/

/-- The target's part, with nothing to reorder, ends, and the entry with it if the sender's part is not held. -/
theorem exec_peerEntryRelease_target {s : State} {m : BitVec 15} {p : Peer} (hp : s.fab.peers.lookup m.toNat = some p)
    (htgt : p.tgt = true) (hsnd : p.snd = false) (hidle : p.rx.all (·.waiting.isEmpty) = true)
    (hdue : p.tgtIdle + 10000000 ≤ s.time.mono) :
    exec (.peerEntryRelease m true) s =
      .next ({ s with fab := { s.fab with peers := mdel s.fab.peers m.toNat } } : State).unstall.sweepDescs.jobSweep := by
  refine congrArg Host.Outcome.next ?_
  simp only [hp, htgt, hsnd, hidle, hdue, decide_true, Bool.and_self, Bool.or_self, Bool.false_eq_true, if_false, if_true]

/-- The sender's part, with nothing unanswered or waiting, ends, and the target's part stays. -/
theorem exec_peerEntryRelease_sender {s : State} {m : BitVec 15} {p : Peer} (hp : s.fab.peers.lookup m.toNat = some p)
    (hsnd : p.snd = true) (htgt : p.tgt = true) (hidle : p.tx.all (fun f => f.una.isEmpty && f.wait.isEmpty) = true)
    (hdue : p.sndIdle + 20000000 ≤ s.time.mono) :
    exec (.peerEntryRelease m false) s =
      .next ({ s with fab := { s.fab with
        peers := mput s.fab.peers m.toNat { p with snd := false, tx := List.replicate 4 {} } } } : State).unstall.sweepDescs.jobSweep := by
  refine congrArg Host.Outcome.next ?_
  simp only [hp, hsnd, htgt, hidle, hdue, decide_true, Bool.and_self, Bool.or_true, Bool.false_eq_true, if_false, if_true]

/-- Settles O43: an answer by its status, a timer by the request it finds, a release by the parts held. -/
theorem issuerAndPeers : Obligations.IssuerAndPeers := by
  unfold Obligations.IssuerAndPeers
  refine ⟨?_, ?_, ?_, ?_, ?_, ?_, ?_, ?_, ?_⟩
  · intro s t k r ht hresp hmine huna hst
    exact exec_respReceive_ok ⟨ht, hresp, hmine, huna⟩ hst
  · intro s t k r ht hresp hmine huna hst
    exact exec_respReceive_ahead ⟨ht, hresp, hmine, huna⟩ hst
  · intro s m c q r hr hbusy hahead hdue htries
    exact exec_requestTimeout_resends hr hbusy hahead hdue htries
  · intro s m c q r hr hbusy hahead hdue htries
    exact exec_requestTimeout_fails hr hbusy hahead hdue htries
  · intro s m c q r hr hbusy hdue
    exact exec_busyResend hr hbusy hdue
  · intro s m c q r a hr hahead hdue
    exact exec_epochAheadResend hr hahead hdue
  · intro s m c q r a hr hahead hdue
    exact exec_epochWaitExpiry hr hahead hdue
  · rintro s t m p hp htgt hsnd hidle hdue rfl
    exact exec_peerEntryRelease_target hp htgt hsnd hidle hdue
  · rintro s t m p hp hsnd htgt hidle hdue rfl
    exact exec_peerEntryRelease_sender hp hsnd htgt hidle hdue

end Sys2Proof.Machine
end

