-- ==== Sys2Proof/Proofs/SegmentsReceived.lean ====
section
/-! PROOFS. O47: segments of collectives (R261, R266-R268) and of caravans (R276, R277) at their receiver. -/

namespace Sys2Proof.Machine

/-- A segment taken out of its port's input passes the gate of R267: it comes over an UP port inside its slice, is for this module
and of the slice's present epoch. -/
structure State.Gated (s t : State) (p : Fin 13) (k : Packet) (ent : SliceEnt) : Prop where
  taken : t = s.takePkt p (pktBytes k)
  up : t.isUp p = true
  mine : k.dst.toNat = t.ownId
  slice : ∃ e, t.sliceOf k.slice = some (e, ent)
  inside : bitOf ent.boundary.toNat p = false
  epoch : k.epoch = ent.epoch

section
variable {s t : State} {p : Fin 13} {k : Packet} {ent : SliceEnt} {cv : Convoy} {x : Started}

/-- The gate answers the slice entry, whatever would be sent back after a drop. -/
theorem State.Gated.segGate (h : s.Gated t p k ent) (stop : State → SliceEnt → Nat → State) :
    t.segGate p k stop = .ok ent := by
  obtain ⟨e, hslice⟩ := h.slice
  simp only [State.segGate, h.up, h.mine, hslice, h.inside, h.epoch, bne_self_eq_false, beq_self_eq_true, Bool.not_true,
    Bool.or_self, Bool.false_eq_true, if_false, if_true]

/-! ### COLL_SEG (R266-R268) -/

/-- A well-formed COLL_SEG, no ACK, past the gate. -/
structure State.CollSegIn (s t : State) (p : Fin 13) (k : Packet) (ent : SliceEnt) : Prop extends s.Gated t p k ent where
  ptype : k.ptype = 6
  skind : segSkind k ≠ 3
  form : segForm k = true

theorem State.CollSegIn.noAck (h : s.CollSegIn t p k ent) : (k.ptype != 6 || segSkind k == 3) = false := by
  rw [h.ptype, bne_self_eq_false, beq_false_of_ne h.skind, Bool.or_self]

/-- No entry holds its convoy: NOT_READY. -/
theorem exec_collSegReceive_unknown (h : s.CollSegIn t p k ent) (hcv : t.convoy? (segKey k) = none) :
    exec (.collSegReceive p k) s =
      .next (s.unlessWaits (t.sendAck false (segKey k) ent.epoch p 3 (segIndex k) (segStep k))) := by
  refine congrArg (fun u : State => Host.Outcome.next (s.unlessWaits u)) ?_
  simp only [← h.taken, h.noAck, h.segGate, h.form, hcv, Bool.not_true, Bool.false_eq_true, if_false]

/-- A COMPLETE entry answers OK and takes nothing. -/
theorem exec_collSegReceive_complete (h : s.CollSegIn t p k ent) (hcv : t.convoy? (segKey k) = some cv)
    (hst : cv.st = .complete) : exec (.collSegReceive p k) s =
      .next (s.unlessWaits (t.sendAck false (segKey k) ent.epoch p 0 (segIndex k) (segStep k))) := by
  refine congrArg (fun u : State => Host.Outcome.next (s.unlessWaits u)) ?_
  simp only [← h.taken, h.noAck, h.segGate, h.form, hcv, hst, Bool.not_true, Bool.false_eq_true, if_false]

/-- An ABORTED entry answers ABORTED. -/
theorem exec_collSegReceive_aborted (h : s.CollSegIn t p k ent) (hcv : t.convoy? (segKey k) = some cv)
    (hst : cv.st = .aborted) : exec (.collSegReceive p k) s =
      .next (s.unlessWaits (t.sendAck false (segKey k) ent.epoch p 4 (segIndex k) (segStep k))) := by
  refine congrArg (fun u : State => Host.Outcome.next (s.unlessWaits u)) ?_
  simp only [← h.taken, h.noAck, h.segGate, h.form, hcv, hst, Bool.not_true, Bool.false_eq_true, if_false]

/-- An ACTIVE entry whose plan the segment fits answers OK and takes it over. -/
theorem exec_collSegReceive_taken (h : s.CollSegIn t p k ent) (hcv : t.convoy? (segKey k) = some cv) (hst : cv.st = .active)
    (hx : t.cvDesc cv = some x) (hfits : (collOf x cv.plan).fits p k = true) : exec (.collSegReceive p k) s =
      .next (s.unlessWaits ((t.sendAck false (segKey k) ent.epoch p 0 (segIndex k) (segStep k)).cvTake cv
        (collOf x cv.plan) p k)) := by
  refine congrArg (fun u : State => Host.Outcome.next (s.unlessWaits u)) ?_
  simp only [← h.taken, h.noAck, h.segGate, h.form, hcv, hst, hx, hfits, Bool.not_true, Bool.false_eq_true, if_false]

/-! ### CARAVAN_SEG (R276, R277) -/

/-- A CARAVAN_SEG past the gate that fits the ACTIVE entry of its caravan, at a module whose service processor runs no ROM. -/
structure State.CarSegIn (s t : State) (p : Fin 13) (k : Packet) (ent : SliceEnt) (cv : Convoy) (x : Started) (c q : Nat)
    (u : Queue) : Prop extends s.Gated t p k ent where
  ptype : k.ptype = 7
  noRom : t.serving.any t.inRom = false
  entry : t.convoy? (segKey k) = some cv
  active : cv.st = .active
  owner : ∃ ix, cv.owner = some (c, q, ix)
  desc : t.cvDesc cv = some x
  queue : t.queue? c q = some u
  fits : (collOf x cv.plan).carFits p k = true

variable {c q : Nat} {u : Queue}

/-- A DATA packet is stored and forwarded. -/
theorem exec_caravanSegReceive_data (h : s.CarSegIn t p k ent cv x c q u) (hkind : segSkind k = 0) :
    exec (.caravanSegReceive p k) s = .next (s.unlessWaits (t.carData cv c q u.eng x (collOf x cv.plan) p k)) := by
  refine congrArg (fun u : State => Host.Outcome.next (s.unlessWaits u)) ?_
  obtain ⟨ix, howner⟩ := h.owner
  have hnoAck : (k.ptype != 7 || segSkind k == 3) = false := by rw [h.ptype, hkind]; rfl
  have hdata : (segSkind k == 1) = false := by rw [hkind]; rfl
  simp only [← h.taken, hnoAck, hdata, h.noRom, h.segGate, h.entry, h.active, howner, h.desc, h.queue, h.fits, Option.map_some,
    Option.getD_some, Bool.not_true, Bool.not_false, Bool.false_eq_true, if_false, if_true]

/-- The DIGEST of a segment that is whole is checked. -/
theorem exec_caravanSegReceive_digest (h : s.CarSegIn t p k ent cv x c q u) (hkind : segSkind k = 1)
    (hwhole : cv.whole (collOf x cv.plan) p (carOffset k) = true) :
    exec (.caravanSegReceive p k) s = .next (s.unlessWaits (t.carDigest cv c q u.eng x (collOf x cv.plan) p k)) := by
  refine congrArg (fun u : State => Host.Outcome.next (s.unlessWaits u)) ?_
  obtain ⟨ix, howner⟩ := h.owner
  have hnoAck : (k.ptype != 7 || segSkind k == 3) = false := by rw [h.ptype, hkind]; rfl
  have hdigest : (segSkind k == 1) = true := by rw [hkind]; rfl
  simp only [← h.taken, hnoAck, hdigest, h.noRom, h.segGate, h.entry, h.active, howner, h.desc, h.queue, h.fits, hwhole,
    Option.map_some, Option.getD_some, Bool.not_true, Bool.false_eq_true, if_false, if_true]

end

/-- Settles O47: past the gate, what the convoy's entry is decides what a segment is answered and does. -/
theorem segmentsReceived : Obligations.SegmentsReceived := by
  unfold Obligations.SegmentsReceived
  refine ⟨?_, ?_⟩
  · intro s t p k e ent ht htype hkind hform hup hdst hslice hbnd hepoch
    have h : s.CollSegIn t p k ent := ⟨⟨ht, hup, hdst, ⟨e, hslice⟩, hbnd, hepoch⟩, htype, hkind, hform⟩
    refine ⟨fun hcv => exec_collSegReceive_unknown h hcv, fun cv hcv => ⟨?_, ?_, ?_⟩⟩
    · exact fun hst => exec_collSegReceive_complete h hcv hst
    · exact fun hst => exec_collSegReceive_aborted h hcv hst
    · exact fun x hst hx hfits => exec_collSegReceive_taken h hcv hst hx hfits
  · intro s t p k e c q ix ent cv x u ht htype hrom hup hdst hslice hbnd hepoch hcv hst howner hx hu hfits
    have h : s.CarSegIn t p k ent cv x c q u :=
      ⟨⟨ht, hup, hdst, ⟨e, hslice⟩, hbnd, hepoch⟩, htype, hrom, hcv, hst, ⟨ix, howner⟩, hx, hu, hfits⟩
    exact ⟨fun hkind => exec_caravanSegReceive_data h hkind,
      fun hkind hwhole => exec_caravanSegReceive_digest h hkind hwhole⟩

end Sys2Proof.Machine
end

