-- ==== Sys2Proof/Proofs/SegmentTimersAndAborts.lean ====
section
/-! PROOFS. O48: acknowledgements and timers of segments (R268), aborts and the release of entries (R270, R272, R273). -/

namespace Sys2Proof.Machine

/-! ### Acknowledgements and timers (R268) -/

/-- The entry of a collective that an ACK on a port may mean: ACTIVE, with such a segment on its way. -/
def Convoy.awaits (p : Nat) (k : Packet) (cv : Convoy) : Bool :=
  cv.st == .active && cv.car == false && cv.key.slice == k.slice && cv.key.convoy == (segKey k).convoy &&
    cv.tx.any (ackOf p (segIndex k) (segStep k))

/-- Status OK: the segment is on its way no more, and the convoy goes on. -/
theorem exec_segAckReceive_ok {s t : State} {p : Fin 13} {k : Packet} {cv : Convoy} (ht : t = s.takePkt p (pktBytes k))
    (htype : k.ptype = 6) (hkind : segSkind k = 3) (hok : segAck k = 0) (hup : t.isUp p = true) (hdst : k.dst.toNat = t.ownId)
    (hcv : t.fab.convoys.find? (Convoy.awaits p k) = some cv) : exec (.segAckReceive p k) s = .next (s.unlessWaits
      ((t.setConvoy cv.key fun v => { v with tx := v.tx.eraseP (ackOf p (segIndex k) (segStep k)) }).cvRun cv.key)) := by
  refine congrArg (fun u : State => Host.Outcome.next (s.unlessWaits u)) ?_
  have hcar : (k.ptype == 7) = false := by rw [htype]; rfl
  have hcoll : (k.ptype == 6) = true := by rw [htype]; rfl
  unfold Convoy.awaits at hcv
  simp only [← ht, hcar, hcoll, hkind, hok, hup, hdst, hcv, bne_self_eq_false, Bool.not_true, Bool.true_or, Bool.or_self,
    Bool.false_eq_true, if_false]

section
variable {s : State} {key : ConvoyKey} {p : Fin 13} {sk : Fin 16} {seg st : Nat} {cv : Convoy} {g : Seg}

/-- No ACK for TIMEOUT: the convoy ends with cause TIMEOUT. -/
theorem exec_segAckTimeout (hg : s.timedSeg key p sk seg st 0 = some (cv, g))
    (hdue : g.sentAt + s.fab.timeout * 100000 ≤ s.time.mono) :
    exec (.segAckTimeout key p sk seg st) s = .next (s.startAbort key 5 none) := by
  refine congrArg Host.Outcome.next ?_
  simp only [hg, hdue, if_true]

theorem exec_notReadyResend (hg : s.timedSeg key p sk seg st 3 = some (cv, g)) (hdue : g.sentAt + 10000 ≤ s.time.mono) :
    exec (.notReadyResend key p sk seg st) s = .next (s.unlessWaits (s.resendSeg cv g)) := by
  refine congrArg (fun u : State => Host.Outcome.next (s.unlessWaits u)) ?_
  simp only [hg, hdue, if_true]

/-- Before EPOCH_WAIT has passed, a segment answered AHEAD is sent again. -/
theorem exec_segAheadResend_resends (hg : s.timedSeg key p sk seg st 2 = some (cv, g))
    (hwait : s.time.mono < g.ahead + s.fab.epochWait * 1000000) (hdue : g.sentAt + 100000 ≤ s.time.mono) :
    exec (.segAheadResend key p sk seg st) s = .next (s.unlessWaits (s.resendSeg cv g)) := by
  refine congrArg (fun u : State => Host.Outcome.next (s.unlessWaits u)) ?_
  simp only [hg, Nat.not_le.mpr hwait, hdue, if_false, if_true]

/-- After EPOCH_WAIT the convoy ends with cause EPOCH. -/
theorem exec_segAheadResend_ends (hg : s.timedSeg key p sk seg st 2 = some (cv, g))
    (hover : g.ahead + s.fab.epochWait * 1000000 ≤ s.time.mono) :
    exec (.segAheadResend key p sk seg st) s = .next (s.unlessWaits (s.startAbort key 4 none)) := by
  refine congrArg (fun u : State => Host.Outcome.next (s.unlessWaits u)) ?_
  simp only [hg, hover, if_true]

end

/-! ### Aborts (R272, R273) -/

/-- The state an ABORT finds: its packet taken out of the port's input, and counted. -/
def State.hearAbort (s : State) (p : Nat) (m : AbortMsg) : State :=
  let u := s.takePay p (leBytes 1 1 ++ leBytes 1 m.cause.toNat ++ leBytes 2 m.key.convoy.toNat)
  { u with fab := { u.fab with received := min 0xFFFF (u.fab.received + 1) } }

/-- The entry an ABORT leaves where none held its convoy. -/
def State.abortEntry (s : State) (m : AbortMsg) : Convoy :=
  { key := m.key, st := .aborted, cause := m.cause.toNat, origin := m.origin.toNat, originPod := m.originPod
    endAt := s.time.mono }

/-- An entry is added to the table. -/
def State.addConvoy (s : State) (cv : Convoy) : State := { s with fab := { s.fab with convoys := s.fab.convoys ++ [cv] } }

/-- An ABORT of the present epoch that finds room in the table is recorded, with outcome 2. -/
theorem State.abortUnknown_recorded {s : State} {m : AbortMsg} (hepoch : (s.sliceOf m.key.slice).map (·.2.epoch) = some m.key.epoch)
    (hroom : s.fab.convoys.length < 512) (die : Nat) :
    s.abortUnknown m die = ((s.addConvoy (s.abortEntry m)).logConvoy (s.abortEntry m) m 2, 2) := by
  simp only [State.abortUnknown, hepoch, hroom, beq_self_eq_true, decide_true, Bool.and_self, if_true]
  rfl

section
variable {s : State} {p : Fin 13} {src : BitVec 15} {m : AbortMsg} {cv : Convoy}

/-- An ACTIVE entry ends, its neighbours but the sender are told, and the sender is answered with outcome 0. -/
theorem exec_abortReceive_active (hcv : (s.hearAbort p m).convoy? m.key = some cv) (hst : cv.st = .active) :
    exec (.abortReceive p ⟨src, m⟩) s =
      .next (((s.hearAbort p m).endConvoy cv m (abortedFail m) 0 (some src)).sendCtrl p src 2 0 m) := by
  refine congrArg Host.Outcome.next ?_
  unfold State.hearAbort at hcv ⊢
  simp only [satAdd, hcv, hst]

/-- Where no entry holds its convoy, the sender is answered as `abortUnknown` says. -/
theorem exec_abortReceive_unknown (hcv : (s.hearAbort p m).convoy? m.key = none) :
    exec (.abortReceive p ⟨src, m⟩) s = .next (((s.hearAbort p m).abortUnknown m (portDie p)).1.sendCtrl p src 2
      ((s.hearAbort p m).abortUnknown m (portDie p)).2 m) := by
  refine congrArg Host.Outcome.next ?_
  unfold State.hearAbort at hcv ⊢
  simp only [satAdd, hcv]

/-- The tenth ABORT is the last: before it, one that 20 µs have not seen acknowledged is sent again and counted. -/
theorem exec_abortResend {key : ConvoyKey} {n t : Nat} (hcv : s.convoy? key = some cv) (haborts : cv.aborts = [(p.val, n, t)])
    (hn : n < 10) (hdue : t + 20000 ≤ s.time.mono) : exec (.abortResend key p) s = .next
      ((s.setConvoy key fun v => { v with aborts := [(p.val, n + 1, s.time.mono)] }).sendCtrl p (s.port p).coord 1 0 cv.msg) := by
  refine congrArg Host.Outcome.next ?_
  simp only [hcv, haborts, List.find?_cons, modFirst, beq_self_eq_true, hn, hdue, decide_true, Bool.and_self, if_true]

/-- 1 s after its end an entry leaves the table (R270). -/
theorem exec_convoyEntryFree {key : ConvoyKey} (hcv : s.convoy? key = some cv) (hst : cv.st ≠ .active)
    (hdue : cv.endAt + 1000000000 ≤ s.time.mono) : exec (.convoyEntryFree key) s =
      .next { s with fab := { s.fab with convoys := s.fab.convoys.filter fun v => v.key != key } } := by
  refine congrArg Host.Outcome.next ?_
  simp only [hcv, bne_iff_ne.mpr hst, hdue, decide_true, Bool.and_self, if_true]

end

/-- Settles O48: an ACK and a timer by the segment they find, an ABORT by its entry, a resend and a release by their time. -/
theorem segmentTimersAndAborts : Obligations.SegmentTimersAndAborts := by
  unfold Obligations.SegmentTimersAndAborts
  refine ⟨?_, ?_, ?_, ?_, ?_, ?_, ?_, ?_, ?_, ?_⟩
  · intro s t p k cv ht htype hkind hok hup hdst hcv
    exact exec_segAckReceive_ok ht htype hkind hok hup hdst hcv
  · intro s key p sk seg st cv g hg hdue
    exact exec_segAckTimeout hg hdue
  · intro s key p sk seg st cv g hg hdue
    exact exec_notReadyResend hg hdue
  · intro s key p sk seg st cv g hg hwait hdue
    exact exec_segAheadResend_resends hg hwait hdue
  · intro s key p sk seg st cv g hg hover
    exact exec_segAheadResend_ends hg hover
  · rintro s u t p src m cv rfl rfl hcv hst
    exact exec_abortReceive_active hcv hst
  · rintro s t v p src m cv rfl rfl hcv hepoch hroom rfl
    refine ⟨_, rfl, ?_⟩
    have hrecorded := State.abortUnknown_recorded (s := s.hearAbort p m) hepoch hroom (portDie p)
    rw [exec_abortReceive_unknown hcv, hrecorded]
    rfl
  · intro s key p cv n t hcv haborts hn hdue
    exact exec_abortResend hcv haborts hn hdue
  · intro s key p src
    rfl
  · intro s key cv hcv hst hdue
    exact exec_convoyEntryFree hcv hst hdue

end Sys2Proof.Machine
end

