-- ==== Sys2Proof/Proofs/WaybillRules.lean ====
section
/-! PROOFS. Rules for the waybill: what its loss, a claim that is granted and a watchdog leave of the module, of the lease cell and
of each CTD (R285-R290, R297). -/

namespace Sys2Proof.Machine

/-- What each step of a fold leaves as it is, the fold leaves. -/
theorem foldl_same {σ α β : Type} {g : σ → β} {f : σ → α → σ} (h : ∀ s a, g (f s a) = g s) (l : List α) (s : σ) :
    g (l.foldl f s) = g s := by
  induction l generalizing s with
  | nil => rfl
  | cons a l ih => exact (ih (f s a)).trans (h s a)

/-- A CTD depends on the CTDs alone. -/
theorem State.ctdOf_congr {s t : State} (h : t.ctd.ctds = s.ctd.ctds) (c : Nat) : t.ctdOf c = s.ctdOf c :=
  congrArg (fun l => l.getD c {}) h

/-! ### The parts of the module that a change of the waybill leaves alone -/

/-- Memories, engines, slices and peers, power, fuses, clamps, the answer of the access and the time are what they were. -/
structure State.Apart (s t : State) : Prop where
  mem : t.mem = s.mem
  eng : t.eng = s.eng
  slices : t.fab.slices = s.fab.slices
  peers : t.fab.peers = s.fab.peers
  power : t.power = s.power
  fuse : t.fuse = s.fuse
  bus : t.bus = s.bus
  clamp : t.ctd.clamp = s.ctd.clamp
  mono : t.time.mono = s.time.mono

namespace State.Apart

variable {s t u : State}

theorem refl (s : State) : s.Apart s := ⟨rfl, rfl, rfl, rfl, rfl, rfl, rfl, rfl, rfl⟩

theorem trans (h : s.Apart t) (k : t.Apart u) : s.Apart u :=
  ⟨k.mem.trans h.mem, k.eng.trans h.eng, k.slices.trans h.slices, k.peers.trans h.peers, k.power.trans h.power,
    k.fuse.trans h.fuse, k.bus.trans h.bus, k.clamp.trans h.clamp, k.mono.trans h.mono⟩

/-- The outermost update first, the order in which a function's body is read. -/
theorem after (k : t.Apart u) (h : s.Apart t) : s.Apart u := h.trans k

theorem foldl {α : Type} {f : State → α → State} (h : ∀ (s : State) (a : α), s.Apart (f s a)) (l : List α) (s : State) :
    s.Apart (l.foldl f s) := by
  induction l generalizing s with
  | nil => exact refl s
  | cons a l ih => exact (h s a).trans (ih _)

/-- An update of other fields. -/
theorem upd {pending mod ring dies time dieTime sched ledgers obs mbox silent fab ctd job toll mgmt i3c spdm free}
    (hslices : fab.slices = t.fab.slices := by rfl) (hpeers : fab.peers = t.fab.peers := by rfl)
    (hclamp : ctd.clamp = t.ctd.clamp := by rfl) (hmono : time.mono = t.time.mono := by rfl) :
    t.Apart ⟨pending, t.fuse, mod, ring, dies, t.bus, time, dieTime, sched, t.eng, t.mem, ledgers, obs, mbox, silent, fab, ctd, job,
      toll, t.power, mgmt, i3c, spdm, free⟩ :=
  ⟨rfl, rfl, hslices, hpeers, rfl, rfl, rfl, hclamp, hmono⟩

theorem withLog (s : State) (p : LogPart) : s.Apart (s.withLog p) := ⟨rfl, rfl, rfl, rfl, rfl, rfl, rfl, rfl, rfl⟩

theorem log (s : State) (code sev src : Nat) (ps : List Nat) : s.Apart (s.log code sev src ps) := by
  unfold State.log
  split
  · exact withLog ..
  · exact withLog ..
  · exact refl _

theorem logFw (s : State) (code sev : Nat) (ps : List Nat) : s.Apart (s.logFw code sev ps) := log ..

theorem setCtd (s : State) (c : Nat) (f : Ctd → Ctd) : s.Apart (s.setCtd c f) := ⟨rfl, rfl, rfl, rfl, rfl, rfl, rfl, rfl, rfl⟩

theorem setLease (s : State) (f : Lease → Lease) : s.Apart (s.setLease f) := ⟨rfl, rfl, rfl, rfl, rfl, rfl, rfl, rfl, rfl⟩

theorem setPort (s : State) (p : Nat) (f : PortSt → PortSt) : s.Apart (s.setPort p f) :=
  ⟨rfl, rfl, rfl, rfl, rfl, rfl, rfl, rfl, rfl⟩

/-- The holder depends on the rails and on the lease alone. -/
theorem holder (h : s.Apart t) (hlease : t.ctd.lease.holder = s.ctd.lease.holder) : t.holder = s.holder := by
  simp only [State.holder, h.power, hlease]

/-- A CTD that is as it was is as present, and its losses are as recent. -/
theorem ctdGate (h : s.Apart t) {c : Nat} (hc : t.ctdOf c = s.ctdOf c) : t.ctdGate c = s.ctdGate c := by
  have hpresent : t.ctdPresent c = s.ctdPresent c := by simp only [State.ctdPresent, State.hasCtd1, h.fuse]
  simp only [State.ctdGate, hpresent, hc]

theorem recentLosses (h : s.Apart t) {c : Nat} (hc : t.ctdOf c = s.ctdOf c) : t.recentLosses c = s.recentLosses c := by
  simp only [State.recentLosses, h.mono, hc]

end State.Apart

/-! ### The waybill is lost (R287) -/

theorem State.Apart.endRun (s : State) (g : Nat) : s.Apart (s.endRun g) := by
  unfold State.endRun
  split
  · exact .after (.logFw ..) .upd
  · exact .refl s

theorem State.Apart.takeTotals (s : State) : s.Apart s.takeTotals := by
  unfold State.takeTotals
  split
  · exact .refl s
  · split
    · exact .refl s
    · dsimp only
      exact .after .upd (.foldl (fun s p => .setPort s p _) _ s)

theorem State.Apart.holdCtd (s : State) (c : Nat) : s.Apart (s.holdCtd c) := ⟨rfl, rfl, rfl, rfl, rfl, rfl, rfl, rfl, rfl⟩

theorem State.Apart.loseWaybill (s : State) (cause : Nat) : s.Apart (s.loseWaybill cause) := by
  unfold State.loseWaybill
  dsimp only
  split
  · exact .refl s
  · next c _ =>
    have hruns : s.Apart ([0, 1, 2, 3, 4].foldl State.endRun s.takeTotals) :=
      (State.Apart.takeTotals s).trans (.foldl State.Apart.endRun _ _)
    exact .after .upd (.after (.setLease ..) (.after (.setCtd ..) (.after (.holdCtd ..) hruns)))

theorem State.endRun_ctd (s : State) (g : Nat) : (s.endRun g).ctd = s.ctd := by
  unfold State.endRun
  split
  · exact State.logFw_ctd ..
  · rfl

theorem State.takeTotals_ctd (s : State) : s.takeTotals.ctd = s.ctd := by
  unfold State.takeTotals
  split
  · rfl
  · split
    · rfl
    · exact foldl_same (g := State.ctd) (fun s p => State.setPort_ctd s p _) _ s

/-- The lease cell once its holder has lost the waybill. -/
def Lease.lost (e : Lease) (c cause now : Nat) : Lease :=
  { e with
    holder := none, gates := false, guardEnd := if cause = 0 then some (now + 5000000) else none, waived := cause != 0
    closedAt := if e.gates then some now else e.closedAt, lossCause := cause, loser := some c, renewed := false, takeover := false
    wdogLosses := if cause = 2 then satAdd 0xFFFF e.wdogLosses 1 else e.wdogLosses }

/-- A CTD whose service processors are held in reset until a time. -/
def Ctd.held (x : Ctd) (till : Nat) : Ctd :=
  { x with heldUntil := some till, role := .booting, health := .good, claimable := false, hit := 0, stage := 0 }

/-- The loser's losses of the last hour, the present one among them. -/
def Ctd.counts (x : Ctd) (losses : List Nat) : Ctd := { x with losses := losses, lossLimit := x.lossLimit || 3 ≤ losses.length }

/-- Of the CTDs and the lease cell a loss changes the loser and the lease. -/
theorem State.loseWaybill_ctd {s : State} {c : Nat} (h : s.ctd.lease.holder = some c) (cause : Nat) :
    (s.loseWaybill cause).ctd = { s.ctd with
      ctds := lmod (lmod s.ctd.ctds c (Ctd.held · (s.time.mono + 100000000))) c (Ctd.counts · (s.time.mono :: s.recentLosses c))
      lease := s.ctd.lease.lost c cause s.time.mono } := by
  have hctd : ([0, 1, 2, 3, 4].foldl State.endRun s.takeTotals).ctd = s.ctd :=
    (foldl_same State.endRun_ctd _ _).trans s.takeTotals_ctd
  have hmono : ([0, 1, 2, 3, 4].foldl State.endRun s.takeTotals).time.mono = s.time.mono :=
    ((State.Apart.takeTotals s).trans (.foldl State.Apart.endRun _ _)).mono
  unfold State.loseWaybill State.holdCtd
  simp only [h, State.setLease_ctd, State.setCtd_ctd, hctd, hmono]
  rfl

/-- The loser is held in reset for 100 ms and counts its loss. -/
theorem State.loseWaybill_loser {s : State} {c : Nat} (h : s.ctd.lease.holder = some c) (hc : c < s.ctd.ctds.length) (cause : Nat) :
    (s.loseWaybill cause).ctdOf c =
      ((s.ctdOf c).held (s.time.mono + 100000000)).counts (s.time.mono :: s.recentLosses c) := by
  unfold State.ctdOf
  rw [State.loseWaybill_ctd h]
  exact (getD_lmod_self (by rwa [length_lmod])).trans (congrArg (Ctd.counts · _) (getD_lmod_self hc))

/-- The other CTD is as it was. -/
theorem State.loseWaybill_other {s : State} {c o : Nat} (h : s.ctd.lease.holder = some c) (ho : o ≠ c) (cause : Nat) :
    (s.loseWaybill cause).ctdOf o = s.ctdOf o := by
  unfold State.ctdOf
  rw [State.loseWaybill_ctd h]
  exact (getD_lmod_ne ho).trans (getD_lmod_ne ho)

/-- The loss with what it changes of its own tick (R290): a renewal accepted counts as bad, and no claim or renewal is remembered. -/
def State.lostAt (s : State) (cause : Nat) : State :=
  (if s.ctd.lease.renewTick = some s.tickNo then
      (s.loseWaybill cause).setLease fun e => { e with badRenew := satAdd 0xFFFF e.badRenew 1 }
    else s.loseWaybill cause).setLease fun e => { e with renewTick := none, claims := [] }

theorem State.Apart.lostAt (s : State) (cause : Nat) : s.Apart (s.lostAt cause) := by
  unfold State.lostAt
  refine .after (.setLease ..) ?_
  split
  · exact .after (.setLease ..) (.loseWaybill ..)
  · exact .loseWaybill ..

theorem State.lostAt_ctd {s : State} {c : Nat} (h : s.ctd.lease.holder = some c) (cause : Nat) :
    ∃ n, (s.lostAt cause).ctd = { (s.loseWaybill cause).ctd with
      lease := { s.ctd.lease.lost c cause s.time.mono with badRenew := n, renewTick := none, claims := [] } } := by
  unfold State.lostAt
  simp only [State.setLease_ctd]
  split
  · simp only [State.setLease_ctd, State.loseWaybill_ctd h]
    exact ⟨_, rfl⟩
  · simp only [State.loseWaybill_ctd h]
    exact ⟨_, rfl⟩

theorem State.lostAt_ctdOf {s : State} {c : Nat} (h : s.ctd.lease.holder = some c) (cause o : Nat) :
    (s.lostAt cause).ctdOf o = (s.loseWaybill cause).ctdOf o := by
  obtain ⟨n, hctd⟩ := State.lostAt_ctd h cause
  exact State.ctdOf_congr (by rw [hctd]) o

/-- No claim of the tick waits: nobody takes the waybill. -/
theorem State.loseAt_noClaims {s : State} (h : s.ctd.lease.claims.filter (·.1 == s.tickNo) = []) (cause : Nat) :
    s.loseAt cause = s.lostAt cause := by
  unfold State.loseAt
  dsimp only
  rw [h]
  rfl

/-- One claim of the tick waits: it is taken again after the loss. -/
theorem State.loseAt_oneClaim {s : State} {o : Nat} {g : Word} (h : s.ctd.lease.claims = [(s.tickNo, o, g)]) (cause : Nat) :
    s.loseAt cause = if (s.lostAt cause).grants o g then (s.lostAt cause).grant o else s.lostAt cause := by
  unfold State.loseAt
  dsimp only
  rw [h]
  simp only [List.filter_cons, beq_self_eq_true, if_true, List.filter_nil]
  rfl

/-! ### A claim is granted (R288) -/

/-- What of a state the record of a release that ran can change. -/
theorem State.noteRelease_eq (s : State) (c : Nat) : ∃ nv, s.noteRelease c = { s with ctd := { s.ctd with nv := nv } } := by
  unfold State.noteRelease
  dsimp only
  split
  · exact ⟨s.ctd.nv, rfl⟩
  · exact ⟨_, rfl⟩

/-- The lease cell once it has granted a claim. -/
def Lease.granting (e : Lease) (c now : Nat) : Lease :=
  { e with
    holder := some c, gen := e.gen + 1, expiry := now + 20000000, renewed := false, renewTick := none, granted := true
    takeover := e.closedAt.isSome, switchovers := if e.granted then satAdd 0xFFFF e.switchovers 1 else e.switchovers }

/-- The grant, before its release is noted, the clamp hits owed are logged and the other CTD becomes the standby. -/
def State.admitted (s : State) (c : Nat) : State :=
  let hits := s.ctd.hits ||| (s.ctdOf c).hit
  ({ s with ctd := { s.ctd with lease := s.ctd.lease.granting c s.time.mono, hits := hits, hitOwed := [] } } : State).setCtd c
    fun x => { x with role := .active, claimable := false, hit := hits }

/-- What a log of firmware and a change of the other CTD leave as it is, the rest of a grant leaves. -/
theorem State.grant_same {β : Type} {g : State → β} {c : Nat} (hlog : ∀ s ps, g (s.logFw 0x1306 4 ps) = g s)
    (hother : ∀ s f, g (s.setCtd (1 - c) f) = g s) (s : State) : g (s.grant c) = g ((s.admitted c).noteRelease c) := by
  unfold State.grant
  dsimp only
  split
  · exact (hother _ _).trans (foldl_same (fun s h => hlog s _) _ _)
  · exact foldl_same (fun s h => hlog s _) _ _

theorem State.grant_lease (s : State) (c : Nat) : (s.grant c).ctd.lease = s.ctd.lease.granting c s.time.mono := by
  obtain ⟨nv, hnv⟩ := (s.admitted c).noteRelease_eq c
  rw [State.grant_same (g := (·.ctd.lease)) (by simp) (by simp), hnv]
  rfl

theorem State.grant_fab (s : State) (c : Nat) : (s.grant c).fab = s.fab := by
  obtain ⟨nv, hnv⟩ := (s.admitted c).noteRelease_eq c
  rw [State.grant_same (g := State.fab) (by simp) (by simp), hnv]
  rfl

/-- Whoever is granted its claim is ACTIVE: the other CTD's number is another. -/
theorem State.grant_role {s : State} {c : Nat} (hc : c < s.ctd.ctds.length) : ((s.grant c).ctdOf c).role = .active := by
  obtain ⟨nv, hnv⟩ := (s.admitted c).noteRelease_eq c
  rw [State.grant_same (g := (·.ctdOf c)) (fun s ps => State.ctdOf_congr (by simp) c)
    (fun s f => State.ctdOf_setCtd_ne (by omega)), hnv]
  exact congrArg Ctd.role (getD_lmod_self hc)

theorem State.Apart.grant (s : State) (c : Nat) : s.Apart (s.grant c) := by
  obtain ⟨nv, hnv⟩ := (s.admitted c).noteRelease_eq c
  have hadmitted : s.Apart ((s.admitted c).noteRelease c) := by
    rw [hnv]
    exact .after .upd (.after (.setCtd ..) .upd)
  unfold State.grant
  dsimp only
  split
  · exact .after (.setCtd ..) (.after (.foldl (fun _ _ => .logFw ..) _ _) hadmitted)
  · exact .after (.foldl (fun _ _ => .logFw ..) _ _) hadmitted

/-- The lease cell grants the claim of a CTD out of reset with the current generation, with no holder, no guard and few losses. -/
theorem State.grants_of {s : State} {c : Nat} (hfree : s.ctd.lease.holder = none) (hguard : s.ctd.lease.guardEnd = none)
    (hgate : s.ctdGate c = .none) (hlosses : (s.recentLosses c).length < 3) : s.grants c s.ctd.lease.gen = true := by
  simp [State.grants, hfree, hguard, hgate, hlosses]

/-! ### What the cell applies before an access of the same tick (R290) -/

theorem State.holder_some {s : State} {c : Nat} (h : s.holder = some c) : s.power.rails = true ∧ s.ctd.lease.holder = some c := by
  unfold State.holder at h
  split at h
  · exact ⟨‹_›, h⟩
  · cases h

theorem State.holder_powered {s : State} (h : s.power.rails = true) : s.holder = s.ctd.lease.holder := if_pos h

/-- A lease that runs on, or that nobody holds, does not end. -/
theorem State.expire_runs {s : State} (h : s.ctd.lease.holder.isSome = true → s.tickNo < s.ctd.lease.expiry / 10) :
    s.expire = s := by
  unfold State.expire
  cases hh : s.ctd.lease.holder.isSome with
  | false => simp
  | true => simp [Nat.not_le.mpr (h hh)]

/-- The lease of a holder in time and watched in time stands. -/
theorem State.settleLease_held {s : State} {h : Nat} (hh : s.holder = some h) (hlease : s.tickNo < s.ctd.lease.expiry / 10)
    (hdog : s.wdogDue h = false) : s.settleLease = s := by
  unfold State.settleLease
  rw [State.expire_runs fun _ => hlease]
  simp only [hh, hdog, Bool.false_eq_true, if_false]

theorem State.settleLease_free {s : State} (hrails : s.power.rails = true) (hh : s.holder = none) : s.settleLease = s := by
  have hnone : s.ctd.lease.holder = none := (State.holder_powered hrails).symm.trans hh
  unfold State.settleLease
  rw [State.expire_runs (by simp [hnone])]
  simp only [hh]

theorem State.guardOver_none {s : State} (h : s.ctd.lease.guardEnd = none) : s.guardOver = s := by
  unfold State.guardOver
  rw [h]

end Sys2Proof.Machine
end

