-- ==== Sys2Proof/Proofs/WaybillChanges.lean ====
section
/-! PROOFS. O37: the waybill is lost and gained (R285-R290). First what each access or timer comes to. -/

namespace Sys2Proof.Machine

/-- A lease that has run out is lost. -/
theorem exec_leaseExpiry_due {s : State} {c : Nat} (hc : s.ctd.lease.holder = some c) (hdue : s.ctd.lease.expiry ≤ s.time.mono) :
    exec .leaseExpiry s = .next (s.loseWaybill 0) := by
  have hlapsed : (s.ctd.lease.holder.isSome && decide (s.ctd.lease.expiry / 10 ≤ s.tickNo)) = true := by
    simp only [hc, Option.isSome_some, Bool.true_and, decide_eq_true_eq]
    exact Nat.div_le_div_right hdue
  exact congrArg Host.Outcome.next (if_pos hlapsed)

/-- The holder gives the waybill up. -/
theorem exec_leaseRelease_held {s : State} {c : Fin 2} (hc : s.holder = some c.val) (hlease : s.tickNo < s.ctd.lease.expiry / 10)
    (hdog : s.wdogDue c = false) : exec (.leaseRelease (.sp c) 1) s = .next ((s.answer 0).loseAt 1) := by
  have hheld : (s.answer 0).holder = some c.val := hc
  refine congrArg Host.Outcome.next ?_
  simp only [spOf, State.settleLease_held hc hlease hdog, hheld]
  rfl

/-- A claim that the cell would grant, of a module with power and without a holder or a guard, is granted. -/
theorem exec_leaseClaim_free {s : State} {c : Fin 2} (hrails : s.power.rails = true) (hfree : s.holder = none)
    (hguard : s.ctd.lease.guardEnd = none) (hgrants : s.grants c s.ctd.lease.gen = true) :
    exec (.leaseClaim (.sp c) s.ctd.lease.gen) s = .next ((s.answer 0).grant c) := by
  have hanswer : (s.answer 0).grants c s.ctd.lease.gen = true := hgrants
  refine congrArg Host.Outcome.next ?_
  simp only [spOf, State.settleLease_free hrails hfree, State.guardOver_none hguard, hanswer, if_true]

/-- A claim of a waybill that is held is remembered for its tick. -/
theorem exec_leaseClaim_held {s : State} {h : Nat} (hh : s.holder = some h) (hlease : s.tickNo < s.ctd.lease.expiry / 10)
    (hdog : s.wdogDue h = false) (hguard : s.ctd.lease.guardEnd = none) (c : Fin 2) (g : BitVec 32) :
    exec (.leaseClaim (.sp c) g) s = .next ((s.answer 0).setLease fun e =>
      { e with claims := e.claims.filter (·.1 == s.tickNo) ++ [(s.tickNo, c.val, g)] }) := by
  have hrefused : (s.answer 0).grants c g = false := by
    simp [State.grants, (State.holder_some hh).2]
  refine congrArg Host.Outcome.next ?_
  simp only [spOf, State.settleLease_held hh hlease hdog, State.guardOver_none hguard, hrefused, Bool.false_eq_true, if_false]
  rfl

theorem exec_standbyLeasePoll_free {s : State} {c : Fin 2} (hrole : (s.ctdOf c).role = .standby)
    (hclaimable : (s.ctdOf c).claimable = true) (hgrants : s.grants c s.ctd.lease.gen = true) :
    exec (.standbyLeasePoll c) s = .next (s.grant c) := by
  refine congrArg Host.Outcome.next ?_
  simp only [hrole, hclaimable, hgrants, decide_true, Bool.and_self, if_true]

/-- After its grant a CTD holds the waybill. -/
theorem State.grant_holder {s : State} (hrails : s.power.rails = true) (c : Nat) : (s.grant c).holder = some c := by
  rw [State.holder_powered (by rw [(State.Apart.grant s c).power, hrails]), State.grant_lease]
  rfl

/-- After a loss nobody holds the waybill. -/
theorem State.loseWaybill_holder {s : State} {c : Nat} (h : s.ctd.lease.holder = some c) (cause : Nat) :
    (s.loseWaybill cause).holder = none := by
  simp only [State.holder, State.loseWaybill_ctd h, Lease.lost, ite_self]

theorem State.lostAt_holder {s : State} {c : Nat} (h : s.ctd.lease.holder = some c) (cause : Nat) :
    (s.lostAt cause).holder = none := by
  obtain ⟨n, hctd⟩ := State.lostAt_ctd h cause
  simp only [State.holder, hctd, Lease.lost, ite_self]

/-- After the loss of a CTD the claim of the other one, with the current generation, would be granted. -/
theorem State.lostAt_grants {s : State} {c o : Nat} (h : s.ctd.lease.holder = some c) (ho : o ≠ c) (hgate : s.ctdGate o = .none)
    (hlosses : (s.recentLosses o).length < 3) : (s.lostAt 1).grants o s.ctd.lease.gen = true := by
  obtain ⟨n, hctd⟩ := State.lostAt_ctd h 1
  have hsame : (s.lostAt 1).ctdOf o = s.ctdOf o := (State.lostAt_ctdOf h 1 o).trans (State.loseWaybill_other h ho 1)
  have hgen : s.ctd.lease.gen = (s.lostAt 1).ctd.lease.gen := by rw [hctd]; rfl
  rw [hgen]
  refine State.grants_of ?_ ?_ ?_ ?_
  · rw [hctd]; rfl
  · rw [hctd]; rfl
  · rw [(State.Apart.lostAt s 1).ctdGate hsame, hgate]
  · rwa [(State.Apart.lostAt s 1).recentLosses hsame]

/-- Settles O37: an expiry and a release are losses, a claim and a poll are grants; what each leaves is the rule of its kind. -/
theorem waybillChanges : Obligations.WaybillChanges := by
  unfold Obligations.WaybillChanges
  refine ⟨?_, ?_, ?_, ?_, ?_, ?_, ?_⟩
  · intro s c hc hdue
    have hcell := (State.holder_some hc).2
    have hctd := State.loseWaybill_ctd hcell 0
    have hapart := State.Apart.loseWaybill s 0
    refine ⟨_, exec_leaseExpiry_due hcell hdue, State.loseWaybill_holder hcell 0, ?_, ?_, ?_, ?_, fun hgates => ?_, hapart.mem,
      hapart.eng, hapart.slices, hapart.peers⟩
    case refine_5 => rw [hctd]; exact if_pos hgates
    all_goals rw [hctd]; rfl
  · intro s t ht hdue
    refine congrArg Host.Outcome.next ?_
    simp only [State.guardOver, ht, hdue, if_true]
  · intro s c hc hlease hdog hclaims
    have hcell : (s.answer 0).ctd.lease.holder = some c.val := (State.holder_some hc).2
    obtain ⟨n, hctd⟩ := State.lostAt_ctd hcell 1
    have hapart := State.Apart.lostAt (s.answer 0) 1
    have hlost : (s.answer 0).loseAt 1 = (s.answer 0).lostAt 1 := State.loseAt_noClaims (s := s.answer 0) hclaims 1
    refine ⟨_, hlost ▸ exec_leaseRelease_held hc hlease hdog, State.lostAt_holder hcell 1, ?_, ?_, ?_, ?_, ?_, hapart.bus, hapart.mem,
      hapart.eng, hapart.slices, hapart.peers⟩
    all_goals rw [hctd]; rfl
  · intro s c o hc hlease hdog ho hclaims hgate hlosses
    have hcell : (s.answer 0).ctd.lease.holder = some c.val := (State.holder_some hc).2
    have hrails : ((s.answer 0).lostAt 1).power.rails = true := by
      rw [(State.Apart.lostAt (s.answer 0) 1).power]
      exact (State.holder_some hc).1
    have hgrants : ((s.answer 0).lostAt 1).grants o s.ctd.lease.gen = true :=
      State.lostAt_grants hcell (fun h => ho (Fin.ext h)) hgate hlosses
    obtain ⟨n, hctd⟩ := State.lostAt_ctd hcell 1
    have hapart := (State.Apart.lostAt (s.answer 0) 1).trans (.grant _ o)
    have hlost : (s.answer 0).loseAt 1 = ((s.answer 0).lostAt 1).grant o :=
      (State.loseAt_oneClaim (s := s.answer 0) hclaims 1).trans (if_pos hgrants)
    refine ⟨_, hlost ▸ exec_leaseRelease_held hc hlease hdog, State.grant_holder hrails o, ?_, ?_, ?_, ?_, hapart.mem, hapart.eng⟩
    all_goals rw [State.grant_lease, hctd]; rfl
  · intro s c hrails hfree hguard hgate hlosses hc
    have hcell : s.ctd.lease.holder = none := (State.holder_powered hrails).symm.trans hfree
    have hapart := State.Apart.grant (s.answer 0) c
    refine ⟨_, exec_leaseClaim_free hrails hfree hguard (State.grants_of hcell hguard hgate hlosses),
      State.grant_holder (s := s.answer 0) hrails c, ?_, ?_, ?_, State.grant_role hc, hapart.bus, hapart.mem, hapart.eng,
      State.grant_fab ..⟩
    all_goals rw [State.grant_lease]; rfl
  · intro s c g h hh hlease hdog hguard
    exact exec_leaseClaim_held hh hlease hdog hguard c g
  · intro s c hrails hfree hguard hgate hlosses hrole hclaimable
    have hcell : s.ctd.lease.holder = none := (State.holder_powered hrails).symm.trans hfree
    have hapart := State.Apart.grant s c
    refine ⟨_, exec_standbyLeasePoll_free hrole hclaimable (State.grants_of hcell hguard hgate hlosses),
      State.grant_holder hrails c, ?_, ?_, hapart.mem, hapart.eng, State.grant_fab ..⟩
    all_goals rw [State.grant_lease]; rfl

end Sys2Proof.Machine
end

