-- ==== Sys2Proof/Proofs/Renewal.lean ====
section
/-! PROOFS. O54: a renewal of the lease (R286), in a tick in which neither the lease nor the holder's watchdog ends (R290, R297). -/

namespace Sys2Proof.Machine

/-- The lease cell with a renewal accepted: 20 ms from the write. -/
abbrev State.renewed (s : State) : State :=
  (s.answer 0).setLease fun e => { e with expiry := s.time.mono + 20000000, renewed := true, renewTick := some s.tickNo }

/-- The holder's renewal is accepted, and an opening of its tick that waited for it is made. -/
theorem exec_leaseRenew_held {s : State} {c : Fin 2} (hc : s.holder = some c.val) (hlease : s.tickNo < s.ctd.lease.expiry / 10)
    (hdog : s.wdogDue c = false) : exec (.leaseRenew (.sp c) s.ctd.lease.gen) s =
      .next (if s.ctd.lease.opening = some (s.tickNo, c.val) && !s.ctd.lease.gates then s.renewed.openGates c else s.renewed) := by
  have hheld : (s.answer 0).holder = some c.val := hc
  refine congrArg Host.Outcome.next ?_
  simp only [spOf, State.settleLease_held hc hlease hdog, hheld]
  exact if_pos (by simp)

/-- Any other renewal is counted and logged. -/
theorem exec_leaseRenew_rejected {s : State} (hsettled : s.settleLease = s) {c : Fin 2} {g : BitVec 32}
    (hbad : s.holder ≠ some c.val ∨ g ≠ s.ctd.lease.gen) :
    exec (.leaseRenew (.sp c) g) s = .next (((s.answer 0).setLease fun e =>
      { e with badRenew := min 0xFFFF (e.badRenew + 1) }).log 0x1302 3 srcLease [c.val, g.toNat, s.ctd.lease.gen.toNat]) := by
  refine congrArg Host.Outcome.next ?_
  simp only [spOf, hsettled]
  refine if_neg ?_
  rw [Bool.and_eq_true, decide_eq_true_eq, decide_eq_true_eq]
  exact not_and_or.mpr hbad

/-- Settles O54: the holder's renewal with the current generation is accepted, every other one rejected. -/
theorem renewal : Obligations.Renewal := by
  unfold Obligations.Renewal
  refine ⟨?_, ?_, ?_⟩
  · intro s c hc hlease hdog hopen
    rw [exec_leaseRenew_held hc hlease hdog, if_neg]
    rcases hopen with hgates | hopening
    · simp [hgates]
    · simp [hopening]
  · intro s c g hrails hruns hbad
    refine exec_leaseRenew_rejected ?_ hbad
    cases hh : s.holder with
    | none => exact State.settleLease_free hrails hh
    | some h =>
      obtain ⟨hlease, hdog⟩ := hruns h hh
      exact State.settleLease_held hh hlease hdog
  · intro s c hc hlease hdog hgates hopening
    rw [exec_leaseRenew_held hc hlease hdog, if_pos]
    simp [hgates, hopening]

end Sys2Proof.Machine
end

