-- ==== Sys2Proof/Proofs/ManagementPortAndI3c.lean ====
section
/-! PROOFS. O10: the management port (R293, R486) and the I3C target (R498). -/

namespace Sys2Proof.Machine

/-! ### Frames (R486) -/

/-- A frame that arrives on the port's link while a CTD serves is taken in. -/
theorem exec_mgmtFrameReceive_served {s : State} {h : Nat} (hlink : s.mgmt.linkUp = true) (hport : s.unitOn 13 = true)
    (hserving : s.serving = some h) (f : MgmtFrame) : exec (.mgmtFrameReceive f) s = .next (s.frame f) := by
  refine congrArg Host.Outcome.next ?_
  simp only [hlink, hport, hserving, Bool.and_self, Bool.not_true, Bool.false_eq_true, if_false, Option.isSome_some, if_true]

/-- While none serves it is discarded. -/
theorem exec_mgmtFrameReceive_unserved {s : State} (hlink : s.mgmt.linkUp = true) (hport : s.unitOn 13 = true)
    (hserving : s.serving = none) (f : MgmtFrame) : exec (.mgmtFrameReceive f) s = .next s.discard := by
  refine congrArg Host.Outcome.next ?_
  simp only [hlink, hport, hserving, Bool.and_self, Bool.not_true, Bool.false_eq_true, if_false, Option.isSome_none]

/-- A request for the module's own address: the station is learnt and answered. -/
theorem State.frame_arpRequest {s : State} (hvalid : s.mgmt.valid = true) (ip : BitVec 32) (mac : BitVec 48) :
    s.frame (.arpRequest s.mgmt.ip ip mac) =
      { s.learn ip mac with mgmt := { (s.learn ip mac).mgmt with arpOut := s.mgmt.arpOut ++ [(ip.toNat, mac.toNat)] } } := by
  simp only [State.frame, hvalid, beq_self_eq_true, Bool.and_self, if_true]
  rfl

/-- A whole datagram for the module's address and the Darid port is handed on. -/
theorem State.frame_darid {s : State} (hvalid : s.mgmt.valid = true) (src : BitVec 32) (port : BitVec 16) (b : List Byte) :
    s.frame (.ipv4 s.fuse.mac s.mgmt.ip true (some 31354) src port b) = s.datagram src.toNat port.toNat b := by
  simp only [State.frame, hvalid, beq_self_eq_true, Bool.true_or, Bool.and_self, if_true]

/-! ### I3C (R498) -/

/-- Bytes that fall on no byte of a register leave it alone. -/
theorem State.i3cPut_apart {s : State} {off base n : Nat} {b : List Byte} (h : base + n ≤ off ∨ off + b.length ≤ base) (r : Reg) :
    s.i3cPut off b r base n = s := by
  refine if_neg ?_
  rcases h with h | h <;> simp only [Bool.and_eq_true, decide_eq_true_eq] <;> omega

/-- The state in which the data of a write over the bus are applied: the offset is stored, the latch dropped. -/
abbrev State.i3cAt (s : State) (off : Nat) : State := { s with i3c := { s.i3c with offset := off, latch := none } }

theorem exec_i3cPrivateWrite_addressed {s : State} {a : BitVec 7} (ha : s.i3c.addr = some a) (lo hi : BitVec 8) (b : List Byte) :
    exec (.i3cPrivateWrite (lo :: hi :: b)) s = .next ((((s.i3cAt (lo.toNat + 256 * hi.toNat)).i3cPut
      (lo.toNat + 256 * hi.toNat) b .mgmtIp 0x108 8).i3cPut (lo.toNat + 256 * hi.toNat) b .mgmtGw 0x110 4).i3cPut
      (lo.toNat + 256 * hi.toNat) b .mgmtStatus 0x118 1) := by
  exact congrArg Host.Outcome.next ((if_neg (by simp [ha])).trans rfl)

/-- A register of one byte written whole has the byte. -/
theorem patchReg_byte (old off : Nat) (b : Byte) : patchReg old 1 off off [b] = b.toNat := by
  simp [patchReg, leBytes, ofLe]

/-- FEC_EN is bit 1 of the byte at 0x118. -/
theorem State.i3cPut_fec (s : State) (b : Byte) :
    s.i3cPut 0x118 [b] .mgmtStatus 0x118 1 = { s with mgmt := { s.mgmt with fec := b.getLsbD 1 } } := by
  refine (if_pos rfl).trans ?_
  rw [patchReg_byte]
  rfl

/-- Byte 0 of LEASE_MGMT_GW. -/
theorem State.i3cByte_gw (s : State) : s.i3cByte 0x110 = (BitVec.ofNat 8 s.mgmt.gw.toNat, s) := by
  show (BitVec.ofNat 8 (s.mgmt.gw.toNat / 256 ^ 0), s) = _
  rw [Nat.pow_zero, Nat.div_one]

/-- Settles O10: a frame by who serves and what it is, an I3C transfer by the registers its bytes fall on. -/
theorem managementPortAndI3c : Obligations.ManagementPortAndI3c := by
  unfold Obligations.ManagementPortAndI3c
  refine ⟨?_, ?_, ?_, ?_, ?_, ?_, ?_, ?_⟩
  · intro s up
    rfl
  · intro s f hlink hport hserving
    exact exec_mgmtFrameReceive_unserved hlink hport hserving f
  · intro s h ip mac hlink hport hserving hvalid
    rw [exec_mgmtFrameReceive_served hlink hport hserving, State.frame_arpRequest hvalid]
    rfl
  · intro s h src port b hlink hport hserving hvalid
    rw [exec_mgmtFrameReceive_served hlink hport hserving, State.frame_darid hvalid]
    rfl
  · intro s a
    rfl
  · intro s a lo hi ha hoff
    rw [exec_i3cPrivateWrite_addressed ha, State.i3cPut_apart (.inl (by omega)), State.i3cPut_apart (.inl (by omega)),
      State.i3cPut_apart (.inl (by omega))]
  · intro s a b ha
    rw [exec_i3cPrivateWrite_addressed ha]
    show Host.Outcome.next ((((s.i3cAt 0x118).i3cPut 0x118 [b] .mgmtIp 0x108 8).i3cPut 0x118 [b] .mgmtGw 0x110 4).i3cPut 0x118 [b]
      .mgmtStatus 0x118 1) = _
    rw [State.i3cPut_apart (r := .mgmtIp) (.inl (by decide)), State.i3cPut_apart (r := .mgmtGw) (.inl (by decide)), State.i3cPut_fec]
  · intro s a ha hoff
    refine congrArg Host.Outcome.next ?_
    simp only [ha, Option.isNone_some, Bool.false_eq_true, if_false, State.i3cRead, hoff, State.i3cByte_gw]
    rfl

end Sys2Proof.Machine
end

