-- ==== Sys2Proof/Proofs/PowerSamplesAndCommands.lean ====
section
/-! PROOFS. O33: samples of power and of junctions (R306, R492, R493) and the power commands (R490, R332). First what each sample and
each command's own part comes to. -/

namespace Sys2Proof.Machine

/-! ### Power samples (R306) -/

/-- Every die of the module with its limit of power changed by a sample within the current limit. -/
abbrev State.stepLimits (s : State) (f : Nat → Nat) : State :=
  { s with power := { s.power with dies := s.power.dies.map fun p => { p with limit := f p.limit, halved := false } } }

theorem exec_powerLimiterSample_below {s : State} {w a : Nat} (hw : w ≤ s.ctd.clamp.pMax) (ha : a ≤ s.ctd.clamp.iMax) :
    exec (.powerLimiterSample w a) s = .next (s.stepLimits (· - 1)).settleClocks := by
  refine congrArg Host.Outcome.next ?_
  simp only [Nat.not_lt.mpr hw, Nat.not_lt.mpr ha, decide_false, if_false]

theorem exec_powerLimiterSample_above {s : State} {w a : Nat} (hw : s.ctd.clamp.pMax < w) (ha : a ≤ s.ctd.clamp.iMax) :
    exec (.powerLimiterSample w a) s =
      .next ((s.stepLimits fun l => min 15 (l + 1)).clampHit 0 w s.ctd.clamp.pMax 0).settleClocks := by
  refine congrArg Host.Outcome.next ?_
  simp only [hw, Nat.not_lt.mpr ha, decide_false, if_false, if_true]

/-! ### Junction samples (R492) -/

/-- Two changes of a die's power state that agree on it as it stands give one state. -/
theorem State.setPow_congr {s : State} {d : Nat} {f g : PowDie → PowDie} (h : f (s.pow d) = g (s.pow d)) :
    s.setPow d f = s.setPow d g :=
  congrArg (fun l => { s with power := { s.power with dies := l } }) (lmod_congr h)

/-- A change that leaves a die's power state as it stands is none. -/
theorem State.setPow_same {s : State} {d : Nat} {f : PowDie → PowDie} (h : f (s.pow d) = s.pow d) : s.setPow d f = s :=
  (State.setPow_congr (g := id) h).trans
    (congrArg (fun l => { s with power := { s.power with dies := l } }) (lmod_id s.power.dies d fun _ => rfl))

theorem State.pow_setPow_ne {s : State} {d e : Nat} {f : PowDie → PowDie} (h : e ≠ d) : (s.setPow d f).pow e = s.pow e :=
  getD_lmod_ne h

/-- A junction sample is kept in the die's power state and leaves the rest of it. -/
theorem State.pow_sampled {β : Type} {g : PowDie → β} {c : Int} (h : ∀ p : PowDie, g { p with junction := c } = g p) (s : State)
    (d : Nat) : g ((s.setPow d fun p => { p with junction := c }).pow d) = g (s.pow d) := by
  by_cases hd : d < s.power.dies.length
  · exact (congrArg g (getD_lmod_self hd)).trans (h _)
  · have hout : s.power.dies.length ≤ d := Nat.le_of_not_lt hd
    refine congrArg g ?_
    unfold State.pow State.setPow
    rw [List.getD_eq_default _ _ hout, List.getD_eq_default _ _ (by rwa [length_lmod])]

/-- A fold of minima is as low as a bound only if the start and all parts are. -/
theorem le_foldl_min {α : Type} {g : α → Int} {b : Int} {l : List α} {a : Int} (ha : b ≤ a) (hl : ∀ n ∈ l, b ≤ g n) :
    b ≤ l.foldl (fun m n => min m (g n)) a := by
  induction l generalizing a with
  | nil => exact ha
  | cons n l ih =>
    exact ih (le_min ha (hl n List.mem_cons_self)) fun m hm => hl m (List.mem_cons_of_mem n hm)

/-- Nobody is its own neighbour, and each die has some. -/
theorem ringNeighbours_ne (d : Fin 4) : (∀ n ∈ ringNeighbours d, n ≠ d.val) ∧ (ringNeighbours d).headD 0 ∈ ringNeighbours d := by
  revert d
  decide

theorem PowDie.unclamped {p : PowDie} (hthermal : p.thermal = 0) (hhot : p.hot = false) (hneigh : p.neigh = false) :
    { p with thermal := 0, hot := false, neigh := false } = p := by
  cases p
  simp_all

/-- A sample of an unclamped die below T_J_MAX_C and no more than 25 degrees above its neighbours meets no condition. -/
theorem State.thermalStep_none {s : State} {d : Nat} {c : Int} (hthermal : (s.pow d).thermal = 0) (hhot : (s.pow d).hot = false)
    (hneigh : (s.pow d).neigh = false) (hself : c ≤ (s.ctd.clamp.tj : Int) * 1000)
    (hhead : (ringNeighbours d).headD 0 ∈ ringNeighbours d) (hcool : ∀ n ∈ ringNeighbours d, c - 25000 ≤ (s.pow n).junction) :
    s.thermalStep d c = s.settleClocks := by
  have hmin := le_foldl_min (hcool _ hhead) hcool
  have hnself : ¬ (s.ctd.clamp.tj : Int) * 1000 < c := Int.not_lt.mpr hself
  have hnneigh : ¬ (ringNeighbours d).foldl (fun b n => min b (s.pow n).junction) ((s.pow ((ringNeighbours d).headD 0)).junction)
      + 25000 < c := by omega
  unfold State.thermalStep
  simp only [hthermal, hhot, hneigh, hnself, hnneigh, decide_false, Bool.or_self, Bool.false_and, Bool.and_false, Bool.false_eq_true,
    if_false, bne_self_eq_false]
  refine congrArg State.settleClocks (State.setPow_same ?_)
  rw [hthermal]
  exact PowDie.unclamped hthermal hhot hneigh

/-- A die out of reset takes a sample as a trip at 10 degrees above T_J_MAX_C, and as a thermal step below that. -/
theorem exec_junctionSample_awake {s : State} {d : Fin 4} (htripped : (s.die d).tripped = false)
    (hreset : (s.die d).inReset = false) (c : Int) : exec (.junctionSample d c) s = .next (
      if (s.ctd.clamp.tj : Int) * 1000 + 10000 ≤ c then (s.setPow d fun p => { p with junction := c }).thermalTrip d c
      else (s.setPow d fun p => { p with junction := c }).thermalStep d c).alertCheck :=
  congrArg (fun t => Host.Outcome.next (State.alertCheck t))
    ((if_neg (ne_true_of_eq_false htripped)).trans (if_neg (ne_true_of_eq_false hreset)))

/-! ### The alert pin (R493) -/

theorem exec_thermAlertRelease_due {s : State} {t : Nat} (hclear : s.power.clearSince = some t) (halert : s.power.alert = true)
    (hholds : s.alertHolds = false) (hdue : t + 10000000 ≤ s.time.mono) :
    exec .thermAlertRelease s = .next { s with power := { s.power with alert := false } } := by
  refine congrArg Host.Outcome.next ?_
  simp only [hclear, halert, hholds, hdue, Bool.not_false, decide_true, Bool.and_self, if_true]

/-! ### Commands -/

/-- Setpoints inside the fused table and the clamps: the setpoints are stored as they are, and the step is paced. -/
theorem dPowerSetDie_body {s t : State} {a : List Nat} (hme : arg a 1 ≤ min (s.fuseMhz (arg a 0)) (s.ctd.clamp.fMe.getD (arg a 0) 0))
    (hhost : arg a 2 ≤ s.ctd.clamp.fHost) (hmv : arg a 3 ≤ s.ctd.clamp.vCore)
    (hvme : arg a 1 / 25 * 25 ≤ (s.vfLimit (arg a 0) (arg a 3 / 5 * 5)).1)
    (hvhost : arg a 2 / 100 * 100 ≤ (s.vfLimit (arg a 0) (arg a 3 / 5 * 5)).2)
    (ht : t = (if (s.pow (arg a 0)).me = arg a 1 / 25 * 25 && (s.pow (arg a 0)).host = arg a 2 / 100 * 100 &&
      (s.pow (arg a 0)).mv = arg a 3 / 5 * 5 then s else s.paced (arg a 0))) (w : Who) :
    dPowerSetDie.body s w a = { s := (t.setPow (arg a 0) fun p =>
      { p with me := arg a 1 / 25 * 25, host := arg a 2 / 100 * 100, mv := arg a 3 / 5 * 5 }).settleClocks } := by
  subst ht
  simp only [dPowerSetDie, Nat.min_eq_left hme, Nat.min_eq_left hhost, Nat.min_eq_left hmv, Nat.not_lt.mpr hme, Nat.not_lt.mpr hhost,
    Nat.not_lt.mpr hmv, Nat.not_lt.mpr hvme, Nat.not_lt.mpr hvhost, decide_false, Bool.or_self, Bool.not_false, Bool.false_eq_true,
    if_false, if_true]
  rfl

theorem dPowerCap_body_stored {s : State} {a : List Nat} (h : arg a 0 ≤ s.ctd.clamp.pMax) (w : Who) :
    dPowerCap.body s w a = { s := { s with power := { s.power with cap := arg a 0 } } } := by
  simp only [dPowerCap, Nat.min_eq_left h, Nat.not_lt.mpr h, if_false]
  rfl

theorem dPowerCap_body_clamped {s : State} {a : List Nat} (h : s.ctd.clamp.pMax < arg a 0) (w : Who) :
    dPowerCap.body s w a = { s := { s with power := { s.power with cap := s.ctd.clamp.pMax } }, status := dClamped } := by
  simp only [dPowerCap, Nat.min_eq_right h.le, h, if_true]

/-- Settles O33: each sample by the limits and conditions it meets, each command is heard and has the effect of its own part. -/
theorem powerSamplesAndCommands : Obligations.PowerSamplesAndCommands := by
  unfold Obligations.PowerSamplesAndCommands
  refine ⟨?_, ?_, ?_, ?_, ?_, ?_, ?_, ?_, ?_⟩
  · intro s w a hw ha
    exact ⟨_, rfl, exec_powerLimiterSample_below hw ha⟩
  · intro s w a hw ha
    exact ⟨_, rfl, exec_powerLimiterSample_above hw ha⟩
  · intro s d c htripped hreset hthermal hhot hneigh hself hcool
    obtain ⟨hne, hhead⟩ := ringNeighbours_ne d
    rw [exec_junctionSample_awake htripped hreset, if_neg (by omega)]
    refine congrArg (fun t => Host.Outcome.next (State.alertCheck t)) (State.thermalStep_none ?_ ?_ ?_ hself hhead ?_)
    · exact (State.pow_sampled (g := PowDie.thermal) (fun _ => rfl) s d).trans hthermal
    · exact (State.pow_sampled (g := PowDie.hot) (fun _ => rfl) s d).trans hhot
    · exact (State.pow_sampled (g := PowDie.neigh) (fun _ => rfl) s d).trans hneigh
    · intro n hn
      have hle := List.all_eq_true.mp hcool n hn
      rw [decide_eq_true_eq] at hle
      rw [State.pow_setPow_ne (hne n hn)]
      omega
  · intro s d c htripped hreset hc
    rw [exec_junctionSample_awake htripped hreset, if_pos hc]
  · intro s t hclear halert hholds hdue
    exact exec_thermAlertRelease_due hclear halert hholds hdue
  · intro r s t d h hl hd hdie h400 hme h500 hhost h600 hmv hvme hvhost ht
    subst hd
    have hbad : dPowerSetDie.bad s (DReq.nums r) = none := badWord_none (by simp [hdie, h400, h500, h600])
    have hbody := dPowerSetDie_body hme hhost hmv hvme hvhost ht
    have hlen : dPowerSetDie.len r.args.length = true := by simp [dPowerSetDie, hl]
    exact congrArg Host.Outcome.next (runDarid_body (d := dPowerSetDie) h (fun _ => rfl) hlen hbad rfl (hbody _))
  · intro r s h hl hcap
    exact congrArg _ (runDarid_body (d := dPowerCap) h (fun _ => rfl) (by simp [dPowerCap, hl]) rfl rfl
      (dPowerCap_body_stored hcap _))
  · intro r s h hl hcap
    exact congrArg _ (runDarid_body (d := dPowerCap) h (fun _ => rfl) (by simp [dPowerCap, hl]) rfl rfl
      (dPowerCap_body_clamped hcap _))
  · intro r s h hl
    exact congrArg _ (runDarid_body (d := dPowerQuery) h (fun _ => rfl) (by simp [dPowerQuery, hl]) rfl rfl rfl)

end Sys2Proof.Machine
end

