-- ==== Sys2Proof/Proofs/SteadyRules.lean ====
section
/-! PROOFS. Rules for `Steady`: what logging, answering, the requests of the fabric, the hoard and the sieve runs of a reset leave of
the lease cell and of the dies' resets. As for `Keeps`, each function has one lemma that names those of the functions it calls, the
last update first. -/

namespace Sys2Proof.Machine

/-- The lease cell and which dies are in reset are what they were. -/
structure Steady (s t : State) : Prop where
  lease : t.ctd.lease = s.ctd.lease
  resets : t.dies.map (·.inReset) = s.dies.map (·.inReset)

namespace Steady

theorem refl (s : State) : Steady s s := ⟨rfl, rfl⟩

theorem after {s t u : State} (k : Steady t u) (h : Steady s t) : Steady s u :=
  ⟨k.lease.trans h.lease, k.resets.trans h.resets⟩

/-- A fold that carries a state along: `g` finds it in what is carried. -/
theorem foldlVia {α β : Type} (g : β → State) {f : β → α → β} (h : ∀ b a, Steady (g b) (g (f b a))) (l : List α) (b : β) :
    Steady (g b) (g (l.foldl f b)) := by
  induction l generalizing b with
  | nil => exact refl _
  | cons a l ih => exact after (ih _) (h b a)

theorem foldl {α : Type} {f : State → α → State} (h : ∀ (s : State) (a : α), Steady s (f s a)) (l : List α) (s : State) :
    Steady s (l.foldl f s) := foldlVia id h l s

theorem ite {c : Prop} [Decidable c] {s t u : State} (h : Steady s t) (k : Steady s u) : Steady s (if c then t else u) := by
  split <;> assumption

/-- An update of other fields. -/
theorem upd {t : State} {pending fuse mod ring bus time dieTime sched eng mem ledgers obs mbox silent fab ctd job toll power mgmt i3c
    spdm free} (hlease : ctd.lease = t.ctd.lease := by rfl) :
    Steady t ⟨pending, fuse, mod, ring, t.dies, bus, time, dieTime, sched, eng, mem, ledgers, obs, mbox, silent, fab, ctd, job, toll,
      power, mgmt, i3c, spdm, free⟩ := ⟨hlease, rfl⟩

/-- A change of one die that leaves its reset alone. -/
theorem setDie {f : DieSt → DieSt} (h : ∀ x, (f x).inReset = x.inReset) (s : State) (d : Nat) : Steady s (s.setDie d f) := by
  refine ⟨rfl, ?_⟩
  show (lmod s.dies d f).map (·.inReset) = _
  refine List.ext_getElem? fun i => ?_
  rw [List.getElem?_map, List.getElem?_map, getElem?_lmod]
  split
  · cases s.dies[i]? <;> simp [h]
  · rfl

end Steady

/-- So they are in the state that an operation answers, if it answers one. -/
def SteadyOpt (s : State) (o : Option State) : Prop := ∀ t, o = some t → Steady s t

namespace SteadyOpt

theorem none (s : State) : SteadyOpt s none := by
  rintro t ⟨⟩

theorem some {s t : State} (h : Steady s t) : SteadyOpt s (some t) := by
  rintro u ⟨⟩
  exact h

theorem ite {c : Prop} [Decidable c] {s : State} {a b : Option State} (h : SteadyOpt s a) (k : SteadyOpt s b) :
    SteadyOpt s (if c then a else b) := by
  split <;> assumption

end SteadyOpt

theorem Steady.of_some {s t : State} {o : Option State} (k : SteadyOpt s o) (h : o = some t) : Steady s t := k t h

/-! ### Logging -/

theorem LogPart.event_dies (p : LogPart) (e : LogEnv) (code sev src : Nat) (ps : List Nat) :
    (p.event e code sev src ps).dies = p.dies := by
  have hlost : ∀ q : LogPart, (q.addLost e).dies = q.dies := by
    intro q
    refine foldl_same ?_ _ q
    intro p c
    rfl
  have htally : ∀ (q : LogPart) (n : Nat), (q.addTally e n code).dies = q.dies := by
    intro q n
    unfold LogPart.addTally
    dsimp only
    split
    · rfl
    · split <;> rfl
  exact (hlost _).trans (htally _ _)

namespace Steady

theorem event (s : State) (e : LogEnv) (code sev src : Nat) (ps : List Nat) :
    Steady s (s.withLog (s.logPart.event e code sev src ps)) :=
  ⟨rfl, congrArg (List.map _) (LogPart.event_dies ..)⟩

theorem toFifo (s : State) (d code sev src : Nat) (ps : List Nat) :
    Steady s (s.withLog (s.logPart.toFifo d code sev src ps)) := by
  refine ⟨rfl, (Steady.setDie ?_ s d).resets⟩
  intro x
  split <;> rfl

theorem log (s : State) (code sev src : Nat) (ps : List Nat) : Steady s (s.log code sev src ps) := by
  unfold State.log
  split
  · exact toFifo ..
  · exact event ..
  · exact refl _

theorem logFw (s : State) (code sev : Nat) (ps : List Nat) : Steady s (s.logFw code sev ps) := log ..

theorem clampHit (s : State) (bit value limit unit : Nat) : Steady s (s.clampHit bit value limit unit) := by
  unfold State.clampHit
  dsimp only
  refine ite (refl _) ?_
  split
  · exact upd
  · exact after (logFw ..) (after upd upd)

theorem logDarid (s : State) (w : Who) (st d : Nat) : Steady s (s.logDarid w st d) := by
  unfold State.logDarid
  exact ite (refl _) (ite (logFw ..) (ite (logFw ..) (refl _)))

theorem respond (s : State) (w : Who) (final : Bool) (ws : List Word) : Steady s (s.respond w final ws) :=
  ⟨by rw [State.respond_ctd], by rw [State.respond_dies]⟩

theorem finish (s : State) (w : Who) (st d : Nat) (ws : List Nat) : Steady s (s.finish w st d ws) := by
  unfold State.finish
  dsimp only
  exact ite (after (logDarid ..) (respond ..)) (ite upd (refl _))

theorem finishAll (s : State) (l : List Who) (st d : Nat) (ws : List Nat) : Steady s (s.finishAll l st d ws) :=
  foldl (fun _ _ => finish ..) l s

/-! ### Memories, semaphores and queues -/

theorem setMem (s : State) (f : Mem → Mem) : Steady s (s.setMem f) := upd

theorem lWrite (s : State) (a : Nat) (b : List Byte) (bad : List Nat) : Steady s (s.lWrite a b bad) := by
  unfold State.lWrite
  exact ite upd upd

theorem semAdd (s : State) (k : Nat) (v : Word) : Steady s (s.semAdd k v) := by
  unfold State.semAdd
  exact ite upd upd

theorem setStarted (s : State) (c q : Nat) (i : Word) (f : Started → Started) : Steady s (s.setStarted c q i f) :=
  ⟨by rw [State.setStarted_ctd], by rw [State.setStarted_dies]⟩

/-! ### Requests of the fabric (`Machine/FabricOps`) -/

theorem txTouch (s : State) (die n : Nat) : Steady s (s.txTouch die n) := by
  refine setDie ?_ s die
  intro x
  rfl

theorem txNote (s : State) (o : ReqOwner) : Steady s (s.txNote o) := by
  unfold State.txNote
  split
  · exact txTouch ..
  · exact refl _

theorem emit (s : State) (k : Packet) (resp board : Bool) : SteadyOpt s (s.emit k resp board) := by
  unfold State.emit
  cases s.nextHop k.slice k.dst.toNat resp board k.esc k.dl.toNat (pktSize k) with
  | none => exact .none s
  | some h => exact .some upd

theorem settle (s : State) (r : FReq) (st : Nat) (operand : BitVec 64) (data : List Byte) (mask : BitVec 128) :
    Steady s (s.settle r st operand data mask) := by
  unfold State.settle
  dsimp only
  split
  · refine after (setStarted ..) (ite ?_ (refl _))
    split
    · exact after (setStarted ..) (lWrite ..)
    · exact setStarted ..
  · have hconsume : ∀ (i : Initiator) (e : AccErr) (a : Nat),
        Steady s (match i with | .hart h => if e = .husk then s.hartConsume h a else s | _ => s) := by
      intro i e a
      split
      · exact ite upd (refl _)
      · exact refl _
    exact ite (after upd (hconsume ..)) (after upd (hconsume ..))
  · exact upd
  · split
    · exact upd
    · exact ite upd (ite (after upd (after (setMem ..) upd)) upd)
    · exact upd
  · exact refl _

theorem failFlow (s : State) (remote cls st : Nat) : Steady s (s.failFlow remote cls st) := by
  unfold State.failFlow
  exact ite (refl _) (after (foldl (fun _ _ => settle ..) _ _) upd)

theorem sendReq (s : State) (r : FReq) : Steady s (s.sendReq r) := by
  unfold State.sendReq
  dsimp only
  split
  · next t ht => exact after (of_some (emit _ _ _ _) ht) (after (txNote ..) (after upd upd))
  · exact after (failFlow ..) (after (txNote ..) (after upd upd))

theorem issue (s : State) (r : FReq) (board : Bool) : Steady s (s.issue r board) := by
  unfold State.issue
  dsimp only
  have hdrop : Steady s (s.winDrop r.dst.toNat r.ptype.toNat) := after (clampHit ..) upd
  exact ite (after (settle ..) hdrop) (ite (settle ..) (ite (settle ..) (ite upd (ite (after (txNote ..) upd) (sendReq ..)))))

theorem issueAll (s : State) (l : List FReq) (board : Bool) : Steady s (s.issueAll l board) :=
  foldl (fun _ _ => issue ..) l s

/-! ### The hoard (`Machine/Hoard`) -/

theorem snapIssue (s : State) (c stage : Nat) (l : List FReq) : Steady s (s.snapIssue c stage l) := after (issueAll ..) upd

theorem endSnap (s : State) (x : Snapshot) : Steady s (s.endSnap x) := by
  have hsem : ∀ (o : Option Nat) (t : State), Steady t (match o with | some k => t.semAdd k 1 | none => t) := by
    intro o t
    split
    · exact semAdd ..
    · exact refl t
  unfold State.endSnap
  dsimp only
  split
  · exact after (finish ..) (after (logFw ..) (after (hsem ..) (after upd upd)))
  · exact after (logFw ..) (after (hsem ..) (after upd upd))

theorem copyFails (s : State) (x : Snapshot) (reason : Nat) : Steady s (s.copyFails x reason).2 := after (logFw ..) upd

theorem beginCopy (s : State) (x : Snapshot) (k : Nat) : Steady s (s.beginCopy x k) := by
  unfold State.beginCopy
  split
  · exact endSnap ..
  · exact ite (endSnap ..) (after (snapIssue ..) upd)

theorem snapStep (s : State) (c : Nat) : SteadyOpt s (s.snapStep c) := by
  unfold State.snapStep
  dsimp only
  split
  · exact .none s
  · refine .ite (.none s) (.ite (.ite (.some (endSnap ..)) (.none s)) (.ite (.none s) (.ite (.some (after (endSnap ..) (copyFails ..)))
      (.ite (.some (after (endSnap ..) (copyFails ..))) (.ite (.some (after (beginCopy ..) (copyFails ..))) ?_)))))
    split
    · exact .some (endSnap ..)
    · exact .ite (.some (after (beginCopy ..) (copyFails ..))) (.some (snapIssue ..))
    · exact .some (snapIssue ..)
    · exact .none s

theorem snapGo (s : State) (c n : Nat) : Steady s (s.snapGo c n) := by
  induction n generalizing s with
  | zero => exact refl s
  | succ n ih =>
    unfold State.snapGo
    split
    · exact refl s
    · next t ht => exact after (ih t) (of_some (snapStep _ _) ht)

theorem fillMeta (s : State) (x : Fill) (i : Nat) : Steady s (s.fillMeta x i) := after (issueAll ..) (after upd upd)

theorem writeKept (s : State) (x : Fill) : Steady s (s.writeKept x).2 := by
  refine foldlVia Prod.snd ?_ x.kept ({ x with kept := [] }, s)
  intro p k
  exact upd

theorem stopFill (s : State) (x : Fill) : Steady s (s.stopFill x) := after upd (after upd (writeKept ..))

theorem sourceLost (s : State) (x : Fill) (reason : Nat) : Steady s (s.sourceLost x reason) := by
  unfold State.sourceLost
  exact ite upd (after (ite (fillMeta ..) (stopFill ..)) (logFw ..))

theorem fillStep (s : State) : SteadyOpt s s.fillStep := by
  unfold State.fillStep
  dsimp only
  split
  · split
    · exact .none s
    · exact .ite (.none s) (.some (after (ite (stopFill ..) (fillMeta ..)) upd))
  · refine .ite (.none s) (.ite (.some (stopFill ..)) (.ite (.some (sourceLost ..)) (.ite ?_ (.ite (.some (fillMeta ..))
      (.some (stopFill ..))))))
    split
    · exact .some (after (issueAll ..) upd)
    · exact .ite (.some (sourceLost ..)) (.some (stopFill ..))

theorem fillGo (s : State) (n : Nat) : Steady s (s.fillGo n) := by
  induction n generalizing s with
  | zero => exact refl s
  | succ n ih =>
    unfold State.fillGo
    split
    · exact refl s
    · next t ht => exact after (ih t) (of_some (fillStep _) ht)

theorem jobSweep (s : State) : Steady s s.jobSweep := after (fillGo ..) (foldl (fun _ _ => snapGo ..) _ _)

theorem resumeJobs (s : State) : Steady s s.resumeJobs := by
  have hagain : ∀ (t : State) (x : Snapshot), Steady t (if !x.latched then t
      else if x.stop || (t.ctx x.ctx).st != CState.active then t.setSnap x.ctx fun y => { y with puts := 0 }
      else t.beginCopy x x.copy) := fun t x => ite (refl t) (ite upd (beginCopy ..))
  unfold State.resumeJobs
  dsimp only
  refine after (jobSweep ..) ?_
  split
  · exact after (ite (refl _) (ite upd (fillMeta ..))) (after (foldl hagain _ _) upd)
  · exact after (foldl hagain _ _) upd

end Steady
end Sys2Proof.Machine
end

