-- ==== Sys2Proof/Proofs/CtdUpkeep.lean ====
section
/-! PROOFS. O38: the gates are opened (R291, R292, R295), the watchdogs and boots of the CTDs (R296, R297), and the standby (R299,
R300). -/

namespace Sys2Proof.Machine

/-! ### The gates (R291, R292) -/

/-- The holder opens closed gates after a renewal. -/
theorem exec_leaseOpen_renewed {s : State} {c : Fin 2} (hc : s.holder = some c.val) (hlease : s.tickNo < s.ctd.lease.expiry / 10)
    (hdog : s.wdogDue c = false) (hrenewed : s.ctd.lease.renewed = true) (hgates : s.ctd.lease.gates = false) :
    exec (.leaseOpen (.sp c) 1) s = .next ((s.answer 0).openGates c) := by
  have hcell := (State.holder_some hc).2
  refine congrArg Host.Outcome.next ?_
  simp only [spOf, State.settleLease_held hc hlease hdog, State.answer_ctd, hcell, hgates, hrenewed]
  exact (if_neg (by simp)).trans (if_neg (by simp))

/-- Before a renewal the opening is remembered for its tick. -/
theorem exec_leaseOpen_early {s : State} {c : Fin 2} (hc : s.holder = some c.val) (hlease : s.tickNo < s.ctd.lease.expiry / 10)
    (hdog : s.wdogDue c = false) (hrenewed : s.ctd.lease.renewed = false) (hgates : s.ctd.lease.gates = false) :
    exec (.leaseOpen (.sp c) 1) s =
      .next ((s.answer 0).setLease fun e => { e with opening := some (s.tickNo, c.val) }) := by
  have hcell := (State.holder_some hc).2
  refine congrArg Host.Outcome.next ?_
  simp only [spOf, State.settleLease_held hc hlease hdog, State.answer_ctd, hcell, hgates, hrenewed]
  exact (if_neg (by simp)).trans (if_pos rfl)

/-- A change of the lease cell depends on what it makes of the present one. -/
theorem State.setLease_congr {s : State} {f g : Lease → Lease} (h : f s.ctd.lease = g s.ctd.lease) : s.setLease f = s.setLease g := by
  unfold State.setLease
  rw [h]

/-- Outside a switchover, and after the first time, the gates open and the jobs go on. -/
theorem State.openGates_again {s : State} (htakeover : s.ctd.lease.takeover = false) (hopened : s.ctd.lease.opened = true)
    (hclosed : s.ctd.lease.closedAt = none) (c : Nat) : s.openGates c = (s.setLease fun e => { e with
      gates := true, closedAt := none, opened := true, takeover := false, opening := none }).jobSweep := by
  unfold State.openGates
  simp only [htakeover, hopened, hclosed, Bool.false_and, Bool.false_eq_true, if_false, Bool.not_true]
  refine congrArg State.jobSweep (State.setLease_congr ?_)
  simp only [hclosed, Option.isSome_none, Bool.false_eq_true, if_false]

theorem Steady.drainFifos (s : State) (c : Nat) : Steady s (s.drainFifos c).1 := by
  unfold State.drainFifos
  refine Steady.foldlVia Prod.fst (fun p d => ?_) _ (s, 0)
  dsimp only
  refine .after (.foldl (fun t e => .ite .upd (.event ..)) _ _) (.setDie ?_ ..)
  intro x
  rfl

theorem Steady.takeCaches (s : State) (c : Nat) : Steady s (s.takeCaches c) := by
  unfold State.takeCaches
  refine .foldl (fun t e => ?_) _ _
  exact .upd

/-- After a switchover the gates open and the gap is measured. -/
theorem State.openGates_takeover {s : State} {k : Nat} (htakeover : s.ctd.lease.takeover = true)
    (hrecovery : s.ctd.lease.recovery = false) (hopened : s.ctd.lease.opened = true) (hclosed : s.ctd.lease.closedAt = some k)
    (c : Nat) :
    (s.openGates c).ctd.lease = { s.ctd.lease with
      gates := true, closedAt := none, gapUs := (s.time.mono - k) / 1000, opened := true, takeover := false, opening := none } := by
  have hdrained := Steady.drainFifos s c
  unfold State.openGates
  simp only [htakeover, hrecovery, hopened, hclosed, Bool.not_false, Bool.not_true, Bool.and_self, Bool.false_and, Bool.false_eq_true,
    if_false, if_true]
  rcases hd : s.drainFifos c with ⟨t, lost⟩
  rw [hd] at hdrained
  have hlease : t.ctd.lease = s.ctd.lease := hdrained.lease
  rw [((Steady.resumeJobs _).after ((Steady.logFw ..).after (Steady.takeCaches ..))).lease]
  simp only [State.setLease_ctd, hlease, hclosed, hrecovery, Option.isSome_some, if_true]

/-- What a module with power is left with by the start of a recovery: no holder, and closed gates. -/
theorem State.startRecovery_eq {s : State} (hrails : s.power.rails = true) (cause : Nat) :
    ∃ t : State, s.startRecovery cause = t.setLease fun e => { e with
      recovery := true, recStart := s.time.mono, recCause := cause, holder := none, gates := false, guardEnd := none, renewed := false
      closedAt := if e.gates then some s.time.mono else e.closedAt, takeover := false, next := 0, claims := [], opening := none
      renewTick := none } := by
  unfold State.startRecovery
  simp only [hrails, Bool.not_true, Bool.false_eq_true, if_false]
  exact ⟨_, rfl⟩

theorem exec_switchoverGapTimeout_due {s : State} {t : Nat} (hclosed : s.ctd.lease.closedAt = some t)
    (hgates : s.ctd.lease.gates = false) (hrecovery : s.ctd.lease.recovery = false) (hdue : t + 40000000 ≤ s.time.mono) :
    exec .switchoverGapTimeout s = .next (s.startRecovery (if s.hasCtd1 then 3 else 4)) := by
  refine congrArg Host.Outcome.next ?_
  simp only [hclosed, hgates, hrecovery, hdue, Bool.not_false, decide_true, Bool.and_self, if_true]

/-! ### Watchdogs (R297) -/

/-- A CTD's expiry counted and owed to its Ledger. -/
def State.barked (s : State) (c : Nat) : State :=
  s.setCtd c fun x =>
    { x with expiries := satAdd 0xFFFF x.expiries 1, owesWdog := some (x.role.code, s.ctd.clamp.wdogMs) }

/-- An expiry is the loss of the holder or the hold of another CTD; the other one logs it. -/
theorem State.wdogExpire_eq {s : State} (hclaims : s.ctd.lease.claims.filter (·.1 == s.tickNo) = []) (c : Nat) : ∃ p,
    s.wdogExpire c = (if s.holder = some c then (s.barked c).lostAt 2 else (s.barked c).holdCtd c).withLog p := by
  have hlose : (s.barked c).loseAt 2 = (s.barked c).lostAt 2 := State.loseAt_noClaims (s := s.barked c) hclaims 2
  have hrecord : ∀ t : State, ∃ p, (if t.ctdPresent (1 - c) && t.ctdGate (1 - c) == .none then
      t.logTo (1 - c) 0x1303 5 (512 + (1 - c)) [c, (s.ctdOf c).role.code, s.ctd.clamp.wdogMs] else t) = t.withLog p := by
    intro t
    split
    · exact ⟨_, rfl⟩
    · exact ⟨t.logPart, rfl⟩
  rw [← hlose]
  exact hrecord (if s.holder = some c then (s.barked c).loseAt 2 else (s.barked c).holdCtd c)

theorem exec_ctdWdogExpired_due {s : State} {c : Fin 2} (hdog : s.wdogDue c = true) (hruns : s.expire = s) :
    exec (.ctdWdogExpired c) s = .next (s.wdogExpire c) := by
  refine congrArg Host.Outcome.next ?_
  simp only [hruns, hdog, if_true]

/-! ### Boots (R296) -/

/-- A CTD that boots records the expiry that it owes its Ledger. -/
def State.tellExpiry (s : State) (c : Nat) (owed : Option (Nat × Nat)) : State :=
  match owed with
  | some (role, ms) => s.logTo c 0x1303 5 (512 + c) [c, role, ms]
  | none => s

/-- It fails for its losses or its self-test, stays as it is, or becomes the standby. -/
def State.selfTested (s : State) (c : Nat) (failed : Option (Fin 6)) : State :=
  if (s.ctdOf c).lossLimit then s.failCtd c 5 0
  else match failed with
    | some k => (s.draw 32).2.failCtd c k.val (s.draw 32).1.toNat
    | none => if s.holder.isNone && s.ctd.lease.recovery then s
      else if (s.ctdOf c).stage = 4 && s.holder.isNone then s
      else s.becomeStandby c

/-- A CTD that has left its reset and booted now, in a module whose memory, engines and fabric are as they were. -/
structure State.Boots (s : State) (c : Nat) (t : State) : Prop where
  present : c < t.ctd.ctds.length
  held : (t.ctdOf c).heldUntil = none
  running : (t.ctdOf c).running = true
  bootAt : (t.ctdOf c).bootAt = s.time.mono
  mem : t.mem = s.mem
  eng : t.eng = s.eng
  fab : t.fab = s.fab

namespace State.Boots

variable {s t : State} {c : Nat}

theorem setCtd {f : Ctd → Ctd} (hf : ∀ x, (f x).heldUntil = x.heldUntil ∧ (f x).running = x.running ∧ (f x).bootAt = x.bootAt)
    (h : s.Boots c t) : s.Boots c (t.setCtd c f) := by
  obtain ⟨hheld, hrunning, hboot⟩ := hf (t.ctdOf c)
  refine ⟨by simpa using h.present, ?_, ?_, ?_, h.mem, h.eng, h.fab⟩
  all_goals rw [State.ctdOf_setCtd_self h.present]
  · exact hheld.trans h.held
  · exact hrunning.trans h.running
  · exact hboot.trans h.bootAt

theorem logTo (h : s.Boots c t) (n code sev src : Nat) (ps : List Nat) : s.Boots c (t.logTo n code sev src ps) :=
  ⟨h.present, h.held, h.running, h.bootAt, h.mem, h.eng, h.fab⟩

theorem draw (h : s.Boots c t) (w : Nat) : s.Boots c (t.draw w).2 :=
  ⟨h.present, h.held, h.running, h.bootAt, h.mem, h.eng, h.fab⟩

theorem failCtd (h : s.Boots c t) (test detail : Nat) : s.Boots c (t.failCtd c test detail) :=
  .logTo (t := t.setCtd c _) (.setCtd (by exact fun _ => ⟨rfl, rfl, rfl⟩) h) ..

theorem ite {p : Prop} [Decidable p] {u : State} (h : s.Boots c t) (k : s.Boots c u) : s.Boots c (if p then t else u) := by
  split <;> assumption

theorem becomeStandby (h : s.Boots c t) : s.Boots c (t.becomeStandby c) := by
  refine h.setCtd fun x => ?_
  split <;> exact ⟨rfl, rfl, rfl⟩

theorem bootCtd (hc : c < s.ctd.ctds.length) : s.Boots c (s.bootCtd c) := by
  have hset : ∀ {f : Ctd → Ctd}, (∀ x, (f x).heldUntil = none ∧ (f x).running = true ∧ (f x).bootAt = s.time.mono) →
      s.Boots c ((s.checkKey c).setCtd c f) := by
    intro f hf
    obtain ⟨hheld, hrunning, hboot⟩ := hf ((s.checkKey c).ctdOf c)
    have hself : ((s.checkKey c).setCtd c f).ctdOf c = f ((s.checkKey c).ctdOf c) := State.ctdOf_setCtd_self hc
    refine ⟨(length_lmod ..).symm ▸ hc, ?_, ?_, ?_, rfl, rfl, rfl⟩
    · rw [hself, hheld]
    · rw [hself, hrunning]
    · rw [hself, hboot]
  unfold State.bootCtd
  refine .ite (hset ?_) (.logTo (hset ?_) ..)
  all_goals
    intro x
    exact ⟨rfl, rfl, rfl⟩

theorem tellExpiry (h : s.Boots c t) (owed : Option (Nat × Nat)) : s.Boots c (t.tellExpiry c owed) := by
  unfold State.tellExpiry
  split
  · exact h.logTo ..
  · exact h

theorem selfTested (h : s.Boots c t) (failed : Option (Fin 6)) : s.Boots c (t.selfTested c failed) := by
  unfold State.selfTested
  refine .ite (h.failCtd ..) ?_
  split
  · exact (h.draw 32).failCtd ..
  · exact .ite h (.ite h h.becomeStandby)

end State.Boots

/-- After its 100 ms a CTD boots. -/
theorem exec_holderResetRelease_due {s : State} {c : Fin 2} {t : Nat} (ht : (s.ctdOf c).heldUntil = some t)
    (hdue : t ≤ s.time.mono) (x : Option (Fin 6)) :
    exec (.holderResetRelease c x) s = .next ((((s.bootCtd c).setCtd c fun x => { x with owesWdog := none }).tellExpiry c
      (s.ctdOf c).owesWdog).selfTested c x) := by
  refine congrArg Host.Outcome.next ?_
  dsimp only
  rw [ht]
  refine (if_neg (Nat.not_lt.mpr hdue)).trans ?_
  cases x <;> rfl

/-! ### The standby (R299, R300) -/

/-- The sequence number sent to the standby and the totals mirrored with it. -/
def State.mirrored (s : State) (q : Word) : State := { s with ctd := { s.ctd with mirrorSeq := q, totals := s.totals } }

/-- A good standby moves on with an equal copy in sequence, and asks for a full copy otherwise. -/
theorem exec_mirrorCheck_good {s : State} {h c : Nat} {q k m : Word} (hserving : s.serving = some h) (hstandby : s.standby = some c)
    (hhealth : (s.ctdOf c).health = .good) :
    exec (.mirrorCheck q k m) s = .next (if k = m ∧ q = (s.ctdOf c).nextSeq then
        (s.mirrored q).setCtd c fun x => { x with mirrorSeq := q, nextSeq := q + 1 }
      else
        ((s.mirrored q).setCtd c fun x =>
          { x with health := .resync, claimable := false, resyncAsked := true, copied := false }).logTo c 0x1305 3 (512 + c)
            [(s.ctdOf c).nextSeq.toNat, q.toNat, m.toNat, k.toNat]) := by
  have hstandby' : ({ s with ctd := { s.ctd with mirrorSeq := q } } : State).standby = some c := hstandby
  have hctdOf : ∀ n, ({ s with ctd := { s.ctd with mirrorSeq := q, totals := n } } : State).ctdOf c = s.ctdOf c := fun _ => rfl
  refine congrArg Host.Outcome.next ?_
  simp only [hserving, hstandby', hctdOf, hhealth, Option.isNone_some, Bool.false_eq_true, if_false, reduceCtorEq, decide_false,
    Bool.false_and, Bool.and_eq_true, decide_eq_true_eq]
  rfl

/-- The active CTD delivers a record of the standby as an event, if there are both. -/
def State.deliverTo (s : State) (active : Option Nat) (r : Option Rec) : State :=
  match active, r with
  | some h, some r => s.withLog { s.logPart with mbox := { s.logPart.mbox with chans := deliver h r s.logPart.mbox.chans } }
  | _, _ => s

theorem State.deliverTo_eq (s : State) (active : Option Nat) (r : Option Rec) : ∃ p, s.deliverTo active r = s.withLog p := by
  unfold State.deliverTo
  split
  · exact ⟨_, rfl⟩
  · exact ⟨s.logPart, rfl⟩

/-- The record of a health report, delivered or not, and the answers to those who wait for it. -/
theorem exec_standbyHealth_due {s : State} {c : Fin 2} (hrole : (s.ctdOf c).role = .standby) (hgate : s.ctdGate c = .none)
    (hdue : (s.ctdOf c).reportAt + 1000000000 ≤ s.time.mono) (n t : BitVec 32) :
    ∃ p, exec (.standbyHealth c n t) s = .next ((((s.setCtd c fun x => { x with reportAt := s.time.mono }).withLog p).setCtd c
      fun x => { x with waiters := [] }).finishAll (s.ctdOf c).waiters dOk 0 []) := by
  have hrecord : ∀ u : State, ∃ p, u.deliverTo u.serving (u.ledger c).newest = u.withLog p := fun u => u.deliverTo_eq ..
  obtain ⟨p, hp⟩ := hrecord ((s.setCtd c fun x => { x with reportAt := s.time.mono }).logTo c 0x1304 1 (512 + c)
    [(s.ctdOf c).health.code + 4 * b2n (s.ctdOf c).claimable, s.ctd.lease.gen.toNat, (s.ctdOf c).mirrorSeq.toNat,
      (s.ctdOf c).sievePass, (s.ctdOf c).sieveFail, s.silent.version, n.toNat, t.toNat])
  have hsame : ((s.setCtd c fun x => { x with reportAt := s.time.mono }).withLog p) = _ := hp.symm
  refine ⟨p, congrArg Host.Outcome.next ?_⟩
  rw [hsame]
  exact if_neg (by simp [hrole, hgate, Nat.not_lt.mpr hdue])

/-! ### The statement -/

/-- A CTD whose watchdog expired is held in reset for 100 ms; if it held the waybill, that is lost with cause 2. -/
theorem State.wdogExpire_held {s : State} {c : Nat} (hc : c < s.ctd.ctds.length)
    (hclaims : s.ctd.lease.claims.filter (·.1 == s.tickNo) = []) :
    ((s.wdogExpire c).ctdOf c).expiries = min 0xFFFF ((s.ctdOf c).expiries + 1) ∧
      ((s.wdogExpire c).ctdOf c).heldUntil = some (s.time.mono + 100000000) ∧ ((s.wdogExpire c).ctdOf c).role = .booting ∧
      (s.holder = some c → (s.wdogExpire c).holder = none ∧ (s.wdogExpire c).ctd.lease.lossCause = 2) ∧
      (s.holder ≠ some c → (s.wdogExpire c).ctd.lease = s.ctd.lease) ∧ s.Apart (s.wdogExpire c) := by
  have hbarked : c < (s.barked c).ctd.ctds.length := (length_lmod ..).symm ▸ hc
  have hself : (s.barked c).ctdOf c = { s.ctdOf c with
      expiries := satAdd 0xFFFF (s.ctdOf c).expiries 1
      owesWdog := some ((s.ctdOf c).role.code, s.ctd.clamp.wdogMs) } := State.ctdOf_setCtd_self hc
  have hapart : s.Apart (s.barked c) := .setCtd ..
  obtain ⟨p, hp⟩ := State.wdogExpire_eq hclaims c
  rw [hp]
  by_cases hholder : s.holder = some c
  · have hlease : (s.barked c).ctd.lease.holder = some c := (State.holder_some hholder).2
    have hheld : ((s.barked c).lostAt 2).ctdOf c = _ :=
      (State.lostAt_ctdOf hlease 2 c).trans (State.loseWaybill_loser hlease hbarked 2)
    obtain ⟨n, hctd⟩ := State.lostAt_ctd hlease 2
    have hloser : (((s.barked c).lostAt 2).withLog p).ctdOf c = _ := hheld
    have hcause : ((s.barked c).lostAt 2).ctd.lease.lossCause = 2 := by
      rw [hctd]
      rfl
    rw [if_pos hholder, hloser, hself]
    exact ⟨rfl, rfl, rfl, fun _ => ⟨State.lostAt_holder hlease 2, hcause⟩, fun h => absurd hholder h,
      .after (.withLog _ p) (.after (.lostAt ..) hapart)⟩
  · have hheld : (((s.barked c).holdCtd c).withLog p).ctdOf c = _ := State.ctdOf_setCtd_self hbarked
    rw [if_neg hholder, hheld, hself]
    exact ⟨rfl, rfl, rfl, fun h => absurd h hholder, fun _ => rfl, .after (.withLog _ p) (.after (.holdCtd ..) hapart)⟩

/-- Settles O38: each access, timer and check is read off its function; the opened gates and a watchdog by the rules above. -/
theorem ctdUpkeep : Obligations.CtdUpkeep := by
  unfold Obligations.CtdUpkeep
  refine ⟨?_, ?_, ?_, ?_, ?_, ?_, ?_, ?_, ?_, ?_, ?_, ?_⟩
  · intro s c hholder hlease hdog hrenewed hgates htakeover hopened hclosed
    rw [exec_leaseOpen_renewed hholder hlease hdog hrenewed hgates]
    exact congrArg Host.Outcome.next (State.openGates_again (s := s.answer 0) htakeover hopened hclosed c)
  · intro s c k hholder hlease hdog hrenewed hgates htakeover hopened hrecovery hclosed
    refine ⟨_, exec_leaseOpen_renewed hholder hlease hdog hrenewed hgates, ?_⟩
    rw [State.openGates_takeover (s := s.answer 0) htakeover hrecovery hopened hclosed]
    exact ⟨rfl, rfl, rfl, rfl⟩
  · intro s c hholder hlease hdog hrenewed hgates
    exact exec_leaseOpen_early hholder hlease hdog hrenewed hgates
  · intro s t hclosed hgates hrecovery hdue hrails
    refine ⟨_, exec_switchoverGapTimeout_due hclosed hgates hrecovery hdue, rfl, ?_⟩
    obtain ⟨u, hu⟩ := State.startRecovery_eq hrails (if s.hasCtd1 then 3 else 4)
    rw [hu]
    exact ⟨rfl, ite_self _, rfl, rfl⟩
  · intro s c hgate
    refine congrArg Host.Outcome.next ?_
    simp [hgate, isSp]
  · intro s c hdog hc hrails hlease hclaims
    have hruns : s.expire = s := State.expire_runs fun h => by
      obtain ⟨h, hh⟩ := Option.isSome_iff_exists.mp h
      exact hlease h ((State.holder_powered hrails).trans hh)
    obtain ⟨hexpiries, hheld, hrole, hlost, hkept, hapart⟩ := State.wdogExpire_held hc hclaims
    exact ⟨_, exec_ctdWdogExpired_due hdog hruns, hexpiries, hheld, hrole, hlost, hkept, hapart.mem, hapart.eng, hapart.slices,
      hapart.peers⟩
  · intro s c x t ht hdue hc
    have hboots := (((State.Boots.bootCtd hc).setCtd (f := fun x => { x with owesWdog := none })
      fun _ => ⟨rfl, rfl, rfl⟩).tellExpiry (s.ctdOf c).owesWdog).selfTested x
    exact ⟨_, exec_holderResetRelease_due ht hdue x, hboots.held, hboots.running, hboots.bootAt, hboots.mem, hboots.eng, hboots.fab⟩
  · intro s h c q k hserving hstandby hhealth hq
    refine ⟨_, rfl, (exec_mirrorCheck_good hserving hstandby hhealth).trans (congrArg Host.Outcome.next ?_)⟩
    exact if_pos ⟨rfl, hq⟩
  · intro s h c q k m hserving hstandby hhealth hdiffers
    refine ⟨_, rfl, (exec_mirrorCheck_good hserving hstandby hhealth).trans (congrArg Host.Outcome.next ?_)⟩
    exact if_neg fun ⟨hcrc, hseq⟩ => hdiffers.elim (absurd hcrc) (absurd hseq)
  · intro s h c hserving hrole hhealth hasked hgate
    refine congrArg Host.Outcome.next ?_
    simp [hserving, hrole, hhealth, hasked, hgate]
  · intro s c d hrole hgate
    refine congrArg Host.Outcome.next ?_
    simp [hrole, hgate, b2n]
  · intro s c n t hrole hgate hdue hc
    obtain ⟨p, hp⟩ := exec_standbyHealth_due hrole hgate hdue n t
    refine ⟨_, hp, ?_⟩
    generalize hu : (((s.setCtd c fun x => { x with reportAt := s.time.mono }).withLog p).setCtd c
      fun x => { x with waiters := [] }) = u
    have hctd : (u.finishAll (s.ctdOf c).waiters dOk 0 []).ctd = u.ctd := foldl_same (by intros; simp) ..
    have hmem : (u.finishAll (s.ctdOf c).waiters dOk 0 []).mem = u.mem := foldl_same (by intros; simp) ..
    have hfab : (u.finishAll (s.ctdOf c).waiters dOk 0 []).fab = u.fab := foldl_same (by intros; simp) ..
    have hreport : u.ctdOf c = { s.ctdOf c with reportAt := s.time.mono, waiters := [] } := by
      subst hu
      exact (State.ctdOf_setCtd_self ((length_lmod ..).symm ▸ hc)).trans
        (congrArg (fun x : Ctd => { x with waiters := [] }) (State.ctdOf_setCtd_self hc))
    rw [State.ctdOf_congr (congrArg _ hctd), hctd, hmem, hfab, hreport, ← hu]
    exact ⟨rfl, rfl, rfl, rfl, rfl⟩

end Sys2Proof.Machine
end

