-- ==== Sys2Proof/Proofs/RecoveryRules.lean ====
section
/-! PROOFS. What a module recovery's sequence leaves of the dies' resets (R415): the sieve runs of a reset, the memory, the schedule
and the ports. A run of a reset ends with its engine in reset, so its verdict starts no other reset (R377-R380). -/

namespace Sys2Proof.Machine

namespace Steady

/-! ### Sieve runs of a reset -/

theorem setSv (s : State) (j : Nat) (f : SvEng → SvEng) : Steady s (s.setSv j f) := upd

theorem setSvs (s : State) (l : List Nat) (f : State → SvEng → SvEng) : Steady s (l.foldl (fun s j => s.setSv j (f s)) s) :=
  foldl (fun _ _ => setSv ..) l s

theorem flushMap (s : State) (j : Nat) : Steady s (s.flushMap j) := by
  unfold State.flushMap
  exact foldl (fun _ _ => upd) _ s

theorem suspect (s : State) (j cause : Nat) : Steady s (s.suspect j cause) :=
  after (log ..) (foldl (fun _ _ => after (flushMap ..) (setSv ..)) _ s)

theorem sieveFail (s : State) (u : Nat) (p : PatternResult) : Steady s (s.sieveFail u p) := after (log ..) (setSvs ..)

theorem outOfService (s : State) (u cause : Nat) : Steady s (s.outOfService u cause true) := after (log ..) (setSvs ..)

theorem cleanRuns (s : State) (l : List Nat) (imm : Bool) : Steady s (l.foldl (fun s j => s.cleanRun j imm) s) :=
  foldl (fun _ _ => setSv ..) l s

theorem verdict (s : State) (u : Nat) (l : List PatternResult) (imm : Bool) : Steady s (s.verdict u l imm true) := by
  unfold State.verdict
  dsimp only
  exact after (ite (outOfService ..) (after (ite (outOfService ..) (refl _)) (ite (after (ite (log ..) (refl _)) (cleanRuns ..))
    (after (setSvs ..) (suspect ..))))) (after (setSvs ..) (foldl (fun _ _ => sieveFail ..) _ s))

theorem answerRuns (s : State) (u : Nat) (l : List PatternResult) : Steady s (s.answerRuns u l) := after (finishAll ..) (setSv ..)

theorem resetRun (s : State) (u : Nat) (l : List PatternResult) : Steady s (s.resetRun u l) := by
  unfold State.resetRun
  exact ite (setSvs ..) (after (answerRuns ..) (after (verdict ..) (setSvs ..)))

/-! ### The sequence of a recovery -/

theorem huskFill (s : State) (lost powerLost : BitVec 24) : Steady s (s.huskFill lost powerLost) := by
  unfold State.huskFill
  exact ite (refl _) (after (foldl (fun _ _ => after (log ..) upd) _ _) (setMem ..))

theorem podEntries (s : State) : Steady s s.podEntries := upd

theorem train (s : State) (p : Nat) : Steady s (s.train p) := by
  unfold State.train
  exact ite upd (refl _)

theorem trainAll (s : State) : Steady s s.trainAll := foldl (fun _ _ => train ..) _ s

theorem releaseHarts (s : State) : Steady s s.releaseHarts := by
  unfold State.releaseHarts
  refine ite ⟨rfl, ?_⟩ (refl _)
  rw [List.map_map]
  refine List.map_congr_left fun x _ => ?_
  show (if x.inReset then x else { x with hartsRun := true }).inReset = x.inReset
  split <;> rfl

theorem logLatch (s : State) : Steady s s.logLatch := by
  unfold State.logLatch
  exact ite (refl _) (after upd (logFw ..))

end Steady

/-- After a recovery every die is out of reset. -/
theorem State.recoverDies_resets (s : State) (lost powerLost : BitVec 24) (patterns : List (Nat × List PatternResult)) :
    (s.recoverDies lost powerLost patterns).dies.map (·.inReset) = List.replicate s.dies.length false := by
  have hback : (s.dies.map fun d => ({ d with inReset := false, tripped := false } : DieSt)).map (·.inReset) =
      List.replicate s.dies.length false := by
    rw [List.map_map]
    exact List.map_const' ..
  have hsteady : Steady { s with dies := s.dies.map fun d => ({ d with inReset := false, tripped := false } : DieSt) }
      (s.recoverDies lost powerLost patterns) := by
    unfold State.recoverDies
    exact .after .upd (.after (.ite .upd (.refl _)) (.after .upd (.after (.foldl (fun _ _ => .resetRun ..) _ _)
      (.after (.foldl (fun _ _ => .upd) _ _) (.after (.foldl (fun _ _ => .upd) _ _) (.huskFill ..))))))
  exact hsteady.resets.trans hback

/-- The sequence ends the recovery and releases the dies, unless the latch is set. -/
theorem exec_moduleRecovery_claimed {s : State} {h : Nat} (hrecovery : s.ctd.lease.recovery = true) (hgates : s.ctd.lease.gates = true)
    (hholder : s.holder = some h) (l : LostStacks) (p : List (Nat × List PatternResult)) :
    ∃ t, exec (.moduleRecovery l p) s = .next t ∧ t.ctd.lease.recovery = false ∧
      (s.ctd.nv.latched = false → t.dies.map (·.inReset) = List.replicate s.dies.length false) := by
  have hcell := (State.holder_some hholder).2
  have hrest : ∀ t, Steady ((if s.ctd.nv.latched then s else s.recoverDies l.content l.power p).setLease fun e =>
      { e with recovery := false }) t → t.ctd.lease.recovery = false ∧
        (s.ctd.nv.latched = false → t.dies.map (·.inReset) = List.replicate s.dies.length false) := by
    intro t ht
    refine ⟨congrArg Lease.recovery ht.lease, fun hlatched => ht.resets.trans ?_⟩
    rw [State.setLease_dies, if_neg (by simp [hlatched])]
    exact State.recoverDies_resets ..
  have hguard : ¬ (!s.ctd.lease.recovery || !s.ctd.lease.gates || s.ctd.lease.holder.isNone) = true := by
    simp [hrecovery, hgates, hcell]
  refine ⟨_, congrArg Host.Outcome.next (if_neg hguard), hrest _ ?_⟩
  exact .after (.logLatch ..) (.after (.logFw ..) (.ite (.refl _) (.after (.trainAll ..) (.releaseHarts ..))))

end Sys2Proof.Machine
end

