-- ==== Sys2Proof/Proofs/RecoveryCommands.lean ====
section
/-! PROOFS. O39: module recovery, escalation, switchover and the out-of-service latch (R308, R309, R414-R416, R420). First what an
overrun of each level comes to and what each command's own part answers. -/

namespace Sys2Proof.Machine

/-! ### Escalation (R416) -/

/-- While a CTD serves, firmware logs a die's event. -/
theorem State.logDie_served {s : State} (h : s.serving.isSome = true) (d code sev : Nat) (ps : List Nat) :
    s.logDie d code sev ps = s.logFw code sev ps := if_pos h

/-- When the reset of a unit of a level began that escalation watches, if one runs. -/
def State.watchedSince (s : State) (level : ResetLevel) (unit : Nat) : Option Nat :=
  match level with
  | .context =>
    if (s.ctx unit).st == .resetting && !s.resetWaits unit && !(s.ctx unit).resetEngs.isEmpty then
      some (s.ctx unit).resetFrom else none
  | .engine =>
    if unit < 112 && (s.engine unit).st == .resetting && !(s.die (engDie unit)).inReset && (s.pairOf unit).headD unit == unit then
      some (s.engine unit).resetStart else none
  | .die => if unit < 4 then (s.die unit).resetStart else none
  | .module => if s.ctd.lease.recovery then some s.ctd.lease.recStart else none

/-- The die that an overrun is logged for. -/
def State.watchedDie (s : State) (level : ResetLevel) (unit : Nat) : Nat :=
  match level with
  | .context => engDie ((s.ctx unit).resetEngs.headD 0)
  | .engine => engDie unit
  | _ => unit % 4

/-- The next larger reset. -/
def State.escalate (s : State) (level : ResetLevel) (unit : Nat) : State :=
  match level with
  | .context => (s.ctx unit).resetEngs.foldl (fun s j => s.startEngReset j 5 []) s
  | .engine => s.startDieReset (engDie unit) 2 []
  | .die => s.startRecovery 2
  | .module => s.startRecovery 6

/-- A watched reset beyond its limit is logged and taken over by the next larger one. -/
theorem exec_resetEscalated_over {s : State} {level : ResetLevel} {unit t n lim : Nat} (hsince : s.watchedSince level unit = some t)
    (hlimit : ResetLevel.limit ((s.ctx unit).releasing && level == .context) level = (n, lim)) (hover : t + lim < s.time.mono)
    (hwaits : level = .engine → s.serving.isSome = true) :
    exec (.resetEscalated level unit) s = .next ((s.logDie (s.watchedDie level unit) 0x0706 5
      [n, min 4 (n + 1), unit, (s.time.mono - t) / 1000, lim / 1000]).escalate level unit) := by
  have hgoes : ¬ (decide (s.time.mono ≤ t + lim) || (level == .engine && s.serving.isNone)) = true := by
    have hlate : ¬ s.time.mono ≤ t + lim := Nat.not_le.mpr hover
    have hready : (level == .engine && s.serving.isNone) = false := by
      rw [Bool.and_eq_false_imp, beq_iff_eq]
      intro hlevel
      rw [← Option.not_isSome, hwaits hlevel, Bool.not_true]
    simp [hlate, hready]
  have hexec : exec (.resetEscalated level unit) s = .next (match s.watchedSince level unit with
      | none => s
      | some t =>
        if decide (s.time.mono ≤ t + (ResetLevel.limit ((s.ctx unit).releasing && level == .context) level).2) ||
            (level == .engine && s.serving.isNone) then s
        else (s.logDie (s.watchedDie level unit) 0x0706 5
          [(ResetLevel.limit ((s.ctx unit).releasing && level == .context) level).1,
           min 4 ((ResetLevel.limit ((s.ctx unit).releasing && level == .context) level).1 + 1), unit, (s.time.mono - t) / 1000,
           (ResetLevel.limit ((s.ctx unit).releasing && level == .context) level).2 / 1000]).escalate level unit) := by
    cases level <;> rfl
  rw [hexec, hsince, hlimit]
  exact congrArg Host.Outcome.next (if_neg hgoes)

/-- An engine that overruns takes its die with it. -/
theorem exec_resetEscalated_engine {s : State} {u : Nat} (hu : u < 112) (hserves : s.serving.isSome = true)
    (hst : (s.engine u).st = .resetting) (hdie : (s.die (engDie u)).inReset = false) (hpair : (s.pairOf u).headD u = u)
    (hover : (s.engine u).resetStart + 50000000 < s.time.mono) :
    exec (.resetEscalated .engine u) s = .next ((s.logFw 0x0706 5
      [2, 3, u, (s.time.mono - (s.engine u).resetStart) / 1000, 50000]).startDieReset (engDie u) 2 []) := by
  have hsince : s.watchedSince .engine u = some (s.engine u).resetStart :=
    if_pos (by simp [-List.headD_eq_head?_getD, hu, hst, hdie, hpair])
  rw [exec_resetEscalated_over hsince rfl hover fun _ => hserves, State.logDie_served hserves]
  rfl

/-- A context that overruns resets the engines it waits for. -/
theorem exec_resetEscalated_context {s : State} {c : Nat} (hserves : s.serving.isSome = true) (hst : (s.ctx c).st = .resetting)
    (hwaits : s.resetWaits c = false) (hengs : (s.ctx c).resetEngs ≠ [])
    (hover : (s.ctx c).resetFrom + (if (s.ctx c).releasing then 10000000 else 5000000) < s.time.mono) :
    exec (.resetEscalated .context c) s = .next ((s.ctx c).resetEngs.foldl (fun t j => t.startEngReset j 5 [])
      (s.logFw 0x0706 5 [1, 2, c, (s.time.mono - (s.ctx c).resetFrom) / 1000, if (s.ctx c).releasing then 10000 else 5000])) := by
  have hsince : s.watchedSince .context c = some (s.ctx c).resetFrom := if_pos (by simp [hst, hwaits, hengs])
  have hlimit : ResetLevel.limit ((s.ctx c).releasing && ResetLevel.context == .context) .context =
      (1, if (s.ctx c).releasing then 10000000 else 5000000) := by
    rw [beq_self_eq_true, Bool.and_true]
    rfl
  have hctx : ∀ ps, (s.logFw 0x0706 5 ps).ctx c = s.ctx c := by
    intro ps
    unfold State.ctx
    rw [State.logFw_eng]
  have hmicros : (if (s.ctx c).releasing then 10000000 else 5000000) / 1000 = if (s.ctx c).releasing then 10000 else 5000 := by
    split <;> rfl
  rw [exec_resetEscalated_over hsince hlimit hover (by rintro ⟨⟩), State.logDie_served hserves, hmicros]
  simp only [State.escalate, hctx]
  rfl

theorem exec_resetEscalated_die {s : State} {d t : Nat} (hd : d < 4) (hserves : s.serving.isSome = true)
    (hstart : (s.die d).resetStart = some t) (hover : t + 1500000000 < s.time.mono) :
    exec (.resetEscalated .die d) s =
      .next ((s.logFw 0x0706 5 [3, 4, d, (s.time.mono - t) / 1000, 1500000]).startRecovery 2) := by
  have hsince : s.watchedSince .die d = some t := (if_pos hd).trans hstart
  rw [exec_resetEscalated_over hsince rfl hover (by rintro ⟨⟩), State.logDie_served hserves]
  rfl

theorem exec_resetEscalated_module {s : State} (hrecovery : s.ctd.lease.recovery = true)
    (hover : s.ctd.lease.recStart + 10000000000 < s.time.mono) :
    exec (.resetEscalated .module 0) s = .next ((s.logDie 0 0x0706 5
      [4, 4, 0, (s.time.mono - s.ctd.lease.recStart) / 1000, 10000000]).startRecovery 6) := by
  have hsince : s.watchedSince .module 0 = some s.ctd.lease.recStart := if_pos hrecovery
  rw [exec_resetEscalated_over hsince rfl hover (by rintro ⟨⟩)]
  rfl

/-! ### Commands (R287, R308, R309, R414) -/

theorem dSwitchover_body {s : State} {c : Nat} (hstandby : s.standby = some c) (hclaimable : (s.ctdOf c).claimable = true) (w : Who)
    (a : List Nat) : dSwitchover.body s w a = { s := s.setLease fun e => { e with next := 1 } } := by
  simp [dSwitchover, hstandby, hclaimable]

/-- With the latch set a management sender has the commands served that R308 names. -/
theorem runDarid_latched {d : DaridDef} {r : DReq} {s : State} (hcarries : s.carriesOut r.ctd.val = true)
    (hserving : s.serving = some r.ctd.val) (hrom : s.inRom r.ctd.val = false)
    (hcache : (s.chan r.ctd.val r.ch.val).cache = none) (hsender : senderOf r.ch.val = some .m) (hoos : d.oos = true)
    (hserved : d.senders.contains .m = true) (hlen : d.len r.args.length = true) (hbad : d.bad s (DReq.nums r) = none)
    (hpresent : d.present s (DReq.nums r) = true) : runDarid d r s =
      answerDarid (whoOf d.op d.changes r d.mirrored) (d.body s (whoOf d.op d.changes r d.mirrored) (DReq.nums r)) := by
  have hargs : d.len (DReq.nums r).length = true := by rwa [DReq.nums, List.length_map]
  have hadmits : d.admits s false r.ch.val (DReq.nums r) = true := by
    simp only [DaridDef.admits, hsender]
    simpa using hserved
  have hrun : d.run s (whoOf d.op d.changes r d.mirrored) (DReq.nums r) =
      d.body s (whoOf d.op d.changes r d.mirrored) (DReq.nums r) := by
    simp [DaridDef.run, whoOf, hoos, hsender, hserving, hrom, hadmits, hargs, hbad, hpresent]
  unfold runDarid
  simp only [hcarries, acceptDarid, hcache, hsender, Bool.not_true, Bool.false_eq_true, if_false]
  exact congrArg _ hrun

/-- A valid token clears the latch and the list, and the module recovers after the answer. -/
theorem dOosLatchClear_body_valid {s : State} {a : List Nat} {b : List Byte} (hlatched : s.ctd.nv.latched = true)
    (hb : b = argBytes a 0 101) (hserial : fieldAt b 0 8 = s.fuse.serial.toNat) (hcount : fieldAt b 8 4 = s.ctd.nv.latchCount)
    (hnonce : fieldAt b 12 8 = s.ctd.nv.nonce.toNat) (hkey : s.ctd.clamp.opKey.any (· != 0) = true)
    (hsign : Config.rsaVerify s.ctd.clamp.opKey (b.take 20) (b.drop 20) = true) (w : Who) :
    dOosLatchClear.body s w a = { s := (({ s with
      ctd := { s.ctd with nv := { s.ctd.nv with latched := false, recoveries := [] } } } : State).logFw 0x1309 5
        [s.ctd.nv.latchCount]).setLease fun e => { e with next := 15 } } := by
  subst hb
  simp only [dOosLatchClear, hlatched, hserial, hcount, hnonce, hkey, hsign, beq_self_eq_true, Bool.and_self, Bool.not_true,
    Bool.false_eq_true, if_false]

/-- Without a valid signature a new nonce is drawn. -/
theorem dOosLatchClear_body_unsigned {s : State} {a : List Nat} {b : List Byte} (hlatched : s.ctd.nv.latched = true)
    (hb : b = argBytes a 0 101) (hsign : Config.rsaVerify s.ctd.clamp.opKey (b.take 20) (b.drop 20) = false) (w : Who) :
    dOosLatchClear.body s w a = { s := { s with
      free := s.free + 1
      ctd := { s.ctd with nv := { s.ctd.nv with nonce := Config.freeValue 64 s.free } } }, status := dBadSig } := by
  subst hb
  simp only [dOosLatchClear]
  rw [if_neg (by simp [hlatched]), if_pos (by simp [hsign])]
  rfl

/-- Settles O39: the sequence of a recovery and the overruns by the rules above, each command by its own part. -/
theorem recoveryCommands : Obligations.RecoveryCommands := by
  unfold Obligations.RecoveryCommands
  refine ⟨?_, ?_, ?_, ?_, ?_, ?_, ?_, ?_, ?_, ?_⟩
  · intro s l pw p h hrecovery hgates hholder
    obtain ⟨t, hexec, hended, hresets⟩ := exec_moduleRecovery_claimed hrecovery hgates hholder ⟨l, pw⟩ p
    obtain ⟨hfuse, hpending, -, -⟩ : Keeps s t := by
      have hkeeps : KeepsOut s (.next t) := hexec ▸ KeepsOut.moduleRecovery s ⟨l, pw⟩ p
      cases hkeeps with
      | next hkeeps => exact hkeeps
    refine ⟨t, hexec, hended, hfuse, hpending, fun hlatched d hd => ?_⟩
    have hdie : (t.dies.map (·.inReset))[d]? = some false := by
      rw [hresets hlatched, List.getElem?_replicate, if_pos hd]
    rw [List.getElem?_map, Option.map_eq_some_iff] at hdie
    obtain ⟨x, hx, hout⟩ := hdie
    unfold State.die
    rw [List.getD_eq_getElem?_getD, hx]
    exact hout
  · intro s u hu hserves hst hdie hpair hover
    exact exec_resetEscalated_engine hu hserves hst hdie hpair hover
  · intro s c hserves hst hwaits hengs hover
    exact exec_resetEscalated_context hserves hst hwaits hengs hover
  · intro s d t hd hserves hstart hover
    exact exec_resetEscalated_die hd hserves hstart hover
  · intro s hrecovery hover
    exact exec_resetEscalated_module hrecovery hover
  · intro r s h hlen
    have hrun := runDarid_body (d := dModuleRecover) h (fun _ => rfl) (by simp [dModuleRecover, hlen]) rfl rfl rfl
    exact congrArg (fun t : State => Host.Outcome.next (t.afterResponse r.ctd r.ch)) hrun
  · intro r s c h hlen hctd1 hstandby hclaimable
    have hrun := runDarid_body (d := dSwitchover) h (fun _ => rfl) (by simp [dSwitchover, hlen]) rfl hctd1
      (dSwitchover_body hstandby hclaimable ..)
    exact congrArg (fun t : State => Host.Outcome.next (t.afterResponse r.ctd r.ch)) hrun
  · intro r s h hlen
    have hrun := runDarid_body (d := dOosQuery) h (fun _ => rfl) (by simp [dOosQuery, hlen]) rfl rfl rfl
    exact congrArg Host.Outcome.next hrun
  · intro r s t b hcarries hserving hrom hlatched hcache hsender hlen hb hserial hcount hnonce hkey hsign ht
    have hrun := runDarid_latched (d := dOosLatchClear) hcarries hserving hrom hcache hsender rfl rfl
      (by simp [dOosLatchClear, hlen]) rfl rfl
    rw [dOosLatchClear_body_valid hlatched hb hserial hcount hnonce hkey hsign, ← ht] at hrun
    exact congrArg (fun t : State => Host.Outcome.next (t.afterResponse r.ctd r.ch)) hrun
  · intro r s b hcarries hserving hrom hlatched hcache hsender hlen hb hsign
    have hrun := runDarid_latched (d := dOosLatchClear) hcarries hserving hrom hcache hsender rfl rfl
      (by simp [dOosLatchClear, hlen]) rfl rfl
    rw [dOosLatchClear_body_unsigned hlatched hb hsign] at hrun
    exact ⟨_, rfl, congrArg (fun t : State => Host.Outcome.next (t.afterResponse r.ctd r.ch)) hrun⟩

end Sys2Proof.Machine
end

