-- ==== Sys2Proof/Proofs/DaridProtocol.lean ====
section
/-! PROOFS. O17: the acceptance of a Darid command (R326, R330) and what its answer changes (R322, R326, R336). First what the checks
of R330 make of a command on a ready channel, then what logging leaves of a channel. -/

namespace Sys2Proof.Machine

/-! ### Acceptance (R326, R330) -/

/-- The CTD of a ready channel serves, outside ROM recovery and with the latch clear. -/
theorem State.serves_of_ready {s : State} {op : Nat} {r : DReq} (h : s.ready op r = true) :
    s.carriesOut r.ctd.val = true ∧ s.serving = some r.ctd.val ∧ s.inRom r.ctd.val = false ∧ s.ctd.nv.latched = false := by
  simp only [State.ready, Bool.and_eq_true, Bool.not_eq_true', beq_iff_eq] at h
  obtain ⟨⟨⟨⟨hcarries, hserving⟩, hrom⟩, hlatched⟩, -⟩ := h
  exact ⟨hcarries, hserving, hrom, hlatched⟩

/-- A channel that is heard is ready, and has a sender whom the command is served to. -/
theorem State.ready_of_heard {s : State} {op : Nat} {ks : List Sender} {r : DReq} (h : s.heard op ks r = true) :
    s.ready op r = true ∧ ∃ k, senderOf r.ch.val = some k ∧ ks.contains k = true := by
  simp only [State.heard, Bool.and_eq_true] at h
  obtain ⟨hready, hsender⟩ := h
  refine ⟨hready, ?_⟩
  cases hk : senderOf r.ch.val with
  | none => rw [hk] at hsender; simp at hsender
  | some k => rw [hk] at hsender; exact ⟨k, rfl, hsender⟩

/-- A channel with nothing in its cache hands a command on. -/
theorem acceptDarid_uncached {s : State} {c ch : Nat} (h : (s.chan c ch).cache = none) (op q : Nat) (run : State → State) :
    acceptDarid s c ch op q run = run s := by
  simp only [acceptDarid, h]

/-- A command that stands in the cache with its response is answered from there (R326). -/
theorem acceptDarid_replay {s : State} {c ch op q : Nat} {ws : List Word} (h : (s.chan c ch).cache = some (op, q, some ws))
    (run : State → State) : acceptDarid s c ch op q run = s.respondRaw c ch op q true ws := by
  simp only [acceptDarid, h, decide_true, Bool.and_self, if_true]

/-- Behind a PENDING command another one is answered BUSY (R324). -/
theorem acceptDarid_busy {s : State} {c ch op q o p : Nat} (h : (s.chan c ch).cache = some (o, p, none)) (hne : ¬(o = op ∧ p = q))
    (run : State → State) : acceptDarid s c ch op q run = s.respondRaw c ch op q false [statusWord dBusy 0] := by
  have hother : (decide (o = op) && decide (p = q)) = false := by simpa using hne
  simp only [acceptDarid, h, hother, Bool.false_eq_true, if_false]

/-- What the acceptance alone makes of a command is what the command does. -/
theorem runDarid_of_accept {d : DaridDef} {r : DReq} {s t : State} (hcarries : s.carriesOut r.ctd.val = true)
    (haccept : ∀ run, acceptDarid s r.ctd.val r.ch.val d.op r.seq.toNat run = t) : runDarid d r s = t := by
  unfold runDarid
  rw [hcarries]
  exact (if_neg (by decide)).trans (haccept _)

/-- A command that the acceptance hands on is answered with what the checks of R330 and its own part give. -/
theorem runDarid_accepted {d : DaridDef} {r : DReq} {s : State} {k : Sender} (hcarries : s.carriesOut r.ctd.val = true)
    (haccept : ∀ run, acceptDarid s r.ctd.val r.ch.val d.op r.seq.toNat run = run s) (hsender : senderOf r.ch.val = some k) :
    runDarid d r s =
      answerDarid (whoOf d.op d.changes r d.mirrored) (d.run s (whoOf d.op d.changes r d.mirrored) (DReq.nums r)) := by
  unfold runDarid
  simp only [hcarries, haccept, hsender, Bool.not_true, Bool.false_eq_true, if_false]
  rfl

/-- With the latch set a sender other than a management channel is answered OUT_OF_SERVICE (R308). -/
theorem DaridDef.run_latched {d : DaridDef} {s : State} {w : Who} (hlatched : s.ctd.nv.latched = true)
    (hsender : senderOf w.ch ≠ some .m) (a : List Nat) : d.run s w a = .no s dOos := by
  have hother : (senderOf w.ch == some Sender.m) = false := beq_false_of_ne hsender
  simp only [DaridDef.run, hlatched, hother, Bool.and_false, Bool.not_false, Bool.and_self, if_true]

section Ready
variable {d : DaridDef} {r : DReq} {s : State} (h : s.ready d.op r = true)
include h

/-- A sender whom the command is not served to is answered DENIED (check 4). -/
theorem DaridDef.run_denied {a : List Nat} (hdenied : d.admits s false r.ch.val a = false) :
    d.run s (whoOf d.op d.changes r d.mirrored) a = .no s dDenied := by
  obtain ⟨-, hserving, hrom, hlatched⟩ := State.serves_of_ready h
  simp only [DaridDef.run, whoOf, hlatched, hserving, hrom, hdenied, bne_self_eq_false, Bool.false_and, Bool.not_false,
    Bool.false_eq_true, if_false, if_true]

/-- A number of words that the command does not take is answered BAD_LENGTH (check 5). -/
theorem DaridDef.run_badLength {a : List Nat} (hadmits : d.admits s false r.ch.val a = true) (hlen : d.len a.length = false) :
    d.run s (whoOf d.op d.changes r d.mirrored) a = .no s dBadLength := by
  obtain ⟨-, hserving, hrom, hlatched⟩ := State.serves_of_ready h
  simp only [DaridDef.run, whoOf, hlatched, hserving, hrom, hadmits, hlen, bne_self_eq_false, Bool.false_and, Bool.not_true,
    Bool.not_false, Bool.false_eq_true, if_false, if_true]

/-- On a ready channel a command is answered with what the checks of R330 and its own part give. -/
theorem runDarid_ready {k : Sender} (hsender : senderOf r.ch.val = some k) :
    runDarid d r s =
      answerDarid (whoOf d.op d.changes r d.mirrored) (d.run s (whoOf d.op d.changes r d.mirrored) (DReq.nums r)) := by
  obtain ⟨hcarries, -⟩ := State.serves_of_ready h
  exact runDarid_accepted hcarries (acceptDarid_ready h) hsender

end Ready

/-! ### Logging and the channels -/

/-- What a change of every entry leaves, every entry keeps. -/
theorem mget_mmapv_same {α β : Type} {d : α} {f : Nat → α → α} {g : α → β} (h : ∀ k a, g (f k a) = g a) (m : SMap α) (k : Nat) :
    g (mget d (mmapv m f) k) = g (mget d m k) := by
  induction m with
  | nil => rfl
  | cons e r ih =>
    obtain ⟨j, v⟩ := e
    unfold mget mmapv at ih ⊢
    rw [List.map_cons, lookup_pair, lookup_pair]
    split
    · exact h j v
    · exact ih

/-- What a change of one entry leaves, every entry keeps. -/
theorem mget_mmod_same {α β : Type} {d : α} {f : α → α} {g : α → β} (h : ∀ a, g (f a) = g a) (m : SMap α) (k j : Nat) :
    g (mget d (mmod d m k f) j) = g (mget d m j) := by
  by_cases hj : j = k
  · rw [hj, mget_mmod_self, h]
  · rw [mget_mmod_ne hj]

/-- The messages that wait for the sender of a channel, without the events. -/
def LogPart.upOf (p : LogPart) (k : Nat) : List Msg := (mget {} p.mbox.chans k).up

/-- An event is delivered beside the messages of a response (R323). -/
theorem deliver_up (c : Nat) (r : Rec) (m : SMap Channel) (k : Nat) : (mget {} (deliver c r m) k).up = (mget {} m k).up := by
  refine mget_mmapv_same (g := Channel.up) ?_ m k
  intro j x
  split
  · split <;> rfl
  · rfl

theorem LogPart.add_upOf (p : LogPart) (e : LogEnv) (code sev src : Nat) (ps : List Nat) (k : Nat) :
    (p.add e code sev src ps).upOf k = p.upOf k := by
  unfold LogPart.add LogPart.upOf
  dsimp only
  split
  · exact deliver_up ..
  · rfl

theorem LogPart.addTally_upOf (p : LogPart) (e : LogEnv) (points code k : Nat) :
    (p.addTally e points code).upOf k = p.upOf k := by
  unfold LogPart.addTally
  dsimp only
  split
  · rfl
  · split
    · rfl
    · exact LogPart.add_upOf ..

theorem LogPart.addLost_upOf (p : LogPart) (e : LogEnv) (k : Nat) : (p.addLost e).upOf k = p.upOf k := by
  refine foldl_same (g := fun q : LogPart => q.upOf k) ?_ _ p
  intro q x
  exact (LogPart.add_upOf ..).trans (mget_mmod_same (g := Channel.up)
    (f := fun c : Channel => { c with lostNow := 0, lostLog := some e.mono }) (fun _ => rfl) q.mbox.chans x.1 k)

theorem LogPart.event_upOf (p : LogPart) (e : LogEnv) (code sev src : Nat) (ps : List Nat) (k : Nat) :
    (p.event e code sev src ps).upOf k = p.upOf k :=
  (LogPart.addLost_upOf ..).trans ((LogPart.addTally_upOf ..).trans (LogPart.add_upOf ..))

theorem State.log_up (s : State) (code sev src : Nat) (ps : List Nat) (c ch : Nat) :
    ((s.log code sev src ps).chan c ch).up = (s.chan c ch).up := by
  unfold State.log
  split
  · rfl
  · exact LogPart.event_upOf s.logPart ..
  · rfl

theorem State.logDarid_up (s : State) (w : Who) (st d c ch : Nat) : ((s.logDarid w st d).chan c ch).up = (s.chan c ch).up := by
  unfold State.logDarid
  split
  · rfl
  · split
    · exact State.log_up ..
    · split
      · exact State.log_up ..
      · rfl

/-! ### Answers (R322, R326) -/

/-- A channel that has been handed a response: it stands at the end of the up list, and in the cache. -/
def Channel.responded (x : Channel) (w : Who) (final : Bool) (ws : List Word) : Channel :=
  { x with
    up := x.up ++ fragments w.op w.seq true false false (ws.take 1024)
    cache := some (w.op, w.seq, if final then some (ws.take 1024) else none) }

theorem State.respond_chan (s : State) (w : Who) (final : Bool) (ws : List Word) :
    (s.respond w final ws).chan w.ctd w.ch = (s.chan w.ctd w.ch).responded w final ws := by
  unfold State.respond
  dsimp only
  split <;> exact State.chan_setChan_self s w.ctd w.ch (·.responded w final ws)

/-- A final answer is logged first, and then handed over. -/
theorem answerDarid_final {x : DRes} (h : x.status ≠ dPending) (w : Who) : answerDarid w x =
    (x.s.logDarid w x.status x.detail).respond w true (statusWord x.status x.detail :: x.words.map (BitVec.ofNat 32)) := by
  have hfinal : (x.status != dPending) = true := bne_iff_ne.mpr h
  simp only [answerDarid, h, hfinal, if_false]

theorem answerDarid_cache {x : DRes} (h : x.status ≠ dPending) (w : Who) : ((answerDarid w x).chan w.ctd w.ch).cache =
    some (w.op, w.seq, some ((statusWord x.status x.detail :: x.words.map (BitVec.ofNat 32)).take 1024)) := by
  rw [answerDarid_final h, State.respond_chan]
  rfl

theorem answerDarid_up {x : DRes} (h : x.status ≠ dPending) (w : Who) : ((answerDarid w x).chan w.ctd w.ch).up =
    (x.s.chan w.ctd w.ch).up ++ fragments w.op w.seq true false false
      ((statusWord x.status x.detail :: x.words.map (BitVec.ofNat 32)).take 1024) := by
  rw [answerDarid_final h, State.respond_chan, ← State.logDarid_up x.s w x.status x.detail]
  rfl

/-- Settles O17: the checks of R330 in their order, the cache of R326, and the frame of an answer. -/
theorem daridProtocol : Obligations.DaridProtocol := by
  unfold Obligations.DaridProtocol
  refine ⟨?_, ?_, ?_, ?_, ?_, ?_⟩
  · intro r s h hsender
    have hdenied : dSliceRelease.admits s false r.ch.val (DReq.nums r) = false := by
      simp only [DaridDef.admits, hsender]
      rfl
    exact congrArg _ ((runDarid_ready (d := dSliceRelease) h hsender).trans (congrArg _ (DaridDef.run_denied h hdenied)))
  · intro r s h hl
    obtain ⟨hready, k, hsender, hk⟩ := State.ready_of_heard h
    have hadmits : dLedgerSubscribe.admits s false r.ch.val (DReq.nums r) = true := by
      simp only [DaridDef.admits, hsender]
      simpa [dLedgerSubscribe] using hk
    have hlen : dLedgerSubscribe.len (DReq.nums r).length = false := by simpa [dLedgerSubscribe, DReq.nums] using hl
    exact congrArg _ ((runDarid_ready (d := dLedgerSubscribe) hready hsender).trans
      (congrArg _ (DaridDef.run_badLength hready hadmits hlen)))
  · intro r s hcarries hcache hlatched hsender
    have hrun := DaridDef.run_latched (d := dPowerCap) (w := whoOf 0x0F02 true r) hlatched
      (ne_of_eq_of_ne hsender (by decide)) (DReq.nums r)
    exact congrArg _ ((runDarid_accepted (d := dPowerCap) hcarries (acceptDarid_uncached hcache _ _) hsender).trans
      (congrArg _ hrun))
  · intro r s fin hcarries hcache
    exact congrArg _ (runDarid_of_accept (d := dDataCursorSet) hcarries (acceptDarid_replay hcache))
  · intro r s o q hcarries hne hcache
    exact congrArg _ (runDarid_of_accept (d := dLedgerSubscribe) hcarries (acceptDarid_busy hcache hne))
  · rintro w d t hfinal rfl
    exact ⟨answerDarid_cache hfinal w, answerDarid_up hfinal w, answerDarid_fuse .., answerDarid_pending .., answerDarid_mem ..,
      answerDarid_time .., answerDarid_eng .., answerDarid_fab .., answerDarid_ctd .., answerDarid_job .., answerDarid_toll ..,
      answerDarid_power .., answerDarid_mod .., answerDarid_sched .., answerDarid_free ..⟩

end Sys2Proof.Machine
end

