-- ==== Sys2Proof/Proofs/LedgerCommands.lean ====
section
/-! PROOFS. O2: the Ledger's commands (R323, R332, R342, R350). What each command's own part answers is what its row says; the checks
of its arguments are said first. -/

namespace Sys2Proof.Machine

/-- LedgerRead of 1 to 63 records names no bad word. -/
theorem dLedgerRead_bad {a : List Nat} (h1 : 1 ≤ arg a 2) (h63 : arg a 2 ≤ 63) (s : State) : dLedgerRead.bad s a = none :=
  badWord_none (by simp [h1, h63])

/-- LedgerAppend of an event of the host's codes with severity 3 or less names no bad word. -/
theorem dLedgerAppend_bad {a : List Nat} (hcode : 0xF000 ≤ bitsOf (arg a 0) 15 0) (hsev : bitsOf (arg a 0) 18 16 ≤ 3)
    (hres : arg a 0 < 2 ^ 19) (s : State) : dLedgerAppend.bad s a = none :=
  badWord_none (by simpa [hcode, hsev] using hres)

/-- LedgerSubscribe of a severity, or of 8, names no bad word. -/
theorem dLedgerSubscribe_bad {a : List Nat} (h : arg a 0 ≤ 8) (s : State) : dLedgerSubscribe.bad s a = none :=
  badWord_none (by simp [h])

/-- Settles O2: each command is heard and has the effect of its own part. -/
theorem ledgerCommands : Obligations.LedgerCommands := by
  unfold Obligations.LedgerCommands
  refine ⟨?_, ?_, ?_, ?_⟩
  · intro r s h hl
    exact congrArg _ (runDarid_body (d := dLedgerStatus) h (fun _ => rfl) (by simp [dLedgerStatus, hl]) rfl rfl rfl)
  · intro r s h hl h1 h63
    exact congrArg _ (runDarid_body (d := dLedgerRead) h (fun _ => rfl) (by simp [dLedgerRead, hl])
      (dLedgerRead_bad h1 h63 s) rfl rfl)
  · intro r s h hl hcode hsev hres
    exact ⟨_, rfl, congrArg _ (runDarid_body (d := dLedgerAppend) h (fun _ => rfl) (by simp [dLedgerAppend, hl])
      (dLedgerAppend_bad hcode hsev hres s) rfl rfl)⟩
  · intro r s h hl hsev
    exact congrArg _ (runDarid_body (d := dLedgerSubscribe) h (fun _ => rfl) (by simp [dLedgerSubscribe, hl])
      (dLedgerSubscribe_bad hsev s) rfl rfl)

end Sys2Proof.Machine
end

