-- ==== Sys2Proof/Proofs/StagingAndFlash.lean ====
section
/-! PROOFS. O3: the staging area and the commits of its objects (R332, R334, R470). O4: the end of a flash write, and an image that a
caravan brought in ROM recovery (R334, R470, R480, R481). First what each command's own part answers. -/

namespace Sys2Proof.Machine

/-! ### The staging area -/

/-- Bytes for the target of the area, or for an empty area, within the target's limit are stored. -/
theorem dStageWrite_body {s : State} {a : List Nat} {b : List Byte}
    (htarget : s.mbox.stage.target = none ∨ s.mbox.stage.target = some (arg a 0)) (hb : b = (a.drop 2).flatMap (leBytes 4))
    (hlimit : arg a 1 + b.length ≤ stageLimit (arg a 0)) {w : Who} (hrom : s.inRom w.ctd = false) :
    dStageWrite.body s w a = { s := { s with mbox := { s.mbox with stage := { s.mbox.stage with
      target := some (arg a 0)
      bytes := cellsPut s.mbox.stage.bytes (arg a 1) b
      top := max s.mbox.stage.top (arg a 1 + b.length) } } } } := by
  subst hb
  have hsame : s.mbox.stage.target.any (· != arg a 0) = false := by
    rcases htarget with h | h <;> simp [h]
  simp only [dStageWrite, hrom, hsame, Nat.not_lt.mpr hlimit, Bool.false_and, Bool.false_eq_true, if_false]

/-- A commit of an object that passed its check empties the area and hands the object to the flash job. -/
theorem State.stageCommit_ok (s : State) (who : Option Who) (target : Nat) (b : List Byte) (old : List Nat) :
    s.stageCommit who target dOk b old = { status := dPending, s := { s with mbox := { s.mbox with stage :=
      { job := some (who, target, b), old := old, recovered := s.mbox.stage.recovered, src := s.mbox.stage.src } } } } := rfl

/-- An image that passes its check goes to flash in place of one that stands there. -/
theorem State.imageToFlash_ok {s : State} (hrec : s.mbox.stage.recovered = none) (hst : s.stagedImage.1 = dOk)
    (hold : s.ctd.nv.image ≠ []) (who : Option Who) :
    s.imageToFlash who = { status := dPending, s := { s with
      ctd := { s.ctd with nv := { s.ctd.nv with image := [] } }
      mbox := { s.mbox with stage :=
        { job := some (who, 1, s.stagedImage.2), old := [fieldAt s.ctd.nv.image 6 2]
          recovered := none, src := s.mbox.stage.src } } } } := by
  have hne : s.ctd.nv.image.isEmpty = false := by simp [hold]
  simp only [State.imageToFlash, hst, hne, State.stageCommit_ok, hrec, Bool.false_eq_true, if_false, if_true]

/-! ### Commits -/

theorem dFwCommit_body {s : State} (htarget : s.mbox.stage.target = some 1) (hjob : s.mbox.stage.job = none)
    (hrec : s.mbox.stage.recovered = none) (w : Who) (a : List Nat) : dFwCommit.body s w a = s.imageToFlash (some w) := by
  simp only [dFwCommit, htarget, hjob, hrec, Option.isSome_none, Bool.or_self, bne_self_eq_false, Bool.false_eq_true, if_false]

theorem dClampCommit_body {s : State} (htarget : s.mbox.stage.target = some 2) (hjob : s.mbox.stage.job = none)
    (hcheck : s.clampCheck (s.stagedBytes 768) = 0) (w : Who) (a : List Nat) :
    dClampCommit.body s w a = s.stageCommit (some w) 2 dOk (s.stagedBytes 768) [] := by
  simp only [dClampCommit, htarget, hjob, hcheck, Option.isSome_none, bne_self_eq_false, Bool.false_eq_true, if_false]

/-- The calibration set in flash is erased, CAL_ALTERED set. -/
theorem dCalCommit_body {s : State} {b : List Byte} (htarget : s.mbox.stage.target = some 4) (hjob : s.mbox.stage.job = none)
    (hb : b = (s.stagedBytes 262144).take (fieldAt (s.stagedBytes 262144) 8 4)) (hcheck : (s.calFail b).1 = 0) (w : Who)
    (a : List Nat) :
    dCalCommit.body s w a = { status := dPending, s := { s with
      ctd := { s.ctd with nv := { s.ctd.nv with cal := [], calAltered := true } }
      mbox := { s.mbox with stage :=
        { job := some (some w, 4, b), old := (wordsOf s.calHash).take 4
          recovered := s.mbox.stage.recovered, src := s.mbox.stage.src } } } } := by
  simp only [dCalCommit, htarget, hjob, Nat.reducePow, ← hb, hcheck, State.stageCommit_ok, Option.isSome_none, bne_self_eq_false,
    Bool.false_eq_true, if_false]

/-! ### FwInfo and the standby -/

theorem dFwInfo_body {s : State} {w : Who} (hrom : s.inRom w.ctd = false) (a : List Nat) :
    dFwInfo.body s w a =
      { s := s
        words := [(s.ctdOf w.ctd).release, s.ctd.nv.minRelease, s.ctd.clamp.seq] ++
          wordsOf (padTo 32 0 (s.ctdOf w.ctd).imageHash) } := by
  simp only [dFwInfo, hrom, Bool.false_eq_true, if_false]

theorem dFwRestartStandby_body {s : State} {c : Nat} (h : s.standby = some c) (w : Who) (a : List Nat) :
    dFwRestartStandby.body s w a =
      { s := (s.holdCtd c).setCtd c fun x => { x with waiters := x.waiters ++ [w] }, status := dPending } := by
  simp only [dFwRestartStandby, h]

/-- Settles O3: each command is heard and has the effect of its own part. -/
theorem stagingCommands : Obligations.StagingCommands := by
  unfold Obligations.StagingCommands
  refine ⟨?_, ?_, ?_, ?_, ?_, ?_, ?_⟩
  · intro r s b h hl h1 h4 halign htarget hb hlimit
    exact congrArg _ (runDarid_body (d := dStageWrite) h (fun _ => rfl) (by simpa [dStageWrite] using hl)
      (badWord_none (by simp [h1, h4, halign])) rfl (dStageWrite_body htarget hb hlimit (State.inRom_of_heard h)))
  · intro r s h hl
    exact congrArg _ (runDarid_body (d := dStageReset) h (fun _ => rfl) (by simp [dStageReset, hl]) rfl rfl rfl)
  · intro r s h hl htarget hjob hrec hst hold
    exact congrArg _ (runDarid_body (d := dFwCommit) h (fun _ => rfl) (by simp [dFwCommit, hl]) rfl rfl
      ((dFwCommit_body htarget hjob hrec _ _).trans (State.imageToFlash_ok hrec hst hold _)))
  · intro r s h hl htarget hjob hcheck
    exact congrArg _ (runDarid_body (d := dClampCommit) h (fun _ => rfl) (by simp [dClampCommit, hl]) rfl rfl
      ((dClampCommit_body htarget hjob hcheck _ _).trans (State.stageCommit_ok ..)))
  · intro r s b h hl hkey htarget hjob hb hcheck
    exact congrArg _ (runDarid_body (d := dCalCommit) h (fun _ => rfl) (by simp [dCalCommit, hl])
      (badWord_none (by simp [hkey])) rfl (dCalCommit_body htarget hjob hb hcheck _ _))
  · intro r s h hl
    exact congrArg _ (runDarid_body (d := dFwInfo) h (fun _ => rfl) (by simp [dFwInfo, hl]) rfl rfl
      (dFwInfo_body (State.inRom_of_heard h) _))
  · intro r s c h hl hctd1 hstandby
    exact congrArg _ (runDarid_body (d := dFwRestartStandby) h (fun _ => rfl) (by simp [dFwRestartStandby, hl]) rfl hctd1
      (dFwRestartStandby_body hstandby _ _))

/-! ### The end of a flash write -/

/-- While a CTD serves, a flash write that ends well leaves its object in flash. -/
theorem exec_flashCommitDone_ok {s : State} {w : Option Who} {target h : Nat} {b : List Byte}
    (hjob : s.mbox.stage.job = some (w, target, b)) (hserving : s.serving = some h) :
    exec (.flashCommitDone true) s = .next (s.inFlash w target b) := by
  refine congrArg Host.Outcome.next ?_
  simp only [hjob, hserving, if_true]

/-- One that fails leaves what its failure leaves. -/
theorem exec_flashCommitDone_failed {s : State} {w : Option Who} {target h : Nat} {b : List Byte}
    (hjob : s.mbox.stage.job = some (w, target, b)) (hserving : s.serving = some h) :
    exec (.flashCommitDone false) s = .next (s.flashFailed w target b) := by
  refine congrArg Host.Outcome.next ?_
  simp only [hjob, hserving, Bool.false_eq_true, if_false]

/-- In ROM recovery a complete image that no flash job keeps waiting goes to flash. -/
theorem exec_romCaravanImageComplete_there {s : State} {h : Nat} (hserving : s.serving = some h) (hrom : s.inRom h = true)
    (htarget : s.mbox.stage.target = some 1) (hthere : s.mbox.stage.imageThere = true) (hjob : s.mbox.stage.job = none)
    (hrec : s.mbox.stage.recovered = none) : exec .romCaravanImageComplete s = .next (s.imageToFlash none).s := by
  refine congrArg Host.Outcome.next ?_
  simp only [hserving, Option.any_some, hrom, htarget, hthere, hjob, hrec, beq_self_eq_true, Option.isNone_none, Bool.and_self,
    if_true]

/-- Settles O4: a job by its target and how its write ends. -/
theorem flashCommits : Obligations.FlashCommits := by
  unfold Obligations.FlashCommits
  refine ⟨?_, ?_, ?_, ?_⟩
  · intro s w b h hjob hserving
    exact exec_flashCommitDone_ok hjob hserving
  · intro s w b h hjob hserving
    exact ⟨_, rfl, exec_flashCommitDone_ok hjob hserving⟩
  · intro s w b h hjob hserving
    exact exec_flashCommitDone_failed hjob hserving
  · intro s h hserving hrom htarget hthere hjob hrec hst hold
    rw [exec_romCaravanImageComplete_there hserving hrom htarget hthere hjob hrec, State.imageToFlash_ok hrec hst hold]

end Sys2Proof.Machine
end

