-- ==== Sys2Proof/Proofs/Attestation.lean ====
section
/-! PROOFS. O11: attestation (R332, R482, R483, R485). First what the bodies of SpdmExchange and CertRead answer to each request. -/

namespace Sys2Proof.Machine

/-- A request of 1 to 4088 bytes names no bad word. -/
theorem dSpdmExchange_bad {a : List Nat} (h1 : 1 ≤ arg a 0) (h4088 : arg a 0 ≤ 4088) (s : State) : dSpdmExchange.bad s a = none :=
  badWord_none (by simp [h1, h4088])

/-- GET_VERSION starts the connection on its channel: VERSION is answered, and the transcript holds the two. -/
theorem dSpdmExchange_body_version {s : State} {a : List Nat} {req : List Byte} (hlen : a.length = 1 + cdiv (arg a 0) 4)
    (hpending : s.spdm.pending = none) (hreq : req = ((a.drop 1).flatMap (leBytes 4)).take (arg a 0))
    (hcode : fieldAt req 1 1 = 0x84) (w : Who) :
    dSpdmExchange.body s w a =
      { s := { s with spdm := { chan := some w.ch, stage := 1, transcript := req ++ spdmVersion } }
        words := 8 :: wordsOf spdmVersion } := by
  subst hreq
  simp only [dSpdmExchange, hlen, hpending, hcode, Option.any_none, bne_self_eq_false, Bool.false_eq_true, if_false, if_true]
  rfl

/-- Another request on a channel without the connection is answered RequestResynch. -/
theorem dSpdmExchange_body_resynch {s : State} {a : List Nat} {req : List Byte} (hlen : a.length = 1 + cdiv (arg a 0) 4)
    (hpending : s.spdm.pending = none) (hreq : req = ((a.drop 1).flatMap (leBytes 4)).take (arg a 0))
    (hcode : fieldAt req 1 1 ≠ 0x84) {w : Who} (hchan : s.spdm.chan ≠ some w.ch) :
    dSpdmExchange.body s w a = spdmFail s 0x43 := by
  subst hreq
  have hother : (s.spdm.chan != some w.ch) = true := bne_iff_ne.mpr hchan
  simp only [dSpdmExchange, hlen, hpending, hcode, hother, Option.any_none, bne_self_eq_false, Bool.false_eq_true, if_false, if_true]

/-- The signed response to a CHALLENGE is logged as SPDM_SIGNED without a measurement index, and answered. -/
theorem exec_spdmResponseDone_challenge {s : State} {w : Who} {req : List Byte} {h : Nat} (hpending : s.spdm.pending = some (w, req))
    (hserving : s.serving = some h) (hcode : fieldAt req 1 1 = 0x83) :
    ∃ t u, t = s.log 0x1101 2 (srcCrypto s) [w.ch, 0x83, (spdmSigned req).getD 0, fieldAt req 4 4, 0xFF] ∧
      u = ({ t with spdm := { t.spdm with pending := none } } : State).spdmAnswer req
        (Config.spdmResponse req s.spdm.transcript (s.spdmContent req)) ∧
      exec .spdmResponseDone s = .next (u.s.finish w dOk 0 u.words) := by
  refine ⟨_, _, rfl, rfl, congrArg Host.Outcome.next ?_⟩
  simp only [hpending, hserving, hcode]
  rfl

/-- The chain of slot 0 is the module's, from the offset on as many bytes as are asked for. -/
theorem dCertRead_body_zero {s : State} {a : List Nat} {b : List Byte} (hslot : arg a 0 = 0)
    (hb : b = ((Config.certChain 0).drop (arg a 1)).take (arg a 2)) (w : Who) :
    dCertRead.body s w a = { s := s, words := wordsOf (padTo (cdiv b.length 4 * 4) 0 b) } := by
  subst hb
  simp only [dCertRead, hslot, State.chainOf, if_true]

/-- Settles O11: each request by its code and the connection, the signed response when it is final. -/
theorem attestation : Obligations.Attestation := by
  unfold Obligations.Attestation
  refine ⟨?_, ?_, ?_, ?_⟩
  · intro r s req h h2 h1023 h1 h4088 hlen hpending hreq hcode
    exact congrArg _ (runDarid_body (d := dSpdmExchange) h (fun _ => rfl) (by simp [dSpdmExchange, h2, h1023])
      (dSpdmExchange_bad h1 h4088 s) rfl (dSpdmExchange_body_version hlen hpending hreq hcode _))
  · intro r s req h h2 h1023 h1 h4088 hlen hpending hreq hcode hchan
    exact congrArg _ (runDarid_body (d := dSpdmExchange) h (fun _ => rfl) (by simp [dSpdmExchange, h2, h1023])
      (dSpdmExchange_bad h1 h4088 s) rfl (dSpdmExchange_body_resynch hlen hpending hreq hcode hchan))
  · intro s w req h hpending hserving hcode
    exact exec_spdmResponseDone_challenge hpending hserving hcode
  · intro r s b h hl hslot h1 h4088 hb
    exact congrArg _ (runDarid_body (d := dCertRead) h (fun _ => rfl) (by simp [dCertRead, hl])
      (badWord_none (by simp [hslot, h1, h4088])) rfl (dCertRead_body_zero hslot hb _))

end Sys2Proof.Machine
end

