-- ==== Sys2Proof/Proofs/ChannelPage.lean ====
section
/-! PROOFS. O15: the page of a channel (R314 to R317). First what a page that cannot be reached and one that can make of each access. -/

namespace Sys2Proof.Machine

/-- The end of an access leaves the channels alone. -/
@[simp] theorem State.answer_chan (s : State) (v : BitVec 64) (c ch : Nat) : (s.answer v).chan c ch = s.chan c ch := rfl

/-! ### Accesses to a page -/

section Reached
variable {s : State} {i : Initiator} {c : Fin 2} {ch : Fin 512} (hgate : s.pageGate i c ch = .none)
include hgate

/-- A word is stored while FULL = 0 (R315). -/
theorem exec_mbTxWordWrite_empty (hfull : (s.chan c ch).txFull = false) (n : Fin 8) (v : BitVec 32) :
    exec (.mbTxWordWrite i c ch n v) s = .next ((s.answer 0).setChan c ch fun x => { x with tx := x.tx.set n v }) := by
  refine congrArg Host.Outcome.next ?_
  simp only [hgate, State.answer_chan, hfull, Bool.false_eq_true, if_false]

/-- A word written with FULL = 1 is an overrun (R315). -/
theorem exec_mbTxWordWrite_full (hfull : (s.chan c ch).txFull = true) (n : Fin 8) (v : BitVec 32) :
    exec (.mbTxWordWrite i c ch n v) s = .next ((s.answer 0).overrun c ch) := by
  refine congrArg Host.Outcome.next ?_
  simp only [hgate, State.answer_chan, hfull, if_true]

/-- GO = 1 hands the words over (R315). -/
theorem exec_mbTxCommit_go (hfull : (s.chan c ch).txFull = false) {v : BitVec 32} (hgo : v.getLsbD 0 = true) :
    exec (.mbTxCommit i c ch v) s = .next ((s.answer 0).setChan c ch fun x => { x with txFull := true }) := by
  refine congrArg Host.Outcome.next ?_
  simp only [hgate, State.answer_chan, hfull, hgo, Bool.false_eq_true, if_false, if_true]

/-- A pop of a full page answers word 0 and clears FULL (R316). -/
theorem exec_mbRxPop_full (hfull : (s.chan c ch).rxFull = true) : exec (.mbRxPop i c ch) s = .next
    ((s.answer (((s.chan c ch).rx.getD 0 0).setWidth 64)).setChan c ch fun x => { x with rxFull := false }) := by
  refine congrArg Host.Outcome.next ?_
  simp only [hgate, hfull, if_true]

/-- A pop of an empty page answers 0 (R316). -/
theorem exec_mbRxPop_empty (hfull : (s.chan c ch).rxFull = false) : exec (.mbRxPop i c ch) s = .next (s.answer 0) := by
  refine congrArg Host.Outcome.next ?_
  simp only [hgate, hfull, Bool.false_eq_true, if_false]

end Reached

/-- What is done on a page that may not be reached is to fail. -/
theorem State.page_fails {s : State} {i : Initiator} {c ch : Nat} {e : AccErr} (hgate : s.pageGate i c ch = e) (he : e ≠ .none)
    (t : State) : (match s.pageGate i c ch with | .none => t | e => s.fail e) = s.fail e := by
  subst hgate
  split
  · next h => exact absurd h he
  · rfl

/-- Settles O15: an access by whether its page may be reached and is full. -/
theorem channelPage : Obligations.ChannelPage := by
  unfold Obligations.ChannelPage
  refine ⟨?_, ?_, ?_, ?_, ?_, ?_⟩
  · intro s h c ch n v hgate hfull
    exact exec_mbTxWordWrite_empty hgate hfull n v
  · intro s h c ch n v hgate hfull
    exact exec_mbTxWordWrite_full hgate hfull n v
  · intro s h c ch v hgate hfull hgo
    exact exec_mbTxCommit_go hgate hfull hgo
  · intro s h c ch hgate hfull
    exact exec_mbRxPop_full hgate hfull
  · intro s h c ch hgate hfull
    exact exec_mbRxPop_empty hgate hfull
  · intro s h c ch n v e he hgate
    exact ⟨congrArg _ (State.page_fails hgate he _), congrArg _ (State.page_fails hgate he _), congrArg _ (State.page_fails hgate he _)⟩

end Sys2Proof.Machine
end

