-- ==== Sys2Proof/Proofs/Messages.lean ====
section
/-! PROOFS. O16: messages into and out of the mailbox (R313 to R322, R304). First what the down queue's message and the next up message
come to, then what a datagram and a MGMT packet of a source come to. -/

namespace Sys2Proof.Machine

/-! ### Messages of a host page (R313, R315, R316, R320, R321) -/

/-- A channel that is bound to no source has nothing to take in. -/
theorem State.feed_unbound {s : State} {ch : Nat} (h : s.mbox.binds.lookup ch = none) (c : Nat) : s.feed c ch = s := by
  simp only [State.feed, h]

/-- A message whose header sets the bit of a response is answered BAD_ARG. -/
theorem State.message_response {s : State} {c : Fin 2} {ch : Fin 512} {m : Msg} {h : Nat} (hh : h = (m.getD 0 0).toNat)
    (hbit : bitOf h 27 = true) : s.message c ch m =
      .next (s.respondRaw c ch (bitsOf h 15 0) (bitsOf h 26 19) false [statusWord dBadArg 0]) := by
  subst hh
  simp only [State.message, hbit, Bool.true_or, if_true]

/-- A first fragment with MORE and seven words opens a command. -/
theorem State.message_opens {s : State} {c : Fin 2} {ch : Fin 512} {m : Msg} {h : Nat} (hopen : (s.chan c ch).openCmd = none)
    (hh : h = (m.getD 0 0).toNat) (h27 : bitOf h 27 = false) (hmore : bitOf h 28 = true) (h29 : bitOf h 29 = false)
    (h30 : bitOf h 30 = false) (h31 : bitOf h 31 = false) (hlen : bitsOf h 18 16 = 7) :
    s.message c ch m = .next (s.setChan c ch fun x =>
      { x with openCmd := some (bitsOf h 15 0, bitsOf h 26 19, (m.drop 1).take 7, s.time.mono) }) := by
  subst hh
  have hshort : ¬ 1024 < ((m.drop 1).take 7).length := by
    rw [List.length_take]
    omega
  simp only [State.message, hopen, h27, hmore, h29, h30, h31, hlen, hshort, Option.any_none, List.nil_append, Nat.lt_irrefl,
    decide_false, Bool.and_false, Bool.or_self, Bool.false_eq_true, if_false, if_true]

/-- MB_POP of a full host page without an interrupt: FULL clears, and the message is taken (R315). -/
theorem exec_mbPop_host {s : State} {c : Fin 2} {ch : Fin 512} (hfull : (s.chan c ch).txFull = true)
    (hcarries : s.carriesOut c = true) (hhost : ch.val < 256) (hirq : (s.chan c ch).irqTx = false)
    (hunbound : s.mbox.binds.lookup ch.val = none) :
    exec (.mbPop c ch) s = (s.setChan c ch fun x => { x with txFull := false }).message c ch (s.chan c ch).tx := by
  have hchan : ¬ 416 ≤ ch.val := by omega
  show execMbPop c ch s = _
  unfold execMbPop
  simp only [hfull, hcarries, hchan, hirq, Bool.not_true, Bool.or_self, Bool.false_eq_true, if_false]
  exact congrArg (fun t : State => t.message c ch _) (State.feed_unbound (s := s.setChan c ch _) hunbound c)

/-- On the channels of internal opcodes the model refuses MB_POP (R313). -/
theorem exec_mbPop_internal {s : State} {c : Fin 2} {ch : Fin 512} (hfull : (s.chan c ch).txFull = true)
    (hcarries : s.carriesOut c = true) (hch : 416 ≤ ch.val) : exec (.mbPop c ch) s = .refused .internalOpcode := by
  show execMbPop c ch s = _
  unfold execMbPop
  simp only [hfull, hcarries, hch, Bool.not_true, Bool.or_self, Bool.false_eq_true, if_false, if_true]

/-- The next message for a host is placed on its page while FULL = 0 (R316). -/
theorem exec_mbUpPlace_host {s : State} {c : Fin 2} {ch : Fin 512} {m : Msg} {x : Channel} (hcarries : s.carriesOut c = true)
    (hhost : ch.val < 256) (hnext : (s.chan c ch).nextUp = some (m, x)) (hfull : (s.chan c ch).rxFull = false)
    (hirq : (s.chan c ch).irqRx = false) :
    exec (.mbUpPlace c ch) s = .next (s.setChan c ch fun _ => { x with rx := m, rxFull := true }) := by
  refine congrArg Host.Outcome.next ?_
  simp only [hcarries, hnext, hhost, hfull, hirq, Bool.not_true, Bool.false_eq_true, if_false, if_true]

/-- An open command without a fragment for 1 s is dropped (R321). -/
theorem exec_fragmentTimeout_due {s : State} {c : Fin 2} {ch : Fin 512} {x y t : Nat} {l : List Word}
    (hopen : (s.chan c ch).openCmd = some (x, y, l, t)) (hdue : t + 1000000000 ≤ s.time.mono) :
    exec (.fragmentTimeout c ch) s = .next (s.setChan c ch fun x => { x with openCmd := none }) := by
  refine congrArg Host.Outcome.next ?_
  simp only [hopen, hdue, if_true]

/-! ### Datagrams (R318) -/

/-- Messages of a source that has no binding yet: it is bound, and they wait in their order. -/
theorem State.enqueue_unbound {s : State} {ch : Nat} (h : s.mbox.binds.lookup ch = none) (c ip port : Nat) (ms : List Msg) :
    s.enqueue c ch ip port ms = ({ s with mbox := { s.mbox with binds := (mput s.mbox.binds ch
      { ip := ip, port := port, last := s.time.mono, queue := ms }) } } : State).feed c ch := by
  simp only [State.enqueue, h, List.nil_append]

/-- A well-formed datagram for a free channel binds it. -/
theorem State.datagram_unbound {s : State} {h : Nat} {b : List Byte} (hserving : s.serving = some h) (h36 : 36 ≤ b.length)
    (h260 : b.length ≤ 260) (hwhole : (b.length - 4) % 32 = 0) (h256 : 256 ≤ fieldAt b 0 2) (h287 : fieldAt b 0 2 ≤ 287)
    (hres : fieldAt b 2 2 = 0) (hunbound : s.mbox.binds.lookup (fieldAt b 0 2) = none) (ip port : Nat) :
    s.datagram ip port b = s.enqueue h (fieldAt b 0 2) ip port (toMsgs (b.drop 4)) := by
  simp only [State.datagram, hserving, h36, h260, hwhole, h256, h287, hres, hunbound, decide_true, beq_self_eq_true,
    Bool.and_self, Bool.not_true, Bool.false_eq_true, if_false]

/-- While no CTD serves a datagram is discarded and counted (R293). -/
theorem State.datagram_unserved {s : State} (hserving : s.serving = none) (ip port : Nat) (b : List Byte) :
    s.datagram ip port b = { s with mgmt := { s.mgmt with discarded := satAdd 0xFFFF s.mgmt.discarded 1 } } := by
  simp only [State.datagram, hserving]

/-! ### MGMT packets (R319) -/

/-- Taking a packet off its port changes the ports alone. -/
theorem State.takeMgmt_eq (s : State) (b : List Byte) : ∃ ports, s.takeMgmt b = { s with fab := { s.fab with ports := ports } } := by
  unfold State.takeMgmt
  dsimp only
  split
  · exact ⟨_, rfl⟩
  · exact ⟨_, rfl⟩

theorem State.takeMgmt_serving (s : State) (b : List Byte) : (s.takeMgmt b).serving = s.serving := by
  obtain ⟨ports, h⟩ := s.takeMgmt_eq b
  rw [h]
  rfl

theorem State.takeMgmt_mbox (s : State) (b : List Byte) : (s.takeMgmt b).mbox = s.mbox := by
  obtain ⟨ports, h⟩ := s.takeMgmt_eq b
  rw [h]

section Packets
variable {s : State} {src : BitVec 15} {b : List Byte} {h : Nat} (hserving : s.serving = some h) (hwhole : b.length % 32 = 0)
  (h32 : 32 ≤ b.length) (h256 : b.length ≤ 256)
include hserving hwhole h32 h256

/-- A packet of whole messages from a source that holds a channel joins its queue. -/
theorem exec_mgmtPacketReceive_bound {e : Nat × Bind}
    (hbound : s.mbox.binds.find? (fun e => e.1 ≥ 288 && e.2.ip == src.toNat) = some e) :
    exec (.mgmtPacketReceive src b) s = .next ((s.takeMgmt b).enqueue h e.1 src.toNat 0 (toMsgs b)) := by
  refine congrArg Host.Outcome.next ?_
  simp only [State.takeMgmt_serving, State.takeMgmt_mbox, hserving, hwhole, h32, h256, hbound, beq_self_eq_true, decide_true,
    Bool.and_self, Bool.not_true, Bool.false_eq_true, if_false]

/-- The first one of a source takes the lowest free channel from 288 on. -/
theorem exec_mgmtPacketReceive_unbound {i : Nat}
    (hunbound : s.mbox.binds.find? (fun e => e.1 ≥ 288 && e.2.ip == src.toNat) = none)
    (hfree : (List.range 128).find? (fun i => (s.mbox.binds.lookup (288 + i)).isNone) = some i) :
    exec (.mgmtPacketReceive src b) s = .next ((s.takeMgmt b).enqueue h (288 + i) src.toNat 0 (toMsgs b)) := by
  refine congrArg Host.Outcome.next ?_
  simp only [State.takeMgmt_serving, State.takeMgmt_mbox, hserving, hwhole, h32, h256, hunbound, hfree, beq_self_eq_true, decide_true,
    Bool.and_self, Bool.not_true, Bool.false_eq_true, if_false]

end Packets

/-- While no CTD serves a packet is dropped. -/
theorem exec_mgmtPacketReceive_unserved {s : State} (hserving : s.serving = none) (src : BitVec 15) (b : List Byte) :
    exec (.mgmtPacketReceive src b) s = .next (s.takeMgmt b) := by
  refine congrArg Host.Outcome.next ?_
  simp only [State.takeMgmt_serving, hserving]

/-- Settles O16: a message by its channel and header, a datagram and a packet by who serves and what its source holds. -/
theorem messages : Obligations.Messages := by
  unfold Obligations.Messages
  refine ⟨?_, ?_, ?_, ?_, ?_, ?_, ?_, ?_, ?_, ?_⟩
  · intro s c ch h hfull hcarries hhost hirq hunbound hopen hh h27 hmore h29 h30 h31 hlen
    rw [exec_mbPop_host hfull hcarries hhost hirq hunbound]
    exact State.message_opens (by rw [State.chan_setChan_self]; exact hopen) hh h27 hmore h29 h30 h31 hlen
  · intro s c ch h hfull hcarries hhost hirq hunbound hh h27
    rw [exec_mbPop_host hfull hcarries hhost hirq hunbound]
    exact State.message_response hh h27
  · intro s c ch m x hcarries hhost hnext hfull hirq
    exact exec_mbUpPlace_host hcarries hhost hnext hfull hirq
  · intro s ip port b h hserving h36 h260 hwhole h256 h287 hres hunbound
    exact congrArg _ ((State.datagram_unbound hserving h36 h260 hwhole h256 h287 hres hunbound _ _).trans
      (State.enqueue_unbound hunbound ..))
  · intro s ip port b hserving
    exact congrArg _ (State.datagram_unserved hserving ..)
  · intro s c ch x y l t hopen hdue
    exact exec_fragmentTimeout_due hopen hdue
  · intro s c ch hfull hcarries hch
    exact exec_mbPop_internal hfull hcarries hch
  · intro s src b h e hserving hwhole h32 h256 hbound
    exact exec_mgmtPacketReceive_bound hserving hwhole h32 h256 hbound
  · intro s src b h i hserving hwhole h32 h256 hunbound hfree
    exact exec_mgmtPacketReceive_unbound hserving hwhole h32 h256 hunbound hfree
  · intro s src b hserving
    exact exec_mgmtPacketReceive_unserved hserving src b

end Sys2Proof.Machine
end

