-- ==== Sys2Proof/Proofs/SieveRules.lean ====
section
/-! PROOFS. O23: the commands of the sieve, the taint maps and the tally (R332, R377, R382, R391), sieve runs (R379, R384, R386) and the
decay of the tally (R392, R393). First what each command's own part answers and what each row of the module comes to. -/

namespace Sys2Proof.Machine

/-! ### Commands -/

/-- A pack that passes its check waits for flash, and the area is empty. -/
theorem dSievePackCommit_body {s : State} {b : List Byte} (htarget : s.mbox.stage.target = some 3)
    (hjob : s.mbox.stage.job = none) (hb : b = s.stagedBytes 4194304) (hcheck : s.packCheck b s.ctd.nv.packVersion = dOk)
    (w : Who) (a : List Nat) :
    dSievePackCommit.body s w a =
      { s := { s with mbox := { s.mbox with stage := { job := some (some w, 3, b.take (fieldAt b 16 4 + 384)) } } }
        status := dPending } := by
  simp only [dSievePackCommit, htarget, hjob, Nat.reducePow, ← hb, hcheck, Option.isSome_none, bne_self_eq_false, Bool.false_eq_true,
    if_false, if_true]

/-- An engine, or its pair, that is neither running nor due and may be given a run becomes due, and the command waits. -/
theorem dSieveRunNow_body {s : State} {a : List Nat} {j u : Nat} (hj : engArg (arg a 0) = some j)
    (hu : u = (s.pairOf j).headD j) (hbusy : (s.sv u).busy = false)
    (hmay : (s.sv u).st ≠ .outOfService ∨ (s.sv u).resetSince = true) (hpack : s.silent.packValid = true) (w : Who) :
    dSieveRunNow.body s w a =
      { s := s.setSv u fun e => { e with due := true, waiters := e.waiters ++ [w] }, status := dPending } := by
  have hstuck : ((s.sv u).st == .outOfService && !(s.sv u).resetSince) = false := by
    rcases hmay with h | h <;> simp [h]
  simp only [dSieveRunNow, hj, Option.getD_some, ← hu, hbusy, hstuck, hpack, Bool.not_true, Bool.or_self, Bool.false_eq_true, if_false]

theorem badWord_engArg {a : List Nat} {j : Nat} (hj : engArg (arg a 0) = some j) : badWord [(0, (engArg (arg a 0)).isSome)] = none :=
  badWord_none (by simp [hj])

theorem dSieveQuery_body {s : State} {a : List Nat} {j : Nat} (hj : engArg (arg a 0) = some j) (w : Who) :
    dSieveQuery.body s w a = { s := s, words := lohi (s.sv j).cleanStep.toNat ++ [s.engStatus j] } := by
  simp only [dSieveQuery, hj, Option.getD_some]

/-! ### Sieve runs (R379, R384, R386) -/

/-- An engine that may run goes out of work with its partner, and the run stands at its die. -/
theorem exec_sieveRunStart_mayRun {s : State} {j : Fin 112} (hmay : s.mayRun j = true) :
    ∃ t, t = (s.pairOf j).foldl (fun s k => (s.setSv k fun e =>
        { e with sieving := true, due := false, runImmediate := e.immediate, immediate := false
                 runPack := s.silent.version }).setEng k fun e => { e with st := .sieve }) s ∧
      exec (.sieveRunStart j) s = .next
        { t with silent := { t.silent with running := t.silent.running.set (engDie j) (some j.val) } } := by
  refine ⟨_, rfl, congrArg Host.Outcome.next ?_⟩
  simp only [hmay, Bool.not_true, Bool.false_eq_true, if_false]

/-- The run of an engine that stands at its die ends with the verdict of its patterns. -/
theorem exec_sieveRunEnd_running {s : State} {j : Fin 112} (hrun : s.silent.running.getD (engDie j) none = some j.val)
    (l : List PatternResult) :
    ∃ t u, t = (s.pairOf j).foldl (fun s k => s.setEng k fun e => { e with st := .idle })
        ({ s with silent := { s.silent with running := s.silent.running.set (engDie j) none } } : State) ∧
      u = (t.queuesOn j).foldl (fun s e => s.setQueue (e.1 / 64) (e.1 % 64) fun q => { q with beatAt := s.time.mono }) t ∧
      exec (.sieveRunEnd j l) s = .next (((u.verdict j l (s.sv j).runImmediate false).answerRuns j l).releaseHarts) := by
  refine ⟨_, _, rfl, rfl, congrArg Host.Outcome.next ?_⟩
  simp only [hrun, bne_self_eq_false, Bool.false_eq_true, if_false]
  rfl

/-- A slot makes engines due and leaves the time. -/
theorem State.sieveSlot_time (s : State) (d n : Nat) (ageOnly : Bool) : (s.sieveSlot d n ageOnly).time = s.time := by
  unfold State.sieveSlot
  dsimp only
  split
  · rfl
  · exact foldl_same (g := State.time) (fun s j => State.setSv_time s j _) _ s

/-- So the slots of several dies are those of one STEP number. -/
theorem State.foldl_sieveSlot {s : State} {n : Nat} (h : stepNum s.time.step = n) (l : List Nat) (ageOnly : Bool) :
    l.foldl (fun t d => t.sieveSlot d (stepNum t.time.step) ageOnly) s = l.foldl (fun t d => t.sieveSlot d n ageOnly) s := by
  induction l generalizing s with
  | nil => rw [List.foldl_nil, List.foldl_nil]
  | cons d l ih =>
    rw [List.foldl_cons, List.foldl_cons, h]
    exact ih (by rw [State.sieveSlot_time, h])

/-- With POD valid, or within a second of the last one, an age check does nothing. -/
theorem exec_sieveAgeCheck_idle {s : State} (h : s.time.podValid = true ∨ s.time.mono < s.silent.lastAge + 1000000000) :
    exec .sieveAgeCheck s = .next s :=
  congrArg Host.Outcome.next (if_pos (by simpa using h))

/-- Another one runs the age slots of the four dies. -/
theorem exec_sieveAgeCheck_due {s : State} (hpod : s.time.podValid = false)
    (hdue : s.silent.lastAge + 1000000000 ≤ s.time.mono) :
    exec .sieveAgeCheck s = .next ((List.range 4).foldl (fun t d => t.sieveSlot d (stepNum s.time.step) true)
      { s with silent := { s.silent with lastAge := s.time.mono } }) := by
  refine congrArg Host.Outcome.next ((if_neg ?_).trans (State.foldl_sieveSlot rfl ..))
  simpa [hpod] using hdue

/-! ### The decay of the tally (R392, R393) -/

theorem exec_tallyDecay_early {s : State} (h : s.time.mono < s.silent.lastDecay + 3600000000000) :
    exec .tallyDecay s = .next s :=
  congrArg Host.Outcome.next (if_pos h)

/-- An hour after the last decay the tally loses one part in 32, rounded up; a change of its state is logged. -/
theorem exec_tallyDecay_due {s : State} (h : s.silent.lastDecay + 3600000000000 ≤ s.time.mono) :
    ∃ t, exec .tallyDecay s = .next t ∧
      (tallyNext s.silent.tallySt (s.silent.tally - (s.silent.tally + 31) / 32) = s.silent.tallySt →
        t = { s with silent := { s.silent with
          tally := s.silent.tally - (s.silent.tally + 31) / 32, lastDecay := s.time.mono } }) := by
  refine ⟨_, congrArg Host.Outcome.next (if_neg (Nat.not_lt.mpr h)), fun hsame => ?_⟩
  have hst : tallyNext s.silent.tallySt (s.silent.tally - cdiv s.silent.tally 32) = s.silent.tallySt := hsame
  dsimp only
  rw [if_pos hst, hst]
  rfl

/-- Settles O23: each command is heard and has the effect of its own part; each row of the module by its condition. -/
theorem sieveRules : Obligations.SieveRules := by
  unfold Obligations.SieveRules
  refine ⟨?_, ?_, ?_, ?_, ?_, ?_, ?_, ?_, ?_, ?_, ?_, ?_, ?_⟩
  · intro r s b h hl htarget hjob hb hcheck
    exact congrArg _ (runDarid_body (d := dSievePackCommit) h (fun _ => rfl) (by simp [dSievePackCommit, hl]) rfl rfl
      (dSievePackCommit_body htarget hjob hb hcheck _ _))
  · intro r s h hl hp1 hp1024 hpp1 hpp hexp4 hexp16
    exact congrArg _ (runDarid_body (d := dSievePolicy) h (fun _ => rfl) (by simp [dSievePolicy, hl])
      (badWord_none (by simp [hp1, hp1024, hpp1, hpp, hexp4, hexp16])) rfl rfl)
  · intro r s j u h hl hj hu hbusy hmay hpack
    exact congrArg _ (runDarid_body (d := dSieveRunNow) h (fun _ => rfl) (by simp [dSieveRunNow, hl])
      (badWord_engArg hj) rfl (dSieveRunNow_body hj hu hbusy hmay hpack _))
  · intro r s j h hl hj
    exact congrArg _ (runDarid_body (d := dSieveQuery) h (fun _ => rfl) (by simp [dSieveQuery, hl])
      (badWord_engArg hj) rfl (dSieveQuery_body hj _))
  · intro r s h hown hl hc hfirst h1 hlast
    exact congrArg _ (runDarid_body (d := dTaintRead) h hown (by simp [dTaintRead, hl])
      (badWord_none (by simp [ctxWord, hc, hfirst, h1, hlast])) rfl rfl)
  · intro r s h hown hl hc
    exact congrArg _ (runDarid_body (d := dTaintClear) h hown (by simp [dTaintClear, hl]) (badWord_ctxWord hc) rfl rfl)
  · intro r s h hl
    exact congrArg _ (runDarid_body (d := dTallyQuery) h (fun _ => rfl) (by simp [dTallyQuery, hl]) rfl rfl rfl)
  · intro s j hmay
    exact exec_sieveRunStart_mayRun hmay
  · intro s j l hrun
    exact exec_sieveRunEnd_running hrun l
  · intro s h
    exact exec_sieveAgeCheck_idle h
  · intro s hpod hdue
    exact exec_sieveAgeCheck_due hpod hdue
  · intro s h
    exact exec_tallyDecay_early h
  · intro s h
    exact exec_tallyDecay_due h

end Sys2Proof.Machine
end

