-- ==== Sys2Proof/Proofs/TollReads.lean ====
section
/-! PROOFS. O36: reads of the toll store, the toll key and the calibration set (R332, R465 to R467, R471, R473). First what each
command's own part answers, then what the window and the end of a key's generation come to. -/

namespace Sys2Proof.Machine

/-! ### Commands -/

theorem dTollManifestRead_body_held {s : State} {a : List Nat} {m : Manifest}
    (hm : s.toll.held.find? (·.num == arg64 a 0) = some m) (w : Who) :
    dTollManifestRead.body s w a = { s := s, words := wordsOf m.bytes } := by
  simp only [dTollManifestRead, hm]

/-- A record of a held manifest is answered with the number of records and its path to the root (R465). -/
theorem dTollRecordRead_body_held {s : State} {a : List Nat} {m : Manifest} {x : TollRec}
    (hm : s.toll.held.find? (·.num == arg64 a 0) = some m) (hx : m.recs[arg a 2]? = some x) (w : Who) :
    dTollRecordRead.body s w a =
      { s := s
        words := wordsOf (x.bytes m.num) ++ [m.recs.length, (merklePath 32 m.leaves (arg a 2)).length] ++
          (merklePath 32 m.leaves (arg a 2)).flatMap wordsOf } := by
  simp only [dTollRecordRead, hm, hx, Option.bind_some, Option.map_some]

/-- A rotation that the policy permits waits while none does (R467). -/
theorem dTollKeyRotate_body_waits {s : State} (hpolicy : s.ctd.clamp.tollPolicy.getLsbD 1 = true) (hnone : s.toll.rotate = none)
    (w : Who) (a : List Nat) :
    dTollKeyRotate.body s w a = { s := { s with toll := { s.toll with rotate := some w } }, status := dPending } := by
  simp only [dTollKeyRotate, hpolicy, hnone, Option.isSome_none, Bool.not_true, Bool.false_eq_true, if_false]

/-- CalRead of words inside the stored set names no bad word. -/
theorem dCalRead_bad {s : State} {a : List Nat} (halign : arg a 0 % 4 = 0) (h1 : 1 ≤ arg a 1) (h1023 : arg a 1 ≤ 1023)
    (hin : arg a 0 + 4 * arg a 1 ≤ s.ctd.nv.cal.length) : dCalRead.bad s a = none :=
  badWord_none (by simp [halign, h1, h1023, hin])

/-! ### The window (R473) -/

/-- A window that has latched the record of a manifest. -/
abbrev TlWin.latched (v : BitVec 32) (x : TollRec) (num : Nat) (y : TlWin) : TlWin :=
  { y with index := v, busy := false, valid := true, none_ := false, words := (wordsOf (x.bytes num)).map (BitVec.ofNat 32) }

/-- What a change takes from the element it changes may be read before it. -/
theorem lmod_reads {α β : Type} (l : List α) (n : Nat) (d : α) (f : β → α → α) (g : α → β) :
    lmod l n (f (g (l.getD n d))) = lmod l n fun y => f (g y) y :=
  lmod_congr (d := d) rfl

/-- The words of a held manifest's record are latched at once. -/
theorem exec_tlWinIndexWrite_held {s : State} {c w : Fin 2} {v : BitVec 32} {m : Manifest} {x : TollRec} (hgate : s.ctdGate c = .none)
    (hm : s.toll.held.find? (fun y => y.num == (s.toll.wins.getD (2 * c.val + w.val) {}).manifest.toNat) = some m)
    (hx : m.recs[v.toNat]? = some x) (n : Fin 32) :
    exec (.tlWinIndexWrite (.hart n) c w v) s = .next { s.answer 0 with toll := { s.toll with
      wins := lmod s.toll.wins (2 * c.val + w.val) fun y => y.latched v x y.manifest.toNat } } := by
  rw [← lmod_reads _ _ {} (TlWin.latched v x) fun y => y.manifest.toNat]
  refine congrArg Host.Outcome.next ?_
  simp only [hgate, hm, hx, Option.bind_some, Option.map_some, isHart, bne_self_eq_false, Bool.true_or, Bool.not_true,
    Bool.false_eq_true, if_false]

/-! ### The end of a key's generation (R466, R467) -/

/-- The generation of a CTD's key goes up by one. -/
theorem State.newKey_keyGen {s : State} {c : Nat} (hc : c < s.ctd.nv.keyGen.length) :
    (s.newKey c).ctd.nv.keyGen.getD c 0 = s.ctd.nv.keyGen.getD c 0 + 1 := by
  simp [State.newKey, hc]

/-- The rotation that a command asked for has ended: the new key is there, and no command waits. -/
abbrev State.keyRotated (s : State) (c : Nat) : State :=
  { s.newKey c with toll := { (s.newKey c).toll with rotate := none } }

/-- The change of the key is logged, and the command that asked for it answered. -/
theorem exec_tollKeyRotated_command {s : State} {w : Who} {c : Nat} (hrotate : s.toll.rotate = some w)
    (hserving : s.serving = some c) : exec .tollKeyRotated s = .next
      (((s.keyRotated c).log 0x0C04 5 (srcToll (s.keyRotated c))
        ([c, s.ctd.nv.keyGen.getD c 0, s.ctd.nv.keyGen.getD c 0 + 1] ++ lohi (s.keyRotated c).toll.nextNum)).finish w dOk 0 []) := by
  refine congrArg Host.Outcome.next ?_
  simp only [hrotate, hserving]

/-- The end of the generation that a boot began is logged by its CTD. -/
theorem exec_tollKeyRotated_boot {s : State} {c : Nat} (hrotate : s.toll.rotate = none)
    (hbusy : s.toll.keyBusy.findIdx? id = some c) : exec .tollKeyRotated s = .next ((s.newKey c).logTo c 0x0C04 5 (3074 + c)
      ([c, s.ctd.nv.keyGen.getD c 0, s.ctd.nv.keyGen.getD c 0 + 1] ++ lohi s.toll.nextNum)) := by
  refine congrArg Host.Outcome.next ?_
  simp only [hrotate, hbusy]

/-- Settles O36: each command is heard and has the effect of its own part; a window latches, and a key's generation ends. -/
theorem tollReads : Obligations.TollReads := by
  unfold Obligations.TollReads
  refine ⟨?_, ?_, ?_, ?_, ?_, ?_, ?_, ?_, ?_, ?_⟩
  · intro s n c w v m x hgate hm hx
    exact exec_tlWinIndexWrite_held hgate hm hx n
  · intro r s h hown hl ht
    exact congrArg _ (runDarid_body (d := dTollTagQuery) h hown (by simp [dTollTagQuery, hl])
      (badWord_none (by simp [ht])) rfl rfl)
  · intro r s m h hl hm
    exact congrArg _ (runDarid_body (d := dTollManifestRead) h (fun _ => rfl) (by simp [dTollManifestRead, hl]) rfl rfl
      (dTollManifestRead_body_held hm _))
  · intro r s m x h hl hm hx
    exact congrArg _ (runDarid_body (d := dTollRecordRead) h (fun _ => rfl) (by simp [dTollRecordRead, hl]) rfl rfl
      (dTollRecordRead_body_held hm hx _))
  · intro r s h hl
    exact congrArg _ (runDarid_body (d := dTollKeyRead) h (fun _ => rfl) (by simp [dTollKeyRead, hl]) rfl rfl rfl)
  · intro r s h hl hpolicy hnone
    exact congrArg _ (runDarid_body (d := dTollKeyRotate) h (fun _ => rfl) (by simp [dTollKeyRotate, hl]) rfl rfl
      (dTollKeyRotate_body_waits hpolicy hnone _ _))
  · intro s w c hrotate hserving hc
    refine ⟨_, exec_tollKeyRotated_command hrotate hserving, ?_, ?_, ?_, State.log_eng .., State.log_mem ..⟩
    · rw [State.log_toll]
    · rw [State.log_ctd]
      exact State.newKey_keyGen hc
    · rw [State.log_toll]
      rfl
  · intro s c hrotate hbusy hc
    refine ⟨_, exec_tollKeyRotated_boot hrotate hbusy, ?_, ?_, ?_, State.logTo_eng .., State.logTo_mem ..⟩
    · rw [State.logTo_ctd]
      exact State.newKey_keyGen hc
    · rw [State.logTo_toll]
      rfl
    · rw [State.logTo_toll]
      rfl
  · intro r s h hl halign h1 h1023 hin
    exact congrArg _ (runDarid_body (d := dCalRead) h (fun _ => rfl) (by simp [dCalRead, hl])
      (dCalRead_bad halign h1 h1023 hin) rfl rfl)
  · intro r s h hl
    exact congrArg _ (runDarid_body (d := dCalHash) h (fun _ => rfl) (by simp [dCalHash, hl]) rfl rfl rfl)

end Sys2Proof.Machine
end

