-- ==== Sys2Proof/Proofs/LedgerRegisters.lean ====
section
/-! PROOFS. O1: the Ledger's registers and read windows (R342, R348, R366), the end of a repeat window (R344) and the flash mirror
(R346). -/

namespace Sys2Proof.Machine

/-! ### LG_APPEND_GO (R342, R366) -/

/-- The LG_APPEND words as numbers. -/
abbrev Ledger.appendNums (l : Ledger) : List Nat := l.append.map (·.toNat)

/-- The CTD's own service processor logs what the LG_APPEND words hold. -/
theorem exec_lgAppendGo_own {s : State} {n : Fin 2} {v : BitVec 32} (hgate : s.ctdGate n = .none) (hgo : v.getLsbD 0 = true) :
    exec (.lgAppendGo (.sp n) n v) s = .next
      ((s.answer 0).logTo n (bitsOf ((s.ledger n).appendNums.getD 0 0) 15 0) (bitsOf ((s.ledger n).appendNums.getD 0 0) 19 16)
        (bitsOf ((s.ledger n).appendNums.getD 0 0) 31 20) (((s.ledger n).appendNums.drop 6).take 8)) := by
  refine congrArg Host.Outcome.next ?_
  simp only [hgate, hgo, isSp, beq_self_eq_true, bne_self_eq_false, Bool.not_true, Bool.false_eq_true, if_false]
  rfl

/-! ### Read windows (R348, R366) -/

/-- Window w of a Ledger. -/
abbrev Ledger.win (l : Ledger) (w : Nat) : LgWin := l.wins.getD w {}

/-- The record that window w latches: the next one at or above its cursor, of flash or of RAM. -/
abbrev Ledger.winNext (l : Ledger) (w : Nat) : Option Rec :=
  nextRec (if (l.win w).src then l.flash else l.ram) (l.win w).cursor.toNat

/-- A host core's write of a whole cursor starts a latch. -/
theorem exec_lgWinCursorWrite_full {s : State} {n : Fin 2} (hgate : s.ctdGate n = .none) (h : Fin 32) (w : Fin 4) (v : BitVec 64) :
    exec (.lgWinCursorWrite (.hart h) n w 64 false v) s = .next
      ((s.answer 0).setWin n w fun x => { x with cursor := v, busy := true, valid := false, fin := false }) := by
  refine congrArg Host.Outcome.next ?_
  simp only [hgate, isHart, Bool.true_or, bne_self_eq_false, Bool.not_true, Bool.false_eq_true, if_false, if_true]

/-- The latch of a window with a next record copies it. -/
theorem exec_lgWinLatchDone_found {s : State} {n : Fin 2} {w : Fin 4} {r : Rec} (hbusy : ((s.ledger n).win w).busy = true)
    (hnext : (s.ledger n).winNext w = some r) :
    exec (.lgWinLatchDone n w) s = .next
      (s.setWin n w fun x => { x with busy := false, valid := true, fin := false, words := r.words }) := by
  refine congrArg Host.Outcome.next ?_
  simp only [hbusy, hnext, Bool.not_true, Bool.false_eq_true, if_false]

/-- The latch of a window without one sets END. -/
theorem exec_lgWinLatchDone_end {s : State} {n : Fin 2} {w : Fin 4} (hbusy : ((s.ledger n).win w).busy = true)
    (hnext : (s.ledger n).winNext w = none) :
    exec (.lgWinLatchDone n w) s = .next (s.setWin n w fun x => { x with busy := false, valid := false, fin := true }) := by
  refine congrArg Host.Outcome.next ?_
  simp only [hbusy, hnext, Bool.not_true, Bool.false_eq_true, if_false]

/-! ### The end of a repeat window (R344) -/

/-- The open window of a record closes when a second has passed since its creation. -/
theorem windowClosed_due {mono : Nat} {r : Rec} (hopen : r.closed = false) (hdue : r.born + 1000000000 ≤ mono) :
    windowClosed mono r = true := by
  rw [windowClosed, hopen, decide_eq_true hdue]
  rfl

/-- The record of a sequence with its repeat window closed. -/
abbrev Rec.shut (q : Nat) (x : Rec) : Rec := if x.seq = q then { x with closed := true } else x

/-- The window of a record without repeats closes without another delivery or flash write. -/
theorem exec_repeatWindowClose_noRepeats {s : State} {n : Fin 2} {q : BitVec 64} {r : Rec}
    (hfind : (s.ledger n).find q.toNat = some r) (hopen : r.closed = false) (hrep : r.rep = 0)
    (hdue : r.born + 1000000000 ≤ s.time.mono) :
    exec (.repeatWindowClose n q) s = .next (s.setLedger n fun l =>
      { l with ram := l.ram.map (Rec.shut q.toNat), newest := l.newest.map (Rec.shut q.toNat) }) := by
  refine congrArg Host.Outcome.next ?_
  simp only [hfind, windowClosed_due hopen hdue, hrep, gt_iff_lt, Nat.lt_irrefl, decide_false, Bool.false_and, Bool.not_true,
    Bool.false_eq_true, if_false, if_true]

/-! ### Logging leaves the staging area alone -/

theorem LogPart.add_stage (p : LogPart) (e : LogEnv) (code sev src : Nat) (ps : List Nat) :
    (p.add e code sev src ps).mbox.stage = p.mbox.stage := by
  unfold LogPart.add
  dsimp only
  split <;> rfl

theorem LogPart.addLost_stage (p : LogPart) (e : LogEnv) : (p.addLost e).mbox.stage = p.mbox.stage := by
  refine foldl_same (g := fun p : LogPart => p.mbox.stage) (fun _ _ => ?_) _ p
  exact LogPart.add_stage ..

theorem LogPart.addTally_stage (p : LogPart) (e : LogEnv) (points code : Nat) :
    (p.addTally e points code).mbox.stage = p.mbox.stage := by
  unfold LogPart.addTally
  split
  · rfl
  · dsimp only
    split
    · rfl
    · exact LogPart.add_stage ..

@[simp] theorem State.logTo_stage (s : State) (n c v r : Nat) (ps : List Nat) : (s.logTo n c v r ps).mbox.stage = s.mbox.stage :=
  (LogPart.addLost_stage ..).trans ((LogPart.addTally_stage ..).trans (LogPart.add_stage ..))

/-! ### The flash mirror (R346) -/

theorem State.flashMirror_stage (s : State) (n : Nat) (q : BitVec 64) (ok : Bool) (w : BitVec 32) :
    (s.flashMirror n q ok w).mbox.stage = s.mbox.stage := by
  unfold State.flashMirror
  split
  · rfl
  · dsimp only
    split
    · rfl
    · split
      · rfl
      · exact State.logTo_stage ..

/-- While no recovered image waits for its record, the end of a flash write does not end a ROM recovery (R481). -/
theorem exec_flashMirrorWrite_plain {s : State} (hrec : s.mbox.stage.recovered = none) (n : Fin 2) (q : BitVec 64) (ok : Bool)
    (w : BitVec 32) : exec (.flashMirrorWrite n q ok w) s = .next (s.flashMirror n q ok w) := by
  refine congrArg Host.Outcome.next ?_
  simp only [State.romDone, State.flashMirror_stage, hrec]

/-- A Ledger whose oldest write owed for a sequence is off the list. -/
abbrev Ledger.unowe (l : Ledger) (q : Nat) : Ledger := { l with owed := l.owed.eraseIdx (l.owed.findIdx fun e => e.1.seq == q) }

/-- What a flash write of a record stores: its RAM copy, while there is one. -/
abbrev Ledger.ramCopy (l : Ledger) (r : Rec) : Rec := (l.ram.find? (·.seq == r.seq)).getD r

section FlashWrite
variable {s : State} {n : Nat} {q : BitVec 64} {r : Rec} {att due : Nat}

/-- A write that ends well puts the RAM copy into the mirror. -/
theorem State.flashMirror_ok (howed : (s.ledger n).owed.find? (fun e => e.1.seq == q.toNat) = some (r, att, due))
    (hdue : due ≤ s.time.mono) (w : BitVec 32) :
    s.flashMirror n q true w =
      s.setLedger n fun l => ((l.unowe q.toNat).toFlash ((s.ledger n).ramCopy r)).durable := by
  simp only [State.flashMirror, howed, Nat.not_lt.mpr hdue, if_false, if_true]

/-- The first write that fails is owed again after 100 ms and logged. -/
theorem State.flashMirror_fails (howed : (s.ledger n).owed.find? (fun e => e.1.seq == q.toNat) = some (r, 1, due))
    (hdue : due ≤ s.time.mono) (w : BitVec 32) :
    s.flashMirror n q false w = (s.setLedger n fun l =>
      { l.unowe q.toNat with
        owed := (l.unowe q.toNat).owed ++ [((s.ledger n).ramCopy r, 2, s.time.mono + 100000000)] }).logTo n 0x0801 5 (512 + n)
        (lohi ((s.ledger n).ramCopy r).seq ++ [w.toNat, 1]) := by
  simp only [State.flashMirror, howed, Nat.not_lt.mpr hdue, Bool.false_eq_true, if_false, if_true]

end FlashWrite

/-- Settles O1: each command by the conditions of its clause; no flash write of them ends a ROM recovery. -/
theorem ledgerRegisters : Obligations.LedgerRegisters := by
  unfold Obligations.LedgerRegisters
  refine ⟨?_, ?_, ?_, ?_, ?_, ?_, ?_⟩
  · intro s n v hgate hgo
    exact exec_lgAppendGo_own hgate hgo
  · intro s h n w v hgate
    exact exec_lgWinCursorWrite_full hgate h w v
  · intro s n w r hbusy hnext
    exact exec_lgWinLatchDone_found hbusy hnext
  · intro s n w hbusy hnext
    exact exec_lgWinLatchDone_end hbusy hnext
  · intro s n q r hfind hopen hrep hdue
    exact exec_repeatWindowClose_noRepeats hfind hopen hrep hdue
  · intro s n q w r att due howed hdue hrec
    exact (exec_flashMirrorWrite_plain hrec ..).trans (congrArg _ (State.flashMirror_ok howed hdue w))
  · intro s n q w r due howed hdue hrec
    exact (exec_flashMirrorWrite_plain hrec ..).trans (congrArg _ (State.flashMirror_fails howed hdue w))

end Sys2Proof.Machine
end

