-- ==== Sys2Proof/Proofs/Observation.lean ====
section
/-! PROOFS. O26: counters and live counters (R351, R353, R357), tensor definitions (R360), digests (R364) and dumps (R361, R362). First
what each command's own part answers, then the ends of digests and dumps. -/

namespace Sys2Proof.Machine

/-! ### Counters -/

/-- A selection of R352 for a counter of a die names no bad word. -/
theorem dCounterSelect_bad {a : List Nat} (h15 : bitsOf (arg a 0) 15 2 = 0) (h31 : bitsOf (arg a 0) 31 28 = 0)
    (hsel : selOk (bitsOf (arg a 0) 1 0) (arg a 1) = true) (s : State) : dCounterSelect.bad s a = none :=
  badWord_none (by simp [h15, h31, hsel])

/-- A selectable counter gets its selection and is cleared. -/
theorem dCounterSelect_body {s : State} {a : List Nat} (hn : 256 ≤ bitsOf (arg a 0) 27 16) (w : Who) :
    dCounterSelect.body s w a = { s := s.setCounters (bitsOf (arg a 0) 1 0) fun c =>
      { c with sel := mput c.sel (bitsOf (arg a 0) 27 16) (BitVec.ofNat 32 (arg a 1)), cnt := mdel c.cnt (bitsOf (arg a 0) 27 16) } } := by
  simp only [dCounterSelect, Nat.not_lt.mpr hn, if_false]

/-- The fields of CounterRead's first word: the die, and whether current counts are asked for. -/
theorem counterWord_bits : ∀ (d : Fin 4) (now : Bool), bitsOf (256 * b2n now + d) 7 2 = 0 ∧ bitsOf (256 * b2n now + d) 31 9 = 0 ∧
    bitsOf (256 * b2n now + d) 1 0 = d ∧ bitOf (256 * b2n now + d) 8 = now := by decide

/-- CounterRead asks for 1 to 510 counters of a die, of its last bank or its current ones. -/
structure CounterReadOf (a : List Nat) (d : Nat) (now : Bool) : Prop where
  word : arg a 0 = 256 * b2n now + d
  die : d < 4
  first : arg a 1 < 4096
  one : 1 ≤ arg a 2
  most : arg a 2 ≤ 510
  last : arg a 1 + arg a 2 ≤ 4096

namespace CounterReadOf

variable {a : List Nat} {d : Nat} {now : Bool}

theorem dieBits (h : CounterReadOf a d now) : bitsOf (arg a 0) 1 0 = d := by
  obtain ⟨-, -, hdie, -⟩ := counterWord_bits ⟨d, h.die⟩ now
  rwa [← h.word] at hdie

theorem nowBit (h : CounterReadOf a d now) : bitOf (arg a 0) 8 = now := by
  obtain ⟨-, -, -, hnow⟩ := counterWord_bits ⟨d, h.die⟩ now
  rwa [← h.word] at hnow

theorem bad (h : CounterReadOf a d now) (s : State) : dCounterRead.bad s a = none := by
  obtain ⟨h7, h31, -, -⟩ := counterWord_bits ⟨d, h.die⟩ now
  rw [← h.word] at h7 h31
  exact badWord_none (by simp [h7, h31, h.first, h.one, h.most, h.last])

/-- A valid bank is answered with the stamp of its cut. -/
theorem body_bank (h : CounterReadOf a d false) {s : State} {b : Bank}
    (hb : b = (s.counters d).banks.getD (s.counters d).last {}) (hvalid : b.valid = true) (w : Who) :
    dCounterRead.body s w a =
      { s := s
        words := lohi b.pod.toNat ++ (List.range (arg a 2)).flatMap fun i => lohi (mget 0 b.cnt (arg a 1 + i)) } := by
  subst hb
  simp only [dCounterRead, h.dieBits, h.nowBit, hvalid, Bool.not_true, Bool.false_eq_true, if_false]

/-- Current counts have a free stamp (log 4). -/
theorem body_now (h : CounterReadOf a d true) (s : State) (w : Who) :
    dCounterRead.body s w a =
      { s := { s with free := s.free + 1 }
        words := lohi (Config.freeValue 64 s.free).toNat ++
          (List.range (arg a 2)).flatMap fun i => lohi (mget 0 (s.counters d).cnt (arg a 1 + i)) } := by
  simp only [dCounterRead, h.dieBits, h.nowBit, if_true, State.draw]

end CounterReadOf

/-- LiveCounterRead of counters below 64 names no bad word. -/
theorem dLiveCounterRead_bad {a : List Nat} (hfirst : arg a 0 < 64) (h1 : 1 ≤ arg a 1) (hlast : arg a 0 + arg a 1 ≤ 64) (s : State) :
    dLiveCounterRead.bad s a = none :=
  badWord_none (by simp [hfirst, h1, hlast])

/-! ### Tensor definitions -/

theorem dWatchDefine_bad {s : State} {a : List Nat} (hst : (s.ctx (arg a 0)).st ≠ .free) (hbad : s.watchBad a = none) :
    dWatchDefine.bad s a = none :=
  (if_neg hst).trans hbad

/-- While fewer than 1,024 definitions stand, one of a context in use is stored. -/
theorem dWatchDefine_body {s : State} {a : List Nat} (hst : (s.ctx (arg a 0)).st ≠ .free) (hroom : s.obs.watches.length < 1024)
    (w : Who) :
    dWatchDefine.body s w a = { s := { s with obs := { s.obs with watches := (mput s.obs.watches (watchKey (arg a 0) (arg a 1))
      { addr := arg64 a 2, fmt := arg a 4, count := arg64 a 5 }) } } } := by
  simp only [dWatchDefine, hst, Nat.not_le.mpr hroom, decide_false, Bool.and_false, Bool.false_eq_true, if_false]

section Defined
variable {s : State} {a : List Nat} {t : Watch} (hdef : s.obs.watches.lookup (watchKey (arg a 0) (arg a 1)) = some t) (w : Who)
include hdef

theorem dWatchRemove_body : dWatchRemove.body s w a =
    { s := { s with obs := { s.obs with watches := mdel s.obs.watches (watchKey (arg a 0) (arg a 1)) } } } := by
  simp only [dWatchRemove, hdef, Option.isNone_some, Bool.false_eq_true, if_false]

/-- The digest of a definition that stands is asked for, and the command waits. -/
theorem dWatchDigest_body : dWatchDigest.body s w a =
    { s := { s with obs := { s.obs with digests := s.obs.digests ++ [(w, watchKey (arg a 0) (arg a 1))] } }
      status := dPending } := by
  simp only [dWatchDigest, hdef, Option.isNone_some, Bool.false_eq_true, if_false]

end Defined

/-! ### The end of a digest (R364) -/

/-- A digest is one of the bytes in memory. -/
theorem State.digestOf_congr {s t : State} (h : t.mem = s.mem) (x : Watch) (off : Nat) : t.digestOf x off = s.digestOf x off := by
  simp only [State.digestOf, State.tensor, h]

/-- The state without the oldest request of a command for a digest. -/
abbrev State.dropDigest (s : State) (w : Who) (k : Nat) : State :=
  { s with obs := { s.obs with digests := s.obs.digests.erase (w, k) } }

/-- The oldest request for the digest of a definition in a region that runs is answered with it. -/
theorem exec_watchDigestDone_answered {s : State} {c : Fin 256} {h : BitVec 32} {w : Who} {k : Nat} {t : Watch} {off : Nat}
    (hasked : s.obs.digests.find? (fun e => e.2 == watchKey c h.toNat) = some (w, k))
    (hdef : s.obs.watches.lookup (watchKey c h.toNat) = some t) (hoff : s.localOff t.addr = some off)
    (hsound : s.regionFailed (dieOf off) = false) (hup : s.regionUp (dieOf off) = true) :
    exec (.watchDigestDone c h []) s = .next
      ((s.dropDigest w (watchKey c h.toNat)).finish w dOk 0 ((chunks 4 (s.digestOf t off)).map ofLe)) := by
  rw [← State.digestOf_congr (s := s) (t := s.dropDigest w (watchKey c h.toNat)) rfl t off]
  refine congrArg Host.Outcome.next ?_
  simp only [hasked, hdef, hoff, hsound, hup, Bool.not_true, Bool.false_eq_true, if_false]
  rfl

/-! ### The end of a dump (R362) -/

/-- The dumps that wait at a die when the oldest is done: the first of them begins. -/
abbrev State.dumpsBegun (s : State) (d : Nat) : List Dump → List Dump
  | y :: r => { y with start := s.diePodStamp d, mono := s.time.mono } :: r
  | [] => []

/-- The oldest dump of a die out of reset is performed, and the next one begins. -/
theorem exec_tensorDumpDone_performed {s : State} {d : Fin 4} {x : Dump} {rest : List Dump}
    (hdumps : s.obs.dumps.getD d [] = x :: rest) (hrun : (s.die d).inReset = false) :
    exec (.tensorDumpDone d []) s = .next { s.dump d x with obs := { (s.dump d x).obs with
      dumps := (s.dump d x).obs.dumps.set d ((s.dump d x).dumpsBegun d rest) } } := by
  refine congrArg Host.Outcome.next ?_
  simp only [hdumps, hrun, Bool.false_eq_true, if_false]
  cases rest <;> rfl

/-- Settles O26: each command is heard and has the effect of its own part; a digest is answered, a dump performed. -/
theorem observation : Obligations.Observation := by
  unfold Obligations.Observation
  refine ⟨?_, ?_, ?_, ?_, ?_, ?_, ?_, ?_, ?_, ?_⟩
  · rintro r s n h hl h15 h31 hsel rfl hn
    exact congrArg _ (runDarid_body (d := dCounterSelect) h (fun _ => rfl) (by simp [dCounterSelect, hl])
      (dCounterSelect_bad h15 h31 hsel s) rfl (dCounterSelect_body hn _))
  · intro r s b h hl hd hfirst h1 h510 hlast hb hvalid
    have hof : CounterReadOf (DReq.nums r) (argOf r 0) false := ⟨(Nat.zero_add _).symm, hd, hfirst, h1, h510, hlast⟩
    exact congrArg _ (runDarid_body (d := dCounterRead) h (fun _ => rfl) (by simp [dCounterRead, hl]) (hof.bad s) rfl
      (hof.body_bank hb hvalid _))
  · intro r s d h hl hword hd hfirst h1 h510 hlast
    have hof : CounterReadOf (DReq.nums r) d true := ⟨hword, hd, hfirst, h1, h510, hlast⟩
    exact congrArg _ (runDarid_body (d := dCounterRead) h (fun _ => rfl) (by simp [dCounterRead, hl]) (hof.bad s) rfl
      (hof.body_now s _))
  · intro r s h hl hfirst h1 hlast
    exact congrArg _ (runDarid_body (d := dLiveCounterRead) h (fun _ => rfl) (by simp [dLiveCounterRead, hl])
      (dLiveCounterRead_bad hfirst h1 hlast s) rfl rfl)
  · intro r s h hown hl hbad hst hroom
    exact congrArg _ (runDarid_body (d := dWatchDefine) h hown (by simp [dWatchDefine, hl]) (dWatchDefine_bad hst hbad) rfl
      (dWatchDefine_body hst hroom _))
  · intro r s w h hown hl hc hdef
    exact congrArg _ (runDarid_body (d := dWatchRemove) h hown (by simp [dWatchRemove, hl]) (badWord_ctxWord hc) rfl
      (dWatchRemove_body hdef _))
  · intro r s w h hown hl hc hdef
    exact congrArg _ (runDarid_body (d := dWatchDigest) h hown (by simp [dWatchDigest, hl]) (badWord_ctxWord hc) rfl
      (dWatchDigest_body hdef _))
  · intro s c h w t off hasked hdef hoff hsound hup
    exact exec_watchDigestDone_answered hasked hdef hoff hsound hup
  · intro s d x hdumps hrun
    exact ⟨_, rfl, exec_tensorDumpDone_performed hdumps hrun⟩
  · intro s d x y rest hdumps hrun
    exact ⟨_, _, rfl, rfl, exec_tensorDumpDone_performed hdumps hrun⟩

end Sys2Proof.Machine
end

