-- ==== Sys2Proof/Proofs/EnergyIdentity.lean ====
section
/-! PROOFS. O34: the energy identity of a manifest window (R454, R455, R462). First tables in order, then what one charge makes of the
accounts, then the charges of an interval. -/

-- One theorem after the other: threads that wait for one another would each take a stack of the check's memory.
set_option Elab.async false

namespace Sys2Proof.Machine

/-! ### Tables in order -/

theorem mem_mput {α : Type} {m : SMap α} {k : Nat} {v : α} {e : Nat × α} (h : e ∈ mput m k v) : e = (k, v) ∨ e ∈ m := by
  induction m with
  | nil => simpa [mput] using h
  | cons a r ih =>
    simp only [mput] at h
    split at h
    · simpa using h
    · split at h
      · rcases List.mem_cons.mp h with h | h <;> simp [h]
      · rcases List.mem_cons.mp h with h | h
        · simp [h]
        · rcases ih h with h | h <;> simp [h]

/-- A table with an entry set is in order if it was. -/
theorem mput_ordered {α : Type} {m : SMap α} (h : (m.map (·.1)).Pairwise (· < ·)) (k : Nat) (v : α) :
    ((mput m k v).map (·.1)).Pairwise (· < ·) := by
  induction m with
  | nil => exact List.pairwise_singleton ..
  | cons a r ih =>
    obtain ⟨i, w⟩ := a
    rw [List.map_cons, List.pairwise_cons] at h
    obtain ⟨hfirst, hrest⟩ := h
    simp only [mput]
    split
    · next hlt =>
      refine List.pairwise_cons.mpr ⟨fun j hj => ?_, List.pairwise_cons.mpr ⟨hfirst, hrest⟩⟩
      rcases List.mem_cons.mp hj with hj | hj
      · exact hj ▸ hlt
      · exact Nat.lt_trans hlt (hfirst j hj)
    · split
      · next heq => exact List.pairwise_cons.mpr ⟨heq ▸ hfirst, hrest⟩
      · refine List.pairwise_cons.mpr ⟨fun j hj => ?_, ih hrest⟩
        obtain ⟨e, he, rfl⟩ := List.mem_map.mp hj
        rcases mem_mput he with he | he
        · subst he; show i < k; omega
        · exact hfirst _ (List.mem_map_of_mem he)

/-- What the entries of a table in order hold together, once one of them is set. -/
theorem sum_mput {α : Type} (g : α → Nat) {m : SMap α} (h : (m.map (·.1)).Pairwise (· < ·)) (k : Nat) (v : α) :
    ((mput m k v).map fun e => g e.2).sum + ((m.lookup k).map g).getD 0 = (m.map fun e => g e.2).sum + g v := by
  induction m with
  | nil => simp [mput]
  | cons a r ih =>
    obtain ⟨i, w⟩ := a
    rw [List.map_cons, List.pairwise_cons] at h
    obtain ⟨hfirst, hrest⟩ := h
    have habove : k ≤ i → r.lookup k = none := by
      intro hk
      rw [List.lookup_eq_none_iff]
      intro e he
      have := hfirst _ (List.mem_map_of_mem he)
      exact bne_iff_ne.mpr (by omega)
    simp only [mput, lookup_pair]
    split
    · next hlt => simp [habove (Nat.le_of_lt hlt), Nat.ne_of_lt hlt, Nat.add_comm]
    · split
      · next heq => simp [Nat.add_comm, Nat.add_left_comm]
      · have := ih hrest
        simp only [List.map_cons, List.sum_cons]
        omega

/-- A default that holds nothing, and an entry that gains n: the table gains n. -/
theorem sum_mmod {α : Type} {g : α → Nat} {d : α} (hd : g d = 0) {m : SMap α} (h : (m.map (·.1)).Pairwise (· < ·)) {k n : Nat}
    {f : α → α} (hf : g (f (mget d m k)) = g (mget d m k) + n) :
    ((mmod d m k f).map fun e => g e.2).sum = (m.map fun e => g e.2).sum + n := by
  have hold : ((m.lookup k).map g).getD 0 = g (mget d m k) := by
    unfold mget
    cases m.lookup k <;> simp [hd]
  have hput := sum_mput g h k (f (mget d m k))
  unfold mmod
  omega

/-- What holds of every entry and of the default holds of what a table is read for. -/
theorem mget_of_forall {α : Type} {P : α → Prop} {d : α} (hd : P d) {m : SMap α} (h : ∀ e ∈ m, P e.2) (k : Nat) :
    P (mget d m k) := by
  unfold mget
  cases hk : m.lookup k with
  | none => exact hd
  | some v =>
    obtain ⟨l, r, rfl, -⟩ := List.lookup_eq_some_iff.mp hk
    exact h (k, v) (by simp)

theorem sum_lmod_add {l : List Nat} {n : Nat} (h : n < l.length) (e : Nat) : (lmod l n (· + e)).sum = l.sum + e := by
  induction l generalizing n with
  | nil => simp at h
  | cons a r ih =>
    cases n with
    | zero => simp [lmod]; omega
    | succ n =>
      have := ih (Nat.lt_of_succ_lt_succ h)
      simp only [lmod, List.sum_cons]
      omega

/-! ### What a window's accounts hold -/

/-- What the accounts of a window hold together, UNATTRIBUTED apart (R454). -/
def TollWindow.accounts (w : TollWindow) : Nat := w.tags + w.overheads + w.host + w.idle + w.module_

/-- The table of overheads is in order, and each account has its six parts (R459). -/
structure TollWindow.Tabled (w : TollWindow) : Prop where
  ordered : (w.over_.map (·.1)).Pairwise (· < ·)
  parts : ∀ e ∈ w.over_, e.2.parts.length = 6

theorem TollWindow.balanced_iff (w : TollWindow) : w.Balanced ↔ (w.input : Int) = (w.accounts : Int) + w.unattr ∧ w.Tabled :=
  ⟨fun ⟨hsum, hordered, hparts⟩ => ⟨hsum, hordered, hparts⟩, fun ⟨hsum, hordered, hparts⟩ => ⟨hsum, hordered, hparts⟩⟩

/-- An empty window is balanced. -/
theorem TollWindow.balanced_of_empty {w : TollWindow} (hinput : w.input = 0) (haccounts : w.accounts = 0) (hunattr : w.unattr = 0)
    (hover : w.over_ = []) : w.Balanced := by
  rw [TollWindow.balanced_iff, hinput, haccounts, hunattr]
  exact ⟨rfl, by simp [hover], by simp [hover]⟩

/-- The window `v` is `w` with n nJ more in its accounts. -/
structure TollWindow.Gains (w : TollWindow) (n : Nat) (v : TollWindow) : Prop where
  input : v.input = w.input
  unattr : v.unattr = w.unattr
  accounts : v.accounts = w.accounts + n
  tabled : v.Tabled

namespace TollWindow.Gains

theorem refl {w : TollWindow} (h : w.Tabled) : w.Gains 0 w := ⟨rfl, rfl, rfl, h⟩

theorem trans {w v u : TollWindow} {n k : Nat} (h : w.Gains n v) (h' : v.Gains k u) : w.Gains (n + k) u :=
  ⟨h'.input.trans h.input, h'.unattr.trans h.unattr, by rw [h'.accounts, h.accounts, Nat.add_assoc], h'.tabled⟩

/-- A fold of steps that each gain what they are given. -/
theorem foldl {α : Type} {f : TollSt → α → TollSt} {g : α → Nat} {P : α → Prop}
    (h : ∀ (t : TollSt) (a : α), P a → t.win.Tabled → t.win.Gains (g a) (f t a).win) {l : List α} (hl : ∀ a ∈ l, P a) {t : TollSt}
    (ht : t.win.Tabled) : t.win.Gains (l.map g).sum (l.foldl f t).win := by
  induction l generalizing t with
  | nil => exact refl ht
  | cons a l ih =>
    have hfirst := h t a (hl a List.mem_cons_self) ht
    exact hfirst.trans (ih (fun b hb => hl b (List.mem_cons_of_mem a hb)) hfirst.tabled)

/-- An overhead account that gains n and keeps its six parts. -/
theorem overhead {w : TollWindow} (h : w.Tabled) (k : Nat) {f : Acct → Acct} {n : Nat}
    (hf : ∀ a : Acct, a.parts.length = 6 → (f a).parts.length = 6 ∧ (f a).parts.sum = a.parts.sum + n) :
    w.Gains n { w with over_ := mmod {} w.over_ k f } := by
  obtain ⟨hlen, hsum⟩ := hf _ (mget_of_forall (P := fun a : Acct => a.parts.length = 6) (d := {}) rfl h.parts k)
  refine ⟨rfl, rfl, ?_, mput_ordered h.ordered .., ?_⟩
  · have := sum_mmod (g := fun a : Acct => a.parts.sum) (d := {}) rfl h.ordered hsum
    simp only [TollWindow.accounts, TollWindow.overheads] at this ⊢
    omega
  · intro e he
    rcases mem_mput he with rfl | he
    · exact hlen
    · exact h.parts e he

end TollWindow.Gains

/-! ### One charge, one note -/

/-- A charge goes to one account (R454). -/
theorem TollSt.charge_gains {t : TollSt} {c : Charge} (hpart : c.2.1 < 6) (h : t.win.Tabled) :
    t.win.Gains c.2.2 (t.charge c).win := by
  obtain ⟨key, part, e⟩ := c
  have hone : ∀ v : TollWindow, v.input = t.win.input → v.unattr = t.win.unattr → v.over_ = t.win.over_ →
      v.tags + v.host + v.idle + v.module_ = t.win.tags + t.win.host + t.win.idle + t.win.module_ + e → t.win.Gains e v := by
    intro v hinput hunattr hover hsum
    refine ⟨hinput, hunattr, ?_, by rw [hover]; exact h.ordered, by rw [hover]; exact h.parts⟩
    simp only [TollWindow.accounts, TollWindow.overheads, hover]
    omega
  cases key with
  | ctx k =>
    refine TollWindow.Gains.overhead h k fun a ha => ⟨by simp [Acct.charge, ha], ?_⟩
    exact sum_lmod_add (by rw [ha]; exact hpart) e
  | tag k => exact hone _ rfl rfl rfl (by simp only [TollSt.charge]; omega)
  | host => exact hone _ rfl rfl rfl (by simp only [TollSt.charge]; omega)
  | idle => exact hone _ rfl rfl rfl (by simp only [TollSt.charge]; omega)
  | module_ => exact hone _ rfl rfl rfl (by simp only [TollSt.charge]; omega)

/-- Cycles and bytes are no energy. -/
theorem TollSt.note_gains {t : TollSt} {f : Acct → Acct} (hf : ∀ a, (f a).parts = a.parts) (k : AcctKey) (h : t.win.Tabled) :
    t.win.Gains 0 (t.note k f).win := by
  cases k with
  | ctx c => exact TollWindow.Gains.overhead h c fun a ha => ⟨by rw [hf, ha], by rw [hf, Nat.add_zero]⟩
  | tag g => exact .refl h
  | host => exact .refl h
  | idle => exact .refl h
  | module_ => exact .refl h

theorem TollSt.foldl_note_gains {α : Type} (k : α → AcctKey) {f : α → Acct → Acct} (hf : ∀ x a, (f x a).parts = a.parts)
    (l : List α) {t : TollSt} (h : t.win.Tabled) : t.win.Gains 0 (l.foldl (fun (t : TollSt) x => t.note (k x) (f x)) t).win := by
  have hall := TollWindow.Gains.foldl (g := fun _ => 0) (P := fun _ => True)
    (fun t x _ ht => TollSt.note_gains (hf x) (k x) ht) (l := l) (fun _ _ => trivial) h
  simpa using hall

theorem State.noteUse_gains (x : RailSample) {s : State} (h : s.toll.win.Tabled) : s.toll.win.Gains 0 (s.noteUse x).toll.win := by
  unfold State.noteUse
  have hcycles := TollSt.foldl_note_gains (·.1) (f := fun e a => { a with meCycles := a.meCycles + e.2 }) (fun _ _ => rfl)
    (((List.range 4).filter fun d => !s.noReport x d).flatMap fun d => (List.range 16).flatMap fun u => s.unitUse x d u) h
  have hbytes := TollSt.foldl_note_gains (·.1) (f := fun e a => { a with memBytes := a.memBytes + e.2.2 }) (fun _ _ => rfl)
    (s.moved x.tagBytes x.ctxBytes []) hcycles.tabled
  have hflits := TollSt.foldl_note_gains (·.1) (f := fun e a => { a with fabBytes := a.fabBytes + 256 * e.2.2 }) (fun _ _ => rfl)
    (s.moved x.tagFlits x.ctxFlits []) hbytes.tabled
  exact (hcycles.trans hbytes).trans hflits

/-! ### The charges of an interval (R455) -/

/-- A charge goes to one of the six parts of a record (R459). -/
def Charge.Placed (c : Charge) : Prop := c.2.1 < 6

theorem State.coreCharges_placed {s : State} {x : RailSample} {d e : Nat} {c : Charge} (h : c ∈ s.coreCharges x d e) : c.Placed := by
  obtain ⟨u, -, h⟩ := List.mem_flatMap.mp h
  have hkind : (if u < 16 then 0 else if u < 20 then 1 else 2) < 6 := by
    split
    · decide
    · split <;> decide
  dsimp only at h
  split at h
  · rw [List.mem_singleton.mp h]
    exact Nat.lt_of_sub_eq_succ rfl
  · rcases List.mem_append.mp h with h | h
    · obtain ⟨w, -, rfl⟩ := List.mem_map.mp h
      exact hkind
    · rw [List.mem_singleton.mp h]
      exact hkind

theorem wantCharges_placed {e part : Nat} (hpart : part < 6) {wants : List (AcctKey × Nat)} {c : Charge}
    (h : c ∈ wantCharges e part wants) : c.Placed := by
  have hwant : ∀ g : AcctKey × Nat → Nat, c ∈ wants.map (fun w => ((w.1, part, g w) : Charge)) → c.Placed := by
    intro g h
    obtain ⟨w, -, rfl⟩ := List.mem_map.mp h
    exact hpart
  unfold wantCharges at h
  dsimp only at h
  split at h
  · rcases List.mem_append.mp h with h | h
    · exact hwant _ h
    · rw [List.mem_singleton.mp h]
      exact hpart
  · exact hwant _ h

theorem State.railCharges_placed {s : State} {x : RailSample} {es : List Nat} {c : Charge} (h : c ∈ s.railCharges x es) :
    c.Placed := by
  simp only [State.railCharges, List.mem_append] at h
  rcases h with (((h | h) | h) | h) | h
  · obtain ⟨d, -, h⟩ := List.mem_flatMap.mp h
    exact State.coreCharges_placed h
  · exact wantCharges_placed (by decide) h
  · exact wantCharges_placed (by decide) h
  · exact wantCharges_placed (by decide) h
  · rw [List.mem_singleton.mp h]
    exact Nat.lt_of_sub_eq_succ rfl

theorem convCharges_placed {input rails : Nat} {cs : List Charge} {c : Charge} (h : c ∈ convCharges input rails cs) : c.Placed := by
  unfold convCharges at h
  split at h
  · simp at h
  · obtain ⟨k, -, rfl⟩ := List.mem_map.mp h
    exact Nat.lt_of_sub_eq_succ rfl

/-! ### A sample -/

/-- Flags leave the accounts alone. -/
theorem State.windowFlags_balanced {s : State} {x : RailSample} (h : s.toll.win.Balanced) : (s.windowFlags x).toll.win.Balanced := by
  unfold State.windowFlags
  dsimp only
  split
  · split
    · split <;> exact h
    · split <;> exact h
  · split <;> exact h

/-- The charges of a sample: those of the rails, and those of the conversion losses (R454, R455). -/
def State.sampleCharges (s : State) (x : RailSample) : List Charge :=
  s.railCharges x (s.railEnergies x) ++
    convCharges (s.railNj 0 x.inputMv x.inputMa) ((s.railEnergies x).foldl (· + ·) 0) (s.railCharges x (s.railEnergies x))

/-- The accounts after a sample: every charge is entered, and what the input exceeds them by goes to UNATTRIBUTED (R455). -/
def State.sampled (s : State) (x : RailSample) : TollSt :=
  let t := (s.sampleCharges x).foldl TollSt.charge (s.noteUse x).toll
  let input := s.railNj 0 x.inputMv x.inputMa
  let out : Nat := ((s.sampleCharges x).map (·.2.2)).foldl (· + ·) 0
  { t with
    win := { t.win with input := t.win.input + input, unattr := t.win.unattr + ((input : Int) - (out : Int)) }
    inputAll := t.inputAll + input }

theorem State.sampleCharges_placed {s : State} {x : RailSample} {c : Charge} (h : c ∈ s.sampleCharges x) : Charge.Placed c :=
  (List.mem_append.mp h).elim State.railCharges_placed convCharges_placed

theorem State.sampled_balanced {s : State} (h : s.toll.win.Balanced) (x : RailSample) : (s.sampled x).win.Balanced := by
  obtain ⟨hsum, htabled⟩ := s.toll.win.balanced_iff.mp h
  have hnoted := State.noteUse_gains x htabled
  have hcharged := TollWindow.Gains.foldl (f := TollSt.charge) (g := fun c => c.2.2) (P := Charge.Placed)
    (fun t c hc ht => TollSt.charge_gains hc ht) (l := s.sampleCharges x) (fun _ hc => State.sampleCharges_placed hc) hnoted.tabled
  obtain ⟨hinput, hunattr, haccounts, htabled⟩ := hnoted.trans hcharged
  refine (TollWindow.balanced_iff _).mpr ⟨?_, htabled.ordered, htabled.parts⟩
  rw [List.sum_eq_foldl_nat] at haccounts
  simp only [State.sampled, TollWindow.accounts, TollWindow.overheads] at haccounts hsum ⊢
  omega

theorem State.liveUpdate_toll (s : State) (x : RailSample) : (s.liveUpdate x).toll = s.toll := by
  unfold State.liveUpdate
  dsimp only
  refine foldl_same (g := fun p : List Nat × State => p.2.toll) (fun p _ => ?_) (List.range 8) ([], s)
  exact State.draw_toll p.2 64

theorem State.powerSummary_toll (s : State) (x : RailSample) : (s.powerSummary x).toll = s.toll := by
  unfold State.powerSummary
  split <;> rfl

/-- The window that a cut begins is empty. -/
theorem State.cutDue_balanced {s : State} (h : s.toll.win.Balanced) : s.cutDue.toll.win.Balanced := by
  unfold State.cutDue
  split
  · split
    · exact TollWindow.balanced_of_empty rfl rfl rfl rfl
    · exact h
  · exact h

/-- A sample that counts is attributed, and a boundary it has reached is cut. -/
theorem exec_railSample_balanced {s : State} (h : s.toll.win.Balanced) (x : RailSample) :
    ∃ t, exec (.railSample x) s = .next t ∧ t.toll.win.Balanced := by
  refine ⟨_, rfl, ?_⟩
  dsimp only
  split
  · exact h
  · refine State.cutDue_balanced ?_
    rw [State.powerSummary_toll, State.liveUpdate_toll]
    exact State.windowFlags_balanced (State.sampled_balanced h x)

/-- Settles O34: a sample keeps the identity, and a fresh window has it. -/
theorem energyIdentity : Obligations.EnergyIdentity := by
  unfold Obligations.EnergyIdentity
  exact ⟨fun s x h => exec_railSample_balanced h x, TollWindow.balanced_of_empty rfl rfl rfl rfl⟩

end Sys2Proof.Machine
end

