-- ==== Sys2Proof/Proofs/MerkleTree.lean ====
section
/-! PROOFS. O60: the Merkle tree of a manifest (R463). First one level, then the root, then the path of a leaf. -/

-- One theorem after the other: threads that wait for one another would each take a stack of the check's memory.
set_option Elab.async false

namespace Sys2Proof.Machine

/-! ### One level -/

/-- Nodes 2i and 2i + 1 are hashed together. -/
theorem merkleUp_pair {l : List (List Byte)} {i : Nat} {x y : List Byte} (hx : l[2 * i]? = some x) (hy : l[2 * i + 1]? = some y) :
    (merkleUp l)[i]? = some (sha256 (1 :: (x ++ y))) := by
  induction i generalizing l with
  | zero =>
    match l with
    | [] => simp at hx
    | [_] => simp at hy
    | a :: b :: r =>
      obtain rfl : a = x := by simpa using hx
      obtain rfl : b = y := by simpa using hy
      rfl
  | succ i ih =>
    match l with
    | [] => simp at hx
    | [_] => simp at hy
    | a :: b :: r =>
      rw [merkleUp, List.getElem?_cons_succ]
      exact ih hx hy

/-- The last node of an odd number is carried up. -/
theorem merkleUp_odd {l : List (List Byte)} {i : Nat} (h : l.length = 2 * i + 1) : (merkleUp l)[i]? = l[2 * i]? := by
  induction i generalizing l with
  | zero =>
    match l with
    | [a] => rfl
  | succ i ih =>
    match l with
    | a :: b :: r =>
      rw [merkleUp, List.getElem?_cons_succ]
      exact ih (by simpa [Nat.mul_succ] using h)

theorem length_merkleUp (l : List (List Byte)) : (merkleUp l).length = (l.length + 1) / 2 := by
  induction l using merkleUp.induct with
  | case1 a b r ih => simp only [merkleUp, List.length_cons, ih]; omega
  | case2 l hl =>
    match l with
    | [] => rfl
    | [a] => simp [merkleUp]
    | a :: b :: r => exact absurd rfl (hl a b r)

/-- A level has half the nodes of the one below, so 2 ^ k leaves have one node k levels above them. -/
theorem length_merkleUp_le {l : List (List Byte)} {k : Nat} (h : l.length ≤ 2 ^ (k + 1)) : (merkleUp l).length ≤ 2 ^ k := by
  rw [length_merkleUp]
  rw [Nat.pow_succ] at h
  omega

/-! ### The root -/

theorem merkleRoot_singleton (k : Nat) (x : List Byte) : merkleRoot k [x] = x := by
  cases k <;> rfl

theorem merkleRoot_up {l : List (List Byte)} (h : 2 ≤ l.length) (k : Nat) : merkleRoot (k + 1) l = merkleRoot k (merkleUp l) := by
  match l with
  | a :: b :: r => rfl

/-- The root is the node that stands alone after as many levels as the leaves can have. -/
theorem merkleUp_iterate_root {l : List (List Byte)} {k : Nat} (h1 : 1 ≤ l.length) (h : l.length ≤ 2 ^ k) :
    ∃ x, merkleUp^[k] l = [x] ∧ merkleRoot k l = x := by
  induction k generalizing l with
  | zero =>
    obtain ⟨x, rfl⟩ := List.length_eq_one_iff.mp (Nat.le_antisymm h h1)
    exact ⟨x, rfl, rfl⟩
  | succ k ih =>
    have hup1 : 1 ≤ (merkleUp l).length := by rw [length_merkleUp]; omega
    obtain ⟨x, hx, hroot⟩ := ih hup1 (length_merkleUp_le h)
    refine ⟨x, hx, ?_⟩
    by_cases h2 : 2 ≤ l.length
    · rw [merkleRoot_up h2, hroot]
    · obtain ⟨y, rfl⟩ := List.length_eq_one_iff.mp (show l.length = 1 by omega)
      rw [← hroot]
      exact (merkleRoot_singleton ..).trans (merkleRoot_singleton ..).symm

/-! ### The path of a leaf -/

/-- The siblings of node i at its level: none for a last node that is carried up. -/
def merkleSibling (l : List (List Byte)) (i : Nat) : List (List Byte) :=
  if i % 2 = 1 then [l.getD (i - 1) []] else if i + 1 < l.length then [l.getD (i + 1) []] else []

theorem merklePath_succ {l : List (List Byte)} (h : 2 ≤ l.length) (k i : Nat) :
    merklePath (k + 1) l i = merkleSibling l i ++ merklePath k (merkleUp l) (i / 2) :=
  if_neg (by omega)

/-- A verifier who holds node i and its siblings computes the node above it, and goes on from there. -/
theorem pathRoot_up {l : List (List Byte)} {i : Nat} {x : List Byte} (h : 2 ≤ l.length) (hx : l[i]? = some x) (k : Nat)
    (path : List (List Byte)) : ∃ y, (merkleUp l)[i / 2]? = some y ∧
      pathRoot (k + 1) l.length i x (merkleSibling l i ++ path) = pathRoot k (merkleUp l).length (i / 2) y path := by
  have hi : i < l.length := (List.getElem?_eq_some_iff.mp hx).1
  have hmore : ¬ l.length ≤ 1 := by omega
  have hat : ∀ j, j < l.length → l[j]? = some (l.getD j []) := fun j hj => by simp [hj]
  rw [length_merkleUp]
  by_cases hodd : i % 2 = 1
  · refine ⟨_, merkleUp_pair (x := l.getD (i - 1) []) (y := x) ?_ ?_, ?_⟩
    · rw [show 2 * (i / 2) = i - 1 by omega]
      exact hat _ (by omega)
    · rwa [show 2 * (i / 2) + 1 = i by omega]
    · simp [pathRoot, merkleSibling, hmore, hodd]
  · have heven : 2 * (i / 2) = i := by omega
    by_cases hlast : i + 1 < l.length
    · refine ⟨_, merkleUp_pair (x := x) (y := l.getD (i + 1) []) (by rwa [heven]) (by rw [heven]; exact hat _ hlast), ?_⟩
      simp [pathRoot, merkleSibling, hmore, hodd, hlast]
    · refine ⟨x, (merkleUp_odd (by omega)).trans (by rwa [heven]), ?_⟩
      simp [pathRoot, merkleSibling, hmore, hodd, hlast]

/-- From a leaf and its path the root is computed. -/
theorem pathRoot_merklePath {k : Nat} {l : List (List Byte)} {i : Nat} {x : List Byte} (h : l.length ≤ 2 ^ k)
    (hx : l[i]? = some x) : pathRoot k l.length i x (merklePath k l i) = merkleRoot k l := by
  induction k generalizing l i x with
  | zero =>
    obtain ⟨hi, -⟩ := List.getElem?_eq_some_iff.mp hx
    obtain ⟨y, rfl⟩ := List.length_eq_one_iff.mp (show l.length = 1 by omega)
    obtain rfl : i = 0 := by simpa using hi
    exact (Option.some.inj hx).symm
  | succ k ih =>
    obtain ⟨hi, -⟩ := List.getElem?_eq_some_iff.mp hx
    by_cases h2 : 2 ≤ l.length
    · obtain ⟨y, hy, hup⟩ := pathRoot_up h2 hx k (merklePath k (merkleUp l) (i / 2))
      rw [merklePath_succ h2, merkleRoot_up h2, hup]
      exact ih (length_merkleUp_le h) hy
    · obtain ⟨y, rfl⟩ := List.length_eq_one_iff.mp (show l.length = 1 by omega)
      obtain rfl : i = 0 := by simpa using hi
      exact (Option.some.inj hx).symm

/-- Settles O60: the leaves are the records' hashes, and levels, root and path are as R463 says. -/
theorem merkleTree : Obligations.MerkleTree := by
  unfold Obligations.MerkleTree
  refine ⟨?_, ?_, ?_, ?_, ?_, ?_, ?_, ?_, ?_⟩
  · intro m i r h
    rw [Manifest.leaves, List.getElem?_map, h]
    rfl
  · intro l i x y hx hy
    exact merkleUp_pair hx hy
  · intro l i h
    exact merkleUp_odd h
  · exact length_merkleUp
  · rfl
  · exact merkleRoot_singleton 32
  · intro k l h
    exact merkleRoot_up h k
  · intro l h1 h
    exact merkleUp_iterate_root h1 h
  · intro l i x h hx
    exact pathRoot_merklePath h hx

end Sys2Proof.Machine
end

