-- ==== Sys2Proof/Proofs/PowerLoss.lean ====
section
/-! PROOFS. O32: the loss of power (R487, R488) and the power-on reset (R477). First what the loads and boots of a power-on reset leave
of the state it begins with. What stands and what is zero without power is the model's choice (logs 3, 59 and 62). -/

-- One theorem after the other: threads that wait for one another would each take a stack of the check's memory.
set_option Elab.async false

namespace Sys2Proof.Machine

/-! ### Rails off (R487, R488) -/

/-- Without rails no CTD holds the waybill, whatever the lease cell says (R24). -/
theorem State.holder_unpowered {s : State} (h : s.power.rails = false) : s.holder = none :=
  if_neg (by simp [h])

theorem State.railsOff_gen (s : State) (inRange : Bool) : (s.railsOff inRange).ctd.lease.gen = s.ctd.lease.gen := by
  cases inRange <;> rfl

/-! ### Power-on (R477) -/

/-- Memory, power, the time, the lease cell and what it has noted of resets are what they were. -/
structure State.Starts (s t : State) : Prop where
  mem : t.mem = s.mem
  power : t.power = s.power
  time : t.time = s.time
  lease : t.ctd.lease = s.ctd.lease
  cause : t.ctd.nv.resetCause = s.ctd.nv.resetCause
  count : t.ctd.nv.resetCount = s.ctd.nv.resetCount

namespace State.Starts

theorem refl (s : State) : s.Starts s := ⟨rfl, rfl, rfl, rfl, rfl, rfl⟩

theorem trans {s t u : State} (h : s.Starts t) (k : t.Starts u) : s.Starts u :=
  ⟨k.mem.trans h.mem, k.power.trans h.power, k.time.trans h.time, k.lease.trans h.lease, k.cause.trans h.cause,
    k.count.trans h.count⟩

theorem ite {p : Prop} [Decidable p] {s t u : State} (h : s.Starts t) (k : s.Starts u) : s.Starts (if p then t else u) := by
  split <;> assumption

theorem foldl {α : Type} {f : State → α → State} (h : ∀ (s : State) (a : α), s.Starts (f s a)) (l : List α) (s : State) :
    s.Starts (l.foldl f s) := by
  induction l generalizing s with
  | nil => exact refl s
  | cons a l ih => exact (h s a).trans (ih _)

theorem loadStores (s : State) : s.Starts s.loadStores := by
  have huse : s.Starts (s.usePack s.ctd.nv.pack) := by
    unfold State.usePack
    dsimp only
    split <;> exact ⟨rfl, rfl, rfl, rfl, rfl, rfl⟩
  unfold State.loadStores
  dsimp only
  split
  · exact ⟨rfl, rfl, rfl, rfl, rfl, rfl⟩
  · exact huse.trans ⟨rfl, rfl, rfl, rfl, rfl, rfl⟩

theorem loadClamps (s : State) : s.Starts s.loadClamps := by
  unfold State.loadClamps
  dsimp only
  split <;> exact ⟨rfl, rfl, rfl, rfl, rfl, rfl⟩

theorem bootCtd (s : State) (c : Nat) : s.Starts (s.bootCtd c) := by
  have hbooted : ∀ f, s.Starts ((s.checkKey c).setCtd c f) := fun _ => ⟨rfl, rfl, rfl, rfl, rfl, rfl⟩
  unfold State.bootCtd
  exact ite (hbooted _) ((hbooted _).trans ⟨rfl, rfl, rfl, rfl, rfl, rfl⟩)

/-- The ROMs start from everything at its reset value, the cause and the count of resets noted. -/
theorem powerOn (s : State) (cause : Nat) : ∃ nv, nv.resetCause = cause ∧ nv.resetCount = min 0xFFFF (s.ctd.nv.resetCount + 1) ∧
    ({ s with ctd := { s.ctd with nv := nv } } : State).cold.Starts (s.powerOn cause) := by
  refine ⟨{ s.ctd.nv with
    resetCause := cause, resetCount := satAdd 0xFFFF s.ctd.nv.resetCount 1, poweredNs := s.ctd.nv.poweredNs + s.time.mono },
    rfl, rfl, ?_⟩
  exact (loadStores _).trans ((loadClamps _).trans (foldl bootCtd _ _))

end State.Starts

/-- After a power-on reset MONO is 0, memory is empty and no CTD holds the waybill. -/
theorem exec_powerOnReset_cold {c : Fin 8} (h1 : 1 ≤ c.val) (h6 : c.val ≤ 6) (s : State) :
    ∃ t : State, exec (.powerOnReset c) s = .next t ∧ t.time.mono = 0 ∧ t.mem.main.cells = [] ∧ t.mem.main.husks = [] ∧
      t.holder = none ∧ t.ctd.lease.gen = 0 ∧ t.ctd.lease.gates = false ∧ t.ctd.nv.resetCause = c.val ∧
      t.ctd.nv.resetCount = min 0xFFFF (s.ctd.nv.resetCount + 1) ∧ t.fuse = s.fuse ∧ t.pending = s.pending ∧
      t.power.rails = true := by
  obtain ⟨nv, hcause, hcount, hstarts⟩ := State.Starts.powerOn s c
  have hkeeps := Keeps.powerOn s c
  have hrails : (s.powerOn c).power.rails = true := congrArg PowerSt.rails hstarts.power
  refine ⟨s.powerOn c, congrArg Host.Outcome.next (if_pos (by simp [h1, h6])), congrArg TimeSt.mono hstarts.time,
    congrArg (fun m => m.main.cells) hstarts.mem, congrArg (fun m => m.main.husks) hstarts.mem,
    (State.holder_powered hrails).trans (congrArg Lease.holder hstarts.lease), congrArg Lease.gen hstarts.lease,
    congrArg Lease.gates hstarts.lease, hstarts.cause.trans hcause, hstarts.count.trans hcount, hkeeps.fuse, hkeeps.2.1, hrails⟩

/-- Settles O32: rails off by the model's `railsOff`, power-on by what its loads and boots leave. -/
theorem powerLoss : Obligations.PowerLoss := by
  unfold Obligations.PowerLoss
  refine ⟨?_, ?_, ?_⟩
  · intro s k
    exact ⟨_, rfl, rfl, rfl, rfl, rfl, rfl, rfl, rfl, rfl, State.railsOff_gen .., State.holder_unpowered rfl, rfl, rfl, rfl⟩
  · intro s
    exact ⟨_, rfl, rfl, rfl, rfl, rfl, rfl, rfl, rfl, rfl, rfl, State.holder_unpowered rfl, rfl, rfl, rfl⟩
  · intro s c h1 h6
    exact exec_powerOnReset_cold h1 h6 s

end Sys2Proof.Machine
end

