-- ==== Sys2Proof/Proofs/HoardCommands.lean ====
section
/-! PROOFS. O18: the commands of the hoard (R424, R427, R435, R436), seed streams (R433) and data cursors (R434). First what each
command's own part answers, then that it is heard. -/

-- One theorem after the other: threads that wait for one another would each take a stack of the check's memory.
set_option Elab.async false

namespace Sys2Proof.Machine

/-! ### HoardConfig (R424) -/

/-- The words of a HoardConfig without a predecessor, each in its range. -/
structure HoardConfigArgs (a : List Nat) : Prop where
  ctx : arg a 0 < 256
  one : 1 ≤ arg a 1
  three : arg a 1 ≤ 3
  partners : ∀ i, 2 ≤ i → i ≤ 4 → arg a i < 2 ^ 15 ∧ (arg a 1 + 2 ≤ i → arg a i = 0)
  base : arg a 5 * 2 ^ 21 < usableTop
  size : arg a 6 * 2 ^ 21 ≤ usableTop
  noPred : arg a 7 = 0

theorem HoardConfigArgs.bad {a : List Nat} (h : HoardConfigArgs a) (s : State) : dHoardConfig.bad s a = none := by
  obtain ⟨hp2, -⟩ := h.partners 2 (by decide) (by decide)
  obtain ⟨hp3, hz3⟩ := h.partners 3 (by decide) (by decide)
  obtain ⟨hp4, hz4⟩ := h.partners 4 (by decide) (by decide)
  have hno3 : 2 ≤ arg a 1 ∨ arg a 3 = 0 := by
    by_cases h2 : 2 ≤ arg a 1
    · exact .inl h2
    · exact .inr (hz3 (by omega))
  have hno4 : 3 ≤ arg a 1 ∨ arg a 4 = 0 := by
    by_cases h3 : 3 ≤ arg a 1
    · exact .inl h3
    · exact .inr (hz4 (by omega))
  refine badWord_none fun p hp => ?_
  simp only [List.mem_cons, List.not_mem_nil, or_false] at hp
  rcases hp with rfl | rfl | rfl | rfl | rfl | rfl | rfl | rfl
  · exact decide_eq_true h.ctx
  · simp [h.one, h.three]
  · exact decide_eq_true hp2
  · simpa using And.intro hp3 hno3
  · simpa using And.intro hp4 hno4
  · exact decide_eq_true h.base
  · exact decide_eq_true h.size
  · simp [h.noPred]

/-- The partners differ from each other and from this module; the bays are large enough and their region lies in a window of the
slice and apart from the context's own windows; no snapshot or fill of the context is under way. -/
structure HoardConfigFits (s : State) (a ps : List Nat) (x : SliceEnt) : Prop where
  partners : ps = (a.drop 2).take (arg a 1)
  others : ps.contains s.ownId = false
  distinct : noDup ps = true
  slice : (s.ctx (arg a 0)).slice.bind (fun e => s.fab.slices.lookup e) = some x
  inside : x.wins.any (fun w => w.2.1 * 2 ^ 21 ≤ arg a 5 * 2 ^ 21 &&
    arg a 5 * 2 ^ 21 + arg a 6 * 2 ^ 21 ≤ (w.2.1 + w.2.2) * 2 ^ 21) = true
  apart : (s.localWins (arg a 0)).any (fun w => meets w.1 w.2 (arg a 5 * 2 ^ 21) (arg a 6 * 2 ^ 21)) = false
  bays : 4 * 2 ^ 20 ≤ arg a 6 / arg a 1 * 2 ^ 21
  noSnap : s.snap? (arg a 0) = none
  noFill : s.job.fills.any (·.ctx == arg a 0) = false

/-- Such a configuration is stored. -/
theorem HoardConfigFits.body {s : State} {a ps : List Nat} {x : SliceEnt} (h : HoardConfigFits s a ps x) (hpred : arg a 7 = 0)
    (w : Who) : dHoardConfig.body s w a = { s := s.setCtx (arg a 0) fun y => { y with hoard := (some
      { copies := arg a 1, partners := ps, base := arg a 5, size := arg a 6, pred := none }) } } := by
  obtain ⟨rfl, hothers, hdistinct, hslice, hinside, hapart, hbays, hsnap, hfill⟩ := h
  have hnopred : bitOf 0 15 = false := by decide
  have hno : ((none : Option Nat) == some s.ownId) = false := rfl
  simp only [dHoardConfig, hslice, hothers, hdistinct, hinside, hapart, Nat.not_lt.mpr hbays, hsnap, hfill, hpred, hnopred, hno,
    Option.isNone_some, Option.isSome_none, Bool.not_true, Bool.or_self, Bool.false_eq_true, if_false]

/-! ### Snapshots, restores and fills (R427, R435, R436) -/

/-- A configured context that is active and has no snapshot or fill gets a snapshot with a hold. -/
theorem State.startSnap_ready {s : State} {c : Nat} {h : HoardCfg} (hsnap : s.snap? c = none)
    (hfill : s.job.fills.any (·.ctx == c) = false) (hst : (s.ctx c).st = .active) (hcfg : (s.ctx c).hoard = some h)
    (who : Option Who) (sem : Option Nat) (entry : Nat) :
    s.startSnap c who sem true entry = (0, ({ s with job := { s.job with snaps := s.job.snaps ++
      [{ ctx := c, who := who, sem := sem, hold := true, startAt := s.time.mono }] } } : State).setCtx c
        fun y => { y with held := true }) := by
  simp [State.startSnap, hsnap, hfill, hst, hcfg]

theorem dHoardSnapshot_body {s : State} {a : List Nat} {h : HoardCfg} (hsnap : s.snap? (arg a 0) = none)
    (hfill : s.job.fills.any (·.ctx == arg a 0) = false) (hst : (s.ctx (arg a 0)).st = .active)
    (hcfg : (s.ctx (arg a 0)).hoard = some h) (w : Who) : dHoardSnapshot.body s w a =
      { s := ({ s with job := { s.job with snaps := s.job.snaps ++
          [{ ctx := arg a 0, who := some w, sem := none, hold := true, startAt := s.time.mono }] } } : State).setCtx (arg a 0)
          fun y => { y with held := true }
        status := dPending } := by
  simp only [dHoardSnapshot, State.startSnap_ready hsnap hfill hst hcfg, if_true]

/-- A restore from a partner joins the fills and waits. -/
theorem dHoardRestore_body {s : State} {a : List Nat} {h : HoardCfg} (hcfg : (s.ctx (arg a 0)).hoard = some h)
    (hpartner : h.partners.contains (arg a 1) = true) (hfill : s.job.fills.any (·.ctx == arg a 0) = false)
    (hsnap : s.snap? (arg a 0) = none) (w : Who) : dHoardRestore.body s w a =
      { s := s.addFill { ctx := arg a 0, who := some w, restore := true, prio := 65535, sources := [arg a 1]
                         step := BitVec.ofNat 64 (arg64 a 2), startAt := s.time.mono }
        status := dPending } := by
  simp only [dHoardRestore, hcfg, hpartner, hfill, hsnap, Option.isSome_none, Bool.not_true, Bool.or_self, Bool.false_eq_true,
    if_false]

/-- The words after a zero name no source. -/
theorem sources_single {a : List Nat} (hlen : a.length = 5) (hfirst : arg a 2 ≠ 0) (hlast : arg a 3 = 0) :
    (a.drop 2).takeWhile (· != 0) = [arg a 2] := by
  match a with
  | [p, q, x, y, z] =>
    have hx : x ≠ 0 := hfirst
    have hy : y = 0 := hlast
    simp [arg, hx, hy]

/-- SpareFill from one source, a partner, names no bad word. -/
theorem dSpareFill_bad {s : State} {a : List Nat} {h : HoardCfg} (hc : arg a 0 < 256) (hprio : arg a 1 < 65536)
    (hfirst : arg a 2 ≠ 0) (hcfg : (s.ctx (arg a 0)).hoard = some h) (hpartner : h.partners.contains (arg a 2) = true)
    (hlast : arg a 3 = 0) : dSpareFill.bad s a = none := by
  have hsources : [2, 3, 4].takeWhile (fun i => arg a i != 0) = [2] := by simp [hfirst, hlast]
  simp only [dSpareFill, hsources]
  refine badWord_none fun p hp => ?_
  simp only [List.map_cons, List.map_nil, List.mem_append, List.mem_cons, List.not_mem_nil, or_false] at hp
  rcases hp with (rfl | rfl | rfl) | rfl
  · exact decide_eq_true hc
  · exact decide_eq_true hprio
  · exact bne_iff_ne.mpr hfirst
  · simpa only [Nat.mod_eq_of_lt hc, hcfg, Option.map_some, Option.getD_some] using hpartner

theorem dSpareFill_body {s : State} {a : List Nat} (hlen : a.length = 5) (hfirst : arg a 2 ≠ 0) (hlast : arg a 3 = 0)
    (hfill : s.job.fills.any (·.ctx == arg a 0) = false) (hsnap : s.snap? (arg a 0) = none) (w : Who) : dSpareFill.body s w a =
      { s := s.addFill { ctx := arg a 0, who := some w, restore := false, prio := arg a 1, sources := [arg a 2]
                         startAt := s.time.mono }
        status := dPending } := by
  simp only [dSpareFill, sources_single hlen hfirst hlast, hfill, hsnap, Option.isSome_none, Bool.or_self, Bool.false_eq_true,
    if_false]

/-- Settles O18: each command is heard and has the effect of its own part. -/
theorem hoardCommands : Obligations.HoardCommands := by
  unfold Obligations.HoardCommands
  refine ⟨?_, ?_, ?_, ?_, ?_, ?_, ?_, ?_⟩
  · rintro r s c n base size ps e x h hl rfl hc rfl h1 h3 hpartners hpred hps rfl rfl hbase hsize hothers hdistinct hslice hent
      hinside hapart hbays hsnap hfill
    have hargs : HoardConfigArgs (DReq.nums r) := ⟨hc, h1, h3, hpartners, hbase, hsize, hpred⟩
    have hfits : HoardConfigFits s (DReq.nums r) ps x :=
      ⟨hps, hothers, hdistinct, by rw [hslice]; exact hent, hinside, hapart, hbays, hsnap, hfill⟩
    exact congrArg _ (runDarid_body (d := dHoardConfig) h (fun _ => rfl) (by simp [dHoardConfig, hl]) (hargs.bad s) rfl
      (hfits.body hpred _))
  · intro r s hcfg h hown hl hc hsnap hfill hst hset
    exact congrArg _ (runDarid_body (d := dHoardSnapshot) h hown (by simp [dHoardSnapshot, hl]) (badWord_ctxWord hc) rfl
      (dHoardSnapshot_body hsnap hfill hst hset _))
  · intro r s hcfg h hl hc hp hset hpartner hfill hsnap
    exact congrArg _ (runDarid_body (d := dHoardRestore) h (fun _ => rfl) (by simp [dHoardRestore, hl])
      (badWord_none (by simpa [ctxWord, hc] using hp)) rfl (dHoardRestore_body hset hpartner hfill hsnap _))
  · intro r s hcfg h hl hc hprio hfirst hset hpartner hlast hfill hsnap
    exact congrArg _ (runDarid_body (d := dSpareFill) h (fun _ => rfl) (by simp [dSpareFill, hl])
      (dSpareFill_bad hc hprio hfirst hset hpartner hlast) rfl
      (dSpareFill_body (by rw [DReq.nums, List.length_map, hl]) hfirst hlast hfill hsnap _))
  · intro r s h hown hl hk
    exact congrArg _ (runDarid_body (d := dSeedStreamSet) h hown (by simp [dSeedStreamSet, hl]) (badWord_none (by simp [hk]))
      rfl rfl)
  · intro r s h hown hl hk
    exact congrArg _ (runDarid_body (d := dSeedStreamGet) h hown (by simp [dSeedStreamGet, hl]) (badWord_none (by simp [hk]))
      rfl rfl)
  · intro r s h hown hl hk
    exact congrArg _ (runDarid_body (d := dDataCursorSet) h hown (by simp [dDataCursorSet, hl]) (badWord_none (by simpa using hk))
      rfl rfl)
  · intro r s h hown hl hk
    exact congrArg _ (runDarid_body (d := dDataCursorGet) h hown (by simp [dDataCursorGet, hl]) (badWord_none (by simpa using hk))
      rfl rfl)

end Sys2Proof.Machine
end

