-- ==== Sys2Proof/Proofs/HoardProgress.lean ====
section
/-! PROOFS. O20: the read point and the copies of a snapshot (R426, R428), and the end of a fill (R437, R440). -/

-- One theorem after the other: threads that wait for one another would each take a stack of the check's memory.
set_option Elab.async false

namespace Sys2Proof.Machine

/-! ### Snapshots (R426, R428) -/

/-- A snapshot with its read point latched: windows, metadata and STEP of this moment. -/
abbrev State.readPoint (s : State) (c : Nat) (x : Snapshot) : Snapshot :=
  { x with latched := true, wins := s.localWins c, meta_ := s.hoardMeta c (s.localWins c), step := s.time.step }

/-- With nothing of the context started the read point is latched, and a bay that is large enough gets the first copy. -/
theorem exec_hoardReadPoint_begins {s : State} {c : Fin 256} {x : Snapshot} {h : HoardCfg} (hx : s.snap? c = some x)
    (hcfg : (s.ctx c).hoard = some h) (hlatched : x.latched = false) (hstop : x.stop = false) (hst : (s.ctx c).st = .active)
    (hidle : s.eng.queues.any (fun e => e.1 / 64 == c.val && !e.2.started.isEmpty) = false)
    (hroom : 2 ^ 21 + sumSizes (s.localWins c) ≤ h.baySize) :
    exec (.hoardReadPoint c) s =
      .next ((s.setSnap c fun _ => s.readPoint c x).beginCopy (s.readPoint c x) 0).jobSweep := by
  refine congrArg Host.Outcome.next ?_
  simp only [State.readPoint, hx, hcfg, hlatched, hstop, hst, hidle, Nat.not_lt.mpr hroom, bne_self_eq_false, Bool.and_false,
    Bool.or_self, Bool.false_eq_true, if_false]

/-- A VALID header that has been answered counts its copy, and the next one begins. -/
theorem exec_hoardCopyCommit_valid {s : State} {c : Fin 256} {x : Snapshot} (hx : s.snap? c = some x) (hlatched : x.latched = true)
    (hstage : x.stage = 2) (hputs : x.puts = 0) (hreason : x.reason = 0) (hstop : x.stop = false)
    (hst : (s.ctx c).st = .active) : exec (.hoardCopyCommit c) s =
      .next (s.beginCopy { x with doneMask := x.doneMask ||| 2 ^ x.copy } (x.copy + 1)).jobSweep := by
  refine congrArg Host.Outcome.next ?_
  simp only [hx, hlatched, hstage, hputs, hreason, hstop, hst]
  rfl

/-! ### The end of a fill (R437, R440) -/

/-- The fill that has ended is no longer among the fills. -/
abbrev State.fillsLeft (s : State) : State := { s with job := { s.job with fills := s.job.fills.filter fun y => y.stage == 0 } }

/-- A fill that found no metadata changes only the hold, and is answered NO_SUCH. -/
theorem exec_spareFillDone_noSuch {s : State} {c : Fin 256} {x : Fill} {w : Who} (hx : s.runningFill = some x)
    (hctx : x.ctx = c.val) (hstage : x.stage = 3) (hcomplete : x.complete = false) (hnone : x.noSuch = true)
    (hwho : x.who = some w) : exec (.spareFillDone c) s = .next ((s.fillsLeft.setCtx c fun y =>
      { y with held := s.fillsLeft.job.fills.any fun z => z.ctx == c.val, fillSource := 0 }).finish w dNoSuch 0 []).jobSweep := by
  refine congrArg Host.Outcome.next ?_
  simp only [hx, hctx, hstage, hcomplete, hnone, hwho, bne_self_eq_false, Bool.or_self, Bool.false_eq_true, if_false, if_true]

/-- A spare fill that is complete restores cursors and streams from the metadata, and is logged and answered OK. -/
theorem exec_spareFillDone_complete {s : State} {c : Fin 256} {x : Fill} {w : Who} (hx : s.runningFill = some x)
    (hctx : x.ctx = c.val) (hstage : x.stage = 3) (hcomplete : x.complete = true) (hnone : x.noSuch = false)
    (hrestore : x.restore = false) (hwho : x.who = some w) :
    ∃ u : State, u = (s.fillsLeft.setCtx c fun y =>
        { y with
          held := s.fillsLeft.job.fills.any fun z => z.ctx == c.val, fillSource := 0
          cursors := (List.range 64).map fun i => (i, BitVec.ofNat 64 (fieldAt x.bytesOf (0x140 + 8 * i) 8)) }) ∧
      exec (.spareFillDone c) s = .next ((({ u with eng := { u.eng with
        streams := (metaStreams x.bytesOf).foldl (fun m r => mput m r.1 { key := r.2.1, ctr := r.2.2 }) u.eng.streams } }
        : State).logFw 0x0605 3 ([c.val, x.last, 1] ++ lohi x.step.toNat ++ lohi x.bytes ++ [x.husks])).finish w dOk
          (x.last + 4 + x.reason * 2 ^ 8) []).jobSweep := by
  refine ⟨_, rfl, congrArg Host.Outcome.next ?_⟩
  simp only [hx, hctx, hstage, hcomplete, hnone, hrestore, hwho, bne_self_eq_false, Bool.or_self, Bool.false_eq_true, if_false,
    if_true]
  rfl

/-- Settles O20: the read point, the commit of a copy, and the two ends of a fill. -/
theorem hoardProgress : Obligations.HoardProgress := by
  unfold Obligations.HoardProgress
  refine ⟨?_, ?_, ?_, ?_⟩
  · intro s c x h hx hcfg hlatched hstop hst hidle hroom
    exact ⟨_, rfl, exec_hoardReadPoint_begins hx hcfg hlatched hstop hst hidle hroom⟩
  · intro s c x hx hlatched hstage hputs hreason hstop hst
    exact exec_hoardCopyCommit_valid hx hlatched hstage hputs hreason hstop hst
  · intro s c x w hx hctx hstage hcomplete hnone hwho
    exact ⟨_, rfl, exec_spareFillDone_noSuch hx hctx hstage hcomplete hnone hwho⟩
  · intro s c x w hx hctx hstage hcomplete hnone hrestore hwho
    obtain ⟨u, hu, hexec⟩ := exec_spareFillDone_complete hx hctx hstage hcomplete hnone hrestore hwho
    exact ⟨_, u, rfl, hu, hexec⟩

end Sys2Proof.Machine
end

