-- ==== Sys2Proof/Proofs/ManifestsAndTags.lean ====
section
/-! PROOFS. O35: one sample in an interval (R452), forced boundaries (R460), the publication of a window (R461 to R465) and the close
point of a tag (R457, R459). First what the overhead records and evictions of a publication leave of the store. When a boundary and a
close are made is the model's choice (log 39). -/

-- One theorem after the other: threads that wait for one another would each take a stack of the check's memory.
set_option Elab.async false

namespace Sys2Proof.Machine

/-! ### Samples and boundaries (R452, R460) -/

/-- An interval that has been sampled takes no second sample. -/
theorem exec_railSample_sampled {s : State} (h : s.toll.lastIv = some s.intervalNo) (x : RailSample) :
    exec (.railSample x) s = .next s :=
  congrArg Host.Outcome.next (if_pos (by simp [h]))

/-- After 2 s without a boundary the next multiple of 10 µs becomes a forced one. -/
theorem exec_manifestForced_due {s : State} (hvalid : s.time.tollValid = true) (hnone : s.toll.boundary = none)
    (hdue : s.toll.lastBoundary + 2000000000 ≤ s.tollNs) : exec .manifestForced s = .next { s with toll := { s.toll with
      boundary := some ((s.tollNs + 9999) / 10000 * 10000, true), forced := min 0xFFFF (s.toll.forced + 1) } } :=
  congrArg Host.Outcome.next (if_pos (by simp [hvalid, hnone, hdue]))

/-! ### Publication (R461 to R465) -/

theorem exec_tollManifestClosed_serving {s : State} {c : Nat} (hserving : s.serving = some c) (hvalid : s.time.tollValid = true)
    (hkey : s.toll.keyBusy.getD c false = false) : exec .tollManifestClosed s = .next (s.publish c) := by
  refine congrArg Host.Outcome.next ?_
  simp only [hserving, hvalid, hkey, Bool.not_false, Bool.and_self, if_true]

/-- The records of a window's overheads count, and are no more than its accounts. -/
theorem TollSt.overheads_spec (t : TollSt) (w : TollWindow) (step : Nat) :
    (∃ n, (t.overheads w step).1 = { t with recCount := n }) ∧ (t.overheads w step).2.length ≤ w.over_.length := by
  have hfold : ∀ (l : SMap Acct) (p : TollSt × List TollRec), (∃ n, p.1 = { t with recCount := n }) →
      ∃ q, q = l.foldl (fun (p : TollSt × List TollRec) e => ({ p.1 with recCount := p.1.recCount + 1 },
          p.2 ++ [p.1.record 2 0xFFFF e.1 0 0 w.startToll w.endToll e.2 0 step w.endNs 0])) p ∧
        (∃ n, q.1 = { t with recCount := n }) ∧ q.2.length = p.2.length + l.length := by
    intro l
    induction l with
    | nil => exact fun p hp => ⟨p, rfl, hp, rfl⟩
    | cons e l ih =>
      rintro p ⟨n, hn⟩
      obtain ⟨q, hq, hcount, hlen⟩ := ih ({ p.1 with recCount := p.1.recCount + 1 },
        p.2 ++ [p.1.record 2 0xFFFF e.1 0 0 w.startToll w.endToll e.2 0 step w.endNs 0]) ⟨n + 1, by rw [hn]⟩
      refine ⟨q, hq, hcount, ?_⟩
      simp only [List.length_append, List.length_cons, List.length_nil] at hlen ⊢
      omega
  obtain ⟨q, hq, hcount, hlen⟩ := hfold (w.over_.filter fun e => e.2.parts.any (· != 0)) (t, []) ⟨t.recCount, rfl⟩
  rw [TollSt.overheads, ← hq]
  refine ⟨hcount, ?_⟩
  have := List.length_filter_le (fun e : Nat × Acct => e.2.parts.any (· != 0)) w.over_
  simp only [List.length_nil] at hlen
  omega

/-- Evictions change the store of manifests and their count alone. -/
theorem TollSt.evictOld_spec (t : TollSt) (n : Nat) : ∃ held evicted, t.evictOld n = { t with held := held, evicted := evicted } := by
  induction n generalizing t with
  | zero => exact ⟨t.held, t.evicted, rfl⟩
  | succ n ih =>
    unfold TollSt.evictOld
    split
    · exact ih { t with held := t.held.drop 1, evicted := satAdd 0xFFFF t.evicted 1 }
    · exact ⟨t.held, t.evicted, rfl⟩

/-- The newest manifest is not evicted: alone it fits the store. -/
theorem TollSt.evictOld_newest {t : TollSt} {l : List Manifest} {m : Manifest} (hheld : t.held = l ++ [m])
    (hfits : m.recs.length ≤ 131072) (n : Nat) : (t.evictOld n).held.getLast? = some m := by
  induction n generalizing t l with
  | zero => rw [TollSt.evictOld, hheld, List.getLast?_concat]
  | succ n ih =>
    unfold TollSt.evictOld
    split
    · next hover =>
      cases l with
      | nil => exact absurd hover (by simp [hheld]; omega)
      | cons a l => exact ih (t := { t with held := t.held.drop 1, evicted := satAdd 0xFFFF t.evicted 1 }) (l := l) (by simp [hheld])
    · rw [hheld, List.getLast?_concat]

/-- The manifest of the oldest window cut joins the store, and then old ones are evicted. -/
theorem State.publish_toll {s : State} {w : TollWindow} {rest : List TollWindow} (hcut : s.toll.cut = w :: rest)
    (hover : w.over_.length ≤ 256) (c : Nat) : ∃ (m : Manifest) (t : TollSt), (s.publish c).toll = t.evictOld 4097 ∧
      t.held = s.toll.held ++ [m] ∧ m.recs.length ≤ 65536 ∧ m.num = s.toll.nextNum ∧ t.cut = rest ∧
      t.manCount = s.toll.manCount + 1 ∧ t.first = false ∧ t.prevHash = sha256 m.bytes := by
  obtain ⟨⟨n, hcount⟩, hlen⟩ := s.toll.overheads_spec w (stepNum s.time.step)
  have hheld : (s.toll.overheads w (stepNum s.time.step)).1.held = s.toll.held := by rw [hcount]
  have hnum : (s.toll.overheads w (stepNum s.time.step)).1.nextNum = s.toll.nextNum := by rw [hcount]; rfl
  have hman : (s.toll.overheads w (stepNum s.time.step)).1.manCount = s.toll.manCount := by rw [hcount]
  unfold State.publish
  rw [hcut]
  dsimp only
  generalize s.toll.overheads w (stepNum s.time.step) = p at hheld hnum hman hlen ⊢
  rw [apply_ite State.toll, State.log_toll, State.log_toll, ite_self]
  refine ⟨_, _, rfl, congrArg (· ++ [_]) hheld, ?_, hnum, rfl, congrArg (· + 1) hman, rfl, ?_⟩
  · dsimp only
    rw [List.length_append, List.length_take]
    omega
  · dsimp only

/-- A publication changes the store of manifests and the Ledger alone. -/
theorem State.publish_mem_eng (s : State) (c : Nat) : (s.publish c).mem = s.mem ∧ (s.publish c).eng = s.eng := by
  unfold State.publish
  split
  · exact ⟨rfl, rfl⟩
  · dsimp only
    rw [apply_ite State.mem, apply_ite State.eng]
    simp only [State.log_mem, State.log_eng, ite_self, and_self]

/-- After the publication the manifest is the newest in the store, and the next one names its hash. -/
theorem State.publish_spec {s : State} {w : TollWindow} {rest : List TollWindow} (hcut : s.toll.cut = w :: rest)
    (hover : w.over_.length ≤ 256) (c : Nat) : ∃ m : Manifest, (s.publish c).toll.cut = rest ∧
      (s.publish c).toll.manCount = s.toll.manCount + 1 ∧ (s.publish c).toll.first = false ∧
      (s.publish c).toll.prevHash = sha256 m.bytes ∧ m.num = s.toll.nextNum ∧ (s.publish c).toll.held.getLast? = some m := by
  obtain ⟨m, t, htoll, hheld, hfits, hnum, hrest, hcount, hfirst, hhash⟩ := State.publish_toll hcut hover c
  have hnewest := TollSt.evictOld_newest hheld (by omega) 4097
  obtain ⟨held, evicted, hevict⟩ := t.evictOld_spec 4097
  rw [htoll]
  refine ⟨m, ?_, ?_, ?_, ?_, hnum, hnewest⟩
  · rw [hevict, hrest]
  · rw [hevict, hcount]
  · rw [hevict, hfirst]
  · rw [hevict, hhash]

/-! ### The close point of a tag (R457, R459) -/

/-- A closing tag that no started descriptor carries leaves its record in the close buffers, and is free. -/
theorem exec_tagClosePoint_closes {s : State} {k : Fin 4096} (hopen : (s.tag k).isOpen = true) (hclosing : (s.tag k).closing = true)
    (hrunning : (s.tag k).running = 0) (hroom : s.toll.room (s.tag k).dies = true) :
    ∃ r : TollRec, r.isTag = true ∧ r.total = (s.tag k).acct.parts.foldl (· + ·) 0 ∧ r.seq = s.toll.recSeq ∧
      r.dies = (s.tag k).dies ∧ r.head.take 4 = leBytes 2 1 ++ leBytes 2 k ∧
      exec (.tagClosePoint k) s = .next { s with toll := { s.toll with
        tags := (mdel s.toll.tags k), buffer := s.toll.buffer ++ [r], recCount := s.toll.recCount + 1 } } :=
  ⟨_, rfl, rfl, rfl, rfl, rfl, congrArg Host.Outcome.next (if_pos (by simp [hopen, hclosing, hrunning, hroom]))⟩

/-- Settles O35: samples and boundaries, the publication of a window, and the close point of a tag. -/
theorem manifestsAndTags : Obligations.ManifestsAndTags := by
  unfold Obligations.ManifestsAndTags
  refine ⟨?_, ?_, ?_, ?_, ?_⟩
  · intro s x h
    exact exec_railSample_sampled h x
  · intro s hvalid hnone hdue
    exact exec_manifestForced_due hvalid hnone hdue
  · intro s c hserving hvalid hkey
    exact exec_tollManifestClosed_serving hserving hvalid hkey
  · intro s c w rest hcut hover
    obtain ⟨m, hrest, hcount, hfirst, hhash, hnum, hnewest⟩ := State.publish_spec hcut hover c
    obtain ⟨hmem, heng⟩ := s.publish_mem_eng c
    exact ⟨m, hrest, hcount, hfirst, hhash, hnum, hnewest, hmem, heng⟩
  · intro s k hopen hclosing hrunning hroom
    exact exec_tagClosePoint_closes hopen hclosing hrunning hroom

end Sys2Proof.Machine
end

