-- ==== Sys2Proof/Proofs/ContextResetEnds.lean ====
section
/-! PROOFS. O22: the end of a context reset (R406, R407) and of a context release (R502), on a module without snapshots and fills.
First what answering the waiting commands leaves, then the queues of each end. -/

-- One theorem after the other: threads that wait for one another would each take a stack of the check's memory.
set_option Elab.async false

namespace Sys2Proof.Machine

theorem lookup_mmapv {α : Type} (m : SMap α) (f : Nat → α → α) (k : Nat) : (mmapv m f).lookup k = (m.lookup k).map (f k) := by
  induction m with
  | nil => rfl
  | cons e r ih =>
    obtain ⟨j, v⟩ := e
    simp only [mmapv, List.map_cons, lookup_pair] at ih ⊢
    split
    · next h => rw [h, Option.map_some]
    · exact ih

theorem State.ctx_congr {s t : State} (h : t.eng = s.eng) (c : Nat) : t.ctx c = s.ctx c :=
  congrArg (fun e : EngTables => mget ({} : Ctx) e.ctxs c) h

/-! ### Answers, and the hoard's part (R432) -/

theorem State.finishAll_same {β : Type} {g : State → β} (h : ∀ (s : State) w st d ws, g (s.finish w st d ws) = g s) (s : State)
    (l : List Who) (st d : Nat) (ws : List Nat) : g (s.finishAll l st d ws) = g s :=
  foldl_same (fun s w => h s w st d ws) l s

/-- Without snapshots and fills nothing goes on. -/
theorem State.jobSweep_idle {s : State} (hsnaps : s.job.snaps = []) (hfills : s.job.fills = []) : s.jobSweep = s := by
  have hstep : s.fillStep = none := by simp [State.fillStep, State.runningFill, State.nextFill, hfills]
  unfold State.jobSweep
  rw [hsnaps, List.map_nil, List.foldl_nil, State.fillGo, hstep]

/-- What the answers at the end of a reset leave: engines and memories, and on a module without jobs nothing goes on. -/
theorem State.answered_idle {u : State} (hsnaps : u.job.snaps = []) (hfills : u.job.fills = []) (l : List Who) (st d : Nat)
    (ws : List Nat) : ∃ t, (u.finishAll l st d ws).jobSweep = t ∧ t.eng = u.eng ∧ t.mem = u.mem := by
  have hjob : (u.finishAll l st d ws).job = u.job := State.finishAll_same State.finish_job ..
  refine ⟨_, State.jobSweep_idle ?_ ?_, State.finishAll_same State.finish_eng .., State.finishAll_same State.finish_mem ..⟩
  · rw [hjob, hsnaps]
  · rw [hjob, hfills]

/-- What every command keeps, of one that goes on: fuses and waiting commands. -/
theorem KeepsOut.fixed {s t : State} {o : Host.Outcome State Fault Refusal} (h : KeepsOut s o) (ho : o = .next t) :
    t.fuse = s.fuse ∧ t.pending = s.pending := by
  subst ho
  cases h with
  | next h => exact ⟨h.fuse, h.2.1⟩

/-! ### The end of a reset (R406, R407) -/

/-- The queues after a context reset: the context's own that are bound are rewound. -/
def State.rewound (s : State) (c : Nat) : SMap Queue :=
  mmapv s.eng.queues fun k u => if k / 64 = c && u.st != .unbound then rewindQueue ((s.engine u.eng).st == .resetting) u else u

theorem State.rewound_other {s : State} {c k : Nat} {u : Queue} (hu : s.eng.queues.lookup k = some u) (hk : k / 64 ≠ c) :
    (s.rewound c).lookup k = some u := by
  rw [State.rewound, lookup_mmapv, hu, Option.map_some]
  exact congrArg some (if_neg (by simp [hk]))

/-- A bound queue of the context on an engine that works is IDLE and empty. -/
theorem State.rewound_own {s : State} {c k : Nat} {u : Queue} (hu : s.eng.queues.lookup k = some u) (hk : k / 64 = c)
    (hbound : u.st ≠ .unbound) (heng : (s.engine u.eng).st ≠ .resetting) :
    ∃ v, (s.rewound c).lookup k = some v ∧ v.st = .idle ∧ v.head = u.done ∧ v.tail = u.done ∧ v.done = u.done := by
  refine ⟨rewindQueue false u, ?_, rfl, rfl, rfl, rfl⟩
  rw [State.rewound, lookup_mmapv, hu, Option.map_some]
  have hworks : ((s.engine u.eng).st == .resetting) = false := by simpa using heng
  exact congrArg some ((if_pos (by simp [hk, hbound])).trans (by rw [hworks]))

/-- The context is ACTIVE again, its queues rewound, memories as they were. -/
theorem exec_contextResetDone_ends {s : State} {c : Fin 256} (hst : (s.ctx c).st = .resetting) (hrel : (s.ctx c).releasing = false)
    (hwaits : s.resetWaits c = false) (hsnaps : s.job.snaps = []) (hfills : s.job.fills = []) :
    ∃ t, exec (.contextResetDone c) s = .next t ∧ (t.ctx c).st = .active ∧ t.mem = s.mem ∧ t.eng.queues = s.rewound c := by
  have hguard : ¬ ((s.ctx c).st != .resetting || (s.ctx c).releasing || s.resetWaits c) = true := by simp [hst, hrel, hwaits]
  refine ⟨_, congrArg Host.Outcome.next (if_neg hguard), ?_⟩
  dsimp only
  generalize hu : State.log _ _ _ _ _ = u
  have heng : u.eng = _ := (congrArg State.eng hu).symm.trans (State.log_eng ..)
  have hmem : u.mem = s.mem := (congrArg State.mem hu).symm.trans (State.log_mem ..)
  have hjob : u.job = s.job := (congrArg State.job hu).symm.trans (State.log_job ..)
  obtain ⟨t, ht, hteng, htmem⟩ := State.answered_idle (u := u) (by rw [hjob, hsnaps]) (by rw [hjob, hfills])
    (s.ctx c).resetWho dOk 0 []
  rw [ht]
  refine ⟨?_, htmem.trans hmem, ?_⟩
  · rw [State.ctx_congr (hteng.trans heng) c, State.ctx_setCtx_self]
  · rw [hteng, heng]
    rfl

/-! ### The end of a release (R502) -/

theorem State.endCellar_eq {s : State} (p : Nat) (j : CellarJob) (o b n : Nat) :
    (s.endCellar p j o b n).mem = s.mem ∧ (s.endCellar p j o b n).job = s.job := by
  simp [State.endCellar]

/-- The cellar's commands of a context end, and the hoard and memories are as they were. -/
theorem State.cellarRelease_same (s : State) (c : Nat) : (s.cellarRelease c).mem = s.mem ∧
    (s.cellarRelease c).job.snaps = s.job.snaps ∧ (s.cellarRelease c).job.fills = s.job.fills := by
  have hport : ∀ {β : Type} (g : State → β), (∀ (s : State) p j o b n, g (s.endCellar p j o b n) = g s) →
      (∀ (s : State) p f, g (s.setCellar p f) = g s) → g (s.cellarRelease c) = g s := by
    intro β g hend hset
    exact foldl_same (fun s p => (foldl_same (fun s j => hend s p j 3 0 0) _ _).trans (hset s p _)) [0, 1] s
  refine ⟨hport State.mem ?_ ?_, hport (fun s => s.job.snaps) ?_ ?_, hport (fun s => s.job.fills) ?_ ?_⟩
  · exact fun s p j o b n => (State.endCellar_eq p j o b n).1
  · exact fun _ _ _ => rfl
  · exact fun s p j o b n => congrArg JobSt.snaps (State.endCellar_eq p j o b n).2
  · exact fun _ _ _ => rfl
  · exact fun s p j o b n => congrArg JobSt.fills (State.endCellar_eq p j o b n).2
  · exact fun _ _ _ => rfl

/-- The context is FREE and without queues; memories, snapshots and fills are as they were. -/
theorem State.freeContext_spec (s : State) (c : Nat) : ((s.freeContext c).ctx c).st = .free ∧ (s.freeContext c).mem = s.mem ∧
    (s.freeContext c).eng.queues = s.eng.queues.filter (fun k => k.1 / 64 != c) ∧
    (s.freeContext c).job.snaps = s.job.snaps ∧ (s.freeContext c).job.fills = s.job.fills := by
  have hpairs : ∀ {β : Type} (g : State → β), (∀ (s : State) j f, g (s.setEng j f) = g s) → ∀ (l : List Nat) (s : State),
      g (l.foldl (fun s i => (s.setEng (2 * i) fun e => { e with twin := false }).setEng (2 * i + 1) fun e =>
        { e with twin := false }) s) = g s :=
    fun g h l s => foldl_same (fun s _ => (h _ _ _).trans (h s _ _)) l s
  unfold State.freeContext
  dsimp only
  generalize hl : (List.range 32).filter _ = l
  have hmem := hpairs State.mem (fun _ _ _ => rfl) l (s.zeroGroups c)
  have hjob := hpairs State.job (fun _ _ _ => rfl) l (s.zeroGroups c)
  have hqueues := hpairs (fun s => s.eng.queues) (fun _ _ _ => rfl) l (s.zeroGroups c)
  generalize l.foldl _ _ = u at hmem hjob hqueues
  obtain ⟨hcmem, hcsnaps, hcfills⟩ := u.cellarRelease_same c
  refine ⟨?_, hcmem.trans hmem, congrArg (List.filter _) hqueues, hcsnaps.trans (congrArg JobSt.snaps hjob),
    hcfills.trans (congrArg JobSt.fills hjob)⟩
  rw [State.ctx, mget_mput, if_pos rfl]

/-- The context is FREE, without queues; memories are as they were. -/
theorem exec_contextReleaseDone_ends {s : State} {c : Fin 256} (hst : (s.ctx c).st = .resetting) (hrel : (s.ctx c).releasing = true)
    (hwaits : s.resetWaits c = false) (howes : s.eng.queues.any (fun e => e.1 / 64 == c.val && !e.2.owedRecs.isEmpty) = false)
    (hsnaps : s.job.snaps = []) (hfills : s.job.fills = []) :
    ∃ t, exec (.contextReleaseDone c) s = .next t ∧ (t.ctx c).st = .free ∧ t.mem = s.mem ∧
      t.eng.queues = s.eng.queues.filter (fun k => k.1 / 64 != c.val) := by
  have hguard : ¬ ((s.ctx c).st != .resetting || !(s.ctx c).releasing ||
      s.eng.queues.any (fun e => e.1 / 64 == c.val && !e.2.owedRecs.isEmpty) || s.resetWaits c) = true := by
    rw [hst, hrel, howes, hwaits]
    decide
  refine ⟨_, congrArg Host.Outcome.next (if_neg hguard), ?_⟩
  obtain ⟨hfree, hfmem, hfqueues, hfsnaps, hffills⟩ := s.freeContext_spec c
  dsimp only
  generalize hu : State.log _ _ _ _ _ = u
  have heng : u.eng = (s.freeContext c).eng := (congrArg State.eng hu).symm.trans (State.log_eng ..)
  have hmem : u.mem = (s.freeContext c).mem := (congrArg State.mem hu).symm.trans (State.log_mem ..)
  have hjob : u.job = (s.freeContext c).job := (congrArg State.job hu).symm.trans (State.log_job ..)
  obtain ⟨t, ht, hteng, htmem⟩ := State.answered_idle (u := u) (by rw [hjob, hfsnaps, hsnaps]) (by rw [hjob, hffills, hfills])
    (s.ctx c).resetWho dOk 0 []
  rw [ht]
  refine ⟨?_, (htmem.trans hmem).trans hfmem, ?_⟩
  · rw [State.ctx_congr (hteng.trans heng) c, hfree]
  · rw [hteng, heng, hfqueues]

/-- Settles O22: both ends by the rules above; that fuses and waiting commands stay is `Keeps` of the two commands. -/
theorem contextResetEnds : Obligations.ContextResetEnds := by
  unfold Obligations.ContextResetEnds
  refine ⟨?_, ?_⟩
  · intro s c hst hrel hwaits hsnaps hfills
    obtain ⟨t, hexec, hactive, hmem, hqueues⟩ := exec_contextResetDone_ends hst hrel hwaits hsnaps hfills
    obtain ⟨hfuse, hpending⟩ := KeepsOut.fixed (KeepsOut.contextResetDone s c) hexec
    refine ⟨t, hexec, hactive, hmem, hfuse, hpending, ?_, ?_⟩
    · intro k u hu hk
      rw [hqueues, State.rewound_other hu hk]
    · intro k u hu hk hbound heng
      rw [hqueues]
      exact State.rewound_own hu hk hbound heng
  · intro s c hst hrel hwaits howes hsnaps hfills
    obtain ⟨t, hexec, hfree, hmem, hqueues⟩ := exec_contextReleaseDone_ends hst hrel hwaits howes hsnaps hfills
    obtain ⟨hfuse, hpending⟩ := KeepsOut.fixed (KeepsOut.contextReleaseDone s c) hexec
    exact ⟨t, hexec, hfree, hfuse, hpending, hmem, hqueues⟩

end Sys2Proof.Machine
end

