-- ==== Sys2Proof/Proofs/SteadyDescriptors.lean ====
section
/-! PROOFS. More rules for `Steady`: what the work of started descriptors, convoys, completion records, and the return of an engine and
of a die leave of the dies' resets. They go along `Keeps` of the same functions. -/

-- One theorem after the other: threads that wait for one another would each take a stack of the check's memory.
set_option Elab.async false

namespace Sys2Proof.Machine

/-! ### Pairs, options and updates of units -/

theorem Steady.of_fst {s t : State} {α : Type} {p : State × α} {a : α} (k : Steady s p.1) (h : p = (t, a)) : Steady s t := by
  rw [h] at k
  exact k

theorem Steady.foldlFst {α β : Type} {f : State × β → α → State × β} (l : List α) (h : ∀ p a, Steady p.1 (f p a).1)
    (p : State × β) : Steady p.1 (l.foldl f p).1 := .foldlVia Prod.fst h l p

theorem SteadyOpt.orElse {s : State} {a b : Option State} (h : SteadyOpt s a) (k : SteadyOpt s b) :
    SteadyOpt s (a <|> b) := by
  cases a with
  | none => exact k
  | some t => exact h

theorem Steady.setEng (s : State) (j : Nat) (f : EngSt → EngSt) : Steady s (s.setEng j f) := .upd

theorem Steady.setPort (s : State) (p : Nat) (f : PortSt → PortSt) : Steady s (s.setPort p f) := .upd

theorem Steady.setWg (s : State) (d : Nat) (f : WgDie → WgDie) : Steady s (s.setWg d f) := .upd

theorem Steady.setMemDie (s : State) (d : Nat) (f : MemDie → MemDie) : Steady s (s.setMemDie d f) := .upd

theorem Steady.setStack (s : State) (d : Nat) (f : StackSt → StackSt) : Steady s (s.setStack d f) := .upd

theorem Steady.setStore (s : State) (f : Mem → Mem) : Steady s (s.setStore f) := .upd

theorem Steady.setQueue (s : State) (c q : Nat) (f : Queue → Queue) : Steady s (s.setQueue c q f) :=
  ⟨by rw [State.setQueue_ctd], by rw [State.setQueue_dies]⟩

/-! ### Requests, written lines and failures of a descriptor -/

theorem Steady.queuePkt (s : State) (p vc : Nat) (k : Packet) : Steady s (s.queuePkt p vc k) := .upd

theorem Steady.atomicAt (s : State) (a : Nat) (a64 : Bool) (op x cmp : Nat) :
    Steady s (s.atomicAt a a64 op x cmp).1 :=
  .lWrite ..

theorem Steady.emit7 (s : State) (k : Packet) : Steady s (s.emit7 k) := by
  unfold State.emit7
  split
  · exact .queuePkt ..
  · exact .refl _

theorem Steady.unstall (s : State) : Steady s s.unstall := .after (.foldl (fun _ _ => .issue ..) _ _) .upd

theorem Steady.noteWrite (s : State) (j c a n : Nat) : Steady s (s.noteWrite j c a n) :=
  .ite (.refl _) (.ite (.after (.ite .upd (.refl _)) (.setSv ..)) (.after (.ite .upd (.refl _)) (.setSv ..)))

theorem Steady.noteRemote (s : State) (j c id : Nat) :
    Steady s (s.noteRemote j c id) :=
  .after (.ite .upd (.refl _)) (.setSv ..)

theorem Steady.undefLine (s : State) (j c a n : Nat) :
    Steady s (s.undefLine j c a n) :=
  .after (.noteWrite ..) (.after (.lWrite ..) (.after .upd .upd))

theorem Steady.undefine (s : State) (j c : Nat) (ranges : List (Nat × Nat)) : Steady s (s.undefine j c ranges) := by
  unfold State.undefine
  refine .foldl (fun s a => ?_) _ _
  split
  · exact .undefLine ..
  · exact .undefLine ..
  · exact .refl _

theorem Steady.descReq (s : State) (c q : Nat) (ix : Word) (r : FReq) (board : Bool) :
    Steady s (s.descReq c q ix r board) :=
  .after (.issue ..) (.setStarted ..)

theorem Steady.failDesc (s : State) (c q : Nat) (ix : Word) (f : Fail) : Steady s (s.failDesc c q ix f) := .setStarted ..

theorem Steady.writeLine (s : State) (c q : Nat) (x : Started) (j v : Nat) (b : HBytes) (src : Option Nat) :
    Steady s (s.writeLine c q x j v b src).1 := by
  unfold State.writeLine
  dsimp only
  split
  · exact .refl _
  · exact .refl _
  · exact .after (.ite (.setStarted ..) (.refl _)) (.after (.noteWrite ..) (.lWrite ..))
  · split
    · exact .refl _
    · exact .after (.descReq ..) (.noteRemote ..)

theorem Steady.engCopy (s : State) (c q : Nat) (x : Started) (j v : Nat) (b : HBytes) (src : Option Nat) :
    Steady s (s.engCopy c q x j v b src).1 := by
  unfold State.engCopy
  refine Steady.foldlVia (fun p : (State × Option Fail) × HBytes => p.1.1) (fun p a => ?_) _ ((_, none), b)
  split
  · exact .refl _
  · exact .writeLine ..

theorem Steady.engWrite (s : State) (c q : Nat) (x : Started) (j v : Nat) (b : HBytes) :
    Steady s (s.engWrite c q x j v b).1 :=
  .engCopy ..

theorem Steady.tagStart (s : State) (c t die : Nat) : Steady s (s.tagStart c t die) := .upd

/-! ### Aborts of a convoy -/

theorem Steady.sendCtrl (s : State) (port : Nat) (dst : BitVec 15) (type outcome : Nat) (m : AbortMsg) :
    Steady s (s.sendCtrl port dst type outcome m) :=
  .ite (.queuePkt ..) (.emit7 ..)

theorem Steady.logConvoy (s : State) (c : Convoy) (m : AbortMsg) (outcome : Nat) :
    Steady s (s.logConvoy c m outcome) :=
  .ite (.refl _) (.after (.log ..) .upd)

theorem Steady.flood (s : State) (k : ConvoyKey) (ports : List Nat) (except : Option (BitVec 15)) :
    Steady s (s.flood k ports except) := by
  unfold State.flood
  dsimp only
  split
  · exact .refl _
  · exact .after (.foldl (fun _ _ => .sendCtrl ..) _ _) .upd

theorem Steady.endConvoy (s : State) (c : Convoy) (m : AbortMsg) (f : Fail) (outcome : Nat) (except : Option (BitVec 15)) :
    Steady s (s.endConvoy c m f outcome except) := by
  unfold State.endConvoy
  dsimp only
  refine .after (.logConvoy ..) ?_
  refine .after (.flood ..) ?_
  split
  · refine .after (.setStarted ..) ?_
    split
    · exact .after (.ite (.refl _) (.undefine ..)) .upd
    · exact .upd
  · exact .upd

theorem Steady.startAbort (s : State) (k : ConvoyKey) (cause : Nat) (own : Option Fail) :
    Steady s (s.startAbort k cause own) := by
  unfold State.startAbort
  dsimp only
  split
  · exact .refl _
  · exact .ite (.refl _) (.after (.endConvoy ..) .upd)

/-! ### Completion records and the work of a vector engine -/

theorem Steady.putRecord (s : State) (c q j slot : Nat) (b : List Byte) :
    Steady s (s.putRecord c q j slot b) :=
  .ite (.refl _) (.ite (.after (.noteWrite ..) (.setMem ..)) (.setQueue ..))

theorem Steady.dropTiles (s : State) (c q : Nat) (x : Started) (f : Fail) :
    Steady s (s.dropTiles c q x f) :=
  .after (.setStarted ..) (.failDesc ..)

theorem Steady.veWrite (s : State) (c q : Nat) (x : Started) (p : VB) (j r : Nat) (vals : List Num) (scaleBase : Nat) :
    Steady s (s.veWrite c q x p j r vals scaleBase) := by
  unfold State.veWrite
  dsimp only
  split
  on_goal 1 => refine .after (.failDesc ..) ?_
  all_goals refine .ite (.after .upd (.after (.setStarted ..) ?_)) (.after (.setStarted ..) ?_)
  all_goals
    split
    · exact .engWrite ..
    · split
      · exact .after (.engWrite ..) (.engWrite ..)
      · exact .engWrite ..

theorem Steady.veRun (s : State) (c q : Nat) (x : Started) (p : VB) (j : Nat) : Steady s (s.veRun c q x p j) := by
  unfold State.veRun
  dsimp only
  refine .foldl (fun s a => ?_) _ _
  refine .ite (.refl _) ?_
  split
  · exact .failDesc ..
  · refine .ite ?_ ?_
    · split
      · exact .after (.failDesc ..) (.after (.engWrite ..) (.after (.veWrite ..) (.setStarted ..)))
      · exact .after (.engWrite ..) (.after (.veWrite ..) (.setStarted ..))
    · exact .after (.veWrite ..) (.setStarted ..)

theorem Steady.veGradWord (s : State) (c q : Nat) (x : Started) (p : VB) (j addr : Nat) (terms : List Num) :
    Steady s (s.veGradWord c q x p j addr terms) := by
  unfold State.veGradWord
  dsimp only
  refine .ite (.refl _) ?_
  split
  · exact .failDesc ..
  · split
    · exact .after (.failDesc ..) (.after (.engWrite ..) (.setStarted ..))
    · exact .after (.engWrite ..) (.setStarted ..)

theorem Steady.veBackRun (s : State) (c q : Nat) (x : Started) (p : VB) (j : Nat) : Steady s (s.veBackRun c q x p j) := by
  unfold State.veBackRun
  dsimp only
  refine .ite ?_ (.ite (.after (.foldl (fun _ _ => .veGradWord ..) _ _) ?_) (.after (.foldl (fun _ _ => .veGradWord ..) _ _)
    (.after (.foldl (fun _ _ => .veGradWord ..) _ _) ?_)))
  all_goals
    refine .foldlFst _ (fun p a => ?_) (_, [], [])
    split
    · exact .refl _
    · split
      · exact .failDesc ..
      · exact .after (.veWrite ..) (.setStarted ..)

theorem Steady.veWork (s : State) (c q : Nat) (x : Started) (j : Nat) :
    Steady s (s.veWork c q x j) :=
  .ite (.veBackRun ..) (.veRun ..)

/-! ### Convoys -/

theorem Steady.putSeg (s : State) (k : ConvoyKey) (g : Seg) : Steady s (s.putSeg k g) := .queuePkt ..

theorem Steady.sendSeg (s : State) (k : ConvoyKey) (g : Seg) :
    Steady s (s.sendSeg k g) :=
  .ite (.refl _) (.after .upd (.putSeg ..))

theorem Steady.sendAck (s : State) (car : Bool) (k : ConvoyKey) (epoch : BitVec 16) (port status seg step : Nat) :
    Steady s (s.sendAck car k epoch port status seg step) :=
  .queuePkt ..

theorem Steady.cvFail (s : State) (k : ConvoyKey) (f : Fail) : Steady s (s.cvFail k f) := .startAbort ..

theorem Steady.cvWrite (s : State) (k : ConvoyKey) (c q j : Nat) (x : Started) (v : Nat) (b : HBytes) :
    Steady s (s.cvWrite k c q j x v b) := by
  unfold State.cvWrite
  refine .ite (.refl _) ?_
  split
  · exact .after .upd (.of_fst (.engWrite ..) ‹_›)
  · exact .after (.cvFail ..) (.of_fst (.engWrite ..) ‹_›)

theorem Steady.cvFlags (s : State) (c q : Nat) (ix : Word) (ovf nan : Bool) :
    Steady s (s.cvFlags c q ix ovf nan) :=
  .setStarted ..

theorem Steady.cvStore (s : State) (k : ConvoyKey) (c q j : Nat) (x : Started) (p : Coll) (b i : Nat) (r : Partial) :
    Steady s (s.cvStore k c q j x p b i r) :=
  .after .upd (.after (.ite (.refl _) (.cvWrite ..)) (.after (.cvWrite ..) (.cvFlags ..)))

theorem Steady.sendSegs (s : State) (k : ConvoyKey) (l : List Seg) :
    Steady s (s.sendSegs k l) :=
  .foldl (fun _ _ => .sendSeg ..) _ _

theorem SteadyOpt.cvLocal (s : State) (cv : Convoy) (c q j : Nat) (x : Started) (p : Coll) :
    SteadyOpt s (s.cvLocal cv c q j x p) := by
  unfold State.cvLocal
  dsimp only
  refine .ite (.none _) (.ite ?_ ?_)
  · refine .ite (.none _) (.ite ?_ ?_)
    · split
      · exact .some (.cvFail ..)
      · exact .some (.after (.sendSegs ..) (.after .upd (.cvWrite ..)))
    · split
      · exact .some (.cvFail ..)
      · exact .some (.ite (.after .upd (.cvStore ..)) (.after (.sendSegs ..) .upd))
  · refine .ite ?_ ?_
    · refine .ite (.none _) ?_
      split
      · exact .some (.cvFail ..)
      · exact .some (.after (.sendSegs ..) (.after .upd (.cvWrite ..)))
    · refine .ite (.none _) ?_
      split
      · exact .some (.cvFail ..)
      · refine .some ?_
        split
        · exact .after (.sendSeg ..) (.after .upd (.after .upd (.cvFlags ..)))
        · exact .after (.sendSegs ..) (.after (.cvStore ..) (.after .upd (.after .upd (.cvFlags ..))))

theorem Steady.cvUse (s : State) (cv : Convoy) (c q j : Nat) (x : Started) (p : Coll) (g : Seg) :
    Steady s (s.cvUse cv c q j x p g) := by
  unfold State.cvUse
  dsimp only
  refine .ite (.after (.sendSegs ..) (.after (.cvWrite ..) .upd)) (.ite (.after (.sendSegs ..) (.after (.cvStore ..) .upd)) ?_)
  refine .ite ?_ ?_
  · split
    · exact .after (.cvFail ..) .upd
    · exact .after (.ite (.sendSeg ..) (.after (.ite (.sendSeg ..) (.refl _)) (.cvStore ..))) (.after (.cvFlags ..) .upd)
  · exact .after (.ite (.sendSeg ..) (.refl _)) (.after (.cvStore ..) .upd)

/-- What stays whatever state `f` answers, said of the function for the reason of `KeepsPut`. -/
def SteadyPut (f : State → ConvoyKey → Nat → Nat → Started → Coll → Nat → Nat → State × Option Fail) : Prop :=
  ∀ s k c j x p port n, Steady s (f s k c j x p port n).1

theorem steadyPut_putCar : SteadyPut State.putCar := by
  delta State.putCar
  generalize State.engRead = read
  revert read
  refine id fun read s k c j x p port n => ?_
  dsimp only
  split
  · exact .refl _
  · exact .after (.queuePkt ..) (.foldl (fun _ _ => .queuePkt ..) _ _)

theorem Steady.putCar (s : State) (k : ConvoyKey) (c j : Nat) (x : Started) (p : Coll) (port n : Nat) :
    Steady s (s.putCar k c j x p port n).1 := steadyPut_putCar ..

theorem Steady.sendCar (s : State) (k : ConvoyKey) (c j : Nat) (x : Started) (p : Coll) (ports : List Nat) (n : Nat) :
    Steady s (s.sendCar k c j x p ports n) := by
  unfold State.sendCar
  refine .foldl (fun s a => ?_) _ _
  refine .ite (.refl _) ?_
  split
  · exact .after (.cvFail ..) (.of_fst (.putCar ..) ‹_›)
  · exact .after .upd (.of_fst (.putCar ..) ‹_›)

theorem SteadyOpt.carLocal (s : State) (cv : Convoy) (c q j : Nat) (x : Started) (p : Coll) :
    SteadyOpt s (s.carLocal cv c q j x p) := by
  unfold State.carLocal
  dsimp only
  refine .ite (.none _) (.some ?_)
  refine .after (.sendCar ..) ?_
  refine .after .upd ?_
  split
  · exact .cvFail ..
  · exact .ite (.ite (.setStarted ..) (.refl _)) (.cvWrite ..)

theorem SteadyOpt.carAck (s : State) (cv : Convoy) (p : Coll) : SteadyOpt s (s.carAck cv p) := by
  unfold State.carAck
  split
  · exact .none _
  · exact .ite (.some (.after .upd (.sendAck ..))) (.none _)

theorem Steady.setBarrier (s : State) (b : Nat) (f : Barrier → Barrier) : Steady s (s.setBarrier b f) := by
  unfold State.setBarrier
  dsimp only
  split
  · exact .upd
  · exact .refl _

theorem Steady.cvAux (s : State) (cv : Convoy) (c q j : Nat) (x : Started) (p : Coll) :
    Steady s (s.cvAux cv c q j x p) :=
  .ite (.refl _) (.cvWrite ..)

theorem Steady.cvRelease (s : State) (cv : Convoy) (c q j : Nat) (x : Started) (p : Coll) (contrib : Nat) :
    Steady s (s.cvRelease cv c q j x p contrib) :=
  .after .upd (.after (.sendSegs ..) (.after (.setBarrier ..) (.after (.ite (.cvAux ..) (.refl _)) .upd)))

theorem SteadyOpt.cvFinish (s : State) (cv : Convoy) (c q j : Nat) (x : Started) (p : Coll) :
    SteadyOpt s (s.cvFinish cv c q j x p) := by
  unfold State.cvFinish
  dsimp only
  refine .ite (.none _) (.ite ?_ ?_)
  · refine .ite ?_ ?_
    · refine .some ?_
      refine .after .upd ?_
      refine .ite (.refl _) ?_
      split
      · exact .cvFail ..
      · exact .cvWrite ..
    · exact .none _
  · refine .ite (.ite (.none _) (.ite (.some (.after (.setBarrier ..) (.after .upd (.ite (.refl _) (.cvAux ..)))))
    (.some (.after .upd (.ite (.refl _) (.cvAux ..)))))) (.ite ?_ ?_)
    · split
      · exact .some (.cvRelease ..)
      · exact .ite (.none _) (.some (.after (.sendSeg ..) .upd))
    · exact .none _

theorem SteadyOpt.cvStep (s : State) (k : ConvoyKey) : SteadyOpt s (s.cvStep k) := by
  unfold State.cvStep
  dsimp only
  split
  · exact .none _
  · split
    · split
      · refine .ite (.orElse (.carLocal _ _ _ _ _ _ _) (.orElse (.carAck _ _ _) (.cvFinish _ _ _ _ _ _ _))) ?_
        split
        · exact .some (.of_some (SteadyOpt.cvLocal _ _ _ _ _ _ _) ‹_›)
        · split
          · exact .some (.cvUse ..)
          · exact .cvFinish _ _ _ _ _ _ _
      · exact .none _
    · exact .none _

theorem Steady.cvGo (s : State) (k : ConvoyKey) (n : Nat) : Steady s (s.cvGo k n) := by
  induction n generalizing s with
  | zero => exact .refl _
  | succ n ih =>
    unfold State.cvGo
    split
    · exact .refl _
    · exact .after (ih _) (.of_some (.cvStep _ _) ‹_›)

theorem Steady.cvRun (s : State) (k : ConvoyKey) : Steady s (s.cvRun k) := by
  unfold State.cvRun
  dsimp only
  split
  · exact .refl _
  · exact .cvGo ..

theorem Steady.cvSettled (s : State) (c q : Nat) (ix : Word) : Steady s (s.cvSettled c q ix) := by
  unfold State.cvSettled
  split
  · exact .refl _
  · split
    · exact .refl _
    · split
      · exact .startAbort ..
      · exact .ite (.cvRun ..) (.refl _)

/-! ### The work of a DMA engine, and what a settled request lets go on -/

theorem Steady.fetchRemote (s : State) (c q j : Nat) (ix : Word) (ranges : List (Nat × Nat)) :
    Steady s (s.fetchRemote c q j ix ranges) := by
  unfold State.fetchRemote
  dsimp only
  refine .foldl (fun s a => ?_) _ _
  split
  · exact .refl _
  · split
    · exact .failDesc ..
    · exact .failDesc ..
    · exact .refl _
    · exact .ite (.refl _) (.ite (.failDesc ..) (.descReq ..))

theorem Steady.rowBytesOf {s t : State} {c j : Nat} {x : Started} {f : RowForm} {r : Nat} {b : HBytes}
    (h : s.rowBytesOf c j x f r = .ok (b, t)) : Steady s t := by
  unfold State.rowBytesOf at h
  dsimp only at h
  split at h
  · cases h
    exact .refl _
  split at h
  · cases h
  split at h
  · split at h
    · cases h
      exact .upd
    · cases h
      exact .refl _
  · cases h
    exact .refl _

theorem Steady.deRow (s : State) (c q j : Nat) (x : Started) (f : RowForm) (r : Nat) : Steady s (s.deRow c q j x f r) := by
  unfold State.deRow
  dsimp only
  refine .ite (.refl _) ?_
  split
  · refine .foldl (fun u p => ?_) _ _
    refine .ite (.refl _) ?_
    split
    · exact .failDesc ..
    · exact .after .upd (.after (.descReq ..) (.noteRemote ..))
  split
  · exact .failDesc ..
  next b u hb =>
  refine .after ?_ (.rowBytesOf hb)
  split
  · exact .after (.failDesc ..) (.after .upd (.after .upd (.engCopy ..)))
  · exact .after .upd (.after .upd (.engCopy ..))

theorem Steady.deFill (s : State) (c q j : Nat) (x : Started) : Steady s (s.deFill c q j x) := by
  unfold State.deFill
  dsimp only
  refine .foldl (fun s a => ?_) _ _
  refine .ite (.refl _) ?_
  split
  · exact .after (.failDesc ..) (.after .upd (.engWrite ..))
  · exact .after .upd (.engWrite ..)

theorem Steady.deAtomic (s : State) (c q j : Nat) (x : Started) : Steady s (s.deAtomic c q j x) := by
  unfold State.deAtomic
  extract_lets t op a64 u v
  have hu : Steady s u := .ite (.refl _) (.noteRemote ..)
  refine .after (.ite ?_ (.descReq ..)) hu
  split
  · exact .failDesc ..
  · exact .failDesc ..
  · exact .failDesc ..
  · exact .ite (.failDesc ..) (.after (.setStarted ..) (.after (.noteWrite ..) (.atomicAt ..)))

theorem Steady.deSem (s : State) (c q : Nat) (x : Started) :
    Steady s (s.deSem c q x) :=
  .ite (.ite (.semAdd ..) (.failDesc ..)) (.descReq ..)

theorem Steady.doWork (s : State) (c q j : Nat) (x : Started) : Steady s (s.doWork c q j x) := by
  unfold State.doWork
  dsimp only
  refine .after (.setStarted ..) ?_
  split
  · exact .refl _
  · exact .refl _
  · exact .refl _
  · exact .deFill ..
  · exact .deAtomic ..
  · exact .deSem ..
  · exact .refl _
  · exact .refl _
  · exact .ite (.veWork ..) (.foldl (fun _ _ => .deRow ..) _ _)

theorem Steady.claimStart (s : State) (c q j : Nat) (ix : Word) : Steady s (s.claimStart c q j ix) := by
  unfold State.claimStart
  dsimp only
  split
  · exact .refl _
  · refine .ite (.refl _) (.after (.tagStart ..) ?_)
    refine .after (.setStarted ..) ?_
    split
    · exact .refl _
    · exact .upd

theorem Steady.maskReady (s : State) (c q j : Nat) (ix : Word) (m : Option (Bool × List (List Bool))) :
    Steady s (s.maskReady c q j ix m) := by
  unfold State.maskReady
  dsimp only
  split
  · exact .setStarted ..
  · exact .after (.fetchRemote ..) (.after (.setStarted ..) (.setStarted ..))

theorem Steady.takeMask (s : State) (c q j : Nat) (ix : Word) : Steady s (s.takeMask c q j ix) := by
  unfold State.takeMask
  dsimp only
  split
  · exact .refl _
  · refine .ite (.maskReady ..) (.ite (.after (.ite (.claimStart ..) (.refl _)) (.after (.fetchRemote ..) (.setStarted ..))) ?_)
    split
    · refine .ite (.setStarted ..) (.ite (.after (.fetchRemote ..) (.after (.setStarted ..) (.claimStart ..))) ?_)
      split
      · exact .after (.dropTiles ..) (.claimStart ..)
      · exact .after (.maskReady ..) (.claimStart ..)
    · exact .after (.dropTiles ..) (.claimStart ..)
    · exact .after (.dropTiles ..) (.claimStart ..)

theorem Steady.descSettled (s : State) (c q : Nat) (ix : Word) : Steady s (s.descSettled c q ix) := by
  unfold State.descSettled
  split
  · exact .ite (.cvSettled ..) (.ite (.refl _) (.ite (.takeMask ..) (.ite (.setStarted ..) (.ite (.takeMask ..)
      (.ite (.doWork ..) (.refl _))))))
  · exact .refl _

theorem Steady.sweepDescs (s : State) : Steady s s.sweepDescs := .foldl (fun _ _ => .descSettled ..) _ _

/-! ### Engines and dies that return -/

theorem Steady.pathCheck (s : State) : Steady s s.pathCheck := .upd

theorem Steady.restoreQueue (s : State) (key : Nat) : Steady s (s.restoreQueue key) := .setQueue ..

theorem Steady.engineBack (s : State) (u : Nat) : Steady s (s.engineBack u) :=
  .after (.finishAll ..) (.after .upd (.after (.foldl (fun _ _ => .restoreQueue ..) _ _)
    (.foldl (fun _ _ => .after (.setSv ..) .upd) _ _)))

theorem Steady.coldDie (s : State) (d : Nat) : Steady s (s.coldDie d) := by
  unfold State.coldDie
  dsimp only
  exact .after (.setStore ..) (.after (.foldl (fun _ _ => .setPort ..) _ _) (.after (.foldl (fun _ _ => .setEng ..) _ _)
    (.after (.setDie (by intro x; rfl) ..) (.after (.setWg ..) (.after .upd (.after (.foldl (fun _ _ => .setStack ..) _ _)
      (.setMemDie ..)))))))

theorem Steady.writeOwed (s : State) (d : Nat) : Steady s (s.writeOwed d) := by
  unfold State.writeOwed
  dsimp only
  exact .foldl (fun _ _ => .after (.foldl (fun _ _ => .putRecord ..) _ _) (.setQueue ..)) _ _

theorem Steady.loseLines (s : State) (d : Nat) (lost : List Nat) : Steady s (s.loseLines d lost).1 := by
  unfold State.loseLines
  dsimp only
  exact .after .upd (.foldl (fun _ _ => .after (.setMem ..) .upd) _ _)

end Sys2Proof.Machine
end

