-- ==== Sys2Proof/Proofs/ResetCommandsAndEnds.lean ====
section
/-! PROOFS. O21: the commands that start a reset, and the ends of the resets of an engine and of a die (R400, R404, R406, R409, R411
to R413, R502). That a die takes part again rests on `Steady`: what follows its release sets no die into reset. -/

-- One theorem after the other: threads that wait for one another would each take a stack of the check's memory.
set_option Elab.async false

namespace Sys2Proof.Machine

/-! ### Commands -/

theorem dContextReset_body {s : State} {a : List Nat} (h : (s.ctx (arg a 0)).st ≠ .free) (w : Who) :
    dContextReset.body s w a = { s := s.startCtxReset (arg a 0) 1 [w], status := dPending } := by
  simp only [dContextReset, h, if_false]

theorem dContextRelease_body {s : State} {a : List Nat} (h : (s.ctx (arg a 0)).st ≠ .free) (w : Who) :
    dContextRelease.body s w a = { s := s.startCtxReset (arg a 0) 3 [w], status := dPending } := by
  simp only [dContextRelease, h, if_false]

theorem dEngineReset_body {s : State} {a : List Nat} {j : Nat} (h : engArg (arg a 0) = some j) (w : Who) :
    dEngineReset.body s w a = { s := s.startEngReset j 1 [w], status := dPending } := by
  simp only [dEngineReset, h, Option.getD_some]

/-- A die that is on, or that a reset already holds, can be reset (log 22). -/
theorem dDieReset_body {s : State} {a : List Nat}
    (h : (s.die (arg a 0)).inReset = false ∨ (s.die (arg a 0)).resetStart ≠ none) (w : Who) :
    dDieReset.body s w a = { s := s.startDieReset (arg a 0) 1 [w], status := dPending } := by
  have hon : ¬ ((s.die (arg a 0)).inReset && (s.die (arg a 0)).resetStart.isNone) = true := by
    rw [Bool.and_eq_true, Option.isNone_iff_eq_none]
    rintro ⟨hin, hnone⟩
    exact h.elim (fun hout => Bool.false_ne_true (hout.symm.trans hin)) fun hstart => hstart hnone
  exact if_neg hon

theorem dFaultRecordRead_body {s : State} {a : List Nat}
    (h : bitsOf (((s.ctx (arg a 0)).faultRec.map (·.toNat)).getD 0 0) 11 8 ≠ 0) (w : Who) :
    dFaultRecordRead.body s w a = { s := s, words := (s.ctx (arg a 0)).faultRec.map (·.toNat) } := if_neg h

/-! ### The end of an engine's reset (R409) -/

/-- The reset of an engine that is the first of its pair ends: its patterns run, it is logged, and the engine is back. -/
theorem exec_engineResetEnd_resetting {s : State} {j : Fin 112} (hst : (s.engine j).st = .resetting)
    (hdie : (s.die (engDie j)).inReset = false) (hpair : (s.pairOf j).headD j = j.val) (l : List PatternResult) :
    exec (.engineResetEnd j l) s = .next ((((s.resetRun j l).log 0x0703 4 (srcDieUnit (engDie j) (engUnit j))
      [j.val, (s.engine j).resetCause, (s.engine j).stopped, (s.engine j).lostCtxs,
       b2n ((s.sv j).st != .outOfService && s.silent.packValid && l.any (·.fail)), ((s.resetRun j l).sv j).st.code,
       ((s.resetRun j l).time.mono - (s.engine j).resetStart) / 1000]).engineBack j).jobSweep) := by
  refine congrArg Host.Outcome.next (if_neg ?_)
  simp [hst, hdie, hpair, -List.headD_eq_head?_getD]

/-! ### The end of a die's reset (R411 to R413) -/

/-- A die without a reset: nothing is due. -/
theorem exec_dieResetEnd_none {s : State} {d : Fin 4} (h : (s.die d).resetStart = none) (l : List (Nat × List PatternResult))
    (n : List Nat) : exec (.dieResetEnd d l n) s = .next s := by
  refine congrArg Host.Outcome.next ?_
  dsimp only
  split
  · next hstart _ => exact absurd (h.symm.trans hstart) (by simp)
  · rfl

/-- A die after its reset. -/
def DieSt.outOfReset (x : DieSt) : DieSt :=
  { x with inReset := false, resetStart := none, resetCause := 0, resetPorts := 0, resetStopped := 0, waiters := [] }

/-- What else the end of a die's reset does leaves every die's reset as it is. -/
theorem exec_dieResetEnd_steady {s : State} {d : Fin 4} {start c : Nat} (hstart : (s.die d).resetStart = some start)
    (hserving : s.serving = some c) (l : List (Nat × List PatternResult)) (n : List Nat) :
    ∃ t, exec (.dieResetEnd d l n) s = .next t ∧ Steady (s.setDie d DieSt.outOfReset) t := by
  refine ⟨_, rfl, ?_⟩
  dsimp only
  split
  · exact .after (.jobSweep ..) (.after (.sweepDescs ..) (.after (.unstall ..) (.after (.finishAll ..) (.after (.logFw ..)
      (.after (.foldl (fun _ _ => .train ..) _ _) (.after (.pathCheck ..) (.after (.releaseHarts ..) (.after (.writeOwed ..)
      (.after (.foldl (fun _ _ => .semAdd ..) _ _) (.after .upd (.after (.foldl (fun _ _ => .after (.engineBack ..)
      (.resetRun ..)) _ _) (.after (.setMemDie ..) (.after (.foldl (fun _ _ => .setStack ..) _ _) (.after (.loseLines ..)
      (.coldDie ..)))))))))))))))
  · next hnone => exact absurd hserving (hnone start c hstart)

/-- Which dies are in reset is what the states read of them. -/
theorem Steady.die_inReset {s t : State} (h : Steady s t) (d : Nat) : (t.die d).inReset = (s.die d).inReset := by
  have hd : (t.dies.map (·.inReset)).getD d ({} : DieSt).inReset = (s.dies.map (·.inReset)).getD d ({} : DieSt).inReset := by
    rw [h.resets]
  rwa [List.getD_map, List.getD_map] at hd

/-- A die with a reset is one of the dies: one beyond them reads as a die without. -/
theorem State.die_lt_of_resetStart {s : State} {d start : Nat} (h : (s.die d).resetStart = some start) : d < s.dies.length := by
  by_contra hd
  rw [State.die, List.getD_eq_default _ _ (Nat.le_of_not_lt hd)] at h
  cases h

theorem exec_dieResetEnd_out {s : State} {d : Fin 4} {start c : Nat} (hstart : (s.die d).resetStart = some start)
    (hserving : s.serving = some c) (l : List (Nat × List PatternResult)) (n : List Nat) :
    ∃ t, exec (.dieResetEnd d l n) s = .next t ∧ (t.die d).inReset = false := by
  obtain ⟨t, hexec, hsteady⟩ := exec_dieResetEnd_steady hstart hserving l n
  refine ⟨t, hexec, ?_⟩
  rw [hsteady.die_inReset, State.die_setDie_self (State.die_lt_of_resetStart hstart)]
  rfl

/-! ### Heartbeats (R400) -/

/-- Of a die in reset no heartbeat is checked. -/
theorem exec_heartbeatCheck_inReset {s : State} {d : Fin 4} (h : (s.die d).inReset = true) (b : List (Nat × Nat)) :
    exec (.heartbeatCheck d b) s = .next s := congrArg Host.Outcome.next (if_pos h)

/-- Otherwise the queues on the die's engines are checked, one after the other. -/
theorem exec_heartbeatCheck_on {s : State} {d : Fin 4} (h : (s.die d).inReset = false) (b : List (Nat × Nat)) :
    exec (.heartbeatCheck d b) s = .next ((s.eng.queues.filter fun e => engDie e.2.eng == d.val).foldl (fun s e =>
      s.checkQueue d (e.1 / 64) (e.1 % 64) ((b.lookup e.1).getD 0)) s) :=
  congrArg Host.Outcome.next (if_neg (by simp [h]))

/-- Settles O21: each command starts its reset or answers the record, and the ends are those above. The results of an engine's
reset without a sieve run are 0 by log 28, and its event comes from the engine by log 52. -/
theorem resetCommandsAndEnds : Obligations.ResetCommandsAndEnds := by
  unfold Obligations.ResetCommandsAndEnds
  refine ⟨?_, ?_, ?_, ?_, ?_, ?_, ?_, ?_, ?_, ?_, ?_⟩
  · intro r s h hown hl hc hst
    exact congrArg _ (runDarid_body (d := dContextReset) h hown (by simp [dContextReset, hl]) (badWord_ctxWord hc) rfl
      (dContextReset_body hst _))
  · intro r s h hl hc hst
    exact congrArg _ (runDarid_body (d := dContextRelease) h (fun _ => rfl) (by simp [dContextRelease, hl]) (badWord_ctxWord hc)
      rfl (dContextRelease_body hst _))
  · intro r s j h hl hj
    exact congrArg _ (runDarid_body (d := dEngineReset) h (fun _ => rfl) (by simp [dEngineReset, hl]) (badWord_engArg hj) rfl
      (dEngineReset_body hj _))
  · intro r s h hl hd hon
    exact congrArg _ (runDarid_body (d := dDieReset) h (fun _ => rfl) (by simp [dDieReset, hl]) (badWord_none (by simpa using hd))
      rfl (dDieReset_body hon _))
  · intro r s h hown hl hc hvalid
    exact congrArg _ (runDarid_body (d := dFaultRecordRead) h hown (by simp [dFaultRecordRead, hl]) (badWord_ctxWord hc) rfl
      (dFaultRecordRead_body hvalid _))
  · intro s j l hst hdie hpair
    exact ⟨_, rfl, exec_engineResetEnd_resetting hst hdie hpair l⟩
  · intro s d l n h
    exact exec_dieResetEnd_none h l n
  · intro s d l n start c hstart hserving
    exact exec_dieResetEnd_out hstart hserving l n
  · intro s d b h
    exact exec_heartbeatCheck_inReset h b
  · intro s d b h hnone
    rw [exec_heartbeatCheck_on h, List.filter_eq_nil_iff.mpr fun e he => by simpa using hnone e he]
    rfl
  · intro s d b k u h hq hd
    rw [exec_heartbeatCheck_on h, hq, List.filter_cons_of_pos (by simpa using hd)]
    rfl

end Sys2Proof.Machine
end
